-- ==== Sys2Proof/Word.lean ====
section
/-! DEFINITION. The widths the spec moves as bits: 64-bit registers, 64-byte lines and byte masks. -/
namespace Sys2Proof

/-- A 64-bit register or indirect word (R546, R31). -/
abbrev Word := BitVec 64

/-- One 64-byte line; byte i of the line is bits 8i+7 to 8i (multi-byte values are little-endian, 00_scope). -/
abbrev Line := BitVec 512

/-- The 64-bit byte mask of a line (R95): bit i covers byte i. -/
abbrev Mask := BitVec 64

/-- One byte. -/
abbrev Byte := BitVec 8

end Sys2Proof
end

