-- ==== Sys2Proof/Syntax.lean ====
section
/-! DEFINITION. The commands of the block: one constructor of Instr per row of the table of operations and events,
with the operands a command brings from outside (an address, data, what a sensor read, what a drive or a host
answered) and the choices that the spec leaves to the hardware (which frame, which queue entry). Commands without operands
stand last: Lean's compiled code gives objects only 245 constructor tags. -/
namespace Sys2Proof

/-- MetaField and MetaValue of a CXL.mem request, as R153 sorts them. -/
inductive Meta where
  | noOp | invalid | shared | any
  deriving DecidableEq, Repr

/-- What the channel's check logic found in a read (R206, R207). -/
inductive ReadErr where
  | good | corrected | uncorrectable
  deriving DecidableEq, Repr

/-- How a beam read ended (R302, R304): it passed every check, the drive answered an NVMe error status, a check of
HCRC, tags, OFFSET or PCRC failed, or the HPC-1 stream has a decode error (R300). -/
inductive BeamErr where
  | good | status | check | decode
  deriving DecidableEq, Repr

/-- The tier transitions of R233. -/
inductive Transition where
  | toT1 | toT2 | toT3
  deriving DecidableEq, Repr

/-- Who asked for a tier transition (R233, R237). -/
inductive TransitionCause where
  | read | write | pin | descriptor | policy | warmer
  deriving DecidableEq, Repr

/-- Why a running reserve test is aborted (R327). -/
inductive AbortCause where
  | braceOrCommit | cap | fiveSeconds
  deriving DecidableEq, Repr

/-- The three kinds of commit record (R290). -/
inductive CommitKind where
  | checkpoint | flush | shutdown
  deriving DecidableEq, Repr

/-- The FATAL errors of R488, in row order, with the vault sequencer's soundness beside the second. -/
inductive FatalCause where
  | ringStop | selfCheck | trw
  deriving DecidableEq, Repr

/-- A kind of unit with a leaky bucket, numbered as R474 numbers it. -/
inductive UnitKind where
  | rank | channel | ncWay | sfWay | tile | slot | hostLane | hostPort | slvLane
  deriving DecidableEq, Repr

/-- Where an SRAM error lies that the counting alone does not cover (R94, R134, R230): the data of a way in a set, its tag entry, a
write-buffer entry, the tree bits of a set, a cached map entry. -/
inductive SramErr where
  | plain | data (set : Nat) | tag (set : Nat) | entry (id : Nat) | tree (set : Nat) | mapEntry (pn : Nat) | credits
  deriving DecidableEq, Repr

/-- One lane entry of an RMAP packet (R453). -/
structure RmapEntry where
  index : Nat
  size : Nat
  peer : Nat
  window : Bool
  mstate : Nat
  complete : Bool
  deriving DecidableEq, Repr

/-- Content of a HELLO packet (R453). -/
structure HelloPacket where
  glbId : Word
  glbRev : Word
  pairId : Word
  setId : Word
  session : Nat
  fc : Bool
  health : Nat
  deriving DecidableEq, Repr

/-- The header words of a flit after FEC correction (R446). -/
structure FlitHeader where
  seq : Nat
  ack : Nat
  cls : Nat
  xoff : Bool
  words : Nat
  nseq : Nat
  nv : Bool
  nmap : BitVec 16
  cc0 : Nat
  cc1 : Nat
  cc2 : Nat
  cc3 : Nat
  ccs : Nat
  deriving DecidableEq, Repr

/-- What a channel reports at cold reset: SPD content and the results of fast and full training (R179, R180, R181,
R216, R217). row is the configuration row of R179 (0 MRDIMM-8800, 1 RDIMM-6400, 2 RDIMM-5200), rated the rate in MT/s that the
SPD states, identity the DIMM identity of the slots, crcOk the copies of the stored record that pass their CRC, counts the
oscillator counts of the ranks, timing what full training found. -/
structure TrainReport where
  spdValid : Bool
  row : Nat
  rated : Nat
  dimmGib : Nat
  ranksPerDimm : Nat
  rfcNs : Nat
  identity : List Word
  crcOk : BitVec 2
  counts : List Nat
  patternOk : Bool
  fullOk : Bool
  timing : List Word
  deriving DecidableEq, Repr

/-- One drive as bring-up finds it at a beam port: the six conditions of R266, whether LBAs 0 to 15 are blank (R307),
and what its superblock in force says (R280); idMatch is the serial-number and EUI-64 check of R308. -/
structure DriveReport where
  port : Nat
  conditions : BitVec 6
  blank : Bool
  setId : Word
  slot : Nat
  sbgen : Nat
  lbas : Nat
  idMatch : Bool
  check : Word
  width : Nat
  rate : Nat
  power : List (Nat × Nat)
  deriving DecidableEq, Repr

/-- The board record (R570), with its GEN. -/
structure Board where
  gen : Nat
  bank : Word
  flush : Word
  sense : Word
  floor : Word
  capUnits : Nat
  deriving DecidableEq, Repr

/-- A firmware image that a boot-header copy names (R571): version, security version, SHA-384 digest, and whether its signature
verifies under the fused key. -/
structure ImageReport where
  version : Nat
  svn : Nat
  digest : BitVec 384
  verifies : Bool
  deriving DecidableEq, Repr

/-- What the boot ROM and the device find in the boot flash at supply-good (R567 to R571): the firmware images; the copies of the board
record that pass their CRC, which the board programs while RESET# is asserted; bad, the copies of the device's own records that fail
theirs: bit 2k is the newest copy of record k and bit 2k + 1 the other (0 identity, 1 retirement, 2 commit, 3 pair, 4 final ledger);
badTests and badLife, the failing entries of the reserve record ring and of the life ring, counted back from the newest. -/
structure FlashReport where
  images : List ImageReport
  boards : List Board
  bad : BitVec 10
  badTests : List Nat
  badLife : List Nat
  deriving DecidableEq, Repr

/-- The straps sampled at supply-good (R566). -/
structure Straps where
  portEn : BitVec 8
  bifur : BitVec 8
  mgmt : Nat
  mgmtBus : Bool
  beamInit : Bool
  setRelease : Bool
  deriving DecidableEq, Repr

/-- The commands. A source src is 0 to 15 for head Hh and 16 for the management interface, as ARG0 of the ACCESS
notice numbers them (R491). -/
inductive Instr where
  -- CXL.mem traffic and its internal steps (01, 04, 05)
  | memRd (h tag hpa : Nat) (mv : Meta)
  | memRdData (h tag hpa : Nat) (mv : Meta)
  | memInv (h tag hpa : Nat)
  | memWr (h tag hpa : Nat) (mv : Meta) (data : Line) (poison : Bool)
  | memWrPtl (h tag hpa : Nat) (mv : Meta) (data : Line) (mask : Mask) (poison : Bool)
  | memClnEvct (h tag hpa : Nat)
  | memSpecRd (h hpa : Nat)
  | birspI (h line : Nat)
  | birspS (h line : Nat)
  | birspE (h line : Nat)
  | biConflict (h line : Nat)
  | recalledWriteback (h tag hpa : Nat) (mv : Meta) (data : Line) (mask : Mask) (poison : Bool)
  | openTxnClose (line : Nat)
  | sfRetryQueueRetry (tile set : Nat)
  | sfVictimFree (line : Nat)
  | buddyConfirm (tile id : Nat)
  | wbEntryDrain (tile id twin : Nat)
  | dramWriteConfirm (ch id : Nat) (crcErr : Bool)
  | dramReadComplete (ch id : Nat) (err : ReadErr) (line : Nat) (otherCopyBad : Bool)
  | ncFillComplete (line : Nat)
  | ncEvictWritebackConfirm (line : Nat)
  | wbRetryQueueRetry (tile : Nat)
  | atomicAtMemory (line : Nat)
  | gpfPhase1 (h : Nat)
  | gpfPhase2 (h : Nat)
  -- host links and resets of one head (03, 19)
  | altProtocolOffer (h vendor protocol : Nat) (details : BitVec 16)
  | linkL0Reached (h rate width : Nat) (flit256 ide cxl : Bool)
  | eq128Fail (h : Nat)
  | retrain (src h : Nat)
  | linkRecoveryEnter (h : Nat)
  | linkOutOfL0Timeout (h : Nat)
  | linkDrop (h : Nat)
  | ideIntegrityFail (h : Nat)
  | laneRetire (port lane : Nat)
  | headPerst (h : Nat)
  | cxlReset (h : Nat)
  | functionLevelReset (h : Nat)
  -- mailbox, DOE and SPDM (03, 15)
  | getEventRecords (h log : Nat)
  | clearEventRecords (h log : Nat) (handles : Option (List Nat))
  | getEventInterruptPolicy (h : Nat)
  | setEventInterruptPolicy (h : Nat) (vectors : List (Option Nat))
  | getTimestamp (h : Nat)
  | setTimestamp (src : Nat) (value : Word)
  | getSupportedLogs (h : Nat)
  | getLog (h : Nat)
  | identifyMemoryDevice (h : Nat)
  | getPoisonList (h start length : Nat)
  | injectPoison (src dpa : Nat)
  | clearPoison (src dpa : Nat) (data : Line)
  | sanitize (src : Nat)
  | secureErase (src : Nat)
  | unsupportedMailboxOpcode (src opcode : Nat)
  | doeDiscovery (h : Nat)
  | cdatRead (h : Nat)
  | spdmRequest (src code : Nat) (authenticated : Bool)
  | custodianSet (src : Nat) (key : BitVec 768)
  | custodyGet (src : Nat)
  | keyDeliver (src : Nat) (setId : Word) (bkek : BitVec 256) (drives : List DriveReport)
  | ideKeyProg (h stream keySet : Nat) (key : BitVec 256)
  | ideKSetGo (h stream keySet : Nat) (contain : Bool)
  -- region table (02)
  | rgnWrite (src region word : Nat) (value : Word)
  | rgnBindingCompareDone (region : Nat)
  | dlostClear (region : Nat)
  -- near cache (04)
  | ncCtlWrite (src : Nat) (value : Word)
  | lockWayConvert (slice way : Nat)
  | wayPowerDown (slice way : Nat)
  | wayPowerUp (slice way : Nat)
  | ncWayRetire (slice way : Nat)
  -- ownership, migration, tiles and snoop filter (05)
  | probe (tile : Nat) (h tag line : Nat)
  | offer (line target : Nat)
  | accept (line : Nat)
  | refuse (line : Nat)
  | commit (line : Nat)
  | offerReceived (line : Nat)
  | goneTimeout (tile line : Nat)
  | settlingTimeout (tile line : Nat)
  | evictHandOff (line : Nat)
  | tileRetire (tile cause : Nat)
  | tileRecoveryEnd (tile : Nat)
  | wideClr (src : Nat)
  | sfWayRetire (slice way : Nat)
  -- DRAM (06)
  | refresh (ch rank group : Nat) (postpone : Bool)
  | dramQueueAging (ch id : Nat)
  | oscillatorRead (ch rank count : Nat)
  | dimmTempRead (ch : Nat) (temps : List (Option Nat))
  | patrolScrubStep (ch : Nat)
  | rankRetire (ch rank : Nat) (bad : List (Nat × Nat × Bool))
  | channelRetire (ch : Nat)
  | channelRebuildEnd (ch : Nat)
  | channelTrain (ch : Nat) (report : TrainReport)
  -- map, tiering, cleaning, swatches (07)
  | mark (pn : Nat)
  | jqLookup (pn line : Nat)
  | mapLineReadComplete (pn : Nat) (copyBad : Bool)
  | tierTransitionStart (pn : Nat) (tier : Transition) (cause : TransitionCause) (place : Nat)
  | tierTransitionComplete (pn : Nat)
  | placementSweepStep (tile pn place : Nat)
  | cleanStart (pn : Nat)
  | cleanSyncAnswer (pn tile : Nat)
  | cleanComplete (pn : Nat)
  | mapFrameRebuild (unit frame : Nat)
  | mapUnitLoad (unit frame : Nat)
  | warmerFill (pn place : Nat)
  | swatchHoldAnswer (slot tile : Nat)
  | genSweep (region : Nat)
  -- beam (08)
  | stripeWrite (stream : Nat) (expired : Bool)
  | unitWriteComplete (stripe slot : Nat) (ok : Bool)
  | deltaRecordWrite (expired : Bool)
  | commitRecordWrite (kind : CommitKind)
  | beamReadComplete (addr : Nat) (err : BeamErr)
  | hedgeTimeout (addr : Nat)
  | recordReconstruct (addr : Nat) (ok : Bool)
  | slotRetire (slot cause : Nat)
  | driveAdopt (drive : DriveReport)
  | beamAssemble (drives : List DriveReport)
  | gcRelocate (addr : Nat)
  | segmentFree (segment : Nat)
  | smartLogRead (slot used : Nat) (critical : BitVec 8)
  | nvmeAbort (slot addr : Nat)
  | asyncEventComplete (slot : Nat) (critical : BitVec 8) (fatalStatus : Bool)
  -- seals and the reserve (09)
  | sealL1 (ring : Nat)
  | sealL2 (ring : Nat)
  | sealL3 (ring : Nat)
  | sealSync (ring tile : Nat)
  | reserveSample (vCode iCode : Nat)
  | testNow (src : Nat)
  | testAbort (cause : AbortCause)
  -- steward and vault (01, 10)
  | vinSample (code : Nat) (pfLow : Bool)
  | drill (src : Nat)
  | shutdown (src : Nat)
  -- service time (11)
  | devloadWindowEnd (h : Nat) (beWaitUs : Nat)
  -- rings and descriptors (12)
  | doorbellLineWrite (h tag hpa : Nat) (data : Line) (mask : Mask) (poison : Bool)
  | hdDoorbell (h : Nat) (value : Word)
  | rngCtlEnSet (src ring : Nat) (value : Word)
  | rngCtlEnClear (src ring : Nat) (value : Word)
  | ringContextWrite (src ring word : Nat) (value : Word)
  | descriptorFetch (ring : Nat) (hostData : Line) (hostOk : Bool)
  | descriptorStep (ring : Nat)
  | completionWrite (ring : Nat)
  | msixCoalesceTimeout (ring : Nat)
  | nop (ring : Nat)
  | quiesceDrain (ring : Nat)
  | quiesceHold (ring : Nat)
  | quiesceRelease (ring : Nat)
  | quiesceHoldTimeout (region : Nat)
  | copy (ring : Nat)
  | fill (ring : Nat)
  | zero (ring : Nat)
  | clean (ring : Nat)
  | inval (ring : Nat)
  | discard (ring : Nat)
  | promote (ring : Nat)
  | demoteT2 (ring : Nat)
  | demoteT3 (ring : Nat)
  | pin (ring : Nat)
  | unpin (ring : Nat)
  | fadd (ring : Nat)
  | fand (ring : Nat)
  | atomicFor (ring : Nat)
  | swap (ring : Nat)
  | cas16 (ring : Nat)
  | swatchTake (ring : Nat)
  | swatchDrop (ring : Nat)
  | swatchExport (ring : Nat)
  | quiet (ring : Nat)
  | dumpNow (ring : Nat)
  | takeover (ring : Nat)
  | brakeSet (src h : Nat) (value : Word)
  | brakeRelease (src h : Nat) (value : Word)
  | brakeRings (src h : Nat) (value : Word)
  -- selvedge link (13)
  | slvEn (src : Nat) (value : Word)
  | slvTrainingStep3 (rate width : Nat)
  | slvLaneRetire (lane : Nat)
  | dataFlit (hdr : FlitHeader) (payload : List Word) (crcOk macOk : Bool)
  | nullFlit (hdr : FlitHeader) (crcOk : Bool)
  | retxTimeout (seq : Nat)
  | slvXoffIn (level : Bool)
  | hello (p : HelloPacket)
  | slvSpdm (step : Nat) (ok : Bool)
  | session (value : Nat)
  | rmap (entries : List RmapEntry)
  | health (health : Nat) (withhold : Bool)
  | taken (region : Nat)
  | returnPkt (region : Nat)
  | mwr (mreg offset : Nat) (full gap : Bool) (prio : Nat) (mask : Mask) (data : Line)
  | mack (count health : Nat) (withhold : Bool)
  | rack (count : Nat)
  | rpage (mreg form page session : Nat) (data : List (Nat × Line))
  | rdone (mreg session : Nat)
  | undefinedPacket (type len : Nat)
  | resyncPageSend (region page : Nat)
  | slvReturnGo (src region : Nat)
  -- faults and notices (14)
  | bucketLeak (kind : UnitKind) (unit : Nat)
  | errorCounted (kind : UnitKind) (unit weight : Nat) (place : SramErr)
  | unitRetire (kind : UnitKind) (unit : Nat)
  | fatalError (cause : FatalCause) (unit : Nat) (vaultSound : Bool)
  | ntcPop (src size : Nat)
  | fltInjectCorrected (src : Nat) (kind : UnitKind) (unit : Nat)
  | fltInjectRetire (src : Nat) (kind : UnitKind) (unit : Nat)
  -- keys (15)
  | generate (src slot : Nat)
  | erase (src slot : Nat)
  -- counters and tapestry (16)
  | pmcSet (src : Nat) (value : Word)
  | pmcDumpEn (src : Nat) (value : Word)
  | tapestryMinuteSample
  | tapestryCheck (changed : List (Nat × Line)) (noHeader noChain : BitVec 2)
  | tapestryFetch (src index : Nat)
  | rftFetch (src index : Nat)
  | trainFetch (src index : Nat)
  | commitFetch (src index : Nat)
  -- power states (17)
  | wakeAhead (resource : Nat)
  | stateExitComplete (resource : Nat)
  | quietEnd (h : Nat)
  -- registers (18)
  | glbFence (src : Nat)
  | idxDataAccess (src pair : Nat) (write : Option Word)
  | mgmtHeadWrite (src : Nat) (value : Word)
  | softReset (src : Nat)
  | regWrite (src offset size : Nat) (value : Word)
  -- bring-up and pins (19, 20)
  | supplyGood (straps : Straps) (flash : FlashReport)
  | firstTimeInit (drives : List DriveReport)
  | thermalSensorRead (sensors : List Nat)
  | hdmDecoderCommit (h decoder hpaBase hpaSize ways granularity dpaSkip : Nat) (dbType lock commit : Bool)
  | beamLinkDownTimeout (port : Nat)
  | adoptRebuildEnd (slot : Nat)
  | tokenBucketRefill (h fclk : Nat)
  -- the commands without operands, in the order of their chapters
  | scrWayConvert
  | scrWayReturn
  | heatEpochTick
  | checkpoint
  | slotAvoidEnd
  | chargeEstimate
  | testStart
  | testSettled
  | testEsrSample
  | testDischargeEnd
  | testEstimate
  | testPostponed
  | estimateAccept
  | healthChange
  | ledgerRecompute
  | stewardWatchdogExpire
  | recovery
  | pfInAssert
  | admissionStop
  | flushEnergySample
  | wbDrainEnd
  | stage1End
  | stage2End
  | stage3Start
  | flushCommitConfirmed
  | stage3End
  | stage4End
  | holdEnDeassert
  | resume
  | supplyFail
  | memoryActive
  | coldRestoreStep6
  | qosRateRecompute
  | slvReceiverDetect
  | slvRecovery
  | flitBuild
  | helloRetry
  | pfNotice
  | fallback
  | mwrEnqueue
  | pairHoldTimeout
  | slvDivFull
  | trwScrub
  | secKeyCmdComplete
  | periodicCapture
  | dumpImageWritten
  | tapestryFaultFlush
  | tapestryFlushEnd
  | calendarEvaluate
  | thermtrip
  | resetAssert
  | slvL0Regained
  | stewardRestartDone
  | sanitizeComplete
  deriving DecidableEq, Repr

end Sys2Proof
end

