-- ==== Sys2Proof/Decode.lean ====
section
/-! DEFINITION. The command that a word spells by the table's bits. The table of operations and events gives no row any
bits (every row's list of fields is empty), so no word spells a command. -/
namespace Sys2Proof

/-- The command a word of nbits bits spells: none, since no row of the table has an encoding. -/
def decodeTableWord (_nbits _w : Nat) : Option Instr := none

end Sys2Proof
end

