-- ==== Sys2Proof/Config.lean ====
section
/-! DEFINITION. What an implementation fixes and the spec leaves open: free values without a body, so that no proof
can see them. Each is named in the assumption log. -/
namespace Sys2Proof

/-- The n-th free value of width w: the value the device holds where the spec states none (see the log). -/
opaque Config.freeValue : Nat → BitVec 64

/-- The DPA an ACCESS notice reports for a request that no decoder maps. -/
opaque Config.unmappedDpa : Nat → Nat

/-- CLEN that the encoder gives a TOKENS page, from a digest of the page; R608 bounds it by the baseline. -/
opaque Config.encoderLen : Nat → Nat

/-- The check bits of a near-cache tag entry over its bits 31:0 (R92): the spec names the kind of code and not its matrix. -/
opaque Config.tagCheck : BitVec 32 → BitVec 7

/-- The check bits of a side word over its bits 24:0 (R93). -/
opaque Config.sideCheck : BitVec 25 → BitVec 7

/-- The check bits of a snoop-filter entry over its bits 55:0 (R148). -/
opaque Config.sfCheck : BitVec 56 → BitVec 8

/-- The set of the pull table that holds a line (R161 gives the organisation, not the index). -/
opaque Config.pullSet : Nat → Nat

/-- The way of a full pull set that a new line takes, by the FCLK cycle. -/
opaque Config.pullVictim : Nat → Nat

/-- The entry of a full jacquard-cache set that gives way, by the FCLK cycle (R229 names pseudo-LRU and not its tree). -/
opaque Config.jqVictim : Nat → Nat

/-- The check bits of a cached forward entry (R229): over the tag, the entry, and TWIN, TWINV and the flags. -/
opaque Config.jqCheck : BitVec 16 → Word → Word → BitVec 9

/-- The directory entry that gives way in a full directory cache, by the FCLK cycle (R222 gives no organisation). -/
opaque Config.dirVictim : Nat → Nat

/-- The set of the lent table that holds a line (R161 gives the organisation, not the index). -/
opaque Config.lentSet : Nat → Nat

/-- The background cleaning rate the steward chooses at a time, before its bounds (R249). -/
opaque Config.cleanRate : Nat → Nat

/-- The n-th draw of the device's random generator (R498). -/
opaque Config.draw : Nat → BitVec 256

/-- Values that PHY_LANE_STAT shows for a lane: preset and eye margins of its last training. -/
opaque Config.lanePhy : Nat → BitVec 20

/-- Word w of a training record by its items (R215 gives their order and sizes, not their encodings). -/
opaque Config.trainWord : List Nat → Nat → BitVec 64

/-- The CRC-32 of a training record by its items (R215). -/
opaque Config.trainCrc : List Nat → BitVec 32

/-- The delays of a channel after an oscillator read of a rank, by those before, the rank, its count at training and its count now
(R203 gives no function). -/
opaque Config.adjustDelays : List (BitVec 64) → Nat → Nat → Nat → List (BitVec 64)

/-- The device's root key (R496), from which the tapestry key comes (R523): no register or command reads it. -/
opaque Config.rootKey : BitVec 256

/-- Word i of a measurement block of R509 whose digest the spec gives no value: 1 and 4; and of 2 and 5 where no
image runs or no board record is loaded. -/
opaque Config.measure : Nat → Nat → Word

/-- The lowest security version the device accepts, which is fused (R571). -/
opaque Config.svnFloor : Nat

/-- UNIT of an EVENT record whose notice class names no unit (R523 gives none). -/
opaque Config.eventUnit : Nat → Nat

/-- Bytes that a HEAD word of the first image after EN went to 1 shows, by capture cycle and event (R521 gives none: the
word is INVALID). -/
opaque Config.firstWindow : Nat → Nat

/-- Word i of a selvedge flit's encrypted payload and IDE MAC, by the direction's invocation count, the header words and
the plaintext (R445): the keys never leave the device. -/
opaque Config.slvCipher : Nat → List Word → Nat → Word

/-- Word i of what the mailbox reads as the commit record in force while there is none (R559). -/
opaque Config.commitWord : Nat → Nat → Word

/-- Word i of the SLOT_ID entry of a slot: serial number and EUI-64 of its drive (R280). -/
opaque Config.slotId : Nat → Nat → Word

/-- CRC-32C of stored payload, which is encrypted under keys that never leave the device, by its place and sequence (R284, R293). -/
opaque Config.payloadCrc : Nat → Nat → BitVec 32

/-- Microseconds to the next timer of the steward firmware at a time (R536). -/
opaque Config.stewardTimer : Nat → Nat

/-- That timer is a drive log read, which needs the beam (R536). -/
opaque Config.stewardDrive : Nat → Bool

/-- Word i of the bytes of KEYWRAP that CUSTODY_GET returns (R500, R502), by the number of superblock generations: they are
wrapped under keys that never leave the device. -/
opaque Config.keyWrapWord : Nat → Nat → Word

/-- The Details that the device answers a CXL alternate-protocol offer with (R63: "as CXL defines"). -/
opaque Config.cxlDetails : BitVec 16 → BitVec 16

/-- RwD credits that the device has granted a head; at most 512 of them count (R337). -/
opaque Config.rwdCredits : Nat → Nat

/-- Word i of the body of an SPDM response, by its code: digests, certificates, signatures and keys (R509). -/
opaque Config.spdmWord : Nat → Nat → Word

/-- The link partner of a head supports L0p (R539). -/
opaque Config.partnerL0p : Nat → Bool

end Sys2Proof
end

