-- ==== Sys2Proof/Machine/Table.lean ====
section
/-! DEFINITION. Sparse tables: lists of (key, value) pairs with strictly rising keys and no value equal to what an
unlisted key reads as. Every indexed store of the model (DRAM lines, registers of heads, ring contexts, map entries,
near-cache ways) is one, so equal contents are equal data. -/
namespace Sys2Proof.Machine

/-- A sparse table from a number to a value. -/
abbrev Tbl (α : Type) := List (Nat × α)

/-- The value at key k, d where no entry lists k. -/
def Tbl.get {α : Type} (d : α) : Tbl α → Nat → α
  | [], _ => d
  | (j, v) :: t, k => if k = j then v else if k < j then d else Tbl.get d t k

/-- Put v in front of the rest of a table, leaving out an entry that an unlisted key reads as. -/
def Tbl.keep {α : Type} [DecidableEq α] (d : α) (k : Nat) (v : α) (t : Tbl α) : Tbl α :=
  if v = d then t else (k, v) :: t

/-- The table with key k set to v, in canonical form. -/
def Tbl.set {α : Type} [DecidableEq α] (d : α) : Tbl α → Nat → α → Tbl α
  | [], k, v => Tbl.keep d k v []
  | (j, w) :: t, k, v =>
    if k < j then Tbl.keep d k v ((j, w) :: t)
    else if k = j then Tbl.keep d k v t
    else (j, w) :: Tbl.set d t k v

/-- Every key of the table is above b, keys rise strictly, and no entry holds d. -/
def Tbl.wfFrom {α : Type} [DecidableEq α] (d : α) : Nat → Tbl α → Bool
  | _, [] => true
  | b, (k, v) :: t => decide (b ≤ k) && decide (v ≠ d) && Tbl.wfFrom d (k + 1) t

/-- The canonical form. -/
def Tbl.wf {α : Type} [DecidableEq α] (d : α) (t : Tbl α) : Bool := Tbl.wfFrom d 0 t

/-- Keep only the entries that p accepts. -/
def Tbl.restrict {α : Type} (p : Nat → α → Bool) (t : Tbl α) : Tbl α := t.filter fun e => p e.1 e.2

/-- Change every listed value by f, dropping what becomes d. -/
def Tbl.mapVals {α : Type} [DecidableEq α] (d : α) (f : Nat → α → α) : Tbl α → Tbl α
  | [] => []
  | (k, v) :: t => Tbl.keep d k (f k v) (Tbl.mapVals d f t)

/-- The keys whose entry p accepts, ascending. -/
def Tbl.keysWhere {α : Type} (p : Nat → α → Bool) (t : Tbl α) : List Nat :=
  (t.filter fun e => p e.1 e.2).map Prod.fst

/-- How many listed entries p accepts. -/
def Tbl.countWhere {α : Type} (p : Nat → α → Bool) (t : Tbl α) : Nat := (t.filter fun e => p e.1 e.2).length

end Sys2Proof.Machine
end

