-- ==== Sys2Proof/Machine/TypesMem.lean ====
section
/-! DEFINITION. The parts of the state that chapters 01 to 07 give: requests and transactions, what the block sends,
regions, heads, near cache, coherence, DRAM and the map. Plain data. Where a field mirrors a register it holds the
writable fields only; a field that the register map marks ROV is computed from the rest of the state when the
register is read. Tables are sparse: an unlisted key holds its default. -/
namespace Sys2Proof.Machine

/-- One stored line with its poison mark (R483). -/
structure LineCell where
  data : Line := 0
  poison : Bool := false
  deriving DecidableEq, Repr

/-- An addressed memory: its lines by number; an unlisted line reads as zeros without poison. -/
abbrev Memory := Tbl LineCell

/-- A memory has the canonical form. -/
def Memory.wf (m : Memory) : Bool := Tbl.wf {} m

/-- The content of a page: its lines by index; an unlisted line is zeros. -/
abbrev PageData := Memory

/-! ### 02: the region table -/

/-- One region table entry: the RW bits of its four words, ERR, ACTIVE, the mark of R29 that the entry was in force
in the restored table, DLOST, and the broken mark of an alias window (R42). wrote and took are the FCLK cycles of the last
software write to RGN_ATTR and of the takeover update (R8, R44). -/
structure Region where
  geo : Word := 0
  attr : Word := 0
  acc : Word := 0
  aux : Word := 0
  err : Nat := 0
  active : Bool := false
  wasInForce : Bool := false
  dlost : Bool := false
  aliasBroken : Bool := false
  wrote : Option Nat := none
  took : Option Nat := none
  deriving DecidableEq, Repr

/-! ### Requests (R153) -/

/-- Who waits for a request's answer: a head with its CXL tag, the engine that runs a ring, the partner card (by the
serial number of the packet it came in), the writer of dump images, or nobody (a fill that a write allocated, R104). -/
inductive Src where
  | head (h tag : Nat)
  | engine (ring : Nat)
  | partner (n : Nat)
  | dump
  | nobody
  deriving DecidableEq, Repr

/-- The line operations of an ATOMIC descriptor (R170). -/
inductive AtomOp where
  | fadd | fand | bor | swap | cas16
  deriving DecidableEq, Repr

/-- The kinds of R153. An atomic carries its byte offset in the line and its two operands. -/
inductive ReqKind where
  | rdCur | rdShared | rdOwn | ownNoData | wrI | wrS | evict
  | atomic (op : AtomOp) (off : Nat) (a b : BitVec 128)
  | devRd | devWr
  deriving DecidableEq, Repr

/-- A request for one line. line is DPA[44:6]. be is the QoS class BEST_EFFORT; mute: its head's link dropped since, so its
answer is discarded (R84). atP2: it runs at priority P2, a recalled writeback or the store of an atomic at memory (R374, R386). low: 5 or 6, it runs at
P5, a page of a resync (R466), or P6, a dump image (R519); 0: by its kind. reg is its region with the entry as the request met it at decode: a change of the entry while the
request is under way leaves it as it was (R54, R55). -/
structure Req where
  src : Src
  kind : ReqKind
  line : Nat
  data : Line := 0
  mask : Mask := 0
  poison : Bool := false
  be : Bool := false
  mute : Bool := false
  atP2 : Bool := false
  low : Nat := 0
  reg : Option (Nat × Region) := none
  deriving DecidableEq, Repr

/-- The three single-line BISnp forms (R154). -/
inductive Snp where
  | cur | data | inv
  deriving DecidableEq, Repr

/-- A BISnp sent to a head and not yet answered (R157). stale: the transaction that sent it was abandoned (R603), so its
BIRsp changes nothing. -/
structure Snoop where
  head : Nat
  line : Nat
  kind : Snp
  stale : Bool := false
  deriving DecidableEq, Repr

/-- The answers of R155. -/
inductive Birsp where
  | i | s | e
  deriving DecidableEq, Repr

/-- Where an open transaction stands: recalling, waiting for the map, for DRAM or for the beam, holding fetched data
that a fill will place, waiting for a write-buffer entry (R100), or answered and ready to close (R157). victim: a
snoop-filter eviction (R151). -/
inductive Phase where
  | recall | victim | noEntry | lookup | dram | beam (addr : Nat) | fill (cell : LineCell) | atomicWait | done
  deriving DecidableEq, Repr

/-- An open transaction on a line (R157): the request it serves, the heads whose BIRsp it awaits, the heads that
answered BIRspS, and the requests queued behind it, oldest first. owes: who was still to get the completion of its write to a
DURABLE region at acceptance; it cannot close while the buddy is awaited for one of them (R97). since orders the lookups that wait
at map tiles (R235). -/
structure Txn where
  req : Req
  waits : BitVec 16
  ansS : BitVec 16
  phase : Phase
  queue : List Req
  owes : List (Nat × Nat) := []
  since : Nat := 0
  deriving DecidableEq, Repr

/-! ### What the block sends -/

/-- Tile actions on a probe (R162). -/
inductive ProbeAct where
  | takeHold | forward | pending | discard | take | drop
  deriving DecidableEq, Repr

/-- Messages on the warp ring that a hand-off sends (R165). -/
inductive RingMsg where
  | offer | accept | refuse | commit
  deriving DecidableEq, Repr

/-- One message or bus action that the last command caused, as the outside sees it. -/
inductive Output where
  | memData (h tag : Nat) (data : Line) (poison : Bool) (devLoad : Nat)
  | memCmp (h tag : Nat) (devLoad : Nat)
  | bisnp (kind : Snp) (h line : Nat)
  | biConflictAck (h line : Nat)
  | probe (tile : Nat) (act : ProbeAct)
  | ring (msg : RingMsg) (line tile : Nat)
  | regRead (src : Nat) (value : Word)
  | mailbox (h : Nat) (code : Nat) (payload : List Word)
  | doe (src : Nat) (payload : List Word)
  | altProtocol (h : Nat) (details : BitVec 16)
  | msix (h vector : Nat)
  | hostWrite (h : Nat) (addr : Nat) (data : List Word)
  | gpfDone (h phase : Nat)
  | cdatChange (h : Nat)
  | nvme (slot opcode : Nat)
  | nvmeAdmin (slot opcode : Nat)
  | beamUnit (stripe slot : Nat)
  | flit (words : List Word)
  | coldReset
  | thermTrip
  | shutdownDone
  deriving DecidableEq, Repr

/-! ### 03: heads -/

/-- One committed or uncommitted HDM decoder (R70, R71); locked: it is not changed before the next reset of its function. -/
structure Decoder where
  hpaBase : Nat := 0
  hpaSize : Nat := 0
  ways : Nat := 1
  granularity : Nat := 256
  dpaSkip : Nat := 0
  dpaBase : Nat := 0
  db : Bool := false
  committed : Bool := false
  notCommitted : Bool := false
  locked : Bool := false
  deriving DecidableEq, Repr

/-- The kinds of event record (R74). -/
inductive EventKind where
  | generalMedia | memoryModule | vendor
  deriving DecidableEq, Repr

/-- An event record: its kind, the notice class that caused it (0 for a denied access) and its argument. -/
structure EventRec where
  kind : EventKind
  cls : Nat
  arg : Nat
  deriving DecidableEq, Repr

/-- A record in a head's event logs: its log (CXL's: 0 informational, 1 warning, 2 failure, 3 fatal), its handle, and the
record. -/
structure LogEntry where
  log : Nat
  handle : Nat
  body : EventRec
  deriving DecidableEq, Repr

/-- An entry of the MSI-X table of BAR4 (R69), masked as PCIe resets it, and its pending bit. -/
structure MsixEntry where
  addr : Word := 0
  data : BitVec 32 := 0
  masked : Bool := true
  pend : Bool := false
  deriving DecidableEq, Repr

/-- Link and protocol errors that AER and the CXL RAS capability of a function report (R67). -/
inductive LinkError where
  | surpriseDown | ideCheck | cxlIde | equalisation
  deriving DecidableEq, Repr

/-- One link key slot of a head: the key stream's two key sets and which is in use (R507), and whether the stream runs in
containment mode or in skid mode. -/
structure IdeStream where
  key0 : Option (BitVec 256) := none
  key1 : Option (BitVec 256) := none
  inUse : Option Nat := none
  contain : Bool := false
  deriving DecidableEq, Repr

/-- The link side of a head: HD_LINK_CTL, the live values of HD_LINK_STAT, and the bookkeeping of R65 and R86. cxl: the partner
negotiated CXL (R62); outAt: the cycle at which it last went out of L0 (R83); dropped: the link has dropped since the head's
last reset (R85); retired: it is held down. -/
structure Link where
  ctl : Word := 0x6
  rate : Nat := 0
  width : Nat := 0
  up : Bool := false
  flit256 : Bool := false
  ext128 : Bool := false
  extAgreed : Bool := false
  ideActive : Bool := false
  recovery : Bool := false
  memOff : Bool := true
  dropped : Bool := false
  eqFails : Nat := 0
  no128 : Bool := false
  firstWidth : Option Nat := none
  firstRate : Nat := 0
  widthLimit : Nat := 3
  retired : Bool := false
  cxl : Bool := false
  outAt : Nat := 0
  deriving DecidableEq, Repr

/-- The CXL function side of a head: its identity and GPF DVSEC (R69, R79: duration in ns, power in mW), its SRIS support (R595), decoders, event logs
and their interrupt policy, the MSI-X table, CDAT, link errors and IDE keys. eventsOver is the overflow indication of its
failure log (R355). -/
structure Func where
  vendor : BitVec 16 := 0xA95D
  device : BitVec 16 := 0x9064
  classCode : BitVec 24 := 0x050210
  sris : Bool := true
  gpfNs : Nat := 2000
  gpfMw : Nat := 0
  decoders : Tbl Decoder := []
  events : List LogEntry := []
  eventsOver : Bool := false
  nextHandle : Nat := 1
  policy : List (Option Nat) := [none, none, none, none]
  msix : Tbl MsixEntry := []
  errors : List LinkError := []
  cdatRate : Nat := 0
  cdatWidth : Nat := 0
  cdatChanged : Bool := false
  busMaster : Bool := false
  ide : Tbl IdeStream := []
  deriving DecidableEq, Repr

/-- The live DevLoad components of a head and the counts of its window (R77, R393, R394). -/
structure Load where
  budget : Nat := 0
  cap : Nat := 0
  since : Nat := 0
  reqs : Nat := 0
  demoted : Nat := 0
  demotePct : Nat := 0
  deriving DecidableEq, Repr

/-- HD_BRAKE of a head and the requests it gates (R435). -/
structure Brake where
  self : Bool := false
  mgmt : Bool := false
  rings : Bool := false
  gate : List Req := []
  deriving DecidableEq, Repr

/-- A CXL.mem request as it arrives at a port: a write with its MetaValue, data and byte mask, or a request of another kind. -/
structure Arrival where
  tag : Nat
  hpa : Nat
  write : Bool := false
  kind : ReqKind := .wrI
  mv : Meta := .noOp
  data : Line := 0
  mask : Mask := 0
  poison : Bool := false
  deriving DecidableEq, Repr

/-- One head. inQ and outQ hold what waits for the end of its link's Recovery (R82): requests, and messages to the head. kept
counts the RwD credits kept back while it is withheld, and waitQ its writes that wait for one (R78). -/
structure Head where
  link : Link := {}
  func : Func := {}
  load : Load := {}
  brake : Brake := {}
  inQ : List Arrival := []
  outQ : List Output := []
  kept : Nat := 0
  waitQ : List Arrival := []
  deriving DecidableEq, Repr

/-- The host-port block. stamp is the device-wide timestamp of Set Timestamp and stampAt the cycle
it was set (R73). -/
structure Ports where
  laneRet : Tbl (BitVec 8) := []
  stamp : Word := 0
  stampAt : Option Nat := none
  deriving DecidableEq, Repr

/-! ### 04: near cache and write buffers -/

/-- A tag entry with its data (R92). hit records that the line has been hit since its fill (R111); evicting, that
its writeback is under way (R105). Near.side holds its side word (R93). -/
structure NcWay where
  v : Bool := false
  tag : Nat := 0
  d : Bool := false
  lock : Bool := false
  prot : Bool := false
  poison : Bool := false
  dur : Bool := false
  data : Line := 0
  hit : Bool := false
  evicting : Bool := false
  deriving DecidableEq, Repr

/-- A write-buffer entry (R95): its tile, line, bytes, region and class; whether its buddy holds and has confirmed a
copy (R97); the drain writes still to confirm (R99); the requesters whose completion waits for the buddy; and the
SPILL mark of R321; gen is the swatch generation
its tile held when it accepted the write, so that bytes from before and after a cut never share an entry (R257); whole: a
write of all 64 bytes is among those it merged, so its line is not poison unless it says so (R106). prio is the priority
level of its drain (R195); bad: a frame in which its line could not be written (R200). -/
structure WbEntry where
  id : Nat
  tile : Nat
  line : Nat
  data : Line
  mask : Mask
  poison : Bool
  region : Nat
  be : Bool
  durable : Bool
  buddy : Nat
  confirmed : Bool
  draining : Bool
  left : Nat
  waiters : List (Nat × Nat)
  spill : Bool
  gen : Nat
  whole : Bool := false
  prio : Nat := 3
  bad : Option Nat := none
  deriving DecidableEq, Repr

/-- A maintenance descriptor in progress (R130 to R133): its ring and opcode, its first and last line, and the lines of its
range that had a fill in flight or a hand-off record when it reached them, each with the dirty data it held then (R131). -/
structure MaintOp where
  ring : Nat
  op : Nat
  lo : Nat
  hi : Nat
  late : List (Nat × Option LineCell) := []
  deriving DecidableEq, Repr

/-- Near cache, write buffers and scratch. nc is keyed (slice * 32768 + set) * 16 + way; tree by slice * 32768 + set;
scr by pool line (R117). side holds the side word of a way by the same key as nc: a copy of TAG, and of D in bit 24 (R93).
tree holds the 15 tree bits with their parity in bit 15 (R94). off holds the ways powered down and lockCleaning the new
locked ways still to be cleaned (R115), per slice. retiring holds the ways whose retirement has begun, with the locked lines
lost so far in lostLocks (R135), by 16 * slice + way. maint lists the maintenance descriptors in progress in the order in
which they reached their lines (R133). -/
structure Near where
  ctl : Word := 0x380000
  curScr : Nat := 0
  curLock : Nat := 0
  nc : Tbl NcWay := []
  side : Tbl (BitVec 25) := []
  tree : Tbl (BitVec 16) := []
  off : Tbl (BitVec 16) := []
  autoOff : Nat := 0
  lockCleaning : Tbl (BitVec 16) := []
  retiring : BitVec 256 := 0
  lostLocks : Tbl Nat := []
  scr : Memory := []
  wb : List WbEntry := []
  wbNext : Nat := 0
  wbRetry : List (Nat × Req) := []
  maint : List MaintOp := []
  poisonIdx : List (Nat × Nat) := []
  poisonOverflow : Option Nat := none
  deriving DecidableEq, Repr

/-! ### 05: coherence -/

/-- Snoop-filter states (R148). -/
inductive SfState where
  | none | shared | excl | wide
  deriving DecidableEq, Repr

/-- A snoop-filter entry. OPEN is not held here: it is 1 exactly while a transaction on the line is open (R148). -/
structure SfEntry where
  tag : Nat := 0
  pres : BitVec 16 := 0
  st : SfState := .none
  gone : BitVec 16 := 0
  deriving DecidableEq, Repr

/-- A pull-table entry (R163). -/
structure Pull where
  port : Nat := 0
  streak : Nat := 0
  deriving DecidableEq, Repr

/-- A hand-off record: the two tiles, the states of R165 (old tile LEAVING then GONE; target ARRIVING then SETTLING),
what the old tile took and holds, what the target holds as pending, the identities the target has recorded, and the
snoop-filter way that the target reserves (16: none). -/
structure HandOff where
  src : Nat
  dst : Nat
  leaving : Bool
  gone : Bool
  arriving : Bool
  settling : Bool
  offered : Bool
  evict : Bool
  held : List Req
  pending : List Req
  ids : List (Nat × Nat)
  commitAt : Nat
  settleAt : Nat
  carried : NcWay
  sf : SfEntry
  pull : Pull
  sfWay : Nat := 16
  deriving DecidableEq, Repr

/-- Coherence state. sf is keyed (tile * 131072 + set) * 16 + way, ptr by tile * 131072 + set; lent, pull, handoff,
ownerSince and refusedAt by line. sfWait holds the requests that wait for the victim line beside them (R151), retry
the requests that found their set full of open entries (R152). conflicts lists the BIConflicts that wait for the
response of an earlier request (R155), as head and line. wideWait lists the lines whose WIDE entry of R175 waits for a way.
recHeld lists requests whose probe is held until a recovery ends, and recLines the lines that were owned at the recovering
tile (R175). -/
structure Coh where
  ctl : Word := 0x9
  sf : Tbl SfEntry := []
  ptr : Tbl Nat := []
  txns : Tbl (Option Txn) := []
  snoops : List Snoop := []
  heldBirsp : List (Nat × Nat × Birsp) := []
  sfWait : List (Nat × Req) := []
  retry : List (Nat × Req) := []
  conflicts : List (Nat × Nat) := []
  wideWait : List Nat := []
  lent : Tbl (Option Nat) := []
  pull : Tbl Pull := []
  handoff : Tbl (Option HandOff) := []
  ownerSince : Tbl Nat := []
  refusedAt : Tbl Nat := []
  inFlight : List Req := []
  wide : Bool := false
  recovering : BitVec 16 := 0
  recHeld : List Req := []
  recLines : List Nat := []
  lookups : Nat := 0
  deriving DecidableEq, Repr

/-! ### 06: DRAM -/

/-- The one use of a frame (R185); swatch copies carry their slot. -/
inductive FrameUse where
  | free
  | t1 (page : Nat) (sw : Option Nat)
  | t2
  | twin (page : Nat)
  | mapF (unit : Nat) (sw : Option Nat)
  | keep (block : Nat)
  | system
  deriving DecidableEq, Repr

/-- A T2 page in its sectors: the header of R227 and the decoded content. CLEN is kept as the encoder chose it. -/
structure T2Page where
  page : Nat
  k : Nat
  beamv : Bool
  beam : Nat
  sw : Option Nat
  clen : Nat
  content : PageData
  deriving DecidableEq, Repr

/-- What a DRAM read is for: a request's line, the clean of a page (R247), a page's tier transition (R233), the patrol
scrub (R209). The last three read the whole frame, 32 bursts on each subchannel (R183). -/
inductive DramFor where
  | line | clean (pn : Nat) | move (pn : Nat) | scrub
  deriving DecidableEq, Repr

/-- A read waiting in a channel's read queue (R195): the line asked for (the first of its page for a read of a whole frame), the
frame it reads, the priority level, whether it has aged to P3 (R199), the cycle it entered, and what it is for. -/
structure DramRead where
  id : Nat
  line : Nat
  frame : Nat
  prio : Nat
  aged : Bool
  since : Nat := 0
  why : DramFor := .line
  deriving DecidableEq, Repr

/-- A write waiting in a channel's write queue: the cell for line idx of frame, the write-buffer entry it drains
(none for the write-back of a corrected line, R207), its level and its retries (R200). whole: the bytes include a write of all
64 (R106). since is the cycle it entered. -/
structure DramWrite where
  id : Nat
  frame : Nat
  idx : Nat
  cell : LineCell
  mask : Mask
  entry : Option Nat
  prio : Nat
  retries : Nat
  aged : Bool
  whole : Bool := false
  since : Nat := 0
  deriving DecidableEq, Repr

/-- What the scheduler of one subchannel keeps (R196, R197, R377): reads issued in a row ahead of older ones because their row was
open, writes issued while a read of P1 or P0 waits, grants to P0 to P2 in a row while a P3 request waits, the frame whose row is
open in each bank group and the bank groups whose refresh has ended, by rank * 8 + group. -/
structure Sched where
  openRun : Nat := 0
  writesRun : Nat := 0
  turn : Nat := 0
  rows : Tbl (Option Nat) := []
  refreshed : BitVec 32 := 0
  deriving DecidableEq, Repr

/-- One channel (R179 to R219). rankFrames is Fr of R182. drainA and drainB are the write-drain modes of the two
subchannels, sched what their schedulers keep; postponed counts refreshes by rank * 8 + bank group, refNext and refDue are the
bank group of a rank whose turn it is and the cycle its refresh falls due (R201); window: the ranks in a refresh window (R203).
oscAt is the cycle of a rank's last oscillator read, baseline the counts of the ranks at training and delays the delays in force
(R203, R215). sensorFails counts failed reads in a row by sensor and tempAt is the cycle of their last read (R204); scrubNext and scrubAt are the
patrol scrub's pointer and the cycle its last step fell due (R209). -/
structure Channel where
  ranks : BitVec 4 := 0
  ranksRet : BitVec 4 := 0
  retired : Bool := false
  throttle : Bool := false
  refresh2x : Bool := false
  trainedFast : Bool := false
  rebuild : Bool := false
  tempMax : Nat := 0
  sensorFails : Tbl Nat := []
  tempAt : Nat := 0
  inService : Bool := false
  row : Nat := 0
  dimmGib : Nat := 0
  rankFrames : Nat := 0
  readQ : List DramRead := []
  writeQ : List DramWrite := []
  drainA : Bool := false
  drainB : Bool := false
  sched : Tbl Sched := []
  postponed : Tbl Nat := []
  refNext : Tbl Nat := []
  refDue : Tbl Nat := []
  window : BitVec 4 := 0
  oscAt : Tbl Nat := []
  baseline : List Nat := []
  delays : List Word := []
  twinRsv : Nat := 0
  scrubNext : Nat := 0
  scrubAt : Nat := 0
  ueAt : Tbl Nat := []
  deriving DecidableEq, Repr

/-- What D0's SPD states (R180): configuration row, GiB a DIMM, ranks a DIMM. -/
structure Spd where
  row : Nat
  dimmGib : Nat
  ranksPerDimm : Nat
  deriving DecidableEq, Repr

/-- DRAM. cells is keyed frame * 64 + line index; t2 by sector address. fullNext: TRAIN_FULL was 1 when the cold reset
began (R216). spd0 is what D0 reported at this cold reset, spd0Read that it has reported (R180). -/
structure Dram where
  ctl : Word := 0x0000001030005F18
  ch : Tbl Channel := []
  frames : Tbl FrameUse := []
  cells : Memory := []
  t2 : Tbl (Option T2Page) := []
  nextId : Nat := 0
  fullNext : Bool := false
  spd0 : Option Spd := none
  spd0Read : Bool := false
  deriving DecidableEq, Repr

/-! ### 07: the map -/

/-- The state and place of a page (R224). -/
inductive Place where
  | zero
  | t1 (frame : Nat)
  | t2 (sector k : Nat)
  | t3 (beam : Nat)
  | poison
  deriving DecidableEq, Repr

/-- A tier transition that runs (R233): the target, the cause, the frame or sector it fills, and whether the page's frame is still
to be read. -/
structure Moving where
  tier : Transition
  cause : TransitionCause
  place : Nat
  reading : Bool := false
  deriving DecidableEq, Repr

/-- A page's forward entry with its reverse-entry and jacquard-cache fields (R224, R226, R229). twin and lines hold
TWIN, TWINV and the LINES mask of the twin frame; twin2 and lines2 are a second twin frame of a rebuild (R212). cached: the entry is in
the jacquard cache; heat0 and stamp0 are HEAT and STAMP as the map frame holds them meanwhile (R230).
synced: tiles that answered the running clean's sync, syncId the write-buffer number at its start; urgent: the page is
cleaned ahead of the journal (R211, R359); ppoison: its persistent entry is POISON while DRAM still holds its lines
(R484). -/
structure PageEntry where
  place : Place := .zero
  gen : Nat := 0
  dirty : Bool := false
  pin : Bool := false
  nocomp : Bool := false
  heat : Nat := 0
  stamp : Nat := 0
  beamv : Bool := false
  beam : Nat := 0
  twin : Option Nat := none
  lines : Mask := 0
  twin2 : Option Nat := none
  lines2 : Mask := 0
  moving : Option Moving := none
  waiting : Option Moving := none
  cleaning : Bool := false
  redirty : Bool := false
  synced : BitVec 16 := 0
  cached : Bool := false
  heat0 : Nat := 0
  stamp0 : Nat := 0
  urgent : Bool := false
  ppoison : Bool := false
  syncId : Nat := 0
  deriving DecidableEq, Repr

/-- A map directory entry (R222). frame is the map frame of a LOADED unit. -/
inductive DState where
  | zero | loaded | unloaded
  deriving DecidableEq, Repr

/-- A unit's directory entry with its binding (R53, R222): what both copies hold. dirIn names the map tiles whose directory cache
holds it. -/
structure UnitDir where
  dstate : DState := .zero
  bound : Bool := false
  bdur : Bool := false
  bkey : Nat := 0
  frame : Nat := 0
  dirIn : BitVec 16 := 0
  deriving DecidableEq, Repr

/-- A MARK on its way to a map tile (R243). -/
structure Mark where
  pn : Nat
  region : Nat
  gen : Nat
  durable : Bool
  deriving DecidableEq, Repr

/-- The states of a swatch slot, in the order of JQ_SW_STAT.STATE. -/
inductive SwState where
  | free | taking | live | exporting | exported | dropping
  deriving DecidableEq, Repr

/-- A saved entry of a swatch map: absent, or a place that holds the old version; dirty while it counts (R258). -/
structure Saved where
  place : Place
  dirty : Bool := false
  beamv : Bool := false
  beam : Nat := 0
  deriving DecidableEq, Repr

/-- A swatch slot (R255 to R263). order is its place in take order; waits, the tiles that still have to answer HOLD. -/
structure Swatch where
  st : SwState := .free
  region : Nat := 0
  num : Nat := 0
  gen : Nat := 0
  order : Nat := 0
  saved : Tbl (Option Saved) := []
  waits : BitVec 16 := 0
  ring : Nat := 0
  deriving DecidableEq, Repr

/-- The generation state of a region (JQ_RGN_GEN): CUR_GEN, the sweep of R263, and whether tiles hold its writes
(R256). -/
structure RgnGen where
  gen : Nat := 0
  sweep : Bool := false
  hold : Bool := false
  deriving DecidableEq, Repr

/-- The map. journal holds (page, dirty time in operating ms), oldest first (R246). lost lists unit numbers whose
map frame is lost. warm is the list of warm pages still to fill. epochAt is the cycle of the last heat epoch (R232), and sweepAt
the page number from which each map tile's sweep goes on (R239). -/
structure JMap where
  tier : Word := 0xC928140A0014
  clean : Word := 0xA
  bgRate : Nat := 10
  pages : Tbl PageEntry := []
  units : Tbl UnitDir := []
  epoch : Nat := 0
  marks : List Mark := []
  journal : List (Nat × Nat) := []
  gens : Tbl RgnGen := []
  swatches : Tbl Swatch := []
  takes : Nat := 0
  mapLoad : Bool := false
  loadNext : Nat := 0
  warm : List Nat := []
  warming : Bool := false
  warmed : Nat := 0
  warmDone : Bool := false
  rebuilding : List Nat := []
  evictMode : Bool := false
  epochAt : Nat := 0
  sweepAt : Tbl Nat := []
  deriving DecidableEq, Repr

end Sys2Proof.Machine
end

