-- ==== Sys2Proof/Machine/TypesBeam.lean ====
section
/-! DEFINITION. The parts of the state that chapters 08 to 11 give: the beam and its log, the reserve manager and the
ledger, the vault sequencer with the boot-flash records it reads, and the budgets of the service-time contract. -/
namespace Sys2Proof.Machine

/-- A register field held in three copies (R555); the register is held whole in each copy and voted field by field. -/
structure Trw where
  a : Word := 0
  b : Word := 0
  c : Word := 0
  deriving DecidableEq, Repr

/-! ### 08: the beam -/

/-- A persistent forward entry (R286): the states a map page uses, with GEN. -/
inductive PPlace where
  | zero | t3 (beam : Nat) | poison | absent
  deriving DecidableEq, Repr

/-- A persistent entry of the live map or of a swatch map. -/
structure PEntry where
  place : PPlace := .zero
  gen : Nat := 0
  deriving DecidableEq, Repr

/-- A unit's binding (R53). -/
structure Binding where
  bound : Bool := false
  bdur : Bool := false
  bkey : Nat := 0
  deriving DecidableEq, Repr

/-- A delta entry (R287): of a live page, of a swatch page, or of a whole unit. -/
inductive Delta where
  | page (pn : Nat) (e : PEntry)
  | swatch (slot pn : Nat) (e : PEntry)
  | unit (u : Nat) (bindOnly : Bool) (b : Binding)
  deriving DecidableEq, Repr

/-- The persistent map (R286): live entries by page, bindings by unit, and swatch maps by slot. -/
structure PMap where
  pages : Tbl PEntry := []
  units : Tbl Binding := []
  saved : Tbl (Tbl PEntry) := []
  deriving DecidableEq, Repr

/-- The record kinds of R284. -/
inductive RecKind where
  | raw | hpc1 | map | delta | warm
  deriving DecidableEq, Repr

/-- The purpose of an unconfirmed page record: the clean, relocation or flush that waits for it. -/
inductive RecFor where
  | none | clean (pn : Nat) | swatch (slot pn : Nat) | move (old : Nat) | flush (pn : Nat)
  deriving DecidableEq, Repr

/-- A record in the log: kind, page number (of a MAP record its level and index), payload sectors, key, swatch slot, content of a page record with its
CLEN, entries of a DELTA record, list of a WARM record, its stream and segment, whether it is confirmed (R277), and
the purpose it was written for. -/
structure BeamRec where
  kind : RecKind
  page : Nat
  sectors : Nat
  key : Nat := 0
  sw : Option Nat := none
  clen : Nat := 0
  content : PageData := []
  deltas : List Delta := []
  warm : List (Nat × Nat) := []
  stream : Nat
  seq : Nat
  confirmed : Bool := false
  purpose : RecFor := .none
  deriving DecidableEq, Repr

/-- The states of a segment. -/
inductive SegState where
  | free | opened | full
  deriving DecidableEq, Repr

/-- A segment (R272, R282). next is the number of its stripes used so far; moved, the lowest CSEQ of a commit record
that lets the segment become free after the last relocation out of it (R296). -/
structure Seg where
  st : SegState := .free
  stream : Nat := 0
  seq : Nat := 0
  holes : BitVec 8 := 0
  writes : Nat := 0
  opmin : Nat := 0
  cseqBase : Nat := 0
  next : Nat := 0
  moved : Nat := 0
  deriving DecidableEq, Repr

/-- The stripe a stream is filling: its segment and number, the unit and sector where the next record goes, the
records of the unit so far, the addresses it holds, and when its first record entered it. -/
structure StripeBuf where
  seg : Nat
  stripe : Nat
  unit : Nat
  sector : Nat
  count : Nat
  recs : List Nat
  since : Nat
  deriving DecidableEq, Repr

/-- A stripe whose unit writes are out: the slots still to confirm, whether one failed, its records, the level of the writes, when they
were asked for, and the slots whose Write still waits for its queue (R268). -/
structure StripeOut where
  stripe : Nat
  waits : BitVec 8
  failed : Bool
  recs : List Nat
  prio : Nat
  since : Nat
  held : BitVec 8
  deriving DecidableEq, Repr

/-- A slot with its drive (BM_SLOT_STAT). slowAt: times of the reads that reached HEDGE_US in the last 100 ms (R305);
fail: a pending immediate cause of retirement, numbered as the notice numbers it (R474, R491). power: ENLAT and EXLAT of
its non-operational power states in us, shallowest first (R539). sb0 and sb1: SBGEN of its two superblock copies (R281), 0 for a blank
one; ring: its next commit slot (R291); smartAt: the clock at its last SMART log read (R298). -/
structure Slot where
  port : Nat := 0
  present : Bool := false
  wear : Nat := 0
  worn90 : Bool := false
  worn100 : Bool := false
  width : Nat := 0
  rate : Nat := 0
  lbas : Nat := 0
  power : List (Nat × Nat) := []
  sb0 : Nat := 0
  sb1 : Nat := 0
  ring : Nat := 0
  smartAt : Nat := 0
  slowAt : List Nat := []
  fail : Nat := 0
  shutdown : Bool := false
  deriving DecidableEq, Repr

/-- A beam read outstanding (R302 to R304): hedged; rebuilt: it is served by reconstruction; bad: because its record was
unreadable; gc: garbage collection wants the record; since: when it was asked for; queued: its command waits for its queue (R268);
hedge: the cycles after which it is hedged, fixed at its issue (R303, R309), 0 for one that never is. -/
structure BeamRead where
  addr : Nat
  slot : Nat
  prio : Nat
  hedged : Bool
  rebuilt : Bool
  bad : Bool
  gc : Bool
  since : Nat
  queued : Bool
  hedge : Nat
  deriving DecidableEq, Repr

/-- The kinds of spill record (R293), by region line or scratch block. -/
inductive SpillRec where
  | lines (key : Nat) (ls : List (Nat × Line × Mask × Bool))
  | scratch (key block : Nat) (data : PageData)
  deriving DecidableEq, Repr

/-- A commit record (R290): what it carries, with the persistent map that it covers. deltaRecs are the DELTA
records it covers, roots, warmRecs and swRoots the addresses of the live map's root pages, of the WARM records and of the swatch roots, shortList the pages its deltas poisoned, erased the slot of an ERASE whose commit it is or follows
while the superblocks are not written (R505). -/
structure Commit where
  cseq : Nat := 0
  kind : CommitKind := .checkpoint
  short : Bool := false
  seqNext : Nat := 0
  opmin : Nat := 0
  cycles : Nat := 0
  shortPages : Nat := 0
  metaSegs : List Nat := []
  base : PMap := {}
  warm : List (Nat × Nat) := []
  warmRecs : List Nat := []
  swRoots : Tbl Nat := []
  swatches : Tbl Swatch := []
  gens : Tbl RgnGen := []
  regions : Tbl Region := []
  spills : List SpillRec := []
  deltaRecs : List Nat := []
  roots : List Nat := []
  shortList : List Nat := []
  erased : Option Nat := none
  deriving DecidableEq, Repr

/-- A slot or drive state of a checkpoint or commit in progress (R289, R291): the record and the drive copies still
to confirm. -/
structure CommitOut where
  record : Commit
  copies : Nat
  deriving DecidableEq, Repr

/-- The beam. setId 0: no beam in use. recs is keyed by beam sector address; opened and open stripes by stream;
deltas holds entries not yet written, oldest first, and deltaAt the
times at which they came; avoidAt is when avoidance began; deltaSegs the DELTA segments the next commit would list; ckptBase the map a running checkpoint writes, warm the warm list it wrote, ckptSegs the DELTA segments
opened before it began; gcSeg the segment garbage collection empties; taken
from the drives found: pageCap, segments, formed. spillOut holds the spill records of the flush in progress. cold is the persistent map that the map loader still has
to load, coldUnits the units of it not yet loaded, ascending. -/
structure Beam where
  ctl : Word := 0x4208040478
  setId : Word := 0
  sbgen : Nat := 0
  formed : BitVec 8 := 0
  retired : BitVec 8 := 0
  pageCap : Nat := 0
  segments : Nat := 0
  degSeq : Nat := 0
  fmtRev : Word := 0
  slots : Tbl Slot := []
  segs : Tbl Seg := []
  bufs : Tbl (Option StripeBuf) := []
  outs : List StripeOut := []
  recs : Tbl (Option BeamRec) := []
  seqNext : Nat := 0
  deltas : List Delta := []
  deltaAt : List Nat := []
  deltaSegs : List Nat := []
  ckptSegs : List Nat := []
  commit : Option Commit := none
  commitOut : Option CommitOut := none
  cseq : Nat := 0
  ckpt : Bool := false
  base : PMap := {}
  ckptBase : PMap := {}
  warm : List (Nat × Nat) := []
  cold : PMap := {}
  coldUnits : List Nat := []
  gc : Bool := false
  gcChoices : Nat := 0
  gcSeg : Option Nat := none
  reads : List BeamRead := []
  avoided : Option Nat := none
  avoidAt : Nat := 0
  rebuild : Option Nat := none
  spillOut : List SpillRec := []
  found : List DriveReport := []
  waiting : Bool := false
  deriving DecidableEq, Repr

/-! ### 09: the reserve manager and the ledger -/

/-- An estimate: mF, ESR in 0.1 milliohm (tests), and the operating minute of the measurement (R328). -/
structure Estimate where
  mF : Nat
  esr : Nat
  opmin : Nat
  deriving DecidableEq, Repr

/-- The steps of a test discharge (R326). -/
inductive TestStep where
  | idle | settling | loaded | discharging | computing
  deriving DecidableEq, Repr

/-- A charging span (R325): its first voltage in mV, the charge in mA * 10 us, the newest voltage, and whether it still
runs. -/
structure ChgSpan where
  v0 : Nat
  q : Int
  v : Nat
  runs : Bool
  deriving DecidableEq, Repr

/-- The reserve manager. volts holds the last 8 bank samples in mV, newest first; qTest and qChg integrate current
in mA * 10 us; loVs, the sense samples out of range in a row; goodV and goodI, plausible samples in a row; chgSamples and chgFrom, samples and voltage since the charger came
on; testSamples, samples since the test was triggered, or since the test load came on; sampleAt and ledgerAt, the clock at the last
sample and recompute; testDue, the operating minute of a TEST_NOW; bootMin, that of
the cold reset; est, an estimate not yet judged (charge or test, mF, ESR); dEff and
dMax the ledger of the last recompute. -/
structure Rsv where
  ctl : Trw := ⟨0x1F45DC181804, 0x1F45DC181804, 0x1F45DC181804⟩
  bank : Trw := {}
  flush : Trw := {}
  sense : Trw := {}
  ovr : Word := 0
  health : Nat := 3
  fcause : BitVec 5 := 0
  charging : Bool := false
  testing : Bool := false
  withhold : Bool := true
  testResult : Nat := 0
  volts : List Nat := []
  lastI : Int := 0
  badV : Nat := 0
  goodV : Nat := 0
  badI : Nat := 0
  goodI : Nat := 0
  chgSamples : Nat := 0
  chgFrom : Nat := 0
  chgSpan : Option ChgSpan := none
  step : TestStep := .idle
  v0 : Nat := 0
  va : Nat := 0
  ia : Int := 0
  qTest : Int := 0
  testSamples : Nat := 0
  sampleAt : Nat := 0
  ledgerAt : Nat := 0
  testDue : Option Nat := none
  bootMin : Nat := 0
  lastTest : Option Nat := none
  est : Option (Bool × Nat × Nat) := none
  test : Option Estimate := none
  charge : Option Estimate := none
  eUse : Nat := 0
  dMax : Nat := 0
  dEff : Nat := 0
  limit : Nat := 5
  fullCap : Bool := false
  deriving DecidableEq, Repr

/-- A SEAL in progress (R314 to R320): ring, level, region and lines of its scope, tiles still to answer the sync, the
write-buffer entries it waits on, the identities of writes still on their way (reqs), the pages it waits to see
cleaned, those of them under a clean that began before the sync (early), how many there were (count), the mirrored
writes awaited, and the CSEQ a commit must reach. health: every acknowledgement so far said VALID. -/
structure Seal where
  ring : Nat
  level : Nat
  region : Nat
  lo : Nat
  hi : Nat
  tiles : BitVec 16 := 0
  entries : List Nat := []
  pages : List Nat := []
  early : List Nat := []
  count : Nat := 0
  mwrs : List Nat := []
  cseq : Option Nat := none
  lost : Bool := false
  health : Bool := true
  mirrorLost : Bool := false
  noMirror : Bool := false
  reqs : List (Nat × Nat) := []
  deriving DecidableEq, Repr

/-! ### 10: the vault -/

/-- VLT_STAT.STATE (R357). -/
inductive VState where
  | run | brace | s1 | s2 | s3 | s4 | s5 | wait | restore | shutdownDone
  deriving DecidableEq, Repr

/-- What a flush's commit record carries as it stood at admission stop (R353), with the warm list of R293. -/
structure Snap where
  regions : Tbl Region := []
  gens : Tbl RgnGen := []
  swatches : Tbl Swatch := []
  warm : List (Nat × Nat) := []
  deriving DecidableEq, Repr

/-- The vault sequencer and the supply monitor. lowBrace and lowCommit count consecutive samples below the codes;
good, samples at or above recovery; vinAt and eremAt, the clock at the last sample of VIN and of E_rem; tail, stage 4 goes on after a
resume (R358); selfRefresh, DRAM is in self-refresh (R351); held, the requests held at admission stop, in arrival order (R346); left, pages
not yet issued in stage 2; drained and stage1, the two ends of stage 1; stage2, its end; keep, scratch blocks held in DRAM for
re-created windows (R365). orderly marks a shutdown without floors (R369). written counts pages of stage 2; eStop and eEnd are
E_REM at admission stop and at the end of stage 3 (R526); eRem is E_rem in units of 5e-13 J. -/
structure Vlt where
  ctl : Trw := ⟨4, 4, 4⟩
  floor : Trw := {}
  st : VState := .restore
  source : Nat := 0
  hold : Bool := false
  stopped : Bool := false
  recovered : Bool := false
  vin : Nat := 0
  vinAt : Nat := 0
  eremAt : Nat := 0
  tail : Bool := false
  selfRefresh : Bool := false
  lowBrace : Nat := 0
  lowCommit : Nat := 0
  good : Nat := 0
  pfLow : Bool := false
  braceOn : Bool := false
  outcome : Nat := 0
  resumeKind : Nat := 2
  durMs : Nat := 0
  shortPages : Nat := 0
  active : Bool := false
  writable : Bool := false
  activeMs : Nat := 0
  held : List Req := []
  orderly : Bool := false
  snap : Option Snap := none
  soft : Bool := false
  eRem : Nat := 0
  left : Nat := 0
  written : Nat := 0
  eStop : Nat := 0
  eEnd : Nat := 0
  stopAt : Nat := 0
  drained : Bool := false
  stage1 : Bool := false
  stage2 : Bool := false
  skipScratch : Bool := false
  drivesDone : Bool := false
  rebootPend : Bool := false
  keep : Tbl (Option PageData) := []
  keepPoison : List Nat := []
  restoredShort : List Nat := []
  shortLeft : List Nat := []
  step6 : Bool := false
  deriving DecidableEq, Repr

/-! ### 11: budgets -/

/-- QOS_HEAD and the buckets of a head, in twentieths of a byte, as they stood at a time, and its rates in force in units of
0.1 GB/s (R373, R379). -/
structure Budget where
  reg : Word := 0x40101000000000
  rd : Nat := 327680
  wr : Nat := 327680
  bm : Nat := 1310720
  filledAt : Nat := 0
  rdRate : Nat := 0
  wrRate : Nat := 0
  bmRate : Nat := 0
  deriving DecidableEq, Repr

/-- The QOS block. -/
structure Qos where
  ctl : Word := 0xA0F
  gDram : Nat := 0
  gBeam : Nat := 0
  scaleD : Nat := 1000
  scaleB : Nat := 1000
  heads : Tbl Budget := []
  deriving DecidableEq, Repr

end Sys2Proof.Machine
end

