-- ==== Sys2Proof/Machine/Bits.lean ====
section
/-! DEFINITION. Bit fields of 64-bit registers, bytes of a line, voting of triplicated fields (R555). -/
namespace Sys2Proof.Machine

/-- Field of len bits at bit lo. -/
def fld (w : Word) (lo len : Nat) : Nat := (w.toNat >>> lo) % 2 ^ len

/-- Bit i. -/
def flag (w : Word) (i : Nat) : Bool := w.getLsbD i

/-- The mask of len bits at bit lo. -/
def fldMask (lo len : Nat) : Word := BitVec.ofNat 64 ((2 ^ len - 1) <<< lo)

/-- w with field len at lo set to v modulo 2^len. -/
def putFld (w : Word) (lo len v : Nat) : Word :=
  (w &&& ~~~ fldMask lo len) ||| BitVec.ofNat 64 ((v % 2 ^ len) <<< lo)

/-- A number placed at bit lo. -/
def atBit (v lo : Nat) : Word := BitVec.ofNat 64 (v <<< lo)

/-- A Bool placed at bit i. -/
def atFlag (b : Bool) (i : Nat) : Word := if b then BitVec.ofNat 64 (2 ^ i) else 0

/-- Spread a byte mask over the bits of a line. -/
def lineMask (m : Mask) : Line :=
  (List.range 64).foldl (fun acc i => if m.getLsbD i then acc ||| (BitVec.ofNat 512 0xFF <<< (8 * i)) else acc) 0

/-- The bytes of d where m is set, over the bytes of old elsewhere (R96). -/
def mergeLine (old d : Line) (m : Mask) : Line := (old &&& ~~~ lineMask m) ||| (d &&& lineMask m)

/-- The mask of all 64 bytes. -/
def fullMask : Mask := 0xFFFFFFFFFFFFFFFF

/-- 64-bit word i of a line (little-endian). -/
def lineWord (l : Line) (i : Nat) : Word := l.extractLsb' (64 * i) 64

/-- A line from up to eight words. -/
def lineOfWords (ws : List Word) : Line :=
  (List.range 8).foldl (fun acc i => acc ||| ((ws.getD i 0).setWidth 512 <<< (64 * i))) 0

/-- How many bits of a mask are set. -/
def popCount {n : Nat} (m : BitVec n) : Nat := ((List.range n).filter fun i => m.getLsbD i).length

/-- The indices of the bits that are set, ascending. -/
def bitsOf {n : Nat} (m : BitVec n) : List Nat := (List.range n).filter fun i => m.getLsbD i

/-- m with bit i set to b. -/
def putBit {n : Nat} (m : BitVec n) (i : Nat) (b : Bool) : BitVec n :=
  if b then m ||| BitVec.ofNat n (2 ^ i) else m &&& ~~~ BitVec.ofNat n (2 ^ i)

/-- Two of three, else the first (R555). -/
def vote3 (a b c : Nat) : Nat := if a = b ∨ a = c then a else if b = c then b else a

/-- The three values differ pairwise. -/
def differ3 (a b c : Nat) : Bool := decide (a ≠ b ∧ b ≠ c ∧ a ≠ c)

/-- The voted value of a field. -/
def Trw.fld (t : Trw) (lo len : Nat) : Nat :=
  vote3 (Machine.fld t.a lo len) (Machine.fld t.b lo len) (Machine.fld t.c lo len)

/-- The voted register, over its list of fields. -/
def Trw.read (fs : List (Nat × Nat)) (t : Trw) : Word :=
  fs.foldl (fun w f => putFld w f.1 f.2 (t.fld f.1 f.2)) 0

/-- All three copies hold w. -/
def Trw.all (w : Word) : Trw := ⟨w, w, w⟩

/-- Some field differs in all three copies. -/
def Trw.broken (fs : List (Nat × Nat)) (t : Trw) : Bool :=
  fs.any fun f => differ3 (Machine.fld t.a f.1 f.2) (Machine.fld t.b f.1 f.2) (Machine.fld t.c f.1 f.2)

end Sys2Proof.Machine
end

