-- ==== Sys2Proof/Machine/TypesIo.lean ====
section
/-! DEFINITION. The parts of the state that chapters 12 to 20 give: rings and engines, faults and notices, registers,
boot flash and pins. -/
namespace Sys2Proof.Machine

/-! ### 14: faults and notices -/

/-- A leaky bucket with FLT_BKT's fields (R474). -/
structure Bucket where
  count : Nat := 0
  peak : Nat := 0
  retired : Bool := false
  leakAt : Nat := 0
  deriving DecidableEq, Repr

/-- Fault state. kinds holds a written FLT_KIND register by kind; buckets by 256 * kind + unit; deferred the
retirements that wait under R478; fifo the notice words, oldest first, mid: the
first of them ends a notice whose first word has been popped; dropped the notices dropped since the last
NTC_OVERFLOW; fatal the cause of R488 once one has occurred, with whether the vault sequencer was sound. -/
structure Flt where
  kinds : Tbl (Option Word) := []
  buckets : Tbl Bucket := []
  deferred : List (Nat × Nat) := []
  fifo : List Word := []
  mid : Bool := false
  dropped : Nat := 0
  droppedTotal : Nat := 0
  wm : Word := 0x201000300
  alertHi : Bool := false
  alert : Bool := false
  fatal : Option (Nat × Bool) := none
  deriving DecidableEq, Repr

/-! ### 18: registers -/

/-- One IDX pair (R556). -/
structure IdxPair where
  index : Nat := 0
  autoInc : Bool := false
  err : Nat := 0
  deriving DecidableEq, Repr

/-- A wide-value mailbox (R558). -/
structure Mbx where
  sel : Word := 0
  valid : Bool := false
  busy : Bool := false
  err : Nat := 0
  data : List Word := []
  deriving DecidableEq, Repr

/-- Global registers and the access machinery. idx is keyed 4 * source + pair, mbx and fences by source. -/
structure Glb where
  mgmtHead : Trw := {}
  present : BitVec 16 := 0
  straps : Straps := ⟨0, 0, 0, false, false, false⟩
  steward : Bool := false
  restarts : Nat := 0
  idx : Tbl IdxPair := []
  mbx : Tbl Mbx := []
  fences : Tbl Nat := []
  image : Option ImageReport := none
  trwAt : Nat := 0
  deriving DecidableEq, Repr

/-! ### 19: the boot flash -/

/-- A pair record (R471). shutdown is its KIND. -/
structure PairRec where
  pairId : Word := 0
  setId : Word := 0
  peerSet : Word := 0
  session : Nat := 0
  cseq : Nat := 0
  divSeqs : Tbl Nat := []
  complete : List Nat := []
  held : List Nat := []
  shutdown : Bool := false
  deriving DecidableEq, Repr

/-- A slot of the tapestry that holds nothing (R533). -/
def erasedSlot : Line := BitVec.allOnes 512

/-- One area of the tapestry with its header's SEED and BASE_RSEQ, and its chain head outside the store: the highest
RSEQ and that record's MAC (R522, R523, R530). opmin and cycles are the header's OPMIN and CYCLES of its creation. -/
structure TapArea where
  slots : Tbl Line := []
  seed : Nat := 0
  base : Nat := 1
  opmin : Nat := 0
  cycles : Nat := 0
  chain : Option (Nat × Nat) := none
  deriving DecidableEq, Repr

/-- One copy of a channel's training record (R215): the header's items with the CRC-32, the DIMM identity, the timing that full
training found, and the oscillator baseline of the ranks. -/
structure TrainRecord where
  chan : Nat
  row : Nat
  rate : Nat
  rfcNs : Nat
  identity : List Word
  timing : List Word
  baseline : List Nat
  crc : BitVec 32
  deriving DecidableEq, Repr

/-- The items of a training record in their order. -/
def TrainRecord.items (r : TrainRecord) : List Nat :=
  [1, r.chan, r.row, r.rate, r.rfcNs] ++ r.identity.map BitVec.toNat ++ r.timing.map BitVec.toNat ++ r.baseline

/-- The final ledger record (R567): the CSEQ of the flush, DUR_MS, E_REM at admission stop and at the end of stage 3, and the FLUSH record
data of R526. -/
structure LedgerRec where
  cseq : Nat
  durMs : Nat
  eStop : Nat
  eEnd : Nat
  flush : Line
  deriving DecidableEq, Repr

/-- The older copy of each record with two copies (R568): identity, retirement, commit, pair and final ledger record. -/
structure BootOld where
  setId : Word := 0
  custodian : Option (BitVec 768) := none
  retRanks : BitVec 64 := 0
  retCh : BitVec 16 := 0
  retNc : BitVec 256 := 0
  pendNc : BitVec 256 := 0
  retSf : BitVec 256 := 0
  retTiles : BitVec 16 := 0
  commit : Option Commit := none
  pair : Option PairRec := none
  ledger : Option LedgerRec := none
  deriving DecidableEq, Repr

/-- The boot flash (R567, R568). Of a record with two copies the newest is in the record's own fields, the other in old, and gens holds GEN
by record (0 identity, 1 retirement, 2 commit, 3 pair, 4 final ledger). board is the board record in force. train holds the two copies of
each channel's training record, by 2 * channel + copy; ring, the reserve record ring, newest entry first, with true for a charge estimate;
life, the life ring's entries of OPMIN and CYCLES, newest first; opmin and cycles, the running OPMIN and CYCLES; pendNc, the scratch ways
whose retirement waits for the pool or the next cold reset (R136). -/
structure Boot where
  gens : Tbl Nat := []
  old : BootOld := {}
  setId : Word := 0
  custodian : Option (BitVec 768) := none
  board : Option Board := none
  retRanks : BitVec 64 := 0
  retCh : BitVec 16 := 0
  retNc : BitVec 256 := 0
  pendNc : BitVec 256 := 0
  retSf : BitVec 256 := 0
  retTiles : BitVec 16 := 0
  ring : List (Bool × Estimate) := []
  train : Tbl (Option TrainRecord) := []
  commit : Option Commit := none
  pair : Option PairRec := none
  ledger : Option LedgerRec := none
  life : List (Nat × Nat) := []
  opmin : Nat := 0
  cycles : Nat := 0
  tapOrd : TapArea := {}
  tapSev : TapArea := {}
  deriving DecidableEq, Repr

/-! ### 20: pins -/

/-- Instructions of the test port (R598). -/
inductive TapInstr where
  | bypass | idcode | samplePreload | extest | clamp | highz | extestPulse | extestTrain
  deriving DecidableEq, Repr

/-- The pins that no other record holds. sensorAt is the cycle of the last read of the thermal sensors (R599). goodAt is the cycle of supply-good, from which the beam ports' clocks and resets follow
(R595); jtag is the test port's instruction as it was last shifted in (R598). -/
structure Pins where
  thermAlert : Bool := false
  thermTrip : Bool := false
  sensorAt : Nat := 0
  reset : Bool := true
  goodAt : Nat := 0
  jtag : TapInstr := .idcode
  deriving DecidableEq, Repr

/-! ### 12: rings, engines and QUIESCE holds -/

/-- A QUIESCE hold of a region (R426): the ring that took it, whether it is a HOLD, when a completed HOLD ends, and its time
limit in ms, as it stood when the hold started (R437). -/
structure QHold where
  region : Nat
  ring : Nat
  keeps : Bool := false
  ends : Option Nat := none
  ms : Nat := 1
  deriving DecidableEq, Repr

/-- A descriptor in progress (R410 to R422): its 64 bytes; done, the bytes or units done; reads: the reads of its running
step are out; the pages it still treats; entries, the write-buffer entries it waits to see drained; the lines
written as poison; its RESULT, MATCH and, once it has ended, its STATUS; started: its first step has begun; cpl: its
completion has been issued to an HDM queue. -/
structure Active where
  words : Line := 0
  started : Bool := false
  done : Nat := 0
  reads : Bool := false
  pages : List Nat := []
  entries : List Nat := []
  cleaned : List Nat := []
  plines : Nat := 0
  missed : Nat := 0
  result : Word := 0
  matched : Bool := false
  status : Option Nat := none
  cpl : Bool := false
  deriving DecidableEq, Repr

/-- The states of R414 that are held; HELD is RUN or WAIT while a hold stands. -/
inductive RingSt where
  | off | idle | run | wait | fault | detached
  deriving DecidableEq, Repr

/-- A ring pair (R399): the RW bits of its words, its live fields, its descriptor in progress, the completions not yet
signalled with the time of the first (R433), and its place in the order in which doorbells advanced (R409). quiet: the
descriptor in progress outlives a reset of the owner head; its completion is written only where mute is false. -/
structure Ring where
  sq : Word := 0
  cq : Word := 0
  ctl : Word := 0
  phase : Bool := false
  st : RingSt := .off
  err : Nat := 0
  sqHead : Nat := 0
  sqTail : Nat := 0
  cqTail : Nat := 0
  cqHead : Nat := 0
  act : Option Active := none
  coalN : Nat := 0
  coalAt : Nat := 0
  order : Nat := 0
  served : Nat := 0
  quiet : Bool := false
  mute : Bool := false
  deriving DecidableEq, Repr

/-- Rings. answers holds the lines that reads of engines have returned, by ring * 2^39 + line. qheld holds the requests
that QUIESCE holds, in arrival order. -/
structure Rng where
  gctl : Word := 0x1F4
  lastFault : Nat := 0
  rings : Tbl Ring := []
  nextOrder : Nat := 0
  qholds : List QHold := []
  qheld : List Req := []
  answers : Tbl (Option LineCell) := []
  seals : List Seal := []
  deriving DecidableEq, Repr

/-! ### 13: the selvedge link -/

/-- A mirrored write (R457): its number, its region and line, its bytes, its class, when and at which tile it was
accepted, and the SEQ of the DELTA segment open then. -/
structure Mwr where
  id : Nat
  region : Nat
  line : Nat
  data : Line
  mask : Mask
  be : Bool
  at_ : Nat
  tile : Nat
  seq : Nat
  deriving DecidableEq, Repr

/-- SLV_STAT.PAIR. -/
inductive PairSt where
  | off | seek | paired | hold | solo
  deriving DecidableEq, Repr

/-- The mirror state of a region (R441 to R466): MSTATE, COMPLETE, HELD, DIV_SEQ (0 none, 2^64 - 1 FULL), the resync set
as the pages from copyNext on and those of set, GAP owed, RDONE sent, and the MSTATE that the partner's RMAP gave. -/
structure SlvRgn where
  mst : Nat := 0
  complete : Bool := false
  held : Bool := false
  div : Nat := 0
  copyNext : Option Nat := none
  set : List Nat := []
  gap : Bool := false
  rdone : Bool := false
  peerMst : Nat := 0
  fresh : Bool := false
  deriving DecidableEq, Repr

/-- A DATA flit in the replay buffer (R448): its words as sent, when it was last sent, how often it was resent, and
whether a NAK or a time-out asks for it. -/
structure SlvFlit where
  seq : Nat
  cls : Nat
  words : List Word
  sentAt : Nat
  resent : Nat := 0
  ask : Bool := false
  deriving DecidableEq, Repr

/-- A page that resync has taken (R465): its content's form and words, and the mirrored writes it waits for. -/
structure RpTake where
  region : Nat
  page : Nat
  form : Nat
  data : PageData
  waits : List Nat
  deriving DecidableEq, Repr

/-- What the transmitter holds: FIFO words with end marks by class, next SEQ, replay buffer, credits by class (4: shared)
with the counters last seen, XOFF bookkeeping, the C1 and C3 turn, the packets by class that wait for room in their FIFO, and the time
of the last flit. -/
structure SlvTx where
  fifo : Tbl (List (Word × Bool)) := []
  seq : Nat := 0
  replay : List SlvFlit := []
  credits : Tbl Nat := []
  seen : Tbl Nat := []
  xoff : Bool := false
  sent0 : Nat := 0
  sent2 : Nat := 0
  turn : Nat := 0
  sentMack : Nat := 0
  sentRack : Nat := 0
  sentHealth : Option (Nat × Bool) := none
  nonce : Nat := 0
  waiting : List (Nat × List Word) := []
  builtAt : Nat := 0
  deriving DecidableEq, Repr

/-- What the receiver holds: the next SEQ expected, how many SEQs from it on are known to have been sent, flits kept out of
order (SEQ, class, words), class streams, the words left in each delivered flit by class, counters of credits
returned, the C1 buffers kept back (R339), and the packets applied: serials awaited in order, with the counts. -/
structure SlvRx where
  next : Nat := 0
  ahead : Nat := 0
  buf : List (Nat × Nat × List Word) := []
  stream : Tbl (List Word) := []
  left : Tbl (List Nat) := []
  returned : Tbl Nat := []
  kept : Nat := 0
  xoffOut : Bool := false
  serial : Nat := 0
  mwrs : List Nat := []
  macks : Nat := 0
  pages : List Nat := []
  racks : Nat := 0
  deriving DecidableEq, Repr

/-- The selvedge link. pinOn is XOFF_PIN as step 3 of training took it; recovering: the link is in Recovery; refused: the
last HELLO failed R438, at helloAt. delay holds mirrored writes for 1,000 FCLK; sent, those in C1 or beyond that no MACK has counted;
parked, those held behind a page of a resync; taken and pagesOut, the pages of a resync taken and sent (RDONE: none); reading, the
pages whose beam read is out, by region; retryAt: training waits until then, after a failed authentication. -/
structure Slv where
  ctl : Word := 0x402401004
  pairId : Trw := {}
  pair : PairSt := .off
  follow : Bool := false
  rate : Nat := 0
  width : Nat := 0
  l0 : Bool := false
  detected : Bool := false
  ide : Bool := false
  fbTx : Bool := false
  fbRx : Bool := false
  xoffPin : Bool := false
  pinOn : Bool := false
  recovering : Bool := false
  refused : Bool := false
  peerHealth : Nat := 3
  peerWithhold : Bool := false
  laneRet : BitVec 8 := 0
  session : Nat := 0
  peerSet : Word := 0
  peer : Option HelloPacket := none
  rmap : List RmapEntry := []
  helloAt : Nat := 0
  holdAt : Nat := 0
  retryAt : Nat := 0
  stopMack : Bool := false
  rgns : Tbl SlvRgn := []
  nextMwr : Nat := 0
  delay : List Mwr := []
  sent : List Mwr := []
  parked : List Mwr := []
  mackCount : Nat := 0
  taken : List RpTake := []
  pagesOut : List (Nat × Option Nat) := []
  reading : List (Nat × Nat) := []
  rackCount : Nat := 0
  tx : SlvTx := {}
  rx : SlvRx := {}
  deriving DecidableEq, Repr

/-! ### 15: keys -/

/-- KEYWRAP of the superblock in force (R500), by what it wraps: the SALT of each slot, whether the escrow entry is
valid and to which custodian key it is sealed, and the BKEK it wraps. ours: DEV_WRAP is wrapped under this device's
root key. -/
structure KeyWrap where
  salts : Tbl (BitVec 32) := []
  escV : Bool := false
  custodian : Option (BitVec 768) := none
  bkek : BitVec 256 := 0
  ours : Bool := false
  deriving DecidableEq, Repr

/-- A slot command that runs (R504, R505): OP (1 GENERATE, 2 ERASE), its slot, whether ERASE has done its first step,
and whether it has written its commit, after which the superblock writes remain. -/
structure KeyCmd where
  op : Nat
  slot : Nat
  zeroed : Bool := false
  committed : Bool := false
  deriving DecidableEq, Repr

/-- Keys (R496 to R506): the BKEK and the salts in SRAM, KEYWRAP on the drives, the running slot command, SEC_KEY_STAT's
RESULT and SLOT, a restore that waits for KEY_DELIVER, the source whose Sanitize or Secure Erase runs (R506), the random values
drawn so far, and the SPDM sessions by source (R509): 1 in handshake, 2 established, 3 established with mutual authentication. -/
structure Sec where
  bkek : Option (BitVec 256) := none
  salts : Tbl (BitVec 32) := []
  wrap : KeyWrap := {}
  cmd : Option KeyCmd := none
  result : Nat := 0
  slot : Nat := 0
  waitKey : Bool := false
  sanitizing : Option Nat := none
  draws : Nat := 0
  spdm : Tbl Nat := []
  deriving DecidableEq, Repr

/-! ### 16: counters -/

/-- A dump image being written (R516 to R521): its capture cycle, the counters and overflow bits it copied, those of the
previous image with its capture cycle (none: it is the first after EN went to 1), the counters PMC_SET wrote in its
window, the captures skipped since the previous image, whether it is periodic, and the rings whose DUMP_NOW it serves.
lines: every line but the SEQ word is out; seq: the SEQ word is out. -/
structure DumpImg where
  at_ : Nat
  cnt : Tbl Nat
  ovf : Tbl Bool
  prev : Option (Nat × Tbl Nat)
  touched : Tbl Bool
  skipped : Nat
  opmin : Nat
  cycles : Nat
  periodic : Bool
  rings : List Nat
  lines : Bool := false
  seq : Bool := false
  deriving DecidableEq, Repr

/-- Performance counters: counts and overflow bits by event, the MODE of events whose MODE was written, and which state
events were true in the last cycle. The dump ring: its registers, live fields, the time of the last periodic
capture, images written, and what the next image needs. -/
structure Pmc where
  cnt : Tbl Nat := []
  ovf : Tbl Bool := []
  mode : Tbl (Option Nat) := []
  was : Tbl Bool := []
  dctl : Word := 0
  dbase : Word := 0
  dhead : Nat := 0
  dtail : Nat := 0
  run : Bool := false
  derr : Nat := 0
  lastCap : Nat := 0
  img : Option DumpImg := none
  images : Nat := 0
  skipped : Nat := 0
  prev : Option (Nat × Tbl Nat) := none
  touched : Tbl Bool := []
  deriving DecidableEq, Repr

/-- An accumulator of the tapestry recorder (R524, R526). -/
structure TapAcc where
  bins : List Nat := [0, 0, 0, 0, 0, 0, 0, 0]
  min : Nat := 0
  max : Nat := 0
  minAt : Nat := 0
  maxAt : Nat := 0
  sum : Nat := 0
  n : Nat := 0
  deriving DecidableEq, Repr

/-- The tapestry recorder. buf holds the buffered records and out those of the flush that runs, as 64-byte drafts without
RSEQ, DISP, PREVMAC, MAC and CRC; accs and minute (the running minute's extremes), by 4096 * metric + unit; minuteAt,
the cycle in which it began, vinMin, its least VIN; lastFault,
the minute of the last fault flush; due: a fault waits for its flush. -/
structure Tap where
  ctl : Word := 0x2A
  buf : List Line := []
  out : List Line := []
  flushing : Bool := false
  accs : Tbl TapAcc := []
  minute : Tbl Nat := []
  minuteAt : Nat := 0
  vinMin : Option Nat := none
  lastFault : Option Nat := none
  due : Bool := false
  dropOrd : Nat := 0
  dropSev : Nat := 0
  verdict : Nat := 0
  deriving DecidableEq, Repr

/-! ### 17: power states -/

/-- Power states. Resources are numbered: 0 to 15 tiles, 16 to 31 channels, 32 to 47 head links, 48 to 55 slots'
drives, 56 the near-cache ways. low: in a state; leaving: on the way out of it; exitAt: the cycle at which the exit ends. exlat: EXLAT in us of the
state that a slot's drive is in. quiet: the cycle of a head's quiet end. -/
structure Pwr where
  ctl : Word := 0x271007
  low : BitVec 57 := 0
  leaving : BitVec 57 := 0
  exitAt : Tbl Nat := []
  exlat : Tbl Nat := []
  quiet : Tbl Nat := []
  deriving DecidableEq, Repr

end Sys2Proof.Machine
end

