-- ==== Sys2Proof/Machine/State.lean ====
section
/-! DEFINITION. The state of the block: every register, table, buffer, queue and pin that the spec gives the device,
as plain data, one record per chapter, with the queue of waiting commands; the reasons a step can stop; and the
state at reset. -/
namespace Sys2Proof.Machine

/-- The reasons a step can fault. None is raised: every command of the table has an effect the spec gives, or changes
nothing. The constructor keeps the type inhabited. Safe: it stops nothing. -/
inductive Fault where
  /-- Raised by no meaning. Safe. -/
  | none
  deriving DecidableEq, Repr

/-- The reasons a step can be refused. -/
inductive Refusal where
  /-- A command without a meaning yet, by its mnemonic. Raised by arms of exec only. Safe: the machine stops. -/
  | notModelled (mnemonic : String)
  deriving DecidableEq, Repr

/-- The state of the device. on: the supplies and clocks run and RESET# is deasserted, so the block takes commands.
clock counts FCLK cycles. out holds what the last command sent out. pending is the queue of commands that wait. -/
structure State where
  on : Bool := false
  clock : Nat := 0
  freeIdx : Nat := 0
  out : List Output := []
  pending : List Instr := []
  glb : Glb := {}
  boot : Boot := {}
  pins : Pins := {}
  ports : Ports := {}
  heads : Tbl Head := []
  regions : Tbl Region := []
  near : Near := {}
  coh : Coh := {}
  dram : Dram := {}
  map : JMap := {}
  beam : Beam := {}
  rsv : Rsv := {}
  vlt : Vlt := {}
  qos : Qos := {}
  rng : Rng := {}
  slv : Slv := {}
  flt : Flt := {}
  sec : Sec := {}
  pmc : Pmc := {}
  tap : Tap := {}
  pwr : Pwr := {}
  deriving DecidableEq, Repr

/-- The device right after reset: every register at the reset value its map gives, no memory listed, no command
waiting. Values that the spec leaves open are named in the assumption log. -/
def State.reset : State := {}

end Sys2Proof.Machine
end

