-- ==== Sys2Proof/Machine/Ops.lean ====
section
/-! DEFINITION. The named operations that every family shares: access to heads, regions and tables, the messages a
command sends, counters, event records, the notice FIFO (R490 to R494), buckets (R474), and the frame in which every
command runs. -/
namespace Sys2Proof.Machine

/-! ### Access -/

/-- Head h. -/
def State.head (s : State) (h : Nat) : Head := s.heads.get {} h

/-- Change head h. -/
def State.modHead (s : State) (h : Nat) (f : Head → Head) : State :=
  { s with heads := s.heads.set {} h (f (s.head h)) }

/-- Change the link of head h. -/
def State.modLink (s : State) (h : Nat) (f : Link → Link) : State := s.modHead h fun x => { x with link := f x.link }

/-- Change the function of head h. -/
def State.modFunc (s : State) (h : Nat) (f : Func → Func) : State := s.modHead h fun x => { x with func := f x.func }

/-- Change the load record of head h. -/
def State.modLoad (s : State) (h : Nat) (f : Load → Load) : State := s.modHead h fun x => { x with load := f x.load }

/-- Burst sizes in twentieths of a byte: READ, WRITE, BEAM. -/
def Budget.rdCap (b : Budget) : Nat := max 1 (fld b.reg 32 8) * 20480
/-- See rdCap. -/
def Budget.wrCap (b : Budget) : Nat := max 1 (fld b.reg 40 8) * 20480
/-- See rdCap. -/
def Budget.bmCap (b : Budget) : Nat := max 4 (fld b.reg 48 8) * 20480

/-- A bucket after n FCLK at a rate: 0.1 GB/s is a twentieth of a byte per FCLK at 2 GHz (R373). -/
def refill (cap rate n now : Nat) : Nat := min cap (now + rate * n)

/-- The buckets at a time: each refills every FCLK at its rate in force (R373). -/
def Budget.filled (b : Budget) (now : Nat) : Budget :=
  { b with
    rd := refill b.rdCap b.rdRate (now - b.filledAt) b.rd
    wr := refill b.wrCap b.wrRate (now - b.filledAt) b.wr
    bm := refill b.bmCap b.bmRate (now - b.filledAt) b.bm
    filledAt := now }

/-- The budget of head h now. -/
def State.budget (s : State) (h : Nat) : Budget := (s.qos.heads.get {} h).filled s.clock

/-- Set the budget of head h. -/
def State.setBudget (s : State) (h : Nat) (b : Budget) : State := { s with qos := { s.qos with heads := s.qos.heads.set {} h b } }

/-- Head h exists (R60, R566). -/
def State.present (s : State) (h : Nat) : Bool := s.glb.present.getLsbD h

/-- The heads that exist, ascending. -/
def State.presentHeads (s : State) : List Nat := bitsOf s.glb.present

/-- Region n. -/
def State.region (s : State) (n : Nat) : Region := s.regions.get {} n

/-- Change region n. -/
def State.modRegion (s : State) (n : Nat) (f : Region → Region) : State :=
  { s with regions := s.regions.set {} n (f (s.region n)) }

/-- The management head in force (R80, R555). -/
def State.mgmtHead (s : State) : Nat := s.glb.mgmtHead.fld 0 4

/-- A source that may write global registers: the management head or the management interface, numbered 16 (R80). -/
def State.isMgmt (s : State) (src : Nat) : Bool := src = 16 || src = s.mgmtHead

/-- The link of a present head is up. -/
def State.linkUp (s : State) (h : Nat) : Bool := s.present h && (s.head h).link.up

/-- Source src can reach registers: the management interface, or a present head with its link up and CXL negotiated: without
CXL it has configuration space only (R62). -/
def State.reaches (s : State) (src : Nat) : Bool := src = 16 || (s.linkUp src && (s.head src).link.cxl)

/-- Tile t is retired (R479). -/
def State.tileRetired (s : State) (t : Nat) : Bool := s.boot.retTiles.getLsbD t

/-- The first tile that is not retired, counting upward modulo 16 from t (R20, R142, R220). -/
def State.firstTile (s : State) (t : Nat) : Nat :=
  (((List.range 16).map fun i => (t + i) % 16).find? fun u => ! s.tileRetired u).getD (t % 16)

/-- Channel m. -/
def State.chan (s : State) (m : Nat) : Channel := s.dram.ch.get {} m

/-- Change channel m. -/
def State.modChan (s : State) (m : Nat) (f : Channel → Channel) : State :=
  { s with dram := { s.dram with ch := s.dram.ch.set {} m (f (s.chan m)) } }

/-- The map entry of a page. -/
def State.page (s : State) (pn : Nat) : PageEntry := s.map.pages.get {} pn

/-- Change the map entry of a page. -/
def State.modPage (s : State) (pn : Nat) (f : PageEntry → PageEntry) : State :=
  { s with map := { s.map with pages := s.map.pages.set {} pn (f (s.page pn)) } }

/-- The directory entry of a unit. -/
def State.unit (s : State) (u : Nat) : UnitDir := s.map.units.get {} u

/-- Change the directory entry of a unit. -/
def State.modUnit (s : State) (u : Nat) (f : UnitDir → UnitDir) : State :=
  { s with map := { s.map with units := s.map.units.set {} u (f (s.unit u)) } }

/-- The open transaction on a line. -/
def State.txn (s : State) (line : Nat) : Option Txn := s.coh.txns.get none line

/-- Set or remove the open transaction on a line. -/
def State.setTxn (s : State) (line : Nat) (t : Option Txn) : State :=
  { s with coh := { s.coh with txns := s.coh.txns.set none line t } }

/-- A slot of the beam. -/
def State.slot (s : State) (i : Nat) : Slot := s.beam.slots.get {} i

/-- Change a slot of the beam. -/
def State.modSlot (s : State) (i : Nat) (f : Slot → Slot) : State :=
  { s with beam := { s.beam with slots := s.beam.slots.set {} i (f (s.slot i)) } }

/-- A segment of the beam. -/
def State.seg (s : State) (g : Nat) : Seg := s.beam.segs.get {} g

/-- Change a segment of the beam. -/
def State.modSeg (s : State) (g : Nat) (f : Seg → Seg) : State :=
  { s with beam := { s.beam with segs := s.beam.segs.set {} g (f (s.seg g)) } }

/-- The next free value of the run (see the log): it advances the plain counter it reads. -/
def State.fresh (s : State) : Word × State := (Config.freeValue s.freeIdx, { s with freeIdx := s.freeIdx + 1 })

/-! ### Messages, counters, events -/

/-- Send a message. -/
def State.emit (s : State) (o : Output) : State := { s with out := s.out ++ [o] }

/-- Send a message to head h; it waits while the link is in Recovery (R82). -/
def State.emitTo (s : State) (h : Nat) (o : Output) : State :=
  if (s.head h).link.recovery then s.modHead h fun x => { x with outQ := x.outQ ++ [o] } else s.emit o

/-- The messages that waited for the end of a head's Recovery leave. -/
def State.flushOut (s : State) (h : Nat) : State :=
  ((s.head h).outQ.foldl State.emit s).modHead h fun x => { x with outQ := [] }

/-- Offset of an event in its block's unit, with its block: 0 global, 1 head, 2 tile, 3 channel, 4 slot, 5 beam,
6 engine, 7 selvedge, 8 vault, 9 ring stop (R515). -/
def evPlace (ev : Nat) : Nat × Nat :=
  if ev < 64 then (0, ev) else if ev < 320 then (1, (ev - 64) % 16) else if ev < 576 then (2, (ev - 320) % 16)
  else if ev < 832 then (3, (ev - 576) % 16) else if ev < 896 then (4, (ev - 832) % 8) else if ev < 1024 then (5, ev - 896)
  else if ev < 1152 then (6, (ev - 1024) % 4) else if ev < 1280 then (7, ev - 1152) else if ev < 1408 then (8, ev - 1280)
  else (9, (ev - 1408) % 8)

/-- The event is a state event (R512, R515). -/
def evState (ev : Nat) : Bool :=
  [(0, 0), (1, 9), (1, 10), (1, 11), (1, 12), (1, 13), (1, 14), (3, 7), (4, 4), (6, 2), (7, 6), (7, 7), (7, 9), (8, 2),
    (8, 4), (8, 5), (8, 6), (8, 7), (9, 4)].contains (evPlace ev)

/-- The event has a name in R515; a reserved event never counts (R514). -/
def evNamed (ev : Nat) : Bool :=
  decide (ev < 1536) && match evPlace ev with
  | (0, o) => decide (o < 6)
  | (1, o) => decide (o < 15)
  | (2, _) | (3, _) | (4, _) => true
  | (5, o) => decide (o < 12)
  | (6, _) => true
  | (7, o) => decide (o < 10)
  | (8, o) => decide (o < 8)
  | (_, o) => decide (o < 6)

/-- MODE of an event: EDGE (0) for Q and LEVEL (1) for S events at reset (R515). -/
def Pmc.modeOf (p : Pmc) (ev : Nat) : Nat := (p.mode.get none ev).getD (if evState ev then 1 else 0)

/-- Count n of event ev (R512 to R514): a Q event adds n in EDGE mode and 1 in LEVEL mode when n is above 0; the
counter wraps at 2^48 and sets its overflow bit (R513). -/
def State.count (s : State) (ev n : Nat) : State :=
  let m := if s.pmc.modeOf ev = 1 then min n 1 else n
  let v := s.pmc.cnt.get 0 ev + m
  { s with pmc := { s.pmc with
      cnt := s.pmc.cnt.set 0 ev (v % 2 ^ 48)
      ovf := if v < 2 ^ 48 then s.pmc.ovf else s.pmc.ovf.set false ev true } }

/-- Event numbers of R515. -/
def evHead (h off : Nat) : Nat := 64 + 16 * h + off
/-- See evHead. -/
def evTile (n off : Nat) : Nat := 320 + 16 * n + off
/-- See evHead. -/
def evChan (m off : Nat) : Nat := 576 + 16 * m + off
/-- See evHead. -/
def evSlot (i off : Nat) : Nat := 832 + 8 * i + off
/-- See evHead. -/
def evBeam (off : Nat) : Nat := 896 + off
/-- See evHead. -/
def evEngine (e off : Nat) : Nat := 1024 + 4 * e + off
/-- See evHead. -/
def evSlv (off : Nat) : Nat := 1152 + off
/-- See evHead. -/
def evVault (off : Nat) : Nat := 1280 + off

/-- See evHead. -/
def evRing (n off : Nat) : Nat := 1408 + 8 * n + off

/-! ### The warp ring (R11, R12) -/

/-- A transfer from tile a to tile b goes clockwise: fewer hops that way, or exactly 8 from an even tile (R11). -/
def ringCw (a b : Nat) : Bool :=
  let d := (b + 16 - a % 16) % 16
  decide (d < 8) || (decide (d = 8) && decide (a % 2 = 0))

/-- The hops of a transfer: at most 8. -/
def ringHops (a b : Nat) : Nat :=
  let d := (b + 16 - a % 16) % 16
  if ringCw a b then d else 16 - d

/-- The tile i hops from a. -/
def ringStep (a : Nat) (cw : Bool) (i : Nat) : Nat := if cw then (a + i) % 16 else (a + 16 * i - i) % 16

/-- The stops a transfer passes between its source and its destination. -/
def ringPath (a b : Nat) : List Nat := (List.range (ringHops a b - 1)).map fun i => ringStep a (ringCw a b) (i + 1)

/-- A ring stop injects a transfer of a priority level (R515). -/
def State.ringInject (s : State) (tile prio : Nat) : State :=
  s.count (evRing tile (if prio ≤ 2 then 0 else if prio = 3 then 1 else 2)) 1

/-- The stops of a list pass a transfer on. -/
def State.pass (s : State) (l : List Nat) : State := l.foldl (fun s n => s.count (evRing n 3) 1) s

/-- A transfer goes from one tile to another: nothing is sent within a tile. -/
def State.ringSend (s : State) (a b prio : Nat) : State :=
  if a % 16 = b % 16 then s else (s.ringInject a prio).pass (ringPath a b)

/-- The tiles that a broadcast from a tile reaches: 8 ahead clockwise and 7 ahead counter-clockwise (R12). -/
def broadcastTiles (a : Nat) : List Nat :=
  ((List.range 8).map fun i => ringStep a true (i + 1)) ++ ((List.range 7).map fun i => ringStep a false (i + 1))

/-- A broadcast probe leaves in both directions; every stop it reaches counts it, and all but the last of each direction pass
it on. -/
def State.broadcast (s : State) (a prio : Nat) : State :=
  let s1 := (broadcastTiles a).foldl (fun s n => s.count (evRing n 5) 1) (s.ringInject a prio)
  s1.pass ((broadcastTiles a).filter fun n => n ≠ ringStep a true 8 && n ≠ ringStep a false 7)

/-- MSI-X on a vector of a head's function: a masked vector sets its pending bit instead (R433). -/
def State.sendMsix (s : State) (h v : Nat) : State :=
  if ((s.head h).func.msix.get {} v).masked then
    s.modFunc h fun f => { f with msix := f.msix.set {} v { f.msix.get {} v with pend := true } }
  else s.emit (.msix h v)

/-- The log that takes an event record (PRESUMED: R73 leaves it to CXL): the severity of its notice class; a denied access is a
warning, and a record that the reserve is VALID again informational. -/
def EventRec.log (e : EventRec) : Nat :=
  if e.cls = 0x0A && e.arg = 0 then 0
  else if e.cls = 0 || e.cls = 0x06 || e.cls = 0x12 || e.cls = 0x14 then 1
  else if e.cls = 0x3F then 3 else 2

/-- Give head h an event record and the interrupt that its log's policy asks for (R73, R74). DESIGN CHOICE (log): a log has no
limit, and only R355 sets an overflow indication. -/
def State.event (s : State) (h : Nat) (e : EventRec) : State :=
  if s.present h then
    let f := (s.head h).func
    let s1 := s.modFunc h fun f => { f with
      events := f.events ++ [⟨e.log, f.nextHandle, e⟩], nextHandle := f.nextHandle % 65535 + 1 }
    match f.policy.getD e.log none with
    | some v => s1.sendMsix h v
    | none => s1
  else s

/-- Give every present head an event record. -/
def State.eventAll (s : State) (e : EventRec) : State := s.presentHeads.foldl (fun s h => s.event h e) s

/-! ### The notice FIFO -/

/-- A notice (R490): severity 0 INFO, 1 WARN, 2 ERROR, 3 FATAL; class; and its arguments. -/
structure Note where
  sev : Nat
  cls : Nat
  arg0 : Nat
  arg1 : Option Nat := none

/-- Word 0 of a notice (R490). -/
def noteWord0 (sev words cls arg0 : Nat) : Word :=
  atBit 1 63 ||| atBit (if words = 1 then 1 else 0) 61 ||| atBit (sev % 4) 59 ||| atBit (words % 4) 57
    ||| atBit (cls % 256) 48 ||| atBit (arg0 % 2 ^ 48) 0

/-- The words of a notice. -/
def Note.words (n : Note) : List Word :=
  match n.arg1 with
  | none => [noteWord0 n.sev 1 n.cls n.arg0]
  | some a => [noteWord0 n.sev 2 n.cls n.arg0, atBit 1 63 ||| atBit 1 61 ||| atBit (a % 2 ^ 61) 0]

/-- The NTC_OVERFLOW notice for d drops. -/
def overflowWord (d : Nat) : Word := noteWord0 0 1 0x01 (min d (2 ^ 32 - 1))

/-- Enter a notice whole, or drop and count it (R492). -/
def Flt.enter (f : Flt) (ws : List Word) : Flt :=
  if f.dropped = 0 then
    if f.fifo.length + ws.length ≤ 1024 then { f with fifo := f.fifo ++ ws }
    else { f with dropped := 1, droppedTotal := min (f.droppedTotal + 1) (2 ^ 32 - 1) }
  else if f.fifo.length + ws.length + 1 ≤ 1024 then
    { f with fifo := f.fifo ++ overflowWord f.dropped :: ws, dropped := 0 }
  else { f with dropped := f.dropped + 1, droppedTotal := min (f.droppedTotal + 1) (2 ^ 32 - 1) }

/-- Classes that a General Media or Memory Module event record already reports (R74, R491). -/
def noteReported (cls : Nat) : Bool :=
  cls = 0x0A || (0x10 ≤ cls && cls ≤ 0x17) || cls = 0x20 || cls = 0x21 || cls = 0x24

/-! ### Records of the boot flash (R567, R568) -/

/-- A record with two copies is about to be written: what it holds becomes the older copy, and GEN rises by 1. -/
def Boot.keep (b : Boot) (k : Nat) : Boot :=
  { b with
    gens := b.gens.set 0 k (b.gens.get 0 k + 1)
    old := match k with
      | 0 => { b.old with setId := b.setId, custodian := b.custodian }
      | 1 => { b.old with
          retRanks := b.retRanks, retCh := b.retCh, retNc := b.retNc, pendNc := b.pendNc, retSf := b.retSf, retTiles := b.retTiles }
      | 2 => { b.old with commit := b.commit }
      | 3 => { b.old with pair := b.pair }
      | _ => { b.old with ledger := b.ledger } }

/-- The newest estimate of a kind in the reserve record ring: true for charge (R328). -/
def newestOf (kind : Bool) : List (Bool × Estimate) → Option Estimate
  | [] => none
  | e :: l => if e.1 = kind then some e.2 else newestOf kind l

/-- Entries of the reserve record ring and of the life ring: 64 KiB of 64 bytes each (the entry size of the reserve record is PRESUMED to
be the life ring's; see the log). -/
def ringEntries : Nat := 1024

/-- An accepted estimate goes into the ring; the newest test record is written again before the ring wraps over its last copy (R328). -/
def Boot.addEstimate (b : Boot) (kind : Bool) (e : Estimate) : Boot :=
  let l := b.ring.take (ringEntries - 1)
  let lost := match newestOf false ((kind, e) :: l), newestOf false b.ring with
    | none, some t => [(false, t)]
    | _, _ => []
  { b with ring := (kind, e) :: (lost ++ l).take (ringEntries - 1) }

/-- An entry of OPMIN and CYCLES goes into the life ring. -/
def Boot.addLife (b : Boot) : Boot := { b with life := (b.opmin, b.cycles) :: b.life.take (ringEntries - 1) }

/-! ### The tapestry's buffer (R523 to R527) -/

/-- Word 0 of a record. -/
def tapWord0 (typ sev area unit metric opmin : Nat) : Word :=
  atBit (typ % 256) 0 ||| atBit (sev % 4) 8 ||| atBit (area % 2) 10 ||| atBit (unit % 4096) 12 ||| atBit (metric % 256) 24
    ||| atBit (opmin % 2 ^ 32) 32

/-- A record draft: TYPE, SEV, AREA, UNIT, METRIC and payload words; OPMIN and CYCLES are those of now. -/
def State.tapDraft (s : State) (typ sev area unit metric : Nat) (payload : List Word) : Line :=
  lineOfWords (tapWord0 typ sev area unit metric s.boot.opmin :: atBit (s.boot.cycles % 2 ^ 24) 0 :: payload.take 4)

/-- UNIT of the EVENT record of a notice: the one it carries, or that of the channel, slot or reserve it names. -/
def Note.unit (n : Note) : Nat :=
  match n.cls with
  | 0x10 | 0x11 | 0x12 | 0x13 | 0x14 | 0x15 | 0x16 | 0x17 => n.arg0 % 4096
  | 0x0A => 0xA00
  | 0x18 | 0x19 => 256 + n.arg0 % 16
  | 0x1B => 5 * 256 + n.arg0 % 8
  | 0x23 | 0x24 => 0xB00
  | 0x3F => (n.arg1.getD 0) % 4096
  | c => Config.eventUnit c % 2304

/-- The AREA of an EVENT record (R525). -/
def Note.area (n : Note) : Nat := if n.cls = 0x0A || n.cls = 0x23 || n.cls = 0x24 || n.cls = 0x3F then 1 else 0

/-- AREA, SEV of a draft. -/
def tapArea (l : Line) : Nat := fld (lineWord l 0) 10 1
/-- See tapArea. -/
def tapSevOf (l : Line) : Nat := fld (lineWord l 0) 8 2

/-- Count a record that the recorder drops (R527). -/
def State.tapDrop (s : State) (area : Nat) : State :=
  ({ s with tap := { s.tap with
      dropOrd := if area = 0 then min (s.tap.dropOrd + 1) (2 ^ 32 - 1) else s.tap.dropOrd
      dropSev := if area = 1 then min (s.tap.dropSev + 1) 65535 else s.tap.dropSev } } : State).count 5 1

/-- Put a draft into the buffer: 4,096 records, 256 of them for the SEVERITY area. -/
def State.tapPut (s : State) (l : Line) : State :=
  let n := s.tap.buf.length
  let o := (s.tap.buf.filter fun x => tapArea x = 0).length
  if n < 4096 && (tapArea l = 1 || decide (o < 3840)) then { s with tap := { s.tap with buf := s.tap.buf ++ [l] } }
  else s.tapDrop (tapArea l)

/-- The newest buffered record takes one more occurrence: same CLASS, ARG0, ARG1 and REPEAT below its limit. -/
def tapSame (a b : Line) : Bool :=
  fld (lineWord a 0) 0 8 = 3 && lineWord a 2 = lineWord b 2 && lineWord a 3 = lineWord b 3
    && decide (fld (lineWord a 1) 24 16 < 65535)

/-- Add an occurrence to a draft. -/
def tapRepeat (a : Line) (opmin : Nat) : Line :=
  lineOfWords [lineWord a 0, putFld (lineWord a 1) 24 16 (fld (lineWord a 1) 24 16 + 1), lineWord a 2, lineWord a 3,
    atBit (opmin % 2 ^ 32) 0, lineWord a 5, lineWord a 6, lineWord a 7]

/-- The EVENT record of a notice of SEV WARN or above, or of RSV_HEALTH (R527); a notice at or above FAULT_SEV asks for a
fault flush (R528). -/
def State.tapEvent (s : State) (n : Note) : State :=
  let sev := max 1 (fld s.tap.ctl 0 2)
  let s1 : State := if sev ≤ n.sev then { s with tap := { s.tap with due := true } } else s
  if n.sev = 0 && n.cls ≠ 0x0A then s1
  else
    let l := s1.tapDraft 3 n.sev n.area n.unit 0
      [atBit (n.arg0 % 2 ^ 48) 0 ||| atBit n.cls 48, atBit (n.arg1.getD 0 % 2 ^ 61) 0, atBit (s1.boot.opmin % 2 ^ 32) 0]
    match s1.tap.buf.getLast? with
    | some a => if tapSame a l then
        { s1 with tap := { s1.tap with buf := s1.tap.buf.dropLast ++ [tapRepeat a s1.boot.opmin] } }
      else s1.tapPut l
    | none => s1.tapPut l

/-- Record an extreme of the running minute: the larger of the values seen. key is 4096 * METRIC + UNIT. -/
def State.minuteMax (s : State) (key v : Nat) : State :=
  { s with tap := { s.tap with minute := s.tap.minute.set 0 key (max (v + 1) (s.tap.minute.get 0 key)) } }

/-- Post a notice: enter it, count it, record it in the tapestry, and send the management head a vendor-specific record
where R491 asks it. -/
def State.note (s : State) (n : Note) : State :=
  let f := s.flt.enter n.words
  let s1 := ({ s with flt := f } : State).tapEvent n
  let s2 := if f.dropped = 0 then s1.count 1 (if s.flt.dropped = 0 then 1 else 2) else s1.count 2 1
  if n.sev ≥ 2 && ! noteReported n.cls then s2.event s2.mgmtHead ⟨.vendor, n.cls, n.arg0⟩ else s2

/-- An ACCESS notice (R491, R602). region 0xFFF: none. -/
def State.access (s : State) (src region cause arg1 : Nat) : State :=
  s.note ⟨1, 0x03, src % 32 + (region % 4096) * 32 + (cause % 16) * 2 ^ 17, some arg1⟩

/-- ARG1 of an ACCESS notice about a BAR0 register at an offset (R602). -/
def regArgBar (off : Nat) : Nat := off / 8

/-- ARG1 of an ACCESS notice about an indirect register (R602). -/
def regArgInd (idx : Nat) : Nat := idx + 2 ^ 24

/-- The SEV fields of the notices in the FIFO: start says that the next word begins a notice. -/
def noteSevs : Bool → List Word → List Nat
  | _, [] => []
  | start, w :: ws => if start then fld w 59 2 :: noteSevs (flag w 61) ws else noteSevs (flag w 61) ws

/-- Whole notices in the FIFO. -/
def Flt.noteCount (f : Flt) : Nat := (f.fifo.filter fun w => flag w 61).length - if f.mid then 1 else 0

/-- NTC_WM.HI with its clamp. -/
def Flt.hi (f : Flt) : Nat := min (fld f.wm 0 11) 1024

/-- NTC_WM.LO with its clamp. -/
def Flt.lo (f : Flt) : Nat := if fld f.wm 16 11 < f.hi then fld f.wm 16 11 else f.hi - 1

/-- The watermark side of ALERT# (R494). -/
def Flt.alertMark (f : Flt) : Bool :=
  if f.fifo.length ≥ f.hi then true else if f.fifo.length ≤ f.lo then false else f.alertHi

/-- ALERT# follows the watermarks, a notice of a severity asked for, and a fatal error (R494, R578). -/
def Flt.alerts (f : Flt) : Flt :=
  let sev := fld f.wm 32 2
  { f with
    alertHi := f.alertMark
    alert := f.alertMark || (sev ≠ 0 && (noteSevs (! f.mid) f.fifo).any fun x => decide (sev ≤ x)) || f.fatal.isSome }

/-! ### Leaky buckets -/

/-- The reset value of FLT_KIND_k: THRESH and LEAK_MS of R474. -/
def kindReset (k : Nat) : Word :=
  let p : Nat × Nat := match k with
    | 0 => (512, 60000) | 1 => (64, 10000) | 2 => (64, 60000) | 3 => (64, 60000) | 4 => (32, 600000)
    | 5 => (256, 3600000) | 6 => (1024, 1000) | 7 => (32, 600000) | _ => (1024, 1000)
  atBit p.1 0 ||| atBit p.2 16

/-- FLT_KIND_k in force. -/
def Flt.kind (f : Flt) (k : Nat) : Word := (f.kinds.get none k).getD (kindReset k)

/-- How many units a kind has (R474, R601). -/
def kindUnits (k : Nat) : Nat :=
  match k with
  | 0 => 64 | 1 => 16 | 2 => 256 | 3 => 256 | 4 => 16 | 5 => 8 | 6 => 64 | 7 => 8 | 8 => 8 | _ => 0

/-- The number of a kind. -/
def kindNo : UnitKind → Nat
  | .rank => 0 | .channel => 1 | .ncWay => 2 | .sfWay => 3 | .tile => 4 | .slot => 5 | .hostLane => 6
  | .hostPort => 7 | .slvLane => 8

/-- The bucket of a unit. -/
def State.bucket (s : State) (k u : Nat) : Bucket := s.flt.buckets.get {} (256 * k + u)

/-- Change the bucket of a unit. -/
def State.modBucket (s : State) (k u : Nat) (f : Bucket → Bucket) : State :=
  { s with flt := { s.flt with buckets := s.flt.buckets.set {} (256 * k + u) (f (s.bucket k u)) } }

/-- Add a counted error's weight (R474): COUNT saturates at 0xFFFF, PEAK keeps the highest. -/
def Bucket.add (b : Bucket) (w : Nat) : Bucket :=
  let c := min (b.count + w) 0xFFFF
  { b with count := c, peak := max b.peak c }

/-- COUNT is over THRESH (R474, R475). -/
def State.over (s : State) (k u : Nat) : Bool := fld (s.flt.kind k) 0 16 < (s.bucket k u).count

/-- Between commit and resume retirements caused by a bucket wait (R478). -/
def State.deferring (s : State) : Bool := s.vlt.hold || s.vlt.stopped

/-- Count an error in a bucket. A unit that its weight takes over the threshold is put on the list of retirements to
carry out (R476). -/
def State.bump (s : State) (k u w : Nat) : State :=
  let s0 := s.modBucket k u fun b => b.add w
  let s1 := s0.minuteMax (4096 * 8 + 256 * k + u) (s0.bucket k u).count
  if s1.over k u && ! (s1.bucket k u).retired && ! s1.flt.deferred.contains (k, u) then
    { s1 with flt := { s1.flt with deferred := s1.flt.deferred ++ [(k, u)] } }
  else s1

/-! ### The frame of a command -/

/-- The pin interlock (R594): the charger and the test load are never on together, and neither while the hold-up
switch is. -/
def Rsv.interlock (hold : Bool) (r : Rsv) : Rsv :=
  { r with charging := r.charging && ! hold && ! r.testing, testing := r.testing && ! hold }

/-- What the hardware brings about at the end of every command: the pin interlock and ALERT#. -/
def settle (s : State) : State := { s with rsv := s.rsv.interlock s.vlt.hold, flt := s.flt.alerts }

/-- Run a command's effect: nothing happens while the device is off; out holds this command's messages only. -/
def run (f : State → State) (s : State) : Host.Outcome State Fault Refusal :=
  .next (settle (if s.on then f { s with out := [] } else s))

/-- Run a command that acts whatever the supplies do. -/
def runAlways (f : State → State) (s : State) : Host.Outcome State Fault Refusal :=
  .next (settle (f { s with out := [] }))

/-- Run only where the occasion for the command exists; otherwise change nothing (see the log). -/
def State.when (s : State) (c : Bool) (f : State → State) : State := if c then f s else s

end Sys2Proof.Machine
end

