-- ==== Sys2Proof/Machine/Operands.lean ====
section
/-! DEFINITION. What a command's operands name: lines, pages, tiles, sets, regions, the fields of a region entry, and
the way from an HPA through a head's HDM decoders to a DPA (chapters 01 to 07). -/
namespace Sys2Proof.Machine

/-! ### Region fields (R31) -/

/-- RGN_GEO.BASE in 2 MiB units. -/
def Region.base (r : Region) : Nat := fld r.geo 0 24
/-- RGN_GEO.SIZE in 2 MiB units. -/
def Region.size (r : Region) : Nat := fld r.geo 24 25
/-- RGN_GEO.VALID. -/
def Region.valid (r : Region) : Bool := flag r.geo 63
/-- DURABLE. -/
def Region.durable (r : Region) : Bool := flag r.attr 0
/-- MIRROR. -/
def Region.mirror (r : Region) : Bool := flag r.attr 1
/-- ORD = HOME. -/
def Region.home (r : Region) : Bool := flag r.attr 2
/-- NOALLOC. -/
def Region.noalloc (r : Region) : Bool := flag r.attr 3
/-- COH: 0 PRIVATE, 1 TRACKED, 2 BROADCAST. -/
def Region.coh (r : Region) : Nat := fld r.attr 4 2
/-- WPOL: 0 WT, 1 WA, 2 WB, 3 LK. -/
def Region.wpol (r : Region) : Nat := fld r.attr 6 2
/-- THINT: 0 AUTO, 1 HOT, 2 UNCOMP, 3 COLD. -/
def Region.thint (r : Region) : Nat := fld r.attr 8 3
/-- QCLS = BEST_EFFORT. -/
def Region.bestEffort (r : Region) : Bool := flag r.attr 11
/-- WINDOW: 0 ORDINARY, 1 CONTROL, 2 SCRATCH, 3 SWATCH_ALIAS, 4 MIRROR. -/
def Region.window (r : Region) : Nat := fld r.attr 12 3
/-- SCRATCH_KEEP. -/
def Region.keep (r : Region) : Bool := flag r.attr 15
/-- INIT = ZERO. -/
def Region.initZero (r : Region) : Bool := flag r.attr 16
/-- KEY. -/
def Region.key (r : Region) : Nat := fld r.attr 24 8
/-- ACC_Hh. -/
def Region.acc2 (r : Region) (h : Nat) : Nat := fld r.acc (2 * h) 2
/-- PEER. -/
def Region.peer (r : Region) : Nat := fld r.aux 0 12
/-- SWATCH. -/
def Region.swatch (r : Region) : Nat := fld r.aux 16 4
/-- SCR_OFF in 2 MiB units. -/
def Region.scrOff (r : Region) : Nat := fld r.aux 32 7

/-- The region is jacquard-mapped: ORDINARY or MIRROR. -/
def Region.mapped (r : Region) : Bool := r.window = 0 || r.window = 4
/-- The region lies in the scratch pool: CONTROL or SCRATCH. -/
def Region.pooled (r : Region) : Bool := r.window = 1 || r.window = 2
/-- Ownership can move: NATIVE, allocating, and not in the pool (R143, R160). -/
def Region.native (r : Region) : Bool := ! r.home && ! r.noalloc && ! r.pooled
/-- The head may read. -/
def Region.mayRead (r : Region) (h : Nat) : Bool := r.acc2 h = 1 || r.acc2 h = 3
/-- The head may write. -/
def Region.mayWrite (r : Region) (h : Nat) : Bool := r.acc2 h = 3

/-- The heads with rights other than NONE (R145). -/
def Region.holders (r : Region) : BitVec 16 :=
  BitVec.ofNat 16 (((List.range 16).filter fun h => r.acc2 h ≠ 0).foldl (fun a h => a + 2 ^ h) 0)

/-- The ACTIVE region that holds a 2 MiB unit, with its index (R7: regions do not overlap). -/
def State.regionOfUnit (s : State) (u : Nat) : Option (Nat × Region) :=
  s.regions.find? fun e => e.2.active && decide (e.2.base ≤ u) && decide (u < e.2.base + e.2.size)

/-- The ACTIVE region of a line. -/
def State.regionOf (s : State) (line : Nat) : Option (Nat × Region) := s.regionOfUnit (line / 32768)

/-- The region a request runs under: the entry in force, with COH, ORD, WPOL, NOALLOC and MIRROR as the request met them at
decode; the entry as it was where it is no longer in force (R54, R55). -/
def State.regionFor (s : State) (q : Req) : Option (Nat × Region) :=
  match q.reg, s.regionOf q.line with
  | none, x => x
  | some o, none => some o
  | some o, some (n, r) =>
    if n = o.1 then some (n, { r with attr := (r.attr &&& ~~~ 0xFE) ||| (o.2.attr &&& 0xFE) }) else some o

/-- The region that the work on a line runs under: that of its open transaction's request, else the one in force. -/
def State.regionAt (s : State) (line : Nat) : Option (Nat × Region) :=
  match s.txn line with
  | some t => s.regionFor t.req
  | none => s.regionOf line

/-- The ACTIVE region of a page. -/
def State.regionOfPage (s : State) (pn : Nat) : Option (Nat × Region) := s.regionOfUnit (pn / 512)

/-- The key of a page, its DURABLE value: those of its unit's binding (R53). -/
def State.pageDurable (s : State) (pn : Nat) : Bool := (s.unit (pn / 512)).bdur

/-! ### Lines, pages, tiles -/

/-- The page of a line. -/
def pageOf (line : Nat) : Nat := line / 64

/-- XOR of the n lowest 4-bit groups. -/
def xorNibbles : Nat → Nat → Nat
  | 0, _ => 0
  | n + 1, x => (x % 16) ^^^ xorNibbles n (x / 16)

/-- The tile a line's address hashes to (R142). -/
def hashTile (line : Nat) : Nat := xorNibbles 10 line

/-- The tile a page number hashes to (R220). -/
def hashMapTile (pn : Nat) : Nat := xorNibbles 9 pn

/-- Pool line of a line in a CONTROL or SCRATCH window (R117). -/
def Region.poolLine (r : Region) (line : Nat) : Nat := r.scrOff * 32768 + (line - r.base * 32768)

/-- The tile that R142 or R117 names for a line before any substitution. -/
def State.namedTile (s : State) (line : Nat) : Nat :=
  match s.regionAt line with
  | some (_, r) => if r.pooled then r.poolLine line % 16 else hashTile line
  | none => hashTile line

/-- The home tile: the named tile, or the first in service after it (R142). -/
def State.homeTile (s : State) (line : Nat) : Nat :=
  let t := s.namedTile line
  if s.tileRetired t then s.firstTile ((t + 1) % 16) else t

/-- The map tile of a page (R220). -/
def State.mapTile (s : State) (pn : Nat) : Nat :=
  let t := hashMapTile pn
  if s.tileRetired t then s.firstTile ((t + 1) % 16) else t

/-- Lines of the region that holds a line may be owned by a tile other than their home (R143): it is NATIVE and allocates. A
line of no region is owned as it was last. -/
def State.movable (s : State) (line : Nat) : Bool :=
  match s.regionAt line with
  | some (_, r) => r.native
  | none => true

/-- The owner tile of a line (R143): in a NATIVE region the tile that it is lent to, else its home tile. -/
def State.ownerTile (s : State) (line : Nat) : Nat :=
  if s.movable line then (s.coh.lent.get none line).getD (s.homeTile line) else s.homeTile line

/-- The buddy of a tile, with the substitution of R20. -/
def State.buddyTile (s : State) (n : Nat) : Nat :=
  let b := (n + 8) % 16
  if s.tileRetired b then
    (((List.range 16).map fun i => (n + 9 + i) % 16).find? fun u => ! s.tileRetired u && u ≠ n % 16).getD b
  else b

/-- The partner channel of channel m (R187). -/
def State.partnerCh (s : State) (m : Nat) : Nat :=
  let p := (m + 8) % 16
  if (s.chan p).retired then
    (((List.range 16).map fun i => (m + 9 + i) % 16).find? fun c => ! (s.chan c).retired && c ≠ m % 16).getD p
  else p

/-- Near-cache set and tag of a line (R90); a line is DPA[44:6], so DPA[20:6] is its low 15 bits. -/
def ncSet (line : Nat) : Nat := (line % 32768) ^^^ ((line / 32768) % 32768)
/-- See ncSet. -/
def ncTag (line : Nat) : Nat := line / 32768
/-- The line a set and tag give back (R90). -/
def ncLine (set tag : Nat) : Nat := tag * 32768 + (set ^^^ (tag % 32768))

/-- Snoop-filter set and tag of a line (R147). -/
def sfSet (line : Nat) : Nat := (line % 131072) ^^^ ((line / 131072) % 131072)
/-- See sfSet. -/
def sfTag (line : Nat) : Nat := line / 131072
/-- The line a set and tag give back. -/
def sfLine (set tag : Nat) : Nat := tag * 131072 + (set ^^^ (tag % 131072))

/-- The lines of a page. -/
def pageLines (pn : Nat) : List Nat := (List.range 64).map fun i => pn * 64 + i

/-- The channel of a frame, and the local frame number (R182). -/
def frameChan (f : Nat) : Nat := f % 16
/-- See frameChan. -/
def frameLocal (f : Nat) : Nat := f / 16

/-- The rank a frame lies in. -/
def State.frameRank (s : State) (f : Nat) : Nat :=
  let fr := (s.chan (frameChan f)).rankFrames
  if fr = 0 then 4 else frameLocal f / fr

/-- Frames of a channel that hold its reverse frame table and its share of the two directory copies (R222, R226). They
are the lowest-numbered ones of rank 0. -/
def Channel.sysFrames (c : Channel) : Nat :=
  if c.inService then (popCount c.ranks * c.rankFrames + 255) / 256 + 4096 else 0

/-- A frame can be allocated: its channel is in service and its rank is present and not retired (R182, R210). -/
def State.frameUsable (s : State) (f : Nat) : Bool :=
  let c := s.chan (frameChan f)
  decide (f < 2 ^ 31) && decide (c.sysFrames ≤ frameLocal f) && c.inService && ! c.retired && c.ranks.getLsbD (s.frameRank f)
    && ! c.ranksRet.getLsbD (s.frameRank f)

/-- The use of a frame (R185). -/
def State.frameUse (s : State) (f : Nat) : FrameUse := s.dram.frames.get .free f

/-- A frame is in no use, on a channel and rank in service. -/
def State.frameFree (s : State) (f : Nat) : Bool := s.frameUsable f && decide (s.frameUse f = .free)

/-- Frames of a channel in service that are free or in its twin reserve. -/
def State.chanFree (s : State) (c : Nat) : Nat :=
  let x := s.chan c
  popCount (x.ranks &&& ~~~ x.ranksRet) * x.rankFrames - x.sysFrames
    - s.dram.frames.countWhere fun f _ => decide (frameChan f = c) && s.frameUsable f

/-- The channel has a free frame outside its twin reserve (R191). -/
def State.freeOutside (s : State) (c : Nat) : Bool := decide ((s.chan c).twinRsv < s.chanFree c)

/-- A frame that anything but a twin may take: it is free, and its channel's twin reserve does not need it (R191). -/
def State.frameOpen (s : State) (f : Nat) : Bool := s.frameFree f && s.freeOutside (frameChan f)

/-- A frame can take reads and writes: its channel is in service. -/
def State.frameLive (s : State) (f : Nat) : Bool :=
  (s.chan (frameChan f)).inService && ! (s.chan (frameChan f)).retired

/-- Bank group of a frame within its rank (R183). -/
def State.frameGroup (s : State) (f : Nat) : Nat :=
  let fr := (s.chan (frameChan f)).rankFrames
  (if fr = 0 then frameLocal f else frameLocal f % fr) % 8

/-- Rank and bank group of a frame as one number. -/
def State.frameBank (s : State) (f : Nat) : Nat := 8 * s.frameRank f + s.frameGroup f

/-! ### From a head's HPA to a DPA (R70) -/

/-- The decoder covers an HPA. -/
def Decoder.covers (d : Decoder) (hpa : Nat) : Bool :=
  d.committed && decide (d.hpaBase ≤ hpa) && decide (hpa < d.hpaBase + d.hpaSize)

/-- The DPA a decoder gives an HPA: the offset with the position bits taken out, from the DPA base. -/
def Decoder.toDpa (d : Decoder) (hpa : Nat) : Nat :=
  let off := hpa - d.hpaBase
  d.dpaBase + (off / (d.granularity * d.ways)) * d.granularity + off % d.granularity

/-- The decoder of head h that covers an HPA, lowest number first. -/
def State.decoderOf (s : State) (h hpa : Nat) : Option Decoder :=
  ((s.head h).func.decoders.find? fun e => e.2.covers hpa).map Prod.snd

end Sys2Proof.Machine
end

