-- ==== Sys2Proof/Machine/Flags.lean ====
section
/-! DEFINITION. The status values that the device computes from its state: DevLoad and its components (R77), the dirty
count (R245), withholding (R78, R338), full-rate cleaning (R336). -/
namespace Sys2Proof.Machine

/-- The dirty count (R245): pages with DIRTY set, MARKs of DURABLE regions in transit, swatch copies held dirty. -/
def State.dirtyCount (s : State) : Nat :=
  s.map.pages.countWhere (fun _ e => e.dirty) + (s.map.marks.filter fun m => m.durable).length
    + (s.map.swatches.map fun e => (e.2.saved.filter fun v => match v.2 with | some x => x.dirty | none => false).length).sum

/-- The head holds READ_WRITE rights to some ACTIVE DURABLE region (R77, R78). -/
def State.durableWriter (s : State) (h : Nat) : Bool :=
  s.regions.any fun e => e.2.active && e.2.durable && e.2.mayWrite h

/-- The cap component of DevLoad at a dirty count (R77): 0 Light, 2 Moderate, 3 Severe. -/
def capLoad (dirty cap : Nat) : Nat :=
  if dirty * 100 < cap * 75 then 0 else if dirty * 100 < cap * 85 then 2 else 3

/-- The flush component (R77): Severe from commit until the device resumes. -/
def State.flushLoad (s : State) : Nat := if s.vlt.stopped || s.vlt.hold then 3 else 0

/-- The DevLoad value sent to a head: the highest component (R77). -/
def State.devLoad (s : State) (h : Nat) : Nat :=
  let l := (s.head h).load
  max l.budget (max (if s.durableWriter h then l.cap else 0) s.flushLoad)

/-- RwD credits to the head are withheld (R78). -/
def State.withheld (s : State) (h : Nat) : Bool := s.rsv.withhold && s.durableWriter h

/-- The head is braked, by itself or by management (R435). -/
def Head.braked (x : Head) : Bool := x.brake.self || x.brake.mgmt

/-- A write's credit is kept back: while the head is withheld or braked, and from admission stop until resume (R78, R346, R435). -/
def State.keepsCredit (s : State) (h : Nat) : Bool := s.withheld h || s.vlt.stopped || (s.head h).braked

/-- RwD credits that the device has granted head h (R337). -/
def rwdGranted (h : Nat) : Nat := min 512 (Config.rwdCredits h)

/-- No more than 1,024 BISnp are outstanding to a withheld head after one more to each head of a set (R337). -/
def State.snoopRoom (s : State) (v : BitVec 16) : Bool :=
  (bitsOf v).all fun h => ! s.withheld h || decide ((s.coh.snoops.filter fun x => x.head = h).length < 1024)

/-- Frames in service on all channels: ranks present and not retired of channels in service. -/
def State.framesInService (s : State) : Nat :=
  (s.dram.ch.map fun e =>
    if e.2.inService && ! e.2.retired then
      popCount (e.2.ranks &&& ~~~ e.2.ranksRet) * e.2.rankFrames else 0).sum

/-- Frames in use, of those in service. -/
def State.framesUsed (s : State) : Nat := s.dram.frames.countWhere fun f _ => s.frameUsable f

/-- Frames of the reverse frame tables and the map directory. -/
def State.framesSystem (s : State) : Nat := (s.dram.ch.map fun e => if e.2.retired then 0 else e.2.sysFrames).sum

/-- Frames held in the twin reserve (DRM_CAP_STAT.TWIN_RSV). -/
def State.twinReserve (s : State) : Nat := (s.dram.ch.map fun e => e.2.twinRsv).sum

/-- Free frames outside the twin reserve (R237). -/
def State.freeFrames (s : State) : Nat := s.framesInService - s.framesSystem - s.framesUsed - s.twinReserve

/-- Free segments of the beam (BM_STAT.FREE_SEGS). -/
def State.freeSegs (s : State) : Nat := s.beam.segments - s.beam.segs.countWhere fun _ g => decide (g.st ≠ .free)

/-- Pinned pages (JQ_PINNED). -/
def State.pinned (s : State) : Nat := s.map.pages.countWhere fun _ e => e.pin

/-- Memory is active and requests are admitted from head h (R362, R85). -/
def State.memOn (s : State) (h : Nat) : Bool :=
  s.linkUp h && ! (s.head h).link.recovery

/-- Power states that a request of head h ends with the host gap (R539, R541): all but other heads' links. -/
def wakeMask (h : Nat) : BitVec 57 := ~~~ (BitVec.ofNat 57 (0xFFFF <<< 32)) ||| BitVec.ofNat 57 (1 <<< (32 + h))

/-- Exit latency of a resource in cycles (R539): a tile's, a channel's, a link's, a drive's, that of the near-cache ways. -/
def State.exitCycles (s : State) (r : Nat) : Nat :=
  if r < 16 then 40 else if r < 32 then 2000 else if r < 48 then 8000
  else if r < 56 then 2000 * s.pwr.exlat.get 0 (r - 48)
  else 10000

/-- Resources in a power state start their exit (R540, R541); the near-cache ways come back under R123, and a drive leaves its state with
Set Features. -/
def State.exits (s : State) (m : BitVec 57) : State :=
  let x := s.pwr.low &&& m &&& ~~~ s.pwr.leaving
  if x = 0 then s
  else
    let rs := (List.range 57).filter fun r => x.getLsbD r
    { s with
      pwr := { s.pwr with
        leaving := s.pwr.leaving ||| x
        exitAt := rs.foldl (fun (t : Tbl Nat) r => t.set 0 r (s.clock + s.exitCycles r)) s.pwr.exitAt }
      near := if x.getLsbD 56 then { s.near with autoOff := 0 } else s.near
      out := s.out ++ (rs.filter fun r => decide (48 ≤ r) && decide (r < 56)).map fun r => .nvmeAdmin (r - 48) 0x09 }

/-- A resource is in a power state or still leaving it, so no access runs there (R541). -/
def State.inPowerState (s : State) (r : Nat) : Bool := s.pwr.low.getLsbD r

/-- One resource starts its exit. -/
def State.wake (s : State) (r : Nat) : State := s.exits (BitVec.ofNat 57 (2 ^ r))

/-- The drives start their exits. -/
def State.wakeDrives (s : State) : State := s.exits (BitVec.ofNat 57 (0xFF <<< 48))

/-- A request of head h ends its quiet, and every state whose gap that ends starts its exit (R537, R541). -/
def State.unquiet (s : State) (h : Nat) : State :=
  if s.pwr.quiet.get 0 h = 0 then s
  else ({ s with pwr := { s.pwr with quiet := s.pwr.quiet.set 0 h 0 } } : State).exits (wakeMask h)

/-- The host gap is open: every head that takes part in the calendar is quiet (R538). -/
def State.hostGap (s : State) : Bool :=
  s.presentHeads.all fun h => ! (s.head h).link.up || s.pwr.quiet.get 0 h ≠ 0

end Sys2Proof.Machine
end

