-- ==== Sys2Proof/Machine/Mem.lean ====
section
/-! DEFINITION. The memory side that every family shares: near-cache ways and replacement (R88 to R115), write-buffer
entries and merging (R95 to R99), DRAM cells, where a page's bytes lie (R13, R259), the acceptance point of a write
(R19, R243), and poison (R482 to R487). -/
namespace Sys2Proof.Machine

/-! ### Ways -/

/-- Ways of slice n that are not retired, ascending (R112, R116, R137). -/
def State.serviceWays (s : State) (n : Nat) : List Nat :=
  (List.range 16).filter fun w => ! s.boot.retNc.getLsbD (16 * n + w)

/-- Scratch ways of slice n: the CUR_SCR highest-numbered ways not retired (R116). -/
def State.scratchWays (s : State) (n : Nat) : List Nat :=
  let l := s.serviceWays n
  l.drop (l.length - s.near.curScr)

/-- Locked ways of slice n: the CUR_LOCK lowest-numbered ways not retired (R112), of those that are no scratch ways: a way has
one role (R141). -/
def State.lockedWays (s : State) (n : Nat) : List Nat :=
  ((s.serviceWays n).filter fun w => ! (s.scratchWays n).contains w).take s.near.curLock

/-- Ordinary ways of slice n, powered down or not. -/
def State.ordinaryWays (s : State) (n : Nat) : List Nat :=
  (s.serviceWays n).filter fun w => ! (s.scratchWays n).contains w && ! (s.lockedWays n).contains w

/-- SCR_WAYS as requested: at most 8. -/
def State.scrReq (s : State) : Nat := min 8 (fld s.near.ctl 0 4)

/-- LOCK_WAYS as requested: at most 4. -/
def State.lockReq (s : State) : Nat := min 4 (fld s.near.ctl 4 3)

/-- Ways asked to be powered down: OFF_WAYS in MANUAL, the calendar's number in AUTO (R121). -/
def State.offReq (s : State) : Nat :=
  match fld s.near.ctl 8 2 with
  | 1 => fld s.near.ctl 12 4
  | 2 => s.near.autoOff
  | _ => 0

/-- Ways of slice n to power down: the highest-numbered ordinary ways, leaving at least 4 in service (R121, R140). -/
def State.offTarget (s : State) (n : Nat) : List Nat :=
  let l := s.ordinaryWays n
  l.drop (l.length - min s.offReq (l.length - 4))

/-- The ways of a list as a mask. -/
def wayMask (l : List Nat) : BitVec 16 := l.foldl (fun m w => putBit m w true) 0

/-- Ways of slice n that take no allocation: powered down or being cleaned for it (R122, R123). -/
def State.offWays (s : State) (n : Nat) : BitVec 16 := s.near.off.get 0 n ||| wayMask (s.offTarget n)

/-- The way of slice n that the next conversion to scratch takes (R118), while one is asked for. -/
def State.nextScratch (s : State) (n : Nat) : Option Nat :=
  if s.near.curScr < s.scrReq then
    (s.serviceWays n)[(s.serviceWays n).length - 1 - s.near.curScr]?
  else none

/-- The key of a way. -/
def ncKey (slice set w : Nat) : Nat := (slice * 32768 + set) * 16 + w

/-- A way. -/
def State.way (s : State) (slice set w : Nat) : NcWay := s.near.nc.get {} (ncKey slice set w)

/-- Bits 31:0 of a tag entry (R92). -/
def NcWay.tagBits (x : NcWay) : BitVec 32 :=
  putBit (putBit (putBit (putBit (putBit (putBit (BitVec.ofNat 32 (x.tag % 2 ^ 24)) 24 x.v) 25 x.d) 26 x.lock) 27 x.prot) 28
    x.poison) 29 x.dur

/-- The tag entry with its check bits in bits 38:32 (R92). The spec names the kind of code and not its matrix. -/
def NcWay.tagEntry (x : NcWay) : BitVec 39 := Config.tagCheck x.tagBits ++ x.tagBits

/-- Bits 24:0 of a way's side word: TAG and D (R93). -/
def NcWay.sideBits (x : NcWay) : BitVec 25 := BitVec.ofNat 25 (x.tag % 2 ^ 24 + (if x.d then 2 ^ 24 else 0))

/-- The side word with its check bits in bits 31:25 (R93). -/
def sideWord (b : BitVec 25) : BitVec 32 := Config.sideCheck b ++ b

/-- D changes, or TAG changes on a line with D set: the side word is written (R93). -/
def NcWay.sideWritten (old new : NcWay) : Bool := old.d != new.d || (new.d && decide (old.tag ≠ new.tag))

/-- Write a way, and its side word where R93 asks it. -/
def State.setWay (s : State) (slice set w : Nat) (x : NcWay) : State :=
  let k := ncKey slice set w
  { s with near := { s.near with
      nc := s.near.nc.set {} k x
      side := if (s.way slice set w).sideWritten x then s.near.side.set 0 k x.sideBits else s.near.side } }

/-- The way of a slice that holds a line (R90, R91). -/
def State.findWay (s : State) (slice line : Nat) : Option Nat :=
  (List.range 16).find? fun w => (s.way slice (ncSet line) w).v && (s.way slice (ncSet line) w).tag = ncTag line

/-- The tree walk (R108): a node bit of 1 points to the upper half. -/
def treeWalk (t : BitVec 15) (ok : Nat → Bool) : Nat → Nat → Nat → Option Nat
  | 0, _, lo => if ok lo then some lo else none
  | d + 1, n, lo =>
    let l := treeWalk t ok d (2 * n + 1) lo
    let r := treeWalk t ok d (2 * n + 2) (lo + 2 ^ d)
    if t.getLsbD n then (match r with | some x => some x | none => l)
    else (match l with | some x => some x | none => r)

/-- Set the tree bits on the path to a way so that they point away from it (R110). -/
def treeTouch (w : Nat) : Nat → Nat → Nat → BitVec 15 → BitVec 15
  | 0, _, _, t => t
  | d + 1, n, lo, t =>
    if w < lo + 2 ^ d then treeTouch w d (2 * n + 1) lo (putBit t n true)
    else treeTouch w d (2 * n + 2) (lo + 2 ^ d) (putBit t n false)

/-- The parity of a set's tree bits. -/
def treeParity (t : BitVec 15) : Bool := decide (popCount t % 2 = 1)

/-- The tree bits with their parity bit (R94). -/
def treeWord (t : BitVec 15) : BitVec 16 := putBit (t.setWidth 16) 15 (treeParity t)

/-- The tree bits that a stored word gives: all 0 where the parity check fails (R94). -/
def treeBits (w : BitVec 16) : BitVec 15 :=
  if w.getLsbD 15 = treeParity (w.setWidth 15) then w.setWidth 15 else 0

/-- The tree bits of a set. -/
def State.treeAt (s : State) (slice set : Nat) : BitVec 15 := treeBits (s.near.tree.get 0 (slice * 32768 + set))

/-- Point a set's tree away from a way. -/
def State.touch (s : State) (slice set w : Nat) : State :=
  { s with near := { s.near with
    tree := s.near.tree.set 0 (slice * 32768 + set) (treeWord (treeTouch w 4 0 0 (s.treeAt slice set))) } }

/-- A line counts as having an open transaction: one is open, or it is being handed off (R107, R167). -/
def State.lineOpen (s : State) (line : Nat) : Bool :=
  (s.txn line).isSome || (s.coh.handoff.get none line).isSome

/-- A way is a candidate for a victim (R107). lk: the region is LK. -/
def State.candidate (s : State) (slice set : Nat) (lk : Bool) (w : Nat) : Bool :=
  let x := s.way slice set w
  (s.serviceWays slice).contains w && ! (s.offWays slice).getLsbD w && ! (s.scratchWays slice).contains w && s.nextScratch slice ≠ some w
    && ((s.lockedWays slice).contains w == lk) && ! (s.near.lockCleaning.get 0 slice).getLsbD w
    && ! s.near.retiring.getLsbD (16 * slice + w)
    && ! (x.v && x.lock) && ! (x.v && s.lineOpen (ncLine set x.tag))

/-- The victim of R108. -/
def State.victim (s : State) (slice set : Nat) (lk : Bool) : Option Nat :=
  let c := s.candidate slice set lk
  let t := s.treeAt slice set
  match (List.range 16).find? fun w => c w && ! (s.way slice set w).v with
  | some w => some w
  | none =>
    match treeWalk t (fun w => c w && ! (s.way slice set w).prot) 4 0 0 with
    | some w => some w
    | none => treeWalk t c 4 0 0

/-- NC_CTL.PROT_MAX. -/
def State.protMax (s : State) : Nat := fld s.near.ctl 16 4

/-- The ordinary ways of a set that hold a protected line. -/
def State.protWays (s : State) (slice set : Nat) : List Nat :=
  (s.ordinaryWays slice).filter fun w => (s.way slice set w).v && (s.way slice set w).prot

/-- Clear PROT on the line of a way. -/
def State.unprotect (s : State) (slice set w : Nat) : State :=
  s.setWay slice set w { s.way slice set w with prot := false }

/-- Bring a set down to PROT_MAX protected lines, clearing the one that the tree walk over them reaches first as often as that
takes (R111, R139). The line of way keep is left out of the walk while another is protected. -/
def State.trimProt (s : State) (slice set keep : Nat) : Nat → State
  | 0 => s
  | n + 1 =>
    let p := s.protWays slice set
    if p.length ≤ s.protMax then s
    else
      match treeWalk (s.treeAt slice set) (fun v => p.contains v && (v ≠ keep || s.protMax = 0)) 4 0 0 with
      | some v => (s.unprotect slice set v).trimProt slice set keep n
      | none => s

/-- Set PROT on a line of an ordinary way, keeping at most PROT_MAX protected lines in the set (R111). DESIGN CHOICE (log):
the tree has been touched for the line before the walk, and the walk leaves the line itself out. -/
def State.protect (s : State) (slice set w : Nat) : State :=
  if s.protMax = 0 || ! (s.ordinaryWays slice).contains w then s
  else (s.setWay slice set w { s.way slice set w with prot := true }).trimProt slice set w 16

/-- A demand hit (R110, R111, R139): touch the tree, mark the line hit, protect it where it had been hit since its fill, and
hold the set to PROT_MAX. -/
def State.hit (s : State) (slice set w : Nat) : State :=
  let again := (s.way slice set w).hit
  let s1 := s.touch slice set w
  let s2 := s1.setWay slice set w { s1.way slice set w with hit := true }
  if again then (s2.protect slice set w).trimProt slice set w 16 else s2.trimProt slice set w 16

/-! ### Write-buffer merging -/

/-- Lay an entry's bytes over a line (R96); a poisoned write poisons the whole line, a full write clears it (R106,
R482). -/
def WbEntry.over (e : WbEntry) (c : LineCell) : LineCell :=
  { data := mergeLine c.data e.data e.mask
    poison := if e.poison then true else if e.whole then false else c.poison }

/-- The value of a line with its write-buffer entries merged, oldest first (R96, R98). -/
def State.withBuffer (s : State) (line : Nat) (c : LineCell) : LineCell :=
  (s.near.wb.filter fun e => e.line = line).foldl (fun c e => e.over c) c

/-- Lay bytes over a stored line; whole: they include a write of all 64 bytes, which clears POISON (R106). -/
def LineCell.lay (c : LineCell) (d : Line) (m : Mask) (poison whole : Bool) : LineCell :=
  { data := mergeLine c.data d m
    poison := if poison then true else if whole then false else c.poison }

/-- Write bytes over a stored line. -/
def LineCell.put (c : LineCell) (d : Line) (m : Mask) (poison : Bool) : LineCell := c.lay d m poison (m = fullMask)

/-! ### Where bytes lie -/

/-- The DRAM cells and the scratch pool have the canonical form. -/
def State.memWf (s : State) : Bool := Memory.wf s.dram.cells && Memory.wf s.near.scr

/-- Line i of a DRAM frame. -/
def State.cell (s : State) (frame i : Nat) : LineCell := s.dram.cells.get {} (frame * 64 + i)

/-- Write line i of a DRAM frame. -/
def State.setCell (s : State) (frame i : Nat) (c : LineCell) : State :=
  { s with dram := { s.dram with cells := s.dram.cells.set {} (frame * 64 + i) c } }

/-- Write a page's lines into a frame. -/
def State.setFrame (s : State) (frame : Nat) (d : PageData) : State :=
  (List.range 64).foldl (fun s i => s.setCell frame i (d.get {} i)) s

/-- The lines of a frame as page content. -/
def State.frameData (s : State) (frame : Nat) : PageData :=
  (List.range 64).foldl (fun d i => d.set {} i (s.cell frame i)) ([] : PageData)

/-- Content in which every line is poison. -/
def poisonPage : PageData := (List.range 64).map fun i => (i, { data := 0, poison := true })

/-- Content of a page record (R285); nothing for an address that holds none. -/
def State.recData (s : State) (addr : Nat) : PageData :=
  match s.beam.recs.get none addr with
  | some r => r.content
  | none => []

/-- The place of a page's newest record. -/
def recPlace (beam : Nat) : Place := if beam = 0 then .zero else .t3 beam

/-- The frame beside the primary that holds line i of a dirty page: its twin frame, or the second twin frame of a rebuild, where
the line's mask bit is set and the channel is in service (R190, R212). -/
def State.twinAt (s : State) (p : PageEntry) (i : Nat) : Option Nat :=
  let a := p.twin.filter fun t => p.lines.getLsbD i && s.frameLive t
  if a.isSome then a else p.twin2.filter fun t => p.lines2.getLsbD i && s.frameLive t

/-- Where line i of a T1 frame is read: the frame, or, while the page waits for its rebuild since the frame's channel was retired,
the other place of R190. -/
def State.t1Source (s : State) (f i : Nat) : Place :=
  if s.frameLive f then .t1 f
  else match s.frameUse f with
    | .t1 pn none =>
      match s.twinAt (s.page pn) i with
      | some t => .t1 t
      | none => recPlace (s.page pn).beam
    | _ => .t1 f

/-- Line i of a page that lies at a place (R13, R224). -/
def State.placeLine (s : State) (p : Place) (i : Nat) : LineCell :=
  match p with
  | .zero => {}
  | .poison => { poison := true }
  | .t1 f =>
    match s.t1Source f i with
    | .t1 g => s.cell g i
    | .t3 a => (s.recData a).get {} i
    | _ => {}
  | .t2 sec _ =>
    match s.dram.t2.get none sec with
    | some t => t.content.get {} i
    | none => {}
  | .t3 a => (s.recData a).get {} i

/-- Whole content of a page at a place. -/
def State.placeData (s : State) (p : Place) : PageData :=
  (List.range 64).foldl (fun d i => d.set {} i (s.placeLine p i)) ([] : PageData)

/-- Swatch slots of a region that are not FREE, with their numbers, in take order (R255). -/
def State.swatchesOf (s : State) (rgn : Nat) : List (Nat × Swatch) :=
  (s.map.swatches.filter fun e => e.2.st ≠ .free && e.2.st ≠ .taking && e.2.region = rgn).mergeSort
    fun a b => a.2.order ≤ b.2.order

/-- The place a swatch read takes for a page (R259): the first saved entry of the swatch or a newer one, else live. -/
def State.swatchPlace (s : State) (rgn order pn : Nat) : Place :=
  match (((s.swatchesOf rgn).filter fun e => order ≤ e.2.order).filterMap fun e => e.2.saved.get none pn).head? with
  | some v => v.place
  | none => (s.page pn).place

/-- The live swatch of a region by its number (R41). -/
def State.swatchNum (s : State) (rgn num : Nat) : Option Swatch :=
  ((s.swatchesOf rgn).find? fun e => e.2.num = num && e.2.st ≠ .dropping).map Prod.snd

/-- The page whose content a line of region r shows, and its place: the line's own page, or for an alias window the
source page under the swatch (R41). none: the alias is broken and reads poison (R42). -/
def State.linePlace (s : State) (r : Region) (line : Nat) : Option (Nat × Place) :=
  if r.window = 3 then
    let src := s.region r.peer
    let pn := pageOf line - r.base * 512 + src.base * 512
    if r.aliasBroken then none
    else match s.swatchNum r.peer r.swatch with
      | some w => some (pn, s.swatchPlace r.peer w.order pn)
      | none => none
  else some (pageOf line, (s.page (pageOf line)).place)

/-- A pool line lies in a retired slice: it reads as poison and writes to it are discarded (R481). -/
def State.poolDead (s : State) (l : Nat) : Bool := s.tileRetired (l % 16)

/-- A line of the scratch pool. -/
def State.poolCell (s : State) (l : Nat) : LineCell :=
  if s.poolDead l then { poison := true } else s.near.scr.get {} l

/-- Set a line of the scratch pool. -/
def State.setScr (s : State) (l : Nat) (c : LineCell) : State :=
  { s with near := { s.near with scr := s.near.scr.set {} l c } }

/-- Write bytes of a line of the scratch pool. -/
def State.setPool (s : State) (l : Nat) (d : Line) (m : Mask) (poison : Bool) : State :=
  if s.poolDead l then s else s.setScr l ((s.near.scr.get {} l).put d m poison)

/-- The line's value below the near cache. -/
def State.lowerLine (s : State) (r : Region) (line : Nat) : LineCell :=
  if r.pooled then s.poolCell (r.poolLine line)
  else match s.linePlace r line with
    | some (_, p) => s.placeLine p (line % 64)
    | none => { poison := true }

/-- The way of the owner tile's slice that holds a line: none for a pool line, which has no tag (R120), and none for a line of
a broken alias window, which reads as poison (R42). -/
def State.resident (s : State) (r : Region) (line : Nat) : Option Nat :=
  if r.pooled || (r.window = 3 && (s.linePlace r line).isNone) then none else s.findWay (s.ownerTile line) line

/-- The line that a way holds. -/
def NcWay.cell (x : NcWay) : LineCell := { data := x.data, poison := x.poison }

/-- The line that a hand-off carries between ACCEPT and COMMIT, when no slice holds it (R165). -/
def State.carriedLine (s : State) (line : Nat) : Option LineCell :=
  match s.coh.handoff.get none line with
  | some x => if x.gone && x.arriving && ! x.evict then some x.carried.cell else none
  | none => none

/-- The line's value (R13, R96): the near-cache copy, into which every write accepted since its fill has been merged (R95) and
which was filled with the buffered bytes over it, or the lower tier with the write-buffer bytes over it. -/
def State.lineValue (s : State) (r : Region) (line : Nat) : LineCell :=
  match s.carriedLine line, s.resident r line with
  | some c, _ => c
  | none, some w => (s.way (s.ownerTile line) (ncSet line) w).cell
  | none, none => s.withBuffer line (s.lowerLine r line)

/-! ### Poison -/

/-- Add a range of lines to the poison index, or note its overflow (R486). -/
def State.indexPoison (s : State) (line n : Nat) : State :=
  if s.near.poisonIdx.contains (line, n) then s
  else if s.near.poisonIdx.length < 65536 then
    { s with near := { s.near with poisonIdx := s.near.poisonIdx ++ [(line, n)] } }
  else { s with near := { s.near with poisonOverflow := some (s.near.poisonOverflow.getD s.clock) } }

/-- Remove a line's entry from the poison index (R486, R487). -/
def State.unindexPoison (s : State) (line n : Nat) : State :=
  { s with near := { s.near with poisonIdx := s.near.poisonIdx.filter fun e => e ≠ (line, n) } }

/-- General Media Event records to each head with rights to a region (R74). -/
def State.mediaEvent (s : State) (r : Region) (arg : Nat) : State :=
  (bitsOf r.holders).foldl (fun s h => s.event h ⟨.generalMedia, 0x20, arg⟩) s

/-- A line or page became poison in a case of R482: the notice, the event records and the index entry. -/
def State.poisoned (s : State) (case line n : Nat) : State :=
  let rg := (s.regionOf line).getD (0xFFF, {})
  let s1 := s.note ⟨2, 0x20, case % 16 + rg.1 % 4096 * 16, some (line * 64 + (if n = 64 then 2 ^ 45 else 0))⟩
  (s1.mediaEvent rg.2 (line * 64)).indexPoison line n

/-! ### Acceptance -/

/-- Entries of a tile. -/
def State.wbOf (s : State) (tile : Nat) : List WbEntry := s.near.wb.filter fun e => e.tile = tile

/-- The buddy array of a tile's entries serves two primary tiles (R101). -/
def State.buddyShared (s : State) (tile : Nat) : Bool :=
  (List.range 16).any fun t => t ≠ tile && ! s.tileRetired t && s.buddyTile t = s.buddyTile tile

/-- A write of a class finds an entry it may use (R100, R101). -/
def State.wbRoom (s : State) (tile : Nat) (be : Bool) : Bool :=
  let n := (s.wbOf tile).length
  let b := ((s.wbOf tile).filter fun e => e.be).length
  let cap := if s.buddyShared tile then 2048 else 4096
  let kept := if s.buddyShared tile then 512 else 1024
  decide (n < cap) && (! be || decide (b < cap - kept))

/-- The generation that tiles hold for a region. -/
def State.gen (s : State) (rgn : Nat) : RgnGen := s.map.gens.get {} rgn

/-- Send the MARK of an accepted write (R243). -/
def State.mark (s : State) (rgn : Nat) (r : Region) (line : Nat) : State :=
  if r.mapped then
    { s.ringSend (s.ownerTile line) (s.mapTile (pageOf line)) 1 with map := { s.map with marks := s.map.marks ++ [⟨pageOf line, rgn, (s.gen rgn).gen, r.durable⟩] } }
  else s

/-- The mirror state of a region. -/
def State.slvRgn (s : State) (n : Nat) : SlvRgn := s.slv.rgns.get {} n

/-- Change the mirror state of a region. -/
def State.modSlv (s : State) (n : Nat) (f : SlvRgn → SlvRgn) : State :=
  { s with slv := { s.slv with rgns := s.slv.rgns.set {} n (f (s.slvRgn n)) } }

/-- SEQ of the DELTA segment that is open. -/
def State.openDelta (s : State) : Nat :=
  match s.beam.segs.find? fun e => e.2.st = .opened && e.2.stream = 4 with
  | some e => e.2.seq
  | none => s.beam.seqNext

/-- Put a page into a region's resync set, once. -/
def State.resyncPage (s : State) (n pn : Nat) : State :=
  s.modSlv n fun x => if x.set.contains pn then x else { x with set := x.set ++ [pn] }

/-- A write of a SYNC region that is not mirrored moves the region to RESYNC with its DIV_SEQ (R458, R484). -/
def State.leaveSync (s : State) (n seq : Nat) : State :=
  let x := s.slvRgn n
  if x.mst = 3 then
    let s1 := s.modSlv n fun x => { x with mst := 2, div := if x.div = 0 then seq else x.div }
    { s1 with rng := { s1.rng with seals := s1.rng.seals.map fun y =>
      if y.level = 2 && y.region = n && ! y.noMirror then { y with mirrorLost := true } else y } }
  else s

/-- Queue an accepted write of a mirrored region for the partner (R457); a poisoned write goes to the resync set instead
(R484). -/
def State.mirrorWrite (s : State) (rgn : Nat) (r : Region) (q : Req) : State :=
  let st := (s.slvRgn rgn).mst
  if ! (r.mirror && r.window = 0 && decide (1 ≤ st) && decide (st ≤ 3)) then s
  else if q.poison then (s.resyncPage rgn (pageOf q.line)).leaveSync rgn s.openDelta
  else
    { s with slv := { s.slv with
        nextMwr := s.slv.nextMwr + 1
        delay := s.slv.delay ++ [⟨s.slv.nextMwr, rgn, q.line, q.data, q.mask, q.be, s.clock, s.ownerTile q.line,
          s.openDelta⟩] } }

/-- Merge an accepted write into the line's way where it is resident; WB and LK lines become dirty (R103). -/
def State.mergeResident (s : State) (r : Region) (q : Req) : State :=
  let tile := s.ownerTile q.line
  match s.findWay tile q.line with
  | none => s
  | some w =>
    let x := s.way tile (ncSet q.line) w
    let c := x.cell.put q.data q.mask q.poison
    let s1 := s.setWay tile (ncSet q.line) w
      { x with data := c.data, poison := c.poison, d := x.d || decide (2 ≤ r.wpol) }
    s1.hit tile (ncSet q.line) w

/-- Who waits for a request's completion: a head with its tag, or 16 and the ring of an engine, or 17 and the serial of a
packet of the partner. -/
def Req.waiters (q : Req) : List (Nat × Nat) :=
  if q.mute then [] else
  match q.src with
  | .head h t => [(h, t)]
  | .engine r => [(16, r)]
  | .partner n => [(17, n)]
  | .dump => [(19, 0)]
  | .nobody => []

/-- The priority level of a request by itself (R195, R374, R386). -/
def Req.prio (q : Req) : Nat := if q.atP2 then 2 else if q.low ≠ 0 then q.low else if q.be then 3 else 1

/-- A write of head h to a line has been accepted and its completion has not left (R155). -/
def State.responseDue (s : State) (h line : Nat) : Bool :=
  s.near.wb.any fun e => e.line = line && e.waiters.any fun w => w.1 = h

/-- Answer a head's write; engines and the selvedge block see it in the entry's waiters. -/
def State.complete (s : State) (h tag : Nat) : State := if h < 16 then s.emitTo h (.memCmp h tag (s.devLoad h)) else s

/-- Answer the requester of a request that returns no data. -/
def State.completeReq (s : State) (q : Req) : State :=
  q.waiters.foldl (fun s w => s.complete w.1 w.2) s

/-- Answer the requester of a read or atomic with a line (R485). An engine finds its line in answers. -/
def State.answer (s : State) (q : Req) (c : LineCell) : State :=
  if q.mute then s else
  match q.src with
  | .head h t =>
    let s0 := s.ringSend (s.ownerTile q.line) (h / 2 * 2) q.prio
    let s1 := (s0.count (evHead h 0) 64).emitTo h (.memData h t (if c.poison then 0 else c.data) c.poison (s.devLoad h))
    if c.poison then s1.count (evHead h 8) 1 else s1
  | .engine r => { s with rng := { s.rng with answers := s.rng.answers.set none (r * 2 ^ 39 + q.line) (some c) } }
  | _ => s

/-- The highest of a level and the levels of requests. -/
def topLevel (own : Nat) (qs : List Req) : Nat := qs.foldl (fun m q => min m q.prio) own

/-- The level of an access that a line's open transaction issues, whose own level is given: raised to that of the highest request
that waits behind the transaction, or for the snoop-filter way that it frees (R390). -/
def State.raised (s : State) (line own : Nat) : Nat :=
  topLevel own (((s.coh.sfWait.filter fun e => e.1 = line).map Prod.snd)
    ++ (match s.txn line with | some t => t.queue | none => []))

/-- The line's entry that takes a further write: it has not begun to drain (R98), and lies after the swatch cut of its region
(R257). -/
def State.mergeEntry (s : State) (tile rgn line : Nat) : Option WbEntry :=
  s.near.wb.find? fun e => e.line = line && e.tile = tile && ! e.draining && ! e.spill && e.gen = (s.gen rgn).gen

/-- Put a write into the tile's write buffer: merge into the line's entry that is not draining, else a new entry
(R95, R98). The buddy of a DURABLE entry must confirm again (R97). -/
def State.buffer (s : State) (tile rgn : Nat) (r : Region) (q : Req) : State :=
  let s := if r.durable then s.ringSend tile (s.buddyTile tile) q.prio else s
  match s.mergeEntry tile rgn q.line with
  | some e =>
    let c : LineCell := ({ data := e.data, poison := e.poison } : LineCell).put q.data q.mask q.poison
    let e1 := { e with
      data := c.data, mask := e.mask ||| q.mask, poison := c.poison, whole := e.whole || decide (q.mask = fullMask)
      prio := min e.prio (s.raised q.line q.prio)
      confirmed := ! r.durable, waiters := if r.durable then e.waiters ++ q.waiters else [] }
    { s with near := { s.near with wb := s.near.wb.map fun x => if x.id = e.id then e1 else x } }
  | none =>
    let e : WbEntry :=
      { id := s.near.wbNext, tile := tile, line := q.line, data := q.data, mask := q.mask, poison := q.poison
        region := rgn, be := q.be, durable := r.durable, buddy := s.buddyTile tile, confirmed := ! r.durable
        draining := false, left := 0, waiters := if r.durable then q.waiters else [], spill := false
        gen := (s.gen rgn).gen, whole := decide (q.mask = fullMask), prio := s.raised q.line q.prio }
    { s with near := { s.near with wb := s.near.wb ++ [e], wbNext := s.near.wbNext + 1 } }

/-- BIConflicts of a line whose head has had its response to every earlier request are acknowledged (R155). -/
def State.ackConflicts (s : State) (line : Nat) : State :=
  let due := s.coh.conflicts.filter fun e => e.2 = line && ! s.responseDue e.1 e.2
  due.foldl (fun (s : State) e => s.emitTo e.1 (.biConflictAck e.1 e.2))
    { s with coh := { s.coh with conflicts := s.coh.conflicts.filter fun e => ! due.contains e } }

/-- The completions that waited for an entry leave (R19, R97), and the BIConflictAcks that waited for them. -/
def State.completeEntry (s : State) (e : WbEntry) : State :=
  (e.waiters.foldl (fun (s : State) w => s.complete w.1 w.2) s).ackConflicts e.line

/-- What an accepted write does to the poison records (R482, R487). -/
def State.writePoison (s : State) (q : Req) : State :=
  if q.poison then s.poisoned (match q.src with | .engine _ => 7 | .nobody => 8 | _ => 0) q.line 1
  else if q.mask = fullMask then s.unindexPoison q.line 1 else s

/-- The number of bytes a write carries (WR_BYTES counts by byte mask). -/
def Req.bytes (q : Req) : Nat := popCount q.mask

/-- Release a write-buffer entry. -/
def State.dropEntry (s : State) (id : Nat) : State :=
  { s with near := { s.near with wb := s.near.wb.filter fun e => e.id ≠ id } }

/-- Release the entry that holds a line's newest writes. -/
def State.dropMerged (s : State) (tile rgn line : Nat) : State :=
  match s.mergeEntry tile rgn line with
  | some e => s.dropEntry e.id
  | none => s

/-- Merge a write into the fetched line that the open transaction still has to place: the fill lies beneath it (R104). -/
def State.mergeFill (s : State) (q : Req) : State :=
  match s.txn q.line with
  | some t =>
    match t.phase with
    | .fill c => s.setTxn q.line (some { t with phase := .fill (c.put q.data q.mask q.poison) })
    | _ => s
  | none => s

/-- A write takes a write-buffer entry and merges into the resident line; where that line is in a WB or LK region the line
has the bytes and the entry is released (R95, R103). -/
def State.intoBuffer (s : State) (rgn : Nat) (r : Region) (q : Req) : State :=
  let tile := s.ownerTile q.line
  let s1 := ((s.buffer tile rgn r q).mergeFill q).mergeResident r q
  if decide (2 ≤ r.wpol) && (s.findWay tile q.line).isSome then s1.dropMerged tile rgn q.line else s1

/-- The acceptance point of a write at its owner tile (R19, R21, R95, R103): the write is visible, its MARK is sent,
and its completion leaves at once unless the region is DURABLE. -/
def State.accept (s : State) (rgn : Nat) (r : Region) (q : Req) : State :=
  let s2 := (((s.intoBuffer rgn r q).mark rgn r q.line).mirrorWrite rgn r q).writePoison q
  let s3 := match q.src with
    | .head h _ => (s2.count (evHead h 1) q.bytes).count (evHead h 3) 1
    | _ => s2
  if r.durable then s3 else s3.completeReq q

/-- A write may be accepted now: it merges into an entry or one is free for it, and its region takes writes (R98, R100,
R256). -/
def State.acceptable (s : State) (rgn : Nat) (q : Req) : Bool :=
  let tile := s.ownerTile q.line
  ! (s.gen rgn).hold && ((s.mergeEntry tile rgn q.line).isSome || s.wbRoom tile q.be)

end Sys2Proof.Machine
end

