-- ==== Sys2Proof/Machine/Codec.lean ====
section
/-! DEFINITION. The page codec HPC-1: the decoder of R299 and R300, and what the spec fixes of the encoder's length
(R301, R608). -/
namespace Sys2Proof.Machine

/-- Append n copies from d bytes back; out is the output so far, newest byte first. -/
def copyBack (d : Nat) : Nat → List Nat → List Nat
  | 0, out => out
  | n + 1, out => copyBack d n (out.getD (d - 1) 0 :: out)

/-- Decode tokens (R299): out holds the output newest first, pos its length; fuel bounds the tokens. -/
def decodeTokens : Nat → List Nat → List Nat → Nat → Option (List Nat)
  | 0, _, _, _ => none
  | _ + 1, [], out, pos => if pos = 4096 then some out.reverse else none
  | k + 1, t :: rest, out, pos =>
    let put (n d : Nat) (rest : List Nat) : Option (List Nat) :=
      if d > pos || pos + n > 4096 then none else decodeTokens k rest (copyBack d n out) (pos + n)
    match t / 64 with
    | 0 =>
      let n := t % 64 + 1
      if rest.length < n || pos + n > 4096 then none
      else decodeTokens k (rest.drop n) ((rest.take n).reverse ++ out) (pos + n)
    | 1 =>
      match rest with
      | e :: r => put (t / 8 % 8 + 3) (t % 8 * 256 + e + 1) r
      | [] => none
    | 2 =>
      match rest with
      | lo :: hi :: r =>
        let w := lo + 256 * hi
        put (w / 4096 * 64 + t % 64 + 3) (w % 4096 + 1) r
      | _ => none
    | _ =>
      let n := (t % 64 + 1) * 8
      if pos + n > 4096 then none else decodeTokens k rest (List.replicate n 0 ++ out) (pos + n)

/-- Decode an HPC-1 stream to 4,096 bytes, or a decode error (R299, R300). -/
def hpc1Decode : List Nat → Option (List Nat)
  | [0] => some (List.replicate 4096 0)
  | 1 :: q => if q.length = 8 then some ((List.range 4096).map fun i => q.getD (i % 8) 0) else none
  | 2 :: rest => if rest.isEmpty then none else decodeTokens (rest.length + 1) rest [] 0
  | _ => none

/-- The page is all zeros. -/
def PageData.zero (d : PageData) : Bool := d.all fun e => e.2.data = 0 && ! e.2.poison

/-- Some line of the page is poison. -/
def PageData.hasPoison (d : PageData) : Bool := d.any fun e => e.2.poison

/-- Every 8-byte word of the page equals the first. -/
def PageData.pattern (d : PageData) : Bool :=
  let q := lineWord (d.get {} 0).data 0
  (List.range 64).all fun i => (List.range 8).all fun j => lineWord (d.get {} i).data j = q

/-- The bytes of a page. -/
def PageData.bytes (d : PageData) : List Nat :=
  ((List.range 64).map fun i => (List.range 64).map fun j =>
    ((d.get {} i).data.toNat >>> (8 * j)) % 256).flatten

/-- Bytes that n literal bytes take as LIT tokens. -/
def litCost (n : Nat) : Nat := n + (n + 63) / 64

/-- The baseline stream's length (R608): zeros counts the run now open, lits the literals not yet written. -/
def baselineFrom : List Nat → Nat → Nat → Nat → Nat
  | [], zeros, lits, acc =>
    if 8 ≤ zeros then acc + litCost lits + (zeros / 8 + 63) / 64 + litCost (zeros % 8) else acc + litCost (lits + zeros)
  | 0 :: bs, zeros, lits, acc => baselineFrom bs (zeros + 1) lits acc
  | (_ + 1) :: bs, zeros, lits, acc =>
    if 8 ≤ zeros then baselineFrom bs 0 (zeros % 8 + 1) (acc + litCost lits + (zeros / 8 + 63) / 64)
    else baselineFrom bs 0 (lits + zeros + 1) acc

/-- The baseline stream's length of a page. -/
def PageData.baseline (d : PageData) : Nat := baselineFrom d.bytes 0 0 1

/-- CLEN of the device's encoder (R301, R608): fixed for ZERO and PATTERN pages; for TOKENS a free value within the
baseline. -/
def PageData.clen (d : PageData) : Nat :=
  if d.zero then 1
  else if d.pattern then 9
  else max 2 (min d.baseline (Config.encoderLen (d.foldl (fun a e => a * 2 ^ 512 + e.2.data.toNat) 0)))

/-- Sectors a stream takes with its header (R228). -/
def sectorsFor (clen : Nat) : Nat := (16 + clen + 511) / 512

end Sys2Proof.Machine
end

