-- ==== Sys2Proof/Machine/Doorbell.lean ====
section
/-! DEFINITION. Ring pairs (chapter 12): the fields of their context (R396 to R400), doorbells and the FAULT state (R402 to
R406, R414). -/
namespace Sys2Proof.Machine

/-! ### Access and fields -/

/-- Ring pair r. -/
def State.ring (s : State) (r : Nat) : Ring := s.rng.rings.get {} r

/-- Change ring pair r. -/
def State.modRing (s : State) (r : Nat) (f : Ring → Ring) : State :=
  { s with rng := { s.rng with rings := s.rng.rings.set {} r (f (s.ring r)) } }

/-- Change the descriptor in progress of a ring. -/
def State.modAct (s : State) (r : Nat) (f : Active → Active) : State :=
  s.modRing r fun x => { x with act := x.act.map f }

/-- The engine that serves ring pair r (R396). -/
def engineOf (r : Nat) : Nat := 2 * (r % 16) + (r / 16) % 2

/-- LOG in force: 0 acts as 1, above 16 as 16. -/
def logOf (w : Word) : Nat := min 16 (max 1 (fld w 0 5))

/-- Entries of the SQ and of the CQ. -/
def Ring.sqSize (x : Ring) : Nat := 2 ^ logOf x.sq
/-- See sqSize. -/
def Ring.cqSize (x : Ring) : Nat := 2 ^ logOf x.cq
/-- LOC = HOST. -/
def Ring.sqHost (x : Ring) : Bool := flag x.sq 5
/-- See sqHost. -/
def Ring.cqHost (x : Ring) : Bool := flag x.cq 5
/-- The address of entry 0. -/
def Ring.sqBase (x : Ring) : Nat := fld x.sq 12 52 * 4096
/-- See sqBase. -/
def Ring.cqBase (x : Ring) : Nat := fld x.cq 12 52 * 4096
/-- EN, CLASS = GUARANTEED, DB = MMIO. -/
def Ring.en (x : Ring) : Bool := flag x.ctl 0
/-- See en. -/
def Ring.gua (x : Ring) : Bool := flag x.ctl 1
/-- See en. -/
def Ring.mmio (x : Ring) : Bool := flag x.ctl 2
/-- OWNER. -/
def Ring.owner (x : Ring) : Nat := fld x.ctl 4 4
/-- VECTOR. -/
def Ring.vector (x : Ring) : Nat := fld x.ctl 8 11
/-- IRQ: 1 FLAGGED, 2 COALESCE. -/
def Ring.irq (x : Ring) : Nat := fld x.ctl 19 2
/-- COAL_CNT and COAL_US; 0 acts as 1. -/
def Ring.coalCnt (x : Ring) : Nat := max 1 (fld x.ctl 21 8)
/-- See coalCnt. -/
def Ring.coalUs (x : Ring) : Nat := max 1 (fld x.ctl 29 8)

/-! ### Faults -/

/-- The ring pair enters FAULT (R401, R414); its descriptor in progress runs to its end. -/
def State.ringFault (s : State) (r err : Nat) : State :=
  let x := s.ring r
  if x.st = .idle || x.st = .run || x.st = .wait then
    let s1 := s.modRing r fun x => { x with st := .fault, err := err }
    (({ s1 with rng := { s1.rng with lastFault := r } } : State).count (evEngine (engineOf r) 3) 1).note
      ⟨1, 0x07, r + err * 65536, none⟩
  else s

/-! ### Doorbells -/

/-- A new tail is in range and within the free space (R404). -/
def Ring.tailOk (x : Ring) (t : Nat) : Bool :=
  let n := x.sqSize
  decide (t < n) && decide ((t + n - x.sqTail % n) % n ≤ n - 1 - (x.sqTail + n - x.sqHead % n) % n)

/-- A new head does not pass CQ_TAIL (R404). -/
def Ring.headOk (x : Ring) (h : Nat) : Bool :=
  let n := x.cqSize
  decide (h < n) && decide ((h + n - x.cqHead % n) % n ≤ (x.cqTail + n - x.cqHead % n) % n)

/-- Apply new doorbell values together or not at all (R404). A ring that was idle queues for a slot; one that waited for
a free CQ entry goes on. -/
def State.applyDoorbell (s : State) (r : Nat) (t h : Option Nat) : State :=
  let x := s.ring r
  let t1 := t.getD x.sqTail
  let h1 := h.getD x.cqHead
  if ! x.tailOk t1 then s.ringFault r 0x9
  else if ! x.headOk h1 then s.ringFault r 0xA
  else
    let wake := x.st = .idle && t1 ≠ x.sqTail
    let free := x.st = .wait && h1 ≠ x.cqHead
    let s1 := s.modRing r fun x => { x with
      sqTail := t1, cqHead := h1, st := if wake || free then .run else x.st
      order := if wake then s.rng.nextOrder else x.order }
    if wake then { s1 with rng := { s1.rng with nextOrder := s.rng.nextOrder + 1 } } else s1

/-- The watch logic on an accepted write to a doorbell line (R403). -/
def State.watch (s : State) (r : Nat) (mask : Mask) (c : LineCell) : State :=
  let x := s.ring r
  if mask &&& 0x33 = 0 || x.mmio || x.st = .off then s
  else if c.poison then s.ringFault r 0xC
  else s.applyDoorbell r (some (fld (lineWord c.data 0) 0 16)) (some (fld (lineWord c.data 0) 32 16))

/-- A write to a line of a CONTROL or SCRATCH window lands in the pool; in a CONTROL window the line's watch logic sees it
(R117, R403). -/
def State.poolWrite (s : State) (r : Region) (q : Req) : State :=
  let l := r.poolLine q.line
  let s1 := s.setPool l q.data q.mask q.poison
  if r.window = 1 then s1.watch (q.line - r.base * 32768) q.mask (s1.poolCell l) else s1

end Sys2Proof.Machine
end

