-- ==== Sys2Proof/Machine/Protocol.lean ====
section
/-! DEFINITION. The owner tile's work on a request (chapter 05): the snoop filter, the transition table of R154, open
transactions and recalls, reads, writes and atomics at the tile, hand-offs of ownership, and the port block's checks
at decode (R33, R68, R85, R346, R373, R435). -/
namespace Sys2Proof.Machine

/-! ### The snoop filter -/

/-- The key of a snoop-filter way. -/
def sfKey (tile set w : Nat) : Nat := (tile * 131072 + set) * 16 + w

/-- A snoop-filter way. -/
def State.sfWay (s : State) (tile set w : Nat) : SfEntry := s.coh.sf.get {} (sfKey tile set w)

/-- Write a snoop-filter way; an entry without holders is freed (R150). -/
def State.setSf (s : State) (tile set w : Nat) (e : SfEntry) : State :=
  let e1 : SfEntry := if e.st = .none || (e.st ≠ .wide && e.pres = 0) then {} else e
  { s with coh := { s.coh with sf := s.coh.sf.set {} (sfKey tile set w) e1 } }

/-- Snoop-filter ways of a tile in service (R177). -/
def State.sfWays (s : State) (tile : Nat) : List Nat :=
  (List.range 16).filter fun w => ! s.boot.retSf.getLsbD (16 * tile + w)

/-- The way that holds a line's entry in a tile's slice (R147). -/
def State.findSf (s : State) (tile line : Nat) : Option Nat :=
  (s.sfWays tile).find? fun w =>
    (s.sfWay tile (sfSet line) w).st ≠ .none && (s.sfWay tile (sfSet line) w).tag = sfTag line

/-- OPEN of an entry (R148): a transaction on its line is open or its ownership is moving. -/
def SfEntry.isOpen (s : State) (set : Nat) (e : SfEntry) : Bool := e.st ≠ .none && s.lineOpen (sfLine set e.tag)

/-- Bits 55:0 of a snoop-filter entry (R148). -/
def SfEntry.bits (e : SfEntry) (isOpen : Bool) : BitVec 56 :=
  BitVec.ofNat 56 (e.tag % 2 ^ 22 + e.pres.toNat * 2 ^ 22
    + (match e.st with | .none => 0 | .shared => 1 | .excl => 2 | .wide => 3) * 2 ^ 38 + (if isOpen then 2 ^ 40 else 0))

/-- A snoop-filter entry as the array holds it, with its check bits in bits 63:56 (R148). -/
def State.sfWord (s : State) (tile set w : Nat) : Word :=
  let e := s.sfWay tile set w
  let b := e.bits (SfEntry.isOpen s set e)
  Config.sfCheck b ++ b

/-- A way of a set is reserved for a line on its way to the tile (R165). -/
def State.sfReserved (s : State) (tile set w : Nat) : Bool :=
  s.coh.handoff.any fun e => match e.2 with
    | some x => x.arriving && x.dst = tile && x.sfWay = w && sfSet e.1 = set
    | none => false

/-- An unused way of a set. -/
def State.freeSf (s : State) (tile set : Nat) : Option Nat :=
  (s.sfWays tile).find? fun w => (s.sfWay tile set w).st = .none && ! s.sfReserved tile set w
    && ! s.flt.deferred.contains (3, 16 * tile + w)

/-- The heads an entry records, but for those that dropped since: they are absent from the drop onward (R84). -/
def SfEntry.holders (e : SfEntry) : BitVec 16 := e.pres &&& ~~~ e.gone

/-- A lookup of a line clears the presence of dropped heads from its entry (R84). -/
def State.cleanSf (s : State) (line : Nat) : State :=
  let tile := s.ownerTile line
  match s.findSf tile line with
  | some w =>
    let e := s.sfWay tile (sfSet line) w
    if e.gone = 0 then s else s.setSf tile (sfSet line) w { e with pres := e.holders, gone := 0 }
  | none => s

/-- Heads whose presence counts: a dropped head is treated as absent (R84). -/
def State.liveHeads (s : State) : BitVec 16 :=
  BitVec.ofNat 16 (((List.range 16).filter fun h => ! (s.head h).link.memOff).foldl (fun a h => a + 2 ^ h) 0)

/-- Record a line's state after a request; an entry is created where none is and the state is not NONE (R150). -/
def State.recordSf (s : State) (line : Nat) (st : SfState) (pres : BitVec 16) : State :=
  let tile := s.ownerTile line
  match s.findSf tile line with
  | some w => s.setSf tile (sfSet line) w { tag := sfTag line, pres := pres, st := st }
  | none =>
    match s.freeSf tile (sfSet line) with
    | some w => s.setSf tile (sfSet line) w { tag := sfTag line, pres := pres, st := st }
    | none => s

/-- The state and holders that a request on a line meets (R145, R149, R153, R176). -/
def State.cohView (s : State) (r : Region) (line : Nat) : SfState × BitVec 16 :=
  if r.coh = 0 then (.none, 0)
  else if r.coh = 2 then (.wide, r.holders &&& s.liveHeads)
  else
    match s.findSf (s.ownerTile line) line with
    | some w =>
      let e := s.sfWay (s.ownerTile line) (sfSet line) w
      (e.st, (if e.st = .wide then r.holders else e.holders) &&& s.liveHeads)
    | none =>
      if s.coh.wide && s.tileRetired (s.namedTile line) then (.wide, r.holders &&& s.liveHeads) else (.none, 0)

/-- The head a request comes from. -/
def Req.headOf (q : Req) : Option Nat :=
  match q.src with
  | .head h _ => some h
  | _ => none

/-- V without the requester. -/
def Req.others (q : Req) (v : BitVec 16) : BitVec 16 :=
  match q.headOf with
  | some h => putBit v h false
  | none => v

/-- The recall that R154 asks of a request: the BISnp form and the heads it goes to. -/
def Req.recall (q : Req) (st : SfState) (v : BitVec 16) : Snp × BitVec 16 :=
  match q.kind with
  | .rdCur | .devRd => (.cur, if st = .excl || st = .wide then q.others v else 0)
  | .rdShared => (.data, if st = .excl || st = .wide then q.others v else 0)
  | .rdOwn | .ownNoData => (.inv, q.others v)
  | .wrI | .wrS => (.inv, q.others v)
  | .evict => (.inv, 0)
  | .atomic _ _ _ _ | .devWr => (.inv, v)

/-- The request may leave its head holding a copy, so it needs an entry (R150). -/
def Req.needsEntry (q : Req) : Bool :=
  match q.kind with
  | .rdShared | .rdOwn | .ownNoData | .wrS => true
  | _ => false

/-- A write or an atomic, for R33 and R346. -/
def Req.writes (q : Req) : Bool :=
  match q.kind with
  | .wrI | .wrS | .atomic _ _ _ _ | .devWr => true
  | _ => false

/-- The requester's bit. -/
def Req.bit (q : Req) : BitVec 16 :=
  if q.mute then 0 else
  match q.headOf with
  | some h => BitVec.ofNat 16 (2 ^ h)
  | none => 0

/-- The record of a TRACKED line after a request (R154). st and v are the state before, ansS the heads that answered
BIRspS to its recall. -/
def Req.after (q : Req) (st : SfState) (v ansS : BitVec 16) : SfState × BitVec 16 :=
  match q.kind with
  | .rdCur | .devRd => (st, v)
  | .rdShared =>
    match st with
    | .shared => (.shared, v ||| q.bit)
    | .none => (.shared, q.bit)
    | .excl | .wide => (.shared, q.bit ||| ansS)
  | .rdOwn | .ownNoData => (.excl, q.bit)
  | .wrI => (.none, 0)
  | .wrS => (.shared, q.bit)
  | .evict => if st = .wide then (.wide, v) else (st, v &&& ~~~ q.bit)
  | .atomic _ _ _ _ | .devWr => (.none, 0)

/-- Apply R154's state after to the filter: TRACKED regions only; a read that leaves the record as BIRsp left it
writes nothing, and a request after which its head holds no copy creates no entry (R150). -/
def State.afterSf (s : State) (r : Region) (q : Req) (st : SfState) (ansS : BitVec 16) : State :=
  if r.coh ≠ 1 || q.kind = .rdCur || q.kind = .devRd then s
  else
    let v := (s.cohView r q.line).2
    let a := q.after st v ansS
    if ! q.needsEntry && (s.findSf (s.ownerTile q.line) q.line).isNone then s else s.recordSf q.line a.1 a.2

/-! ### Transactions -/

/-- Open a transaction for a request in a phase, or move the open one to it; one that goes to its map tile takes its turn among
the lookups (R235). -/
def State.phase (s : State) (q : Req) (p : Phase) : State :=
  let t := (s.txn q.line).getD { req := q, waits := 0, ansS := 0, phase := p, queue := [] }
  let s1 : State := if p = .lookup then { s with coh := { s.coh with lookups := s.coh.lookups + 1 } } else s
  s1.setTxn q.line (some { t with req := q, phase := p, since := if p = .lookup then s.coh.lookups else t.since })

/-- The request has been answered: its open transaction, if it has one, can close (R157). -/
def State.finish (s : State) (line : Nat) : State :=
  match s.txn line with
  | some t => s.setTxn line (some { t with phase := .done })
  | none => s

/-- Send a BISnp to each head of a set and note it as outstanding (R157); a head whose credits are kept back gets one RwD credit with it (R78, R435). -/
def State.sendSnoops (s : State) (k : Snp) (line : Nat) (v : BitVec 16) : State :=
  (bitsOf v).foldl (fun s h =>
    let s1 := if s.keepsCredit h then s.modHead h fun x => { x with kept := x.kept - 1 } else s
    (({ s1 with coh := { s1.coh with snoops := s1.coh.snoops ++ [⟨h, line, k, false⟩] } } : State).count
      (evHead h 4) 1).emitTo h (.bisnp k h line)) s

/-- A maintenance operation's range holds a line. -/
def MaintOp.covers (m : MaintOp) (line : Nat) : Bool := decide (m.lo ≤ line) && decide (line ≤ m.hi)

/-- The line lies in the range of an INVAL or DISCARD in progress: no allocation (R130). -/
def State.maintained (s : State) (line : Nat) : Bool := s.near.maint.any fun m => m.op ≠ 0x20 && m.covers line

/-- A miss of the region may allocate (R103, R130). -/
def State.allocates (s : State) (r : Region) (line : Nat) : Bool :=
  ! r.noalloc && ! r.pooled && ! s.maintained line

/-! ### Atomics (R170) -/

/-- The bytes an atomic writes: its mask in the line. -/
def atomMask (op : AtomOp) (off : Nat) : Mask :=
  if op = .cas16 then BitVec.ofNat 64 (0xFFFF <<< (off % 64)) else BitVec.ofNat 64 (0xFF <<< (off % 64))

/-- The old operand of an atomic. -/
def atomOld (op : AtomOp) (off : Nat) (l : Line) : BitVec 128 :=
  let x := l.extractLsb' (8 * (off % 64)) 128
  if op = .cas16 then x else x &&& 0xFFFFFFFFFFFFFFFF

/-- The new value of an atomic's operand: CAS16 compares with a and writes b. -/
def atomNew (op : AtomOp) (old a b : BitVec 128) : BitVec 128 :=
  match op with
  | .fadd => (old + a) &&& 0xFFFFFFFFFFFFFFFF
  | .fand => old &&& a
  | .bor => (old ||| a) &&& 0xFFFFFFFFFFFFFFFF
  | .swap => a &&& 0xFFFFFFFFFFFFFFFF
  | .cas16 => if old = a then b else old

/-- A write that finds no write-buffer entry waits in the tile's retry queue (R100); its transaction stays open, and later
requests for the line queue behind it (R144, R157). -/
def State.awaitEntry (s : State) (q : Req) : State :=
  let s1 := s.phase q .noEntry
  { s1 with near := { s1.near with wbRetry := s1.near.wbRetry ++ [(s1.ownerTile q.line, q)] } }

/-- Run an atomic on a line's value: the result is accepted as a write and the old value answers it; a poisoned line
answers poison and keeps its value (R171). Where its result finds no write-buffer entry it waits in the tile's retry queue
(R100), its transaction open, so that no other request for the line is taken first (R144). -/
def State.atomic (s : State) (rgn : Nat) (r : Region) (q : Req) (c : LineCell) : State :=
  match q.kind with
  | .atomic op off a b =>
    let s0 := s.count (evTile (s.ownerTile q.line) 15) 1
    if c.poison then (s0.answer q { poison := true }).finish q.line
    else if ! (r.pooled || s.acceptable rgn q) then s.awaitEntry q
    else
      let old := atomOld op off c.data
      let d : Line := (atomNew op old a b).setWidth 512 <<< (8 * (off % 64))
      let w : Req := { q with data := d, mask := atomMask op off, poison := false, atP2 := q.atP2 || r.noalloc }
      let s1 := if r.pooled then s0.setPool (r.poolLine q.line) w.data w.mask false
        else s0.accept rgn r w
      (s1.answer q { data := old.setWidth 512 }).finish q.line
  | _ => s

/-! ### The owner tile serves a request -/

/-- Serve a read at the owner tile: a hit answers at once; a pool line answers from scratch; a broken alias answers
poison; else the lookup goes to the map tile (R91, R221). -/
def State.serveRead (s : State) (r : Region) (q : Req) : State :=
  let tile := s.ownerTile q.line
  match s.resident r q.line with
  | some w =>
    let x := s.way tile (ncSet q.line) w
    (((s.count (evTile tile 0) 1).hit tile (ncSet q.line) w).answer q x.cell).finish q.line
  | none =>
    if r.pooled then (s.answer q (s.poolCell (r.poolLine q.line))).finish q.line
    else if (s.linePlace r q.line).isNone then (s.answer q { poison := true }).finish q.line
    else (s.count (evTile tile 1) 1).phase q .lookup

/-- The open transaction of an accepted write to a DURABLE region owes the completion that waits for the buddy (R97, R157). -/
def State.owing (s : State) (r : Region) (q : Req) : State :=
  match s.txn q.line with
  | some t => if r.durable then s.setTxn q.line (some { t with owes := q.waiters }) else s
  | none => s

/-- Serve a write at the owner tile (R95, R103, R104): accept it and, where the policy allocates on a write miss, open
the fill beneath it. -/
def State.serveWrite (s : State) (rgn : Nat) (r : Region) (q : Req) : State :=
  if r.pooled then ((s.poolWrite r q).completeReq q).finish q.line
  else
    let miss := (s.findWay (s.ownerTile q.line) q.line).isNone
    let s1 := (s.accept rgn r q).owing r q
    if miss && decide (1 ≤ r.wpol) && s.allocates r q.line && ! s.vlt.stopped then
      s1.phase { q with src := .nobody, kind := .rdCur } .lookup
    else s1.finish q.line

/-- The request's own effect once no recall is outstanding. -/
def State.perform (s : State) (rgn : Nat) (r : Region) (q : Req) (st : SfState) (ansS : BitVec 16) : State :=
  match q.kind with
  | .rdCur | .rdShared | .rdOwn | .devRd => (s.afterSf r q st ansS).serveRead r q
  | .ownNoData | .evict => ((s.afterSf r q st ansS).completeReq q).finish q.line
  | .wrI | .wrS | .devWr =>
    if r.pooled || s.acceptable rgn q then (s.afterSf r q st ansS).serveWrite rgn r q else s.awaitEntry q
  | .atomic _ _ _ _ =>
    let s1 := s.afterSf r q st ansS
    match s1.resident r q.line with
    | some w => s1.atomic rgn r q (s1.way (s1.ownerTile q.line) (ncSet q.line) w).cell
    | none =>
      if r.pooled then s1.atomic rgn r q (s1.poolCell (r.poolLine q.line))
      else if r.noalloc then s1.phase q .atomicWait
      else s1.phase q .lookup

/-- The heads a victim's recall goes to. -/
def State.victimHolders (s : State) (tile set w : Nat) : BitVec 16 :=
  let e := s.sfWay tile set w
  (if e.st = .wide then ((s.regionOf (sfLine set e.tag)).map fun x => x.2.holders).getD 0 else e.holders) &&& s.liveHeads

/-- A victim in a set of the snoop filter: from the set's pointer on, the first way whose line has no open
transaction (R151). -/
def State.sfVictim (s : State) (tile set : Nat) : Option Nat :=
  let p := s.coh.ptr.get 0 (tile * 131072 + set)
  (((List.range 16).map fun i => (p + i) % 16).filter fun w => (s.sfWays tile).contains w).find? fun w =>
    ! s.lineOpen (sfLine set (s.sfWay tile set w).tag)

/-- Recall a victim's holders so that its way can be given to a waiting request (R151). -/
def State.startVictim (s : State) (tile set w : Nat) : State :=
  let line := sfLine set (s.sfWay tile set w).tag
  let v := s.victimHolders tile set w
  let s1 := { s with coh := { s.coh with ptr := s.coh.ptr.set 0 (tile * 131072 + set) ((w + 1) % 16) } }
  let s2 := (s1.count (evTile tile 3) 1).setTxn line
    (some { req := { src := .nobody, kind := .evict, line := line }, waits := v, ansS := 0, phase := .victim, queue := [] })
  s2.sendSnoops .inv line v

/-- The request waits in the retry queue of its set (R152). -/
def State.awaitSf (s : State) (q : Req) : State :=
  { s with coh := { s.coh with retry := s.coh.retry ++ [(s.ownerTile q.line, q)] } }

/-- Take a request at its owner tile with no transaction open on its line: find room in the snoop filter (R151, R152),
recall conflicting holders (R154), or serve it. From admission stop a read that needs a recall is held (R346). DESIGN CHOICE
(log): a request whose recall would send a withheld head its 1,025th BISnp (R337) waits in the retry queue. -/
def State.start (s : State) (q : Req) : State :=
  let s := s.cleanSf q.line
  match s.regionFor q with
  | none =>
    match q.kind with
    | .rdCur | .rdShared | .rdOwn | .devRd | .atomic _ _ _ _ => s.answer q { poison := true }
    | _ => s.completeReq q
  | some (rgn, r) =>
    let view := s.cohView r q.line
    let tile := s.ownerTile q.line
    let set := sfSet q.line
    if r.coh = 1 && q.needsEntry && (s.findSf tile q.line).isNone && (s.freeSf tile set).isNone then
      match s.sfVictim tile set with
      | some w =>
        if ! s.snoopRoom (s.victimHolders tile set w) then s.awaitSf q
        else
          let line := sfLine set (s.sfWay tile set w).tag
          let s1 := s.startVictim tile set w
          { s1 with coh := { s1.coh with sfWait := s1.coh.sfWait ++ [(line, q)] } }
      | none => (s.count (evTile tile 4) 1).awaitSf q
    else
      let rc := q.recall view.1 view.2
      if rc.2 = 0 then s.perform rgn r q view.1 0
      else if ! s.snoopRoom rc.2 then s.awaitSf q
      else if s.vlt.stopped then s.setTxn q.line (some { req := q, waits := 0, ansS := 0, phase := .recall, queue := [] })
      else
        (s.setTxn q.line (some { req := q, waits := rc.2, ansS := 0, phase := .recall, queue := [] })).sendSnoops rc.1 q.line rc.2

/-- A request's turn has come: it starts, or queues behind the transaction that is open on its line (R157). -/
def State.begin (s : State) (q : Req) : State :=
  match s.txn q.line with
  | some t => s.setTxn q.line (some { t with queue := t.queue ++ [q] })
  | none => s.start q

/-- A BISnp to the head for the line is outstanding. -/
def State.snooped (s : State) (h line : Nat) : Bool := s.coh.snoops.any fun x => x.head = h && x.line = line

/-- A recalled writeback: accepted at once, ahead of every queued request, changing no record (R157). -/
def State.writeback (s : State) (rgn : Nat) (r : Region) (q : Req) : State :=
  let q := { q with atP2 := true }
  if r.pooled then (s.poolWrite r q).completeReq q
  else if s.acceptable rgn q then s.accept rgn r q
  else { s with near := { s.near with wbRetry := s.near.wbRetry ++ [(s.ownerTile q.line, q)] } }

/-- The request is a recalled writeback (R157): a write from a head to which a BISnp of the line is outstanding. -/
def State.recalledWrite (s : State) (q : Req) : Bool :=
  match q.headOf with
  | some h => q.writes && s.snooped h q.line
  | none => false

/-- A request that the owner tile has taken enters its tables: a recalled writeback is accepted at once; any other request
queues behind an open transaction on its line or behind an earlier request that waits for the snoop filter (R144, R157). -/
def State.enter (s : State) (q : Req) : State :=
  if s.recalledWrite q then
    match s.regionFor q with
    | some (rgn, r) => s.writeback rgn r q
    | none => s.begin q
  else if (s.txn q.line).isNone
      && ((s.coh.sfWait.any fun e => e.2.line = q.line) || (s.coh.retry.any fun e => e.2.line = q.line)) then
    s.awaitSf q
  else s.begin q

/-! ### Ownership and probes (R160 to R167) -/

/-- The probe identity: head and tag (R160); engines and the partner use numbers above the heads. -/
def Req.ident (q : Req) : Nat × Nat :=
  match q.src with
  | .head h t => (h, t)
  | .engine r => (16, r)
  | .partner n => (17, n)
  | .nobody => (18, 0)
  | .dump => (19, 0)

/-- A line's new pull entry finds one of the 4 ways of its set in the owner tile's table, or takes one (R161). -/
def State.pullRoom (s : State) (line : Nat) : State :=
  let rivals := (s.coh.pull.filter fun e => e.1 ≠ line && s.ownerTile e.1 = s.ownerTile line
    && Config.pullSet e.1 % 1024 = Config.pullSet line % 1024).map Prod.fst
  if rivals.length < 4 then s
  else { s with coh := { s.coh with
    pull := s.coh.pull.set {} (rivals.getD (Config.pullVictim s.clock % rivals.length) 0) {} } }

/-- Update the pull entry of a line on a request from a head (R163). -/
def State.pullOn (s : State) (q : Req) : State :=
  match q.headOf with
  | none => s
  | some h =>
    let k := h / 2
    let e := s.coh.pull.get {} q.line
    let e1 : Pull :=
      if 2 * k = s.ownerTile q.line then { e with streak := 0 }
      else if e.port = k && e.streak ≠ 0 then { e with streak := e.streak + 1 }
      else ⟨k, 1⟩
    let s1 := if e = {} then s.pullRoom q.line else s
    { s1 with coh := { s1.coh with pull := s1.coh.pull.set {} q.line e1 } }

/-- The owner tile takes a request (R144, R163). -/
def State.take (s : State) (q : Req) : State := (s.pullOn q).enter q

/-- The region's probes are broadcast: NATIVE with NOALLOC 0, outside the scratch pool; any other probe goes to the home tile
alone (R160). -/
def State.probeWide (s : State) (line : Nat) : Bool := s.movable line

/-- The tiles that a probe from a tile reaches, its own first. -/
def State.probeTiles (s : State) (tile line : Nat) : List Nat :=
  if s.probeWide line then tile :: broadcastTiles tile else [s.homeTile line]

/-- A port's probe travels on the warp ring (R12, R17, R160); the stops that it reaches count it (R515). -/
def State.sendProbe (s : State) (tile : Nat) (q : Req) : State :=
  if s.probeWide q.line then s.broadcast tile q.prio
  else if tile = s.homeTile q.line then s
  else (s.ringSend tile (s.homeTile q.line) q.prio).count (evRing (s.homeTile q.line) 5) 1

/-- A tile's action on a probe (R162), the first matching row. -/
def State.probeAct (s : State) (tile : Nat) (line : Nat) (id : Nat × Nat) : ProbeAct :=
  match s.coh.handoff.get none line with
  | some ho =>
    if tile = ho.src && ho.leaving then .takeHold
    else if tile = ho.src && ho.gone then .forward
    else if tile = ho.dst && ho.arriving then .pending
    else if tile = ho.dst && ho.settling && ho.ids.contains id then .discard
    else if tile = s.ownerTile line then .take
    else .drop
  | none => if tile = s.ownerTile line then .take else .drop

/-- A recovery holds the probes of a line (R175): it is homed at a recovering tile, or was owned there. -/
def State.recoveryHolds (s : State) (line : Nat) : Bool :=
  s.coh.recovering.getLsbD (s.namedTile line) || s.coh.recovering.getLsbD (s.ownerTile line) || s.coh.recLines.contains line

/-- Deliver a request's probe to the tiles (R17, R162): exactly one takes it; a line in hand-off holds it at the old
owner, or as pending at the target. A line homed or owned at a recovering tile has its probe held (R175). -/
def State.route (s : State) (q0 : Req) : State :=
  let q : Req := if q0.reg.isSome then q0 else { q0 with reg := s.regionOf q0.line }
  let id := q.ident
  let s := s.wake (s.ownerTile q.line)
  if s.recoveryHolds q.line then
    { s with coh := { s.coh with recHeld := s.coh.recHeld ++ [q] } }
  else
    match s.coh.handoff.get none q.line with
    | none => s.take q
    | some ho =>
      if ho.settling || (ho.gone && ! ho.arriving) then
        let ho1 := { ho with ids := ho.ids ++ [id] }
        State.take { s with coh := { s.coh with handoff := s.coh.handoff.set none q.line (some ho1) } } q
      else
        let ho1 := { ho with
          held := if ho.leaving then ho.held ++ [q] else ho.held
          pending := if ho.arriving then ho.pending ++ [q] else ho.pending }
        let s1 := if ho.gone then s.count (evTile ho.src 5) 1 else s
        { s1 with coh := { s1.coh with handoff := s1.coh.handoff.set none q.line (some ho1) } }

/-! ### Decode at the port block -/

/-- A read, for R373. -/
def Req.reads (q : Req) : Bool :=
  match q.kind with
  | .rdCur | .rdShared | .rdOwn | .devRd => true
  | _ => false

/-- Denied under R34: poison for a read, a normal completion for anything else, an ACCESS notice and an event record. -/
def State.deny (s : State) (h tag rgn dpa cause : Nat) (read : Bool) : State :=
  let s1 := (s.count (evHead h 7) 1).access h rgn cause (dpa % 2 ^ 45)
  let s2 := s1.event h ⟨.generalMedia, 0, dpa⟩
  if read then s2.emitTo h (.memData h tag 0 true (s2.devLoad h)) else s2.complete h tag

/-- A region refuses the request (R33, R68): no rights, a write without READ_WRITE rights or under DLOST, or an HDM-H
decoder on a TRACKED or BROADCAST region. -/
def Region.refuses (r : Region) (h : Nat) (write db : Bool) : Bool :=
  r.acc2 h = 0 || (write && (! r.mayWrite h || r.dlost)) || (! db && r.coh ≠ 0)

/-- The head's CXL.mem is off: MEM_OFF, or IDE required and not active (R85, R18). -/
def Link.closed (l : Link) : Bool := l.memOff || (flag l.ctl 6 && ! l.ideActive)

/-- 64 bytes, in the buckets' unit. -/
def lineTokens : Nat := 1280

/-- Sort a request into its QoS class and take its tokens (R373, R374). -/
def State.classify (s : State) (h : Nat) (r : Region) (q : Req) : Bool × State :=
  let b := s.budget h
  if r.bestEffort || ! (q.reads || q.writes) then (true, s)
  else
    let counts := decide (b.rdRate ≠ 0 ∨ b.wrRate ≠ 0)
    let have_ := if q.reads then b.rd else b.wr
    if lineTokens ≤ have_ then
      let b1 := if q.reads then { b with rd := b.rd - lineTokens } else { b with wr := b.wr - lineTokens }
      (false, (s.setBudget h b1).modLoad h fun l => { l with reqs := l.reqs + 1 })
    else
      (true, (if counts then s.count (evHead h 5) 1 else s).modLoad h
        fun l => { l with reqs := l.reqs + 1, demoted := l.demoted + (if counts then 1 else 0) })

/-- A region is held by QUIESCE (R426). -/
def State.quiesced (s : State) (rgn : Nat) : Bool := s.rng.qholds.any fun q => q.region = rgn

/-- A CXL.mem request that passed its decode checks goes to its owner tile, or waits where a rule holds it: behind a
brake (R435), at admission stop if it writes (R346), at a QUIESCE hold (R426). -/
def State.dispatch (s : State) (h rgn : Nat) (r : Region) (q0 : Req) : State :=
  let q : Req := { q0 with reg := some (rgn, r) }
  if (s.head h).braked then
    s.modHead h fun x => { x with brake := { x.brake with gate := x.brake.gate ++ [q] } }
  else if s.vlt.stopped && q.writes then
    { s with vlt := { s.vlt with held := s.vlt.held ++ [q] } }
  else if s.quiesced rgn then { s with rng := { s.rng with qheld := s.rng.qheld ++ [q] } }
  else
    let c := s.classify h r q
    let q1 := { q with be := c.1 }
    (c.2.sendProbe (h / 2 * 2) q1).route q1

/-- A kind that returns data to its head. -/
def ReqKind.returns (k : ReqKind) : Bool := k = .rdCur || k = .rdShared || k = .rdOwn

/-- A CXL.mem request other than a write is decoded at a head's port: the HDM decoders, the checks of R33, R68 and R85, then
dispatch. -/
def State.decodeReq (s : State) (h tag hpa : Nat) (k : ReqKind) : State :=
  let s0 := s.unquiet h
  let s1 := if k.returns then s0.count (evHead h 2) 1 else s0
  match s1.decoderOf h hpa with
  | none => s1.deny h tag 0xFFF (Config.unmappedDpa hpa) 0 k.returns
  | some d =>
    let dpa := d.toDpa hpa
    match s1.regionOf (dpa / 64) with
    | none => s1.deny h tag 0xFFF dpa 0 k.returns
    | some (rgn, r) =>
      if (s1.head h).link.closed || r.refuses h false d.db then s1.deny h tag rgn dpa 0 k.returns
      else s1.dispatch h rgn r { src := .head h tag, kind := k, line := dpa / 64 }

/-- A CXL.mem request other than a write arrives at a head's port; while the link is in Recovery it waits (R82). -/
def State.headReq (s : State) (h tag hpa : Nat) (k : ReqKind) : State :=
  if ! s.linkUp h || s.flt.fatal.isSome then s
  else if (s.head h).link.recovery then
    s.modHead h fun x => { x with inQ := x.inQ ++ [{ tag := tag, hpa := hpa, kind := k }] }
  else s.decodeReq h tag hpa k

/-! ### BIRsp (R155 to R158) -/

/-- The request is a write of head h to a line. -/
def Req.writeOf (q : Req) (h line : Nat) : Bool := q.line = line && q.headOf = some h && q.writes

/-- A write of the head to the line waits for acceptance, so its BIRsp waits (R156, R346): in the retry queue, at admission
stop, behind a brake or a QUIESCE hold, for a recovery, or in a hand-off. -/
def State.writebackWaits (s : State) (h line : Nat) : Bool :=
  let mine := fun (q : Req) => q.writeOf h line
  (s.near.wbRetry.any fun e => mine e.2) || s.vlt.held.any mine || (s.head h).brake.gate.any mine || s.rng.qheld.any mine
    || s.coh.recHeld.any mine || (s.coh.sfWait.any fun e => mine e.2) || (s.coh.retry.any fun e => mine e.2)
    || (match s.txn line with | some t => t.queue.any mine | none => false)
    || (match s.coh.handoff.get none line with | some x => x.held.any mine || x.pending.any mine | none => false)

/-- Writes of the head to the line that queued at the owner tile, behind the open transaction or for the snoop filter, before
the BISnp went out are recalled writebacks too: they are accepted ahead of every queued request (R156, R157). -/
def State.bypass (s : State) (h line : Nat) : State :=
  let mine := fun (q : Req) => q.writeOf h line
  let waiting := (match s.txn line with | some t => t.queue.filter mine | none => [])
    ++ ((s.coh.sfWait ++ s.coh.retry).map Prod.snd).filter mine
  if waiting.isEmpty then s
  else
    let s1 : State := { s with coh := { s.coh with
      sfWait := s.coh.sfWait.filter fun e => ! mine e.2, retry := s.coh.retry.filter fun e => ! mine e.2 } }
    let s2 := match s.txn line with
      | some t => s1.setTxn line (some { t with queue := t.queue.filter fun q => ! mine q })
      | none => s1
    waiting.foldl (fun (s : State) q => s.enter q) s2

/-- Continue an open transaction whose last BIRsp has been handled. -/
def State.recalled (s : State) (line : Nat) : State :=
  match s.txn line with
  | some t =>
    if t.phase = .recall && t.waits = 0 then
      match s.regionFor t.req with
      | some (rgn, r) => s.perform rgn r t.req (s.cohView r line).1 t.ansS
      | none => s.finish line
    else s
  | none => s

/-- What an answer does to the answering head's record (R155). -/
def SfEntry.answer (e : SfEntry) (h : Nat) (b : Birsp) : SfEntry :=
  if e.st = .wide then e
  else match b with
    | .i => { e with pres := putBit e.pres h false }
    | .s => { e with st := .shared }
    | .e => e

/-- Apply an answer to the line's entry. -/
def State.answered (s : State) (h line : Nat) (b : Birsp) : State :=
  let tile := s.ownerTile line
  match s.findSf tile line with
  | some w => s.setSf tile (sfSet line) w ((s.sfWay tile (sfSet line) w).answer h b)
  | none => s

/-- Handle a BIRsp (R155): the head's record changes, the transaction stops awaiting it, and the last answer lets the
request go on. BIRspE counts only for BISnpCur. -/
def State.birspHandle (s : State) (h line : Nat) (b : Birsp) : State :=
  match s.coh.snoops.find? fun x => x.head = h && x.line = line with
  | none => s
  | some sn =>
    if sn.stale then
      { s with coh := { s.coh with snoops := s.coh.snoops.erase sn } }
    else
    let ans : Birsp := if b = .e && sn.kind ≠ .cur then .i else b
    let s1 : State :=
      { s with coh := { s.coh with snoops := s.coh.snoops.erase sn } }
    match s1.txn line with
    | none => s1
    | some t =>
      let t1 : Txn := { t with
        waits := putBit t.waits h false
        ansS := if ans = .s then putBit t.ansS h true else t.ansS }
      ((s1.answered h line ans).setTxn line (some t1)).recalled line

/-- A BIRsp arrives (R155, R156): one that answers no BISnp is discarded; one whose writeback waits is held. -/
def State.birsp (s : State) (h line : Nat) (b : Birsp) : State :=
  if ! s.snooped h line then s
  else
    let s1 := s.bypass h line
    if s1.writebackWaits h line then
      { s1 with coh := { s1.coh with heldBirsp := s1.coh.heldBirsp ++ [(h, line, b)] } }
    else s1.birspHandle h line b

/-- Handle the held BIRsps whose writebacks have been accepted (R156). -/
def State.releaseBirsps (s : State) : State :=
  s.coh.heldBirsp.foldl (fun s e =>
    if s.writebackWaits e.1 e.2.1 then s
    else
      ({ s with coh := { s.coh with heldBirsp := s.coh.heldBirsp.filter fun x => x ≠ e } }).birspHandle
        e.1 e.2.1 e.2.2) s

/-- Try a write that waits in a tile's retry queue again (R100): the request of an open transaction runs, a recalled
writeback is accepted, any other write enters anew. -/
def State.retryWrite (s : State) (q : Req) : State :=
  match s.txn q.line, s.regionFor q with
  | some t, some (rgn, r) =>
    if t.phase = .noEntry && t.req.ident = q.ident then s.perform rgn r q (s.cohView r q.line).1 t.ansS else s.enter q
  | _, _ => s.enter q

/-- Retry the writes that wait at a tile, oldest first. -/
def State.retryWrites (s : State) (tile : Nat) : State :=
  let mine := s.near.wbRetry.filter fun e => e.1 = tile
  (mine.foldl (fun (s : State) e => s.retryWrite e.2)
    ({ s with near := { s.near with wbRetry := s.near.wbRetry.filter fun e => e.1 ≠ tile } } : State)).releaseBirsps

end Sys2Proof.Machine
end

