-- ==== Sys2Proof/Machine/Fetch.lean ====
section
/-! DEFINITION. From a near-cache miss to the line's answer (chapters 04 to 08): the lookup at the map tile, heat, DRAM
and beam reads, fills and evictions, and the drain of write-buffer entries to DRAM. -/
namespace Sys2Proof.Machine

/-! ### Heat (R232) -/

/-- Effective heat of an entry at epoch e. -/
def PageEntry.effHeat (p : PageEntry) (e : Nat) : Nat :=
  let lag := (e + 16 - p.stamp) % 16
  if lag < 4 then p.heat >>> lag else 0

/-- A lookup for a head request or an engine access warms the page. -/
def PageEntry.warmed (p : PageEntry) (e : Nat) : PageEntry := { p with heat := min 15 (p.effHeat e + 1), stamp := e }

/-! ### The beam's geometry (R271) -/

/-- Stripe, data unit and sector of a beam sector address. -/
def beamStripe (a : Nat) : Nat := a / 1024
/-- See beamStripe. -/
def beamUnit (a : Nat) : Nat := (a / 128) % 8
/-- See beamStripe. -/
def beamSector (a : Nat) : Nat := a % 128
/-- The parity slot of a stripe. -/
def paritySlot (n : Nat) : Nat := 7 - n % 8
/-- The slot of a data unit. -/
def unitSlot (n j : Nat) : Nat := (paritySlot n + 1 + j) % 8
/-- The LBA of a beam sector address on its slot. -/
def beamLba (a : Nat) : Nat := 17408 + 16 * beamStripe a + beamSector a / 8
/-- The segment of a stripe (R272). -/
def segOf (n : Nat) : Nat := n / 256

/-- A slot is out of use: retired, absent, or avoided for reads (R305, R306). -/
def State.slotDown (s : State) (i : Nat) : Bool :=
  s.beam.retired.getLsbD i || ! (s.slot i).present || s.beam.avoided = some i

/-- Commands and LBAs of a record's read: from the LBA of its unit's header sector through its last LBA, in one command
up to 4 LBAs, else in two (R302). -/
def State.readCmds (s : State) (addr : Nat) : Nat × Nat :=
  let k := match s.beam.recs.get none addr with | some r => r.sectors | none => 1
  let first := beamSector addr / 8
  let last := (beamSector addr + k - 1) / 8
  if last < 4 then (1, last + 1) else (2, last - first + 2)

/-! ### The drives' queues (R268) -/

/-- The I/O queue of a priority level: Q1 VAULT, Q2 DEMAND, Q3 BEST, Q4 BACKGROUND. -/
def queueOf (prio : Nat) : Nat := if prio = 0 then 1 else if prio ≤ 2 then 2 else if prio = 3 then 3 else 4

/-- BM_CTL.BG_DEPTH in force. -/
def State.bgDepth (s : State) : Nat := max 1 (fld s.beam.ctl 34 6)

/-- The most commands outstanding in a queue: BG_DEPTH in Q4; PRESUMED (log): a queue of 256 entries holds 255, as NVMe defines it. -/
def State.queueDepth (s : State) (q : Nat) : Nat := if q = 4 then s.bgDepth else 255

/-- Commands outstanding in a queue of a slot. -/
def State.outstanding (s : State) (i q : Nat) : Nat :=
  (s.beam.reads.filter fun r => r.slot = i && ! r.queued && ! r.rebuilt && queueOf r.prio = q).length
    + (s.beam.outs.filter fun o => o.waits.getLsbD i && ! o.held.getLsbD i && queueOf o.prio = q).length

/-- A command that waits for its queue: its level, its arrival, and the read's address or the stripe whose unit it writes. -/
structure Waiter where
  prio : Nat
  since : Nat
  read : Bool
  key : Nat

/-- A command goes before another: the higher level, then the older (R268). -/
def Waiter.before (a b : Waiter) : Bool := decide (a.prio < b.prio) || (a.prio = b.prio && decide (a.since ≤ b.since))

/-- The commands that wait for a queue of a slot. -/
def State.waiters (s : State) (i q : Nat) : List Waiter :=
  (s.beam.reads.filterMap fun r => if r.slot = i && r.queued && queueOf r.prio = q then some ⟨r.prio, r.since, true, r.addr⟩
    else none)
    ++ s.beam.outs.filterMap fun o => if o.held.getLsbD i && queueOf o.prio = q then some ⟨o.prio, o.since, false, o.stripe⟩
      else none

/-- The waiting command that is submitted next. -/
def nextWaiter : List Waiter → Option Waiter
  | [] => none
  | x :: xs => match nextWaiter xs with
    | some y => if x.before y then some x else some y
    | none => some x

/-- Submit a read's commands to its slot. -/
def State.submitRead (s : State) (i addr : Nat) : State :=
  let n := s.readCmds addr
  let s1 := (((s.wake (48 + i)).count (evSlot i 1) n.1).count (evSlot i 7) (4096 * n.2)).emit (.nvme i 0x02)
  { s1 with beam := { s1.beam with reads := s1.beam.reads.map fun r => if r.addr = addr then { r with queued := false } else r } }

/-- Submit the Write of a stripe's unit to its slot. -/
def State.submitUnit (s : State) (i stripe : Nat) : State :=
  let s1 := (((s.wake (48 + i)).count (evSlot i 0) 1).count (evSlot i 6) 65536).emit (.beamUnit stripe i)
  { s1 with beam := { s1.beam with
    outs := s1.beam.outs.map fun o => if o.stripe = stripe then { o with held := putBit o.held i false } else o } }

/-- Submit the next command of a queue of a slot while there is room. -/
def State.submitNext (s : State) (i q : Nat) : State :=
  if s.queueDepth q ≤ s.outstanding i q then s
  else match nextWaiter (s.waiters i q) with
    | some w => if w.read then s.submitRead i w.key else s.submitUnit i w.key
    | none => s

/-- The queues of a slot take what waits for them, in priority order (R268). -/
def State.submit (s : State) (i : Nat) : State :=
  [1, 2, 3, 4].foldl (fun (s : State) q => (s.waiters i q).foldl (fun (s : State) _ => s.submitNext i q) s) s

/-- The queues of every slot. -/
def State.submitAll (s : State) : State := (List.range 8).foldl (fun (s : State) i => s.submit i) s

/-- Read the same LBAs on the other slots in service, to rebuild a unit (R303, R304). -/
def State.readOthers (s : State) (i : Nat) : State :=
  ((List.range 8).filter fun j => j ≠ i && ! s.beam.retired.getLsbD j).foldl
    (fun (s : State) j => (s.count (evSlot j 1) 1).emit (.nvme j 0x02)) s

/-- The cycles after which a read is hedged: HEDGE_US, at least 40, for a GUARANTEED request, twice that for best effort, never
for background work (R303). -/
def State.hedgeCycles (s : State) (prio : Nat) : Nat :=
  let us := max 40 (fld s.beam.ctl 0 10)
  if prio ≤ 2 then us * 2000 else if prio = 3 then us * 4000 else 0

/-- Ask for a beam read of the record at an address (R302): one that is out already runs at the higher of the two levels (R390). A
read whose slot is down is served by reconstruction. From admission stop reads run on Q2 (R348). -/
def State.beamRead (s : State) (addr level : Nat) (gc : Bool) : State :=
  let prio := if s.vlt.stopped then min 2 level else level
  if s.beam.reads.any fun r => r.addr = addr then
    { s with beam := { s.beam with reads := s.beam.reads.map fun r =>
      if r.addr = addr then { r with prio := min r.prio prio, gc := r.gc || gc } else r } }
  else
    let sl := unitSlot (beamStripe addr) (beamUnit addr)
    let down := s.slotDown sl
    let s1 : State := { s with beam := { s.beam with
      reads := s.beam.reads ++ [⟨addr, sl, prio, false, down, false, gc, s.clock, ! down, s.hedgeCycles prio⟩] } }
    if down then s1.readOthers sl else s1.submit sl

/-- A GUARANTEED T3 read takes 4,096 B from its head's BEAM bucket, or runs at priority P3 (R375). -/
def State.beamTokens (s : State) (q : Req) : Nat × State :=
  match q.headOf with
  | none => (3, s)
  | some h =>
    let b := s.budget h
    if q.be then (3, s)
    else if 81920 ≤ b.bm then (1, s.setBudget h { b with bm := b.bm - 81920 })
    else (3, s)

/-- A read uses a subchannel: that of its line (R183), or both where it takes the whole frame. -/
def DramRead.on (x : DramRead) (sub : Nat) : Bool := decide (x.why ≠ .line) || decide (x.line % 2 = sub)

/-- The reads that wait on a subchannel, in order of arrival. -/
def Channel.reads (c : Channel) (sub : Nat) : List DramRead := c.readQ.filter fun x => x.on sub

/-- Room in a channel's read queue for a line's subchannel: 64 entries each (R183, R195). -/
def Channel.readRoom (c : Channel) (line : Nat) : Bool := decide ((c.reads (line % 2)).length < 64)

/-- Queue a DRAM read of a frame. -/
def State.queueRead (s : State) (line frame prio : Nat) (why : DramFor) : State :=
  let m := frameChan frame
  let s1 := (s.wake (16 + m)).modChan m fun c =>
    { c with readQ := c.readQ ++ [⟨s.dram.nextId, line, frame, prio, false, s.clock, why⟩] }
  { s1 with dram := { s1.dram with nextId := s.dram.nextId + 1 } }

/-- Queue a request's DRAM read of its line at its level (R195, R390); the map tile sends it to the channel's tile (R221). -/
def State.dramRead (s : State) (q : Req) (frame : Nat) : State :=
  ((s.ringSend (s.mapTile (pageOf q.line)) (frameChan frame) q.prio).queueRead q.line frame (s.raised q.line q.prio) .line).phase q .dram

/-- Queue the read of a whole frame of a page; none: a subchannel's read queue has no room (R195). -/
def State.pageRead (s : State) (pn frame prio : Nat) (why : DramFor) : Option State :=
  let c := s.chan (frameChan frame)
  if c.readRoom 0 && c.readRoom 1 then some (s.queueRead (pn * 64) frame prio why) else none

/-! ### A fetched line -/

/-- A lower tier has answered: the requester gets the line with write-buffer bytes over it, and a fill places that value where
the policy allocates (R13, R96); an atomic runs on the line once it is placed, or at once where nothing allocates (R103,
R170). -/
def State.fetched (s : State) (line : Nat) (below : LineCell) : State :=
  let c := s.withBuffer line below
  match s.txn line, s.regionAt line with
  | some t, some (rgn, r) =>
    match t.req.kind with
    | .atomic _ _ _ _ => if s.allocates r line then s.phase t.req (.fill c) else s.atomic rgn r t.req c
    | _ =>
      let s1 := s.answer t.req c
      if s1.allocates r line then s1.phase t.req (.fill c) else s1.finish line
  | some _, none => s.finish line
  | none, _ => s

/-- The frame that holds a place, for places in DRAM. -/
def Place.frame : Place → Option Nat
  | .t1 f => some f
  | .t2 sec _ => some (sec / 8)
  | _ => none

/-- The lookup of a line at its page's map tile (R221, R235): held while a transition runs, except that a T3 read is
served from the beam; else routed to the place the entry names. -/
def State.lookup (s : State) (line : Nat) : State :=
  match s.txn line, s.regionAt line with
  | some t, some (_, r) =>
    if t.phase ≠ .lookup then s
    else
      match s.linePlace r line with
      | none => s.fetched line { poison := true }
      | some (pn, place) =>
        let s1 := if t.req.src = .nobody then s else s.modPage pn fun p => p.warmed s.map.epoch
        if (s.unit (pn / 512)).dstate = .unloaded then s1.count (evBeam 11) 1
        else if s.map.rebuilding.contains (pn / 512) then s1
        else
          match place with
          | .zero => if (s.page pn).moving.isSome then s1 else s1.fetched line {}
          | .poison => if (s.page pn).moving.isSome then s1 else s1.fetched line { poison := true }
          | .t3 a =>
            let b := s1.beamTokens t.req
            (b.2.beamRead a b.1 false).phase t.req (.beam a)
          | .t1 f =>
            if (s.page pn).moving.isSome then s1
            else match s1.t1Source f (line % 64) with
              | .t1 g => if (s.chan (frameChan g)).readRoom line then s1.dramRead t.req g else s1
              | .t3 a =>
                let b := s1.beamTokens t.req
                (b.2.beamRead a b.1 false).phase t.req (.beam a)
              | _ => s1.fetched line {}
          | .t2 sec _ =>
            if (s.page pn).moving.isSome || ! (s.chan (frameChan (sec / 8))).readRoom line then s1
            else s1.dramRead t.req (sec / 8)
  | some t, none => if t.phase = .lookup then s.fetched line { poison := true } else s
  | none, _ => s

/-- Put a pair into a list that the second parts order, after its equals. -/
def insertBy (x : Nat × Nat) : List (Nat × Nat) → List (Nat × Nat)
  | [] => [x]
  | y :: ys => if x.2 < y.2 then x :: y :: ys else y :: insertBy x ys

/-- Lines of open transactions whose lookup waits on a page, in order of arrival (R235). -/
def State.waitingOn (s : State) (pn : Nat) : List Nat :=
  let mine := s.coh.txns.filterMap fun e =>
    match e.2 with
    | some t =>
      if t.phase = .lookup && ((s.regionFor t.req).bind fun x => (s.linePlace x.2 e.1).map Prod.fst) = some pn then
        some (e.1, t.since)
      else none
    | none => none
  (mine.foldl (fun l x => insertBy x l) []).map Prod.fst

/-- The level of an access made for a page's entry, whose own level is given: raised to that of the highest lookup that the entry
holds, and, where the page is not in T1, of the write-buffer entries that wait for it (R390). -/
def State.pageLevel (s : State) (pn own : Nat) : Nat :=
  let es : List WbEntry := match (s.page pn).place with
    | .t1 _ => []
    | _ => s.near.wb.filter fun e => pageOf e.line = pn
  es.foldl (fun m e => min m e.prio) ((s.waitingOn pn).foldl (fun m l =>
    match s.txn l with
    | some t => min m (s.raised l t.req.prio)
    | none => m) own)

/-- Release the lookups held for a page, in order of arrival (R235). -/
def State.releaseLookups (s : State) (pn : Nat) : State := (s.waitingOn pn).foldl (fun s l => s.lookup l) s

/-! ### Fills and evictions -/

/-- A line that a fill placed in a WB or LK region has the bytes of its entries that are not draining: D is set and the
entries are released (R103). Entries from before a swatch cut drain (R257). -/
def State.absorb (s : State) (rgn : Nat) (r : Region) (line tile w : Nat) : State :=
  let es := s.near.wb.filter fun e => e.line = line && ! e.draining && ! e.spill && e.gen = (s.gen rgn).gen
  if decide (r.wpol < 2) || es.isEmpty then s
  else
    es.foldl (fun s e => s.dropEntry e.id)
      (s.setWay tile (ncSet line) w { s.way tile (ncSet line) w with d := true })

/-- PROT at fill (R111). -/
def State.protAtFill (s : State) (r : Region) (line : Nat) : Bool :=
  (r.thint = 1 && flag s.near.ctl 20) || ((s.page (pageOf line)).pin && flag s.near.ctl 21)

/-- Place a fetched line in a way (R107 to R111). A dirty victim, or one lent to this tile, is left to its writeback
or hand-off first (R105, R168); with no candidate the line is served without allocation (R109). -/
def State.fill (s : State) (line : Nat) : State :=
  match s.txn line, s.regionAt line with
  | some t, some (rgn, r) =>
    match t.phase with
    | .fill c =>
      let tile := s.ownerTile line
      let set := ncSet line
      let lk := decide (r.wpol = 3)
      match s.victim tile set lk with
      | none =>
        let s1 := s.count (evTile tile 2) 1
        match t.req.kind with
        | .atomic _ _ _ _ => s1.atomic rgn r t.req c
        | _ => s1.finish line
      | some w =>
        let v := s.way tile set w
        let vl := ncLine set v.tag
        if v.v && (v.d || s.ownerTile vl ≠ s.homeTile vl) then s.setWay tile set w { v with evicting := true }
        else
          let x : NcWay :=
            { v := true, tag := ncTag line, poison := c.poison, dur := r.durable, data := c.data }
          let s1 := (s.setWay tile set w x).touch tile set w
          let s2 := (if s1.protAtFill r line then s1.protect tile set w else s1).trimProt tile set w 16
          let s3 := s2.absorb rgn r line tile w
          match t.req.kind with
          | .atomic _ _ _ _ => s3.atomic rgn r t.req c
          | _ => s3.finish line
    | _ => s
  | some t, none => match t.phase with
    | .fill _ => s.finish line
    | _ => s
  | none, _ => s

/-- Write a near-cache line back to its page's frame (R105): the page must be in T1. -/
def State.writeBack (s : State) (line : Nat) (c : LineCell) : Option State :=
  match (s.page (pageOf line)).place with
  | .t1 f => if s.frameLive f then some (s.setCell f (line % 64) c) else none
  | _ => none

/-- An evicted line's writeback is confirmed and its way is released (R105). -/
def State.evicted (s : State) (line : Nat) : State :=
  let tile := s.ownerTile line
  match s.findWay tile line with
  | none => s
  | some w =>
    let x := s.way tile (ncSet line) w
    if ! x.evicting || ! x.d then s
    else match s.writeBack line x.cell with
      | some s1 =>
        if s.ownerTile line = s.homeTile line then s1.setWay tile (ncSet line) w {}
        else s1.setWay tile (ncSet line) w { x with d := false }
      | none => s

/-! ### Drains (R98, R99, R186 to R190, R197, R212) -/

/-- The channel a new twin frame comes from (R188): the partner channel, else the first channel upward from the one
after it that is in service, is not the primary's, and holds reserve. -/
def State.twinChan (s : State) (prim : Nat) : Option Nat :=
  let p := s.partnerCh prim
  (p :: (List.range 16).map fun i => (p + 1 + i) % 16).find? fun c =>
    c ≠ prim && ! (s.chan c).retired && (s.chan c).inService && decide (0 < (s.chan c).twinRsv)

/-- A frame may serve as a new twin of a page whose primary lies on channel prim. -/
def State.twinOk (s : State) (prim f : Nat) : Bool := s.frameFree f && s.twinChan prim = some (frameChan f)

/-- Take a frame from its channel's reserve as a twin frame of a page. -/
def State.takeTwin (s : State) (pn f : Nat) : State :=
  let m := frameChan f
  let s1 := (s.count (evChan m 6) 1).modChan m fun c => { c with twinRsv := c.twinRsv - 1 }
  { s1 with dram := { s1.dram with frames := s1.dram.frames.set .free f (.twin pn) } }

/-- WQ_HI and WQ_LO in force (DRM_CTL). -/
def State.wqHi (s : State) : Nat :=
  let v := fld s.dram.ctl 24 7
  if v = 0 || v > 64 then 64 else v
/-- See wqHi. -/
def State.wqLo (s : State) : Nat := if fld s.dram.ctl 32 7 < s.wqHi then fld s.dram.ctl 32 7 else s.wqHi - 1

/-- Queued writes of a subchannel. -/
def Channel.writesOn (c : Channel) (sub : Nat) : Nat := (c.writeQ.filter fun x => x.idx % 2 = sub).length

/-- The write-drain mode of a subchannel after its queue changed (R197). -/
def drainMode (hi lo n : Nat) (was : Bool) : Bool := if hi ≤ n then true else if n ≤ lo then false else was

/-- Set the write-drain modes of a channel, counting entries into the mode. -/
def State.drainModes (s : State) (m : Nat) : State :=
  let c := s.chan m
  let a := drainMode s.wqHi s.wqLo (c.writesOn 0) c.drainA
  let b := drainMode s.wqHi s.wqLo (c.writesOn 1) c.drainB
  let n := (if a && ! c.drainA then 1 else 0) + (if b && ! c.drainB then 1 else 0)
  (s.modChan m fun c => { c with drainA := a, drainB := b }).count (evChan m 3) n

/-- Queue a write of a line into a frame. -/
def State.queueWrite (s : State) (f idx : Nat) (c : LineCell) (mask : Mask) (whole : Bool) (entry : Option Nat) (prio : Nat) :
    State :=
  let m := frameChan f
  let s1 := (s.wake (16 + m)).modChan m fun ch =>
    { ch with writeQ := ch.writeQ ++ [⟨s.dram.nextId, f, idx, c, mask, entry, prio, 0, false, whole, s.clock⟩] }
  ({ s1 with dram := { s1.dram with nextId := s.dram.nextId + 1 } }).drainModes m

/-- Frames a drain of a DURABLE page writes: the primary and the twin, those of them that lie on live channels. -/
def State.copies (s : State) (p : PageEntry) : List Nat :=
  ((match p.place with | .t1 f => [f] | _ => []) ++ p.twin.toList ++ p.twin2.toList).filter fun f => s.frameLive f

/-- The entry may start to drain: it is not draining, is confirmed by its buddy, is the oldest of its line, its page is
in T1 and at rest, and no MARK of the page is on its way (R98, R186, R244, R258). -/
def State.drainable (s : State) (e : WbEntry) : Bool :=
  let pn := pageOf e.line
  let p := s.page pn
  ! e.draining && e.confirmed && ! e.spill && p.moving.isNone && (match p.place with | .t1 _ => true | _ => false)
    && ! (s.map.marks.any fun m => m.pn = pn && m.gen = e.gen)
    && ((s.near.wb.find? fun x => x.line = e.line).map fun x => x.id) = some e.id

/-- The channel of a page's primary frame, also when it is retired. -/
def PageEntry.primCh (p : PageEntry) : Nat := match p.place with | .t1 f => frameChan f | _ => 0

/-- The level of an entry's drain (R195): P0 in a flush, else the level of the requests it holds, or of a seal that waits for it
(R386, R390). -/
def State.drainLevel (s : State) (e : WbEntry) : Nat :=
  if s.vlt.stopped then 0 else if s.rng.seals.any fun x => x.entries.contains e.id then min 1 e.prio else e.prio

/-- An entry would be the 65,537th marked SPILL (R321): seals that wait for its page, or for it, end with DURABILITY_LOST. -/
def State.excessSpill (s : State) (e : WbEntry) : State :=
  let hit (x : Seal) : Bool := x.entries.contains e.id || x.pages.contains (pageOf e.line)
  { s with rng := { s.rng with seals := s.rng.seals.map fun x => if hit x then { x with lost := true } else x } }

/-- Start an entry's drain (R99): two copies for a DURABLE region, allocating the twin frame where one is missing, one
copy for a VOLATILE region. Where no channel can take a second copy the entry is marked SPILL (R321). -/
def State.drain (s : State) (e : WbEntry) (twin : Nat) : State :=
  let pn := pageOf e.line
  let p := s.page pn
  let need := if e.durable then 2 else 1
  let have_ := (s.copies p).take need
  let add := if have_.length < need && e.durable && s.twinOk p.primCh twin then [twin] else []
  let mark (s : State) (left : Nat) (spill : Bool) : State :=
    { s with near := { s.near with wb := s.near.wb.map fun x =>
        if x.id = e.id then { x with draining := ! spill, left := left, spill := spill } else x } }
  if have_.length + add.length < need then
    if (s.twinChan p.primCh).isNone then
      if (s.near.wb.filter fun x => x.spill).length < 65536 then mark s 0 true else s.excessSpill e
    else s
  else
    let s1 := add.foldl (fun s f => (s.takeTwin pn f).modPage pn fun p =>
      match p.twin with
      | some t => if s.frameLive t then { p with twin2 := some f, lines2 := 0 } else { p with twin := some f, lines := 0 }
      | none => { p with twin := some f, lines := 0 }) s
    let fs := have_ ++ add
    if fs.all fun f => decide ((s1.chan (frameChan f)).writesOn (e.line % 2) < 64) then
      let c : LineCell := { data := e.data, poison := e.poison }
      fs.foldl (fun s f => s.queueWrite f (e.line % 64) c e.mask e.whole (some e.id) (s.drainLevel e))
        (mark s1 fs.length false)
    else s

/-- Take a queued write out of a channel. -/
def State.unqueue (s : State) (m id : Nat) : State :=
  (s.modChan m fun c => { c with writeQ := c.writeQ.filter fun x => x.id ≠ id }).drainModes m

/-- The page that a frame serves, and whether it is its twin. -/
def State.frameOwner (s : State) (f : Nat) : Option (Nat × Bool) :=
  match s.frameUse f with
  | .t1 p none => some (p, false)
  | .twin p => some (p, true)
  | _ => none

/-- The line that a write's bytes are laid over: the frame's own, or for a twin frame that does not hold the line yet the one in
the page's primary frame or beam copy (R189, R190). -/
def State.landBase (s : State) (w : DramWrite) : LineCell :=
  match s.frameUse w.frame with
  | .twin pn =>
    let p := s.page pn
    let held := if p.twin2 = some w.frame then p.lines2.getLsbD w.idx else p.lines.getLsbD w.idx
    if held then s.cell w.frame w.idx else s.placeLine p.place w.idx
  | _ => s.cell w.frame w.idx

/-- A write has landed: the line is in the frame, and a twin frame's LINES bit is set (R189). -/
def State.landed (s : State) (w : DramWrite) (poison : Bool) : State :=
  let s1 := s.setCell w.frame w.idx ((s.landBase w).lay w.cell.data w.mask (w.cell.poison || poison) w.whole)
  match s1.frameUse w.frame with
  | .twin pn => s1.modPage pn fun p =>
      let m : Mask := BitVec.ofNat 64 (2 ^ w.idx)
      if p.twin2 = some w.frame then { p with lines2 := p.lines2 ||| m } else { p with lines := p.lines ||| m }
  | _ => s1

/-- One drain write of an entry is done with; with none left the entry and its buddy copy are released (R99). -/
def State.entryWritten (s : State) (id : Nat) : State :=
  match s.near.wb.find? fun e => e.id = id with
  | none => s
  | some e =>
    if e.left ≤ 1 then (s.dropEntry id).completeEntry e
    else { s with near := { s.near with wb := s.near.wb.map fun x =>
      if x.id = id then { x with left := x.left - 1 } else x } }

end Sys2Proof.Machine
end

