-- ==== Sys2Proof/Machine/Seals.lean ====
section
/-! DEFINITION. The progress of pending seals (R314 to R322). A seal with a ring number of 65536 + h is the level-1 seal
of GPF Phase 2 on head h (R79). -/
namespace Sys2Proof.Machine

/-- Requests that have passed their checks at a port and are not yet answered. -/
def State.openReqs (s : State) : List Req :=
  (s.near.wbRetry.map Prod.snd) ++ (s.coh.sfWait.map Prod.snd) ++ (s.coh.retry.map Prod.snd) ++ s.coh.recHeld
    ++ (s.coh.txns.map fun e => match e.2 with
      | some t => if t.phase = .done then t.queue else t.req :: t.queue
      | none => []).flatten
    ++ (s.coh.handoff.map fun e => match e.2 with | some x => x.held ++ x.pending | none => []).flatten

/-- Writes that have passed their checks at a port and are not yet accepted. -/
def State.queuedWrites (s : State) : List Req := s.openReqs.filter fun q => q.writes

/-- Every write the seal waits on has its buddy copy confirmed, or has left the buffer (R316). -/
def State.sealProtected (s : State) (x : Seal) : Bool :=
  x.tiles = 0 && ! (s.near.wb.any fun e => x.entries.contains e.id && ! e.confirmed)
    && ! (s.queuedWrites.any fun q => x.reqs.contains q.ident)
    && ! (s.near.wb.any fun e => e.waiters.any fun w => x.reqs.contains w)

/-- The seal's level is reached (R316 to R318). -/
def State.sealReached (s : State) (x : Seal) : Bool :=
  if x.level = 3 then
    x.tiles = 0 && x.pages.isEmpty
      && (match x.cseq, s.beam.commit with
        | some n, some c => decide (n ≤ c.cseq)
        | _, _ => false)
  else s.sealProtected x && (x.level ≠ 2 || x.noMirror || x.mwrs.isEmpty)

/-- The status a seal completes with (R319), the first case that applies. -/
def State.sealStatus (s : State) (x : Seal) : Nat :=
  if x.lost then 0x05
  else if x.mirrorLost then 0x06
  else if x.level ≠ 3 && (s.rsv.health ≠ 0 || (x.level = 2 && ! x.noMirror && ! x.health)) then 0x07
  else if x.noMirror then 0x08
  else 0x00

/-- Record a descriptor's end; its completion is written by COMPLETION_WRITE. -/
def State.endDescriptor (s : State) (r status : Nat) (f : Active → Active) : State :=
  s.modAct r fun a => if a.status.isNone then f { a with status := some status } else a

/-- A seal ended with DURABILITY_LOST sets DLOST in its region (R322). -/
def State.loseDurability (s : State) (rgn : Nat) : State :=
  (s.modRegion rgn fun r => { r with dlost := true }).note ⟨2, 0x22, rgn, none⟩

/-- Complete one seal: a ring's descriptor ends, or GPF Phase 2 is answered. -/
def State.completeSeal (s : State) (x : Seal) : State :=
  let s1 : State := { s with rng := { s.rng with seals := s.rng.seals.filter fun y => y ≠ x } }
  let s2 := if x.lost && ! (s1.region x.region).dlost then s1.loseDurability x.region else s1
  if 65536 ≤ x.ring then s2.emitTo (x.ring - 65536) (.gpfDone (x.ring - 65536) 2)
  else s2.endDescriptor x.ring (s2.sealStatus x) fun a =>
    { a with result := if x.level = 3 then atBit x.count 0 else 0 }

/-- Complete every seal whose level is reached or lost. From commit until the flush has written its commit record no
seal completes (R320). -/
def State.checkSeals (s : State) : State :=
  if s.vlt.stopped then s
  else s.rng.seals.foldl (fun s x =>
    if s.sealReached x || x.lost || x.mirrorLost then s.completeSeal x else s) s

/-- A clean of a page ended; again: the page stayed dirty. A clean that began before a seal's sync counts for it only
where the page is clean now. A level-3 seal with no page left waits for the next commit record (R318). -/
def State.sealCleaned (s : State) (pn : Nat) (again : Bool) : State :=
  { s with rng := { s.rng with seals := s.rng.seals.map fun x =>
      let wait := again && x.early.contains pn
      let ps := if wait then x.pages else x.pages.filter fun p => p ≠ pn
      let y : Seal := { x with pages := ps, early := x.early.filter fun p => p ≠ pn }
      if x.level = 3 && x.tiles = 0 && ps.isEmpty && x.cseq.isNone then { y with cseq := some (s.beam.cseq + 1) }
      else y } }

end Sys2Proof.Machine
end

