-- ==== Sys2Proof/Machine/Traffic.lean ====
section
/-! DEFINITION. CXL.mem requests and the steps they cause inside the tiles: the meanings of the table's rows from
MEM_RD to GPF_PHASE2 (chapters 01, 03, 04, 05). -/
namespace Sys2Proof.Machine

/-- The kind of a read by its MetaValue (R153). -/
def readKind : Meta → ReqKind
  | .noOp | .invalid => .rdCur
  | .shared => .rdShared
  | .any => .rdOwn

/-- The kind of a MemRdData: R153 lists no RD_OWN form of it, so MetaValue Any reads as the current value. -/
def readDataKind : Meta → ReqKind
  | .shared => .rdShared
  | _ => .rdCur

/-- The kind of a write (R153): through an HDM-H decoder always WR_I. DESIGN CHOICE (log): the table names no kind for a write
through an HDM-DB decoder with MetaValue Any or MetaField No-Op; it is taken as WR_I. -/
def writeKind (db : Bool) : Meta → ReqKind
  | .shared => if db then .wrS else .wrI
  | _ => .wrI

/-- A write is decoded at a port: a recalled writeback goes to its owner tile whatever holds other writes (R78, R157), any
other write is dispatched. -/
def State.decodeWrite (s : State) (h tag hpa : Nat) (mv : Meta) (data : Line) (mask : Mask) (poison : Bool) : State :=
  let s := s.unquiet h
  match s.decoderOf h hpa with
  | none => s.deny h tag 0xFFF (Config.unmappedDpa hpa) 0 false
  | some d =>
    let line := d.toDpa hpa / 64
    match s.regionOf line with
    | none => s.deny h tag 0xFFF (d.toDpa hpa) 0 false
    | some (rgn, r) =>
      let q : Req := { src := .head h tag, kind := writeKind d.db mv, line := line, data := data, mask := mask, poison := poison }
      if (s.head h).link.closed || r.refuses h true d.db || (s.slvRgn rgn).held then s.deny h tag rgn (d.toDpa hpa) 0 false
      else if r.window = 1 && (s.ring (line - r.base * 32768)).owner ≠ h then
        s.deny h tag rgn (d.toDpa hpa) 4 false
      else if s.snooped h line && ! s.vlt.stopped then
        ((s.sendProbe (h / 2 * 2) q).pullOn q).writeback rgn r { q with reg := some (rgn, r) }
      else s.dispatch h rgn r q

/-- The write is a recalled writeback: a BISnp of its line to the head is outstanding (R157). -/
def State.recalledArrival (s : State) (h hpa : Nat) : Bool :=
  match s.decoderOf h hpa with
  | some d => s.snooped h (d.toDpa hpa / 64)
  | none => false

/-- A write uses an RwD credit (R78): while its head is withheld, and during a flush, the credit is kept back, and a write that finds
none waits with those before it. A recalled writeback uses the credit that its BISnp gave back. -/
def State.creditWrite (s : State) (h : Nat) (a : Arrival) : State :=
  if ! s.keepsCredit h then s.decodeWrite h a.tag a.hpa a.mv a.data a.mask a.poison
  else if ! s.recalledArrival h a.hpa && (rwdGranted h ≤ (s.head h).kept || ! (s.head h).waitQ.isEmpty) then
    s.modHead h fun x => { x with waitQ := x.waitQ ++ [a] }
  else (s.modHead h fun x => { x with kept := x.kept + 1 }).decodeWrite h a.tag a.hpa a.mv a.data a.mask a.poison

/-- A write arrives at a head's port; while the link is in Recovery it waits (R82). -/
def State.headWrite (s : State) (h tag hpa : Nat) (mv : Meta) (data : Line) (mask : Mask) (poison : Bool) : State :=
  let a : Arrival := { tag := tag, hpa := hpa, write := true, mv := mv, data := data, mask := mask, poison := poison }
  if ! s.linkUp h || s.flt.fatal.isSome then s
  else if (s.head h).link.recovery then s.modHead h fun x => { x with inQ := x.inQ ++ [a] }
  else s.creditWrite h a

/-- Decode requests that waited, in order. -/
def State.decodeAll (s : State) (h : Nat) (l : List Arrival) : State :=
  l.foldl (fun (s : State) a => if a.write then s.creditWrite h a else s.decodeReq h a.tag a.hpa a.kind) s

/-- A head's link is in L0 again (R82): the messages that waited leave, and the requests that waited are decoded in order. -/
def State.endRecovery (s : State) (h : Nat) : State :=
  ((s.flushOut h).modHead h fun x => { x with inQ := [] }).decodeAll h (s.head h).inQ

/-- A head's credits are no longer kept back (R78): they are returned, and the writes that waited go on. -/
def State.returnCredits (s : State) (h : Nat) : State :=
  if s.keepsCredit h || ((s.head h).kept = 0 && (s.head h).waitQ.isEmpty) || (s.head h).link.recovery then s
  else (s.modHead h fun x => { x with kept := 0, waitQ := [] }).decodeAll h (s.head h).waitQ

/-- MEM_RD (R153): RD_CUR, RD_SHARED or RD_OWN by its MetaValue. -/
def execMemRd (h tag hpa : Nat) (mv : Meta) (s : State) : Host.Outcome State Fault Refusal :=
  run (fun s => s.headReq h tag hpa (readKind mv)) s

/-- MEM_RD_DATA (R153): RD_CUR or RD_SHARED. -/
def execMemRdData (h tag hpa : Nat) (mv : Meta) (s : State) : Host.Outcome State Fault Refusal :=
  run (fun s => s.headReq h tag hpa (readDataKind mv)) s

/-- MEM_INV (R153): OWN_NODATA; no data is returned. -/
def execMemInv (h tag hpa : Nat) (s : State) : Host.Outcome State Fault Refusal :=
  run (fun s => s.headReq h tag hpa .ownNoData) s

/-- MEM_WR (R19, R153): all 64 bytes. -/
def execMemWr (h tag hpa : Nat) (mv : Meta) (data : Line) (poison : Bool) (s : State) :
    Host.Outcome State Fault Refusal :=
  run (fun s => s.headWrite h tag hpa mv data fullMask poison) s

/-- MEM_WR_PTL (R19, R153): the bytes of the mask. -/
def execMemWrPtl (h tag hpa : Nat) (mv : Meta) (data : Line) (mask : Mask) (poison : Bool) (s : State) :
    Host.Outcome State Fault Refusal :=
  run (fun s => s.headWrite h tag hpa mv data mask poison) s

/-- MEM_CLN_EVCT (R153): EVICT. -/
def execMemClnEvct (h tag hpa : Nat) (s : State) : Host.Outcome State Fault Refusal :=
  run (fun s => s.headReq h tag hpa .evict) s

/-- MEM_SPEC_RD (R153): discarded; nothing is returned. -/
def execMemSpecRd (h _hpa : Nat) (s : State) : Host.Outcome State Fault Refusal :=
  run (fun s => s.when (s.memOn h) fun s => s.unquiet h) s

/-- BIRSP_I (R155). -/
def execBirspI (h line : Nat) (s : State) : Host.Outcome State Fault Refusal :=
  run (fun s => s.birsp h line .i) s

/-- BIRSP_S (R155). -/
def execBirspS (h line : Nat) (s : State) : Host.Outcome State Fault Refusal :=
  run (fun s => s.birsp h line .s) s

/-- BIRSP_E (R155): counts only in answer to BISnpCur. -/
def execBirspE (h line : Nat) (s : State) : Host.Outcome State Fault Refusal :=
  run (fun s => s.birsp h line .e) s

/-- BICONFLICT (R155): acknowledged at once, or after the completion of an earlier write of the head to the line that still
waits for its buddy. Any other request of the head taken ahead of the BISnp has had its response by then: a BISnp of the line
is sent only by the transaction open on it (R157, R158). -/
def execBiConflict (h line : Nat) (s : State) : Host.Outcome State Fault Refusal :=
  run (fun s => s.when (s.snooped h line) fun s =>
    if s.responseDue h line then { s with coh := { s.coh with conflicts := s.coh.conflicts ++ [(h, line)] } }
    else s.emitTo h (.biConflictAck h line)) s

/-- RECALLED_WRITEBACK (R157): a write from a head to which a BISnp of the line is outstanding. -/
def execRecalledWriteback (h tag hpa : Nat) (mv : Meta) (data : Line) (mask : Mask) (poison : Bool) (s : State) :
    Host.Outcome State Fault Refusal :=
  run (fun s => s.when (s.recalledArrival h hpa) fun s =>
    s.headWrite h tag hpa mv data mask poison) s

/-- Requests that a tile held reach the owner tile, in order. -/
def State.takeAll (s : State) (qs : List Req) : State := qs.foldl (fun s q => s.take q) s

/-- Requests taken before start or queue again, in order, once their line's transaction has closed. -/
def State.enterAll (s : State) (qs : List Req) : State := qs.foldl (fun s q => s.enter q) s

/-- The transaction's response has been sent (R157): none is owed, or its completion no longer waits for a buddy. -/
def State.paid (s : State) (line : Nat) (t : Txn) : Bool :=
  ! (s.near.wb.any fun e => e.line = line && e.waiters.any fun w => t.owes.contains w)

/-- OPEN_TXN_CLOSE (R157): the answered transaction closes and the requests behind it are taken in order. -/
def execOpenTxnClose (line : Nat) (s : State) : Host.Outcome State Fault Refusal :=
  run (fun s =>
    match s.txn line with
    | some t => if t.phase = .done && s.paid line t then (s.setTxn line none).enterAll t.queue else s
    | none => s) s

/-- The request finds a way for the entry that it needs, or needs none (R150 to R152). -/
def State.sfRoom (s : State) (tile : Nat) (q : Req) : Bool :=
  ! q.needsEntry || (s.findSf tile q.line).isSome || (s.freeSf tile (sfSet q.line)).isSome
    || (s.sfVictim tile (sfSet q.line)).isSome

/-- The recalls of the request, or of the victim it needs, stay within R337. -/
def State.recallRoom (s : State) (q : Req) : Bool :=
  match s.regionFor q with
  | none => true
  | some (_, r) =>
    let tile := s.ownerTile q.line
    let set := sfSet q.line
    let v := s.cohView r q.line
    if r.coh = 1 && q.needsEntry && (s.findSf tile q.line).isNone && (s.freeSf tile set).isNone then
      (s.sfVictim tile set).all fun w => s.snoopRoom (s.victimHolders tile set w)
    else s.snoopRoom (q.recall v.1 v.2).2

/-- SF_RETRY_QUEUE_RETRY (R152): the oldest request that waits on a set of a tile is tried again; one whose line has an earlier
request waiting for a victim's way goes on waiting (R144). -/
def execSfRetryQueueRetry (tile set : Nat) (s : State) : Host.Outcome State Fault Refusal :=
  run (fun s =>
    match s.coh.retry.find? fun e => e.1 = tile && sfSet e.2.line = set with
    | none => s
    | some e =>
      if ! s.sfRoom tile e.2 || ! s.recallRoom e.2 || s.coh.sfWait.any fun x => x.2.line = e.2.line then s
      else ({ s with coh := { s.coh with retry := s.coh.retry.erase e } } : State).begin e.2) s

/-- SF_VICTIM_FREE (R151): with the last BIRsp in and every writeback accepted, the victim's entry is freed and its
way goes to the waiting request. -/
def execSfVictimFree (line : Nat) (s : State) : Host.Outcome State Fault Refusal :=
  run (fun s =>
    match s.txn line with
    | some t =>
      if t.phase = .victim && t.waits = 0 && ! (s.near.wbRetry.any fun e => e.2.line = line) then
        let s1 := (s.recordSf line .none 0).setTxn line none
        let mine := s1.coh.sfWait.filter fun e => e.1 = line
        let s2 : State := { s1 with coh := { s1.coh with sfWait := s1.coh.sfWait.filter fun e => e.1 ≠ line } }
        (mine.foldl (fun (s : State) e => s.begin e.2) s2).enterAll t.queue
      else s
    | none => s) s

/-- BUDDY_CONFIRM (R19, R97): the buddy of an entry confirms; the completions that waited for it leave, and seals
that waited for it may complete (R316). -/
def execBuddyConfirm (tile id : Nat) (s : State) : Host.Outcome State Fault Refusal :=
  run (fun s =>
    match s.near.wb.find? fun e => e.id = id && e.tile = tile with
    | some e =>
      if e.confirmed then s
      else
        let s1 : State := { s with near := { s.near with wb := s.near.wb.map fun x =>
          if x.id = id then { x with confirmed := true, waiters := [] } else x } }
        (s1.completeEntry e).checkSeals
    | none => s) s

/-- WB_ENTRY_DRAIN (R99): an entry starts to drain; twin names the free frame to take where the page needs a twin. -/
def execWbEntryDrain (tile id twin : Nat) (s : State) : Host.Outcome State Fault Refusal :=
  run (fun s =>
    match s.near.wb.find? fun e => e.id = id && e.tile = tile with
    | some e => s.when (s.drainable e) fun s => s.drain e twin
    | none => s) s

/-- NC_FILL_COMPLETE (R103 to R111): a fetched line is placed. -/
def execNcFillComplete (line : Nat) (s : State) : Host.Outcome State Fault Refusal := run (fun s => s.fill line) s

/-- NC_EVICT_WRITEBACK_CONFIRM (R105). -/
def execNcEvictWritebackConfirm (line : Nat) (s : State) : Host.Outcome State Fault Refusal :=
  run (fun s => s.evicted line) s

/-- WB_RETRY_QUEUE_RETRY (R100). -/
def execWbRetryQueueRetry (tile : Nat) (s : State) : Host.Outcome State Fault Refusal :=
  run (fun s => s.retryWrites tile) s

/-- GPF_PHASE1 (R79): answered at once. -/
def execGpfPhase1 (h : Nat) (s : State) : Host.Outcome State Fault Refusal :=
  run (fun s => s.when (s.memOn h) fun s => s.emit (.gpfDone h 1)) s

/-- GPF_PHASE2 (R79): a level-1 seal over every DURABLE region where the head has READ_WRITE rights. -/
def execGpfPhase2 (h : Nat) (s : State) : Host.Outcome State Fault Refusal :=
  run (fun s => s.when (s.memOn h) fun s =>
    let mine := s.near.wb.filter fun e =>
      e.durable && (s.region e.region).mayWrite h && ! e.confirmed
    let x : Seal :=
      { ring := 65536 + h, level := 1, region := 0, lo := 0, hi := 0, entries := mine.map fun e => e.id
        reqs := (s.queuedWrites.filter fun q => ((s.regionOf q.line).map fun e => e.2.durable && e.2.mayWrite h) = some true).map
          fun q => q.ident }
    ({ s with rng := { s.rng with seals := s.rng.seals ++ [x] } } : State).checkSeals) s

end Sys2Proof.Machine
end

