-- ==== Sys2Proof/Machine/Ownership.lean ====
section
/-! DEFINITION. Ownership of lines in NATIVE regions: probes, offers and hand-offs (R160 to R168), the end of the
retired-home fallback (R176) and the retirement of a snoop-filter way (R177). -/
namespace Sys2Proof.Machine

/-- The hand-off record of a line. -/
def State.handOff (s : State) (line : Nat) : Option HandOff := s.coh.handoff.get none line

/-- Set or remove the hand-off record of a line. -/
def State.setHandOff (s : State) (line : Nat) (x : Option HandOff) : State :=
  { s with coh := { s.coh with handoff := s.coh.handoff.set none line x } }

/-- Record who owns a line: none means the home tile. -/
def State.setLent (s : State) (line : Nat) (t : Option Nat) : State :=
  { s with coh := { s.coh with lent := s.coh.lent.set none line t } }

/-- Record who owns a line, and since when (R164). -/
def State.ownedBy (s : State) (line : Nat) (t : Option Nat) : State :=
  { s.setLent line t with coh := { (s.setLent line t).coh with ownerSince := s.coh.ownerSince.set 0 line s.clock } }

/-- A line's snoop-filter entry, in way sfw of one tile, moves to an unused way of its home tile. -/
def State.moveSf (s : State) (line o : Nat) (sfw room : Option Nat) : State :=
  match sfw, room with
  | some w, some v =>
    (s.setSf o (sfSet line) w {}).setSf (s.homeTile line) (sfSet line) v (s.sfWay o (sfSet line) w)
  | _, _ => s

/-- A settling tile records the identity of a probe that it takes (R162). -/
def State.recordId (s : State) (tile line : Nat) (id : Nat × Nat) : State :=
  match s.handOff line with
  | some x => if x.settling && tile = x.dst then s.setHandOff line (some { x with ids := x.ids ++ [id] }) else s
  | none => s

/-- PROBE (R160, R162): a copy of a probe meets a tile; the probe of a region that is not broadcast reaches its home tile
alone. The action is shown; a settling tile records the identity it takes; a probe that was held for a recovery and finds its
tile ready is taken. -/
def execProbe (tile h tag line : Nat) (s : State) : Host.Outcome State Fault Refusal :=
  run (fun s => s.when (decide (tile < 16) && (s.probeWide line || tile = s.homeTile line)) fun s =>
    let act := s.probeAct tile line (h, tag)
    let s1 := s.emit (.probe tile act)
    match act with
    | .forward => s1.count (evTile tile 5) 1
    | .take =>
      match s1.coh.recHeld.find? fun q => q.ident = (h, tag) && q.line = line with
      | some q =>
        if s1.coh.recovering = 0 then
          ({ s1 with coh := { s1.coh with recHeld := s1.coh.recHeld.erase q } } : State).route q
        else s1
      | none => s1.recordId tile line (h, tag)
    | _ => s1) s

/-- Hand-off records of a tile: 64 (R161). -/
def State.recordRoom (s : State) (tile : Nat) : Bool :=
  decide ((s.coh.handoff.filter fun e => match e.2 with
    | some x => (x.src = tile && (x.leaving || x.gone)) || (x.dst = tile && (x.arriving || x.settling))
    | none => false).length < 64)

/-- The lent set of a line's home tile has an unused way (R161, R164). -/
def State.lentRoom (s : State) (line : Nat) : Bool :=
  let home := s.homeTile line
  decide ((s.coh.lent.filter fun x =>
    Config.lentSet x.1 % 16384 = Config.lentSet line % 16384 && s.homeTile x.1 = home).length < 8)

/-- The conditions of R164 for offering a line to a tile. -/
def State.offerOk (s : State) (line target : Nat) : Bool :=
  let o := s.ownerTile line
  let home := s.homeTile line
  let e := s.coh.pull.get {} line
  let thresh := if fld s.coh.ctl 1 3 = 0 then 1 else fld s.coh.ctl 1 3
  flag s.coh.ctl 0
    && (match s.regionOf line, s.findWay o line with
      | some (_, r), some w => r.native && ! (s.way o (ncSet line) w).lock
      | _, _ => false)
    && decide (target = 2 * e.port) && decide (thresh ≤ e.streak) && target ≠ o && ! s.tileRetired target
    && ! s.lineOpen line && ! (s.near.wb.any fun x => x.line = line)
    && decide (s.coh.ownerSince.get 0 line + 4000 ≤ s.clock)
    && (s.coh.refusedAt.get 0 line = 0 || decide (s.coh.refusedAt.get 0 line + 4000 ≤ s.clock))
    && (o ≠ home || s.lentRoom line)
    && ! (s.near.maint.any fun m => m.covers line) && s.recordRoom o

/-- The level of a hand-off's messages: P4 (R386), raised to that of the requests that its tiles hold (R390). -/
def State.handLevel (s : State) (line : Nat) : Nat :=
  match s.handOff line with
  | some x => topLevel 4 (x.held ++ x.pending)
  | none => 4

/-- Send a message of a hand-off over the warp ring (R165). -/
def State.ringMsg (s : State) (m : RingMsg) (line a b : Nat) : State :=
  (s.ringSend a b (s.handLevel line)).emit (.ring m line b)

/-- OFFER (R164, R165): the owner offers the line to the tile of the port that keeps using it. -/
def execOffer (line target : Nat) (s : State) : Host.Outcome State Fault Refusal :=
  run (fun s => s.when (s.offerOk line target) fun s =>
    let o := s.ownerTile line
    let x : HandOff := ⟨o, target, true, false, false, false, true, false, [], [], [], 0, 0, {}, {},
      s.coh.pull.get {} line, 16⟩
    ((s.count (evTile o 6) 1).setHandOff line (some x)).ringMsg .offer line o target) s

/-- EVICT_HAND_OFF (R168): a clean line that leaves a tile other than its home returns its ownership by a hand-off
without data. -/
def execEvictHandOff (line : Nat) (s : State) : Host.Outcome State Fault Refusal :=
  run (fun s =>
    let o := s.ownerTile line
    let home := s.homeTile line
    match s.findWay o line with
    | some w =>
      s.when ((s.way o (ncSet line) w).evicting && ! (s.way o (ncSet line) w).d && o ≠ home && ! s.lineOpen line
          && ! (s.near.wb.any fun x => x.line = line) && s.recordRoom o)
        fun s =>
          let x : HandOff := ⟨o, home, true, false, false, false, true, true, [], [], [], 0, 0, {}, {},
            s.coh.pull.get {} line, 16⟩
          (s.setHandOff line (some x)).ringMsg .offer line o home
    | none => s) s

/-- Reserve a way for a line that is on its way to a tile (R165). -/
def State.reserve (s : State) (tile line w : Nat) : State :=
  s.setWay tile (ncSet line) w { v := true, tag := ncTag line }

/-- The target turns an offer away (R165). -/
def State.refuse (s : State) (line : Nat) (x : HandOff) : State :=
  ((s.count (evTile x.src 7) 1).setHandOff line (some { x with offered := false })).ringMsg .refuse line x.dst x.src

/-- The target accepts an offer with a snoop-filter way in hand. -/
def State.agree (s : State) (line w : Nat) (x : HandOff) : State :=
  (s.setHandOff line (some { x with offered := false, arriving := true, sfWay := w })).ringMsg .accept line x.dst x.src

/-- OFFER_RECEIVED (R165, R168): the target reserves a near-cache way and a snoop-filter way and accepts, or refuses. Its
victim, where it is dirty or lent to it, leaves first as for any allocation (R105, R168), and the offer waits. The home tile of
an evicted line never refuses: where the line has an entry and its set is full, it first recalls a victim. -/
def execOfferReceived (line : Nat) (s : State) : Host.Outcome State Fault Refusal :=
  run (fun s =>
    match s.handOff line with
    | none => s
    | some x =>
      if ! (x.leaving && x.offered) then s
      else
        let t := x.dst
        let set := ncSet line
        let room := s.freeSf t (sfSet line)
        if x.evict then
          if ! s.recordRoom t then s
          else if (s.findSf x.src line).isNone then s.agree line 16 x
          else match room, s.sfVictim t (sfSet line) with
            | some w, _ => s.agree line w x
            | none, some w => s.startVictim t (sfSet line) w
            | none, none => s
        else
          let lk := ((s.regionOf line).map fun e => decide (e.2.wpol = 3)).getD false
          match room, s.victim t set lk with
          | some sw, some w =>
            let v := s.way t set w
            let vl := ncLine set v.tag
            if ! s.recordRoom t then s.refuse line x
            else if v.v && (v.d || s.ownerTile vl ≠ s.homeTile vl) then s.setWay t set w { v with evicting := true }
            else (s.reserve t line w).agree line sw x
          | _, _ => s.refuse line x) s

/-- ACCEPT (R165): the old owner gives up its copy and entries and sends COMMIT; the line is recorded as lent. The
evicting tile keeps its way until COMMIT (R168). -/
def execAccept (line : Nat) (s : State) : Host.Outcome State Fault Refusal :=
  run (fun s =>
    match s.handOff line with
    | none => s
    | some x =>
      if ! (x.leaving && ! x.offered && x.arriving) then s
      else
        let set := ncSet line
        let way := (s.findWay x.src line).getD 16
        let sfw := s.findSf x.src line
        let c := s.way x.src set way
        let e := match sfw with | some w => s.sfWay x.src (sfSet line) w | none => {}
        let s1 := if x.evict then s else s.setWay x.src set way {}
        let s2 := match sfw with | some w => s1.setSf x.src (sfSet line) w {} | none => s1
        let y : HandOff := { x with leaving := false, gone := true, commitAt := s.clock, carried := c, sf := e }
        let s3 := if x.dst = s.homeTile line then s2 else s2.setLent line (some x.dst)
        (s3.setHandOff line (some y)).ringMsg .commit line x.src x.dst) s

/-- REFUSE (R165): the old owner serves the probes it held, in order, and stays owner. -/
def execRefuse (line : Nat) (s : State) : Host.Outcome State Fault Refusal :=
  run (fun s =>
    match s.handOff line with
    | none => s
    | some x =>
      if ! (x.leaving && ! x.offered && ! x.arriving) then s
      else
        let s1 := s.setHandOff line none
        let s2 : State := { s1 with coh := { s1.coh with refusedAt := s1.coh.refusedAt.set 0 line s.clock } }
        s2.takeAll x.held) s

/-- The line of a hand-off becomes valid in the way reserved for it; in an ordinary way it keeps PROT, within PROT_MAX, and in a
locked way it has PROT 0 (R111). -/
def State.land (s : State) (x : HandOff) (line w : Nat) : State :=
  let set := ncSet line
  (s.setWay x.dst set w { x.carried with
    hit := false, evicting := false, prot := x.carried.prot && (s.ordinaryWays x.dst).contains w }).trimProt x.dst set w 16

/-- COMMIT (R165): the target owns the line; it runs the requests that COMMIT carries, records their identities, then
takes each pending probe not recorded. For an evicted line the home tile takes the ownership back (R168). -/
def execCommit (line : Nat) (s : State) : Host.Outcome State Fault Refusal :=
  run (fun s =>
    match s.handOff line with
    | none => s
    | some x =>
      if ! (x.gone && x.arriving) then s
      else
        let home := s.homeTile line
        let set := ncSet line
        let ids := x.held.map fun q => q.ident
        let rest := x.pending.filter fun q => ! ids.contains q.ident
        let y : HandOff := { x with
          arriving := false, settling := true, settleAt := s.clock + 4000, held := [], pending := []
          ids := ids ++ rest.map fun q => q.ident }
        let s1 :=
          if x.evict then
            match s.findWay x.src line with | some w => s.setWay x.src set w {} | none => s
          else
            match s.findWay x.dst line with | some w => s.land x line w | none => s
        let s2 := s1.ownedBy line (if x.dst = home then none else s1.coh.lent.get none line)
        let s3 := if x.sf.st = .none || 16 ≤ x.sfWay then s2 else s2.setSf x.dst (sfSet line) x.sfWay x.sf
        let s4 : State := { s3 with coh := { s3.coh with pull := s3.coh.pull.set {} line x.pull } }
        (s4.setHandOff line (some y)).takeAll (x.held ++ rest)) s

/-- WIDE_CLR (R176): a write of 1 to SF_CTL.WIDE_CLR by the management head or interface ends the fallback; any other
head's write posts an ACCESS notice (R80). -/
def execWideClr (src : Nat) (s : State) : Host.Outcome State Fault Refusal :=
  run (fun s => s.when (s.reaches src) fun s =>
    if s.isMgmt src then { s with coh := { s.coh with wide := false } }
    else s.access src 0xFFF 1 (regArgInd 0x30000)) s

end Sys2Proof.Machine
end

