-- ==== Sys2Proof/Machine/Log.lean ====
section
/-! DEFINITION. The beam's log (chapter 08): segments, stripes, records and their confirmation, delta entries, the
persistent map and commit records. -/
namespace Sys2Proof.Machine

/-! ### Segments and stripes -/

/-- Free segments kept for a flush (R297). -/
def State.segReserve (s : State) : Nat := (s.rsv.dEff + 26879) / 26880 + 16

/-- The FREE segment with the lowest WRITES, the lowest number on a tie (R274). A segment never opened has WRITES 0. -/
def State.nextSeg (s : State) : Option Nat :=
  match (List.range (min s.beam.segments (s.beam.segs.length + 1))).find? fun g =>
      (s.seg g).st = .free && (s.seg g).writes = 0 with
  | some g => some g
  | none =>
    (s.beam.segs.foldl (fun (b : Option (Nat × Nat)) e =>
      if e.2.st ≠ .free || s.beam.segments ≤ e.1 then b
      else match b with
        | some x => if e.2.writes < x.2 then some (e.1, e.2.writes) else b
        | none => some (e.1, e.2.writes)) none).map Prod.fst

/-- The open segment of a stream with a stripe left. -/
def State.openSeg (s : State) (stream : Nat) : Option Nat :=
  (s.beam.segs.find? fun e => e.2.st = .opened && e.2.stream = stream && decide (e.2.next < 256)).map Prod.fst

/-- A stream may open a segment: only VAULT, MAP and DELTA take reserved ones (R297). -/
def State.mayOpen (s : State) (stream : Nat) : Bool :=
  if stream = 0 || stream = 1 then decide (s.segReserve < s.freeSegs) else decide (0 < s.freeSegs)

/-- Open a segment for a stream (R274, R282). -/
def State.openNew (s : State) (stream : Nat) : Option (Nat × State) :=
  if ! s.mayOpen stream then none
  else match s.nextSeg with
    | none => none
    | some g =>
      let s1 := s.modSeg g fun x =>
        { x with st := .opened, stream := stream, seq := s.beam.seqNext, holes := s.beam.retired
                 writes := x.writes + 1, opmin := s.boot.opmin, cseqBase := s.beam.cseq, next := 0 }
      some (g, { s1 with beam := { s1.beam with
        seqNext := s1.beam.seqNext + 1
        deltaSegs := if stream = 4 then s1.beam.deltaSegs ++ [g] else s1.beam.deltaSegs } })

/-- The first sector a record may take in a unit: after the record header sector, and after the segment header in
unit 0 of a segment's first stripe (R275). DESIGN CHOICE (log): where that unit falls on a retired slot no header is placed
elsewhere, and the next unit's records begin at sector 1. -/
def firstSector (stripe j : Nat) : Nat := if stripe % 256 = 0 && j = 0 then 2 else 1

/-- Align a record: 8-sector records start at a multiple of 8. -/
def alignSector (n sec : Nat) : Nat := if n = 8 then (sec + 7) / 8 * 8 else sec

/-- The next data unit from j on that does not fall on a hole (R306). -/
def nextUnit (holes : BitVec 8) (stripe : Nat) : Nat → Nat → Option Nat
  | 0, _ => none
  | k + 1, j => if 6 < j then none else if holes.getLsbD (unitSlot stripe j) then nextUnit holes stripe k (j + 1) else some j

/-- Where the next record of n sectors goes in a stripe: unit, sector and count, or none where it does not fit. -/
def StripeBuf.fit (b : StripeBuf) (holes : BitVec 8) (n : Nat) : Option (Nat × Nat × Nat) :=
  let sec := alignSector n b.sector
  if b.unit ≤ 6 && sec + n ≤ 128 && b.count < 30 && ! holes.getLsbD (unitSlot b.stripe b.unit) then
    some (b.unit, sec, b.count)
  else match nextUnit holes b.stripe 8 (b.unit + 1) with
    | some j => some (j, alignSector n (firstSector b.stripe j), 0)
    | none => none

/-- Slots in service. -/
def State.slotsUp (s : State) : BitVec 8 :=
  BitVec.ofNat 8 (((List.range 8).filter fun i => ! s.beam.retired.getLsbD i && (s.slot i).present).foldl
    (fun a i => a + 2 ^ i) 0)

/-- The level of a stream's writes: P0 for the VAULT stream, else P5 (R268, R386). -/
def streamPrio (stream : Nat) : Nat := if stream = 2 then 0 else 5

/-- Write the stripe a stream is filling (R273, R276): one Write per slot in service that is no hole. -/
def State.writeStripe (s : State) (stream : Nat) : State :=
  match s.beam.bufs.get none stream with
  | none => s
  | some b =>
    let v := s.slotsUp &&& ~~~ (s.seg b.seg).holes
    let s1 := (s.count (evBeam stream) b.recs.length).modSeg b.seg fun g =>
      { g with next := g.next + 1, st := if g.next + 1 = 256 then .full else g.st }
    let s2 : State := { s1 with beam := { s1.beam with
      bufs := s1.beam.bufs.set none stream none
      outs := s1.beam.outs ++ [⟨b.stripe, v, false, b.recs, streamPrio stream, s1.clock, v⟩] } }
    (bitsOf v).foldl (fun (s : State) i => s.submit i) s2

/-- The buffer a stream fills, opening a stripe and a segment where none is open. -/
def State.buf (s : State) (stream : Nat) : Option (StripeBuf × State) :=
  match s.beam.bufs.get none stream with
  | some b => some (b, s)
  | none =>
    let mk (g : Nat) (s : State) : StripeBuf × State :=
      let n := 256 * g + (s.seg g).next
      (⟨g, n, (nextUnit (s.seg g).holes n 8 0).getD 0, firstSector n ((nextUnit (s.seg g).holes n 8 0).getD 0), 0, [],
        s.clock⟩, s)
    match s.openSeg stream with
    | some g => some (mk g s)
    | none => (s.openNew stream).map fun x => mk x.1 x.2

/-- The beam can take records: at least 7 slots in service (R321). -/
def State.beamUp (s : State) : Bool := decide (7 ≤ popCount s.slotsUp)

/-- Place a record in a stream's buffer. -/
def State.place (s : State) (stream : Nat) (r : BeamRec) (b : StripeBuf) (p : Nat × Nat × Nat) : Nat × State :=
  let a := b.stripe * 1024 + p.1 * 128 + p.2.1
  let b1 : StripeBuf :=
    { b with unit := p.1, sector := p.2.1 + r.sectors, count := p.2.2 + 1, recs := b.recs ++ [a] }
  (a, { s with beam := { s.beam with
    bufs := s.beam.bufs.set none stream (some b1)
    recs := s.beam.recs.set none a (some { r with stream := stream, seq := (s.seg b.seg).seq, confirmed := false }) } })

/-- Append a record to a stream; a stripe it does not fit is written first (R276). none: the stream has no segment to
take it, or the beam cannot confirm it. -/
def State.append (s : State) (stream : Nat) (r : BeamRec) : Option (Nat × State) :=
  if ! s.beamUp then none
  else match s.buf stream with
    | none => none
    | some (b, s1) =>
      match b.fit (s1.seg b.seg).holes r.sectors with
      | some p => some (s1.place stream r b p)
      | none =>
        match (s1.writeStripe stream).buf stream with
        | some (b2, s2) => (b2.fit (s2.seg b2.seg).holes r.sectors).map fun p => s2.place stream r b2 p
        | none => none

/-- The record of a page (R285, R301): HPC-1 where it fits 7 sectors, else raw. -/
def pageRec (pn key : Nat) (d : PageData) (sw : Option Nat) (why : RecFor) : BeamRec :=
  let c := d.clen
  if 16 + c ≤ 3584 then
    { kind := .hpc1, page := pn, sectors := sectorsFor c, key := key, sw := sw, clen := c, content := d, stream := 0
      seq := 0, purpose := why }
  else { kind := .raw, page := pn, sectors := 8, key := key, sw := sw, content := d, stream := 0, seq := 0, purpose := why }

/-! ### Deltas and the persistent map -/

/-- Add a delta entry (R287). -/
def State.delta (s : State) (d : Delta) : State :=
  { s with beam := { s.beam with deltas := s.beam.deltas ++ [d], deltaAt := s.beam.deltaAt ++ [s.clock] } }

/-- The persistent form of an entry (R286): a page in DRAM appears as T3 at its newest record, else ZERO. -/
def PageEntry.persist (p : PageEntry) : PEntry :=
  let rec_ := if p.beam = 0 then PPlace.zero else .t3 p.beam
  ⟨match p.place with
    | .zero => .zero
    | .poison => .poison
    | .t3 a => .t3 a
    | .t1 _ | .t2 _ _ => if p.ppoison then .poison else rec_, p.gen⟩

/-- The delta entry of a page's present entry. -/
def State.deltaPage (s : State) (pn : Nat) : State := s.delta (.page pn (s.page pn).persist)

/-- A unit's binding. -/
def UnitDir.binding (u : UnitDir) : Binding := ⟨u.bound, u.bdur, u.bkey⟩

/-- Apply one delta entry to a persistent map (R287). -/
def PMap.apply (m : PMap) (d : Delta) : PMap :=
  match d with
  | .page pn e => { m with pages := m.pages.set {} pn e }
  | .swatch slot pn e =>
    { m with saved := m.saved.set [] slot (Tbl.set ⟨.absent, 0⟩ (m.saved.get [] slot) pn e) }
  | .unit u bindOnly b =>
    { m with
      pages := if bindOnly then m.pages else m.pages.restrict fun pn _ => pn / 512 ≠ u
      units := m.units.set {} u b }

/-- Replay delta entries in log order (R288). -/
def PMap.replay (m : PMap) (ds : List Delta) : PMap := ds.foldl (fun m d => m.apply d) m

/-- The persistent form of a swatch's saved entries. -/
def Saved.persist (v : Saved) : PEntry :=
  ⟨match v.place with
    | .zero => .zero
    | .poison => .poison
    | .t3 a => .t3 a
    | .t1 _ | .t2 _ _ => if v.beamv then .t3 v.beam else .zero, 0⟩

/-- The map as it would be persistent now (R286): loaded units from DRAM, the others from the beam. -/
def State.pmapNow (s : State) : PMap :=
  let loaded := s.map.pages.foldl (fun (t : Tbl PEntry) e => t.set {} e.1 e.2.persist)
    (s.beam.cold.pages.restrict fun pn _ => s.beam.coldUnits.contains (pn / 512))
  { pages := loaded
    units := s.map.units.foldl (fun (t : Tbl Binding) e => t.set {} e.1 e.2.binding) []
    saved := s.map.swatches.foldl (fun (t : Tbl (Tbl PEntry)) e =>
      t.set [] e.1 (e.2.saved.foldl (fun (u : Tbl PEntry) v =>
        match v.2 with | some x => u.set ⟨.absent, 0⟩ v.1 x.persist | none => u) [])) [] }

/-- The DELTA records confirmed in the listed segments, in log order (R288, R308): records are keyed by address, which
orders stripe, unit and header; segments run in ascending SEQ. -/
def State.loggedRecs (s : State) (segs : List Nat) (seqMax : Nat) : List (Nat × Option BeamRec) :=
  let order := segs.mergeSort fun a b => (s.seg a).seq ≤ (s.seg b).seq
  order.flatMap fun g => s.beam.recs.filter fun e =>
    match e.2 with
    | some r => r.kind = .delta && r.confirmed && segOf (beamStripe e.1) = g && decide (r.seq < seqMax)
    | none => false

/-- Their delta entries. -/
def State.loggedDeltas (s : State) (segs : List Nat) (seqMax : Nat) : List Delta :=
  (s.loggedRecs segs seqMax).flatMap fun e => match e.2 with | some r => r.deltas | none => []

/-- DELTA segments the next commit record lists: those opened since the last checkpoint began, or, as a checkpoint ends,
since it began itself (R289). -/
def State.metaSegs (s : State) (ckpt : Bool) : List Nat :=
  if ckpt then s.beam.deltaSegs.filter fun g => ! s.beam.ckptSegs.contains g else s.beam.deltaSegs

/-- The persistent map that a commit record written now covers: the roots with the listed segments' confirmed entries
replayed. -/
def State.coveredMap (s : State) (ckpt : Bool) : PMap :=
  (if ckpt then s.beam.ckptBase else s.beam.base).replay (s.loggedDeltas (s.metaSegs ckpt) s.beam.seqNext)

/-- The slot of an ERASE that a commit record written now commits, or has committed already: its UNIT deltas are in
confirmed DELTA records (R504, R505). -/
def State.erasing (s : State) (kind : CommitKind) : Option Nat :=
  match s.sec.cmd with
  | some k =>
    if k.op = 2 && (k.committed || (k.zeroed && kind = .checkpoint && s.beam.deltas.isEmpty && ! s.beam.recs.any fun e =>
      match e.2 with | some r => r.kind = .delta && ! r.confirmed | none => false)) then some k.slot else none
  | none => none

/-- A MAP record's identity: its level (0 map page, 1 directory page, 2 root page, 3 swatch root) and index. -/
def mapRecPage (level i : Nat) : Nat := level * 2 ^ 33 + i

/-- The newest confirmed record of a kind, swatch and identity: its address, 0 where none is found. -/
def State.newestRec (s : State) (kind : RecKind) (sw : Option Nat) (page : Nat) : Nat :=
  (s.beam.recs.foldl (fun (b : Nat × Nat) e =>
    match e.2 with
    | some x => if x.kind = kind && x.confirmed && x.sw = sw && x.page = page && decide (b.1 ≤ x.seq) then (x.seq, e.1) else b
    | none => b) (0, 0)).2

/-- The newest confirmed MAP record of a level and index, of the live map or of a swatch map. -/
def State.mapRecAddr (s : State) (sw : Option Nat) (level i : Nat) : Nat := s.newestRec .map sw (mapRecPage level i)

/-- The WARM records that hold a warm list: 8 sectors of 64 entries each (R290). -/
def warmCount (l : List (Nat × Nat)) : Nat := min 64 ((l.length + 511) / 512)

/-- The newest confirmed root page r of the live map. -/
def State.rootAddr (s : State) (r : Nat) : Nat := s.mapRecAddr none 2 r

/-- The newest confirmed root of the swatch map of a slot (R290). -/
def State.swatchRootAddr (s : State) (k : Nat) : Nat := s.mapRecAddr (some k) 3 0

/-- Root pages of a beam (R286): one for 512 * 512 units of its page capacity. -/
def Beam.rootCount (b : Beam) : Nat := (b.pageCap + 2 ^ 27 - 1) / 2 ^ 27

/-- The root pages a commit record written now lists: those of the last checkpoint, while another runs (R289). -/
def State.rootsNow (s : State) (ckpt : Bool) : List Nat :=
  if s.beam.ckpt && ! ckpt then (s.beam.commit.map fun c => c.roots).getD []
  else (List.range s.beam.rootCount).map fun r => s.rootAddr r

/-- The warm list of a commit record: that of the checkpoint it ends, else the one in force. -/
def State.warmNow (s : State) (ckpt : Bool) : List (Nat × Nat) :=
  if ckpt then s.beam.warm else (s.beam.commit.map fun c => c.warm).getD []

/-- The commit record of the present moment (R290). ckpt: it ends a checkpoint. -/
def State.commitNow (s : State) (kind : CommitKind) (ckpt short : Bool) (pages : Nat) : Commit :=
  { cseq := s.beam.cseq + 1, kind := kind, short := short, seqNext := s.beam.seqNext, opmin := s.boot.opmin
    cycles := s.boot.cycles, shortPages := pages, metaSegs := s.metaSegs ckpt, base := s.coveredMap ckpt
    warm := s.warmNow ckpt
    warmRecs := (List.range (warmCount (s.warmNow ckpt))).map fun i => s.newestRec .warm none i
    swRoots := s.map.swatches.foldl (fun (t : Tbl Nat) e => t.set 0 e.1 (s.swatchRootAddr e.1)) []
    swatches := s.map.swatches, gens := s.map.gens
    regions := s.regions, spills := if kind = .checkpoint then [] else s.beam.spillOut
    roots := s.rootsNow ckpt
    deltaRecs := (s.loggedRecs (s.metaSegs ckpt) s.beam.seqNext).map Prod.fst
    shortList := if pages = 0 then [] else s.vlt.shortLeft
    erased := s.erasing kind }

/-! ### Superblocks and commit slots (R281, R291) -/

/-- Write the superblocks (R281): SBGEN rises by 1, and copy SBGEN mod 2 is written on every slot in service and on the slots
given. -/
def State.writeSuper (s : State) (more : List Nat) : State :=
  let g := s.beam.sbgen + 1
  (bitsOf s.slotsUp ++ more).foldl (fun (s : State) i =>
    (s.modSlot i fun x => if g % 2 = 0 then { x with sb0 := g } else { x with sb1 := g }).emit (.nvme i 0x01))
    { s with beam := { s.beam with sbgen := g } }

/-- The three slots of a commit record (R291): from slot CSEQ mod 8 on upward modulo 8, those in service. -/
def State.commitSlots (s : State) (cseq : Nat) : List Nat :=
  (((List.range 8).map fun i => (cseq + i) % 8).filter fun i => s.slotsUp.getLsbD i).take 3

/-- Write a commit record's drive copies: each drive uses the next of the 8 slots of its commit ring (R270, R291). -/
def State.writeCommit (s : State) (c : Commit) : State :=
  (s.commitSlots c.cseq).foldl (fun (s : State) i =>
    (s.modSlot i fun x => { x with ring := (x.ring + 1) % 8 }).emit (.nvme i 0x01)) s

/-- A commit record comes into force (R291): its boot-flash copy is written too, and level-3 seals may
complete, and an ERASE that it commits goes on. -/
def State.inForce (s : State) (c : Commit) : State :=
  ({ (s.count (evBeam 9) 1) with
      beam := { s.beam with commit := some c, commitOut := none, cseq := max s.beam.cseq c.cseq }
      boot := { s.boot.keep 2 with commit := some c }
      sec := { s.sec with cmd := s.sec.cmd.map fun k => if c.erased = some k.slot then { k with committed := true } else k } }
    : State).checkSeals

end Sys2Proof.Machine
end

