-- ==== Sys2Proof/Machine/Frames.lean ====
section
/-! DEFINITION. Frames and sectors of DRAM in use and free (R184, R185, R191, R192), the pages that may leave them, and the
eviction of a clean page for a frame that must be had (R237). -/
namespace Sys2Proof.Machine

/-! ### Fields of JQ_TIER -/

/-- PROMO_HEAT; 0 acts as 1. -/
def State.promoHeat (s : State) : Nat := max 1 (fld s.map.tier 0 4)
/-- COMP_HEAT. -/
def State.compHeat (s : State) : Nat := fld s.map.tier 4 4
/-- EVICT_HEAT. -/
def State.evictHeat (s : State) : Nat := fld s.map.tier 8 4
/-- FREE_LO, per mille. -/
def State.freeLo (s : State) : Nat := fld s.map.tier 24 8
/-- FREE_HI, per mille, above FREE_LO. -/
def State.freeHi (s : State) : Nat := max (fld s.map.tier 32 8) (s.freeLo + 1)
/-- COMP_EN. -/
def State.compEn (s : State) : Bool := flag s.map.tier 40
/-- VOL_T3. -/
def State.volT3 (s : State) : Bool := flag s.map.tier 41
/-- PIN_PCT, at most 90. -/
def State.pinPct (s : State) : Nat := min 90 (fld s.map.tier 42 7)
/-- Operating time in ms, modulo 2^31 (R246). -/
def State.opMs (s : State) : Nat := (s.rsv.bootMin * 60000 + s.clock / 2000000) % 2 ^ 31
/-- THINT of the region over a page; AUTO where no region covers it. -/
def State.hint (s : State) (pn : Nat) : Nat := ((s.regionOfPage pn).map fun x => x.2.thint).getD 0

/-! ### Frames and sectors -/

/-- Give a frame a use. -/
def State.useFrame (s : State) (f : Nat) (u : FrameUse) : State :=
  { s with dram := { s.dram with frames := s.dram.frames.set .free f u } }

/-- Free a frame; its cells are dropped. -/
def State.freeFrame (s : State) (f : Nat) : State :=
  let s1 := s.useFrame f .free
  { s1 with dram := { s1.dram with cells := s1.dram.cells.restrict fun k _ => k / 64 ≠ f } }

/-- Free a twin frame into its channel's reserve (R192). -/
def State.freeTwin (s : State) (f : Nat) : State :=
  (s.freeFrame f).modChan (frameChan f) fun c => if c.retired then c else { c with twinRsv := c.twinRsv + 1 }

/-- Sectors of a frame in use by T2 pages. -/
def State.sectorsUsed (s : State) (f : Nat) : BitVec 8 :=
  s.dram.t2.foldl (fun m e =>
    match e.2 with
    | some t => if e.1 / 8 = f then
        (List.range t.k).foldl (fun m i => putBit m (e.1 % 8 + i) true) m else m
    | none => m) 0

/-- The sectors that a page on its way to T2 takes: those of its encoded frame (R228), or, for the warmer, of its record (R254). -/
def State.sectorsWanted (s : State) : Place → Nat
  | .t1 g => let d := s.frameData g; if ! d.zero && sectorsFor d.clen ≤ 7 then sectorsFor d.clen else 0
  | .t3 a => match s.beam.recs.get none a with | some r => r.sectors | none => 0
  | _ => 0

/-- Sectors of a frame in use, or reserved by a compression or a warm fill in progress. -/
def State.sectorsTaken (s : State) (f : Nat) : BitVec 8 :=
  s.map.pages.foldl (fun m e =>
    match e.2.moving with
    | some v =>
      if v.tier = .toT2 && v.place / 8 = f then
        (List.range (s.sectorsWanted e.2.place)).foldl (fun m i => putBit m (v.place % 8 + i) true) m
      else m
    | none => m) (s.sectorsUsed f)

/-- k sectors from S lie free in one frame (R184). -/
def State.sectorsFree (s : State) (sec k : Nat) : Bool :=
  let f := sec / 8
  sec % 8 + k ≤ 8 && 1 ≤ k && k ≤ 7 && s.frameUsable f
    && (s.frameOpen f || s.frameUse f = .t2)
    && (List.range k).all fun i => ! (s.sectorsTaken f).getLsbD (sec % 8 + i)

/-- A T2 frame is freed with its last sector (R185). -/
def State.freeT2Frame (s : State) (f : Nat) : State :=
  if s.frameUse f = .t2 && s.sectorsTaken f = 0 then s.useFrame f .free else s

/-- Release a T2 page's sectors (R185). -/
def State.freeSectors (s : State) (sec : Nat) : State :=
  ({ s with dram := { s.dram with t2 := s.dram.t2.set none sec none } } : State).freeT2Frame (sec / 8)

/-- The lowest frame of a channel that is in no use, for the steps whose command names none (DESIGN CHOICE in the log). -/
def State.freeIn (s : State) (c : Nat) : Option Nat :=
  ((List.range 4).flatMap fun r => (List.range (s.dram.frames.length + 1)).map fun i =>
    (r * (s.chan c).rankFrames + (if r = 0 then (s.chan c).sysFrames else 0) + i) * 16 + c).find? fun f => s.frameFree f

/-- The lowest free frame of a channel outside its twin reserve (R191). -/
def State.openIn (s : State) (c : Nat) : Option Nat := if s.freeOutside c then s.freeIn c else none

/-- The first channel's lowest free frame, for the steps whose command names none (DESIGN CHOICE in the log). -/
def State.lowestFree (s : State) : Option Nat := (List.range 16).findSome? fun c => s.openIn c

/-- Release the DRAM storage a place names. -/
def State.freePlace (s : State) (p : Place) : State :=
  match p with
  | .t1 f => s.freeFrame f
  | .t2 sec _ => s.freeSectors sec
  | _ => s

/-! ### Tier transitions (R233 to R237) -/

/-- Placement policy and the warmer leave the last FREE_LO per mille of the frames alone (R237). -/
def State.frameLeft (s : State) (c : TransitionCause) : Bool :=
  if c = .policy || c = .warmer then decide (s.framesInService * s.freeLo < s.freeFrames * 1000)
  else decide (0 < s.freeFrames)

/-- A write waits on the page, or an atomic that runs at its memory (R170). -/
def State.writeWaits (s : State) (pn : Nat) : Bool :=
  (s.map.marks.any fun m => m.pn = pn) || (s.near.wb.any fun e => pageOf e.line = pn)
    || (s.coh.txns.any fun e => pageOf e.1 = pn && match e.2 with | some t => t.phase = .atomicWait | none => false)
    || (s.near.nc.any fun e => e.2.v && e.2.d && pageOf (ncLine (e.1 / 16 % 32768) e.2.tag) = pn)

/-- Heat at which a lookup promotes a T2 page (R239). -/
def State.promoAt (s : State) (pn : Nat) : Nat :=
  match s.hint pn with
  | 1 | 2 => 0
  | 3 => min 15 (s.promoHeat + 2)
  | _ => s.promoHeat

/-- Who may start a promotion from a place (R233). -/
def State.mayPromote (s : State) (pn : Nat) (c : TransitionCause) : Bool :=
  let p := s.page pn
  match p.place, c with
  | .t1 _, _ => false
  | _, .write => s.writeWaits pn
  | _, .pin => true
  | _, .descriptor => true
  | .t3 a, .read => s.beam.reads.any fun r => r.addr = a
  | .t3 _, .warmer => s.map.warming
  | .t2 _ _, .policy => decide (s.promoAt pn ≤ p.effHeat s.map.epoch)
  | _, _ => false

/-- A page may leave T1 or T2 downward: clean, not pinned, holding no poison (R234, R241, R484). -/
def State.mayDemote (s : State) (pn : Nat) : Bool :=
  let p := s.page pn
  ! p.dirty && ! p.pin && ! p.cleaning && ! (s.map.marks.any fun m => m.pn = pn)
    && ! (s.near.wb.any fun e => pageOf e.line = pn) && ! (s.placeData p.place).hasPoison

/-- No record waits any more for a clean or demotion of the page: one that an abandoned demotion wrote is dead. -/
def State.unpurpose (s : State) (pn : Nat) : State :=
  let recs := s.beam.recs.mapVals none fun _ r =>
    r.map fun r => if r.purpose = .clean pn then { r with purpose := .none } else r
  { s with beam := { s.beam with recs := recs } }

/-- The one page that a frame holds, where it is clean, unpinned and has a current record (R237). -/
def State.frameVictim (s : State) (f : Nat) : Option Nat :=
  match s.map.pages.filter fun e => e.2.place.frame = some f with
  | [e] => if s.mayDemote e.1 && e.2.beamv && e.2.moving.isNone then some e.1 else none
  | _ => none

/-- Evict the clean page of a frame that a write or PIN takes when no frame is free (R237). -/
def State.evictFor (s : State) (f : Nat) : State :=
  match s.frameVictim f with
  | some pn =>
    let p := s.page pn
    (s.freePlace p.place).modPage pn fun p => { p with place := recPlace p.beam, beamv := false, beam := 0 }
  | none => s

/-- A page moves to a place outside T1 and T2. -/
def State.dropTo (s : State) (pn : Nat) (pl : Place) : State :=
  (s.freePlace (s.page pn).place).modPage pn fun p => { p with place := pl, beamv := false, beam := 0 }

/-- The pages of a map tile's loaded map frames in the order in which its sweep examines them next (R239). -/
def State.sweepPages (s : State) (tile : Nat) : List Nat :=
  let mine := (s.map.units.keysWhere fun _ d => decide (d.dstate = .loaded)).flatMap fun u =>
    ((List.range 512).map fun i => u * 512 + i).filter fun pn => s.mapTile pn = tile
  let at_ := s.map.sweepAt.get 0 tile
  (mine.filter fun pn => decide (at_ ≤ pn)) ++ mine.filter fun pn => decide (pn < at_)

/-- The frame that a page gives up for a write or PIN, on a channel that ok allows. -/
def State.victimFrame (s : State) (ok : Nat → Bool) (pn : Nat) : Option Nat :=
  ((s.page pn).place.frame).filter fun f => s.frameVictim f = some pn && ok (frameChan f) && (s.evictFor f).frameOpen f

/-- Of a list of pages the one with the lowest effective heat that gives up a frame. -/
def State.coldestOf (s : State) (ok : Nat → Bool) (ps : List Nat) : Option Nat :=
  let c := ps.filterMap fun pn => (s.victimFrame ok pn).map fun f => (f, (s.page pn).effHeat s.map.epoch)
  (c.find? fun x => c.all fun y => decide (x.2 ≤ y.2)).map Prod.fst

/-- Examine pages 64 at a time until some of them give up a frame. -/
def State.examine (s : State) (ok : Nat → Bool) : Nat → List Nat → Option Nat
  | 0, _ => none
  | n + 1, ps => match s.coldestOf ok (ps.take 64) with
    | some f => some f
    | none => s.examine ok n (ps.drop 64)

/-- The frame that a map tile takes when none is left (R237): that of the clean unpinned page with the lowest effective heat among
the 64 pages its sweep examines next. DESIGN CHOICE (log): where none of them qualifies, it examines the next 64. -/
def State.writeVictim (s : State) (tile : Nat) (ok : Nat → Bool) : Option Nat :=
  let ps := s.sweepPages tile
  s.examine ok (ps.length / 64 + 1) ps

/-- A frame of the channels that ok allows, for content of a map tile that must have one, with the state in which it is free: the
lowest free frame, else that of a clean page, which is evicted (R237). -/
def State.grabFrame (s : State) (tile : Nat) (ok : Nat → Bool) : Option (Nat × State) :=
  match (List.range 16).findSome? fun c => if ok c then s.openIn c else none with
  | some f => some (f, s)
  | none => (s.writeVictim tile ok).map fun f => (f, s.evictFor f)

/-- The map frame that a swatch's map has for a unit (R258: SWMAP = 1), taken where it has none yet. -/
def State.swatchFrame (s : State) (slot u : Nat) : Option State :=
  if s.dram.frames.any fun e => e.2 = .mapF u (some slot) then some s
  else (s.grabFrame (s.mapTile (u * 512)) fun _ => true).map fun x => x.2.useFrame x.1 (.mapF u (some slot))

end Sys2Proof.Machine
end

