-- ==== Sys2Proof/Machine/Sched.lean ====
section
/-! DEFINITION. The scheduler of a DRAM subchannel (R195 to R198, R204, R377): which read or write of its queues may be
issued next, and what the scheduler keeps of the grant. DESIGN CHOICE (log): issue and completion of an access are one command, and
the frame last accessed in a bank group is the one whose row is open there. -/
namespace Sys2Proof.Machine

/-- QOS_CTL.BE_TURN in force; 0 acts as 1. -/
def State.beTurn (s : State) : Nat := max 1 (fld s.qos.ctl 0 5)

/-- The writes that wait on a subchannel, in order of arrival. -/
def Channel.writes (c : Channel) (sub : Nat) : List DramWrite := c.writeQ.filter fun w => w.idx % 2 = sub

/-- What the scheduler of a subchannel keeps. -/
def Channel.sch (c : Channel) (sub : Nat) : Sched := c.sched.get {} sub

/-- The subchannel is in write-drain mode (R197). -/
def Channel.drains (c : Channel) (sub : Nat) : Bool := if sub = 0 then c.drainA else c.drainB

/-- Accesses of a level may be issued: on a HOT channel those of P5 and P6 stop (R204). -/
def Channel.levelOn (c : Channel) (prio : Nat) : Bool := ! c.throttle || decide (prio < 5)

/-- Requests of P3 that wait on a subchannel, by number; numbers rise in order of arrival. -/
def Channel.p3 (c : Channel) (sub : Nat) : List Nat :=
  ((c.reads sub).filter fun x => x.prio = 3).map (fun x => x.id)
    ++ ((c.writes sub).filter fun w => w.prio = 3).map fun w => w.id

/-- The oldest request of P3. -/
def Channel.oldestP3 (c : Channel) (sub : Nat) : Option Nat :=
  (c.p3 sub).find? fun i => (c.p3 sub).all fun j => decide (i ≤ j)

/-- A read of P1 or P0 waits for a bank whose refresh has ended, so no write goes before it (R197). -/
def State.readFirst (s : State) (c : Channel) (sub : Nat) : Bool :=
  (c.reads sub).any fun x => decide (x.prio ≤ 1) && (c.sch sub).refreshed.getLsbD (s.frameBank x.frame)

/-- The next grant is the P3 request's (R377). -/
def State.turnDue (s : State) (c : Channel) (sub : Nat) : Bool :=
  decide (s.beTurn ≤ (c.sch sub).turn) && (c.oldestP3 sub).isSome && ! s.readFirst c sub

/-- The oldest write of a write's line (R198). -/
def firstOfLine (ws : List DramWrite) (w : DramWrite) : Option DramWrite :=
  ws.find? fun y => y.frame = w.frame && y.idx = w.idx

/-- The write whose turn it is: the oldest of the highest level, or an older one of its line (R197, R198). -/
def topWrite (ws : List DramWrite) : Option DramWrite := ws.find? fun w => ws.all fun y => decide (w.prio ≤ y.prio)

/-- A subchannel may issue a read (R196, R197, R377). -/
def State.readMay (s : State) (c : Channel) (sub : Nat) (x : DramRead) : Bool :=
  let q := (c.reads sub).filter fun y => c.levelOn y.prio
  if s.turnDue c sub then c.oldestP3 sub = some x.id
  else
    q.any (fun y => y.id = x.id) && q.all (fun y => decide (x.prio ≤ y.prio))
      && (((q.find? fun y => y.prio = x.prio).map fun y => y.id) = some x.id
        || ((c.sch sub).rows.get none (s.frameBank x.frame) = some x.frame && decide ((c.sch sub).openRun < 4)))
      && (if c.drains sub then decide (x.prio ≤ 1)
          else ((c.writes sub).filter fun w => c.levelOn w.prio).all fun w => decide (x.prio ≤ w.prio))

/-- A read may be issued: on its subchannel, or on both where it takes the whole frame; a channel in self-refresh must have left it
(R541). -/
def State.readIssues (s : State) (m : Nat) (x : DramRead) : Bool :=
  ! s.inPowerState (16 + m) && (List.range 2).all fun sub => ! x.on sub || s.readMay (s.chan m) sub x

/-- A write may be issued (R197, R198, R377). -/
def State.writeIssues (s : State) (m : Nat) (w : DramWrite) : Bool :=
  let c := s.chan m
  let sub := w.idx % 2
  let ws := (c.writes sub).filter fun y => c.levelOn y.prio
  let rs := (c.reads sub).filter fun y => c.levelOn y.prio
  if s.inPowerState (16 + m) then false
  else if s.turnDue c sub then
    match (c.writes sub).find? fun y => c.oldestP3 sub = some y.id with
    | some y => (firstOfLine (c.writes sub) y).map (fun z => z.id) = some w.id
    | none => false
  else
    match topWrite ws with
    | none => false
    | some y =>
      (firstOfLine (c.writes sub) y).map (fun z => z.id) = some w.id && ! s.readFirst c sub
        && (if c.drains sub then decide ((c.sch sub).writesRun < 8) || ! rs.any fun r => decide (r.prio ≤ 1)
            else y.prio = 0 || rs.all fun r => decide (y.prio < r.prio))

/-- The scheduler's record after a grant on a subchannel to the request of a number and level on a frame; jumped: a read issued
ahead of older ones of its level. -/
def State.schedAfter (s : State) (c : Channel) (sub id prio frame : Nat) (read jumped : Bool) : Sched :=
  let k := c.sch sub
  let b := s.frameBank frame
  let waits := (c.reads sub).any fun x => x.id ≠ id && decide (x.prio ≤ 1)
  { k with
    openRun := if read then (if jumped then k.openRun + 1 else 0) else k.openRun
    writesRun := if read then (if prio ≤ 1 then 0 else k.writesRun) else if waits then k.writesRun + 1 else 0
    turn := if decide (prio ≤ 2) && (c.p3 sub).any (fun i => i ≠ id) then k.turn + 1 else 0
    rows := k.rows.set none b (some frame)
    refreshed := if read && decide (prio ≤ 1) then k.refreshed &&& ~~~ BitVec.ofNat 32 (2 ^ b) else k.refreshed }

/-- Grant an access on a subchannel: row hits are counted (R183, R515), the scheduler takes note, and the rank's refresh window is
over (R203). -/
def State.grant (s : State) (m sub id prio frame : Nat) (read : Bool) : State :=
  let c := s.chan m
  let jumped := (c.reads sub).any fun y => y.prio = prio && decide (y.id < id)
  let hit := (c.sch sub).rows.get none (s.frameBank frame) = some frame
  (s.count (evChan m 0) (if hit then 1 else 0)).modChan m fun c =>
    { c with
      sched := c.sched.set {} sub (s.schedAfter c sub id prio frame read jumped)
      window := putBit c.window (s.frameRank frame) false }

/-- Take a read out of its queue as it is issued; a grant that R377 gives a head's P3 read counts for the head. -/
def State.issueRead (s : State) (m : Nat) (x : DramRead) : State :=
  let turn := (List.range 2).any fun sub => x.on sub && s.turnDue (s.chan m) sub
  let s1 := match s.txn x.line with
    | some t => (match t.req.headOf with
      | some h => s.count (evHead h 6) (if turn && x.why = .line then 1 else 0)
      | none => s)
    | none => s
  let s2 := ((List.range 2).filter fun sub => x.on sub).foldl (fun (s : State) sub =>
    s.grant m sub x.id x.prio x.frame true) s1
  (s2.modChan m fun c => { c with readQ := c.readQ.filter fun y => y.id ≠ x.id }).count (evChan m 1)
    (if x.why = .line then 1 else 64)

end Sys2Proof.Machine
end

