-- ==== Sys2Proof/Machine/Rebuild.lean ====
section
/-! DEFINITION. Errors of DRAM reads and their repair (R206 to R208), the emptying of a retired rank (R210), and the rebuild of
pages whose primary or twin frame lay on a retired channel (R211, R212). -/
namespace Sys2Proof.Machine

/-! ### Errors of a read (R207) -/

/-- Count a read error of a frame in its rank's counters and bucket; an uncorrectable error's time is noted (R211). -/
def State.countRead (s : State) (f : Nat) (err : ReadErr) : State :=
  let m := frameChan f
  let r := s.frameRank f
  match err with
  | .good => s
  | .corrected => (s.count (evChan m (8 + r)) 1).bump 0 (4 * m + r) 1
  | .uncorrectable =>
    ((s.count (evChan m (12 + r)) 1).bump 0 (4 * m + r) 16).modChan m fun c =>
      { c with ueAt := c.ueAt.set 0 r (s.clock + 1) }

/-- Make a line of a frame poison, with its notice; case is the row of R482. -/
def State.poisonCell (s : State) (f idx pn case : Nat) : State :=
  (s.setCell f idx { data := 0, poison := true }).poisoned case (pn * 64 + idx) 1

/-- Give a line of a frame the line of a page's newest record, and count the repair from the beam (R208). -/
def State.repairFromBeam (s : State) (f idx beam : Nat) : State :=
  (s.count (evBeam 7) 1).setCell f idx (s.placeLine (recPlace beam) idx)

/-- Repair a line of a T1 frame that a page uses (R207). -/
def State.repairPrimary (s : State) (f idx pn : Nat) (otherBad : Bool) : State :=
  let p := s.page pn
  if p.dirty then
    match s.twinAt p idx with
    | some t =>
      if otherBad then (s.setCell t idx { data := 0, poison := true }).poisonCell f idx pn 2
      else s.setCell f idx (s.cell t idx)
    | none => s.repairFromBeam f idx p.beam
  else if p.beamv then (s.count (evBeam 7) 1).setFrame f (s.placeData (recPlace p.beam))
  else s.poisonCell f idx pn 3

/-- Repair a T2 page one of whose sectors failed (R207). -/
def State.repairT2 (s : State) (sec : Nat) (t : T2Page) : State :=
  if t.beamv || s.pageDurable t.page then
    ((s.count (evBeam 7) 1).freeSectors sec).modPage t.page fun p =>
      { p with place := recPlace t.beam, beamv := false, beam := 0 }
  else
    ({ s with dram := { s.dram with t2 := s.dram.t2.set none sec (some { t with content := poisonPage }) } } : State).poisoned
      3 (t.page * 64) 64

/-- Repair a line of a DRAM-held swatch copy: from its record where that is current, else the line is poison (R207). -/
def State.repairSaved (s : State) (f idx pn slot : Nat) : State :=
  match (s.map.swatches.get {} slot).saved.get none pn with
  | some v => if v.beamv && ! v.dirty then s.repairFromBeam f idx v.beam else s.poisonCell f idx pn 3
  | none => s

/-- Handle a read error of line idx of a frame (R207). An error in a frame of the reverse frame tables or the directory leaves
their entries as they were: they are rebuilt from the entries of the map in force (DESIGN CHOICE, log). -/
def State.dramError (s : State) (f idx : Nat) (err : ReadErr) (otherBad : Bool) : State :=
  let s1 := s.countRead f err
  if err ≠ .uncorrectable then s1
  else match s1.frameUse f with
    | .t1 pn none => s1.repairPrimary f idx pn otherBad
    | .t1 pn (some slot) => s1.repairSaved f idx pn slot
    | .twin pn =>
      match (s1.page pn).place with
      | .t1 g => if otherBad then (s1.setCell f idx { data := 0, poison := true }).poisonCell g idx pn 2
        else s1.setCell f idx (s1.cell g idx)
      | _ => s1
    | .t2 =>
      match s1.dram.t2.find? fun e => match e.2 with
          | some t => e.1 / 8 = f && decide (e.1 % 8 ≤ idx / 8) && decide (idx / 8 < e.1 % 8 + t.k)
          | none => false with
      | some (sec, some t) => s1.repairT2 sec t
      | _ => s1
    | .mapF u none => { s1.useFrame f .free with map := { s1.map with rebuilding := s1.map.rebuilding ++ [u] } }
    | _ => s1

/-! ### Accesses under way to frames that go (R210, R211) -/

/-- A page's clean or transition ends where its frame goes: the frame or sectors it had taken are released. -/
def State.abortPage (s : State) (pn : Nat) : State :=
  let p := s.page pn
  let s1 := match p.moving with
    | some m => if m.tier = Transition.toT1 then s.freeFrame m.place else if m.tier = Transition.toT2 then s.freeT2Frame (m.place / 8) else s
    | none => s
  s1.modPage pn fun p => { p with moving := none, cleaning := false, redirty := false }

/-- Reads under way of frames that go: a request's line is looked up again, the clean or transition that read a whole frame
ends and starts anew. The lines to look up again come with the state. -/
def State.abandonReads (s : State) (gone : Nat → Bool) : List Nat × State :=
  let mine := s.dram.ch.flatMap fun e => e.2.readQ.filter fun x => gone x.frame
  let s1 : State := if mine.isEmpty then s else { s with dram := { s.dram with
    ch := s.dram.ch.mapVals {} fun _ c => { c with readQ := c.readQ.filter fun x => ! gone x.frame } } }
  mine.foldl (fun (a : List Nat × State) x =>
    match x.why with
    | .line => (match a.2.txn x.line with
      | some t => if t.phase = .dram then (a.1 ++ [x.line], a.2.phase t.req (if t.req.atP2 then .atomicWait else .lookup)) else a
      | none => a)
    | .clean pn | .move pn => (a.1 ++ a.2.waitingOn pn, a.2.abortPage pn)
    | .scrub => a) ([], s1)

/-- Writes under way to a frame whose content is about to move land first. -/
def State.settleWrites (s : State) (f : Nat) : State :=
  let m := frameChan f
  let ws := (s.chan m).writeQ.filter fun w => w.frame = f
  ws.foldl (fun (s : State) w =>
    let s1 := (s.unqueue m w.id).landed w false
    match w.entry with
    | some e => s1.entryWritten e
    | none => s1) s

/-! ### Frames for content that must keep one -/

/-- A frame for content of a page that moves: on the channel wanted, else on any channel but one, with the state in which it is
free. -/
def State.rebuildTake (s : State) (pn want avoid : Nat) : Option (Nat × State) :=
  match s.grabFrame (s.mapTile pn) fun c => c = want with
  | some x => some x
  | none => s.grabFrame (s.mapTile pn) fun c => c ≠ avoid

/-- Move the content of a frame to another. -/
def State.moveFrame (s : State) (f g : Nat) : State :=
  let s1 := s.settleWrites f
  let d := s1.frameData f
  let u := s1.frameUse f
  ((s1.freeFrame f).useFrame g u).setFrame g d

/-- Repoint a saved swatch entry. -/
def State.moveSaved (s : State) (slot pn : Nat) (pl : Place) : State :=
  let w := s.map.swatches.get {} slot
  match w.saved.get none pn with
  | some v =>
    let w1 : Swatch := { w with saved := w.saved.set none pn (some { v with place := pl }) }
    { s with map := { s.map with swatches := s.map.swatches.set {} slot w1 } }
  | none => s

/-- A page's DRAM content has no copy elsewhere: it is dirty, or VOLATILE without a current record. -/
def State.onlyHere (s : State) (pn : Nat) : Bool :=
  (s.page pn).dirty || (! (s.page pn).beamv && ! s.pageDurable pn)

/-! ### A rank that retires (R210) -/

/-- Each block held for a restored SCRATCH_KEEP window lies in a frame (R365); one whose frame is gone takes another, with the content
that its spill record gives. -/
def State.holdKeeps (s : State) : State :=
  s.vlt.keep.foldl (fun (s : State) e =>
    if s.dram.frames.any fun x => x.2 = .keep e.1 then s
    else match s.lowestFree with
      | some f => s.useFrame f (.keep e.1)
      | none => s) s

/-- Empty one frame of a retired rank (R210 steps 2 and 3). DESIGN CHOICE (log): the rule moves dirty primaries and twins and
drops clean pages; T1 and T2 content of a VOLATILE page without a current beam copy, of which it says nothing, moves too. -/
def State.vacate (s : State) (f : Nat) : State :=
  let m := frameChan f
  match s.frameUse f with
  | .t1 pn none =>
    if s.onlyHere pn then
      match s.rebuildTake pn m (((s.page pn).twin.map frameChan).getD 16) with
      | some (g, s) => (s.moveFrame f g).modPage pn fun p => { p with place := .t1 g }
      | none => s
    else s.dropTo pn (recPlace (s.page pn).beam)
  | .t1 pn (some slot) =>
    match s.rebuildTake pn m 16 with
    | some (g, s) => (s.moveFrame f g).moveSaved slot pn (.t1 g)
    | none => s
  | .twin pn =>
    match s.rebuildTake pn m (s.page pn).primCh with
    | some (g, s) => (s.moveFrame f g).modPage pn fun p =>
        { p with twin := if p.twin = some f then some g else p.twin
                 twin2 := if p.twin2 = some f then some g else p.twin2 }
    | none => s
  | .keep _ => (s.freeFrame f).holdKeeps
  | .mapF u none =>
    match s.rebuildTake (u * 512) m 16 with
    | some (g, s) => (s.moveFrame f g).modUnit u fun d => { d with frame := g }
    | none => s
  | .mapF u (some _) =>
    match s.rebuildTake (u * 512) m 16 with
    | some (g, s) => s.moveFrame f g
    | none => s
  | .t2 =>
    (s.dram.t2.filter fun e => e.1 / 8 = f).foldl (fun (s : State) e =>
      match e.2 with
      | some t =>
        if t.beamv || s.pageDurable t.page then s.dropTo t.page (recPlace t.beam)
        else match s.rebuildTake t.page m 16 with
          | some (g, s) =>
            let s1 := (s.freeSectors e.1).useFrame g .t2
            ({ s1 with dram := { s1.dram with t2 := s1.dram.t2.set none (8 * g) (some t) } } : State).modPage t.page
              fun p => { p with place := .t2 (8 * g) t.k }
          | none => s
      | none => s) s
  | _ => s

/-- Frames in use in a rank. -/
def State.rankUsed (s : State) (ch rank : Nat) : List Nat :=
  (s.dram.frames.filter fun e => frameChan e.1 = ch && s.frameRank e.1 = rank).map Prod.fst

/-! ### A channel that retires (R211, R212) -/

/-- A page whose copies are all lost becomes poison (R214, R482). -/
def State.losePage (s : State) (pn case : Nat) : State :=
  let s0 := s.abortPage pn
  let p := s0.page pn
  let s1 := (p.twin.toList ++ p.twin2.toList).foldl (fun (s : State) f => s.freeTwin f) s0
  ((s1.modPage pn fun p => { p with
    place := .poison, beamv := false, beam := 0, dirty := false, twin := none, twin2 := none, lines := 0, lines2 := 0
    urgent := false }).deltaPage pn).poisoned case (pn * 64) 64

/-- Each line that the drains have written since the page became dirty lies in a live frame beside the primary. -/
def State.twinsHold (s : State) (p : PageEntry) : Bool :=
  (List.range 64).all fun i => ! (p.lines ||| p.lines2).getLsbD i || (s.twinAt p i).isSome

/-- A page whose primary frame was on a channel that has retired (R211, R214): a dirty one waits for its rebuild, unless its other
copies are lost too, a clean one falls back to the beam. -/
def State.lostPrimary (s : State) (pn : Nat) : State :=
  let p := s.page pn
  if p.dirty then
    if s.twinsHold p then (s.abortPage pn).modPage pn fun p => { p with urgent := true } else s.losePage pn 2
  else if p.beamv then (s.abortPage pn).modPage pn fun p => { p with place := recPlace p.beam, beamv := false, beam := 0 }
  else s.losePage pn 3

/-- A page whose twin frame was on a channel that has retired (R211, R214): it waits for a new one, unless its primary frame is
lost too. -/
def State.lostTwin (s : State) (pn : Nat) : State :=
  let p := s.page pn
  let prim := match p.place with | .t1 f => s.frameLive f | _ => true
  if prim || s.twinsHold p then s.modPage pn fun p => { p with urgent := true } else s.losePage pn 2

/-- Build the new primary frame of a page whose old one was on a retired channel, from the beam copy with the lines of the twin
frames over it (R211 step 3, R212): on the partner channel of the channel that holds the twin frame, or, without a twin frame, of the
retired channel. -/
def State.rebuildPrimary (s : State) (pn f : Nat) : State :=
  let p := s.page pn
  let want := s.partnerCh (((p.twin.filter fun t => s.frameLive t).map frameChan).getD
    (((p.twin2.filter fun t => s.frameLive t).map frameChan).getD (frameChan f)))
  match s.grabFrame (s.mapTile pn) fun c => c = want with
  | some (g, s) =>
    let s1 := (s.useFrame g (.t1 pn none)).setFrame g (s.placeData p.place)
    (s1.freeFrame f).modPage pn fun p => { p with place := .t1 g }
  | none => s

/-- Give a page a new twin frame, with the lines of the primary frame that differ from the beam copy, where its own was on a
retired channel (R188, R211). A second twin frame of a rebuild becomes the twin. -/
def State.rebuildTwin (s : State) (pn f : Nat) : State :=
  let p := s.page pn
  let old := s.placeData (recPlace p.beam)
  let diff := (List.range 64).filter fun i => s.cell f i ≠ old.get {} i
  let fillIn := fun (s : State) (g : Nat) =>
    (diff.foldl (fun (s : State) i => s.setCell g i (s.cell f i)) s).modPage pn fun p =>
      { p with twin := some g, lines := diff.foldl (fun m i => putBit m i true) 0, twin2 := none, lines2 := 0 }
  if p.twin.isNone && p.twin2.isNone then s
  else match p.twin.filter fun t => s.frameLive t with
  | some _ => match p.twin2 with
    | some t2 => (s.freeTwin t2).modPage pn fun p => { p with twin2 := none, lines2 := 0 }
    | none => s
  | none =>
    match p.twin2.filter fun t => s.frameLive t && decide (frameChan t ≠ frameChan f) with
    | some g => fillIn s g
    | none =>
      match (s.twinChan (frameChan f)).bind fun c => s.freeIn c with
      | some g => fillIn (s.takeTwin pn g) g
      | none => s

/-- The rebuild of one page (R211 step 3). -/
def State.rebuildPage (s : State) (pn : Nat) : State :=
  if ! (s.page pn).urgent || ! (s.page pn).dirty then s
  else
    let s1 := match (s.page pn).place with
      | .t1 f => if s.frameLive f then s else s.rebuildPrimary pn f
      | _ => s
    match (s1.page pn).place with
    | .t1 f => if s1.frameLive f then s1.rebuildTwin pn f else s1
    | _ => s1

/-- Drains and reads under way on a channel that is read no more: the entries drain again, the reads are looked up again. -/
def State.abandonQueues (s : State) (ch : Nat) : List Nat × State :=
  let ids := (s.chan ch).writeQ.filterMap fun w => w.entry
  let mine := fun (w : DramWrite) => match w.entry with | some i => ids.contains i | none => false
  let chans := s.dram.ch.mapVals {} fun m x =>
    if m = ch then { x with writeQ := [] } else { x with writeQ := x.writeQ.filter fun w => ! mine w }
  let wb := s.near.wb.map fun e => if ids.contains e.id then { e with draining := false, left := 0, bad := none } else e
  let s1 : State := if (s.chan ch).writeQ.isEmpty then s else
    { s with near := { s.near with wb := wb }, dram := { s.dram with ch := chans } }
  s1.abandonReads fun f => frameChan f = ch

end Sys2Proof.Machine
end

