-- ==== Sys2Proof/Machine/Map.lean ====
section
/-! DEFINITION. The jacquard map (chapter 07): MARKs and the dirty count, lookups and heat, tier transitions and the
placement policy, the cleaning engine, map frames, the warmer and swatches. -/
namespace Sys2Proof.Machine

/-! ### Lookups -/

/-- JQ_LOOKUP (R221, R229, R231): a waiting request's lookup reaches the map tile; a miss reads the map line first. -/
def execJqLookup (pn line : Nat) (s : State) : Host.Outcome State Fault Refusal :=
  run (fun s => s.when ((s.waitingOn pn).contains line) fun s =>
    let t := s.mapTile pn
    let s := s.ringSend (s.ownerTile line) t 1
    if (s.page pn).cached || (s.unit (pn / 512)).dstate = .unloaded then
      (s.count (evTile t 8) (if (s.page pn).cached then 1 else 0)).lookup line
    else s.count (evTile t 9) 1) s

/-- The 64-bit directory entry of a unit (R222). -/
def UnitDir.word (u : UnitDir) : Word :=
  atBit (if u.dstate = .loaded then u.frame else 0) 0
    ||| atBit (match u.dstate with | .zero => 0 | .loaded => 1 | .unloaded => 2) 32
    ||| atFlag u.bound 34 ||| atFlag (u.bound && u.bdur) 35 ||| atBit (if u.bound then u.bkey else 0) 36

/-- The 64-bit forward entry of a page (R224), which lies at byte 8 × PN[8:0] of its unit's map frame (R223). -/
def PageEntry.word (p : PageEntry) : Word :=
  atBit p.gen 45 ||| match p.place with
  | .zero => 0
  | .t1 f => atBit 1 61 ||| atBit f 0 ||| atFlag p.dirty 31 ||| atFlag p.pin 32 ||| atFlag p.nocomp 33 ||| atBit p.heat 34
      ||| atBit p.stamp 38
  | .t2 sec k => atBit 2 61 ||| atBit sec 0 ||| atBit k 34 ||| atBit p.heat 37 ||| atBit p.stamp 41
  | .t3 a => atBit 3 61 ||| atBit a 0
  | .poison => atBit 4 61

/-- The word of a loaded unit's map frame at a byte (R223, R230): HEAT and STAMP as they stood when the entry was last evicted. -/
def State.mapWord (s : State) (unit byte : Nat) : Word :=
  let p := s.page (unit * 512 + byte / 8)
  (if p.cached then { p with heat := p.heat0, stamp := p.stamp0 } else p).word

/-- The channels of the two directory copies of a unit's entry (R222). -/
def State.dirChannels (s : State) (unit : Nat) : Nat × Nat := (unit / 512 % 16, s.partnerCh (unit / 512 % 16))

/-- The cached entry is lost: the map frame's entry counts again, with the heat it had (R230). -/
def PageEntry.uncached (p : PageEntry) : PageEntry :=
  if p.cached then { p with cached := false, heat := p.heat0, stamp := p.stamp0 } else p

/-- The set of a page in its jacquard-cache slice, and its tag (R229). -/
def jqSet (pn : Nat) : Nat := (pn % 2 ^ 17) ^^^ (pn / 2 ^ 17 % 2 ^ 16)
/-- See jqSet. -/
def jqTag (pn : Nat) : Nat := pn / 2 ^ 17 % 2 ^ 16

/-- A cached entry as its slice holds it (R229): the tag, the forward entry, TWIN with TWINV and the flags, and the check bits. -/
def State.jqEntry (s : State) (pn : Nat) : BitVec 16 × Word × Word × BitVec 9 :=
  let p := s.page pn
  let tag := BitVec.ofNat 16 (jqTag pn)
  let more := atBit (p.twin.getD 0) 0 ||| atFlag p.twin.isSome 31 ||| atFlag p.moving.isSome 32 ||| atFlag p.cleaning 33
    ||| atFlag p.redirty 34
  (tag, p.word, more, Config.jqCheck tag p.word more)

/-- The other cached entries of a page's set. -/
def State.jqRivals (s : State) (pn : Nat) : List Nat :=
  (s.map.pages.filter fun e =>
    e.2.cached && e.1 ≠ pn && jqSet e.1 = jqSet pn && s.mapTile e.1 = s.mapTile pn).map Prod.fst

/-- An entry is installed in the jacquard cache (R229 to R231): 8 ways of a set, of which one that is not BUSY or CLEANING gives
way. DESIGN CHOICE (log): with none such, the lookup is served and the entry is not installed. -/
def State.jqInstall (s : State) (pn : Nat) : State :=
  let rivals := s.jqRivals pn
  let idle := rivals.filter fun q => (s.page q).moving.isNone && ! (s.page q).cleaning
  let put (s : State) := s.modPage pn fun p => { p with cached := true, heat0 := p.heat, stamp0 := p.stamp }
  if rivals.length < 8 then put s
  else if idle.isEmpty then s
  else put (s.modPage (idle.getD (Config.jqVictim s.clock % idle.length) 0) fun p => { p with cached := false })

/-- A directory entry is installed in a map tile's directory cache of 65,536 entries (R222). -/
def State.dirInstall (s : State) (tile unit : Nat) : State :=
  let held := s.map.units.keysWhere fun u d => d.dirIn.getLsbD tile && u ≠ unit
  let s1 := if held.length < 65536 then s
    else s.modUnit (held.getD (Config.dirVictim s.clock % held.length) 0) fun d => { d with dirIn := putBit d.dirIn tile false }
  s1.modUnit unit fun d => { d with dirIn := putBit d.dirIn tile true }

/-- A directory-cache miss reads the directory entry first (R222, R231): copy A, or copy B where copy A has an uncorrectable
error, which is counted. -/
def State.dirRead (s : State) (pn : Nat) (copyBad : Bool) : State :=
  let t := s.mapTile pn
  if (s.unit (pn / 512)).dirIn.getLsbD t then s
  else
    let s1 := s.count (evTile t 10) 1
    let s2 := if copyBad then s1.countRead (s.dirChannels (pn / 512)).1 .uncorrectable else s1
    s2.dirInstall t (pn / 512)

/-- MAP_LINE_READ_COMPLETE (R222, R231): the directory entry and the map line are read and the entry that was asked for is
installed; the lookups that wait for it go on. copyBad: the directory's copy A returned an uncorrectable error. -/
def execMapLineReadComplete (pn : Nat) (copyBad : Bool) (s : State) : Host.Outcome State Fault Refusal :=
  run (fun s => s.when (! (s.waitingOn pn).isEmpty && ! (s.page pn).cached
      && decide ((s.unit (pn / 512)).dstate ≠ .unloaded)) fun s =>
    ((s.dirRead pn copyBad).jqInstall pn).releaseLookups pn) s

/-- Mark a page's transition as running. -/
def State.startMove (s : State) (pn : Nat) (m : Moving) : State :=
  (s.count (evTile (s.mapTile pn) 14) 1).modPage pn fun p => { p with moving := some m }

/-- Start a transition that reads the page's frame or sectors: at P5, or at the level of what waits for the page (R195, R386,
R390); it does not start while a read queue has no room. -/
def State.startReading (s : State) (pn f : Nat) (m : Moving) : State :=
  match s.pageRead pn f (s.pageLevel pn 5) (.move pn) with
  | some t => t.startMove pn { m with reading := true }
  | none => s

/-- Start a promotion into a frame (R233): a T3 page needs its beam read, a T2 page the read of its sectors. -/
def State.startPromotion (s : State) (pn f : Nat) (m : Moving) : State :=
  match (s.page pn).place with
  | .t3 a => ((s.useFrame f (.t1 pn none)).startMove pn m).beamRead a (s.pageLevel pn 5) false
  | .t2 sec _ => (match s.pageRead pn (sec / 8) (s.pageLevel pn 5) (.move pn) with
    | some t => (t.useFrame f (.t1 pn none)).startMove pn { m with reading := true }
    | none => s)
  | _ => (s.useFrame f (.t1 pn none)).startMove pn m

/-! ### Versions saved for swatches (R258) -/

/-- The newest swatch of a region that is not DROPPING. -/
def State.newestSwatch (s : State) (rgn : Nat) : Option (Nat × Swatch) :=
  ((s.swatchesOf rgn).filter fun e => e.2.st ≠ .dropping).getLast?

/-- Save a page's version in a swatch map (R258): a clean page at its record or as ZERO, any other in a new frame, for which
a clean page is evicted where none is free (R237). -/
def State.saveVersion (s : State) (slot pn : Nat) (w : Swatch) : State :=
  let p := s.page pn
  if (w.saved.get none pn).isSome then s
  else
    let put (s0 : State) (v : Saved) : State :=
      match s0.swatchFrame slot (pn / 512) with
      | some s =>
        let w1 : Swatch := { w with saved := w.saved.set none pn (some v) }
        let s1 : State := { s with map := { s.map with swatches := s.map.swatches.set {} slot w1 } }
        s1.delta (.swatch slot pn v.persist)
      | none => s0
    let byRec := match p.place with
      | .zero => some Place.zero
      | .poison => some .poison
      | .t3 a => some (.t3 a)
      | .t1 _ | .t2 _ _ => if ! p.dirty && p.beamv then some (if p.beam = 0 then .zero else .t3 p.beam) else none
    match byRec with
    | some pl => put s { place := pl }
    | none =>
      match (s.swatchFrame slot (pn / 512)).bind fun s => s.grabFrame (s.mapTile pn) fun _ => true with
      | some (f, s) =>
        put ((s.useFrame f (.t1 pn (some slot))).setFrame f (s.placeData p.place))
          { place := .t1 f, dirty := p.dirty && s.pageDurable pn, beamv := p.beamv, beam := p.beam }
      | none => s

/-- Start a transition (R233 to R237); one requested while another runs waits for its end: place names the frame, or the first sector, that the device takes. A read of
a T3 page that finds no frame is served without promotion (R237). -/
def State.transitionStart (s : State) (pn : Nat) (tier : Transition) (c : TransitionCause) (place : Nat) : State :=
  let p := s.page pn
  let m : Moving := { tier := tier, cause := c, place := place }
  if (s.vlt.stopped && c ≠ .write) || (s.unit (pn / 512)).dstate = .unloaded then s
  else if p.moving.isSome then
    if p.waiting.isNone then s.modPage pn fun p => { p with waiting := some m } else s
  else
    match tier with
    | .toT1 =>
      if ! s.mayPromote pn c then s
      else if s.frameOpen place && s.frameLeft c then s.startPromotion pn place m
      else if (c = .write || c = .pin) && s.freeFrames = 0 then
        match s.writeVictim (s.mapTile pn) fun _ => true with
        | some f => (s.evictFor f).startPromotion pn f { m with place := f }
        | none => s
      else if c = .read && ! s.frameLeft c then s.count (evBeam 6) 1 else s
    | .toT2 =>
      match p.place with
      | .t1 f =>
        if ! (s.mayDemote pn && s.hint pn ≠ 2 && s.compEn && (c = .policy || c = .descriptor)) then s
        else
          let d := s.frameData f
          if d.zero || 7 < sectorsFor d.clen then s.startReading pn f m
          else if s.sectorsFree place (sectorsFor d.clen) then
            let s1 := s.startReading pn f m
            if (s1.page pn).moving.isSome then s1.useFrame (place / 8) .t2 else s
          else s
      | _ => s
    | .toT3 =>
      match p.place with
      | .t1 _ | .t2 _ _ =>
        if ! (s.mayDemote pn && (c = .policy || c = .descriptor)) || (! s.pageDurable pn && c = .policy && ! s.volT3) then s
        else if p.beamv then (s.unpurpose pn).startMove pn m
        else match p.place.frame with
          | some f => (s.unpurpose pn).startReading pn f m
          | none => s
      | _ => s

/-- The transition that was requested while another ran starts now, in its frame or, where that is taken, in the lowest
free one. -/
def State.startWaiting (s : State) (pn : Nat) : State :=
  match (s.page pn).moving, (s.page pn).waiting with
  | none, some m =>
    let s1 := s.modPage pn fun p => { p with waiting := none }
    s1.transitionStart pn m.tier m.cause
      (if m.tier = .toT1 && ! s.frameOpen m.place then s.lowestFree.getD m.place else m.place)
  | _, _ => s

/-- A unit in DSTATE ZERO takes a map frame when an entry of it leaves ZERO (R223); where none is free that of a clean page, which
is evicted (DESIGN CHOICE, log). -/
def State.mapUnit (s : State) (u : Nat) : State :=
  if (s.unit u).dstate = .zero then
    match s.grabFrame (s.mapTile (u * 512)) fun _ => true with
    | some (f, s) => (s.useFrame f (.mapF u none)).modUnit u fun d => { d with dstate := .loaded, frame := f }
    | none => s
  else s

/-- Write an entry: a delta goes out where its persistent form changes (R287). -/
def State.writeEntry (s : State) (pn : Nat) (p : PageEntry) : State :=
  let s0 := if p.place = .zero then s else s.mapUnit (pn / 512)
  let s1 := s0.modPage pn fun _ => p
  if p.persist = (s.page pn).persist then s1 else s1.deltaPage pn

/-- A transition of the warmer counts in JQ_WARM (R254). -/
def State.warmDoneOf (s : State) (c : TransitionCause) : State :=
  if c = .warmer then { s with map := { s.map with warmed := s.map.warmed + 1 } } else s

/-- The transition of a page ends: the entry is written and the held lookups go on (R233, R235). -/
def State.transitionFinish (s : State) (pn : Nat) : State :=
  let p := s.page pn
  match p.moving with
  | none => s
  | some m =>
    if m.reading || (m.tier = .toT1 && (s.chan (frameChan m.place)).throttle && decide (5 ≤ s.pageLevel pn 5)) then s else
    let base := { p with moving := none }
    match m.tier with
    | .toT1 =>
      let ready := match p.place with | .t3 a => ! (s.beam.reads.any fun r => r.addr = a) | _ => true
      if ! ready then s
      else
        let hd := match p.place with
          | .t2 sec _ => (match s.dram.t2.get none sec with | some t => (t.beamv, t.beam) | none => (false, 0))
          | .t3 a => (true, a)
          | .zero => (s.pageDurable pn, 0)
          | _ => (false, 0)
        let d := s.placeData p.place
        match if s.frameUse m.place = .t1 pn none && s.frameUsable m.place then some (m.place, s)
            else s.lowestFree.map fun f => (f, s.useFrame f (.t1 pn none)) with
        | none => s
        | some (f, s0) =>
        let s1 := ((s0.freePlace p.place).setFrame f d).warmDoneOf m.cause
        ((s1.writeEntry pn { base with
          place := .t1 f, dirty := false, beamv := hd.1, beam := hd.2
          ppoison := decide (p.place = .poison), nocomp := p.nocomp && m.cause ≠ .write }).releaseLookups pn)
    | .toT2 =>
      match p.place with
      | .t1 f =>
        let d := s.frameData f
        let k := sectorsFor d.clen
        if d.zero then
          ((s.freeFrame f).writeEntry pn { base with place := .zero, beam := 0, beamv := false }).releaseLookups pn
        else if 7 < k then (s.modPage pn fun _ => { base with nocomp := true }).releaseLookups pn
        else if ! s.frameUsable (m.place / 8) then (s.modPage pn fun _ => base).releaseLookups pn
        else
          let t : T2Page := ⟨pn, k, p.beamv, p.beam, none, d.clen, d⟩
          let s1 := ((s.freeFrame f).useFrame (m.place / 8) .t2)
          let s2 : State := { s1 with dram := { s1.dram with t2 := s1.dram.t2.set none m.place (some t) } }
          (s2.writeEntry pn { base with place := .t2 m.place k }).releaseLookups pn
      | .t3 a =>
        match s.beam.recs.get none a with
        | some r =>
          if s.beam.reads.any fun r => r.addr = a then s
          else if ! s.frameUsable (m.place / 8) then (s.modPage pn fun _ => base).releaseLookups pn
          else
            let t : T2Page := ⟨pn, r.sectors, true, a, none, r.clen, r.content⟩
            let s1 := (s.useFrame (m.place / 8) .t2).warmDoneOf m.cause
            let s2 : State := { s1 with dram := { s1.dram with t2 := s1.dram.t2.set none m.place (some t) } }
            (s2.writeEntry pn { base with place := .t2 m.place r.sectors, beamv := true, beam := a }).releaseLookups pn
        | none => (s.modPage pn fun _ => base).releaseLookups pn
      | _ => s
    | .toT3 =>
      let rec_ := if p.beamv then (if p.beam = 0 then some Place.zero else some (.t3 p.beam))
        else match s.beam.recs.find? fun e => match e.2 with
            | some r => r.purpose = .clean pn && r.confirmed | none => false with
          | some e => some (.t3 e.1)
          | none => none
      match rec_ with
      | some pl =>
        ((s.freePlace p.place).writeEntry pn { base with place := pl, beamv := false, beam := 0 }).releaseLookups pn
      | none => s

/-- The transition ends, and the one requested meanwhile starts. -/
def State.transitionEnd (s : State) (pn : Nat) : State := (s.transitionFinish pn).startWaiting pn

/-- TIER_TRANSITION_COMPLETE (R233). -/
def execTierTransitionComplete (pn : Nat) (s : State) : Host.Outcome State Fault Refusal :=
  run (fun s => s.transitionEnd pn) s

/-! ### MARK (R236, R243, R244, R248, R258) -/

/-- A MARK ends a demotion in progress (R236): the entry stays, sectors it took are released and lookups go on. -/
def State.abandonMove (s : State) (pn : Nat) : State :=
  match (s.page pn).moving with
  | some m =>
    if m.tier = .toT1 then s
    else
      let s1 := s.modPage pn fun p => { p with moving := none }
      let s2 := if m.tier = .toT2 then s1.freeT2Frame (m.place / 8) else s1
      (s2.releaseLookups pn).startWaiting pn
  | none => s

/-- A page becomes or stays dirty by a MARK (R243, R248). -/
def State.markDirty (s : State) (pn : Nat) : State :=
  let p := s.page pn
  let s1 := if p.cleaning then s.wakeDrives.count (evTile (s.mapTile pn) 13) 1 else s.wakeDrives
  let s2 := s1.modPage pn fun p => { p with
    dirty := true, redirty := p.redirty || p.cleaning, nocomp := false }
  if p.dirty then s2 else { s2 with map := { s2.map with journal := s2.map.journal ++ [(pn, s.opMs)] } }

/-- Handle the oldest MARK of a page (R243). It stays in transit while its page is not in T1, which a transition
started by the write brings about (R186); while entries accepted before a cut still drain (R258); and while its map
tile is under recovery. -/
def State.handleMark (s : State) (pn : Nat) : State :=
  match s.map.marks.find? fun m => m.pn = pn with
  | none => s
  | some m =>
    if s.coh.recovering.getLsbD (hashMapTile pn) then s.count (evTile (s.mapTile pn) 11) 1
    else
      let s0 := s.abandonMove pn
      match (s0.page pn).place with
      | .t1 _ =>
        let g := s0.gen m.region
        let cow := decide ((s0.page pn).gen ≠ g.gen) && decide (m.gen = g.gen)
        let old := s0.near.wb.any fun e => pageOf e.line = pn && e.gen ≠ m.gen
        if (s0.page pn).moving.isSome || (cow && (s0.newestSwatch m.region).isSome && old) then s0
        else
          let s1 := match cow, s0.newestSwatch m.region with
            | true, some w => (s0.saveVersion w.1 pn w.2).modPage pn fun p => { p with gen := g.gen }
            | _, _ => s0
          let saved := match cow, s0.newestSwatch m.region with
            | true, some w => ((s1.map.swatches.get ({} : Swatch) w.1).saved.get none pn).isSome
            | _, _ => true
          let s2 : State := { s1 with map := { s1.map with marks := s1.map.marks.erase m } }
          if ! saved then s0
          else if m.durable then s2.markDirty pn
          else s2.modPage pn fun p => { p with beamv := false, nocomp := false }
      | _ => s0

/-- MARK (R243). -/
def execMark (pn : Nat) (s : State) : Host.Outcome State Fault Refusal := run (fun s => s.handleMark pn) s

/-! ### Placement policy (R239, R240) -/

/-- The order in which pages are evicted: COLD, then AUTO and UNCOMP by effective heat, then HOT. -/
def State.evictRank (s : State) (pn : Nat) : Nat :=
  match s.hint pn with
  | 3 => 0
  | 1 => 32
  | _ => 1 + (s.page pn).effHeat s.map.epoch

/-- A page is a candidate for eviction while free frames are short (R239). -/
def State.evictable (s : State) (pn : Nat) : Bool :=
  let p := s.page pn
  (match p.place with | .t1 _ | .t2 _ _ => true | _ => false) && s.mayDemote pn && p.moving.isNone
    && (s.pageDurable pn || s.volT3)
    && (s.hint pn = 3 || s.hint pn = 1 || decide (p.effHeat s.map.epoch ≤ s.evictHeat))

/-- A sweep would compress the page (R239). -/
def State.compressible (s : State) (pn : Nat) : Bool :=
  let p := s.page pn
  (match p.place with | .t1 _ => true | _ => false) && s.mayDemote pn && ! p.nocomp
    && (match s.hint pn with
      | 0 => decide (p.effHeat s.map.epoch ≤ s.compHeat)
      | 3 => decide (p.effHeat s.map.epoch < s.promoHeat)
      | _ => false)

/-- PLACEMENT_SWEEP_STEP (R239, R240): the steward's sweep at a map tile visits its next page, in ascending order: while free frames are short it
evicts the first candidate in eviction order, else it compresses a page that is cold enough. -/
def execPlacementSweepStep (tile pn place : Nat) (s : State) : Host.Outcome State Fault Refusal :=
  run (fun s => s.when (s.glb.steward && ! s.vlt.stopped && (s.sweepPages tile).head? = some pn) fun s =>
    let s : State := { s with map := { s.map with sweepAt := s.map.sweepAt.set 0 tile (pn + 1) } }
    let low := decide (s.freeFrames * 1000 < s.framesInService * s.freeLo)
    let high := decide (s.framesInService * s.freeHi < s.freeFrames * 1000)
    let s1 : State := { s with map := { s.map with evictMode := low || (s.map.evictMode && ! high) } }
    if s1.map.evictMode then
      s1.when (s1.evictable pn && ! (s1.map.pages.any fun e =>
        s1.evictable e.1 && decide (s1.evictRank e.1 < s1.evictRank pn))) fun s =>
        s.transitionStart pn .toT3 .policy place
    else s1.when (s1.compressible pn) fun s => s.transitionStart pn .toT2 .policy place) s

/-! ### The cleaning engine (R246 to R249) -/

/-- The page's primary frame lies on a HOT channel, so the engine skips it (R205). -/
def State.onHot (s : State) (pn : Nat) : Bool :=
  match (s.page pn).place with
  | .t1 f => (s.chan (frameChan f)).throttle
  | _ => false

/-- A dirty page at rest that the engine may take. -/
def State.cleanable (s : State) (pn : Nat) : Bool :=
  let p := s.page pn
  p.dirty && ! p.cleaning && p.moving.isNone && ! s.onHot pn && (match p.place with | .t1 _ => true | _ => false)

/-- Pages that a level-3 seal waits to see cleaned. -/
def State.sealPages (s : State) : List Nat :=
  (s.rng.seals.filter fun x => x.level = 3).flatMap fun x => x.pages

/-- The page the engine takes next: pages a seal waits on, then pages named by R211 and R359, then the journal. -/
def State.cleanNext (s : State) (pn : Nat) : Bool :=
  s.cleanable pn
    && (s.sealPages.contains pn
      || (! (s.sealPages.any fun p => s.cleanable p)
        && ((s.page pn).urgent
          || (! (s.map.pages.any fun e => e.2.urgent && s.cleanable e.1)
            && ((s.map.journal.find? fun j => s.cleanable j.1).map Prod.fst) = some pn))))

/-- Set CLEANING on a page and send the sync (R247 steps 1 and 2). -/
def State.beginClean (s : State) (pn : Nat) : State :=
  ((s.unpurpose pn).count (evTile (s.mapTile pn) 12) 1).modPage pn fun p =>
    { p with cleaning := true, synced := 0, syncId := s.near.wbNext }

/-- A clean for a level-3 seal takes 4,096 B from the BEAM bucket of the seal's ring owner while that has a rate; short of
them it waits (R375). -/
def State.sealTokens (s : State) (pn : Nat) : Option State :=
  match s.rng.seals.find? fun x => x.level = 3 && x.pages.contains pn with
  | none => some s
  | some x =>
    let h := fld (s.rng.rings.get {} x.ring).ctl 4 4
    let b := s.budget h
    if 65536 ≤ x.ring || b.bmRate = 0 then some s
    else if b.bm < 81920 then none
    else some (s.setBudget h { b with bm := b.bm - 81920 })

/-- The page's primary frame lies on a channel in service. -/
def State.primLive (s : State) (pn : Nat) : Bool :=
  match (s.page pn).place with
  | .t1 f => s.frameLive f
  | _ => false

/-- The entries marked SPILL of a page that a tile accepted before an identity was given out (R321). -/
def State.heldLines (s : State) (pn upTo : Nat) : List WbEntry :=
  s.near.wb.filter fun e => e.spill && pageOf e.line = pn && decide (e.id < upTo)

/-- The content that a clean of a page writes: its primary frame, or what R190 gives for it, with the lines held in entries marked
SPILL over it (R321). -/
def State.cleanData (s : State) (pn : Nat) : PageData :=
  (s.heldLines pn (s.page pn).syncId).foldl (fun (d : PageData) e =>
    d.set {} (e.line % 64) ((d.get {} (e.line % 64)).lay e.data e.mask e.poison e.whole)) (s.placeData (s.page pn).place)

/-- The page is clean: the lines that its record took from entries marked SPILL go to its primary frame, where that is live, and
the entries are released. -/
def State.settleHeld (s : State) (pn : Nat) : State :=
  (s.heldLines pn (s.page pn).syncId).foldl (fun (s : State) e =>
    match (s.page pn).place with
    | .t1 f =>
      let s1 := if s.frameLive f then
          s.setCell f (e.line % 64) ((s.cell f (e.line % 64)).lay e.data e.mask e.poison e.whole) else s
      s1.dropEntry e.id
    | _ => s.dropEntry e.id) s

/-- CLEAN_START (R247 steps 1 and 2): CLEANING is set and the sync goes out. From commit no clean starts (R352); while
52 DELTA segments are listed new records are held (R289). A page that waits for the rebuild of R211 is rebuilt first; the lookups
that it held go on. One that no channel can take is cleaned with the lines its entries marked SPILL hold (R321). -/
def execCleanStart (pn : Nat) (s : State) : Host.Outcome State Fault Refusal :=
  run (fun s => s.when (s.cleanNext pn && ! s.vlt.stopped && decide (s.beam.deltaSegs.length < 52)) fun s =>
    let s1 := (s.rebuildPage pn).releaseLookups pn
    if (s1.primLive pn || ! (s1.heldLines pn s1.near.wbNext).isEmpty) && ! s1.onHot pn then
      match s1.sealTokens pn with
      | some t => t.beginClean pn
      | none => s1
    else s1) s

/-- Tiles in service. -/
def State.liveTiles (s : State) : List Nat := (List.range 16).filter fun t => ! s.tileRetired t

/-- A write to the page was accepted after its clean began (R23, R248): its MARK came, or is still on its way. -/
def State.redirtied (s : State) (pn : Nat) : Bool := (s.page pn).redirty || s.map.marks.any fun m => m.pn = pn

/-- The clean of a page that holds a poison line (R484): no record, a POISON delta, and the page counts as clean; with REDIRTY it
stays dirty and keeps its twin. -/
def State.cleanPoison (s : State) (pn : Nat) : State :=
  let q := { s.page pn with cleaning := false, redirty := false, ppoison := true }
  let r := s.redirtied pn
  let s1 :=
    if r then s.writeEntry pn q
    else
      ((q.twin.toList ++ q.twin2.toList).foldl (fun (s : State) f => s.freeTwin f) s).writeEntry pn
        { q with dirty := false, twin := none, twin2 := none, lines := 0, lines2 := 0, urgent := false }
  s1.sealCleaned pn r

/-- The level of a clean's read (R386, R390): P1 for a level-3 seal's clean, P3 where the seal's head has no BEAM rate (R375), else
P5. -/
def State.cleanLevel (s : State) (pn : Nat) : Nat :=
  s.pageLevel pn (match s.rng.seals.find? fun x => x.level = 3 && x.pages.contains pn with
    | none => 5
    | some x => if decide (x.ring < 65536) && (s.qos.heads.get {} (fld (s.rng.rings.get {} x.ring).ctl 4 4)).bmRate = 0 then 3
        else 1)

/-- Every tile in service has answered the sync of a clean. -/
def State.syncDone (s : State) (pn : Nat) : Bool := s.liveTiles.all fun t => (s.page pn).synced.getLsbD t

/-- No segment is free to the stream that a level-3 seal's page needs (R321): the seal ends with DURABILITY_LOST. -/
def State.loseSeals (s : State) (pn : Nat) : State :=
  let hit (x : Seal) : Bool := x.level = 3 && x.pages.contains pn
  ({ s with rng := { s.rng with seals := s.rng.seals.map fun x => if hit x then { x with lost := true } else x } }
    : State).checkSeals

/-- The frame of a page under a clean has been read (R247 steps 3 to 5): the page is encoded and its record enters the CLEAN
stream; none: no segment has room. -/
def State.cleanRead (s : State) (pn : Nat) : Option State :=
  let p := s.page pn
  if ! p.cleaning || ! s.syncDone pn then some s
  else
    let d := s.cleanData pn
    if d.hasPoison then some (s.cleanPoison pn)
    else (s.append 0 (pageRec pn (s.unit (pn / 512)).bkey d none (.clean pn))).map Prod.snd

/-- CLEAN_SYNC_ANSWER (R247 steps 2 and 3): a tile answers once every entry of the page that it accepted before the sync has
drained or is marked SPILL; with the last answer the read of the page's primary frame enters the channel's queue. An answer whose read
finds no room there comes again. -/
def execCleanSyncAnswer (pn tile : Nat) (s : State) : Host.Outcome State Fault Refusal :=
  run (fun s =>
    let p := s.page pn
    if ! p.cleaning || p.synced.getLsbD tile
        || (s.near.wb.any fun e => e.tile = tile && pageOf e.line = pn && decide (e.id < p.syncId) && ! e.spill) then s
    else
      let s1 := s.modPage pn fun p => { p with synced := putBit p.synced tile true }
      if ! s1.syncDone pn then s1
      else match p.place with
        | .t1 f =>
          if s1.frameLive f then (s1.pageRead pn f (s1.cleanLevel pn) (.clean pn)).getD s
          else (s1.cleanRead pn).getD (s.loseSeals pn)
        | _ => s1) s

/-- The frame of a page under a tier transition has been read: a demotion to T3 of a page without a current record writes one;
none: no segment has room. -/
def State.moveRead (s : State) (pn : Nat) : Option State :=
  match (s.page pn).moving with
  | none => some s
  | some m =>
    let s1 := s.modPage pn fun p => { p with moving := some { m with reading := false } }
    if m.tier ≠ .toT3 then some s1
    else (s1.append 0 (pageRec pn (s.unit (pn / 512)).bkey (s.placeData (s.page pn).place) none (.clean pn))).map Prod.snd

/-- The confirmed record that a purpose waits for. -/
def State.recFor (s : State) (w : RecFor) : Option Nat :=
  (s.beam.recs.find? fun e => match e.2 with
    | some r => decide (r.purpose = w) && r.confirmed
    | none => false).map Prod.fst

/-- A record has served its purpose. -/
def State.recDone (s : State) (a : Nat) : State :=
  match s.beam.recs.get none a with
  | some r => { s with beam := { s.beam with recs := s.beam.recs.set none a (some { r with purpose := .none }) } }
  | none => s

/-- A clean ends (R247 steps 6 and 7): the entry names the new record; without REDIRTY the page is clean and its twin
frame is released, with it the page stays dirty. -/
def State.cleanEnd (s : State) (pn a : Nat) : State :=
  let p := s.page pn
  let s0 := s.recDone a
  let s1 : State := match p.place with
    | .t2 sec _ =>
      let t2 := s0.dram.t2.mapVals none fun k t =>
        if k = sec then t.map (fun (t : T2Page) => { t with beamv := true, beam := a }) else t
      { s0 with dram := { s0.dram with t2 := t2 } }
    | _ => s0
  let q := { p with cleaning := false, beam := a, beamv := true, redirty := false, ppoison := false }
  let r := s.redirtied pn
  let s2 :=
    if r then
      let s2 := s1.writeEntry pn q
      { s2 with map := { s2.map with journal := (s2.map.journal.filter fun j => j.1 ≠ pn) ++ [(pn, s.opMs)] } }
    else
      let s2 := (p.twin.toList ++ p.twin2.toList).foldl (fun (s : State) f => s.freeTwin f) (s1.settleHeld pn)
      let s3 := s2.writeEntry pn { q with dirty := false, twin := none, twin2 := none, lines := 0, lines2 := 0, urgent := false }
      { s3 with map := { s3.map with journal := s3.map.journal.filter fun j => j.1 ≠ pn } }
  s2.sealCleaned pn r

/-- CLEAN_COMPLETE (R247, R23). -/
def execCleanComplete (pn : Nat) (s : State) : Host.Outcome State Fault Refusal :=
  run (fun s => s.when (s.page pn).cleaning fun s =>
    match s.recFor (.clean pn) with
    | some a => (s.cleanEnd pn a).checkSeals
    | none => s) s

/-! ### Map frames (R223, R250 to R252) -/

/-- The entry a rebuilt map frame gets (R250): a page found in DRAM stays; else its persistent entry; a VOLATILE page
found nowhere becomes POISON. HEAT and STAMP restart. -/
def State.rebuilt (s : State) (pn : Nat) : PageEntry :=
  let p := s.page pn
  let q := { p with heat := 0, stamp := 0, heat0 := 0, stamp0 := 0, cached := false }
  let lost : PageEntry := { q with
    place := if p.beamv || s.pageDurable pn then recPlace p.beam else .poison, beamv := false, beam := 0 }
  match p.place with
  | .t1 f => if s.frameLive f || p.urgent then q else lost
  | .t2 sec _ => if s.frameLive (sec / 8) then q else lost
  | .zero => if s.pageDurable pn then q else { q with place := .poison }
  | _ => q

/-- MAP_FRAME_REBUILD (R250): a lost map frame's unit is rebuilt into a free frame. -/
def execMapFrameRebuild (unit frame : Nat) (s : State) : Host.Outcome State Fault Refusal :=
  run (fun s => s.when (s.map.rebuilding.contains unit && s.frameOpen frame) fun s =>
    let pages := (List.range 512).map fun i => unit * 512 + i
    let s1 := (s.useFrame frame (.mapF unit none)).modUnit unit fun u => { u with dstate := .loaded, frame := frame }
    let s2 := pages.foldl (fun (s : State) pn =>
      let q := s.rebuilt pn
      let fresh := decide (q.place = .poison) && decide ((s.page pn).place ≠ .poison)
      let s' := s.writeEntry pn q
      if fresh then s'.poisoned 5 (pn * 64) 64 else s') s1
    let s3 : State := { s2 with map := { s2.map with rebuilding := s2.map.rebuilding.filter fun u => u ≠ unit } }
    pages.foldl (fun (s : State) pn => s.releaseLookups pn) s3) s

/-- The live entry of a persistent one. -/
def PEntry.entry (e : PEntry) : PageEntry :=
  match e.place with
  | .zero | .absent => { gen := e.gen }
  | .t3 a => { place := .t3 a, gen := e.gen }
  | .poison => { place := .poison, gen := e.gen }

/-- Load a unit's entries from the persistent map (R251). -/
def State.loadUnit (s : State) (unit frame : Nat) : State :=
  let mine := s.beam.cold.pages.filter fun e => e.1 / 512 = unit
  let s1 := (s.useFrame frame (.mapF unit none)).modUnit unit fun u => { u with dstate := .loaded, frame := frame }
  mine.foldl (fun (s : State) e =>
    let s' := s.modPage e.1 fun _ => e.2.entry
    if e.2.place = .poison then s'.indexPoison (e.1 * 64) 64 else s') s1

/-- A unit of a VOLATILE region becomes ZERO and UNBOUND at a cold restore, with its UNIT delta (R252). -/
def State.unbindUnit (s : State) (unit : Nat) : State :=
  (s.modUnit unit fun _ => {}).delta (.unit unit false {})

/-- MAP_UNIT_LOAD (R251, R252): the map loader takes a unit on demand, or the lowest one in its background pass. -/
def execMapUnitLoad (unit frame : Nat) (s : State) : Host.Outcome State Fault Refusal :=
  run (fun s =>
    let pages := (List.range 512).map fun i => unit * 512 + i
    let asked := pages.any fun pn => ! (s.waitingOn pn).isEmpty
    let u := s.unit unit
    s.when (s.vlt.active && ! s.vlt.stopped && s.beam.coldUnits.contains unit
        && (asked || s.beam.coldUnits.head? = some unit)) fun s =>
      let vol := u.bound && ! u.bdur
      if ! vol && ! s.frameOpen frame then s
      else
        let s1 := if vol then s.unbindUnit unit else s.loadUnit unit frame
        let rest := s.beam.coldUnits.filter fun x => x ≠ unit
        let s2 : State := { s1 with
          beam := { s1.beam with coldUnits := rest }
          map := { s1.map with mapLoad := s1.map.mapLoad && ! rest.isEmpty } }
        pages.foldl (fun (s : State) pn => s.releaseLookups pn) s2) s

/-- WARMER_FILL (R254): the read of the next warm page starts: an HPC-1 record that fits 7 sectors goes to T2, pages of UNCOMP
and HOT regions and the others to T1; TIER_TRANSITION_COMPLETE ends it. The warmer stops at FREE_HI or at the end of its list. -/
def execWarmerFill (pn place : Nat) (s : State) : Host.Outcome State Fault Refusal :=
  run (fun s => s.when (s.map.warming && ! s.map.mapLoad && ! s.vlt.stopped) fun s =>
    let stop := s.map.warm.isEmpty || decide (s.freeFrames * 1000 ≤ s.framesInService * s.freeHi)
    if stop then { s with map := { s.map with warming := false, warmDone := true } }
    else if s.map.warm.head? ≠ some pn then s
    else
      let s1 : State := { s with map := { s.map with warm := s.map.warm.drop 1 } }
      match (s.page pn).place with
      | .t3 a =>
        match s.beam.recs.get none a with
        | some r =>
          if r.kind = .hpc1 && s.hint pn ≠ 1 && s.hint pn ≠ 2 then
            if s.sectorsFree place r.sectors && s.compEn && ! (s.chan (frameChan (place / 8))).throttle then
              ((s1.useFrame (place / 8) .t2).startMove pn { tier := .toT2, cause := .warmer, place := place }).beamRead a
                (s.pageLevel pn 5) false
            else s
          else if s.frameOpen place then s1.startPromotion pn place { tier := .toT1, cause := .warmer, place := place }
          else s
        | none => s1
      | _ => s1) s

/-! ### Swatches (R256, R263) -/

/-- SWATCH_HOLD_ANSWER (R256): a tile that stopped writes to the region answers; the last answer is the cut, and the
tiles accept writes again. The take completes with the swatch's number and slot. -/
def execSwatchHoldAnswer (slot tile : Nat) (s : State) : Host.Outcome State Fault Refusal :=
  run (fun s =>
    let w := s.map.swatches.get {} slot
    if w.st ≠ .taking || ! w.waits.getLsbD tile || s.vlt.stopped then s
    else
      let w1 := { w with waits := putBit w.waits tile false }
      if w1.waits ≠ 0 then { s with map := { s.map with swatches := s.map.swatches.set {} slot w1 } }
      else
        let g := (s.gen w.region).gen + 1
        let w2 := { w1 with st := .live, gen := g % 65536, order := s.map.takes }
        let s1 : State := { s with map := { s.map with
          swatches := s.map.swatches.set {} slot w2, takes := s.map.takes + 1
          gens := s.map.gens.set {} w.region
            { gen := g % 65536, sweep := decide (g % 32768 = 0), hold := false } } }
        let s2 := (List.range 16).foldl (fun (s : State) t => s.retryWrites t) s1
        s2.endDescriptor w.ring 0x00 fun a => { a with
          result := atBit w.num 0 ||| atBit slot 8 ||| atBit (g % 65536) 16 }) s

/-- GEN_SWEEP (R263): every entry of the region whose GEN differs from CUR_GEN gets CUR_GEN - 1. The entries are those of its
loaded units: the sweep waits for units that the map loader has still to load, and a unit in ZERO has none (R222). -/
def execGenSweep (region : Nat) (s : State) : Host.Outcome State Fault Refusal :=
  run (fun s =>
    let r := s.region region
    let mine := fun (u : Nat) => decide (r.base ≤ u) && decide (u < r.base + r.size)
    s.when ((s.gen region).sweep && ! s.map.units.any fun e => mine e.1 && decide (e.2.dstate = .unloaded)) fun s =>
    let g := (s.gen region).gen
    let pages := (s.map.units.keysWhere fun u d => mine u && decide (d.dstate = .loaded)).flatMap fun u =>
      (List.range 512).map fun i => u * 512 + i
    let s1 := pages.foldl (fun (s : State) pn =>
      if (s.page pn).gen = g then s
      else (s.modPage pn fun p => { p with gen := (g + 65535) % 65536 }).deltaPage pn) s
    { s1 with map := { s1.map with gens := s1.map.gens.set {} region { s1.gen region with sweep := false } } }) s

end Sys2Proof.Machine
end

