-- ==== Sys2Proof/Machine/Mirror.lean ====
section
/-! DEFINITION. Mirrored regions and the packets this device sends on the selvedge link (R440, R441, R451, R453, R457,
R464): what other chapters need of chapter 13. -/
namespace Sys2Proof.Machine

/-! ### SLV_CTL -/

/-- EN. -/
def Slv.en (x : Slv) : Bool := flag x.ctl 0
/-- MAX_RATE in force. -/
def Slv.maxRate (x : Slv) : Nat := min 2 (fld x.ctl 1 2)
/-- MIN_WIDTH. -/
def Slv.minWidth (x : Slv) : Nat := fld x.ctl 5 2
/-- HEADROOM, 64 to 1,152. -/
def Slv.headroom (x : Slv) : Nat := min 1152 (max 64 (fld x.ctl 16 12))
/-- DIV_SEGS; 0 acts as 1. -/
def Slv.divSegs (x : Slv) : Nat := max 1 (fld x.ctl 28 8)

/-- The transmitter obeys XOFF (R455). -/
def Slv.obeys (x : Slv) : Bool := x.fbTx && (x.tx.xoff || (x.pinOn && x.xoffPin))

/-! ### Packets (R450, R451, R453) -/

/-- Words of a class's transmit FIFO. -/
def fifoCap (c : Nat) : Nat := match c with | 1 => 65536 | 3 => 16384 | _ => 512

/-- A class's FIFO has room for n words. -/
def State.slvRoom (s : State) (c n : Nat) : Bool := decide ((s.slv.tx.fifo.get [] c).length + n ≤ fifoCap c)

/-- Word 0 of a packet, with its other bits. -/
def pktWord0 (type len : Nat) (rest : Word) : Word := atBit (type % 256) 0 ||| atBit (len % 1024) 8 ||| rest

/-- Put a packet into its class's FIFO, whole, with an end mark on its last word, or leave it waiting for room behind earlier ones
of its class. A packet longer than the FIFO enters an empty one, as its words leave (R451). -/
def State.slvPush (s : State) (c : Nat) (ws : List Word) : State :=
  let first := ! s.slv.tx.waiting.any fun e => e.1 = c
  if first && (s.slvRoom c ws.length || (s.slv.tx.fifo.get [] c).isEmpty) then
    let marked := ws.mapIdx fun i w => (w, decide (i + 1 = ws.length))
    let tx := s.slv.tx
    { s with slv := { s.slv with tx := { tx with fifo := tx.fifo.set [] c (tx.fifo.get [] c ++ marked) } } }
  else
    let tx := s.slv.tx
    { s with slv := { s.slv with tx := { tx with waiting := tx.waiting ++ [(c, ws)] } } }

/-- Packets that waited for room enter their FIFOs, in order. -/
def State.pushWaiting (s : State) : State :=
  s.slv.tx.waiting.foldl (fun (s : State) e => s.slvPush e.1 e.2)
    { s with slv := { s.slv with tx := { s.slv.tx with waiting := [] } } }

/-- A packet of one word with content after word 0. -/
def pkt (type : Nat) (rest : Word) (content : List Word) : List Word :=
  pktWord0 type (content.length + 1) rest :: content

/-- An entry of an RMAP packet. -/
def RmapEntry.word (e : RmapEntry) : Word :=
  atBit (e.index % 4096) 0 ||| atBit (e.size % 2 ^ 25) 12 ||| atBit (e.peer % 4096) 37 ||| atFlag e.window 49
    ||| atBit (e.mstate % 8) 50 ||| atFlag e.complete 53

/-! ### Sources and windows (R440, R441) -/

/-- An ACTIVE ORDINARY region with MIRROR = 1. -/
def Region.isSource (r : Region) : Bool := r.active && r.window = 0 && r.mirror

/-- An ACTIVE MIRROR window. -/
def Region.isMirror (r : Region) : Bool := r.active && r.window = 4

/-- The entries of this device's RMAP packet. -/
def State.rmapNow (s : State) : List RmapEntry :=
  (s.regions.filter fun e => e.2.isSource || e.2.isMirror).map fun e =>
    ⟨e.1, e.2.size, e.2.peer, e.2.isMirror, (s.slvRgn e.1).mst, (s.slvRgn e.1).complete⟩

/-- Send an RMAP packet. -/
def State.sendRmap (s : State) : State := s.slvPush 0 (pkt 0x04 0 (s.rmapNow.map RmapEntry.word))

/-- Region n has its counterpart in the partner's last RMAP (R440). -/
def State.matched (s : State) (n : Nat) (r : Region) : Bool :=
  s.slv.rmap.any fun e => e.index = r.peer && (e.window != r.isMirror) && e.peer = n && e.size = r.size

/-- Level-2 seals of a region that leaves SYNC complete with MIRROR_LOST (R460). -/
def State.loseMirror (s : State) (n : Nat) : State :=
  { s with rng := { s.rng with seals := s.rng.seals.map fun y =>
    if y.level = 2 && y.region = n && ! y.noMirror then { y with mirrorLost := true } else y } }

/-! ### Entering COPY or RESYNC (R464) -/

/-- The live-map pages that the delta entries from a segment SEQ on name: pages and whole units. Entries not yet in a
record count, since the segments they go to follow. -/
def State.deltasSince (s : State) (seq : Nat) : List Delta :=
  (s.beam.recs.filterMap fun e => match e.2 with
    | some r => if r.kind = .delta && decide (seq ≤ r.seq) then some r.deltas else none
    | none => none).flatten ++ s.beam.deltas

/-- The resync set of a region that kept a DIV_SEQ. -/
def State.resyncSet (s : State) (r : Region) (seq : Nat) : List Nat :=
  let mine := fun (pn : Nat) => decide (r.base * 512 ≤ pn) && decide (pn < (r.base + r.size) * 512)
  let dirty := (s.map.pages.filter fun e => mine e.1 && e.2.dirty).map Prod.fst
  let named := (s.deltasSince seq).flatMap fun d => match d with
    | .page pn _ => if mine pn then [pn] else []
    | .unit u false _ => (List.range 512).filterMap fun i => if mine (u * 512 + i) then some (u * 512 + i) else none
    | _ => []
  (dirty ++ named).eraseDups

/-- A source region starts its copy or resync (R464). -/
def State.startMirror (s : State) (n : Nat) : State :=
  let x := s.slvRgn n
  if x.held then s
  else if x.div = 0 || x.div = 2 ^ 64 - 1 then
    s.modSlv n fun x => { x with mst := 1, copyNext := some 0, set := [], rdone := false }
  else
    let ps := s.resyncSet (s.region n) x.div
    s.modSlv n fun x => { x with mst := 2, copyNext := none, set := (x.set ++ ps).eraseDups, rdone := false }

/-- A source region without its window, or a window without its source (R440). -/
def State.unmatchedRegion (s : State) (n : Nat) (source : Bool) : State :=
  let s1 := (s.loseMirror n).modSlv n fun x => { x with mst := 5 }
  if source then s1.note ⟨1, 0x33, n, none⟩ else s1

/-- Judge a source or window against the partner's RMAP while the pair is PAIRED. -/
def State.judgeMirror (s : State) (n : Nat) : State :=
  let r := s.region n
  let x := s.slvRgn n
  if r.isSource then
    if ! s.matched n r then (if x.mst = 5 then s else s.unmatchedRegion n true)
    else if x.mst = 0 || x.mst = 4 || x.mst = 5 then s.startMirror n else s
  else if r.isMirror then
    match s.slv.rmap.find? fun e => e.index = r.peer && ! e.window && e.peer = n && e.size = r.size with
    | none => if x.mst = 5 then s else s.unmatchedRegion n false
    | some e => s.modSlv n fun x => { x with
        peerMst := e.mstate, mst := if x.mst = 0 || x.mst = 4 || x.mst = 5 then e.mstate else x.mst }
  else s

/-- A region table entry changed (R440, R441, R468): its mirror state follows, and a paired device sends RMAP again. -/
def State.mirrorChanged (s : State) (n : Nat) (old : Region) : State :=
  let r := s.region n
  let concerned := old.isSource || old.isMirror || r.isSource || r.isMirror
  let s1 := if ! r.active && old.active then (s.loseMirror n).modSlv n fun _ => {}
    else if r.active && ! old.active && ! old.wasInForce then s.modSlv n fun _ => {}
    else if old.isSource && ! r.isSource && r.active then (s.loseMirror n).modSlv n fun x => { x with
      mst := 0, div := 0, copyNext := none, set := [] }
    else s
  if concerned && s.slv.pair = .paired then (s1.judgeMirror n).sendRmap else s1

end Sys2Proof.Machine
end

