-- ==== Sys2Proof/Machine/Regions.lean ====
section
/-! DEFINITION. The region table (chapter 02): writes to its words, the check of an entry (R48 to R51, R604), creation
and release (R52), bindings (R53) and DLOST (R57). -/
namespace Sys2Proof.Machine

/-! ### Releasing content -/

/-- Release the DRAM storage of a saved swatch entry. -/
def State.freeSaved (s : State) (v : Saved) : State := s.freePlace v.place

/-- A swatch is dropped whole (R52, R262, R504): its copies are released and its slot is FREE; alias windows that show
it read poison (R42). -/
def State.dropSwatch (s : State) (slot : Nat) : State :=
  let w := s.map.swatches.get {} slot
  let s1 := w.saved.foldl (fun (s : State) e => match e.2 with
    | some v => (s.freeSaved v).delta (.swatch slot e.1 ⟨.absent, 0⟩)
    | none => s) s
  let maps := s1.dram.frames.keysWhere fun _ u => match u with | .mapF _ k => k = some slot | _ => false
  let s1 := maps.foldl (fun (s : State) f => s.freeFrame f) s1
  { s1 with
    map := { s1.map with swatches := s1.map.swatches.set {} slot {} }
    regions := s1.regions.mapVals {} fun _ r =>
      if r.active && r.window = 3 && r.peer = w.region && r.swatch = w.num then { r with aliasBroken := true } else r }

/-- Drop every swatch of a region. -/
def State.dropSwatches (s : State) (rgn : Nat) : State :=
  (s.map.swatches.keysWhere fun _ w => decide (w.st ≠ .free) && decide (w.region = rgn)).foldl
    (fun (s : State) k => s.dropSwatch k) s

/-- Release a page's DRAM storage and its twin frames. -/
def State.releasePage (s : State) (pn : Nat) : State :=
  let p := s.page pn
  let s1 := (p.twin.toList ++ p.twin2.toList).foldl (fun (s : State) f => s.freeTwin f) (s.freePlace p.place)
  let s2 := match p.moving with
    | some m => if m.tier = Transition.toT1 then s1.freeFrame m.place else s1
    | none => s1
  { s2 with map := { s2.map with pages := s2.map.pages.set {} pn {} } }

/-- Every page of the units for which p holds reads as zeros (R52, R223, R504): near-cache lines, write-buffer
entries, queued DRAM writes, MARKs, journal entries, page entries and poison records of those pages go, and no
record of theirs is waited for. -/
def State.zeroUnits (s : State) (p : Nat → Bool) : State :=
  let inPage := fun (pn : Nat) => p (pn / 512)
  let inLine := fun (l : Nat) => p (l / 32768)
  let gone := s.near.wb.filter fun e => inLine e.line
  let s1 : State := { s with
    near := { s.near with
      nc := s.near.nc.restrict fun k w => ! (w.v && inLine (ncLine (k / 16 % 32768) w.tag))
      wb := s.near.wb.filter fun e => ! inLine e.line
      poisonIdx := s.near.poisonIdx.filter fun e => ! inLine e.1 }
    coh := { s.coh with lent := s.coh.lent.restrict fun l _ => ! inLine l }
    dram := { s.dram with ch := s.dram.ch.mapVals {} fun _ c => { c with
      writeQ := c.writeQ.filter fun w => ! (gone.any fun e => w.entry = some e.id) } }
    beam := { s.beam with
      cold := { s.beam.cold with pages := s.beam.cold.pages.restrict fun pn _ => ! inPage pn }
      coldUnits := s.beam.coldUnits.filter fun u => ! p u
      recs := s.beam.recs.mapVals none fun _ r => r.map fun r =>
        if inPage r.page then { r with purpose := .none } else r } }
  let s2 := (s.map.pages.keysWhere fun pn _ => inPage pn).foldl (fun (s : State) pn => s.releasePage pn) s1
  let s3 := (s.map.units.filter fun e => p e.1 && decide (e.2.dstate = .loaded)).foldl
    (fun (s : State) e => (s.freeFrame e.2.frame).modUnit e.1 fun u => { u with dstate := .zero, frame := 0 }) s2
  let s4 : State := { s3 with map := { s3.map with
    units := s3.map.units.mapVals {} fun u d => if p u then { d with dstate := .zero, frame := 0 } else d
    marks := s3.map.marks.filter fun m => ! inPage m.pn
    journal := s3.map.journal.filter fun j => ! inPage j.1
    warm := s3.map.warm.filter fun pn => ! inPage pn
    rebuilding := s3.map.rebuilding.filter fun u => ! p u } }
  let s5 := (s4.sealPages.filter inPage).foldl (fun (s : State) pn => s.sealCleaned pn false) s4
  gone.foldl (fun (s : State) e => e.waiters.foldl (fun (s : State) w => s.complete w.1 w.2) s) s5

/-! ### The check -/

/-- How many heads hold rights other than NONE. -/
def Region.holderCount (r : Region) : Nat := popCount r.holders

/-- Some head's rights use the reserved encoding 0b10. -/
def Region.accReserved (r : Region) : Bool := (List.range 16).any fun h => r.acc2 h = 2

/-- Some head holds READ_WRITE. -/
def Region.anyWrite (r : Region) : Bool := (List.range 16).any fun h => r.acc2 h = 3

/-- The row of R45 for the entry's window. -/
def Region.row (r : Region) : Bool :=
  match r.window with
  | 0 => if r.durable then decide (r.wpol ≤ 1) && (! r.noalloc || r.wpol = 0)
         else ! r.mirror && (! r.noalloc || r.wpol = 0)
  | 1 => ! r.durable && ! r.mirror && r.home && r.coh = 2 && r.wpol = 0 && ! r.noalloc && r.thint = 0
  | 2 => ! r.durable && ! r.mirror && r.home && r.wpol = 0 && ! r.noalloc && r.thint = 0
  | 3 => ! r.durable && ! r.mirror && ! r.home && r.coh = 1 && r.wpol = 0 && ! r.noalloc && ! r.anyWrite
  | 4 => r.durable && ! r.mirror && decide (r.wpol ≤ 1) && (! r.noalloc || r.wpol = 0) && ! r.anyWrite
  | _ => false

/-- Fields without a meaning for the window hold 0 (R32). INIT has none outside ORDINARY and MIRROR windows, which alone it
acts on (R52). live: the entry is in force; it may hold the PEER of the MIRROR window that a takeover made ORDINARY (R44). -/
def Region.unusedZero (r : Region) (live : Bool) : Bool :=
  (! r.keep || r.window = 2) && (r.key = 0 || (r.window ≠ 1 && r.window ≠ 3)) && (r.swatch = 0 || r.window = 3)
    && (! r.initZero || r.mapped) && (r.scrOff = 0 || r.pooled)
    && (live || r.peer = 0 || r.window = 3 || r.window = 4 || (r.window = 0 && r.mirror))

/-- R32, R45 and R46 hold. -/
def Region.legal (r : Region) (live : Bool) : Bool :=
  decide (r.coh ≤ 2) && decide (r.thint ≤ 3) && ! r.accReserved && (r.coh ≠ 0 || r.holderCount = 1) && r.row
    && r.unusedZero live

/-- ACTIVE entries other than n. -/
def State.otherActive (s : State) (n : Nat) : List (Nat × Region) := s.regions.filter fun e => e.1 ≠ n && e.2.active

/-- Two unit ranges overlap. -/
def unitsOverlap (a n b m : Nat) : Bool := decide (a < b + m) && decide (b < a + n)

/-- R37, R38 and R40 hold. -/
def State.poolFits (s : State) (n : Nat) (r : Region) : Bool :=
  let o := s.otherActive n
  ! r.pooled ||
    ((r.window ≠ 1 || (r.size = 2 && ! o.any fun e => e.2.window = 1))
      && decide (r.scrOff + r.size ≤ 16 * s.near.curScr)
      && ! (o.any fun e => e.2.pooled && unitsOverlap r.scrOff r.size e.2.scrOff e.2.size)
      && (! r.keep || decide (((o.filter fun e => e.2.window = 2 && e.2.keep).map fun e => e.2.size).sum + r.size ≤ 32)))

/-- The source of an alias window is there (R41). DESIGN CHOICE (log): an alias whose SIZE differs from that of region PEER gets
the same code, SOURCE; the ERR table names neither SOURCE nor COMBINATION for it. -/
def State.sourceOk (s : State) (r : Region) : Bool :=
  r.window ≠ 3 || ((s.region r.peer).active && (s.region r.peer).size = r.size && (s.swatchNum r.peer r.swatch).isSome)

/-- A key slot is LOADED (R497). -/
def State.keyLoaded (s : State) (k : Nat) : Bool := s.sec.salts.get 0 k ≠ 0

/-- KEY encrypts stored data for this entry (R32). -/
def Region.keyUsed (r : Region) : Bool := r.mapped || (r.window = 2 && r.keep)

/-- Fields that only an entry with VALID = 0 may change (R54). -/
def Region.fixedEq (a b : Region) : Bool :=
  a.base = b.base && a.size = b.size && a.durable = b.durable && a.key = b.key && a.window = b.window
    && a.peer = b.peer && a.swatch = b.swatch && a.scrOff = b.scrOff && a.initZero = b.initZero

/-- The first code of R604 that applies to an entry, KEEP_MISMATCH apart; old is the value in force of an ACTIVE
entry. -/
def State.regionCheck (s : State) (n : Nat) (old : Option Region) (r : Region) : Nat :=
  let o := s.otherActive n
  let used := ((o.filter fun e => e.2.mapped).map fun e => e.2.size).sum
  if (match old with | some x => ! x.fixedEq r | none => false) then 0x09
  else if r.size = 0 || 16777216 < r.base + r.size then 0x02
  else if ! r.legal (old.isSome || r.wasInForce) then 0x03
  else if ! s.poolFits n r then 0x05
  else if ! s.sourceOk r then 0x08
  else if r.keyUsed && ! s.keyLoaded r.key then 0x07
  else if o.any fun e => unitsOverlap r.base r.size e.2.base e.2.size then 0x01
  else if r.mapped && decide (s.beam.pageCap < (used + r.size) * 512) then 0x04
  else 0x00

/-- A unit that a cold restore has still to load is BOUND with DURABLE 0: the restore made it UNBOUND (R53). -/
def State.coldVolatile (s : State) (u : Nat) : Bool :=
  s.beam.coldUnits.contains u && (s.unit u).bound && ! (s.unit u).bdur

/-- A BOUND unit of the range carries another DURABLE or KEY value (R53). -/
def State.keepMismatch (s : State) (r : Region) : Bool :=
  s.map.units.any fun e => decide (r.base ≤ e.1) && decide (e.1 < r.base + r.size) && e.2.bound
    && (e.2.bdur != r.durable || e.2.bkey ≠ r.key) && ! s.coldVolatile e.1

/-! ### Creation and release -/

/-- A failing check's notice (R50, R51). -/
def State.checkFail (s : State) (n code : Nat) : State := s.note ⟨1, 0x04, n % 4096 + code % 64 * 4096, none⟩

/-- A unit that a cold restore left UNBOUND with every page ZERO is so now, and is not loaded any more (R53, R252). -/
def State.dropCold (s : State) (u : Nat) : State :=
  if s.coldVolatile u then
    let s1 := s.unbindUnit u
    { s1 with beam := { s1.beam with
      coldUnits := s1.beam.coldUnits.filter fun x => x ≠ u
      cold := { s1.beam.cold with pages := s1.beam.cold.pages.restrict fun pn _ => pn / 512 ≠ u } } }
  else s

/-- Bind the units of a range (R53); each change of binding goes out as a UNIT delta. -/
def State.bindUnits (s : State) (r : Region) : State :=
  ((List.range r.size).map fun i => r.base + i).foldl (fun (s0 : State) u =>
    let s := s0.dropCold u
    let b : Binding := ⟨true, r.durable, r.key⟩
    if (s.unit u).binding = b && ! r.initZero then s
    else (s.modUnit u fun d => { d with bound := true, bdur := r.durable, bkey := r.key }).delta
      (.unit u (! r.initZero) b)) s

/-- Copy the content held for a SCRATCH_KEEP window into the pool (R365, R293, R355). -/
def State.refillPool (s : State) (r : Region) : State :=
  let lo := r.scrOff * 512
  let hi := lo + r.size * 512
  let mine := fun (b : Nat) => decide (lo ≤ b) && decide (b < hi)
  let s1 := s.vlt.keep.foldl (fun (s : State) e =>
    match e.2 with
    | some d => if mine e.1 then
        (List.range 64).foldl (fun (s : State) i => s.setScr (e.1 * 64 + i) (d.get {} i)) s
      else s
    | none => s) s
  let s2 := (s.vlt.keepPoison.filter mine).foldl (fun (s : State) b =>
    (List.range 64).foldl (fun (s : State) i => s.setScr (b * 64 + i) { poison := true }) s) s1
  let held := s2.dram.frames.keysWhere fun _ u => match u with | .keep b => mine b | _ => false
  let s3 := held.foldl (fun (s : State) f => s.freeFrame f) s2
  { s3 with vlt := { s3.vlt with
    keep := s3.vlt.keep.restrict fun b _ => ! mine b
    keepPoison := s3.vlt.keepPoison.filter fun b => ! mine b } }

/-- Drop the clean near-cache lines of an alias window's range: they show another swatch or other content (R41, R42). -/
def State.dropAliasLines (s : State) (r : Region) : State :=
  if r.window ≠ 3 then s
  else
    let mine := fun (l : Nat) => decide (r.base * 32768 ≤ l) && decide (l < (r.base + r.size) * 32768)
    { s with
      near := { s.near with nc := s.near.nc.restrict fun k w => ! (w.v && ! w.d && mine (ncLine (k / 16 % 32768) w.tag)) }
      coh := { s.coh with lent := s.coh.lent.restrict fun l _ => ! mine l } }

/-- An entry becomes ACTIVE (R52). fresh: INIT acts and units are bound; not so for an entry that was in force in the
restored table (R29). -/
def State.activate (s : State) (n : Nat) (r : Region) (fresh : Bool) : State :=
  let s1 := if fresh && r.mapped && r.initZero then
      (s.dropSwatches n).zeroUnits fun u => decide (r.base ≤ u) && decide (u < r.base + r.size)
    else s
  let s2 := if fresh && r.mapped then s1.bindUnits r else s1
  let s3 := if r.window = 2 && r.keep then s2.refillPool r else s2.dropAliasLines r
  s3.modRegion n fun _ => { r with active := true, err := 0, wasInForce := false, aliasBroken := false }

/-- VALID is cleared (R48, R52, R57): the entry leaves force, ERR and DLOST clear; alias windows over it break (R42). -/
def State.release (s : State) (n : Nat) (r : Region) : State :=
  let old := s.region n
  let s1 := (if old.active then s.dropAliasLines old else s).modRegion n fun _ =>
    { r with active := false, err := 0, wasInForce := false, dlost := false, aliasBroken := false }
  { s1 with regions := s1.regions.mapVals {} fun _ x =>
      if x.active && x.window = 3 && x.peer = n then { x with aliasBroken := true } else x }

/-- The entry with one word written: RW bits only (R31). -/
def Region.putWord (r : Region) (w : Nat) (v : Word) : Region :=
  match w with
  | 0 => { r with geo := v &&& 0x8001FFFFFFFFFFFF }
  | 1 => { r with attr := v &&& 0xFF01FFFF }
  | 2 => { r with acc := v &&& 0xFFFFFFFF }
  | _ => { r with aux := v &&& 0x7F000F0FFF }

/-- Check an entry that is not ACTIVE and act on the outcome (R29, R48, R50, R52). -/
def State.checkNew (s : State) (n : Nat) (r : Region) : State :=
  let code := s.regionCheck n none r
  if code ≠ 0 then (s.modRegion n fun _ => { r with err := code, active := false }).checkFail n code
  else if r.wasInForce then s.activate n r false
  else if r.mapped && ! r.initZero then s.modRegion n fun _ => { r with err := 0x0A, active := false }
  else s.activate n r true

/-- Apply a write to a region word (R48 to R55). -/
def State.regionWrite (s : State) (n w : Nat) (v : Word) : State :=
  let r := s.region n
  let r1 := r.putWord w v
  if ! r1.valid then s.release n r1
  else if r.active then
    let code := s.regionCheck n (some r) r1
    if code ≠ 0 then (s.modRegion n fun x => { x with err := code }).checkFail n code
    else (s.dropAliasLines r1).modRegion n fun _ => { r1 with err := 0, aliasBroken := false }
  else s.checkNew n r1

/-- WRITE_LOST about RGN_ATTR of a region (R8, R44). -/
def State.writeLost (s : State) (n : Nat) : State := s.note ⟨1, 0x02, regArgInd (0x10001 + 4 * n), none⟩

/-- A software write to a region word. A write to RGN_ATTR in the FCLK cycle of the takeover update does not change WINDOW
(R8, R44); the cycle of any other write to it is noted. -/
def State.softRegionWrite (s : State) (n w : Nat) (v : Word) : State :=
  if w ≠ 1 then s.regionWrite n w v
  else if (s.region n).took = some s.clock then
    (s.regionWrite n w (putFld v 12 3 (s.region n).window)).writeLost n
  else (s.regionWrite n w v).modRegion n fun r => { r with wrote := some s.clock }

/-- RGN_WRITE (R31, R48): only the management head and the management interface write the table. -/
def execRgnWrite (src region word : Nat) (value : Word) (s : State) : Host.Outcome State Fault Refusal :=
  run (fun s => s.when (s.reaches src && decide (region < 4096) && decide (word < 4)) fun s =>
    if s.isMgmt src then ((s.softRegionWrite region word value).mirrorChanged region (s.region region)).checkSeals
    else s.access src region 2 (regArgInd (0x10000 + 4 * region + word))) s

/-- RGN_BINDING_COMPARE_DONE (R48, R53): the comparison of a PENDING entry ends. -/
def execRgnBindingCompareDone (region : Nat) (s : State) : Host.Outcome State Fault Refusal :=
  run (fun s =>
    let r := s.region region
    s.when (r.valid && ! r.active && r.err = 0x0A) fun s =>
      let code := s.regionCheck region none r
      let code1 := if code ≠ 0 then code else if s.keepMismatch r then 0x06 else 0
      if code1 ≠ 0 then (s.modRegion region fun x => { x with err := code1 }).checkFail region code1
      else (s.activate region r true).mirrorChanged region r) s

/-- A page of the region is dirty, or a MARK of it is on its way. -/
def State.regionDirty (s : State) (r : Region) : Bool :=
  let mine := fun (pn : Nat) => decide (r.base * 512 ≤ pn) && decide (pn < (r.base + r.size) * 512)
  (s.map.pages.any fun e => mine e.1 && e.2.dirty) || (s.map.marks.any fun m => mine m.pn)

/-- DLOST_CLEAR (R57): every dirty page of the region has been written to the beam again. -/
def execDlostClear (region : Nat) (s : State) : Host.Outcome State Fault Refusal :=
  run (fun s => s.when ((s.region region).dlost && ! s.regionDirty (s.region region)) fun s =>
    s.modRegion region fun r => { r with dlost := false }) s

end Sys2Proof.Machine
end

