-- ==== Sys2Proof/Machine/NearConfig.lean ====
section
/-! DEFINITION. Configuration of the near cache (chapter 04): scratch and locked ways, way power-down, and the retirement
of a way (R112 to R123, R135 to R140). -/
namespace Sys2Proof.Machine

/-- Valid lines of way w of slice n, with their set. -/
def State.wayLines (s : State) (n w : Nat) : List (Nat × NcWay) :=
  (s.near.nc.filter fun e => e.1 / 524288 = n && e.1 % 16 = w && e.2.v).map fun e => (e.1 / 16 % 32768, e.2)

/-- Clean and invalidate a way (R122): a line with an open transaction is waited for, a line with D set is written
back, a line lent to this tile goes back to its home tile first (R168). keep: lines with LOCK set stay (R114). The Bool says
that the way is empty. -/
def State.cleanWay (s : State) (n w : Nat) (keep : Bool) : Bool × State :=
  (s.wayLines n w).foldl (fun (a : Bool × State) e =>
    let line := ncLine e.1 e.2.tag
    let t := a.2
    if t.lineOpen line || (keep && e.2.lock) then (false, t)
    else if t.ownerTile line ≠ t.homeTile line then
      (false, t.setWay n e.1 w { e.2 with evicting := true, lock := false })
    else if e.2.d then
      match t.writeBack line e.2.cell with
      | some u => (a.1, u.setWay n e.1 w {})
      | none => (false, t)
    else (a.1, t.setWay n e.1 w {})) (true, s)

/-- Clean one way in every slice whose tile is in service. -/
def State.cleanWays (s : State) (way : Nat → Option Nat) : Bool × State :=
  ((List.range 16).filter fun n => ! s.tileRetired n).foldl (fun (a : Bool × State) n =>
    match way n with
    | some w => let r := a.2.cleanWay n w false; (a.1 && r.1, r.2)
    | none => a) (true, s)

/-- Mark a way of a slice powered down or not. -/
def State.setOff (s : State) (n w : Nat) (b : Bool) : State :=
  { s with near := { s.near with off := s.near.off.set 0 n (putBit (s.near.off.get 0 n) w b) } }

/-- A locked way of a slice still has to be cleaned, or no longer. -/
def State.setLockCleaning (s : State) (n w : Nat) (b : Bool) : State :=
  { s with near := { s.near with
    lockCleaning := s.near.lockCleaning.set 0 n (putBit (s.near.lockCleaning.get 0 n) w b) } }

/-- LOCK clears on the lines of the ways that stop being locked ways. -/
def State.dropLocks (s : State) : State :=
  let nc := s.near.nc.mapVals {} fun k x =>
    if x.lock && ! (s.lockedWays (k / 524288)).contains (k % 16) then { x with lock := false } else x
  { s with near := { s.near with nc := nc } }

/-- Lines of locked ways have PROT 0 (R111). -/
def State.dropProts (s : State) : State :=
  let nc := s.near.nc.mapVals {} fun k x =>
    if x.prot && (s.lockedWays (k / 524288)).contains (k % 16) then { x with prot := false } else x
  { s with near := { s.near with nc := nc } }

/-- Ways that become locked ways wait to be cleaned (R115); old is the state before. -/
def State.newLocks (s old : State) : State :=
  State.dropProts <| (List.range 16).foldl (fun (s : State) n =>
    ((s.lockedWays n).filter fun w => ! (old.lockedWays n).contains w).foldl
      (fun (s : State) w => s.setLockCleaning n w true) s) s

/-- LOCK_WAYS comes into force (R115): ways added wait for their cleaning, ways that leave lose their locks. -/
def State.applyLocks (s : State) : State :=
  let s1 : State := { s with near := { s.near with curLock := s.lockReq } }
  (s1.newLocks s).dropLocks

/-- A write to NC_CTL (R139). -/
def State.ncCtl (s : State) (v : Word) : State :=
  ({ s with near := { s.near with ctl := v &&& 0x3FF37F } } : State).applyLocks

/-- A write to a global register: from the management head or the management interface it acts, from another head it
has no effect and posts an ACCESS notice (R80). arg names the register (R602). -/
def State.globalWrite (s : State) (src arg : Nat) (f : State → State) : State :=
  s.when (s.reaches src) fun s => if s.isMgmt src then f s else s.access src 0xFFF 1 arg

/-- NC_CTL_WRITE (R139). -/
def execNcCtlWrite (src : Nat) (value : Word) (s : State) : Host.Outcome State Fault Refusal :=
  run (fun s => s.globalWrite src (regArgInd 0x20000) fun s => s.ncCtl value) s

/-- Drop the pool lines of scratch slot k. -/
def State.clearSlot (s : State) (k : Nat) : State :=
  { s with near := { s.near with scr := s.near.scr.restrict fun l _ => l / 524288 ≠ k } }

/-- SCR_WAY_CONVERT (R118): one way of every slice is cleaned, zeroed and joins the pool. -/
def execScrWayConvert (s : State) : Host.Outcome State Fault Refusal :=
  run (fun s => s.when (decide (s.near.curScr < s.scrReq)) fun s =>
    let a := s.cleanWays s.nextScratch
    if a.1 then
      let s1 := (List.range 16).foldl (fun (t : State) n =>
        match s.nextScratch n with | some w => t.setOff n w false | none => t) (a.2.clearSlot s.near.curScr)
      { s1 with near := { s1.near with curScr := s1.near.curScr + 1 } }
    else a.2) s

/-- An ACTIVE CONTROL or SCRATCH window ends beyond k units of the pool. -/
def State.poolUsedBeyond (s : State) (k : Nat) : Bool :=
  s.regions.any fun e => e.2.active && e.2.pooled && decide (k < e.2.scrOff + e.2.size)

/-- Record a near-cache way as retired, with its notice and event records (R74, R135, R137). -/
def State.ncWayGone (s : State) (n w lost : Nat) : State :=
  let u := 16 * n + w
  let s1 : State := { s with
    boot := { s.boot.keep 1 with retNc := putBit s.boot.retNc u true, pendNc := putBit s.boot.pendNc u false }
    near := { s.near with retiring := putBit s.near.retiring u false, lostLocks := s.near.lostLocks.set 0 u 0 } }
  ((s1.modBucket 2 u fun b => { b with retired := true }).note
    ⟨1, 0x12, 2 * 256 + u + min lost 65535 * 65536, none⟩).eventAll ⟨.memoryModule, 0x12, u⟩

/-- SCR_WAY_RETURN (R119, R136): the highest slot goes back to the cache; a way of it that waits for retirement is
retired. A reduction that a window forbids changes nothing. -/
def execScrWayReturn (s : State) : Host.Outcome State Fault Refusal :=
  run (fun s => s.when (decide (s.scrReq < s.near.curScr) && ! s.poolUsedBeyond (16 * s.scrReq)) fun s =>
    let s1 : State := { s.clearSlot (s.near.curScr - 1) with near := { (s.clearSlot (s.near.curScr - 1)).near with
      curScr := s.near.curScr - 1 } }
    (List.range 16).foldl (fun (t : State) n =>
      ((s.scratchWays n).filter fun w => s.boot.pendNc.getLsbD (16 * n + w) && ! (s1.scratchWays n).contains w).foldl
        (fun (t : State) w => t.ncWayGone n w 0) t) s1) s

/-- LOCK_WAY_CONVERT (R115): a way that becomes a locked way is cleaned and invalidated; LK lines may then allocate. -/
def execLockWayConvert (slice way : Nat) (s : State) : Host.Outcome State Fault Refusal :=
  run (fun s => s.when ((s.near.lockCleaning.get 0 slice).getLsbD way) fun s =>
    if ! (s.lockedWays slice).contains way then s.setLockCleaning slice way false
    else
      let a := s.cleanWay slice way false
      if a.1 then (a.2.setLockCleaning slice way false).setOff slice way false else a.2) s

/-- A line of the way that has D set belongs on a HOT channel, on which way-clean writebacks for power-down stop (R195, R204). -/
def State.wayHot (s : State) (n w : Nat) : Bool := (s.wayLines n w).any fun e => e.2.d && s.onHot (pageOf (ncLine e.1 e.2.tag))

/-- WAY_POWER_DOWN (R122): the way is cleaned, then powered down; it waits while a line of it has LOCK set (R114). -/
def execWayPowerDown (slice way : Nat) (s : State) : Host.Outcome State Fault Refusal :=
  run (fun s => s.when (decide (slice < 16) && ! s.tileRetired slice && (s.offTarget slice).contains way
      && ! (s.near.off.get 0 slice).getLsbD way && ! s.wayHot slice way) fun s =>
    let a := s.cleanWay slice way true
    if a.1 then a.2.setOff slice way true else a.2) s

/-- WAY_POWER_UP (R123): the way returns to service with every V 0. -/
def execWayPowerUp (slice way : Nat) (s : State) : Host.Outcome State Fault Refusal :=
  run (fun s => s.when ((s.near.off.get 0 slice).getLsbD way && ! (s.offTarget slice).contains way) fun s =>
    s.setOff slice way false) s

/-- Retirement of a unit is due: its bucket is over the threshold, and no power loss defers it (R474, R476, R478). -/
def State.retireDue (s : State) (k u : Nat) : Bool := s.flt.deferred.contains (k, u) && ! s.deferring

/-- A due retirement has been carried out. -/
def State.retireTaken (s : State) (k u : Nat) : State :=
  ({ s with flt := { s.flt with deferred := s.flt.deferred.filter fun e => e ≠ (k, u) } } : State).modBucket k u
    fun b => { b with retired := true }

/-- Locked lines that a way holds. -/
def State.lockedIn (s : State) (n w : Nat) : Nat := ((s.wayLines n w).filter fun e => e.2.lock).length

/-- Retire a near-cache way (R135, R136): a scratch way waits for the pool to shrink; any other takes no allocation and is
cleaned, locked lines treated like the rest and counted over all passes, and a way that takes over a locked role is cleaned
before LK lines allocate in it. -/
def State.retireNcWay (s : State) (n w : Nat) : State :=
  let u := 16 * n + w
  if (s.scratchWays n).contains w then
    let s1 := (({ s with boot := { s.boot.keep 1 with pendNc := putBit s.boot.pendNc u true } } : State).retireTaken
      2 u).modBucket 2 u fun b => { b with retired := false }
    if s.boot.pendNc.getLsbD u then s1 else s1.note ⟨1, 0x13, 2 * 256 + u, none⟩
  else
    let s0 : State := { s with near := { s.near with retiring := putBit s.near.retiring u true } }
    let a := s0.cleanWay n w false
    let lost := s.near.lostLocks.get 0 u + s.lockedIn n w - a.2.lockedIn n w
    if a.1 then ((a.2.retireTaken 2 u).ncWayGone n w lost).newLocks s
    else { a.2 with near := { a.2.near with lostLocks := a.2.near.lostLocks.set 0 u lost } }

/-- NC_WAY_RETIRE (R135). -/
def execNcWayRetire (slice way : Nat) (s : State) : Host.Outcome State Fault Refusal :=
  run (fun s => s.when (s.retireDue 2 (16 * slice + way)) fun s => s.retireNcWay slice way) s

end Sys2Proof.Machine
end

