-- ==== Sys2Proof/Machine/Dram.lean ====
section
/-! DEFINITION. The completions of DRAM accesses (R99, R198 to R200, R206 to R208), rank and channel retirement (R210 to R214),
training (R215 to R217), and the retirement of a snoop-filter way (R177). -/
namespace Sys2Proof.Machine

/-! ### Reads -/

/-- The place a queued line read was meant for still stands: the frame is where the line is read now. -/
def State.readStands (s : State) (x : DramRead) : Bool :=
  match s.regionAt x.line with
  | some (_, r) => (match s.linePlace r x.line with
    | some (_, .t1 f) => s.t1Source f (x.line % 64) = .t1 x.frame
    | some (_, pl) => pl.frame = some x.frame
    | none => false)
  | none => false

/-- The request that a read served looks its line up again; an atomic at memory waits for its page again. -/
def State.readAgain (s : State) (line : Nat) : State :=
  match s.txn line with
  | some t =>
    if t.phase ≠ .dram then s
    else if t.req.atP2 then s.phase t.req .atomicWait
    else (s.phase t.req .lookup).lookup line
  | none => s

/-- The line of its frame that a read of a line concerns for its error: a T2 page fails as a whole, at any of its sectors. -/
def State.errLine (s : State) (x : DramRead) : Nat :=
  match s.regionAt x.line with
  | some (_, r) => (match s.linePlace r x.line with
    | some (_, .t2 sec _) => sec % 8 * 8
    | _ => x.line % 64)
  | none => x.line % 64

/-- A line read has returned and its errors are dealt with: the line is forwarded; a page that left its frame meanwhile, or has no
DRAM copy left, is looked up again. -/
def State.lineRead (s : State) (x : DramRead) : State :=
  match s.txn x.line, s.regionAt x.line with
  | some t, some (_, r) =>
    if t.phase ≠ .dram then s
    else if s.readStands x then
      match s.linePlace r x.line with
      | some (_, pl) => s.fetched x.line (s.placeLine pl (x.line % 64))
      | none => s.fetched x.line { poison := true }
    else s.readAgain x.line
  | some t, none => if t.phase = .dram then s.fetched x.line { poison := true } else s
  | none, _ => s

/-- The write-back of a corrected line to its place at P5 (R207): it writes the line as it stands when it is issued. A full write
queue takes none (DESIGN CHOICE, log). -/
def State.writeCorrected (s : State) (f idx : Nat) : State :=
  if (s.chan (frameChan f)).writesOn (idx % 2) < 64 then s.queueWrite f idx {} 0 false none 5 else s

/-- Check a read line (R206, R207). -/
def State.checked (s : State) (f idx : Nat) (err : ReadErr) (otherBad : Bool) : State :=
  let s1 := s.dramError f idx err otherBad
  if err = .corrected then s1.writeCorrected f idx else s1

/-- DRAM_READ_COMPLETE (R196, R206, R207): the read that its scheduler may issue is issued and returns; its lines are checked,
repaired where they must be, and forwarded. line is the line of the frame at which the read of a whole frame meets its error. -/
def execDramReadComplete (ch id : Nat) (err : ReadErr) (line : Nat) (otherCopyBad : Bool) (s : State) :
    Host.Outcome State Fault Refusal :=
  run (fun s =>
    match (s.chan ch).readQ.find? fun x => x.id = id with
    | none => s
    | some x =>
      s.when (s.readIssues ch x) fun s =>
        let s1 := s.issueRead ch x
        match x.why with
        | .line =>
          if ! s1.readStands x then s1.readAgain x.line
          else (s1.checked x.frame (s1.errLine x) err otherCopyBad).lineRead x
        | .clean pn => ((s1.checked x.frame line err otherCopyBad).cleanRead pn).getD (s.loseSeals pn)
        | .move pn => ((s1.checked x.frame line err otherCopyBad).moveRead pn).getD s
        | .scrub => s1.checked x.frame line err otherCopyBad) s

/-! ### Writes -/

/-- A write-buffer entry's line could not be written to a frame (R200): the error counts as uncorrectable; the line is in the other
copy that the entry's drain writes, from which it is taken (R207), or, where that has failed too, is poison in both. -/
def State.writeFailed (s : State) (w : DramWrite) (e : WbEntry) : State :=
  let s1 := s.countRead w.frame .uncorrectable
  let pn := pageOf e.line
  if ! e.durable then ((s1.landed w true).poisoned 3 e.line 1).entryWritten e.id
  else match e.bad with
    | some g => (((s1.landed w true).setCell g w.idx { data := 0, poison := true }).poisoned 2 (pn * 64 + w.idx) 1).entryWritten e.id
    | none =>
      if e.left ≤ 1 then (s1.landed w false).entryWritten e.id
      else
        ({ s1 with near := { s1.near with wb := s1.near.wb.map fun x =>
          if x.id = e.id then { x with bad := some w.frame } else x } } : State).entryWritten e.id

/-- A write-buffer entry's line is in a frame: a copy that failed before takes the line from here (R200, R207). -/
def State.writeGood (s : State) (w : DramWrite) (e : WbEntry) : State :=
  let s1 := s.landed w false
  match e.bad with
  | some g => (s1.landed { w with frame := g } false).entryWritten e.id
  | none => s1.entryWritten e.id

/-- DRAM_WRITE_CONFIRM (R99, R197, R198, R200): the write that its scheduler may issue is confirmed, or retried up to 3 times
after a CRC error, each retry counted in the rank's bucket; retries that still fail are an uncorrectable error on the line. -/
def execDramWriteConfirm (ch id : Nat) (crcErr : Bool) (s : State) : Host.Outcome State Fault Refusal :=
  run (fun s =>
    match (s.chan ch).writeQ.find? fun w => w.id = id with
    | none => s
    | some w =>
      s.when (s.writeIssues ch w) fun s =>
        let s0 := s.grant ch (w.idx % 2) id w.prio w.frame false
        if crcErr && w.retries < 3 then
          (s0.modChan ch fun c => { c with writeQ := c.writeQ.map fun x =>
            if x.id = id then { x with retries := x.retries + 1 } else x }).bump 0 (4 * ch + s.frameRank w.frame) 1
        else
          let s1 := (s0.unqueue ch id).count (evChan ch 2) 1
          match w.entry.bind fun i => s.near.wb.find? fun e => e.id = i with
          | some e => if crcErr then s1.writeFailed w e else s1.writeGood w e
          | none => if crcErr then s1.dramError w.frame w.idx .uncorrectable false else s1.landed w false) s

/-- ATOMIC_AT_MEMORY (R170): the line's write-buffer entries have drained and its page is in T1, so the channel controller reads
the line at P2 (R195) and computes once it is there. -/
def execAtomicAtMemory (line : Nat) (s : State) : Host.Outcome State Fault Refusal :=
  run (fun s =>
    match s.txn line, (s.page (pageOf line)).place with
    | some t, .t1 f =>
      s.when (t.phase = .atomicWait && ! (s.near.wb.any fun e => e.line = line)
        && (s.page (pageOf line)).moving.isNone) fun s =>
          match s.t1Source f (line % 64) with
          | .t1 g => s.when ((s.chan (frameChan g)).readRoom line) fun s => s.dramRead { t.req with atP2 := true } g
          | _ => s
    | _, _ => s) s

/-! ### Retirement -/

/-- Retire a rank (R210); bad lists the lines of its frames that the move finds uncorrectable, each with whether the line's other
copy has failed too, which are repaired as they are read. -/
def State.retireRank (s : State) (ch rank : Nat) (bad : List (Nat × Nat × Bool)) : State :=
  let u := 4 * ch + rank
  let s1 : State := (s.retireTaken 0 u).modChan ch fun c => { c with ranksRet := putBit c.ranksRet rank true }
  let s2 : State := { s1 with boot := { s1.boot.keep 1 with retRanks := putBit s1.boot.retRanks u true } }
  let fs := s.rankUsed ch rank
  let s3 := (bad.filter fun b => fs.contains b.1).foldl (fun (s : State) b => s.dramError b.1 b.2.1 .uncorrectable b.2.2) s2
  let a := s3.abandonReads fun f => fs.contains f
  let s4 := ((fs.foldl (fun (s : State) f => s.vacate f) a.2).note ⟨2, 0x10, u, none⟩).eventAll ⟨.memoryModule, 0x10, u⟩
  a.1.foldl (fun (s : State) l => s.lookup l) s4

/-- RANK_RETIRE (R210). -/
def execRankRetire (ch rank : Nat) (bad : List (Nat × Nat × Bool)) (s : State) : Host.Outcome State Fault Refusal :=
  run (fun s => s.when (s.retireDue 0 (4 * ch + rank) && decide (rank < 4)) fun s => s.retireRank ch rank bad) s

/-- The immediate causes of R211: the last rank in service is retired, or two ranks returned uncorrectable errors
within 1 ms. -/
def State.chanFailed (s : State) (ch : Nat) : Bool :=
  let c := s.chan ch
  c.inService && (c.ranks &&& ~~~ c.ranksRet = 0
    || c.ueAt.any fun a => c.ueAt.any fun b => decide (a.1 < b.1) && decide (a.2 ≤ b.2 + 2000000)
      && decide (b.2 ≤ a.2 + 2000000))

/-- A channel is out of service (R211): its record, and its map frames, which wait for their rebuild. -/
def State.chanOut (s : State) (ch : Nat) : State :=
  let s1 := (s.retireTaken 1 ch).modChan ch fun c => { c with retired := true, rebuild := true, twinRsv := 0 }
  { s1 with
    boot := { s1.boot.keep 1 with retCh := putBit s1.boot.retCh ch true }
    map := { s1.map with rebuilding := s1.map.rebuilding ++
      (s1.map.units.keysWhere fun _ u => u.dstate = .loaded && frameChan u.frame = ch) } }

/-- A page whose primary copy lay on a lost channel: a dirty page waits for its rebuild, a clean one falls back to the beam. -/
def State.pageLost (s : State) (ch : Nat) (e : Nat × PageEntry) : State :=
  match e.2.place with
  | .t1 f => if frameChan f = ch then s.lostPrimary e.1 else s
  | .t2 sec _ =>
    if frameChan (sec / 8) ≠ ch then s
    else match s.dram.t2.get none sec with
      | some t =>
        if t.beamv || s.pageDurable e.1 then
          (s.abortPage e.1).modPage e.1 fun p => { p with place := recPlace t.beam, beamv := false, beam := 0 }
        else s.losePage e.1 3
      | none => s
  | _ => s

/-- A page whose twin lay on a lost channel. -/
def State.twinLost (s : State) (ch : Nat) (e : Nat × PageEntry) : State :=
  if (e.2.twin.toList ++ e.2.twin2.toList).any fun f => frameChan f = ch then s.lostTwin e.1 else s

/-- The saved pages of a swatch that lay on a lost channel. -/
def State.savedLost (s : State) (ch : Nat) (e : Nat × Swatch) : State :=
  e.2.saved.foldl (fun (s : State) v =>
    match v.2 with
    | some x => (match x.place with
      | .t1 f => if frameChan f = ch then s.moveSaved e.1 v.1 (if x.beamv && ! x.dirty then recPlace x.beam else .poison) else s
      | _ => s)
    | none => s) s

/-- The frames, lines and T2 pages of a lost channel are gone. A frame of a page that waits keeps its use until the rebuild. -/
def State.dropFrames (s : State) (ch : Nat) : State :=
  let waits := s.map.pages.filterMap fun e => if e.2.urgent then e.2.place.frame else none
  { s with dram := { s.dram with
    frames := s.dram.frames.restrict fun f _ => decide (frameChan f ≠ ch) || waits.contains f
    cells := s.dram.cells.restrict fun k _ => frameChan (k / 64) ≠ ch
    t2 := s.dram.t2.restrict fun sec _ => frameChan (sec / 8) ≠ ch } }

/-- Retire a channel (R211): its map frames are lost and wait for their rebuild, its dirty pages and twins wait for theirs, its
clean pages fall back to the beam. -/
def State.retireChannel (s : State) (ch : Nat) : State :=
  let a := s.abandonQueues ch
  let s1 := a.2.chanOut ch
  let s2 := s1.map.pages.foldl (fun (s : State) e => s.pageLost ch e) s1
  let s3 := s2.map.pages.foldl (fun (s : State) e => s.twinLost ch e) s2
  let s4 := s3.map.swatches.foldl (fun (s : State) e => s.savedLost ch e) s3
  let s5 := ((s4.dropFrames ch).holdKeeps.note ⟨2, 0x11, 256 + ch, none⟩).eventAll ⟨.memoryModule, 0x11, ch⟩
  a.1.foldl (fun (s : State) l => s.lookup l) s5

/-- CHANNEL_RETIRE (R211). -/
def execChannelRetire (ch : Nat) (s : State) : Host.Outcome State Fault Refusal :=
  run (fun s => s.when (! (s.chan ch).retired && decide (ch < 16) && (s.retireDue 1 ch || s.chanFailed ch)) fun s =>
    s.retireChannel ch) s

/-- CHANNEL_REBUILD_END (R211, R213): the lost map frames are rebuilt and the pages of step 3 are clean. -/
def execChannelRebuildEnd (ch : Nat) (s : State) : Host.Outcome State Fault Refusal :=
  run (fun s => s.when ((s.chan ch).rebuild && s.map.rebuilding.isEmpty
      && ! (s.map.pages.any fun e => e.2.urgent && e.2.dirty)) fun s =>
    (s.modChan ch fun c => { c with rebuild := false }).note ⟨2, 0x11, 256 + ch + 4096, none⟩) s

/-! ### Training (R180, R181, R215 to R217) -/

/-- DIMMs of a channel by configuration row (R179). -/
def rowDimms (row : Nat) : Nat := if row = 2 then 2 else 1

/-- The data rate of a configuration row in MT/s, at which a DIMM rated faster runs too (R179, R180). -/
def rowRate (row : Nat) : Nat := if row = 0 then 8800 else if row = 1 then 6400 else 5200

/-- The configuration is one that R179 lists. -/
def trainSupported (t : TrainReport) : Bool :=
  decide (rowRate t.row ≤ t.rated) && match t.row with
  | 0 => [64, 128, 256].contains t.dimmGib && [2, 4].contains t.ranksPerDimm
  | 1 | 2 => [32, 64, 96, 128, 256].contains t.dimmGib && [1, 2].contains t.ranksPerDimm
  | _ => false

/-- What the report says of type, capacity and rank count. -/
def spdOf (t : TrainReport) : Spd := ⟨t.row, t.dimmGib, t.ranksPerDimm⟩

/-- Oscillator counts lie within 3 % of a baseline (R216 step 2). -/
def driftOk (baseline counts : List Nat) : Bool :=
  decide (baseline.length = counts.length) && (baseline.zip counts).all fun x => decide (100 * (max x.1 x.2 - min x.1 x.2) ≤ 3 * x.1)

/-- The stored record of a channel that passes its CRC, copy A first (R215). -/
def State.trainRecord (s : State) (ch : Nat) (ok : BitVec 2) : Option TrainRecord :=
  ((List.range 2).filter fun k => ok.getLsbD k).findSome? fun k => s.boot.train.get none (2 * ch + k)

/-- A stored record lets a channel be fast-trained, and fast training passes (R216). -/
def State.fastTrains (s : State) (t : TrainReport) (r : TrainRecord) : Bool :=
  ! s.dram.fullNext && r.identity = t.identity && r.row = t.row && r.rate = rowRate t.row
    && driftOk r.baseline t.counts && t.patternOk

/-- The record of a full training (R215). -/
def newRecord (ch : Nat) (t : TrainReport) : TrainRecord :=
  let r : TrainRecord := { chan := ch, row := t.row, rate := rowRate t.row, rfcNs := t.rfcNs, identity := t.identity
                           timing := t.timing, baseline := t.counts, crc := 0 }
  { r with crc := Config.trainCrc r.items }

/-- Take a channel out of service before any frame is allocated. -/
def State.dropChannel (s : State) (ch : Nat) : State :=
  { s.modChan ch fun c => { c with retired := true, inService := false } with
    boot := { s.boot.keep 1 with retCh := putBit s.boot.retCh ch true } }

/-- A channel whose DIMMs the device can use is trained: fast with its record, else in full, with its record written in two copies;
one that fails full training retires (R217), as does one whose ranks are all retired (R211). -/
def State.trainChannel (s : State) (ch : Nat) (t : TrainReport) : State :=
  let n := t.ranksPerDimm * rowDimms t.row
  let ret : BitVec 4 := s.boot.retRanks.extractLsb' (4 * ch) 4
  let present := BitVec.ofNat 4 (2 ^ n - 1)
  let fast := (s.trainRecord ch t.crcOk).filter fun r => s.fastTrains t r
  let s1 := s.modChan ch fun c => { c with
    ranks := present, ranksRet := ret, row := t.row, dimmGib := t.dimmGib
    rankFrames := t.dimmGib * 262144 / t.ranksPerDimm, trainedFast := fast.isSome
    baseline := (fast.map fun r => r.baseline).getD t.counts, delays := (fast.map fun r => r.timing).getD t.timing }
  if fast.isNone && ! t.fullOk then
    ((s1.dropChannel ch).note ⟨2, 0x11, 256 + ch, none⟩).eventAll ⟨.memoryModule, 0x11, ch⟩
  else
    let r := newRecord ch t
    let s2 : State := if fast.isSome then s1 else { s1 with boot := { s1.boot with
      train := (s1.boot.train.set none (2 * ch) (some r)).set none (2 * ch + 1) (some r) } }
    if present &&& ~~~ ret = 0 then s2.dropChannel ch else s2.modChan ch fun c => { c with inService := true }

/-- CHANNEL_TRAIN (R180, R181, R216, R217): during a cold restore a channel reports its SPD and the results of its training; D0
reports first, also when it is retired, since the others are compared with it. DESIGN CHOICE (log): a channel whose configuration R179
does not list is retired with a DRM_POPULATION notice, as one that R180 names. -/
def execChannelTrain (ch : Nat) (report : TrainReport) (s : State) : Host.Outcome State Fault Refusal :=
  run (fun s =>
    let c := s.chan ch
    s.when (decide (ch < 16) && s.vlt.st = .restore && ! s.vlt.active && ! c.inService && (! c.retired || ch = 0 && ! s.dram.spd0Read)
        && (ch = 0 || s.dram.spd0Read)) fun s =>
      let s0 : State := if ch ≠ 0 then s else { s with dram := { s.dram with
        spd0 := if report.spdValid then some (spdOf report) else none, spd0Read := true } }
      let odd := match s0.dram.spd0 with | some d => decide (spdOf report ≠ d) | none => false
      if c.retired then s0
      else if ! report.spdValid || ! trainSupported report || odd then (s0.dropChannel ch).note ⟨2, 0x18, ch, none⟩
      else if 130 < report.rfcNs then s0.dropChannel ch
      else s0.trainChannel ch report) s

/-! ### Snoop-filter ways -/

/-- SF_WAY_RETIRE (R177): every entry of the way is recalled under R151 first; with none left the way leaves service. -/
def State.retireSfWay (s : State) (n w : Nat) : State :=
  let u := 16 * n + w
  let left := (s.coh.sf.filter fun e => e.1 / 2097152 = n && e.1 % 16 = w).map fun e => (e.1 / 16 % 131072, e.2)
  let reserved := s.coh.handoff.any fun e => match e.2 with
    | some x => x.arriving && x.dst = n && x.sfWay = w
    | none => false
  if left.isEmpty && reserved then s
  else if left.isEmpty then
    let s1 : State := { s.retireTaken 3 u with boot := { s.boot.keep 1 with retSf := putBit s.boot.retSf u true } }
    (s1.note ⟨1, 0x14, 3 * 256 + u, none⟩).eventAll ⟨.memoryModule, 0x14, u⟩
  else
    left.foldl (fun (s : State) e =>
      if s.lineOpen (sfLine e.1 e.2.tag) then s else s.startVictim n e.1 w) s

/-- See State.retireSfWay. -/
def execSfWayRetire (slice way : Nat) (s : State) : Host.Outcome State Fault Refusal :=
  run (fun s => s.when (s.retireDue 3 (16 * slice + way) && decide (way < 16)) fun s => s.retireSfWay slice way) s

end Sys2Proof.Machine
end

