-- ==== Sys2Proof/Machine/Beam.lean ====
section
/-! DEFINITION. The beam at work (chapter 08): stripe writes and confirmation (R276, R277), DELTA records and checkpoints
(R288, R289), commit records (R291), reads, hedging and reconstruction (R302 to R305), slot retirement and adoption
(R306, R307), garbage collection (R294 to R297), and the drives' health (R267, R298). -/
namespace Sys2Proof.Machine

/-! ### Confirmation (R277) -/

/-- Every entry that names one record names another instead (R295): forward entries, reverse entries, T2 headers and
swatch entries, with their deltas. -/
def State.switchRecord (s : State) (old new : Nat) : State :=
  let s1 := (s.map.pages.filter fun e => e.2.place = .t3 old || (e.2.beamv && e.2.beam = old)).foldl
    (fun (s : State) e =>
      let p := e.2
      let s' : State := match p.place with
        | .t2 sec _ =>
          let t2 := s.dram.t2.mapVals none fun k t =>
            if k = sec then t.map (fun (t : T2Page) => { t with beam := new }) else t
          { s with dram := { s.dram with t2 := t2 } }
        | _ => s
      (s'.modPage e.1 fun q => if p.place = .t3 old then { q with place := .t3 new } else { q with beam := new }).deltaPage
        e.1) s
  s1.map.swatches.foldl (fun (s : State) w => w.2.saved.foldl (fun (s : State) v =>
    match v.2 with
    | some x =>
      if x.place = .t3 old || (x.beamv && x.beam = old) then
        let y : Saved := if x.place = .t3 old then { x with place := .t3 new } else { x with beam := new }
        let ws := s.map.swatches.get {} w.1
        let ws1 : Swatch := { ws with saved := ws.saved.set none v.1 (some y) }
        ({ s with map := { s.map with swatches := s.map.swatches.set {} w.1 ws1 } } : State).delta
          (.swatch w.1 v.1 y.persist)
      else s
    | none => s) s) s1

/-- A swatch copy has its record (R260, R351): the saved entry names it, the DRAM copy is released. -/
def State.savedCleaned (s : State) (slot pn a : Nat) : State :=
  let w := s.map.swatches.get {} slot
  match w.saved.get none pn with
  | some v =>
    let s1 := s.freePlace v.place
    let w1 : Swatch := { w with saved := w.saved.set none pn (some { place := .t3 a }) }
    ({ s1 with map := { s1.map with swatches := s1.map.swatches.set {} slot w1 } } : State).delta
      (.swatch slot pn ⟨.t3 a, 0⟩)
  | none => s

/-- A dirty page has its record of flush stage 2 (R351): it counts as clean. -/
def State.flushCleaned (s : State) (pn a : Nat) : State :=
  let p := s.page pn
  let s1 := (p.twin.toList ++ p.twin2.toList).foldl (fun (s : State) f => s.freeTwin f) s
  let s2 := s1.modPage pn fun p => { p with
    dirty := false, beam := a, beamv := true, twin := none, twin2 := none, lines := 0, cleaning := false, redirty := false
    urgent := false, ppoison := false }
  (({ s2 with map := { s2.map with journal := s2.map.journal.filter fun j => j.1 ≠ pn } } : State).deltaPage pn).sealCleaned
    pn false

/-- A record is confirmed: it may be named now, and what waited for it goes on. A clean waits for CLEAN_COMPLETE. -/
def State.confirmRecord (s : State) (a : Nat) : State :=
  match s.beam.recs.get none a with
  | none => s
  | some r =>
    let s1 : State := { s with beam := { s.beam with recs := s.beam.recs.set none a (some { r with confirmed := true }) } }
    match r.purpose with
    | .move old => (s1.switchRecord old a).recDone a
    | .swatch slot pn => (s1.savedCleaned slot pn a).recDone a
    | .flush pn => (s1.flushCleaned pn a).recDone a
    | _ => s1

/-- Delta entries as they would be written now: a failed DELTA record's entries take their present values. -/
def State.refreshDelta (s : State) (d : Delta) : List Delta :=
  match d with
  | .page pn _ => [.page pn (s.page pn).persist]
  | .swatch slot pn e =>
    [.swatch slot pn (match (s.map.swatches.get {} slot).saved.get none pn with | some v => v.persist | none => e)]
  | .unit u true _ => [.unit u true (s.unit u).binding]
  | .unit u false _ => .unit u false (s.unit u).binding ::
      (s.map.pages.filter fun e => e.1 / 512 = u).map fun e => .page e.1 e.2.persist

/-- Records of a stripe that could not be confirmed are appended again; their old places hold nothing. -/
def State.rewriteStripe (s : State) (recs : List Nat) : State :=
  recs.foldl (fun (s : State) a =>
    match s.beam.recs.get none a with
    | none => s
    | some r =>
      let s1 : State := { s with beam := { s.beam with recs := s.beam.recs.set none a none } }
      if r.kind = .delta then (r.deltas.flatMap s1.refreshDelta).foldl (fun (s : State) d => s.delta d) s1
      else match s1.append r.stream r with
        | some x => x.2
        | none => s1) s

/-- A stripe all of whose unit writes have ended. -/
def State.stripeDone (s : State) (o : StripeOut) : State :=
  let s1 : State := { s with beam := { s.beam with outs := s.beam.outs.filter fun x => x.stripe ≠ o.stripe } }
  if o.failed then s1.rewriteStripe o.recs else o.recs.foldl (fun (s : State) a => s.confirmRecord a) s1

/-- UNIT_WRITE_COMPLETE (R277): the Write of a unit completes; with the last one the stripe's records are confirmed. A
failed Write counts against the slot (R474). A drive out of power state 0 must have left its state first (R541). -/
def execUnitWriteComplete (stripe slot : Nat) (ok : Bool) (s : State) : Host.Outcome State Fault Refusal :=
  run (fun s =>
    match s.beam.outs.find? fun o => o.stripe = stripe && o.waits.getLsbD slot && ! o.held.getLsbD slot with
    | none => s
    | some o => s.when (! s.inPowerState (48 + slot)) fun s =>
      let o1 : StripeOut := { o with waits := putBit o.waits slot false, failed := o.failed || ! ok }
      let s1 := if ok then s else (s.count (evSlot slot 5) 1).bump 5 slot 4
      let s2 : State := { s1 with beam := { s1.beam with outs := s1.beam.outs.map fun x =>
        if x.stripe = stripe then o1 else x } }
      (if o1.waits = 0 then s2.stripeDone o1 else s2).submit slot) s

/-! ### DELTA records and checkpoints -/

/-- Write the oldest unwritten delta entries, at most 256, as one DELTA record (R287, R288). -/
def State.writeDelta (s : State) : State :=
  let ds := s.beam.deltas.take 256
  if ds.isEmpty then s
  else
    let r : BeamRec :=
      { kind := .delta, page := ds.length, sectors := (ds.length + 31) / 32, deltas := ds, stream := 4, seq := 0 }
    match s.append 4 r with
    | some x => { x.2 with beam := { x.2.beam with deltas := x.2.beam.deltas.drop 256, deltaAt := x.2.beam.deltaAt.drop 256 } }
    | none => s

/-- CP_META in force. -/
def State.cpMeta (s : State) : Nat := min 48 (max 1 (fld s.beam.ctl 28 6))

/-- Append a MAP record: a swatch root is 1 sector, any other page 8 (R286). -/
def State.appendMap (s : State) (sw : Option Nat) (level i : Nat) : State :=
  match s.append 3 { kind := .map, page := mapRecPage level i, sectors := if level = 3 then 1 else 8, sw := sw, stream := 3,
                     seq := 0 } with
  | some x => x.2
  | none => s

/-- Numbers without repeats, ascending. -/
def distinct (l : List Nat) : List Nat := (l.mergeSort (· ≤ ·)).eraseDups

/-- Units whose persistent entries or binding differ between two maps. -/
def PMap.changed (a b : PMap) : List Nat :=
  distinct (((a.pages ++ b.pages).filter fun e => a.pages.get {} e.1 ≠ b.pages.get {} e.1).map (fun e => e.1 / 512)
    ++ ((a.units ++ b.units).filter fun e => a.units.get {} e.1 ≠ b.units.get {} e.1).map Prod.fst)

/-- A map page, or a directory page with its units' bindings, has nothing to hold: the entry above it says ZERO with no address
(R286). -/
def PMap.empty (m : PMap) (level i : Nat) : Bool :=
  match level with
  | 0 => ! (m.pages.any fun e => e.1 / 512 = i)
  | 1 => ! (m.pages.any fun e => e.1 / 262144 = i) && ! (m.units.any fun e => e.1 / 512 = i)
  | _ => false

/-- Write the map, directory and root pages over the units given (R286, R289 steps 2 to 4): no page that would hold nothing. -/
def State.writeMapPages (s : State) (m : PMap) (us roots : List Nat) : State :=
  let put (level : Nat) (l : List Nat) (s : State) : State :=
    (l.filter fun i => ! m.empty level i).foldl (fun (s : State) i => s.appendMap none level i) s
  put 2 roots (put 1 (distinct (us.map fun u => u / 512)) (put 0 us s))

/-- Write a swatch map with its root (R286). -/
def State.writeSwatchMap (s : State) (k : Nat) (us : List Nat) : State :=
  let put (level : Nat) (l : List Nat) (s : State) : State := l.foldl (fun (s : State) i => s.appendMap (some k) level i) s
  put 3 [0] (put 2 (distinct (us.map fun u => u / 262144)) (put 1 (distinct (us.map fun u => u / 512)) (put 0 us s)))

/-- Swatch slots whose maps differ, with the units that differ. -/
def PMap.changedSwatches (a b : PMap) : List (Nat × List Nat) :=
  (b.saved.filter fun e => a.saved.get [] e.1 ≠ e.2).map fun e =>
    let old := a.saved.get [] e.1
    (e.1, distinct (((old ++ e.2).filter fun x => Tbl.get (⟨.absent, 0⟩ : PEntry) old x.1 ≠ Tbl.get (⟨.absent, 0⟩ : PEntry) e.2 x.1).map fun x => x.1 / 512))

/-- Close the open segment of a stream, after the stripe it is filling. -/
def State.closeStream (s : State) (stream : Nat) : State :=
  let s1 := s.writeStripe stream
  match s1.openSeg stream with
  | some g => s1.modSeg g fun x => { x with st := .full }
  | none => s1

/-- Groups of at most n. -/
def chunks {α : Type} (n : Nat) : Nat → List α → List (List α)
  | 0, _ => []
  | k + 1, l => if l.isEmpty then [] else l.take n :: chunks n k (l.drop n)

/-- The warm list that a checkpoint or a flush writes (R254): pages in DRAM with heat, hottest first (DESIGN CHOICE; see the log). -/
def State.warmList (s : State) : List (Nat × Nat) :=
  let ps := s.map.pages.filter fun e => (match e.2.place with | .t1 _ | .t2 _ _ => true | _ => false)
    && decide (0 < e.2.effHeat s.map.epoch)
  ((ps.mergeSort fun a b => b.2.effHeat s.map.epoch ≤ a.2.effHeat s.map.epoch).take 32768).map fun e => (e.1, 0)

/-- Write a warm list as WARM records of at most 512 entries (R290). -/
def State.writeWarm (s : State) (l : List (Nat × Nat)) : State :=
  ((List.range 64).zip (chunks 512 64 l)).foldl (fun (s : State) x =>
    match s.append 3 { kind := .warm, page := x.1, sectors := (x.2.length + 63) / 64, warm := x.2, stream := 3, seq := 0 } with
    | some y => y.2
    | none => s) s

/-- A checkpoint's first steps (R289): DELTA entries from here on go to segments opened from here on; the map and directory pages
that changed are written, the root pages, and the swatch maps that changed; the steward's warm list is
written beside them (R254). -/
def State.startCheckpoint (s : State) : State :=
  let s1 := s.closeStream 4
  let m := s1.pmapNow
  let us := PMap.changed s1.beam.base m
  let s2 : State := { s1 with beam := { s1.beam with
    ckpt := true, ckptBase := m, ckptSegs := s1.beam.deltaSegs, warm := s1.warmList } }
  let s3 := s2.writeMapPages m us (List.range s2.beam.rootCount)
  (((PMap.changedSwatches s1.beam.base m).foldl (fun (s : State) x => s.writeSwatchMap x.1 x.2) s3).writeWarm
    s2.beam.warm).count (evBeam 8) 1

/-- CHECKPOINT (R289): the steward starts one when CP_META DELTA segments have been opened since the last began. -/
def execCheckpoint (s : State) : Host.Outcome State Fault Refusal :=
  run (fun s => s.when (s.glb.steward && s.beam.setId ≠ 0 && s.beamUp && ! s.beam.ckpt && ! s.vlt.stopped
      && decide (s.cpMeta ≤ s.beam.deltaSegs.length)) fun s => s.startCheckpoint) s

/-- A record of one of the kinds is not confirmed yet. -/
def State.unconfirmed (s : State) (p : RecKind → Bool) : Bool :=
  s.beam.recs.any fun e => match e.2 with | some r => p r.kind && ! r.confirmed | none => false

/-- The commit record that ends a checkpoint makes the checkpoint's pages the roots (R289). -/
def State.ckptInForce (s : State) (c : Commit) : State :=
  if s.beam.ckpt && c.kind = .checkpoint then
    { s with beam := { s.beam with ckpt := false, base := s.beam.ckptBase, deltaSegs := s.metaSegs true, ckptSegs := [] } }
  else s

/-- The commit record of the present moment, with what a flush took at admission stop (R353). -/
def State.flushCommit (s : State) (kind : CommitKind) : Commit :=
  let c := s.commitNow kind false (s.vlt.shortPages ≠ 0 || s.vlt.skipScratch) s.vlt.shortPages
  match s.vlt.snap with
  | some x => { c with
      regions := x.regions, gens := x.gens, swatches := x.swatches, warm := x.warm
      warmRecs := (List.range (warmCount x.warm)).map fun i => s.newestRec .warm none i }
  | none => c

/-- Everything a flush commits is confirmed (R353). -/
def State.flushConfirmed (s : State) : Bool :=
  s.beam.deltas.isEmpty && ! s.unconfirmed fun _ => true

/-- A level-3 seal waits for a commit record (R318). -/
def State.sealWants (s : State) : Bool :=
  s.rng.seals.any fun x => x.level = 3 && x.tiles = 0 && x.pages.isEmpty && ! s.sealReached x

/-- The steward's checkpoint can end: its pages are confirmed (R289). -/
def State.ckptReady (s : State) : Bool := s.glb.steward && ! (s.unconfirmed fun k => decide (k = .map) || decide (k = .warm))

/-- The commit record of a flush goes to its three slots (R291, R353). -/
def State.putCommit (s : State) (kind : CommitKind) : State :=
  let s1 := s.writeCommit (s.flushCommit kind)
  { s1 with beam := { s1.beam with commitOut := some ⟨s.flushCommit kind, (s.commitSlots (s.beam.cseq + 1)).length⟩ } }

/-- COMMIT_RECORD_WRITE (R291): written once everything it covers is confirmed. A CHECKPOINT commit is in force when its
drive copies are; one that a level-3 seal waits for is written at once, without the steward and with the roots unchanged (R15,
R318). A FLUSH or SHUTDOWN commit is in force at FLUSH_COMMIT_CONFIRMED. -/
def execCommitRecordWrite (kind : CommitKind) (s : State) : Host.Outcome State Fault Refusal :=
  run (fun s => s.when (s.beam.setId ≠ 0 && s.beamUp) fun s =>
    match kind with
    | .checkpoint =>
      s.when (! s.vlt.stopped && (s.ckptReady || s.sealWants)) fun s =>
        let c := s.commitNow .checkpoint (s.beam.ckpt && s.ckptReady) false 0
        (((if s.ckptReady then s.ckptInForce c else s).writeCommit c).inForce c)
    | .flush => s.when (s.vlt.st = .s3 && ! s.vlt.orderly && s.flushConfirmed && s.beam.commitOut.isNone) fun s =>
        s.putCommit .flush
    | .shutdown => s.when (s.vlt.st = .s3 && s.vlt.orderly && s.flushConfirmed && s.beam.commitOut.isNone) fun s =>
        s.putCommit .shutdown) s

/-! ### Reads (R302 to R305) -/

/-- Lines of open transactions that wait for the record at an address. -/
def State.waitingBeam (s : State) (a : Nat) : List Nat :=
  (s.coh.txns.filter fun e => match e.2 with | some t => t.phase = .beam a | none => false).map Prod.fst

/-- Relocate a record: a copy goes to the GC stream and takes its place once confirmed (R295, R304). -/
def State.relocate (s : State) (a : Nat) : State :=
  match s.beam.recs.get none a with
  | some r =>
    if ! r.confirmed then s
    else match s.append 1 { r with purpose := .move a } with
      | some x => (x.2.count (evBeam 5) 1).modSeg (segOf (beamStripe a)) fun g => { g with moved := s.beam.cseq + 1 }
      | none => s
  | none => s

/-- A record has been read: every line that waited for it is served; one that garbage collection wanted, or that was unreadable, is
relocated (R295, R304), except during a flush (R352). -/
def State.serveRecord (s : State) (r : BeamRead) : State :=
  let s1 : State := { s with beam := { s.beam with reads := s.beam.reads.filter fun x => x.addr ≠ r.addr } }
  let s2 := (s.waitingBeam r.addr).foldl (fun (s : State) l => s.fetched l ((s.recData r.addr).get {} (l % 64))) s1
  let s3 := if r.prio ≤ 1 then s2.minuteMax (4096 * 7 + 5 * 256 + r.slot) ((s.clock - r.since) / 2000) else s2
  (if (r.gc || r.bad) && ! s.vlt.stopped then s3.relocate r.addr else s3).submit r.slot

/-- A read failed: its record is unreadable until reconstructed from the other slots, and its slot is charged (R304, R474). -/
def State.readFailed (s : State) (r : BeamRead) (w : Nat) : State :=
  let s1 := (s.count (evSlot r.slot 5) 1).bump 5 r.slot w
  let s2 : State := { s1 with beam := { s1.beam with reads := s1.beam.reads.map fun x =>
    if x.addr = r.addr then { x with rebuilt := true, bad := true } else x } }
  (if r.hedged then s2 else s2.readOthers r.slot).submit r.slot

/-- BEAM_READ_COMPLETE (R302, R304): of a drive in power state 0 (R541). A read served by reconstruction ends with RECORD_RECONSTRUCT. -/
def execBeamReadComplete (addr : Nat) (err : BeamErr) (s : State) : Host.Outcome State Fault Refusal :=
  run (fun s =>
    match s.beam.reads.find? fun r => r.addr = addr && ! r.rebuilt && ! r.queued with
    | none => s
    | some r => s.when (! s.inPowerState (48 + r.slot)) fun s => if err = .good then s.serveRecord r else s.readFailed r 4) s

/-- A swatch's saved copies that name a lost record: the entry becomes POISON; a copy in DRAM keeps its content and must be written
again (R304). -/
def State.loseSaved (s : State) (a : Nat) (slot pn : Nat) (x : Saved) : State :=
  if x.place = .t3 a then (s.moveSaved slot pn .poison).delta (.swatch slot pn ⟨.poison, 0⟩)
  else if x.beamv && x.beam = a then
    let w := s.map.swatches.get {} slot
    let y : Saved := { x with beamv := false, beam := 0, dirty := true }
    let w1 : Swatch := { w with saved := w.saved.set none pn (some y) }
    ({ s with map := { s.map with swatches := s.map.swatches.set {} slot w1 } } : State).delta (.swatch slot pn y.persist)
  else s

/-- Every entry that names a lost record becomes POISON (R304). DESIGN CHOICE (log): a page in DRAM keeps its content and must be
written again. -/
def State.loseRecord (s : State) (a : Nat) : State :=
  let ps := (s.map.pages.filter fun e => e.2.place = .t3 a).map Prod.fst
  let s1 := ps.foldl (fun (s : State) pn =>
    ((s.modPage pn fun p => { p with place := .poison }).deltaPage pn).poisoned 4 (pn * 64) 64) s
  let held := (s1.map.pages.filter fun e => e.2.beamv && e.2.beam = a).map Prod.fst
  let s2 := held.foldl (fun (s : State) pn =>
    let s' := s.modPage pn fun p => { p with beamv := false, beam := 0 }
    if s.pageDurable pn then s'.markDirty pn else s') s1
  let n := (s.map.swatches.map fun w => (w.2.saved.filter fun v =>
    match v.2 with | some x => x.place = .t3 a | none => false).length).sum
  let s3 := s2.map.swatches.foldl (fun (s : State) w => w.2.saved.foldl (fun (s : State) v =>
    match v.2 with
    | some x => s.loseSaved a w.1 v.1 x
    | none => s) s) s2
  s3.note ⟨2, 0x21, min (ps.length + n) (2 ^ 32 - 1), some a⟩

/-- RECORD_RECONSTRUCT (R303, R304): the XOR of the other seven slots gives the record, or fails too. DESIGN CHOICE (log): after
a hedge whose reconstruction fails while the first read is still open, the read may be hedged again. -/
def execRecordReconstruct (addr : Nat) (ok : Bool) (s : State) : Host.Outcome State Fault Refusal :=
  run (fun s =>
    match s.beam.reads.find? fun r => r.addr = addr && (r.hedged || r.rebuilt) with
    | none => s
    | some r =>
      if ok then (s.count (evSlot r.slot 3) 1).serveRecord r
      else if ! r.rebuilt then
        { s with beam := { s.beam with reads := s.beam.reads.map fun x =>
          if x.addr = addr then { x with hedged := false } else x } }
      else
        let ls := s.waitingBeam addr
        let s1 : State := { s with beam := { s.beam with reads := s.beam.reads.filter fun x => x.addr ≠ addr } }
        ls.foldl (fun (s : State) l => s.fetched l { poison := true }) (s1.loseRecord addr)) s

/-! ### Slots (R306, R307) -/

/-- With the beam unable to confirm a record, level-3 seals end with DURABILITY_LOST (R321). -/
def State.beamDownSeals (s : State) : State :=
  if s.beamUp then s
  else ({ s with rng := { s.rng with seals := s.rng.seals.map fun x =>
    if x.level = 3 then { x with lost := true } else x } } : State).checkSeals

/-- The commands with which a drive's queues go: Delete I/O Submission Queue and Completion Queue for each of the four (R267). -/
def State.driveDown (s : State) (i : Nat) : State :=
  [0x00, 0x00, 0x00, 0x00, 0x04, 0x04, 0x04, 0x04].foldl (fun (s : State) o => s.emit (.nvmeAdmin i o)) s

/-- The commands that bring a drive up (R266 to R268): Identify of the controller, the namespaces and namespace 1; Number of Queues,
power state 0, autonomous transitions disabled, event configuration; four Completion and Submission Queues; one Asynchronous Event
Request. DESIGN CHOICE (log): their order. -/
def State.driveUp (s : State) (i : Nat) : State :=
  [0x06, 0x06, 0x06, 0x09, 0x09, 0x09, 0x09, 0x05, 0x05, 0x05, 0x05, 0x01, 0x01, 0x01, 0x01, 0x0C].foldl
    (fun (s : State) o => s.emit (.nvmeAdmin i o)) s

/-- Retire a slot (R306): superblocks, open segments closed, records of unwritten stripes placed again, stripes that
waited for the slot only confirmed, its reads served by reconstruction, its queues deleted. -/
def State.retireSlot (s : State) (i cause : Nat) : State :=
  if s.beam.retired.getLsbD i then s
  else
    let bufs := s.beam.bufs.filterMap fun e => e.2
    let segs := s.beam.segs.mapVals {} fun _ g => if g.st = .opened then { g with st := .full } else g
    let s1 : State := { (s.retireTaken 5 i) with beam := { s.beam with
      retired := putBit s.beam.retired i true
      degSeq := s.beam.seqNext
      bufs := []
      segs := segs
      outs := s.beam.outs.map fun o => { o with waits := putBit o.waits i false, held := putBit o.held i false }
      reads := s.beam.reads.map fun r => if r.slot = i then { r with rebuilt := true, queued := false } else r
      avoided := if s.beam.avoided = some i then none else s.beam.avoided } }
    let s2 := (s1.beam.outs.filter fun o => o.waits = 0).foldl (fun (s : State) o => s.stripeDone o)
      ((s1.writeSuper []).driveDown i)
    let s3 := bufs.foldl (fun (s : State) b => s.rewriteStripe b.recs) s2
    (((s3.modSlot i fun x => { x with fail := 0 }).note ⟨2, 0x16, 5 * 256 + i + cause % 16 * 4096, none⟩).eventAll
      ⟨.memoryModule, 0x16, i⟩).beamDownSeals

/-- SLOT_RETIRE (R306): the bucket's retirement is due, or an immediate cause stands. -/
def execSlotRetire (slot cause : Nat) (s : State) : Host.Outcome State Fault Refusal :=
  run (fun s => s.when (decide (slot < 8) && (if cause = 0 then s.retireDue 5 slot else (s.slot slot).fail = cause)) fun s =>
    s.retireSlot slot cause) s

/-- BEAM_LINK_DOWN_TIMEOUT (R474): the slot of a port out of L0 for 1 s is retired at once. -/
def execBeamLinkDownTimeout (port : Nat) (s : State) : Host.Outcome State Fault Refusal :=
  run (fun s =>
    match (List.range 8).find? fun i => (s.slot i).present && (s.slot i).port = port && ! s.beam.retired.getLsbD i with
    | some i => s.retireSlot i 1
    | none => s) s

/-- The first condition of R266 that a drive fails. -/
def failedCondition (d : DriveReport) : Nat := ((List.range 6).find? fun i => ! d.conditions.getLsbD i).getD 0

/-- A drive that fails a condition of R266 is not used: BEAM_DRIVE_REJECT. -/
def State.rejectDrive (s : State) (d : DriveReport) : State := s.note ⟨1, 0x1A, d.port % 8 + failedCondition d * 16, none⟩

/-- A drive meets every condition of R266. -/
def usable (d : DriveReport) : Bool := d.conditions = 0x3F

/-- The lowest retired slot. -/
def State.lowestRetired (s : State) : Option Nat := (List.range 8).find? fun i => s.beam.retired.getLsbD i

/-- DRIVE_ADOPT (R307): a blank drive at a port that holds no slot takes the lowest retired slot; its units are then
rebuilt. The drive holds at least the beam's LBAs. One that fails R266 is rejected. -/
def execDriveAdopt (drive : DriveReport) (s : State) : Host.Outcome State Fault Refusal :=
  run (fun s =>
    if ! usable drive then s.rejectDrive drive
    else match s.lowestRetired with
    | none => s
    | some i =>
      s.when (flag s.beam.ctl 11 && s.beam.setId ≠ 0 && s.beam.rebuild.isNone && usable drive && drive.blank
          && decide (17408 + 4096 * s.beam.segments ≤ drive.lbas)
          && ! ((List.range 8).any fun j => (s.slot j).present && ! s.beam.retired.getLsbD j && (s.slot j).port = drive.port))
        fun s =>
          let s1 := s.modSlot i fun _ =>
            { port := drive.port, present := true, width := drive.width, rate := drive.rate, lbas := drive.lbas
              power := drive.power, smartAt := s.clock }
          let s2 := (s1.driveUp i).writeSuper [i]
          { s2 with beam := { s2.beam with rebuild := some i } }) s

/-- ADOPT_REBUILD_END (R307 step 3). DESIGN CHOICE (log): an adoption raises SBGEN twice, in its step 1 and here, where RETIRED is
cleared (R281 names the adoption and not how often). -/
def execAdoptRebuildEnd (slot : Nat) (s : State) : Host.Outcome State Fault Refusal :=
  run (fun s => s.when (s.beam.rebuild = some slot) fun s =>
    ({ s with beam := { s.beam with rebuild := none, retired := putBit s.beam.retired slot false } } : State).writeSuper []) s

/-! ### Garbage collection (R294 to R297) -/

/-- A page record is live (R294): a forward entry, a reverse entry or T2 header, a swatch map, or the map that the commit
record in force covers names it. -/
def State.pageRecLive (s : State) (a : Nat) : Bool :=
  (s.map.pages.any fun e => e.2.place = .t3 a || (e.2.beamv && e.2.beam = a))
    || (s.map.swatches.any fun w => w.2.saved.any fun v =>
      match v.2 with | some x => x.place = .t3 a || (x.beamv && x.beam = a) | none => false)
    || (match s.beam.commit with
      | some c => (c.base.pages.any fun e => e.2.place = .t3 a)
        || (c.base.saved.any fun t => t.2.any fun e => e.2.place = .t3 a)
      | none => false)
    || (s.beam.cold.pages.any fun e => s.beam.coldUnits.contains (e.1 / 512) && e.2.place = .t3 a)

/-- A MAP record is live while the roots or swatch roots of the newest commit record reach it (R294): while it is the newest of its
page and the page holds something, and while a checkpoint whose commit record is still to come has written newer ones. -/
def State.mapRecLive (s : State) (a : Nat) (r : BeamRec) : Bool :=
  s.beam.ckpt || ((match r.sw with
      | none => ! s.beam.base.empty (r.page / 2 ^ 33) (r.page % 2 ^ 33)
      | some k => (match s.beam.commit with | some c => decide ((c.swatches.get {} k).st ≠ .free) | none => true))
    && ! (s.beam.recs.any fun e => match e.2 with
      | some q => q.kind = .map && q.page = r.page && q.sw = r.sw && q.confirmed
        && (decide (r.seq < q.seq) || (q.seq = r.seq && decide (a < e.1)))
      | none => false))

/-- A record is live (R294). An unconfirmed record is about to be named. -/
def State.recLive (s : State) (a : Nat) (r : BeamRec) : Bool :=
  ! r.confirmed || r.purpose ≠ .none ||
    match r.kind with
    | .raw | .hpc1 => s.pageRecLive a
    | .map => s.mapRecLive a r
    | .delta => (match s.beam.commit with | some c => c.metaSegs.contains (segOf (beamStripe a)) | none => true)
      || s.beam.deltaSegs.contains (segOf (beamStripe a))
    | .warm => s.beam.ckpt || (match s.beam.commit with | some c => c.warmRecs.contains a | none => false)

/-- Live records of a segment. -/
def State.liveIn (s : State) (g : Nat) : List (Nat × Nat) :=
  (s.beam.recs.filterMap fun e => match e.2 with
    | some r => if segOf (beamStripe e.1) = g && s.recLive e.1 r then some (e.1, r.sectors) else none
    | none => none)

/-- Live sectors of a segment. -/
def State.liveSectors (s : State) (g : Nat) : Nat := ((s.liveIn g).map Prod.snd).sum

/-- A segment names an adopted slot in HOLES, so it is collected first (R307). -/
def State.holed (s : State) (g : Nat) : Bool :=
  (bitsOf (s.seg g).holes).any fun i => ! s.beam.retired.getLsbD i

/-- DIV_SEQ FULL. -/
def divFull : Nat := 2 ^ 64 - 1

/-- SLV_DIV.DIV_MIN: the lowest DIV_SEQ other than FULL that any region holds; 0 if none. -/
def State.divMin (s : State) : Nat :=
  let l := (s.slv.rgns.map fun e => e.2.div).filter fun d => d ≠ 0 && d ≠ divFull
  l.foldl min (l.headD 0)

/-- A DELTA segment is held for a divergence (R463). -/
def State.divHolds (s : State) (g : Nat) : Bool :=
  s.divMin ≠ 0 && (s.seg g).stream = 4 && (s.seg g).st ≠ .free && decide (s.divMin ≤ (s.seg g).seq)

/-- FULL segments that garbage collection may choose. -/
def State.gcChoice (s : State) : List Nat :=
  s.beam.segs.keysWhere fun g x => decide (x.st = .full) && ! s.beam.deltaSegs.contains g && ! s.divHolds g

/-- WRITES differs by more than 64 between the most- and the least-written segment. -/
def State.worn (s : State) : Bool :=
  let ws := s.beam.segs.map fun e => e.2.writes
  let low := if s.beam.segs.length < s.beam.segments then 0 else ws.foldl min (ws.headD 0)
  decide (low + 64 < ws.foldl max 0)

/-- The element with the least key, the first on a tie. -/
def leastBy (f : Nat → Nat) : List Nat → Option Nat
  | [] => none
  | x :: xs => match leastBy f xs with
    | some y => if f y < f x then some y else some x
    | none => some x

/-- The segment garbage collection takes next (R295, R307). -/
def State.gcNext (s : State) : Option Nat :=
  let c := s.gcChoice
  let holed := c.filter fun g => s.holed g
  if ! holed.isEmpty then leastBy s.liveSectors holed
  else if s.worn && s.beam.gcChoices % 16 = 15 then leastBy (fun g => (s.seg g).writes) c
  else leastBy s.liveSectors c

/-- GC_LO and GC_HI against the free segments outside the reserve (R295). -/
def State.gcRuns (s : State) : Bool :=
  let lo := fld s.beam.ctl 12 8
  let hi := max (fld s.beam.ctl 20 8) (lo + 1)
  let f := s.freeSegs - s.segReserve
  if f < lo then true else if hi < f then false else s.beam.gc

/-- Update BM_STAT.GC and the segment being emptied. -/
def State.gcUpdate (s : State) : State :=
  let on := s.gcRuns || (s.gcChoice.any fun g => s.holed g)
  let s1 : State := { s with beam := { s.beam with gc := on } }
  if ! on || s1.beam.gcSeg.isSome then s1
  else match s1.gcNext with
    | some g => { s1 with beam := { s1.beam with gcSeg := some g, gcChoices := s1.beam.gcChoices + 1 } }
    | none => s1

/-- GC_RELOCATE (R295): garbage collection reads a live record of the segment being emptied, at P5 in Q4; it is relocated once its read
has passed its checks. -/
def execGcRelocate (addr : Nat) (s : State) : Host.Outcome State Fault Refusal :=
  run (fun s => s.when (s.glb.steward && ! s.map.mapLoad && ! s.vlt.stopped && s.beam.setId ≠ 0
      && decide (s.beam.deltaSegs.length < 52)) fun s =>
    let s1 := s.gcUpdate
    s1.when (s1.beam.gc && s1.beam.gcSeg = some (segOf (beamStripe addr))
        && (match s1.beam.recs.get none addr with | some r => s1.recLive addr r | none => false)
        && ! (s1.beam.reads.any fun r => r.addr = addr && r.gc)
        && ! (s1.beam.recs.any fun e => match e.2 with | some r => decide (r.purpose = .move addr) | none => false)) fun s =>
      s.beamRead addr 5 true) s

/-- SEGMENT_FREE (R296): no live record is left and a commit record written after the last relocation is in force. -/
def execSegmentFree (segment : Nat) (s : State) : Host.Outcome State Fault Refusal :=
  run (fun s =>
    let g := s.seg segment
    s.when (s.glb.steward && g.st = .full && ! s.map.mapLoad && ! s.divHolds segment && (s.liveIn segment).isEmpty
        && ! (s.beam.outs.any fun o => segOf o.stripe = segment)
        && (match s.beam.commit with | some c => decide (g.moved ≤ c.cseq) | none => false)) fun s =>
      let s1 := (s.count (evBeam 10) 1).modSeg segment fun g =>
        { st := .free, writes := g.writes }
      let s2 : State := { s1 with beam := { s1.beam with
        recs := s1.beam.recs.restrict fun a _ => segOf (beamStripe a) ≠ segment
        gcSeg := if s1.beam.gcSeg = some segment then none else s1.beam.gcSeg } }
      ((bitsOf s2.slotsUp).foldl (fun (s : State) i => s.emit (.nvme i 0x09)) s2).gcUpdate) s

/-! ### Drive health (R267, R298) -/

/-- A critical warning of bit 2 or 3 retires the slot at once (R474). -/
def critCause (c : BitVec 8) : Nat := if c.getLsbD 2 || c.getLsbD 3 then 3 else 0

/-- ASYNC_EVENT_COMPLETE (R267, R474). -/
def execAsyncEventComplete (slot : Nat) (critical : BitVec 8) (fatalStatus : Bool) (s : State) :
    Host.Outcome State Fault Refusal :=
  run (fun s => s.when ((s.slot slot).present && decide (slot < 8)) fun s =>
    (s.modSlot slot fun x => { x with
      fail := if fatalStatus then 2 else if critCause critical ≠ 0 then 3 else x.fail }).emit (.nvmeAdmin slot 0x0C)) s

end Sys2Proof.Machine
end

