-- ==== Sys2Proof/Machine/Reserve.lean ====
section
/-! DEFINITION. The reserve manager and the ledger (chapter 09): samples, the charger, charge estimates and test
discharges (R323 to R329), health (R330, R331), the dirty cap and admission (R332 to R338). -/
namespace Sys2Proof.Machine

/-! ### Fields -/

/-- The fields of RSV_CTL, RSV_BANK, RSV_FLUSH and RSV_SENSE. -/
def rsvCtlFields : List (Nat × Nat) := [(0, 1), (2, 1), (8, 8), (16, 8), (24, 11), (35, 13)]
/-- See rsvCtlFields. -/
def rsvBankFields : List (Nat × Nat) := [(0, 16), (16, 16), (32, 16), (48, 16)]
/-- See rsvCtlFields. -/
def rsvFlushFields : List (Nat × Nat) := [(0, 10), (10, 10), (20, 16), (36, 12), (48, 12)]
/-- See rsvCtlFields. -/
def rsvSenseFields : List (Nat × Nat) := [(0, 16), (16, 20), (36, 16)]

/-- OVERRIDE. -/
def Rsv.override (r : Rsv) : Bool := r.ctl.fld 0 1 = 1
/-- TEST_EN. -/
def Rsv.testEn (r : Rsv) : Bool := r.ctl.fld 2 1 = 1
/-- TEST_HRS; 0 acts as 1. -/
def Rsv.testHrs (r : Rsv) : Nat := max 1 (r.ctl.fld 8 8)
/-- INTERVAL_H, at least TEST_HRS. -/
def Rsv.intervalH (r : Rsv) : Nat := max r.testHrs (r.ctl.fld 16 8)
/-- FLUSH_MS, 100 to 1,800. -/
def Rsv.flushMs (r : Rsv) : Nat := min 1800 (max 100 (r.ctl.fld 24 11))
/-- TEST_DV, 500 to 4,000 mV. -/
def Rsv.testDv (r : Rsv) : Nat := min 4000 (max 500 (r.ctl.fld 35 13))
/-- V_MIN, V_CHG, C_FLOOR, ESR_MAX. -/
def Rsv.vMin (r : Rsv) : Nat := r.bank.fld 0 16
/-- See vMin. -/
def Rsv.vChg (r : Rsv) : Nat := r.bank.fld 16 16
/-- See vMin. -/
def Rsv.cFloor (r : Rsv) : Nat := r.bank.fld 32 16
/-- See vMin. -/
def Rsv.esrMax (r : Rsv) : Nat := r.bank.fld 48 16
/-- ETA, at most 1,000. -/
def Rsv.eta (r : Rsv) : Nat := min 1000 (r.flush.fld 0 10)
/-- DELTA, at most 950. -/
def Rsv.derate (r : Rsv) : Nat := min 950 (r.flush.fld 10 10)
/-- E_FIXED, P_FLUSH, R_BEAM. -/
def Rsv.eFixed (r : Rsv) : Nat := r.flush.fld 20 16
/-- See eFixed. -/
def Rsv.pFlush (r : Rsv) : Nat := r.flush.fld 36 12
/-- See eFixed. -/
def Rsv.rBeam (r : Rsv) : Nat := r.flush.fld 48 12
/-- VDIV, IGAIN, IZERO. -/
def Rsv.vDiv (r : Rsv) : Nat := r.sense.fld 0 16
/-- See vDiv. -/
def Rsv.iGain (r : Rsv) : Nat := r.sense.fld 16 20
/-- See vDiv. -/
def Rsv.iZero (r : Rsv) : Nat := r.sense.fld 36 16

/-! ### Samples (R323 to R325, R331) -/

/-- Bank voltage in mV of a 12-bit sense code at a 2.5 V reference, rounded down (R323, R590). -/
def Rsv.volt (r : Rsv) (code : Nat) : Nat := code * 25 * r.vDiv / 4096

/-- Bank current in mA of a sense code, rounded down. -/
def Rsv.amp (r : Rsv) (code : Nat) : Int :=
  if r.iGain = 0 then 0 else ((code * 2500 : Int) - r.iZero * 4096) * 1000000 / (4096 * r.iGain)

/-- V_NOW: the lowest of the last 8 samples. -/
def Rsv.vNow (r : Rsv) : Nat :=
  match r.volts with
  | [] => 0
  | v :: vs => vs.foldl min v

/-- The registers of the board record do not pass (R331, BOARD). -/
def Rsv.boardBad (r : Rsv) : Bool :=
  decide (r.vChg ≤ r.vMin) || (rsvBankFields.any fun f => r.bank.fld f.1 f.2 = 0)
    || (rsvFlushFields.any fun f => r.flush.fld f.1 f.2 = 0) || (rsvSenseFields.any fun f => r.sense.fld f.1 f.2 = 0)

/-- Voltage samples and the VSNS cause (R323, R331): flush says that a flush runs. -/
def Rsv.takeV (flush : Bool) (code : Nat) (r : Rsv) : Rsv :=
  let v := r.volt code
  let range := decide (code * 2500 < 50 * 4096) || decide (2450 * 4096 < code * 2500)
  let jump := match r.volts.head? with
    | some p => decide (p + 1000 < v) || decide (v + 1000 < p)
    | none => false
  let badV := if range then r.badV + 1 else 0
  let goodV := if range || jump then 0 else r.goodV + 1
  let set := ! flush && (decide (3 ≤ badV) || jump)
  let f := if set then putBit r.fcause 0 true else if 100000 ≤ goodV then putBit r.fcause 0 false else r.fcause
  { r with volts := (v :: r.volts).take 8, badV := badV, goodV := goodV, fcause := f }

/-- Current samples and the ISNS cause: hold and flush as the pins say. -/
def Rsv.takeI (hold flush : Bool) (code : Nat) (r : Rsv) : Rsv :=
  let i := r.amp code
  let odd := ! hold && ! r.charging && ! r.testing && decide (500 < i.natAbs)
  let badI := if odd then r.badI + 1 else 0
  let goodI := if odd then 0 else r.goodI + 1
  let f := if ! flush && decide (100 ≤ badI) then putBit r.fcause 1 true
    else if 100000 ≤ goodI then putBit r.fcause 1 false else r.fcause
  { r with lastI := i, badI := badI, goodI := goodI, fcause := f
           qTest := if r.step = .discharging then r.qTest + i else r.qTest
           testSamples := if r.testing || r.step = .settling then r.testSamples + 1 else r.testSamples }

/-- The charger (R324) and the CHARGE cause: not during a test, and not from commit. -/
def Rsv.charger (hold : Bool) (r : Rsv) : Rsv :=
  let v := r.vNow
  let on := if hold || (r.step ≠ .idle && r.step ≠ .computing) then false
    else if r.vChg ≤ v then false else if v + 250 < r.vChg then true else r.charging
  let start := on && ! r.charging
  let rose := decide (r.chgFrom + r.testDv ≤ v)
  let n := if ! on then 0 else if start || rose then 1 else r.chgSamples + 1
  let from_ := if start || rose then v else r.chgFrom
  let f := if r.vChg ≤ v then putBit r.fcause 2 false
    else if decide (12000000 ≤ n) then putBit r.fcause 2 true else r.fcause
  { r with charging := on, chgSamples := n, chgFrom := from_, fcause := f }

/-- The charging span (R325). -/
def Rsv.span (r : Rsv) : Rsv :=
  let ok := r.charging && ! r.testing && decide (0 ≤ r.lastI)
  let v := r.volts.headD 0
  let cur := match r.chgSpan with
    | some x =>
      if x.runs then (if ok then some { x with q := x.q + r.lastI, v := v } else some { x with runs := false })
      else if ok && decide (3 ≤ r.chgSamples) then some ⟨v, 0, v, true⟩ else some x
    | none => if ok && decide (3 ≤ r.chgSamples) then some ⟨v, 0, v, true⟩ else none
  { r with chgSpan := cur }

/-- The BOARD cause. -/
def Rsv.board (r : Rsv) : Rsv := { r with fcause := putBit r.fcause 4 r.boardBad }

/-- CHARGE_ESTIMATE (R325): a span over which the voltage rose by TEST_DV gives C_chg in mF. -/
def execChargeEstimate (s : State) : Host.Outcome State Fault Refusal :=
  run (fun s =>
    match s.rsv.chgSpan with
    | some x => s.when (s.glb.steward && s.rsv.est.isNone && decide (x.v0 + s.rsv.testDv ≤ x.v)) fun s =>
      { s with rsv := { s.rsv with chgSpan := none, est := some (true, x.q.toNat / (100 * (x.v - x.v0)), 0) } }
    | none => s) s

/-! ### The ledger (R332 to R334) -/

/-- An estimate is current (R329). -/
def State.current (s : State) (e : Estimate) : Bool := decide (s.boot.opmin ≤ e.opmin + 60 * s.rsv.intervalH)

/-- C_est in use, with its source (true: charge). -/
def State.cEst (s : State) : Option (Estimate × Bool) :=
  match s.rsv.test, s.rsv.charge with
  | some t, some c =>
    let tc := s.current t
    let cc := s.current c
    if tc && cc then (if t.mF ≤ c.mF then some (t, false) else some (c, true))
    else if tc then some (t, false)
    else if cc then some (c, true)
    else if c.opmin ≤ t.opmin then some (t, false) else some (c, true)
  | some t, none => some (t, false)
  | none, some c => some (c, true)
  | none, none => none

/-- ESR in use: the newest test's. -/
def State.esr (s : State) : Nat := (s.rsv.test.map fun t => t.esr).getD 0

/-- Retired slots of the beam. -/
def State.slotsRetired (s : State) : Nat := popCount s.beam.retired

/-- Segments now open. -/
def State.openSegs (s : State) : List (Nat × Seg) := s.beam.segs.filter fun e => e.2.st = .opened

/-- Eight times u (R333), times uDen: data units that a stripe of each open segment carries on average; with none open, that of a
segment opened now. -/
def State.u8 (s : State) : Nat :=
  if s.openSegs.isEmpty then 7 * (8 - s.slotsRetired) else (s.openSegs.map fun e => 7 * (8 - popCount e.2.holes)).sum

/-- How many open segments u is the mean of. -/
def State.uDen (s : State) : Nat := max 1 s.openSegs.length

/-- Units of SCRATCH_KEEP windows in force. -/
def State.keepUnits (s : State) : Nat :=
  ((s.regions.filter fun e => e.2.active && e.2.window = 2 && e.2.keep).map fun e => e.2.size).sum

/-- C in mF as the ledger takes it (R330). -/
def State.ledgerC (s : State) : Nat :=
  if s.rsv.health = 4 then fld s.rsv.ovr 0 16
  else if s.rsv.health = 3 then 0
  else (s.cEst.map fun e => e.1.mF).getD 0

/-- V in mV as the ledger takes it. -/
def State.ledgerV (s : State) : Nat :=
  if s.rsv.health = 4 && fld s.rsv.ovr 16 16 ≠ 0 then fld s.rsv.ovr 16 16 else s.rsv.vNow

/-- C * (V^2 - V_MIN^2) * ETA, in units of 5e-13 J; 0 when V is not above V_MIN. -/
def State.energyUnits (s : State) (v : Nat) : Nat :=
  s.ledgerC * (v * v - s.rsv.vMin * s.rsv.vMin) * s.rsv.eta

/-- D_max in pages at a voltage (R332), rounded down once. free stands for it where P_FLUSH is 0, for which the spec
states no result. -/
def State.dMaxAt (s : State) (v free : Nat) : Nat :=
  let r := s.rsv
  let num := (r.derate * s.energyUnits v - r.eFixed * 200000000000000) * r.rBeam * 100000000 * s.u8
  let pages := if r.pFlush = 0 && num ≠ 0 then free
    else num / (2000000000000000 * r.pFlush * 4096 * 56 * s.uDen)
  pages - 2048 * s.keepUnits

/-- Brace is in force. -/
def State.brace (s : State) : Bool := s.vlt.braceOn

/-- Channels in service. -/
def State.liveChannels (s : State) : List Nat :=
  (List.range 16).filter fun c => (s.chan c).inService && ! (s.chan c).retired

/-- TWIN: the reserve that the free frames can hold, spread evenly (R191). -/
def State.twinLimit (s : State) : Nat :=
  match s.liveChannels with
  | [] => 0
  | c :: cs => (cs.length + 1) * cs.foldl (fun m x => min m (s.chanFree x)) (s.chanFree c)

/-- Map frames in use. -/
def State.mapFrames (s : State) : Nat := s.dram.frames.countWhere fun _ u => match u with | .mapF _ _ => true | _ => false

/-- FRAME: frames outside the map and the twin reserve stay 65,536 above the cap (R238). -/
def State.frameLimit (s : State) : Nat := (s.framesInService - s.framesSystem - s.mapFrames - 65536) / 2

/-- TIME (R334). -/
def State.timeLimit (s : State) : Nat :=
  s.rsv.flushMs * s.rsv.rBeam * 100000000 * s.u8 / (1000 * 4096 * 56 * s.uDen)

/-- The limits of R334 in order, with FAULT last; free as in dMaxAt. -/
def State.limits (s : State) (v free : Nat) : List Nat :=
  let d := s.dMaxAt v free
  [if s.brace then d / 2 else d, s.timeLimit, s.twinLimit, s.frameLimit, (s.freeSegs - 16) * 26880]

/-- D_eff and its LIMIT: FAULT where it applies, else the least limit, the lowest-numbered on a tie. -/
def State.capAt (s : State) (v free : Nat) : Nat × Nat :=
  if s.rsv.health = 3 then (0, 5)
  else
    let l := s.limits v free
    let m := l.foldl min (l.headD 0)
    (m, l.findIdx fun x => x = m)

/-! ### Admission (R336, R338) -/

/-- H (R337). -/
def headroom : Nat := 24576

/-- The cleaning engine runs at full rate (R336). -/
def State.fullClean (s : State) : Bool :=
  s.rsv.fullCap || s.rsv.withhold || s.brace || s.rsv.health ≠ 0 || (s.dram.ch.any fun e => e.2.rebuild)
    || s.vlt.shortLeft.any fun pn => (s.page pn).dirty

/-- Withholding after a recompute (R338): it starts at D_eff - H, holds while D_eff is below H, and ends at 95 %. -/
def withholds (was : Bool) (dirty cap : Nat) : Bool :=
  if cap < headroom then true
  else if cap - headroom ≤ dirty then true
  else if dirty * 100 ≤ 95 * cap then false else was

/-- Full-rate cleaning by the cap: from 75 % until below 70 % (R336). -/
def capClean (was : Bool) (dirty cap : Nat) : Bool :=
  if cap * 75 ≤ dirty * 100 then true else if dirty * 100 < cap * 70 then false else was

/-- The twin reserve follows the cap (R191). -/
def State.spreadTwins (s : State) (cap : Nat) : State :=
  let l := s.liveChannels
  let n := (cap + l.length - 1) / l.length
  l.foldl (fun (s : State) c => s.modChan c fun x => { x with twinRsv := min n (s.chanFree c) }) s

/-- A periodic or asked-for test is due (R327). -/
def State.testIsDue (s : State) : Bool :=
  s.rsv.testDue.isSome || (match s.rsv.lastTest with
    | some t => decide (t + 60 * s.rsv.testHrs ≤ s.boot.opmin)
    | none => true)

/-- The conditions of R327 other than that on the cap. -/
def State.testReady (s : State) : Bool :=
  s.testIsDue && s.rsv.testEn && s.rsv.health ≠ 3 && ! s.brace && ! s.rsv.charging
    && decide (s.rsv.vChg ≤ s.rsv.vNow + 250) && s.rsv.step = .idle && ! s.vlt.stopped && ! s.vlt.hold

/-- The cap condition of R327. -/
def State.testCap (s : State) (free : Nat) : Bool :=
  decide (s.dirtyCount * 100 ≤ 90 * (s.capAt (s.rsv.vNow - s.rsv.testDv) free).1)

/-- The recompute itself; free as in dMaxAt. -/
def State.ledger (s : State) (free : Nat) : State :=
  let v := s.ledgerV
  let c := s.capAt v free
  let dirty := s.dirtyCount
  let own := max (min 100 (fld s.map.clean 0 7)) (min 100 (Config.cleanRate s.clock))
  let rate := if s.testReady && ! s.testCap free && s.glb.steward then 100 else own
  let s1 : State := { s with
    rsv := { s.rsv with
      eUse := s.energyUnits v / 200000000000, dMax := s.dMaxAt v free, dEff := c.1, limit := c.2
      withhold := withholds s.rsv.withhold dirty c.1, fullCap := capClean s.rsv.fullCap dirty c.1 }
    map := { s.map with bgRate := rate } }
  let s2 := (s1.presentHeads.foldl (fun (s : State) h => s.modLoad h fun l => { l with cap := capLoad dirty c.1 }) s1)
  let s3 := (s2.spreadTwins c.1).minuteMax (4096 * 6 + 0xA00) (if c.1 = 0 then 100 else dirty * 100 / c.1)
  let pend := match s3.sec.cmd with | some k => k.committed && s3.sec.result = 4 | none => false
  let w := s3.vlt.writable || (s3.vlt.active && ! s3.rsv.withhold && ! pend)
  s3.presentHeads.foldl (fun (s : State) h => s.returnCredits h) { s3 with vlt := { s3.vlt with writable := w } }

/-! ### Test discharges (R326, R327) -/

/-- TEST_START (R326 step 1). -/
def execTestStart (s : State) : Host.Outcome State Fault Refusal :=
  run (fun s => s.when (s.testReady && s.testCap 0) fun s =>
    ({ s with rsv := { s.rsv with step := .settling, charging := false, testSamples := 0 } } : State).count (evVault 0) 1) s

/-- TEST_NOW: writing 1 to RSV_CTL.TEST_NOW makes a test due; RSV_CTL is a global register. -/
def execTestNow (src : Nat) (s : State) : Host.Outcome State Fault Refusal :=
  run (fun s => s.globalWrite src (regArgBar 0x9000) fun s =>
    { s with rsv := { s.rsv with testDue := some (s.rsv.testDue.getD s.boot.opmin) } }) s

/-- TEST_SETTLED (R326 step 2): 1 ms after the trigger, with the current within 50 mA of zero. -/
def execTestSettled (s : State) : Host.Outcome State Fault Refusal :=
  run (fun s => s.when (s.rsv.step = .settling && decide (100 ≤ s.rsv.testSamples)
      && decide (s.rsv.lastI.natAbs ≤ 50)) fun s =>
    { s with rsv := { s.rsv with
      step := .loaded, testing := true, testSamples := 0, v0 := s.rsv.volts.headD 0 } }) s

/-- TEST_ESR_SAMPLE (R326 step 3): ESR in 0.1 milliohm; a free value where no current flows out of the bank. -/
def execTestEsrSample (s : State) : Host.Outcome State Fault Refusal :=
  run (fun s => s.when (s.rsv.step = .loaded && decide (2 ≤ s.rsv.testSamples)) fun s =>
    let r := s.rsv
    let va := r.volts.headD 0
    let i := (- r.lastI).toNat
    let s1 := if i = 0 then s.fresh.2 else s
    let esr := if i = 0 then s.fresh.1.toNat % 65536 else min 65535 ((r.v0 - va) * 10000 / i)
    { s1 with rsv := { r with
      step := .discharging, va := va, ia := r.lastI, qTest := 0, est := some (false, 0, esr) } }) s

/-- TEST_DISCHARGE_END (R326 step 5). -/
def execTestDischargeEnd (s : State) : Host.Outcome State Fault Refusal :=
  run (fun s => s.when (s.rsv.step = .discharging && decide (s.rsv.volts.headD 0 + s.rsv.testDv ≤ s.rsv.va)) fun s =>
    { s with rsv := { s.rsv with step := .computing, testing := false, charging := true } }) s

/-- A cause of R327 stands. -/
def State.abortStands (s : State) (c : AbortCause) : Bool :=
  match c with
  | .braceOrCommit => s.brace || s.vlt.hold || s.vlt.stopped
  | .cap => decide (95 * s.rsv.dEff ≤ s.dirtyCount * 100)
  | .fiveSeconds => s.rsv.step = .discharging && decide (500000 ≤ s.rsv.testSamples)

/-- TEST_RESULT of an abort. -/
def abortResult : AbortCause → Nat
  | .braceOrCommit => 2 | .cap => 3 | .fiveSeconds => 4

/-- A running test is aborted at step 5 (R327). -/
def State.abortTest (s : State) (c : AbortCause) : State :=
  if s.rsv.step = .settling || s.rsv.step = .loaded || s.rsv.step = .discharging then
    ({ s with rsv := { s.rsv with
      step := .idle, testing := false, charging := ! s.vlt.hold, testResult := abortResult c, est := none } } : State).count
        (evVault 1) 1
  else s

/-- TEST_ABORT (R327). -/
def execTestAbort (cause : AbortCause) (s : State) : Host.Outcome State Fault Refusal :=
  run (fun s => s.when (s.abortStands cause) fun s => s.abortTest cause) s

/-- TEST_ESTIMATE (R326 step 6): C_test = Q / TEST_DV, in mF. -/
def execTestEstimate (s : State) : Host.Outcome State Fault Refusal :=
  run (fun s => s.when (s.rsv.step = .computing && s.glb.steward) fun s =>
    let esr := match s.rsv.est with | some e => e.2.2 | none => 0
    { s with rsv := { s.rsv with
      step := .idle, testResult := 1, testDue := none, lastTest := some s.boot.opmin
      est := some (false, (- s.rsv.qTest).toNat / (100 * s.rsv.testDv), esr) } }) s

/-- Operating minute since which a test is due. -/
def State.dueSince (s : State) : Nat :=
  match s.rsv.testDue, s.rsv.lastTest with
  | some n, some t => min n (t + 60 * s.rsv.testHrs)
  | some n, none => min n s.rsv.bootMin
  | none, some t => t + 60 * s.rsv.testHrs
  | none, none => s.rsv.bootMin

/-- TEST_POSTPONED (R327): due for 4 h without starting. -/
def execTestPostponed (s : State) : Host.Outcome State Fault Refusal :=
  run (fun s => s.when (s.testIsDue && s.rsv.step = .idle && decide (s.dueSince + 240 ≤ s.boot.opmin)) fun s =>
    { s with rsv := { s.rsv with testResult := 5 } }) s

/-! ### Estimates and health (R328 to R331) -/

/-- Two estimates differ by more than 20 % of the lower. -/
def disagree (a b : Nat) : Bool := decide (min a b * 120 < max a b * 100)

/-- DISAGREE after a new estimate (R331). -/
def State.agreement (s : State) : State :=
  match s.rsv.test, s.rsv.charge with
  | some t, some c =>
    if s.current t && s.current c then
      { s with rsv := { s.rsv with fcause := putBit s.rsv.fcause 3 (disagree t.mF c.mF) } }
    else s
  | _, _ => s

/-- Edges of a metric's bins (R524); none for a metric without HIST records. -/
def tapEdges (metric : Nat) : List Nat :=
  match metric with
  | 1 => [0, 60, 70, 80, 90, 95, 100, 105]
  | 2 => [0, 60, 70, 80, 85, 90, 95, 100]
  | 3 => [0, 10600, 11200, 11400, 11700, 12000, 12300, 12600]
  | 6 => [0, 25, 50, 70, 75, 85, 95, 100]
  | 7 => [0, 50, 100, 120, 200, 300, 400, 1000]
  | _ => []

/-- The bin of a value. -/
def tapBin (edges : List Nat) (v : Nat) : Nat := (edges.filter fun e => e ≤ v).length - 1

/-- Take a sample into an accumulator (R524, R526). -/
def TapAcc.take (a : TapAcc) (metric v opmin : Nat) : TapAcc :=
  let b := tapBin (tapEdges metric) v
  { bins := if (tapEdges metric).isEmpty then a.bins else a.bins.mapIdx fun i x => if i = b then Nat.min (x + 1) (2 ^ 32 - 1) else x
    min := if a.n = 0 || v < a.min then v else a.min
    max := if a.n = 0 || a.max < v then v else a.max
    minAt := if a.n = 0 || v < a.min then opmin else a.minAt
    maxAt := if a.n = 0 || a.max < v then opmin else a.maxAt
    sum := a.sum + v, n := a.n + 1 }

/-- A sample of a metric of a unit; key is 4096 * METRIC + UNIT. -/
def State.tapSample (s : State) (key v : Nat) : State :=
  { s with tap := { s.tap with
    accs := s.tap.accs.set {} key ((s.tap.accs.get {} key).take (key / 4096) v s.boot.opmin) } }

/-- ESTIMATE_ACCEPT (R328): between 0.05 F and 65.535 F the steward takes the estimate and records it. -/
def execEstimateAccept (s : State) : Host.Outcome State Fault Refusal :=
  run (fun s => s.when (s.glb.steward && s.rsv.step = .idle) fun s =>
    match s.rsv.est with
    | none => s
    | some (chg, mF, esr) =>
      let s0 : State := { s with rsv := { s.rsv with est := none } }
      let s0 := if chg then s0 else s0.tapSample (4096 * 5 + 0xA00) esr
      if mF < 50 || 65535 < mF then s0
      else
        let s1 := s0.tapSample (4096 * 4 + 0xA00) mF
        let e : Estimate := ⟨mF, esr, s.boot.opmin⟩
        if chg then
          ({ s1 with rsv := { s1.rsv with charge := some e }, boot := s1.boot.addEstimate true e } : State).agreement
        else ({ s1 with rsv := { s1.rsv with test := some e }, boot := s1.boot.addEstimate false e } : State).agreement) s

/-- The health that R330 gives now: 0 VALID, 1 STALE, 2 LOW, 3 FAULT, 4 OVERRIDE. -/
def State.healthNow (s : State) : Nat :=
  if s.rsv.override then 4
  else if s.rsv.fcause ≠ 0 then 3
  else match s.cEst with
    | none => 1
    | some e =>
      if e.1.mF < s.rsv.cFloor || s.rsv.esrMax < s.esr then 2
      else if s.current e.1 then 0 else 1

/-- The evaluation of R330: a change posts RSV_HEALTH and sends every head a Memory Module Event. -/
def State.judge (s : State) : State :=
  let h := s.healthNow
  if h = s.rsv.health then s
  else
    let s1 : State := { s with rsv := { s.rsv with health := h } }
    (s1.note ⟨if h = 0 then 0 else 2, 0x0A, h + s.rsv.health * 8 + s.rsv.fcause.toNat * 64, none⟩).eventAll
      ⟨.memoryModule, 0x0A, h⟩

/-- HEALTH_CHANGE (R330). -/
def execHealthChange (s : State) : Host.Outcome State Fault Refusal := run (fun s => s.judge) s

end Sys2Proof.Machine
end

