-- ==== Sys2Proof/Machine/Rings.lean ====
section
/-! DEFINITION. Rings at work (chapter 12): the check of a descriptor (R415 to R420), the engine's holds (R347, R339, R431),
fetch and completion (R408 to R416, R433), the context's registers (R399 to R401), doorbells, resets and brakes. -/
namespace Sys2Proof.Machine

/-! ### Descriptors (R415, R418) -/

/-- OPCODE. -/
def dOp (d : Line) : Nat := fld (lineWord d 0) 0 8
/-- SUB. -/
def dSub (d : Line) : Nat := fld (lineWord d 0) 8 8
/-- IRQ, WHOLE, ALL. -/
def dIrq (d : Line) : Bool := flag (lineWord d 0) 16
/-- See dIrq. -/
def dWhole (d : Line) : Bool := flag (lineWord d 0) 17
/-- See dIrq. -/
def dAll (d : Line) : Bool := flag (lineWord d 0) 18
/-- TAG. -/
def dTag (d : Line) : Nat := fld (lineWord d 0) 32 32
/-- Operand word i as a number. -/
def dW (d : Line) (i : Nat) : Nat := (lineWord d i).toNat
/-- REGION. -/
def dRegion (d : Line) : Nat := dW d 2 % 4096

/-- OPCODE and SUB are defined. -/
def dDefined (d : Line) : Bool :=
  match dOp d with
  | 0x02 => dSub d = 1 || dSub d = 2 || dSub d = 3
  | 0x03 => decide (dSub d ≤ 2)
  | 0x31 => dSub d = 2 || dSub d = 3
  | 0x40 => decide (dSub d ≤ 4)
  | 0x01 | 0x10 | 0x11 | 0x12 | 0x20 | 0x21 | 0x22 | 0x30 | 0x32 | 0x33 | 0x50 | 0x51 | 0x52 | 0x60 | 0x61 | 0x70 =>
    dSub d = 0
  | _ => false

/-- For each operand word 1 to 7, how many low bits the opcode uses. -/
def dUsed (d : Line) : List Nat :=
  match dOp d with
  | 0x02 => if dWhole d then [0, 12, 0, 0, 0, 0, 0] else [64, 0, 64, 0, 0, 0, 0]
  | 0x03 => [0, 12, 0, 0, 0, 0, 0]
  | 0x10 => [64, 64, 64, 0, 0, 0, 0]
  | 0x11 => [64, 0, 64, 64, 0, 0, 0]
  | 0x12 | 0x20 | 0x21 | 0x22 | 0x30 | 0x31 | 0x32 | 0x33 => [64, 0, 64, 0, 0, 0, 0]
  | 0x40 => if dSub d = 4 then [64, 64, 0, 64, 64, 64, 64] else [64, 0, 0, 64, 0, 0, 0]
  | 0x50 => [0, 12, 0, 0, 0, 0, 0]
  | 0x51 | 0x52 => [0, 8, 0, 0, 0, 0, 0]
  | 0x60 => [0, 0, 0, 32, 0, 0, 0]
  | 0x70 => if dAll d then [0, 0, 0, 0, 0, 0, 0] else [0, 12, 0, 0, 0, 0, 0]
  | _ => [0, 0, 0, 0, 0, 0, 0]

/-- Every Reserved field holds 0 (R415, R418). -/
def dReservedZero (d : Line) : Bool :=
  fld (lineWord d 0) 19 13 = 0 && (! dWhole d || dOp d = 0x02) && (! dAll d || dOp d = 0x70)
    && ((dUsed d).mapIdx fun i n => decide (dW d (i + 1) < 2 ^ n)).all id

/-- The ranges a descriptor names: address, length, and whether it writes them. An atomic's operand and RES are ranges
here, so that rights and windows are judged alike. -/
def dRanges (d : Line) : List (Nat × Nat × Bool) :=
  match dOp d with
  | 0x02 => if dWhole d then [] else [(dW d 1, dW d 3, true)]
  | 0x10 => [(dW d 2, dW d 3, false), (dW d 1, dW d 3, true)]
  | 0x11 | 0x12 | 0x22 => [(dW d 1, dW d 3, true)]
  | 0x20 | 0x21 | 0x30 | 0x31 | 0x32 | 0x33 => [(dW d 1, dW d 3, false)]
  | 0x40 =>
    let n := if dSub d = 4 then 16 else 8
    (dW d 1, n, true) :: (if dSub d = 4 && dW d 2 ≠ 0 then [(dW d 2, 16, true)] else [])
  | _ => []

/-- LEN 0, misaligned operands, addresses with bits 63:45 not 0. -/
def dMalformed (d : Line) : Bool :=
  ((dRanges d).any fun x => x.2.1 = 0 || decide (2 ^ 45 ≤ x.1))
    || (dOp d = 0x40 && (dW d 1 % (if dSub d = 4 then 16 else 8) ≠ 0 || dW d 2 % 16 ≠ 0))

/-- The 2 MiB units that a range touches, as far as 2^45. -/
def rangeUnits (a n : Nat) : List Nat :=
  let lo := a / 2097152
  let hi := (min (a + n) (2 ^ 45) - 1) / 2097152
  (List.range (hi + 1 - lo)).map fun i => lo + i

/-- The head has the rights to every unit that a range touches (R35). A SEAL judges DLOST itself (R319). -/
def State.rangeRights (s : State) (h : Nat) (isSeal : Bool) (x : Nat × Nat × Bool) : Bool :=
  (rangeUnits x.1 x.2.1).all fun u =>
    match s.regionOfUnit u with
    | some (n, r) => if x.2.2 then r.mayWrite h && (isSeal || (! r.dlost && ! (s.slvRgn n).held)) else r.mayRead h
    | none => false

/-- A range lies in one region and below 2^45 (R420). -/
def State.rangeOne (s : State) (x : Nat × Nat × Bool) : Bool :=
  match s.regionOfUnit (x.1 / 2097152) with
  | some (_, r) => decide (x.1 + x.2.1 ≤ (r.base + r.size) * 2097152) && decide (x.1 + x.2.1 ≤ 2 ^ 45)
  | none => false

/-- The region at the start of a range. -/
def State.rangeRegion (s : State) (x : Nat × Nat × Bool) : Region := ((s.regionOfUnit (x.1 / 2097152)).map Prod.snd).getD {}

/-- The windows of R419 allow the operation. -/
def State.attrOk (s : State) (d : Line) : Bool :=
  match dOp d with
  | 0x02 =>
    let r := if dWhole d then s.region (dRegion d) else s.rangeRegion (dW d 1, 1, true)
    r.durable && r.window = 0
  | 0x10 | 0x11 | 0x12 | 0x40 => (dRanges d).all fun x =>
      let w := (s.rangeRegion x).window
      w = 0 || w = 2 || (! x.2.2 && (w = 3 || w = 4))
  | 0x22 => (dRanges d).all fun x => (s.rangeRegion x).window = 3 || (! (s.rangeRegion x).durable && (s.rangeRegion x).window ≠ 4)
  | 0x30 | 0x31 | 0x32 | 0x33 => (dRanges d).all fun x => (s.rangeRegion x).window = 0 || (s.rangeRegion x).window = 4
  | 0x50 => (s.region (dRegion d)).window = 0 && decide ((s.region (dRegion d)).wpol ≤ 1)
  | 0x70 => dAll d || (s.region (dRegion d)).window = 4
  | _ => true

/-- The opcode names a region that must be ACTIVE. -/
def dNamesRegion (d : Line) : Bool :=
  dOp d = 0x03 || (dOp d = 0x02 && dWhole d) || dOp d = 0x50 || (dOp d = 0x70 && ! dAll d)

/-- Swatch slot of a descriptor, where it holds a swatch that can be named. -/
def State.namedSwatch (s : State) (d : Line) : Option Swatch :=
  let w := s.map.swatches.get {} (dW d 2)
  if w.st = .live || w.st = .exporting || w.st = .exported then some w else none

/-- Rights of the owner head h (R419). -/
def State.rightsOk (s : State) (h : Nat) (d : Line) : Bool :=
  ((dRanges d).all fun x => s.rangeRights h (dOp d = 0x02) x)
    && (! (dOp d = 0x50 || (dOp d = 0x02 && dWhole d)) || (s.region (dRegion d)).mayWrite h)
    && (! (dOp d = 0x51 || dOp d = 0x52) || match s.namedSwatch d with
        | some w => (s.region w.region).mayWrite h
        | none => true)

/-- The checks before a descriptor's first step, in the order of R417: 0 or the STATUS. -/
def State.descCheck (s : State) (h : Nat) (d : Line) : Nat :=
  if ! dDefined d || ! dReservedZero d || dMalformed d then 0x01
  else if (dOp d = 0x03 || dOp d = 0x70) && h ≠ s.mgmtHead then 0x03
  else if dNamesRegion d && ! (s.region (dRegion d)).active then 0x0C
  else if ! s.rightsOk h d then 0x03
  else if (dRanges d).any fun x => ! s.rangeOne x then 0x02
  else if ! s.attrOk d then 0x04
  else if (dOp d = 0x51 || dOp d = 0x52) && (s.namedSwatch d).isNone then 0x0C
  else 0

/-! ### Holds -/

/-- Regions that a descriptor touches. -/
def State.descRegions (s : State) (d : Line) : List Nat :=
  ((dRanges d).filterMap fun x => (s.regionOfUnit (x.1 / 2097152)).map Prod.fst)
    ++ (if (dOp d = 0x02 && dWhole d) || dOp d = 0x50 then [dRegion d] else [])

/-- The descriptor would write a DURABLE region (R339). -/
def State.writesDurable (s : State) (d : Line) : Bool :=
  (dOp d = 0x10 || dOp d = 0x11 || dOp d = 0x12 || dOp d = 0x40)
    && (dRanges d).any fun x => x.2.2 && (s.rangeRegion x).durable

/-- A hold keeps the ring's descriptor from going on (R347, R339, R426, R431). -/
def State.descHeld (s : State) (r : Nat) : Bool :=
  let x := s.ring r
  let b := s.head x.owner
  s.vlt.stopped || (b.braked && b.brake.rings)
    || match x.act with
      | some a => (s.rsv.withhold && s.writesDurable a.words)
        || (! a.started && (s.descRegions a.words).any fun n => s.rng.qholds.any fun q => q.region = n)
      | none => false

/-- A request of a ring is open. -/
def State.engineOpen (s : State) (r : Nat) : Bool := s.openReqs.any fun q => q.ident = (16, r)

/-- Every write of the ring's descriptor has been accepted and, in DURABLE regions, has its buddy copy (R430). -/
def State.engineDone (s : State) (r : Nat) : Bool :=
  ! s.engineOpen r && ! (s.near.wb.any fun e => e.waiters.contains (16, r))

/-- Take a line's tokens for a GUARANTEED ring; short of them, or for a BEST_EFFORT ring, the access runs at P3 (R412). -/
def State.engineClass (s : State) (r : Nat) (write : Bool) : Bool × State :=
  let x := s.ring r
  let b := s.budget x.owner
  if ! x.gua then (true, s)
  else if lineTokens ≤ (if write then b.wr else b.rd) then
    let b1 := if write then { b with wr := b.wr - lineTokens } else { b with rd := b.rd - lineTokens }
    (false, s.setBudget x.owner b1)
  else (true, s)

/-- The engine's read of a line, as DEV_RD. -/
def State.engineRead (s : State) (r line : Nat) : State :=
  let c := s.engineClass r false
  c.2.route { src := .engine r, kind := .devRd, line := line, be := c.1 }

/-- The engine's write of a line, as DEV_WR. -/
def State.engineWrite (s : State) (r line : Nat) (d : Line) (m : Mask) (poison : Bool) : State :=
  let c := s.engineClass r true
  (c.2.count (evEngine (engineOf r) 1) (popCount m)).route
    { src := .engine r, kind := .devWr, line := line, data := d, mask := m, poison := poison, be := c.1 }

/-- The answer a ring's read has. -/
def State.engineAnswer (s : State) (r line : Nat) : Option LineCell := s.rng.answers.get none (r * 2 ^ 39 + line)

/-- Forget the answers of a ring. -/
def State.dropAnswers (s : State) (r : Nat) : State :=
  { s with rng := { s.rng with answers := s.rng.answers.restrict fun k _ => k / 2 ^ 39 ≠ r } }

/-! ### Fetch (R408 to R410) -/

/-- Rings of an engine with a descriptor in progress, of one class. -/
def State.activeOf (s : State) (e : Nat) (gua : Bool) : Nat :=
  s.rng.rings.countWhere fun r x => decide (engineOf r = e) && x.act.isSome && x.gua == gua

/-- The completion queue has a free entry. -/
def Ring.cqFree (x : Ring) : Bool := (x.cqTail + 1) % x.cqSize ≠ x.cqHead

/-- The engine turns to a ring pair: within its class it is then the last in turn (R411). -/
def State.serve (s : State) (r : Nat) : State :=
  let s1 := s.modRing r fun x => { x with served := s.rng.nextOrder }
  { s1 with rng := { s1.rng with nextOrder := s.rng.nextOrder + 1 } }

/-- The ring pair has an active slot: GUARANTEED ones always, BEST_EFFORT ones in the order of their doorbells while fewer
than 8 slots are taken (R409). -/
def State.hasSlot (s : State) (r : Nat) : Bool :=
  let x := s.ring r
  let e := engineOf r
  x.gua || (decide (s.activeOf e false < 8)
    && ! s.rng.rings.any fun y => engineOf y.1 = e && ! y.2.gua && y.2.st = .run && y.2.act.isNone
        && y.2.sqHead ≠ y.2.sqTail && y.2.cqFree && ! s.descHeld y.1 && decide (y.2.order < x.order))

/-- Take a descriptor's bytes: it starts, or a failed check ends it at once (R410, R417). -/
def State.takeDescriptor (s : State) (r : Nat) (c : LineCell) : State :=
  if c.poison then (s.dropAnswers r).ringFault r 0xC
  else
    let x := s.ring r
    let st := s.descCheck x.owner c.data
    (((s.dropAnswers r).count (evEngine (engineOf r) 0) 1).serve r).modRing r fun x => { x with
      sqHead := (x.sqHead + 1) % x.sqSize
      act := some { words := c.data, status := if st = 0 then none else some st } }

/-- DESCRIPTOR_FETCH (R409, R410): the descriptor at SQ_HEAD is read, with no tokens (R412); hostData and hostOk are what host memory returned
for a HOST queue. -/
def execDescriptorFetch (ring : Nat) (hostData : Line) (hostOk : Bool) (s : State) :
    Host.Outcome State Fault Refusal :=
  run (fun s =>
    let x := s.ring ring
    if ! (x.st = .run || x.st = .detached) || x.act.isSome || x.sqHead = x.sqTail || s.descHeld ring
        || s.tileRetired (ring % 16) || ! s.hasSlot ring then s
    else if x.st = .run && ! x.cqFree then s.modRing ring fun x => { x with st := .wait }
    else if x.sqHost then
      if hostOk && (s.head x.owner).func.busMaster then s.takeDescriptor ring { data := hostData }
      else s.ringFault ring 0xB
    else
      let line := x.sqBase / 64 + x.sqHead
      match s.regionOf line with
      | some (_, r) =>
        if ! r.mayRead x.owner then s.ringFault ring 0xB
        else
          let q : Req := { src := .engine ring, kind := .devRd, line := line, be := ! x.gua }
          let s1 := if (s.engineAnswer ring line).isNone && ! s.engineOpen ring then s.route q else s
          match s1.engineAnswer ring line with
          | some c => s1.takeDescriptor ring c
          | none => s1
      | none => s.ringFault ring 0xB) s

/-! ### Completions (R416, R433) -/

/-- Word 0 of a completion. -/
def Ring.cplWord (x : Ring) (a : Active) : Word :=
  atBit (dTag a.words) 0 ||| atBit x.sqHead 32 ||| atBit (a.status.getD 0) 48 ||| atFlag x.phase 56 ||| atFlag a.matched 57

/-- Send an MSI-X message of a ring and start a new count. -/
def State.signal (s : State) (r : Nat) : State :=
  (s.sendMsix (s.ring r).owner (s.ring r).vector).modRing r fun x => { x with coalN := 0 }

/-- The interrupt that a completion causes (R433). -/
def State.interrupt (s : State) (r : Nat) (flagged : Bool) : State :=
  let x := s.ring r
  match x.irq with
  | 1 => if flagged then s.signal r else s
  | 2 =>
    let s1 := s.modRing r fun x => { x with coalN := x.coalN + 1, coalAt := if x.coalN = 0 then s.clock else x.coalAt }
    if x.coalCnt ≤ x.coalN + 1 then s1.signal r else s1
  | _ => s

/-- The descriptor is over: the ring goes on with the next, or is IDLE (R414). -/
def State.descriptorOver (s : State) (r : Nat) : State :=
  (s.dropAnswers r).modRing r fun x => { x with
    act := none, st := if x.st = .run && x.sqHead = x.sqTail then .idle else x.st }

/-- The completion has been written: CQ_TAIL moves on and the phase inverts at each wrap (R416). -/
def State.completed (s : State) (r : Nat) (a : Active) : State :=
  let s1 := s.modRing r fun x =>
    let t := (x.cqTail + 1) % x.cqSize
    { x with cqTail := t, phase := if t = 0 then ! x.phase else x.phase }
  (if (s.ring r).quiet then s1 else s1.interrupt r (dIrq a.words)).descriptorOver r

/-- The region of a line grants a head READ_WRITE. -/
def State.mayWriteLine (s : State) (h line : Nat) : Bool :=
  match s.regionOf line with
  | some (_, r) => r.mayWrite h && ! r.dlost
  | none => false

/-- Write the completion of an ended descriptor. -/
def State.writeCompletion (s : State) (r : Nat) (a : Active) : State :=
  let x := s.ring r
  let addr := x.cqBase + 16 * x.cqTail
  if x.cqHost then
    if (s.head x.owner).func.busMaster then
      (s.emit (.hostWrite x.owner addr [x.cplWord a, a.result])).completed r a
    else (s.ringFault r 0xB).descriptorOver r
  else if a.cpl then s.completed r a
  else if ! s.mayWriteLine x.owner (addr / 64) then (s.ringFault r 0xB).descriptorOver r
  else
    let off := addr % 64
    let d : Line := ((x.cplWord a).setWidth 512 <<< (8 * off)) ||| (a.result.setWidth 512 <<< (8 * off + 64))
    let s1 := (s.modAct r fun a => { a with cpl := true }).route
      { src := .engine r, kind := .devWr, line := addr / 64, data := d, mask := BitVec.ofNat 64 (0xFFFF <<< off)
        be := ! x.gua }
    if s1.engineOpen r then s1 else s1.completed r a

/-- COMPLETION_WRITE (R416, R430, R432): an ended descriptor whose writes are all accepted completes; a detached or muted
ring writes nothing. -/
def execCompletionWrite (ring : Nat) (s : State) : Host.Outcome State Fault Refusal :=
  run (fun s =>
    let x := s.ring ring
    match x.act with
    | some a =>
      if a.status.isNone || s.vlt.stopped || ! s.engineDone ring then s
      else if x.st = .detached || x.mute then s.descriptorOver ring
      else s.writeCompletion ring a
    | none => s) s

/-! ### The engine's turn (R411) -/

/-- The running step of a data mover: its first destination address and its length. A COPY whose ranges overlap with DST above SRC
goes downward, any other mover upward (R421); a step ends at each 4 KiB boundary of either range (R411). -/
def moverChunk (down : Bool) (dst src len done : Nat) : Nat × Nat :=
  if down then
    let n := len - done
    let k := min n (min ((dst + n - 1) % 4096 + 1) ((src + n - 1) % 4096 + 1))
    (dst + n - k, k)
  else (dst + done, min (len - done) (min (4096 - (dst + done) % 4096) (4096 - (src + done) % 4096)))

/-- The direction of a mover. -/
def moverDown (d : Line) : Bool :=
  dOp d = 0x10 && decide (dW d 2 < dW d 1) && decide (dW d 1 < dW d 2 + dW d 3)

/-- The step that a mover runs next. -/
def Active.chunk (a : Active) : Nat × Nat :=
  moverChunk (moverDown a.words) (dW a.words 1) (if dOp a.words = 0x10 then dW a.words 2 else dW a.words 1) (dW a.words 3) a.done

/-- The lines that n bytes from an address touch. -/
def linesOf (a n : Nat) : List Nat := (List.range ((a + n - 1) / 64 + 1 - a / 64)).map fun i => a / 64 + i

/-- The source lines of a mover's step: a COPY's. -/
def Active.sources (a : Active) : List Nat :=
  if dOp a.words = 0x10 then linesOf (a.chunk.1 - dW a.words 1 + dW a.words 2) a.chunk.2 else []

/-- A descriptor waits and has released its engine (R411): a mover for the lines of its step, any other once it has started. -/
def State.descWaits (s : State) (r : Nat) (a : Active) : Bool :=
  if dOp a.words = 0x10 || dOp a.words = 0x11 || dOp a.words = 0x12 then
    a.reads && ! a.sources.all fun l => (s.engineAnswer r l).isSome
  else a.started

/-- A step of the ring's descriptor is due. -/
def State.stepDue (s : State) (r : Nat) : Bool :=
  match (s.ring r).act with
  | some a => a.status.isNone && ! s.descHeld r && ! s.descWaits r a
  | none => false

/-- The ring's step, where one is due, is the engine's next: GUARANTEED descriptors go first, and those of a class in turn
(R411). -/
def State.myTurn (s : State) (r : Nat) : Bool :=
  ! s.stepDue r || s.rng.rings.all fun y =>
    y.1 = r || engineOf y.1 ≠ engineOf r || ! s.stepDue y.1
      || (if y.2.gua == (s.ring r).gua then decide ((s.ring r).served ≤ y.2.served) else (s.ring r).gua)

/-- NOP (R418): it does nothing and completes with RESULT 0. -/
def State.workNop (s : State) (ring : Nat) : State :=
    match (s.ring ring).act with
    | some a => s.when (dOp a.words = 0x01 && a.status.isNone && ! s.descHeld ring && s.myTurn ring) fun s =>
      s.endDescriptor ring 0x00 fun a => { a with result := 0 }
    | none => s

/-- See State.workNop. -/
def execNop (ring : Nat) (s : State) : Host.Outcome State Fault Refusal := run (fun s => s.workNop ring) s

/-! ### The ring context (R399 to R401) -/

/-- The RW bits of RNG_SQ and RNG_CQ. -/
def queueBits : Word := 0xFFFFFFFFFFFFF03F
/-- The RW bits of RNG_CTL, EN apart. -/
def ringCtlBits : Word := 0x1FFFFFFFF6

/-- A queue lies wholly in one ACTIVE ORDINARY region or SCRATCH window: the region. -/
def State.queueRegion (s : State) (base bytes : Nat) : Option Region :=
  match s.regionOfUnit (base / 2097152) with
  | some (_, r) =>
    if (r.window = 0 || r.window = 2) && decide (base + bytes ≤ (r.base + r.size) * 2097152) then some r else none
  | none => none

/-- Some ACTIVE CONTROL window. -/
def State.controlWindow (s : State) : Option Region :=
  (s.regions.find? fun e => e.2.active && e.2.window = 1).map Prod.snd

/-- The context check of R401: the lowest-numbered code that applies, or 0. -/
def State.ringCheck (s : State) (r : Nat) (x : Ring) : Nat :=
  let sqR := s.queueRegion x.sqBase (64 * x.sqSize)
  let cqR := s.queueRegion x.cqBase (16 * x.cqSize)
  let guas := s.rng.rings.countWhere fun q y =>
    decide (q ≠ r) && decide (engineOf q = engineOf r) && y.en && y.gua
  if (! x.sqHost && sqR.isNone) || (! x.cqHost && cqR.isNone) then 0x1
  else if (! x.sqHost && ! (sqR.getD {}).mayRead x.owner) || (! x.cqHost && ! (cqR.getD {}).mayWrite x.owner) then 0x2
  else if ! x.cqHost && (cqR.getD {}).durable then 0x3
  else if ! x.mmio && s.controlWindow.isNone then 0x4
  else if x.gua && 8 ≤ guas then 0x5
  else if x.sqHost && ! x.mmio then 0x6
  else if ! s.present x.owner || ((x.sqHost || x.cqHost) && ! (s.head x.owner).func.busMaster) then 0x8
  else if s.tileRetired (r % 16) then 0xD
  else 0

/-- EN goes from 0 to 1 (R401). -/
def State.ringEnable (s : State) (r : Nat) : State :=
  let code := s.ringCheck r (s.ring r)
  if code ≠ 0 then s.modRing r fun x => { x with err := code, st := .off, ctl := x.ctl &&& ~~~ 1 }
  else
    let s1 := (s.dropAnswers r).modRing r fun x => { x with
      ctl := x.ctl ||| 1, err := 0, st := .idle, phase := true, sqHead := 0, sqTail := 0, cqTail := 0, cqHead := 0
      act := none, coalN := 0, quiet := false, mute := false }
    match s1.controlWindow, (s.ring r).mmio with
    | some w, false => (s1.setPool (w.scrOff * 32768 + r) 0 fullMask false).unindexPoison (w.base * 32768 + r) 1
    | _, _ => s1

/-- Undo what an aborted descriptor holds: its seal, its DRAIN, a take without its cut, an export, a maintenance range. -/
def State.dropWork (s : State) (r : Nat) : State :=
  let taking := s.map.swatches.keysWhere fun _ w => decide (w.st = .taking) && decide (w.ring = r)
  let gens := taking.foldl (fun (g : Tbl RgnGen) k =>
    let n := (s.map.swatches.get {} k).region
    g.set {} n { s.gen n with hold := false }) s.map.gens
  let sw := s.map.swatches.mapVals {} fun _ w =>
    if w.ring = r && w.st = .taking then {} else if w.ring = r && w.st = .exporting then { w with st := .live } else w
  let s1 : State := { s with
    map := { s.map with gens := gens, swatches := sw }
    near := { s.near with maint := s.near.maint.filter fun m => m.ring ≠ r }
    rng := { s.rng with
      seals := s.rng.seals.filter fun x => x.ring ≠ r
      qholds := s.rng.qholds.filter fun q => q.ring ≠ r || (q.keeps && q.ends.isSome) } }
  if taking.isEmpty then s1 else (List.range 16).foldl (fun (s : State) t => s.retryWrites t) s1

/-- Abort a ring's descriptor at its step boundary. -/
def State.abortDescriptor (s : State) (r : Nat) : State :=
  match (s.ring r).act with
  | some a => if a.status.isSome then s else (s.dropWork r).endDescriptor r 0x0B id
  | none => s

/-- EN written 0 (R414): the descriptor in progress completes with ABORTED and nothing more starts. A detached ring writes
no completion. -/
def State.ringDisable (s : State) (r : Nat) : State :=
  if (s.ring r).st = .off then s.modRing r fun x => { x with ctl := x.ctl &&& ~~~ 1 }
  else
    (s.abortDescriptor r).modRing r fun x => { x with
      ctl := x.ctl &&& ~~~ 1, st := .off, mute := x.st = .detached }

/-- Put back held requests through decode (R426, R435, R346): rights are judged again. -/
def State.redecode (s : State) (q : Req) : State :=
  match q.src with
  | .head h t =>
    if q.mute && ! q.writes then s else
    match s.regionOf q.line with
    | none => if q.mute then s else s.deny h t 0xFFF (q.line * 64) 0 q.reads
    | some (n, r) =>
      if r.refuses h q.writes true || (q.writes && (s.slvRgn n).held) then
        (if q.mute then s else s.deny h t n (q.line * 64) 0 q.reads)
      else s.dispatch h n r q
  | _ => s.route q

/-- The writer may write the ring's context. -/
def State.ringWriter (s : State) (src r : Nat) : Bool := s.isMgmt src || (s.ring r).owner = src

/-- The ACCESS notice of a context word (R602). -/
def State.ringAccess (s : State) (src r word : Nat) : State := s.access src 0xFFF 3 (regArgInd (0x400000 + 4 * r + word))

/-- Write RNG_SQ or RNG_CQ: a change while EN is 1 is refused with LIVE (R400). -/
def State.queueWord (s : State) (r : Nat) (cq : Bool) (v : Word) : State :=
  let x := s.ring r
  let w := v &&& queueBits
  if x.en then (if w = (if cq then x.cq else x.sq) then s else s.modRing r fun x => { x with err := 7 })
  else s.modRing r fun x => if cq then { x with cq := w } else { x with sq := w }

/-- The fields of RNG_CTL locked while EN is 1: CLASS, DB, OWNER. -/
def ringLocked : Word := 0xF6

/-- Write RNG_CTL (R400, R401): OWNER only by management, locked fields only while EN is 0, then EN's own transition. -/
def State.ringCtl (s : State) (src r : Nat) (v : Word) : State :=
  let x := s.ring r
  let own := ! s.isMgmt src && fld v 4 4 ≠ x.owner
  let v1 := if s.isMgmt src then v else putFld v 4 4 x.owner
  let live := x.en && (v1 &&& ringLocked) ≠ (x.ctl &&& ringLocked)
  let v2 := if x.en then (v1 &&& ~~~ ringLocked) ||| (x.ctl &&& ringLocked) else v1
  let s1 := s.modRing r fun x => { x with
    ctl := (v2 &&& ringCtlBits) ||| (x.ctl &&& 1), err := if live then 7 else x.err }
  let s2 := if own then s1.ringAccess src r 2 else s1
  match x.en, flag v 0 with
  | false, true => s2.ringEnable r
  | true, false => s2.ringDisable r
  | _, _ => s2

/-- A write to word w of ring pair r's context (R399). -/
def State.ringWord (s : State) (src r w : Nat) (v : Word) : State :=
  if ! s.ringWriter src r then s.ringAccess src r w
  else match w with
    | 0 => s.queueWord r false v
    | 1 => s.queueWord r true v
    | 2 => s.ringCtl src r v
    | _ => s

/-- RING_CONTEXT_WRITE (R399, R400). -/
def execRingContextWrite (src ring word : Nat) (value : Word) (s : State) : Host.Outcome State Fault Refusal :=
  run (fun s => s.when (s.reaches src && decide (ring < 65536) && decide (word < 4)) fun s => s.ringWord src ring word value) s

/-- RNG_CTL_EN_SET (R401): a write of RNG_CTL with EN 1. -/
def execRngCtlEnSet (src ring : Nat) (value : Word) (s : State) : Host.Outcome State Fault Refusal :=
  run (fun s => s.when (s.reaches src && decide (ring < 65536) && flag value 0) fun s => s.ringWord src ring 2 value) s

/-- RNG_CTL_EN_CLEAR (R414): a write of RNG_CTL with EN 0. -/
def execRngCtlEnClear (src ring : Nat) (value : Word) (s : State) : Host.Outcome State Fault Refusal :=
  run (fun s => s.when (s.reaches src && decide (ring < 65536) && ! flag value 0) fun s => s.ringWord src ring 2 value) s

/-- DOORBELL_LINE_WRITE (R402 to R405): a head's store to a doorbell line. -/
def execDoorbellLineWrite (h tag hpa : Nat) (data : Line) (mask : Mask) (poison : Bool) (s : State) :
    Host.Outcome State Fault Refusal :=
  run (fun s => s.when (((s.decoderOf h hpa).bind fun d => (s.regionOf (d.toDpa hpa / 64)).map fun x => x.2.window) = some 1)
    fun s => s.headWrite h tag hpa .invalid data mask poison) s

/-- A write to HD_DOORBELL of head h by a source (R81, R406, R602). -/
def State.hdDoorbell (s : State) (src h : Nat) (v : Word) : State :=
  let r := fld v 0 16
  let x := s.ring r
  if (src = h || s.isMgmt src) && x.owner = h && x.mmio && x.st ≠ .off then
    s.applyDoorbell r (if flag v 48 then some (fld v 16 16) else none) (if flag v 49 then some (fld v 32 16) else none)
  else s.access src 0xFFF 4 (regArgBar (0x4030 + 0x400 * h) + r * 2 ^ 32 + 2 ^ 60)

/-- HD_DOORBELL (R406). -/
def execHdDoorbell (h : Nat) (value : Word) (s : State) : Host.Outcome State Fault Refusal :=
  run (fun s => s.when (decide (h < 16) && s.reaches h) fun s => (s.unquiet h).hdDoorbell h h value) s

/-! ### Link drops and resets of the owner head (R432) -/

/-- Change every ring pair of a head that is not OFF. -/
def State.modRingsOf (s : State) (h : Nat) (f : Ring → Ring) : State :=
  { s with rng := { s.rng with rings := s.rng.rings.mapVals {} fun _ x =>
    if x.owner = h && x.st ≠ .off then f x else x } }

/-- The head's link drops: its ring pairs go to DETACHED. -/
def State.ringsDetach (s : State) (h : Nat) : State := s.modRingsOf h fun x => { x with st := .detached }

/-- The head is reset: its ring pairs go to OFF; a descriptor in progress runs to its end. -/
def State.ringsReset (s : State) (h : Nat) : State :=
  s.modRingsOf h fun x => { x with
    st := .off, ctl := x.ctl &&& ~~~ 1, quiet := true, mute := x.st = .detached || x.cqHost }

/-- Ring pairs of a retired tile's engines stop and go to OFF (R481). -/
def State.ringsOfTile (s : State) (t : Nat) : State :=
  (s.rng.rings.keysWhere fun r x => decide (r % 16 = t) && decide (x.st ≠ .off)).foldl
    (fun (s : State) r => s.ringDisable r) s

/-! ### Brakes (R435, R436) -/

/-- Head h's brake register as it reads. -/
def State.brakeWord (s : State) (h : Nat) : Word :=
  let b := (s.head h).brake
  let gated := b.self || b.mgmt
  let due := (s.openReqs.any fun q => q.headOf = some h) || s.near.wb.any fun e => e.waiters.any fun w => w.1 = h
  atFlag b.self 0 ||| atFlag b.mgmt 1 ||| atFlag b.rings 2 ||| atFlag gated 8
    ||| atFlag (gated && ! due) 9

/-- With the brake released the gate opens: the requests that it held are decoded in order, and the head's credits go back
(R435). -/
def State.openGate (s : State) (h : Nat) : State :=
  let x := s.head h
  if x.braked then s
  else (x.brake.gate.foldl (fun (s : State) q => s.redecode q)
    (s.modHead h fun x => { x with brake := { x.brake with gate := [] } })).returnCredits h

/-- A write to HD_BRAKE of head h, field by field. -/
def State.brakeWrite (s : State) (src h : Nat) (v : Word) : State :=
  let b := (s.head h).brake
  let own := src = h
  let man := s.isMgmt src
  let b1 : Brake := { b with
    self := if own then flag v 0 else b.self
    mgmt := if man then flag v 1 else b.mgmt
    rings := if own || man then flag v 2 else b.rings }
  let bad := (! own && flag v 0 ≠ b.self) || (! man && flag v 1 ≠ b.mgmt) || (! own && ! man && flag v 2 ≠ b.rings)
  let s1 := s.modHead h fun x => { x with brake := b1 }
  let s2 := if bad then s1.access src 0xFFF 6 (regArgBar (0x4028 + 0x400 * h)) else s1
  if b.self || b.mgmt then s2.openGate h else s2

/-- BRAKE_SET (R435, R436). -/
def execBrakeSet (src h : Nat) (value : Word) (s : State) : Host.Outcome State Fault Refusal :=
  run (fun s => s.when (s.reaches src && s.present h && (flag value 0 || flag value 1)) fun s => s.brakeWrite src h value) s

/-- BRAKE_RELEASE (R435). -/
def execBrakeRelease (src h : Nat) (value : Word) (s : State) : Host.Outcome State Fault Refusal :=
  run (fun s => s.when (s.reaches src && s.present h && ! flag value 0 && ! flag value 1) fun s => s.brakeWrite src h value) s

/-- BRAKE_RINGS (R431, R435). -/
def execBrakeRings (src h : Nat) (value : Word) (s : State) : Host.Outcome State Fault Refusal :=
  run (fun s => s.when (s.reaches src && s.present h && flag value 2) fun s => s.brakeWrite src h value) s

/-! ### QUIESCE (R426) -/

/-- A request of the region is open, or a snoop-filter entry. -/
def State.regionBusy (s : State) (n : Nat) : Bool :=
  (s.openReqs.any fun q => (s.regionOf q.line).map Prod.fst = some n)
    || (s.coh.snoops.any fun x => (s.regionOf x.line).map Prod.fst = some n)
    || (s.coh.txns.any fun e => e.2.isSome && (s.regionOf e.1).map Prod.fst = some n)

/-- A started descriptor of another ring touches the region. -/
def State.descBusy (s : State) (r n : Nat) : Bool :=
  s.rng.rings.any fun e => e.1 ≠ r && match e.2.act with
    | some a => a.started && a.status.isNone && (s.descRegions a.words).contains n
    | none => false

/-- Decode the held requests whose region is no longer held. -/
def State.releaseHeld (s : State) : State :=
  let go := fun (q : Req) => ! (((s.regionOf q.line).map fun x => s.quiesced x.1).getD false)
  let free := s.rng.qheld.filter go
  free.foldl (fun (s : State) q => s.redecode q)
    { s with rng := { s.rng with qheld := s.rng.qheld.filter fun q => ! go q } }

/-- Start and end a DRAIN or HOLD: it completes once nothing of the region is in flight. -/
def State.quiesce (s : State) (ring : Nat) (keeps : Bool) : State :=
  match (s.ring ring).act with
  | none => s
  | some a =>
    let n := dRegion a.words
    let s1 : State := if a.started then s
      else { s.modAct ring fun a => { a with started := true } with
        rng := { (s.modAct ring fun a => { a with started := true }).rng with
          qholds := s.rng.qholds ++ [⟨n, ring, keeps, none, max 1 (fld s.rng.gctl 0 10)⟩] } }
    if s1.regionBusy n || s1.descBusy ring n then s1
    else
      let qs := if keeps then s1.rng.qholds.map fun q =>
          if q.ring = ring && q.ends.isNone then { q with ends := some (s.clock + q.ms * 2000000) } else q
        else s1.rng.qholds.filter fun q => q.ring ≠ ring || q.ends.isSome
      (({ s1 with rng := { s1.rng with qholds := qs } } : State).endDescriptor ring 0 id).releaseHeld

/-- The ring's descriptor has an opcode and SUB, has not ended and is not held, and its engine turns to it. -/
def State.runs (s : State) (r op : Nat) (sub : Option Nat) : Bool :=
  match (s.ring r).act with
  | some a => dOp a.words = op && (match sub with | some n => dSub a.words = n | none => true) && a.status.isNone
      && ! s.descHeld r && s.myTurn r
  | none => false

/-- QUIESCE_DRAIN. -/
def State.workQuiesceDrain (s : State) (ring : Nat) : State := s.when (s.runs ring 0x03 (some 0)) fun s => s.quiesce ring false

/-- See State.workQuiesceDrain. -/
def execQuiesceDrain (ring : Nat) (s : State) : Host.Outcome State Fault Refusal := run (fun s => s.workQuiesceDrain ring) s

/-- QUIESCE_HOLD. -/
def State.workQuiesceHold (s : State) (ring : Nat) : State := s.when (s.runs ring 0x03 (some 1)) fun s => s.quiesce ring true

/-- See State.workQuiesceHold. -/
def execQuiesceHold (ring : Nat) (s : State) : Host.Outcome State Fault Refusal := run (fun s => s.workQuiesceHold ring) s

/-- End every HOLD in force on a region. -/
def State.endHolds (s : State) (n : Nat) : State :=
  ({ s with rng := { s.rng with qholds := s.rng.qholds.filter fun q => ! (q.region = n && q.keeps) } } : State).releaseHeld

/-- QUIESCE_RELEASE. -/
def State.workQuiesceRelease (s : State) (ring : Nat) : State := s.when (s.runs ring 0x03 (some 2)) fun s =>
    match (s.ring ring).act with
    | some a => (s.endHolds (dRegion a.words)).endDescriptor ring 0 id
    | none => s

/-- See State.workQuiesceRelease. -/
def execQuiesceRelease (ring : Nat) (s : State) : Host.Outcome State Fault Refusal := run (fun s => s.workQuiesceRelease ring) s

end Sys2Proof.Machine
end

