-- ==== Sys2Proof/Machine/Movers.lean ====
section
/-! DEFINITION. Data movers and atomics of the shuttle engines (R411, R412, R421 to R424). -/
namespace Sys2Proof.Machine

/-! ### One step of a data mover -/

/-- The source byte for a destination address: of the line read, of the pattern, or 0 (R421). -/
def State.moverByte (s : State) (r : Nat) (d : Line) (a : Nat) : Nat :=
  match dOp d with
  | 0x10 =>
    let x := a - dW d 1 + dW d 2
    match s.engineAnswer r (x / 64) with
    | some c => (c.data.toNat >>> (8 * (x % 64))) % 256
    | none => 0
  | 0x11 => fld (lineWord d 4) (8 * (a % 8)) 8
  | _ => 0

/-- The source of a destination line is poison: any source line of its bytes is (R423). -/
def State.moverPoison (s : State) (r : Nat) (d : Line) (a n : Nat) : Bool :=
  dOp d = 0x10 && (linesOf (a - dW d 1 + dW d 2) n).any fun l =>
    match s.engineAnswer r l with | some c => c.poison | none => false

/-- Write one destination line of a step that covers n bytes from lo; the result says whether it was poison. -/
def State.moverLine (s : State) (r : Nat) (d : Line) (lo n line : Nat) : Bool × State :=
  let a0 := max lo (line * 64)
  let a1 := min (lo + n) (line * 64 + 64)
  let idx := List.range (a1 - a0)
  let v := idx.foldl (fun (acc : Nat) i => acc + s.moverByte r d (a0 + i) * 2 ^ (8 * (a0 % 64 + i))) 0
  let m := (2 ^ (a1 - a0) - 1) * 2 ^ (a0 % 64)
  let p := s.moverPoison r d a0 (a1 - a0)
  (p, s.engineWrite r line (BitVec.ofNat 512 v) (BitVec.ofNat 64 m) p)

/-- RESULT of a data mover: DONE and PLINES (R419). -/
def moverResult (done plines : Nat) : Word := atBit (done % 2 ^ 48) 0 ||| atBit (min plines 0xFFFF) 48

/-- End a data mover. -/
def State.moverEnd (s : State) (r status : Nat) : State :=
  s.endDescriptor r status fun a => { a with result := moverResult a.done a.plines }

/-- One step of a data mover: rights again (R422), the reads of its source lines, then its writes once all have
answered. -/
def State.moverStep (s : State) (r : Nat) : State :=
  match (s.ring r).act with
  | none => s
  | some a =>
    let d := a.words
    let len := dW d 3
    let c := a.chunk
    let src := c.1 - dW d 1 + dW d 2
    let h := (s.ring r).owner
    if ! s.rangeRights h false (c.1, c.2, true) || (dOp d = 0x10 && ! s.rangeRights h false (src, c.2, false)) then
      s.moverEnd r 0x03
    else
      let ls := a.sources
      let s1 := if a.reads then s
        else ls.foldl (fun (s : State) l => s.engineRead r l)
          ((s.serve r).modAct r fun a => { a with started := true, reads := true })
      if ! ls.all fun l => (s1.engineAnswer r l).isSome then s1
      else
        let ws := (linesOf c.1 c.2).foldl (fun (t : Nat × State) l =>
          let x := t.2.moverLine r d c.1 c.2 l
          (t.1 + (if x.1 then 1 else 0), x.2)) (0, s1)
        let s2 := (ws.2.dropAnswers r).modAct r fun a => { a with
          done := a.done + c.2, reads := false, plines := a.plines + ws.1 }
        if a.done + c.2 = len then s2.moverEnd r (if a.plines + ws.1 = 0 then 0x00 else 0x0D) else s2

/-- A data mover's descriptor: one step of it, the engine's unit of work (R411). -/
def State.mover (s : State) (r op : Nat) : State := s.when (s.runs r op none) fun s => s.moverStep r

/-- COPY (R421). -/
def execCopy (ring : Nat) (s : State) : Host.Outcome State Fault Refusal := run (fun s => s.mover ring 0x10) s

/-- FILL (R421). -/
def execFill (ring : Nat) (s : State) : Host.Outcome State Fault Refusal := run (fun s => s.mover ring 0x11) s

/-- ZERO (R421). -/
def execZero (ring : Nat) (s : State) : Host.Outcome State Fault Refusal := run (fun s => s.mover ring 0x12) s

/-! ### Atomics (R424) -/

/-- The operation of SUB. -/
def atomOpOf : Nat → AtomOp
  | 0 => .fadd | 1 => .fand | 2 => .bor | 3 => .swap | _ => .cas16

/-- The operands of an ATOMIC: OPA, or CMP and SWP. -/
def atomA (d : Line) : BitVec 128 := if dSub d = 4 then d.extractLsb' 256 128 else d.extractLsb' 256 128 &&& 0xFFFFFFFFFFFFFFFF
/-- See atomA. -/
def atomB (d : Line) : BitVec 128 := if dSub d = 4 then d.extractLsb' 384 128 else 0

/-- Run an ATOMIC: its request goes to the owner tile once; with the old value back, RES is written and the descriptor
ends. -/
def State.atomicRun (s : State) (r : Nat) : State :=
  match (s.ring r).act with
  | none => s
  | some a =>
    let d := a.words
    let line := dW d 1 / 64
    let s1 := if a.reads then s
      else
        let c := s.engineClass r true
        (c.2.modAct r fun a => { a with started := true, reads := true }).route
          { src := .engine r, kind := .atomic (atomOpOf (dSub d)) (dW d 1 % 64) (atomA d) (atomB d), line := line, be := c.1 }
    match s1.engineAnswer r line with
    | none => s1
    | some c =>
      if c.poison then s1.endDescriptor r 0x0D id
      else
        let old : BitVec 128 := c.data.setWidth 128
        let s2 := if dSub d = 4 && dW d 2 ≠ 0 then
            s1.engineWrite r (dW d 2 / 64) ((old.setWidth 512 : Line) <<< (8 * (dW d 2 % 64)))
              (BitVec.ofNat 64 (0xFFFF <<< (dW d 2 % 64))) false
          else s1
        s2.endDescriptor r 0x00 fun a =>
          { a with result := old.setWidth 64, matched := dSub d = 4 && decide (old = atomA d) }

/-- Run an ATOMIC descriptor of one SUB. -/
def State.atomicSub (s : State) (r sub : Nat) : State := s.when (s.runs r 0x40 (some sub)) fun s => s.atomicRun r

/-- FADD (R424). -/
def execFadd (ring : Nat) (s : State) : Host.Outcome State Fault Refusal := run (fun s => s.atomicSub ring 0) s

/-- FAND (R424). -/
def execFand (ring : Nat) (s : State) : Host.Outcome State Fault Refusal := run (fun s => s.atomicSub ring 1) s

/-- FOR (R424). -/
def execAtomicFor (ring : Nat) (s : State) : Host.Outcome State Fault Refusal := run (fun s => s.atomicSub ring 2) s

/-- SWAP (R424). -/
def execSwap (ring : Nat) (s : State) : Host.Outcome State Fault Refusal := run (fun s => s.atomicSub ring 3) s

/-- CAS16 (R424). -/
def execCas16 (ring : Nat) (s : State) : Host.Outcome State Fault Refusal := run (fun s => s.atomicSub ring 4) s

end Sys2Proof.Machine
end

