-- ==== Sys2Proof/Machine/Tick.lean ====
section
/-! DEFINITION. One FCLK cycle: the clock and the state events of R515 (R511 to R513), and the passing of time up to the end
of a timer whose command has come (see the log). -/
namespace Sys2Proof.Machine

/-- The state events that are true now (R515). -/
def State.stateEvents (s : State) : List Nat :=
  let b (p : Bool) (ev : Nat) : List Nat := if p then [ev] else []
  let hd (h : Nat) : List Nat :=
    let x := s.head h
    let d := if x.link.up then s.devLoad h else 0
    b (s.withheld h) (evHead h 9) ++ b x.braked (evHead h 10) ++ b (2 ≤ d) (evHead h 11) ++ b (3 ≤ d) (evHead h 12)
      ++ b x.link.recovery (evHead h 13) ++ b x.link.memOff (evHead h 14)
  [0] ++ s.presentHeads.flatMap hd ++ ((List.range 16).flatMap fun m => b (s.chan m).throttle (evChan m 7))
    ++ (match s.beam.avoided with | some i => [evSlot i 4] | none => [])
    ++ ((List.range 32).flatMap fun e =>
      b (s.rng.rings.any fun r => engineOf r.1 = e && r.2.act.isSome && s.descHeld r.1) (evEngine e 2))
    ++ b s.slv.rx.xoffOut (evSlv 6) ++ b s.slv.obeys (evSlv 7) ++ b (s.slv.pair = .solo) (evSlv 9)
    ++ b s.brace (evVault 2) ++ b s.rsv.withhold (evVault 4) ++ b s.fullClean (evVault 5)
    ++ b (decide (s.qos.scaleD < 1000 ∨ s.qos.scaleB < 1000)) (evVault 6) ++ b s.vlt.hold (evVault 7)

/-- Add to a counter (R513). -/
def Pmc.add (p : Pmc) (ev n : Nat) : Pmc :=
  let v := p.cnt.get 0 ev + n
  { p with cnt := p.cnt.set 0 ev (v % 2 ^ 48), ovf := if v < 2 ^ 48 then p.ovf else p.ovf.set false ev true }

/-- n cycles pass with the same state events true: an event in LEVEL mode adds n, one in EDGE mode adds 1 if it was not
true before (R512). -/
def State.cycles (s : State) (n : Nat) : State :=
  let now := s.stateEvents
  let p := now.foldl (fun (p : Pmc) ev =>
    if p.modeOf ev = 1 then p.add ev n else if s.pmc.was.get false ev then p else p.add ev 1) s.pmc
  { s with clock := s.clock + n, pmc := { p with was := now.map fun ev => (ev, true) } }

/-- One FCLK cycle (DESIGN CHOICE in the log: the step on an empty queue). The device counts while it is on. -/
def State.tick (s : State) : State := if s.on then s.cycles 1 else s

/-- A timer's command has come: the clock has reached its due time (DESIGN CHOICE in the log). -/
def State.elapse (s : State) (due : Nat) : State := if due ≤ s.clock then s else s.cycles (due - s.clock)

end Sys2Proof.Machine
end

