-- ==== Sys2Proof/Machine/Timers.lean ====
section
/-! DEFINITION. Timers of hand-offs, rings and holds (R165, R426, R433). Each command says that its time is over; one that
comes early lets the time pass first (see the log). -/
namespace Sys2Proof.Machine

/-- GONE_TIMEOUT (R165): 3,000 FCLK after COMMIT was sent the old owner forgets the line. -/
def execGoneTimeout (tile line : Nat) (s : State) : Host.Outcome State Fault Refusal :=
  run (fun s =>
    match s.handOff line with
    | some x =>
      s.when (x.gone && x.src = tile && ! x.arriving) fun s =>
        (s.elapse (x.commitAt + 3000)).setHandOff line (if x.settling then some { x with gone := false } else none)
    | none => s) s

/-- SETTLING_TIMEOUT (R165, R166): 4,000 FCLK after COMMIT arrived the target discards the recorded identities. -/
def execSettlingTimeout (tile line : Nat) (s : State) : Host.Outcome State Fault Refusal :=
  run (fun s =>
    match s.handOff line with
    | some x =>
      s.when (x.settling && x.dst = tile) fun s =>
        (s.elapse x.settleAt).setHandOff line (if x.gone then some { x with settling := false, ids := [] } else none)
    | none => s) s

/-- MSIX_COALESCE_TIMEOUT (R433): COAL_US after the first unsignalled completion its message is sent. -/
def execMsixCoalesceTimeout (ring : Nat) (s : State) : Host.Outcome State Fault Refusal :=
  run (fun s =>
    let x := s.ring ring
    s.when (x.irq = 2 && x.coalN ≠ 0 && x.st ≠ .off) fun s =>
      (s.elapse (x.coalAt + x.coalUs * 2000)).signal ring) s

/-- QUIESCE_HOLD_TIMEOUT (R426): the time limit of a completed HOLD ends it, with a notice. -/
def execQuiesceHoldTimeout (region : Nat) (s : State) : Host.Outcome State Fault Refusal :=
  run (fun s =>
    match s.rng.qholds.find? fun q => q.region = region && q.keeps && q.ends.isSome with
    | some q =>
      let s1 := s.elapse (q.ends.getD 0)
      (({ s1 with rng := { s1.rng with qholds := s1.rng.qholds.erase q } } : State).note ⟨1, 0x08, region, none⟩).releaseHeld
    | none => s) s

/-! ### The reserve (R323, R332) -/

/-- RESERVE_SAMPLE (R323, R324, R331): one pair of sense codes, every 10 us. -/
def execReserveSample (vCode iCode : Nat) (s : State) : Host.Outcome State Fault Refusal :=
  run (fun s =>
    let h := s.vlt.hold
    let s1 := s.elapse (s.rsv.sampleAt + 20000)
    let r : Rsv := { s1.rsv with sampleAt := s1.clock }
    { s1 with rsv := ((((r.takeV h (vCode % 4096)).takeI h h (iCode % 4096)).charger h).span).board }) s

/-- LEDGER_RECOMPUTE (R332): every 10 us. -/
def execLedgerRecompute (s : State) : Host.Outcome State Fault Refusal :=
  run (fun s =>
    let s0 := s.elapse (s.rsv.ledgerAt + 20000)
    let s1 : State := { s0 with rsv := { s0.rsv with ledgerAt := s0.clock } }
    if s1.rsv.pFlush = 0 then (s1.fresh.2).ledger s1.fresh.1.toNat else s1.ledger 0) s

/-! ### Heat epochs (R232) -/

/-- The length of a heat epoch in FCLK: JQ_TIER.EPOCH in units of 10 ms, where 0 acts as 1. -/
def State.epochCycles (s : State) : Nat := max 1 (fld s.map.tier 16 8) * 20000000

/-- HEAT_EPOCH_TICK (R232): the epoch's length has passed. -/
def execHeatEpochTick (s : State) : Host.Outcome State Fault Refusal :=
  run (fun s =>
    let due := s.map.epochAt + s.epochCycles
    let s1 := s.elapse due
    { s1 with map := { s1.map with epoch := (s1.map.epoch + 1) % 16, epochAt := due } }) s

end Sys2Proof.Machine
end

