-- ==== Sys2Proof/Machine/Upkeep.lean ====
section
/-! DEFINITION. The upkeep of a DRAM channel that falls due with time: aging (R199), refresh (R201, R202), oscillator reads
(R203), temperature (R204, R205) and the patrol scrub (R209). -/
namespace Sys2Proof.Machine

/-- DRAM_QUEUE_AGING (R199): a request that has waited 50 us counts as P3 if its level is lower. -/
def execDramQueueAging (ch id : Nat) (s : State) : Host.Outcome State Fault Refusal :=
  run (fun s =>
    let c := s.chan ch
    let due := ((c.readQ.filter fun x => x.id = id && decide (3 < x.prio)).map fun x => x.since)
      ++ ((c.writeQ.filter fun x => x.id = id && decide (3 < x.prio)).map fun x => x.since)
    match due with
    | t :: _ =>
      ((s.elapse (t + 100000)).modChan ch fun c => { c with
        readQ := c.readQ.map fun x => if x.id = id then { x with prio := min 3 x.prio, aged := true } else x
        writeQ := c.writeQ.map fun x => if x.id = id then { x with prio := min 3 x.prio, aged := true } else x }).count
          (evChan ch 5) 1
    | [] => s) s

/-- A read of priority P1 or P0 waits for a bank group. -/
def State.bankWanted (s : State) (ch rank group : Nat) : Bool :=
  (s.chan ch).readQ.any fun x => decide (x.prio ≤ 1) && s.frameRank x.frame = rank && s.frameGroup x.frame = group

/-- tREFI of a channel in FCLK: 3.9 us, or 1.95 us while WARM or HOT (R204). -/
def Channel.refi (c : Channel) : Nat := if c.refresh2x then 3900 else 7800

/-- A refresh of a bank group runs: its row is closed, reads that wait for it go before any further write, and the rank is in a
refresh window (R197, R203). One that finds the bank idle takes the postponed ones in (R201). -/
def State.refreshBank (s : State) (ch rank group : Nat) : State :=
  let k := 8 * rank + group
  let idle := ! s.bankWanted ch rank group
  s.modChan ch fun c => { c with
    postponed := if idle then c.postponed.set 0 k 0 else c.postponed
    window := putBit c.window rank true
    sched := (List.range 2).foldl (fun (t : Tbl Sched) sub =>
      let x := t.get {} sub
      t.set {} sub { x with rows := x.rows.set none k none, refreshed := putBit x.refreshed k (! idle) }) c.sched }

/-- REFRESH (R201): the refresh of the bank group whose turn it is falls due tREFI after the one before; it is postponed, up to 4
times while a read of P1 or P0 waits for the bank, or it runs. For another bank group the command takes postponed refreshes in while the
bank is idle. -/
def execRefresh (ch rank group : Nat) (postpone : Bool) (s : State) : Host.Outcome State Fault Refusal :=
  run (fun s => s.when ((s.chan ch).inService && ! (s.chan ch).retired && decide (rank < 4) && decide (group < 8)
      && ! s.inPowerState (16 + ch)) fun s =>
    let c := s.chan ch
    let k := 8 * rank + group
    let n := c.postponed.get 0 k
    if c.refNext.get 0 rank ≠ group then
      s.when (decide (0 < n) && ! s.bankWanted ch rank group) fun s => s.refreshBank ch rank group
    else
      let s0 := s.elapse (c.refDue.get 0 rank)
      let s1 := s0.modChan ch fun c =>
        { c with refNext := c.refNext.set 0 rank ((group + 1) % 8), refDue := c.refDue.set 0 rank (s0.clock + c.refi) }
      if postpone && decide (n < 4) && s.bankWanted ch rank group then
        (s1.modChan ch fun c => { c with postponed := c.postponed.set 0 k (n + 1) }).count (evChan ch 4) 1
      else s1.refreshBank ch rank group) s

/-- OSCILLATOR_READ (R203): 1 ms after the last one, inside a refresh window of the rank, its oscillator count is taken and the delays
follow it. -/
def execOscillatorRead (ch rank count : Nat) (s : State) : Host.Outcome State Fault Refusal :=
  run (fun s => s.when ((s.chan ch).inService && ! (s.chan ch).retired && (s.chan ch).ranks.getLsbD rank
      && (s.chan ch).window.getLsbD rank) fun s =>
    let s1 := s.elapse ((s.chan ch).oscAt.get 0 rank + 2000000)
    s1.modChan ch fun c => { c with
      oscAt := c.oscAt.set 0 rank s1.clock
      delays := Config.adjustDelays c.delays rank (c.baseline.getD rank 0) count }) s

/-- THROT_TEMP in force, 85 to 100. -/
def State.throtTemp (s : State) : Nat := min 100 (max 85 (fld s.dram.ctl 8 8))

/-- What a sensor counts as: its reading, or THROT_TEMP from the second failed read in a row on (R204). DESIGN CHOICE (log): a sensor
that fails once is left out of the hottest. -/
def sensorTemp (throt fails : Nat) : Option Nat → Option Nat
  | some t => some (min 255 t)
  | none => if 1 ≤ fails then some throt else none

/-- The hottest of a channel's sensors, by the failed reads before (R204). -/
def hottest (throt : Nat) (fails : Tbl Nat) (temps : List (Option Nat)) : Option Nat :=
  (((List.range temps.length).zip temps).filterMap fun x => sensorTemp throt (fails.get 0 x.1) x.2).foldl
    (fun m t => some (max (m.getD 0) t)) none

/-- Failed reads in a row by sensor, after a read. -/
def sensorFailsAfter (fails : Tbl Nat) (temps : List (Option Nat)) : Tbl Nat :=
  ((List.range temps.length).zip temps).foldl (fun t x => t.set 0 x.1 (if x.2.isNone then fails.get 0 x.1 + 1 else 0)) fails

/-- DIMM_TEMP_READ (R204): 16 ms after the last read, the hottest sensor of a channel's DIMMs sets NORMAL, WARM or HOT, left 3 degrees below the entry
threshold. -/
def execDimmTempRead (ch : Nat) (temps : List (Option Nat)) (s : State) : Host.Outcome State Fault Refusal :=
  run (fun s => s.when (decide (ch < 16)) fun s =>
    let c := s.chan ch
    let s := s.elapse ((s.chan ch).tempAt + 32000000)
    let s0 := s.modChan ch fun c => { c with tempAt := s.clock, sensorFails := sensorFailsAfter c.sensorFails temps }
    match hottest s.throtTemp c.sensorFails temps with
    | none => s0
    | some t =>
      let hot := decide (s.throtTemp ≤ t) || (c.throttle && decide (s.throtTemp < t + 3))
      let warm := hot || decide (85 ≤ t) || (c.refresh2x && decide (82 < t))
      let s1 := (s0.modChan ch fun c => { c with tempMax := t, throttle := hot, refresh2x := warm }).minuteMax
        (4096 * 2 + 256 + ch) t
      if hot && ! c.throttle then s1.note ⟨1, 0x19, ch + t * 256, none⟩ else s1) s

/-- The next allocated frame of a channel from its scrub pointer on (R209). -/
def State.scrubFrame (s : State) (ch : Nat) : Option Nat :=
  let fs := (s.dram.frames.filter fun e => frameChan e.1 = ch).map Prod.fst
  match fs.find? fun f => decide ((s.chan ch).scrubNext ≤ f) with
  | some f => some f
  | none => fs.head?

/-- The spacing of a channel's patrol-scrub steps (R209): its allocated frames spread over SCRUB_HRS hours (DESIGN CHOICE: evenly; see
the log). -/
def State.scrubGap (s : State) (ch : Nat) : Nat :=
  fld s.dram.ctl 0 8 * 7200000000000 / max 1 (s.dram.frames.filter fun e => frameChan e.1 = ch).length

/-- PATROL_SCRUB_STEP (R209): the read of the next allocated frame enters the channel's queue at P6, one at a time. While the host gap is
open the steps are deferred (R538). -/
def execPatrolScrubStep (ch : Nat) (s : State) : Host.Outcome State Fault Refusal :=
  run (fun s => s.when (fld s.dram.ctl 0 8 ≠ 0 && ! (s.chan ch).throttle && ! (s.chan ch).retired && ! (s.hostGap && ! s.pwr.quiet.isEmpty)
      && ! ((s.chan ch).readQ.any fun x => x.why = .scrub)) fun s =>
    let due := (s.chan ch).scrubAt + s.scrubGap ch
    let s := s.elapse due
    match s.scrubFrame ch with
    | some f => (match s.pageRead 0 f 6 .scrub with
      | some t => t.modChan ch fun c => { c with scrubNext := f + 1, scrubAt := due }
      | none => s)
    | none => s) s

end Sys2Proof.Machine
end

