-- ==== Sys2Proof/Machine/BeamTimers.lean ====
section
/-! DEFINITION. The beam's timers: the stripe and DELTA timers (R276, R288), hedging and avoidance (R303, R305), the hourly health
read (R298) and the abort of commands that are out too long (R267). -/
namespace Sys2Proof.Machine

/-- STRIPE_WRITE (R276): 10 us after its first record a stripe is written as it stands. -/
def execStripeWrite (stream : Nat) (expired : Bool) (s : State) : Host.Outcome State Fault Refusal :=
  run (fun s =>
    match s.beam.bufs.get none stream with
    | some b => s.when (expired && s.beamUp && ! b.recs.isEmpty) fun s => (s.elapse (b.since + 20000)).writeStripe stream
    | none => s) s

/-- DELTA_RECORD_WRITE (R288): at 256 entries, or 1 ms after the oldest. -/
def execDeltaRecordWrite (expired : Bool) (s : State) : Host.Outcome State Fault Refusal :=
  run (fun s =>
    if 256 ≤ s.beam.deltas.length then s.writeDelta
    else s.when (expired && ! s.beam.deltas.isEmpty) fun s =>
      (s.elapse (s.beam.deltaAt.headD s.clock + 2000000)).writeDelta) s

/-- A slot's read reached its limit: 16 times within 100 ms and the slot is avoided, at most one at a time (R305). -/
def State.slowRead (s : State) (i : Nat) : State :=
  let times := ((s.slot i).slowAt.filter fun t => decide (s.clock < t + 200000000)) ++ [s.clock]
  let avoid := flag s.beam.ctl 10 && decide (16 ≤ times.length) && s.beam.avoided.isNone
  let s1 := s.modSlot i fun x => { x with slowAt := if avoid then [] else times }
  if avoid then { s1 with beam := { s1.beam with avoided := some i, avoidAt := s1.clock } } else s1

/-- HEDGE_TIMEOUT (R303, R305): a read that has been out for its limit is hedged: the same LBAs are read on the other slots. -/
def execHedgeTimeout (addr : Nat) (s : State) : Host.Outcome State Fault Refusal :=
  run (fun s =>
    match s.beam.reads.find? fun r => r.addr = addr && ! r.hedged && ! r.rebuilt && ! r.queued && decide (r.hedge ≠ 0) with
    | none => s
    | some r =>
      let s1 := (((s.elapse (r.since + r.hedge)).count (evSlot r.slot 2) 1).slowRead r.slot).readOthers r.slot
      { s1 with beam := { s1.beam with
        reads := s1.beam.reads.map fun x => if x.addr = addr then { x with hedged := true } else x } }) s

/-- SLOT_AVOID_END (R305): 100 ms after it began. -/
def execSlotAvoidEnd (s : State) : Host.Outcome State Fault Refusal :=
  run (fun s => s.when s.beam.avoided.isSome fun s =>
    let s1 := s.elapse (s.beam.avoidAt + 200000000)
    { s1 with beam := { s1.beam with avoided := none } }) s

/-- NVME_ABORT (R267): a command out for longer than 2 s is aborted. PRESUMED (log): a read so ended is unreadable on its slot. -/
def execNvmeAbort (slot addr : Nat) (s : State) : Host.Outcome State Fault Refusal :=
  run (fun s =>
    match s.beam.reads.find? fun r => r.addr = addr && r.slot = slot && ! r.rebuilt && ! r.queued with
    | some r => ((s.elapse (r.since + 4000000000)).emit (.nvmeAdmin slot 0x08)).readFailed r 8
    | none => s) s

/-- SMART_LOG_READ (R298): an hour after the last. -/
def execSmartLogRead (slot used : Nat) (critical : BitVec 8) (s : State) : Host.Outcome State Fault Refusal :=
  run (fun s => s.when (s.glb.steward && (s.slot slot).present && decide (slot < 8)) fun s =>
    let x := s.slot slot
    let u := min used 255
    let s0 := (s.elapse (x.smartAt + 7200000000000)).emit (.nvmeAdmin slot 0x02)
    let s1 := s0.modSlot slot fun x => { x with
      smartAt := s0.clock
      wear := u, worn90 := x.worn90 || decide (90 ≤ u), worn100 := x.worn100 || decide (100 ≤ u)
      fail := if critCause critical ≠ 0 then 3 else x.fail }
    let s2 := if 90 ≤ u && ! x.worn90 then s1.note ⟨1, 0x1B, slot + u * 256, none⟩ else s1
    if 100 ≤ u && ! x.worn100 then s2.note ⟨1, 0x1B, slot + u * 256, none⟩ else s2) s

end Sys2Proof.Machine
end

