-- ==== Sys2Proof/Machine/Maintain.lean ====
section
/-! DEFINITION. Cache maintenance by descriptor: CLEAN, INVAL and DISCARD (R124 to R133). -/
namespace Sys2Proof.Machine

/-- First and last line of a descriptor's range. -/
def dFirst (d : Line) : Nat := dW d 1 / 64
/-- See dFirst. -/
def dLast (d : Line) : Nat := (dW d 1 + dW d 3 - 1) / 64

/-- A line lies in a descriptor's range. -/
def dCovers (d : Line) (l : Nat) : Bool := decide (dFirst d ≤ l) && decide (l ≤ dLast d)

/-- Resident lines of a range: slice, way and line. -/
def State.residents (s : State) (d : Line) : List (Nat × Nat × Nat) :=
  (s.near.nc.filterMap fun e =>
    let line := ncLine (e.1 / 16 % 32768) e.2.tag
    if e.2.v && dCovers d line then some (e.1 / 524288, e.1 % 16, line) else none)

/-- Drop a line's way. -/
def State.dropWay (s : State) (n w line : Nat) : State := s.setWay n (ncSet line) w {}

/-- A maintenance operation waits for a line (R131, R167): a fill of it is being placed, or its ownership is moving. -/
def State.lineBusy (s : State) (line : Nat) : Bool :=
  (match s.txn line with
    | some t => (match t.phase with | .fill _ => true | _ => false)
    | none => false)
    || (s.coh.handoff.get none line).isSome

/-- The poison of a line lies in its lower tier, or in a write-buffer entry that will reach it. -/
def State.poisonBelow (s : State) (line : Nat) : Bool :=
  (s.placeLine (s.page (pageOf line)).place (line % 64)).poison || (s.near.wb.any fun e => e.line = line && e.poison)

/-- A line whose poison DISCARD dropped leaves the poison index, unless its lower tier still holds it (R128, R486). -/
def State.unpoison (s : State) (line : Nat) : State := if s.poisonBelow line then s else s.unindexPoison line 1

/-- CLEAN of one line: a line with D set is written back and stays (R125). The Bool: the line is done. -/
def State.cleanLine (s : State) (n w line : Nat) : Bool × State :=
  let x := s.way n (ncSet line) w
  if s.lineBusy line then (false, s)
  else if ! x.d then (true, s)
  else match s.writeBack line x.cell with
    | some t => (true, t.setWay n (ncSet line) w { x with d := false })
    | none => (false, s)

/-- INVAL of one line: written back, then invalidated unless it is locked. -/
def State.invalLine (s : State) (n w line : Nat) : Bool × State :=
  let a := s.cleanLine n w line
  if a.1 && ! (s.way n (ncSet line) w).lock then (true, a.2.dropWay n w line) else a

/-- A line that DISCARD waited for holds data accepted meanwhile: its dirty data is not what it held when DISCARD reached it
(R131). -/
def State.lateDirty (s : State) (n w line : Nat) : Bool :=
  let x := s.way n (ncSet line) w
  x.d && s.near.maint.any fun m => m.op = 0x22 && m.late.any fun e => e.1 = line && e.2 ≠ some x.cell

/-- DISCARD of one line (R125, R128, R131): its D data and POISON go; data accepted while DISCARD waited for the line is written
back instead. A locked line is refilled from its page's DRAM copy, the page promoted first where it is in T3. -/
def State.discardLine (s : State) (n w line : Nat) : Bool × State :=
  let x := s.way n (ncSet line) w
  if s.lineBusy line then (false, s)
  else if s.lateDirty n w line then s.invalLine n w line
  else if ! x.lock then (true, (s.dropWay n w line).unpoison line)
  else match (s.page (pageOf line)).place with
    | .t3 _ => (false, s.transitionStart (pageOf line) .toT1 .descriptor (s.lowestFree.getD 0))
    | pl =>
      let c := s.withBuffer line (s.placeLine pl (line % 64))
      (true, (s.setWay n (ncSet line) w { x with d := false, data := c.data, poison := c.poison }).unpoison line)

/-- A locked line goes back to a locked way of its home slice with its ownership (R125). DESIGN CHOICE (log): where no locked way
there can take it, it is invalidated. -/
def State.lockedHome (s : State) (o w line : Nat) : State :=
  let home := s.homeTile line
  let set := ncSet line
  let x := s.way o set w
  let s1 := s.setWay o set w {}
  match s1.victim home set true with
  | some v =>
    let y := s1.way home set v
    if y.v && (y.d || s1.ownerTile (ncLine set y.tag) ≠ home) then s1 else (s1.setWay home set v x).touch home set v
  | none => s1

/-- Return a line's ownership to its home tile with its snoop-filter entry (R125); no room there evicts a victim first. -/
def State.returnHome (s : State) (line : Nat) : Bool × State :=
  let o := s.ownerTile line
  let set := sfSet line
  if s.lineOpen line || (s.near.wb.any fun e => e.line = line) then (false, s)
  else
    let room := s.freeSf (s.homeTile line) set
    let sfw := s.findSf o line
    if sfw.isSome && room.isNone then
      match s.sfVictim (s.homeTile line) set with
      | some v => (false, s.startVictim (s.homeTile line) set v)
      | none => (false, s)
    else match s.findWay o line with
      | some w =>
        if ! (s.way o (ncSet line) w).lock || (s.way o (ncSet line) w).d then (false, s)
        else (true, ((s.lockedHome o w line).moveSf line o sfw room).ownedBy line none)
      | none => (true, (s.moveSf line o sfw room).ownedBy line none)

/-- Fold an operation over the resident lines of a range. -/
def State.overLines (s : State) (d : Line) (f : State → Nat → Nat → Nat → Bool × State) : Bool × State :=
  (s.residents d).foldl (fun (a : Bool × State) x =>
    let r := f a.2 x.1 x.2.1 x.2.2
    (a.1 && r.1, r.2)) (true, s)

/-- Return every lent line of a range. -/
def State.overLent (s : State) (d : Line) : Bool × State :=
  ((s.coh.lent.filter fun e => e.2.isSome && dCovers d e.1).map Prod.fst).foldl (fun (a : Bool × State) l =>
    let r := a.2.returnHome l
    (a.1 && r.1, r.2)) (true, s)

/-- Locked resident lines of a range. -/
def State.lockedLines (s : State) (d : Line) : List Nat :=
  ((s.residents d).filter fun x => (s.way x.1 (ncSet x.2.2) x.2.1).lock).map fun x => x.2.2

/-- Drop a range's write-buffer entries that are not draining (DISCARD). -/
def State.dropEntries (s : State) (d : Line) : State :=
  (s.near.wb.filter fun e => dCovers d e.line && ! e.draining).foldl (fun (s : State) e =>
    let s1 := s.dropEntry e.id
    if e.poison then s1.unpoison e.line else s1) s

/-- The dirty data of a line where it is held: in its owner's slice, or with the hand-off that carries it. -/
def State.dirtyCell (s : State) (line : Nat) : Option LineCell :=
  match s.carriedLine line, s.findWay (s.ownerTile line) line with
  | some c, _ => some c
  | none, some w =>
    let x := s.way (s.ownerTile line) (ncSet line) w
    if x.d then some x.cell else none
  | none, none => none

/-- The lines of a range that an operation has to wait for, as it reaches them. -/
def State.lateLines (s : State) (d : Line) : List (Nat × Option LineCell) :=
  (((s.coh.txns.map Prod.fst) ++ (s.coh.handoff.map Prod.fst)).filter fun l => dCovers d l && s.lineBusy l).map fun l =>
    (l, s.dirtyCell l)

/-- The first step of a maintenance descriptor: the range is blocked for INVAL and DISCARD (R130), the entries accepted so
far are noted. -/
def State.maintainStart (s : State) (r : Nat) (d : Line) : State :=
  let m : MaintOp := { ring := r, op := dOp d, lo := dFirst d, hi := dLast d, late := s.lateLines d }
  let s0 := if dOp d = 0x22 then s.dropEntries d else s
  let ids := (s0.near.wb.filter fun e => dCovers d e.line).map fun e => e.id
  let locked := if dOp d = 0x20 then [] else s0.lockedLines d
  let s1 := s0.modAct r fun a => { a with started := true, entries := ids, pages := locked }
  { s1 with near := { s1.near with maint := s1.near.maint ++ [m] } }

/-- Another operation whose range overlaps reached the owner tiles first (R133). -/
def State.maintBehind (s : State) (r : Nat) (d : Line) : Bool :=
  s.near.maint.any fun m => m.ring ≠ r && decide (m.lo ≤ dLast d) && decide (dFirst d ≤ m.hi)

/-- A maintenance operation of a ring is over. -/
def State.maintEnd (s : State) (r : Nat) : State :=
  { s with near := { s.near with maint := s.near.maint.filter fun m => m.ring ≠ r } }

/-- Run a maintenance descriptor as far as it goes: it reaches its lines once no earlier operation over them runs, and completes
when every line is treated, every noted entry has drained, no hand-off or fill it waits for is left and, for INVAL and DISCARD,
every line is owned by its home tile. Pool windows see no effect. -/
def State.maintain (s : State) (r : Nat) : State :=
  match (s.ring r).act with
  | none => s
  | some a =>
    let d := a.words
    if (s.rangeRegion (dW d 1, dW d 3, false)).pooled then s.endDescriptor r 0x00 id
    else if ! a.started && s.maintBehind r d then s
    else
      let s1 := if a.started then s else s.maintainStart r d
      let f := match dOp d with
        | 0x20 => State.cleanLine
        | 0x21 => State.invalLine
        | _ => State.discardLine
      let b := s1.overLines d f
      let h := if dOp d = 0x20 then (true, b.2) else b.2.overLent d
      let s2 := h.2
      let act := ((s2.ring r).act).getD a
      let waits := s2.near.wb.any fun e => act.entries.contains e.id
      let busy := ((s2.coh.txns.map Prod.fst) ++ (s2.coh.handoff.map Prod.fst)).any fun l => dCovers d l && s2.lineBusy l
      if ! b.1 || ! h.1 || waits || busy then s2
      else (s2.maintEnd r).endDescriptor r 0x00 fun a => { a with
        result := if dOp d = 0x20 then 0 else atBit a.pages.length 0 }

/-- CLEAN (R125). -/
def State.workClean (s : State) (ring : Nat) : State := s.when (s.runs ring 0x20 none) fun s => s.maintain ring

/-- See State.workClean. -/
def execClean (ring : Nat) (s : State) : Host.Outcome State Fault Refusal := run (fun s => s.workClean ring) s

/-- INVAL (R125, R127). -/
def State.workInval (s : State) (ring : Nat) : State := s.when (s.runs ring 0x21 none) fun s => s.maintain ring

/-- See State.workInval. -/
def execInval (ring : Nat) (s : State) : Host.Outcome State Fault Refusal := run (fun s => s.workInval ring) s

/-- DISCARD (R125 to R128). -/
def State.workDiscard (s : State) (ring : Nat) : State := s.when (s.runs ring 0x22 none) fun s => s.maintain ring

/-- See State.workDiscard. -/
def execDiscard (ring : Nat) (s : State) : Host.Outcome State Fault Refusal := run (fun s => s.workDiscard ring) s

end Sys2Proof.Machine
end

