-- ==== Sys2Proof/Machine/TierOps.lean ====
section
/-! DEFINITION. Tiering and swatch descriptors: PROMOTE, DEMOTE, PIN, UNPIN (R113, R241, R242) and SWATCH_TAKE, DROP and
EXPORT (R255 to R261). -/
namespace Sys2Proof.Machine

/-- Pages that a descriptor's range touches. -/
def dPages (d : Line) : List Nat :=
  (List.range (dLast d / 64 + 1 - dFirst d / 64)).map fun i => dFirst d / 64 + i

/-- A page is in T1 and at rest. -/
def State.inT1 (s : State) (pn : Nat) : Bool :=
  (s.page pn).moving.isNone && match (s.page pn).place with | .t1 _ => true | _ => false

/-- How one page of a descriptor stands after a step: still under way, done, or not possible. -/
inductive PageStep where
  | wait | done | missed
  deriving DecidableEq, Repr

/-- A read of the page's frame finds no room in its channel's queues. -/
def State.queuesFull (s : State) (pn : Nat) : Bool :=
  match (s.page pn).place.frame with
  | some f => ! ((s.chan (frameChan f)).readRoom 0 && (s.chan (frameChan f)).readRoom 1)
  | none => false

/-- Bring a page to T1 for PROMOTE or PIN. -/
def State.stepToT1 (s : State) (c : TransitionCause) (pn : Nat) : PageStep × State :=
  if s.inT1 pn then (.done, s)
  else if (s.page pn).moving.isSome || (s.unit (pn / 512)).dstate = .unloaded || s.map.rebuilding.contains (pn / 512)
      || s.queuesFull pn then
    (.wait, s)
  else
    let s1 := s.transitionStart pn .toT1 c (s.lowestFree.getD 0)
    if (s1.page pn).moving.isSome then (.wait, s1) else (.missed, s)

/-- The page waits for writes on their way to it. -/
def State.pageBusy (s : State) (pn : Nat) : Bool :=
  (s.page pn).cleaning || (s.page pn).moving.isSome || (s.map.marks.any fun m => m.pn = pn)
    || (s.near.wb.any fun e => pageOf e.line = pn)

/-- The first sectors that a page of k sectors may take: those of a frame in use, else of a free frame. -/
def State.sectorFor (s : State) (k : Nat) : Nat :=
  let used := (s.dram.frames.filter fun e => e.2 = .t2).flatMap fun e => (List.range 8).map fun i => 8 * e.1 + i
  (used.find? fun x => s.sectorsFree x k).getD (8 * s.lowestFree.getD 0)

/-- Move a page to T2 or T3 (R234). A dirty page is cleaned first, once: what that leaves dirty does not move; nor does a
pinned page, one whose encode did not fit, or one with writes on their way after its clean (R241, R605). -/
def State.stepDown (s : State) (ring : Nat) (tier : Transition) (pn : Nat) : PageStep × State :=
  let p := s.page pn
  let tried := match (s.ring ring).act with | some a => a.cleaned.contains pn | none => false
  let there := match p.place, tier with
    | .t1 _, _ => false
    | .t2 _ _, .toT3 => false
    | _, _ => p.moving.isNone
  if there then (.done, s)
  else if p.pin || (tier = .toT2 && p.nocomp && p.moving.isNone) then (.missed, s)
  else if p.cleaning || p.moving.isSome then (.wait, s)
  else if s.pageBusy pn || p.dirty then
    if tried then (.missed, s)
    else if ! p.dirty || s.vlt.stopped || s.pageBusy pn || s.onHot pn || ! s.primLive pn then (.wait, s)
    else (.wait, (s.beginClean pn).modAct ring fun a => { a with cleaned := a.cleaned ++ [pn] })
  else if (s.placeData p.place).hasPoison then (.missed, s)
  else if s.queuesFull pn then (.wait, s)
  else
    let sec := match p.place with | .t1 f => s.sectorFor (sectorsFor (s.frameData f).clen) | _ => 0
    let s1 := s.transitionStart pn tier .descriptor sec
    if (s1.page pn).moving.isSome then (.wait, s1) else (.missed, s)

/-- Take one step for each page that a descriptor still treats; what cannot be done is counted in missed. -/
def State.overPages (s : State) (r : Nat) (ps : List Nat) (f : State → Nat → PageStep × State) : State :=
  let x := ps.foldl (fun (a : List Nat × Nat × State) pn =>
    let y := f a.2.2 pn
    match y.1 with
    | .wait => (a.1 ++ [pn], a.2.1, y.2)
    | .done => (a.1, a.2.1, y.2)
    | .missed => (a.1, a.2.1 + 1, y.2)) ([], 0, s)
  x.2.2.modAct r fun a => { a with started := true, pages := x.1, missed := a.missed + x.2.1 }

/-- Run a page descriptor: it ends when no page is left. -/
def State.pageWork (s : State) (r : Nat) (f : Line → State → Nat → PageStep × State) : State :=
  match (s.ring r).act with
  | none => s
  | some a =>
    let s1 := s.overPages r (if a.started then a.pages else dPages a.words) (f a.words)
    match (s1.ring r).act with
    | some b => if b.pages.isEmpty then s1.endDescriptor r 0x00 fun a => { a with
        result := atBit (a.missed % 2 ^ 32) 0 ||| atBit (a.plines % 2 ^ 32) 32 } else s1
    | none => s1

/-- PROMOTE (R241, R242). -/
def State.workPromote (s : State) (ring : Nat) : State := s.when (s.runs ring 0x30 none) fun s => s.pageWork ring fun _ s pn => s.stepToT1 .descriptor pn

/-- See State.workPromote. -/
def execPromote (ring : Nat) (s : State) : Host.Outcome State Fault Refusal := run (fun s => s.workPromote ring) s

/-- DEMOTE_T2. -/
def State.workDemoteT2 (s : State) (ring : Nat) : State := s.when (s.runs ring 0x31 (some 2)) fun s => s.pageWork ring fun _ s pn => s.stepDown ring .toT2 pn

/-- See State.workDemoteT2. -/
def execDemoteT2 (ring : Nat) (s : State) : Host.Outcome State Fault Refusal := run (fun s => s.workDemoteT2 ring) s

/-- DEMOTE_T3. -/
def State.workDemoteT3 (s : State) (ring : Nat) : State := s.when (s.runs ring 0x31 (some 3)) fun s => s.pageWork ring fun _ s pn => s.stepDown ring .toT3 pn

/-- See State.workDemoteT3. -/
def execDemoteT3 (ring : Nat) (s : State) : Host.Outcome State Fault Refusal := run (fun s => s.workDemoteT3 ring) s

/-! ### TIER_TRANSITION_START (R233) -/

/-- A descriptor in progress that one of the opcodes names still treats the page. -/
def State.treats (s : State) (ops : List Nat) (pn : Nat) : Bool :=
  s.rng.rings.any fun e => match e.2.act with
    | some a => ops.contains (dOp a.words) && (if a.started then a.pages else dPages a.words).contains pn
    | none => false

/-- Who may start a transition as R233 names it; the placement policy is the steward's (R15). -/
def State.mayStart (s : State) (pn : Nat) (tier : Transition) (c : TransitionCause) : Bool :=
  match tier, c with
  | .toT1, .pin => s.treats [0x32] pn
  | .toT1, .descriptor => s.treats [0x30] pn
  | .toT1, .policy => s.glb.steward
  | .toT1, _ => true
  | _, .descriptor => s.treats [0x31] pn
  | .toT2, .policy => s.glb.steward && s.compressible pn
  | .toT3, .policy => s.glb.steward && s.map.evictMode && s.evictable pn
  | _, _ => false

/-- TIER_TRANSITION_START: see State.transitionStart. -/
def execTierTransitionStart (pn : Nat) (tier : Transition) (cause : TransitionCause) (place : Nat) (s : State) :
    Host.Outcome State Fault Refusal :=
  run (fun s => s.when (s.mayStart pn tier cause) fun s => s.transitionStart pn tier cause place) s

/-! ### PIN (R113, R241, R242) -/

/-- Lines of a page in a descriptor's range. -/
def dLines (d : Line) (pn : Nat) : List Nat := (pageLines pn).filter fun l => dCovers d l

/-- The way is a locked way of a slice that LK lines may hold (R112, R115). -/
def State.lockable (s : State) (tile w : Nat) : Bool :=
  (s.lockedWays tile).contains w && ! (s.near.lockCleaning.get 0 tile).getLsbD w

/-- Put a line into a candidate locked way of its owner's slice with LOCK set, its victim written back first where it is dirty
(R105) or on its way home where it is lent to the tile (R168). -/
def State.intoLocked (s : State) (rgn : Nat) (r : Region) (line : Nat) (x : NcWay) : PageStep × State :=
  let tile := s.ownerTile line
  let set := ncSet line
  match s.victim tile set true with
  | none => (.missed, s)
  | some w =>
    let v := s.way tile set w
    let vl := ncLine set v.tag
    if v.v && s.ownerTile vl ≠ s.homeTile vl then (.wait, s.setWay tile set w { v with evicting := true })
    else match (if v.v && v.d then s.writeBack vl v.cell else some s) with
      | none => (.wait, s)
      | some s1 => (.done, ((s1.setWay tile set w { x with lock := true, prot := false }).touch tile set w).absorb rgn r line tile w)

/-- Lock one line of an LK region (R113): a line resident in a locked way gets LOCK; one in an ordinary way moves to a candidate
locked way; any other is filled into one. DESIGN CHOICE (log): a line in the range of an INVAL or DISCARD in progress, for which
nothing is allocated (R130), is waited for. -/
def State.lockLine (s : State) (rgn : Nat) (r : Region) (line : Nat) : PageStep × State :=
  let tile := s.ownerTile line
  let set := ncSet line
  match s.findWay tile line with
  | some w =>
    let x := s.way tile set w
    if s.lockable tile w then (.done, s.setWay tile set w { x with lock := true })
    else
      let a := s.intoLocked rgn r line { x with evicting := false }
      match a.1 with
      | .done => (.done, a.2.setWay tile set w {})
      | _ => a
  | none =>
    if s.maintained line then (.wait, s)
    else
      let c := s.withBuffer line (s.placeLine (s.page (pageOf line)).place (line % 64))
      s.intoLocked rgn r line { v := true, tag := ncTag line, poison := c.poison, dur := r.durable, data := c.data }

/-- Lock the lines of a page; none while one of them has an open transaction. The Bool: every line was treated; with it
the number that found no way. -/
def State.lockLines (s : State) (rgn : Nat) (r : Region) (ls : List Nat) : Bool × Nat × State :=
  if ls.any fun l => s.lineOpen l then (false, 0, s)
  else ls.foldl (fun (a : Bool × Nat × State) l =>
    let y := a.2.2.lockLine rgn r l
    match y.1 with
    | .wait => (false, a.2.1, y.2)
    | .done => (a.1, a.2.1, y.2)
    | .missed => (a.1, a.2.1 + 1, y.2)) (true, 0, s)

/-- PIN of one page: to T1, within the limit, then its lines in an LK region. -/
def State.stepPin (s : State) (ring : Nat) (d : Line) (pn : Nat) : PageStep × State :=
  let a := s.stepToT1 .pin pn
  match a.1 with
  | .done =>
    let p := s.page pn
    if ! p.pin && decide (s.framesInService * s.pinPct < (s.pinned + 1) * 100) then (.missed, s)
    else
      let s1 := s.modPage pn fun p => { p with pin := true }
      let r := s.rangeRegion (dW d 1, dW d 3, false)
      if r.wpol ≠ 3 then (.done, s1)
      else
        let b := s1.lockLines (((s.regionOfPage pn).map Prod.fst).getD 0) r (dLines d pn)
        if b.1 then (.done, b.2.2.modAct ring fun a => { a with plines := a.plines + b.2.1 }) else (.wait, b.2.2)
  | _ => a

/-- PIN. -/
def State.workPin (s : State) (ring : Nat) : State := s.when (s.runs ring 0x32 none) fun s => s.pageWork ring fun d s pn => s.stepPin ring d pn

/-- See State.workPin. -/
def execPin (ring : Nat) (s : State) : Host.Outcome State Fault Refusal := run (fun s => s.workPin ring) s

/-- UNPIN (R113, R242): PIN clears on every page, LOCK on every line of an LK region. -/
def State.workUnpin (s : State) (ring : Nat) : State := s.when (s.runs ring 0x33 none) fun s =>
    match (s.ring ring).act with
    | none => s
    | some a =>
      let d := a.words
      let mine := fun (pn : Nat) => decide (dFirst d / 64 ≤ pn) && decide (pn ≤ dLast d / 64)
      let pages := s.map.pages.mapVals {} fun pn p => if mine pn then { p with pin := false } else p
      let lk := (s.rangeRegion (dW d 1, dW d 3, false)).wpol = 3
      let nc := if lk then s.near.nc.mapVals {} fun k x =>
          if x.v && dCovers d (ncLine (k / 16 % 32768) x.tag) then { x with lock := false } else x
        else s.near.nc
      ({ s with map := { s.map with pages := pages }, near := { s.near with nc := nc } } : State).endDescriptor ring 0x00 id

/-- See State.workUnpin. -/
def execUnpin (ring : Nat) (s : State) : Host.Outcome State Fault Refusal := run (fun s => s.workUnpin ring) s

/-! ### Swatches (R255 to R261) -/

/-- Change a swatch slot. -/
def State.modSwatch (s : State) (k : Nat) (f : Swatch → Swatch) : State :=
  { s with map := { s.map with swatches := s.map.swatches.set {} k (f (s.map.swatches.get {} k)) } }

/-- SWATCH_TAKE (R255, R256 steps 1 and 2): the limits, then HOLD goes out to the tiles in service. -/
def State.swatchTake (s : State) (ring n : Nat) : State :=
  let mine := s.map.swatches.filter fun e => e.2.st ≠ .free && e.2.region = n
  let slot := (List.range 256).find? fun k => (s.map.swatches.get {} k).st = .free
  let num := (List.range 16).find? fun i => ! mine.any fun e => e.2.num = i
  if (s.gen n).sweep then s.endDescriptor ring 0x0A id
  else match slot, num with
    | some k, some i =>
      if (s.gen n).hold then s
      else
        let w : Swatch := { st := .taking, region := n, num := i, ring := ring, waits := wayMask s.liveTiles }
        let s1 := (s.modAct ring fun a => { a with started := true }).modSwatch k fun _ => w
        { s1 with map := { s1.map with gens := s1.map.gens.set {} n { s1.gen n with hold := true } } }
    | _, _ => s.endDescriptor ring 0x09 id

/-- SWATCH_TAKE. It ends with SWATCH_HOLD_ANSWER. -/
def State.workSwatchTake (s : State) (ring : Nat) : State := s.when (s.runs ring 0x50 none) fun s =>
    match (s.ring ring).act with
    | some a => if a.started then s else s.swatchTake ring (dRegion a.words)
    | none => s

/-- See State.workSwatchTake. -/
def execSwatchTake (ring : Nat) (s : State) : Host.Outcome State Fault Refusal := run (fun s => s.workSwatchTake ring) s

/-- Drop a swatch (R261): its entries that the next older swatch lacks move there, the rest goes. -/
def State.dropOne (s : State) (k : Nat) : State :=
  let w := s.map.swatches.get {} k
  let older := ((s.swatchesOf w.region).filter fun e => decide (e.2.order < w.order) && e.2.st ≠ .dropping).getLast?
  match older with
  | none => s.dropSwatch k
  | some (j, _) =>
    (w.saved.foldl (fun (s : State) e =>
      match e.2 with
      | some v =>
        if ((s.map.swatches.get {} j).saved.get none e.1).isSome then s
        else
          let s := (s.swatchFrame j (e.1 / 512)).getD s
          let s1 := (s.modSwatch j fun x => { x with saved := x.saved.set none e.1 (some v) }).delta
            (.swatch j e.1 v.persist)
          let s2 : State := match v.place with
            | .t1 f => s1.useFrame f (.t1 e.1 (some j))
            | .t2 sec _ =>
              let t2 := s1.dram.t2.mapVals none fun x t =>
                if x = sec then t.map (fun (t : T2Page) => { t with sw := some j }) else t
              { s1 with dram := { s1.dram with t2 := t2 } }
            | _ => s1
          (s2.modSwatch k fun x => { x with saved := x.saved.set none e.1 none }).delta (.swatch k e.1 ⟨.absent, 0⟩)
      | none => s) s).dropSwatch k

/-- SWATCH_DROP (R261): an export of the swatch that runs ends with ABORTED. -/
def State.workSwatchDrop (s : State) (ring : Nat) : State := s.when (s.runs ring 0x51 none) fun s =>
    match (s.ring ring).act with
    | some a =>
      let k := dW a.words 2
      let w := s.map.swatches.get {} k
      let s1 := if w.st = .exporting then s.endDescriptor w.ring 0x0B id else s
      ((s1.modSwatch k fun x => { x with st := .dropping }).dropOne k).endDescriptor ring 0x00 id
    | none => s

/-- See State.workSwatchDrop. -/
def execSwatchDrop (ring : Nat) (s : State) : Host.Outcome State Fault Refusal := run (fun s => s.workSwatchDrop ring) s

/-- Live pages that a swatch reads through: no saved entry of it or a newer one, content in DRAM without a current
record. -/
def State.exportPages (s : State) (w : Swatch) : List Nat :=
  let r := s.region w.region
  (s.map.pages.filter fun e =>
    decide (r.base * 512 ≤ e.1) && decide (e.1 < (r.base + r.size) * 512)
      && ! ((s.swatchesOf w.region).any fun x => decide (w.order ≤ x.2.order) && (x.2.saved.get none e.1).isSome)
      && (e.2.dirty || (match e.2.place with | .t1 _ | .t2 _ _ => ! e.2.beamv | _ => false))).map Prod.fst

/-- Saved entries of a swatch, and of newer ones it reads through, held only in DRAM: slot and page. -/
def State.exportCopies (s : State) (w : Swatch) : List (Nat × Nat) :=
  (s.swatchesOf w.region).flatMap fun x =>
    if x.2.order < w.order then []
    else x.2.saved.filterMap fun v => match v.2 with
      | some y => (match y.place with | .t1 _ | .t2 _ _ => some (x.1, v.1) | _ => none)
      | none => none

/-- A record with a purpose is on its way. -/
def State.recComing (s : State) (w : RecFor) : Bool :=
  s.beam.recs.any fun e => match e.2 with | some r => decide (r.purpose = w) | none => false

/-- Append the record of a swatch copy; a copy with a poison line becomes POISON (R484). -/
def State.exportCopy (s : State) (k pn : Nat) : State :=
  match (s.map.swatches.get {} k).saved.get none pn with
  | some v =>
    let d := s.placeData v.place
    if d.hasPoison then
      ((s.freeSaved v).moveSaved k pn .poison).delta (.swatch k pn ⟨.poison, 0⟩)
    else if s.recComing (.swatch k pn) then s
    else match s.append 0 (pageRec pn (s.unit (pn / 512)).bkey d (some k) (.swatch k pn)) with
      | some x => x.2
      | none => s
  | none => s

/-- One step of an export (R260): copies and dirty pages get their records, then the swatch's map is written. -/
def State.swatchExport (s : State) (ring k : Nat) : State :=
  let s1 := if (s.map.swatches.get {} k).st = .live then
      (s.modSwatch k fun w => { w with st := .exporting, ring := ring }).modAct ring fun a => { a with started := true }
    else s
  let w := s1.map.swatches.get {} k
  let cs := s1.exportCopies w
  let ps := s1.exportPages w
  if ! (cs.isEmpty && ps.isEmpty) then
    let s2 := cs.foldl (fun (s : State) x => s.exportCopy x.1 x.2) s1
    ps.foldl (fun (s : State) pn =>
      if (s.page pn).cleaning || (s.page pn).moving.isSome || (s.map.marks.any fun m => m.pn = pn) || s.vlt.stopped
          || s.onHot pn || ! s.primLive pn then s
      else s.beginClean pn) s2
  else match (s1.ring ring).act with
    | some a =>
      if ! a.reads then (s1.writeSwatchMap k (distinct (w.saved.map fun v => v.1 / 512))).modAct ring fun a => { a with reads := true }
      else if s1.unconfirmed fun x => decide (x = .map) then s1
      else (s1.modSwatch k fun w => { w with st := .exported }).endDescriptor ring 0x00 id
    | none => s1

/-- SWATCH_EXPORT (R260). A swatch that is EXPORTED already is written again. -/
def State.workSwatchExport (s : State) (ring : Nat) : State := s.when (s.runs ring 0x52 none) fun s =>
    match (s.ring ring).act with
    | some a =>
      let k := dW a.words 2
      let w := s.map.swatches.get {} k
      if w.st = .live || w.st = .exported || (w.st = .exporting && w.ring = ring) then s.swatchExport ring k
      else if w.st = .exporting then s
      else s.endDescriptor ring 0x0C id
    | none => s

/-- See State.workSwatchExport. -/
def execSwatchExport (ring : Nat) (s : State) : Host.Outcome State Fault Refusal := run (fun s => s.workSwatchExport ring) s

end Sys2Proof.Machine
end

