-- ==== Sys2Proof/Machine/SealOps.lean ====
section
/-! DEFINITION. SEAL descriptors (R314 to R322, R425) and QUIET's companion descriptors that need no engine step of their
own. -/
namespace Sys2Proof.Machine

/-- Region and lines of a SEAL's scope (R425). -/
def State.sealScope (s : State) (d : Line) : Nat × Nat × Nat :=
  if dWhole d then
    let r := s.region (dRegion d)
    (dRegion d, r.base * 32768, (r.base + r.size) * 32768 - 1)
  else (((s.regionOfUnit (dW d 1 / 2097152)).map Prod.fst).getD 0, dFirst d, dLast d)

/-- Start a SEAL: the sync leaves for the tiles in service (R315). -/
def State.startSeal (s : State) (ring level : Nat) (d : Line) : State :=
  let c := s.sealScope d
  let r := s.region c.1
  let x : Seal :=
    { ring := ring, level := level, region := c.1, lo := c.2.1, hi := c.2.2, tiles := wayMask s.liveTiles
      lost := r.dlost || (level = 3 && ! s.beamUp)
      noMirror := level = 2 && ! r.mirror
      mirrorLost := level = 2 && r.mirror && (s.slvRgn c.1).mst ≠ 3
      reqs := (s.queuedWrites.filter fun q => decide (c.2.1 ≤ q.line) && decide (q.line ≤ c.2.2)).map fun q => q.ident }
  ({ s.modAct ring fun a => { a with started := true } with
    rng := { (s.modAct ring fun a => { a with started := true }).rng with seals := s.rng.seals ++ [x] } } : State).checkSeals

/-- Run a SEAL descriptor of a level: it starts once and ends when its seal completes. -/
def State.sealRun (s : State) (ring level : Nat) : State :=
  s.when (s.runs ring 0x02 (some level)) fun s =>
    match (s.ring ring).act with
    | some a => if a.started then s.checkSeals else s.startSeal ring level a.words
    | none => s

/-- SEAL_L1 (R316). -/
def execSealL1 (ring : Nat) (s : State) : Host.Outcome State Fault Refusal := run (fun s => s.sealRun ring 1) s

/-- SEAL_L2 (R317). -/
def execSealL2 (ring : Nat) (s : State) : Host.Outcome State Fault Refusal := run (fun s => s.sealRun ring 2) s

/-- SEAL_L3 (R318). -/
def execSealL3 (ring : Nat) (s : State) : Host.Outcome State Fault Refusal := run (fun s => s.sealRun ring 3) s

/-- A line lies in a seal's scope. -/
def Seal.covers (x : Seal) (line : Nat) : Bool := decide (x.lo ≤ line) && decide (line ≤ x.hi)

/-- A page touches a seal's scope. -/
def Seal.coversPage (x : Seal) (pn : Nat) : Bool := decide (x.lo / 64 ≤ pn) && decide (pn ≤ x.hi / 64)

/-- A tile answers a seal's sync: the writes it has accepted in the scope and not yet protected, and the mirrored writes
of its lines that await acknowledgement. The last answer takes the dirty pages of a level-3 seal; those under a
clean that began earlier count only if they are clean after it. -/
def State.sealAnswer (s : State) (x : Seal) (tile : Nat) : Seal :=
  let es := (s.wbOf tile).filter fun e => e.durable && ! e.confirmed && x.covers e.line
  let ms := (s.slv.delay ++ s.slv.sent ++ s.slv.parked).filter fun m => m.tile = tile && x.covers m.line
  let y : Seal := { x with
    tiles := putBit x.tiles tile false
    entries := x.entries ++ es.map fun e => e.id
    mwrs := if x.level = 2 && ! x.noMirror then x.mwrs ++ ms.map fun m => m.id else x.mwrs }
  if y.tiles ≠ 0 || x.level ≠ 3 then y
  else
    let dirty := (s.map.pages.filter fun e => x.coversPage e.1 && e.2.dirty).map Prod.fst
    let marked := (s.map.marks.filter fun m => m.durable && x.coversPage m.pn).map fun m => m.pn
    let ps := distinct (dirty ++ marked)
    { y with
      pages := ps, count := ps.length, early := ps.filter fun pn => (s.page pn).cleaning
      cseq := if ps.isEmpty then some (s.beam.cseq + 1) else none }

/-- Entries that a seal waits for run at its level, P1, from then on (R386, R390). -/
def State.raiseEntries (s : State) (ids : List Nat) : State :=
  let up (e : WbEntry) : WbEntry := if ids.contains e.id then { e with prio := min e.prio 1 } else e
  { s with near := { s.near with wb := s.near.wb.map up } }

/-- SEAL_SYNC (R315): the sync of a ring's seal reaches a tile. -/
def execSealSync (ring tile : Nat) (s : State) : Host.Outcome State Fault Refusal :=
  run (fun s =>
    match s.rng.seals.find? fun x => x.ring = ring && x.tiles.getLsbD tile with
    | none => s
    | some x =>
      let y := s.sealAnswer x tile
      (({ s with rng := { s.rng with seals := s.rng.seals.map fun z => if z = x then y else z } } : State).raiseEntries
        y.entries).checkSeals) s

end Sys2Proof.Machine
end

