-- ==== Sys2Proof/Machine/QoS.lean ====
section
/-! DEFINITION. The service-time contract's state (chapter 11): capacities and rates in force (R378 to R380), token buckets
(R373) and the DevLoad window (R393, R394). -/
namespace Sys2Proof.Machine

/-- Raw bandwidth of a link in units of 0.1 GB/s (R61). -/
def rawBandwidth (width rate : Nat) : Nat := 40 * 2 ^ width * 2 ^ rate

/-- Sustained DRAM bandwidth in units of 0.1 GB/s of a configuration row. -/
def sustainedDram (row : Nat) : Nat := if row = 0 then 9000 else if row = 1 then 6550 else 5300

/-- G_DRAM in units of 0.1 GB/s (R378). -/
def State.capDram (s : State) : Nat :=
  match s.liveChannels with
  | [] => 0
  | c :: cs => sustainedDram (s.chan c).row * 60 * (cs.length + 1) / 1600

/-- G_BEAM in units of 0.1 GB/s (R378, R333). -/
def State.capBeam (s : State) : Nat := s.rsv.rBeam * s.u8 / (112 * s.uDen)

/-- The width factor of R86 applied to a rate. -/
def Link.scaled (l : Link) (x : Nat) : Nat :=
  match l.firstWidth with
  | some w => x * 2 ^ l.width / 2 ^ w
  | none => 0

/-- A READ or WRITE rate after steps 1 and 2 of R379; before its first training a head has no bandwidth. -/
def Link.rate2 (l : Link) (x : Nat) : Nat :=
  match l.firstWidth with
  | some w => l.scaled (min x (rawBandwidth w l.firstRate * 85 / 100))
  | none => 0

/-- The rates of a head after steps 1 and 2: READ, WRITE, BEAM. -/
def State.rates2 (s : State) (h : Nat) : Nat × Nat × Nat :=
  let b := s.qos.heads.get {} h
  let l := (s.head h).link
  (l.rate2 (fld b.reg 0 11), l.rate2 (fld b.reg 11 11), l.scaled (fld b.reg 22 10))

/-- A scale in per mille, at most 1,000. -/
def scaleOf (cap sum : Nat) : Nat := if sum ≤ cap then 1000 else cap * 1000 / sum

/-- Set one head's rates in force and cut its buckets to their bursts (R380). -/
def Budget.setRates (b : Budget) (r : Nat × Nat × Nat) (d bm : Nat) : Budget :=
  { b with
    rdRate := r.1 * d / 1000, wrRate := r.2.1 * d / 1000, bmRate := r.2.2 * bm / 1000
    rd := min b.rd b.rdCap, wr := min b.wr b.wrCap, bm := min b.bm b.bmCap }

/-- The recompute of R378 to R380. -/
def State.qosRecompute (s : State) : State :=
  let hs := s.presentHeads
  let rs := hs.map fun h => s.rates2 h
  let d := scaleOf s.capDram ((rs.map fun r => r.1 + 3 * r.2.1).sum)
  let b := scaleOf s.capBeam ((rs.map fun r => r.2.2).sum)
  let heads := hs.foldl (fun (t : Tbl Budget) h => t.set {} h ((s.budget h).setRates (s.rates2 h) d b)) s.qos.heads
  { s with qos := { s.qos with gDram := s.capDram, gBeam := s.capBeam, scaleD := d, scaleB := b, heads := heads } }

/-- QOS_RATE_RECOMPUTE (R378, R379). -/
def execQosRateRecompute (s : State) : Host.Outcome State Fault Refusal := run (fun s => s.qosRecompute) s

/-- TOKEN_BUCKET_REFILL (R373): fclk cycles after its buckets were last counted, they hold what has come in since; a clean that
waits for tokens finds them at its next CLEAN_START. -/
def execTokenBucketRefill (h fclk : Nat) (s : State) : Host.Outcome State Fault Refusal :=
  run (fun s => s.when (s.present h) fun s =>
    let s1 := s.elapse ((s.qos.heads.get {} h).filledAt + fclk)
    s1.setBudget h (s1.budget h)) s

/-- The budget component of R393: beWaitUs is the longest wait of a BEST_EFFORT request of the head at one resource. -/
def budgetLoad (l : Load) (b : Budget) (beWaitUs : Nat) : Nat :=
  if (l.demoted ≠ 0 && decide (l.reqs ≤ 4 * l.demoted)) || 50 ≤ beWaitUs then 3
  else if l.demoted ≠ 0 || 10 ≤ beWaitUs then 2
  else if 2 * b.rd < b.rdCap || 2 * b.wr < b.wrCap then 1 else 0

/-- DEVLOAD_WINDOW_END (R393, R394). -/
def execDevloadWindowEnd (h beWaitUs : Nat) (s : State) : Host.Outcome State Fault Refusal :=
  run (fun s => s.when (s.present h) fun s =>
    let s1 := s.elapse ((s.head h).load.since + max 1 (fld s.qos.ctl 8 8) * 2000)
    s1.modLoad h fun l => { l with
      budget := budgetLoad l (s1.budget h) beWaitUs
      since := s1.clock
      demotePct := if l.reqs = 0 then 0 else l.demoted * 100 / l.reqs
      reqs := 0, demoted := 0 }) s

end Sys2Proof.Machine
end

