-- ==== Sys2Proof/Machine/Sha.lean ====
section
/-! DEFINITION. The hash functions that the spec names and does not define: SHA-256, SHA-384 and HMAC, from their
public standards, FIPS 180-4 and FIPS 198-1 (PRESUMED; see the log), with the KDF of R498. -/
namespace Sys2Proof.Machine

/-- What tells the two hash functions apart: round constants, first hash value, and the rotations of the four sigma
functions (the third number of the small ones is a shift). -/
structure ShaKind (w : Nat) where
  k : List (BitVec w)
  start : List (BitVec w)
  big0 : Nat × Nat × Nat
  big1 : Nat × Nat × Nat
  small0 : Nat × Nat × Nat
  small1 : Nat × Nat × Nat

/-- A big sigma function. -/
def shaBig {w : Nat} (r : Nat × Nat × Nat) (x : BitVec w) : BitVec w :=
  x.rotateRight r.1 ^^^ x.rotateRight r.2.1 ^^^ x.rotateRight r.2.2

/-- A small sigma function. -/
def shaSmall {w : Nat} (r : Nat × Nat × Nat) (x : BitVec w) : BitVec w :=
  x.rotateRight r.1 ^^^ x.rotateRight r.2.1 ^^^ (x >>> r.2.2)

/-- The message schedule, latest word first: n more words. -/
def shaSchedule {w : Nat} (p : ShaKind w) : Nat → List (BitVec w) → List (BitVec w)
  | 0, l => l
  | n + 1, l =>
    shaSchedule p n ((shaSmall p.small1 (l.getD 1 0) + l.getD 6 0 + shaSmall p.small0 (l.getD 14 0) + l.getD 15 0) :: l)

/-- One round for each pair of a round constant and a schedule word. -/
def shaRounds {w : Nat} (p : ShaKind w) : List (BitVec w × BitVec w) → List (BitVec w) → List (BitVec w)
  | e :: es, [a, b, c, d, x, f, g, h] =>
    let t1 := h + shaBig p.big1 x + ((x &&& f) ^^^ (~~~x &&& g)) + e.1 + e.2
    let t2 := shaBig p.big0 a + ((a &&& b) ^^^ (a &&& c) ^^^ (b &&& c))
    shaRounds p es [t1 + t2, a, b, c, d + t1, x, f, g]
  | _, v => v

/-- The words of a block, first word first, into the hash value. -/
def shaBlock {w : Nat} (p : ShaKind w) (v block : List (BitVec w)) : List (BitVec w) :=
  let ws := (shaSchedule p (p.k.length - 16) block.reverse).reverse
  (v.zip (shaRounds p (p.k.zip ws) v)).map fun e => e.1 + e.2

/-- n blocks of 16 words into the hash value. -/
def shaBlocks {w : Nat} (p : ShaKind w) : Nat → List (BitVec w) → List (BitVec w) → List (BitVec w)
  | 0, v, _ => v
  | n + 1, v, l => shaBlocks p n (shaBlock p v (l.take 16)) (l.drop 16)

/-- Big-endian words of w bits of a byte string, n of them. -/
def shaWords (w : Nat) : Nat → List (BitVec 8) → List (BitVec w)
  | 0, _ => []
  | n + 1, l =>
    BitVec.ofNat w ((l.take (w / 8)).foldl (fun a b => a * 256 + b.toNat) 0) :: shaWords w n (l.drop (w / 8))

/-- The big-endian bytes of a number, n of them. -/
def bytesBig (n v : Nat) : List (BitVec 8) :=
  (List.range n).reverse.map fun i => BitVec.ofNat 8 (v / 256 ^ i)

/-- The little-endian bytes of a number, n of them. -/
def bytesLittle (n v : Nat) : List (BitVec 8) :=
  (List.range n).map fun i => BitVec.ofNat 8 (v / 256 ^ i)

/-- The hash of a byte string: a 1 bit, zeros and the length in bits fill the last block. -/
def shaOf {w : Nat} (p : ShaKind w) (m : List (BitVec 8)) : List (BitVec w) :=
  let size := 2 * w
  let blocks := (m.length + 1 + w / 4 + size - 1) / size
  let zeros := blocks * size - m.length - 1 - w / 4
  shaBlocks p blocks p.start
    (shaWords w (blocks * 16) (m ++ 0x80 :: List.replicate zeros 0 ++ bytesBig (w / 4) (m.length * 8)))

/-- The integer root of v of a degree, bit n - 1 first, above a part already found. -/
def rootBits (degree v : Nat) : Nat → Nat → Nat
  | 0, r => r
  | n + 1, r => rootBits degree v n (if (r + 2 ^ n) ^ degree ≤ v then r + 2 ^ n else r)

/-- The first w bits of the fractional part of a root of p, from which the standard takes its constants. -/
def rootFraction (w degree p : Nat) : BitVec w :=
  BitVec.ofNat w (rootBits degree (p * 2 ^ (degree * w)) (w + 5) 0)

/-- The first 80 prime numbers. -/
def firstPrimes : List Nat :=
  (List.range 410).filter fun n => decide (2 ≤ n) && (List.range n).all fun d => decide (d < 2) || n % d ≠ 0

/-- SHA-256: cube roots of the first 64 primes, square roots of the first 8. -/
def shaKind256 : ShaKind 32 where
  k := (firstPrimes.take 64).map (rootFraction 32 3)
  start := (firstPrimes.take 8).map (rootFraction 32 2)
  big0 := (2, 13, 22)
  big1 := (6, 11, 25)
  small0 := (7, 18, 3)
  small1 := (17, 19, 10)

/-- SHA-384: cube roots of the first 80 primes, square roots of the 9th to the 16th. -/
def shaKind384 : ShaKind 64 where
  k := firstPrimes.map (rootFraction 64 3)
  start := ((firstPrimes.drop 8).take 8).map (rootFraction 64 2)
  big0 := (28, 34, 39)
  big1 := (14, 18, 41)
  small0 := (1, 8, 7)
  small1 := (19, 61, 6)

/-- The 32 bytes of SHA-256 of a byte string. -/
def sha256 (m : List (BitVec 8)) : List (BitVec 8) := (shaOf shaKind256 m).flatMap fun x => bytesBig 4 x.toNat

/-- The 48 bytes of SHA-384 of a byte string. -/
def sha384 (m : List (BitVec 8)) : List (BitVec 8) := ((shaOf shaKind384 m).take 6).flatMap fun x => bytesBig 8 x.toNat

/-- HMAC of a byte string, with a hash whose block has a number of bytes, under a key of at most that many. -/
def hmacOf (hash : List (BitVec 8) → List (BitVec 8)) (block : Nat) (key m : List (BitVec 8)) : List (BitVec 8) :=
  let k := key ++ List.replicate (block - key.length) 0
  hash (k.map (fun x => x ^^^ 0x5C) ++ hash (k.map (fun x => x ^^^ 0x36) ++ m))

/-- The 64 bytes that the counter-mode KDF of R498 derives from a BKEK, for a label and a context: two iterations of HMAC-SHA-384,
cut to 512 bits. -/
def kdf (bkek : BitVec 256) (label context : List (BitVec 8)) : List (BitVec 8) :=
  let round (i : Nat) := hmacOf sha384 128 (bytesLittle 32 bkek.toNat)
    (bytesBig 4 i ++ label ++ 0x00 :: context ++ bytesBig 4 512)
  (round 1 ++ round 2).take 64

/-! ### CRC-32C (R279) -/

/-- One bit step of the reflected CRC-32C. -/
def crcBit (c : Nat) : Nat := if c % 2 = 1 then (c / 2) ^^^ 0x82F63B78 else c / 2

/-- One byte of the CRC. -/
def crcByte (c b : Nat) : Nat := crcBit (crcBit (crcBit (crcBit (crcBit (crcBit (crcBit (crcBit (c ^^^ b))))))))

/-- CRC-32C of bytes. -/
def crc32c (bs : List Nat) : Nat := bs.foldl crcByte 0xFFFFFFFF ^^^ 0xFFFFFFFF

/-- A little-endian register word of 8 bytes of a byte string, from byte 8 i on. -/
def wordOfBytes (l : List (BitVec 8)) (i : Nat) : Word :=
  BitVec.ofNat 64 (((l.drop (8 * i)).take 8).foldr (fun b a => a * 256 + b.toNat) 0)

/-- CHECK of R500: the first 8 bytes of HMAC-SHA-256 under a BKEK over the text HTHR-CHECK and SET_ID. A key's byte i is
its bits 8 i and up. -/
def keyCheck (bkek : BitVec 256) (setId : Word) : Word :=
  wordOfBytes (hmacOf sha256 64 (bytesLittle 32 bkek.toNat)
    ([0x48, 0x54, 0x48, 0x52, 0x2D, 0x43, 0x48, 0x45, 0x43, 0x4B] ++ bytesLittle 8 setId.toNat)) 0

/-- Word i of CUST_ID (R500): SHA-384 of the custodian public key, whose byte i is its bits 8 i and up. -/
def custIdWord (key : BitVec 768) (i : Nat) : Word := wordOfBytes (sha384 (bytesLittle 96 key.toNat)) i

/-- The tapestry key (R523): the KDF of R498 from the root key, with the label HTHR-TAP and an empty context. -/
def tapKey : List (BitVec 8) := kdf Config.rootKey [0x48, 0x54, 0x48, 0x52, 0x2D, 0x54, 0x41, 0x50] []

end Sys2Proof.Machine
end

