-- ==== Sys2Proof/Machine/Ports.lean ====
section
/-! DEFINITION. Host links (R61 to R66, R82 to R86), the resets of one head (R576), HDM decoders (R70, R71), the mailbox
(R73), DOE and SPDM (R75, R509) and IDE keys (R507). -/
namespace Sys2Proof.Machine

/-! ### Training -/

/-- MAX_RATE in force (3 acts as 2). -/
def Link.maxRate (l : Link) : Nat := min 2 (fld l.ctl 0 2)
/-- MIN_WIDTH. -/
def Link.minWidth (l : Link) : Nat := fld l.ctl 4 2

/-- Port k runs as two x4 links (R59). -/
def State.bifur (s : State) (k : Nat) : Bool := s.glb.straps.bifur.getLsbD k

/-- The Details value the device answers an offer with (R63). -/
def detailsAnswer (en : Bool) : BitVec 16 := if en then 0x001F else 0

/-- The host's Details set IO, MEM and RATE128 and report VERSION 1 (R64). -/
def detailsAgree (d : BitVec 16) : Bool :=
  d.getLsbD 0 && d.getLsbD 1 && d.getLsbD 2 && decide (d.extractLsb' 4 4 = 1)

/-- ALT_PROTOCOL_OFFER (R63, R64): the Agsudric protocol is answered, and is in force where both partners agree; the CXL
protocol (vendor 0x1E98, PRESUMED: CXL's own ID) is answered as CXL defines. -/
def execAltProtocolOffer (h vendor protocol : Nat) (details : BitVec 16) (s : State) :
    Host.Outcome State Fault Refusal :=
  run (fun s => s.when (s.present h) fun s =>
    let en := flag (s.head h).link.ctl 2
    if vendor = 0xA95D && protocol = 1 then
      (s.modLink h fun l => { l with extAgreed := en && detailsAgree details }).emit (.altProtocol h (detailsAnswer en))
    else if vendor = 0x1E98 then s.emit (.altProtocol h (Config.cxlDetails details)) else s) s

/-- CDAT's bandwidth follows the link (R75). -/
def State.cdatUpdate (s : State) (h : Nat) : State :=
  let l := (s.head h).link
  let f := (s.head h).func
  if f.cdatRate = l.rate && f.cdatWidth = l.width then s
  else (s.modFunc h fun f => { f with cdatRate := l.rate, cdatWidth := l.width, cdatChanged := true }).emit (.cdatChange h)

/-- The widest width of a head's lanes in a port mode. -/
def State.fullWidth (s : State) (h : Nat) : Nat := if s.bifur (h / 2) then 2 else 3

/-- Lanes of a head in its port. -/
def State.headLanes (s : State) (h : Nat) : List Nat :=
  if s.bifur (h / 2) then (List.range 4).map fun i => 4 * (h % 2) + i else List.range 8

/-- A lane of the head is retired, so that MIN_WIDTH bounds its width. -/
def State.laneLost (s : State) (h : Nat) : Bool := (s.headLanes h).any fun i => (s.ports.laneRet.get 0 (h / 2)).getLsbD i

/-- A link may reach L0 at a rate and width (R62, R64, R65, R86). -/
def State.mayTrain (s : State) (h rate width : Nat) : Bool :=
  let l := (s.head h).link
  s.present h && ! l.retired && decide (rate ≤ l.maxRate) && decide (width ≤ min l.widthLimit (s.fullWidth h))
    && (! s.laneLost h || decide (l.minWidth ≤ width))
    && (rate ≠ 2 || (l.extAgreed && ! l.no128 && l.up && l.flit256))

/-- The link's L0 values: the first training after a reset fixes the width and rate budgets refer to (R86, R379). -/
def Link.atL0 (l : Link) (active : Bool) (rate width : Nat) (flit256 ide cxl : Bool) : Link :=
  { l with
    cxl := cxl, up := true, recovery := false, rate := rate, width := width, flit256 := flit256, ext128 := rate = 2
    ideActive := ide, eqFails := if rate = 2 then 0 else l.eqFails
    memOff := l.dropped || ! active || ! cxl
    firstWidth := some (l.firstWidth.getD width), firstRate := if l.firstWidth.isNone then rate else l.firstRate }

/-- The link goes out of L0 into Recovery (R82); the cycle is kept for R83. -/
def State.enterRecovery (s : State) (h : Nat) : State :=
  s.modLink h fun l => if l.recovery then l else { l with recovery := true, outAt := s.clock }

/-- LINK_L0_REACHED (R62, R64): flits of 256 bytes above 32 GT/s; cxl says that the partner negotiated CXL. With the extension
in force the link is taken through Recovery to 128 GT/s; otherwise what waited for L0 goes on. -/
def execLinkL0Reached (h rate width : Nat) (flit256 ide cxl : Bool) (s : State) : Host.Outcome State Fault Refusal :=
  run (fun s => s.when (s.mayTrain h rate width && flit256 == decide (1 ≤ rate)) fun s =>
    let keyed := ((s.head h).func.ide.get {} 0).inUse.isSome
    let s1 := (s.modLink h fun l => l.atL0 s.vlt.active rate width flit256 (ide && keyed) cxl).modFunc h fun f =>
      { f with busMaster := cxl }
    let l := (s1.head h).link
    let s2 := (s1.cdatUpdate h).qosRecompute
    if l.extAgreed && ! l.no128 && rate < 2 && l.maxRate = 2 && flit256 && cxl then s2.enterRecovery h
    else s2.endRecovery h) s

/-- The function reports a link error (R67). -/
def State.linkError (s : State) (h : Nat) (es : List LinkError) : State :=
  s.modFunc h fun f => { f with errors := (f.errors ++ es).eraseDups }

/-- EQ128_FAIL (R65): after two failures in a row the link is back in L0 at 64 GT/s until the next head reset or RETRAIN. -/
def execEq128Fail (h : Nat) (s : State) : Host.Outcome State Fault Refusal :=
  run (fun s =>
    let l := (s.head h).link
    s.when (s.present h && l.up && l.recovery && l.extAgreed && ! l.no128) fun s =>
      let s := s.linkError h [.equalisation]
      if l.eqFails = 0 then s.modLink h fun l => { l with eqFails := 1 }
      else
        ((((s.modLink h fun l => { l with
          eqFails := 0, no128 := true, rate := 1, ext128 := false, recovery := false }).note ⟨1, 0x05, h, none⟩).cdatUpdate
            h).qosRecompute).endRecovery h) s

/-- A write of 1 to RETRAIN (R65): the link goes through Recovery; MAX_RATE 2 allows 128 GT/s again. -/
def State.retrain (s : State) (h : Nat) : State :=
  (if (s.head h).link.up then s.enterRecovery h else s).modLink h fun l => { l with
    no128 := l.no128 && l.maxRate ≠ 2, eqFails := if l.maxRate = 2 then 0 else l.eqFails }

/-- A source may write head h's block (R81). -/
def State.headWriter (s : State) (src h : Nat) : Bool := src = h || s.isMgmt src

/-- RETRAIN (R65, R81). -/
def execRetrain (src h : Nat) (s : State) : Host.Outcome State Fault Refusal :=
  run (fun s => s.when (s.reaches src && s.present h) fun s =>
    if s.headWriter src h then s.retrain h else s.access src 0xFFF 1 (regArgBar (0x4010 + 0x400 * h))) s

/-- LINK_RECOVERY_ENTER (R82). -/
def execLinkRecoveryEnter (h : Nat) (s : State) : Host.Outcome State Fault Refusal :=
  run (fun s => s.when (s.linkUp h) fun s => s.enterRecovery h) s

/-! ### Drops (R83 to R85) -/

/-- Change every request that waits anywhere in the device. -/
def State.mapReqs (s : State) (f : Req → Req) : State :=
  { s with
    near := { s.near with wbRetry := s.near.wbRetry.map fun e => (e.1, f e.2) }
    coh := { s.coh with
      sfWait := s.coh.sfWait.map fun e => (e.1, f e.2)
      retry := s.coh.retry.map fun e => (e.1, f e.2)
      recHeld := s.coh.recHeld.map f
      txns := s.coh.txns.mapVals none fun _ t => t.map fun (t : Txn) => { t with req := f t.req, queue := t.queue.map f }
      handoff := s.coh.handoff.mapVals none fun _ x =>
        x.map fun (x : HandOff) => { x with held := x.held.map f, pending := x.pending.map f } }
    heads := s.heads.mapVals {} fun _ x => { x with brake := { x.brake with gate := x.brake.gate.map f } }
    vlt := { s.vlt with held := s.vlt.held.map f }
    rng := { s.rng with qheld := s.rng.qheld.map f } }

/-- Answers to a dropped head's requests are discarded: its waiting requests are marked, and no entry completes to it. -/
def State.muteHead (s : State) (h : Nat) : State :=
  let s1 := s.mapReqs fun q => if q.headOf = some h then { q with mute := true } else q
  { s1 with near := { s1.near with wb := s1.near.wb.map fun e => { e with waiters := e.waiters.filter fun w => w.1 ≠ h } } }

/-- The head counts as absent from every entry that records it, until the entry's next lookup clears it (R84). -/
def State.clearPresence (s : State) (h : Nat) : State :=
  let leave := fun (e : SfEntry) => if e.pres.getLsbD h then { e with gone := putBit e.gone h true } else e
  { s with coh := { s.coh with sf := s.coh.sf.mapVals {} fun _ e => leave e } }

/-- Every BISnp to a head completes as BIRspI without writeback (R84). -/
def State.dropSnoops (s : State) (h : Nat) : State :=
  let mine := (s.coh.snoops.filter fun x => x.head = h).map fun x => x.line
  mine.foldl (fun (s : State) l => s.birspHandle h l .i)
    { s with coh := { s.coh with heldBirsp := s.coh.heldBirsp.filter fun e => e.1 ≠ h } }

/-- A head's link drops (R84, R85). What waited on it is discarded: requests not wholly received, writes that no credit let it
send, and responses. The extension needs a new offer (R63). -/
def State.dropLink (s : State) (h : Nat) : State :=
  let s1 := (s.modLink h fun l => { l with
    up := false, recovery := false, memOff := true, dropped := true, ideActive := false, ext128 := false
    extAgreed := false }).modHead h fun x => { x with inQ := [], outQ := [], waitQ := [], kept := 0 }
  let s1 : State := { s1 with pwr := { s1.pwr with
    low := putBit s1.pwr.low (32 + h) false, leaving := putBit s1.pwr.leaving (32 + h) false } }
  (((s1.muteHead h).clearPresence h).dropSnoops h).ringsDetach h

/-- LINK_OUT_OF_L0_TIMEOUT (R83): the link has been out of L0 for 10 ms. -/
def execLinkOutOfL0Timeout (h : Nat) (s : State) : Host.Outcome State Fault Refusal :=
  run (fun s => s.when (s.linkUp h && (s.head h).link.recovery) fun s =>
    ((s.elapse ((s.head h).link.outAt + 20000000)).dropLink h).linkError h [.surpriseDown]) s

/-- LINK_DROP (R84). -/
def execLinkDrop (h : Nat) (s : State) : Host.Outcome State Fault Refusal :=
  run (fun s => s.when (s.linkUp h) fun s => (s.dropLink h).linkError h [.surpriseDown]) s

/-- IDE_INTEGRITY_FAIL (R83, R507): a stream is in use on the link. -/
def execIdeIntegrityFail (h : Nat) (s : State) : Host.Outcome State Fault Refusal :=
  run (fun s => s.when (s.linkUp h && ((s.head h).func.ide.any fun e => e.2.inUse.isSome)) fun s =>
    (s.dropLink h).linkError h [.ideCheck, .cxlIde]) s

/-! ### Lanes (R86) -/

/-- The widest link that a head's surviving lanes form, from its lowest lane or, reversed, from its highest. -/
def lanesWidth (lanes : List Nat) (bad : BitVec 8) : Option Nat :=
  ([3, 2, 1, 0].filter fun w => decide (2 ^ w ≤ lanes.length)).find? fun w =>
    ((lanes.take (2 ^ w)).all fun i => ! bad.getLsbD i)
      || ((lanes.reverse.take (2 ^ w)).all fun i => ! bad.getLsbD i)

/-- A head is retired: its link is held down and its work handled as for a drop. -/
def State.retireHead (s : State) (h : Nat) : State :=
  (if (s.head h).link.up then s.dropLink h else s).modLink h fun l => { l with retired := true, memOff := true }

/-- The link of a head after a lane of its port was retired: it goes through Recovery to the widest width that its surviving
lanes form. -/
def State.narrowHead (s : State) (h : Nat) (bad : BitVec 8) : State :=
  match lanesWidth (s.headLanes h) bad with
  | none => (s.retireHead h).eventAll ⟨.memoryModule, 0x17, h⟩
  | some w =>
    if w < (s.head h).link.minWidth then (s.retireHead h).eventAll ⟨.memoryModule, 0x17, h⟩
    else
      let s1 := s.modLink h fun l => { l with widthLimit := w, width := min l.width w }
      let l := (s1.head h).link
      if l.up then (((s1.enterRecovery h).note ⟨1, 0x06, h + l.width * 16, none⟩).cdatUpdate h).qosRecompute else s1

/-- Retire a host lane. -/
def State.retireLane (s : State) (port lane : Nat) : State :=
  let bad := putBit (s.ports.laneRet.get 0 port) lane true
  let s1 : State := { s.retireTaken 6 (8 * port + lane) with ports := { s.ports with laneRet := s.ports.laneRet.set 0 port bad } }
  let h := if s.bifur port then 2 * port + lane / 4 else 2 * port
  (if s.present h then s1.narrowHead h bad else s1).eventAll ⟨.memoryModule, 0x06, 8 * port + lane⟩

/-- LANE_RETIRE (R86, R480). -/
def execLaneRetire (port lane : Nat) (s : State) : Host.Outcome State Fault Refusal :=
  run (fun s => s.when (decide (port < 8) && decide (lane < 8) && s.retireDue 6 (8 * port + lane)) fun s =>
    s.retireLane port lane) s

/-! ### Resets of one head (R576) -/

/-- The IDX pairs and the wide-value mailbox of a function. -/
def State.resetPairs (s : State) (h : Nat) : State :=
  { s with glb := { s.glb with
    idx := s.glb.idx.restrict fun k _ => k / 4 ≠ h, mbx := s.glb.mbx.set {} h {} } }

/-- The head's lanes and its port return to service at its reset, with their buckets at 0 (R479). -/
def State.lanesReturn (s : State) (h : Nat) : State :=
  let p := h / 2
  let ls := s.headLanes h
  let anew := fun (b : Bucket) => { b with count := 0, retired := false }
  let s1 : State := { s with ports := { s.ports with
    laneRet := s.ports.laneRet.set 0 p (ls.foldl (fun b i => putBit b i false) (s.ports.laneRet.get 0 p)) } }
  (ls.foldl (fun (s : State) i => s.modBucket 6 (8 * p + i) anew) s1).modBucket 7 p anew

/-- The head's PERST#: the link goes down to retrain, requests of the head held at admission stop are discarded. -/
def State.headReset (s : State) (h : Nat) : State :=
  let s1 := (s.ringsReset h).dropLink h
  let b := s1.qos.heads.get {} h
  let full : Budget := { b with rd := b.rdCap, wr := b.wrCap, bm := b.bmCap, filledAt := s1.clock }
  let s2 : State := { s1 with
    vlt := { s1.vlt with held := s1.vlt.held.filter fun q => q.headOf ≠ some h }
    qos := { s1.qos with heads := s1.qos.heads.set {} h full }
    pwr := { s1.pwr with quiet := s1.pwr.quiet.set 0 h 0 }
    sec := { s1.sec with spdm := s1.sec.spdm.set 0 h 0 }
    glb := { s1.glb with fences := s1.glb.fences.set 0 h 0 } }
  let s3 := ((s2.resetPairs h).lanesReturn h).modHead h fun x => { x with
    link := { memOff := ! s.vlt.active }
    func := {}
    load := { x.load with reqs := 0, demoted := 0 }
    brake := { x.brake with self := false } }
  (s3.openGate h).qosRecompute

/-- HEAD_PERST (R576, R85). -/
def execHeadPerst (h : Nat) (s : State) : Host.Outcome State Fault Refusal :=
  run (fun s => s.when (s.present h) fun s => s.headReset h) s

/-- CXL_RESET (R576, R85). -/
def execCxlReset (h : Nat) (s : State) : Host.Outcome State Fault Refusal :=
  run (fun s => s.when (s.linkUp h) fun s =>
    ((s.ringsReset h).modHead h fun x => { x with
      link := { x.link with memOff := ! s.vlt.active || ! x.link.cxl, dropped := false }
      func := { x.func with decoders := [] }
      brake := { x.brake with self := false } }).openGate h) s

/-- FUNCTION_LEVEL_RESET (R576). -/
def execFunctionLevelReset (h : Nat) (s : State) : Host.Outcome State Fault Refusal :=
  run (fun s => s.when (s.linkUp h) fun s =>
    ((s.ringsReset h).modFunc h fun f => { f with busMaster := false, msix := [] }).resetPairs h) s

/-! ### HDM decoders (R70, R71) -/

/-- Bytes of DPA a decoder covers. -/
def Decoder.dpaSize (d : Decoder) : Nat := d.hpaSize / d.ways

/-- The ends, in DPA and HPA space, of the committed decoder before decoder n (CXL commits in order). none: it is not
committed. -/
def State.decoderEnd (s : State) (h n : Nat) : Option (Nat × Nat) :=
  if n = 0 then some (0, 0)
  else
    let d := (s.head h).func.decoders.get {} (n - 1)
    if d.committed then some (d.dpaBase + d.dpaSize, d.hpaBase + d.hpaSize) else none

/-- Interleave ways and granularity the device supports. -/
def decoderShape (ways granularity : Nat) : Bool :=
  [1, 2, 4, 8, 16].contains ways && [256, 512, 1024, 2048, 4096, 8192, 16384].contains granularity

/-- HDM_DECODER_COMMIT (R70, R71): the DPA base follows the preceding decoder and DPA Skip; a range past the formatted
capacity, an unsupported shape, and a range that does not lie above the preceding decoder's set Error Not Committed. A decoder
committed with lock stays as it is; commit false ends a decoder's commitment. DESIGN CHOICE (log): a commit of a decoder that
is committed already has no effect. -/
def execHdmDecoderCommit (h decoder hpaBase hpaSize ways granularity dpaSkip : Nat) (dbType lock commit : Bool) (s : State) :
    Host.Outcome State Fault Refusal :=
  run (fun s =>
    let old := (s.head h).func.decoders.get {} decoder
    s.when (s.linkUp h && (s.head h).link.cxl && decide (decoder < 8) && ! old.locked && old.committed == ! commit) fun s =>
    if ! commit then s.modFunc h fun f => { f with decoders := f.decoders.set {} decoder { old with committed := false } }
    else
      let e := (s.decoderEnd h decoder).getD (0, 0)
      let d : Decoder :=
        { hpaBase := hpaBase, hpaSize := hpaSize, ways := ways, granularity := granularity, dpaSkip := dpaSkip
          dpaBase := e.1 + dpaSkip, db := dbType }
      let ok := (s.decoderEnd h decoder).isSome && decoderShape ways granularity && hpaSize ≠ 0
        && decide (e.2 ≤ hpaBase) && decide (d.dpaBase + d.dpaSize ≤ s.beam.pageCap * 4096)
      let d1 : Decoder := { d with committed := ok, notCommitted := ! ok, locked := ok && lock }
      s.modFunc h fun f => { f with decoders := f.decoders.set {} decoder d1 }) s

/-! ### The mailbox (R73) -/

/-- Run a mailbox command of head h, or of the management interface (16), which can run what a management head can (R80): f
gives the state and the answer, a return code (CXL's encoding: 0 Success, 1 Background Command Started, 2 Invalid Input,
3 Unsupported, 6 Busy, 14 Invalid Handle) with its payload. The steward runs the mailbox (R15): DESIGN CHOICE (log): a command that
comes while it is down has no effect. -/
def State.mailbox (s : State) (h : Nat) (f : State → State × Nat × List Word) : State :=
  s.when (s.reaches h && s.glb.steward) fun s => let r := f s; r.1.emit (.mailbox h r.2.1 r.2.2)

/-- A management-only command: on another head it returns Unsupported and posts an ACCESS notice. ARG1 names the opcode. -/
def State.mgmtMailbox (s : State) (h opcode : Nat) (f : State → State × Nat × List Word) : State :=
  s.mailbox h fun s => if s.isMgmt h then f s else (s.access h 0xFFF 5 opcode, 3, [])

/-- An event record as one word: kind, class, argument. -/
def EventRec.word (e : EventRec) : Word :=
  atBit (match e.kind with | .generalMedia => 0 | .memoryModule => 1 | .vendor => 2) 60 ||| atBit (e.cls % 256) 52
    ||| atBit (e.arg % 2 ^ 52) 0

/-- The records of one of a head's four logs. -/
def Func.log (f : Func) (log : Nat) : List LogEntry := f.events.filter fun e => e.log = log

/-- GET_EVENT_RECORDS: a log's overflow flag, and its records with their handles. -/
def execGetEventRecords (h log : Nat) (s : State) : Host.Outcome State Fault Refusal :=
  run (fun s => s.mailbox h fun s =>
    let f := (s.head h).func
    if 4 ≤ log then (s, 2, [])
    else (s, 0, atFlag (f.eventsOver && log = 2) 0 :: (f.log log).flatMap fun e => [atBit e.handle 0, e.body.word])) s

/-- CLEAR_EVENT_RECORDS: the records of the handles, or (none) all of a log; handles that are not those of its oldest records
return Invalid Handle and clear nothing. -/
def execClearEventRecords (h log : Nat) (handles : Option (List Nat)) (s : State) : Host.Outcome State Fault Refusal :=
  run (fun s => s.mailbox h fun s =>
    let mine := ((s.head h).func.log log).map LogEntry.handle
    let hs := handles.getD mine
    if 4 ≤ log then (s, 2, [])
    else if mine.take hs.length = hs then
      (s.modFunc h fun f => { f with
        events := f.events.filter fun e => ! (e.log = log && hs.contains e.handle)
        eventsOver := f.eventsOver && ! (log = 2 && hs.length = mine.length) }, 0, [])
    else (s, 14, [])) s

/-- GET_EVENT_INTERRUPT_POLICY: one setting per log, bit 16 set where it interrupts by the MSI-X vector of bits 10:0. -/
def execGetEventInterruptPolicy (h : Nat) (s : State) : Host.Outcome State Fault Refusal :=
  run (fun s => s.mailbox h fun s => (s, 0, (s.head h).func.policy.map fun v =>
    match v with | some n => atBit n 0 ||| atFlag true 16 | none => 0)) s

/-- SET_EVENT_INTERRUPT_POLICY: a setting for each log; MSI-X vectors lie below 2,048. -/
def execSetEventInterruptPolicy (h : Nat) (vectors : List (Option Nat)) (s : State) : Host.Outcome State Fault Refusal :=
  run (fun s => s.mailbox h fun s =>
    if vectors.length = 4 && vectors.all (fun v => v.all fun n => decide (n < 2048)) then
      (s.modFunc h fun f => { f with policy := vectors }, 0, [])
    else (s, 2, [])) s

/-- The timestamp now: nanoseconds run on from the value set; 0 while none was set. -/
def State.timestamp (s : State) : Word :=
  match s.ports.stampAt with
  | some t => s.ports.stamp + BitVec.ofNat 64 ((s.clock - t) / 2)
  | none => 0

/-- GET_TIMESTAMP. -/
def execGetTimestamp (h : Nat) (s : State) : Host.Outcome State Fault Refusal :=
  run (fun s => s.mailbox h fun s => (s, 0, [s.timestamp])) s

/-- SET_TIMESTAMP. -/
def execSetTimestamp (h : Nat) (value : Word) (s : State) : Host.Outcome State Fault Refusal :=
  run (fun s => s.mgmtMailbox h 0x0301 fun s =>
    ({ s with ports := { s.ports with stamp := value, stampAt := some s.clock } }, 0, [])) s

/-- GET_SUPPORTED_LOGS: the Command Effects Log only. -/
def execGetSupportedLogs (h : Nat) (s : State) : Host.Outcome State Fault Refusal :=
  run (fun s => s.mailbox h fun s => (s, 0, [1])) s

/-- The opcodes of R73, in table order. -/
def mailboxOpcodes : List Nat :=
  [0x0100, 0x0101, 0x0102, 0x0103, 0x0300, 0x0301, 0x0400, 0x0401, 0x4000, 0x4300, 0x4301, 0x4302, 0x4400, 0x4401]

/-- The effects of a mailbox command (PRESUMED: the bits are CXL's: 2 data change, 3 policy change, 4 log change, 5 security
state change, 6 background). -/
def mailboxEffects (opcode : Nat) : Nat :=
  if opcode = 0x0101 then 0x10 else if opcode = 0x0103 || opcode = 0x0301 then 0x08
  else if opcode = 0x4301 || opcode = 0x4302 then 0x04
  else if opcode = 0x4400 || opcode = 0x4401 then 0x64 else 0

/-- GET_LOG: the Command Effects Log gives each opcode its effects. -/
def execGetLog (h : Nat) (s : State) : Host.Outcome State Fault Refusal :=
  run (fun s => s.mailbox h fun s => (s, 0, mailboxOpcodes.map fun o => atBit o 0 ||| atBit (mailboxEffects o) 16)) s

/-- IDENTIFY_MEMORY_DEVICE: total and persistent capacity in 256 MiB units, volatile capacity, alignment. -/
def execIdentifyMemoryDevice (h : Nat) (s : State) : Host.Outcome State Fault Refusal :=
  run (fun s => s.mailbox h fun s =>
    (s, 0, [atBit (s.beam.pageCap / 65536) 0, atBit (s.beam.pageCap / 65536) 0, 0, 0])) s

/-- The head has rights other than NONE to a line. -/
def State.seesLine (s : State) (h line : Nat) : Bool :=
  match s.regionOf line with | some (_, r) => r.acc2 h ≠ 0 | none => false

/-- GET_POISON_LIST (R486): ranges of the poison index that meet the asked range of lines and where the head has rights;
the first word gives the overflow indication and its time. -/
def execGetPoisonList (h start length : Nat) (s : State) : Host.Outcome State Fault Refusal :=
  run (fun s => s.mailbox h fun s =>
    let es := s.near.poisonIdx.filter fun e =>
      decide (e.1 < start + length) && decide (start < e.1 + e.2) && s.seesLine h e.1
    let ov := match s.near.poisonOverflow with | some t => atFlag true 63 ||| atBit (t % 2 ^ 63) 0 | none => 0
    (s, 0, ov :: es.map fun e => atBit (e.1 * 64) 0 ||| atBit e.2 48)) s

/-- A line of an ACTIVE region at a DPA. DESIGN CHOICE (log): Inject Poison and Clear Poison elsewhere answer Invalid Input. -/
def State.lineAt (s : State) (dpa : Nat) : Option Nat := (s.regionOf (dpa / 64)).map fun _ => dpa / 64

/-- INJECT_POISON: the line is marked as poison by a write of no byte that carries poison. -/
def execInjectPoison (h dpa : Nat) (s : State) : Host.Outcome State Fault Refusal :=
  run (fun s => s.mgmtMailbox h 0x4301 fun s =>
    match s.lineAt dpa with
    | some l => (s.route { src := .nobody, kind := .devWr, line := l, poison := true }, 0, [])
    | none => (s, 2, [])) s

/-- CLEAR_POISON: the 64 bytes become the line's value and the mark clears. -/
def execClearPoison (h dpa : Nat) (data : Line) (s : State) : Host.Outcome State Fault Refusal :=
  run (fun s => s.mgmtMailbox h 0x4302 fun s =>
    match s.lineAt dpa with
    | some l => (s.route { src := .nobody, kind := .devWr, line := l, data := data, mask := fullMask }, 0, [])
    | none => (s, 2, [])) s

/-- UNSUPPORTED_MAILBOX_OPCODE: an opcode that R73 does not list, or a management-only one on another head. -/
def execUnsupportedMailboxOpcode (h opcode : Nat) (s : State) : Host.Outcome State Fault Refusal :=
  run (fun s =>
    if ! mailboxOpcodes.contains opcode then s.mailbox h fun s => (s, 3, [])
    else if [0x0301, 0x4301, 0x4302, 0x4400, 0x4401].contains opcode && ! s.isMgmt h then
      s.mailbox h fun s => (s.access h 0xFFF 5 opcode, 3, [])
    else s) s

/-! ### DOE, CDAT, SPDM and IDE keys -/

/-- DOE_DISCOVERY (R75): discovery, CDAT, SPDM and secured SPDM. -/
def execDoeDiscovery (h : Nat) (s : State) : Host.Outcome State Fault Refusal :=
  run (fun s => s.when (s.linkUp h) fun s => s.emit (.doe h [0, 2, 1, 2])) s

/-- CDAT_READ (R75): DSMAS over the formatted capacity, non-volatile; DSLBIS latencies in ns and bandwidth in units of
0.1 GB/s. -/
def execCdatRead (h : Nat) (s : State) : Host.Outcome State Fault Refusal :=
  run (fun s => s.when (s.linkUp h) fun s =>
    let l := (s.head h).link
    let bw := atBit (rawBandwidth l.width l.rate) 0
    (s.modFunc h fun f => { f with cdatChanged := false }).emit
      (.doe h [atBit (s.beam.pageCap * 4096) 0, 1, 190, 140, bw, bw])) s

/-- GLB_ID and GLB_REV. -/
def glbId : Word := 0x0000_9064_A95D_0000
/-- See glbId. -/
def glbRev : Word := 0x0000_0000_0100_4101

/-- Words of the board record (R570) without its CRC. -/
def boardBody (b : Board) (i : Nat) : Word :=
  match i with
  | 0 => atBit 0x48424252 0 ||| atBit 1 32
  | 1 => atBit (b.gen % 2 ^ 64) 0
  | 2 => b.bank
  | 3 => b.flush
  | 4 => b.sense
  | 5 => b.floor
  | 6 => atBit (b.capUnits % 2 ^ 32) 0
  | _ => 0

/-- The first n bytes of the words of a record. -/
def recordBytes (f : Nat → Word) (n : Nat) : List Nat := (List.range n).map fun i => fld (f (i / 8)) (8 * (i % 8)) 8

/-- The 4,096 bytes of the board record: its CRC-32C over bytes 0 to 4,091 comes last. -/
def boardBytes (b : Board) : List (BitVec 8) :=
  (recordBytes (boardBody b) 4092).map (BitVec.ofNat 8) ++ bytesLittle 4 (crc32c (recordBytes (boardBody b) 4092))

/-- A 48-byte digest as words. -/
def digestWords (d : List (BitVec 8)) : List Word := (List.range 6).map fun i => wordOfBytes d i

/-- The measurement blocks of R509: the digest of the running image, SHA-384 of the board record, and in block 6 CUST_ID when ESC_V
is 1. -/
def State.measurements (s : State) : List Word :=
  let digest (k : Nat) := (List.range 6).map fun i => Config.measure k i
  let image := match s.glb.image with | some x => digestWords (bytesLittle 48 x.digest.toNat) | none => digest 2
  let board := match s.boot.board with | some b => digestWords (sha384 (boardBytes b)) | none => digest 5
  digest 1 ++ image ++ [glbId, glbRev] ++ digest 4 ++ board ++ [s.beam.setId] ++
    (if s.sec.wrap.escV then match s.sec.wrap.custodian with
      | some key => (List.range 6).map fun i => custIdWord key i
      | none => [] else [])

/-- The answer to an SPDM request code (PRESUMED: the codes are SPDM's): VERSION names 1.3; measurements; or the matching
response with a body that R509 leaves to SPDM; or ERROR UnsupportedRequest. -/
def State.spdmAnswer (s : State) (code : Nat) : List Word :=
  if code = 0xE0 then 0x60 :: s.measurements
  else if code = 0x84 then [0x04, 0x13]
  else if [0x81, 0x82, 0x83, 0xE1, 0xE3, 0xE4, 0xE5, 0xE8, 0xE9, 0xEC].contains code then
    BitVec.ofNat 64 (code - 0x80) :: (List.range 6).map fun i => Config.spdmWord code i
  else [0x7F, 0x07]

/-- The session of a source after a request (R509): KEY_EXCHANGE opens a handshake, FINISH establishes the session, with mutual
authentication or without, and END_SESSION or GET_VERSION ends it. -/
def spdmNext (was code : Nat) (mutual_ : Bool) : Nat :=
  if code = 0xE4 then 1
  else if code = 0xE5 && was = 1 then (if mutual_ then 3 else 2)
  else if code = 0xEC || code = 0x84 then 0 else was

/-- The source has a secured session. -/
def State.secured (s : State) (src : Nat) : Bool := decide (2 ≤ s.sec.spdm.get 0 src)

/-- The source can be heard on its DOE mailbox, in configuration space, or on the management interface. -/
def State.doeUp (s : State) (src : Nat) : Bool := src = 16 || s.linkUp src

/-- SPDM_REQUEST (R509): on every head's DOE mailbox and the management interface. Custody commands have rows of their own;
one that comes outside a mutually authenticated session, or elsewhere, is answered with UnsupportedRequest (R502). -/
def execSpdmRequest (src code : Nat) (authenticated : Bool) (s : State) : Host.Outcome State Fault Refusal :=
  run (fun s => s.when (s.doeUp src && ! (code = 0xFE && s.sec.spdm.get 0 src = 3 && s.isMgmt src)) fun s =>
    ({ s with sec := { s.sec with spdm := s.sec.spdm.set 0 src (spdmNext (s.sec.spdm.get 0 src) code authenticated) } }
      : State).emit (.doe src (s.spdmAnswer code))) s

/-- IDE_KEY_PROG (R75, R507): in a secured session; stream 0 protects CXL.mem, stream 1 CXL.io. -/
def execIdeKeyProg (h stream keySet : Nat) (key : BitVec 256) (s : State) : Host.Outcome State Fault Refusal :=
  run (fun s => s.when (s.linkUp h && s.secured h && decide (stream < 2) && decide (keySet < 2)) fun s =>
    (s.modFunc h fun f =>
      let x := f.ide.get {} stream
      let y : IdeStream := if keySet = 0 then { x with key0 := some key } else { x with key1 := some key }
      { f with ide := f.ide.set {} stream y }).emit (.doe h [1])) s

/-- IDE_K_SET_GO (R75, R507): in a secured session the key set comes into use, without a link drop; contain is the stream's
mode, which its control register gives. -/
def execIdeKSetGo (h stream keySet : Nat) (contain : Bool) (s : State) : Host.Outcome State Fault Refusal :=
  run (fun s =>
    let x := (s.head h).func.ide.get {} stream
    let key := if keySet = 0 then x.key0 else if keySet = 1 then x.key1 else none
    let y : IdeStream := { x with inUse := some keySet, contain := contain }
    s.when (s.linkUp h && s.secured h && decide (stream < 2) && key.isSome) fun s =>
      ((s.modFunc h fun f => { f with ide := f.ide.set {} stream y }).modLink h fun l =>
        { l with ideActive := l.ideActive || stream = 0 }).emit (.doe h [1])) s

end Sys2Proof.Machine
end

