-- ==== Sys2Proof/Machine/Counters.lean ====
section
/-! DEFINITION. Performance counters and dump images (R511 to R521, R534). -/
namespace Sys2Proof.Machine

/-! ### Registers -/

/-- PMC_DUMP_CTL.EN. -/
def Pmc.en (p : Pmc) : Bool := flag p.dctl 0
/-- LOC = HOST. -/
def Pmc.host (p : Pmc) : Bool := flag p.dctl 1
/-- HEAD, whose rights and link the ring uses. -/
def Pmc.head (p : Pmc) : Nat := fld p.dctl 2 4
/-- Images in the ring: 2^LOG, LOG from 1 to 12. -/
def Pmc.size (p : Pmc) : Nat := 2 ^ min 12 (max 1 (fld p.dctl 6 4))
/-- IRQ. -/
def Pmc.irq (p : Pmc) : Bool := flag p.dctl 10
/-- VECTOR. -/
def Pmc.vector (p : Pmc) : Nat := fld p.dctl 11 11
/-- PERIOD_US, at most 4,000,000. -/
def Pmc.period (p : Pmc) : Nat := min 4000000 (fld p.dctl 22 22)
/-- The ring is full (R518). -/
def Pmc.full (p : Pmc) : Bool := (p.dtail + 1) % p.size = p.dhead
/-- Byte address of the entry at TAIL. -/
def Pmc.entry (p : Pmc) : Nat := p.dbase.toNat + 16384 * p.dtail

/-- A write to PMC_SET (R514): the counter named, or every counter, takes VALUE, and its overflow bit clears. -/
def Pmc.setCounter (p : Pmc) (v : Word) : Pmc :=
  let val := fld v 0 48
  let n := fld v 48 11
  if flag v 63 then
    { p with
      cnt := (List.range 1536).foldl (fun (t : Tbl Nat) i => t.set 0 i val) []
      ovf := []
      touched := (List.range 1536).map fun i => (i, true) }
  else if 1535 < n then p
  else { p with cnt := p.cnt.set 0 n val, ovf := p.ovf.set false n false, touched := p.touched.set false n true }

/-- PMC_SET (R514): a global register. -/
def execPmcSet (src : Nat) (value : Word) (s : State) : Host.Outcome State Fault Refusal :=
  run (fun s => s.globalWrite src (regArgBar 0xD018) fun s => { s with pmc := s.pmc.setCounter value }) s

/-! ### The dump ring -/

/-- The enable check of R534: the lowest-numbered code that applies. -/
def State.dumpCheck (s : State) : Nat :=
  let p := s.pmc
  let r := s.queueRegion p.dbase.toNat (16384 * p.size)
  if ! p.host && (match r with | some x => x.durable | none => true) then 1
  else if ! p.host && ! (r.getD {}).mayWrite p.head then 2
  else if ! s.present p.head || (p.host && ! (s.head p.head).func.busMaster) then 3
  else 0

/-- An image being written stops at once; DUMP_NOW descriptors that wait for it end with STATE (R428, R519). -/
def State.dumpStop (s : State) : State :=
  match s.pmc.img with
  | some g => g.rings.foldl (fun (s : State) r => s.endDescriptor r 0x0E id)
      { s with pmc := { s.pmc with img := none, run := false } }
  | none => { s with pmc := { s.pmc with run := false } }

/-- RW fields of PMC_DUMP_CTL, EN apart, and those locked while EN is 1. -/
def dumpBits : Word := 0xFFFFFFFFFFE
/-- See dumpBits. -/
def dumpLocked : Word := 0x3FE

/-- A write to PMC_DUMP_CTL (R534). -/
def State.dumpCtl (s : State) (v : Word) : State :=
  let p := s.pmc
  let live := p.en && (v &&& dumpLocked) ≠ (p.dctl &&& dumpLocked)
  let v1 := if p.en then (v &&& ~~~ dumpLocked) ||| (p.dctl &&& dumpLocked) else v
  let p1 : Pmc := { p with dctl := (v1 &&& dumpBits) ||| (p.dctl &&& 1), derr := if live then 4 else p.derr }
  let s1 : State := { s with pmc := p1 }
  match p.en, flag v 0 with
  | false, true =>
    let code := s1.dumpCheck
    if code ≠ 0 then { s1 with pmc := { p1 with derr := code } }
    else { s1 with pmc := { p1 with
      dctl := p1.dctl ||| 1, derr := 0, run := true, dtail := 0, prev := none, img := none, touched := []
      lastCap := s.clock } }
  | true, false => ({ s1 with pmc := { p1 with dctl := p1.dctl &&& ~~~ 1 } } : State).dumpStop
  | _, _ => s1

/-- PMC_DUMP_EN (R534): a write of PMC_DUMP_CTL. -/
def execPmcDumpEn (src : Nat) (value : Word) (s : State) : Host.Outcome State Fault Refusal :=
  run (fun s => s.globalWrite src (regArgBar 0xD000) fun s => s.dumpCtl value) s

/-- A write to PMC_DUMP_BASE: a change while EN is 1 is refused with LIVE. -/
def State.dumpBase (s : State) (v : Word) : State :=
  let w := v &&& 0xFFFFFFFFFFFFC000
  if s.pmc.en then (if w = s.pmc.dbase then s else { s with pmc := { s.pmc with derr := 4 } })
  else { s with pmc := { s.pmc with dbase := w } }

/-! ### Captures -/

/-- The capture of this cycle (R516): all counters with their overflow bits. -/
def State.capture (s : State) (periodic : Bool) (rings : List Nat) : State :=
  let p := s.pmc
  let g : DumpImg :=
    { at_ := s.clock, cnt := p.cnt, ovf := p.ovf, prev := p.prev, touched := p.touched, skipped := p.skipped
      opmin := s.boot.opmin, cycles := s.boot.cycles, periodic := periodic, rings := rings }
  { s with pmc := { p with img := some g, skipped := 0, prev := some (s.clock, p.cnt), touched := [] } }

/-- A periodic capture is skipped (R518): the ring is full, an image is still being written, the device is between admission stop and
resume, or HEAD's link is down. -/
def State.captureSkips (s : State) : Bool :=
  s.pmc.full || s.pmc.img.isSome || s.vlt.stopped
    || (s.pmc.host && ! (s.head s.pmc.head).link.up)

/-- PERIODIC_CAPTURE (R516 to R518). An image that a DUMP_NOW took in the same cycle serves both. -/
def execPeriodicCapture (s : State) : Host.Outcome State Fault Refusal :=
  run (fun s => s.when (s.pmc.en && s.pmc.period ≠ 0) fun s =>
    let s0 := s.elapse (s.pmc.lastCap + s.pmc.period * 2000)
    let s1 : State := { s0 with pmc := { s0.pmc with lastCap := s0.clock } }
    match s1.pmc.img with
    | some g =>
      if g.at_ = s1.clock then { s1 with pmc := { s1.pmc with img := some { g with periodic := true } } }
      else ({ s1 with pmc := { s1.pmc with skipped := s1.pmc.skipped + 1 } } : State).count 4 1
    | none =>
      if s1.captureSkips then ({ s1 with pmc := { s1.pmc with skipped := s1.pmc.skipped + 1 } } : State).count 4 1
      else s1.capture true []) s

/-- DUMP_NOW (R428, R517). While an earlier image is being written, its capture waits. -/
def State.workDumpNow (s : State) (ring : Nat) : State := s.when (s.runs ring 0x61 none) fun s =>
    match (s.ring ring).act with
    | some a =>
      if a.started then s
      else if ! s.pmc.en || s.pmc.full then s.endDescriptor ring 0x0E id
      else
        match s.pmc.img with
        | some g =>
          if g.at_ = s.clock then
            ({ s with pmc := { s.pmc with img := some { g with rings := g.rings ++ [ring] } } } : State).modAct ring
              fun a => { a with started := true }
          else s
        | none => (s.capture false [ring]).modAct ring fun a => { a with started := true }
    | none => s

/-- See State.workDumpNow. -/
def execDumpNow (ring : Nat) (s : State) : Host.Outcome State Fault Refusal := run (fun s => s.workDumpNow ring) s

/-! ### The image (R520, R521) -/

/-- The bytes a head's derived word shows, with INVALID. -/
def DumpImg.delta (g : DumpImg) (present : Bool) (ev : Nat) : Bool × Nat :=
  match g.prev with
  | some p =>
    (! present || g.touched.get false ev,
      if present then (g.cnt.get 0 ev + 2 ^ 48 - p.2.get 0 ev) % 2 ^ 48 else 0)
  | none => (true, if present then Config.firstWindow (g.at_ * 2048 + ev) % 2 ^ 48 else 0)

/-- A derived word. -/
def derived (x : Bool × Nat) : Word := atBit (x.2 % 2 ^ 48) 0 ||| atFlag x.1 63

/-- The derived word of a port: the sum of its two heads' deltas. -/
def derivedPort (x y : Bool × Nat) : Word := derived (x.1 || y.1, x.2 + y.2)

/-- The words of an image but for SEQ, which is word 0. -/
def State.imageWords (s : State) (g : DumpImg) : List Word :=
  let h := fun (h off : Nat) => g.delta (s.present h) (evHead h off)
  [ atBit (g.at_ % 2 ^ 64) 0,
    atBit (g.opmin % 2 ^ 32) 0 ||| atBit (g.cycles % 2 ^ 24) 32 ||| atFlag g.periodic 56 ||| atFlag (! g.rings.isEmpty) 57,
    atBit ((match g.prev with | some p => g.at_ - p.1 | none => 0) % 2 ^ 64) 0,
    atBit (g.skipped % 2 ^ 32) 0 ||| (glbRev <<< 32), 0, 0, 0 ]
  ++ (List.range 1536).map (fun n => atBit (g.cnt.get 0 n) 0)
  ++ (List.range 24).map (fun i => (List.range 64).foldl (fun (w : Word) j =>
      w ||| atFlag (g.ovf.get false (64 * i + j)) j) 0)
  ++ ((List.range 8).flatMap fun k => [derivedPort (h (2 * k) 0) (h (2 * k + 1) 0), derivedPort (h (2 * k) 1) (h (2 * k + 1) 1)])
  ++ ((List.range 16).flatMap fun k => [derived (h k 0), derived (h k 1)])
  ++ List.replicate 432 0

/-- SEQ of the image being written. -/
def Pmc.seqNow (p : Pmc) : Nat := p.images + 1

/-- Write the image's lines but for the SEQ word: DEV_WR lines of priority P6, or posted writes of the head's link. -/
def State.writeImage (s : State) (g : DumpImg) : State :=
  let ws := (0 : Word) :: s.imageWords g
  if s.pmc.host then s.emit (.hostWrite s.pmc.head (s.pmc.entry + 8) (ws.drop 1))
  else
    (List.range 256).foldl (fun (s : State) i =>
      s.route { src := .dump, kind := .devWr, line := s.pmc.entry / 64 + i, data := lineOfWords ((ws.drop (8 * i)).take 8)
                mask := if i = 0 then fullMask &&& ~~~ 0xFF else fullMask, be := true, low := 6 }) s

/-- Write the SEQ word. -/
def State.writeSeq (s : State) : State :=
  let w := atBit (s.pmc.seqNow % 2 ^ 64) 0
  if s.pmc.host then s.emit (.hostWrite s.pmc.head s.pmc.entry [w])
  else s.route { src := .dump, kind := .devWr, line := s.pmc.entry / 64, data := lineOfWords [w], mask := 0xFF, be := true, low := 6 }

/-- Some write of an image is not accepted yet. -/
def State.dumpBusy (s : State) : Bool := s.openReqs.any fun q => q.src = .dump

/-- The image is written: TAIL advances, MSI-X goes out, DUMP_NOW descriptors complete with SEQ. -/
def State.imageDone (s : State) (g : DumpImg) : State :=
  let p := s.pmc
  let s1 : State := { s with pmc := { p with img := none, images := p.images + 1, dtail := (p.dtail + 1) % p.size } }
  let s2 := if p.irq then s1.sendMsix p.head p.vector else s1
  g.rings.foldl (fun (s : State) r => s.endDescriptor r 0 fun a => { a with result := atBit (p.seqNow % 2 ^ 64) 0 }) s2

/-- DUMP_IMAGE_WRITTEN (R519): each part goes out once the part before it has been accepted. -/
def execDumpImageWritten (s : State) : Host.Outcome State Fault Refusal :=
  run (fun s =>
    match s.pmc.img with
    | none => s
    | some g =>
      let s1 := if g.lines then s
        else ({ s with pmc := { s.pmc with img := some { g with lines := true } } } : State).writeImage g
      if s1.dumpBusy then s1
      else
        let s2 := if g.seq then s1
          else ({ s1 with pmc := { s1.pmc with img := some { g with lines := true, seq := true } } } : State).writeSeq
        if s2.dumpBusy then s2 else s2.imageDone g) s

end Sys2Proof.Machine
end

