-- ==== Sys2Proof/Machine/Tapestry.lean ====
section
/-! DEFINITION. The tapestry recorder (R522 to R535): samples of the minute, flushes to the boot flash, displacement, and
the check at cold reset. -/
namespace Sys2Proof.Machine

/-! ### CRC and MAC (R523) -/

/-- Byte i of a line. -/
def lineByte (l : Line) (i : Nat) : Nat := (l.toNat >>> (8 * i)) % 256

/-- The CRC field a record's bytes 0 to 59 give. -/
def recCrc (l : Line) : Nat := crc32c ((List.range 60).map fun i => lineByte l i)

/-- The first 56 bytes of a record, which its MAC covers (R523). -/
def macBytes (l : Line) : List (BitVec 8) := (List.range 56).map fun i => BitVec.ofNat 8 (lineByte l i)

/-- The MAC field of a record: the first 4 bytes of HMAC-SHA-256 under the tapestry key. SHA-256 hashes a key longer than its block;
the key of R523 has the 64 bytes of a block. -/
def recMac (l : Line) : Nat := (wordOfBytes (hmacOf sha256 64 tapKey (macBytes l)) 0).toNat % 2 ^ 32

/-- Fields of a stored record. -/
def recRseq (l : Line) : Nat := fld (lineWord l 1) 40 24
/-- See recRseq. -/
def recDisp (l : Line) : Nat := fld (lineWord l 6) 0 24
/-- See recRseq. -/
def recPrev (l : Line) : Nat := fld (lineWord l 6) 32 32
/-- See recRseq. -/
def recMacField (l : Line) : Nat := fld (lineWord l 7) 0 32
/-- See recRseq. -/
def recCrcField (l : Line) : Nat := fld (lineWord l 7) 32 32

/-- CRC and MAC pass (R532). -/
def recGood (l : Line) : Bool := recCrc l = recCrcField l && recMac l = recMacField l

/-- The record of a draft with its RSEQ, DISP and PREVMAC. -/
def finishRec (d : Line) (rseq disp prev : Nat) : Line :=
  let body := lineOfWords [lineWord d 0, putFld (lineWord d 1) 40 24 rseq, lineWord d 2, lineWord d 3, lineWord d 4,
    lineWord d 5, atBit (disp % 2 ^ 24) 0 ||| atBit (prev % 2 ^ 32) 32]
  let l := body ||| ((atBit (recMac body) 0).setWidth 512 <<< 448)
  l ||| ((atBit (recCrc l) 32).setWidth 512 <<< 448)

/-! ### Appending (R529 to R531) -/

/-- Record slots of an area (R522). -/
def areaSlots (a : Nat) : Nat := if a = 0 then 720832 else 65408

/-- The lowest slot that holds nothing, counting from i. -/
def firstGap : Nat → Tbl Line → Nat
  | i, [] => i
  | i, (k, _) :: t => if k = i then firstGap (i + 1) t else i

/-- The next record's RSEQ and PREVMAC in an area. -/
def TapArea.next (a : TapArea) : Nat × Nat :=
  match a.chain with
  | some c => (c.1 + 1, c.2)
  | none => (a.base, a.seed)

/-- Store a draft in a slot; the chain head follows (R530). -/
def TapArea.store (a : TapArea) (slot disp : Nat) (d : Line) : TapArea :=
  let n := a.next
  let l := finishRec d n.1 disp n.2
  { a with slots := a.slots.set erasedSlot slot l, chain := some (n.1, recMac l) }

/-- The victim of R531 for a record of severity sev: the oldest record of the lowest SEV held, if that is below sev. -/
def TapArea.victim (a : TapArea) (sev : Nat) : Option (Nat × Line) :=
  let low := a.slots.foldl (fun m e => min m (tapSevOf e.2)) 3
  if low < sev then
    (a.slots.filter fun e => tapSevOf e.2 = low).foldl (fun (b : Option (Nat × Line)) e =>
      match b with
      | some x => if recRseq e.2 < recRseq x.2 then some e else some x
      | none => some e) none
  else none

/-- Append a draft to an area, displacing in the SEVERITY area where it is full; none: it is dropped. -/
def TapArea.append (a : TapArea) (area : Nat) (d : Line) : Option TapArea :=
  if a.slots.length < areaSlots area then some (a.store (firstGap 0 a.slots) 0 d)
  else if area = 0 then none
  else match a.victim (tapSevOf d) with
    | some v => some (a.store v.1 (recRseq v.2) d)
    | none => none

/-- Write one draft to the store or count its drop. -/
def State.tapWrite (s : State) (d : Line) : State :=
  if tapArea d = 0 then
    match s.boot.tapOrd.append 0 d with
    | some a => { s with boot := { s.boot with tapOrd := a } }
    | none => s.tapDrop 0
  else
    match s.boot.tapSev.append 1 d with
    | some a => { s with boot := { s.boot with tapSev := a } }
    | none => s.tapDrop 1

/-! ### Flushes (R528) -/

/-- The accumulator's records belong to the SEVERITY area (R525): hist says which record. -/
def accArea (key : Nat) (hist : Bool) : Nat :=
  let kind := key % 4096 / 256
  let metric := key / 4096
  if 9 ≤ kind && kind ≤ 11 then 1 else if ! hist && (metric = 1 || metric = 2) then 1 else 0

/-- SEV of an EXTREME record (R525). -/
def extremeSev (metric : Nat) (a : TapAcc) : Nat :=
  if metric = 3 then (if a.min < 11200 then 1 else 0)
  else match (tapEdges metric).getLast? with
    | some e => if e ≤ a.max then 1 else 0
    | none => 0

/-- Two 32-bit fields in one word. -/
def pair32 (lo hi : Nat) : Word := atBit (lo % 2 ^ 32) 0 ||| atBit (hi % 2 ^ 32) 32

/-- The HIST and EXTREME records of an accumulator (R524, R526). -/
def State.accRecords (s : State) (key : Nat) (a : TapAcc) : List Line :=
  let metric := key / 4096
  let unit := key % 4096
  let b := fun i => a.bins.getD i 0
  let hist := if (tapEdges metric).isEmpty then []
    else [s.tapDraft 1 0 (accArea key true) unit metric
      [pair32 (b 0) (b 1), pair32 (b 2) (b 3), pair32 (b 4) (b 5), pair32 (b 6) (b 7)]]
  let ext := if metric = 6 then []
    else [s.tapDraft 2 (extremeSev metric a) (accArea key false) unit metric
      [pair32 a.min a.max, pair32 a.minAt a.maxAt, pair32 (a.sum / a.n) a.n]]
  hist ++ ext

/-- A flush of the recorder starts: first is the FLUSH record of stage 4. Accumulators restart. -/
def State.tapFlush (s : State) (first : List Line) : State :=
  let recs := (s.tap.accs.filter fun e => e.2.n ≠ 0).flatMap fun e => s.accRecords e.1 e.2
  let sev := fun (l : Line) => tapArea l = 1
  let ord := fun (l : Line) => tapArea l = 0
  { s with tap := { s.tap with
    out := s.tap.out ++ first ++ s.tap.buf.filter (fun l => sev l) ++ recs.filter (fun l => sev l)
      ++ recs.filter (fun l => ord l) ++ s.tap.buf.filter fun l => ord l
    buf := [], accs := [], flushing := true } }

/-- FAULT_GAP has passed since the previous fault flush began. -/
def State.tapGapOver (s : State) : Bool :=
  match s.tap.lastFault with
  | some t => decide (t + fld s.tap.ctl 2 14 ≤ s.boot.opmin)
  | none => true

/-- TAPESTRY_FAULT_FLUSH (R528). -/
def execTapestryFaultFlush (s : State) : Host.Outcome State Fault Refusal :=
  run (fun s => s.when (s.glb.steward && s.tap.due && ! s.tap.flushing && s.tapGapOver) fun s =>
    ({ s with tap := { s.tap with due := false, lastFault := some s.boot.opmin } } : State).tapFlush []) s

/-- The flush that runs writes its records. -/
def State.tapFlushEnd (s : State) : State :=
  s.tap.out.foldl (fun (s : State) d => s.tapWrite d) { s with tap := { s.tap with out := [], flushing := false } }

/-- TAPESTRY_FLUSH_END (R528 to R531). -/
def execTapestryFlushEnd (s : State) : Host.Outcome State Fault Refusal :=
  run (fun s => s.when s.tap.flushing fun s => s.tapFlushEnd) s

/-! ### Samples (R524) -/

/-- The units of kinds 0 to 8 (R474), by 256 * kind + index. -/
def bucketUnits : List Nat := (List.range 9).flatMap fun k => (List.range (kindUnits k)).map fun u => 256 * k + u

/-- Every bucket's COUNT of now among the minute's extremes. -/
def State.bucketSamples (s : State) : State :=
  bucketUnits.foldl (fun (s : State) n => s.minuteMax (4096 * 8 + n) (s.flt.buckets.get {} n).count) s

/-- The samples of a minute (R524), whose extremes were gathered as they came. -/
def State.minuteSamples (s : State) : State :=
  let s0 := s.bucketSamples
  let s1 := s0.tap.minute.foldl (fun (s : State) e => s.tapSample e.1 (e.2 - 1)) s0
  match s1.tap.vinMin with
  | some v => s1.tapSample (4096 * 3 + 0x900) v
  | none => s1

/-- TAPESTRY_MINUTE_SAMPLE (R524): a minute of operation has passed; the steward's recorder takes its samples (R15). The next minute's
extremes start with the COUNTs of now. -/
def execTapestryMinuteSample (s : State) : Host.Outcome State Fault Refusal :=
  run (fun s =>
    let s := s.elapse (s.tap.minuteAt + 120000000000)
    let s4 := if s.glb.steward then s.minuteSamples else s
    let n := (s4.boot.opmin + 1) % 2 ^ 32
    ({ s4 with
      tap := { s4.tap with minute := [], vinMin := none, minuteAt := s4.clock }
      boot := if n % 60 = 0 then Boot.addLife { s4.boot with opmin := n } else { s4.boot with opmin := n } } : State).bucketSamples) s

/-! ### The check at cold reset (R532) -/

/-- The valid records of an area by RSEQ. -/
def TapArea.valid (a : TapArea) : Tbl Line :=
  (a.slots.filter fun e => recGood e.2).foldl (fun (t : Tbl Line) e => t.set erasedSlot (recRseq e.2) e.2) []

/-- RSEQs that are there: of valid records, and those a DISP names, without those whose MAC the next record does not
carry (DEDUCED; see the log). -/
def TapArea.held (a : TapArea) : List Nat :=
  let v := a.valid
  let bad := v.filterMap fun e =>
    let p := v.get erasedSlot (e.1 - 1)
    if e.1 ≠ 0 && p ≠ erasedSlot && recPrev e.2 ≠ recMacField p then some (e.1 - 1) else none
  let disp := (v.map fun e => recDisp e.2).filter fun d => d ≠ 0
  distinct (((v.map fun e => e.1).filter fun n => ! bad.contains n) ++ disp)

/-- Runs of missing numbers from lo to hi against an ascending list of the numbers there: first and count. -/
def missingRuns : Nat → Nat → List Nat → List (Nat × Nat)
  | lo, hi, [] => if lo ≤ hi then [(lo, hi + 1 - lo)] else []
  | lo, hi, n :: ns =>
    if n < lo then missingRuns lo hi ns
    else if hi < n then missingRuns lo hi []
    else if n = lo then missingRuns (lo + 1) hi ns
    else (lo, n - lo) :: missingRuns (n + 1) hi ns

/-- The chain head that counts: the stored one, or where it is missing the highest valid record. -/
def TapArea.chainNow (a : TapArea) (missing : Bool) : Option (Nat × Nat) :=
  if missing then a.valid.getLast?.map fun e => (e.1, recMacField e.2) else a.chain

/-- A new header (R532): its SEED, BASE_RSEQ, and the OPMIN and CYCLES of its creation. -/
def TapArea.newHeader (a : TapArea) (base seed opmin cycles : Nat) : TapArea :=
  { a with base := base, seed := seed % 2 ^ 32, opmin := opmin, cycles := cycles }

/-- Check an area: its missing runs, and the area with its chain head and, where the header was missing, a new header. seed
is the new header's SEED, opmin and cycles those of now. -/
def TapArea.check (a : TapArea) (noHeader noChain : Bool) (seed opmin cycles : Nat) : List (Nat × Nat) × TapArea :=
  let c := a.chainNow noChain
  let top := (c.map fun x => x.1).getD 0
  let base := if noHeader then 1 else a.base
  let a1 := if noHeader then a.newHeader (top + 1) seed opmin cycles else a
  (missingRuns base top a.held, { a1 with chain := c })

/-- The ERASE records of an area (R525, R526). -/
def State.eraseRecords (s : State) (area : Nat) (runs : List (Nat × Nat)) : State :=
  runs.foldl (fun (s : State) r =>
    s.tapPut (s.tapDraft 4 2 1 (Config.eventUnit 0x100 % 4096) 0
      [atBit (r.1 % 2 ^ 24) 0 ||| atBit area 24 ||| atBit (r.2 % 2 ^ 32) 32])) s

/-- Put what the flash was found to hold into an area. -/
def TapArea.tamper (a : TapArea) (area : Nat) (changed : List (Nat × Line)) : TapArea :=
  { a with slots := changed.foldl (fun (t : Tbl Line) e =>
      if e.1 / 16777216 = area && e.1 % 16777216 < areaSlots area then t.set erasedSlot (e.1 % 16777216) e.2 else t) a.slots }

/-- TAPESTRY_CHECK (R532): changed lists the slots, by area * 2^24 + slot, that the store is found to hold otherwise than it
was written; noHeader and noChain say which area headers and chain heads are missing. -/
def execTapestryCheck (changed : List (Nat × Line)) (noHeader noChain : BitVec 2) (s : State) :
    Host.Outcome State Fault Refusal :=
  run (fun s => s.when (s.vlt.st = .restore) fun s =>
    let f := s.fresh
    let o := (s.boot.tapOrd.tamper 0 changed).check (noHeader.getLsbD 0) (noChain.getLsbD 0) f.1.toNat s.boot.opmin s.boot.cycles
    let g := f.2.fresh
    let v := (s.boot.tapSev.tamper 1 changed).check (noHeader.getLsbD 1) (noChain.getLsbD 1) g.1.toNat s.boot.opmin s.boot.cycles
    let s1 := if noHeader = 0 then s else g.2
    (({ s1 with boot := { s1.boot with tapOrd := o.2, tapSev := v.2 } } : State).eraseRecords 0 o.1).eraseRecords 1 v.1) s

/-! ### Reading (R533) -/

/-- The verdict on a slot of an area: 1 OK, 2 ERASED, 3 DAMAGED, 4 FORGED, 5 BREAK. -/
def TapArea.verdict (a : TapArea) (slot : Nat) : Nat :=
  let l := a.slots.get erasedSlot slot
  if l = erasedSlot then 2
  else if recCrc l ≠ recCrcField l then 3
  else if recMac l ≠ recMacField l then 4
  else
    let n := recRseq l
    let p := a.valid.get erasedSlot (n - 1)
    if n = 1 then (if a.base = 1 && recPrev l ≠ a.seed then 5 else 1)
    else if p ≠ erasedSlot then (if recPrev l = recMacField p then 1 else 5)
    else if a.slots.any fun e => recDisp e.2 = n - 1 then 1
    else 5

/-- TAP_STAT. -/
def State.tapStat (s : State) : Word :=
  let o := s.boot.tapOrd.slots.length
  let e := (s.boot.tapSev.slots.filter fun x => fld (lineWord x.2 0) 0 8 = 4).length
  atBit (o % 2 ^ 20) 0 ||| atBit (min 65535 s.boot.tapSev.slots.length) 20 ||| atFlag (areaSlots 0 ≤ o) 36
    ||| atBit s.tap.buf.length 37 ||| atBit (min 255 e) 50 ||| atFlag s.tap.flushing 58

end Sys2Proof.Machine
end

