-- ==== Sys2Proof/Machine/Power.lean ====
section
/-! DEFINITION. Power states and the event calendar (chapter 17). Times are in FCLK cycles, 2,000 to a microsecond. -/
namespace Sys2Proof.Machine

/-- Clear the quiet of a head, or set its quiet end (R537). -/
def State.setQuiet (s : State) (h us : Nat) : State :=
  { s with pwr := { s.pwr with quiet := s.pwr.quiet.set 0 h (if us = 0 then 0 else s.clock + us * 2000) } }

/-- QUIET (R427, R537). A QUIET of 0 ends the quiet, and every state whose gap that ends starts its exit. -/
def State.workQuiet (s : State) (ring : Nat) : State := s.when (s.runs ring 0x60 none) fun s =>
    match (s.ring ring).act with
    | some a =>
      let h := (s.ring ring).owner
      let us := fld (lineWord a.words 4) 0 32
      let s1 := if us = 0 then s.unquiet h else s.setQuiet h us
      (s1.modAct ring fun a => { a with started := true }).endDescriptor ring 0 id
    | none => s

/-- See State.workQuiet. -/
def execQuiet (ring : Nat) (s : State) : Host.Outcome State Fault Refusal := run (fun s => s.workQuiet ring) s

/-! ### The calendar (R536) -/

/-- The least number of a list. -/
def leastOf : List Nat → Option Nat
  | [] => none
  | x :: xs => match leastOf xs with
    | some y => some (min x y)
    | none => some x

/-- Coalescing deadlines, with their rings (R433). -/
def State.coalDue (s : State) : List (Nat × Nat) :=
  (s.rng.rings.filter fun e => e.2.coalN ≠ 0 && e.2.irq = 2 && e.2.st ≠ .off).map fun e =>
    (e.1, e.2.coalAt + e.2.coalUs * 2000 - s.clock)

/-- Cycles to the next event of a source; none: it has none. -/
def State.sourceDue (s : State) (src : Nat) : Option Nat :=
  match src with
  | 0 => if s.hostGap then leastOf (s.presentHeads.filterMap fun h =>
      if (s.head h).link.up then some (s.pwr.quiet.get 0 h - s.clock) else none) else none
  | 1 => if s.pmc.en && s.pmc.period ≠ 0 then some (s.pmc.lastCap + s.pmc.period * 2000 - s.clock) else none
  | 2 => leastOf (s.coalDue.map fun e => e.2)
  | 3 => leastOf (s.rng.qholds.filterMap fun q => q.ends.map fun t => t - s.clock)
  | 4 => some (s.map.epochAt + s.epochCycles - s.clock)
  | 5 => if s.rsv.testEn then
      match s.rsv.testDue, s.rsv.lastTest with
      | none, some t => some ((t + 60 * s.rsv.testHrs - s.boot.opmin) * 120000000000)
      | _, _ => some 0
    else none
  | 6 => if s.glb.steward then some (Config.stewardTimer s.clock * 2000) else none
  | _ => some (s.tap.minuteAt + 120000000000 - s.clock)

/-- Resources: 0 to 15 tiles, 16 to 31 channels, 32 to 47 links, 48 to 55 drives, 56 near-cache ways. An event of a
source other than COAL needs a resource (R536). -/
def State.needs (s : State) (src r : Nat) : Bool :=
  match src with
  | 0 | 3 => true
  | 1 => r < 32 || r = 32 + s.pmc.head
  | 4 => r < 32
  | 5 | 7 => r = 0
  | 6 => r = 0 || (Config.stewardDrive s.clock && decide (48 ≤ r) && decide (r < 56))
  | _ => false

/-- Cycles to the first event that needs a resource (R538). -/
def State.gapOf (s : State) (r : Nat) : Option Nat :=
  let one := (List.range 8).filterMap fun src => if s.needs src r then s.sourceDue src else none
  let coal := (s.coalDue.filter fun e => r = e.1 % 16 || r = 32 + (s.ring e.1).owner).map fun e => e.2
  leastOf (one ++ coal)

/-- The gap is at least a break-even time; no event at all leaves it open-ended. -/
def gapHolds (gap : Option Nat) (us : Nat) : Bool :=
  match gap with
  | some g => decide (us * 2000 ≤ g)
  | none => true

/-! ### Choosing states (R538 to R540) -/

/-- None of a resource's queues holds work. -/
def State.idleRes (s : State) (r : Nat) : Bool :=
  if r < 16 then
    (s.wbOf r).isEmpty && ! (s.near.wbRetry.any fun e => e.1 = r)
      && ! (s.coh.txns.any fun e => e.2.isSome && s.ownerTile e.1 = r)
      && ! (s.map.marks.any fun m => s.mapTile m.pn = r)
      && ! (s.rng.rings.any fun e => e.1 % 16 = r && e.2.act.isSome)
  else if r < 32 then (s.chan (r - 16)).readQ.isEmpty && (s.chan (r - 16)).writeQ.isEmpty
  else if r < 48 then ! (s.openReqs.any fun q => q.headOf = some (r - 32)) && ! (s.coh.snoops.any fun x => x.head = r - 32)
  else if r < 56 then s.beam.reads.isEmpty && s.beam.outs.isEmpty
  else true

/-- DRIVE_MAX_US in force. -/
def State.driveMaxUs (s : State) : Nat := min 100000 (fld s.pwr.ctl 8 24)

/-- A drive's states that DRIVE_MAX_US and its gap allow; the last is the deepest. -/
def State.driveStates (s : State) (i : Nat) (gap : Option Nat) : List (Nat × Nat) :=
  (s.slot i).power.filter fun p => decide (p.1 + p.2 ≤ s.driveMaxUs) && gapHolds gap (4 * (p.1 + p.2))

/-- The device may enter a resource's state (R539, R542, R543). -/
def State.mayEnter (s : State) (r : Nat) : Bool :=
  let gap := s.gapOf r
  s.idleRes r && ! s.vlt.stopped && ! s.vlt.hold
    && (if r < 16 then s.hostGap && flag s.pwr.ctl 0 && ! s.tileRetired r && gapHolds gap 1
        else if r < 32 then s.hostGap && flag s.pwr.ctl 1 && (s.chan (r - 16)).inService && ! (s.chan (r - 16)).retired
          && gapHolds gap 200
        else if r < 48 then
          flag s.pwr.ctl 2 && s.present (r - 32) && (s.head (r - 32)).link.up && (s.head (r - 32)).link.width = 3
            && s.pwr.quiet.get 0 (r - 32) ≠ 0 && Config.partnerL0p (r - 32)
            && gapHolds gap 50 && gapHolds (some (s.pwr.quiet.get 0 (r - 32) - s.clock)) 50
        else if r < 56 then
          s.hostGap && flag s.pwr.ctl 3 && s.dirtyCount = 0 && (s.slot (r - 48)).present
            && ! s.beam.retired.getLsbD (r - 48) && ! (s.driveStates (r - 48) gap).isEmpty
        else s.hostGap && fld s.near.ctl 8 2 = 2 && gapHolds gap 10000)

/-- A resource enters its state. AUTO powers down the most ways that R121 allows; a drive takes Set Features for the deepest state that its
gap allows; a channel runs the refresh of all its banks that self-refresh begins with (R202). -/
def State.enterState (s : State) (r : Nat) : State :=
  let s1 : State := { s with pwr := { s.pwr with low := putBit s.pwr.low r true } }
  if r = 56 then { s1 with near := { s1.near with autoOff := 15 } }
  else if 48 ≤ r then
    let lat := ((s.driveStates (r - 48) (s.gapOf r)).getLast?.map fun p => p.2).getD 0
    ({ s1 with pwr := { s1.pwr with exlat := s1.pwr.exlat.set 0 (r - 48) lat } } : State).emit (.nvmeAdmin (r - 48) 0x09)
  else if 16 ≤ r && r < 32 then s1.modChan (r - 16) fun c => { c with postponed := [], sched := [], window := 0 }
  else s1

/-- CALENDAR_EVALUATE (R540). -/
def execCalendarEvaluate (s : State) : Host.Outcome State Fault Refusal :=
  run (fun s =>
    (List.range 57).foldl (fun (t : State) r =>
      if ! s.pwr.low.getLsbD r && s.mayEnter r then t.enterState r else t) s) s

/-- Cycles until the gap of a resource ends: a link's is its head's gap. -/
def State.wakeDue (s : State) (r : Nat) : Option Nat :=
  if 32 ≤ r && r < 48 then
    (if s.pwr.quiet.get 0 (r - 32) = 0 then none else leastOf ((s.gapOf r).toList ++ [s.pwr.quiet.get 0 (r - 32) - s.clock]))
  else s.gapOf r

/-- WAKE_AHEAD (R540): the exit starts at the gap's end less the exit latency. -/
def execWakeAhead (resource : Nat) (s : State) : Host.Outcome State Fault Refusal :=
  run (fun s => s.when (decide (resource < 57) && s.pwr.low.getLsbD resource && ! s.pwr.leaving.getLsbD resource) fun s =>
    match s.wakeDue resource with
    | some g => (s.elapse (s.clock + (g - s.exitCycles resource))).wake resource
    | none => s) s

/-- The ranks of a channel that leaves SELF_REFRESH are refreshed again from now on (R201). -/
def Channel.refreshesFrom (c : Channel) (now : Nat) : Channel :=
  { c with refDue := (List.range 4).foldl (fun (t : Tbl Nat) k => t.set 0 k (now + c.refi)) c.refDue }

/-- STATE_EXIT_COMPLETE (R539): the exit latency after the exit started, the resource is ready. -/
def execStateExitComplete (resource : Nat) (s : State) : Host.Outcome State Fault Refusal :=
  run (fun s => s.when (decide (resource < 57) && s.pwr.leaving.getLsbD resource) fun s =>
    let s0 := s.elapse (s.pwr.exitAt.get 0 resource)
    let s1 : State := { s0 with pwr := { s0.pwr with
      low := putBit s0.pwr.low resource false, leaving := putBit s0.pwr.leaving resource false
      exitAt := s0.pwr.exitAt.set 0 resource 0
      exlat := if 48 ≤ resource then s0.pwr.exlat.set 0 (resource - 48) 0 else s0.pwr.exlat } }
    if 16 ≤ resource && resource < 32 then s1.modChan (resource - 16) fun c => c.refreshesFrom s1.clock else s1) s

/-- QUIET_END (R537, R538). -/
def execQuietEnd (h : Nat) (s : State) : Host.Outcome State Fault Refusal :=
  run (fun s => s.when (s.pwr.quiet.get 0 h ≠ 0) fun s => (s.elapse (s.pwr.quiet.get 0 h)).unquiet h) s

/-! ### Registers (R545) -/

/-- Resources whose state an enable of PWR_CTL allows. -/
def enableMask (i : Nat) : BitVec 57 :=
  match i with
  | 0 => 0xFFFF
  | 1 => BitVec.ofNat 57 (0xFFFF <<< 16)
  | 2 => BitVec.ofNat 57 (0xFFFF <<< 32)
  | _ => BitVec.ofNat 57 (0xFF <<< 48)

/-- A write to PWR_CTL: an enable cleared starts the exit of every resource in that state. -/
def State.pwrCtl (s : State) (v : Word) : State :=
  let s1 : State := { s with pwr := { s.pwr with ctl := v &&& 0xFFFFFF0F } }
  (List.range 4).foldl (fun (t : State) i => if flag v i then t else t.exits (enableMask i)) s1

/-- Cycles as microseconds of a 32-bit field. -/
def usField (n : Nat) : Nat := min (n / 2000) 0xFFFFFFFF

/-- PWR_CAL_s. -/
def State.calWord (s : State) (src : Nat) : Word :=
  atBit (match s.sourceDue src with | some n => usField n | none => 0xFFFFFFFF) 0

/-- PWR_NEXT: the earliest calendar event and its source. -/
def State.nextWord (s : State) : Word :=
  let l := (List.range 8).filterMap fun i => (s.sourceDue i).map fun n => (n, i)
  match leastOf (l.map fun e => e.1) with
  | some m => atBit (usField m) 0 ||| atBit (((l.find? fun e => e.1 = m).map fun e => e.2).getD 0) 32
  | none => 0

/-- PWR_QUIET_h. -/
def State.quietWord (s : State) (h : Nat) : Word :=
  let q := s.pwr.quiet.get 0 h
  atBit (if q = 0 then 0 else usField (q - s.clock)) 0

end Sys2Proof.Machine
end

