-- ==== Sys2Proof/Machine/Flit.lean ====
section
/-! DEFINITION. Selvedge flits: header words, the CRC-64 and the FEC parity (R446), and packets as words (R453). -/
namespace Sys2Proof.Machine

/-! ### Header words -/

/-- H0 of a flit: kind 0 DATA, 1 NULL. -/
def flitH0 (h : FlitHeader) (kind : Nat) : Word :=
  atBit (h.seq % 4096) 0 ||| atBit (h.ack % 4096) 12 ||| atBit (h.cls % 4) 24 ||| atBit (kind % 4) 26 ||| atFlag h.xoff 28
    ||| atBit (h.words % 32) 29 ||| atBit (h.nseq % 4096) 34 ||| atFlag h.nv 46 ||| atBit h.nmap.toNat 47

/-- H1 of a flit. -/
def flitH1 (h : FlitHeader) : Word :=
  atBit (h.cc0 % 4096) 0 ||| atBit (h.cc1 % 4096) 12 ||| atBit (h.cc2 % 4096) 24 ||| atBit (h.cc3 % 4096) 36
    ||| atBit (h.ccs % 4096) 48

/-! ### CRC-64 -/

/-- One bit step of the CRC, most significant bit first. -/
def crc64Bit (c : Nat) : Nat :=
  if 2 ^ 63 ≤ c then ((c * 2) % 2 ^ 64) ^^^ 0x42F0E1EBA9EA3693 else c * 2

/-- One byte. -/
def crc64Byte (c b : Nat) : Nat :=
  crc64Bit (crc64Bit (crc64Bit (crc64Bit (crc64Bit (crc64Bit (crc64Bit (crc64Bit (c ^^^ (b * 2 ^ 56)))))))))

/-- The CRC of bytes in ascending order. -/
def crc64 (bs : List Nat) : Nat := bs.foldl crc64Byte 0xFFFFFFFFFFFFFFFF ^^^ 0xFFFFFFFFFFFFFFFF

/-! ### FEC -/

/-- Multiply by alpha in GF(2^8) with field polynomial 0x11D. -/
def gfDouble (x : Nat) : Nat := if 128 ≤ x then (x * 2) ^^^ 0x11D else x * 2

/-- Product in GF(2^8), over the n low bits of y. -/
def gfMul : Nat → Nat → Nat → Nat
  | 0, _, _ => 0
  | n + 1, x, y => (if y % 2 = 1 then x else 0) ^^^ gfMul n (gfDouble x) (y / 2)

/-- The coefficients of the generator (x + 1)(x + 2)(x + 4)(x + 8), x^3 first, without the leading 1; its roots are alpha^0 to
alpha^3. -/
def fecGen : List Nat :=
  ([1, 2, 4, 8].foldl (fun c r => (c ++ [0]).zipWith (fun a b => a ^^^ gfMul 8 r b) (0 :: c)) [1]).tail

/-- The four parity bytes of a codeword, x^3 first: the remainder of the data by the generator. -/
def fecParity (data : List Nat) : List Nat :=
  data.foldl (fun p d => (p.tail ++ [0]).zipWith (fun a g => a ^^^ gfMul 8 (d ^^^ p.headD 0) g) fecGen) [0, 0, 0, 0]

/-- The bytes of words, little-endian. -/
def bytesOf (ws : List Word) : List Nat := ws.flatMap fun w => (List.range 8).map fun i => fld w (8 * i) 8

/-- Every second element, from the first. -/
def evens : List Nat → List Nat
  | [] => []
  | [x] => [x]
  | x :: _ :: t => x :: evens t

/-- The parity word, bytes 248 to 255: the codewords' parity bytes interleaved. -/
def fecWord (bs : List Nat) : Word :=
  let l := ((fecParity (evens bs)).zip (fecParity (evens (bs.drop 1)))).flatMap fun x => [x.1, x.2]
  (l.mapIdx fun i b => atBit b (8 * i)).foldl (fun a b => a ||| b) 0

/-- A whole flit of 32 words from its header, payload and MAC words. -/
def flitWords (h0 h1 : Word) (payload : List Word) (mac : List Word) : List Word :=
  let body := h0 :: h1 :: ((payload ++ List.replicate 26 0).take 26 ++ (mac ++ [0, 0]).take 2)
  let bc := body ++ [BitVec.ofNat 64 (crc64 (bytesOf body))]
  bc ++ [fecWord (bytesOf bc)]

/-! ### Packets -/

/-- HELLO (R453). -/
def State.helloWords (s : State) : List Word :=
  pkt 0x01 0 [glbId, glbRev, s.slv.pairId.read [(0, 64)], s.beam.setId,
    atBit s.slv.session 0 ||| atFlag (flag s.slv.ctl 3) 32 ||| atBit (s.rsv.health % 8) 33]

/-- MWR. -/
def Mwr.words (m : Mwr) (mreg base : Nat) (gap : Bool) : List Word :=
  let full := decide (m.mask = fullMask)
  let rest := atBit (mreg % 4096) 18 ||| atFlag full 30 ||| atFlag m.be 31 ||| atFlag gap 32
  let data := (List.range 8).map fun i => lineWord (m.data &&& lineMask m.mask) i
  pkt 0x10 rest (atBit ((m.line - base) * 64) 0 :: (if full then data else BitVec.ofNat 64 m.mask.toNat :: data))

/-- RPAGE: FORM 0 DATA, 1 ZERO, 2 POISON. -/
def rpageWords (mreg form page session : Nat) (data : PageData) : List Word :=
  let body := if form = 0 then (List.range 64).flatMap fun i => (List.range 8).map fun j => lineWord (data.get {} i).data j else []
  pkt 0x30 (atBit (mreg % 4096) 18 ||| atBit (form % 4) 30) (atBit page 0 :: atBit session 0 :: body)

/-- A packet as the parser takes it apart. -/
inductive Packet where
  | hello (p : HelloPacket)
  | spdm
  | session (value : Nat)
  | rmap (es : List RmapEntry)
  | health (h : Nat) (w : Bool)
  | pfNotice
  | fallback
  | taken (region : Nat)
  | ret (region : Nat)
  | mwr (mreg offset : Nat) (full gap : Bool) (prio : Nat) (mask : Mask) (data : Line)
  | mack (count health : Nat) (w : Bool)
  | rack (count : Nat)
  | rpage (mreg form page session : Nat) (data : List (Nat × Line))
  | rdone (mreg session : Nat)
  | undefined (type : Nat)
  deriving DecidableEq, Repr

/-- An RMAP entry from its word. -/
def rmapEntryOf (w : Word) : RmapEntry :=
  ⟨fld w 0 12, fld w 12 25, fld w 37 12, flag w 49, fld w 50 3, flag w 53⟩

/-- The length in words that word 0 gives; 0, which no packet has, acts as 1. -/
def pktLen (w : Word) : Nat := max 1 (fld w 8 10)

/-- Read a packet of class c from its words. -/
def packetOf (c : Nat) (ws : List Word) : Packet :=
  let w0 := ws.headD 0
  let w := fun i => ws.getD i 0
  let type := fld w0 0 8
  match c, type with
  | 0, 0x01 => .hello ⟨w 1, w 2, w 3, w 4, fld (w 5) 0 32, flag (w 5) 32, fld (w 5) 33 3⟩
  | 0, 0x02 => .spdm
  | 0, 0x03 => .session (fld (w 1) 0 32)
  | 0, 0x04 => .rmap ((ws.drop 1).map rmapEntryOf)
  | 0, 0x05 => .health (fld (w 1) 0 3) (flag (w 1) 3)
  | 0, 0x06 => .pfNotice
  | 0, 0x07 => .fallback
  | 0, 0x08 => .taken (fld (w 1) 0 12)
  | 0, 0x09 => .ret (fld (w 1) 0 12)
  | 1, 0x10 =>
    let full := flag w0 30
    let d := if full then 2 else 3
    .mwr (fld w0 18 12) (fld (w 1) 0 45) full (flag w0 32) (if flag w0 31 then 1 else 0)
      (if full then fullMask else BitVec.ofNat 64 (w 2).toNat) (lineOfWords ((ws.drop d).take 8))
  | 2, 0x20 => .mack (fld (w 1) 0 32) (fld (w 1) 32 3) (flag (w 1) 35)
  | 2, 0x21 => .rack (fld (w 1) 0 32)
  | 3, 0x30 => if fld w0 30 2 = 3 then .undefined 0x30 else .rpage (fld w0 18 12) (fld w0 30 2) (fld (w 1) 0 33) (fld (w 2) 0 32)
      (if fld w0 30 2 = 0 then (List.range 64).map fun i => (i, lineOfWords ((ws.drop (3 + 8 * i)).take 8)) else [])
  | 3, 0x31 => .rdone (fld w0 18 12) (fld (w 1) 0 32)
  | _, t => .undefined t

end Sys2Proof.Machine
end

