-- ==== Sys2Proof/Machine/SlvTx.lean ====
section
/-! DEFINITION. The selvedge link's transmitter, its pair states and mirrored writes (R443 to R452, R454 to R466). -/
namespace Sys2Proof.Machine

/-- Change the transmitter. -/
def State.modTx (s : State) (f : SlvTx → SlvTx) : State := { s with slv := { s.slv with tx := f s.slv.tx } }
/-- Change the receiver. -/
def State.modRx (s : State) (f : SlvRx → SlvRx) : State := { s with slv := { s.slv with rx := f s.slv.rx } }

/-- Minimum flit buffers of a class (R451). -/
def classMin (c : Nat) : Nat := match c with | 0 => 64 | 1 => 256 | 2 => 64 | 3 => 128 | _ => 1024

/-- Source regions and MIRROR windows, ascending. -/
def State.mirrorRegions (s : State) : List Nat :=
  (s.regions.filter fun e => e.2.isSource || e.2.isMirror).map Prod.fst

/-! ### Divergence (R461, R462) -/

/-- The oldest mirrored write of a region that no MACK has counted. -/
def State.oldestMwr (s : State) (n : Nat) : Option Mwr :=
  ((s.slv.sent ++ s.slv.parked ++ s.slv.delay).filter fun m => m.region = n).foldl (fun (b : Option Mwr) m =>
    match b with
    | some x => if m.id < x.id then some m else some x
    | none => some m) none

/-- One region at a divergence; open_ is the SEQ of the DELTA segment open then. -/
def State.divergeOne (s : State) (open_ n : Nat) : State :=
  let r := s.region n
  let x := s.slvRgn n
  let seq := match s.oldestMwr n with | some m => m.seq | none => open_
  if r.isSource then
    match x.mst with
    | 1 => s.modSlv n fun x => { x with mst := 4, div := divFull, copyNext := none, set := [], rdone := false }
    | 2 | 3 => s.modSlv n fun x => { x with
        mst := 4, div := if x.div = 0 then seq else x.div, copyNext := none, set := [], rdone := false }
    | 7 => s.modSlv n fun x => { x with mst := 4 }
    | _ => s
  else if r.isMirror then (if x.mst = 0 || x.mst = 5 then s else s.modSlv n fun x => { x with mst := 4 })
  else if x.mst = 7 then s.modSlv n fun x => { x with mst := 6, copyNext := none, set := [], rdone := false }
  else s

/-- Divergence: every region goes to SOLO, waiting level-2 seals complete with MIRROR_LOST, and mirrored writes not yet
counted are forgotten. own: this device flushes, so a seal all of whose writes MACK has counted keeps its outcome
(R470). -/
def State.diverge (s : State) (open_ : Nat) (own : Bool) : State :=
  let ns := (s.slv.rgns.map fun e => e.1) ++ s.mirrorRegions
  let s1 := ns.eraseDups.foldl (fun (s : State) n => s.divergeOne open_ n) s
  { s1 with
    slv := { s1.slv with delay := [], sent := [], parked := [], taken := [], pagesOut := [], reading := [] }
    rng := { s1.rng with seals := s1.rng.seals.map fun y =>
      if y.level = 2 && ! y.noMirror && ! (own && y.tiles = 0 && y.mwrs.isEmpty) then { y with mirrorLost := true } else y } }

/-- Discard the replay buffer and the C1 to C3 FIFOs. -/
def State.dropTx (s : State) : State :=
  s.modTx fun t => { t with
    replay := [], fifo := t.fifo.restrict fun c _ => c = 0, waiting := t.waiting.filter fun e => e.1 = 0 }

/-- The link is out of L0 for good: it trains again from step 1. -/
def State.slvDown (s : State) : State :=
  { s with slv := { s.slv with l0 := false, detected := false, ide := false, recovering := false, peer := none, rmap := [] } }

/-- The pair goes to SOLO by a divergence. -/
def State.goSolo (s : State) : State :=
  let s1 := s.diverge s.openDelta false
  (({ s1 with slv := { s1.slv with pair := .solo } } : State).dropTx).checkSeals

/-- The link leaves L0 with its replay buffer, credits and sequence numbers (R444, R461). -/
def State.slvLeaveL0 (s : State) : State :=
  if ! s.slv.l0 then s
  else
    let hold := s.slv.pair = .paired
    { s with slv := { s.slv with
      l0 := false, recovering := true, pair := if hold then .hold else s.slv.pair
      holdAt := if hold then s.clock else s.slv.holdAt } }

/-! ### SLV_CTL and training -/

/-- RW bits of SLV_CTL. -/
def slvBits : Word := 0xFFFFFFF7F

/-- A write to SLV_CTL (R461, R472): EN 1 starts training, EN 0 holds the link down; a MAX_RATE that differs from the rate in
force starts Recovery. -/
def State.slvCtl (s : State) (v : Word) : State :=
  let was := s.slv.en
  let s1 : State := { s with slv := { s.slv with ctl := v &&& slvBits } }
  if was && ! s1.slv.en then
    let s2 := if s.slv.pair = .paired || s.slv.pair = .hold then s1.diverge s.openDelta false else s1
    let s3 := (s2.dropTx).slvDown
    ({ s3 with slv := { s3.slv with pair := .off } } : State).checkSeals
  else
    let s2 : State := if ! was && s1.slv.en && s.slv.pair = .off then { s1 with slv := { s1.slv with pair := .seek } } else s1
    if s2.slv.l0 && s2.slv.maxRate ≠ s.slv.maxRate && s2.slv.maxRate ≠ s2.slv.rate then s2.slvLeaveL0 else s2

/-- SLV_EN (R461): a write of SLV_CTL. -/
def execSlvEn (src : Nat) (value : Word) (s : State) : Host.Outcome State Fault Refusal :=
  run (fun s => s.globalWrite src (regArgBar 0xC000) fun s => s.slvCtl value) s

/-- The surviving lanes form no link, or one below MIN_WIDTH: the link is held down (R444). -/
def State.slvHeldDown (s : State) : Bool :=
  match lanesWidth (List.range 8) s.slv.laneRet with
  | none => true
  | some w => decide (w < s.slv.minWidth)

/-- The pair trains: EN is 1, the link is not held down, and no pairing stands. -/
def State.slvTrains (s : State) : Bool :=
  s.slv.en && ! s.slvHeldDown && ! s.vlt.stopped && (s.slv.pair = .seek || s.slv.pair = .solo)

/-- SLV_RECEIVER_DETECT (R443): training starts from step 1, also where a Recovery in SEEK or SOLO has failed (R461), and 1 s after
a failed authentication (R508). -/
def execSlvReceiverDetect (s : State) : Host.Outcome State Fault Refusal :=
  run (fun s => s.when (s.slvTrains && ! s.slv.l0) fun s0 =>
    let s := s0.elapse s0.slv.retryAt
    { s with slv := { s.slv with detected := true, recovering := false, ide := false } }) s

/-- Send HELLO. -/
def State.sendHello (s : State) : State := s.slvPush 0 s.helloWords

/-- The widest width the selvedge lanes allow. -/
def State.slvLaneWidth (s : State) : Nat := (lanesWidth (List.range 8) s.slv.laneRet).getD 0

/-- SLV_TRAINING_STEP3 (R443, R454, R455): credits and counters start anew, FC and XOFF_PIN are taken, HELLO goes out. -/
def execSlvTrainingStep3 (rate width : Nat) (s : State) : Host.Outcome State Fault Refusal :=
  run (fun s => s.when (s.slvTrains && s.slv.detected && ! s.slv.l0 && decide (rate ≤ s.slv.maxRate)
      && decide (s.slv.minWidth ≤ width) && decide (width ≤ s.slvLaneWidth)) fun s =>
    ({ s with slv := { s.slv with
      l0 := true, rate := rate, width := width, ide := false, recovering := false, refused := false, peer := none
      rmap := [], fbTx := false, fbRx := flag s.slv.ctl 3, pinOn := flag s.slv.ctl 4
      tx := { credits := (List.range 5).map fun c => (c, classMin c) }
      rx := {} } } : State).sendHello) s

/-- SLV_RECOVERY (R444). -/
def execSlvRecovery (s : State) : Host.Outcome State Fault Refusal := run (fun s => s.slvLeaveL0) s

/-- SLV_L0_REGAINED (R444, R461): within 50 us a pair in HOLD is PAIRED again. The replay buffer stands, and the count of resends
that ends in Recovery starts anew. -/
def execSlvL0Regained (s : State) : Host.Outcome State Fault Refusal :=
  run (fun s => s.when (s.slv.recovering && ! s.slvHeldDown && (s.slv.pair ≠ .hold || decide (s.clock ≤ s.slv.holdAt + 100000)))
    fun s => { s with slv := { s.slv with
      tx := { s.slv.tx with replay := s.slv.tx.replay.map fun f => { f with resent := 0 } }
      l0 := true, recovering := false, rate := min s.slv.rate s.slv.maxRate, width := min s.slv.width s.slvLaneWidth
      pair := if s.slv.pair = .hold then .paired else s.slv.pair } }) s

/-- PAIR_HOLD_TIMEOUT (R461, R462). -/
def execPairHoldTimeout (s : State) : Host.Outcome State Fault Refusal :=
  run (fun s => s.when (s.slv.pair = .hold) fun s =>
    let s1 := s.elapse (s.slv.holdAt + 100000)
    ((s1.goSolo).slvDown).note ⟨2, 0x38, s.slv.session, none⟩) s

/-- Retire a selvedge lane (R444): the link retrains to the width that the surviving lanes form, or below MIN_WIDTH is held down. -/
def State.retireSlvLane (s : State) (lane : Nat) : State :=
  let s1 : State := { s.retireTaken 8 lane with slv := { s.slv with laneRet := putBit s.slv.laneRet lane true } }
  if s1.slvHeldDown then s1.slvLeaveL0
  else if s.slv.l0 then s1.slvLeaveL0.note ⟨1, 0x34, min s.slv.width s1.slvLaneWidth, none⟩
  else s1

/-- SLV_LANE_RETIRE (R444, R480). -/
def execSlvLaneRetire (lane : Nat) (s : State) : Host.Outcome State Fault Refusal :=
  run (fun s => s.when (decide (lane < 8) && s.retireDue 8 lane) fun s => s.retireSlvLane lane) s

/-! ### Resync and RDONE (R465, R466) -/

/-- Some mirrored write of a region is not counted yet. -/
def State.mwrsOpen (s : State) (n : Nat) : Bool :=
  (s.slv.sent ++ s.slv.parked ++ s.slv.delay).any fun m => m.region = n

/-- The resync set of a region is empty. -/
def State.setEmpty (s : State) (n : Nat) : Bool :=
  let x := s.slvRgn n
  x.set.isEmpty && (match x.copyNext with | some p => decide ((s.region n).size * 512 ≤ p) | none => true)

/-- A region whose pages go out: COPY, RESYNC, or a taken window that returns. -/
def State.sendsPages (s : State) (n : Nat) : Bool :=
  let x := s.slvRgn n
  ((s.region n).isSource && (x.mst = 1 || x.mst = 2)) || ((s.region n).active && ! (s.region n).isSource && x.mst = 7)

/-- Send RDONE where everything of R466 holds. -/
def State.tryRdone (s : State) (n : Nat) : State :=
  let x := s.slvRgn n
  if s.slv.pair = .paired && s.sendsPages n && ! x.rdone && s.setEmpty n && ! s.mwrsOpen n && s.slvRoom 3 2
      && ! (s.slv.taken.any fun t => t.region = n) && ! (s.slv.pagesOut.any fun p => p.1 = n) then
    let s1 := (s.slvPush 3 (pkt 0x31 (atBit (s.region n).peer 18) [atBit s.slv.session 0])).modSlv n fun x =>
      { x with rdone := true }
    { s1 with slv := { s1.slv with pagesOut := s1.slv.pagesOut ++ [(n, none)] } }
  else s

/-- Try RDONE for every region. -/
def State.tryRdones (s : State) : State :=
  (s.slv.rgns.map fun e => e.1).foldl (fun (s : State) n => s.tryRdone n) s

/-- Page pn lies in the resync set. -/
def State.inResync (s : State) (n pn : Nat) : Bool :=
  let x := s.slvRgn n
  x.set.contains pn || x.copyNext = some (pn - (s.region n).base * 512)

/-- The content of a page of a region as it stands, with its FORM (R465, R484). -/
def State.pageForm (s : State) (n pn : Nat) : Nat × PageData :=
  let r := s.region n
  let d := (pageLines pn).foldl (fun (d : PageData) l => d.set {} (l % 64) (s.lineValue r l)) ([] : PageData)
  if d.hasPoison then (2, []) else if d.isEmpty && (s.page pn).place = .zero then (1, []) else (0, d)

/-- Take a page of the set (R465 steps 1 and 2). -/
def State.takePage (s : State) (n pn : Nat) : State :=
  let f := s.pageForm n pn
  let ws := ((s.slv.sent ++ s.slv.parked ++ s.slv.delay).filter fun m => m.region = n).map fun m => m.id
  let s1 := s.modSlv n fun x => { x with
    set := x.set.filter fun p => p ≠ pn
    copyNext := match x.copyNext with
      | some p => if p = pn - (s.region n).base * 512 then some (p + 1) else some p
      | none => none }
  { s1 with slv := { s1.slv with taken := s1.slv.taken ++ [⟨n, pn, f.1, f.2, ws⟩] } }

/-- Mirrored writes of the region accepted before the page was taken are still uncounted. -/
def State.pageWaits (s : State) (t : RpTake) : Bool :=
  (s.slv.sent ++ s.slv.parked ++ s.slv.delay).any fun m => t.waits.contains m.id

/-- Send a taken page once nothing it follows is uncounted (R465 step 3). -/
def State.sendPage (s : State) (n pn : Nat) : State :=
  match s.slv.taken.find? fun t => t.region = n && t.page = pn with
  | none => s
  | some t =>
    let r := s.region n
    let ws := rpageWords r.peer t.form (pn - r.base * 512) s.slv.session t.data
    if s.pageWaits t || 256 ≤ (s.slv.pagesOut.filter fun p => p.2.isSome).length || ! s.slvRoom 3 ws.length then s
    else
      let s1 := (s.slvPush 3 ws).count (evSlv 8) 1
      { s1 with slv := { s1.slv with
        taken := s1.slv.taken.erase t, pagesOut := s1.slv.pagesOut ++ [(n, some pn)] } }

/-- A page of the set is taken; a T3 page is read from the beam first, at P5 (R465 step 2). -/
def State.readPage (s : State) (n pn : Nat) : State :=
  match (s.page pn).place with
  | .t3 a =>
    if s.slv.reading.contains (n, pn) then
      if s.beam.reads.any fun x => x.addr = a then s
      else ({ s with slv := { s.slv with reading := s.slv.reading.erase (n, pn) } } : State).takePage n pn
    else ({ s with slv := { s.slv with reading := s.slv.reading ++ [(n, pn)] } } : State).beamRead a 5 false
  | _ => s.takePage n pn

/-- RESYNC_PAGE_SEND (R465): page is an index within the region. -/
def execResyncPageSend (region page : Nat) (s : State) : Host.Outcome State Fault Refusal :=
  run (fun s => s.when (s.slv.pair = .paired && s.sendsPages region && decide (page < (s.region region).size * 512)) fun s =>
    let pn := (s.region region).base * 512 + page
    let s1 := if s.inResync region pn && ! (s.slv.taken.any fun t => t.region = region && t.page = pn) then
        s.readPage region pn else s
    (s1.sendPage region pn).tryRdone region) s

/-! ### Mirrored writes (R457, R458) -/

/-- The page of a mirrored write is taken or out: the write was accepted after the page's instant, so it waits. -/
def State.pageHeld (s : State) (m : Mwr) : Bool :=
  (s.slv.taken.any fun t => t.region = m.region && t.page = pageOf m.line && ! t.waits.contains m.id)
    || (s.slv.pagesOut.contains (m.region, some (pageOf m.line)))

/-- A mirrored write enters the C1 FIFO, or is dropped. -/
def State.mwrGo (s : State) (m : Mwr) : State :=
  let r := s.region m.region
  let x := s.slvRgn m.region
  let ws := m.words r.peer (r.base * 32768) x.gap
  if ! (decide (1 ≤ x.mst) && decide (x.mst ≤ 3)) then s
  else if s.slvRoom 1 ws.length then
    let s1 := ((s.slvPush 1 ws).count (evSlv 4) 1).modSlv m.region fun x => { x with gap := false }
    { s1 with slv := { s1.slv with sent := s1.slv.sent ++ [m] } }
  else
    ((((s.resyncPage m.region (pageOf m.line)).leaveSync m.region m.seq).modSlv m.region fun x =>
      { x with gap := true }).count (evSlv 5) 1).note ⟨1, 0x37, m.region, none⟩

/-- MWR_ENQUEUE (R457, R458, R465): the oldest mirrored write, 1,000 FCLK after its acceptance. -/
def execMwrEnqueue (s : State) : Host.Outcome State Fault Refusal :=
  run (fun s =>
    match s.slv.delay with
    | [] => s
    | m :: ms =>
      let s0 := s.elapse (m.at_ + 1000)
      let s1 : State := { s0 with slv := { s0.slv with delay := ms } }
      if s1.pageHeld m then
        if s1.slv.parked.length < 4096 then { s1 with slv := { s1.slv with parked := s1.slv.parked ++ [m] } }
        else s1.resyncPage m.region (pageOf m.line)
      else (s1.mwrGo m).checkSeals) s

/-- Mirrored writes held behind a page go on (R465 step 4). -/
def State.unpark (s : State) (n pn : Nat) : State :=
  let go := s.slv.parked.filter fun m => m.region = n && pageOf m.line = pn
  go.foldl (fun (s : State) m => s.mwrGo m)
    { s with slv := { s.slv with parked := s.slv.parked.filter fun m => ! (m.region = n && pageOf m.line = pn) } }

/-- SLV_DIV_FULL (R463). -/
def execSlvDivFull (s : State) : Host.Outcome State Fault Refusal :=
  run (fun s => s.when (decide (s.slv.divSegs < (s.beam.segs.keysWhere fun g _ => s.divHolds g).length)) fun s =>
    ({ s with slv := { s.slv with rgns := s.slv.rgns.mapVals {} fun _ x =>
      if x.div = 0 then x else { x with div := divFull } } } : State).note ⟨1, 0x39, 0, none⟩) s

/-! ### Return and takeover (R467, R469) -/

/-- A write to SLV_RETURN (R469). -/
def State.slvReturn (s : State) (n : Nat) : State :=
  let r := s.region n
  let ok := (s.slvRgn n).mst = 6 && s.slv.pair = .paired && ! r.anyWrite
    && (s.slv.rmap.any fun e => e.index = r.peer && ! e.window && e.size = r.size)
  if ok then
    (s.modSlv n fun x => { x with mst := 7, copyNext := some 0, set := [], rdone := false }).slvPush 0
      (pkt 0x09 0 [atBit r.peer 0])
  else s.note ⟨1, 0x3A, n, none⟩

/-- SLV_RETURN_GO (R469): a write with GO = 1. -/
def execSlvReturnGo (src region : Nat) (s : State) : Host.Outcome State Fault Refusal :=
  run (fun s => s.when (decide (region < 4096)) fun s => s.globalWrite src (regArgBar 0xC020) fun s => s.slvReturn region) s

/-- A window that TAKEOVER may take. -/
def State.takes (s : State) (n : Nat) : Bool := (s.region n).isMirror && (s.slvRgn n).mst = 4 && (s.slvRgn n).complete

/-- Take one window (R44, R467). -/
def State.takeWindow (s : State) (n : Nat) : State :=
  let lost := (s.region n).wrote = some s.clock
  let s1 := ((s.modRegion n fun r => { r with attr := putFld r.attr 12 3 0, took := some s.clock }).modSlv n fun x =>
    { x with mst := 6 }).note ⟨1, 0x31, n, none⟩
  if lost then s1.writeLost n else s1

/-- TAKEOVER (R429, R467). -/
def State.workTakeover (s : State) (ring : Nat) : State := s.when (s.runs ring 0x70 none) fun s =>
    match (s.ring ring).act with
    | none => s
    | some a =>
      let n := dRegion a.words
      let apart := s.slv.pair = .solo || s.slv.pair = .off
      if dAll a.words then
        let ws := (s.regions.filter fun e => s.takes e.1).map Prod.fst
        if ! apart || ws.isEmpty then s.endDescriptor ring 0x0E id
        else (ws.foldl (fun (s : State) n => s.takeWindow n) s).endDescriptor ring 0 fun a =>
          { a with result := atBit ws.length 0 }
      else if ! (s.region n).active then s.endDescriptor ring 0x0C id
      else if ! (s.region n).isMirror then s.endDescriptor ring 0x04 id
      else if ! apart || ! s.takes n then s.endDescriptor ring 0x0E id
      else (s.takeWindow n).endDescriptor ring 0 fun a => { a with result := 1 }

/-- See State.workTakeover. -/
def execTakeover (ring : Nat) (s : State) : Host.Outcome State Fault Refusal := run (fun s => s.workTakeover ring) s

end Sys2Proof.Machine
end

