-- ==== Sys2Proof/Machine/Selvedge.lean ====
section
/-! DEFINITION. The selvedge link's receiver: packets, flits, acknowledgements, credits and the flit builder (R438 to R440,
R446 to R470). -/
namespace Sys2Proof.Machine

/-! ### Pairing (R438 to R440) -/

/-- The first condition of R438 that fails, in order; none: the devices pair. -/
def State.helloFails (s : State) (p : HelloPacket) : Option Nat :=
  let id := s.slv.pairId.read [(0, 64)]
  if ! s.slv.en then some 0
  else if s.beam.setId = 0 || p.setId = 0 then some 1
  else if id = 0 || p.pairId ≠ id then some 2
  else if fld p.glbRev 24 8 ≠ fld glbRev 24 8 then some 3
  else if p.setId = s.beam.setId then some 4
  else none

/-- HELLO (R438, R455): the partner's FC puts this transmitter in XOFF mode. -/
def State.takeHello (s : State) (p : HelloPacket) : State :=
  if ! s.slv.l0 then s
  else
    let s1 : State := { s with slv := { s.slv with
      peer := some p, fbTx := s.slv.fbTx || p.fc, peerHealth := p.health } }
    match s.helloFails p with
    | some c =>
      ({ s1 with slv := { s1.slv with refused := true, helloAt := s.clock } } : State).note ⟨1, 0x32, c, none⟩
    | none => { s1 with slv := { s1.slv with refused := false, follow := decide (p.setId.toNat < s.beam.setId.toNat) } }

/-- HELLO_RETRY (R438): every 1 s a refused device repeats HELLO. -/
def execHelloRetry (s : State) : Host.Outcome State Fault Refusal :=
  run (fun s => s.when (s.slv.refused && s.slv.l0) fun s =>
    let s1 := (s.elapse (s.slv.helloAt + 2000000000)).sendHello
    { s1 with slv := { s1.slv with helloAt := s1.clock } }) s

/-- Pairing succeeds (R461): the session is in force, its counts start at 0, RMAP and TAKEN go out. -/
def State.pairUp (s : State) (session : Nat) : State :=
  let s1 : State := { s with slv := { s.slv with
    pair := .paired, session := session % 2 ^ 32, peerSet := (s.slv.peer.map fun p => p.setId).getD s.slv.peerSet
    mackCount := 0, rackCount := 0, taken := [], pagesOut := [], sent := [], parked := []
    tx := { s.slv.tx with sentMack := 0, sentRack := 0, sentHealth := none }
    rx := { s.slv.rx with mwrs := [], macks := 0, pages := [], racks := 0 } } }
  let s2 := s1.mirrorRegions.foldl (fun (s : State) n =>
    let s' := s.modSlv n fun x => { x with fresh := true }
    if (s.region n).isSource && ((s.slvRgn n).mst = 0 || (s.slvRgn n).mst = 4 || (s.slvRgn n).mst = 5) then s'.startMirror n
    else s') s1
  let s3 := s2.sendRmap
  (s3.slv.rgns.filter fun e => e.2.mst = 6).foldl (fun (s : State) e =>
    s.slvPush 0 (pkt 0x08 0 [atBit (s.region e.1).peer 0])) s3

/-- SLV_SPDM (R443, R508): step 0 is a message of the exchange; any other ends it. With ok the IDE keys are set, and LEAD
names the session; a failed authentication takes the link down, to train again after 1 s. -/
def execSlvSpdm (step : Nat) (ok : Bool) (s : State) : Host.Outcome State Fault Refusal :=
  run (fun s =>
    match s.slv.peer with
    | none => s
    | some p =>
      s.when (s.slv.l0 && ! s.slv.ide && (s.helloFails p).isNone) fun s =>
        if ! ok then { s.slvDown with slv := { s.slvDown.slv with retryAt := s.clock + 2000000000 } }
        else if step = 0 then s
        else
          let s1 : State := { s with slv := { s.slv with ide := true, tx := { s.slv.tx with nonce := 0 } } }
          if s.slv.follow then s1
          else
            let v := (max s.slv.session p.session + 1) % 2 ^ 32
            (s1.slvPush 0 (pkt 0x03 0 [atBit v 0])).pairUp v) s

/-- SESSION (R439): FOLLOW adopts LEAD's value. -/
def State.takeSession (s : State) (v : Nat) : State :=
  if s.slv.l0 && s.slv.ide && s.slv.follow && s.slv.pair ≠ .paired && s.slv.pair ≠ .off then s.pairUp v else s

/-- RMAP (R440). -/
def State.takeRmap (s : State) (es : List RmapEntry) : State :=
  if s.slv.pair = .paired then
    (s.mirrorRegions.foldl (fun (s : State) n => s.judgeMirror n)
      { s with slv := { s.slv with rmap := es } }).checkSeals
  else s

/-! ### Other C0 packets -/

/-- HEALTH (R453). -/
def State.takeHealth (s : State) (h : Nat) (w : Bool) : State :=
  if s.slv.ide then { s with slv := { s.slv with peerHealth := h, peerWithhold := w } } else s

/-- PF_NOTICE (R461, R470). -/
def State.takePfNotice (s : State) : State :=
  if s.slv.pair = .paired || s.slv.pair = .hold then
    let s1 := s.diverge s.openDelta false
    ({ s1 with slv := { s1.slv with pair := .solo } } : State).checkSeals
  else s

/-- TAKEN (R367, R468): the source region is HELD and no longer mirrored. -/
def State.takeTaken (s : State) (n : Nat) : State :=
  if s.slv.pair = .paired && (s.region n).isSource && ! (s.slvRgn n).held then
    (((s.loseMirror n).modSlv n fun x => { x with held := true, mst := 5, copyNext := none, set := [] }).note
      ⟨1, 0x30, n, none⟩).checkSeals
  else s

/-- RETURN (R469): the partner's side goes to RETURNING. -/
def State.takeReturn (s : State) (n : Nat) : State :=
  if s.slv.pair = .paired && (s.region n).isSource && (s.slvRgn n).held then
    s.modSlv n fun x => { x with mst := 7, fresh := true } else s

/-! ### Mirrored writes received (R459) -/

/-- A write of the partner has been accepted and is buddy-confirmed. -/
def State.serialDone (s : State) (n : Nat) : Bool :=
  ! (s.openReqs.any fun q => q.src = .partner n) && ! (s.near.wb.any fun e => e.waiters.contains (17, n))

/-- The leading serials that are done, and the rest. -/
def State.leading (s : State) : List Nat → Nat × List Nat
  | [] => (0, [])
  | n :: ns => if s.serialDone n then (let r := s.leading ns; (r.1 + 1, r.2)) else (0, n :: ns)

/-- Bring MACK.COUNT and RACK.COUNT up to date. -/
def State.countApplied (s : State) : State :=
  let m := s.leading s.slv.rx.mwrs
  let p := s.leading s.slv.rx.pages
  s.modRx fun x => { x with
    mwrs := m.2, macks := (x.macks + m.1) % 2 ^ 32, pages := p.2, racks := (x.racks + p.1) % 2 ^ 32 }

/-- Packets of classes C1 to C3 apply: IDE is active and the session stands; after a PF_NOTICE they still do (R461). -/
def State.slvApplies (s : State) : Bool := s.slv.l0 && s.slv.ide && s.slv.pair ≠ .off && s.slv.pair ≠ .seek

/-- MWR: a DEV_WR of the masked bytes in window mreg, or discarded where the window is not that of a source. -/
def State.takeMwr (s : State) (mreg offset : Nat) (full gap : Bool) (prio : Nat) (mask : Mask) (data : Line) : State :=
  if ! s.slvApplies || s.vlt.stopped then s
  else
    let n := s.slv.rx.serial
    let r := s.region mreg
    let s1 := s.modRx fun x => { x with serial := n + 1, mwrs := x.mwrs ++ [n] }
    if ! (r.isMirror && (s.slvRgn mreg).mst ≠ 5 && decide (offset / 64 < r.size * 32768)) then
      (s1.note ⟨1, 0x33, mreg, none⟩).countApplied
    else
      let s2 := if gap then s1.modSlv mreg fun x => { x with complete := false, mst := 2 } else s1
      (s2.route { src := .partner n, kind := .devWr, line := r.base * 32768 + offset / 64, data := data
                  mask := if full then fullMask else mask, be := prio = 1 }).countApplied

/-- MACK (R460): it counts leading mirrored writes of the session. -/
def State.takeMack (s : State) (count health : Nat) (w : Bool) : State :=
  if ! s.slvApplies then s
  else
    let k := (count + 2 ^ 32 - s.slv.mackCount) % 2 ^ 32
    let done := (s.slv.sent.take k).map fun m => m.id
    let s1 : State := { s with
      slv := { s.slv with peerHealth := health, peerWithhold := w, mackCount := count, sent := s.slv.sent.drop k }
      rng := { s.rng with seals := s.rng.seals.map fun x =>
        if (x.mwrs.any fun i => done.contains i) then
          { x with mwrs := x.mwrs.filter fun i => ! done.contains i, health := decide (health = 0) }
        else x } }
    s1.checkSeals.tryRdones

/-! ### Resync packets (R466) -/

/-- A region whose pages arrive: a MIRROR window with its source, or a source region that a return writes. -/
def State.receivesPages (s : State) (n : Nat) : Bool :=
  ((s.region n).isMirror && (s.slvRgn n).mst ≠ 5) || ((s.region n).isSource && (s.slvRgn n).mst = 7)

/-- RPAGE: 64 full-line writes; the first of a session clears COMPLETE and sets MSTATE as RMAP gave it. -/
def State.takeRpage (s : State) (mreg form page session : Nat) (data : List (Nat × Line)) : State :=
  if ! s.slvApplies || s.vlt.stopped then s
  else if session ≠ s.slv.session then s.note ⟨1, 0x35, 0x30, none⟩
  else
    let n := s.slv.rx.serial
    let r := s.region mreg
    let s1 := s.modRx fun x => { x with serial := n + 1, pages := x.pages ++ [n] }
    if ! (s.receivesPages mreg && decide (page < r.size * 512)) then (s1.note ⟨1, 0x33, mreg, none⟩).countApplied
    else
      let s2 := s1.modSlv mreg fun x => { x with
        complete := false, fresh := false
        mst := if x.fresh && r.isMirror && (x.peerMst = 1 || x.peerMst = 2 || x.peerMst = 7) then x.peerMst else x.mst }
      let line := fun (i : Nat) => ((data.find? fun e => e.1 = i).map fun e => e.2).getD 0
      ((List.range 64).foldl (fun (s : State) i =>
        s.route { src := .partner n, kind := .devWr, line := (r.base * 512 + page) * 64 + i
                  data := if form = 0 then line i else 0, mask := fullMask, poison := form = 2, be := true, low := 5 }) s2).countApplied

/-- RDONE: the window is SYNC and COMPLETE; a source region that was HELD is returned. -/
def State.takeRdone (s : State) (mreg session : Nat) : State :=
  if ! s.slvApplies || s.vlt.stopped then s
  else if session ≠ s.slv.session then s.note ⟨1, 0x35, 0x31, none⟩
  else
    let n := s.slv.rx.serial
    let s1 := s.modRx fun x => { x with serial := n + 1, pages := x.pages ++ [n] }
    if ! s.receivesPages mreg then (s1.note ⟨1, 0x33, mreg, none⟩).countApplied
    else (s1.modSlv mreg fun x => { x with
      mst := 3, complete := true, held := false, div := if (s.region mreg).isSource then 0 else x.div }).countApplied

/-- RACK counts one packet: a page lets the writes behind it go, RDONE ends the resync or the return. -/
def State.racked (s : State) (p : Nat × Option Nat) : State :=
  match p.2 with
  | some pn => s.unpark p.1 pn
  | none =>
    if (s.region p.1).isSource then
      s.modSlv p.1 fun x => { x with mst := 3, div := 0, copyNext := none, rdone := false }
    else
      ((s.modRegion p.1 fun r => { r with attr := putFld r.attr 12 3 4 }).modSlv p.1 fun x => { x with
        mst := 3, complete := true, copyNext := none, rdone := false }).sendRmap

/-- RACK (R465, R466, R469). -/
def State.takeRack (s : State) (count : Nat) : State :=
  if ! s.slvApplies then s
  else
    let k := (count + 2 ^ 32 - s.slv.rackCount) % 2 ^ 32
    let done := s.slv.pagesOut.take k
    let s1 : State := { s with slv := { s.slv with rackCount := count, pagesOut := s.slv.pagesOut.drop k } }
    (done.foldl (fun (s : State) p => s.racked p) s1).tryRdones

/-! ### Packet commands: a packet that the class parser hands over -/

/-- HELLO. -/
def execHello (p : HelloPacket) (s : State) : Host.Outcome State Fault Refusal := run (fun s => s.takeHello p) s
/-- SESSION. -/
def execSession (value : Nat) (s : State) : Host.Outcome State Fault Refusal := run (fun s => s.takeSession value) s
/-- RMAP. -/
def execRmap (entries : List RmapEntry) (s : State) : Host.Outcome State Fault Refusal := run (fun s => s.takeRmap entries) s
/-- HEALTH. -/
def execHealth (health : Nat) (withhold : Bool) (s : State) : Host.Outcome State Fault Refusal :=
  run (fun s => s.takeHealth health withhold) s
/-- PF_NOTICE. -/
def execPfNotice (s : State) : Host.Outcome State Fault Refusal := run (fun s => s.takePfNotice) s
/-- FALLBACK (R455): the partner's receiver asks for XOFF mode. -/
def execFallback (s : State) : Host.Outcome State Fault Refusal :=
  run (fun s => s.when s.slv.l0 fun s => { s with slv := { s.slv with fbTx := true } }) s
/-- TAKEN. -/
def execTaken (region : Nat) (s : State) : Host.Outcome State Fault Refusal := run (fun s => s.takeTaken region) s
/-- RETURN. -/
def execReturnPkt (region : Nat) (s : State) : Host.Outcome State Fault Refusal := run (fun s => s.takeReturn region) s
/-- MWR. -/
def execMwr (mreg offset : Nat) (full gap : Bool) (prio : Nat) (mask : Mask) (data : Line) (s : State) :
    Host.Outcome State Fault Refusal := run (fun s => s.takeMwr mreg offset full gap prio mask data) s
/-- MACK. -/
def execMack (count health : Nat) (withhold : Bool) (s : State) : Host.Outcome State Fault Refusal :=
  run (fun s => s.takeMack count health withhold) s
/-- RACK. -/
def execRack (count : Nat) (s : State) : Host.Outcome State Fault Refusal := run (fun s => s.takeRack count) s
/-- RPAGE. -/
def execRpage (mreg form page session : Nat) (data : List (Nat × Line)) (s : State) : Host.Outcome State Fault Refusal :=
  run (fun s => s.takeRpage mreg form page session data) s
/-- RDONE. -/
def execRdone (mreg session : Nat) (s : State) : Host.Outcome State Fault Refusal :=
  run (fun s => s.takeRdone mreg session) s
/-- UNDEFINED_PACKET (R450): discarded by its LEN, with a notice. -/
def execUndefinedPacket (type _len : Nat) (s : State) : Host.Outcome State Fault Refusal :=
  run (fun s => s.when s.slv.l0 fun s => s.note ⟨1, 0x35, type % 256, none⟩) s

/-- A packet taken from a class stream. SPDM messages go on to the session, whose end is a command of its own. -/
def State.takePacket (s : State) (p : Packet) : State :=
  match p with
  | .hello p => s.takeHello p
  | .spdm => s
  | .session v => s.takeSession v
  | .rmap es => s.takeRmap es
  | .health h w => s.takeHealth h w
  | .pfNotice => s.takePfNotice
  | .fallback => { s with slv := { s.slv with fbTx := true } }
  | .taken n => s.takeTaken n
  | .ret n => s.takeReturn n
  | .mwr m o f g p k d => s.takeMwr m o f g p k d
  | .mack c h w => s.takeMack c h w
  | .rack c => s.takeRack c
  | .rpage m f p v d => s.takeRpage m f p v d
  | .rdone m v => s.takeRdone m v
  | .undefined t => s.note ⟨1, 0x35, t, none⟩

/-! ### Buffers and credits (R454, R455) -/

/-- Flit buffers that class c holds: out of order, delivered and not consumed, or kept back (R339). -/
def SlvRx.held (x : SlvRx) (c : Nat) : Nat :=
  (x.buf.filter fun b => b.2.1 = c).length + (x.left.get [] c).length + (if c = 1 then x.kept else 0)

/-- Return one freed buffer of class c: shared while the class still holds its minimum or more. -/
def SlvRx.giveBack (x : SlvRx) (c : Nat) : SlvRx :=
  let k := if classMin c ≤ x.held c then 4 else c
  { x with returned := x.returned.set 0 k ((x.returned.get 0 k + 1) % 4096) }

/-- Take n consumed words off the delivered flits; the flits that are empty then, and the rest. -/
def eatWords : Nat → List Nat → Nat × List Nat
  | _, [] => (0, [])
  | n, w :: ws => if w ≤ n then (let r := eatWords (n - w) ws; (r.1 + 1, r.2)) else (0, (w - n) :: ws)

/-- n words of class c have been consumed. C1 buffers are kept back while hold is true (R339, R349). -/
def SlvRx.consume (x : SlvRx) (hold : Bool) (c n : Nat) : SlvRx :=
  let r := eatWords n (x.left.get [] c)
  let y : SlvRx := { x with left := x.left.set [] c r.2 }
  if c = 1 && hold then { y with kept := y.kept + r.1 }
  else (List.range r.1).foldl (fun (y : SlvRx) _ => y.giveBack c) y

/-- Buffers kept back go back once withholding is over. -/
def SlvRx.release (x : SlvRx) : SlvRx :=
  (List.range x.kept).foldl (fun (y : SlvRx) _ => ({ y with kept := y.kept - 1 } : SlvRx).giveBack 1) x

/-- This receiver keeps MIRROR-class credits back. -/
def State.keepsCredits (s : State) : Bool := s.rsv.withhold || s.vlt.stopped

/-- Missing SEQs of those known to have been sent, as distances from the next one expected. -/
def SlvRx.missing (x : SlvRx) : List Nat :=
  (List.range x.ahead).filter fun i => ! (x.buf.any fun b => b.1 = (x.next + i) % 4096)

/-- The XOFF threshold (R455). -/
def SlvRx.xoff (x : SlvRx) (headroom : Nat) : SlvRx :=
  let used := ((List.range 4).map fun c => x.held c).sum + x.missing.length
  let free := 1536 - used
  { x with xoffOut := if free ≤ headroom + 128 then true else if headroom + 256 ≤ free then false else x.xoffOut }

/-- Update XOFF_OUT. -/
def State.slvThreshold (s : State) : State :=
  s.modRx fun x => if s.slv.fbRx then x.xoff s.slv.headroom else { x with xoffOut := false }

/-- Parse whole packets off the stream of class c; the first argument bounds their number. -/
def State.parse : Nat → Nat → State → State
  | 0, _, s => s
  | k + 1, c, s =>
    let ws := s.slv.rx.stream.get [] c
    match ws with
    | [] => s
    | w :: _ =>
      let n := pktLen w
      if ws.length < n then s
      else
        let s1 := s.modRx fun x =>
          ({ x with stream := x.stream.set [] c (ws.drop n) } : SlvRx).consume s.keepsCredits c n
        State.parse k c (s1.takePacket (packetOf c (ws.take n)))

/-- Deliver kept flits in SEQ order (R447); the first argument bounds their number. -/
def State.deliver : Nat → State → State
  | 0, s => s
  | k + 1, s =>
    match s.slv.rx.buf.find? fun b => b.1 = s.slv.rx.next with
    | none => s
    | some b =>
      let c := b.2.1
      let s1 := s.modRx fun x => { x with
        next := (x.next + 1) % 4096, ahead := x.ahead - 1
        buf := x.buf.filter fun y => y.1 ≠ b.1
        stream := x.stream.set [] c (x.stream.get [] c ++ b.2.2)
        left := x.left.set [] c (x.left.get [] c ++ [b.2.2.length]) }
      State.deliver k (State.parse (s1.slv.rx.stream.get [] c).length c s1)

/-! ### Headers of good flits (R447 to R449, R454, R455) -/

/-- SEQs that a NAK names. -/
def nakSeqs (h : FlitHeader) : List Nat :=
  if h.nv then h.nseq :: (bitsOf h.nmap).map fun i => (h.nseq + 1 + i) % 4096 else []

/-- The transmitter takes what a good header brings: ACK, NAK, credits and XOFF. -/
def State.takeHeader (s : State) (h : FlitHeader) : State :=
  let named := nakSeqs h
  let s1 := if h.nv then s.count (evSlv 2) 1 else s
  let cs := [(0, h.cc0), (1, h.cc1), (2, h.cc2), (3, h.cc3), (4, h.ccs)]
  s1.modTx fun t =>
    let t1 := cs.foldl (fun (t : SlvTx) e =>
      { t with
        credits := t.credits.set 0 e.1 (t.credits.get 0 e.1 + (e.2 + 4096 - t.seen.get 0 e.1) % 4096)
        seen := t.seen.set 0 e.1 (e.2 % 4096) }) t
    let live := t1.replay.filter fun f => ! decide ((h.ack + 4096 - f.seq) % 4096 < 2048)
    { t1 with
      replay := live.map fun f => if named.contains f.seq && decide (f.sentAt + 2400 ≤ s.clock) then { f with ask := true } else f
      xoff := h.xoff
      sent0 := if h.xoff then t1.sent0 else 0, sent2 := if h.xoff then t1.sent2 else 0 }

/-- A SEQ at distance d from the next one expected is known to have been sent. -/
def SlvRx.know (x : SlvRx) (seq : Nat) : SlvRx :=
  let d := (seq + 4096 - x.next) % 4096
  if d < 2048 then { x with ahead := max x.ahead (d + 1) } else x

/-- DATA_FLIT (R445 to R447): words and payload as the FEC and IDE give them. A flit that fails its CRC is discarded whole;
an integrity failure takes the link out of L0, and the next training sets new keys. -/
def execDataFlit (hdr : FlitHeader) (payload : List Word) (crcOk macOk : Bool) (s : State) :
    Host.Outcome State Fault Refusal :=
  run (fun s => s.when (s.slv.l0 && decide (hdr.cls < 4)) fun s =>
    if ! crcOk then s.count (evSlv 3) 1
    else if s.slv.ide && ! macOk then
      let s1 := s.slvLeaveL0
      { s1 with slv := { s1.slv with ide := false, recovering := false, detected := false } }
    else
      let s1 := s.takeHeader hdr
      let x := s1.slv.rx
      let d := (hdr.seq + 4096 - x.next) % 4096
      if 2048 ≤ d || (x.buf.any fun b => b.1 = hdr.seq % 4096) then s1
      else
        let s2 := s1.modRx fun x =>
          ({ x with buf := x.buf ++ [(hdr.seq % 4096, hdr.cls, payload.take (min 26 hdr.words))] } : SlvRx).know hdr.seq
        (State.deliver s2.slv.rx.buf.length s2).slvThreshold) s

/-- NULL_FLIT (R447): SEQ is that of the last DATA flit sent. -/
def execNullFlit (hdr : FlitHeader) (crcOk : Bool) (s : State) : Host.Outcome State Fault Refusal :=
  run (fun s => s.when s.slv.l0 fun s =>
    if ! crcOk then s.count (evSlv 3) 1
    else ((s.takeHeader hdr).modRx fun x => x.know hdr.seq).slvThreshold) s

/-- SLV_XOFF_IN (R455). -/
def execSlvXoffIn (level : Bool) (s : State) : Host.Outcome State Fault Refusal :=
  run (fun s =>
    let s1 : State := { s with slv := { s.slv with xoffPin := level } }
    if s1.slv.obeys then s1 else s1.modTx fun t => { t with sent0 := 0, sent2 := 0 }) s

/-! ### The flit builder (R447 to R452) -/

/-- Queue MACK, RACK and HEALTH packets that have changed. After admission stop nothing more than the final MACK goes out in
C2 (R470). -/
def State.queueAcks (s : State) : State :=
  if ! s.slvApplies then s
  else
    let s0 := s.countApplied
    let st := atBit (s0.rsv.health % 8) 32 ||| atFlag s0.rsv.withhold 35
    let s1 := if s0.slv.rx.macks ≠ s0.slv.tx.sentMack && ! s0.slv.stopMack && s0.slvRoom 2 2 then
        (s0.slvPush 2 (pkt 0x20 0 [atBit s0.slv.rx.macks 0 ||| st])).modTx fun t => { t with sentMack := s0.slv.rx.macks }
      else s0
    let s2 := if s1.slv.rx.racks ≠ s1.slv.tx.sentRack && ! s1.vlt.stopped && s1.slvRoom 2 2 then
        (s1.slvPush 2 (pkt 0x21 0 [atBit s1.slv.rx.racks 0])).modTx fun t => { t with sentRack := s1.slv.rx.racks }
      else s1
    let h := (s2.rsv.health, s2.rsv.withhold)
    let s3 := if s2.slv.tx.sentHealth ≠ some h && s2.slvRoom 0 2 then
        (s2.slvPush 0 (pkt 0x05 0 [atBit (h.1 % 8) 0 ||| atFlag h.2 3])).modTx fun t => { t with sentHealth := some h }
      else s2
    if s3.keepsCredits then s3 else s3.modRx fun x => x.release

/-- A class may send under flow control. -/
def State.mayFlow (s : State) (c : Nat) : Bool :=
  let t := s.slv.tx
  if s.slv.fbTx then
    ! s.slv.obeys || (c = 0 && decide (t.sent0 < 64)) || (c = 2 && decide (t.sent2 < 64))
  else t.credits.get 0 c ≠ 0 || t.credits.get 0 4 ≠ 0

/-- A class is eligible: it may send and holds words. Classes C1 to C3 wait for IDE (R445). -/
def State.eligible (s : State) (c : Nat) : Bool :=
  (c = 0 || s.slv.ide) && ! (s.slv.tx.fifo.get [] c).isEmpty && s.mayFlow c && decide (s.slv.tx.replay.length < 2048)

/-- The class that sends next: C0, C2, C1, C3; with C1 and C3 both eligible C3 takes every eighth flit. -/
def State.nextClass (s : State) : Option Nat :=
  if s.eligible 0 then some 0 else if s.eligible 2 then some 2
  else if s.eligible 1 && s.eligible 3 then (if s.slv.tx.turn % 8 = 7 then some 3 else some 1)
  else if s.eligible 1 then some 1 else if s.eligible 3 then some 3 else none

/-- The header this device sends now. -/
def State.headerNow (s : State) (seq cls words : Nat) : FlitHeader :=
  let x := s.slv.rx
  let m := x.missing
  let r := fun k => x.returned.get 0 k
  { seq := seq, ack := (x.next + 4095) % 4096, cls := cls, xoff := x.xoffOut, words := words
    nseq := match m with | i :: _ => (x.next + i) % 4096 | [] => 0
    nv := ! m.isEmpty
    nmap := match m with
      | i :: t => t.foldl (fun (b : BitVec 16) j => if j - i - 1 < 16 then putBit b (j - i - 1) true else b) 0
      | [] => 0
    cc0 := r 0, cc1 := r 1, cc2 := r 2, cc3 := r 3, ccs := r 4 }

/-- The words of a flit with its payload: encrypted and authenticated once IDE is active (R445). -/
def State.flitOut (s : State) (h : FlitHeader) (kind : Nat) (payload : List Word) : List Word :=
  let h0 := flitH0 h kind
  let h1 := flitH1 h
  let c := Config.slvCipher s.slv.tx.nonce (h0 :: h1 :: payload)
  if s.slv.ide && kind = 0 then flitWords h0 h1 ((List.range 26).map c) [c 26, c 27] else flitWords h0 h1 payload [0, 0]

/-- Send a new DATA flit of a class. -/
def State.sendData (s : State) (c : Nat) : State :=
  let t := s.slv.tx
  let ws := (t.fifo.get [] c).take 26
  let out := s.flitOut (s.headerNow t.seq c ws.length) 0 (ws.map Prod.fst)
  let k := if t.credits.get 0 c ≠ 0 then c else 4
  let both := s.eligible 1 && s.eligible 3
  ((s.modTx fun t => { t with
    fifo := t.fifo.set [] c ((t.fifo.get [] c).drop 26)
    seq := (t.seq + 1) % 4096
    replay := t.replay ++ [{ seq := t.seq, cls := c, words := out, sentAt := s.clock }]
    credits := if s.slv.fbTx then t.credits else t.credits.set 0 k (t.credits.get 0 k - 1)
    sent0 := if s.slv.obeys && c = 0 then t.sent0 + 1 else t.sent0
    sent2 := if s.slv.obeys && c = 2 then t.sent2 + 1 else t.sent2
    turn := if both && (c = 1 || c = 3) then t.turn + 1 else t.turn
    nonce := if s.slv.ide then t.nonce + 1 else t.nonce }).count (evSlv 0) 1).emit (.flit out)

/-- Resend a flit exactly as it was first sent; a flit resent 4 times without acknowledgement starts Recovery (R444). -/
def State.resend (s : State) (f : SlvFlit) : State :=
  if 4 ≤ f.resent then s.slvLeaveL0
  else
    ((s.modTx fun t => { t with replay := t.replay.map fun x =>
      if x.seq = f.seq then { x with ask := false, sentAt := s.clock, resent := x.resent + 1 } else x }).count
        (evSlv 1) 1).emit (.flit f.words)

/-- The flit time in FCLK: 2,048 bits at the link's width and rate (R442). -/
def Slv.flitTime (x : Slv) : Nat := 128 / 2 ^ (x.rate + x.width)

/-- FLIT_BUILD (R452): one flit, a flit time after the last. -/
def execFlitBuild (s : State) : Host.Outcome State Fault Refusal :=
  run (fun s => s.when s.slv.l0 fun s0 =>
    let s := s0.elapse (s0.slv.tx.builtAt + s0.slv.flitTime)
    let s1 := ((s.modTx fun t => { t with builtAt := s.clock }).queueAcks.pushWaiting).slvThreshold
    match s1.slv.tx.replay.find? fun f => f.ask with
    | some f => s1.resend f
    | none =>
      match s1.nextClass with
      | some c => s1.sendData c
      | none => s1.emit (.flit (s1.flitOut (s1.headerNow ((s1.slv.tx.seq + 4095) % 4096) 0 0) 1 []))) s

/-- RETX_TIMEOUT (R449): 4 us after a flit was last sent. -/
def execRetxTimeout (seq : Nat) (s : State) : Host.Outcome State Fault Refusal :=
  run (fun s =>
    match s.slv.tx.replay.find? fun f => f.seq = seq with
    | some f =>
      s.when s.slv.l0 fun s =>
        (s.elapse (f.sentAt + 8000)).modTx fun t => { t with replay := t.replay.map fun x =>
          if x.seq = seq then { x with ask := true } else x }
    | none => s) s

end Sys2Proof.Machine
end

