-- ==== Sys2Proof/Machine/Keys.lean ====
section
/-! DEFINITION. Slot commands (R497, R501, R504, R505): GENERATE, ERASE and their end. -/
namespace Sys2Proof.Machine

/-! ### Derived keys and tweaks (R498, R499) -/

/-- The XTS data key and the XTS tweak key of a derived key of 64 bytes. -/
def xtsKeys (k : List (BitVec 8)) : List (BitVec 8) × List (BitVec 8) := (k.take 32, k.drop 32)

/-- The key of slot k (R498), label HTHR-SLOT; none while the slot is EMPTY or no BKEK is there. -/
def State.slotKey (s : State) (k : Nat) : Option (List (BitVec 8) × List (BitVec 8)) :=
  match s.sec.bkek, s.sec.salts.get 0 k with
  | some b, salt =>
    if salt = 0 then none
    else some (xtsKeys (kdf b [0x48, 0x54, 0x48, 0x52, 0x2D, 0x53, 0x4C, 0x4F, 0x54]
      (bytesLittle 2 k ++ bytesLittle 4 salt.toNat ++ bytesLittle 8 s.beam.setId.toNat)))
  | none, _ => none

/-- The map key (R498), label HTHR-MAP. -/
def State.mapKey (s : State) : Option (List (BitVec 8) × List (BitVec 8)) :=
  s.sec.bkek.map fun b => xtsKeys (kdf b [0x48, 0x54, 0x48, 0x52, 0x2D, 0x4D, 0x41, 0x50] (bytesLittle 8 s.beam.setId.toNat))

/-- An XTS tweak (R499): ADDR in bits 39:0, DOMAIN in bits 127:120. -/
def xtsTweak (domain addr : Nat) : BitVec 128 := BitVec.ofNat 128 (domain * 2 ^ 120 + addr % 2 ^ 40)

/-- The tweaks of a line of a DRAM frame, of a payload sector of a beam record, and of a sector of a spill data LBA (R499). -/
def dramTweak (frame line : Nat) : BitVec 128 := xtsTweak 1 (frame * 64 + line)
/-- See dramTweak. -/
def beamTweak (addr : Nat) : BitVec 128 := xtsTweak 2 addr
/-- See dramTweak. -/
def spillTweak (record sector : Nat) : BitVec 128 := xtsTweak 3 (record * 8 + sector)

/-- The next draw of the random generator, of which keys and salts are made (R501, R506). -/
def State.draw (s : State) : BitVec 256 × State :=
  (Config.draw s.sec.draws, { s with sec := { s.sec with draws := s.sec.draws + 1 } })

/-- A new salt from a draw: nonzero and other than the slot's previous one (R501). -/
def newSalt (d : BitVec 256) (old : BitVec 32) : BitVec 32 :=
  let x := d.setWidth 32
  if x ≠ 0 ∧ x ≠ old then x else if old = 1 then 2 else 1

/-- An ACTIVE entry names a slot (R504). -/
def State.slotNamed (s : State) (k : Nat) : Bool :=
  s.regions.any fun e => e.2.active && (e.2.mapped || e.2.window = 2) && e.2.key = k

/-- Units bound with a key. -/
def State.unitsOf (s : State) (k : Nat) : List Nat :=
  s.map.units.keysWhere fun _ u => u.bound && decide (u.bkey = k)

/-- A swatch's region holds one of the units. -/
def State.swatchOver (s : State) (us : List Nat) (w : Swatch) : Bool :=
  let r := s.region w.region
  w.st ≠ .free && us.any fun u => decide (r.base ≤ u) && decide (u < r.base + r.size)

/-- Step 1 of ERASE (R504): the units become ZERO and UNBOUND, with their UNIT deltas; their swatches are dropped. -/
def State.eraseUnits (s : State) (k : Nat) : State :=
  let us := s.unitsOf k
  let s1 := (s.map.swatches.keysWhere fun _ w => s.swatchOver us w).foldl (fun (s : State) i => s.dropSwatch i) s
  let s2 := s1.zeroUnits fun u => us.contains u
  us.foldl (fun (s : State) u => (s.modUnit u fun _ => {}).delta (.unit u false {})) s2

/-- A running ERASE does its first step, unless admission has stopped (R505). -/
def State.eraseGo (s : State) : State :=
  match s.sec.cmd with
  | some k =>
    if k.op = 2 && ! k.zeroed && ! s.vlt.stopped then
      let s1 := s.eraseUnits k.slot
      { s1 with sec := { s1.sec with cmd := some { k with zeroed := true } } }
    else s
  | none => s

/-- A slot command ends at once with a result. -/
def State.keyResult (s : State) (result slot : Nat) : State :=
  { s with sec := { s.sec with result := result, slot := slot } }

/-- A write to SEC_KEY_CMD (R504, R505): op 1 GENERATE, 2 ERASE, any other none. Without a beam there is no superblock to
write, and both report REFUSED. -/
def State.keyCommand (s : State) (op slot : Nat) : State :=
  if op ≠ 1 ∧ op ≠ 2 then s
  else if s.sec.cmd.isSome || s.sec.sanitizing.isSome then s.keyResult 3 slot
  else if s.beam.setId = 0 || (op = 1 && s.keyLoaded slot) || (op = 2 && (! s.keyLoaded slot || s.slotNamed slot)) then
    s.keyResult 2 slot
  else ({ s with sec := { s.sec with cmd := some { op := op, slot := slot } } } : State).eraseGo

/-- GENERATE. -/
def execGenerate (src slot : Nat) (s : State) : Host.Outcome State Fault Refusal :=
  run (fun s => s.globalWrite src (regArgInd 0x90000) fun s => s.keyCommand 1 (slot % 256)) s

/-- ERASE. -/
def execErase (src slot : Nat) (s : State) : Host.Outcome State Fault Refusal :=
  run (fun s => s.globalWrite src (regArgInd 0x90000) fun s => s.keyCommand 2 (slot % 256)) s

/-- Both superblock copies are written, in two SBGEN steps (R281, R501). -/
def State.twoSupers (s : State) : State := (s.writeSuper []).writeSuper []

/-- A salt is written to SRAM and, in two SBGEN steps, to the superblocks (R501). -/
def State.putSalt (s : State) (slot : Nat) (salt : BitVec 32) : State :=
  ({ s with sec := { s.sec with
      salts := s.sec.salts.set 0 slot salt, wrap := { s.sec.wrap with salts := s.sec.wrap.salts.set 0 slot salt } } }
    : State).twoSupers

/-- SEC_KEY_CMD_COMPLETE (R505): the superblocks are written; an ERASE needs its commit in force, and waits from admission
stop on. -/
def execSecKeyCmdComplete (s : State) : Host.Outcome State Fault Refusal :=
  run (fun s =>
    match s.sec.cmd with
    | none => s
    | some k =>
      let done := fun (s : State) => ({ s with sec := { s.sec with cmd := none } } : State).keyResult 1 k.slot
      if k.op = 1 then
        done (s.draw.2.putSalt k.slot (newSalt s.draw.1 (s.sec.salts.get 0 k.slot)))
      else if k.committed && ! s.vlt.stopped then done (s.putSalt k.slot 0)
      else s) s

end Sys2Proof.Machine
end

