-- ==== Sys2Proof/Machine/Reset.lean ====
section
/-! DEFINITION. What a reset leaves (R564 to R569, R576, R577): what the boot flash and the drives keep, supply-good with
its straps and records, and the restart of a device soft reset. -/
namespace Sys2Proof.Machine

/-! ### What survives -/

/-- The commit record that the drives hold: one whose copies were still on their way may have reached them or not; a
free value says which. -/
def State.survivingCommit (s : State) : Option Commit × State :=
  match s.beam.commitOut with
  | some o =>
    let x := s.fresh
    (if flag x.1 0 then some o.record else s.beam.commit, x.2)
  | none => (s.beam.commit, s)

/-- What the drives hold: superblock, segments with their confirmed records, and the newest commit record. -/
def Beam.drives (b : Beam) (c : Option Commit) : Beam :=
  { sbgen := b.sbgen, formed := b.formed, retired := b.retired, pageCap := b.pageCap, segments := b.segments
    degSeq := b.degSeq, fmtRev := b.fmtRev, commit := c
    segs := b.segs.mapVals {} fun _ g => if g.st = .opened then { g with st := .full } else g
    recs := b.recs.mapVals none fun _ r => match r with
      | some x => if x.confirmed then some { x with purpose := .none } else none
      | none => none }

/-- A channel that the retirement record names is retired (R214, R569). -/
def Boot.channels (b : Boot) : Tbl Channel :=
  (bitsOf b.retCh).foldl (fun (t : Tbl Channel) m => t.set {} m { retired := true }) []

/-- The device with everything volatile gone: boot flash, drives and their wrapped keys stay. TRAIN_FULL as the running device
left it counts at the next cold reset alone (R216). -/
def State.powerOff (s : State) : State :=
  let c := s.survivingCommit
  { freeIdx := c.2.freeIdx, pending := s.pending, out := s.out, boot := s.boot
    pins := { thermTrip := s.pins.thermTrip }
    beam := s.beam.drives c.1
    dram := { ch := s.boot.channels, fullNext := if s.on then flag s.dram.ctl 16 else s.dram.fullNext }
    sec := { wrap := s.sec.wrap, draws := s.sec.draws } }

/-- RESET# takes effect (R564): outputs at their reset levels, nothing runs. -/
def State.resetNow (s : State) : State := s.powerOff

/-- RESET# that is still asserted when HOLD_EN deasserts takes effect then (R565). -/
def State.resetPending (s : State) : State := if s.pins.reset then s.resetNow else s

/-! ### Starting -/

/-- Heads that the straps give (R566). -/
def strapHeads (x : Straps) : BitVec 16 :=
  BitVec.ofNat 16 (((List.range 16).filter fun h =>
    x.portEn.getLsbD (h / 2) && (h % 2 = 0 || x.bifur.getLsbD (h / 2))).foldl (fun a h => a + 2 ^ h) 0)

/-- The management head that the straps give (R80, R566). -/
def strapMgmt (x : Straps) : Nat :=
  let p := strapHeads x
  if p.getLsbD (x.mgmt % 16) then x.mgmt % 16 else ((bitsOf p).head?).getD (x.mgmt % 16)

/-- The registers of the board record and of the reserve record (R569, R570): with no board record they read 0 and the
BOARD cause stands. -/
def State.loadRecords (s : State) : State :=
  let r := s.rsv
  let s1 : State := match s.boot.board with
    | some b => { s with
        rsv := { r with bank := Trw.all b.bank, flush := Trw.all b.flush, sense := Trw.all b.sense }
        vlt := { s.vlt with floor := Trw.all b.floor } }
    | none => { s with rsv := { r with fcause := putBit r.fcause 4 true } }
  { s1 with rsv := { s1.rsv with
    test := newestOf false s.boot.ring, charge := newestOf true s.boot.ring
    lastTest := (newestOf false s.boot.ring).map fun e => e.opmin, bootMin := s.boot.opmin } }

/-- Near-cache ways that waited as scratch ways for their retirement are retired at a cold reset (R136). -/
def State.retireScratch (s : State) : State :=
  (bitsOf s.boot.pendNc).foldl (fun (s : State) u => s.ncWayGone (u / 16) (u % 16) 0) s

/-- A list without the entries at the positions named. -/
def withoutBad {α : Type} (l : List α) (bad : List Nat) : List α :=
  ((l.mapIdx fun i x => (i, x)).filter fun e => ! bad.contains e.1).map Prod.snd

/-- The board record in force: the copy with the highest GEN of those that pass their CRC (R568). -/
def newestBoard (bs : List Board) : Option Board :=
  bs.foldl (fun (b : Option Board) x => match b with
    | some y => if y.gen < x.gen then some x else some y
    | none => some x) none

/-- The records that the device reads from the boot flash (R568, R569): of each the newest copy, where that fails its CRC the other, and
where both fail what the table of R569 gives. -/
def Boot.readRecords (b : Boot) (x : FlashReport) : Boot :=
  let failed (k : Nat) : Bool := x.bad.getLsbD (2 * k)
  let both (k : Nat) : Bool := failed k && x.bad.getLsbD (2 * k + 1)
  let b0 := if both 0 then { b with setId := 0, custodian := none }
    else if failed 0 then { b with setId := b.old.setId, custodian := b.old.custodian } else b
  let b1 := if both 1 then { b0 with retRanks := 0, retCh := 0, retNc := 0, pendNc := 0, retSf := 0, retTiles := 0 }
    else if failed 1 then { b0 with
      retRanks := b.old.retRanks, retCh := b.old.retCh, retNc := b.old.retNc, pendNc := b.old.pendNc
      retSf := b.old.retSf, retTiles := b.old.retTiles }
    else b0
  { b1 with
    board := newestBoard x.boards
    ring := withoutBad b.ring x.badTests
    life := withoutBad b.life x.badLife
    commit := if both 2 then none else if failed 2 then b.old.commit else b.commit
    pair := if both 3 then none else if failed 3 then b.old.pair else b.pair
    ledger := if both 4 then none else if failed 4 then b.old.ledger else b.ledger }

/-- OPMIN resumes from the newest life-ring entry and CYCLES is that entry's count plus 1; both start at 0 where there is none (R568, R569).
A cold reset writes an entry (R567). -/
def Boot.resumeLife (b : Boot) : Boot :=
  (match b.life with
    | e :: _ => { b with opmin := e.1, cycles := (e.2 + 1) % 2 ^ 24 }
    | [] => { b with opmin := 0, cycles := 0 }).addLife

/-- The firmware image that starts the steward (R571): of those whose signature verifies and whose SVN is at or above the fused floor, the
one with the highest SVN, then the highest version. -/
def bootImage (images : List ImageReport) : Option ImageReport :=
  (images.filter fun i => i.verifies && decide (Config.svnFloor ≤ i.svn)).foldl (fun (b : Option ImageReport) i => match b with
    | some y => if y.svn < i.svn || (y.svn = i.svn && decide (y.version < i.version)) then some i else some y
    | none => some i) none

/-- The sequence from supply-good (R564, R566 to R569, R571): straps sampled, records read, OPMIN resumed, CYCLES raised, and the steward
started from the image that passes the boot ROM's checks. -/
def State.supplyGood (s : State) (straps : Straps) (flash : FlashReport) : State :=
  let s0 := State.powerOff { s with boot := s.boot.readRecords flash }
  let image := bootImage flash.images
  ({ s0 with
    on := true
    pins := { reset := false, goodAt := s0.clock }
    glb := { straps := straps, present := strapHeads straps, steward := image.isSome, image := image
             mgmtHead := Trw.all (atBit (strapMgmt straps) 0) }
    boot := s0.boot.resumeLife } : State).loadRecords.retireScratch

/-- BREFCLK is driven from the lock of the PLLs, 40 ms after supply-good (R595). -/
def State.brefclk (s : State) : Bool := s.on && decide (s.pins.goodAt + 80000000 ≤ s.clock)

/-- BPERST#[k] is asserted until 100 ms after that; a flush leaves it deasserted (R595). -/
def State.bperst (s : State) (_k : Nat) : Bool := ! (s.on && decide (s.pins.goodAt + 280000000 ≤ s.clock))

/-- IDCODE of the test port (R598): version 1, part 0x9064, manufacturer field 0x5D7. -/
def idcode : BitVec 32 := 0x19064BAF

/-- The instruction that the test port executes (R598): while RESET# is deasserted, any but BYPASS and IDCODE is BYPASS. -/
def State.tapInstr (s : State) : TapInstr :=
  if s.pins.reset || s.pins.jtag = .idcode then s.pins.jtag else .bypass

/-- What a device soft reset leaves of a head: the link with its configuration space, decoders and IDE, and the brake
(R576). -/
def Head.softReset (x : Head) : Head :=
  { link := { x.link with ctl := ({} : Link).ctl, memOff := true, eqFails := 0, no128 := false }
    func := { x.func with
      events := [], eventsOver := false, nextHandle := 1, policy := ({} : Func).policy, msix := [], errors := [] }
    brake := x.brake }

/-- What a device soft reset leaves of a channel: its training (R576). -/
def Channel.softReset (c : Channel) : Channel :=
  { ranks := c.ranks, ranksRet := c.ranksRet, retired := c.retired, trainedFast := c.trainedFast, inService := c.inService
    row := c.row, dimmGib := c.dimmGib, rankFrames := c.rankFrames, baseline := c.baseline, delays := c.delays }

/-- The restart of a device soft reset (R577): the cold-reset sequence from firmware authentication, with the items kept
that R576 lists. -/
def State.softRestart (s : State) : State :=
  let s0 := s.powerOff
  ({ s0 with
    on := true
    pins := { reset := false, goodAt := s.pins.goodAt }
    glb := { straps := s.glb.straps, present := s.glb.present, steward := s.glb.image.isSome, image := s.glb.image
             mgmtHead := s.glb.mgmtHead }
    ports := { laneRet := s.ports.laneRet }
    heads := s.heads.mapVals {} fun _ x => x.softReset
    vlt := { held := s.vlt.held }
    dram := { ch := s.dram.ch.mapVals {} fun _ c => c.softReset, fullNext := s0.dram.fullNext }
    pmc := { cnt := s.pmc.cnt, ovf := s.pmc.ovf } } : State).loadRecords.retireScratch

end Sys2Proof.Machine
end

