-- ==== Sys2Proof/Machine/Vault.lean ====
section
/-! DEFINITION. Power loss and ride-through (R342 to R360, R368, R369): supply samples, commit, the flush stages and resume;
the steward's watchdog (R16). -/
namespace Sys2Proof.Machine

/-! ### The steward (R16) -/

/-- STEWARD_WATCHDOG_EXPIRE. -/
def execStewardWatchdogExpire (s : State) : Host.Outcome State Fault Refusal :=
  run (fun s => s.when s.glb.steward fun s =>
    let n := s.glb.restarts + 1
    (({ s with glb := { s.glb with steward := false, restarts := n } } : State).count 3 1).note ⟨2, 0x09, n % 65536, none⟩) s

/-- STEWARD_RESTART_DONE: the image that was authenticated at boot runs again. -/
def execStewardRestartDone (s : State) : Host.Outcome State Fault Refusal :=
  run (fun s => s.when (! s.glb.steward && s.glb.restarts ≠ 0) fun s => { s with glb := { s.glb with steward := true } }) s

/-! ### Commit (R342 to R344) -/

/-- A commit with a SOURCE: 1 VIN, 2 PF_IN#, 3 DRILL. Before memory active it starts no flush (R366); during an orderly
shutdown it turns that into a flush (R369); during a flush it changes nothing. -/
def State.commitNowAt (s : State) (source : Nat) : State :=
  if s.vlt.st = .restore then { s with vlt := { s.vlt with source := source } }
  else if s.vlt.st = .shutdownDone then s
  else if s.vlt.orderly then
    { s.count (evVault 3) 1 with
      vlt := { s.vlt with orderly := false, soft := false, hold := true, source := source, braceOn := false }
      rsv := { s.rsv with charging := false } }
  else if s.vlt.st = .run || s.vlt.st = .brace then
    let s := s.abortTest .braceOrCommit
    (({ s.count (evVault 3) 1 with
      vlt := { s.vlt with
        st := .s1, tail := false, hold := true, source := source, braceOn := false, stopAt := s.clock, stage1 := false, stage2 := false
        drained := false, drivesDone := false, written := 0, left := 0, skipScratch := false }
      rsv := { s.rsv with charging := false } } : State).exits (BitVec.allOnes 57))
  else s

/-- Codes of the thresholds (R591). -/
def codeBrace : Nat := 2294
/-- See codeBrace. -/
def codeCommit : Nat := 2171
/-- See codeBrace. -/
def codeRecovery : Nat := 2335

/-- Brace comes into force, outside a flush (R342); a running test is aborted (R327). -/
def State.startBrace (s0 : State) : State :=
  if s0.vlt.st = .run || s0.vlt.st = .restore then
    let s := s0.abortTest .braceOrCommit
    { s with vlt := { s.vlt with braceOn := true, st := if s.vlt.st = .run then .brace else s.vlt.st } }
  else s0

/-- VIN_SAMPLE (R342, R343, R591): every 1 us, a 12-bit code, and whether PF_IN# counts as asserted. -/
def execVinSample (code : Nat) (pfLow : Bool) (s : State) : Host.Outcome State Fault Refusal :=
  run (fun s0 =>
    let s := s0.elapse (s0.vlt.vinAt + 2000)
    let c := code % 4096
    let b := if c < codeBrace then s.vlt.lowBrace + 1 else 0
    let m := if c < codeCommit then s.vlt.lowCommit + 1 else 0
    let ok := decide (codeRecovery ≤ c) && ! pfLow
    let s1 : State := { s with
      vlt := { s.vlt with
      vinAt := s.clock, vin := c * 20000 / 4096, lowBrace := b, lowCommit := m, pfLow := pfLow
      good := if ok then s.vlt.good + 1 else 0, recovered := s.vlt.recovered && ok }
      tap := { s.tap with vinMin := some (min (c * 20000 / 4096) (s.tap.vinMin.getD (c * 20000 / 4096))) } }
    let s2 := if 2 ≤ b && ! s1.vlt.braceOn then s1.startBrace else s1
    if 2 ≤ m then s2.commitNowAt 1 else if pfLow && s.vlt.ctl.fld 2 1 = 1 then s2.commitNowAt 2 else s2) s

/-- RECOVERY (R342): 5 ms of good samples. Brace ends; a WAIT state or a flush may resume. -/
def execRecovery (s : State) : Host.Outcome State Fault Refusal :=
  run (fun s => s.when (decide (5000 ≤ s.vlt.good)) fun s =>
    { s with vlt := { s.vlt with
      recovered := true, braceOn := false, st := if s.vlt.st = .brace then .run else s.vlt.st } }) s

/-- PF_IN_ASSERT (R342, R343): it restarts the recovery timer, and commits while PF_IN_EN is 1. -/
def execPfInAssert (s : State) : Host.Outcome State Fault Refusal :=
  run (fun s =>
    let s1 : State := { s with vlt := { s.vlt with pfLow := true, good := 0, recovered := false } }
    if s.vlt.ctl.fld 2 1 = 1 then s1.commitNowAt 2 else s1) s

/-- DRILL (R368). -/
def execDrill (src : Nat) (s : State) : Host.Outcome State Fault Refusal :=
  run (fun s => s.globalWrite src (regArgBar 0xA000) fun s =>
    if s.vlt.st = .run || s.vlt.st = .brace then s.commitNowAt 3 else s) s

/-- Start an orderly shutdown (R369): no HOLD_EN. soft: a device soft reset asked for it (R577). -/
def State.startShutdown (s : State) (soft : Bool) : State :=
  if s.vlt.st = .run || s.vlt.st = .brace then
    { s with vlt := { s.vlt with
      st := .s1, orderly := true, soft := soft, source := 4, braceOn := false, stopAt := s.clock, stage1 := false
      stage2 := false, drained := false, drivesDone := false, written := 0, left := 0, skipScratch := false } }
  else s

/-- SHUTDOWN (R369). -/
def execShutdown (src : Nat) (s : State) : Host.Outcome State Fault Refusal :=
  run (fun s => s.globalWrite src (regArgBar 0xA000) fun s => s.startShutdown false) s

/-- A write to VLT_CTL (R368 to R370): DRILL and SHUTDOWN have no effect during a flush. -/
def State.vltCtl (s : State) (v : Word) : State :=
  let s1 : State := { s with vlt := { s.vlt with ctl := Trw.all (v &&& 4) } }
  let s2 := if flag v 0 && (s1.vlt.st = .run || s1.vlt.st = .brace) then s1.commitNowAt 3 else s1
  if flag v 1 then s2.startShutdown false else s2

/-! ### Energy (R350) -/

/-- C of R350 in mF. -/
def State.flushC (s : State) : Nat :=
  if s.rsv.health = 4 then fld s.rsv.ovr 0 16 else (s.cEst.map fun e => e.1.mF).getD 0

/-- E_rem in units of 5e-13 J. -/
def State.flushEnergy (s : State) : Nat :=
  let v := s.rsv.vNow
  s.flushC * (v * v - s.rsv.vMin * s.rsv.vMin) * s.rsv.eta

/-- Units of 5e-13 J in 0.1 J. -/
def tenthJoule : Nat := 200000000000

/-- The floors E3, E1 and E4 in 0.1 J. -/
def State.floorE3 (s : State) : Nat := min (s.vlt.floor.fld 16 16) s.rsv.eFixed
/-- See floorE3. -/
def State.floorE1 (s : State) : Nat := min (s.vlt.floor.fld 0 16) (s.rsv.eFixed - s.floorE3)
/-- See floorE3. -/
def State.floorE4 (s : State) : Nat := min (s.vlt.floor.fld 32 16) s.floorE3

/-- n times e_page (R332) in units of 5e-13 J. -/
def State.pagesEnergy (s : State) (n : Nat) : Nat := n * s.rsv.pFlush * 4096 * 56 * s.uDen * 20000 / (s.rsv.rBeam * s.u8)

/-- Take E_rem. -/
def State.sampleEnergy (s : State) : State := { s with vlt := { s.vlt with eRem := s.flushEnergy } }

/-! ### Admission stop (R345 to R349) -/

/-- A page's clean whose record has not been issued is abandoned, and the page stays dirty (R352). -/
def State.abandonCleans (s : State) : State :=
  let issued := fun (pn : Nat) => s.beam.recs.any fun e => match e.2 with
    | some r => decide (r.purpose = .clean pn) | none => false
  { s with map := { s.map with pages := s.map.pages.mapVals {} fun pn p =>
      if p.cleaning && ! issued pn then { p with cleaning := false, redirty := false, synced := 0 } else p } }

/-- ADMISSION_STOP (R345 to R349, R352): 64 FCLK after the commit. -/
def execAdmissionStop (s : State) : Host.Outcome State Fault Refusal :=
  run (fun s => s.when (s.vlt.st = .s1 && ! s.vlt.stopped) fun s =>
    let s0 := (s.elapse (s.vlt.stopAt + 64)).sampleEnergy
    let snap : Snap := { regions := s0.regions, gens := s0.map.gens, swatches := s0.map.swatches, warm := s0.warmList }
    let short := ! s0.vlt.orderly && (s0.keepUnits ≠ 0 || ! s0.vlt.keep.isEmpty) && decide (s0.vlt.eRem <
      (s0.floorE1 + s0.floorE3) * tenthJoule + s0.pagesEnergy (2048 * s0.keepUnits))
    let s1 : State := { s0 with
      vlt := { s0.vlt with
        stopped := true, snap := some snap, stopAt := s0.clock, eStop := s0.vlt.eRem, skipScratch := short }
      beam := { s0.beam with ckpt := false, ckptSegs := [], spillOut := [] } }
    let paired := s.slv.pair = .paired || s.slv.pair = .hold
    let s2 := if paired && s.slv.ide then
        { s1.slvPush 0 (pkt 0x06 0 []) with slv := { (s1.slvPush 0 (pkt 0x06 0 [])).slv with stopMack := false } }
      else s1
    s2.abandonCleans) s

/-! ### Stage 1 and stage 2 (R351, R352) -/

/-- LINES spill records of the entries marked SPILL, one region each (R293, R321). -/
def State.lineSpills (s : State) : List SpillRec :=
  let es := s.near.wb.filter fun e => e.spill
  ((es.map fun e => e.region).eraseDups).flatMap fun r =>
    (chunks 63 es.length (es.filter fun e => e.region = r)).map fun c =>
      .lines (s.region r).key (c.map fun e => (e.line, e.data, e.mask, e.poison))

/-- SCRATCH spill records of every window with SCRATCH_KEEP at the start of stage 1, which is admission stop (R54): none for a
block that holds poison (R293); and of the content still held for restored windows (R365). -/
def State.scratchSpills (s : State) : List SpillRec :=
  let rg := (s.vlt.snap.map fun x => x.regions).getD s.regions
  let held := s.vlt.keep.filterMap fun e => e.2.map fun d =>
    SpillRec.scratch (((rg.find? fun r => r.2.valid && r.2.window = 2 && decide (r.2.scrOff * 512 ≤ e.1)
      && decide (e.1 < (r.2.scrOff + r.2.size) * 512)).map fun r => r.2.key).getD 0) e.1 d
  held ++ (rg.filter fun e => e.2.active && e.2.window = 2 && e.2.keep).flatMap fun e =>
    (List.range (e.2.size * 512)).filterMap fun i =>
      let b := e.2.scrOff * 512 + i
      let d := (List.range 64).foldl (fun (d : PageData) j => d.set {} j (s.poolCell (b * 64 + j))) ([] : PageData)
      if d.hasPoison then none else some (.scratch e.2.key b d)

/-- A line with D set has still to reach DRAM: its page is on its way to T1 (R233), or a hand-off carries it (R165). -/
def State.dirtyLeft (s : State) : Bool :=
  (s.near.nc.any fun e => e.2.v && e.2.d)
    || s.coh.handoff.any fun e => match e.2 with | some x => x.gone && x.arriving && x.carried.d && ! x.evict | none => false

/-- Write every near-cache line with D set to its DRAM frame; it stays resident with D cleared (R351, R359). -/
def State.flushCache (s : State) : State :=
  s.near.nc.foldl (fun (s : State) e =>
    let line := ncLine (e.1 / 16 % 32768) e.2.tag
    match e.2.v && e.2.d, (s.page (pageOf line)).place with
    | true, .t1 f =>
      let s1 := s.setCell f (line % 64) { data := e.2.data, poison := e.2.poison }
      { s1 with near := { s1.near with nc := s1.near.nc.set {} e.1 { e.2 with d := false } } }
    | _, _ => s) s

/-- A page's record of the flush, or of a clean that had been issued, is on its way. -/
def State.pageIssued (s : State) (pn : Nat) : Bool :=
  s.beam.recs.any fun e => match e.2 with
    | some r => decide (r.purpose = .flush pn) || decide (r.purpose = .clean pn)
    | none => false

/-- Dirty pages that stage 2 still has to issue, in the order of R246. -/
def State.flushPages (s : State) : List Nat :=
  let dirty := (s.map.pages.filter fun e => e.2.dirty && ! s.pageIssued e.1).map Prod.fst
  let urgent := dirty.filter fun pn => (s.page pn).urgent
  let inOrder := (s.map.journal.map Prod.fst).filter fun pn => dirty.contains pn && ! urgent.contains pn
  (urgent ++ inOrder ++ dirty).eraseDups

/-- Swatch copies held dirty that are not issued. -/
def State.flushCopies (s : State) : List (Nat × Nat) :=
  s.map.swatches.flatMap fun w => (w.2.saved.filter fun v => match v.2 with
    | some x => x.dirty && ! (s.beam.recs.any fun e => match e.2 with
      | some r => decide (r.purpose = .swatch w.1 v.1) | none => false)
    | none => false).map fun v => (w.1, v.1)

/-- N_left. -/
def State.nLeft (s : State) : Nat := s.flushPages.length + s.flushCopies.length

/-- Records of stage 2 that are not confirmed yet. -/
def State.nPend (s : State) : Nat :=
  (s.beam.recs.filter fun e => match e.2 with | some r => r.stream = 2 && ! r.confirmed | none => false).length

/-- The energy end of stage 2: E_rem - E_pend is at or below E3 + N_left * e_page / 256. An orderly shutdown has no
floor (R369). -/
def State.energyEnds (s : State) (left : Nat) : Bool :=
  ! s.vlt.orderly && decide (s.vlt.eRem ≤ s.floorE3 * tenthJoule + s.pagesEnergy left / 256 + s.pagesEnergy s.nPend)

/-- Issue one page or swatch copy of stage 2; one that holds poison takes a POISON delta instead (R484). -/
def State.issueOne (s : State) : State :=
  match s.flushPages, s.flushCopies with
  | pn :: _, _ =>
    let d := s.placeData (s.page pn).place
    if d.hasPoison then s.cleanPoison pn
    else match s.append 2 (pageRec pn (s.unit (pn / 512)).bkey d none (.flush pn)) with
      | some x => { x.2 with vlt := { x.2.vlt with written := x.2.vlt.written + 1 } }
      | none => s
  | [], (slot, pn) :: _ =>
    match (s.map.swatches.get {} slot).saved.get none pn with
    | some v =>
      let d := s.placeData v.place
      if d.hasPoison then
        ((s.freePlace v.place).moveSaved slot pn .poison).delta (.swatch slot pn ⟨.poison, 0⟩)
      else match s.append 2 (pageRec pn (s.unit (pn / 512)).bkey d (some slot) (.swatch slot pn)) with
        | some x => { x.2 with vlt := { x.2.vlt with written := x.2.vlt.written + 1 } }
        | none => s
    | none => s
  | [], [] => s

/-- Issue pages while stage 2 lasts; the first argument bounds their number. -/
def State.issuePages : Nat → State → State
  | 0, s => s
  | k + 1, s =>
    let n := s.nLeft
    if n = 0 || s.energyEnds n then s
    else
      let s1 := s.issueOne
      if s1.nLeft = n then s1 else State.issuePages k s1

/-- Stage 2 goes on: it issues what it may, and PAGES_LEFT follows. -/
def State.stage2 (s : State) : State :=
  if s.vlt.st = .s2 && ! s.vlt.stage2 then
    let s1 := State.issuePages s.nLeft s
    { s1 with vlt := { s1.vlt with left := s1.nLeft } }
  else s

/-- FLUSH_ENERGY_SAMPLE (R350): every 10 us. -/
def execFlushEnergySample (s : State) : Host.Outcome State Fault Refusal :=
  run (fun s => s.when (s.vlt.hold || s.vlt.stopped) fun s =>
    let s1 := (s.elapse (s.vlt.eremAt + 20000)).sampleEnergy
    State.stage2 { s1 with vlt := { s1.vlt with eremAt := s1.clock } }) s

/-- WB_DRAIN_END (R351): every entry but those marked SPILL has drained; the SPILL entries go to LINES records, and
stage 2 starts. -/
def execWbDrainEnd (s : State) : Host.Outcome State Fault Refusal :=
  run (fun s => s.when (s.vlt.st = .s1 && s.vlt.stopped && s.near.wb.all fun e => e.spill) fun s =>
    let s1 := s.map.marks.foldl (fun (s : State) m => s.handleMark m.pn) s
    ({ s1 with
      beam := { s1.beam with spillOut := s1.beam.spillOut ++ s1.lineSpills }
      vlt := { s1.vlt with st := .s2, drained := true } } : State).stage2) s

/-- STAGE1_END (R349, R351, R461): near-cache lines and SCRATCH records are written, and the selvedge link powers down. -/
def execStage1End (s : State) : Host.Outcome State Fault Refusal :=
  run (fun s => s.when (s.vlt.stopped && s.vlt.drained && ! s.vlt.stage1) fun s =>
    let s1 := s.flushCache
    if s1.dirtyLeft then s1
    else
    let sp := if s1.vlt.skipScratch then [] else s1.scratchSpills
    let s2 : State := { s1 with
      beam := { s1.beam with spillOut := s1.beam.spillOut ++ sp }
      vlt := { s1.vlt with stage1 := true } }
    if s2.slv.pair = .paired || s2.slv.pair = .hold then
      let s3 := s2.diverge s2.openDelta true
      (({ s3 with slv := { s3.slv with pair := .solo } } : State).dropTx).slvDown
    else if s2.slv.pair = .off then s2 else s2.slvDown) s

/-- STAGE2_END (R351): no page is left, the energy floor is reached, or FLUSH_MS have passed since admission stop. -/
def execStage2End (s : State) : Host.Outcome State Fault Refusal :=
  run (fun s => s.when (s.vlt.st = .s2 && ! s.vlt.stage2) fun s =>
    let n := s.nLeft
    let s1 := if n = 0 || s.energyEnds n || s.vlt.orderly then s
      else s.elapse (s.vlt.stopAt + s.rsv.flushMs * 2000000)
    if n ≠ 0 && s.vlt.orderly then s
    else { s1 with vlt := { s1.vlt with stage2 := true, left := n } }) s

/-! ### Stages 3 to 5 (R353, R354, R357) -/

/-- POISON delta entries for what stage 2 left (R354). -/
def State.poisonLeft (s : State) : State :=
  let s1 := s.flushPages.foldl (fun (s : State) pn =>
    (s.modPage pn fun p => { p with ppoison := true, urgent := true }).deltaPage pn) s
  s.flushCopies.foldl (fun (s : State) c => s.delta (.swatch c.1 c.2 ⟨.poison, 0⟩)) s1

/-- Write every remaining delta entry and every stripe; the first argument bounds the records. -/
def State.writeAllDeltas : Nat → State → State
  | 0, s => s
  | k + 1, s => if s.beam.deltas.isEmpty then s else State.writeAllDeltas k s.writeDelta

/-- STAGE3_START (R354): stages 1 and 2 have ended. -/
def execStage3Start (s : State) : Host.Outcome State Fault Refusal :=
  run (fun s => s.when (s.vlt.st = .s2 && s.vlt.stage1 && s.vlt.stage2) fun s =>
    let n := s.nLeft
    let s1 : State := { s with vlt := { s.vlt with
      st := .s3, left := 0, shortPages := n, shortLeft := s.flushPages } }
    let s2 := s1.poisonLeft
    let s3 := (State.writeAllDeltas (s2.beam.deltas.length + 1) s2).writeWarm ((s2.vlt.snap.map fun x => x.warm).getD [])
    (List.range 5).foldl (fun (s : State) i =>
      if ((s.beam.bufs.get none i).map fun b => ! b.recs.isEmpty) = some true then s.writeStripe i else s) s3) s

/-- Seals that wait at the flush's commit complete (R320). -/
def State.sealsAtCommit (s : State) : State :=
  s.rng.seals.foldl (fun (s : State) x =>
    if s.sealReached x || x.lost || x.mirrorLost then s.completeSeal x else s) s

/-- FLUSH_COMMIT_CONFIRMED (R353): the three drive copies are confirmed. -/
def execFlushCommitConfirmed (s : State) : Host.Outcome State Fault Refusal :=
  run (fun s =>
    match s.beam.commitOut with
    | some o =>
      s.when (s.vlt.st = .s3 && ! s.vlt.drivesDone) fun s =>
        let s1 := s.inForce o.record
        ({ s1 with vlt := { s1.vlt with
          drivesDone := true, outcome := if o.record.short then 2 else 1
          durMs := min 65535 ((s1.clock - s1.vlt.stopAt) / 2000000) } } : State).sealsAtCommit
    | none => s) s

/-- The FLUSH record of the tapestry (R525, R526). -/
def State.flushRecord (s : State) : Line :=
  let v := s.vlt
  let e := fun x => min 65535 (x / tenthJoule)
  s.tapDraft 5 (if v.outcome = 1 then 0 else 2) 1 0xB00 0
    [ atBit (v.written % 2 ^ 34) 0 ||| atBit v.outcome 34 ||| atBit v.source 36, atBit (v.shortPages % 2 ^ 34) 0,
      atBit v.durMs 0 ||| atBit (e v.eStop) 32 ||| atBit (e v.eEnd) 48, atBit (s.beam.cseq % 2 ^ 64) 0 ]

/-- Stage 5: every drive shuts down and DRAM goes to self-refresh. -/
def State.stage5 (s : State) : State :=
  let s1 := (bitsOf s.slotsUp).foldl (fun (s : State) i => s.modSlot i fun x => { x with shutdown := true }) s
  { s1 with vlt := { s1.vlt with st := .s5, selfRefresh := true } }

/-- STAGE3_END (R357): the boot-flash copy is written, and recovery does not hold. Stage 4 starts if E_rem is at least E4, otherwise
stage 5. -/
def execStage3End (s : State) : Host.Outcome State Fault Refusal :=
  run (fun s => s.when (s.vlt.st = .s3 && s.vlt.drivesDone && (s.vlt.orderly || ! s.vlt.recovered)) fun s =>
    let s1 : State := { s with vlt := { s.vlt with eEnd := s.vlt.eRem } }
    if s1.vlt.orderly || s1.floorE4 * tenthJoule ≤ s1.vlt.eRem then
      ({ s1 with vlt := { s1.vlt with st := .s4 } } : State).tapFlush [s1.flushRecord]
    else s1.stage5) s

/-- The pair record (R471): sessions, divergences, COMPLETE and HELD. -/
def State.pairRecord (s : State) : PairRec :=
  { pairId := s.slv.pairId.read [(0, 64)], setId := s.beam.setId, peerSet := s.slv.peerSet, session := s.slv.session
    cseq := s.beam.cseq, shutdown := s.vlt.orderly
    complete := (s.slv.rgns.filter fun e => e.2.complete).map Prod.fst
    held := (s.slv.rgns.filter fun e => e.2.held).map Prod.fst
    divSeqs := s.slv.rgns.foldl (fun (t : Tbl Nat) e => t.set 0 e.1 e.2.div) [] }

/-- The final ledger record (R567). -/
def State.ledgerRecord (s : State) : LedgerRec :=
  { cseq := s.beam.cseq, durMs := s.vlt.durMs, eStop := s.vlt.eStop, eEnd := s.vlt.eEnd, flush := s.flushRecord }

/-- STAGE4_END (R351, R369): the tapestry, the final ledger record, the pair record and the life ring are written. An
orderly shutdown is done; one of a soft reset goes on with the cold-reset sequence (R577). A stage 4 that a resume found unfinished
ends without stage 5 (R358). -/
def execStage4End (s : State) : Host.Outcome State Fault Refusal :=
  run (fun s => s.when (s.vlt.st = .s4 || s.vlt.tail) fun s =>
    let s0 := if s.tap.flushing then s.tapFlushEnd else s
    let s1 : State := { s0 with boot := { (s0.boot.keep 3).keep 4 with
      pair := some s0.pairRecord, ledger := some s0.ledgerRecord }.addLife }
    if s1.vlt.orderly then
      let s2 := ({ s1 with vlt := { s1.vlt with st := .shutdownDone } } : State).emit .shutdownDone
      if s1.vlt.soft then s2.softRestart.emit .coldReset else s2
    else if s1.vlt.tail then { s1 with vlt := { s1.vlt with tail := false } }
    else s1.stage5) s

/-- HOLD_EN_DEASSERT (R351, R357): a RESET# still asserted takes effect (R565). -/
def execHoldEnDeassert (s : State) : Host.Outcome State Fault Refusal :=
  run (fun s => s.when (s.vlt.st = .s5) fun s =>
    ({ s with vlt := { s.vlt with hold := false, st := .wait } } : State).resetPending) s

/-! ### Resume (R358, R359) -/

/-- A held request is accepted: a writeback that answers a BISnp goes to its recall. -/
def State.acceptHeld (s : State) (q : Req) : State :=
  match q.src, s.regionOf q.line with
  | .head h _, some (n, r) => if q.writes && s.snooped h q.line then s.writeback n r q else s.redecode q
  | _, _ => s.redecode q

/-- Transactions that waited for a recall not yet sent start again. -/
def State.restartRecalls (s : State) : State :=
  (s.coh.txns.filter fun e => match e.2 with
    | some t => t.phase = .recall && t.waits = 0 | none => false).foldl (fun (s : State) e =>
    match e.2 with
    | some t => (t.req :: t.queue).foldl (fun (s : State) q => s.take q) (s.setTxn e.1 none)
    | none => s) s

/-- RESUME (R358, R359): the drive copies are confirmed and the recovery condition holds. -/
def execResume (s : State) : Host.Outcome State Fault Refusal :=
  run (fun s => s.when (s.vlt.drivesDone && s.vlt.recovered && ! s.vlt.orderly
      && (s.vlt.st = .s3 || s.vlt.st = .s4 || s.vlt.st = .s5 || s.vlt.st = .wait)) fun s =>
    let held := s.vlt.held
    let slots := s.beam.slots.mapVals {} fun _ x => { x with shutdown := false }
    let s1 : State := { s with
      vlt := { s.vlt with
        st := if s.vlt.braceOn then .brace else .run
        tail := decide (s.vlt.st = .s4), selfRefresh := false, hold := false, stopped := false, held := [], snap := none, resumeKind := 1, writable := true, drivesDone := false
        drained := false, stage1 := false, stage2 := false, left := 0 }
      beam := { s.beam with slots := slots, spillOut := [], commitOut := none }
      slv := { s.slv with stopMack := false } }
    let s2 := held.foldl (fun (s : State) q => s.acceptHeld q) s1
    let s3 := (List.range 16).foldl (fun (s : State) t => s.retryWrites t) s2
    let s4 := s3.presentHeads.foldl (fun (s : State) h => s.returnCredits h) s3
    ((s4.restartRecalls.releaseBirsps).checkSeals.eraseGo).resetPending) s

/-- SUPPLY_FAIL (R357): the device is unpowered until the next supply-good. -/
def execSupplyFail (s : State) : Host.Outcome State Fault Refusal := run (fun s => s.powerOff) s

/-- RESET_ASSERT (R564, R565): ignored while HOLD_EN is asserted, and then taken if it still stands. -/
def execResetAssert (s : State) : Host.Outcome State Fault Refusal :=
  runAlways (fun s =>
    let s1 : State := { s with pins := { s.pins with reset := true } }
    if s.on && ! s.vlt.hold then s1.resetNow else s1) s

/-- SUPPLY_GOOD (R564 to R566): RESET# deasserts. A device that runs (a flush ignored RESET#) goes on. -/
def execSupplyGood (straps : Straps) (flash : FlashReport) (s : State) : Host.Outcome State Fault Refusal :=
  runAlways (fun s =>
    if s.on then { s with pins := { s.pins with reset := false } }
    else (s.supplyGood straps flash).emit .coldReset) s

/-- SOFT_RESET (R577): by a source that may write GLB_CTL, with every present head braked, in RUN or BRACE, and no FATAL
error since cold reset. -/
def State.softReset (s : State) : State :=
  if (s.presentHeads.all fun h => (s.head h).braked) && (s.vlt.st = .run || s.vlt.st = .brace) && s.flt.fatal.isNone then
    s.startShutdown true
  else s

/-- See State.softReset. -/
def execSoftReset (src : Nat) (s : State) : Host.Outcome State Fault Refusal :=
  run (fun s => s.globalWrite src (regArgBar 0x18) fun s => s.softReset) s

/-! ### Heat (R599, R600) -/

/-- THERMAL_SENSOR_READ (R599): 1 ms after the last read, the sensors of the tiles, then those of the SRAM dies. Tj is the hottest reading;
THERM_ALERT# from 100 degrees until below 95. Each tile's reading is a value of its TJ (R524). -/
def execThermalSensorRead (sensors : List Nat) (s : State) : Host.Outcome State Fault Refusal :=
  run (fun s =>
    let s0 := s.elapse (s.pins.sensorAt + 2000000)
    let s := ((sensors.take 16).mapIdx fun i v => (i, v)).foldl (fun (s : State) e => s.minuteMax (4096 + 4 * 256 + e.1) e.2) s0
    let tj := sensors.foldl max 0
    { s with pins := { s.pins with
      sensorAt := s.clock
      thermAlert := if 100 ≤ tj then true else if tj < 95 then false else s.pins.thermAlert } }) s

/-- THERMTRIP (R600): every clock outside the AON domain stops, HOLD_EN, RSV_CHG_EN and RSV_TEST_EN fall, and a flush
stops; THERMTRIP# stays until the next cold reset. -/
def execThermtrip (s : State) : Host.Outcome State Fault Refusal :=
  run (fun s => (({ s with pins := { s.pins with thermTrip := true } } : State).powerOff).emit .thermTrip) s

end Sys2Proof.Machine
end

