-- ==== Sys2Proof/Machine/Restore.lean ====
section
/-! DEFINITION. Cold restore (R307, R308, R361 to R365, R572 to R575): assembling the beam, step 6, memory active, and
first-time initialisation. -/
namespace Sys2Proof.Machine

/-! ### What is found (R308 step 1, R572) -/

/-- Drives of a set. -/
def setDrives (ds : List DriveReport) (id : Word) : List DriveReport :=
  ds.filter fun d => usable d && ! d.blank && d.setId = id

/-- Blank drives that the device can use. -/
def blankDrives (ds : List DriveReport) : List DriveReport := ds.filter fun d => usable d && d.blank

/-- The drive of a set that stands in slot i (R308 step 3). -/
def slotDrive (ds : List DriveReport) (id : Word) (i : Nat) : Option DriveReport :=
  (setDrives ds id).find? fun d => d.slot = i && d.idMatch

/-- Slots of a set that are present and not retired. -/
def State.setSlots (s : State) (ds : List DriveReport) (id : Word) : List Nat :=
  (List.range 8).filter fun i => ! s.beam.retired.getLsbD i && (slotDrive ds id i).isSome

/-- The sets that drives belong to. -/
def setIds (ds : List DriveReport) : List Word :=
  ((ds.filter fun d => usable d && ! d.blank).map fun d => d.setId).eraseDups

/-- Notices about drives that are not used: rejected ones, and those of a set other than id (R266, R308). -/
def State.driveNotices (s : State) (ds : List DriveReport) (id : Word) : State :=
  ds.foldl (fun (s : State) d =>
    if ! usable d then s.rejectDrive d
    else if ! d.blank && d.setId ≠ id then s.note ⟨1, 0x1C, d.port % 8, none⟩
    else s) s

/-- The recorded set is released (R573). -/
def State.released (s : State) (ds : List DriveReport) : Bool :=
  s.glb.straps.setRelease && s.boot.setId ≠ 0 && (setDrives ds s.boot.setId).isEmpty

/-- First-time initialisation applies to the drives found (R572): blank drives, and those of an interrupted
initialisation. -/
def State.initDue (s : State) (ds : List DriveReport) : Bool :=
  let blank := (blankDrives ds).length
  let young := match s.beam.commit with | some c => decide (c.cseq ≤ 1) | none => true
  s.glb.straps.beamInit && match setIds ds with
    | [] => decide (7 ≤ blank)
    | [id] => young && (setDrives ds id).all (fun d => decide (d.sbgen ≤ 2))
        && decide (7 ≤ blank + (setDrives ds id).length)
    | _ => false

/-- The restore waits (R308 step 4, R572): BEAM_INCOMPLETE. -/
def State.incomplete (s : State) (n : Nat) : State :=
  { s.note ⟨2, 0x1D, n, none⟩ with beam := { (s.note ⟨2, 0x1D, n, none⟩).beam with waiting := true } }

/-! ### Assembly (R308 steps 3 to 6) -/

/-- The valid commit record with the highest CSEQ, from the drives and, for the recorded set, the boot flash (R292). -/
def State.selectCommit (s : State) (id : Word) : Option Commit :=
  match s.beam.commit, (if s.boot.setId = id then s.boot.commit else none) with
  | some a, some b => if a.cseq < b.cseq then some b else some a
  | some a, none => some a
  | none, b => b

/-- A swatch slot as a restore finds it: its copies are those of the persistent map; one that was being taken or dropped is
gone, one that was being exported is LIVE again. -/
def Swatch.restored (w : Swatch) (saved : Tbl PEntry) : Swatch :=
  if w.st = .live || w.st = .exporting || w.st = .exported then
    { w with
      st := if w.st = .exporting then .live else w.st
      waits := 0
      ring := 0
      saved := saved.foldl (fun (t : Tbl (Option Saved)) e =>
        match e.2.place with
        | .zero => t.set none e.1 (some { place := .zero })
        | .t3 a => t.set none e.1 (some { place := .t3 a })
        | .poison => t.set none e.1 (some { place := .poison })
        | .absent => t) [] }
  else {}

/-- Units that a persistent map names. -/
def PMap.unitList (m : PMap) : List Nat := distinct ((m.pages.map fun e => e.1 / 512) ++ m.units.map Prod.fst)

/-- The directory that a persistent map gives: every unit it names is UNLOADED, with its binding (R251). -/
def PMap.directory (m : PMap) : Tbl UnitDir :=
  m.unitList.foldl (fun (t : Tbl UnitDir) u =>
    let b := m.units.get {} u
    t.set {} u { dstate := .unloaded, bound := b.bound, bdur := b.bdur, bkey := b.bkey }) []

/-- A drive's superblock copies after assembly (R281): the copy in force and the one before it; both are rewritten where the
drive's best copy is older than the one in force. -/
def supered (top best : Nat) (x : Slot) : Slot :=
  if best < top then { x with sb0 := top, sb1 := top }
  else if top % 2 = 0 then { x with sb0 := top, sb1 := top - 1 } else { x with sb0 := top - 1, sb1 := top }

/-- The beam with a set in use and a commit record selected: segments that the record does not cover are freed (R292),
and DELTA records in its segments that it does not cover are not applied (R356). -/
def Beam.assembled (b : Beam) (ds : List DriveReport) (id : Word) (slots : List Nat) (c : Commit) : Beam :=
  let stale := fun (g : Seg) => decide (g.st ≠ .free) && decide (c.seqNext ≤ g.seq)
  let dead := fun (a : Nat) (r : BeamRec) =>
    let g := segOf (beamStripe a)
    stale (b.segs.get {} g) || (r.kind = .delta && c.metaSegs.contains g && ! c.deltaRecs.contains a)
  let top := (setDrives ds id).foldl (fun n d => max n d.sbgen) b.sbgen
  { b with
    setId := id
    sbgen := top
    slots := slots.foldl (fun (t : Tbl Slot) i => match slotDrive ds id i with
      | some d => t.set {} i (supered top d.sbgen
          { port := d.port, present := true, width := d.width, rate := d.rate, lbas := d.lbas, power := d.power })
      | none => t) []
    segs := b.segs.mapVals {} fun _ g => if stale g then { writes := g.writes } else g
    recs := b.recs.restrict fun a r => match r with | some x => ! dead a x | none => false
    seqNext := c.seqNext, deltaSegs := c.metaSegs, commit := some c, cseq := c.cseq, base := c.base, cold := c.base
    coldUnits := c.base.unitList, found := ds }

/-- The mirror state of a region after a cold restore (R471): from the pair record of the commit in force, else a source is
FULL and nothing is COMPLETE or HELD. -/
def restoredMirror (p : Option PairRec) (n : Nat) (r : Region) : SlvRgn :=
  match p with
  | some x =>
    let complete := x.complete.contains n
    { mst := if complete && r.window = 4 then 4 else if complete && r.window = 0 && ! r.mirror then 6 else 0
      complete := complete, held := x.held.contains n, div := x.divSeqs.get 0 n }
  | none => { div := if r.window = 0 && r.mirror then divFull else 0 }

/-- Restore from a set (R308 steps 3 to 6, R361 step 4). -/
def State.assembleSet (s : State) (ds : List DriveReport) (id : Word) : State :=
  let c := (s.selectCommit id).getD {}
  let lost := s.beam.segs.any fun e => decide (e.2.st ≠ .free) && decide (c.seqNext ≤ e.2.seq)
  let p := match s.boot.pair with | some x => if x.cseq = c.cseq then some x else none | none => none
  let s1 : State := { s with
    beam := s.beam.assembled ds id (s.setSlots ds id) c
    regions := c.regions.mapVals {} fun _ r =>
      { r with active := false, err := 0, wasInForce := r.active || r.wasInForce, aliasBroken := false }
    map := { s.map with
      units := c.base.directory
      gens := c.gens.mapVals {} fun _ g => { g with hold := false }
      swatches := c.swatches.mapVals {} fun k w => w.restored (c.base.saved.get [] k)
      takes := (c.swatches.map fun w => w.2.order + 1).foldl max 0 }
    slv := { s.slv with
      rgns := c.regions.foldl (fun (t : Tbl SlvRgn) e => t.set {} e.1 (restoredMirror p e.1 e.2)) []
      session := (p.map fun x => x.session).getD 0, peerSet := (p.map fun x => x.peerSet).getD 0 }
    sec := { s.sec with
      bkek := some s.sec.wrap.bkek, salts := s.sec.wrap.salts, waitKey := false
      cmd := c.erased.map fun k => ⟨2, k, true, true⟩
      result := if c.erased.isSome then 4 else 0
      slot := c.erased.getD 0 }
    vlt := { s.vlt with
      outcome := if lost then 3 else match c.kind with | .checkpoint => 0 | _ => if c.short then 2 else 1
      shortPages := c.shortPages, durMs := (s.boot.ledger.map fun l => l.durMs).getD 0, restoredShort := c.shortList } }
  let s2 := (s.setSlots ds id).foldl (fun (s : State) i => s.driveUp i) s1
  if lost then (s2.note ⟨2, 0x24, 0, none⟩).eventAll ⟨.vendor, 0x24, 0⟩ else s2

/-- What R572 makes of the drives found; recorded is the SET_ID of the identity record in force. DESIGN CHOICE (log): with no
recorded set and several sets of 7 or more slots attached, the first in drive order is the one that waits for its key. -/
def State.choose (s : State) (ds : List DriveReport) : State :=
  let recorded := s.boot.setId
  if recorded ≠ 0 then
    let s1 := s.driveNotices ds recorded
    let n := (s1.setSlots ds recorded).length
    if 7 ≤ n && s.sec.wrap.ours then s1.assembleSet ds recorded else s1.incomplete n
  else if s.initDue ds then { s.driveNotices ds 0 with beam := { (s.driveNotices ds 0).beam with found := ds } }
  else match (setIds ds).find? fun id => decide (7 ≤ (s.setSlots ds id).length) with
    | some id =>
      let s1 := s.driveNotices ds id
      { s1 with sec := { s1.sec with waitKey := true }, beam := { s1.beam with waiting := true, found := ds } }
    | none =>
      let s1 := (s.driveNotices ds 0).incomplete 0
      { s1 with beam := { s1.beam with found := ds } }

/-- Steps 1 to 6 of R308 with the release of R573. -/
def State.assemble (s : State) (ds : List DriveReport) : State :=
  (if s.released ds then { s with boot := { s.boot.keep 0 with setId := 0 } } else s).choose ds

/-- Restoring, with no beam yet. -/
def State.beamless (s : State) : Bool :=
  s.vlt.st = .restore && ! s.vlt.active && s.beam.setId = 0 && s.glb.steward

/-- BEAM_ASSEMBLE (R308, R572, R573). -/
def execBeamAssemble (drives : List DriveReport) (s : State) : Host.Outcome State Fault Refusal :=
  run (fun s => s.when (s.beamless && ! s.beam.waiting) fun s => s.assemble drives) s

/-! ### Step 6 (R361, R364, R365, R29) -/

/-- Merge one spilled line over its page (R364): the page becomes T1 and dirty. -/
def State.applyLine (s : State) (line : Nat) (data : Line) (mask : Mask) (poison : Bool) : State :=
  let pn := line / 64
  let u := pn / 512
  if ! (s.unit u).bdur then s
  else
    let s1 := if (s.unit u).dstate = .unloaded then
        match s.lowestFree with
        | some f =>
          let x := s.loadUnit u f
          { x with beam := { x.beam with coldUnits := x.beam.coldUnits.filter fun y => y ≠ u } }
        | none => s
      else s
    let p := s1.page pn
    match p.place with
    | .t1 f => s1.setCell f (line % 64) ((s1.cell f (line % 64)).put data mask poison)
    | _ =>
      match s1.lowestFree with
      | none => s1
      | some f =>
        let d := s1.placeData p.place
        let hd := match p.place with | .t3 a => (true, a) | .zero => (true, 0) | _ => (false, 0)
        let s2 := (s1.useFrame f (.t1 pn none)).setFrame f d
        let s3 := s2.setCell f (line % 64) ((s2.cell f (line % 64)).put data mask poison)
        (s3.writeEntry pn { p with
          place := .t1 f, beamv := hd.1, beam := hd.2, ppoison := decide (p.place = .poison) }).markDirty pn

/-- LINES and SCRATCH spill records of the selected commit (R364, R365). -/
def State.applySpill (s : State) (r : SpillRec) : State :=
  match r with
  | .lines _ ls => ls.foldl (fun (s : State) l => s.applyLine l.1 l.2.1 l.2.2.1 l.2.2.2) s
  | .scratch _ b d => State.holdKeeps { s with vlt := { s.vlt with keep := s.vlt.keep.set none b (some d) } }

/-- Blocks of restored SCRATCH_KEEP windows without a spill record read as poison (R293, R355, R486). -/
def State.poisonKeeps (s : State) : State :=
  (s.regions.filter fun e => e.2.valid && e.2.wasInForce && e.2.window = 2 && e.2.keep).foldl (fun (s : State) e =>
    (List.range (e.2.size * 512)).foldl (fun (s : State) i =>
      let b := e.2.scrOff * 512 + i
      if (s.vlt.keep.get none b).isSome then s
      else ({ s with vlt := { s.vlt with keepPoison := s.vlt.keepPoison ++ [b] } } : State).indexPoison
        ((e.2.base * 512 + i) * 64) 64) s) s

/-- Pages in POISON that the listed DELTA records name enter the poison index (R486). -/
def State.indexDeltas (s : State) : State :=
  (s.loggedDeltas s.beam.deltaSegs s.beam.seqNext).foldl (fun (s : State) d =>
    match d with
    | .page pn _ => if (s.beam.base.pages.get {} pn).place = .poison then s.indexPoison (pn * 64) 64 else s
    | _ => s) s

/-- The order in which restored entries are checked: those that were in force first, sources before their aliases. -/
def restoreOrder (rs : Tbl Region) : List Nat :=
  let v := rs.filter fun e => e.2.valid
  ((v.filter fun e => e.2.wasInForce && e.2.window ≠ 3) ++ (v.filter fun e => e.2.wasInForce && e.2.window = 3)
    ++ (v.filter fun e => ! e.2.wasInForce && e.2.window ≠ 3) ++ (v.filter fun e => ! e.2.wasInForce && e.2.window = 3)).map
      Prod.fst

/-- Swatches of VOLATILE regions are dropped (R252, R262). -/
def State.dropVolatile (s : State) : State :=
  (s.map.swatches.keysWhere fun _ w => decide (w.st ≠ .free) && ! (s.region w.region).durable).foldl
    (fun (s : State) k => s.dropSwatch k) s

/-- Step 6. -/
def State.stepSix (s : State) : State :=
  let spills := (s.beam.commit.map fun c => c.spills).getD []
  let s1 := (spills.foldl (fun (s : State) r => s.applySpill r) s.indexDeltas).poisonKeeps
  let s2 := (restoreOrder s1.regions).foldl (fun (s : State) n => s.checkNew n (s.region n)) s1
  { s2.dropVolatile with vlt := { s2.dropVolatile.vlt with step6 := true } }

/-- COLD_RESTORE_STEP6. -/
def execColdRestoreStep6 (s : State) : Host.Outcome State Fault Refusal :=
  run (fun s => s.when (s.vlt.st = .restore && ! s.vlt.active && s.beam.setId ≠ 0 && ! s.vlt.step6) fun s => s.stepSix) s

/-! ### Memory active (R362, R251, R254, R355) -/

/-- The warm list: that of the commit record, then pages in T3 of regions with THINT HOT, ascending (R254). -/
def State.warmPages (s : State) : List Nat :=
  let listed := ((s.beam.commit.map fun c => c.warm).getD []).flatMap fun e => (List.range (e.2 + 1)).map fun i => e.1 + i
  let hot := (s.beam.cold.pages.filter fun e => (match e.2.place with | .t3 _ => true | _ => false) && s.hint e.1 = 1).map
    Prod.fst
  (listed ++ hot).eraseDups

/-- General Media Event records about the pages that a SHORT commit poisoned, to a head (R355). -/
def State.shortEvents (s : State) (h : Nat) : State :=
  let ps := (s.vlt.restoredShort.mergeSort (· ≤ ·)).filter fun pn => match s.regionOfPage pn with
    | some x => x.2.acc2 h ≠ 0 | none => false
  let s1 := (ps.take 1024).foldl (fun (s : State) pn => s.event h ⟨.generalMedia, 0x20, pn * 4096⟩) s
  if 1024 < ps.length then s1.modFunc h fun f => { f with eventsOver := true } else s1

/-- What R355 says after a restore from a SHORT commit. -/
def State.shortNotices (s : State) : State :=
  if s.vlt.outcome = 2 then
    s.presentHeads.foldl (fun (s : State) h => s.shortEvents h) (s.note ⟨2, 0x23, 0, some s.vlt.shortPages⟩)
  else s

/-- Memory active: MEM_OFF clears on every head whose link is up, unless its link has dropped since its last reset
(R85); the map loader and the warmer start; requests that a soft reset kept are taken again. -/
def State.goActive (s : State) : State :=
  let s1 := s.shortNotices
  let s2 : State := { s1 with
    heads := s1.heads.mapVals {} fun _ x =>
      if x.link.up then { x with link := { x.link with memOff := x.link.dropped || ! x.link.cxl } } else x
    map := { s1.map with mapLoad := ! s1.beam.coldUnits.isEmpty, warm := s1.warmPages, warming := true, warmDone := false }
    vlt := { s1.vlt with
      active := true, activeMs := min 65535 (s1.clock / 2000000), st := if s1.vlt.braceOn then .brace else .run
      resumeKind := 2, held := [] } }
  s.vlt.held.foldl (fun (s : State) q => s.redecode q) s2

/-- MEMORY_ACTIVE (R362): steps 1 to 6 of R361 have ended. -/
def execMemoryActive (s : State) : Host.Outcome State Fault Refusal :=
  run (fun s => s.when (s.vlt.st = .restore && ! s.vlt.active && s.vlt.step6) fun s => s.goActive) s

/-! ### First-time initialisation (R574, R575) -/

/-- A drawn SET_ID: 0 means none, so it is never 0. -/
def drawnSet (d : BitVec 256) : Word := if d.setWidth 64 = 0 then 1 else d.setWidth 64

/-- Segments of a beam whose smallest drive has L LBAs (R272). -/
def segmentsOf (l : Nat) : Nat := (l - 17408) / 4096

/-- PAGE_CAP (R272, R575): capUnits is the board's limit, 0 for none. -/
def pageCapOf (segments capUnits : Nat) : Nat :=
  let bound := min (2 ^ 33) (segments * 26880 * 3 / 4)
  let n := if capUnits = 0 then bound else min bound (capUnits * 512)
  n / 65536 * 65536

/-- Drives in ascending port number. -/
def byPort (ds : List DriveReport) : List DriveReport := ds.mergeSort fun a b => a.port ≤ b.port

/-- A beam formatted on the drives, slots in ascending port number: segment 0 open in the MAP stream with SEQ 1 (R574). -/
def State.formatted (s : State) (ds : List DriveReport) (id : Word) : State :=
  let use := (byPort ds).take 8
  let formed : BitVec 8 := BitVec.ofNat 8 (2 ^ use.length - 1)
  let l := use.foldl (fun (m : Nat) d => min m d.lbas) ((use.head?.map fun d => d.lbas).getD 0)
  let segs := segmentsOf l
  let slots := (use.mapIdx fun i d => (i, d)).foldl (fun (t : Tbl Slot) e =>
    let d := e.2
    t.set {} e.1 { port := d.port, present := true, width := d.width, rate := d.rate, lbas := d.lbas, power := d.power
                   sb0 := 2, sb1 := 1 }) []
  let b : Beam :=
    { setId := id, sbgen := 2, formed := formed, retired := ~~~ formed, segments := segs
      pageCap := pageCapOf segs ((s.boot.board.map fun b => b.capUnits).getD 0), fmtRev := 0x01004101, slots := slots
      seqNext := 1, found := ds, ctl := s.beam.ctl }
  (List.range use.length).foldl (fun (s : State) i => (s.emit (.nvmeAdmin i 0x80)).driveUp i) { s with beam := b }

/-- The root pages of step 4, written and confirmed. -/
def State.writeRoots (s : State) : State :=
  let s1 := ((List.range s.beam.rootCount).foldl (fun (s : State) i => s.appendMap none 2 i) s).writeStripe 3
  { s1 with beam := { s1.beam with
    outs := []
    recs := s1.beam.recs.mapVals none fun _ r => r.map fun r => { r with confirmed := true } } }

/-- FIRST_TIME_INIT (R574): steps 1 to 6, and memory active. -/
def State.initBeam (s : State) (ds : List DriveReport) : State :=
  let a := s.draw
  let id := drawnSet a.1
  let b := a.2.draw
  let s1 := (b.2.formatted ((setIds ds).flatMap (setDrives ds) ++ blankDrives ds) id).writeRoots
  let c : Commit :=
    { cseq := 1, kind := .checkpoint, seqNext := 2, opmin := s.boot.opmin, cycles := s.boot.cycles
      roots := s1.rootsNow true }
  ({ s1 with
    beam := { s1.beam with commit := some c, cseq := 1, seqNext := 2 }
    boot := { (s1.boot.keep 0).keep 2 with setId := id, commit := some c }
    sec := { s1.sec with
      bkek := some b.1
      salts := []
      wrap := { salts := [], escV := s.boot.custodian.isSome, custodian := s.boot.custodian, bkek := b.1, ours := true } }
    vlt := { s1.vlt with step6 := true } } : State).goActive

/-- See State.initBeam. -/
def execFirstTimeInit (drives : List DriveReport) (s : State) : Host.Outcome State Fault Refusal :=
  run (fun s => s.when (s.beamless && ! s.beam.waiting && s.boot.setId = 0 && s.initDue drives
      && (s.beam.found.isEmpty || s.beam.found = drives)) fun s => s.initBeam drives) s

end Sys2Proof.Machine
end

