-- ==== Sys2Proof/Machine/Security.lean ====
section
/-! DEFINITION. Custody of the beam's keys and cryptographic erase of the beam (R502, R503, R506). -/
namespace Sys2Proof.Machine

/-! ### Custody -/

/-- A custody command (R502): inside a mutually authenticated session of the management head or interface it runs; in any other
way it is answered with UnsupportedRequest. -/
def State.custody (s : State) (src : Nat) (f : State → State × List Word) : State :=
  s.when (s.doeUp src) fun s =>
    if s.isMgmt src && s.sec.spdm.get 0 src = 3 then let r := f s; r.1.emit (.doe src r.2) else s.emit (.doe src [0x7F, 0x07])

/-- CUSTODIAN_SET: the key is stored; with a beam in use the escrow entry is written in two SBGEN steps. -/
def execCustodianSet (src : Nat) (key : BitVec 768) (s : State) : Host.Outcome State Fault Refusal :=
  run (fun s => s.custody src fun s =>
    let s1 : State := { s with boot := { s.boot.keep 0 with custodian := some key } }
    let s2 : State := if s.beam.setId = 0 then s1
      else ({ s1 with sec := { s1.sec with wrap := { s1.sec.wrap with escV := true, custodian := some key } } } : State).twoSupers
    (s2, [0])) s

/-- Word i, from 2 on, of KEYWRAP (R500): wrapped keys, reserved words, and CUST_ID of the custodian. -/
def State.wrapWord (s : State) (i : Nat) : Word :=
  if i = 7 || i = 25 then 0
  else if i < 26 then Config.keyWrapWord s.beam.sbgen i
  else match s.sec.wrap.custodian with
    | some key => custIdWord key (i - 26)
    | none => Config.keyWrapWord s.beam.sbgen i

/-- Bytes 0 to 255 of KEYWRAP (R500) as words: version and ESC_V, CHECK, and wrapped keys. -/
def State.keyWrapWords (s : State) : List Word :=
  (atBit 1 0 ||| atFlag s.sec.wrap.escV 32) :: keyCheck s.sec.wrap.bkek s.beam.setId
    :: (List.range 30).map fun i => s.wrapWord (i + 2)

/-- CUSTODY_GET. -/
def execCustodyGet (src : Nat) (s : State) : Host.Outcome State Fault Refusal :=
  run (fun s => s.custody src fun s => (s, s.keyWrapWords ++ [s.beam.setId])) s

/-- CHECK in the superblock in force of a group of drives: the copy with the highest SBGEN (R281). -/
def checkInForce (ds : List DriveReport) : Word :=
  (ds.foldl (fun (b : Nat × Word) d => if b.1 ≤ d.sbgen then (d.sbgen, d.check) else b) (0, 0)).2

/-- The status of KEY_DELIVER (R503): 0 success, 1 MISMATCH, 2 NO_SET, 3 OWNED. -/
def State.deliverStatus (s : State) (setId : Word) (bkek : BitVec 256) (ds : List DriveReport) : Nat :=
  let g := setDrives ds setId
  if s.boot.setId ≠ 0 || ! s.beamless then 3
  else if g.isEmpty || setId = 0 then 2
  else if keyCheck bkek setId ≠ checkInForce g then 1
  else 0

/-- KEY_DELIVER (R503): on success the set is recorded, DEV_WRAP is written in a custody transfer, and R308 runs again from
step 1. -/
def execKeyDeliver (src : Nat) (setId : Word) (bkek : BitVec 256) (drives : List DriveReport) (s : State) :
    Host.Outcome State Fault Refusal :=
  run (fun s => s.custody src fun s =>
    let st := s.deliverStatus setId bkek drives
    if st ≠ 0 then (s, [BitVec.ofNat 64 st])
    else
      let s1 : State := { s with
        boot := { s.boot.keep 0 with setId := setId }
        sec := { s.sec with waitKey := false, wrap := { s.sec.wrap with bkek := bkek, ours := true } }
        beam := { s.beam with waiting := false, sbgen := s.beam.sbgen + 2 } }
      (s1.choose drives, [0])) s

/-! ### Sanitize and Secure Erase (R506, R73) -/

/-- Steps 1 to 3: every unit is ZERO, every swatch dropped, every region reads zeros; a new BKEK, every SALT 0, and a new
salt for each slot that an ACTIVE entry names. -/
def State.sanitizeAll (s : State) : State :=
  let units := s.pmapNow.unitList
  let s1 := (s.map.swatches.keysWhere fun _ w => decide (w.st ≠ .free)).foldl (fun (s : State) k => s.dropSwatch k) s
  let s2 := s1.zeroUnits fun _ => true
  let s3 := units.foldl (fun (s : State) u => s.delta (.unit u false (s.unit u).binding)) s2
  let b := s3.draw
  let slots := ((s.regions.filter fun e => e.2.active && (e.2.mapped || e.2.window = 2)).map fun e => e.2.key).eraseDups
  let held := b.2.dram.frames.keysWhere fun _ u => match u with | .keep _ => true | _ => false
  let b2 := held.foldl (fun (s : State) f => s.freeFrame f) b.2
  let s4 : State := { b2 with
    near := { b2.near with scr := [] }
    vlt := { b2.vlt with keep := [], keepPoison := [] }
    sec := { b2.sec with bkek := some b.1, salts := [] } }
  slots.foldl (fun (s : State) k =>
    let d := s.draw
    { d.2 with sec := { d.2.sec with salts := d.2.sec.salts.set 0 k (newSalt d.1 (s3.sec.salts.get 0 k)) } }) s4

/-- Start the background command; Busy while one runs, while a slot command runs, and while memory is not active. -/
def State.sanitize (s : State) (h : Nat) : State × Nat × List Word :=
  if s.sec.sanitizing.isSome || s.sec.cmd.isSome || ! s.vlt.active || s.vlt.stopped || s.beam.setId = 0 then (s, 6, [])
  else ({ s.sanitizeAll with sec := { s.sanitizeAll.sec with sanitizing := some h } }, 1, [])

/-- SANITIZE. -/
def execSanitize (h : Nat) (s : State) : Host.Outcome State Fault Refusal :=
  run (fun s => s.mgmtMailbox h 0x4400 fun s => s.sanitize h) s

/-- SECURE_ERASE. -/
def execSecureErase (h : Nat) (s : State) : Host.Outcome State Fault Refusal :=
  run (fun s => s.mgmtMailbox h 0x4401 fun s => s.sanitize h) s

/-- SANITIZE_COMPLETE (R506 step 4): the superblocks are written with a custody transfer, and the completion is reported. -/
def execSanitizeComplete (s : State) : Host.Outcome State Fault Refusal :=
  run (fun s =>
    match s.sec.sanitizing, s.sec.bkek with
    | some h, some k =>
      (({ s with sec := { s.sec with
          sanitizing := none
          wrap := { salts := s.sec.salts, escV := s.boot.custodian.isSome, custodian := s.boot.custodian, bkek := k, ours := true } } }
        : State).twoSupers).emit (.mailbox h 0 [])
    | _, _ => s) s

end Sys2Proof.Machine
end

