-- ==== Sys2Proof/Machine/Faults.lean ====
section
/-! DEFINITION. Faults (chapter 14): leaky buckets and retirement by kind (R474 to R481), tile retirement (R175, R603),
fatal errors (R488, R578), triplicated fields (R555), the notice FIFO's reader (R493) and fault injection (R495). -/
namespace Sys2Proof.Machine

/-! ### Tiles (R175, R481, R603) -/

/-- The requests of a transaction that a retired tile abandons and the port block sends again (R603): not one that has its
answer, a fill that no requester waits for, or one that waits in the retry queue. -/
def Txn.abandoned (x : Txn) : List Req :=
  (match x.phase with
  | .done | .victim | .noEntry => []
  | .fill _ => match x.req.kind with | .atomic _ _ _ _ => [x.req] | _ => []
  | _ => if x.req.src = .nobody then [] else [x.req]) ++ x.queue

/-- A hand-off ends with the retirement of one of its tiles: the old owner before its COMMIT, or the target before it owns the
line. -/
def HandOff.broken (x : HandOff) (t : Nat) : Bool := (x.src = t && x.leaving) || (x.dst = t && ! x.settling)

/-- Requests that a retired tile had taken and not answered, or that wait there for a way or a write-buffer entry: its
open transactions end and every request is held to be taken again, in the order of the lists. The BISnps that they had sent stay
outstanding, and the BIRsps that answer them count for nothing (R603). -/
def State.abandonTile (s : State) (t : Nat) : State :=
  let mine := fun (line : Nat) => s.ownerTile line = t
  let taken := (s.coh.txns.filter fun e => mine e.1).flatMap fun e => (e.2.map Txn.abandoned).getD []
  let ends := fun (x : Option HandOff) => (x.map fun x => x.broken t).getD false
  let broken := s.coh.handoff.filter fun e => ends e.2
  let hand := broken.flatMap fun e => (e.2.map fun x => x.held ++ x.pending).getD []
  let wait := ((s.coh.sfWait.filter fun e => mine e.2.line) ++ (s.coh.retry.filter fun e => e.1 = t)
    ++ (s.near.wbRetry.filter fun e => e.1 = t)).map Prod.snd
  let s1 : State := { s with
    coh := { s.coh with
      txns := s.coh.txns.restrict fun line _ => ! mine line
      handoff := s.coh.handoff.restrict fun _ x => ! ends x
      snoops := s.coh.snoops.map fun x => if mine x.line then { x with stale := true } else x
      sfWait := s.coh.sfWait.filter fun e => ! mine e.2.line
      retry := s.coh.retry.filter fun e => e.1 ≠ t
      recHeld := s.coh.recHeld ++ taken ++ hand ++ wait }
    near := { s.near with wbRetry := s.near.wbRetry.filter fun e => e.1 ≠ t } }
  broken.foldl (fun (s : State) e => match e.2 with
    | some x =>
      if x.src = t && x.arriving then
        match s.findWay x.dst e.1 with
        | some w => s.setWay x.dst (ncSet e.1) w {}
        | none => s
      else s
    | none => s) s1

/-- A line lost its only current copy in an SRAM: the newest write to it is poison, which reaches its lower tier like any other
write. -/
def State.loseLine (s : State) (case line : Nat) : State :=
  match s.regionOf line with
  | some (n, r) =>
    let q : Req := { src := .nobody, kind := .wrI, line := line, mask := fullMask, poison := true }
    (((s.buffer (s.ownerTile line) n r q).mark n r line).poisoned case line 1)
  | none => s

/-- Step 1 of R175: the DURABLE entries of the tile drain from its buddy, which sends the completions that still wait once they
have drained (R603); entries it held for others get another buddy. A VOLATILE entry that had not begun to drain is lost. -/
def State.moveEntries (s : State) (t : Nat) : State :=
  let b := s.buddyTile t
  let lost := s.near.wb.filter fun e => e.tile = t && ! e.durable && ! e.draining
  let s1 : State := { s with near := { s.near with
    wb := (s.near.wb.filter fun e => ! lost.contains e).map fun e =>
      if e.tile = t then { e with tile := b, buddy := s.buddyTile b, confirmed := true }
      else if e.buddy = t then { e with buddy := s.buddyTile e.tile, confirmed := ! e.durable }
      else e } }
  lost.foldl (fun (s : State) e => s.loseLine 3 e.line) s1

/-- Ways of a slice with their set and line. -/
def State.sliceLines (s : State) (t : Nat) : List (Nat × Nat × NcWay) :=
  (s.near.nc.filter fun e => e.1 / 524288 = t && e.2.v).map fun e =>
    (e.1 % 16, ncLine (e.1 / 16 % 32768) e.2.tag, e.2)

/-- The slice is lost: a dirty line of a VOLATILE region that it held, or that was on its way there, becomes poison in its lower
tier. -/
def State.loseSlice (s : State) (t : Nat) (coming : List Nat) : State :=
  let dirty := ((s.sliceLines t).filter fun e => e.2.2.d).map fun e => e.2.1
  let s1 : State := { s with
    near := { s.near with
      nc := s.near.nc.restrict fun k _ => k / 524288 ≠ t, tree := s.near.tree.restrict fun k _ => k / 32768 ≠ t
      side := s.near.side.restrict fun k _ => k / 524288 ≠ t
      off := s.near.off.set 0 t 0, lockCleaning := s.near.lockCleaning.set 0 t 0 }
    coh := { s.coh with
      sf := s.coh.sf.restrict fun k _ => k / 2097152 ≠ t, ptr := s.coh.ptr.restrict fun k _ => k / 131072 ≠ t } }
  (dirty ++ coming).foldl (fun (s : State) l => s.loseLine 3 l) s1

/-- The lines that a tile owns for another home tile. -/
def State.lentTo (s : State) (t : Nat) : List Nat := (s.coh.lent.filter fun e => e.2 = some t).map Prod.fst

/-- Step 2 of R175: each home tile owns its lines that were lent to the tile again, a TRACKED line with a WIDE entry; where its
set is full the entry waits for a way. Requests for these lines are held until the recovery ends. -/
def State.reclaim (s : State) (t : Nat) : State :=
  (s.lentTo t).foldl (fun (s : State) l =>
    let s1 := s.ownedBy l none
    let tracked := ((s.regionOf l).map fun e => decide (e.2.coh = 1)).getD false
    let room := s1.freeSf (s1.homeTile l) (sfSet l)
    let s2 := if tracked then s1.recordSf l .wide 0 else s1
    { s2 with coh := { s2.coh with
      recLines := s2.coh.recLines ++ [l]
      wideWait := if tracked && room.isNone then s2.coh.wideWait ++ [l] else s2.coh.wideWait } }) s

/-- Step 3 of R175: a line that another tile owns for a recovering home is on its way back to the substitute home tile, as an
evicted line is (R168). -/
def State.recallLent (s : State) : State :=
  s.coh.lent.foldl (fun (s : State) e =>
    match e.2 with
    | some o =>
      if s.recoveryHolds e.1 then
        match s.findWay o e.1 with
        | some w => s.setWay o (ncSet e.1) w { s.way o (ncSet e.1) w with evicting := true, lock := false }
        | none => s
      else s
    | none => s) s

/-- A WIDE entry that waits for a way takes one, or a victim of its set is recalled for it (R151). -/
def State.placeWide (s : State) : State :=
  s.coh.wideWait.foldl (fun (s : State) l =>
    let home := s.homeTile l
    match s.freeSf home (sfSet l), s.sfVictim home (sfSet l) with
    | some _, _ =>
      let s1 := s.recordSf l .wide 0
      { s1 with coh := { s1.coh with wideWait := s1.coh.wideWait.filter fun x => x ≠ l } }
    | none, some w => s.startVictim home (sfSet l) w
    | none, none => s) s

/-- Retire a tile (R175, R481): 0 bucket, 1 tag and side word, 2 snoop-filter entry, 3 too few ways. -/
def State.retireTile (s : State) (t cause : Nat) : State :=
  let lost := ((s.sliceLines t).filter fun e => e.2.2.lock).length
  let coming := (s.coh.handoff.filter fun e => match e.2 with
    | some x => x.dst = t && x.gone && x.arriving && x.carried.d && ! x.evict
    | none => false).map Prod.fst
  let s1 := (s.abandonTile t).retireTaken 4 t
  let uncached := s1.map.pages.mapVals {} fun pn p => if s.mapTile pn = t then p.uncached else p
  let forgot := s1.map.units.mapVals {} fun _ d => { d with dirIn := putBit d.dirIn t false }
  let s2 : State := { s1 with
    boot := { s1.boot.keep 1 with retTiles := putBit s1.boot.retTiles t true }
    coh := { s1.coh with recovering := putBit s1.coh.recovering t true }
    map := { s1.map with pages := uncached, units := forgot } }
  let s3 := (((s2.moveEntries t).reclaim t).loseSlice t coming).recallLent
  let s4 := if (s3.chan t).retired then s3 else s3.retireChannel t
  (((s4.ringsOfTile t).note ⟨2, 0x15, 4 * 256 + t + cause % 16 * 4096 + min lost 65535 * 65536, none⟩).eventAll
    ⟨.memoryModule, 0x15, t⟩).checkSeals

/-- A slice keeps fewer than 2 ordinary ways, or fewer than 8 snoop-filter ways (R138, R177). -/
def State.tooFewWays (s : State) (t : Nat) : Bool :=
  decide ((s.ordinaryWays t).length < 2) || decide ((s.sfWays t).length < 8)

/-- TILE_RETIRE (R175): the bucket's retirement is due, the command reports an uncorrectable tag and side word or
snoop-filter entry (R134, R177), or the slice keeps too few ways. -/
def execTileRetire (tile cause : Nat) (s : State) : Host.Outcome State Fault Refusal :=
  run (fun s => s.when (decide (tile < 16) && ! s.tileRetired tile
      && (match cause with
        | 0 => s.retireDue 4 tile
        | 1 | 2 => true
        | 3 => s.tooFewWays tile
        | _ => false)) fun s => s.retireTile tile cause) s

/-- The recovery of a tile has nothing left to move (R175): its entries have drained, no other tile owns a line that was homed
there, and every WIDE entry has its way. -/
def State.recovered (s : State) : Bool :=
  (s.near.wb.all fun e => e.tile = s.ownerTile e.line) && s.coh.wideWait.isEmpty
    && ! (s.coh.lent.any fun e => e.2.isSome && s.recoveryHolds e.1)

/-- TILE_RECOVERY_END (R175 steps 4 and 5): with nothing left to move the retired-home fallback starts, and once no recovery runs
the held requests are taken in arrival order; else the lines and entries that are left go on their way. -/
def execTileRecoveryEnd (tile : Nat) (s : State) : Host.Outcome State Fault Refusal :=
  run (fun s => s.when (s.coh.recovering.getLsbD tile) fun s =>
    if ! s.recovered then s.recallLent.placeWide
    else
      let s1 : State := { s with coh := { s.coh with recovering := putBit s.coh.recovering tile false, wide := true } }
      if s1.coh.recovering = 0 then
        let held := s1.coh.recHeld
        held.foldl (fun (s : State) q => s.route q)
          ({ s1 with coh := { s1.coh with recHeld := [], recLines := [] } } : State)
      else s1) s

/-! ### Buckets and units (R474 to R480) -/

/-- BUCKET_LEAK (R474): LEAK_MS of its kind have passed. -/
def execBucketLeak (kind : UnitKind) (unit : Nat) (s : State) : Host.Outcome State Fault Refusal :=
  run (fun s => s.when (decide (unit < kindUnits (kindNo kind))) fun s =>
    let k := kindNo kind
    let s1 := s.elapse ((s.bucket k unit).leakAt + max 1 (fld (s.flt.kind k) 16 24) * 2000000)
    s1.modBucket k unit fun b => { b with count := b.count - 1, leakAt := s1.clock }) s

/-- Weights of the counted errors of a kind (R474). -/
def kindWeights (k : Nat) : List Nat :=
  match k with
  | 0 => [1, 16] | 1 => [2, 4] | 2 => [1, 8] | 3 => [1] | 4 => [1, 4] | 5 => [4, 8] | 6 => [1, 4] | 7 => [1] | 8 => [1, 4]
  | _ => []

/-- A host port is retired (R480): both heads are treated as dropped and held down. -/
def State.retirePort (s : State) (k : Nat) : State :=
  let s1 := ([2 * k, 2 * k + 1].filter fun h => s.present h).foldl (fun (s : State) h => s.retireHead h) (s.retireTaken 7 k)
  (s1.note ⟨2, 0x17, 7 * 256 + k, none⟩).eventAll ⟨.memoryModule, 0x17, k⟩

/-- The unit is retired. -/
def State.unitRetired (s : State) (k u : Nat) : Bool :=
  match k with
  | 0 => s.boot.retRanks.getLsbD u
  | 1 => (s.chan u).retired
  | 2 => s.boot.retNc.getLsbD u
  | 3 => s.boot.retSf.getLsbD u
  | 4 => s.tileRetired u
  | 5 => s.beam.retired.getLsbD u
  | 8 => s.slv.laneRet.getLsbD u
  | 6 => (s.ports.laneRet.get 0 (u / 8)).getLsbD (u % 8)
  | _ => (s.bucket k u).retired

/-- Retire a unit of a kind (R480). -/
def State.retireUnit (s : State) (k u : Nat) : State :=
  match k with
  | 0 => s.retireRank (u / 4) (u % 4) []
  | 1 => s.retireChannel u
  | 2 => s.retireNcWay (u / 16) (u % 16)
  | 3 => s.retireSfWay (u / 16) (u % 16)
  | 4 => s.retireTile u 0
  | 5 => s.retireSlot u 0
  | 6 => s.retireLane (u / 8) (u % 8)
  | 7 => s.retirePort u
  | 8 => s.retireSlvLane u
  | _ => s

/-- Carry out a retirement that is due. -/
def State.retireIfDue (s : State) (k u : Nat) : State :=
  if s.retireDue k u && ! s.unitRetired k u then s.retireUnit k u else s

/-- Uncorrectable data of a way (R134): a scratch line reads as poison until all 64 bytes are written; a line with D clear is read
again from its lower tier with its write-buffer bytes; a line with D set is poison. -/
def State.dataError (s : State) (n w set : Nat) : State :=
  let x := s.way n set w
  let line := ncLine set x.tag
  match s.scratchWays n |>.reverse.idxOf? w with
  | some slot => s.setScr (slot * 524288 + set * 16 + n) { s.poolCell (slot * 524288 + set * 16 + n) with poison := true }
  | none =>
    if ! x.v then s
    else if x.d then (s.setWay n set w { x with poison := true }).poisoned 1 line 1
    else match s.regionOf line with
      | some (_, r) =>
        let c := s.withBuffer line (s.lowerLine r line)
        s.setWay n set w { x with data := c.data, poison := c.poison }
      | none => s.setWay n set w {}

/-- An uncorrectable tag with its side word readable (R134): TAG and D come from the side word; a line with D set is written back
and invalidated, one with D clear is invalidated, its ownership returning first where it is lent (R168). -/
def State.tagError (s : State) (n w set : Nat) : State :=
  let x := s.way n set w
  let b := s.near.side.get 0 (ncKey n set w)
  let d := b.getLsbD 24
  let tag := if d then (b.setWidth 24).toNat else x.tag
  let line := ncLine set tag
  if ! x.v then s
  else if d || s.ownerTile line ≠ s.homeTile line then
    s.setWay n set w { x with tag := tag, d := d, evicting := true, lock := false }
  else s.setWay n set w {}

/-- An uncorrectable write-buffer entry (R102, R134): the buddy entry of a DURABLE one drains in its place, with the same bytes;
a VOLATILE one leaves poison in its line's lower tier. -/
def State.entryError (s : State) (id : Nat) : State :=
  match s.near.wb.find? fun e => e.id = id with
  | some e =>
    if e.durable then s
    else
      ({ s with near := { s.near with wb := s.near.wb.map fun x =>
        if x.id = id then { x with poison := true } else x } } : State).poisoned 1 e.line 1
  | none => s

/-- The effect of an SRAM error beyond its counting, for the unit and weight that R474 gives it. An uncorrectable error in the
selvedge receiver's credit accounting makes its direction fall back to XOFF mode (R455). -/
def State.sramError (s : State) (k u weight : Nat) : SramErr → State
  | .data set => if k = 2 && weight = 8 && decide (set < 32768) then s.dataError (u / 16) (u % 16) set else s
  | .tag set => if k = 2 && weight = 0 && decide (set < 32768) then s.tagError (u / 16) (u % 16) set else s
  | .tree set =>
    let w := s.near.tree.get 0 (u / 16 * 32768 + set)
    if k = 2 && weight = 0 && decide (set < 32768) then
      { s with near := { s.near with tree := s.near.tree.set 0 (u / 16 * 32768 + set) (w ^^^ 1) } }
    else s
  | .entry id => if k = 4 && weight = 0 then s.entryError id else s
  | .mapEntry pn => if k = 4 && weight = 4 && s.mapTile pn = u then s.modPage pn fun p => p.uncached else s
  | .credits =>
    if k = 8 && weight = 0 && s.slv.l0 then
      (({ s with slv := { s.slv with fbRx := true } } : State).slvPush 0 (pkt 0x07 0 [])).note ⟨1, 0x36, 0, none⟩
    else s
  | .plain => s

/-- ERROR_COUNTED (R474 to R476): an SRAM error has its effect at its place (R134); a counted error of one of its kind's weights
goes into the bucket; once it is handled, a unit that it took over the threshold is retired. An uncorrectable error in a port's
decode arrays, weight 0, retires the port at once. -/
def execErrorCounted (kind : UnitKind) (unit weight : Nat) (place : SramErr) (s : State) : Host.Outcome State Fault Refusal :=
  run (fun s =>
    let k := kindNo kind
    s.when (decide (unit < kindUnits k)) fun s0 =>
      let s := s0.sramError k unit weight place
      if k = 7 && weight = 0 then (if s.unitRetired 7 unit then s else s.retirePort unit)
      else if (kindWeights k).contains weight then (s.bump k unit weight).retireIfDue k unit
      else s) s

/-- UNIT_RETIRE (R476, R480): a retirement that a bucket asked for, or that R478 deferred, is carried out. -/
def execUnitRetire (kind : UnitKind) (unit : Nat) (s : State) : Host.Outcome State Fault Refusal :=
  run (fun s => s.retireIfDue (kindNo kind) unit) s

/-! ### FATAL errors (R488, R578) -/

/-- The row of R488. -/
def fatalNo : FatalCause → Nat
  | .ringStop => 0 | .selfCheck => 1 | .trw => 2

/-- A FATAL error: the notice with its severity record, and an orderly shutdown if the vault sequencer is sound. Either way
no more CXL.mem requests are accepted until a cold reset. -/
def State.fatalError (s : State) (cause unit : Nat) (sound : Bool) : State :=
  if s.flt.fatal.isSome then s
  else
    let s1 := ({ s with flt := { s.flt with fatal := some (cause, sound) } } : State).note
      ⟨3, 0x3F, cause, some (unit % 4096)⟩
    if sound then s1.startShutdown false else s1

/-- FATAL_ERROR. -/
def execFatalError (cause : FatalCause) (unit : Nat) (vaultSound : Bool) (s : State) : Host.Outcome State Fault Refusal :=
  run (fun s => s.fatalError (fatalNo cause) unit vaultSound) s

/-! ### Triplicated fields (R555) -/

/-- One field made equal in its three copies where two agree. -/
def Trw.repairField (t : Trw) (f : Nat × Nat) : Trw :=
  if Machine.differ3 (Machine.fld t.a f.1 f.2) (Machine.fld t.b f.1 f.2) (Machine.fld t.c f.1 f.2) then t
  else
    let v := t.fld f.1 f.2
    ⟨putFld t.a f.1 f.2 v, putFld t.b f.1 f.2 v, putFld t.c f.1 f.2 v⟩

/-- Repair every field of a register. -/
def Trw.repair (fs : List (Nat × Nat)) (t : Trw) : Trw := fs.foldl (fun t f => t.repairField f) t

/-- TRW fields of RSV_CTL (OVERRIDE, INTERVAL_H, FLUSH_MS), VLT_FLOOR, VLT_CTL, SLV_PAIR and GLB_CTL. -/
def trwRsvCtl : List (Nat × Nat) := [(0, 1), (16, 8), (24, 11)]
/-- See trwRsvCtl. -/
def trwFloor : List (Nat × Nat) := [(0, 16), (16, 16), (32, 16)]
/-- See trwRsvCtl. -/
def trwVltCtl : List (Nat × Nat) := [(2, 1)]
/-- See trwRsvCtl. -/
def trwPair : List (Nat × Nat) := [(0, 64)]
/-- See trwRsvCtl. -/
def trwGlb : List (Nat × Nat) := [(0, 4)]

/-- Some TRW field differs in all three copies. -/
def State.trwBroken (s : State) : Bool :=
  s.glb.mgmtHead.broken trwGlb || s.rsv.ctl.broken trwRsvCtl || s.rsv.bank.broken rsvBankFields
    || s.rsv.flush.broken rsvFlushFields || s.rsv.sense.broken rsvSenseFields || s.vlt.ctl.broken trwVltCtl
    || s.vlt.floor.broken trwFloor || s.slv.pairId.broken trwPair

/-- Every TRW field repaired. -/
def State.trwRepair (s : State) : State :=
  { s with
    glb := { s.glb with mgmtHead := s.glb.mgmtHead.repair trwGlb }
    rsv := { s.rsv with
      ctl := s.rsv.ctl.repair trwRsvCtl, bank := s.rsv.bank.repair rsvBankFields
      flush := s.rsv.flush.repair rsvFlushFields, sense := s.rsv.sense.repair rsvSenseFields }
    vlt := { s.vlt with ctl := s.vlt.ctl.repair trwVltCtl, floor := s.vlt.floor.repair trwFloor }
    slv := { s.slv with pairId := s.slv.pairId.repair trwPair } }

/-- TRW_SCRUB (R555): 1 ms after the last one, a copy that differs is rewritten; three different copies are FATAL. -/
def execTrwScrub (s : State) : Host.Outcome State Fault Refusal :=
  run (fun s =>
    let s0 := s.elapse (s.glb.trwAt + 2000000)
    let s1 := ({ s0 with glb := { s0.glb with trwAt := s0.clock } } : State).trwRepair
    if s1.trwBroken then s1.fatalError 2 0 true else s1) s

/-! ### The reader of the notice FIFO (R493) -/

/-- Take the oldest word. -/
def Flt.pop (f : Flt) : Word × Flt :=
  match f.fifo with
  | [] => (0, f)
  | w :: ws => (w, { f with fifo := ws, mid := ! flag w 61 })

/-- A read of NTC_POP of a size in bytes (R493, R546): only an 8-byte read by the management head or interface removes a
word. -/
def State.ntcPop (s : State) (src size : Nat) : Word × State :=
  if s.isMgmt src && size = 8 then (s.flt.pop.1, { s with flt := s.flt.pop.2 }) else (0, s)

/-- NTC_POP. -/
def execNtcPop (src size : Nat) (s : State) : Host.Outcome State Fault Refusal :=
  run (fun s => s.when (s.reaches src) fun s => (s.ntcPop src size).2.emit (.regRead src (s.ntcPop src size).1)) s

/-! ### Injection (R495, R601) -/

/-- FLT_INJECT by MODE: 1 counts a corrected error of weight 1, 2 retires the unit now. A unit its kind does not have is
left alone. -/
def State.inject (s : State) (mode k u : Nat) : State :=
  if kindUnits k ≤ u then s
  else match mode with
    | 1 => (s.bump k u 1).retireIfDue k u
    | 2 =>
      if s.unitRetired k u then s
      else
        let d := if s.flt.deferred.contains (k, u) then s.flt.deferred else s.flt.deferred ++ [(k, u)]
        ({ s with flt := { s.flt with deferred := d } } : State).retireUnit k u
    | _ => s

/-- FLT_INJECT_CORRECTED. -/
def execFltInjectCorrected (src : Nat) (kind : UnitKind) (unit : Nat) (s : State) : Host.Outcome State Fault Refusal :=
  run (fun s => s.globalWrite src (regArgBar 0xE080) fun s => s.inject 1 (kindNo kind) unit) s

/-- FLT_INJECT_RETIRE. -/
def execFltInjectRetire (src : Nat) (kind : UnitKind) (unit : Nat) (s : State) : Host.Outcome State Fault Refusal :=
  run (fun s => s.globalWrite src (regArgBar 0xE080) fun s => s.inject 2 (kindNo kind) unit) s

end Sys2Proof.Machine
end

