-- ==== Sys2Proof/Machine/Registers.lean ====
section
/-! DEFINITION. The register map (chapter 18): what every register of BAR0 and of indirect space reads as, what a write
to it does under the permissions of R548, the IDX pairs (R556, R557), the fence (R553) and the wide-value mailbox (R558,
R559). -/
namespace Sys2Proof.Machine

/-! ### Reads: BAR0 (R546, R561, R563) -/

/-- GLB_STAT. -/
def State.glbStat (s : State) : Word :=
  atBit s.glb.present.toNat 0 ||| atFlag s.glb.steward 16 ||| atFlag (s.linkUp s.mgmtHead) 17

/-- HD_ID of head h as source src reads it. -/
def State.hdId (s : State) (src h : Nat) : Word :=
  atBit h 0 ||| atBit (h / 2) 4 ||| atFlag true 8 ||| atFlag (h = s.mgmtHead) 9 ||| atFlag (src = h) 10

/-- HD_LINK_STAT of head h. -/
def State.linkStat (s : State) (h : Nat) : Word :=
  let l := (s.head h).link
  atBit l.rate 0 ||| atBit l.width 2 ||| atFlag l.up 4 ||| atFlag l.flit256 5 ||| atFlag l.ext128 6 ||| atFlag l.ideActive 7
    ||| atFlag (s.bifur (h / 2)) 8 ||| atFlag l.recovery 9 ||| atFlag (s.withheld h) 10 ||| atFlag l.memOff 11
    ||| atBit (s.ports.laneRet.get 0 (h / 2)).toNat 16

/-- HD_DEVLOAD of head h. -/
def State.devloadWord (s : State) (h : Nat) : Word :=
  let l := (s.head h).load
  atBit (s.devLoad h) 0 ||| atBit l.budget 2 ||| atBit (if s.durableWriter h then l.cap else 0) 4
    ||| atFlag (s.flushLoad = 3) 6

/-- The head block (R563); an absent head's block reads as zeros (R60). -/
def State.headWord (s : State) (src h o : Nat) : Word :=
  if ! s.present h then 0
  else match o with
    | 0x000 => s.hdId src h
    | 0x010 => (s.head h).link.ctl
    | 0x018 => s.linkStat h
    | 0x020 => s.devloadWord h
    | 0x028 => s.brakeWord h
    | _ => 0

/-- The QOS block. -/
def State.qosWord (s : State) (off : Nat) : Word :=
  let b := s.qos.heads.get {} ((off - 0x8100) / 16)
  if 0x8100 ≤ off && off < 0x8200 then
    if off % 16 = 0 then b.reg
    else atBit b.rdRate 0 ||| atBit b.wrRate 11 ||| atBit b.bmRate 22
      ||| atBit (s.head ((off - 0x8100) / 16)).load.demotePct 32
  else match off with
    | 0x8000 => s.qos.ctl
    | 0x8008 => atBit s.qos.gDram 0 ||| atBit s.qos.gBeam 16
    | 0x8010 => atBit s.qos.scaleD 0 ||| atBit s.qos.scaleB 10 ||| atFlag (s.qos.scaleD < 1000 || s.qos.scaleB < 1000) 20
    | _ => 0

/-- RSV_STAT. -/
def State.rsvStat (s : State) : Word :=
  atBit s.rsv.health 0 ||| atFlag s.rsv.charging 3 ||| atFlag s.rsv.testing 4 ||| atFlag s.rsv.withhold 5
    ||| atFlag s.fullClean 6 ||| atBit s.rsv.fcause.toNat 8 ||| atBit s.rsv.testResult 16

/-- RSV_EST; without an estimate every field is 0. -/
def State.rsvEst (s : State) : Word :=
  match s.cEst with
  | some e => atBit (e.1.mF % 65536) 0 ||| atBit (s.esr % 65536) 16 ||| atBit (min 65535 (s.boot.opmin - e.1.opmin)) 32
      ||| atFlag e.2 48
  | none => 0

/-- The RSV block. -/
def State.rsvWord (s : State) (off : Nat) : Word :=
  match off with
  | 0x9000 => s.rsv.ctl.read rsvCtlFields
  | 0x9008 => s.rsvStat
  | 0x9010 => s.rsv.bank.read rsvBankFields
  | 0x9018 => s.rsv.flush.read rsvFlushFields
  | 0x9020 => s.rsv.sense.read rsvSenseFields
  | 0x9028 => s.rsvEst
  | 0x9030 => atBit (s.rsv.vNow % 65536) 0 ||| atBit (s.rsv.eUse % 65536) 16
  | 0x9038 => atBit (s.rsv.dMax % 2 ^ 34) 0
  | 0x9040 => atBit (s.rsv.dEff % 2 ^ 34) 0 ||| atBit s.rsv.limit 34 ||| atFlag s.brace 37
  | 0x9048 => s.rsv.ovr
  | _ => 0

/-- The code of a vault state. -/
def vstateCode : VState → Nat
  | .run => 0 | .brace => 1 | .s1 => 2 | .s2 => 3 | .s3 => 4 | .s4 => 5 | .s5 => 6 | .wait => 7 | .restore => 8
  | .shutdownDone => 9

/-- The VLT block. -/
def State.vltWord (s : State) (off : Nat) : Word :=
  let v := s.vlt
  match off with
  | 0xA000 => v.ctl.read trwVltCtl
  | 0xA008 => v.floor.read trwFloor
  | 0xA010 => atBit (vstateCode v.st) 0 ||| atBit v.source 4 ||| atFlag v.hold 7 ||| atFlag v.stopped 8
      ||| atFlag v.recovered 9 ||| atBit (v.vin % 65536) 16
  | 0xA018 => atBit (v.eRem / tenthJoule % 65536) 0 ||| atBit (v.left % 2 ^ 34) 16
  | 0xA020 => atBit v.outcome 0 ||| atBit v.resumeKind 2 ||| atBit (min 65535 v.durMs) 16
  | 0xA028 => atBit (v.shortPages % 2 ^ 34) 0
  | 0xA030 => atFlag v.active 0 ||| atFlag v.writable 1 ||| atBit (min 255 (s.slv.rgns.countWhere fun _ x => x.held)) 8
      ||| atBit (v.activeMs % 65536) 16
  | _ => 0

/-- The code of a pairing state. -/
def pairCode : PairSt → Nat
  | .off => 0 | .seek => 1 | .paired => 2 | .hold => 3 | .solo => 4

/-- The SLV block. -/
def State.slvWord (s : State) (off : Nat) : Word :=
  let v := s.slv
  match off with
  | 0xC000 => v.ctl
  | 0xC008 => v.pairId.read trwPair
  | 0xC010 => atBit (pairCode v.pair) 0 ||| atFlag v.follow 3 ||| atBit v.rate 4 ||| atBit v.width 6 ||| atFlag v.l0 8
      ||| atFlag v.ide 9 ||| atFlag v.fbTx 10 ||| atFlag v.fbRx 11 ||| atFlag v.obeys 12 ||| atFlag v.rx.xoffOut 13
      ||| atBit v.peerHealth 14 ||| atFlag v.peerWithhold 17 ||| atBit v.laneRet.toNat 24 ||| atBit (v.session % 2 ^ 32) 32
  | 0xC018 => atBit (s.divMin % 2 ^ 64) 0
  | _ => 0

/-- The PMC block: the dump ring. -/
def State.pmcWord (s : State) (off : Nat) : Word :=
  let p := s.pmc
  match off with
  | 0xD000 => p.dctl
  | 0xD008 => p.dbase
  | 0xD010 => atBit (p.dhead % 4096) 0 ||| atBit (p.dtail % 4096) 16 ||| atFlag p.run 32 ||| atBit p.derr 33
  | _ => 0

/-- The FLT block. -/
def State.fltWord (s : State) (off : Nat) : Word :=
  if 0xE000 ≤ off && off ≤ 0xE040 then s.flt.kind ((off - 0xE000) / 8)
  else if off = 0xE088 then
    atBit s.boot.retTiles.toNat 0 ||| atFlag (! s.flt.deferred.isEmpty && s.deferring) 16
  else 0

/-- The NTC block, NTC_POP apart. -/
def State.ntcWord (s : State) (off : Nat) : Word :=
  match off with
  | 0x3008 => atBit s.flt.noteCount 0 ||| atBit s.flt.fifo.length 16 ||| atFlag s.flt.alert 27 ||| atBit s.flt.droppedTotal 32
  | 0x3010 => s.flt.wm
  | _ => 0

/-- The PWR block. -/
def State.pwrWord (s : State) (off : Nat) : Word :=
  if 0xF010 ≤ off && off < 0xF050 then s.calWord ((off - 0xF010) / 8)
  else if 0xF100 ≤ off && off < 0xF180 then s.quietWord ((off - 0xF100) / 8)
  else match off with
    | 0xF000 => s.pwr.ctl
    | 0xF008 => s.nextWord
    | 0xF050 => atBit s.pwr.low.toNat 0
    | _ => 0

/-- IDX_ADDR of a pair. -/
def IdxPair.word (p : IdxPair) : Word := atBit p.index 0 ||| atFlag p.autoInc 24 ||| atBit p.err 28

/-- Pair p of a source. -/
def State.idxPair (s : State) (src p : Nat) : IdxPair := s.glb.idx.get {} (4 * src + p)

/-- A source's mailbox. -/
def State.mbx (s : State) (src : Nat) : Mbx := s.glb.mbx.get {} src

/-- The MBX block: MBX_DATA reads as 0 while VALID is 0 (R558). -/
def State.mbxWord (s : State) (src off : Nat) : Word :=
  let m := s.mbx src
  match off with
  | 0x2000 => m.sel
  | 0x2008 => atFlag m.valid 0 ||| atFlag m.busy 1 ||| atBit m.err 2
  | _ => if 0x2010 ≤ off && off ≤ 0x2048 && m.valid then m.data.getD ((off - 0x2010) / 8) 0 else 0

/-- The GLB block: GLB_FENCE as the next read of it returns it. -/
def State.glbWord (s : State) (src off : Nat) : Word :=
  match off with
  | 0x0000 => glbId
  | 0x0008 => glbRev
  | 0x0010 => atBit ((s.glb.fences.get 0 src + 1) % 2 ^ 32) 0
  | 0x0018 => s.glb.mgmtHead.read trwGlb
  | 0x0020 => s.glbStat
  | _ => 0

/-- The 64-bit value of the BAR0 register at an aligned offset, as source src reads it, without the side effects of
NTC_POP, GLB_FENCE and IDX_DATA; an offset that names no register, and a WO field, reads as 0 (R547, R8). -/
def State.barWord (s : State) (src off : Nat) : Word :=
  match off / 4096 with
  | 0 => s.glbWord src off
  | 1 => if off ≤ 0x1038 && off % 16 = 0 then (s.idxPair src ((off - 0x1000) / 16)).word else 0
  | 2 => s.mbxWord src off
  | 3 => s.ntcWord off
  | 4 | 5 | 6 | 7 => s.headWord src ((off - 0x4000) / 1024) (off % 1024)
  | 8 => s.qosWord off
  | 9 => s.rsvWord off
  | 10 => s.vltWord off
  | 11 =>
    if off = 0xB000 then s.rng.gctl
    else if off = 0xB008 then
      atBit (s.rng.lastFault % 65536) 0 ||| atBit (s.rng.rings.countWhere fun _ x => decide (x.st = .fault)) 16
    else 0
  | 12 => s.slvWord off
  | 13 => s.pmcWord off
  | 14 => s.fltWord off
  | 15 => s.pwrWord off
  | _ => 0

/-- A BAR0 read of 1, 2, 4 or 8 bytes (R546): a read within one register returns its bytes; one that crosses an 8-byte
boundary returns 0. -/
def State.barRead (s : State) (src off size : Nat) : Word :=
  if (size = 1 || size = 2 || size = 4 || size = 8) && decide (off % 8 + size ≤ 8) then
    atBit (fld (s.barWord src (off / 8 * 8)) (8 * (off % 8)) (8 * size)) 0
  else 0

/-! ### Reads: indirect space (R562) -/

/-- A word of a region entry (R31). -/
def Region.word (r : Region) (w : Nat) : Word :=
  match w with
  | 0 => r.geo ||| atBit (r.err % 64) 56 ||| atFlag r.active 62
  | 1 => r.attr ||| atFlag r.dlost 60
  | 2 => r.acc
  | _ => r.aux

/-- The slices whose tile is in service. -/
def State.liveSlices (s : State) : List Nat := (List.range 16).filter fun n => ! s.tileRetired n

/-- Ways powered down, in each slice in service. -/
def State.offCounts (s : State) : List Nat := s.liveSlices.map fun n => popCount (s.near.off.get 0 n)

/-- A requested number of ways is held at the largest that fits (R140): OFF_WAYS in MANUAL; in AUTO the device itself chooses the
number (R121), and SCR_WAYS and LOCK_WAYS always fit. -/
def State.ncLimited (s : State) : Bool :=
  fld s.near.ctl 8 2 = 1 && (List.range 16).any fun n => decide ((s.serviceWays n).length = 16) && decide ((s.ordinaryWays n).length < s.offReq + 4)

/-- A slice is converting, cleaning or changing a way's role. -/
def State.ncBusy (s : State) : Bool :=
  s.near.curScr < s.scrReq || (s.scrReq < s.near.curScr && ! s.poolUsedBeyond (16 * s.scrReq)) || ! s.near.lockCleaning.isEmpty
    || s.near.retiring ≠ 0 || s.liveSlices.any fun n => s.near.off.get 0 n ≠ wayMask (s.offTarget n)

/-- NC_CFG_STAT. -/
def State.ncCfgStat (s : State) : Word :=
  let l := s.offCounts
  atBit s.near.curScr 0 ||| atBit s.near.curLock 4 ||| atBit (l.foldl min (l.headD 0)) 8 ||| atBit (l.foldl max 0) 12
    ||| atBit (16 * s.near.curScr) 16 ||| atFlag s.ncBusy 24
    ||| atFlag (s.scrReq < s.near.curScr && s.poolUsedBeyond (16 * s.scrReq)) 25 ||| atFlag s.ncLimited 26

/-- NC_WAY_STAT of slice n (R141). -/
def State.ncWayStat (s : State) (n : Nat) : Word :=
  atBit (s.boot.retNc.toNat / 2 ^ (16 * n) % 65536) 0 ||| atBit (wayMask (s.scratchWays n)).toNat 16
    ||| atBit (wayMask (s.lockedWays n)).toNat 32
    ||| atBit (s.offWays n &&& wayMask (s.ordinaryWays n)).toNat 48

/-- DRM_CH_STAT of channel n. -/
def State.chStat (s : State) (n : Nat) : Word :=
  let c := s.chan n
  atBit c.ranks.toNat 0 ||| atBit c.ranksRet.toNat 4 ||| atFlag c.retired 8 ||| atFlag c.throttle 9 ||| atFlag c.refresh2x 10
    ||| atFlag c.trainedFast 11 ||| atFlag c.rebuild 12 ||| atBit (c.tempMax % 256) 16 ||| atBit (s.partnerCh n) 24

/-- The code of a swatch slot's state. -/
def swCode : SwState → Nat
  | .free => 0 | .taking => 1 | .live => 2 | .exporting => 3 | .exported => 4 | .dropping => 5

/-- JQ_SW_STAT of a slot. -/
def Swatch.word (w : Swatch) : Word :=
  atBit w.region 0 ||| atBit w.num 12 ||| atBit (w.gen % 65536) 16 ||| atBit (swCode w.st) 32
    ||| atBit (min (2 ^ 29 - 1) (w.saved.countWhere fun _ v => v.isSome)) 35

/-- JQ_RGN_GEN of region n. -/
def State.genWord (s : State) (n : Nat) : Word :=
  atBit ((s.gen n).gen % 65536) 0 ||| atBit (s.swatchesOf n).length 16 ||| atFlag (s.gen n).sweep 21

/-- The JQ block. -/
def State.jqWord (s : State) (i : Nat) : Option Word :=
  if 0x1000 ≤ i && i < 0x2000 then some (s.genWord (i - 0x1000))
  else if 0x2000 ≤ i && i < 0x2100 then some (s.map.swatches.get {} (i - 0x2000)).word
  else match i with
    | 0 => some s.map.tier
    | 1 => some (s.map.clean ||| atBit (if s.fullClean then 100 else s.map.bgRate) 8 ||| atFlag s.fullClean 15)
    | 2 => some (atBit (s.dirtyCount % 2 ^ 34) 0 ||| atFlag s.map.mapLoad 34 ||| atFlag s.map.warming 35
        ||| atFlag (s.map.gens.any fun e => e.2.sweep) 36)
    | 3 => some (atBit (s.pinned % 2 ^ 34) 0)
    | 4 => some (atBit (s.map.warmed % 2 ^ 34) 0 ||| atFlag s.map.warmDone 34)
    | _ => none

/-- BM_STAT.DEGRADED (R307). -/
def State.degraded (s : State) : Bool :=
  s.beam.retired ≠ 0 || s.beam.segs.any fun e => s.holed e.1 && s.liveSectors e.1 ≠ 0

/-- BM_SLOT_STAT of slot n. -/
def State.slotStat (s : State) (n : Nat) : Word :=
  let x := s.slot n
  atBit x.port 0 ||| atFlag x.present 3 ||| atFlag (s.beam.retired.getLsbD n) 4 ||| atFlag (s.beam.avoided = some n) 5
    ||| atBit (min 255 x.wear) 8 ||| atBit x.width 16 ||| atBit x.rate 18

/-- The BM block. -/
def State.bmWord (s : State) (i : Nat) : Option Word :=
  if 0x10 ≤ i && i < 0x18 then some (s.slotStat (i - 0x10))
  else match i with
    | 0 => some s.beam.ctl
    | 1 => some (atBit (s.freeSegs % 2 ^ 32) 0 ||| atBit s.beam.retired.toNat 32 ||| atFlag s.degraded 40
        ||| atFlag s.beam.rebuild.isSome 41 ||| atFlag s.beam.gc 42 ||| atFlag s.beam.ckpt 43
        ||| atBit ((s.metaSegs false).length % 64) 44)
    | _ => none

/-- Pages left in a region's resync set. -/
def State.resyncLeft (s : State) (n : Nat) : Nat :=
  let x := s.slvRgn n
  x.set.length + match x.copyNext with | some p => (s.region n).size * 512 - p | none => 0

/-- FLT_BKT of unit u of kind k. -/
def State.bktWord (s : State) (k u : Nat) : Word :=
  let b := s.bucket k u
  atBit b.count 0 ||| atBit b.peak 16 ||| atFlag (b.retired || s.unitRetired k u) 32

/-- The SEC block. -/
def State.secWord (s : State) (i : Nat) : Option Word :=
  if 0x10 ≤ i && i < 0x14 then
    some ((List.range 64).foldl (fun w j => w ||| atFlag (s.keyLoaded (64 * (i - 0x10) + j)) j) 0)
  else match i with
    | 0 => some 0
    | 1 => some (atFlag s.sec.cmd.isSome 0 ||| atBit s.sec.result 1 ||| atBit (s.sec.slot % 256) 4)
    | 0x20 => some (atFlag s.sec.wrap.escV 0 ||| atFlag (s.boot.setId ≠ 0) 1 ||| atFlag s.sec.waitKey 2)
    | _ => none

/-- The counters and their configuration. -/
def State.cntWord (s : State) (i : Nat) : Option Word :=
  if i < 1536 then some (atBit (s.pmc.cnt.get 0 i) 0 ||| atFlag (s.pmc.ovf.get false i) 48)
  else if 0x1000 ≤ i && i < 0x1600 then some (atBit (s.pmc.modeOf (i - 0x1000)) 0 ||| atFlag (evState (i - 0x1000)) 1)
  else none

/-- PHY_LANE_STAT of lane x, numbered over host, beam and selvedge lanes; only host and selvedge lanes retire. -/
def laneWord (x : Nat) (retired : Bool) : Word := atBit (Config.lanePhy x).toNat 0 ||| atFlag retired 20

/-- The code of a ring's state; HELD while a hold stands (R414). -/
def State.ringCode (s : State) (r : Nat) : Nat :=
  match (s.ring r).st with
  | .off => 0 | .idle => 1 | .run => if s.descHeld r then 4 else 2 | .wait => if s.descHeld r then 4 else 3
  | .fault => 5 | .detached => 6

/-- A word of ring pair r's context (R399). -/
def State.ringRead (s : State) (r w : Nat) : Word :=
  let x := s.ring r
  match w with
  | 0 => x.sq
  | 1 => x.cq
  | 2 => x.ctl ||| atFlag x.phase 3 ||| atBit (s.ringCode r) 37 ||| atBit x.err 40 ||| atBit (engineOf r) 48
  | _ => atBit (x.sqHead % 65536) 0 ||| atBit (x.sqTail % 65536) 16 ||| atBit (x.cqTail % 65536) 32
      ||| atBit (x.cqHead % 65536) 48

/-- The items of a channel's loaded training data (PHY_DRAM). -/
def State.loadedTraining (s : State) (ch : Nat) : List Nat :=
  let c := s.chan ch
  [ch, c.row, rowRate c.row] ++ c.delays.map BitVec.toNat ++ c.baseline

/-- The indirect register at an index, WO fields as 0; none where the index names no register (R547, R562, R601). -/
def State.indWord (s : State) (i : Nat) : Option Word :=
  let j := i % 65536
  match i / 65536 with
  | 0x01 => if j < 0x4000 then some ((s.region (j / 4)).word (j % 4)) else none
  | 0x02 =>
    if j = 0 then some s.near.ctl else if j = 1 then some s.ncCfgStat
    else if 0x10 ≤ j && j < 0x20 then some (s.ncWayStat (j - 0x10)) else none
  | 0x03 =>
    if j = 0 then some s.coh.ctl else if j = 1 then some (atFlag s.coh.wide 0 ||| atFlag (s.coh.recovering ≠ 0) 1)
    else if 0x10 ≤ j && j < 0x20 then some (atBit (s.boot.retSf.toNat / 2 ^ (16 * (j - 0x10)) % 65536) 0) else none
  | 0x04 =>
    if j = 0 then some s.dram.ctl
    else if j = 1 then some (atBit (s.framesInService % 2 ^ 32) 0 ||| atBit (s.twinReserve % 2 ^ 32) 32)
    else if 0x10 ≤ j && j < 0x20 then some (s.chStat (j - 0x10)) else none
  | 0x05 => s.jqWord j
  | 0x06 => s.bmWord j
  | 0x07 =>
    if j < 0x1000 then
      let x := s.slvRgn j
      some (atBit x.mst 0 ||| atFlag x.complete 3 ||| atFlag x.held 4 ||| atBit (s.resyncLeft j % 2 ^ 33) 5)
    else if j < 0x2000 then some (atBit (s.slvRgn (j - 0x1000)).div 0) else none
  | 0x08 => if j < 0x900 && j % 256 < kindUnits (j / 256) then some (s.bktWord (j / 256) (j % 256)) else none
  | 0x09 => s.secWord j
  | 0x0A => s.cntWord j
  | 0x0B =>
    if j = 0 then some s.tap.ctl else if j = 1 then some s.tapStat
    else if j = 2 then some (atBit s.tap.dropOrd 0 ||| atBit s.tap.dropSev 32)
    else if j = 3 then some (atBit s.tap.verdict 0) else none
  | 0x10 => if j < 0x40 then some (laneWord j ((s.ports.laneRet.get 0 (j / 8)).getLsbD (j % 8))) else none
  | 0x11 => if j < 0x8000 then some (Config.trainWord (s.loadedTraining (j / 2048)) (j % 2048)) else none
  | 0x12 => if j < 0x20 then some (laneWord (64 + j) false) else none
  | 0x13 => if j < 8 then some (laneWord (96 + j) (s.slv.laneRet.getLsbD j)) else none
  | 0x40 | 0x41 | 0x42 | 0x43 => some (s.ringRead ((i - 0x400000) / 4) (i % 4))
  | _ => none

/-! ### Writes: BAR0 (R548) -/

/-- A write to GLB_CTL: MGMT_HEAD moves to a head that is present; SOFT_RESET (R80, R577). -/
def State.glbCtl (s : State) (v : Word) : State :=
  let h := fld v 0 4
  let s1 : State := if s.present h then { s with glb := { s.glb with mgmtHead := Trw.all (atBit h 0) } } else s
  if flag v 8 then s1.softReset else s1

/-- MGMT_HEAD_WRITE (R80). -/
def execMgmtHeadWrite (src : Nat) (value : Word) (s : State) : Host.Outcome State Fault Refusal :=
  run (fun s => s.globalWrite src (regArgBar 0x18) fun s => s.glbCtl value) s

/-- A write to HD_LINK_CTL of head h (R65). -/
def State.linkCtl (s : State) (h : Nat) (v : Word) : State :=
  let s1 := s.modLink h fun l => { l with ctl := v &&& 0x77 }
  if flag v 3 then s1.retrain h else s1

/-- A write to a register of head h's block (R81, R563); an absent head has none (R60). -/
def State.headWrite8 (s : State) (src h o : Nat) (v : Word) : State :=
  if ! s.present h then s
  else if o = 0x028 then s.brakeWrite src h v
  else if o = 0x030 then (if src = h then s.unquiet h else s).hdDoorbell src h v
  else if o = 0 || o = 0x010 || o = 0x018 || o = 0x020 then
    if ! s.headWriter src h then s.access src 0xFFF 1 (regArgBar (0x4000 + 0x400 * h + o))
    else if o = 0x010 then s.linkCtl h v else s
  else s

/-- The mask of the RW and TRW fields of a register. -/
def fieldMask (fs : List (Nat × Nat)) : Word := fs.foldl (fun w f => w ||| fldMask f.1 f.2) 0

/-- A write to the RSV block (R341): TEST_NOW makes a test due (R327). -/
def State.rsvWrite (s : State) (off : Nat) (v : Word) : State :=
  match off with
  | 0x9000 =>
    let due := if flag v 1 then some (s.rsv.testDue.getD s.boot.opmin) else s.rsv.testDue
    { s with rsv := { s.rsv with ctl := Trw.all (v &&& fieldMask rsvCtlFields), testDue := due } }
  | 0x9010 => { s with rsv := { s.rsv with bank := Trw.all (v &&& fieldMask rsvBankFields) } }
  | 0x9018 => { s with rsv := { s.rsv with flush := Trw.all (v &&& fieldMask rsvFlushFields) } }
  | 0x9020 => { s with rsv := { s.rsv with sense := Trw.all (v &&& fieldMask rsvSenseFields) } }
  | 0x9048 => { s with rsv := { s.rsv with ovr := v &&& 0xFFFFFFFF } }
  | _ => s

/-- A write to the QOS block (R380, R395). -/
def State.qosWrite (s : State) (off : Nat) (v : Word) : State :=
  if off = 0x8000 then { s with qos := { s.qos with ctl := v &&& 0xFF1F } }
  else if 0x8100 ≤ off && off < 0x8200 && off % 16 = 0 then
    let h := (off - 0x8100) / 16
    (s.setBudget h { s.budget h with reg := v &&& 0xFFFFFFFFFFFFFF }).qosRecompute
  else s

/-- A write to the FLT block (R475, R495). -/
def State.fltWrite (s : State) (off : Nat) (v : Word) : State :=
  if 0xE000 ≤ off && off ≤ 0xE040 then
    { s with flt := { s.flt with kinds := s.flt.kinds.set none ((off - 0xE000) / 8) (some (v &&& 0xFFFFFFFFFF)) } }
  else if off = 0xE080 then s.inject (fld v 12 2) (fld v 0 4) (fld v 4 8)
  else s

/-- The BAR0 registers of the global blocks, by offset (R561). -/
def barGlobal (off : Nat) : Bool :=
  off % 8 = 0 && match off / 4096 with
  | 0 => off ≤ 0x20
  | 3 => off ≤ 0x3010
  | 8 => off ≤ 0x8010 || (0x8100 ≤ off && off < 0x8200)
  | 9 => off ≤ 0x9048
  | 10 => off ≤ 0xA030
  | 11 => off ≤ 0xB008
  | 12 => off ≤ 0xC020
  | 13 => off ≤ 0xD018
  | 14 => off ≤ 0xE040 || off = 0xE080 || off = 0xE088
  | 15 => off ≤ 0xF050 || (0xF100 ≤ off && off < 0xF180)
  | _ => false

/-- A write to a global register by a source that may write it. RO and ROV fields are left alone (R551). -/
def State.barGlobalWrite (s : State) (off : Nat) (v : Word) : State :=
  match off with
  | 0x0018 => s.glbCtl v
  | 0x3010 => { s with flt := { s.flt with wm := v &&& 0x307FF07FF } }
  | 0xA000 => s.vltCtl v
  | 0xA008 => { s with vlt := { s.vlt with floor := Trw.all (v &&& fieldMask trwFloor) } }
  | 0xB000 => { s with rng := { s.rng with gctl := v &&& 0x3FF } }
  | 0xC000 => s.slvCtl v
  | 0xC008 => { s with slv := { s.slv with pairId := Trw.all v } }
  | 0xC020 => if flag v 12 then s.slvReturn (fld v 0 12) else s
  | 0xD000 => s.dumpCtl v
  | 0xD008 => s.dumpBase v
  | 0xD010 => { s with pmc := { s.pmc with dhead := fld v 0 12 } }
  | 0xD018 => { s with pmc := s.pmc.setCounter v }
  | 0xF000 => s.pwrCtl v
  | _ => if off / 4096 = 8 then s.qosWrite off v else if off / 4096 = 9 then s.rsvWrite off v
    else if off / 4096 = 14 then s.fltWrite off v else s

/-! ### Writes: indirect space -/

/-- The indirect blocks that no function may write (R562). -/
def indSealed (i : Nat) : Bool :=
  [0x07, 0x08, 0x10, 0x11, 0x12, 0x13].contains (i / 65536)

/-- A write to an indirect register of a global block by a source that may write it. -/
def State.indGlobalWrite (s : State) (i : Nat) (v : Word) : State :=
  if 0xA1000 ≤ i && i < 0xA1600 then
    { s with pmc := { s.pmc with mode := s.pmc.mode.set none (i - 0xA1000) (some (fld v 0 1)) } }
  else match i with
    | 0x20000 => s.ncCtl v
    | 0x30000 =>
      { s with coh := { s.coh with ctl := v &&& 0xF, wide := s.coh.wide && ! flag v 4 } }
    | 0x40000 => { s with dram := { s.dram with ctl := v &&& 0x7F7F01FFFF } }
    | 0x50000 => { s with map := { s.map with tier := v &&& 0x1FFFFFFFF0FFF } }
    | 0x50001 => { s with map := { s.map with clean := v &&& 0x7F } }
    | 0x60000 => State.submitAll { s with beam := { s.beam with ctl := v &&& 0xFFFFFFFFFF } }
    | 0x90000 => s.keyCommand (fld v 8 2) (fld v 0 8)
    | 0xB0000 => { s with tap := { s.tap with ctl := v &&& 0xFFFF } }
    | _ => s

/-- A write to the indirect register at an index by a source, with the ERR of IDX_ADDR it gives: 0 OK, 1 UNMAPPED, 2
DENIED (R547, R548, R556). -/
def State.indWrite (s : State) (src i : Nat) (v : Word) : Nat × State :=
  if (s.indWord i).isNone then (1, s)
  else if i / 65536 = 1 then
    let n := i % 65536 / 4
    if s.isMgmt src then (0, ((s.softRegionWrite n (i % 4) v).mirrorChanged n (s.region n)).checkSeals)
    else (2, s.access src n 2 (regArgInd i))
  else if 0x400000 ≤ i then
    let r := (i - 0x400000) / 4
    (if s.ringWriter src r then 0 else 2, s.ringWord src r (i % 4) v)
  else if s.isMgmt src && ! indSealed i then (0, s.indGlobalWrite i v)
  else (2, s.access src 0xFFF 1 (regArgInd i))

/-! ### IDX pairs (R556, R557) -/

/-- Change a pair. -/
def State.setIdx (s : State) (src p : Nat) (x : IdxPair) : State :=
  { s with glb := { s.glb with idx := s.glb.idx.set {} (4 * src + p) x } }

/-- The end of a data access: ERR, and INDEX advanced where AUTO_INC is 1. -/
def IdxPair.after (x : IdxPair) (err : Nat) : IdxPair :=
  { x with index := if x.autoInc then (x.index + 1) % 2 ^ 24 else x.index, err := err }

/-- A write to IDX_DATA. -/
def State.idxWrite (s : State) (src p : Nat) (v : Word) : State :=
  let x := s.idxPair src p
  let a := s.indWrite src x.index v
  a.2.setIdx src p (x.after a.1)

/-- A read of IDX_DATA. -/
def State.idxRead (s : State) (src p : Nat) : Word × State :=
  let x := s.idxPair src p
  match s.indWord x.index with
  | some w => (w, s.setIdx src p (x.after 0))
  | none => (0, s.setIdx src p (x.after 1))

/-- IDX_DATA_ACCESS (R557). -/
def execIdxDataAccess (src pair : Nat) (write : Option Word) (s : State) : Host.Outcome State Fault Refusal :=
  run (fun s => s.when (s.reaches src && decide (pair < 4)) fun s =>
    match write with
    | some v => s.idxWrite src pair v
    | none => (s.idxRead src pair).2.emit (.regRead src (s.idxRead src pair).1)) s

/-! ### The wide-value mailbox (R558, R559) -/

/-- The bytes of a commit record as 64-bit words (R290); what the model holds no value for is Config.commitWord. -/
def commitHead (c : Commit) (setId : Word) (i : Nat) : Word :=
  match i with
  | 0 => atBit 0x48424352 0 ||| atBit 1 32
      ||| atBit (match c.kind with | .checkpoint => 0 | .flush => 1 | .shutdown => 2) 48 ||| atFlag c.short 51
  | 1 => setId
  | 2 => atBit (c.cseq % 2 ^ 64) 0
  | 3 => atBit (c.seqNext % 2 ^ 64) 0
  | 4 => atBit (c.opmin % 2 ^ 32) 0 ||| atBit (c.cycles % 2 ^ 24) 32
  | 5 => atBit (c.shortPages % 2 ^ 64) 0
  | 6 => atBit (c.metaSegs.length % 256) 0 ||| atBit (c.roots.length % 256) 8 ||| atBit (c.warmRecs.length % 256) 16
  | 7 => atBit (c.spills.length % 2 ^ 32) 0
  | _ => 0

/-- See commitHead; without BCRC. The words of GENS and REGIONS are the images of the registers at the commit. -/
def commitBody (c : Commit) (setId : Word) (i : Nat) : Word :=
  if i < 63 then commitHead c setId i
  else if i = 63 then
    atBit (crc32c ((List.range 508).map fun b => fld (commitHead c setId (b / 8)) (8 * (b % 8)) 8)) 32
  else if i < 128 then atBit (c.roots.getD (i - 64) 0) 0
  else if i < 160 then
    atBit (c.metaSegs.getD (2 * (i - 128)) 0) 0 ||| atBit (c.metaSegs.getD (2 * (i - 128) + 1) 0) 32
  else if i < 224 then atBit (c.warmRecs.getD (i - 160) 0) 0
  else if i < 736 then
    let w := c.swatches.get {} ((i - 224) / 2)
    if i % 2 = 0 then w.word else if w.st = .free then 0 else atBit (c.swRoots.get 0 ((i - 224) / 2)) 0
  else if i < 4832 then
    let g := c.gens.get {} (i - 736)
    atBit (g.gen % 65536) 0
      ||| atBit (c.swatches.countWhere fun _ w => decide (w.st ≠ .free) && decide (w.st ≠ .taking) && w.region = i - 736) 16
      ||| atFlag g.sweep 21
  else if i < 21216 then (c.regions.get {} ((i - 4832) / 4)).word ((i - 4832) % 4)
  else 0

/-- The words of a commit record, with BCRC over bytes 512 to 169,727. -/
def commitWord (c : Commit) (setId : Word) (i : Nat) : Word :=
  if i = 21216 then
    atBit (crc32c ((List.range 169216).map fun b => fld (commitBody c setId (64 + b / 8)) (8 * (b % 8)) 8)) 0
  else commitBody c setId i

/-- The reverse-entry fields that a frame or T2 header holds of a page record: BEAMV and BEAM. -/
def beamFields (v : Bool) (a : Nat) : Nat := if v && a ≠ 0 then 2 ^ 4 + a * 2 ^ 80 else 0

/-- A frame's entry in the reverse frame table (R226), as a 128-bit number. -/
def State.rftEntry (s : State) (f : Nat) : Nat :=
  match s.frameUse f with
  | .free => if s.frameUsable f then 0 else if frameLocal f < (s.chan (frameChan f)).sysFrames then 5 else 0
  | .t1 pn none =>
    let p := s.page pn
    1 + (if p.dirty then 8 else 0) + beamFields p.beamv p.beam + (match p.twin with | some t => 32 + t * 2 ^ 49 | none => 0)
      + pn * 2 ^ 16
  | .t1 pn (some k) =>
    let v := ((s.map.swatches.get {} k).saved.get none pn).getD ⟨.zero, false, false, 0⟩
    1 + (if v.dirty then 8 else 0) + beamFields v.beamv v.beam + 64 + k * 2 ^ 8 + pn * 2 ^ 16
  | .t2 =>
    let starts := (List.range 8).foldl (fun (m : BitVec 8) i => putBit m i (s.dram.t2.get none (8 * f + i)).isSome) 0
    2 + starts.toNat * 2 ^ 8 + (s.sectorsUsed f).toNat * 2 ^ 16
  | .twin pn =>
    let p := s.page pn
    3 + pn * 2 ^ 16 + (if p.twin2 = some f then p.lines2 else p.lines).toNat * 2 ^ 64
  | .mapF u none => 4 + u * 2 ^ 16
  | .mapF u (some k) => 4 + 8 + k * 2 ^ 8 + u * 2 ^ 16
  | .keep _ | .system => 5

/-- INDEX lies in its space (R559). -/
def mbxRange (space index : Nat) : Bool :=
  match space with
  | 1 => index < 2 ^ 25 && index % 2 ^ 24 < areaSlots (index / 2 ^ 24)
  | 2 => index < 2 ^ 31
  | 3 => index < 2 ^ 13
  | _ => index < 4096

/-- The error of a fetch: SPACE, ACCESS, RANGE in this order. -/
def State.mbxErr (s : State) (src space index : Nat) : Nat :=
  if space = 0 || 4 < space then 1 else if space ≠ 1 && ! s.isMgmt src then 3 else if ! mbxRange space index then 2 else 0

/-- The area of the tapestry that an INDEX names. -/
def State.tapArea (s : State) (index : Nat) : TapArea := if index / 2 ^ 24 = 0 then s.boot.tapOrd else s.boot.tapSev

/-- The value that a space and INDEX name. -/
def State.mbxValue (s : State) (space index : Nat) : List Word :=
  match space with
  | 1 => (List.range 8).map fun i => lineWord ((s.tapArea index).slots.get erasedSlot (index % 2 ^ 24)) i
  | 2 => [atBit (s.rftEntry index % 2 ^ 64) 0, atBit (s.rftEntry index / 2 ^ 64 % 2 ^ 64) 0]
  | 3 => (List.range 8).map fun i =>
      match s.boot.train.get none (2 * (index % 16) + index / 16 % 2) with
      | some r => Config.trainWord (r.items ++ [r.crc.toNat]) (8 * (index / 32) + i)
      | none => Config.trainWord [] (8 * (index / 32) + i)
  | _ => (List.range 8).map fun i =>
      match s.beam.commit with
      | some c => commitWord c s.beam.setId (8 * index + i)
      | none => Config.commitWord 0 (8 * index + i)

/-- Change a source's mailbox. -/
def State.setMbx (s : State) (src : Nat) (m : Mbx) : State := { s with glb := { s.glb with mbx := s.glb.mbx.set {} src m } }

/-- A write to MBX_SEL: VALID clears and the fetch starts; one still in progress is abandoned. A fetch that ends with an error
ends at once, ACCESS with its notice. -/
def State.mbxSelect (s : State) (src : Nat) (v : Word) : State :=
  let sel := v &&& 0xFFFFFFFFFFFF
  let err := s.mbxErr src (fld sel 40 8) (fld sel 0 40)
  let s1 := s.setMbx src { sel := sel, busy := err = 0, err := err }
  if err = 3 then s1.access src 0xFFF 5 (sel.toNat + 2 ^ 60) else s1

/-- The end of a fetch: the snapshot stands in MBX_DATA, and VALID goes to 1; a tapestry read gives its verdict (R533). -/
def State.mbxEnd (s : State) (src : Nat) : State :=
  let m := s.mbx src
  let space := fld m.sel 40 8
  let index := fld m.sel 0 40
  if ! m.busy then s
  else
    let s1 := s.setMbx src { m with busy := false, valid := true, data := s.mbxValue space index }
    if space = 1 then
      { s1 with tap := { s1.tap with verdict := (s.tapArea index).verdict (index % 2 ^ 24) } }
    else s1

/-- A fetch of a space: the write of MBX_SEL that names it, and its end. A fetch that a register write has started already
ends. -/
def State.mbxFetch (s : State) (src space index : Nat) : State :=
  let sel := atBit (space * 2 ^ 40 + index % 2 ^ 40) 0
  s.when (s.reaches src) fun s =>
    if (s.mbx src).busy && (s.mbx src).sel = sel then s.mbxEnd src else (s.mbxSelect src sel).mbxEnd src

/-- TAPESTRY_FETCH. -/
def execTapestryFetch (src index : Nat) (s : State) : Host.Outcome State Fault Refusal :=
  run (fun s => s.mbxFetch src 1 index) s

/-- RFT_FETCH. -/
def execRftFetch (src index : Nat) (s : State) : Host.Outcome State Fault Refusal := run (fun s => s.mbxFetch src 2 index) s

/-- TRAIN_FETCH. -/
def execTrainFetch (src index : Nat) (s : State) : Host.Outcome State Fault Refusal := run (fun s => s.mbxFetch src 3 index) s

/-- COMMIT_FETCH. -/
def execCommitFetch (src index : Nat) (s : State) : Host.Outcome State Fault Refusal := run (fun s => s.mbxFetch src 4 index) s

/-! ### BAR0 writes and the fence -/

/-- An 8-byte write to an aligned BAR0 offset (R548, R561). -/
def State.barWrite (s : State) (src off : Nat) (v : Word) : State :=
  if off / 4096 = 1 then
    let p := (off - 0x1000) / 16
    if 0x1038 < off then s
    else if off % 16 = 0 then
      s.setIdx src p { s.idxPair src p with index := fld v 0 24, autoInc := flag v 24 }
    else s.idxWrite src p v
  else if off = 0x2000 then s.mbxSelect src v
  else if 0x4000 ≤ off && off < 0x8000 then s.headWrite8 src ((off - 0x4000) / 1024) (off % 1024) v
  else if barGlobal off then
    if s.isMgmt src then s.barGlobalWrite off v else s.access src 0xFFF 1 (regArgBar off)
  else s

/-- Change an entry of a head's MSI-X table; a pending message of an unmasked vector leaves (R433). -/
def State.setMsix (s : State) (h n : Nat) (e : MsixEntry) : State :=
  let go := e.pend && ! e.masked
  let s1 := s.modFunc h fun f => { f with msix := f.msix.set {} n { e with pend := e.pend && ! go } }
  if go then s1.emit (.msix h n) else s1

/-- A write to a head's BAR4 at a byte of its MSI-X table (R69, PRESUMED: PCIe's layout): 16 bytes a vector, with the message's
address, its data and its mask bit. The pending bits are read-only. -/
def State.msixWrite (s : State) (h off size : Nat) (v : Word) : State :=
  let n := off / 16
  let e := (s.head h).func.msix.get {} n
  if off % size ≠ 0 then s
  else if size = 8 then
    s.setMsix h n (if off % 16 = 0 then { e with addr := v } else { e with data := v.extractLsb' 0 32, masked := flag v 32 })
  else if size = 4 then
    s.setMsix h n (match off % 16 with
      | 0 => { e with addr := putFld e.addr 0 32 (fld v 0 32) }
      | 4 => { e with addr := putFld e.addr 32 32 (fld v 0 32) }
      | 8 => { e with data := v.extractLsb' 0 32 }
      | _ => { e with masked := flag v 0 })
  else s

/-- REG_WRITE (R546 to R548): only an 8-byte write within one register has an effect. An offset from 0x20000 on names a byte of
BAR4 (DESIGN CHOICE in the log). -/
def execRegWrite (src offset size : Nat) (value : Word) (s : State) : Host.Outcome State Fault Refusal :=
  run (fun s => s.when (s.reaches src) fun s =>
    if 0x20000 ≤ offset && offset < 0x28000 && src < 16 then s.msixWrite src (offset - 0x20000) size value
    else s.when (size = 8 && offset % 8 = 0 && decide (offset < 0x10000)) fun s => s.barWrite src offset value) s

/-- GLB_FENCE (R553): every command takes effect as it runs, so the read returns at once with COUNT. -/
def execGlbFence (src : Nat) (s : State) : Host.Outcome State Fault Refusal :=
  run (fun s => s.when (s.reaches src) fun s =>
    let n := (s.glb.fences.get 0 src + 1) % 2 ^ 32
    ({ s with glb := { s.glb with fences := s.glb.fences.set 0 src n } } : State).emit (.regRead src (atBit n 0))) s

end Sys2Proof.Machine
end

