-- ==== Sys2Proof/Machine/Engines.lean ====
section
/-! DEFINITION. The step of an engine (R411): one step of the descriptor in progress on a ring pair, whatever its opcode. -/
namespace Sys2Proof.Machine

/-- The work of a descriptor by opcode and SUB (R418). A data mover takes one 4 KiB step; any other descriptor goes as far
as it can. -/
def State.descWork (s : State) (r op sub : Nat) : State :=
  match op with
  | 0x01 => s.workNop r
  | 0x02 => s.sealRun r sub
  | 0x03 => match sub with
    | 0 => s.workQuiesceDrain r
    | 1 => s.workQuiesceHold r
    | _ => s.workQuiesceRelease r
  | 0x10 | 0x11 | 0x12 => s.when (s.runs r op none) fun s => s.moverStep r
  | 0x20 => s.workClean r
  | 0x21 => s.workInval r
  | 0x22 => s.workDiscard r
  | 0x30 => s.workPromote r
  | 0x31 => if sub = 2 then s.workDemoteT2 r else s.workDemoteT3 r
  | 0x32 => s.workPin r
  | 0x33 => s.workUnpin r
  | 0x40 => s.atomicSub r sub
  | 0x50 => s.workSwatchTake r
  | 0x51 => s.workSwatchDrop r
  | 0x52 => s.workSwatchExport r
  | 0x60 => s.workQuiet r
  | 0x61 => s.workDumpNow r
  | 0x70 => s.workTakeover r
  | _ => s

/-- DESCRIPTOR_STEP (R411). -/
def execDescriptorStep (ring : Nat) (s : State) : Host.Outcome State Fault Refusal :=
  run (fun s =>
    match (s.ring ring).act with
    | some a => s.descWork ring (dOp a.words) (dSub a.words)
    | none => s) s

end Sys2Proof.Machine
end

