-- ==== Sys2Proof/Machine/Dispatch.lean ====
section
/-! DEFINITION. What every command does: one arm per constructor of Instr, a direct call of its meaning. -/
namespace Sys2Proof.Machine

/-- The effect of a command on everything but the queue. -/
def exec (i : Instr) (s : State) : Host.Outcome State Fault Refusal :=
  match i with
  | .memRd h tag hpa mv => Sys2Proof.Machine.execMemRd h tag hpa mv s
  | .memRdData h tag hpa mv => Sys2Proof.Machine.execMemRdData h tag hpa mv s
  | .memInv h tag hpa => Sys2Proof.Machine.execMemInv h tag hpa s
  | .memWr h tag hpa mv data poison => Sys2Proof.Machine.execMemWr h tag hpa mv data poison s
  | .memWrPtl h tag hpa mv data mask poison => Sys2Proof.Machine.execMemWrPtl h tag hpa mv data mask poison s
  | .memClnEvct h tag hpa => Sys2Proof.Machine.execMemClnEvct h tag hpa s
  | .memSpecRd h hpa => Sys2Proof.Machine.execMemSpecRd h hpa s
  | .birspI h line => Sys2Proof.Machine.execBirspI h line s
  | .birspS h line => Sys2Proof.Machine.execBirspS h line s
  | .birspE h line => Sys2Proof.Machine.execBirspE h line s
  | .biConflict h line => Sys2Proof.Machine.execBiConflict h line s
  | .recalledWriteback h tag hpa mv data mask poison => Sys2Proof.Machine.execRecalledWriteback h tag hpa mv data mask poison s
  | .openTxnClose line => Sys2Proof.Machine.execOpenTxnClose line s
  | .sfRetryQueueRetry tile set => Sys2Proof.Machine.execSfRetryQueueRetry tile set s
  | .sfVictimFree line => Sys2Proof.Machine.execSfVictimFree line s
  | .buddyConfirm tile id => Sys2Proof.Machine.execBuddyConfirm tile id s
  | .wbEntryDrain tile id twin => Sys2Proof.Machine.execWbEntryDrain tile id twin s
  | .dramWriteConfirm ch id crcErr => Sys2Proof.Machine.execDramWriteConfirm ch id crcErr s
  | .dramReadComplete ch id err line otherCopyBad => Sys2Proof.Machine.execDramReadComplete ch id err line otherCopyBad s
  | .ncFillComplete line => Sys2Proof.Machine.execNcFillComplete line s
  | .ncEvictWritebackConfirm line => Sys2Proof.Machine.execNcEvictWritebackConfirm line s
  | .wbRetryQueueRetry tile => Sys2Proof.Machine.execWbRetryQueueRetry tile s
  | .atomicAtMemory line => Sys2Proof.Machine.execAtomicAtMemory line s
  | .gpfPhase1 h => Sys2Proof.Machine.execGpfPhase1 h s
  | .gpfPhase2 h => Sys2Proof.Machine.execGpfPhase2 h s
  | .altProtocolOffer h vendor protocol details => Sys2Proof.Machine.execAltProtocolOffer h vendor protocol details s
  | .linkL0Reached h rate width flit256 ide cxl => Sys2Proof.Machine.execLinkL0Reached h rate width flit256 ide cxl s
  | .eq128Fail h => Sys2Proof.Machine.execEq128Fail h s
  | .retrain src h => Sys2Proof.Machine.execRetrain src h s
  | .linkRecoveryEnter h => Sys2Proof.Machine.execLinkRecoveryEnter h s
  | .linkOutOfL0Timeout h => Sys2Proof.Machine.execLinkOutOfL0Timeout h s
  | .linkDrop h => Sys2Proof.Machine.execLinkDrop h s
  | .ideIntegrityFail h => Sys2Proof.Machine.execIdeIntegrityFail h s
  | .laneRetire port lane => Sys2Proof.Machine.execLaneRetire port lane s
  | .headPerst h => Sys2Proof.Machine.execHeadPerst h s
  | .cxlReset h => Sys2Proof.Machine.execCxlReset h s
  | .functionLevelReset h => Sys2Proof.Machine.execFunctionLevelReset h s
  | .getEventRecords h log => Sys2Proof.Machine.execGetEventRecords h log s
  | .clearEventRecords h log handles => Sys2Proof.Machine.execClearEventRecords h log handles s
  | .getEventInterruptPolicy h => Sys2Proof.Machine.execGetEventInterruptPolicy h s
  | .setEventInterruptPolicy h vectors => Sys2Proof.Machine.execSetEventInterruptPolicy h vectors s
  | .getTimestamp h => Sys2Proof.Machine.execGetTimestamp h s
  | .setTimestamp h value => Sys2Proof.Machine.execSetTimestamp h value s
  | .getSupportedLogs h => Sys2Proof.Machine.execGetSupportedLogs h s
  | .getLog h => Sys2Proof.Machine.execGetLog h s
  | .identifyMemoryDevice h => Sys2Proof.Machine.execIdentifyMemoryDevice h s
  | .getPoisonList h start length => Sys2Proof.Machine.execGetPoisonList h start length s
  | .injectPoison h dpa => Sys2Proof.Machine.execInjectPoison h dpa s
  | .clearPoison h dpa data => Sys2Proof.Machine.execClearPoison h dpa data s
  | .sanitize h => Sys2Proof.Machine.execSanitize h s
  | .secureErase h => Sys2Proof.Machine.execSecureErase h s
  | .unsupportedMailboxOpcode h opcode => Sys2Proof.Machine.execUnsupportedMailboxOpcode h opcode s
  | .doeDiscovery h => Sys2Proof.Machine.execDoeDiscovery h s
  | .cdatRead h => Sys2Proof.Machine.execCdatRead h s
  | .spdmRequest src code authenticated => Sys2Proof.Machine.execSpdmRequest src code authenticated s
  | .custodianSet src key => Sys2Proof.Machine.execCustodianSet src key s
  | .custodyGet src => Sys2Proof.Machine.execCustodyGet src s
  | .keyDeliver src setId bkek drives => Sys2Proof.Machine.execKeyDeliver src setId bkek drives s
  | .ideKeyProg h stream keySet key => Sys2Proof.Machine.execIdeKeyProg h stream keySet key s
  | .ideKSetGo h stream keySet contain => Sys2Proof.Machine.execIdeKSetGo h stream keySet contain s
  | .rgnWrite src region word value => Sys2Proof.Machine.execRgnWrite src region word value s
  | .rgnBindingCompareDone region => Sys2Proof.Machine.execRgnBindingCompareDone region s
  | .dlostClear region => Sys2Proof.Machine.execDlostClear region s
  | .ncCtlWrite src value => Sys2Proof.Machine.execNcCtlWrite src value s
  | .lockWayConvert slice way => Sys2Proof.Machine.execLockWayConvert slice way s
  | .wayPowerDown slice way => Sys2Proof.Machine.execWayPowerDown slice way s
  | .wayPowerUp slice way => Sys2Proof.Machine.execWayPowerUp slice way s
  | .ncWayRetire slice way => Sys2Proof.Machine.execNcWayRetire slice way s
  | .probe tile h tag line => Sys2Proof.Machine.execProbe tile h tag line s
  | .offer line target => Sys2Proof.Machine.execOffer line target s
  | .accept line => Sys2Proof.Machine.execAccept line s
  | .refuse line => Sys2Proof.Machine.execRefuse line s
  | .commit line => Sys2Proof.Machine.execCommit line s
  | .offerReceived line => Sys2Proof.Machine.execOfferReceived line s
  | .goneTimeout tile line => Sys2Proof.Machine.execGoneTimeout tile line s
  | .settlingTimeout tile line => Sys2Proof.Machine.execSettlingTimeout tile line s
  | .evictHandOff line => Sys2Proof.Machine.execEvictHandOff line s
  | .tileRetire tile cause => Sys2Proof.Machine.execTileRetire tile cause s
  | .tileRecoveryEnd tile => Sys2Proof.Machine.execTileRecoveryEnd tile s
  | .wideClr src => Sys2Proof.Machine.execWideClr src s
  | .sfWayRetire slice way => Sys2Proof.Machine.execSfWayRetire slice way s
  | .refresh ch rank group postpone => Sys2Proof.Machine.execRefresh ch rank group postpone s
  | .dramQueueAging ch id => Sys2Proof.Machine.execDramQueueAging ch id s
  | .oscillatorRead ch rank count => Sys2Proof.Machine.execOscillatorRead ch rank count s
  | .dimmTempRead ch temps => Sys2Proof.Machine.execDimmTempRead ch temps s
  | .patrolScrubStep ch => Sys2Proof.Machine.execPatrolScrubStep ch s
  | .rankRetire ch rank bad => Sys2Proof.Machine.execRankRetire ch rank bad s
  | .channelRetire ch => Sys2Proof.Machine.execChannelRetire ch s
  | .channelRebuildEnd ch => Sys2Proof.Machine.execChannelRebuildEnd ch s
  | .channelTrain ch report => Sys2Proof.Machine.execChannelTrain ch report s
  | .mark pn => Sys2Proof.Machine.execMark pn s
  | .jqLookup pn line => Sys2Proof.Machine.execJqLookup pn line s
  | .mapLineReadComplete pn copyBad => Sys2Proof.Machine.execMapLineReadComplete pn copyBad s
  | .tierTransitionStart pn tier cause place => Sys2Proof.Machine.execTierTransitionStart pn tier cause place s
  | .tierTransitionComplete pn => Sys2Proof.Machine.execTierTransitionComplete pn s
  | .placementSweepStep tile pn place => Sys2Proof.Machine.execPlacementSweepStep tile pn place s
  | .cleanStart pn => Sys2Proof.Machine.execCleanStart pn s
  | .cleanSyncAnswer pn tile => Sys2Proof.Machine.execCleanSyncAnswer pn tile s
  | .cleanComplete pn => Sys2Proof.Machine.execCleanComplete pn s
  | .mapFrameRebuild unit frame => Sys2Proof.Machine.execMapFrameRebuild unit frame s
  | .mapUnitLoad unit frame => Sys2Proof.Machine.execMapUnitLoad unit frame s
  | .warmerFill pn place => Sys2Proof.Machine.execWarmerFill pn place s
  | .swatchHoldAnswer slot tile => Sys2Proof.Machine.execSwatchHoldAnswer slot tile s
  | .genSweep region => Sys2Proof.Machine.execGenSweep region s
  | .stripeWrite stream expired => Sys2Proof.Machine.execStripeWrite stream expired s
  | .unitWriteComplete stripe slot ok => Sys2Proof.Machine.execUnitWriteComplete stripe slot ok s
  | .deltaRecordWrite expired => Sys2Proof.Machine.execDeltaRecordWrite expired s
  | .commitRecordWrite kind => Sys2Proof.Machine.execCommitRecordWrite kind s
  | .beamReadComplete addr err => Sys2Proof.Machine.execBeamReadComplete addr err s
  | .hedgeTimeout addr => Sys2Proof.Machine.execHedgeTimeout addr s
  | .recordReconstruct addr ok => Sys2Proof.Machine.execRecordReconstruct addr ok s
  | .slotRetire slot cause => Sys2Proof.Machine.execSlotRetire slot cause s
  | .driveAdopt drive => Sys2Proof.Machine.execDriveAdopt drive s
  | .beamAssemble drives => Sys2Proof.Machine.execBeamAssemble drives s
  | .gcRelocate addr => Sys2Proof.Machine.execGcRelocate addr s
  | .segmentFree segment => Sys2Proof.Machine.execSegmentFree segment s
  | .smartLogRead slot used critical => Sys2Proof.Machine.execSmartLogRead slot used critical s
  | .nvmeAbort slot addr => Sys2Proof.Machine.execNvmeAbort slot addr s
  | .asyncEventComplete slot critical fatalStatus => Sys2Proof.Machine.execAsyncEventComplete slot critical fatalStatus s
  | .sealL1 ring => Sys2Proof.Machine.execSealL1 ring s
  | .sealL2 ring => Sys2Proof.Machine.execSealL2 ring s
  | .sealL3 ring => Sys2Proof.Machine.execSealL3 ring s
  | .sealSync ring tile => Sys2Proof.Machine.execSealSync ring tile s
  | .reserveSample vCode iCode => Sys2Proof.Machine.execReserveSample vCode iCode s
  | .testNow src => Sys2Proof.Machine.execTestNow src s
  | .testAbort cause => Sys2Proof.Machine.execTestAbort cause s
  | .vinSample code pfLow => Sys2Proof.Machine.execVinSample code pfLow s
  | .drill src => Sys2Proof.Machine.execDrill src s
  | .shutdown src => Sys2Proof.Machine.execShutdown src s
  | .devloadWindowEnd h beWaitUs => Sys2Proof.Machine.execDevloadWindowEnd h beWaitUs s
  | .doorbellLineWrite h tag hpa data mask poison => Sys2Proof.Machine.execDoorbellLineWrite h tag hpa data mask poison s
  | .hdDoorbell h value => Sys2Proof.Machine.execHdDoorbell h value s
  | .rngCtlEnSet src ring value => Sys2Proof.Machine.execRngCtlEnSet src ring value s
  | .rngCtlEnClear src ring value => Sys2Proof.Machine.execRngCtlEnClear src ring value s
  | .ringContextWrite src ring word value => Sys2Proof.Machine.execRingContextWrite src ring word value s
  | .descriptorFetch ring hostData hostOk => Sys2Proof.Machine.execDescriptorFetch ring hostData hostOk s
  | .descriptorStep ring => Sys2Proof.Machine.execDescriptorStep ring s
  | .completionWrite ring => Sys2Proof.Machine.execCompletionWrite ring s
  | .msixCoalesceTimeout ring => Sys2Proof.Machine.execMsixCoalesceTimeout ring s
  | .nop ring => Sys2Proof.Machine.execNop ring s
  | .quiesceDrain ring => Sys2Proof.Machine.execQuiesceDrain ring s
  | .quiesceHold ring => Sys2Proof.Machine.execQuiesceHold ring s
  | .quiesceRelease ring => Sys2Proof.Machine.execQuiesceRelease ring s
  | .quiesceHoldTimeout region => Sys2Proof.Machine.execQuiesceHoldTimeout region s
  | .copy ring => Sys2Proof.Machine.execCopy ring s
  | .fill ring => Sys2Proof.Machine.execFill ring s
  | .zero ring => Sys2Proof.Machine.execZero ring s
  | .clean ring => Sys2Proof.Machine.execClean ring s
  | .inval ring => Sys2Proof.Machine.execInval ring s
  | .discard ring => Sys2Proof.Machine.execDiscard ring s
  | .promote ring => Sys2Proof.Machine.execPromote ring s
  | .demoteT2 ring => Sys2Proof.Machine.execDemoteT2 ring s
  | .demoteT3 ring => Sys2Proof.Machine.execDemoteT3 ring s
  | .pin ring => Sys2Proof.Machine.execPin ring s
  | .unpin ring => Sys2Proof.Machine.execUnpin ring s
  | .fadd ring => Sys2Proof.Machine.execFadd ring s
  | .fand ring => Sys2Proof.Machine.execFand ring s
  | .atomicFor ring => Sys2Proof.Machine.execAtomicFor ring s
  | .swap ring => Sys2Proof.Machine.execSwap ring s
  | .cas16 ring => Sys2Proof.Machine.execCas16 ring s
  | .swatchTake ring => Sys2Proof.Machine.execSwatchTake ring s
  | .swatchDrop ring => Sys2Proof.Machine.execSwatchDrop ring s
  | .swatchExport ring => Sys2Proof.Machine.execSwatchExport ring s
  | .quiet ring => Sys2Proof.Machine.execQuiet ring s
  | .dumpNow ring => Sys2Proof.Machine.execDumpNow ring s
  | .takeover ring => Sys2Proof.Machine.execTakeover ring s
  | .brakeSet src h value => Sys2Proof.Machine.execBrakeSet src h value s
  | .brakeRelease src h value => Sys2Proof.Machine.execBrakeRelease src h value s
  | .brakeRings src h value => Sys2Proof.Machine.execBrakeRings src h value s
  | .slvEn src value => Sys2Proof.Machine.execSlvEn src value s
  | .slvTrainingStep3 rate width => Sys2Proof.Machine.execSlvTrainingStep3 rate width s
  | .slvLaneRetire lane => Sys2Proof.Machine.execSlvLaneRetire lane s
  | .dataFlit hdr payload crcOk macOk => Sys2Proof.Machine.execDataFlit hdr payload crcOk macOk s
  | .nullFlit hdr crcOk => Sys2Proof.Machine.execNullFlit hdr crcOk s
  | .retxTimeout seq => Sys2Proof.Machine.execRetxTimeout seq s
  | .slvXoffIn level => Sys2Proof.Machine.execSlvXoffIn level s
  | .hello p => Sys2Proof.Machine.execHello p s
  | .slvSpdm step ok => Sys2Proof.Machine.execSlvSpdm step ok s
  | .session value => Sys2Proof.Machine.execSession value s
  | .rmap entries => Sys2Proof.Machine.execRmap entries s
  | .health health withhold => Sys2Proof.Machine.execHealth health withhold s
  | .taken region => Sys2Proof.Machine.execTaken region s
  | .returnPkt region => Sys2Proof.Machine.execReturnPkt region s
  | .mwr mreg offset full gap prio mask data => Sys2Proof.Machine.execMwr mreg offset full gap prio mask data s
  | .mack count health withhold => Sys2Proof.Machine.execMack count health withhold s
  | .rack count => Sys2Proof.Machine.execRack count s
  | .rpage mreg form page session data => Sys2Proof.Machine.execRpage mreg form page session data s
  | .rdone mreg session => Sys2Proof.Machine.execRdone mreg session s
  | .undefinedPacket type len => Sys2Proof.Machine.execUndefinedPacket type len s
  | .resyncPageSend region page => Sys2Proof.Machine.execResyncPageSend region page s
  | .slvReturnGo src region => Sys2Proof.Machine.execSlvReturnGo src region s
  | .bucketLeak kind unit => Sys2Proof.Machine.execBucketLeak kind unit s
  | .errorCounted kind unit weight place => Sys2Proof.Machine.execErrorCounted kind unit weight place s
  | .unitRetire kind unit => Sys2Proof.Machine.execUnitRetire kind unit s
  | .fatalError cause unit vaultSound => Sys2Proof.Machine.execFatalError cause unit vaultSound s
  | .ntcPop src size => Sys2Proof.Machine.execNtcPop src size s
  | .fltInjectCorrected src kind unit => Sys2Proof.Machine.execFltInjectCorrected src kind unit s
  | .fltInjectRetire src kind unit => Sys2Proof.Machine.execFltInjectRetire src kind unit s
  | .generate src slot => Sys2Proof.Machine.execGenerate src slot s
  | .erase src slot => Sys2Proof.Machine.execErase src slot s
  | .pmcSet src value => Sys2Proof.Machine.execPmcSet src value s
  | .pmcDumpEn src value => Sys2Proof.Machine.execPmcDumpEn src value s
  | .tapestryMinuteSample => Sys2Proof.Machine.execTapestryMinuteSample s
  | .tapestryCheck changed noHeader noChain => Sys2Proof.Machine.execTapestryCheck changed noHeader noChain s
  | .tapestryFetch src index => Sys2Proof.Machine.execTapestryFetch src index s
  | .rftFetch src index => Sys2Proof.Machine.execRftFetch src index s
  | .trainFetch src index => Sys2Proof.Machine.execTrainFetch src index s
  | .commitFetch src index => Sys2Proof.Machine.execCommitFetch src index s
  | .wakeAhead resource => Sys2Proof.Machine.execWakeAhead resource s
  | .stateExitComplete resource => Sys2Proof.Machine.execStateExitComplete resource s
  | .quietEnd h => Sys2Proof.Machine.execQuietEnd h s
  | .glbFence src => Sys2Proof.Machine.execGlbFence src s
  | .idxDataAccess src pair write => Sys2Proof.Machine.execIdxDataAccess src pair write s
  | .mgmtHeadWrite src value => Sys2Proof.Machine.execMgmtHeadWrite src value s
  | .softReset src => Sys2Proof.Machine.execSoftReset src s
  | .regWrite src offset size value => Sys2Proof.Machine.execRegWrite src offset size value s
  | .supplyGood straps flash => Sys2Proof.Machine.execSupplyGood straps flash s
  | .firstTimeInit drives => Sys2Proof.Machine.execFirstTimeInit drives s
  | .thermalSensorRead sensors => Sys2Proof.Machine.execThermalSensorRead sensors s
  | .hdmDecoderCommit h decoder hpaBase hpaSize ways granularity dpaSkip dbType lock commit => Sys2Proof.Machine.execHdmDecoderCommit h decoder hpaBase hpaSize ways granularity dpaSkip dbType lock commit s
  | .beamLinkDownTimeout port => Sys2Proof.Machine.execBeamLinkDownTimeout port s
  | .adoptRebuildEnd slot => Sys2Proof.Machine.execAdoptRebuildEnd slot s
  | .tokenBucketRefill h fclk => Sys2Proof.Machine.execTokenBucketRefill h fclk s
  | .scrWayConvert => Sys2Proof.Machine.execScrWayConvert s
  | .scrWayReturn => Sys2Proof.Machine.execScrWayReturn s
  | .heatEpochTick => Sys2Proof.Machine.execHeatEpochTick s
  | .checkpoint => Sys2Proof.Machine.execCheckpoint s
  | .slotAvoidEnd => Sys2Proof.Machine.execSlotAvoidEnd s
  | .chargeEstimate => Sys2Proof.Machine.execChargeEstimate s
  | .testStart => Sys2Proof.Machine.execTestStart s
  | .testSettled => Sys2Proof.Machine.execTestSettled s
  | .testEsrSample => Sys2Proof.Machine.execTestEsrSample s
  | .testDischargeEnd => Sys2Proof.Machine.execTestDischargeEnd s
  | .testEstimate => Sys2Proof.Machine.execTestEstimate s
  | .testPostponed => Sys2Proof.Machine.execTestPostponed s
  | .estimateAccept => Sys2Proof.Machine.execEstimateAccept s
  | .healthChange => Sys2Proof.Machine.execHealthChange s
  | .ledgerRecompute => Sys2Proof.Machine.execLedgerRecompute s
  | .stewardWatchdogExpire => Sys2Proof.Machine.execStewardWatchdogExpire s
  | .recovery => Sys2Proof.Machine.execRecovery s
  | .pfInAssert => Sys2Proof.Machine.execPfInAssert s
  | .admissionStop => Sys2Proof.Machine.execAdmissionStop s
  | .flushEnergySample => Sys2Proof.Machine.execFlushEnergySample s
  | .wbDrainEnd => Sys2Proof.Machine.execWbDrainEnd s
  | .stage1End => Sys2Proof.Machine.execStage1End s
  | .stage2End => Sys2Proof.Machine.execStage2End s
  | .stage3Start => Sys2Proof.Machine.execStage3Start s
  | .flushCommitConfirmed => Sys2Proof.Machine.execFlushCommitConfirmed s
  | .stage3End => Sys2Proof.Machine.execStage3End s
  | .stage4End => Sys2Proof.Machine.execStage4End s
  | .holdEnDeassert => Sys2Proof.Machine.execHoldEnDeassert s
  | .resume => Sys2Proof.Machine.execResume s
  | .supplyFail => Sys2Proof.Machine.execSupplyFail s
  | .memoryActive => Sys2Proof.Machine.execMemoryActive s
  | .coldRestoreStep6 => Sys2Proof.Machine.execColdRestoreStep6 s
  | .qosRateRecompute => Sys2Proof.Machine.execQosRateRecompute s
  | .slvReceiverDetect => Sys2Proof.Machine.execSlvReceiverDetect s
  | .slvRecovery => Sys2Proof.Machine.execSlvRecovery s
  | .flitBuild => Sys2Proof.Machine.execFlitBuild s
  | .helloRetry => Sys2Proof.Machine.execHelloRetry s
  | .pfNotice => Sys2Proof.Machine.execPfNotice s
  | .fallback => Sys2Proof.Machine.execFallback s
  | .mwrEnqueue => Sys2Proof.Machine.execMwrEnqueue s
  | .pairHoldTimeout => Sys2Proof.Machine.execPairHoldTimeout s
  | .slvDivFull => Sys2Proof.Machine.execSlvDivFull s
  | .trwScrub => Sys2Proof.Machine.execTrwScrub s
  | .secKeyCmdComplete => Sys2Proof.Machine.execSecKeyCmdComplete s
  | .periodicCapture => Sys2Proof.Machine.execPeriodicCapture s
  | .dumpImageWritten => Sys2Proof.Machine.execDumpImageWritten s
  | .tapestryFaultFlush => Sys2Proof.Machine.execTapestryFaultFlush s
  | .tapestryFlushEnd => Sys2Proof.Machine.execTapestryFlushEnd s
  | .calendarEvaluate => Sys2Proof.Machine.execCalendarEvaluate s
  | .thermtrip => Sys2Proof.Machine.execThermtrip s
  | .resetAssert => Sys2Proof.Machine.execResetAssert s
  | .slvL0Regained => Sys2Proof.Machine.execSlvL0Regained s
  | .stewardRestartDone => Sys2Proof.Machine.execStewardRestartDone s
  | .sanitizeComplete => Sys2Proof.Machine.execSanitizeComplete s

end Sys2Proof.Machine
end

