-- ==== Sys2Proof/Safety.lean ====
section
/-! DEFINITION. What counts as a safe state and a safe run of the block, in the terms that statements use. -/
namespace Sys2Proof.Machine

/-- The pin interlock of R594: CHG_EN and TST_EN are never high together, and neither is while HOLD_EN is. -/
def State.pinsSafe (s : State) : Bool :=
  ! (s.rsv.charging && s.rsv.testing) && ! (s.vlt.hold && (s.rsv.charging || s.rsv.testing))

/-- What asks for ALERT#: the watermark side, a notice in the FIFO at or above a nonzero ALERT_SEV (R494), a fatal error
(R578). -/
def Flt.alertDue (f : Flt) : Bool :=
  f.alertMark || (fld f.wm 32 2 ≠ 0 && (noteSevs (! f.mid) f.fifo).any fun x => decide (fld f.wm 32 2 ≤ x)) || f.fatal.isSome

/-- ALERT# is asserted exactly while something asks for it, and its watermark side is up to date (R494, R578). -/
def State.alertSafe (s : State) : Bool := s.flt.alert == s.flt.alertDue && s.flt.alertHi == s.flt.alertMark

/-- A safe state: the pin interlock holds and ALERT# reports what it must. -/
def State.Safe (s : State) : Prop := s.pinsSafe = true ∧ s.alertSafe = true

/-- The state in which a command begins to act: what the last command sent is gone. -/
def State.hush (s : State) : State := { s with out := [] }

/-- Command c, given in state s, completes: it answers a next state, which is u with the pin interlock and ALERT# brought
up to date (settle). An equation for u gives the command's effect and its frame at once. -/
def Yields (c : Instr) (s u : State) : Prop := exec c s = .next (settle u)

/-- Command c, given in state s, completes in a state that meets p before settle. -/
def Completes (c : Instr) (s : State) (p : State → Prop) : Prop := ∃ u, Yields c s u ∧ p u

/-- A request of head h at address hpa passes every check at its port (R33, R68, R70, R85) and no brake, hold or admission
stop keeps it there, and a write no credit (R78, R346, R426, R435): decoder d gives its line, in region n with entry r. The head is not quiet. -/
def State.admits (s : State) (h hpa : Nat) (write : Bool) (d : Decoder) (n : Nat) (r : Region) : Prop :=
  s.on = true ∧ s.memOn h = true ∧ s.flt.fatal = none ∧ s.decoderOf h hpa = some d
    ∧ s.regionOf (d.toDpa hpa / 64) = some (n, r) ∧ (s.head h).link.closed = false ∧ r.refuses h write d.db = false
    ∧ (write = true → (s.slvRgn n).held = false ∧ s.withheld h = false) ∧ s.vlt.stopped = false ∧ (s.head h).braked = false
    ∧ s.quiesced n = false ∧ s.pwr.quiet.get 0 h = 0

/-- Nothing is under way on a line: no open transaction, no hand-off, no request that waits for it, no recovery of its
tiles. Its owner is one of the 16 tiles, and its snoop-filter entry names no head that dropped (R84). -/
def State.atRest (s : State) (line : Nat) : Prop :=
  s.txn line = none ∧ s.coh.handoff.get none line = none ∧ (s.coh.sfWait.any fun e => e.2.line = line) = false
    ∧ (s.coh.retry.any fun e => e.2.line = line) = false ∧ (s.near.wbRetry.any fun e => e.2.line = line) = false
    ∧ s.recoveryHolds line = false ∧ s.coh.snoops = [] ∧ s.ownerTile line < 16 
    ∧ ∀ w, s.findSf (s.ownerTile line) line = some w → (s.sfWay (s.ownerTile line) (sfSet line) w).gone = 0

/-- What the way of a request from its port to its owner tile may change: counters, buckets, load counts, exits of power
states and the pull entry. -/
def Routed (s t : State) : Prop :=
  ∃ qh hs p pw a pu, t = { s with
    heads := hs
    qos := { s.qos with heads := qh }
    pmc := p
    pwr := pw
    near := { s.near with autoOff := a }
    coh := { s.coh with pull := pu } }

/-- The write-buffer entry that an accepted write of head h takes. -/
def State.freshEntry (s : State) (n : Nat) (r : Region) (q : Req) (h tag : Nat) : WbEntry :=
  { id := s.near.wbNext, tile := s.ownerTile q.line, line := q.line, data := q.data, mask := q.mask, poison := false
    region := n, be := q.be, durable := r.durable, buddy := s.buddyTile (s.ownerTile q.line), confirmed := ! r.durable
    draining := false, left := 0, waiters := if r.durable then [(h, tag)] else [], spill := false, gen := (s.gen n).gen
    whole := decide (q.mask = fullMask), prio := s.raised q.line q.prio }

/-- Ring pair r is at work on a descriptor with opcode op: it has not ended, no hold keeps it (R408, R431), and its engine turns
to it (R411). -/
def State.working (s : State) (r op : Nat) (a : Active) : Prop :=
  (s.ring r).act = some a ∧ dOp a.words = op ∧ a.status = none ∧ s.descHeld r = false ∧ s.myTurn r = true

/-- k steps run from s to t, every state on the way safe. -/
def SafeRun : Nat → State → State → Prop
  | 0, s, t => s.Safe ∧ s = t
  | k + 1, s, t => s.Safe ∧ ∃ u, step s = .next u ∧ SafeRun k u t

end Sys2Proof.Machine
end

