-- ==== Sys2Proof/Certificates/Slice0/Obligations.lean ====
section
/-! DEFINITION. The statements for the provers: one definition per obligation of OBLIGATIONS.json, in its order. -/
open Sys2Proof Sys2Proof.Machine

/-- The step of a block: the command at the front of the queue runs on the state with the queue's rest. On an empty queue one FCLK cycle passes
(the model's choice, log entry 1): the clock and the counters move on while the device is on, and nothing else. -/
def Obligations.StepTakesTheFrontCommand : Prop :=
  ∀ s : State,
    (∀ c cs, s.pending = c :: cs → step s = exec c { s with pending := cs })
    ∧ (s.pending = [] → step s = .next s.tick)
    ∧ (s.on = false → s.tick = s)
    ∧ (s.on = true → ∃ p, s.tick = { s with clock := s.clock + 1, pmc := p })

/-- What a reset leaves: the values of the register maps that the spec gives, and a safe state with every addressed memory in its canonical
form. The other fields of State.reset are the model's choice (log entry 2). -/
def Obligations.ResetLeavesTheResetValues : Prop :=
  State.reset.Safe ∧ State.reset.memWf = true ∧ State.reset.pending = [] ∧ State.reset.on = false
    ∧ State.reset.vlt.hold = false ∧ State.reset.rsv.charging = false ∧ State.reset.rsv.testing = false
    ∧ State.reset.flt.fifo = [] ∧ State.reset.flt.fatal = none ∧ State.reset.pmc.cnt = [] ∧ State.reset.rng.rings = []
    ∧ (∀ n, (State.reset.region n).active = false)
    ∧ State.reset.near.ctl = 0x380000 ∧ State.reset.coh.ctl = 0x9 ∧ State.reset.dram.ctl = 0x1030005F18 ∧ State.reset.map.tier = 0xC928140A0014
    ∧ State.reset.map.clean = 0xA ∧ State.reset.beam.ctl = 0x4208040478 ∧ State.reset.qos.ctl = 0xA0F ∧ State.reset.rng.gctl = 0x1F4
    ∧ State.reset.slv.ctl = 0x402401004 ∧ State.reset.flt.wm = 0x201000300 ∧ State.reset.tap.ctl = 0x2A ∧ State.reset.pwr.ctl = 0x271007
    ∧ (∀ k, k < 9 → State.reset.flt.kind k = atBit ([512, 64, 64, 64, 32, 256, 1024, 32, 1024].getD k 0) 0
        ||| atBit ([60000, 10000, 60000, 60000, 600000, 3600000, 1000, 600000, 1000].getD k 0) 16)

/-- R594, R494, R578: from every safe state a step answers a safe next state, so every run from it stays safe: the charger and the test load are
never on together, neither is on while the hold-up switch is, and ALERT# is asserted exactly while something asks for it. -/
def Obligations.EveryRunStaysSafe : Prop :=
  (∀ s : State, s.Safe → ∃ t, step s = .next t ∧ t.Safe)
    ∧ (∀ (k : Nat) (s : State), s.Safe → ∃ t, SafeRun k s t)
    ∧ (∀ c s t, exec c s = .next t → t.Safe ∧ (t.rsv.charging = true → t.rsv.testing = false ∧ t.vlt.hold = false)
        ∧ (t.rsv.testing = true → t.vlt.hold = false) ∧ (t.flt.fatal.isSome = true → t.flt.alert = true)
        ∧ (min (fld t.flt.wm 0 11) 1024 ≤ t.flt.fifo.length → t.flt.alert = true))

/-- The model's choice (log entry 3): a device without power or clocks, or held in reset, takes no command. Every command but the two that move
RESET# leaves it as it is, and RESET# itself is only recorded. -/
def Obligations.AnUnpoweredDeviceTakesNoCommand : Prop :=
  ∀ (c : Instr) (s : State), s.on = false → s.Safe →
    ((∀ st ok, c ≠ .supplyGood st ok) → c ≠ .resetAssert → exec c s = .next s)
    ∧ exec .resetAssert s = .next { s with out := [], pins := { s.pins with reset := true } }

/-- R490, R492: a notice enters the FIFO whole or not at all. After a drop it needs room for itself and for one NTC_OVERFLOW notice, which goes
first and gives the number dropped; else it is dropped and counted. The FIFO never holds more than 1,024 words. Posting a notice changes the
FIFO, the tapestry, the counters, and event records with their interrupt, and nothing else. -/
def Obligations.NoticesEnterWholeOrAreCounted : Prop :=
  ∀ (s : State) (n : Note) (f : Flt), s.flt = f →
    (n.words.length = (if n.arg1 = none then 1 else 2) ∧ (n.words.map fun w => flag w 61).getLast? = some true
      ∧ ∀ w ∈ n.words, flag w 63 = true)
    ∧ (f.dropped = 0 → f.fifo.length + n.words.length ≤ 1024 → (s.note n).flt = { f with fifo := f.fifo ++ n.words })
    ∧ (f.dropped = 0 → 1024 < f.fifo.length + n.words.length →
        (s.note n).flt = { f with dropped := 1, droppedTotal := min (f.droppedTotal + 1) (2 ^ 32 - 1) })
    ∧ (f.dropped ≠ 0 → f.fifo.length + n.words.length + 1 ≤ 1024 →
        (s.note n).flt = { f with fifo := f.fifo ++ overflowWord f.dropped :: n.words, dropped := 0 })
    ∧ (f.dropped ≠ 0 → 1024 < f.fifo.length + n.words.length + 1 →
        (s.note n).flt = { f with dropped := f.dropped + 1, droppedTotal := min (f.droppedTotal + 1) (2 ^ 32 - 1) })
    ∧ (f.fifo.length ≤ 1024 → (s.note n).flt.fifo.length ≤ 1024)
    ∧ (n.sev < 2 → s.note n = { s with flt := (s.note n).flt, tap := (s.note n).tap, pmc := (s.note n).pmc })
    ∧ (∃ hs o, s.note n = { s with flt := (s.note n).flt, tap := (s.note n).tap, pmc := (s.note n).pmc, heads := hs, out := s.out ++ o })

/-- R565: from commit until stage 5 deasserts HOLD_EN the device ignores RESET#: its assertion changes the pin alone, and its deassertion too.
If it is still asserted at the deassertion of HOLD_EN it takes effect then, and only then: the device is off, and only boot flash, drives,
wrapped keys and waiting commands remain. -/
def Obligations.ResetWaitsForTheHold : Prop :=
  ∀ s : State, s.on = true → s.vlt.hold = true →
    Yields .resetAssert s { s.hush with pins := { s.pins with reset := true } }
    ∧ (∀ x ok, Yields (.supplyGood x ok) s { s.hush with pins := { s.pins with reset := false } })
    ∧ (s.vlt.st = .s5 → s.pins.reset = true →
        Completes .holdEnDeassert s fun u => u.on = false ∧ u.pins = { reset := true, thermTrip := s.pins.thermTrip } ∧ u.vlt = {} ∧ u.heads = []
          ∧ u.boot = s.boot ∧ u.pending = s.pending ∧ u.sec = { wrap := s.sec.wrap, draws := s.sec.draws })
    ∧ (s.vlt.st = .s5 → s.pins.reset = false →
        Yields .holdEnDeassert s { s.hush with vlt := { s.vlt with hold := false, st := .wait } })
    ∧ (s.vlt.st ≠ .s5 → Yields .holdEnDeassert s s.hush)

/-- R33, R91, R153: a read of a line at rest in a PRIVATE region that an access check passes. Where the line is resident it answers its head
with the line's data, or poison; where it is not, it opens the line's transaction, which goes to the map. R153: OWN_NODATA and EVICT of a
line at rest in a PRIVATE region complete without data; a speculative read is discarded. -/
def Obligations.RequestsAnswerTheirHead : Prop :=
  (∀ (s : State) (h tag hpa n : Nat) (mv : Meta) (d : Decoder) (r : Region),
    s.admits h hpa false d n r → s.atRest (d.toDpa hpa / 64) → r.coh = 0 →
    ∀ c, c = Instr.memRd h tag hpa mv ∨ c = Instr.memRdData h tag hpa mv →
      (∀ w, s.resident r (d.toDpa hpa / 64) = some w → Completes c s fun u =>
        u.out = [.memData h tag (if (s.lineValue r (d.toDpa hpa / 64)).poison then 0 else (s.lineValue r (d.toDpa hpa / 64)).data)
            (s.lineValue r (d.toDpa hpa / 64)).poison (u.devLoad h)]
        ∧ u.near.wb = s.near.wb ∧ u.coh.sf = s.coh.sf ∧ u.coh.txns = s.coh.txns
        ∧ u = { s with out := u.out, heads := u.heads, near := u.near, coh := u.coh, qos := u.qos, pmc := u.pmc, pwr := u.pwr })
      ∧ (s.resident r (d.toDpa hpa / 64) = none → r.pooled = false → (s.linePlace r (d.toDpa hpa / 64)).isSome = true → Completes c s fun u =>
        (∃ t, u.txn (d.toDpa hpa / 64) = some t ∧ t.phase = .lookup ∧ t.req.src = .head h tag ∧ t.req.line = d.toDpa hpa / 64 ∧ t.queue = [])
        ∧ u.near.wb = s.near.wb ∧ u.near.nc = s.near.nc ∧ u.coh.sf = s.coh.sf
        ∧ u = { s with heads := u.heads, out := [], near := u.near, coh := u.coh, qos := u.qos, pmc := u.pmc, pwr := u.pwr }))
  ∧ (∀ (s : State) (h tag hpa n : Nat) (d : Decoder) (r : Region),
    (s.admits h hpa false d n r → s.atRest (d.toDpa hpa / 64) → r.coh = 0 → h < 16 →
      ∀ c, c = Instr.memInv h tag hpa ∨ c = Instr.memClnEvct h tag hpa → Completes c s fun u =>
        u.out = [.memCmp h tag (u.devLoad h)] ∧ u.near.wb = s.near.wb ∧ u.near.nc = s.near.nc ∧ u.coh.sf = s.coh.sf ∧ u.coh.txns = s.coh.txns
        ∧ u = { s with out := u.out, heads := u.heads, near := u.near, coh := u.coh, qos := u.qos, pmc := u.pmc, pwr := u.pwr })
    ∧ (s.on = true → s.pwr.quiet.get 0 h = 0 → Yields (.memSpecRd h hpa) s s.hush))

/-- R19, R95, R97: a write to a line that has no entry and no resident copy takes a write-buffer entry with its bytes; it completes at once in a
VOLATILE region and waits for its buddy in a DURABLE one. A recalled writeback does so ahead of every queued request, though its line's
transaction is open (R157). R100, R157: a recalled writeback that waited for a write-buffer entry is accepted when its tile's queue is
retried. -/
def Obligations.WritesTakeTheirEntries : Prop :=
  (∀ (s : State) (h tag hpa n : Nat) (mv : Meta) (data : Line) (mask : Mask) (d : Decoder) (r : Region),
    s.admits h hpa true d n r → h < 16 → r.pooled = false → r.mirror = false → r.wpol = 0 →
    s.findWay (s.ownerTile (d.toDpa hpa / 64)) (d.toDpa hpa / 64) = none →
    s.mergeEntry (s.ownerTile (d.toDpa hpa / 64)) n (d.toDpa hpa / 64) = none →
    s.wbRoom (s.ownerTile (d.toDpa hpa / 64)) true = true → s.wbRoom (s.ownerTile (d.toDpa hpa / 64)) false = true →
    (s.gen n).hold = false →
    (s.atRest (d.toDpa hpa / 64) → r.coh = 0 →
      ∀ p ∈ [(Instr.memWr h tag hpa mv data false, fullMask), (Instr.memWrPtl h tag hpa mv data mask false, mask)],
        Completes p.1 s fun u => ∃ e, u.near.wb = s.near.wb ++ [e] ∧ e.line = d.toDpa hpa / 64 ∧ e.data = data ∧ e.mask = p.2
          ∧ e.region = n ∧ e.durable = r.durable ∧ e.confirmed = ! r.durable
          ∧ e.waiters = (if r.durable then [(h, tag)] else [])
          ∧ u.out = (if r.durable then [] else [.memCmp h tag (u.devLoad h)])
          ∧ u = { s with out := u.out, heads := u.heads, near := u.near, coh := u.coh, map := u.map, qos := u.qos, pmc := u.pmc, pwr := u.pwr })
    ∧ (s.snooped h (d.toDpa hpa / 64) = true → (∀ t x, s.txn (d.toDpa hpa / 64) = some t → t.phase ≠ .fill x) →
        Completes (.recalledWriteback h tag hpa mv data mask false) s fun u =>
          ∃ e, u.near.wb = s.near.wb ++ [e] ∧ e.line = d.toDpa hpa / 64 ∧ e.data = data ∧ e.mask = mask
          ∧ e.durable = r.durable ∧ u.coh = { s.coh with pull := u.coh.pull }
          ∧ u.out = (if r.durable then [] else [.memCmp h tag (u.devLoad h)])
          ∧ u = { s with out := u.out, near := u.near, coh := u.coh, map := u.map, pmc := u.pmc }))
  ∧ (∀ (s : State) (tile n h tag : Nat) (r : Region) (q : Req), s.on = true → s.near.wbRetry = [(tile, q)] → s.coh.heldBirsp = [] →
    s.regionFor q = some (n, r) → q.src = .head h tag → q.writes = true → h < 16 → q.mute = false → q.poison = false → s.snooped h q.line = true →
    (∀ t, s.txn q.line = some t → t.phase = .recall) → (s.head h).link.recovery = false →
    r.pooled = false → r.mirror = false → s.findWay (s.ownerTile q.line) q.line = none →
    s.mergeEntry (s.ownerTile q.line) n q.line = none → s.wbRoom (s.ownerTile q.line) q.be = true → (s.gen n).hold = false →
    Completes (.wbRetryQueueRetry tile) s fun u =>
      u.near.wb = s.near.wb ++ [s.freshEntry n r { q with atP2 := true } h tag] ∧ u.near.wbRetry = []
      ∧ u.out = (if r.durable then [] else [.memCmp h tag (u.devLoad h)])
      ∧ u = { s with out := u.out, near := u.near, map := u.map, pmc := u.pmc })

/-- R155, R156: a BIRsp to an outstanding BISnp takes the BISnp off, notes the answer in its line's transaction and applies it to the line's
record; BIRspE counts as BIRspI where the BISnp was not BISnpCur. Stated for an answer after which the transaction still awaits another
head. The answer to a BISnp of an abandoned transaction changes nothing else (R603). BIConflict is acknowledged: at once, or after the
completion of a write of the head that still waits for its buddy. -/
def Obligations.SnoopAnswersAreTaken : Prop :=
  ∀ (s : State) (h line : Nat) (sn : Snoop) (t : Txn), s.on = true →
    (s.coh.snoops.find? fun x => x.head = h && x.line = line) = some sn → s.writebackWaits h line = false →
    (sn.stale = false → s.txn line = some t → t.phase = .recall → putBit t.waits h false ≠ 0 →
      ∀ p ∈ [(Instr.birspI h line, Birsp.i), (Instr.birspS h line, .s), (Instr.birspE h line, if sn.kind = .cur then .e else .i)],
        Yields p.1 s (State.setTxn
          (State.answered { s.hush with coh := { s.coh with snoops := s.coh.snoops.erase sn } } h line p.2)
          line (some { t with waits := putBit t.waits h false, ansS := if p.2 = .s then putBit t.ansS h true else t.ansS })))
    ∧ (sn.stale = true → ∀ c ∈ [Instr.birspI h line, .birspS h line, .birspE h line],
        Yields c s { s.hush with coh := { s.coh with snoops := s.coh.snoops.erase sn } })
    ∧ (s.responseDue h line = false → (s.head h).link.recovery = false →
        Yields (.biConflict h line) s { s with out := [.biConflictAck h line] })
    ∧ (s.responseDue h line = true →
        Yields (.biConflict h line) s { s.hush with coh := { s.coh with conflicts := s.coh.conflicts ++ [(h, line)] } })

/-- R157, R151, R152: an answered transaction without waiting requests closes; a recalled snoop-filter victim frees its entry for the request
that waits for the way; a request that found its set full is tried again once there is room. R79: GPF Phase 1 is answered at once; Phase 2
is answered once every accepted write of the head's DURABLE regions is protected: at once where no write is buffered or on its way. -/
def Obligations.TransactionsAndGpfEnd : Prop :=
  (∀ (s : State) (tile set line : Nat) (t : Txn) (q : Req) (rest : List (Nat × Req)), s.on = true →
    (s.txn line = some t → t.phase = .done → s.paid line t = true → t.queue = [] → Yields (.openTxnClose line) s (s.hush.setTxn line none))
    ∧ (s.txn line = some t → t.phase = .victim → t.waits = 0 → t.queue = [] → (s.near.wbRetry.any fun e => e.2.line = line) = false →
        s.coh.sfWait = [(line, q)] → q.line ≠ line → s.txn q.line = none → s.coh.txns.wf none = true →
        ∃ v, v = (s.hush.recordSf line .none 0).setTxn line none
          ∧ Yields (.sfVictimFree line) s (State.start { v with coh := { v.coh with sfWait := [] } } q))
    ∧ (s.coh.retry = (tile, q) :: rest → sfSet q.line = set → s.sfRoom tile q = true → s.recallRoom q = true →
        (s.coh.sfWait.any fun x => x.2.line = q.line) = false → s.txn q.line = none →
        Yields (.sfRetryQueueRetry tile set) s (State.start { s.hush with coh := { s.coh with retry := rest } } q)))
  ∧ (∀ (s : State) (h : Nat), s.on = true → s.memOn h = true →
    Yields (.gpfPhase1 h) s { s with out := [.gpfDone h 1] }
    ∧ (s.near.wb = [] → s.queuedWrites = [] → s.rng.seals = [] → s.vlt.stopped = false → h < 16 →
        Yields (.gpfPhase2 h) s { s with out := [.gpfDone h 2] }))

/-- R97, R99, R100: the buddy's confirmation releases the completion that waited for it; an entry of a VOLATILE region starts to drain as one
write queued for its page's frame. -/
def Obligations.WriteBufferEntriesMoveOn : Prop :=
  ∀ (s : State) (tile id h tag twin f : Nat) (e : WbEntry), s.on = true →
    (s.near.wb.find? fun e => e.id = id && e.tile = tile) = some e →
    (e.confirmed = false → e.waiters = [(h, tag)] → h < 16 → s.rng.seals = [] → s.coh.conflicts = [] → (s.head h).link.recovery = false →
      Yields (.buddyConfirm tile id) s
        { s with
          out := [.memCmp h tag (s.devLoad h)]
          near := { s.near with wb := s.near.wb.map fun x => if x.id = id then { x with confirmed := true, waiters := [] } else x } })
    ∧ (s.drainable e = true → e.id = id → e.durable = false → (s.page (pageOf e.line)).place = .t1 f → s.frameLive f = true →
        (s.chan (frameChan f)).writesOn (e.line % 2) < 64 →
        Yields (.wbEntryDrain tile id twin) s
          (State.queueWrite
            { s.hush with near := { s.near with wb := s.near.wb.map fun x => if x.id = id then { x with draining := true, left := 1, spill := false } else x } }
            f (e.line % 64) { data := e.data, poison := e.poison } e.mask e.whole (some id) (s.drainLevel e)))

/-- R99, R189: a DRAM write whose turn it is puts its bytes into its line of its frame as the channel confirms it, over the line's other copy in
a twin frame that has not held the line yet; it leaves every other line of every frame, the near cache, the beam and the registers as they
were. -/
def Obligations.DramWriteLandsInItsLine : Prop :=
  ∀ (s : State) (ch id : Nat) (w : DramWrite), s.on = true → s.memWf = true → (s.chan ch).inService = true → w.idx < 64 →
    (s.chan ch).writeQ.find? (fun w => w.id = id) = some w → s.writeIssues ch w = true → w.entry = none →
    Completes (.dramWriteConfirm ch id false) s fun u =>
      u.cell w.frame w.idx = (s.landBase w).lay w.cell.data w.mask w.cell.poison w.whole
      ∧ (∀ g j, j < 64 → (g, j) ≠ (w.frame, w.idx) → u.cell g j = s.cell g j)
      ∧ u = { s with out := [], dram := u.dram, map := u.map, pmc := u.pmc }

/-- R103 to R111: a fetched line is placed in an empty victim way, clean, with its poison mark and DURABLE bit, the set is held to PROT_MAX, and
its transaction may close; an evicted line's writeback puts its bytes into its page's frame and frees its way (R105). R170: an atomic that
runs at memory has its line read by the channel controller at P2 once nothing of the line is buffered. -/
def Obligations.NearCacheLinesComeAndGo : Prop :=
  ∀ (s : State) (line n w f g : Nat) (r : Region) (t : Txn) (c : LineCell), s.on = true →
    (s.txn line = some t → s.regionAt line = some (n, r) → t.phase = .fill c → t.req.kind = .rdCur → r.wpol < 2 →
      s.victim (s.ownerTile line) (ncSet line) (decide (r.wpol = 3)) = some w → (s.way (s.ownerTile line) (ncSet line) w).v = false →
      s.protAtFill r line = false →
      Yields (.ncFillComplete line) s
        (State.setTxn (((s.hush.setWay (s.ownerTile line) (ncSet line) w
            { v := true, tag := ncTag line, poison := c.poison, dur := r.durable, data := c.data }).touch (s.ownerTile line) (ncSet line) w).trimProt
              (s.ownerTile line) (ncSet line) w 16)
          line (some { t with phase := .done })))
    ∧ (s.findWay (s.ownerTile line) line = some w → s.ownerTile line = s.homeTile line → (s.page (pageOf line)).place = .t1 f → s.frameLive f = true →
        ∀ x, s.way (s.ownerTile line) (ncSet line) w = x → x.evicting = true → x.d = true →
        Yields (.ncEvictWritebackConfirm line) s
          ((s.hush.setCell f (line % 64) { data := x.data, poison := x.poison }).setWay (s.ownerTile line) (ncSet line) w {}))
    ∧ (s.txn line = some t → (s.page (pageOf line)).place = .t1 f → (s.page (pageOf line)).moving = none →
        t.phase = .atomicWait → (s.near.wb.any fun e => e.line = line) = false →
        s.t1Source f (line % 64) = .t1 g → (s.chan (frameChan g)).readRoom line = true →
        Yields (.atomicAtMemory line) s (s.hush.dramRead { t.req with atP2 := true } g))

/-- R80, R139, R176: NC_CTL and SF_CTL.WIDE_CLR take effect when the management head or the management interface writes them; another head's
write has no effect and posts an ACCESS notice. -/
def Obligations.CacheControlWritesNeedManagement : Prop :=
  ∀ (s : State) (src : Nat) (v : Word), s.on = true → s.reaches src = true →
    (s.isMgmt src = true →
      Yields (.ncCtlWrite src v) s (State.applyLocks { s.hush with near := { s.near with ctl := v &&& 0x3FF37F } })
      ∧ Yields (.wideClr src) s { s with out := [], coh := { s.coh with wide := false } })
    ∧ (s.isMgmt src = false →
      Yields (.ncCtlWrite src v) s (s.hush.access src 0xFFF 1 (2 ^ 24 + 0x20000))
      ∧ Yields (.wideClr src) s (s.hush.access src 0xFFF 1 (2 ^ 24 + 0x30000)))

/-- R115, R118, R119, R122, R123, R135: ways change their roles only once they are clean and empty. v is the state in which the way, or the way
of every slice, has been cleaned and invalidated. -/
def Obligations.WaysChangeRolesWhenClean : Prop :=
  ∀ (s v : State) (slice way : Nat), s.on = true →
    (s.near.curScr < s.scrReq → s.hush.cleanWays s.nextScratch = (true, v) →
      Completes .scrWayConvert s fun u => u.near.curScr = v.near.curScr + 1
        ∧ (∀ l c, (l, c) ∈ u.near.scr ↔ (l, c) ∈ v.near.scr ∧ l / 524288 ≠ s.near.curScr)
        ∧ u = { v with near := { v.near with curScr := u.near.curScr, scr := u.near.scr, off := u.near.off } })
    ∧ (s.scrReq < s.near.curScr → s.poolUsedBeyond (16 * s.scrReq) = false → s.boot.pendNc = 0 →
      Yields .scrWayReturn s { s with
        out := []
        near := { s.near with
          curScr := s.near.curScr - 1
          scr := s.near.scr.restrict fun l _ => l / 524288 ≠ s.near.curScr - 1 } })
    ∧ ((s.near.lockCleaning.get 0 slice).getLsbD way = true → (s.lockedWays slice).contains way = true →
      s.hush.cleanWay slice way false = (true, v) →
      Yields (.lockWayConvert slice way) s ((v.setLockCleaning slice way false).setOff slice way false))
    ∧ (slice < 16 → s.tileRetired slice = false → (s.offTarget slice).contains way = true →
      (s.near.off.get 0 slice).getLsbD way = false → s.wayHot slice way = false → s.hush.cleanWay slice way true = (true, v) →
      Yields (.wayPowerDown slice way) s (v.setOff slice way true))
    ∧ ((s.near.off.get 0 slice).getLsbD way = true → (s.offTarget slice).contains way = false →
      Yields (.wayPowerUp slice way) s (s.hush.setOff slice way false))
    ∧ (s.retireDue 2 (16 * slice + way) = true → (s.scratchWays slice).contains way = false →
      State.cleanWay { s.hush with near := { s.near with retiring := putBit s.near.retiring (16 * slice + way) true } } slice way false = (true, v) →
      Yields (.ncWayRetire slice way) s
        (((v.retireTaken 2 (16 * slice + way)).ncWayGone slice way
          (s.near.lostLocks.get 0 (16 * slice + way) + s.lockedIn slice way - v.lockedIn slice way)).newLocks s.hush))

/-- R162: the action of a tile on a probe follows the tile's state for the line, the first row that applies; the tile shows it and nothing else
changes, but that a forwarded probe is counted, and that a settling tile records the identity of a probe it takes. The probe of a region
that is not broadcast reaches the home tile alone (R160). R165, R168: the steps of a hand-off, each from the state its row of the table
names to the state it names, with the message it sends. -/
def Obligations.ProbesAndHandOffsFollowTheirTables : Prop :=
  (∀ (s : State) (tile h tag line : Nat) (x : HandOff), s.on = true → s.coh.recHeld = [] → tile < 16 →
    (s.probeWide line = true ∨ tile = s.homeTile line) →
    (s.coh.handoff.get none line = none →
      Yields (.probe tile h tag line) s { s with out := [.probe tile (if tile = s.ownerTile line then .take else .drop)] })
    ∧ (s.coh.handoff.get none line = some x →
      (tile = x.src → x.leaving = true → Yields (.probe tile h tag line) s { s with out := [.probe tile .takeHold] })
      ∧ (tile = x.src → x.leaving = false → x.gone = true →
          Yields (.probe tile h tag line) s { s.hush.count (320 + 16 * tile + 5) 1 with out := [.probe tile .forward] })
      ∧ (tile = x.dst → tile ≠ x.src → x.arriving = true → Yields (.probe tile h tag line) s { s with out := [.probe tile .pending] })
      ∧ (tile = x.dst → tile ≠ x.src → x.arriving = false → x.settling = true → x.ids.contains (h, tag) = true →
          Yields (.probe tile h tag line) s { s with out := [.probe tile .discard] })
      ∧ (tile = x.dst → tile ≠ x.src → x.arriving = false → x.settling = true → x.ids.contains (h, tag) = false → tile = s.ownerTile line →
          Yields (.probe tile h tag line) s
            (({ s with out := [.probe tile .take] } : State).setHandOff line (some { x with ids := x.ids ++ [(h, tag)] })))
      ∧ (tile ≠ x.dst → tile ≠ x.src → tile ≠ s.ownerTile line → Yields (.probe tile h tag line) s { s with out := [.probe tile .drop] })))
  ∧ (∀ (s : State) (line target w sw k : Nat) (x : HandOff) (q : Req), s.on = true →
    (s.offerOk line target = true →
      Completes (.offer line target) s fun u => (∃ y, u.handOff line = some y ∧ y.src = s.ownerTile line ∧ y.dst = target
          ∧ y.leaving = true ∧ y.gone = false ∧ y.arriving = false ∧ y.settling = false)
        ∧ u.out = [.ring .offer line target] ∧ u = { s with out := u.out, coh := u.coh, pmc := u.pmc })
    ∧ (s.findWay (s.ownerTile line) line = some w → (s.way (s.ownerTile line) (ncSet line) w).evicting = true →
        (s.way (s.ownerTile line) (ncSet line) w).d = false → s.ownerTile line ≠ s.homeTile line → s.lineOpen line = false →
        (s.near.wb.any fun e => e.line = line) = false → s.recordRoom (s.ownerTile line) = true →
      Completes (.evictHandOff line) s fun u => (∃ y, u.handOff line = some y ∧ y.src = s.ownerTile line ∧ y.dst = s.homeTile line
          ∧ y.leaving = true ∧ y.evict = true) ∧ u.out = [.ring .offer line (s.homeTile line)]
          ∧ u = { s with out := u.out, coh := u.coh, pmc := u.pmc })
    ∧ (s.handOff line = some x → x.leaving = true → x.offered = true → x.evict = false → s.recordRoom x.dst = true →
        s.victim x.dst (ncSet line) (((s.regionOf line).map fun e => decide (e.2.wpol = 3)).getD false) = some w →
        (s.way x.dst (ncSet line) w).v = false →
        (s.freeSf x.dst (sfSet line) = some sw →
          Yields (.offerReceived line) s
            (((s.hush.reserve x.dst line w).setHandOff line (some { x with offered := false, arriving := true, sfWay := sw })).ringMsg
              .accept line x.dst x.src))
        ∧ (s.freeSf x.dst (sfSet line) = none →
          Yields (.offerReceived line) s
            (((s.hush.count (evTile x.src 7) 1).setHandOff line (some { x with offered := false })).ringMsg .refuse line x.dst x.src)))
    ∧ (s.handOff line = some x → x.leaving = true → x.offered = true → x.evict = true → s.recordRoom x.dst = true →
        s.findSf x.src line ≠ none → s.freeSf x.dst (sfSet line) = some sw →
        Yields (.offerReceived line) s
          ((s.hush.setHandOff line (some { x with offered := false, arriving := true, sfWay := sw })).ringMsg .accept line x.dst x.src))
    ∧ (s.handOff line = some x → x.leaving = true → x.offered = false → x.arriving = true →
        Completes (.accept line) s fun u => (∃ y, u.handOff line = some y ∧ y.leaving = false ∧ y.gone = true ∧ y.commitAt = s.clock
            ∧ y.held = x.held ∧ y.pending = x.pending)
          ∧ (x.dst ≠ s.homeTile line → u.coh.lent.get none line = some x.dst)
          ∧ u.out = [.ring .commit line x.dst] ∧ u = { s with out := u.out, coh := u.coh, near := u.near, pmc := u.pmc })
    ∧ (s.handOff line = some x → x.leaving = true → x.offered = false → x.arriving = false → x.held = [q] →
        ∃ v, v = s.hush.setHandOff line none
          ∧ Yields (.refuse line) s (State.take { v with coh := { v.coh with refusedAt := v.coh.refusedAt.set 0 line s.clock } } q))
    ∧ (s.handOff line = some x → x.gone = true → x.arriving = true → x.held = [] → x.pending = [] →
        Completes (.commit line) s fun u => (∃ y, u.handOff line = some y ∧ y.arriving = false ∧ y.settling = true ∧ y.ids = []
            ∧ y.settleAt = s.clock + 4000)
          ∧ u.out = [] ∧ u = { s with out := [], coh := u.coh, near := u.near })
    ∧ (s.handOff line = some x → x.gone = true → x.arriving = false → s.clock = x.commitAt + 3000 + k →
        Yields (.goneTimeout x.src line) s
          (s.hush.setHandOff line (if x.settling then some { x with gone := false } else none)))
    ∧ (s.handOff line = some x → x.settling = true → s.clock = x.settleAt + k →
        Yields (.settlingTimeout x.dst line) s
          (s.hush.setHandOff line (if x.gone then some { x with settling := false, ids := [] } else none))))

/-- R91, R195, R196, R206, R485: a DRAM read that its scheduler may issue and that passes its check leaves the read queue and answers the head
that waits with the line of its frame, write-buffer bytes laid over it; in a region that does not allocate its transaction may close. -/
def Obligations.DramReadAnswersItsHead : Prop :=
  ∀ (s : State) (ch id f pn n h tag line : Nat) (bad : Bool) (x : DramRead) (t : Txn) (r : Region), s.on = true →
    (s.chan ch).inService = true → (s.chan ch).readQ.find? (fun x => x.id = id) = some x → s.readIssues ch x = true → x.why = .line →
    s.txn x.line = some t → t.phase = .dram → s.regionAt x.line = some (n, r) → s.linePlace r x.line = some (pn, .t1 f) →
    s.t1Source f (x.line % 64) = .t1 x.frame → r.noalloc = true →
    t.req.kind = .rdCur → t.req.src = .head h tag → t.req.mute = false → (s.head h).link.recovery = false →
    Completes (.dramReadComplete ch id .good line bad) s fun u =>
      u.out = [.memData h tag
          (if (s.withBuffer x.line (s.cell x.frame (x.line % 64))).poison then 0 else (s.withBuffer x.line (s.cell x.frame (x.line % 64))).data)
          (s.withBuffer x.line (s.cell x.frame (x.line % 64))).poison (s.devLoad h)]
      ∧ u.txn x.line = some { t with phase := .done }
      ∧ (u.chan ch).readQ = (s.chan ch).readQ.filter (fun y => y.id ≠ x.id)
      ∧ u = { s with out := u.out, dram := { s.dram with ch := u.dram.ch }, coh := u.coh, pmc := u.pmc }

/-- R199, R201, R203, R204, R209: a channel's upkeep, each step at or after its time. The refresh of the bank group whose turn it is is
postponed while a read waits for its bank, up to four times, and takes the postponed ones in when none waits; the oscillator count of a rank
in its refresh window adjusts the delays; a request that has waited 50 us counts as P3; the hottest sensor throttles the channel at
THROT_TEMP; a patrol step queues the read of the next allocated frame at P6. -/
def Obligations.DramUpkeep : Prop :=
  ∀ (s : State) (ch rank group id temp count f k : Nat) (temps : List (Option Nat)) (x : DramRead), s.on = true →
    ((s.chan ch).inService = true → (s.chan ch).retired = false →
      (rank < 4 → group < 8 → s.inPowerState (16 + ch) = false → (s.chan ch).refNext.get 0 rank = group →
        s.clock = (s.chan ch).refDue.get 0 rank + k →
        ∃ v, v = (s.hush.modChan ch fun c => { c with
            refNext := c.refNext.set 0 rank ((group + 1) % 8), refDue := c.refDue.set 0 rank (s.clock + (s.chan ch).refi) })
          ∧ (s.bankWanted ch rank group = true → (s.chan ch).postponed.get 0 (8 * rank + group) < 4 →
              Yields (.refresh ch rank group true) s
                ((v.modChan ch fun c => { c with
                  postponed := c.postponed.set 0 (8 * rank + group) ((s.chan ch).postponed.get 0 (8 * rank + group) + 1) }).count (evChan ch 4) 1))
          ∧ (s.bankWanted ch rank group = false →
              Yields (.refresh ch rank group true) s (v.refreshBank ch rank group)))
      ∧ ((s.chan ch).ranks.getLsbD rank = true → (s.chan ch).window.getLsbD rank = true →
          s.clock = (s.chan ch).oscAt.get 0 rank + 2000000 + k →
          Yields (.oscillatorRead ch rank count) s
            (s.hush.modChan ch fun c => { c with
              oscAt := c.oscAt.set 0 rank s.clock
              delays := Config.adjustDelays c.delays rank (c.baseline.getD rank 0) count })))
    ∧ ((s.chan ch).readQ.filter (fun y => y.id = id && decide (3 < y.prio)) = [x] → s.clock = x.since + 100000 + k →
        Yields (.dramQueueAging ch id) s
          ((s.hush.modChan ch fun c => { c with
            readQ := c.readQ.map fun y => if y.id = id then { y with prio := min 3 y.prio, aged := true } else y
            writeQ := c.writeQ.map fun y => if y.id = id then { y with prio := min 3 y.prio, aged := true } else y }).count (evChan ch 5) 1))
    ∧ (ch < 16 → hottest s.throtTemp (s.chan ch).sensorFails temps = some temp → s.clock = (s.chan ch).tempAt + 32000000 + k →
        ∃ v, v = (s.hush.modChan ch fun c => { c with tempAt := s.clock, sensorFails := sensorFailsAfter c.sensorFails temps })
          ∧ ((s.chan ch).throttle = false → (s.chan ch).refresh2x = false →
            (temp < 85 → Yields (.dimmTempRead ch temps) s
              ((v.modChan ch fun c => { c with tempMax := temp, throttle := false, refresh2x := false }).minuteMax (4096 * 2 + 256 + ch) temp))
            ∧ (85 ≤ temp → temp < s.throtTemp → Yields (.dimmTempRead ch temps) s
              ((v.modChan ch fun c => { c with tempMax := temp, throttle := false, refresh2x := true }).minuteMax (4096 * 2 + 256 + ch) temp))
            ∧ (s.throtTemp ≤ temp → Yields (.dimmTempRead ch temps) s
              (((v.modChan ch fun c => { c with tempMax := temp, throttle := true, refresh2x := true }).minuteMax
                (4096 * 2 + 256 + ch) temp).note ⟨1, 0x19, ch + temp * 256, none⟩))))
    ∧ (fld s.dram.ctl 0 8 ≠ 0 → (s.chan ch).throttle = false → (s.chan ch).retired = false → s.hostGap = false →
        ((s.chan ch).readQ.any fun y => y.why = .scrub) = false → s.clock = (s.chan ch).scrubAt + s.scrubGap ch + k →
        s.scrubFrame ch = some f → (s.chan (frameChan f)).readRoom 0 = true → (s.chan (frameChan f)).readRoom 1 = true →
        Yields (.patrolScrubStep ch) s
          ((s.hush.queueRead 0 f 6 .scrub).modChan ch fun c => { c with scrubNext := f + 1, scrubAt := (s.chan ch).scrubAt + s.scrubGap ch }))

/-- R180, R181, R211, R215 to R217: in a cold restore a channel whose SPD is valid, supported, like D0's and within the refresh time enters
service: fast-trained with the record that passes its CRC where that still fits, else by full training, which writes a new record in two
copies; a channel with an unreadable SPD is left out with a notice. R177, R210, R211, R213: units whose retirement is due leave service: a
rank that holds no allocated frame, a channel that holds no copy of a page, a snoop-filter way that holds no entry; each is recorded in the
boot flash, with its notice and event records. A channel's rebuild ends once no map frame is lost and no urgent page is dirty. -/
def Obligations.MemoryUnitsComeAndGo : Prop :=
  (∀ (s : State) (ch : Nat) (p : TrainReport), s.on = true → ch < 16 → s.vlt.st = .restore → s.vlt.active = false → (s.chan ch).inService = false →
    (s.chan ch).retired = false →
    (ch ≠ 0 → s.dram.spd0Read = true ∧ ∀ d, s.dram.spd0 = some d → spdOf p = d) →
    (p.spdValid = true → trainSupported p = true → p.rfcNs ≤ 130 →
      BitVec.ofNat 4 (2 ^ (p.ranksPerDimm * rowDimms p.row) - 1) &&& ~~~ s.boot.retRanks.extractLsb' (4 * ch) 4 ≠ 0 →
      ∀ fast, fast = (s.trainRecord ch p.crcOk).filter (fun r => s.fastTrains p r) → (fast.isSome = true ∨ p.fullOk = true) →
      Completes (.channelTrain ch p) s fun u =>
        (u.chan ch).inService = true ∧ (u.chan ch).ranks = BitVec.ofNat 4 (2 ^ (p.ranksPerDimm * rowDimms p.row) - 1)
        ∧ (u.chan ch).rankFrames = p.dimmGib * 262144 / p.ranksPerDimm ∧ (u.chan ch).trainedFast = fast.isSome
        ∧ (u.chan ch).delays = (fast.map fun r => r.timing).getD p.timing
        ∧ (fast = none → u.boot.train.get none (2 * ch) = some (newRecord ch p) ∧ u.boot.train.get none (2 * ch + 1) = some (newRecord ch p))
        ∧ (fast ≠ none → u.boot = s.boot)
        ∧ u = { s with out := [], boot := u.boot, dram := u.dram })
    ∧ (p.spdValid = false →
      Completes (.channelTrain ch p) s fun u =>
        (u.chan ch).retired = true ∧ (u.chan ch).inService = false ∧ u.boot = { s.boot.keep 1 with retCh := putBit s.boot.retCh ch true }
        ∧ u.flt = s.flt.enter (Note.words ⟨2, 0x18, ch, none⟩)
        ∧ u = { s with out := u.out, heads := u.heads, boot := u.boot, dram := u.dram, flt := u.flt, pmc := u.pmc, tap := u.tap }))
  ∧ ((∀ (s : State) (ch rank : Nat) (bad : List (Nat × Nat × Bool)), s.on = true → s.retireDue 0 (4 * ch + rank) = true → rank < 4 →
      s.rankUsed ch rank = [] → 
      Completes (.rankRetire ch rank bad) s fun u =>
        u.boot = { s.boot.keep 1 with retRanks := putBit s.boot.retRanks (4 * ch + rank) true }
        ∧ u.dram = (s.modChan ch fun c => { c with ranksRet := putBit c.ranksRet rank true }).dram
        ∧ u.flt.fifo = ((s.retireTaken 0 (4 * ch + rank)).flt.enter (Note.words ⟨2, 0x10, 4 * ch + rank, none⟩)).fifo
        ∧ u = { s with out := u.out, heads := u.heads, boot := u.boot, dram := u.dram, flt := u.flt, pmc := u.pmc, tap := u.tap })
  ∧ (∀ (s : State) (ch : Nat), s.on = true → (s.chan ch).retired = false → ch < 16 → s.retireDue 1 ch = true →
      (s.dram.ch.all fun e => e.2.readQ.all fun x => frameChan x.frame ≠ ch) = true → (s.chan ch).writeQ = [] → s.vlt.keep = [] → s.map.swatches = [] →
      (∀ e ∈ s.map.pages, (∀ f, e.2.place = .t1 f → frameChan f ≠ ch) ∧ (∀ a b, e.2.place = .t2 a b → frameChan (a / 8) ≠ ch)
        ∧ ((e.2.twin.toList ++ e.2.twin2.toList).any fun f => frameChan f = ch) = false) →
      Completes (.channelRetire ch) s fun u =>
        u.boot = { s.boot.keep 1 with retCh := putBit s.boot.retCh ch true }
        ∧ (u.chan ch).retired = true ∧ (u.chan ch).rebuild = true ∧ (u.chan ch).twinRsv = 0
        ∧ (∀ e ∈ u.dram.frames, frameChan e.1 ≠ ch)
        ∧ u.map = { s.map with rebuilding := s.map.rebuilding ++ (s.map.units.keysWhere fun _ e => e.dstate = .loaded && frameChan e.frame = ch) }
        ∧ u = { s with out := u.out, heads := u.heads, boot := u.boot, dram := u.dram, map := u.map, flt := u.flt, pmc := u.pmc, tap := u.tap })
  ∧ (∀ (s : State) (ch : Nat), s.on = true → (s.chan ch).rebuild = true → s.map.rebuilding = [] →
      (s.map.pages.any fun e => e.2.urgent && e.2.dirty) = false →
      Yields (.channelRebuildEnd ch) s
        ((s.hush.modChan ch fun c => { c with rebuild := false }).note ⟨2, 0x11, 256 + ch + 4096, none⟩))
  ∧ (∀ (s v : State) (slice way : Nat), s.on = true → s.retireDue 3 (16 * slice + way) = true → way < 16 →
      (s.coh.sf.filter fun e => e.1 / 2097152 = slice && e.1 % 16 = way) = [] → s.coh.handoff = [] →
      v = s.hush.retireTaken 3 (16 * slice + way) →
      Yields (.sfWayRetire slice way) s
        ((State.note { v with boot := { s.boot.keep 1 with retSf := putBit s.boot.retSf (16 * slice + way) true } }
          ⟨1, 0x14, 3 * 256 + (16 * slice + way), none⟩).eventAll ⟨.memoryModule, 0x14, 16 * slice + way⟩)))

/-- R232, R233, R236, R237, R239, R254: pages move between the tiers. A read's promotion of a T3 page takes a free frame; its end puts the page
into T1 with its record; the policy's sweep starts the demotion of a page of a short device, whose end leaves it in T3 at its record with
its frame free; the warmer fills its next page and stops with its list; the heat epoch advances modulo 16 once its length has passed. -/
def Obligations.PagesMoveBetweenTiers : Prop :=
  ∀ (s : State) (pn f a tile place k : Nat), s.on = true →
    ((s.unit (pn / 512)).dstate ≠ .unloaded → s.vlt.stopped = false → (s.page pn).moving = none → (s.page pn).place = .t3 a →
      (s.beam.reads.any fun r => r.addr = a) = true → s.frameOpen f = true → 0 < s.freeFrames →
      ∃ v, v = (((s.hush.useFrame f (.t1 pn none)).count (evTile (s.mapTile pn) 14) 1).modPage pn fun p =>
          { p with moving := some ⟨.toT1, .read, f, false⟩ })
        ∧ Completes (.tierTransitionStart pn .toT1 .read f) s fun u => u = { v with beam := { v.beam with reads := u.beam.reads } }
          ∧ (u.beam.reads.map fun r => r.addr) = s.beam.reads.map fun r => r.addr)
    ∧ ((s.unit (pn / 512)).dstate = .loaded → (s.page pn).moving = some ⟨.toT1, .read, f, false⟩ → (s.page pn).place = .t3 a → a ≠ 0 →
      (s.page pn).waiting = none → (s.beam.reads.any fun r => r.addr = a) = false → (s.chan (frameChan f)).throttle = false →
      s.frameUse f = .t1 pn none → s.frameUsable f = true → s.coh.txns = [] →
      Yields (.tierTransitionComplete pn) s
        ((s.hush.setFrame f (s.placeData (.t3 a))).modPage pn fun p => { p with
          moving := none, place := .t1 f, dirty := false, beamv := true, beam := a, ppoison := false }))
    ∧ ((s.unit (pn / 512)).dstate = .loaded → (s.page pn).moving = some ⟨.toT3, .policy, place, false⟩ → (s.page pn).place = .t1 f →
      (s.page pn).beamv = true → (s.page pn).beam = a → a ≠ 0 → (s.page pn).ppoison = false → (s.page pn).waiting = none → s.coh.txns = [] →
      Yields (.tierTransitionComplete pn) s
        ((s.hush.freeFrame f).modPage pn fun p => { p with moving := none, place := .t3 a, beamv := false, beam := 0 }))
    ∧ (s.glb.steward = true → (s.sweepPages tile).head? = some pn → s.vlt.stopped = false → (s.unit (pn / 512)).dstate = .loaded →
      s.freeFrames * 1000 < s.framesInService * s.freeLo → (s.page pn).place = .t1 f → (s.page pn).beamv = true → s.evictable pn = true →
      (s.map.pages.any fun e => s.evictable e.1 && decide (s.evictRank e.1 < s.evictRank pn)) = false →
      ∃ v : State, v = { s.hush with map := { s.map with sweepAt := s.map.sweepAt.set 0 tile (pn + 1), evictMode := true } }
        ∧ Yields (.placementSweepStep tile pn place) s
          (((v.unpurpose pn).count (evTile (s.mapTile pn) 14) 1).modPage pn fun p => { p with moving := some ⟨.toT3, .policy, place, false⟩ }))
    ∧ (s.map.warming = true → s.map.mapLoad = false → s.vlt.stopped = false → s.map.warm = [] →
      Yields (.warmerFill pn place) s { s.hush with map := { s.map with warming := false, warmDone := true } })
    ∧ (∀ r, s.map.warming = true → s.map.mapLoad = false → s.vlt.stopped = false → s.map.warm.head? = some pn →
      s.framesInService * s.freeHi < s.freeFrames * 1000 → (s.page pn).place = .t3 a → s.beam.recs.get none a = some r → r.kind = .raw →
      s.frameOpen place = true →
      ∃ v, v = (((({ s.hush with map := { s.map with warm := s.map.warm.drop 1 } } : State).useFrame place (.t1 pn none)).count
            (evTile (s.mapTile pn) 14) 1).modPage pn fun p => { p with moving := some ⟨.toT1, .warmer, place, false⟩ })
        ∧ Completes (.warmerFill pn place) s fun u => (u.beam.reads.any fun x => x.addr = a) = true
          ∧ u = { v with
              out := u.out, pmc := u.pmc, pwr := u.pwr, near := { v.near with autoOff := u.near.autoOff }
              beam := { v.beam with reads := u.beam.reads, outs := u.beam.outs } })
    ∧ (s.clock = s.map.epochAt + s.epochCycles + k →
      Yields .heatEpochTick s
        { s.hush with map := { s.map with epoch := (s.map.epoch + 1) % 16, epochAt := s.map.epochAt + s.epochCycles } })

/-- R243, R247, R248, R287: a page is dirtied and cleaned. The MARK of a durable write makes a clean page in T1 dirty, puts it into the journal
and wakes the drives; the engine sets CLEANING on the page it takes; a tile without entries of the page that it accepted before answers the
sync, and the last answer queues the read of the page's primary frame; the page read goes as a record to the CLEAN stream; the confirmed
record becomes the page's newest one, the page is clean and leaves the journal, its twin frames are released and a delta tells the
persistent map. -/
def Obligations.PagesAreCleaned : Prop :=
  ∀ (s : State) (pn f tile : Nat) (m : Mark), s.on = true →
    (s.map.marks.find? (fun x => x.pn = pn) = some m → m.durable = true → s.coh.recovering = 0 → (s.page pn).place = .t1 f →
      (s.page pn).moving = none → (s.page pn).gen = (s.gen m.region).gen → (s.page pn).dirty = false → (s.page pn).cleaning = false →
      Completes (.mark pn) s fun u =>
        u.page pn = { s.page pn with dirty := true, nocomp := false } ∧ u.map.marks = s.map.marks.erase m
        ∧ u.map.journal = s.map.journal ++ [(pn, s.opMs)] ∧ (∀ o ∈ u.out, ∃ i, o = .nvmeAdmin i 0x09)
        ∧ u = { s with out := u.out, pwr := u.pwr, near := { s.near with autoOff := u.near.autoOff }, map := u.map })
    ∧ (s.cleanNext pn = true → s.vlt.stopped = false → s.beam.deltaSegs.length < 52 → s.rng.seals = [] → (s.page pn).urgent = false →
      s.coh.txns = [] → s.primLive pn = true →
      Yields (.cleanStart pn) s
        (((s.hush.unpurpose pn).count (evTile (s.mapTile pn) 12) 1).modPage pn fun p => { p with cleaning := true, synced := 0, syncId := s.near.wbNext }))
    ∧ ((s.page pn).cleaning = true → (s.page pn).synced.getLsbD tile = false → (s.page pn).place = .t1 f →
      (∀ e ∈ s.near.wb, e.tile = tile → pageOf e.line = pn → e.id < (s.page pn).syncId → e.spill = true) →
      ∃ t, t = (s.hush.modPage pn fun p => { p with synced := putBit p.synced tile true })
        ∧ ((∃ x ∈ s.liveTiles, x ≠ tile ∧ (s.page pn).synced.getLsbD x = false) → Yields (.cleanSyncAnswer pn tile) s t)
        ∧ ((∀ x ∈ s.liveTiles, x ≠ tile → (s.page pn).synced.getLsbD x = true) → tile < 16 → s.frameLive f = true →
          (s.chan (frameChan f)).readRoom 0 = true → (s.chan (frameChan f)).readRoom 1 = true →
          Yields (.cleanSyncAnswer pn tile) s (t.queueRead (pn * 64) f (t.cleanLevel pn) (.clean pn))))
    ∧ (∀ ch id line a x bad t, (s.chan ch).inService = true → (s.chan ch).readQ.find? (fun y => y.id = id) = some x →
      s.readIssues ch x = true → x.why = .clean pn → (s.page pn).cleaning = true → s.syncDone pn = true →
      (s.cleanData pn).hasPoison = false →
      (s.hush.issueRead ch x).append 0 (pageRec pn (s.unit (pn / 512)).bkey (s.cleanData pn) none (.clean pn)) = some (a, t) →
      Yields (.dramReadComplete ch id .good line bad) s t)
    ∧ (∀ a, (s.page pn).cleaning = true → (s.page pn).redirty = false → (∀ x ∈ s.map.marks, x.pn ≠ pn) → s.recFor (.clean pn) = some a →
      a ≠ 0 → s.rng.seals = [] → s.heldLines pn (s.page pn).syncId = [] →
      (s.page pn).place = .t1 f → (s.unit (pn / 512)).dstate = .loaded → (s.page pn).beam ≠ a → (s.page pn).ppoison = false →
      Completes (.cleanComplete pn) s fun u =>
        u.page pn = { s.page pn with
          cleaning := false, dirty := false, beam := a, beamv := true, twin := none, twin2 := none, lines := 0, lines2 := 0, urgent := false }
        ∧ u.map.journal = s.map.journal.filter (fun j => j.1 ≠ pn) ∧ u.beam.deltas = s.beam.deltas ++ [.page pn ⟨.t3 a, (s.page pn).gen⟩]
        ∧ (∀ t ∈ (s.page pn).twin, (s.page pn).twin2 = none → u.dram.frames = s.dram.frames.set .free t .free)
        ∧ u = { s with out := [], dram := u.dram, map := u.map, beam := u.beam, rng := u.rng })

/-- R221, R222, R229, R231, R250, R251, R252: the map's frames and lookups. A waiting lookup goes to the map tile: a hit goes on, a miss of the
jacquard cache waits for the map line; its read installs the entry in a set with a free way, after the directory entry where the directory
cache misses, copy B being read where copy A fails; a lost map frame's unit is rebuilt into a free frame; the map loader loads the lowest
unit still cold into a free frame, and gives a unit of a VOLATILE region up. -/
def Obligations.MapUnitsComeIntoDram : Prop :=
  ∀ (s : State) (pn line unit frame : Nat) (bad : Bool), s.on = true →
    ((s.waitingOn pn).contains line = true →
      ∃ v, v = s.hush.ringSend (s.ownerTile line) (s.mapTile pn) 1
        ∧ ((s.page pn).cached = false → (s.unit (pn / 512)).dstate ≠ .unloaded →
          Yields (.jqLookup pn line) s (v.count (evTile (s.mapTile pn) 9) 1))
        ∧ ((s.page pn).cached = true → Yields (.jqLookup pn line) s ((v.count (evTile (s.mapTile pn) 8) 1).lookup line)))
    ∧ ((s.waitingOn pn).contains line = true → (s.page pn).cached = false → (s.unit (pn / 512)).dstate ≠ .unloaded →
      (s.jqRivals pn).length < 8 →
      ((s.unit (pn / 512)).dirIn.getLsbD (s.mapTile pn) = true →
        Yields (.mapLineReadComplete pn bad) s
          ((s.hush.modPage pn fun p => { p with cached := true, heat0 := p.heat, stamp0 := p.stamp }).releaseLookups pn))
      ∧ ((s.unit (pn / 512)).dirIn.getLsbD (s.mapTile pn) = false →
        (s.map.units.keysWhere fun u d => d.dirIn.getLsbD (s.mapTile pn) && u ≠ pn / 512).length < 65536 →
        ∃ v w, v = s.hush.count (evTile (s.mapTile pn) 10) 1
          ∧ w = (if bad then v.countRead (s.dirChannels (pn / 512)).1 .uncorrectable else v)
          ∧ Yields (.mapLineReadComplete pn bad) s
            (((w.modUnit (pn / 512) fun d => { d with dirIn := putBit d.dirIn (s.mapTile pn) true }).modPage pn fun p =>
              { p with cached := true, heat0 := p.heat, stamp0 := p.stamp }).releaseLookups pn)))
    ∧ (s.map.rebuilding.contains unit = true → s.frameOpen frame = true → s.coh.txns = [] →
      Completes (.mapFrameRebuild unit frame) s fun u =>
        (u.unit unit).dstate = .loaded ∧ (u.unit unit).frame = frame ∧ u.frameUse frame = .mapF unit none
        ∧ u.map.rebuilding = s.map.rebuilding.filter fun x => x ≠ unit)
    ∧ (s.vlt.active = true → s.vlt.stopped = false → s.beam.coldUnits.head? = some unit → ((s.unit unit).bound && ! (s.unit unit).bdur) = false →
      s.frameOpen frame = true → s.coh.txns = [] →
      Completes (.mapUnitLoad unit frame) s fun u =>
        (u.unit unit).dstate = .loaded ∧ (u.unit unit).frame = frame ∧ u.frameUse frame = .mapF unit none
        ∧ u.beam.coldUnits = s.beam.coldUnits.filter fun x => x ≠ unit)
    ∧ (s.vlt.active = true → s.vlt.stopped = false → s.beam.coldUnits.head? = some unit → (s.unit unit).bound = true →
      (s.unit unit).bdur = false → s.coh.txns = [] →
      Completes (.mapUnitLoad unit frame) s fun u =>
        u.map.units = (s.modUnit unit fun _ => {}).map.units ∧ u.beam.deltas = s.beam.deltas ++ [.unit unit false {}]
        ∧ u.beam.coldUnits = (s.beam.coldUnits.filter fun x => x ≠ unit) ∧ u = { s with out := [], map := u.map, beam := u.beam })

/-- R255, R256, R258, R260, R261, R263: swatches. A take finds a slot and a number and asks every tile in service to hold the region's writes;
the last answer is the cut, with the next generation; an export with nothing left in DRAM writes the swatch's map and ends EXPORTED; a drop
frees the slot; the generation sweep sets the pages of older generations one below the new one. -/
def Obligations.SwatchesAreTakenAndDropped : Prop :=
  ∀ (s : State) (r k i tile : Nat) (a : Active) (w : Swatch), s.on = true →
    (s.working r 0x50 a → a.started = false → (s.gen (dRegion a.words)).sweep = false → (s.gen (dRegion a.words)).hold = false →
      (List.range 256).find? (fun k => (s.map.swatches.get {} k).st = .free) = some k →
      (List.range 16).find? (fun i => ! (s.map.swatches.filter fun e => e.2.st ≠ .free && e.2.region = dRegion a.words).any fun e => e.2.num = i) = some i →
      ∃ t, t = (s.hush.modAct r fun a => { a with started := true }).modSwatch k (fun _ =>
          { st := .taking, region := dRegion a.words, num := i, ring := r, waits := wayMask s.liveTiles })
        ∧ Yields (.swatchTake r) s { t with map := { t.map with gens := s.map.gens.set {} (dRegion a.words) { s.gen (dRegion a.words) with hold := true } } })
    ∧ (s.working r 0x50 a → a.started = false → (s.gen (dRegion a.words)).sweep = true →
      Yields (.swatchTake r) s (s.hush.endDescriptor r 0x0A id))
    ∧ (s.working r 0x50 a → a.started = false → (s.gen (dRegion a.words)).sweep = false →
      (List.range 256).find? (fun k => (s.map.swatches.get {} k).st = .free) = none →
      Yields (.swatchTake r) s (s.hush.endDescriptor r 0x09 id))
    ∧ (s.map.swatches.get {} k = w → w.st = .taking → w.waits.getLsbD tile = true → s.vlt.stopped = false → putBit w.waits tile false = 0 →
      s.near.wbRetry = [] → s.coh.heldBirsp = [] →
      Yields (.swatchHoldAnswer k tile) s
        (State.endDescriptor
          { s.hush with map := { s.map with
              swatches := s.map.swatches.set {} k
                { w with waits := 0, st := .live, gen := ((s.gen w.region).gen + 1) % 65536, order := s.map.takes }
              takes := s.map.takes + 1
              gens := s.map.gens.set {} w.region
                { gen := ((s.gen w.region).gen + 1) % 65536, sweep := decide (((s.gen w.region).gen + 1) % 32768 = 0), hold := false } } }
          w.ring 0x00 fun a => { a with
            result := atBit w.num 0 ||| atBit k 8 ||| atBit (((s.gen w.region).gen + 1) % 65536) 16 }))
    ∧ (s.working r 0x52 a → dW a.words 2 = k → s.map.swatches = [(k, w)] → w.st = .exporting → w.ring = r → w.saved = [] → s.map.pages = [] →
      (a.reads = false → Yields (.swatchExport r) s ((s.hush.appendMap (some k) 3 0).modAct r fun a => { a with reads := true }))
      ∧ (a.reads = true → (s.unconfirmed fun x => decide (x = .map)) = false →
        Yields (.swatchExport r) s ((s.hush.modSwatch k fun w => { w with st := .exported }).endDescriptor r 0x00 id)))
    ∧ (s.working r 0x51 a → dW a.words 2 = k → s.map.swatches = [(k, w)] → w.st = .live →
      Yields (.swatchDrop r) s (((s.hush.modSwatch k fun w => { w with st := .dropping }).dropSwatch k).endDescriptor r 0x00 id))
    ∧ ((s.gen k).sweep = true → s.map.pages.wf {} = true →
      (∀ e ∈ s.map.units, (s.region k).base ≤ e.1 → e.1 < (s.region k).base + (s.region k).size → e.2.dstate ≠ .unloaded) →
      Completes (.genSweep k) s fun u =>
        (∀ pn, (s.region k).base * 512 ≤ pn → pn < ((s.region k).base + (s.region k).size) * 512 → (s.unit (pn / 512)).dstate = .loaded →
          (s.page pn).gen ≠ (s.gen k).gen → u.page pn = { s.page pn with gen := ((s.gen k).gen + 65535) % 65536 })
        ∧ (∀ pn, pn < (s.region k).base * 512 ∨ ((s.region k).base + (s.region k).size) * 512 ≤ pn ∨ (s.page pn).gen = (s.gen k).gen →
          u.page pn = s.page pn)
        ∧ u.map.gens = s.map.gens.set {} k { s.gen k with sweep := false } ∧ u = { s with out := [], map := u.map, beam := u.beam })

/-- R234, R241, R242, R605: page descriptors. PROMOTE starts the promotion of the page it treats into a free frame and ends when its pages are
in T1; DEMOTE of a clean page at rest starts its demotion: to T2 with the read of its frame, to T3 at once where the page has a current
record; PIN pins a page in T1 within the limit; UNPIN clears PIN on every page of its range. RESULT carries how many pages could not move.
R125, R126, R127, R128, R130, R131: cache maintenance of a range with one resident line and nothing under way. CLEAN writes a dirty line
back to its page's frame and keeps it clean; INVAL writes it back and invalidates it; DISCARD drops it without a writeback, and its poison
with it where its page has none. The range is blocked no more. -/
def Obligations.PagesAndLinesAreMaintained : Prop :=
  (∀ (s : State) (r pn f : Nat) (a : Active), s.on = true →
    (s.working r 0x30 a → a.started = true → a.pages = [pn] →
      ((s.page pn).place = .zero → (s.page pn).moving = none → (s.unit (pn / 512)).dstate ≠ .unloaded →
        s.map.rebuilding.contains (pn / 512) = false → s.vlt.stopped = false → s.lowestFree = some f → s.frameOpen f = true → 0 < s.freeFrames →
        Yields (.promote r) s
          ((((s.hush.useFrame f (.t1 pn none)).count (evTile (s.mapTile pn) 14) 1).modPage pn fun p =>
            { p with moving := some ⟨.toT1, .descriptor, f, false⟩ }).modAct r fun a => { a with started := true, pages := [pn] }))
      ∧ (s.inT1 pn = true →
        Yields (.promote r) s
          ((s.hush.modAct r fun a => { a with started := true, pages := [] }).endDescriptor r 0x00 fun a => { a with
            result := atBit (a.missed % 2 ^ 32) 0 ||| atBit (a.plines % 2 ^ 32) 32 })))
    ∧ (∀ f0 k, a.started = true → a.pages = [pn] → (s.page pn).place = .t1 f0 → (s.page pn).pin = false → (s.page pn).nocomp = false →
      s.pageBusy pn = false → (s.page pn).dirty = false → (s.placeData (.t1 f0)).hasPoison = false → s.mayDemote pn = true →
      (s.unit (pn / 512)).dstate ≠ .unloaded → s.vlt.stopped = false →
      (s.chan (frameChan f0)).readRoom 0 = true → (s.chan (frameChan f0)).readRoom 1 = true → k = sectorsFor (s.frameData f0).clen →
      (s.working r 0x31 a → dSub a.words = 2 → s.hint pn ≠ 2 → s.compEn = true → (s.frameData f0).zero = false → k ≤ 7 →
        s.sectorsFree (s.sectorFor k) k = true →
        Yields (.demoteT2 r) s
          ((((((s.hush.queueRead (pn * 64) f0 (s.pageLevel pn 5) (.move pn)).count (evTile (s.mapTile pn) 14) 1).modPage pn fun p =>
            { p with moving := some ⟨.toT2, .descriptor, s.sectorFor k, true⟩ }).useFrame (s.sectorFor k / 8) .t2)).modAct r fun a =>
              { a with started := true, pages := [pn] }))
      ∧ (s.working r 0x31 a → dSub a.words = 3 → (s.page pn).beamv = true →
        Yields (.demoteT3 r) s
          ((((s.hush.unpurpose pn).count (evTile (s.mapTile pn) 14) 1).modPage pn fun p =>
            { p with moving := some ⟨.toT3, .descriptor, s.sectorFor k, false⟩ }).modAct r fun a => { a with started := true, pages := [pn] })))
    ∧ (s.working r 0x32 a → a.started = true → a.pages = [pn] → s.inT1 pn = true → (s.pinned + 1) * 100 ≤ s.framesInService * s.pinPct →
      (s.rangeRegion (dW a.words 1, dW a.words 3, false)).wpol ≠ 3 →
      Yields (.pin r) s
        (((s.hush.modPage pn fun p => { p with pin := true }).modAct r fun a => { a with started := true, pages := [] }).endDescriptor r 0x00
          fun a => { a with result := atBit (a.missed % 2 ^ 32) 0 ||| atBit (a.plines % 2 ^ 32) 32 }))
    ∧ (s.working r 0x33 a → (s.rangeRegion (dW a.words 1, dW a.words 3, false)).wpol ≠ 3 →
      Yields (.unpin r) s
        (State.endDescriptor
          { s.hush with map := { s.map with pages := s.map.pages.mapVals {} fun pn p =>
              if (decide (dFirst a.words / 64 ≤ pn) && decide (pn ≤ dLast a.words / 64)) then { p with pin := false } else p } } r 0x00 id)))
  ∧ (∀ (s : State) (r n w line f : Nat) (a : Active) (x : NcWay), s.on = true → s.near.wb = [] → s.coh.txns = [] → s.coh.lent = [] →
    s.coh.handoff = [] →
    (s.rangeRegion (dW a.words 1, dW a.words 3, false)).pooled = false → s.residents a.words = [(n, w, line)] →
    s.way n (ncSet line) w = x → x.d = true → x.lock = false → (s.page (pageOf line)).place = .t1 f → s.frameLive f = true → a.started = true →
    (s.working r 0x20 a →
      ∃ t, t = (s.hush.setCell f (line % 64) { data := x.data, poison := x.poison }).setWay n (ncSet line) w { x with d := false }
      ∧ Yields (.clean r) s
        (State.endDescriptor { t with near := { t.near with maint := s.near.maint.filter fun m => m.ring ≠ r } } r 0x00
          fun a => { a with result := 0 }))
    ∧ (s.working r 0x21 a →
      ∃ t, t = ((s.hush.setCell f (line % 64) { data := x.data, poison := x.poison }).setWay n (ncSet line) w { x with d := false }).setWay n (ncSet line) w {}
      ∧ Yields (.inval r) s
        (State.endDescriptor { t with near := { t.near with maint := s.near.maint.filter fun m => m.ring ≠ r } } r 0x00
          fun a => { a with result := atBit a.pages.length 0 }))
    ∧ (s.working r 0x22 a → (∀ m ∈ s.near.maint, m.op = 0x22 → ∀ e ∈ m.late, e.1 ≠ line) →
      ∃ t, t = (if (s.placeLine (.t1 f) (line % 64)).poison then s.hush.setWay n (ncSet line) w {}
          else (s.hush.setWay n (ncSet line) w {}).unindexPoison line 1)
      ∧ Yields (.discard r) s
        (State.endDescriptor { t with near := { t.near with maint := s.near.maint.filter fun m => m.ring ≠ r } } r 0x00
          fun a => { a with result := atBit a.pages.length 0 })))

/-- R411, R412, R419, R421, R423: the data movers write whole lines. A mover whose destination is one aligned line of a SCRATCH window writes
zeros (ZERO), the eight pattern bytes over and over (FILL) or the source line's bytes (COPY); a poison source makes the line poison, the
status POISON and PLINES 1; RESULT says how many bytes are done. -/
def Obligations.MoversWriteTheirLine : Prop :=
  ∀ (s : State) (r n line m from_ : Nat) (a : Active) (rg rs : Region), s.on = true → s.atRest line → s.regionOf line = some (n, rg) →
    rg.window = 2 → rg.coh = 0 → (s.ring r).act = some { words := a.words } → dW a.words 1 = line * 64 → dW a.words 3 = 64 →
    s.rangeRights (s.ring r).owner false (line * 64, 64, true) = true →
    (s.working r 0x12 { words := a.words } →
      Completes (.zero r) s fun u =>
        u.near.scr = (s.setPool (rg.poolLine line) 0 fullMask false).near.scr
        ∧ (u.ring r).act = some { words := a.words, started := true, done := 64, result := 64, status := some 0 }
        ∧ u = { s with out := [], qos := u.qos, pwr := u.pwr, pmc := u.pmc, near := { s.near with scr := u.near.scr, autoOff := u.near.autoOff }, rng := u.rng })
    ∧ (s.working r 0x11 { words := a.words } →
      Completes (.fill r) s fun u => ∃ d : Line,
        (∀ i, i < 64 → (d.toNat >>> (8 * i)) % 256 = fld (lineWord a.words 4) (8 * (i % 8)) 8)
        ∧ u.near.scr = (s.setPool (rg.poolLine line) d fullMask false).near.scr
        ∧ (u.ring r).act = some { words := a.words, started := true, done := 64, result := 64, status := some 0 }
        ∧ u = { s with out := [], qos := u.qos, pwr := u.pwr, pmc := u.pmc, near := { s.near with scr := u.near.scr, autoOff := u.near.autoOff }, rng := u.rng })
    ∧ (s.working r 0x10 { words := a.words } → dW a.words 2 = from_ * 64 → s.atRest from_ → s.regionOf from_ = some (m, rs) → rs.window = 2 → rs.coh = 0 →
      s.rangeRights (s.ring r).owner false (from_ * 64, 64, false) = true → r < 65536 → from_ < 2 ^ 39 → line < 2 ^ 39 →
      Completes (.copy r) s fun u => ∃ d : Line,
        (∀ i, i < 64 → (d.toNat >>> (8 * i)) % 256 = ((s.poolCell (rs.poolLine from_)).data.toNat >>> (8 * i)) % 256)
        ∧ u.near.scr = (s.setPool (rg.poolLine line) d fullMask (s.poolCell (rs.poolLine from_)).poison).near.scr
        ∧ (u.ring r).act = some { words := a.words, started := true, done := 64
                                  plines := if (s.poolCell (rs.poolLine from_)).poison then 1 else 0
                                  result := moverResult 64 (if (s.poolCell (rs.poolLine from_)).poison then 1 else 0)
                                  status := some (if (s.poolCell (rs.poolLine from_)).poison then 0x0D else 0) }
        ∧ u = { s with out := [], qos := u.qos, pwr := u.pwr, pmc := u.pmc, near := { s.near with scr := u.near.scr, autoOff := u.near.autoOff }, rng := u.rng })

/-- R170, R171, R424: atomics on an operand in a SCRATCH window whose line is not poison. The 8-byte operand becomes its sum with OPA (FADD),
its AND (FAND) or OR (FOR) with OPA, or OPA itself (SWAP); the 16-byte operand of CAS16 becomes SWP where it equals CMP. RESULT carries the
low 64 bits of the old operand, MATCH whether the compare held, and a RES address of CAS16 gets the old 16 bytes. -/
def Obligations.AtomicsChangeTheirOperand : Prop :=
  ∀ (s : State) (r n line off m res : Nat) (a : Active) (rg rr : Region) (cell : LineCell), s.on = true → s.atRest line → s.regionOf line = some (n, rg) →
    rg.window = 2 → rg.coh = 0 → dW a.words 1 = line * 64 + off → off < 64 → s.poolCell (rg.poolLine line) = cell → cell.poison = false →
    s.working r 0x40 { words := a.words } →
    (∀ (c : Instr) (new : Word), (c, dSub a.words, new) ∈
        [(Instr.fadd r, 0, cell.data.extractLsb' (8 * off) 64 + lineWord a.words 4), (.fand r, 1, cell.data.extractLsb' (8 * off) 64 &&& lineWord a.words 4),
          (.atomicFor r, 2, cell.data.extractLsb' (8 * off) 64 ||| lineWord a.words 4), (.swap r, 3, lineWord a.words 4)] →
      Completes c s fun u =>
        (u.ring r).act = some { words := a.words, started := true, reads := true, status := some 0, result := cell.data.extractLsb' (8 * off) 64 }
        ∧ u.near.scr = (s.setPool (rg.poolLine line) ((new.setWidth 512 : Line) <<< (8 * off)) (BitVec.ofNat 64 (0xFF <<< off)) false).near.scr
        ∧ u = { s with out := [], qos := u.qos, pwr := u.pwr, pmc := u.pmc, near := { s.near with scr := u.near.scr, autoOff := u.near.autoOff }, rng := u.rng })
    ∧ (dSub a.words = 4 → dW a.words 2 = res → (res ≠ 0 → s.atRest (res / 64) ∧ s.regionOf (res / 64) = some (m, rr) ∧ rr.window = 2 ∧ rr.coh = 0) →
      Completes (.cas16 r) s fun u => ∃ t : State,
        t.near.scr = (s.setPool (rg.poolLine line)
            (((if cell.data.extractLsb' (8 * off) 128 = a.words.extractLsb' 256 128 then a.words.extractLsb' 384 128
              else cell.data.extractLsb' (8 * off) 128).setWidth 512 : Line) <<< (8 * off))
            (BitVec.ofNat 64 (0xFFFF <<< off)) false).near.scr ∧ t.boot = s.boot
        ∧ u.near.scr = (if res = 0 then t else t.setPool (rr.poolLine (res / 64))
            (((cell.data.extractLsb' (8 * off) 128).setWidth 512 : Line) <<< (8 * (res % 64))) (BitVec.ofNat 64 (0xFFFF <<< (res % 64))) false).near.scr
        ∧ (u.ring r).act = some { words := a.words, started := true, reads := true, status := some 0, result := cell.data.extractLsb' (8 * off) 64
                                  matched := decide (cell.data.extractLsb' (8 * off) 128 = a.words.extractLsb' 256 128) }
        ∧ u = { s with out := [], qos := u.qos, pwr := u.pwr, pmc := u.pmc, near := { s.near with scr := u.near.scr, autoOff := u.near.autoOff }, rng := u.rng })

/-- R426: QUIESCE of a region. A DRAIN or HOLD that meets requests of its region under way holds what comes after them; once nothing is under
way a DRAIN ends and lets go, a HOLD ends and keeps its hold until QUIESCE_MS later; RELEASE ends the holds of the region; a HOLD whose time
is over ends with a notice. -/
def Obligations.QuiesceHoldsARegion : Prop :=
  ∀ (s : State) (r n : Nat) (a : Active), s.on = true →
    (∀ keeps, s.working r 0x03 a → dRegion a.words = n → a.started = false → s.regionBusy n = true → dSub a.words = (if keeps then 1 else 0) →
      ∃ t, t = s.hush.modAct r (fun a => { a with started := true })
        ∧ Yields (if keeps then .quiesceHold r else .quiesceDrain r) s { t with rng := { t.rng with qholds := s.rng.qholds ++ [⟨n, r, keeps, none, max 1 (fld s.rng.gctl 0 10)⟩] } })
    ∧ (s.working r 0x03 a → dRegion a.words = n → a.started = true → s.regionBusy n = false → s.descBusy r n = false → s.rng.qheld = [] →
      (dSub a.words = 0 →
        Yields (.quiesceDrain r) s
          (State.endDescriptor { s.hush with rng := { s.rng with qholds := s.rng.qholds.filter fun q => decide (q.ring ≠ r) || q.ends.isSome } } r 0 id))
      ∧ (dSub a.words = 1 →
        Yields (.quiesceHold r) s
          (State.endDescriptor { s.hush with rng := { s.rng with qholds := s.rng.qholds.map fun q =>
            if (decide (q.ring = r) && q.ends.isNone) then { q with ends := some (s.clock + q.ms * 2000000) } else q } } r 0 id)))
    ∧ (s.working r 0x03 a → dSub a.words = 2 → dRegion a.words = n → s.rng.qheld = [] →
      Yields (.quiesceRelease r) s
        (State.endDescriptor { s.hush with rng := { s.rng with qholds := s.rng.qholds.filter fun q => ! (decide (q.region = n) && q.keeps) } } r 0 id))
    ∧ (∀ q e, s.rng.qholds.find? (fun q => decide (q.region = n) && q.keeps && q.ends.isSome) = some q → q.ends = some e → e ≤ s.clock → s.rng.qheld = [] →
      Yields (.quiesceHoldTimeout n) s
        (State.note { s.hush with rng := { s.rng with qholds := s.rng.qholds.erase q } } ⟨1, 0x08, n, none⟩))

/-- R315 to R319, R425: a SEAL sends its sync to every tile in service; the last tile's answer ends a level-1 seal with nothing unprotected,
with status OK or, where the reserve is not healthy, NOT_PROTECTED; a level-3 seal over no dirty page waits for the next commit record. -/
def Obligations.SealsSyncTheTiles : Prop :=
  ∀ (s : State) (r tile : Nat) (a : Active) (x : Seal), s.on = true → s.vlt.stopped = false → s.near.wb = [] →
    (s.rng.seals = [] → a.started = false → (s.region (s.sealScope a.words).1).dlost = false → wayMask s.liveTiles ≠ 0 → s.working r 0x02 a →
      (∀ (lvl : Nat) (c : Instr), (c, lvl) ∈ [(Instr.sealL1 r, 1), (.sealL2 r, 2), (.sealL3 r, 3)] → dSub a.words = lvl →
        (lvl = 2 → (s.region (s.sealScope a.words).1).mirror = true → (s.slvRgn (s.sealScope a.words).1).mst = 3) → (lvl = 3 → s.beamUp = true) →
        Completes c s fun u => ∃ y, u.rng.seals = [y] ∧ y.ring = r ∧ y.level = lvl ∧ y.region = (s.sealScope a.words).1
          ∧ (y.lo, y.hi) = (s.sealScope a.words).2 ∧ y.tiles = wayMask s.liveTiles ∧ (u.ring r).act = some { a with started := true }
          ∧ u = { s with out := [], rng := u.rng }))
    ∧ (s.rng.seals = [x] → x.ring = r → r < 65536 → x.tiles.getLsbD tile = true → putBit x.tiles tile false = 0 → x.level = 1 → x.reqs = [] →
        x.lost = false → x.mirrorLost = false → x.noMirror = false →
        Yields (.sealSync r tile) s
          (State.endDescriptor { s.hush with rng := { s.rng with seals := [] } } r (if s.rsv.health = 0 then 0x00 else 0x07) fun a => { a with result := 0 }))
    ∧ (s.rng.seals = [x] → x.ring = r → x.tiles.getLsbD tile = true → putBit x.tiles tile false = 0 → x.level = 3 → s.map.pages = [] → s.map.marks = [] →
        x.lost = false → x.mirrorLost = false → s.beam.commit = none →
        Completes (.sealSync r tile) s fun u => ∃ y, u.rng.seals = [y] ∧ y.tiles = 0 ∧ y.cseq = some (s.beam.cseq + 1) ∧ y.pages = []
          ∧ u = { s with out := [], rng := { s.rng with seals := [y] } })

/-- R399, R400, R401, R414: a source that may write ring pair r's context. SQ and CQ take their RW bits while EN is 0 and refuse a change with
LIVE (7) while it is 1. EN written 1 runs the context check: a code is reported and the ring stays OFF, else the ring is IDLE with empty
queues. EN written 0 turns the ring OFF, and a descriptor that has ended keeps its STATUS. -/
def Obligations.RingContextsTakeTheirWords : Prop :=
  ∀ (s : State) (src r : Nat) (v : Word), s.on = true → s.reaches src = true → r < 65536 → s.isMgmt src = true →
    ((s.ring r).en = false →
        Yields (.ringContextWrite src r 0 v) s (s.hush.modRing r fun x => { x with sq := v &&& 0xFFFFFFFFFFFFF03F })
        ∧ Yields (.ringContextWrite src r 1 v) s (s.hush.modRing r fun x => { x with cq := v &&& 0xFFFFFFFFFFFFF03F }))
    ∧ ((s.ring r).en = true → v &&& 0xFFFFFFFFFFFFF03F ≠ (s.ring r).sq →
        Yields (.ringContextWrite src r 0 v) s (s.hush.modRing r fun x => { x with err := 7 }))
    ∧ (∀ x, (s.ring r).ctl &&& 1 = 0 → flag v 0 = true → x = { s.ring r with ctl := v &&& 0x1FFFFFFFF6 } → (x ≠ {} ∨ s.rng.rings = []) →
        ((s.modRing r fun _ => x).ringCheck r x ≠ 0 →
          Yields (.rngCtlEnSet src r v) s ((s.hush.modRing r fun _ => x).modRing r fun _ =>
            { x with ctl := x.ctl &&& ~~~ 1, err := (s.modRing r fun _ => x).ringCheck r x, st := .off }))
        ∧ ((s.modRing r fun _ => x).ringCheck r x = 0 → x.mmio = true →
          Completes (.rngCtlEnSet src r v) s fun u =>
            u.ring r = { x with ctl := x.ctl ||| 1, err := 0, st := .idle, phase := true, sqHead := 0, sqTail := 0, cqTail := 0, cqHead := 0,
                                act := none, coalN := 0, quiet := false, mute := false }
            ∧ u.rng.rings = (s.rng.rings.set {} r x).set {} r (u.ring r)
            ∧ u = { s with out := [], rng := { s.rng with rings := u.rng.rings, answers := u.rng.answers } }))
    ∧ ((s.ring r).en = true → (s.ring r).st ≠ .off → flag v 0 = false → v &&& 0xF6 = (s.ring r).ctl &&& 0xF6 →
        (∀ a, (s.ring r).act = some a → a.status ≠ none) →
        ∃ x y, y = { s.ring r with
            ctl := ((v &&& ~~~ 0xF6 ||| (s.ring r).ctl &&& 0xF6) &&& 0x1FFFFFFFF6 ||| (s.ring r).ctl &&& 1) &&& ~~~ 1
            st := .off
            mute := decide ((s.ring r).st = .detached) }
          ∧ Yields (.rngCtlEnClear src r v) s ((s.hush.modRing r fun _ => x).modRing r fun _ => y))

/-- R402 to R406: doorbells. A head's accepted store to its doorbell line, or its write to HD_DOORBELL of an MMIO ring, moves SQ_TAIL and
CQ_HEAD together when both are in range; an idle ring with new descriptors runs, after the rings whose doorbells came before. A tail out of
range puts the ring in FAULT with code 9. -/
def Obligations.DoorbellsMoveTheirRings : Prop :=
  ∀ (s : State) (h tag hpa n r : Nat) (v : Word) (data : Line) (d : Decoder) (rg : Region), s.on = true → h < 16 →
    (s.reaches h = true → s.pwr.quiet.get 0 h = 0 → fld v 0 16 = r → (s.ring r).owner = h → (s.ring r).mmio = true → (s.ring r).st = .idle →
      flag v 48 = true → flag v 49 = true →
      ((s.ring r).tailOk (fld v 16 16) = true → (s.ring r).headOk (fld v 32 16) = true → fld v 16 16 ≠ (s.ring r).sqTail →
        Completes (.hdDoorbell h v) s fun u =>
          u.ring r = { s.ring r with sqTail := fld v 16 16, cqHead := fld v 32 16, st := .run, order := s.rng.nextOrder }
          ∧ u = { s with out := [], rng := { s.rng with rings := u.rng.rings, nextOrder := s.rng.nextOrder + 1 } })
      ∧ ((s.ring r).tailOk (fld v 16 16) = false →
        Completes (.hdDoorbell h v) s fun u => (u.ring r).st = .fault ∧ (u.ring r).err = 9 ∧ (u.ring r).sqTail = (s.ring r).sqTail
          ∧ u.rng.lastFault = r))
    ∧ (s.admits h hpa true d n rg → s.atRest (d.toDpa hpa / 64) → rg.coh = 0 → rg.window = 1 → d.toDpa hpa / 64 - rg.base * 32768 = r →
      s.poolDead (rg.poolLine (d.toDpa hpa / 64)) = false → (data ≠ 0 ∨ s.near.scr = []) →
      (s.ring r).owner = h → (s.ring r).mmio = false → (s.ring r).st = .idle → (s.ring r).tailOk (fld (lineWord data 0) 0 16) = true →
      (s.ring r).headOk (fld (lineWord data 0) 32 16) = true → fld (lineWord data 0) 0 16 ≠ (s.ring r).sqTail →
        Completes (.doorbellLineWrite h tag hpa data fullMask false) s fun u =>
          u.ring r = { s.ring r with sqTail := fld (lineWord data 0) 0 16, cqHead := fld (lineWord data 0) 32 16, st := .run, order := s.rng.nextOrder }
          ∧ u.poolCell (rg.poolLine (d.toDpa hpa / 64)) = { data := data }
          ∧ u.out = [.memCmp h tag (u.devLoad h)]
          ∧ u = { s with out := u.out, rng := u.rng, heads := u.heads, near := u.near, coh := u.coh, qos := u.qos, pmc := u.pmc, pwr := u.pwr })

/-- R435, R436: a head sets and clears its own SELF and RINGS bits of HD_BRAKE, the management head MGMT; a gate that opens sends the held
requests on and gives the head's credits back; with none held and none kept, that is all a release does. -/
def Obligations.BrakesAreSetAndReleased : Prop :=
  ∀ (s : State) (h : Nat) (v : Word) (b : Brake), s.on = true → s.reaches h = true → s.present h = true → (s.head h).brake = b →
    (s.isMgmt h = false → flag v 1 = b.mgmt →
      (flag v 0 = true → Yields (.brakeSet h h v) s (s.hush.modHead h fun x => { x with brake := { b with self := true, rings := flag v 2 } }))
      ∧ (flag v 0 = false → b.mgmt = false → b.gate = [] → (s.head h).kept = 0 → (s.head h).waitQ = [] → h ≠ 16 →
          Yields (.brakeRelease h h v) s ((if b.self = true then
              (s.hush.modHead h fun x => { x with brake := { b with self := false, rings := flag v 2 } }).modHead h fun x =>
                { x with brake := { x.brake with gate := [] } }
            else s.hush.modHead h fun x => { x with brake := { b with self := false, rings := flag v 2 } })))
      ∧ (flag v 2 = true → flag v 0 = b.self → Yields (.brakeRings h h v) s (s.hush.modHead h fun x => { x with brake := { b with rings := true } })))
    ∧ (∀ k, s.reaches 16 = true → s.present k = true → k ≠ 16 → (s.head k).brake = b → flag v 0 = b.self → flag v 1 = true → flag v 2 = b.rings →
        Yields (.brakeSet 16 k v) s (s.hush.modHead k fun x => { x with brake := { b with mgmt := true } }))

/-- R409, R410, R415 to R418, R433: ring pair r with its queues in host memory. A running ring with a free slot takes the descriptor at SQ_HEAD,
and a failed check ends it at once; NOP ends with STATUS OK and RESULT 0, whether commanded by name or as a step of the engine; an ended
descriptor's completion is written at CQ_TAIL, CQ_TAIL moves on, the phase turns at the wrap, and IRQ signals where the ring's mode is
FLAGGED; a coalesced message leaves when its time is over. -/
def Obligations.DescriptorsStartAndComplete : Prop :=
  ∀ (s : State) (r : Nat) (d : Line) (x : Ring) (a : Active), s.on = true → s.ring r = x → s.descHeld r = false →
    (x.st = .run → x.act = none → x.sqHead ≠ x.sqTail → s.tileRetired (r % 16) = false → s.hasSlot r = true → x.cqFree = true →
      x.sqHost = true → (s.head x.owner).func.busMaster = true →
        Completes (.descriptorFetch r d true) s fun u =>
          u.ring r = { x with
            served := s.rng.nextOrder
            sqHead := (x.sqHead + 1) % x.sqSize
            act := some { words := d, status := if s.descCheck x.owner d = 0 then none else some (s.descCheck x.owner d) } }
          ∧ (s.rng.rings.wf {} = true → ∀ q, q ≠ r → u.ring q = s.ring q)
          ∧ u = { s with
              out := [], pmc := u.pmc
              rng := { s.rng with rings := u.rng.rings, nextOrder := s.rng.nextOrder + 1, answers := u.rng.answers } })
    ∧ (x.st = .run → x.act = none → x.sqHead ≠ x.sqTail → s.tileRetired (r % 16) = false → s.hasSlot r = true → x.cqFree = false →
        ∀ ok, Yields (.descriptorFetch r d ok) s (s.hush.modRing r fun _ => { x with st := .wait }))
    ∧ (s.working r 0x01 a →
        ∀ c ∈ [Instr.nop r, .descriptorStep r], Yields c s (s.hush.modRing r fun _ => { x with act := some { a with status := some 0, result := 0 } }))
    ∧ (x.act = some a → a.status ≠ none → s.vlt.stopped = false → s.engineDone r = true → x.st = .run → x.mute = false → x.quiet = false →
        x.cqHost = true → (s.head x.owner).func.busMaster = true → x.irq < 2 →
        ((s.head x.owner).func.msix.get {} x.vector).masked = false →
        Completes (.completionWrite r) s fun u =>
          u.out = .hostWrite x.owner (x.cqBase + 16 * x.cqTail) [x.cplWord a, a.result] ::
              (if (x.irq = 1 ∧ dIrq a.words = true) then [.msix x.owner x.vector] else [])
          ∧ (u.ring r).act = none ∧ (u.ring r).cqTail = (x.cqTail + 1) % x.cqSize
          ∧ (u.ring r).phase = (if (x.cqTail + 1) % x.cqSize = 0 then ! x.phase else x.phase)
          ∧ (u.ring r).st = (if x.sqHead = x.sqTail then .idle else .run)
          ∧ (s.rng.rings.wf {} = true → ∀ q, q ≠ r → u.ring q = s.ring q)
          ∧ u = { s with out := u.out, rng := { s.rng with rings := u.rng.rings, answers := u.rng.answers } })
    ∧ (x.irq = 2 → x.coalN ≠ 0 → x.st ≠ .off → x.coalAt + x.coalUs * 2000 ≤ s.clock →
        ((s.head x.owner).func.msix.get {} x.vector).masked = false →
        Yields (.msixCoalesceTimeout r) s
          { s.hush.modRing r fun _ => { x with coalN := 0 } with out := [.msix x.owner x.vector] })

/-- R373, R378 to R380, R393, R394: the service-time contract. A recompute sets the capacities, the two scales and every head's rates in force,
and cuts each bucket, counted to now, to its burst; a bucket holds rate times the cycles gone by more, up to the burst, and a refill counts
it so; a window's end, once the window is over, grades the head's budget load (3 when a quarter of its requests were demoted or one waited
50 µs) and starts a new count. -/
def Obligations.RatesBucketsAndLoads : Prop :=
  ∀ (s : State) (h : Nat), s.on = true →
    (Completes .qosRateRecompute s fun u =>
        u.qos.gDram = s.capDram ∧ u.qos.gBeam = s.capBeam
        ∧ u.qos.scaleD = scaleOf s.capDram ((s.presentHeads.map fun k => (s.rates2 k).1 + 3 * (s.rates2 k).2.1).sum)
        ∧ u.qos.scaleB = scaleOf s.capBeam ((s.presentHeads.map fun k => (s.rates2 k).2.2).sum)
        ∧ (s.qos.heads.wf {} = true → ∀ b, s.budget h = b →
            u.qos.heads.get {} h = if (s.present h = true ∧ h < 16) then
                { b with
                  rdRate := (s.rates2 h).1 * u.qos.scaleD / 1000, wrRate := (s.rates2 h).2.1 * u.qos.scaleD / 1000
                  bmRate := (s.rates2 h).2.2 * u.qos.scaleB / 1000
                  rd := min b.rd b.rdCap, wr := min b.wr b.wrCap, bm := min b.bm b.bmCap } else s.qos.heads.get {} h)
        ∧ u = { s with out := [], qos := { s.qos with gDram := u.qos.gDram, gBeam := u.qos.gBeam, scaleD := u.qos.scaleD, scaleB := u.qos.scaleB, heads := u.qos.heads } })
    ∧ (s.present h = true → ∀ n k b c, s.qos.heads.get {} h = b → n ≤ k → s.clock = b.filledAt + k →
        c = { b with rd := min b.rdCap (b.rd + b.rdRate * k), wr := min b.wrCap (b.wr + b.wrRate * k), bm := min b.bmCap (b.bm + b.bmRate * k), filledAt := s.clock } →
        s.budget h = c ∧ Yields (.tokenBucketRefill h n) s { s.hush with qos := { s.qos with heads := s.qos.heads.set {} h c } })
    ∧ (s.present h = true → ∀ w l b g, (s.head h).load = l → s.budget h = b → l.since + max 1 (fld s.qos.ctl 8 8) * 2000 ≤ s.clock →
        ((g = 3 ∧ ((l.demoted ≠ 0 ∧ l.reqs ≤ 4 * l.demoted) ∨ 50 ≤ w))
          ∨ (g = 2 ∧ ¬ ((l.demoted ≠ 0 ∧ l.reqs ≤ 4 * l.demoted) ∨ 50 ≤ w) ∧ (l.demoted ≠ 0 ∨ 10 ≤ w))
          ∨ (g = 1 ∧ l.demoted = 0 ∧ w < 10 ∧ (2 * b.rd < b.rdCap ∨ 2 * b.wr < b.wrCap))
          ∨ (g = 0 ∧ l.demoted = 0 ∧ w < 10 ∧ b.rdCap ≤ 2 * b.rd ∧ b.wrCap ≤ 2 * b.wr)) →
        Yields (.devloadWindowEnd h w) s (s.hush.modLoad h fun l =>
          { l with budget := g, since := s.clock, demotePct := if l.reqs = 0 then 0 else l.demoted * 100 / l.reqs, reqs := 0, demoted := 0 }))

/-- R514, R516 to R521, R534: counters and dump images with a host ring. PMC_SET gives one counter, or all, a value and clears its overflow bit;
EN starts the ring when its check passes and reports the code otherwise; a periodic capture takes an image, or is skipped and counted;
DUMP_NOW takes one, or ends with STATE while EN is 0; the image is written, its SEQ word last, and TAIL moves on. -/
def Obligations.CountersAndDumpImages : Prop :=
  ∀ (s : State) (src r : Nat) (v : Word) (p : Pmc), s.on = true → s.pmc = p →
    (s.reaches src = true → s.isMgmt src = true →
      (flag v 63 = false → fld v 48 11 ≤ 1535 →
        Yields (.pmcSet src v) s { s.hush with pmc := { p with cnt := p.cnt.set 0 (fld v 48 11) (fld v 0 48), ovf := p.ovf.set false (fld v 48 11) false, touched := p.touched.set false (fld v 48 11) true } })
      ∧ (flag v 63 = true → Completes (.pmcSet src v) s fun u =>
          (∀ i, i < 1536 → u.pmc.cnt.get 0 i = fld v 0 48 ∧ u.pmc.ovf.get false i = false)
          ∧ u = { s with out := [], pmc := { p with cnt := u.pmc.cnt, ovf := u.pmc.ovf, touched := u.pmc.touched } })
      ∧ (∀ q, p.en = false → p.dctl &&& 1 = 0 → flag v 0 = true → q = { p with dctl := v &&& 0xFFFFFFFFFFE } →
          (State.dumpCheck { s with pmc := q } ≠ 0 →
            Yields (.pmcDumpEn src v) s { s.hush with pmc := { q with derr := State.dumpCheck { s with pmc := q } } })
          ∧ (State.dumpCheck { s with pmc := q } = 0 →
            Yields (.pmcDumpEn src v) s { s.hush with pmc := { q with dctl := q.dctl ||| 1, derr := 0, run := true, dtail := 0, prev := none, img := none, touched := [], lastCap := s.clock } })))
    ∧ (p.en = true → p.period ≠ 0 → p.lastCap + p.period * 2000 ≤ s.clock → p.img = none →
        (s.captureSkips = false →
          Completes .periodicCapture s fun u => ∃ g, u.pmc.img = some g ∧ g.at_ = s.clock ∧ g.cnt = p.cnt ∧ g.ovf = p.ovf ∧ g.skipped = p.skipped
            ∧ g.periodic = true ∧ g.rings = []
            ∧ u = { s with out := [], pmc := { p with img := some g, lastCap := s.clock, skipped := 0, prev := some (s.clock, p.cnt), touched := [] } })
        ∧ (s.captureSkips = true →
          Yields .periodicCapture s (State.count { s.hush with pmc := { p with lastCap := s.clock, skipped := p.skipped + 1 } } 4 1)))
    ∧ (∀ a, s.working r 0x61 a → a.started = false →
        (p.en = true → p.full = false → p.img = none →
          Completes (.dumpNow r) s fun u => ∃ g, u.pmc.img = some g ∧ g.at_ = s.clock ∧ g.cnt = p.cnt ∧ g.periodic = false ∧ g.rings = [r]
            ∧ u = { s.hush.modAct r (fun a => { a with started := true }) with pmc := { p with img := some g, skipped := 0, prev := some (s.clock, p.cnt), touched := [] } })
        ∧ (p.en = false → Yields (.dumpNow r) s (s.hush.endDescriptor r 0x0E id)))
    ∧ (∀ g, p.img = some g → g.lines = false → g.seq = false → g.rings = [] → s.dumpBusy = false → p.host = true → ((s.head p.head).func.msix.get {} p.vector).masked = false →
        Completes .dumpImageWritten s fun u =>
          u.out = [.hostWrite p.head (p.entry + 8) (s.imageWords g), .hostWrite p.head p.entry [atBit ((p.images + 1) % 2 ^ 64) 0]]
              ++ (if p.irq = true then [.msix p.head p.vector] else [])
          ∧ u = { s with out := u.out, pmc := { p with img := none, images := p.images + 1, dtail := (p.dtail + 1) % p.size } })

/-- R73, R486: the mailbox of a head whose CXL link is up, or of the management interface (16). Each command answers its head and changes what
it names alone: a log's event records are read and cleared by their handles, oldest first, the interrupt setting of each log read and set,
the timestamp runs on from the value the management head set, the one log gives each opcode its effects (the effect bits are the model's,
PRESUMED), capacity is the formatted one, poison ranges are those the head may see; Inject and Clear Poison write the line (here: of a
SCRATCH window); an opcode that is not listed returns Unsupported (3). -/
def Obligations.MailboxCommandsAnswer : Prop :=
  ∀ (s : State) (h : Nat), s.on = true → s.reaches h = true → s.glb.steward = true →
    (∀ c ws, (c, ws) ∈
        [(Instr.getEventInterruptPolicy h, (s.head h).func.policy.map fun v => match v with | some n => atBit n 0 ||| atFlag true 16 | none => 0),
          (.getSupportedLogs h, [1]),
          (.getLog h, [0x0100, 0x0101, 0x0102, 0x0103, 0x0300, 0x0301, 0x0400, 0x0401, 0x4000, 0x4300, 0x4301, 0x4302, 0x4400, 0x4401].map
            fun o => atBit o 0 ||| atBit (mailboxEffects o) 16),
          (.identifyMemoryDevice h, [atBit (s.beam.pageCap / 65536) 0, atBit (s.beam.pageCap / 65536) 0, 0, 0])] →
        Yields c s { s with out := [.mailbox h 0 ws] })
    ∧ (∀ t, s.ports.stampAt = some t →
        Yields (.getTimestamp h) s { s with out := [.mailbox h 0 [s.ports.stamp + BitVec.ofNat 64 ((s.clock - t) / 2)]] })
    ∧ (s.ports.stampAt = none → Yields (.getTimestamp h) s { s with out := [.mailbox h 0 [0]] })
    ∧ (∀ log es, es = (s.head h).func.events.filter (fun e => e.log = log) →
        (log < 4 →
          Yields (.getEventRecords h log) s { s with out := [.mailbox h 0 (atFlag ((s.head h).func.eventsOver && log = 2) 0 :: es.flatMap fun e => [atBit e.handle 0, e.body.word])] }
          ∧ (∀ hs hs', hs = hs'.getD (es.map LogEntry.handle) →
              (hs <+: es.map LogEntry.handle → Yields (.clearEventRecords h log hs') s { s.modFunc h (fun f => { f with
                events := f.events.filter (fun e => ! (e.log = log && hs.contains e.handle)), eventsOver := f.eventsOver && ! (log = 2 && hs.length = es.length) }) with out := [.mailbox h 0 []] })
              ∧ (¬ hs <+: es.map LogEntry.handle → Yields (.clearEventRecords h log hs') s { s with out := [.mailbox h 14 []] })))
        ∧ (4 ≤ log → Yields (.getEventRecords h log) s { s with out := [.mailbox h 2 []] }
          ∧ ∀ hs, Yields (.clearEventRecords h log hs) s { s with out := [.mailbox h 2 []] }))
    ∧ (∀ v, ((v.length = 4 ∧ ∀ n, some n ∈ v → n < 2048) →
          Yields (.setEventInterruptPolicy h v) s { s.modFunc h (fun f => { f with policy := v }) with out := [.mailbox h 0 []] })
        ∧ (¬ (v.length = 4 ∧ ∀ n, some n ∈ v → n < 2048) → Yields (.setEventInterruptPolicy h v) s { s with out := [.mailbox h 2 []] }))
    ∧ (∀ a n, s.near.poisonOverflow = none → Completes (.getPoisonList h a n) s fun u =>
        ∃ es : List (Nat × Nat), u = { s with out := [.mailbox h 0 (0 :: es.map fun e => atBit (e.1 * 64) 0 ||| atBit e.2 48)] }
          ∧ ∀ e, e ∈ es ↔ e ∈ s.near.poisonIdx ∧ e.1 < a + n ∧ a < e.1 + e.2 ∧ s.seesLine h e.1 = true)
    ∧ (s.isMgmt h = true →
        (∀ v, Yields (.setTimestamp h v) s { s with ports := { s.ports with stamp := v, stampAt := some s.clock }, out := [.mailbox h 0 []] })
        ∧ (∀ dpa n r d, s.regionOf (dpa / 64) = some (n, r) → s.atRest (dpa / 64) → r.coh = 0 → r.window = 2 →
            (Completes (.clearPoison h dpa d) s fun u => u.near.scr = (s.setPool (r.poolLine (dpa / 64)) d fullMask false).near.scr
              ∧ u = { s with out := [.mailbox h 0 []], pwr := u.pwr, near := { s.near with scr := u.near.scr, autoOff := u.near.autoOff } })
            ∧ (Completes (.injectPoison h dpa) s fun u => u.near.scr = (s.setPool (r.poolLine (dpa / 64)) 0 0 true).near.scr
              ∧ u = { s with out := [.mailbox h 0 []], pwr := u.pwr, near := { s.near with scr := u.near.scr, autoOff := u.near.autoOff } })))
    ∧ (∀ op, op ∉ [0x0100, 0x0101, 0x0102, 0x0103, 0x0300, 0x0301, 0x0400, 0x0401, 0x4000, 0x4300, 0x4301, 0x4302, 0x4400, 0x4401] →
        Yields (.unsupportedMailboxOpcode h op) s { s with out := [.mailbox h 3 []] })

/-- R62 to R66, R86: link training. The alternate protocol is answered and is in force where both partners agree; L0 takes its rate and width,
256-byte flits above 32 GT/s, and the first width after a reset; the first failed equalisation at 128 GT/s is remembered, the second falls
back to 64 GT/s; RETRAIN and Recovery keep the link's values. R67, R83 to R85, R507: a link that stays out of L0 for 10 ms, drops, or fails
IDE's integrity check goes down with its error reported, and memory is off for its head until a reset of the head. With no BISnp open and
nothing held, its ring pairs are DETACHED, each snoop-filter entry that records the head counts it as gone, what waited at the port is
discarded, and write-buffer entries complete to it no more. -/
def Obligations.LinksTrainAndDrop : Prop :=
  (∀ (s : State) (h : Nat) (l : Link), s.on = true → s.present h = true → (s.head h).link = l →
    (∀ d, Completes (.altProtocolOffer h 0xA95D 1 d) s fun u =>
        u = { s.modHead h (fun x => { x with link := { l with extAgreed := flag l.ctl 2 && (d.getLsbD 0 && d.getLsbD 1 && d.getLsbD 2 && decide (d.extractLsb' 4 4 = 1)) } })
                with out := [.altProtocol h (if flag l.ctl 2 = true then 0x001F else 0)] })
    ∧ (∀ rate width ide cxl g, s.mayTrain h rate width = true →
        g = (l.extAgreed && ! l.no128 && decide (rate < 2) && decide (l.maxRate = 2) && decide (1 ≤ rate) && cxl) →
        (g = false → (s.head h).inQ = [] ∧ (s.head h).outQ = []) →
        Completes (.linkL0Reached h rate width (decide (1 ≤ rate)) ide cxl) s fun u =>
          (u.head h).link = { l with
            cxl := cxl, up := true, recovery := g, outAt := if g = true then s.clock else l.outAt
            rate := rate, width := width, flit256 := decide (1 ≤ rate), ext128 := decide (rate = 2)
            ideActive := (ide && ((s.head h).func.ide.get {} 0).inUse.isSome), eqFails := if rate = 2 then 0 else l.eqFails
            memOff := l.dropped || ! s.vlt.active || ! cxl, firstWidth := some (l.firstWidth.getD width)
            firstRate := if l.firstWidth.isNone = true then rate else l.firstRate }
          ∧ (u.head h).func.busMaster = cxl
          ∧ (s.heads.wf {} = true → ∀ k, k ≠ h → u.head k = s.head k)
          ∧ u = { s with out := u.out, heads := u.heads, qos := u.qos })
    ∧ (l.up = true → l.recovery = true → l.extAgreed = true → l.no128 = false →
        (l.eqFails = 0 → Completes (.eq128Fail h) s fun u =>
            u.head h = { s.head h with link := { l with eqFails := 1 }, func := { (s.head h).func with errors := ((s.head h).func.errors ++ [LinkError.equalisation]).eraseDups } }
            ∧ (s.heads.wf {} = true → ∀ k, k ≠ h → u.head k = s.head k)
            ∧ u = { s with out := [], heads := u.heads })
        ∧ (l.eqFails ≠ 0 → (s.head h).inQ = [] → (s.head h).outQ = [] → Completes (.eq128Fail h) s fun u =>
            (u.head h).link = { l with eqFails := 0, no128 := true, rate := 1, ext128 := false, recovery := false }
            ∧ (s.heads.wf {} = true → ∀ k, k ≠ h → u.head k = s.head k)
            ∧ u.flt = s.flt.enter (Note.words ⟨1, 0x05, h, none⟩)
            ∧ u = { s with out := u.out, heads := u.heads, qos := u.qos, flt := u.flt, tap := u.tap, pmc := u.pmc }))
    ∧ (∀ src, s.reaches src = true → (src = h ∨ s.isMgmt src = true) → (l.up = true ∨ s.heads.wf {} = true) → Completes (.retrain src h) s fun u =>
          u.head h = { s.head h with link := { l with
            recovery := l.up || l.recovery, outAt := if (l.up && ! l.recovery) = true then s.clock else l.outAt
            no128 := (l.no128 && decide (l.maxRate ≠ 2)), eqFails := if l.maxRate = 2 then 0 else l.eqFails } }
          ∧ (s.heads.wf {} = true → ∀ k, k ≠ h → u.head k = s.head k)
          ∧ u = { s with out := [], heads := u.heads })
    ∧ (l.up = true → Yields (.linkRecoveryEnter h) s (s.hush.modHead h fun x => { x with link :=
        if l.recovery = true then l else { l with recovery := true, outAt := s.clock } })))
  ∧ (∀ (s : State) (h r : Nat) (l : Link), s.on = true → s.linkUp h = true → (s.head h).link = l → s.coh.snoops = [] → s.coh.heldBirsp = [] →
    ∀ c es, (c, es) ∈ [(Instr.linkOutOfL0Timeout h, [LinkError.surpriseDown]), (.linkDrop h, [.surpriseDown]), (.ideIntegrityFail h, [.ideCheck, .cxlIde])] →
      (c = .linkOutOfL0Timeout h → l.recovery = true ∧ l.outAt + 20000000 ≤ s.clock) → (c = .ideIntegrityFail h → ((s.head h).func.ide.any fun e => e.2.inUse.isSome) = true) →
      Completes c s fun u =>
        (u.head h).link = { l with up := false, recovery := false, memOff := true, dropped := true, ideActive := false, ext128 := false, extAgreed := false }
        ∧ (u.head h).func = { (s.head h).func with errors := ((s.head h).func.errors ++ es).eraseDups }
        ∧ (u.head h).inQ = [] ∧ (u.head h).outQ = [] ∧ (u.head h).waitQ = [] ∧ (u.head h).kept = 0
        ∧ ((s.ring r).owner = h → (s.ring r).st ≠ .off → u.ring r = { s.ring r with st := .detached })
        ∧ ((s.ring r).owner ≠ h → s.ring r ≠ {} → u.ring r = s.ring r)
        ∧ (s.coh.sf.wf {} = true → ∀ i e, s.coh.sf.get {} i = e →
            u.coh.sf.get {} i = if e.pres.getLsbD h = true then { e with gone := putBit e.gone h true } else e)
        ∧ u.near.wb = s.near.wb.map (fun e => { e with waiters := e.waiters.filter fun w => w.1 ≠ h })
        ∧ u = { s with
          out := []
          heads := u.heads
          near := { s.near with wbRetry := u.near.wbRetry, wb := u.near.wb }
          coh := { s.coh with sfWait := u.coh.sfWait, retry := u.coh.retry, recHeld := u.coh.recHeld, txns := u.coh.txns, handoff := u.coh.handoff, sf := u.coh.sf }
          vlt := { s.vlt with held := u.vlt.held }
          rng := { s.rng with qheld := u.rng.qheld, rings := u.rng.rings }
          pwr := { s.pwr with low := putBit s.pwr.low (32 + h) false, leaving := putBit s.pwr.leaving (32 + h) false } })

/-- R576, R432, R479: the three resets of one head, with no BISnp open and no request gated. PERST# takes its link down to train anew, resets
its function, opens its own brake, returns its lanes with their buckets at 0 and turns its ring pairs OFF; CXL reset keeps the link up,
clears its decoders and lets memory on again; a function-level reset turns ring pairs OFF and clears bus mastering, the MSI-X table and the
index pairs. -/
def Obligations.HeadsReset : Prop :=
  ∀ (s : State) (h r : Nat) (x : Head), s.on = true → s.present h = true → s.head h = x → x.brake.gate = [] → x.brake.mgmt = false →
    (s.coh.snoops = [] → s.coh.heldBirsp = [] → s.vlt.active = true →
      Completes (.headPerst h) s fun u =>
        u.head h = { link := { memOff := false }, func := {}, load := { x.load with reqs := 0, demoted := 0 }, brake := { x.brake with self := false } }
        ∧ (s.rng.rings.wf {} = true → (s.ring r).owner = h → (s.ring r).st ≠ .off → (u.ring r).st = .off ∧ (u.ring r).en = false ∧ (u.ring r).act = (s.ring r).act)
        ∧ (s.flt.buckets.wf {} = true → ∀ i ∈ s.headLanes h, (u.bucket 6 (8 * (h / 2) + i)).count = 0 ∧ (u.bucket 6 (8 * (h / 2) + i)).retired = false)
        ∧ u = { s with
          out := u.out, heads := u.heads, qos := u.qos, rng := u.rng, vlt := { s.vlt with held := u.vlt.held }
          near := { s.near with wbRetry := u.near.wbRetry, wb := u.near.wb }
          coh := { s.coh with sfWait := u.coh.sfWait, retry := u.coh.retry, recHeld := u.coh.recHeld, txns := u.coh.txns, handoff := u.coh.handoff, sf := u.coh.sf }
          pwr := { s.pwr with low := putBit s.pwr.low (32 + h) false, leaving := putBit s.pwr.leaving (32 + h) false, quiet := s.pwr.quiet.set 0 h 0 }
          sec := { s.sec with spdm := s.sec.spdm.set 0 h 0 }
          ports := { s.ports with laneRet := s.ports.laneRet.set 0 (h / 2) ((s.headLanes h).foldl (fun b i => putBit b i false) (s.ports.laneRet.get 0 (h / 2))) }
          flt := { s.flt with buckets := u.flt.buckets }
          glb := { s.glb with idx := u.glb.idx, mbx := u.glb.mbx, fences := s.glb.fences.set 0 h 0 } })
    ∧ (x.link.up = true →
      (x.waitQ = [] → x.kept = 0 → Completes (.cxlReset h) s fun u =>
        u.head h = { x with link := { x.link with memOff := ! s.vlt.active || ! x.link.cxl, dropped := false }, func := { x.func with decoders := [] }, brake := { x.brake with self := false } }
        ∧ (s.rng.rings.wf {} = true → (s.ring r).owner = h → (s.ring r).st ≠ .off → (u.ring r).st = .off ∧ (u.ring r).en = false ∧ (u.ring r).act = (s.ring r).act)
        ∧ u = { s with out := [], heads := u.heads, rng := { s.rng with rings := u.rng.rings } })
      ∧ (Completes (.functionLevelReset h) s fun u =>
        u.head h = { x with func := { x.func with busMaster := false, msix := [] } }
        ∧ (s.rng.rings.wf {} = true → (s.ring r).owner = h → (s.ring r).st ≠ .off → (u.ring r).st = .off ∧ (u.ring r).en = false ∧ (u.ring r).act = (s.ring r).act)
        ∧ u = { s with out := [], heads := u.heads, rng := { s.rng with rings := u.rng.rings }, glb := { s.glb with idx := s.glb.idx.restrict fun k _ => k / 4 ≠ h, mbx := s.glb.mbx.set {} h {} } }))

/-- R70, R71, R75, R86, R507, R509: the services beside CXL.mem. A retired lane takes its head's link through Recovery to the widest width that
its lanes form; the first decoder commits from DPA 0 plus its skip and un-commits, a range past the formatted capacity sets Error Not
Committed, a locked one stays; DOE discovery, CDAT and SPDM answer, KEY_EXCHANGE and FINISH set up a session, and in one the IDE key
commands answer and a key comes into use at K_SET_GO. -/
def Obligations.HeadServicesAnswer : Prop :=
  ∀ (s : State) (h : Nat) (x : Head), s.on = true → s.present h = true → s.head h = x → x.link.up = true →
    (∀ d0 base size ways gran skip db lock, x.func.decoders.get {} 0 = d0 → x.link.cxl = true → d0.locked = false →
        (d0.committed = false → Completes (.hdmDecoderCommit h 0 base size ways gran skip db lock true) s fun u => ∃ ok : Bool,
          (ok = true ↔ ways ∈ [1, 2, 4, 8, 16] ∧ gran ∈ [256, 512, 1024, 2048, 4096, 8192, 16384] ∧ size ≠ 0 ∧ skip + size / ways ≤ s.beam.pageCap * 4096)
          ∧ (u.head h).func.decoders = x.func.decoders.set {} 0 ⟨base, size, ways, gran, skip, skip, db, ok, ! ok, ok && lock⟩
          ∧ (u.head h).link = x.link ∧ u = { s with out := [], heads := u.heads })
        ∧ (d0.committed = true → Completes (.hdmDecoderCommit h 0 base size ways gran skip db lock false) s fun u =>
          (u.head h).func.decoders = x.func.decoders.set {} 0 { d0 with committed := false }
          ∧ (u.head h).link = x.link ∧ u = { s with out := [], heads := u.heads }))
    ∧ Yields (.doeDiscovery h) s { s with out := [.doe h [0, 2, 1, 2]] }
    ∧ (∀ bw, bw = atBit (40 * 2 ^ x.link.width * 2 ^ x.link.rate) 0 →
        Yields (.cdatRead h) s { s.modFunc h (fun f => { f with cdatChanged := false }) with out := [.doe h [atBit (s.beam.pageCap * 4096) 0, 1, 190, 140, bw, bw]] })
    ∧ (∀ code a was, s.sec.spdm.get 0 h = was → code ≠ 0xFE → ∃ ws, ws = s.spdmAnswer code ∧ Yields (.spdmRequest h code a) s { s with
          sec := { s.sec with spdm := s.sec.spdm.set 0 h (if code = 0xE4 then 1 else if code = 0xE5 ∧ was = 1 then (if a = true then 3 else 2) else if code = 0xEC ∨ code = 0x84 then 0 else was) }
          out := [.doe h ws] }
        ∧ (code = 0x84 → ws = [0x04, 0x13])
        ∧ (code ∉ [0xE0, 0x81, 0x82, 0x83, 0x84, 0xE1, 0xE3, 0xE4, 0xE5, 0xE8, 0xE9, 0xEC] → ws = [0x7F, 0x07])
        ∧ (code = 0xE0 → ∀ (d : Nat → List Word) im bd id, (∀ k, d k = (List.range 6).map (Config.measure k)) →
          (s.glb.image = none ∧ im = d 2 ∨ ∃ g, s.glb.image = some g ∧ im = digestWords (bytesLittle 48 g.digest.toNat)) →
          (s.boot.board = none ∧ bd = d 5 ∨ ∃ b, s.boot.board = some b ∧ bd = digestWords (sha384 (boardBytes b))) →
          (s.sec.wrap.escV = false ∧ id = [] ∨ s.sec.wrap.escV = true ∧ ∃ key, s.sec.wrap.custodian = some key ∧ id = (List.range 6).map (custIdWord key)) →
          ws = 0x60 :: (d 1 ++ im ++ [glbId, glbRev] ++ d 4 ++ bd ++ [s.beam.setId] ++ id)))
    ∧ (∀ st key c i, s.secured h = true → st < 2 → x.func.ide.get {} st = i →
        Yields (.ideKeyProg h st 0 key) s { s.modHead h (fun _ => { x with func := { x.func with ide := x.func.ide.set {} st { i with key0 := some key } } }) with out := [.doe h [1]] }
        ∧ Yields (.ideKeyProg h st 1 key) s { s.modHead h (fun _ => { x with func := { x.func with ide := x.func.ide.set {} st { i with key1 := some key } } }) with out := [.doe h [1]] }
        ∧ (i.key1 = some key → Completes (.ideKSetGo h st 1 c) s fun u =>
            u.head h = { x with func := { x.func with ide := x.func.ide.set {} st { i with inUse := some 1, contain := c } }, link := { x.link with ideActive := x.link.ideActive || decide (st = 0) } }
            ∧ u = { s with out := [.doe h [1]], heads := u.heads }))
    ∧ (∀ port lane w bad m, port < 8 → lane < 8 → s.retireDue 6 (8 * port + lane) = true → h = (if s.bifur port = true then 2 * port + lane / 4 else 2 * port) →
        bad = putBit (s.ports.laneRet.get 0 port) lane true → lanesWidth (s.headLanes h) bad = some w → x.link.minWidth ≤ w → s.heads.wf {} = true → m = min x.link.width w →
        Completes (.laneRetire port lane) s fun u =>
          (u.head h).link = { x.link with widthLimit := w, width := m, recovery := true, outAt := if x.link.recovery = true then x.link.outAt else s.clock }
          ∧ u.ports.laneRet = s.ports.laneRet.set 0 port bad
          ∧ (u.bucket 6 (8 * port + lane)).retired = true ∧ u.retireDue 6 (8 * port + lane) = false
          ∧ u.flt = (s.retireTaken 6 (8 * port + lane)).flt.enter (Note.words ⟨1, 0x06, h + m * 16, none⟩)
          ∧ u = { s with out := u.out, heads := u.heads, qos := u.qos, ports := { s.ports with laneRet := u.ports.laneRet }, flt := u.flt, tap := u.tap, pmc := u.pmc })

/-- R268, R273, R276, R277, R287, R288: records reach the drives and are confirmed. A stripe whose first record is 10 µs old is written to every
slot in service that is no hole, at once where no command waits; a unit's Write that completes is one less to wait for, the drive takes its
next command, and with the last one the stripe's records are confirmed; the oldest 256 delta entries, when there are so many or the oldest
is 1 ms old, become one DELTA record. -/
def Obligations.RecordsAreWrittenAndConfirmed : Prop :=
  ∀ (s : State), s.on = true →
    (∀ k b v, s.beamUp = true → s.beam.bufs.get none k = some b → b.recs ≠ [] → b.since + 20000 ≤ s.clock → v = s.slotsUp &&& ~~~ (s.seg b.seg).holes →
      Completes (.stripeWrite k true) s fun u =>
        u.seg b.seg = { s.seg b.seg with next := (s.seg b.seg).next + 1, st := if (s.seg b.seg).next + 1 = 256 then .full else (s.seg b.seg).st }
        ∧ (s.beam.reads = [] → s.beam.outs = [] → (∀ i ∈ bitsOf v, Output.beamUnit b.stripe i ∈ u.out)
            ∧ u.beam.outs = [⟨b.stripe, v, false, b.recs, if k = 2 then 0 else 5, s.clock, 0⟩])
        ∧ u = { s with
          out := u.out, pmc := u.pmc, pwr := u.pwr, near := { s.near with autoOff := u.near.autoOff }
          beam := { s.beam with segs := u.beam.segs, bufs := s.beam.bufs.set none k none, outs := u.beam.outs, reads := u.beam.reads } })
    ∧ (∀ k i o, s.beam.outs.find? (fun o => decide (o.stripe = k) && o.waits.getLsbD i && ! o.held.getLsbD i) = some o → s.inPowerState (48 + i) = false →
        (putBit o.waits i false ≠ 0 →
          Yields (.unitWriteComplete k i true) s (State.submit { s.hush with beam := { s.beam with outs := s.beam.outs.map fun x => if x.stripe = k then { o with waits := putBit o.waits i false } else x } } i))
        ∧ (∀ a r, putBit o.waits i false = 0 → o.failed = false → s.beam.outs = [o] → o.recs = [a] → s.beam.recs.get none a = some r → r.purpose = .none →
          Yields (.unitWriteComplete k i true) s (State.submit { s.hush with beam := { s.beam with outs := [], recs := s.beam.recs.set none a (some { r with confirmed := true }) } } i)))
    ∧ (∀ r a t, s.beam.deltas ≠ [] → (256 ≤ s.beam.deltas.length ∨ s.beam.deltaAt.headD s.clock + 2000000 ≤ s.clock) →
        r = { kind := .delta, page := (s.beam.deltas.take 256).length, sectors := ((s.beam.deltas.take 256).length + 31) / 32
              deltas := s.beam.deltas.take 256, stream := 4, seq := 0 } →
        s.hush.append 4 r = some (a, t) →
        Yields (.deltaRecordWrite true) s { t with beam := { t.beam with deltas := t.beam.deltas.drop 256, deltaAt := t.beam.deltaAt.drop 256 } })

/-- R15, R289 to R291, R294 to R296, R318: checkpoints, commits and garbage collection. A checkpoint takes the map of its moment and the DELTA
segments opened so far; a CHECKPOINT commit goes to its slots and is in force, in boot flash too, as they have it, and with the steward down
one that a level-3 seal waits for is written with the roots unchanged; a flush's commit goes to its slots and waits for them; a live record
of the segment being emptied is read at P5 to be copied; a FULL segment with no live record becomes FREE and is deallocated on every slot. -/
def Obligations.CommitsAndSegments : Prop :=
  ∀ (s : State), s.on = true → s.beam.setId ≠ 0 → s.beamUp = true →
    (s.glb.steward = true →
      (s.beam.ckpt = false → s.vlt.stopped = false → s.cpMeta ≤ s.beam.deltaSegs.length →
        Completes .checkpoint s fun u => u = { s with
          out := u.out, pmc := u.pmc, pwr := u.pwr, near := { s.near with autoOff := u.near.autoOff }
          beam := { s.beam with ckpt := true, ckptBase := s.pmapNow, ckptSegs := s.beam.deltaSegs, warm := s.warmList
                                reads := u.beam.reads, outs := u.beam.outs, segs := u.beam.segs, bufs := u.beam.bufs
                                recs := u.beam.recs, seqNext := u.beam.seqNext, deltaSegs := u.beam.deltaSegs } })
      ∧ (∀ c, c = s.commitNow .checkpoint s.beam.ckpt false 0 → s.vlt.stopped = false → s.unconfirmed (fun k => decide (k = .map) || decide (k = .warm)) = false →
          s.sec.cmd = none → s.rng.seals = [] →
          Completes (.commitRecordWrite .checkpoint) s fun u =>
            u.out = (s.commitSlots (s.beam.cseq + 1)).map (fun i => Output.nvme i 0x01)
            ∧ u.beam.commit = some c ∧ u.boot.commit = some c ∧ u.beam.cseq = s.beam.cseq + 1 ∧ u.beam.ckpt = false
            ∧ u.beam.base = (if s.beam.ckpt = true then s.beam.ckptBase else s.beam.base)
            ∧ u = { s with
              out := u.out, pmc := u.pmc, boot := { s.boot.keep 2 with commit := some c }
              beam := { s.beam with commit := some c, commitOut := none, cseq := s.beam.cseq + 1, ckpt := false, base := u.beam.base
                                    deltaSegs := u.beam.deltaSegs, ckptSegs := u.beam.ckptSegs, slots := u.beam.slots } })
      ∧ (∀ addr r, s.map.mapLoad = false → s.vlt.stopped = false → s.beam.deltaSegs.length < 52 → s.hush.gcUpdate = s.hush → s.beam.gc = true →
          s.beam.gcSeg = some (segOf (beamStripe addr)) → s.beam.recs.get none addr = some r → s.recLive addr r = true →
          (∀ x ∈ s.beam.reads, x.addr = addr → x.gc = false) →
          (s.beam.recs.any fun e => match e.2 with | some r => decide (r.purpose = .move addr) | none => false) = false →
          Yields (.gcRelocate addr) s (s.hush.beamRead addr 5 true))
      ∧ (∀ g x c, s.seg g = x → x.st = .full → s.map.mapLoad = false → s.divHolds g = false → s.liveIn g = [] →
          (s.beam.outs.any fun o => segOf o.stripe = g) = false → s.beam.commit = some c → x.moved ≤ c.cseq →
          Completes (.segmentFree g) s fun u =>
            u.out = (bitsOf s.slotsUp).map (fun i => Output.nvme i 0x09)
            ∧ u.beam.segs = s.beam.segs.set {} g { st := .free, writes := x.writes }
            ∧ u.beam.recs = s.beam.recs.restrict (fun a _ => segOf (beamStripe a) ≠ g)
            ∧ u = { s with out := u.out, pmc := u.pmc, beam := { s.beam with segs := u.beam.segs, recs := u.beam.recs, gc := u.beam.gc, gcSeg := u.beam.gcSeg, gcChoices := u.beam.gcChoices } }))
    ∧ (∀ c, s.glb.steward = false → c = s.commitNow .checkpoint false false 0 → s.vlt.stopped = false → s.sealWants = true →
        Completes (.commitRecordWrite .checkpoint) s fun u => ∃ t : State, u = t.checkSeals
          ∧ t.out = (s.commitSlots (s.beam.cseq + 1)).map (fun i => Output.nvme i 0x01)
          ∧ t.beam.commit = some c ∧ t.boot.commit = some c ∧ t.beam.base = s.beam.base ∧ t.beam.ckpt = s.beam.ckpt ∧ t.rng = s.rng)
    ∧ (s.vlt.st = .s3 → s.flushConfirmed = true → s.beam.commitOut = none → ∀ k c, c = s.flushCommit k →
        (k = .flush ∧ s.vlt.orderly = false ∨ k = .shutdown ∧ s.vlt.orderly = true) →
        Completes (.commitRecordWrite k) s fun u =>
          u.out = (s.commitSlots (s.beam.cseq + 1)).map (fun i => Output.nvme i 0x01)
          ∧ u = { s with out := u.out, beam := { s.beam with commitOut := some ⟨c, (s.commitSlots (s.beam.cseq + 1)).length⟩, slots := u.beam.slots } })

/-- R267, R295, R302 to R305: beam reads of a drive in power state 0. A record that passes every check is served to the line that waits for it,
or copied where garbage collection wants it; one that fails is charged to its slot and read from the others; a read slower than its limit
reads the other slots too, and 16 such reads within 100 ms make its slot avoided for 100 ms; reconstruction ends the read, or, where only
the hedge failed, leaves it to the slot (the model's choice, log); a command out for 2 s is aborted. The slot's queues then take what waits
for them. -/
def Obligations.BeamReadsEnd : Prop :=
  ∀ (s : State) (a : Nat) (r : BeamRead), s.on = true → s.beam.reads = [r] → r.addr = a → r.queued = false → s.inPowerState (48 + r.slot) = false →
    (∀ l h tag n rg t, r.rebuilt = false → r.gc = false → r.bad = false → s.coh.txns = [(l, some t)] → t.phase = .beam a → t.req.src = .head h tag → t.req.kind = .rdCur → t.req.mute = false →
      (s.head h).link.recovery = false → s.regionAt l = some (n, rg) → rg.noalloc = true → s.withBuffer l ((s.recData a).get {} (l % 64)) = (s.recData a).get {} (l % 64) →
      Completes (.beamReadComplete a .good) s fun u => ∃ v : State, u = v.submit r.slot
        ∧ v.out = [.memData h tag (if ((s.recData a).get {} (l % 64)).poison = true then 0 else ((s.recData a).get {} (l % 64)).data) ((s.recData a).get {} (l % 64)).poison (s.devLoad h)]
        ∧ v.beam.reads = [] ∧ (v.txn l) = some { t with phase := .done }
        ∧ v = { s with out := v.out, pmc := v.pmc, tap := v.tap, coh := { s.coh with txns := v.coh.txns }, beam := { s.beam with reads := [] } })
    ∧ (∀ q b t, r.rebuilt = false → r.gc = true → 2 ≤ r.prio → s.vlt.stopped = false → s.coh.txns = [] → s.beam.recs.get none a = some q → q.confirmed = true →
        State.append { s.hush with beam := { s.beam with reads := [] } } 1 { q with purpose := .move a } = some (b, t) →
        Yields (.beamReadComplete a .good) s (State.submit ((t.count (evBeam 5) 1).modSeg (segOf (beamStripe a)) fun g => { g with moved := s.beam.cseq + 1 }) r.slot))
    ∧ (r.rebuilt = false → ∀ others, others = (if r.hedged = true then [] else
          ((List.range 8).filter fun i => i ≠ r.slot && ! s.beam.retired.getLsbD i).map (fun i => Output.nvme i 0x02)) →
        (∀ e, e ≠ .good → Completes (.beamReadComplete a e) s fun u => ∃ v : State, u = v.submit r.slot
          ∧ v.out = others ∧ v.beam = { s.beam with reads := [{ r with rebuilt := true, bad := true }] }
          ∧ (v.bucket 5 r.slot).count = min ((s.bucket 5 r.slot).count + 4) 0xFFFF
          ∧ v = { s with out := v.out, beam := v.beam, flt := { s.flt with buckets := v.flt.buckets, deferred := v.flt.deferred }, tap := v.tap, pmc := v.pmc })
        ∧ (r.since + 4000000000 ≤ s.clock → Completes (.nvmeAbort r.slot a) s fun u => ∃ v : State, u = v.submit r.slot
          ∧ v.out = .nvmeAdmin r.slot 0x08 :: others ∧ v.beam = { s.beam with reads := [{ r with rebuilt := true, bad := true }] }
          ∧ (v.bucket 5 r.slot).count = min ((s.bucket 5 r.slot).count + 8) 0xFFFF
          ∧ v = { s with out := v.out, beam := v.beam, flt := { s.flt with buckets := v.flt.buckets, deferred := v.flt.deferred }, tap := v.tap, pmc := v.pmc })
        ∧ (∀ tm av, r.hedged = false → r.hedge ≠ 0 → r.since + r.hedge ≤ s.clock →
          tm = ((s.slot r.slot).slowAt.filter fun t => decide (s.clock < t + 200000000)) ++ [s.clock] →
          av = (flag s.beam.ctl 10 && decide (16 ≤ tm.length) && s.beam.avoided.isNone) →
          Completes (.hedgeTimeout a) s fun u =>
            u.out = others
            ∧ u = { s with out := u.out, pmc := u.pmc, beam := { s.beam with
                slots := (s.modSlot r.slot fun x => { x with slowAt := if av = true then [] else tm }).beam.slots
                avoided := if av = true then some r.slot else s.beam.avoided, avoidAt := if av = true then s.clock else s.beam.avoidAt
                reads := [{ r with hedged := true }] } })
        ∧ (r.hedged = true → Yields (.recordReconstruct a false) s { s.hush with beam := { s.beam with reads := [{ r with hedged := false }] } }))
    ∧ ((r.hedged = true ∨ r.rebuilt = true) → r.bad = false → r.gc = false → 2 ≤ r.prio → s.coh.txns = [] →
        Yields (.recordReconstruct a true) s (State.submit (State.count { s.hush with beam := { s.beam with reads := [] } } (evSlot r.slot 3) 1) r.slot))
    ∧ (∀ i, s.beam.avoided = some i → s.beam.avoidAt + 200000000 ≤ s.clock → Yields .slotAvoidEnd s { s.hush with beam := { s.beam with avoided := none } })

/-- R267, R298, R306, R307, R474: drives. A slot is retired when its bucket's retirement is due or an immediate cause stands, at once when its
port stays down for 1 s: superblocks, degraded sequence and notice say so, its open segments are closed and its reads are rebuilt; a usable
blank drive takes the lowest retired slot, which is in use again once rebuilt; the health log is read an hour after the last, wear of 90 %
is posted once, a critical warning is a cause. -/
def Obligations.DrivesComeAndGo : Prop :=
  ∀ (s : State) (i : Nat) (x : Slot), s.on = true → i < 8 → s.slot i = x →
    (∀ c cause, (c, cause) ∈ [(Instr.slotRetire i 0, 0), (.slotRetire i 3, 3), (.beamLinkDownTimeout x.port, 1)] →
      (cause = 0 → s.retireDue 5 i = true) → (cause = 3 → x.fail = 3) →
      (cause = 1 → (List.range 8).find? (fun i => (s.slot i).present && (s.slot i).port = x.port && ! s.beam.retired.getLsbD i) = some i) →
      s.beam.retired.getLsbD i = false → s.beam.bufs = [] → s.beam.outs = [] → s.rng.seals = [] →
      Completes c s fun u =>
        u.beam.retired = putBit s.beam.retired i true ∧ u.beam.sbgen = s.beam.sbgen + 1 ∧ u.beam.degSeq = s.beam.seqNext
        ∧ u.beam.reads = s.beam.reads.map (fun r => if r.slot = i then { r with rebuilt := true, queued := false } else r)
        ∧ u.flt.fifo = (({ s.flt with deferred := [] } : Flt).enter (Note.words ⟨2, 0x16, 5 * 256 + i + cause * 4096, none⟩)).fifo
        ∧ (u.bucket 5 i).retired = true
        ∧ u = { s with
          out := u.out, flt := u.flt, tap := u.tap, pmc := u.pmc, heads := u.heads
          beam := { s.beam with retired := u.beam.retired, sbgen := u.beam.sbgen, degSeq := u.beam.degSeq, segs := u.beam.segs, reads := u.beam.reads
                                avoided := u.beam.avoided, slots := u.beam.slots } })
    ∧ (∀ d, (List.range 8).find? (fun i => s.beam.retired.getLsbD i) = some i → flag s.beam.ctl 11 = true → s.beam.setId ≠ 0 → s.beam.rebuild = none →
        d.conditions = 0x3F → d.blank = true → 17408 + 4096 * s.beam.segments ≤ d.lbas →
        ((List.range 8).any fun j => (s.slot j).present && ! s.beam.retired.getLsbD j && (s.slot j).port = d.port) = false →
        Completes (.driveAdopt d) s fun u =>
          (s.beam.slots.wf {} = true → (u.slot i).port = d.port ∧ (u.slot i).present = true ∧ (u.slot i).width = d.width ∧ (u.slot i).rate = d.rate
            ∧ (u.slot i).lbas = d.lbas ∧ (u.slot i).power = d.power ∧ (u.slot i).fail = 0
            ∧ (if (s.beam.sbgen + 1) % 2 = 0 then (u.slot i).sb0 else (u.slot i).sb1) = s.beam.sbgen + 1)
          ∧ u = { s with out := u.out, beam := { s.beam with slots := u.beam.slots, sbgen := s.beam.sbgen + 1, rebuild := some i } })
    ∧ (s.beam.rebuild = some i →
        Completes (.adoptRebuildEnd i) s fun u => u = { s with
          out := u.out, beam := { s.beam with rebuild := none, retired := putBit s.beam.retired i false, sbgen := s.beam.sbgen + 1, slots := u.beam.slots } })
    ∧ (x.present = true → s.glb.steward = true → x.smartAt + 7200000000000 ≤ s.clock →
        (∀ used, used < 90 → x.worn90 = false → x.worn100 = false →
          Yields (.smartLogRead i used 0) s ((s.hush.emit (.nvmeAdmin i 0x02)).modSlot i fun _ => { x with smartAt := s.clock, wear := used }))
        ∧ (∀ used, 90 ≤ used → used < 100 → x.worn90 = false → x.worn100 = false →
          Yields (.smartLogRead i used 4) s (((s.hush.emit (.nvmeAdmin i 0x02)).modSlot i fun _ => { x with smartAt := s.clock, wear := used, worn90 := true, fail := 3 }).note ⟨1, 0x1B, i + used * 256, none⟩)))
    ∧ (x.present = true → ∀ crit,
        Yields (.asyncEventComplete i crit true) s { s.modSlot i (fun _ => { x with fail := 2 }) with out := [.nvmeAdmin i 0x0C] })

/-- R325 to R328: estimates of the bank. A test starts only when it is due, enabled and allowed, goes through the steps of R326, and ends with
C_test = Q / TEST_DV; brace, commit, the cap or 5 s abort it; a test due for 4 h is POSTPONED; a charging span that rose by TEST_DV gives
C_chg; the steward takes an estimate from 0.05 F to 65.535 F into the reserve record. -/
def Obligations.TestsMeasureTheBank : Prop :=
  ∀ (s : State) (r : Rsv), s.on = true → s.rsv = r → s.glb.steward = true →
    (s.testIsDue = true → r.testEn = true → r.health ≠ 3 → s.brace = false → r.charging = false → r.vChg ≤ r.vNow + 250 → r.step = .idle →
        s.vlt.stopped = false → s.vlt.hold = false → s.dirtyCount * 100 ≤ 90 * (s.capAt (r.vNow - r.testDv) 0).1 →
      Yields .testStart s (State.count { s.hush with rsv := { r with step := .settling, charging := false, testSamples := 0 } } (evVault 0) 1))
    ∧ (∀ src, s.reaches src = true → s.isMgmt src = true → r.testDue = none →
        Yields (.testNow src) s { s.hush with rsv := { r with testDue := some s.boot.opmin } })
    ∧ (r.step = .settling → 100 ≤ r.testSamples → r.lastI.natAbs ≤ 50 →
        Yields .testSettled s { s.hush with rsv := { r with step := .loaded, testing := true, testSamples := 0, v0 := r.volts.headD 0 } })
    ∧ (∀ i va : Nat, r.step = .loaded → 2 ≤ r.testSamples → r.lastI = - (i : Int) → 0 < i → r.volts.headD 0 = va → (r.v0 - va) * 10000 / i ≤ 65535 →
        Yields .testEsrSample s { s.hush with rsv := { r with step := .discharging, va := va, ia := r.lastI, qTest := 0, est := some (false, 0, (r.v0 - va) * 10000 / i) } })
    ∧ (r.step = .discharging → r.volts.headD 0 + r.testDv ≤ r.va →
        Yields .testDischargeEnd s { s.hush with rsv := { r with step := .computing, testing := false, charging := true } })
    ∧ (∀ c res, (c, res) ∈ [(AbortCause.braceOrCommit, 2), (.cap, 3), (.fiveSeconds, 4)] → r.step = .loaded ∨ r.step = .settling ∨ r.step = .discharging →
        (c = .braceOrCommit → s.brace = true ∨ s.vlt.hold = true ∨ s.vlt.stopped = true) → (c = .cap → 95 * r.dEff ≤ s.dirtyCount * 100) →
        (c = .fiveSeconds → r.step = .discharging ∧ 500000 ≤ r.testSamples) →
      Yields (.testAbort c) s (State.count { s.hush with rsv := { r with step := .idle, testing := false, charging := ! s.vlt.hold, testResult := res, est := none } } (evVault 1) 1))
    ∧ (∀ (q c e : Nat), r.step = .computing → r.qTest = - (q : Int) → r.est = some (false, c, e) →
        Yields .testEstimate s { s.hush with rsv := { r with step := .idle, testResult := 1, testDue := none, lastTest := some s.boot.opmin, est := some (false, q / (100 * r.testDv), e) } })
    ∧ (r.step = .idle → s.testIsDue = true → s.dueSince + 240 ≤ s.boot.opmin →
        Yields .testPostponed s { s.hush with rsv := { r with testResult := 5 } })
    ∧ (∀ x, r.chgSpan = some x → r.est = none → x.v0 + r.testDv ≤ x.v →
        Yields .chargeEstimate s { s.hush with rsv := { r with chgSpan := none, est := some (true, x.q.toNat / (100 * (x.v - x.v0)), 0) } })
    ∧ (∀ chg mF esr, r.step = .idle → r.est = some (chg, mF, esr) →
        Completes .estimateAccept s fun u =>
          u.rsv.test = (if 50 ≤ mF ∧ mF ≤ 65535 ∧ chg = false then some ⟨mF, esr, s.boot.opmin⟩ else r.test)
          ∧ u.rsv.charge = (if 50 ≤ mF ∧ mF ≤ 65535 ∧ chg = true then some ⟨mF, esr, s.boot.opmin⟩ else r.charge)
          ∧ u.boot = (if 50 ≤ mF ∧ mF ≤ 65535 then s.boot.addEstimate chg ⟨mF, esr, s.boot.opmin⟩ else s.boot)
          ∧ (50 ≤ mF ∧ mF ≤ 65535 → u.boot.ring.head? = some (chg, ⟨mF, esr, s.boot.opmin⟩))
          ∧ (mF < 50 ∨ 65535 < mF → u.rsv.fcause = r.fcause)
          ∧ u = { s with out := [], tap := { s.tap with accs := u.tap.accs }, boot := u.boot
                         rsv := { r with est := none, test := u.rsv.test, charge := u.rsv.charge, fcause := u.rsv.fcause } })

/-- R323, R324, R330 to R334, R338: the ledger. A sample becomes a voltage and a current and drives the charger; every recompute gives D_max in
exact units and D_eff as the least limit, 0 in FAULT, and starts or ends withholding; HEALTH is the first state of R330 that holds, and its
change is posted to all. -/
def Obligations.ReserveGivesTheCap : Prop :=
  ∀ (s : State) (r : Rsv), s.on = true → s.rsv = r →
    (∀ vc ic, vc < 4096 → ic < 4096 → r.sampleAt + 20000 ≤ s.clock → Completes (.reserveSample vc ic) s fun u =>
        u.rsv.volts = (r.volt vc :: r.volts).take 8 ∧ u.rsv.lastI = r.amp ic ∧ u.rsv.fcause.getLsbD 4 = r.boardBad
        ∧ (s.vlt.hold = false → r.step = .idle →
            u.rsv.charging = (if r.vChg ≤ u.rsv.vNow then false else if u.rsv.vNow + 250 < r.vChg then true else r.charging))
        ∧ (s.vlt.hold = true → u.rsv.charging = false)
        ∧ u = { s with out := [], rsv := { r with
          sampleAt := s.clock
          volts := u.rsv.volts, badV := u.rsv.badV, goodV := u.rsv.goodV, fcause := u.rsv.fcause, lastI := u.rsv.lastI, badI := u.rsv.badI
          goodI := u.rsv.goodI, qTest := u.rsv.qTest, testSamples := u.rsv.testSamples, charging := u.rsv.charging
          chgSamples := u.rsv.chgSamples, chgFrom := u.rsv.chgFrom, chgSpan := u.rsv.chgSpan } })
    ∧ (r.pFlush ≠ 0 → r.ledgerAt + 20000 ≤ s.clock → s.heads.wf {} = true → (∀ i, (s.head i).kept = 0 ∧ (s.head i).waitQ = []) → Completes .ledgerRecompute s fun u =>
        u.rsv.dMax = (r.derate * (s.ledgerC * (s.ledgerV * s.ledgerV - r.vMin * r.vMin) * r.eta) - r.eFixed * 200000000000000) * r.rBeam * 100000000 * s.u8
            / (2000000000000000 * r.pFlush * 4096 * 56 * s.uDen) - 2048 * s.keepUnits
        ∧ (r.health = 3 → u.rsv.dEff = 0 ∧ u.rsv.limit = 5)
        ∧ (r.health ≠ 3 → u.rsv.dEff = ([if s.brace = true then u.rsv.dMax / 2 else u.rsv.dMax, s.timeLimit, s.twinLimit, s.frameLimit, (s.freeSegs - 16) * 26880].min?).getD 0)
        ∧ (u.rsv.withhold = true ↔ u.rsv.dEff < headroom ∨ u.rsv.dEff ≤ s.dirtyCount + headroom ∨ (r.withhold = true ∧ 95 * u.rsv.dEff < s.dirtyCount * 100))
        ∧ (s.vlt.writable = false → u.vlt.writable = true → u.rsv.withhold = false)
        ∧ u = { s with
          out := [], heads := u.heads, tap := { s.tap with minute := u.tap.minute }
          rsv := { r with ledgerAt := s.clock, eUse := u.rsv.eUse, dMax := u.rsv.dMax, dEff := u.rsv.dEff, limit := u.rsv.limit, withhold := u.rsv.withhold, fullCap := u.rsv.fullCap }
          map := { s.map with bgRate := u.map.bgRate }, dram := { s.dram with ch := u.dram.ch }, vlt := { s.vlt with writable := u.vlt.writable } })
    ∧ (∀ h, (h = 4 ↔ r.override = true) → (h = 3 ↔ r.override = false ∧ r.fcause ≠ 0) →
        (h = 2 ↔ r.override = false ∧ r.fcause = 0 ∧ ∃ e, s.cEst = some e ∧ (e.1.mF < r.cFloor ∨ r.esrMax < s.esr)) →
        (h = 1 ↔ r.override = false ∧ r.fcause = 0 ∧ ∀ e, s.cEst = some e → r.cFloor ≤ e.1.mF ∧ s.esr ≤ r.esrMax ∧ s.current e.1 = false) →
        (h = 0 ∨ h = 1 ∨ h = 2 ∨ h = 3 ∨ h = 4) →
        (h = r.health → Yields .healthChange s s.hush)
        ∧ (h ≠ r.health → Yields .healthChange s
            ((State.note { s.hush with rsv := { r with health := h } } ⟨if h = 0 then 0 else 2, 0x0A, h + r.health * 8 + r.fcause.toNat * 64, none⟩).eventAll ⟨.memoryModule, 0x0A, h⟩)))

/-- R16, R342 to R344, R368, R369, R577: brace, commit and recovery follow the supply samples and PF_IN#; a drill commits, a shutdown and a soft
reset stop admission without HOLD_EN. A commit asserts HOLD_EN, ends charging and starts stage 1; in a state where the spec starts no flush
the write changes nothing. The steward's watchdog restarts it with a notice. -/
def Obligations.CommitsFollowTheSupply : Prop :=
  ∀ s : State, s.on = true →
    let testing := s.rsv.step = .settling ∨ s.rsv.step = .loaded ∨ s.rsv.step = .discharging
    let ended := fun (r : Rsv) => (testing → r = { s.rsv with step := .idle, testing := false, testResult := 2, est := none, charging := r.charging })
      ∧ (¬ testing → r = { s.rsv with charging := r.charging })
    let commits := fun (u : State) (k : Nat) (tp : Tap) => u.vlt.st = .s1 ∧ u.vlt.hold = true ∧ u.vlt.source = k ∧ u.vlt.stopAt = s.clock ∧ u.vlt.braceOn = false
      ∧ ended u.rsv ∧ u.rsv.charging = false
      ∧ u = { s with out := u.out, vlt := u.vlt, rsv := u.rsv, tap := tp, pmc := u.pmc, pwr := u.pwr, near := { s.near with autoOff := u.near.autoOff } }
    let live := (s.vlt.st = .run ∨ s.vlt.st = .brace) ∧ s.vlt.orderly = false
    (∀ code low, code < 4096 → s.vlt.vinAt + 2000 ≤ s.clock →
      let b := if code < 2294 then s.vlt.lowBrace + 1 else 0
      let m := if code < 2171 then s.vlt.lowCommit + 1 else 0
      let ok := decide (2335 ≤ code) && ! low
      let tp := { s.tap with vinMin := some (min (code * 20000 / 4096) (s.tap.vinMin.getD (code * 20000 / 4096))) }
      let v := { s.vlt with vinAt := s.clock, vin := code * 20000 / 4096, lowBrace := b, lowCommit := m, pfLow := low, good := if ok then s.vlt.good + 1 else 0, recovered := s.vlt.recovered && ok }
      (m < 2 → (low = false ∨ s.vlt.ctl.fld 2 1 ≠ 1) → (b < 2 ∨ s.vlt.braceOn = true) → Yields (.vinSample code low) s { s.hush with vlt := v, tap := tp })
      ∧ (m < 2 → (low = false ∨ s.vlt.ctl.fld 2 1 ≠ 1) → 2 ≤ b → s.vlt.braceOn = false → s.vlt.st = .run →
          Completes (.vinSample code low) s fun u => ended u.rsv ∧ (testing → u.rsv.charging = ! s.vlt.hold) ∧ (¬ testing → u.rsv.charging = s.rsv.charging)
            ∧ u = { s with out := [], vlt := { v with braceOn := true, st := .brace }, rsv := u.rsv, tap := tp, pmc := u.pmc })
      ∧ (live → 2 ≤ m → Completes (.vinSample code low) s fun u => commits u 1 tp)
      ∧ (live → m < 2 → low = true → s.vlt.ctl.fld 2 1 = 1 → Completes (.vinSample code low) s fun u => commits u 2 tp)
      ∧ (s.vlt.st = .restore → 2 ≤ m → s.vlt.braceOn = true → Yields (.vinSample code low) s { s.hush with vlt := { v with source := 1 }, tap := tp }))
    ∧ (live → s.vlt.ctl.fld 2 1 = 1 → Completes .pfInAssert s fun u => commits u 2 s.tap)
    ∧ (s.vlt.ctl.fld 2 1 ≠ 1 → Yields .pfInAssert s { s.hush with vlt := { s.vlt with pfLow := true, good := 0, recovered := false } })
    ∧ (5000 ≤ s.vlt.good → Yields .recovery s { s.hush with vlt := { s.vlt with recovered := true, braceOn := false, st := if s.vlt.st = .brace then .run else s.vlt.st } })
    ∧ (s.vlt.good < 5000 → Yields .recovery s s.hush)
    ∧ (∀ src, s.reaches src = true → s.isMgmt src = true →
        (live → Completes (.drill src) s fun u => commits u 3 s.tap)
        ∧ (s.vlt.st ≠ .run → s.vlt.st ≠ .brace → ∀ c ∈ [Instr.drill src, .shutdown src, .softReset src], Yields c s s.hush)
        ∧ (∀ (c : Instr) (soft : Bool), (c, soft) ∈ [(Instr.shutdown src, false), (.softReset src, true)] →
            (soft = true → (s.presentHeads.all fun h => (s.head h).braked) = true ∧ s.flt.fatal = none) → (s.vlt.st = .run ∨ s.vlt.st = .brace) →
            Yields c s { s.hush with vlt := { s.vlt with
              st := .s1, orderly := true, soft := soft, source := 4, braceOn := false, stopAt := s.clock, stage1 := false
              stage2 := false, drained := false, drivesDone := false, written := 0, left := 0, skipScratch := false } })
        ∧ ((s.presentHeads.all fun h => (s.head h).braked) = false ∨ s.flt.fatal.isSome = true → Yields (.softReset src) s s.hush))
    ∧ (∀ src, s.reaches src = true → s.isMgmt src = false → ∀ (c : Instr) (off : Nat), (c, off) ∈ [(Instr.drill src, 0xA000), (.shutdown src, 0xA000), (.softReset src, 0x18)] →
        Completes c s fun u => ∃ t p, u = { s with out := [], flt := s.flt.enter (Note.words ⟨1, 0x03, src % 32 + 0xFFF * 32 + 2 ^ 17, some (off / 8)⟩), tap := t, pmc := p })
    ∧ (s.glb.steward = true → Completes .stewardWatchdogExpire s fun u => u.glb = { s.glb with steward := false, restarts := s.glb.restarts + 1 }
        ∧ u.flt = s.flt.enter (Note.words ⟨2, 0x09, (s.glb.restarts + 1) % 65536, none⟩) ∧ u = { s with out := u.out, heads := u.heads, glb := u.glb, flt := u.flt, tap := u.tap, pmc := u.pmc })
    ∧ (s.glb.steward = false → s.glb.restarts ≠ 0 → Yields .stewardRestartDone s { s.hush with glb := { s.glb with steward := true } })

/-- R345, R350 to R354: stages 1 to 3 of a flush. Admission stop keeps a snapshot for the commit record and abandons cleans that are not issued;
E_rem follows the bank voltage; stage 1 writes dirty near-cache lines to their frames and leaves them resident; stage 2 ends when no page is
left, at the energy floor or after FLUSH_MS; stage 3 counts what is left as SHORT, and confirmed drive copies put the commit in force. -/
def Obligations.FlushStages : Prop :=
  ∀ s : State, s.on = true →
    (s.vlt.st = .s1 → s.vlt.stopped = false → s.vlt.stopAt + 64 ≤ s.clock → s.slv.pair = .off → s.beam.recs = [] →
      Completes .admissionStop s fun u => ∃ w short,
        u = { s with
          out := []
          vlt := { s.vlt with stopped := true, stopAt := s.clock, eRem := s.flushEnergy, eStop := s.flushEnergy, skipScratch := short
                              snap := some { regions := s.regions, gens := s.map.gens, swatches := s.map.swatches, warm := w } }
          beam := { s.beam with ckpt := false, ckptSegs := [], spillOut := [] }
          map := { s.map with pages := u.map.pages } }
        ∧ (s.vlt.orderly = true → short = false)
        ∧ (s.map.pages.wf {} = true → ∀ pn, u.page pn = if (s.page pn).cleaning then { s.page pn with cleaning := false, redirty := false, synced := 0 } else s.page pn))
    ∧ (s.vlt.st ≠ .s1 ∨ s.vlt.stopped = true → Yields .admissionStop s s.hush)
    ∧ (s.vlt.hold = true ∨ s.vlt.stopped = true → s.vlt.st ≠ .s2 ∨ s.vlt.stage2 = true → s.vlt.eremAt + 20000 ≤ s.clock →
        Yields .flushEnergySample s { s.hush with vlt := { s.vlt with eremAt := s.clock, eRem := s.flushC * (s.rsv.vNow * s.rsv.vNow - s.rsv.vMin * s.rsv.vMin) * s.rsv.eta } })
    ∧ (s.vlt.st = .s1 → s.vlt.stopped = true → s.map.marks = [] → s.flushPages = [] → s.flushCopies = [] →
        ((s.near.wb.all fun e => e.spill) = true → Yields .wbDrainEnd s { s.hush with
          beam := { s.beam with spillOut := s.beam.spillOut ++ s.lineSpills }, vlt := { s.vlt with st := .s2, drained := true, left := if s.vlt.stage2 then s.vlt.left else 0 } })
        ∧ ((s.near.wb.all fun e => e.spill) = false → Yields .wbDrainEnd s s.hush))
    ∧ (s.vlt.stopped = true → s.vlt.drained = true → s.vlt.stage1 = false → s.slv.pair = .off →
        (s.near.nc = [] → s.coh.handoff = [] → Yields .stage1End s { s.hush with
          beam := { s.beam with spillOut := s.beam.spillOut ++ if s.vlt.skipScratch then [] else s.scratchSpills }, vlt := { s.vlt with stage1 := true } })
        ∧ (∀ k w line, s.near.nc = [(k, w)] → w.v = true → w.d = true → line = ncLine (k / 16 % 32768) w.tag → (∀ f, (s.page (pageOf line)).place ≠ .t1 f) → Yields .stage1End s s.hush)
        ∧ (∀ k w f line, s.near.nc = [(k, w)] → s.coh.handoff = [] → w.v = true → w.d = true → line = ncLine (k / 16 % 32768) w.tag → (s.page (pageOf line)).place = .t1 f → s.vlt.skipScratch = true →
            Yields .stage1End s { s.hush.setCell f (line % 64) { data := w.data, poison := w.poison } with
              near := { s.near with nc := [(k, { w with d := false })] }, vlt := { s.vlt with stage1 := true } }))
    ∧ (s.vlt.st = .s2 → s.vlt.stage2 = false →
        (s.nLeft = 0 → Yields .stage2End s { s.hush with vlt := { s.vlt with stage2 := true, left := 0 } })
        ∧ (s.nLeft ≠ 0 → s.vlt.orderly = true → Yields .stage2End s s.hush)
        ∧ (s.nLeft ≠ 0 → s.vlt.orderly = false → s.energyEnds s.nLeft = true ∨ s.vlt.stopAt + s.rsv.flushMs * 2000000 ≤ s.clock →
            Yields .stage2End s { s.hush with vlt := { s.vlt with stage2 := true, left := s.nLeft } }))
    ∧ (s.vlt.st = .s2 → s.vlt.stage1 = true → s.vlt.stage2 = true → Completes .stage3Start s fun u =>
        u = { s with
          out := u.out, beam := u.beam, map := { s.map with pages := u.map.pages }, pmc := u.pmc, pwr := u.pwr, near := { s.near with autoOff := u.near.autoOff }
          vlt := { s.vlt with st := .s3, left := 0, shortPages := s.nLeft, shortLeft := s.flushPages } })
    ∧ (∀ o, s.beam.commitOut = some o → s.vlt.st = .s3 → s.vlt.drivesDone = false → s.rng.seals = [] → s.sec.cmd = none → s.vlt.stopAt ≤ s.clock →
        Completes .flushCommitConfirmed s fun u => u = { s with
          out := [], pmc := u.pmc
          beam := { s.beam with commit := some o.record, commitOut := none, cseq := max s.beam.cseq o.record.cseq }
          boot := { s.boot.keep 2 with commit := some o.record }
          vlt := { s.vlt with drivesDone := true, outcome := if o.record.short then 2 else 1, durMs := min 65535 ((s.clock - s.vlt.stopAt) / 2000000) } })

/-- R351, R357 to R359, R369, R577: the end of a flush. Stage 4 needs E4 and is skipped without it; it leaves the final ledger, pair and life
records; stage 5 shuts every drive down, HOLD_EN falls after it, and a RESET# still low then takes effect. An orderly shutdown ends done, or
restarts for a soft reset. On recovery with the drive copies confirmed the device runs again with its content. -/
def Obligations.FlushEndsAndResumes : Prop :=
  ∀ s : State, s.on = true →
    (s.vlt.st = .s3 → s.vlt.drivesDone = true → s.vlt.orderly = true ∨ s.vlt.recovered = false →
      (s.vlt.orderly = true ∨ s.floorE4 * tenthJoule ≤ s.vlt.eRem → Completes .stage3End s fun u =>
        u = { s with out := [], vlt := { s.vlt with eEnd := s.vlt.eRem, st := .s4 }, tap := u.tap } ∧ u.tap.buf = [] ∧ u.tap.flushing = true)
      ∧ (s.vlt.orderly = false → s.vlt.eRem < s.floorE4 * tenthJoule → s.slotsUp = 0 → Yields .stage3End s { s.hush with vlt := { s.vlt with eEnd := s.vlt.eRem, st := .s5, selfRefresh := true } })
      ∧ (∀ i x, i < 8 → s.vlt.orderly = false → s.vlt.eRem < s.floorE4 * tenthJoule → s.slotsUp = BitVec.ofNat 8 (2 ^ i) → s.slot i = x →
          Yields .stage3End s { s.hush.modSlot i (fun _ => { x with shutdown := true }) with vlt := { s.vlt with eEnd := s.vlt.eRem, st := .s5, selfRefresh := true } }))
    ∧ (s.vlt.st ≠ .s3 ∨ s.vlt.drivesDone = false ∨ (s.vlt.orderly = false ∧ s.vlt.recovered = true) → Yields .stage3End s s.hush)
    ∧ (s.vlt.st = .s4 ∨ s.vlt.tail = true → s.tap.flushing = false →
        let k := (s.boot.keep 3).keep 4
        let b := { k with pair := some s.pairRecord, ledger := some s.ledgerRecord, life := (s.boot.opmin, s.boot.cycles) :: s.boot.life.take (ringEntries - 1) }
        (s.vlt.orderly = false → s.vlt.tail = false → s.slotsUp = 0 → Yields .stage4End s { s.hush with boot := b, vlt := { s.vlt with st := .s5, selfRefresh := true } })
        ∧ (s.vlt.orderly = false → s.vlt.tail = true → Yields .stage4End s { s.hush with boot := b, vlt := { s.vlt with tail := false } })
        ∧ (s.vlt.orderly = true → s.vlt.soft = false → Yields .stage4End s { s with boot := b, vlt := { s.vlt with st := .shutdownDone }, out := [.shutdownDone] })
        ∧ (s.vlt.orderly = true → s.vlt.soft = true → s.boot.pendNc = 0 → Completes .stage4End s fun u => u.on = true ∧ u.vlt.st = .restore ∧ u.vlt.active = false ∧ u.vlt.held = s.vlt.held
            ∧ u.out = [.shutdownDone, .coldReset] ∧ u.boot = b ∧ u.pending = s.pending ∧ u.pmc.cnt = s.pmc.cnt ∧ u.pmc.ovf = s.pmc.ovf ∧ u.near = {} ∧ u.map = {} ∧ u.regions = []
            ∧ u.glb = { straps := s.glb.straps, present := s.glb.present, steward := s.glb.image.isSome, image := s.glb.image, mgmtHead := s.glb.mgmtHead } ∧ u.ports.laneRet = s.ports.laneRet
            ∧ (s.beam.commitOut = none → u.beam.commit = s.beam.commit)))
    ∧ (s.vlt.st = .s5 → s.pins.reset = false → Yields .holdEnDeassert s { s.hush with vlt := { s.vlt with hold := false, st := .wait } })
    ∧ (s.vlt.st = .s5 → s.pins.reset = true → s.beam.commitOut = none → Completes .holdEnDeassert s fun u => u.on = false ∧ u.vlt = {} ∧ u.boot = s.boot ∧ u.pending = s.pending)
    ∧ (s.vlt.st ≠ .s5 → Yields .holdEnDeassert s s.hush)
    ∧ (s.vlt.drivesDone = true → s.vlt.recovered = true → s.vlt.orderly = false → s.vlt.st ∈ [.s3, .s4, .s5, .wait] → s.vlt.held = [] → s.coh.txns = [] → s.coh.heldBirsp = [] →
        s.near.wbRetry = [] → s.rng.seals = [] → s.sec.cmd = none → s.pins.reset = false → (∀ h, (s.head h).kept = 0 ∧ (s.head h).waitQ = []) →
        Completes .resume s fun u => u = { s with
          out := []
          vlt := { s.vlt with
            st := if s.vlt.braceOn then .brace else .run
            tail := decide (s.vlt.st = .s4), selfRefresh := false, hold := false, stopped := false, held := [], snap := none, resumeKind := 1, writable := true, drivesDone := false
            drained := false, stage1 := false, stage2 := false, left := 0 }
          beam := { s.beam with slots := u.beam.slots, spillOut := [], commitOut := none }
          slv := { s.slv with stopMack := false } }
        ∧ (s.beam.slots.wf {} = true → ∀ i, u.slot i = { s.slot i with shutdown := false }))
    ∧ (s.vlt.drivesDone = false ∨ s.vlt.recovered = false ∨ s.vlt.orderly = true → Yields .resume s s.hush)

/-- R564 to R566, R568, R599, R600: supplies, RESET# and heat. Lost supplies, RESET# and THERMTRIP leave only the boot flash, the drives and the
wrapped keys; a flush ignores RESET#; at supply-good the straps are sampled and the running minutes resume; THERM_ALERT# is set from 100
degrees and holds until below 95. -/
def Obligations.SuppliesResetAndHeat : Prop :=
  ∀ s : State,
    let off := fun (u : State) (trip : Bool) => u = { freeIdx := u.freeIdx, pending := s.pending, out := u.out, boot := s.boot, pins := { thermTrip := trip }, beam := u.beam
                                                      dram := { ch := s.boot.channels, fullNext := flag s.dram.ctl 16 }, sec := { wrap := s.sec.wrap, draws := s.sec.draws } }
      ∧ u.on = false ∧ u.beam.setId = 0 ∧ u.beam.sbgen = s.beam.sbgen ∧ (s.beam.commitOut = none → u.beam.commit = s.beam.commit)
      ∧ (s.beam.recs.wf none = true → ∀ a, u.beam.recs.get none a = match s.beam.recs.get none a with
          | some r => if r.confirmed then some { r with purpose := .none } else none
          | none => none)
    (s.on = true → Completes .supplyFail s fun u => off u s.pins.thermTrip ∧ u.out = [])
    ∧ (s.on = true → Completes .thermtrip s fun u => off u true ∧ u.out = [.thermTrip])
    ∧ (s.on = true → s.vlt.hold = false → Completes .resetAssert s fun u => off u s.pins.thermTrip ∧ u.out = [])
    ∧ (s.on = false ∨ s.vlt.hold = true → Yields .resetAssert s { s.hush with pins := { s.pins with reset := true } })
    ∧ (s.on = true → ∀ x f, Yields (.supplyGood x f) s { s.hush with pins := { s.pins with reset := false } })
    ∧ (s.on = false → s.beam.commitOut = none → ∀ x f, Completes (.supplyGood x f) s fun u =>
        let r := s.boot.readRecords f
        u.on = true ∧ u.clock = 0 ∧ u.pending = s.pending ∧ u.pins = { reset := false }
        ∧ u.glb = { straps := x, present := strapHeads x, steward := (bootImage f.images).isSome, image := bootImage f.images, mgmtHead := Trw.all (atBit (strapMgmt x) 0) }
        ∧ (∀ e l, r.life = e :: l → u.boot.opmin = e.1 ∧ u.boot.cycles = (e.2 + 1) % 2 ^ 24)
        ∧ (r.life = [] → u.boot.opmin = 0 ∧ u.boot.cycles = 0)
        ∧ u.boot = { r with opmin := u.boot.opmin, cycles := u.boot.cycles, life := (u.boot.opmin, u.boot.cycles) :: r.life.take (ringEntries - 1)
                            gens := u.boot.gens, old := u.boot.old, retNc := u.boot.retNc, pendNc := u.boot.pendNc }
        ∧ (∀ j, j < 256 → u.boot.retNc.getLsbD j = (r.retNc.getLsbD j || r.pendNc.getLsbD j))
        ∧ u.vlt.st = .restore ∧ u.vlt.active = false ∧ u.regions = [] ∧ u.near.nc = [] ∧ u.near.wb = [] ∧ u.coh = {} ∧ u.map = {}
        ∧ (r.pendNc = 0 → u.out = [.coldReset] ∧ u.heads = [] ∧ u.near = {} ∧ u.flt = {} ∧ u.pmc = {} ∧ u.tap = {})
        ∧ (∀ b, r.board = some b → u.rsv.bank = Trw.all b.bank ∧ u.rsv.flush = Trw.all b.flush ∧ u.rsv.sense = Trw.all b.sense ∧ u.vlt.floor = Trw.all b.floor)
        ∧ (r.board = none → u.rsv.bank = {} ∧ u.vlt.floor = {} ∧ u.rsv.fcause.getLsbD 4 = true)
        ∧ (f.bad = 0 → f.badTests = [] → f.badLife = [] → r = { s.boot with board := newestBoard f.boards }))
    ∧ (s.on = true → s.pins.sensorAt + 2000000 ≤ s.clock → ∀ t : Nat, 
        let w := fun (a : Bool) => { s.hush with pins := { s.pins with sensorAt := s.clock, thermAlert := a }, tap := (s.minuteMax (4096 + 4 * 256) t).tap }
        (100 ≤ t → Yields (.thermalSensorRead [t]) s (w true))
        ∧ (t < 95 → Yields (.thermalSensorRead [t]) s (w false))
        ∧ (95 ≤ t → t < 100 → Yields (.thermalSensorRead [t]) s (w s.pins.thermAlert)))
    ∧ (s.on = true → s.pins.sensorAt + 2000000 ≤ s.clock → ∀ ts : List Nat, Completes (.thermalSensorRead ts) s fun u =>
        u = { s with out := [], tap := u.tap, pins := { s.pins with sensorAt := s.clock, thermAlert := u.pins.thermAlert } }
        ∧ ((∃ t ∈ ts, 100 ≤ t) → u.pins.thermAlert = true)
        ∧ ((∀ t ∈ ts, t < 95) → u.pins.thermAlert = false)
        ∧ ((∀ t ∈ ts, t < 100) → (∃ t ∈ ts, 95 ≤ t) → u.pins.thermAlert = s.pins.thermAlert))

/-- R29, R292, R308, R361, R362, R364, R572 to R574: cold restore. The recorded set with 7 slots is assembled from its newest commit record,
with fewer the device waits; step 6 merges spilled lines and checks each restored entry, which is ACTIVE again without INIT; memory active
clears MEM_OFF and starts the map loader; first-time initialisation draws a SET_ID and writes commit record 1. -/
def Obligations.RestoresReachMemoryActive : Prop :=
  ∀ s : State, s.on = true → s.vlt.st = .restore → s.vlt.active = false →
    (∀ ds, s.beam.setId ≠ 0 ∨ s.beam.waiting = true ∨ s.glb.steward = false → Yields (.beamAssemble ds) s s.hush)
    ∧ (∀ ds id, s.beam.setId = 0 → s.beam.waiting = false → s.glb.steward = true → s.boot.setId = id → id ≠ 0 → ds ≠ [] →
        (∀ d ∈ ds, usable d = true ∧ d.blank = false ∧ d.setId = id) →
        ((s.setSlots ds id).length < 7 → Completes (.beamAssemble ds) s fun u =>
          ∃ t p hs o, u = { s with out := o, heads := hs, tap := t, pmc := p, beam := { s.beam with waiting := true }
                                   flt := s.flt.enter (Note.words ⟨2, 0x1D, (s.setSlots ds id).length, none⟩) })
        ∧ (∀ c, 7 ≤ (s.setSlots ds id).length → s.sec.wrap.ours = true → s.selectCommit id = some c → (∀ e ∈ s.beam.segs, e.2.st = .free ∨ e.2.seq < c.seqNext) → c.regions.wf {} = true →
            Completes (.beamAssemble ds) s fun u =>
              u = { s with out := u.out, beam := u.beam, regions := u.regions, map := { s.map with units := u.map.units, gens := u.map.gens, swatches := u.map.swatches, takes := u.map.takes }
                           slv := { s.slv with rgns := u.slv.rgns, session := u.slv.session, peerSet := u.slv.peerSet }, sec := u.sec, vlt := u.vlt }
              ∧ u.beam.setId = id ∧ u.beam.commit = some c ∧ u.beam.cseq = c.cseq ∧ u.beam.seqNext = c.seqNext ∧ u.beam.base = c.base ∧ u.map.units = c.base.directory
              ∧ u.sec.bkek = some s.sec.wrap.bkek ∧ u.sec.salts = s.sec.wrap.salts ∧ u.vlt.active = false
              ∧ ∀ n, u.region n = { c.regions.get {} n with active := false, err := 0, wasInForce := (c.regions.get {} n).active || (c.regions.get {} n).wasInForce, aliasBroken := false }))
    ∧ (s.beam.setId = 0 → s.beam.waiting = false → s.glb.steward = true → s.glb.straps.setRelease = true → s.boot.setId ≠ 0 → Completes (.beamAssemble []) s fun u =>
        u.boot = { s.boot.keep 0 with setId := 0 } ∧ u.beam.waiting = true ∧ u.beam.setId = 0)
    ∧ (∀ ds, s.beam.setId = 0 → s.beam.waiting = false → s.glb.steward = true → s.boot.setId = 0 → s.glb.straps.beamInit = true → 7 ≤ ds.length → (∀ d ∈ ds, usable d = true ∧ d.blank = true) →
        Yields (.beamAssemble ds) s { s.hush with beam := { s.beam with found := ds } }
        ∧ (s.beam.found = [] ∨ s.beam.found = ds → s.vlt.held = [] → s.vlt.outcome ≠ 2 → Completes (.firstTimeInit ds) s fun u =>
            u.vlt.active = true ∧ u.vlt.st = (if s.vlt.braceOn then .brace else .run) ∧ u.beam.setId ≠ 0 ∧ u.boot.setId = u.beam.setId ∧ u.beam.sbgen = 2 ∧ u.beam.cseq = 1 ∧ u.beam.seqNext = 2
            ∧ u.beam.commit = u.boot.commit ∧ (∃ c, u.beam.commit = some c ∧ c.cseq = 1 ∧ c.kind = .checkpoint ∧ c.seqNext = 2 ∧ c.regions = [] ∧ c.gens = [] ∧ c.swatches = [])
            ∧ u.sec.salts = [] ∧ u.sec.bkek = some u.sec.wrap.bkek ∧ u.sec.wrap.custodian = s.boot.custodian ∧ u.sec.wrap.ours = true ∧ u.regions = s.regions))
    ∧ (∀ ds, s.beam.setId ≠ 0 ∨ s.beam.waiting = true ∨ s.boot.setId ≠ 0 ∨ s.glb.straps.beamInit = false → Yields (.firstTimeInit ds) s s.hush)
    ∧ (s.beam.setId ≠ 0 → s.vlt.step6 = false → s.loggedDeltas s.beam.deltaSegs s.beam.seqNext = [] → s.map.swatches = [] →
        (∀ c, s.beam.commit = some c → 
          (c.spills = [] → s.regions = [] → Yields .coldRestoreStep6 s { s.hush with vlt := { s.vlt with step6 := true } })
          ∧ (∀ k line d m f, c.spills = [.lines k [(line, d, m, false)]] → s.regions = [] → (s.unit (line / 64 / 512)).bdur = true → (s.unit (line / 64 / 512)).dstate ≠ .unloaded →
              (s.page (line / 64)).place = .t1 f →
              Yields .coldRestoreStep6 s { s.hush.setCell f (line % 64) ((s.cell f (line % 64)).put d m false) with vlt := { s.vlt with step6 := true } })
          ∧ (∀ n r, c.spills = [] → s.regions = [(n, r)] → r.valid = true → r.wasInForce = true → r.mapped = true →
              (s.regionCheck n none r = 0 → Yields .coldRestoreStep6 s { s.hush with
                regions := [(n, { r with active := true, err := 0, wasInForce := false, aliasBroken := false })], vlt := { s.vlt with step6 := true } })
              ∧ (∀ e, s.regionCheck n none r = e → e ≠ 0 → n < 4096 → Completes .coldRestoreStep6 s fun u => ∃ t p, u = { s with
                  out := [], tap := t, pmc := p, flt := s.flt.enter (Note.words ⟨1, 0x04, n + e % 64 * 4096, none⟩)
                  regions := [(n, { r with err := e, active := false })], vlt := { s.vlt with step6 := true } }))))
    ∧ (s.beam.setId = 0 ∨ s.vlt.step6 = true → Yields .coldRestoreStep6 s s.hush)
    ∧ (s.vlt.step6 = true → s.vlt.outcome ≠ 2 → s.vlt.held = [] → s.heads.wf {} = true → Completes .memoryActive s fun u =>
        u = { s with
          out := [], heads := u.heads
          map := { s.map with mapLoad := ! s.beam.coldUnits.isEmpty, warm := u.map.warm, warming := true, warmDone := false }
          vlt := { s.vlt with active := true, activeMs := min 65535 (s.clock / 2000000), st := if s.vlt.braceOn then .brace else .run, resumeKind := 2 } }
        ∧ ∀ h, u.head h = if (s.head h).link.up then { s.head h with link := { (s.head h).link with memOff := (s.head h).link.dropped || ! (s.head h).link.cxl } } else s.head h)
    ∧ (s.vlt.step6 = false → Yields .memoryActive s s.hush)

/-- R31, R48 to R54, R57: region entries. Only the management side writes them. Clearing VALID clears ACTIVE, ERR and DLOST and breaks alias
windows over the entry, and releases no page; a failed check reports its code and leaves an entry inactive, or an ACTIVE one as it was; an
entry with INIT = KEEP waits for the binding comparison, one with INIT = ZERO reads as zeros at once; its units take its DURABLE and KEY. -/
def Obligations.RegionEntriesComeAndGo : Prop :=
  ∀ (s : State) (src n w : Nat) (v : Word), s.on = true → s.reaches src = true → n < 4096 → w < 4 → s.regions.wf {} = true →
    let r := s.region n
    let r1 := r.putWord w v
    let mark := fun (x : Region) => if w = 1 then { x with wrote := some s.clock } else x
    let reports := fun (u : State) (c : Nat) => ∃ t p, u = { s with out := [], regions := u.regions, flt := s.flt.enter (Note.words ⟨1, 0x04, n + c % 64 * 4096, none⟩), tap := t, pmc := p, slv := { s.slv with rgns := u.slv.rgns } }
    (s.isMgmt src = false → Completes (.rgnWrite src n w v) s fun u => ∃ t p, u = { s with out := [], tap := t, pmc := p, flt := s.flt.enter (Note.words ⟨1, 0x03, src % 32 + n * 32 + 2 ^ 18, some (regArgInd (0x10000 + 4 * n + w))⟩) })
    ∧ (s.isMgmt src = true → s.rng.seals = [] → s.slv.pair = .off → (w = 1 → r.took ≠ some s.clock) →
        (r1.valid = false → Completes (.rgnWrite src n w v) s fun u =>
          u = { s with out := [], regions := u.regions, near := { s.near with nc := u.near.nc }, coh := { s.coh with lent := u.coh.lent }, slv := { s.slv with rgns := u.slv.rgns } }
          ∧ (r.active = false ∨ r.window ≠ 3 → u.near.nc = s.near.nc ∧ u.coh.lent = s.coh.lent)
          ∧ u.region n = mark { r1 with active := false, err := 0, wasInForce := false, dlost := false, aliasBroken := false }
          ∧ ∀ k, k ≠ n → u.region k = if (s.region k).active && (s.region k).window = 3 && (s.region k).peer = n then { s.region k with aliasBroken := true } else s.region k)
        ∧ (∀ c, r1.valid = true → r.active = true → c = s.regionCheck n (some r) r1 →
            (r.fixedEq r1 = false → c = 0x09)
            ∧ (c ≠ 0 → Completes (.rgnWrite src n w v) s fun u => reports u c ∧ u.region n = mark { r with err := c } ∧ ∀ k, k ≠ n → u.region k = s.region k)
            ∧ (c = 0 → Completes (.rgnWrite src n w v) s fun u => u = { s with out := [], regions := u.regions, near := { s.near with nc := u.near.nc }, coh := { s.coh with lent := u.coh.lent }, slv := { s.slv with rgns := u.slv.rgns } }
                ∧ (r1.window ≠ 3 → u.near.nc = s.near.nc ∧ u.coh.lent = s.coh.lent)
                ∧ (r1.window = 3 → ∀ k w, u.near.nc.get {} k = w → w.v = true → w.d = false →
                    ncLine (k / 16 % 32768) w.tag < r1.base * 32768 ∨ (r1.base + r1.size) * 32768 ≤ ncLine (k / 16 % 32768) w.tag)
                ∧ u.region n = mark { r1 with err := 0, aliasBroken := false } ∧ ∀ k, k ≠ n → u.region k = s.region k))
        ∧ (∀ c, r1.valid = true → r.active = false → c = s.regionCheck n none r1 →
            (r1.size = 0 ∨ 2 ^ 24 < r1.base + r1.size → c = 0x02)
            ∧ (c ≠ 0 → Completes (.rgnWrite src n w v) s fun u => reports u c ∧ u.region n = mark { r1 with err := c, active := false } ∧ ∀ k, k ≠ n → u.region k = s.region k)
            ∧ (c = 0 → r.wasInForce = false → r1.mapped = true → r1.initZero = false → Completes (.rgnWrite src n w v) s fun u =>
                u = { s with out := [], regions := u.regions, slv := { s.slv with rgns := u.slv.rgns } }
                ∧ u.region n = mark { r1 with err := 0x0A, active := false } ∧ ∀ k, k ≠ n → u.region k = s.region k)
            ∧ (c = 0 → r.wasInForce = false → r1.mapped = true → r1.initZero = true → s.near.wb = [] → s.map.swatches = [] → r1.window ≠ 3 → s.map.pages.wf {} = true → s.map.units.wf {} = true →
                Completes (.rgnWrite src n w v) s fun u =>
                  u.region n = mark { r1 with active := true, err := 0, wasInForce := false, aliasBroken := false } ∧ (∀ k, k ≠ n → u.region k = s.region k)
                  ∧ (∀ q, r1.base ≤ q → q < r1.base + r1.size → (u.unit q).binding = ⟨true, r1.durable, r1.key⟩ ∧ ∀ pn, pn / 512 = q → u.page pn = {}))
            ∧ (c = 0 → r.wasInForce = false → r1.window = 2 → r1.mapped = false → r1.keep = false → Completes (.rgnWrite src n w v) s fun u =>
                u = { s with out := [], regions := u.regions, slv := { s.slv with rgns := u.slv.rgns } }
                ∧ u.region n = mark { r1 with active := true, err := 0, wasInForce := false, aliasBroken := false } ∧ ∀ k, k ≠ n → u.region k = s.region k)))
    ∧ (s.isMgmt src = true → s.rng.seals = [] → s.slv.pair = .off → w = 1 → r.took = some s.clock → r.active = true →
        let r2 := r.putWord 1 (putFld v 12 3 r.window)
        r2.valid = true → s.regionCheck n (some r) r2 = 0 → r2.window ≠ 3 → Completes (.rgnWrite src n w v) s fun u =>
          u = { s with out := u.out, heads := u.heads, regions := u.regions, flt := s.flt.enter (Note.words ⟨1, 0x02, regArgInd (0x10001 + 4 * n), none⟩), tap := u.tap, pmc := u.pmc, slv := { s.slv with rgns := u.slv.rgns } }
          ∧ u.region n = { r2 with err := 0, aliasBroken := false } ∧ r2.window = r.window ∧ ∀ k, k ≠ n → u.region k = s.region k)
    ∧ (s.rng.seals = [] → s.slv.pair = .off → r.valid = true → r.active = false → r.err = 0x0A → s.regionCheck n none r = 0 →
        (s.keepMismatch r = true → Completes (.rgnBindingCompareDone n) s fun u => reports u 6 ∧ u.region n = { r with err := 6 } ∧ ∀ k, k ≠ n → u.region k = s.region k)
        ∧ (s.keepMismatch r = false → r.mapped = true → r.initZero = false → r.window ≠ 3 → r.window ≠ 2 → s.map.units.wf {} = true → Completes (.rgnBindingCompareDone n) s fun u =>
            u = { s with out := [], regions := u.regions, slv := { s.slv with rgns := u.slv.rgns }, map := { s.map with units := u.map.units }, beam := { s.beam with deltas := u.beam.deltas, deltaAt := u.beam.deltaAt, coldUnits := u.beam.coldUnits, cold := { s.beam.cold with pages := u.beam.cold.pages } } }
            ∧ u.region n = { r with active := true, err := 0, wasInForce := false, aliasBroken := false } ∧ (∀ k, k ≠ n → u.region k = s.region k)
            ∧ ∀ q, (u.unit q).binding = if r.base ≤ q ∧ q < r.base + r.size then ⟨true, r.durable, r.key⟩ else (s.unit q).binding))
    ∧ (r.valid = false ∨ r.active = true ∨ r.err ≠ 0x0A → Yields (.rgnBindingCompareDone n) s s.hush)
    ∧ (r.dlost = true → s.regionDirty r = false → Yields (.dlostClear n) s (s.hush.modRegion n fun _ => { r with dlost := false }))
    ∧ (r.dlost = false ∨ s.regionDirty r = true → Yields (.dlostClear n) s s.hush)

/-- R443, R444, R455, R461, R462: the selvedge link. EN starts training and ends it; a training that reaches step 3 starts the credits, the
sequence numbers and the FIFOs anew and sends HELLO; a link that leaves L0 keeps them and puts a PAIRED pair on HOLD, which is PAIRED again
within 50 us and SOLO after; a lane retired narrows the link, or holds it down below MIN_WIDTH. R438, R439, R450, R453, R455, R461: pairing.
A HELLO that meets every condition makes the lower SET_ID the LEAD; one that does not is refused with the first condition that fails and
repeated; the SPDM exchange gives IDE keys, and LEAD's SESSION, one above both last values, pairs both devices with their counts at 0;
HEALTH, FALLBACK and XOFF are kept; an undefined packet is discarded with a notice. -/
def Obligations.SelvedgeLinkAndPairing : Prop :=
  (∀ (s : State) (v : Slv), s.on = true → s.slv = v →
    (∀ src w, s.reaches src = true → s.isMgmt src = true →
      (v.en = false → flag w 0 = true → v.pair = .off → v.l0 = false →
        Yields (.slvEn src w) s { s.hush with slv := { v with ctl := w &&& 0xFFFFFFF7F, pair := .seek } })
      ∧ (v.en = true → flag w 0 = false → v.pair ≠ .paired → v.pair ≠ .hold → s.rng.seals = [] →
        Yields (.slvEn src w) s { s.hush with slv := { v with
          ctl := w &&& 0xFFFFFFF7F, pair := .off, l0 := false, detected := false, ide := false, recovering := false, peer := none, rmap := []
          delay := v.delay
          tx := { v.tx with replay := [], waiting := v.tx.waiting.filter fun e => e.1 = 0, fifo := v.tx.fifo.restrict fun c _ => c = 0 } } }))
    ∧ (v.en = true → s.slvHeldDown = false → s.vlt.stopped = false → (v.pair = .seek ∨ v.pair = .solo) → v.l0 = false →
        (v.retryAt ≤ s.clock → Yields .slvReceiverDetect s { s.hush with slv := { v with detected := true, recovering := false, ide := false } })
        ∧ (∀ rate width, v.detected = true → rate ≤ v.maxRate → v.minWidth ≤ width → width ≤ s.slvLaneWidth →
          Yields (.slvTrainingStep3 rate width) s (State.slvPush { s.hush with slv := { v with
            l0 := true, rate := rate, width := width, ide := false, recovering := false, refused := false, peer := none, rmap := []
            fbTx := false, fbRx := flag v.ctl 3, pinOn := flag v.ctl 4
            tx := { credits := [(0, 64), (1, 256), (2, 64), (3, 128), (4, 1024)] }, rx := {} } } 0 s.helloWords)))
    ∧ (v.l0 = true →
        Yields .slvRecovery s { s.hush with slv := { v with
          l0 := false, recovering := true, pair := if v.pair = .paired then .hold else v.pair, holdAt := if v.pair = .paired then s.clock else v.holdAt } })
    ∧ (v.recovering = true → s.slvHeldDown = false → (v.pair = .hold → s.clock ≤ v.holdAt + 100000) →
        Yields .slvL0Regained s { s.hush with slv := { v with
          tx := { v.tx with replay := v.tx.replay.map fun f => { f with resent := 0 } }
          l0 := true, recovering := false, rate := min v.rate v.maxRate, width := min v.width s.slvLaneWidth, pair := if v.pair = .hold then .paired else v.pair } })
    ∧ (v.pair = .hold → v.holdAt + 100000 ≤ s.clock → s.rng.seals = [] → s.mirrorRegions = [] → v.rgns = [] →
        Yields .pairHoldTimeout s (State.note { s.hush with slv := { v with
          pair := .solo, l0 := false, detected := false, ide := false, recovering := false, peer := none, rmap := [], delay := [], sent := []
          parked := [], taken := [], pagesOut := [], reading := [], tx := { v.tx with replay := [], waiting := v.tx.waiting.filter fun e => e.1 = 0, fifo := v.tx.fifo.restrict fun c _ => c = 0 } } } ⟨2, 0x38, v.session, none⟩))
    ∧ (∀ n x, v.pair = .hold → v.holdAt + 100000 ≤ s.clock → s.rng.seals = [] → s.mirrorRegions = [n] → v.rgns = [(n, x)] → (s.region n).isSource = true →
        x.mst = 3 → x.div = 0 → v.delay = [] → v.sent = [] → v.parked = [] →
        Completes .pairHoldTimeout s fun u => u.slv.pair = .solo ∧ (u.slvRgn n) = { x with mst := 4, div := s.openDelta, copyNext := none, set := [], rdone := false })
    ∧ (∀ lane bad, lane < 8 → s.retireDue 8 lane = true → bad = putBit v.laneRet lane true →
        (v.l0 = false →
          Yields (.slvLaneRetire lane) s { s.hush.retireTaken 8 lane with slv := { v with laneRet := bad } })
        ∧ (∀ w, lanesWidth (List.range 8) bad = some w → v.minWidth ≤ w → v.l0 = true →
          Yields (.slvLaneRetire lane) s (State.note { s.hush.retireTaken 8 lane with slv := { v with
            laneRet := bad, l0 := false, recovering := true
            pair := if v.pair = .paired then .hold else v.pair, holdAt := if v.pair = .paired then s.clock else v.holdAt } } ⟨1, 0x34, min v.width w, none⟩))
        ∧ ((∀ w, lanesWidth (List.range 8) bad = some w → w < v.minWidth) → v.l0 = true →
          Completes (.slvLaneRetire lane) s fun u => u.slvHeldDown = true ∧ u = { s.hush.retireTaken 8 lane with slv := { v with
            laneRet := bad, l0 := false, recovering := true
            pair := if v.pair = .paired then .hold else v.pair, holdAt := if v.pair = .paired then s.clock else v.holdAt } })))
  ∧ (∀ (s : State) (v : Slv), s.on = true → s.slv = v →
    (∀ (p : HelloPacket) id, v.l0 = true → v.pairId.read [(0, 64)] = id →
      (v.en = true → s.beam.setId ≠ 0 → p.setId ≠ 0 → id ≠ 0 → p.pairId = id → fld p.glbRev 24 8 = fld glbRev 24 8 → p.setId ≠ s.beam.setId →
        Yields (.hello p) s { s.hush with slv := { v with
          peer := some p, fbTx := v.fbTx || p.fc, peerHealth := p.health, refused := false, follow := decide (p.setId.toNat < s.beam.setId.toNat) } })
      ∧ (∀ c, (c = 2 ∧ v.en = true ∧ s.beam.setId ≠ 0 ∧ p.setId ≠ 0 ∧ (id = 0 ∨ p.pairId ≠ id)) ∨ (c = 0 ∧ v.en = false) ∨ (c = 1 ∧ v.en = true ∧ (s.beam.setId = 0 ∨ p.setId = 0))
            ∨ (c = 4 ∧ v.en = true ∧ p.setId = s.beam.setId ∧ p.setId ≠ 0 ∧ id ≠ 0 ∧ p.pairId = id ∧ fld p.glbRev 24 8 = fld glbRev 24 8) →
        Yields (.hello p) s (State.note { s.hush with slv := { v with
          peer := some p, fbTx := v.fbTx || p.fc, peerHealth := p.health, refused := true, helloAt := s.clock } } ⟨1, 0x32, c, none⟩)))
    ∧ (v.refused = true → v.l0 = true → v.helloAt + 2000000000 ≤ s.clock → s.slvRoom 0 s.helloWords.length = true → (v.tx.waiting.any fun e => e.1 = 0) = false →
        Completes .helloRetry s fun u =>
          (u.slv.tx.fifo.get [] 0).map Prod.fst = (v.tx.fifo.get [] 0).map Prod.fst ++ s.helloWords
          ∧ u = { s with out := [], slv := { v with helloAt := s.clock, tx := { v.tx with fifo := u.slv.tx.fifo } } })
    ∧ (∀ p, v.l0 = true → v.ide = false → v.peer = some p → s.helloFails p = none →
        (∀ n, Yields (.slvSpdm n false) s { s.hush with slv := { v with
          retryAt := s.clock + 2000000000, l0 := false, detected := false, ide := false, recovering := false, peer := none, rmap := [] } })
        ∧ Yields (.slvSpdm 0 true) s s.hush
        ∧ (∀ n, n ≠ 0 → v.follow = true → Yields (.slvSpdm n true) s { s.hush with slv := { v with ide := true, tx := { v.tx with nonce := 0 } } })
        ∧ (∀ n, n ≠ 0 → v.follow = false → Completes (.slvSpdm n true) s fun u =>
          u.slv.pair = .paired ∧ u.slv.session = (max v.session p.session + 1) % 2 ^ 32 ∧ u.slv.peerSet = p.setId ∧ u.slv.mackCount = 0 ∧ u.slv.rackCount = 0
          ∧ u = { s with out := [], slv := u.slv }))
    ∧ (∀ x, v.l0 = true → v.ide = true → v.follow = true → v.pair ≠ .paired → v.pair ≠ .off → s.mirrorRegions = [] → v.rgns = [] →
        Completes (.session x) s fun u =>
          u.slv.pair = .paired ∧ u.slv.session = x % 2 ^ 32 ∧ u.slv.mackCount = 0 ∧ u.slv.rackCount = 0 ∧ u.slv.rx.macks = 0 ∧ u.slv.rx.racks = 0
          ∧ (s.slvRoom 0 1 = true → (v.tx.waiting.any fun e => e.1 = 0) = false → u.slv.tx.waiting = v.tx.waiting ∧ (u.slv.tx.fifo.get [] 0).map Prod.fst = (v.tx.fifo.get [] 0).map Prod.fst ++ [0x104])
          ∧ u = { s with out := [], slv := { v with
            pair := .paired, session := x % 2 ^ 32, peerSet := u.slv.peerSet, mackCount := 0, rackCount := 0, taken := [], pagesOut := [], sent := [], parked := []
            tx := { v.tx with sentMack := 0, sentRack := 0, sentHealth := none, fifo := u.slv.tx.fifo, waiting := u.slv.tx.waiting }
            rx := { v.rx with mwrs := [], macks := 0, pages := [], racks := 0 } } })
    ∧ (v.ide = true → ∀ h w, Yields (.health h w) s { s.hush with slv := { v with peerHealth := h, peerWithhold := w } })
    ∧ (v.l0 = true → Yields .fallback s { s.hush with slv := { v with fbTx := true } })
    ∧ Yields (.slvXoffIn true) s { s.hush with slv := { v with
        xoffPin := true, tx := { v.tx with sent0 := if v.fbTx = true ∧ (v.tx.xoff = true ∨ v.pinOn = true) then v.tx.sent0 else 0
                                           sent2 := if v.fbTx = true ∧ (v.tx.xoff = true ∨ v.pinOn = true) then v.tx.sent2 else 0 } } }
    ∧ (∀ t len, v.l0 = true → Yields (.undefinedPacket t len) s (s.hush.note ⟨1, 0x35, t % 256, none⟩)))

/-- R457 to R460, R464 to R466, R470: mirrored writes and resynchronisation. The oldest write, 1,000 FCLK old, goes to C1, waits behind its
page, or finds no room and leaves its region in RESYNC; the partner applies each as a DEV_WR of the masked bytes and MACK counts them; a
page of the resync set is sent whole, applied as 64 writes and counted by RACK; RDONE makes the window SYNC and COMPLETE, its RACK the
source. -/
def Obligations.MirroredWritesCross : Prop :=
  ∀ (s : State) (v : Slv), s.on = true → s.slv = v → s.rng.seals = [] →
    (∀ m ms x, v.delay = m :: ms → m.at_ + 1000 ≤ s.clock → s.slvRgn m.region = x → 1 ≤ x.mst → x.mst ≤ 3 →
      (v.taken = [] → v.pagesOut.contains (m.region, some (pageOf m.line)) = false → ∀ ws, ws = m.words (s.region m.region).peer ((s.region m.region).base * 32768) x.gap →
        (s.slvRoom 1 ws.length = true → (v.tx.waiting.any fun e => e.1 = 1) = false → Completes .mwrEnqueue s fun u =>
          u.slv.sent = v.sent ++ [m] ∧ (u.slv.tx.fifo.get [] 1).map Prod.fst = (v.tx.fifo.get [] 1).map Prod.fst ++ ws ∧ (u.slvRgn m.region) = { x with gap := false }
          ∧ u = { s with out := [], pmc := u.pmc, slv := { v with delay := ms, sent := u.slv.sent, rgns := u.slv.rgns, tx := { v.tx with fifo := u.slv.tx.fifo } } })
        ∧ (s.slvRoom 1 ws.length = false → x.mst = 3 → x.set.contains (pageOf m.line) = false → Completes .mwrEnqueue s fun u =>
          (u.slvRgn m.region) = { x with set := x.set ++ [pageOf m.line], mst := 2, div := if x.div = 0 then m.seq else x.div, gap := true }
          ∧ u.flt = s.flt.enter (Note.words ⟨1, 0x37, m.region, none⟩)
          ∧ u = { s with out := u.out, pmc := u.pmc, tap := u.tap, heads := u.heads, flt := u.flt, slv := { v with delay := ms, rgns := u.slv.rgns } }))
      ∧ (v.pagesOut.contains (m.region, some (pageOf m.line)) = true → v.parked.length < 4096 →
        Yields .mwrEnqueue s { s.hush with slv := { v with delay := ms, parked := v.parked ++ [m] } }))
    ∧ (v.l0 = true → v.ide = true → v.pair ≠ .off → v.pair ≠ .seek →
      (s.vlt.stopped = false → ∀ mreg r o full gap prio mask data, s.region mreg = r →
        ((r.isMirror = false ∨ (s.slvRgn mreg).mst = 5 ∨ r.size * 32768 ≤ o / 64) →
          Yields (.mwr mreg o full gap prio mask data) s ((State.note { s.hush with slv := { v with rx := { v.rx with serial := v.rx.serial + 1, mwrs := v.rx.mwrs ++ [v.rx.serial] } } } ⟨1, 0x33, mreg, none⟩).countApplied))
        ∧ (r.isMirror = true → (s.slvRgn mreg).mst ≠ 5 → o / 64 < r.size * 32768 →
          Yields (.mwr mreg o full false prio mask data) s
            ((State.route { s.hush with slv := { v with rx := { v.rx with serial := v.rx.serial + 1, mwrs := v.rx.mwrs ++ [v.rx.serial] } } }
              { src := .partner v.rx.serial, kind := .devWr, line := r.base * 32768 + o / 64, data := data, mask := if full = true then fullMask else mask, be := prio = 1 }).countApplied)))
      ∧ (v.rgns = [] → ∀ count h w, Yields (.mack count h w) s { s.hush with slv := { v with
          peerHealth := h, peerWithhold := w, mackCount := count, sent := v.sent.drop ((count + 2 ^ 32 - v.mackCount) % 2 ^ 32) } })
      ∧ (∀ n x, v.rgns = [(n, x)] → v.pagesOut = [(n, none)] → (s.region n).isSource = true → ∀ count, count = v.rackCount + 1 → count < 2 ^ 32 →
        Completes (.rack count) s fun u =>
          (u.slvRgn n) = { x with mst := 3, div := 0, copyNext := none, rdone := false }
          ∧ u = { s with out := [], slv := { v with rackCount := count, pagesOut := [], rgns := u.slv.rgns } })
      ∧ (∀ n pn, v.rgns = [] → v.pagesOut = [(n, some pn)] → v.parked = [] → ∀ count, count = v.rackCount + 1 → count < 2 ^ 32 →
        Yields (.rack count) s { s.hush with slv := { v with rackCount := count, pagesOut := [] } })
      ∧ (s.vlt.stopped = false → ∀ mreg page ses r, s.region mreg = r →
        (ses ≠ v.session → (∀ form data, Yields (.rpage mreg form page ses data) s (s.hush.note ⟨1, 0x35, 0x30, none⟩))
          ∧ Yields (.rdone mreg ses) s (s.hush.note ⟨1, 0x35, 0x31, none⟩))
        ∧ (ses = v.session → r.isMirror = true → (s.slvRgn mreg).mst ≠ 5 → page < r.size * 512 →
          (∀ data, (s.slvRgn mreg).fresh = false → Yields (.rpage mreg 2 page ses data) s
            ((((List.range 64).foldl (fun (t : State) i => t.route { src := .partner v.rx.serial, kind := .devWr, line := (r.base * 512 + page) * 64 + i, data := 0, mask := fullMask, poison := true, be := true, low := 5 })
              ((State.modSlv { s.hush with slv := { v with rx := { v.rx with serial := v.rx.serial + 1, pages := v.rx.pages ++ [v.rx.serial] } } } mreg fun x => { x with complete := false }))).countApplied)))
          ∧ Completes (.rdone mreg ses) s fun u =>
            (u.slvRgn mreg) = { s.slvRgn mreg with mst := 3, complete := true, held := false, div := if r.isSource = true then 0 else (s.slvRgn mreg).div }
            ∧ u = { s with out := [], slv := { v with rgns := u.slv.rgns, rx := { v.rx with serial := v.rx.serial + 1, mwrs := u.slv.rx.mwrs, macks := u.slv.rx.macks, pages := u.slv.rx.pages, racks := u.slv.rx.racks } } })))
    ∧ (∀ n x page pn qn ws, v.pair = .paired → s.slvRgn n = x → (s.region n).isSource = true → x.mst = 2 → x.copyNext = none → page < (s.region n).size * 512 →
        pn = (s.region n).base * 512 + page → qn ≠ pn → x.set = [pn, qn] → v.taken = [] → v.pagesOut = [] → v.delay = [] → v.sent = [] → v.parked = [] →
        ws = rpageWords (s.region n).peer (s.pageForm n pn).1 page v.session (s.pageForm n pn).2 → s.slvRoom 3 ws.length = true → (v.tx.waiting.any fun e => e.1 = 3) = false →
        ((∀ a, (s.page pn).place ≠ .t3 a) → Completes (.resyncPageSend n page) s fun u =>
          (u.slvRgn n) = { x with set := [qn] } ∧ u.slv.pagesOut = [(n, some pn)] ∧ (u.slv.tx.fifo.get [] 3).map Prod.fst = (v.tx.fifo.get [] 3).map Prod.fst ++ ws
          ∧ u = { s with out := [], pmc := u.pmc, slv := { v with rgns := u.slv.rgns, pagesOut := u.slv.pagesOut, tx := { v.tx with fifo := u.slv.tx.fifo } } })
        ∧ (∀ a, (s.page pn).place = .t3 a → v.reading = [] → Completes (.resyncPageSend n page) s fun u =>
          u.slv = { v with reading := [(n, pn)] } ∧ u = State.beamRead { s.hush with slv := { v with reading := [(n, pn)] } } a 5 false))

/-- R440, R461, R463, R464, R467 to R469: who holds a mirrored region. RMAP starts the copy of a source whose window matches and turns away one
whose window does not; TAKEOVER of a complete window that lost its source makes it writable; TAKEN holds the source back; RETURN lets its
pages come back; a PF_NOTICE parts the pair; a DELTA space held beyond DIV_SEGS makes every resync a full one. -/
def Obligations.MirrorsChangeSides : Prop :=
  ∀ (s : State) (n : Nat) (r : Region) (x : SlvRgn), s.on = true → s.region n = r → s.slvRgn n = x → s.rng.seals = [] →
    (s.slv.pair = .paired → s.mirrorRegions = [n] → r.isSource = true → ∀ es : List RmapEntry,
      ((∃ e ∈ es, e.index = r.peer ∧ e.window = true ∧ e.peer = n ∧ e.size = r.size) → x.mst = 5 → x.held = false → x.div = 0 →
        Yields (.rmap es) s (State.modSlv { s.hush with slv := { s.slv with rmap := es } } n fun _ => { x with mst := 1, copyNext := some 0, set := [], rdone := false }))
      ∧ ((∀ e ∈ es, ¬ (e.index = r.peer ∧ e.window = true ∧ e.peer = n ∧ e.size = r.size)) → x.mst ≠ 5 →
        Yields (.rmap es) s (State.note (State.modSlv { s.hush with slv := { s.slv with rmap := es } } n fun _ => { x with mst := 5 }) ⟨1, 0x33, n, none⟩)))
    ∧ (s.slv.pair = .paired → r.isSource = true → x.held = false →
        Yields (.taken n) s ((s.hush.modSlv n fun _ => { x with held := true, mst := 5, copyNext := none, set := [] }).note ⟨1, 0x30, n, none⟩))
    ∧ (s.slv.pair = .paired → r.isSource = true → x.held = true →
        Yields (.returnPkt n) s (s.hush.modSlv n fun _ => { x with mst := 7, fresh := true }))
    ∧ (∀ src, s.reaches src = true → s.isMgmt src = true → n < 4096 →
        (x.mst = 6 → s.slv.pair = .paired → r.anyWrite = false → (∃ e ∈ s.slv.rmap, e.index = r.peer ∧ e.window = false ∧ e.size = r.size) →
          Yields (.slvReturnGo src n) s ((s.hush.modSlv n fun _ => { x with mst := 7, copyNext := some 0, set := [], rdone := false }).slvPush 0 [0x209, atBit r.peer 0]))
        ∧ (x.mst ≠ 6 ∨ s.slv.pair ≠ .paired ∨ r.anyWrite = true → Yields (.slvReturnGo src n) s (s.hush.note ⟨1, 0x3A, n, none⟩)))
    ∧ ((s.slv.pair = .paired ∨ s.slv.pair = .hold) → s.slv.rgns = [] → s.mirrorRegions = [] →
        Yields .pfNotice s { s.hush with slv := { s.slv with pair := .solo, delay := [], sent := [], parked := [], taken := [], pagesOut := [], reading := [] } })
    ∧ (∀ q a, s.working q 0x70 a → (dAll a.words = true → ∀ ws, ws = (s.regions.filter fun e => s.takes e.1).map Prod.fst →
          ((s.slv.pair ≠ .solo ∧ s.slv.pair ≠ .off) ∨ ws = [] → Yields (.takeover q) s (s.hush.endDescriptor q 0x0E id))
          ∧ ((s.slv.pair = .solo ∨ s.slv.pair = .off) → ws ≠ [] → Yields (.takeover q) s ((ws.foldl (fun (t : State) n => t.takeWindow n) s.hush).endDescriptor q 0 fun a => { a with result := atBit ws.length 0 })))
        ∧ (dAll a.words = false → dRegion a.words = n →
        (r.active = false → Yields (.takeover q) s (s.hush.endDescriptor q 0x0C id))
        ∧ (r.active = true → r.isMirror = false → Yields (.takeover q) s (s.hush.endDescriptor q 0x04 id))
        ∧ (r.isMirror = true → (s.slv.pair ≠ .solo ∧ s.slv.pair ≠ .off) ∨ x.mst ≠ 4 ∨ x.complete = false → Yields (.takeover q) s (s.hush.endDescriptor q 0x0E id))
        ∧ (r.isMirror = true → (s.slv.pair = .solo ∨ s.slv.pair = .off) → x.mst = 4 → x.complete = true → ∀ t, t = ((s.hush.modRegion n fun _ => { r with attr := putFld r.attr 12 3 0, took := some s.clock }).modSlv n fun _ => { x with mst := 6 }).note ⟨1, 0x31, n, none⟩ →
          Yields (.takeover q) s ((if r.wrote = some s.clock then t.writeLost n else t).endDescriptor q 0 fun a => { a with result := 1 }))))
    ∧ (s.slv.divSegs < (s.beam.segs.keysWhere fun g _ => s.divHolds g).length →
        Completes .slvDivFull s fun u =>
          u.flt = s.flt.enter (Note.words ⟨1, 0x39, 0, none⟩)
          ∧ (s.slv.rgns.wf {} = true → ∀ m, (u.slvRgn m) = (if (s.slvRgn m).div = 0 then s.slvRgn m else { s.slvRgn m with div := 2 ^ 64 - 1 }))
          ∧ u = { s with out := u.out, pmc := u.pmc, tap := u.tap, heads := u.heads, flt := u.flt, slv := { s.slv with rgns := u.slv.rgns } })

/-- R445 to R449, R452, R454: flits. A flit that fails its CRC is dropped and counted; one that fails its integrity check takes the link out of
L0; a flit out of order is kept until those before it come; a good header brings acknowledgement, credits and XOFF; the builder resends
first, then sends C0, C2, C1 and C3 in this order with every eighth for C3, and a NULL flit otherwise; 4 us bring a flit again. -/
def Obligations.FlitsCross : Prop :=
  ∀ (s : State) (v : Slv), s.on = true → s.slv = v → v.l0 = true →
    (∀ h ws, h.cls < 4 →
      (∀ m, Yields (.dataFlit h ws false m) s (s.hush.count (evSlv 3) 1))
      ∧ (v.ide = true → Yields (.dataFlit h ws true false) s { s.hush with slv := { v with
          l0 := false, recovering := false, ide := false, detected := false, pair := if v.pair = .paired then .hold else v.pair, holdAt := if v.pair = .paired then s.clock else v.holdAt } })
      ∧ (∀ d, d = (h.seq + 4096 - v.rx.next) % 4096 → h.seq < 4096 → v.rx.next < 4096 → v.fbRx = false → v.rx.xoffOut = false →
        (2048 ≤ d → Yields (.dataFlit h ws true true) s (s.hush.takeHeader h))
        ∧ (0 < d → d < 2048 → v.rx.buf = [] → Yields (.dataFlit h ws true true) s ((s.hush.takeHeader h).modRx fun _ =>
            { v.rx with buf := [(h.seq, h.cls, ws.take (min 26 h.words))], ahead := max v.rx.ahead (d + 1) }))
        ∧ (d = 0 → v.rx.buf = [] → v.rx.stream.get [] h.cls = [] → ∀ w rest, ws.take (min 26 h.words) = w :: rest → rest.length + 1 < pktLen w →
          Yields (.dataFlit h ws true true) s ((s.hush.takeHeader h).modRx fun _ =>
            { v.rx with
              next := (v.rx.next + 1) % 4096, ahead := max v.rx.ahead 1 - 1, buf := []
              stream := v.rx.stream.set [] h.cls (w :: rest), left := v.rx.left.set [] h.cls (v.rx.left.get [] h.cls ++ [rest.length + 1]) }))))
    ∧ (∀ h, Yields (.nullFlit h false) s (s.hush.count (evSlv 3) 1)
        ∧ (h.nv = false → v.fbRx = false → v.rx.xoffOut = false → v.tx.credits.wf 0 = true → v.tx.seen.wf 0 = true → Completes (.nullFlit h true) s fun u =>
          u.slv.tx.replay = v.tx.replay.filter (fun f => ! decide ((h.ack + 4096 - f.seq) % 4096 < 2048)) ∧ u.slv.tx.xoff = h.xoff
          ∧ (∀ c x, (c, x) ∈ [(0, h.cc0), (1, h.cc1), (2, h.cc2), (3, h.cc3), (4, h.ccs)] →
              u.slv.tx.credits.get 0 c = v.tx.credits.get 0 c + (x + 4096 - v.tx.seen.get 0 c) % 4096 ∧ u.slv.tx.seen.get 0 c = x % 4096)
          ∧ u = { s with out := [], slv := { v with
            rx := { v.rx with ahead := u.slv.rx.ahead }
            tx := { v.tx with replay := u.slv.tx.replay, xoff := h.xoff, credits := u.slv.tx.credits, seen := u.slv.tx.seen, sent0 := u.slv.tx.sent0, sent2 := u.slv.tx.sent2 } } }))
    ∧ (∀ t, v.tx.builtAt + v.flitTime ≤ s.clock → (s.hush.modTx fun x => { x with builtAt := s.clock }).queueAcks.pushWaiting.slvThreshold = t →
        (∀ f, t.slv.tx.replay.find? (fun f => f.ask) = some f → 4 ≤ f.resent → Yields .flitBuild s t.slvLeaveL0) ∧
        (∀ f, t.slv.tx.replay.find? (fun f => f.ask) = some f → f.resent < 4 → Completes .flitBuild s fun u =>
          u.out = t.out ++ [.flit f.words] ∧ u.slv.tx.replay = t.slv.tx.replay.map (fun x => if x.seq = f.seq then { x with ask := false, sentAt := t.clock, resent := x.resent + 1 } else x)
          ∧ u = { t with out := u.out, pmc := u.pmc, slv := { t.slv with tx := { t.slv.tx with replay := u.slv.tx.replay } } })
        ∧ (t.slv.tx.replay.find? (fun f => f.ask) = none →
          (t.eligible 0 = false → t.eligible 1 = false → t.eligible 2 = false → t.eligible 3 = false →
            Yields .flitBuild s (t.emit (.flit (t.flitOut (t.headerNow ((t.slv.tx.seq + 4095) % 4096) 0 0) 1 []))))
          ∧ (∀ c ws, ((c = 0 ∧ t.eligible 0 = true) ∨ (c = 2 ∧ t.eligible 0 = false ∧ t.eligible 2 = true)
              ∨ (t.eligible 0 = false ∧ t.eligible 2 = false ∧ ((c = 1 ∧ t.eligible 1 = true ∧ (t.eligible 3 = true → t.slv.tx.turn % 8 ≠ 7)) ∨ (c = 3 ∧ t.eligible 3 = true ∧ (t.eligible 1 = true → t.slv.tx.turn % 8 = 7))))) →
              ws = (t.slv.tx.fifo.get [] c).take 26 →
            Completes .flitBuild s fun u => ∃ o, o = t.flitOut (t.headerNow t.slv.tx.seq c ws.length) 0 (ws.map Prod.fst)
              ∧ u.out = t.out ++ [.flit o] ∧ u.slv.tx.fifo = t.slv.tx.fifo.set [] c ((t.slv.tx.fifo.get [] c).drop 26) ∧ u.slv.tx.seq = (t.slv.tx.seq + 1) % 4096
              ∧ u.slv.tx.replay = t.slv.tx.replay ++ [{ seq := t.slv.tx.seq, cls := c, words := o, sentAt := t.clock }]
              ∧ u = { t with out := u.out, pmc := u.pmc, slv := { t.slv with tx := { t.slv.tx with
                fifo := u.slv.tx.fifo, seq := u.slv.tx.seq, replay := u.slv.tx.replay, credits := u.slv.tx.credits
                sent0 := u.slv.tx.sent0, sent2 := u.slv.tx.sent2, turn := u.slv.tx.turn, nonce := u.slv.tx.nonce } } })))
    ∧ (∀ f, v.tx.replay.find? (fun g => g.seq = f.seq) = some f → f.sentAt + 8000 ≤ s.clock →
        Yields (.retxTimeout f.seq) s { s.hush with slv := { v with tx := { v.tx with replay := v.tx.replay.map fun x => if x.seq = f.seq then { x with ask := true } else x } } })

/-- R134, R175, R474 to R478, R480, R495: counted errors. Each adds its weight to its unit's bucket, saturating, and each LEAK_MS takes one
away; a bucket over THRESH retires its unit once the error is handled, but waits between commit and resume. An SRAM error has its effect at
its place: lost data of a dirty way is poison, of a clean way is read again, of a scratch line poison; a lost tag is rebuilt from the side
word. Retirement of a selvedge lane, a port and a tile is shown: the lane leaves the link, the tile's durable entries go to its buddy and
its requests are held until its recovery ends. Injection acts for the management side only. -/
def Obligations.ErrorsFillBucketsAndRetireUnits : Prop :=
  ∀ (s : State) (kind : UnitKind) (u : Nat), s.on = true →
    let k := kindNo kind
    let b := s.bucket k u
    let added := fun (x t : State) (w : Nat) (d : List (Nat × Nat)) => ∃ bs tp,
      t = { x with flt := { s.flt with buckets := bs, deferred := d }, tap := tp }
      ∧ (s.flt.buckets.wf {} = true → bs = s.flt.buckets.set {} (256 * k + u) { b with count := min (b.count + w) 0xFFFF, peak := max b.peak (min (b.count + w) 0xFFFF) })
    let laneOut := fun (t : State) => ∃ bs, t = { s with
      out := [], slv := { s.slv with laneRet := putBit s.slv.laneRet u true }, flt := { s.flt with buckets := bs, deferred := s.flt.deferred.filter fun e => e ≠ (8, u) } }
    let low := fun (w : Nat) => min (b.count + w) 0xFFFF ≤ fld (s.flt.kind k) 0 16 ∧ s.flt.deferred.contains (k, u) = false ∧ s.flt.buckets.wf {} = true
    (u < kindUnits k → b.leakAt + max 1 (fld (s.flt.kind k) 16 24) * 2000000 ≤ s.clock →
        Yields (.bucketLeak kind u) s { s.hush with flt := { s.flt with buckets := s.flt.buckets.set {} (256 * k + u) { b with count := b.count - 1, leakAt := s.clock } } })
    ∧ (kindUnits k ≤ u → Yields (.bucketLeak kind u) s s.hush ∧ ∀ w p, Yields (.errorCounted kind u w p) s s.hush)
    ∧ (∀ w, u < kindUnits k → w ∈ kindWeights k →
        (low w → Completes (.errorCounted kind u w .plain) s fun t => added s.hush t w s.flt.deferred)
        ∧ (fld (s.flt.kind k) 0 16 < min (b.count + w) 0xFFFF → s.flt.deferred.contains (k, u) = false → b.retired = false → s.vlt.hold = true ∨ s.vlt.stopped = true → s.flt.buckets.wf {} = true →
            Completes (.errorCounted kind u w .plain) s fun t => added s.hush t w (s.flt.deferred ++ [(k, u)])))
    ∧ (∀ set x, kind = .ncWay → u < 256 → set < 32768 → s.way (u / 16) set (u % 16) = x →
        (∀ slot, (s.scratchWays (u / 16)).reverse.idxOf? (u % 16) = some slot → low 8 →
          Completes (.errorCounted kind u 8 (.data set)) s fun t =>
            added (s.hush.setScr (slot * 524288 + set * 16 + u / 16) { s.poolCell (slot * 524288 + set * 16 + u / 16) with poison := true }) t 8 s.flt.deferred)
        ∧ (∀ n r, (s.scratchWays (u / 16)).reverse.idxOf? (u % 16) = none → x.v = true → x.d = false → s.regionOf (ncLine set x.tag) = some (n, r) → low 8 →
          Completes (.errorCounted kind u 8 (.data set)) s fun t =>
            added (s.hush.setWay (u / 16) set (u % 16) { x with
              data := (s.withBuffer (ncLine set x.tag) (s.lowerLine r (ncLine set x.tag))).data
              poison := (s.withBuffer (ncLine set x.tag) (s.lowerLine r (ncLine set x.tag))).poison }) t 8 s.flt.deferred)
        ∧ ((s.scratchWays (u / 16)).reverse.idxOf? (u % 16) = none → x.v = true → x.d = true → low 8 →
          Completes (.errorCounted kind u 8 (.data set)) s fun t => t.near.nc = s.near.nc.set {} (ncKey (u / 16) set (u % 16)) { x with poison := true } ∧ t.near.wb = s.near.wb ∧ t.dram = s.dram)
        ∧ (x.v = true → (s.near.side.get 0 (ncKey (u / 16) set (u % 16))).getLsbD 24 = true →
          Yields (.errorCounted kind u 0 (.tag set)) s (s.hush.setWay (u / 16) set (u % 16) { x with
            tag := ((s.near.side.get 0 (ncKey (u / 16) set (u % 16))).setWidth 24).toNat, d := true, evicting := true, lock := false }))
        ∧ (x.v = true → (s.near.side.get 0 (ncKey (u / 16) set (u % 16))).getLsbD 24 = false → s.ownerTile (ncLine set x.tag) = s.homeTile (ncLine set x.tag) →
          Yields (.errorCounted kind u 0 (.tag set)) s (s.hush.setWay (u / 16) set (u % 16) {}))
        ∧ Yields (.errorCounted kind u 0 (.tree set)) s { s.hush with near := { s.near with tree := s.near.tree.set 0 (u / 16 * 32768 + set) (s.near.tree.get 0 (u / 16 * 32768 + set) ^^^ 1) } })
    ∧ (∀ id e, kind = .tile → u < 16 → (s.near.wb.find? fun e => e.id = id) = some e → e.durable = true → Yields (.errorCounted kind u 0 (.entry id)) s s.hush)
    ∧ (∀ pn, kind = .tile → u < 16 → s.mapTile pn = u → low 4 →
        Completes (.errorCounted kind u 4 (.mapEntry pn)) s fun t => added (s.hush.modPage pn fun p => p.uncached) t 4 s.flt.deferred)
    ∧ (kind = .hostPort → u < 8 → b.retired = false → s.present (2 * u) = false → s.present (2 * u + 1) = false →
        Completes (.errorCounted kind u 0 .plain) s fun t => t.vlt = s.vlt ∧ t.near = s.near ∧ t.coh = s.coh
          ∧ t.flt.fifo = (s.flt.enter (Note.words ⟨2, 0x17, 7 * 256 + u, none⟩)).fifo)
    ∧ (s.flt.deferred.contains (k, u) = false ∨ s.vlt.hold = true ∨ s.vlt.stopped = true ∨ s.unitRetired k u = true → Yields (.unitRetire kind u) s s.hush)
    ∧ (kind = .slvLane → u < 8 → s.slv.laneRet.getLsbD u = false → s.slv.l0 = false →
        (s.flt.deferred.contains (8, u) = true → s.vlt.hold = false → s.vlt.stopped = false → Completes (.unitRetire kind u) s laneOut)
        ∧ (∀ src, s.reaches src = true → s.isMgmt src = true → Completes (.fltInjectRetire src kind u) s laneOut))
    ∧ (∀ src, s.reaches src = true → s.isMgmt src = true → 
        (u < kindUnits k → low 1 → Completes (.fltInjectCorrected src kind u) s fun t => added s.hush t 1 s.flt.deferred)
        ∧ (s.unitRetired k u = true ∨ kindUnits k ≤ u → Yields (.fltInjectRetire src kind u) s s.hush))
    ∧ (∀ src, s.reaches src = true → s.isMgmt src = false → ∀ c ∈ [Instr.fltInjectCorrected src kind u, .fltInjectRetire src kind u], Completes c s fun t => ∃ tp p, t = { s with
        out := [], tap := tp, pmc := p, flt := s.flt.enter (Note.words ⟨1, 0x03, src % 32 + 0xFFF * 32 + 2 ^ 17, some (0xE080 / 8)⟩) })
    ∧ (∀ n c, n < 16 → s.tileRetired n = false → (c = 0 → s.retireDue 4 n = true) → (c = 3 → s.tooFewWays n = true) → c < 4 → s.near.nc = [] → s.coh.lent = [] → s.coh.txns = [] → s.coh.handoff = [] →
        s.coh.sfWait = [] → s.coh.retry = [] → s.near.wbRetry = [] → s.coh.snoops = [] → s.rng.rings = [] → s.rng.seals = [] → (s.chan n).retired = true →
        (∀ e ∈ s.near.wb, e.tile = n → e.durable = true ∨ e.draining = true) →
        Completes (.tileRetire n c) s fun t => t.boot = { s.boot.keep 1 with retTiles := putBit s.boot.retTiles n true } ∧ t.coh.recovering = putBit s.coh.recovering n true ∧ t.coh.recHeld = s.coh.recHeld
          ∧ t.dram = s.dram ∧ t.beam = s.beam ∧ t.regions = s.regions ∧ t.vlt = s.vlt
          ∧ t.map.units = s.map.units.mapVals {} (fun _ d => { d with dirIn := putBit d.dirIn n false })
          ∧ t.map.pages = s.map.pages.mapVals {} (fun pn p => if s.mapTile pn = n then p.uncached else p)
          ∧ (∀ e ∈ t.near.wb, e.tile ≠ n) ∧ t.near.wb.map (fun e => e.data) = s.near.wb.map (fun e => e.data))
    ∧ (∀ n c, (s.tileRetired n = true ∨ 16 ≤ n ∨ 4 ≤ c ∨ (c = 0 ∧ s.retireDue 4 n = false) ∨ (c = 3 ∧ s.tooFewWays n = false)) → Yields (.tileRetire n c) s s.hush)
    ∧ (∀ n, s.coh.recovering.getLsbD n = true → s.coh.wideWait = [] →
        ((s.near.wb.all fun e => e.tile = s.ownerTile e.line) = true → (∀ e ∈ s.coh.lent, s.recoveryHolds e.1 = false) →
          (putBit s.coh.recovering n false = 0 → s.coh.recHeld = [] →
            Yields (.tileRecoveryEnd n) s { s.hush with coh := { s.coh with recovering := 0, wide := true, recLines := [] } })
          ∧ (putBit s.coh.recovering n false ≠ 0 →
            Yields (.tileRecoveryEnd n) s { s.hush with coh := { s.coh with recovering := putBit s.coh.recovering n false, wide := true } }))
        ∧ ((s.near.wb.all fun e => e.tile = s.ownerTile e.line) = false → s.coh.lent = [] → Yields (.tileRecoveryEnd n) s s.hush))

/-- R488, R493, R555, R578: a FATAL error stops admission, with an orderly shutdown where the vault sequencer is sound, and the first one
stands; a read of NTC_POP takes the oldest word for the management side alone; the scrub, 1 ms after the last, makes a TRW field follow two
equal copies, and three different ones are FATAL. -/
def Obligations.FatalErrorsNoticesAndVotes : Prop :=
  ∀ s : State, s.on = true →
    (∀ cause unit sound, s.flt.fatal = none → Completes (.fatalError cause unit sound) s fun u =>
        u.flt.fatal = some (fatalNo cause, sound) ∧ u.flt.fifo = (s.flt.enter (Note.words ⟨3, 0x3F, fatalNo cause, some (unit % 4096)⟩)).fifo
        ∧ (sound = false → u.vlt = s.vlt)
        ∧ (sound = true → s.vlt.st = .run ∨ s.vlt.st = .brace → u.vlt.st = .s1 ∧ u.vlt.orderly = true ∧ u.vlt.source = 4 ∧ u.vlt.hold = s.vlt.hold ∧ u.vlt.stopAt = s.clock)
        ∧ u = { s with out := u.out, heads := u.heads, flt := u.flt, tap := u.tap, pmc := u.pmc, vlt := u.vlt })
    ∧ (∀ cause unit sound, s.flt.fatal.isSome = true → Yields (.fatalError cause unit sound) s s.hush)
    ∧ (∀ src, s.reaches src = true →
        (∀ w ws, s.isMgmt src = true → s.flt.fifo = w :: ws → Yields (.ntcPop src 8) s { s with out := [.regRead src w], flt := { s.flt with fifo := ws, mid := ! flag w 61 } })
        ∧ (∀ n, s.flt.fifo = [] ∨ s.isMgmt src = false ∨ n ≠ 8 → Yields (.ntcPop src n) s { s with out := [.regRead src 0] }))
    ∧ (∀ (a b c g : Word) (w : Fin 6 → Word), s.glb.trwAt + 2000000 ≤ s.clock →
        s.glb.mgmtHead = Trw.all g → s.rsv.ctl = Trw.all (w 0) → s.rsv.bank = Trw.all (w 1) → s.rsv.flush = Trw.all (w 2) → s.rsv.sense = Trw.all (w 3) → s.slv.pairId = Trw.all (w 4) →
        s.vlt.ctl = Trw.all (w 5) → s.vlt.floor = ⟨a, b, c⟩ →
        (a = b ∨ a = c → Completes .trwScrub s fun u => u.glb.trwAt = s.clock ∧ u.flt.fatal = s.flt.fatal ∧ ∀ i, i < 3 → ∀ x ∈ [u.vlt.floor.a, u.vlt.floor.b, u.vlt.floor.c], fld x (16 * i) 16 = fld a (16 * i) 16)
        ∧ (∀ i, i < 3 → fld a (16 * i) 16 ≠ fld b (16 * i) 16 → fld b (16 * i) 16 ≠ fld c (16 * i) 16 → fld a (16 * i) 16 ≠ fld c (16 * i) 16 → s.flt.fatal = none →
            Completes .trwScrub s fun u => u.flt.fatal = some (2, true)))

/-- R498, R501 to R506: keys and custody. One slot command runs at a time, and is refused where R504 says; GENERATE ends with a new nonzero salt
other than the last, ERASE leaves every unit of its key ZERO and UNBOUND and ends, its commit in force, with salt 0, each in two superblock
steps; custody commands count only from the management side; Sanitize empties the beam under new keys. -/
def Obligations.KeysAndCustody : Prop :=
  ∀ (s : State) (src k : Nat), s.on = true → s.reaches src = true → s.isMgmt src = true → k < 256 →
    (∀ (c : Instr) (op : Nat), (c, op) ∈ [(Instr.generate src k, 1), (.erase src k, 2)] →
      (s.sec.cmd.isSome = true ∨ s.sec.sanitizing.isSome = true → Yields c s { s.hush with sec := { s.sec with result := 3, slot := k } })
      ∧ (s.sec.cmd = none → s.sec.sanitizing = none → (s.beam.setId = 0 ∨ (op = 1 ∧ s.sec.salts.get 0 k ≠ 0) ∨ (op = 2 ∧ (s.sec.salts.get 0 k = 0 ∨ s.slotNamed k = true))) →
          Yields c s { s.hush with sec := { s.sec with result := 2, slot := k } }))
    ∧ (s.sec.cmd = none → s.sec.sanitizing = none → s.beam.setId ≠ 0 → s.sec.salts.get 0 k = 0 →
        Yields (.generate src k) s { s.hush with sec := { s.sec with cmd := some { op := 1, slot := k } } })
    ∧ (s.sec.cmd = none → s.sec.sanitizing = none → s.beam.setId ≠ 0 → s.sec.salts.get 0 k ≠ 0 → s.slotNamed k = false → s.vlt.stopped = false →
        s.rng.seals = [] → s.near.wb = [] → s.map.swatches = [] →
        Completes (.erase src k) s fun u => (s.map.units.wf {} = true → ∀ q, q ∈ s.unitsOf k → (u.unit q) = {})
          ∧ (s.map.pages.wf {} = true → ∀ q pn, q ∈ s.unitsOf k → pn / 512 = q → (u.page pn) = {})
          ∧ u = { s with out := [], near := u.near, coh := { s.coh with lent := u.coh.lent }, dram := u.dram, beam := u.beam, map := u.map, sec := { s.sec with cmd := some { op := 2, slot := k, zeroed := true } } })
    ∧ (∀ c, s.sec.cmd = some c → c.slot = k →
        (c.op = 1 → Completes .secKeyCmdComplete s fun u => ∃ salt : BitVec 32, salt ≠ 0 ∧ salt ≠ s.sec.salts.get 0 k ∧ u.sec.salts.get 0 k = salt
          ∧ u = { s with out := u.out, beam := { s.beam with sbgen := s.beam.sbgen + 2, slots := u.beam.slots }
                         sec := { s.sec with cmd := none, result := 1, slot := k, draws := s.sec.draws + 1, salts := s.sec.salts.set 0 k salt, wrap := { s.sec.wrap with salts := s.sec.wrap.salts.set 0 k salt } } })
        ∧ (c.op = 2 → c.committed = true → s.vlt.stopped = false →
          Completes .secKeyCmdComplete s fun u => u = { s with
            out := u.out, beam := { s.beam with sbgen := s.beam.sbgen + 2, slots := u.beam.slots }
            sec := { s.sec with cmd := none, result := 1, slot := k, salts := s.sec.salts.set 0 k 0, wrap := { s.sec.wrap with salts := s.sec.wrap.salts.set 0 k 0 } } })
        ∧ (c.op = 2 → c.committed = false → Yields .secKeyCmdComplete s s.hush))
    ∧ (s.sec.spdm.get 0 src ≠ 3 → (∀ key, Yields (.custodianSet src key) s { s with out := [.doe src [0x7F, 0x07]] })
        ∧ Yields (.custodyGet src) s { s with out := [.doe src [0x7F, 0x07]] } ∧ ∀ id key ds, Yields (.keyDeliver src id key ds) s { s with out := [.doe src [0x7F, 0x07]] })
    ∧ (s.sec.spdm.get 0 src = 3 →
      (∀ key, s.beam.setId ≠ 0 → Completes (.custodianSet src key) s fun u => u.boot.custodian = some key ∧ u.boot.old.custodian = s.boot.custodian ∧ u.boot.gens.get 0 0 = s.boot.gens.get 0 0 + 1
          ∧ u.out.getLast? = some (.doe src [0]) ∧ u = { s with
        out := u.out, boot := { s.boot with gens := u.boot.gens, old := u.boot.old, custodian := some key }, beam := { s.beam with sbgen := s.beam.sbgen + 2, slots := u.beam.slots }
        sec := { s.sec with wrap := { s.sec.wrap with escV := true, custodian := some key } } })
      ∧ Yields (.custodyGet src) s { s with out := [.doe src (s.keyWrapWords ++ [s.beam.setId])] }
      ∧ (∀ id key ds,
        (∀ st, (st = 3 ∧ (s.boot.setId ≠ 0 ∨ s.beamless = false)) ∨ (st = 2 ∧ s.boot.setId = 0 ∧ s.beamless = true ∧ (setDrives ds id = [] ∨ id = 0))
            ∨ (st = 1 ∧ s.boot.setId = 0 ∧ s.beamless = true ∧ setDrives ds id ≠ [] ∧ id ≠ 0 ∧ keyCheck key id ≠ checkInForce (setDrives ds id)) →
          Yields (.keyDeliver src id key ds) s { s with out := [.doe src [BitVec.ofNat 64 st]] })
        ∧ (s.boot.setId = 0 → s.beamless = true → setDrives ds id ≠ [] → id ≠ 0 → keyCheck key id = checkInForce (setDrives ds id) →
          Yields (.keyDeliver src id key ds) s ((State.choose { s.hush with
            boot := { s.boot.keep 0 with setId := id }
            sec := { s.sec with waitKey := false, wrap := { s.sec.wrap with bkek := key, ours := true } }
            beam := { s.beam with waiting := false, sbgen := s.beam.sbgen + 2 } } ds).emit (.doe src [0])))))
    ∧ (∀ c ∈ [Instr.sanitize src, .secureErase src], s.glb.steward = true →
        (s.sec.sanitizing.isSome = true ∨ s.sec.cmd.isSome = true ∨ s.vlt.active = false ∨ s.vlt.stopped = true ∨ s.beam.setId = 0 → Yields c s { s with out := [.mailbox src 6 []] })
        ∧ (s.sec.sanitizing = none → s.sec.cmd = none → s.vlt.active = true → s.vlt.stopped = false → s.beam.setId ≠ 0 → Completes c s fun u =>
            u.sec.sanitizing = some src ∧ u.sec.bkek.isSome = true ∧ u.near.scr = [] ∧ u.vlt.keep = []
            ∧ (∀ j, u.sec.salts.get 0 j ≠ 0 ↔ ∃ e ∈ s.regions, e.2.active = true ∧ (e.2.mapped = true ∨ e.2.window = 2) ∧ e.2.key = j)))
    ∧ (∀ h key, s.sec.sanitizing = some h → s.sec.bkek = some key → Completes .sanitizeComplete s fun u => u.out.getLast? = some (.mailbox h 0 []) ∧ u = { s with
        out := u.out, beam := { s.beam with sbgen := s.beam.sbgen + 2, slots := u.beam.slots }
        sec := { s.sec with sanitizing := none, wrap := { salts := s.sec.salts, escV := s.boot.custodian.isSome, custodian := s.boot.custodian, bkek := key, ours := true } } })

/-- R522 to R532: the tapestry. A minute of operation ends with the samples taken and one operating minute more; a fault flush takes severity
records first, then the accumulators' records, severity first, then ordinary ones, and the accumulators restart; each record written takes
the next RSEQ and its predecessor's MAC, a full ordinary area counts the drop, a full severity area displaces the oldest record of the
lowest SEV or drops; at a cold reset every run of missing RSEQs gives an ERASE record. -/
def Obligations.TapestryKeepsItsRecords : Prop :=
  ∀ s : State, s.on = true →
    (s.tap.minuteAt + 120000000000 ≤ s.clock → s.tap.minute.wf 0 = true → s.tap.accs.wf {} = true →
      Completes .tapestryMinuteSample s fun u =>
        u.boot.opmin = (s.boot.opmin + 1) % 2 ^ 32
        ∧ u.boot.life.head? = (if u.boot.opmin % 60 = 0 then some (u.boot.opmin, s.boot.cycles) else s.boot.life.head?)
        ∧ (s.glb.steward = true → ∀ k, k ≠ 0x3900 → (∀ n ∈ bucketUnits, k ≠ 0x8000 + n) →
            u.tap.accs.get {} k = if s.tap.minute.get 0 k = 0 then s.tap.accs.get {} k else (s.tap.accs.get {} k).take (k / 4096) (s.tap.minute.get 0 k - 1) s.boot.opmin)
        ∧ (s.glb.steward = true → ∀ n ∈ bucketUnits, 0x8000 + n ≠ 0x3900 →
            u.tap.accs.get {} (0x8000 + n) = (s.tap.accs.get {} (0x8000 + n)).take ((0x8000 + n) / 4096) (max ((s.flt.buckets.get {} n).count + 1) (s.tap.minute.get 0 (0x8000 + n)) - 1) s.boot.opmin)
        ∧ (s.glb.steward = true → s.tap.minute.get 0 0x3900 = 0 → ∀ v, s.tap.vinMin = some v → u.tap.accs.get {} 0x3900 = (s.tap.accs.get {} 0x3900).take 3 v s.boot.opmin)
        ∧ (s.glb.steward = false → u.tap.accs = s.tap.accs)
        ∧ (∀ n ∈ bucketUnits, u.tap.minute.get 0 (0x8000 + n) = (s.flt.buckets.get {} n).count + 1)
        ∧ u = { s with out := [], tap := { s.tap with accs := u.tap.accs, minute := u.tap.minute, vinMin := none, minuteAt := s.clock }, boot := { s.boot with opmin := u.boot.opmin, life := u.boot.life } })
    ∧ (s.glb.steward = true → s.tap.due = true → s.tap.flushing = false → (∀ t, s.tap.lastFault = some t → t + fld s.tap.ctl 2 14 ≤ s.boot.opmin) → s.tap.out = [] →
      ∀ recs, recs = ((s.tap.accs.filter fun e => e.2.n ≠ 0).flatMap fun e => s.accRecords e.1 e.2) →
        Yields .tapestryFaultFlush s { s.hush with tap := { s.tap with
          due := false, lastFault := some s.boot.opmin, buf := [], accs := [], flushing := true
          out := s.tap.buf.filter (fun l => tapArea l = 1) ++ recs.filter (fun l => tapArea l = 1) ++ recs.filter (fun l => tapArea l = 0) ++ s.tap.buf.filter (fun l => tapArea l = 0) } })
    ∧ (∀ d l n, s.tap.flushing = true → s.tap.out = [d] →
        (tapArea d = 0 → s.boot.tapOrd.slots.length < 720832 → s.boot.tapOrd.next = n → l = finishRec d n.1 0 n.2 →
          Yields .tapestryFlushEnd s { s.hush with
            tap := { s.tap with out := [], flushing := false }
            boot := { s.boot with tapOrd := { s.boot.tapOrd with slots := s.boot.tapOrd.slots.set erasedSlot (firstGap 0 s.boot.tapOrd.slots) l, chain := some (n.1, recMac l) } } })
        ∧ (tapArea d = 0 → 720832 ≤ s.boot.tapOrd.slots.length →
          Yields .tapestryFlushEnd s (State.count { s.hush with tap := { s.tap with out := [], flushing := false, dropOrd := min (s.tap.dropOrd + 1) (2 ^ 32 - 1) } } 5 1))
        ∧ (tapArea d = 1 → 65408 ≤ s.boot.tapSev.slots.length → s.boot.tapSev.next = n →
          (∀ v, s.boot.tapSev.victim (tapSevOf d) = some v → l = finishRec d n.1 (recRseq v.2) n.2 →
            Yields .tapestryFlushEnd s { s.hush with
              tap := { s.tap with out := [], flushing := false }
              boot := { s.boot with tapSev := { s.boot.tapSev with slots := s.boot.tapSev.slots.set erasedSlot v.1 l, chain := some (n.1, recMac l) } } })
          ∧ (s.boot.tapSev.victim (tapSevOf d) = none →
            Yields .tapestryFlushEnd s (State.count { s.hush with tap := { s.tap with out := [], flushing := false, dropSev := min (s.tap.dropSev + 1) 65535 } } 5 1))))
    ∧ (s.vlt.st = .restore → ∀ c d, s.boot.tapOrd.chain = some c → s.boot.tapSev.chain = some d →
        (missingRuns s.boot.tapOrd.base c.1 s.boot.tapOrd.held = [] → missingRuns s.boot.tapSev.base d.1 s.boot.tapSev.held = [] →
          Yields (.tapestryCheck [] 0 0) s s.hush)
        ∧ (∀ r, missingRuns s.boot.tapOrd.base c.1 s.boot.tapOrd.held = [r] → missingRuns s.boot.tapSev.base d.1 s.boot.tapSev.held = [] →
          Yields (.tapestryCheck [] 0 0) s (s.hush.tapPut (s.tapDraft 4 2 1 (Config.eventUnit 0x100 % 4096) 0 [atBit (r.1 % 2 ^ 24) 0 ||| atBit 0 24 ||| atBit (r.2 % 2 ^ 32) 32]))))

/-- R536 to R540: power states. The evaluation every microsecond puts into its state exactly each resource that R539 allows; its exit starts
ahead of the event that ends its gap and is complete later; the end of a head's quiet ends the states that rested on it, and a QUIET
descriptor sets that end, or with a QUIET_US of 0 ends the quiet at once. -/
def Obligations.ResourcesRestAndWake : Prop :=
  ∀ (s : State) (r : Nat), s.on = true → r < 57 →
    (Completes .calendarEvaluate s fun u =>
        u.pwr.low.getLsbD r = (s.pwr.low.getLsbD r || s.mayEnter r)
        ∧ u.near.autoOff = (if s.pwr.low.getLsbD 56 = false ∧ s.mayEnter 56 = true then 15 else s.near.autoOff)
        ∧ u.out = ((List.range 8).filter fun i => ! s.pwr.low.getLsbD (48 + i) && s.mayEnter (48 + i)).map (fun i => Output.nvmeAdmin i 0x09)
        ∧ (s.pwr.exlat.wf 0 = true → ∀ i, i < 8 → u.pwr.exlat.get 0 i = if s.pwr.low.getLsbD (48 + i) = false ∧ s.mayEnter (48 + i) = true then
            (((s.driveStates i (s.gapOf (48 + i))).getLast?.map fun p => p.2).getD 0) else s.pwr.exlat.get 0 i)
        ∧ (s.dram.ch.wf {} = true → ∀ m, m < 16 → u.chan m = if s.pwr.low.getLsbD (16 + m) = false ∧ s.mayEnter (16 + m) = true then
            { s.chan m with postponed := [], sched := [], window := 0 } else s.chan m)
        ∧ u = { s with out := u.out, pwr := { s.pwr with low := u.pwr.low, exlat := u.pwr.exlat }, near := { s.near with autoOff := u.near.autoOff }, dram := { s.dram with ch := u.dram.ch } })
    ∧ (s.pwr.low.getLsbD r = true → s.pwr.leaving.getLsbD r = false → ∀ g, s.wakeDue r = some g → g ≤ s.exitCycles r →
        Completes (.wakeAhead r) s fun u =>
          (∀ q, q < 57 → u.pwr.leaving.getLsbD q = (s.pwr.leaving.getLsbD q || decide (q = r)))
          ∧ (s.pwr.exitAt.wf 0 = true → u.pwr.exitAt.get 0 r = s.clock + s.exitCycles r)
          ∧ u = { s with out := if 48 ≤ r ∧ r < 56 then [Output.nvmeAdmin (r - 48) 0x09] else [], pwr := { s.pwr with leaving := u.pwr.leaving, exitAt := u.pwr.exitAt }, near := { s.near with autoOff := if r = 56 then 0 else s.near.autoOff } })
    ∧ (s.pwr.leaving.getLsbD r = true → s.pwr.exitAt.get 0 r ≤ s.clock →
        Completes (.stateExitComplete r) s fun u =>
          u.pwr.low = putBit s.pwr.low r false ∧ u.pwr.leaving = putBit s.pwr.leaving r false
          ∧ (16 ≤ r → r < 32 → u.dram.ch = s.dram.ch.set {} (r - 16) ((s.chan (r - 16)).refreshesFrom s.clock))
          ∧ (r < 16 ∨ 32 ≤ r → u.dram.ch = s.dram.ch)
          ∧ u = { s with out := [], dram := { s.dram with ch := u.dram.ch }
                         pwr := { s.pwr with low := u.pwr.low, leaving := u.pwr.leaving, exitAt := s.pwr.exitAt.set 0 r 0, exlat := if 48 ≤ r then s.pwr.exlat.set 0 (r - 48) 0 else s.pwr.exlat } })
    ∧ (∀ h q, h < 16 → s.pwr.quiet.get 0 h = q → q ≠ 0 → q ≤ s.clock →
        Completes (.quietEnd h) s fun u =>
          u.pwr.quiet = s.pwr.quiet.set 0 h 0 ∧ u.pwr.leaving = s.pwr.leaving ||| (s.pwr.low &&& wakeMask h)
          ∧ u = { s with out := u.out, pwr := { s.pwr with quiet := u.pwr.quiet, leaving := u.pwr.leaving, exitAt := u.pwr.exitAt }
                         near := { s.near with autoOff := u.near.autoOff } })
    ∧ (∀ k a us, s.working k 0x60 a → fld (lineWord a.words 4) 0 32 = us → (us = 0 → s.pwr.quiet.get 0 (s.ring k).owner ≠ 0) →
        Completes (.quiet k) s fun u =>
          u.pwr.quiet = s.pwr.quiet.set 0 (s.ring k).owner (if us = 0 then 0 else s.clock + us * 2000)
          ∧ u.pwr.leaving = (if us = 0 then s.pwr.leaving ||| (s.pwr.low &&& wakeMask (s.ring k).owner) else s.pwr.leaving)
          ∧ (u.ring k).act = some { a with started := true, status := some 0 }
          ∧ u = { s with out := u.out, rng := u.rng, pwr := { s.pwr with quiet := u.pwr.quiet, leaving := u.pwr.leaving, exitAt := u.pwr.exitAt }
                         near := { s.near with autoOff := u.near.autoOff } })

/-- R69, R80, R546 to R548, R551, R553, R556, R557: register access. Only an aligned 8-byte write within a register acts; a head's BAR4 holds
its MSI-X table (the layout is PCIe's), where an unmasked vector sends its pending message; global registers take writes from the management
side and answer others with ACCESS alone; reserved bits stay 0. An IDX pair reaches indirect registers, advances with AUTO_INC and reports
ERR. A fence counts and returns. MGMT_HEAD moves to present heads only. R533, R558, R559: wide values. A fetch answers with a snapshot of
the record, frame entry, training word or commit record that its INDEX names, and VALID; spaces other than the tapestry are the management
side's, others get ACCESS with a notice; an INDEX outside its space gives RANGE. -/
def Obligations.RegistersAndWideValues : Prop :=
  (∀ (s : State) (src : Nat), s.on = true → s.reaches src = true →
    (∀ off size v, off < 0x20000 ∨ 0x28000 ≤ off ∨ 16 ≤ src → size ≠ 8 ∨ off % 8 ≠ 0 ∨ 0x10000 ≤ off → Yields (.regWrite src off size v) s s.hush)
    ∧ (∀ n v x, src < 16 → n < 2048 → (s.head src).func.msix.get {} n = x →
        let y := fun (e : MsixEntry) => s.hush.modFunc src fun f => { f with msix := f.msix.set {} n e }
        (x.pend = false → Yields (.regWrite src (0x20000 + 16 * n) 8 v) s (y { x with addr := v })
          ∧ Yields (.regWrite src (0x20000 + 16 * n + 8) 8 v) s (y { x with data := v.extractLsb' 0 32, masked := flag v 32 }))
        ∧ (x.pend = true → flag v 32 = false →
          Yields (.regWrite src (0x20000 + 16 * n + 8) 8 v) s { y { x with data := v.extractLsb' 0 32, masked := false, pend := false } with out := [.msix src n] }))
    ∧ (∀ off v, barGlobal off = true → off < 0x10000 → off % 8 = 0 → off / 4096 ≠ 1 → off ≠ 0x2000 → off < 0x4000 ∨ 0x8000 ≤ off → s.isMgmt src = false →
        Completes (.regWrite src off 8 v) s fun u => ∃ t p, u = { s with
          out := [], tap := t, pmc := p, flt := s.flt.enter (Note.words ⟨1, 0x03, src % 32 + 0xFFF * 32 + 2 ^ 17, some (off / 8)⟩) })
    ∧ (∀ v, s.isMgmt src = true →
        Yields (.regWrite src 0x3010 8 v) s { s.hush with flt := { s.flt with wm := v &&& 0x307FF07FF } }
        ∧ Yields (.regWrite src 0xA008 8 v) s { s.hush with vlt := { s.vlt with floor := Trw.all (v &&& 0xFFFFFFFFFFFF) } }
        ∧ Yields (.regWrite src 0xB000 8 v) s { s.hush with rng := { s.rng with gctl := v &&& 0x3FF } }
        ∧ Yields (.regWrite src 0xC008 8 v) s { s.hush with slv := { s.slv with pairId := Trw.all v } }
        ∧ Yields (.regWrite src 0x9048 8 v) s { s.hush with rsv := { s.rsv with ovr := v &&& 0xFFFFFFFF } }
        ∧ Yields (.regWrite src 0x8000 8 v) s { s.hush with qos := { s.qos with ctl := v &&& 0xFF1F } }
        ∧ (∀ k, k < 9 → Yields (.regWrite src (0xE000 + 8 * k) 8 v) s { s.hush with flt := { s.flt with kinds := s.flt.kinds.set none k (some (v &&& 0xFFFFFFFFFF)) } })
        ∧ (flag v 8 = false → (s.present (fld v 0 4) = true → ∀ c ∈ [Instr.mgmtHeadWrite src v, .regWrite src 0x18 8 v],
              Yields c s { s.hush with glb := { s.glb with mgmtHead := Trw.all (BitVec.ofNat 64 (fld v 0 4)) } })
            ∧ (s.present (fld v 0 4) = false → ∀ c ∈ [Instr.mgmtHeadWrite src v, .regWrite src 0x18 8 v], Yields c s s.hush)))
    ∧ (∀ p v, p < 4 → Yields (.regWrite src (0x1000 + 16 * p) 8 v) s
        { s.hush with glb := { s.glb with idx := s.glb.idx.set {} (4 * src + p) { s.idxPair src p with index := fld v 0 24, autoInc := flag v 24 } } })
    ∧ (∀ p i, p < 4 → (s.idxPair src p).index = i →
        let x := fun err => ({ s.idxPair src p with index := if (s.idxPair src p).autoInc then (i + 1) % 2 ^ 24 else i, err := err } : IdxPair)
        let t := fun err => ({ s with out := [], glb := { s.glb with idx := s.glb.idx.set {} (4 * src + p) (x err) } } : State)
        (∀ w, s.indWord i = some w → Yields (.idxDataAccess src p none) s { t 0 with out := [.regRead src w] })
        ∧ (s.indWord i = none → Yields (.idxDataAccess src p none) s { t 1 with out := [.regRead src 0] } ∧ ∀ v, Yields (.idxDataAccess src p (some v)) s (t 1))
        ∧ (∀ v, s.isMgmt src = true → i = 0x60000 → Yields (.idxDataAccess src p (some v)) s (State.setIdx (State.submitAll { s.hush with beam := { s.beam with ctl := v &&& 0xFFFFFFFFFF } }) src p (x 0)))
        ∧ (∀ v, s.isMgmt src = true → i = 0x50001 → Yields (.idxDataAccess src p (some v)) s { t 0 with map := { s.map with clean := v &&& 0x7F } })
        ∧ (∀ v, (s.isMgmt src = false ∧ i = 0x60000) ∨ i = 0x70000 ∨ i = 0x80000 → Completes (.idxDataAccess src p (some v)) s fun u => ∃ tp pm,
            u = { t 2 with flt := s.flt.enter (Note.words ⟨1, 0x03, src % 32 + 0xFFF * 32 + 2 ^ 17, some (i + 2 ^ 24)⟩), tap := tp, pmc := pm }))
    ∧ (∀ n, n = (s.glb.fences.get 0 src + 1) % 2 ^ 32 → Yields (.glbFence src) s { s with out := [.regRead src (BitVec.ofNat 64 n)], glb := { s.glb with fences := s.glb.fences.set 0 src n } }))
  ∧ (∀ (s : State) (src index sp : Nat) (c : Instr), s.on = true → s.reaches src = true → index < 2 ^ 40 → (s.mbx src).busy = false →
    (c, sp) ∈ [(Instr.tapestryFetch src index, 1), (.rftFetch src index, 2), (.trainFetch src index, 3), (.commitFetch src index, 4)] →
    let sel := BitVec.ofNat 64 (sp * 2 ^ 40 + index)
    (sp = 1 ∨ s.isMgmt src = true → mbxRange sp index = true → s.glb.mbx.wf {} = true → Completes c s fun u =>
        u.mbx src = { sel := sel, busy := false, valid := true, err := 0, data := s.mbxValue sp index }
        ∧ (∀ h, h ≠ src → u.mbx h = s.mbx h)
        ∧ u = { s with out := [], glb := { s.glb with mbx := u.glb.mbx }, tap := { s.tap with verdict := u.tap.verdict } }
        ∧ (sp ≠ 1 → u.tap = s.tap) ∧ (sp = 1 → u.tap.verdict = (s.tapArea index).verdict (index % 2 ^ 24)))
    ∧ (sp ≠ 1 → s.isMgmt src = false → s.glb.mbx.wf {} = true → Completes c s fun u => u.mbx src = { sel := sel, err := 3 }
        ∧ ∃ t p, u = { s with out := [], glb := { s.glb with mbx := u.glb.mbx }, tap := t, pmc := p
                              flt := s.flt.enter (Note.words ⟨1, 0x03, src % 32 + 0xFFF * 32 + 5 * 2 ^ 17, some (sel.toNat + 2 ^ 60)⟩) })
    ∧ (sp = 1 ∨ s.isMgmt src = true → mbxRange sp index = false → Yields c s { s.hush with glb := { s.glb with mbx := s.glb.mbx.set {} src { sel := sel, err := 2 } } }))
end

