-- ==== Sys2Proof/Laws/State.lean ====
section
/-! SUPPORT. What each update of the state leaves, field by field, and what it does to the field it is for: proofs cite these
and unfold no record update. -/
namespace Sys2Proof.Machine

variable (s : State)

/-! ### modHead -/

@[simp] theorem modHead_on (h : Nat) (f : Head → Head) : (s.modHead h f).on = s.on := rfl
@[simp] theorem modHead_clock (h : Nat) (f : Head → Head) : (s.modHead h f).clock = s.clock := rfl
@[simp] theorem modHead_freeIdx (h : Nat) (f : Head → Head) : (s.modHead h f).freeIdx = s.freeIdx := rfl
@[simp] theorem modHead_out (h : Nat) (f : Head → Head) : (s.modHead h f).out = s.out := rfl
@[simp] theorem modHead_pending (h : Nat) (f : Head → Head) : (s.modHead h f).pending = s.pending := rfl
@[simp] theorem modHead_glb (h : Nat) (f : Head → Head) : (s.modHead h f).glb = s.glb := rfl
@[simp] theorem modHead_boot (h : Nat) (f : Head → Head) : (s.modHead h f).boot = s.boot := rfl
@[simp] theorem modHead_pins (h : Nat) (f : Head → Head) : (s.modHead h f).pins = s.pins := rfl
@[simp] theorem modHead_ports (h : Nat) (f : Head → Head) : (s.modHead h f).ports = s.ports := rfl
@[simp] theorem modHead_heads (h : Nat) (f : Head → Head) : (s.modHead h f).heads = s.heads.set {} h (f (s.head h)) := rfl
@[simp] theorem modHead_regions (h : Nat) (f : Head → Head) : (s.modHead h f).regions = s.regions := rfl
@[simp] theorem modHead_near (h : Nat) (f : Head → Head) : (s.modHead h f).near = s.near := rfl
@[simp] theorem modHead_coh (h : Nat) (f : Head → Head) : (s.modHead h f).coh = s.coh := rfl
@[simp] theorem modHead_dram (h : Nat) (f : Head → Head) : (s.modHead h f).dram = s.dram := rfl
@[simp] theorem modHead_map (h : Nat) (f : Head → Head) : (s.modHead h f).map = s.map := rfl
@[simp] theorem modHead_beam (h : Nat) (f : Head → Head) : (s.modHead h f).beam = s.beam := rfl
@[simp] theorem modHead_rsv (h : Nat) (f : Head → Head) : (s.modHead h f).rsv = s.rsv := rfl
@[simp] theorem modHead_vlt (h : Nat) (f : Head → Head) : (s.modHead h f).vlt = s.vlt := rfl
@[simp] theorem modHead_qos (h : Nat) (f : Head → Head) : (s.modHead h f).qos = s.qos := rfl
@[simp] theorem modHead_rng (h : Nat) (f : Head → Head) : (s.modHead h f).rng = s.rng := rfl
@[simp] theorem modHead_slv (h : Nat) (f : Head → Head) : (s.modHead h f).slv = s.slv := rfl
@[simp] theorem modHead_flt (h : Nat) (f : Head → Head) : (s.modHead h f).flt = s.flt := rfl
@[simp] theorem modHead_sec (h : Nat) (f : Head → Head) : (s.modHead h f).sec = s.sec := rfl
@[simp] theorem modHead_pmc (h : Nat) (f : Head → Head) : (s.modHead h f).pmc = s.pmc := rfl
@[simp] theorem modHead_tap (h : Nat) (f : Head → Head) : (s.modHead h f).tap = s.tap := rfl
@[simp] theorem modHead_pwr (h : Nat) (f : Head → Head) : (s.modHead h f).pwr = s.pwr := rfl

/-! ### modRegion -/

@[simp] theorem modRegion_on (n : Nat) (f : Region → Region) : (s.modRegion n f).on = s.on := rfl
@[simp] theorem modRegion_clock (n : Nat) (f : Region → Region) : (s.modRegion n f).clock = s.clock := rfl
@[simp] theorem modRegion_freeIdx (n : Nat) (f : Region → Region) : (s.modRegion n f).freeIdx = s.freeIdx := rfl
@[simp] theorem modRegion_out (n : Nat) (f : Region → Region) : (s.modRegion n f).out = s.out := rfl
@[simp] theorem modRegion_pending (n : Nat) (f : Region → Region) : (s.modRegion n f).pending = s.pending := rfl
@[simp] theorem modRegion_glb (n : Nat) (f : Region → Region) : (s.modRegion n f).glb = s.glb := rfl
@[simp] theorem modRegion_boot (n : Nat) (f : Region → Region) : (s.modRegion n f).boot = s.boot := rfl
@[simp] theorem modRegion_pins (n : Nat) (f : Region → Region) : (s.modRegion n f).pins = s.pins := rfl
@[simp] theorem modRegion_ports (n : Nat) (f : Region → Region) : (s.modRegion n f).ports = s.ports := rfl
@[simp] theorem modRegion_heads (n : Nat) (f : Region → Region) : (s.modRegion n f).heads = s.heads := rfl
@[simp] theorem modRegion_regions (n : Nat) (f : Region → Region) : (s.modRegion n f).regions = s.regions.set {} n (f (s.region n)) := rfl
@[simp] theorem modRegion_near (n : Nat) (f : Region → Region) : (s.modRegion n f).near = s.near := rfl
@[simp] theorem modRegion_coh (n : Nat) (f : Region → Region) : (s.modRegion n f).coh = s.coh := rfl
@[simp] theorem modRegion_dram (n : Nat) (f : Region → Region) : (s.modRegion n f).dram = s.dram := rfl
@[simp] theorem modRegion_map (n : Nat) (f : Region → Region) : (s.modRegion n f).map = s.map := rfl
@[simp] theorem modRegion_beam (n : Nat) (f : Region → Region) : (s.modRegion n f).beam = s.beam := rfl
@[simp] theorem modRegion_rsv (n : Nat) (f : Region → Region) : (s.modRegion n f).rsv = s.rsv := rfl
@[simp] theorem modRegion_vlt (n : Nat) (f : Region → Region) : (s.modRegion n f).vlt = s.vlt := rfl
@[simp] theorem modRegion_qos (n : Nat) (f : Region → Region) : (s.modRegion n f).qos = s.qos := rfl
@[simp] theorem modRegion_rng (n : Nat) (f : Region → Region) : (s.modRegion n f).rng = s.rng := rfl
@[simp] theorem modRegion_slv (n : Nat) (f : Region → Region) : (s.modRegion n f).slv = s.slv := rfl
@[simp] theorem modRegion_flt (n : Nat) (f : Region → Region) : (s.modRegion n f).flt = s.flt := rfl
@[simp] theorem modRegion_sec (n : Nat) (f : Region → Region) : (s.modRegion n f).sec = s.sec := rfl
@[simp] theorem modRegion_pmc (n : Nat) (f : Region → Region) : (s.modRegion n f).pmc = s.pmc := rfl
@[simp] theorem modRegion_tap (n : Nat) (f : Region → Region) : (s.modRegion n f).tap = s.tap := rfl
@[simp] theorem modRegion_pwr (n : Nat) (f : Region → Region) : (s.modRegion n f).pwr = s.pwr := rfl

/-! ### modChan -/

@[simp] theorem modChan_on (m : Nat) (f : Channel → Channel) : (s.modChan m f).on = s.on := rfl
@[simp] theorem modChan_clock (m : Nat) (f : Channel → Channel) : (s.modChan m f).clock = s.clock := rfl
@[simp] theorem modChan_freeIdx (m : Nat) (f : Channel → Channel) : (s.modChan m f).freeIdx = s.freeIdx := rfl
@[simp] theorem modChan_out (m : Nat) (f : Channel → Channel) : (s.modChan m f).out = s.out := rfl
@[simp] theorem modChan_pending (m : Nat) (f : Channel → Channel) : (s.modChan m f).pending = s.pending := rfl
@[simp] theorem modChan_glb (m : Nat) (f : Channel → Channel) : (s.modChan m f).glb = s.glb := rfl
@[simp] theorem modChan_boot (m : Nat) (f : Channel → Channel) : (s.modChan m f).boot = s.boot := rfl
@[simp] theorem modChan_pins (m : Nat) (f : Channel → Channel) : (s.modChan m f).pins = s.pins := rfl
@[simp] theorem modChan_ports (m : Nat) (f : Channel → Channel) : (s.modChan m f).ports = s.ports := rfl
@[simp] theorem modChan_heads (m : Nat) (f : Channel → Channel) : (s.modChan m f).heads = s.heads := rfl
@[simp] theorem modChan_regions (m : Nat) (f : Channel → Channel) : (s.modChan m f).regions = s.regions := rfl
@[simp] theorem modChan_near (m : Nat) (f : Channel → Channel) : (s.modChan m f).near = s.near := rfl
@[simp] theorem modChan_coh (m : Nat) (f : Channel → Channel) : (s.modChan m f).coh = s.coh := rfl
@[simp] theorem modChan_map (m : Nat) (f : Channel → Channel) : (s.modChan m f).map = s.map := rfl
@[simp] theorem modChan_beam (m : Nat) (f : Channel → Channel) : (s.modChan m f).beam = s.beam := rfl
@[simp] theorem modChan_rsv (m : Nat) (f : Channel → Channel) : (s.modChan m f).rsv = s.rsv := rfl
@[simp] theorem modChan_vlt (m : Nat) (f : Channel → Channel) : (s.modChan m f).vlt = s.vlt := rfl
@[simp] theorem modChan_qos (m : Nat) (f : Channel → Channel) : (s.modChan m f).qos = s.qos := rfl
@[simp] theorem modChan_rng (m : Nat) (f : Channel → Channel) : (s.modChan m f).rng = s.rng := rfl
@[simp] theorem modChan_slv (m : Nat) (f : Channel → Channel) : (s.modChan m f).slv = s.slv := rfl
@[simp] theorem modChan_flt (m : Nat) (f : Channel → Channel) : (s.modChan m f).flt = s.flt := rfl
@[simp] theorem modChan_sec (m : Nat) (f : Channel → Channel) : (s.modChan m f).sec = s.sec := rfl
@[simp] theorem modChan_pmc (m : Nat) (f : Channel → Channel) : (s.modChan m f).pmc = s.pmc := rfl
@[simp] theorem modChan_tap (m : Nat) (f : Channel → Channel) : (s.modChan m f).tap = s.tap := rfl
@[simp] theorem modChan_pwr (m : Nat) (f : Channel → Channel) : (s.modChan m f).pwr = s.pwr := rfl

/-! ### modPage -/

@[simp] theorem modPage_on (pn : Nat) (f : PageEntry → PageEntry) : (s.modPage pn f).on = s.on := rfl
@[simp] theorem modPage_clock (pn : Nat) (f : PageEntry → PageEntry) : (s.modPage pn f).clock = s.clock := rfl
@[simp] theorem modPage_freeIdx (pn : Nat) (f : PageEntry → PageEntry) : (s.modPage pn f).freeIdx = s.freeIdx := rfl
@[simp] theorem modPage_out (pn : Nat) (f : PageEntry → PageEntry) : (s.modPage pn f).out = s.out := rfl
@[simp] theorem modPage_pending (pn : Nat) (f : PageEntry → PageEntry) : (s.modPage pn f).pending = s.pending := rfl
@[simp] theorem modPage_glb (pn : Nat) (f : PageEntry → PageEntry) : (s.modPage pn f).glb = s.glb := rfl
@[simp] theorem modPage_boot (pn : Nat) (f : PageEntry → PageEntry) : (s.modPage pn f).boot = s.boot := rfl
@[simp] theorem modPage_pins (pn : Nat) (f : PageEntry → PageEntry) : (s.modPage pn f).pins = s.pins := rfl
@[simp] theorem modPage_ports (pn : Nat) (f : PageEntry → PageEntry) : (s.modPage pn f).ports = s.ports := rfl
@[simp] theorem modPage_heads (pn : Nat) (f : PageEntry → PageEntry) : (s.modPage pn f).heads = s.heads := rfl
@[simp] theorem modPage_regions (pn : Nat) (f : PageEntry → PageEntry) : (s.modPage pn f).regions = s.regions := rfl
@[simp] theorem modPage_near (pn : Nat) (f : PageEntry → PageEntry) : (s.modPage pn f).near = s.near := rfl
@[simp] theorem modPage_coh (pn : Nat) (f : PageEntry → PageEntry) : (s.modPage pn f).coh = s.coh := rfl
@[simp] theorem modPage_dram (pn : Nat) (f : PageEntry → PageEntry) : (s.modPage pn f).dram = s.dram := rfl
@[simp] theorem modPage_beam (pn : Nat) (f : PageEntry → PageEntry) : (s.modPage pn f).beam = s.beam := rfl
@[simp] theorem modPage_rsv (pn : Nat) (f : PageEntry → PageEntry) : (s.modPage pn f).rsv = s.rsv := rfl
@[simp] theorem modPage_vlt (pn : Nat) (f : PageEntry → PageEntry) : (s.modPage pn f).vlt = s.vlt := rfl
@[simp] theorem modPage_qos (pn : Nat) (f : PageEntry → PageEntry) : (s.modPage pn f).qos = s.qos := rfl
@[simp] theorem modPage_rng (pn : Nat) (f : PageEntry → PageEntry) : (s.modPage pn f).rng = s.rng := rfl
@[simp] theorem modPage_slv (pn : Nat) (f : PageEntry → PageEntry) : (s.modPage pn f).slv = s.slv := rfl
@[simp] theorem modPage_flt (pn : Nat) (f : PageEntry → PageEntry) : (s.modPage pn f).flt = s.flt := rfl
@[simp] theorem modPage_sec (pn : Nat) (f : PageEntry → PageEntry) : (s.modPage pn f).sec = s.sec := rfl
@[simp] theorem modPage_pmc (pn : Nat) (f : PageEntry → PageEntry) : (s.modPage pn f).pmc = s.pmc := rfl
@[simp] theorem modPage_tap (pn : Nat) (f : PageEntry → PageEntry) : (s.modPage pn f).tap = s.tap := rfl
@[simp] theorem modPage_pwr (pn : Nat) (f : PageEntry → PageEntry) : (s.modPage pn f).pwr = s.pwr := rfl

/-! ### modUnit -/

@[simp] theorem modUnit_on (u : Nat) (f : UnitDir → UnitDir) : (s.modUnit u f).on = s.on := rfl
@[simp] theorem modUnit_clock (u : Nat) (f : UnitDir → UnitDir) : (s.modUnit u f).clock = s.clock := rfl
@[simp] theorem modUnit_freeIdx (u : Nat) (f : UnitDir → UnitDir) : (s.modUnit u f).freeIdx = s.freeIdx := rfl
@[simp] theorem modUnit_out (u : Nat) (f : UnitDir → UnitDir) : (s.modUnit u f).out = s.out := rfl
@[simp] theorem modUnit_pending (u : Nat) (f : UnitDir → UnitDir) : (s.modUnit u f).pending = s.pending := rfl
@[simp] theorem modUnit_glb (u : Nat) (f : UnitDir → UnitDir) : (s.modUnit u f).glb = s.glb := rfl
@[simp] theorem modUnit_boot (u : Nat) (f : UnitDir → UnitDir) : (s.modUnit u f).boot = s.boot := rfl
@[simp] theorem modUnit_pins (u : Nat) (f : UnitDir → UnitDir) : (s.modUnit u f).pins = s.pins := rfl
@[simp] theorem modUnit_ports (u : Nat) (f : UnitDir → UnitDir) : (s.modUnit u f).ports = s.ports := rfl
@[simp] theorem modUnit_heads (u : Nat) (f : UnitDir → UnitDir) : (s.modUnit u f).heads = s.heads := rfl
@[simp] theorem modUnit_regions (u : Nat) (f : UnitDir → UnitDir) : (s.modUnit u f).regions = s.regions := rfl
@[simp] theorem modUnit_near (u : Nat) (f : UnitDir → UnitDir) : (s.modUnit u f).near = s.near := rfl
@[simp] theorem modUnit_coh (u : Nat) (f : UnitDir → UnitDir) : (s.modUnit u f).coh = s.coh := rfl
@[simp] theorem modUnit_dram (u : Nat) (f : UnitDir → UnitDir) : (s.modUnit u f).dram = s.dram := rfl
@[simp] theorem modUnit_beam (u : Nat) (f : UnitDir → UnitDir) : (s.modUnit u f).beam = s.beam := rfl
@[simp] theorem modUnit_rsv (u : Nat) (f : UnitDir → UnitDir) : (s.modUnit u f).rsv = s.rsv := rfl
@[simp] theorem modUnit_vlt (u : Nat) (f : UnitDir → UnitDir) : (s.modUnit u f).vlt = s.vlt := rfl
@[simp] theorem modUnit_qos (u : Nat) (f : UnitDir → UnitDir) : (s.modUnit u f).qos = s.qos := rfl
@[simp] theorem modUnit_rng (u : Nat) (f : UnitDir → UnitDir) : (s.modUnit u f).rng = s.rng := rfl
@[simp] theorem modUnit_slv (u : Nat) (f : UnitDir → UnitDir) : (s.modUnit u f).slv = s.slv := rfl
@[simp] theorem modUnit_flt (u : Nat) (f : UnitDir → UnitDir) : (s.modUnit u f).flt = s.flt := rfl
@[simp] theorem modUnit_sec (u : Nat) (f : UnitDir → UnitDir) : (s.modUnit u f).sec = s.sec := rfl
@[simp] theorem modUnit_pmc (u : Nat) (f : UnitDir → UnitDir) : (s.modUnit u f).pmc = s.pmc := rfl
@[simp] theorem modUnit_tap (u : Nat) (f : UnitDir → UnitDir) : (s.modUnit u f).tap = s.tap := rfl
@[simp] theorem modUnit_pwr (u : Nat) (f : UnitDir → UnitDir) : (s.modUnit u f).pwr = s.pwr := rfl

/-! ### setTxn -/

@[simp] theorem setTxn_on (l : Nat) (t : Option Txn) : (s.setTxn l t).on = s.on := rfl
@[simp] theorem setTxn_clock (l : Nat) (t : Option Txn) : (s.setTxn l t).clock = s.clock := rfl
@[simp] theorem setTxn_freeIdx (l : Nat) (t : Option Txn) : (s.setTxn l t).freeIdx = s.freeIdx := rfl
@[simp] theorem setTxn_out (l : Nat) (t : Option Txn) : (s.setTxn l t).out = s.out := rfl
@[simp] theorem setTxn_pending (l : Nat) (t : Option Txn) : (s.setTxn l t).pending = s.pending := rfl
@[simp] theorem setTxn_glb (l : Nat) (t : Option Txn) : (s.setTxn l t).glb = s.glb := rfl
@[simp] theorem setTxn_boot (l : Nat) (t : Option Txn) : (s.setTxn l t).boot = s.boot := rfl
@[simp] theorem setTxn_pins (l : Nat) (t : Option Txn) : (s.setTxn l t).pins = s.pins := rfl
@[simp] theorem setTxn_ports (l : Nat) (t : Option Txn) : (s.setTxn l t).ports = s.ports := rfl
@[simp] theorem setTxn_heads (l : Nat) (t : Option Txn) : (s.setTxn l t).heads = s.heads := rfl
@[simp] theorem setTxn_regions (l : Nat) (t : Option Txn) : (s.setTxn l t).regions = s.regions := rfl
@[simp] theorem setTxn_near (l : Nat) (t : Option Txn) : (s.setTxn l t).near = s.near := rfl
@[simp] theorem setTxn_dram (l : Nat) (t : Option Txn) : (s.setTxn l t).dram = s.dram := rfl
@[simp] theorem setTxn_map (l : Nat) (t : Option Txn) : (s.setTxn l t).map = s.map := rfl
@[simp] theorem setTxn_beam (l : Nat) (t : Option Txn) : (s.setTxn l t).beam = s.beam := rfl
@[simp] theorem setTxn_rsv (l : Nat) (t : Option Txn) : (s.setTxn l t).rsv = s.rsv := rfl
@[simp] theorem setTxn_vlt (l : Nat) (t : Option Txn) : (s.setTxn l t).vlt = s.vlt := rfl
@[simp] theorem setTxn_qos (l : Nat) (t : Option Txn) : (s.setTxn l t).qos = s.qos := rfl
@[simp] theorem setTxn_rng (l : Nat) (t : Option Txn) : (s.setTxn l t).rng = s.rng := rfl
@[simp] theorem setTxn_slv (l : Nat) (t : Option Txn) : (s.setTxn l t).slv = s.slv := rfl
@[simp] theorem setTxn_flt (l : Nat) (t : Option Txn) : (s.setTxn l t).flt = s.flt := rfl
@[simp] theorem setTxn_sec (l : Nat) (t : Option Txn) : (s.setTxn l t).sec = s.sec := rfl
@[simp] theorem setTxn_pmc (l : Nat) (t : Option Txn) : (s.setTxn l t).pmc = s.pmc := rfl
@[simp] theorem setTxn_tap (l : Nat) (t : Option Txn) : (s.setTxn l t).tap = s.tap := rfl
@[simp] theorem setTxn_pwr (l : Nat) (t : Option Txn) : (s.setTxn l t).pwr = s.pwr := rfl

/-! ### modSlot -/

@[simp] theorem modSlot_on (i : Nat) (f : Slot → Slot) : (s.modSlot i f).on = s.on := rfl
@[simp] theorem modSlot_clock (i : Nat) (f : Slot → Slot) : (s.modSlot i f).clock = s.clock := rfl
@[simp] theorem modSlot_freeIdx (i : Nat) (f : Slot → Slot) : (s.modSlot i f).freeIdx = s.freeIdx := rfl
@[simp] theorem modSlot_out (i : Nat) (f : Slot → Slot) : (s.modSlot i f).out = s.out := rfl
@[simp] theorem modSlot_pending (i : Nat) (f : Slot → Slot) : (s.modSlot i f).pending = s.pending := rfl
@[simp] theorem modSlot_glb (i : Nat) (f : Slot → Slot) : (s.modSlot i f).glb = s.glb := rfl
@[simp] theorem modSlot_boot (i : Nat) (f : Slot → Slot) : (s.modSlot i f).boot = s.boot := rfl
@[simp] theorem modSlot_pins (i : Nat) (f : Slot → Slot) : (s.modSlot i f).pins = s.pins := rfl
@[simp] theorem modSlot_ports (i : Nat) (f : Slot → Slot) : (s.modSlot i f).ports = s.ports := rfl
@[simp] theorem modSlot_heads (i : Nat) (f : Slot → Slot) : (s.modSlot i f).heads = s.heads := rfl
@[simp] theorem modSlot_regions (i : Nat) (f : Slot → Slot) : (s.modSlot i f).regions = s.regions := rfl
@[simp] theorem modSlot_near (i : Nat) (f : Slot → Slot) : (s.modSlot i f).near = s.near := rfl
@[simp] theorem modSlot_coh (i : Nat) (f : Slot → Slot) : (s.modSlot i f).coh = s.coh := rfl
@[simp] theorem modSlot_dram (i : Nat) (f : Slot → Slot) : (s.modSlot i f).dram = s.dram := rfl
@[simp] theorem modSlot_map (i : Nat) (f : Slot → Slot) : (s.modSlot i f).map = s.map := rfl
@[simp] theorem modSlot_rsv (i : Nat) (f : Slot → Slot) : (s.modSlot i f).rsv = s.rsv := rfl
@[simp] theorem modSlot_vlt (i : Nat) (f : Slot → Slot) : (s.modSlot i f).vlt = s.vlt := rfl
@[simp] theorem modSlot_qos (i : Nat) (f : Slot → Slot) : (s.modSlot i f).qos = s.qos := rfl
@[simp] theorem modSlot_rng (i : Nat) (f : Slot → Slot) : (s.modSlot i f).rng = s.rng := rfl
@[simp] theorem modSlot_slv (i : Nat) (f : Slot → Slot) : (s.modSlot i f).slv = s.slv := rfl
@[simp] theorem modSlot_flt (i : Nat) (f : Slot → Slot) : (s.modSlot i f).flt = s.flt := rfl
@[simp] theorem modSlot_sec (i : Nat) (f : Slot → Slot) : (s.modSlot i f).sec = s.sec := rfl
@[simp] theorem modSlot_pmc (i : Nat) (f : Slot → Slot) : (s.modSlot i f).pmc = s.pmc := rfl
@[simp] theorem modSlot_tap (i : Nat) (f : Slot → Slot) : (s.modSlot i f).tap = s.tap := rfl
@[simp] theorem modSlot_pwr (i : Nat) (f : Slot → Slot) : (s.modSlot i f).pwr = s.pwr := rfl

/-! ### modSeg -/

@[simp] theorem modSeg_on (g : Nat) (f : Seg → Seg) : (s.modSeg g f).on = s.on := rfl
@[simp] theorem modSeg_clock (g : Nat) (f : Seg → Seg) : (s.modSeg g f).clock = s.clock := rfl
@[simp] theorem modSeg_freeIdx (g : Nat) (f : Seg → Seg) : (s.modSeg g f).freeIdx = s.freeIdx := rfl
@[simp] theorem modSeg_out (g : Nat) (f : Seg → Seg) : (s.modSeg g f).out = s.out := rfl
@[simp] theorem modSeg_pending (g : Nat) (f : Seg → Seg) : (s.modSeg g f).pending = s.pending := rfl
@[simp] theorem modSeg_glb (g : Nat) (f : Seg → Seg) : (s.modSeg g f).glb = s.glb := rfl
@[simp] theorem modSeg_boot (g : Nat) (f : Seg → Seg) : (s.modSeg g f).boot = s.boot := rfl
@[simp] theorem modSeg_pins (g : Nat) (f : Seg → Seg) : (s.modSeg g f).pins = s.pins := rfl
@[simp] theorem modSeg_ports (g : Nat) (f : Seg → Seg) : (s.modSeg g f).ports = s.ports := rfl
@[simp] theorem modSeg_heads (g : Nat) (f : Seg → Seg) : (s.modSeg g f).heads = s.heads := rfl
@[simp] theorem modSeg_regions (g : Nat) (f : Seg → Seg) : (s.modSeg g f).regions = s.regions := rfl
@[simp] theorem modSeg_near (g : Nat) (f : Seg → Seg) : (s.modSeg g f).near = s.near := rfl
@[simp] theorem modSeg_coh (g : Nat) (f : Seg → Seg) : (s.modSeg g f).coh = s.coh := rfl
@[simp] theorem modSeg_dram (g : Nat) (f : Seg → Seg) : (s.modSeg g f).dram = s.dram := rfl
@[simp] theorem modSeg_map (g : Nat) (f : Seg → Seg) : (s.modSeg g f).map = s.map := rfl
@[simp] theorem modSeg_rsv (g : Nat) (f : Seg → Seg) : (s.modSeg g f).rsv = s.rsv := rfl
@[simp] theorem modSeg_vlt (g : Nat) (f : Seg → Seg) : (s.modSeg g f).vlt = s.vlt := rfl
@[simp] theorem modSeg_qos (g : Nat) (f : Seg → Seg) : (s.modSeg g f).qos = s.qos := rfl
@[simp] theorem modSeg_rng (g : Nat) (f : Seg → Seg) : (s.modSeg g f).rng = s.rng := rfl
@[simp] theorem modSeg_slv (g : Nat) (f : Seg → Seg) : (s.modSeg g f).slv = s.slv := rfl
@[simp] theorem modSeg_flt (g : Nat) (f : Seg → Seg) : (s.modSeg g f).flt = s.flt := rfl
@[simp] theorem modSeg_sec (g : Nat) (f : Seg → Seg) : (s.modSeg g f).sec = s.sec := rfl
@[simp] theorem modSeg_pmc (g : Nat) (f : Seg → Seg) : (s.modSeg g f).pmc = s.pmc := rfl
@[simp] theorem modSeg_tap (g : Nat) (f : Seg → Seg) : (s.modSeg g f).tap = s.tap := rfl
@[simp] theorem modSeg_pwr (g : Nat) (f : Seg → Seg) : (s.modSeg g f).pwr = s.pwr := rfl

/-! ### modBucket -/

@[simp] theorem modBucket_on (k u : Nat) (f : Bucket → Bucket) : (s.modBucket k u f).on = s.on := rfl
@[simp] theorem modBucket_clock (k u : Nat) (f : Bucket → Bucket) : (s.modBucket k u f).clock = s.clock := rfl
@[simp] theorem modBucket_freeIdx (k u : Nat) (f : Bucket → Bucket) : (s.modBucket k u f).freeIdx = s.freeIdx := rfl
@[simp] theorem modBucket_out (k u : Nat) (f : Bucket → Bucket) : (s.modBucket k u f).out = s.out := rfl
@[simp] theorem modBucket_pending (k u : Nat) (f : Bucket → Bucket) : (s.modBucket k u f).pending = s.pending := rfl
@[simp] theorem modBucket_glb (k u : Nat) (f : Bucket → Bucket) : (s.modBucket k u f).glb = s.glb := rfl
@[simp] theorem modBucket_boot (k u : Nat) (f : Bucket → Bucket) : (s.modBucket k u f).boot = s.boot := rfl
@[simp] theorem modBucket_pins (k u : Nat) (f : Bucket → Bucket) : (s.modBucket k u f).pins = s.pins := rfl
@[simp] theorem modBucket_ports (k u : Nat) (f : Bucket → Bucket) : (s.modBucket k u f).ports = s.ports := rfl
@[simp] theorem modBucket_heads (k u : Nat) (f : Bucket → Bucket) : (s.modBucket k u f).heads = s.heads := rfl
@[simp] theorem modBucket_regions (k u : Nat) (f : Bucket → Bucket) : (s.modBucket k u f).regions = s.regions := rfl
@[simp] theorem modBucket_near (k u : Nat) (f : Bucket → Bucket) : (s.modBucket k u f).near = s.near := rfl
@[simp] theorem modBucket_coh (k u : Nat) (f : Bucket → Bucket) : (s.modBucket k u f).coh = s.coh := rfl
@[simp] theorem modBucket_dram (k u : Nat) (f : Bucket → Bucket) : (s.modBucket k u f).dram = s.dram := rfl
@[simp] theorem modBucket_map (k u : Nat) (f : Bucket → Bucket) : (s.modBucket k u f).map = s.map := rfl
@[simp] theorem modBucket_beam (k u : Nat) (f : Bucket → Bucket) : (s.modBucket k u f).beam = s.beam := rfl
@[simp] theorem modBucket_rsv (k u : Nat) (f : Bucket → Bucket) : (s.modBucket k u f).rsv = s.rsv := rfl
@[simp] theorem modBucket_vlt (k u : Nat) (f : Bucket → Bucket) : (s.modBucket k u f).vlt = s.vlt := rfl
@[simp] theorem modBucket_qos (k u : Nat) (f : Bucket → Bucket) : (s.modBucket k u f).qos = s.qos := rfl
@[simp] theorem modBucket_rng (k u : Nat) (f : Bucket → Bucket) : (s.modBucket k u f).rng = s.rng := rfl
@[simp] theorem modBucket_slv (k u : Nat) (f : Bucket → Bucket) : (s.modBucket k u f).slv = s.slv := rfl
@[simp] theorem modBucket_sec (k u : Nat) (f : Bucket → Bucket) : (s.modBucket k u f).sec = s.sec := rfl
@[simp] theorem modBucket_pmc (k u : Nat) (f : Bucket → Bucket) : (s.modBucket k u f).pmc = s.pmc := rfl
@[simp] theorem modBucket_tap (k u : Nat) (f : Bucket → Bucket) : (s.modBucket k u f).tap = s.tap := rfl
@[simp] theorem modBucket_pwr (k u : Nat) (f : Bucket → Bucket) : (s.modBucket k u f).pwr = s.pwr := rfl

/-! ### emit -/

@[simp] theorem emit_on (o : Output) : (s.emit o).on = s.on := rfl
@[simp] theorem emit_clock (o : Output) : (s.emit o).clock = s.clock := rfl
@[simp] theorem emit_freeIdx (o : Output) : (s.emit o).freeIdx = s.freeIdx := rfl
@[simp] theorem emit_out (o : Output) : (s.emit o).out = s.out ++ [o] := rfl
@[simp] theorem emit_pending (o : Output) : (s.emit o).pending = s.pending := rfl
@[simp] theorem emit_glb (o : Output) : (s.emit o).glb = s.glb := rfl
@[simp] theorem emit_boot (o : Output) : (s.emit o).boot = s.boot := rfl
@[simp] theorem emit_pins (o : Output) : (s.emit o).pins = s.pins := rfl
@[simp] theorem emit_ports (o : Output) : (s.emit o).ports = s.ports := rfl
@[simp] theorem emit_heads (o : Output) : (s.emit o).heads = s.heads := rfl
@[simp] theorem emit_regions (o : Output) : (s.emit o).regions = s.regions := rfl
@[simp] theorem emit_near (o : Output) : (s.emit o).near = s.near := rfl
@[simp] theorem emit_coh (o : Output) : (s.emit o).coh = s.coh := rfl
@[simp] theorem emit_dram (o : Output) : (s.emit o).dram = s.dram := rfl
@[simp] theorem emit_map (o : Output) : (s.emit o).map = s.map := rfl
@[simp] theorem emit_beam (o : Output) : (s.emit o).beam = s.beam := rfl
@[simp] theorem emit_rsv (o : Output) : (s.emit o).rsv = s.rsv := rfl
@[simp] theorem emit_vlt (o : Output) : (s.emit o).vlt = s.vlt := rfl
@[simp] theorem emit_qos (o : Output) : (s.emit o).qos = s.qos := rfl
@[simp] theorem emit_rng (o : Output) : (s.emit o).rng = s.rng := rfl
@[simp] theorem emit_slv (o : Output) : (s.emit o).slv = s.slv := rfl
@[simp] theorem emit_flt (o : Output) : (s.emit o).flt = s.flt := rfl
@[simp] theorem emit_sec (o : Output) : (s.emit o).sec = s.sec := rfl
@[simp] theorem emit_pmc (o : Output) : (s.emit o).pmc = s.pmc := rfl
@[simp] theorem emit_tap (o : Output) : (s.emit o).tap = s.tap := rfl
@[simp] theorem emit_pwr (o : Output) : (s.emit o).pwr = s.pwr := rfl

/-! ### count -/

@[simp] theorem count_on (ev n : Nat) : (s.count ev n).on = s.on := rfl
@[simp] theorem count_clock (ev n : Nat) : (s.count ev n).clock = s.clock := rfl
@[simp] theorem count_freeIdx (ev n : Nat) : (s.count ev n).freeIdx = s.freeIdx := rfl
@[simp] theorem count_out (ev n : Nat) : (s.count ev n).out = s.out := rfl
@[simp] theorem count_pending (ev n : Nat) : (s.count ev n).pending = s.pending := rfl
@[simp] theorem count_glb (ev n : Nat) : (s.count ev n).glb = s.glb := rfl
@[simp] theorem count_boot (ev n : Nat) : (s.count ev n).boot = s.boot := rfl
@[simp] theorem count_pins (ev n : Nat) : (s.count ev n).pins = s.pins := rfl
@[simp] theorem count_ports (ev n : Nat) : (s.count ev n).ports = s.ports := rfl
@[simp] theorem count_heads (ev n : Nat) : (s.count ev n).heads = s.heads := rfl
@[simp] theorem count_regions (ev n : Nat) : (s.count ev n).regions = s.regions := rfl
@[simp] theorem count_near (ev n : Nat) : (s.count ev n).near = s.near := rfl
@[simp] theorem count_coh (ev n : Nat) : (s.count ev n).coh = s.coh := rfl
@[simp] theorem count_dram (ev n : Nat) : (s.count ev n).dram = s.dram := rfl
@[simp] theorem count_map (ev n : Nat) : (s.count ev n).map = s.map := rfl
@[simp] theorem count_beam (ev n : Nat) : (s.count ev n).beam = s.beam := rfl
@[simp] theorem count_rsv (ev n : Nat) : (s.count ev n).rsv = s.rsv := rfl
@[simp] theorem count_vlt (ev n : Nat) : (s.count ev n).vlt = s.vlt := rfl
@[simp] theorem count_qos (ev n : Nat) : (s.count ev n).qos = s.qos := rfl
@[simp] theorem count_rng (ev n : Nat) : (s.count ev n).rng = s.rng := rfl
@[simp] theorem count_slv (ev n : Nat) : (s.count ev n).slv = s.slv := rfl
@[simp] theorem count_flt (ev n : Nat) : (s.count ev n).flt = s.flt := rfl
@[simp] theorem count_sec (ev n : Nat) : (s.count ev n).sec = s.sec := rfl
@[simp] theorem count_tap (ev n : Nat) : (s.count ev n).tap = s.tap := rfl
@[simp] theorem count_pwr (ev n : Nat) : (s.count ev n).pwr = s.pwr := rfl

/-! ### minuteMax -/

@[simp] theorem minuteMax_on (k v : Nat) : (s.minuteMax k v).on = s.on := rfl
@[simp] theorem minuteMax_clock (k v : Nat) : (s.minuteMax k v).clock = s.clock := rfl
@[simp] theorem minuteMax_freeIdx (k v : Nat) : (s.minuteMax k v).freeIdx = s.freeIdx := rfl
@[simp] theorem minuteMax_out (k v : Nat) : (s.minuteMax k v).out = s.out := rfl
@[simp] theorem minuteMax_pending (k v : Nat) : (s.minuteMax k v).pending = s.pending := rfl
@[simp] theorem minuteMax_glb (k v : Nat) : (s.minuteMax k v).glb = s.glb := rfl
@[simp] theorem minuteMax_boot (k v : Nat) : (s.minuteMax k v).boot = s.boot := rfl
@[simp] theorem minuteMax_pins (k v : Nat) : (s.minuteMax k v).pins = s.pins := rfl
@[simp] theorem minuteMax_ports (k v : Nat) : (s.minuteMax k v).ports = s.ports := rfl
@[simp] theorem minuteMax_heads (k v : Nat) : (s.minuteMax k v).heads = s.heads := rfl
@[simp] theorem minuteMax_regions (k v : Nat) : (s.minuteMax k v).regions = s.regions := rfl
@[simp] theorem minuteMax_near (k v : Nat) : (s.minuteMax k v).near = s.near := rfl
@[simp] theorem minuteMax_coh (k v : Nat) : (s.minuteMax k v).coh = s.coh := rfl
@[simp] theorem minuteMax_dram (k v : Nat) : (s.minuteMax k v).dram = s.dram := rfl
@[simp] theorem minuteMax_map (k v : Nat) : (s.minuteMax k v).map = s.map := rfl
@[simp] theorem minuteMax_beam (k v : Nat) : (s.minuteMax k v).beam = s.beam := rfl
@[simp] theorem minuteMax_rsv (k v : Nat) : (s.minuteMax k v).rsv = s.rsv := rfl
@[simp] theorem minuteMax_vlt (k v : Nat) : (s.minuteMax k v).vlt = s.vlt := rfl
@[simp] theorem minuteMax_qos (k v : Nat) : (s.minuteMax k v).qos = s.qos := rfl
@[simp] theorem minuteMax_rng (k v : Nat) : (s.minuteMax k v).rng = s.rng := rfl
@[simp] theorem minuteMax_slv (k v : Nat) : (s.minuteMax k v).slv = s.slv := rfl
@[simp] theorem minuteMax_flt (k v : Nat) : (s.minuteMax k v).flt = s.flt := rfl
@[simp] theorem minuteMax_sec (k v : Nat) : (s.minuteMax k v).sec = s.sec := rfl
@[simp] theorem minuteMax_pmc (k v : Nat) : (s.minuteMax k v).pmc = s.pmc := rfl
@[simp] theorem minuteMax_pwr (k v : Nat) : (s.minuteMax k v).pwr = s.pwr := rfl

/-! ### settle -/

@[simp] theorem settle_on : (settle s).on = s.on := rfl
@[simp] theorem settle_clock : (settle s).clock = s.clock := rfl
@[simp] theorem settle_freeIdx : (settle s).freeIdx = s.freeIdx := rfl
@[simp] theorem settle_out : (settle s).out = s.out := rfl
@[simp] theorem settle_pending : (settle s).pending = s.pending := rfl
@[simp] theorem settle_glb : (settle s).glb = s.glb := rfl
@[simp] theorem settle_boot : (settle s).boot = s.boot := rfl
@[simp] theorem settle_pins : (settle s).pins = s.pins := rfl
@[simp] theorem settle_ports : (settle s).ports = s.ports := rfl
@[simp] theorem settle_heads : (settle s).heads = s.heads := rfl
@[simp] theorem settle_regions : (settle s).regions = s.regions := rfl
@[simp] theorem settle_near : (settle s).near = s.near := rfl
@[simp] theorem settle_coh : (settle s).coh = s.coh := rfl
@[simp] theorem settle_dram : (settle s).dram = s.dram := rfl
@[simp] theorem settle_map : (settle s).map = s.map := rfl
@[simp] theorem settle_beam : (settle s).beam = s.beam := rfl
@[simp] theorem settle_rsv : (settle s).rsv = s.rsv.interlock s.vlt.hold := rfl
@[simp] theorem settle_vlt : (settle s).vlt = s.vlt := rfl
@[simp] theorem settle_qos : (settle s).qos = s.qos := rfl
@[simp] theorem settle_rng : (settle s).rng = s.rng := rfl
@[simp] theorem settle_slv : (settle s).slv = s.slv := rfl
@[simp] theorem settle_flt : (settle s).flt = s.flt.alerts := rfl
@[simp] theorem settle_sec : (settle s).sec = s.sec := rfl
@[simp] theorem settle_pmc : (settle s).pmc = s.pmc := rfl
@[simp] theorem settle_tap : (settle s).tap = s.tap := rfl
@[simp] theorem settle_pwr : (settle s).pwr = s.pwr := rfl

end Sys2Proof.Machine
end

