-- ==== Sys2Proof/Laws/Ops.lean ====
section
/-! SUPPORT. What the shared operations of Machine/Ops.lean can do: the fields that posting a notice, giving an event record and
counting an error leave, the frame in which a command runs, the notice FIFO and the pin interlock. -/
namespace Sys2Proof.Machine

variable (s : State)

/-! ### when -/

@[simp] theorem when_true (f : State → State) : s.when true f = f s := rfl
@[simp] theorem when_false (f : State → State) : s.when false f = s := rfl

/-! ### Event records -/

/-- A message of the MSI-X table changes the function of a head or what is sent. -/
theorem sendMsix_cases (h v : Nat) : ∃ (hs : Tbl Head) (out : List Output), s.sendMsix h v = { s with heads := hs, out := out } := by
  unfold State.sendMsix; split <;> exact ⟨_, _, rfl⟩

/-- An event record changes the heads and what is sent, and nothing else. -/
theorem event_cases (h : Nat) (e : EventRec) : ∃ (hs : Tbl Head) (out : List Output), s.event h e = { s with heads := hs, out := out } := by
  unfold State.event; dsimp only; split
  · split
    · obtain ⟨a, b, hab⟩ := sendMsix_cases (s.modFunc h fun f => { f with
        events := f.events ++ [⟨e.log, f.nextHandle, e⟩], nextHandle := f.nextHandle % 65535 + 1 }) h _
      rw [hab]; exact ⟨_, _, rfl⟩
    · exact ⟨_, _, rfl⟩
  · exact ⟨_, _, rfl⟩

@[simp] theorem event_on (h : Nat) (e : EventRec) : (s.event h e).on = s.on := by obtain ⟨_, _, h⟩ := event_cases s h e; rw [h]
@[simp] theorem event_clock (h : Nat) (e : EventRec) : (s.event h e).clock = s.clock := by obtain ⟨_, _, h⟩ := event_cases s h e; rw [h]
@[simp] theorem event_freeIdx (h : Nat) (e : EventRec) : (s.event h e).freeIdx = s.freeIdx := by obtain ⟨_, _, h⟩ := event_cases s h e; rw [h]
@[simp] theorem event_pending (h : Nat) (e : EventRec) : (s.event h e).pending = s.pending := by obtain ⟨_, _, h⟩ := event_cases s h e; rw [h]
@[simp] theorem event_glb (h : Nat) (e : EventRec) : (s.event h e).glb = s.glb := by obtain ⟨_, _, h⟩ := event_cases s h e; rw [h]
@[simp] theorem event_boot (h : Nat) (e : EventRec) : (s.event h e).boot = s.boot := by obtain ⟨_, _, h⟩ := event_cases s h e; rw [h]
@[simp] theorem event_pins (h : Nat) (e : EventRec) : (s.event h e).pins = s.pins := by obtain ⟨_, _, h⟩ := event_cases s h e; rw [h]
@[simp] theorem event_ports (h : Nat) (e : EventRec) : (s.event h e).ports = s.ports := by obtain ⟨_, _, h⟩ := event_cases s h e; rw [h]
@[simp] theorem event_regions (h : Nat) (e : EventRec) : (s.event h e).regions = s.regions := by obtain ⟨_, _, h⟩ := event_cases s h e; rw [h]
@[simp] theorem event_near (h : Nat) (e : EventRec) : (s.event h e).near = s.near := by obtain ⟨_, _, h⟩ := event_cases s h e; rw [h]
@[simp] theorem event_coh (h : Nat) (e : EventRec) : (s.event h e).coh = s.coh := by obtain ⟨_, _, h⟩ := event_cases s h e; rw [h]
@[simp] theorem event_dram (h : Nat) (e : EventRec) : (s.event h e).dram = s.dram := by obtain ⟨_, _, h⟩ := event_cases s h e; rw [h]
@[simp] theorem event_map (h : Nat) (e : EventRec) : (s.event h e).map = s.map := by obtain ⟨_, _, h⟩ := event_cases s h e; rw [h]
@[simp] theorem event_beam (h : Nat) (e : EventRec) : (s.event h e).beam = s.beam := by obtain ⟨_, _, h⟩ := event_cases s h e; rw [h]
@[simp] theorem event_rsv (h : Nat) (e : EventRec) : (s.event h e).rsv = s.rsv := by obtain ⟨_, _, h⟩ := event_cases s h e; rw [h]
@[simp] theorem event_vlt (h : Nat) (e : EventRec) : (s.event h e).vlt = s.vlt := by obtain ⟨_, _, h⟩ := event_cases s h e; rw [h]
@[simp] theorem event_qos (h : Nat) (e : EventRec) : (s.event h e).qos = s.qos := by obtain ⟨_, _, h⟩ := event_cases s h e; rw [h]
@[simp] theorem event_rng (h : Nat) (e : EventRec) : (s.event h e).rng = s.rng := by obtain ⟨_, _, h⟩ := event_cases s h e; rw [h]
@[simp] theorem event_slv (h : Nat) (e : EventRec) : (s.event h e).slv = s.slv := by obtain ⟨_, _, h⟩ := event_cases s h e; rw [h]
@[simp] theorem event_flt (h : Nat) (e : EventRec) : (s.event h e).flt = s.flt := by obtain ⟨_, _, h⟩ := event_cases s h e; rw [h]
@[simp] theorem event_sec (h : Nat) (e : EventRec) : (s.event h e).sec = s.sec := by obtain ⟨_, _, h⟩ := event_cases s h e; rw [h]
@[simp] theorem event_pmc (h : Nat) (e : EventRec) : (s.event h e).pmc = s.pmc := by obtain ⟨_, _, h⟩ := event_cases s h e; rw [h]
@[simp] theorem event_tap (h : Nat) (e : EventRec) : (s.event h e).tap = s.tap := by obtain ⟨_, _, h⟩ := event_cases s h e; rw [h]
@[simp] theorem event_pwr (h : Nat) (e : EventRec) : (s.event h e).pwr = s.pwr := by obtain ⟨_, _, h⟩ := event_cases s h e; rw [h]

theorem eventAll_fold (e : EventRec) : ∀ (l : List Nat) (s : State),
    ∃ (hs : Tbl Head) (out : List Output), l.foldl (fun s h => s.event h e) s = { s with heads := hs, out := out }
  | [], s => ⟨s.heads, s.out, rfl⟩
  | h :: l, s => by
    obtain ⟨c, d, hcd⟩ := event_cases s h e
    obtain ⟨a, b, hab⟩ := eventAll_fold e l (s.event h e)
    refine ⟨a, b, ?_⟩
    rw [List.foldl_cons, hab, hcd]

/-- Event records for every head change the heads and what is sent, and nothing else. -/
theorem eventAll_cases (e : EventRec) :
    ∃ (hs : Tbl Head) (out : List Output), s.eventAll e = { s with heads := hs, out := out } := eventAll_fold e _ s

@[simp] theorem eventAll_on (e : EventRec) : (s.eventAll e).on = s.on := by obtain ⟨_, _, h⟩ := eventAll_cases s e; rw [h]
@[simp] theorem eventAll_clock (e : EventRec) : (s.eventAll e).clock = s.clock := by obtain ⟨_, _, h⟩ := eventAll_cases s e; rw [h]
@[simp] theorem eventAll_freeIdx (e : EventRec) : (s.eventAll e).freeIdx = s.freeIdx := by obtain ⟨_, _, h⟩ := eventAll_cases s e; rw [h]
@[simp] theorem eventAll_pending (e : EventRec) : (s.eventAll e).pending = s.pending := by obtain ⟨_, _, h⟩ := eventAll_cases s e; rw [h]
@[simp] theorem eventAll_glb (e : EventRec) : (s.eventAll e).glb = s.glb := by obtain ⟨_, _, h⟩ := eventAll_cases s e; rw [h]
@[simp] theorem eventAll_boot (e : EventRec) : (s.eventAll e).boot = s.boot := by obtain ⟨_, _, h⟩ := eventAll_cases s e; rw [h]
@[simp] theorem eventAll_pins (e : EventRec) : (s.eventAll e).pins = s.pins := by obtain ⟨_, _, h⟩ := eventAll_cases s e; rw [h]
@[simp] theorem eventAll_ports (e : EventRec) : (s.eventAll e).ports = s.ports := by obtain ⟨_, _, h⟩ := eventAll_cases s e; rw [h]
@[simp] theorem eventAll_regions (e : EventRec) : (s.eventAll e).regions = s.regions := by obtain ⟨_, _, h⟩ := eventAll_cases s e; rw [h]
@[simp] theorem eventAll_near (e : EventRec) : (s.eventAll e).near = s.near := by obtain ⟨_, _, h⟩ := eventAll_cases s e; rw [h]
@[simp] theorem eventAll_coh (e : EventRec) : (s.eventAll e).coh = s.coh := by obtain ⟨_, _, h⟩ := eventAll_cases s e; rw [h]
@[simp] theorem eventAll_dram (e : EventRec) : (s.eventAll e).dram = s.dram := by obtain ⟨_, _, h⟩ := eventAll_cases s e; rw [h]
@[simp] theorem eventAll_map (e : EventRec) : (s.eventAll e).map = s.map := by obtain ⟨_, _, h⟩ := eventAll_cases s e; rw [h]
@[simp] theorem eventAll_beam (e : EventRec) : (s.eventAll e).beam = s.beam := by obtain ⟨_, _, h⟩ := eventAll_cases s e; rw [h]
@[simp] theorem eventAll_rsv (e : EventRec) : (s.eventAll e).rsv = s.rsv := by obtain ⟨_, _, h⟩ := eventAll_cases s e; rw [h]
@[simp] theorem eventAll_vlt (e : EventRec) : (s.eventAll e).vlt = s.vlt := by obtain ⟨_, _, h⟩ := eventAll_cases s e; rw [h]
@[simp] theorem eventAll_qos (e : EventRec) : (s.eventAll e).qos = s.qos := by obtain ⟨_, _, h⟩ := eventAll_cases s e; rw [h]
@[simp] theorem eventAll_rng (e : EventRec) : (s.eventAll e).rng = s.rng := by obtain ⟨_, _, h⟩ := eventAll_cases s e; rw [h]
@[simp] theorem eventAll_slv (e : EventRec) : (s.eventAll e).slv = s.slv := by obtain ⟨_, _, h⟩ := eventAll_cases s e; rw [h]
@[simp] theorem eventAll_flt (e : EventRec) : (s.eventAll e).flt = s.flt := by obtain ⟨_, _, h⟩ := eventAll_cases s e; rw [h]
@[simp] theorem eventAll_sec (e : EventRec) : (s.eventAll e).sec = s.sec := by obtain ⟨_, _, h⟩ := eventAll_cases s e; rw [h]
@[simp] theorem eventAll_pmc (e : EventRec) : (s.eventAll e).pmc = s.pmc := by obtain ⟨_, _, h⟩ := eventAll_cases s e; rw [h]
@[simp] theorem eventAll_tap (e : EventRec) : (s.eventAll e).tap = s.tap := by obtain ⟨_, _, h⟩ := eventAll_cases s e; rw [h]
@[simp] theorem eventAll_pwr (e : EventRec) : (s.eventAll e).pwr = s.pwr := by obtain ⟨_, _, h⟩ := eventAll_cases s e; rw [h]

/-! ### The tapestry buffer -/

/-- Putting a draft changes the tapestry, or counts a dropped record. -/
theorem tapPut_cases (l : Line) : ∃ (t : Tap) (p : Pmc), s.tapPut l = { s with tap := t, pmc := p } := by
  unfold State.tapPut State.tapDrop; dsimp only; split <;> exact ⟨_, _, rfl⟩

/-- The EVENT record of a notice changes the tapestry and a counter, and nothing else. -/
theorem tapEvent_cases (n : Note) : ∃ (t : Tap) (p : Pmc), s.tapEvent n = { s with tap := t, pmc := p } := by
  have key : ∀ x : State, (∃ t p, x = { s with tap := t, pmc := p }) → ∀ l, ∃ t p, x.tapPut l = { s with tap := t, pmc := p } := by
    rintro x ⟨t, p, rfl⟩ l
    obtain ⟨t1, p1, h1⟩ := tapPut_cases { s with tap := t, pmc := p } l
    exact ⟨t1, p1, h1⟩
  by_cases h : max 1 (fld s.tap.ctl 0 2) ≤ n.sev
  all_goals
    unfold State.tapEvent
    simp only [h, if_true, if_false]
    split
    · exact ⟨_, _, rfl⟩
    · split
      · split
        · exact ⟨_, _, rfl⟩
        · exact key _ ⟨_, _, rfl⟩ _
      · exact key _ ⟨_, _, rfl⟩ _


/-! ### Notices -/

/-- Posting a notice enters it into the FIFO, records it, counts it and may give the management head an event record. -/
theorem note_cases (n : Note) : ∃ (t : Tap) (p : Pmc) (hs : Tbl Head) (out : List Output),
    s.note n = { s with flt := s.flt.enter n.words, tap := t, pmc := p, heads := hs, out := out } := by
  obtain ⟨t, p, h⟩ := tapEvent_cases ({ s with flt := s.flt.enter n.words } : State) n
  unfold State.note
  dsimp only
  rw [h]
  have key : ∀ x : State, (∃ t p, x = { s with flt := s.flt.enter n.words, tap := t, pmc := p }) → ∀ (b : Bool) g e, ∃ t p hs out,
      (if b then x.event g e else x) = { s with flt := s.flt.enter n.words, tap := t, pmc := p, heads := hs, out := out } := by
    rintro x ⟨t, p, rfl⟩ b g e
    cases b
    · exact ⟨_, _, _, _, rfl⟩
    · obtain ⟨a, c, hac⟩ := event_cases { s with flt := s.flt.enter n.words, tap := t, pmc := p } g e
      exact ⟨t, p, a, c, by rw [if_pos rfl, hac]⟩
  exact key _ (by split <;> exact ⟨_, _, rfl⟩) _ _ _

/-- Posting a notice enters it into the FIFO and changes no other fault state. -/
@[simp] theorem note_flt (n : Note) : (s.note n).flt = s.flt.enter n.words := by
  obtain ⟨_, _, _, _, h⟩ := note_cases s n; rw [h]

@[simp] theorem note_on (n : Note) : (s.note n).on = s.on := by obtain ⟨_, _, _, _, h⟩ := note_cases s n; rw [h]
@[simp] theorem note_clock (n : Note) : (s.note n).clock = s.clock := by obtain ⟨_, _, _, _, h⟩ := note_cases s n; rw [h]
@[simp] theorem note_freeIdx (n : Note) : (s.note n).freeIdx = s.freeIdx := by obtain ⟨_, _, _, _, h⟩ := note_cases s n; rw [h]
@[simp] theorem note_pending (n : Note) : (s.note n).pending = s.pending := by obtain ⟨_, _, _, _, h⟩ := note_cases s n; rw [h]
@[simp] theorem note_glb (n : Note) : (s.note n).glb = s.glb := by obtain ⟨_, _, _, _, h⟩ := note_cases s n; rw [h]
@[simp] theorem note_boot (n : Note) : (s.note n).boot = s.boot := by obtain ⟨_, _, _, _, h⟩ := note_cases s n; rw [h]
@[simp] theorem note_pins (n : Note) : (s.note n).pins = s.pins := by obtain ⟨_, _, _, _, h⟩ := note_cases s n; rw [h]
@[simp] theorem note_ports (n : Note) : (s.note n).ports = s.ports := by obtain ⟨_, _, _, _, h⟩ := note_cases s n; rw [h]
@[simp] theorem note_regions (n : Note) : (s.note n).regions = s.regions := by obtain ⟨_, _, _, _, h⟩ := note_cases s n; rw [h]
@[simp] theorem note_near (n : Note) : (s.note n).near = s.near := by obtain ⟨_, _, _, _, h⟩ := note_cases s n; rw [h]
@[simp] theorem note_coh (n : Note) : (s.note n).coh = s.coh := by obtain ⟨_, _, _, _, h⟩ := note_cases s n; rw [h]
@[simp] theorem note_dram (n : Note) : (s.note n).dram = s.dram := by obtain ⟨_, _, _, _, h⟩ := note_cases s n; rw [h]
@[simp] theorem note_map (n : Note) : (s.note n).map = s.map := by obtain ⟨_, _, _, _, h⟩ := note_cases s n; rw [h]
@[simp] theorem note_beam (n : Note) : (s.note n).beam = s.beam := by obtain ⟨_, _, _, _, h⟩ := note_cases s n; rw [h]
@[simp] theorem note_rsv (n : Note) : (s.note n).rsv = s.rsv := by obtain ⟨_, _, _, _, h⟩ := note_cases s n; rw [h]
@[simp] theorem note_vlt (n : Note) : (s.note n).vlt = s.vlt := by obtain ⟨_, _, _, _, h⟩ := note_cases s n; rw [h]
@[simp] theorem note_qos (n : Note) : (s.note n).qos = s.qos := by obtain ⟨_, _, _, _, h⟩ := note_cases s n; rw [h]
@[simp] theorem note_rng (n : Note) : (s.note n).rng = s.rng := by obtain ⟨_, _, _, _, h⟩ := note_cases s n; rw [h]
@[simp] theorem note_slv (n : Note) : (s.note n).slv = s.slv := by obtain ⟨_, _, _, _, h⟩ := note_cases s n; rw [h]
@[simp] theorem note_sec (n : Note) : (s.note n).sec = s.sec := by obtain ⟨_, _, _, _, h⟩ := note_cases s n; rw [h]
@[simp] theorem note_pwr (n : Note) : (s.note n).pwr = s.pwr := by obtain ⟨_, _, _, _, h⟩ := note_cases s n; rw [h]
@[simp] theorem access_on (src region cause arg1 : Nat) : (s.access src region cause arg1).on = s.on := note_on s _
@[simp] theorem access_clock (src region cause arg1 : Nat) : (s.access src region cause arg1).clock = s.clock := note_clock s _
@[simp] theorem access_freeIdx (src region cause arg1 : Nat) : (s.access src region cause arg1).freeIdx = s.freeIdx := note_freeIdx s _
@[simp] theorem access_pending (src region cause arg1 : Nat) : (s.access src region cause arg1).pending = s.pending := note_pending s _
@[simp] theorem access_glb (src region cause arg1 : Nat) : (s.access src region cause arg1).glb = s.glb := note_glb s _
@[simp] theorem access_boot (src region cause arg1 : Nat) : (s.access src region cause arg1).boot = s.boot := note_boot s _
@[simp] theorem access_pins (src region cause arg1 : Nat) : (s.access src region cause arg1).pins = s.pins := note_pins s _
@[simp] theorem access_ports (src region cause arg1 : Nat) : (s.access src region cause arg1).ports = s.ports := note_ports s _
@[simp] theorem access_regions (src region cause arg1 : Nat) : (s.access src region cause arg1).regions = s.regions := note_regions s _
@[simp] theorem access_near (src region cause arg1 : Nat) : (s.access src region cause arg1).near = s.near := note_near s _
@[simp] theorem access_coh (src region cause arg1 : Nat) : (s.access src region cause arg1).coh = s.coh := note_coh s _
@[simp] theorem access_dram (src region cause arg1 : Nat) : (s.access src region cause arg1).dram = s.dram := note_dram s _
@[simp] theorem access_map (src region cause arg1 : Nat) : (s.access src region cause arg1).map = s.map := note_map s _
@[simp] theorem access_beam (src region cause arg1 : Nat) : (s.access src region cause arg1).beam = s.beam := note_beam s _
@[simp] theorem access_rsv (src region cause arg1 : Nat) : (s.access src region cause arg1).rsv = s.rsv := note_rsv s _
@[simp] theorem access_vlt (src region cause arg1 : Nat) : (s.access src region cause arg1).vlt = s.vlt := note_vlt s _
@[simp] theorem access_qos (src region cause arg1 : Nat) : (s.access src region cause arg1).qos = s.qos := note_qos s _
@[simp] theorem access_rng (src region cause arg1 : Nat) : (s.access src region cause arg1).rng = s.rng := note_rng s _
@[simp] theorem access_slv (src region cause arg1 : Nat) : (s.access src region cause arg1).slv = s.slv := note_slv s _
@[simp] theorem access_sec (src region cause arg1 : Nat) : (s.access src region cause arg1).sec = s.sec := note_sec s _
@[simp] theorem access_pwr (src region cause arg1 : Nat) : (s.access src region cause arg1).pwr = s.pwr := note_pwr s _

/-! ### Counted errors -/

@[simp] theorem bump_on (k u w : Nat) : (s.bump k u w).on = s.on := by unfold State.bump; dsimp only; split <;> rfl
@[simp] theorem bump_clock (k u w : Nat) : (s.bump k u w).clock = s.clock := by unfold State.bump; dsimp only; split <;> rfl
@[simp] theorem bump_freeIdx (k u w : Nat) : (s.bump k u w).freeIdx = s.freeIdx := by unfold State.bump; dsimp only; split <;> rfl
@[simp] theorem bump_out (k u w : Nat) : (s.bump k u w).out = s.out := by unfold State.bump; dsimp only; split <;> rfl
@[simp] theorem bump_pending (k u w : Nat) : (s.bump k u w).pending = s.pending := by unfold State.bump; dsimp only; split <;> rfl
@[simp] theorem bump_glb (k u w : Nat) : (s.bump k u w).glb = s.glb := by unfold State.bump; dsimp only; split <;> rfl
@[simp] theorem bump_boot (k u w : Nat) : (s.bump k u w).boot = s.boot := by unfold State.bump; dsimp only; split <;> rfl
@[simp] theorem bump_pins (k u w : Nat) : (s.bump k u w).pins = s.pins := by unfold State.bump; dsimp only; split <;> rfl
@[simp] theorem bump_ports (k u w : Nat) : (s.bump k u w).ports = s.ports := by unfold State.bump; dsimp only; split <;> rfl
@[simp] theorem bump_heads (k u w : Nat) : (s.bump k u w).heads = s.heads := by unfold State.bump; dsimp only; split <;> rfl
@[simp] theorem bump_regions (k u w : Nat) : (s.bump k u w).regions = s.regions := by unfold State.bump; dsimp only; split <;> rfl
@[simp] theorem bump_near (k u w : Nat) : (s.bump k u w).near = s.near := by unfold State.bump; dsimp only; split <;> rfl
@[simp] theorem bump_coh (k u w : Nat) : (s.bump k u w).coh = s.coh := by unfold State.bump; dsimp only; split <;> rfl
@[simp] theorem bump_dram (k u w : Nat) : (s.bump k u w).dram = s.dram := by unfold State.bump; dsimp only; split <;> rfl
@[simp] theorem bump_map (k u w : Nat) : (s.bump k u w).map = s.map := by unfold State.bump; dsimp only; split <;> rfl
@[simp] theorem bump_beam (k u w : Nat) : (s.bump k u w).beam = s.beam := by unfold State.bump; dsimp only; split <;> rfl
@[simp] theorem bump_rsv (k u w : Nat) : (s.bump k u w).rsv = s.rsv := by unfold State.bump; dsimp only; split <;> rfl
@[simp] theorem bump_vlt (k u w : Nat) : (s.bump k u w).vlt = s.vlt := by unfold State.bump; dsimp only; split <;> rfl
@[simp] theorem bump_qos (k u w : Nat) : (s.bump k u w).qos = s.qos := by unfold State.bump; dsimp only; split <;> rfl
@[simp] theorem bump_rng (k u w : Nat) : (s.bump k u w).rng = s.rng := by unfold State.bump; dsimp only; split <;> rfl
@[simp] theorem bump_slv (k u w : Nat) : (s.bump k u w).slv = s.slv := by unfold State.bump; dsimp only; split <;> rfl
@[simp] theorem bump_sec (k u w : Nat) : (s.bump k u w).sec = s.sec := by unfold State.bump; dsimp only; split <;> rfl
@[simp] theorem bump_pmc (k u w : Nat) : (s.bump k u w).pmc = s.pmc := by unfold State.bump; dsimp only; split <;> rfl
@[simp] theorem bump_pwr (k u w : Nat) : (s.bump k u w).pwr = s.pwr := by unfold State.bump; dsimp only; split <;> rfl

/-! ### The frame of a command -/

/-- A command's effect while the device is on, with the hardware's settling after it. -/
theorem run_on (f : State → State) {s : State} (h : s.on = true) : run f s = .next (settle (f { s with out := [] })) := by
  simp [run, h]

/-- No effect while the device is off. -/
theorem run_off (f : State → State) {s : State} (h : s.on = false) : run f s = .next (settle s) := by
  simp [run, h]

/-- A command whose occasion does not exist has no effect but to clear the last command's messages. -/
theorem run_when_false {s : State} {c : State → Bool} {f : State → State} (h : s.on = true)
    (hc : c { s with out := [] } = false) : run (fun s => s.when (c s) f) s = .next (settle { s with out := [] }) := by
  rw [run_on _ h]; simp only [hc, when_false]

/-! ### The notice FIFO -/

/-- A notice has one or two words. -/
theorem Note.words_length (n : Note) : n.words.length = 1 ∨ n.words.length = 2 := by
  unfold Note.words; split <;> simp

/-- The FIFO never holds more than 1,024 words. -/
theorem Flt.enter_bound {f : Flt} (ws : List Word) (h : f.fifo.length ≤ 1024) : (f.enter ws).fifo.length ≤ 1024 := by
  unfold Flt.enter
  split
  · split
    · simpa using by assumption
    · exact h
  · split
    · simp; omega
    · exact h

/-! ### The pin interlock -/

/-- After the interlock the charger and the test load are never on together, and neither while the hold-up switch is. -/
theorem Rsv.interlock_safe (r : Rsv) (hold : Bool) :
    ((r.interlock hold).charging && (r.interlock hold).testing) = false
      ∧ (hold = true → (r.interlock hold).charging = false ∧ (r.interlock hold).testing = false) := by
  cases hold <;> cases h1 : r.charging <;> cases h2 : r.testing <;> simp [Rsv.interlock, h1, h2]

end Sys2Proof.Machine
end

