-- ==== Sys2Proof/Laws/Frame.lean ====
section
/-! SUPPORT. The state in which a command begins to act: what the last command sent is gone, and every other part of the state,
and every reading of it, is as it was. -/
namespace Sys2Proof.Machine

variable (s : State)

/-- What a command does while the device is on. -/
theorem run_hush (f : State → State) {s : State} (h : s.on = true) : run f s = .next (settle (f s.hush)) := run_on f h

@[simp] theorem hush_out : s.hush.out = [] := rfl
@[simp] theorem hush_on : s.hush.on = s.on := rfl
@[simp] theorem hush_clock : s.hush.clock = s.clock := rfl
@[simp] theorem hush_freeIdx : s.hush.freeIdx = s.freeIdx := rfl
@[simp] theorem hush_pending : s.hush.pending = s.pending := rfl
@[simp] theorem hush_glb : s.hush.glb = s.glb := rfl
@[simp] theorem hush_boot : s.hush.boot = s.boot := rfl
@[simp] theorem hush_pins : s.hush.pins = s.pins := rfl
@[simp] theorem hush_ports : s.hush.ports = s.ports := rfl
@[simp] theorem hush_heads : s.hush.heads = s.heads := rfl
@[simp] theorem hush_regions : s.hush.regions = s.regions := rfl
@[simp] theorem hush_near : s.hush.near = s.near := rfl
@[simp] theorem hush_coh : s.hush.coh = s.coh := rfl
@[simp] theorem hush_dram : s.hush.dram = s.dram := rfl
@[simp] theorem hush_map : s.hush.map = s.map := rfl
@[simp] theorem hush_beam : s.hush.beam = s.beam := rfl
@[simp] theorem hush_rsv : s.hush.rsv = s.rsv := rfl
@[simp] theorem hush_vlt : s.hush.vlt = s.vlt := rfl
@[simp] theorem hush_qos : s.hush.qos = s.qos := rfl
@[simp] theorem hush_rng : s.hush.rng = s.rng := rfl
@[simp] theorem hush_slv : s.hush.slv = s.slv := rfl
@[simp] theorem hush_flt : s.hush.flt = s.flt := rfl
@[simp] theorem hush_sec : s.hush.sec = s.sec := rfl
@[simp] theorem hush_pmc : s.hush.pmc = s.pmc := rfl
@[simp] theorem hush_tap : s.hush.tap = s.tap := rfl
@[simp] theorem hush_pwr : s.hush.pwr = s.pwr := rfl
@[simp] theorem hush_head (h : Nat) : s.hush.head h = s.head h := rfl
@[simp] theorem hush_region (n : Nat) : s.hush.region n = s.region n := rfl
@[simp] theorem hush_chan (m : Nat) : s.hush.chan m = s.chan m := rfl
@[simp] theorem hush_page (p : Nat) : s.hush.page p = s.page p := rfl
@[simp] theorem hush_unit (u : Nat) : s.hush.unit u = s.unit u := rfl
@[simp] theorem hush_txn (l : Nat) : s.hush.txn l = s.txn l := rfl
@[simp] theorem hush_slot (i : Nat) : s.hush.slot i = s.slot i := rfl
@[simp] theorem hush_seg (g : Nat) : s.hush.seg g = s.seg g := rfl
@[simp] theorem hush_present (h : Nat) : s.hush.present h = s.present h := rfl
@[simp] theorem hush_memOn (h : Nat) : s.hush.memOn h = s.memOn h := rfl
@[simp] theorem hush_ownerTile (l : Nat) : s.hush.ownerTile l = s.ownerTile l := rfl
@[simp] theorem hush_homeTile (l : Nat) : s.hush.homeTile l = s.homeTile l := rfl
@[simp] theorem hush_regionOf (l : Nat) : s.hush.regionOf l = s.regionOf l := rfl
@[simp] theorem hush_regionAt (l : Nat) : s.hush.regionAt l = s.regionAt l := rfl
@[simp] theorem hush_frameLive (f : Nat) : s.hush.frameLive f = s.frameLive f := rfl
@[simp] theorem hush_frameUse (f : Nat) : s.hush.frameUse f = s.frameUse f := rfl
@[simp] theorem hush_frameFree (f : Nat) : s.hush.frameFree f = s.frameFree f := rfl
@[simp] theorem hush_cell (f i : Nat) : s.hush.cell f i = s.cell f i := rfl
@[simp] theorem hush_devLoad (h : Nat) : s.hush.devLoad h = s.devLoad h := rfl
@[simp] theorem hush_reaches (r : Nat) : s.hush.reaches r = s.reaches r := rfl
@[simp] theorem hush_isMgmt (r : Nat) : s.hush.isMgmt r = s.isMgmt r := rfl
@[simp] theorem hush_bucket (k u : Nat) : s.hush.bucket k u = s.bucket k u := rfl
@[simp] theorem hush_slvRgn (n : Nat) : s.hush.slvRgn n = s.slvRgn n := rfl
@[simp] theorem hush_ring (r : Nat) : s.hush.ring r = s.ring r := rfl
@[simp] theorem hush_gen (r : Nat) : s.hush.gen r = s.gen r := rfl
@[simp] theorem hush_tileRetired (t : Nat) : s.hush.tileRetired t = s.tileRetired t := rfl
@[simp] theorem hush_way (a b c : Nat) : s.hush.way a b c = s.way a b c := rfl
@[simp] theorem hush_findWay (a b : Nat) : s.hush.findWay a b = s.findWay a b := rfl
@[simp] theorem hush_presentHeads : s.hush.presentHeads = s.presentHeads := rfl
@[simp] theorem hush_mgmtHead : s.hush.mgmtHead = s.mgmtHead := rfl
@[simp] theorem hush_deferring : s.hush.deferring = s.deferring := rfl

/-- A command whose effect is f yields what f makes of the hushed state. -/
theorem yields_of {c : Instr} {s u : State} {f : State → State} (hon : s.on = true) (hx : exec c s = run f s)
    (h : f s.hush = u) : Yields c s u := by
  rw [Yields, hx, run_hush f hon, h]

/-- The same for a command that acts whatever the supplies do. -/
theorem yields_always {c : Instr} {s u : State} {f : State → State} (hx : exec c s = runAlways f s)
    (h : f s.hush = u) : Yields c s u := by
  rw [Yields, hx, ← h]; rfl

end Sys2Proof.Machine
end

