-- ==== Sys2Proof/Laws/Table.lean ====
section
/-! SUPPORT. Laws of sparse tables: a read after a write, and that every operation keeps the canonical form. -/
namespace Sys2Proof.Machine

variable {α : Type}

/-- Below every key of a table its default is read. -/
theorem Tbl.get_below [DecidableEq α] (d : α) : ∀ (t : Tbl α) (b k : Nat), Tbl.wfFrom d b t = true → k < b → t.get d k = d
  | [], _, _, _, _ => rfl
  | (j, v) :: t, b, k, h, hk => by
    simp only [Tbl.wfFrom, Bool.and_eq_true, decide_eq_true_eq] at h
    have h1 : k ≠ j := by omega
    have h2 : k < j := by omega
    simp [Tbl.get, h1, h2]

/-- A table whose keys lie above b has them above any lower bound. -/
theorem Tbl.wfFrom_mono [DecidableEq α] (d : α) {t : Tbl α} {b c : Nat} (h : Tbl.wfFrom d b t = true) (hc : c ≤ b) :
    Tbl.wfFrom d c t = true := by
  cases t with
  | nil => rfl
  | cons e t =>
    simp only [Tbl.wfFrom, Bool.and_eq_true, decide_eq_true_eq] at h ⊢
    exact ⟨⟨by omega, h.1.2⟩, h.2⟩

/-- Putting an entry in front keeps the form. -/
theorem Tbl.wfFrom_keep [DecidableEq α] (d : α) {t : Tbl α} {b k : Nat} (v : α) (h : Tbl.wfFrom d (k + 1) t = true)
    (hb : b ≤ k) : Tbl.wfFrom d b (Tbl.keep d k v t) = true := by
  unfold Tbl.keep
  split
  · exact Tbl.wfFrom_mono d h (by omega)
  · simp [Tbl.wfFrom, *]

/-- Setting a key at or above the bound keeps the form. -/
theorem Tbl.wfFrom_set [DecidableEq α] (d v : α) (k : Nat) :
    ∀ (t : Tbl α) (b : Nat), Tbl.wfFrom d b t = true → b ≤ k → Tbl.wfFrom d b (t.set d k v) = true
  | [], _, _, hb => Tbl.wfFrom_keep d v rfl hb
  | (j, w) :: t, b, h, hb => by
    have h' := h
    simp only [Tbl.wfFrom, Bool.and_eq_true, decide_eq_true_eq] at h
    unfold Tbl.set
    split
    · refine Tbl.wfFrom_keep d v ?_ hb
      simp only [Tbl.wfFrom, Bool.and_eq_true, decide_eq_true_eq]
      exact ⟨⟨by omega, h.1.2⟩, h.2⟩
    · split
      · rename_i _ hj; subst hj
        exact Tbl.wfFrom_keep d v h.2 hb
      · simp only [Tbl.wfFrom, Bool.and_eq_true, decide_eq_true_eq]
        exact ⟨h.1, Tbl.wfFrom_set d v k t (j + 1) h.2 (by omega)⟩

/-- Setting a key keeps the canonical form. -/
theorem Tbl.wf_set [DecidableEq α] (d v : α) (k : Nat) {t : Tbl α} (h : t.wf d = true) : (t.set d k v).wf d = true :=
  Tbl.wfFrom_set d v k t 0 h (Nat.zero_le _)

/-- Keeping some entries keeps the form. -/
theorem Tbl.wfFrom_restrict [DecidableEq α] (d : α) (p : Nat → α → Bool) :
    ∀ (t : Tbl α) (b : Nat), Tbl.wfFrom d b t = true → Tbl.wfFrom d b (t.restrict p) = true
  | [], _, _ => rfl
  | (j, w) :: t, b, h => by
    simp only [Tbl.wfFrom, Bool.and_eq_true, decide_eq_true_eq] at h
    have ih := Tbl.wfFrom_restrict d p t (j + 1) h.2
    unfold Tbl.restrict at ih ⊢
    rw [List.filter_cons]
    split
    · simp only [Tbl.wfFrom, Bool.and_eq_true, decide_eq_true_eq]
      exact ⟨h.1, ih⟩
    · exact Tbl.wfFrom_mono d ih (by omega)

/-- Keeping some entries keeps the canonical form. -/
theorem Tbl.wf_restrict [DecidableEq α] (d : α) (p : Nat → α → Bool) {t : Tbl α} (h : t.wf d = true) :
    (t.restrict p).wf d = true := Tbl.wfFrom_restrict d p t 0 h

/-- The value a key was set to is read. -/
theorem Tbl.get_set_same [DecidableEq α] (d v : α) (k : Nat) :
    ∀ (t : Tbl α) (b : Nat), Tbl.wfFrom d b t = true → (t.set d k v).get d k = v
  | [], _, _ => by
    unfold Tbl.set Tbl.keep
    split
    · rename_i h; simp [Tbl.get, h]
    · simp [Tbl.get]
  | (j, w) :: t, b, h => by
    have h' := h
    simp only [Tbl.wfFrom, Bool.and_eq_true, decide_eq_true_eq] at h
    unfold Tbl.set Tbl.keep
    split
    · rename_i hk
      split
      · rename_i hv
        have h1 : k ≠ j := by omega
        simp [Tbl.get, h1, hk, hv]
      · simp [Tbl.get]
    · split
      · rename_i hj; subst hj
        split
        · rename_i hv; rw [hv]
          exact Tbl.get_below d t (k + 1) k h.2 (by omega)
        · simp [Tbl.get]
      · rename_i hk hj
        simp only [Tbl.get, hj, hk, if_false]
        exact Tbl.get_set_same d v k t (j + 1) h.2

/-- Setting a key leaves every other key's value. -/
theorem Tbl.get_set_other [DecidableEq α] (d v : α) {k i : Nat} (hi : i ≠ k) :
    ∀ (t : Tbl α) (b : Nat), Tbl.wfFrom d b t = true → (t.set d k v).get d i = t.get d i
  | [], _, _ => by
    unfold Tbl.set Tbl.keep
    split <;> simp [Tbl.get, hi]
  | (j, w) :: t, b, h => by
    simp only [Tbl.wfFrom, Bool.and_eq_true, decide_eq_true_eq] at h
    unfold Tbl.set Tbl.keep
    split
    · split
      · rfl
      · by_cases hik : i < k
        · have h1 : i ≠ j := by omega
          have h2 : i < j := by omega
          simp [Tbl.get, hi, hik, h1, h2]
        · simp [Tbl.get, hi, hik]
    · split
      · rename_i hj; subst hj
        have hg : ∀ x, (Tbl.get d ((k, x) :: t) i) = Tbl.get d t i := by
          intro x
          simp only [Tbl.get, hi, if_false]
          split
          · rename_i hlt; exact (Tbl.get_below d t (k + 1) i h.2 (by omega)).symm
          · rfl
        split
        · exact (hg w).symm
        · rw [hg, hg]
      · simp only [Tbl.get]
        rw [Tbl.get_set_other d v hi t (j + 1) h.2]

/-- A read after a write of the same key. -/
theorem Tbl.get_set_eq [DecidableEq α] (d v : α) (k : Nat) {t : Tbl α} (h : t.wf d = true) : (t.set d k v).get d k = v :=
  Tbl.get_set_same d v k t 0 h

/-- A read after a write of another key. -/
theorem Tbl.get_set_ne [DecidableEq α] (d v : α) {k i : Nat} (hi : i ≠ k) {t : Tbl α} (h : t.wf d = true) :
    (t.set d k v).get d i = t.get d i := Tbl.get_set_other d v hi t 0 h

/-- A value that is not the default is read back from any table it was set in. -/
theorem Tbl.get_set_self {α : Type} [DecidableEq α] (d v : α) (k : Nat) (hv : v ≠ d) : ∀ t : Tbl α, (t.set d k v).get d k = v
  | [] => by simp [Tbl.set, Tbl.keep, hv, Tbl.get]
  | (j, w) :: t => by
    unfold Tbl.set
    split
    · simp [Tbl.keep, hv, Tbl.get]
    · split
      · simp [Tbl.keep, hv, Tbl.get]
      · rename_i h1 h2
        simp only [Tbl.get, h2, if_false, h1]
        exact Tbl.get_set_self d v k hv t

/-- Setting a key to a value that is not the default leaves every other key's value, in any table. -/
theorem Tbl.get_put {α : Type} [DecidableEq α] (d v : α) {k i : Nat} (hv : v ≠ d) (hi : i ≠ k) :
    ∀ t : Tbl α, (t.set d k v).get d i = t.get d i
  | [] => by simp [Tbl.set, Tbl.keep, hv, Tbl.get, hi]
  | (j, w) :: t => by
    unfold Tbl.set
    split
    · by_cases hik : i < k
      · have h1 : i ≠ j := by omega
        have h2 : i < j := by omega
        simp [Tbl.keep, hv, Tbl.get, hi, hik, h1, h2]
      · simp [Tbl.keep, hv, Tbl.get, hi, hik]
    · split
      · rename_i hj; subst hj
        simp [Tbl.keep, hv, Tbl.get, hi]
      · rename_i h1 h2
        simp only [Tbl.get]
        rw [Tbl.get_put d v hv hi t]

/-- A key whose value is not the default is listed. -/
theorem Tbl.get_mem [DecidableEq α] (d : α) (k : Nat) : ∀ t : Tbl α, t.get d k ≠ d → (k, t.get d k) ∈ t
  | [], h => absurd rfl h
  | (j, v) :: t, h => by
    simp only [Tbl.get] at h ⊢
    by_cases e : k = j
    · subst e; simp
    · rw [if_neg e] at h ⊢
      by_cases l : k < j
      · rw [if_pos l] at h; exact absurd rfl h
      · rw [if_neg l] at h ⊢; exact List.mem_cons_of_mem _ (Tbl.get_mem d k t h)

end Sys2Proof.Machine
end

