-- ==== Sys2Proof/Laws/Memory.lean ====
section
/-! SUPPORT. Laws of the addressed memories, DRAM cells and the scratch pool: every operation keeps the canonical form, a
read after a write gives the value written, and a write leaves every other line. -/
namespace Sys2Proof.Machine

/-- The memories at reset have the canonical form. -/
theorem memWf_reset : State.reset.memWf = true := rfl

/-- The two halves of the form. -/
theorem memWf_iff (s : State) : s.memWf = true ↔ Memory.wf s.dram.cells = true ∧ Memory.wf s.near.scr = true := by
  simp [State.memWf, Memory.wf]

/-- Writing a DRAM line keeps the form. -/
theorem memWf_setCell {s : State} (h : s.memWf = true) (f i : Nat) (c : LineCell) : (s.setCell f i c).memWf = true := by
  rw [memWf_iff] at h ⊢
  exact ⟨Tbl.wf_set _ _ _ h.1, h.2⟩

/-- Writing a list of lines keeps the form. -/
theorem memWf_setCells (d : PageData) (f : Nat) : ∀ (l : List Nat) (s : State), s.memWf = true →
    (l.foldl (fun s i => s.setCell f i (d.get {} i)) s).memWf = true
  | [], _, h => h
  | _ :: l, _, h => memWf_setCells d f l _ (memWf_setCell h _ _ _)

/-- Writing a frame keeps the form. -/
theorem memWf_setFrame {s : State} (h : s.memWf = true) (f : Nat) (d : PageData) : (s.setFrame f d).memWf = true :=
  memWf_setCells d f _ s h

/-- Giving a frame a use keeps the form. -/
theorem memWf_useFrame {s : State} (h : s.memWf = true) (f : Nat) (u : FrameUse) : (s.useFrame f u).memWf = true := h

/-- Freeing a frame keeps the form. -/
theorem memWf_freeFrame {s : State} (h : s.memWf = true) (f : Nat) : (s.freeFrame f).memWf = true := by
  rw [memWf_iff] at h ⊢
  exact ⟨Tbl.wf_restrict (α := LineCell) {} (fun k _ => k / 64 ≠ f) (t := s.dram.cells) h.1, h.2⟩

/-- Setting a pool line keeps the form. -/
theorem memWf_setScr {s : State} (h : s.memWf = true) (l : Nat) (c : LineCell) : (s.setScr l c).memWf = true := by
  rw [memWf_iff] at h ⊢
  exact ⟨h.1, Tbl.wf_set _ _ _ h.2⟩

/-- Writing bytes of a pool line keeps the form. -/
theorem memWf_setPool {s : State} (h : s.memWf = true) (l : Nat) (d : Line) (m : Mask) (p : Bool) :
    (s.setPool l d m p).memWf = true := by
  unfold State.setPool
  split
  · exact h
  · exact memWf_setScr h _ _

/-- Dropping a scratch slot keeps the form. -/
theorem memWf_clearSlot {s : State} (h : s.memWf = true) (k : Nat) : (s.clearSlot k).memWf = true := by
  rw [memWf_iff] at h ⊢
  exact ⟨h.1, Tbl.wf_restrict (α := LineCell) {} (fun l _ => l / 524288 ≠ k) (t := s.near.scr) h.2⟩

/-- A DRAM line reads as it was written. -/
theorem cell_setCell_same {s : State} (h : s.memWf = true) (f i : Nat) (c : LineCell) : (s.setCell f i c).cell f i = c :=
  Tbl.get_set_eq _ _ _ ((memWf_iff s).mp h).1

/-- A write of a DRAM line leaves every other line of every frame. -/
theorem cell_setCell_other {s : State} (h : s.memWf = true) {f g i j : Nat} (c : LineCell) (hi : i < 64) (hj : j < 64)
    (hne : (g, j) ≠ (f, i)) : (s.setCell f i c).cell g j = s.cell g j := by
  refine Tbl.get_set_ne _ _ (fun e => hne ?_) ((memWf_iff s).mp h).1
  have h1 : g = f := by omega
  have h2 : j = i := by omega
  rw [h1, h2]

/-- A pool line reads as it was set. -/
theorem scr_setScr_same {s : State} (h : s.memWf = true) (l : Nat) (c : LineCell) :
    (s.setScr l c).near.scr.get {} l = c := Tbl.get_set_eq _ _ _ ((memWf_iff s).mp h).2

/-- Setting a pool line leaves every other. -/
theorem scr_setScr_other {s : State} (h : s.memWf = true) {k l : Nat} (c : LineCell) (hk : k ≠ l) :
    (s.setScr l c).near.scr.get {} k = s.near.scr.get {} k := Tbl.get_set_ne _ _ hk ((memWf_iff s).mp h).2

end Sys2Proof.Machine
end

