-- ==== Sys2Proof/Laws/Tile.lean ====
section
/-! SUPPORT. What the operations on a request's way can do: one lemma per operation of Machine/Mem.lean and
Machine/Protocol.lean that says which parts of the state it changes. -/
namespace Sys2Proof.Machine

variable (s : State)

/-- Starting the exits of power states that hold no drive changes the power record and the calendar's way count. -/
theorem exits_cases (m : BitVec 57) (hm : ∀ r, 48 ≤ r → r < 56 → m.getLsbD r = false) :
    ∃ p a, s.exits m = { s with pwr := p, near := { s.near with autoOff := a } } := by
  unfold State.exits; dsimp only; split
  · exact ⟨_, _, rfl⟩
  · have e : ((List.range 57).filter fun r => (s.pwr.low &&& m &&& ~~~ s.pwr.leaving).getLsbD r).filter
        (fun r => decide (48 ≤ r) && decide (r < 56)) = [] := by
      simp only [List.filter_filter, List.filter_eq_nil_iff, List.mem_range, Bool.and_eq_true, decide_eq_true_eq,
        BitVec.getLsbD_and, not_and, and_imp]
      intro r _ h1 h2 _ h4; rw [hm r h1 h2] at h4; exact absurd h4 (by simp)
    rw [e, List.map_nil, List.append_nil]
    split <;> exact ⟨_, _, rfl⟩

/-- Waking a tile changes the power record and the calendar's way count. -/
theorem wake_cases {r : Nat} (h : r < 16) : ∃ p a, s.wake r = { s with pwr := p, near := { s.near with autoOff := a } } := by
  refine exits_cases s _ fun q h1 h2 => ?_
  rw [BitVec.getLsbD_ofNat, Nat.testBit_two_pow]
  simp only [Bool.and_eq_false_iff, decide_eq_false_iff_not]
  omega

/-- A head that is not quiet stays as it is. -/
theorem unquiet_awake {h : Nat} (hq : s.pwr.quiet.get 0 h = 0) : s.unquiet h = s := by simp [State.unquiet, hq]

/-- Room for a pull entry changes the pull table alone. -/
theorem pullRoom_cases (l : Nat) : ∃ p, s.pullRoom l = { s with coh := { s.coh with pull := p } } := by
  unfold State.pullRoom; dsimp only; split <;> exact ⟨_, rfl⟩

/-- A request's pull entry changes the pull table alone. -/
theorem pullOn_cases (q : Req) : ∃ p, s.pullOn q = { s with coh := { s.coh with pull := p } } := by
  unfold State.pullOn; dsimp only; split
  · exact ⟨_, rfl⟩
  · obtain ⟨p, h⟩ := pullRoom_cases s q.line
    split
    · rw [h]; exact ⟨_, rfl⟩
    · exact ⟨_, rfl⟩

/-- Changing a head's load count keeps the link of a head whose link is up. -/
theorem setLoad_link (t : Tbl Head) (h : Nat) (x : Head) (l : Load) (hu : x.link.up = true) :
    ((t.set {} h { x with load := l }).get {} h).link = x.link := by
  have hv : ({ x with load := l } : Head) ≠ {} := fun e => by
    have := congrArg (fun x : Head => x.link.up) e; rw [hu] at this; cases this
  rw [Tbl.get_set_self _ _ h hv t]

/-- Sorting a request into its class changes buckets, its head's load counts and a counter. -/
theorem classify_cases {h : Nat} (r : Region) (q : Req) (hu : (s.head h).link.up = true) :
    ∃ b qh hs p, s.classify h r q = (b, { s with qos := { s.qos with heads := qh }, heads := hs, pmc := p })
      ∧ (hs.get {} h).link = (s.head h).link := by
  unfold State.classify
  dsimp only
  repeat' split
  all_goals first
    | exact ⟨_, _, _, _, rfl, rfl⟩
    | exact ⟨_, _, _, _, rfl, setLoad_link _ _ (s.head h) _ hu⟩

/-! ### The counters of the warp ring -/

/-- Counting changes the counters alone. -/
theorem count_cases (e n : Nat) : ∃ p, s.count e n = { s with pmc := p } := ⟨_, rfl⟩

/-- A fold of counts changes the counters alone. -/
theorem countAll_cases {α : Type} (e n : α → Nat) : ∀ (l : List α) (s : State),
    ∃ p, l.foldl (fun s x => s.count (e x) (n x)) s = { s with pmc := p }
  | [], s => ⟨s.pmc, rfl⟩
  | x :: l, s => by
    obtain ⟨p, h⟩ := countAll_cases e n l (s.count (e x) (n x))
    exact ⟨p, by rw [List.foldl_cons, h]; rfl⟩

/-- A transfer on the ring changes the counters alone. -/
theorem ringSend_cases (a b p : Nat) : ∃ x, s.ringSend a b p = { s with pmc := x } := by
  unfold State.ringSend; split
  · exact ⟨_, rfl⟩
  · obtain ⟨x, h⟩ := countAll_cases (fun n => evRing n 3) (fun _ => 1) (ringPath a b) (s.ringInject a p)
    exact ⟨x, by unfold State.pass; rw [h]; rfl⟩

/-- A broadcast changes the counters alone. -/
theorem broadcast_cases (a p : Nat) : ∃ x, s.broadcast a p = { s with pmc := x } := by
  unfold State.broadcast State.pass; dsimp only
  obtain ⟨x, h⟩ := countAll_cases (fun n => evRing n 5) (fun _ => 1) (broadcastTiles a) (s.ringInject a p)
  rw [h]
  obtain ⟨y, h1⟩ := countAll_cases (fun n => evRing n 3) (fun _ => 1)
    ((broadcastTiles a).filter fun n => n ≠ ringStep a true 8 && n ≠ ringStep a false 7) { s.ringInject a p with pmc := x }
  exact ⟨y, h1⟩

/-- A port's probe changes the counters alone. -/
theorem sendProbe_cases (t : Nat) (q : Req) : ∃ x, s.sendProbe t q = { s with pmc := x } := by
  unfold State.sendProbe; split
  · exact broadcast_cases s _ _
  · split
    · exact ⟨_, rfl⟩
    · obtain ⟨x, h⟩ := ringSend_cases s t (s.homeTile q.line) q.prio
      rw [h]; exact ⟨_, rfl⟩

/-- A message to a head whose link is not in Recovery leaves at once. -/
theorem emitTo_now {h : Nat} (o : Output) (hr : (s.head h).link.recovery = false) : s.emitTo h o = s.emit o := by
  simp [State.emitTo, hr]

/-! ### Ways -/

/-- Bringing a set down to PROT_MAX protected lines changes flags of ways. -/
theorem trimProt_cases (t k w : Nat) : ∀ (n : Nat) (s : State),
    ∃ x y, s.trimProt t k w n = { s with near := { s.near with nc := x, side := y } }
  | 0, s => ⟨_, _, rfl⟩
  | n + 1, s => by
    unfold State.trimProt; dsimp only
    split
    · exact ⟨_, _, rfl⟩
    · split
      · obtain ⟨x, y, h⟩ := trimProt_cases t k w n (s.unprotect t k _)
        rw [h]; exact ⟨_, _, rfl⟩
      · exact ⟨_, _, rfl⟩

/-- Protecting a line changes flags of ways. -/
theorem protect_cases (t k w : Nat) : ∃ n d, s.protect t k w = { s with near := { s.near with nc := n, side := d } } := by
  unfold State.protect; split
  · exact ⟨_, _, rfl⟩
  · obtain ⟨n, d, h⟩ := trimProt_cases t k w 16 (s.setWay t k w { s.way t k w with prot := true })
    rw [h]; exact ⟨_, _, rfl⟩

/-- A hit changes flags of ways and the set's tree. -/
theorem hit_cases (t k w : Nat) : ∃ n d v, s.hit t k w = { s with near := { s.near with nc := n, side := d, tree := v } } := by
  unfold State.hit; dsimp only
  have key : ∀ u : State, (∃ n d v, u = { s with near := { s.near with nc := n, side := d, tree := v } }) →
      ∃ n d v, u.trimProt t k w 16 = { s with near := { s.near with nc := n, side := d, tree := v } } := by
    rintro u ⟨n, d, v, rfl⟩
    obtain ⟨x, y, h⟩ := trimProt_cases t k w 16 { s with near := { s.near with nc := n, side := d, tree := v } }
    exact ⟨x, y, v, h⟩
  split
  · obtain ⟨n, d, h⟩ := protect_cases ((s.touch t k w).setWay t k w { (s.touch t k w).way t k w with hit := true }) t k w
    rw [h]; exact key _ ⟨_, _, _, rfl⟩
  · exact key _ ⟨_, _, _, rfl⟩

/-- The region a request runs under is the one in force where that has not changed since decode. -/
theorem regionFor_same {q : Req} {n : Nat} {r : Region} (h : s.regionOf q.line = some (n, r)) (hq : q.reg = some (n, r)) :
    s.regionFor q = some (n, r) := by
  have e : (r.attr &&& ~~~ 0xFE) ||| (r.attr &&& 0xFE) = r.attr := by
    ext i; simp only [BitVec.getElem_or, BitVec.getElem_and, BitVec.getElem_not]
    cases r.attr[i] <;> cases (0xFE : BitVec 64)[i] <;> rfl
  unfold State.regionFor
  rw [hq, h]
  simp only [if_true, e]

/-- Completing a request of a head whose link is not in Recovery sends at most one completion. -/
theorem completeReq_cases {q : Req} (hr : ∀ h t, q.src = .head h t → (s.head h).link.recovery = false) :
    ∃ o, s.completeReq q = { s with out := o } := by
  unfold State.completeReq Req.waiters
  split
  · exact ⟨_, rfl⟩
  · split <;> simp only [List.foldl_cons, List.foldl_nil, State.complete]
    · rename_i h t hs
      split
      · rw [emitTo_now _ _ (hr h t hs)]; exact ⟨_, rfl⟩
      · exact ⟨_, rfl⟩
    all_goals exact ⟨_, rfl⟩

/-- A request of a line at rest that no brake, admission stop or hold keeps at its port reaches its owner tile. -/
theorem dispatch_reaches {h n : Nat} {r : Region} {q : Req} (hr : s.atRest q.line)
    (hbr : (s.head h).braked = false) (hstop : s.vlt.stopped = false) (hq : s.quiesced n = false) (hu : (s.head h).link.up = true)
    (hsn : s.recalledWrite { q with reg := some (n, r) } = false) :
    ∃ b qh hs p pw a pu, s.dispatch h n r q = State.start
      { s with heads := hs, qos := { s.qos with heads := qh }, pmc := p, pwr := pw, near := { s.near with autoOff := a }, coh := { s.coh with pull := pu } }
      { q with reg := some (n, r), be := b } ∧ (hs.get {} h).link = (s.head h).link := by
  obtain ⟨ht, hho, hw1, hw2, hw3, hrec, hsnoops, hown, hcl⟩ := hr
  obtain ⟨b, qh, hs, p, h1, hl⟩ := classify_cases s (h := h) r { q with reg := some (n, r) } hu
  unfold State.dispatch
  simp only [hbr, hstop, Bool.false_and, Bool.false_eq_true, if_false, hq, h1]
  obtain ⟨p1, h0⟩ := sendProbe_cases ({ s with qos := { s.qos with heads := qh }, heads := hs, pmc := p } : State) (h / 2 * 2)
    { q with reg := some (n, r), be := b }
  rw [h0]
  unfold State.route
  simp only [Option.isSome_some, if_true]
  obtain ⟨pw, a, h2⟩ := wake_cases ({ s with qos := { s.qos with heads := qh }, heads := hs, pmc := p1 } : State)
    (r := State.ownerTile { s with qos := { s.qos with heads := qh }, heads := hs, pmc := p1 } q.line) hown
  rw [h2]
  have hz : State.recoveryHolds { s with heads := hs, qos := { s.qos with heads := qh }, pmc := p1, pwr := pw, near := { s.near with autoOff := a } } q.line = false := hrec
  simp only [hho, hz, Bool.false_eq_true, if_false]
  unfold State.take
  obtain ⟨pu, h3⟩ := pullOn_cases ({ s with qos := { s.qos with heads := qh }, heads := hs, pmc := p1, pwr := pw, near := { s.near with autoOff := a } } : State)
    { q with reg := some (n, r), be := b }
  rw [h3]
  unfold State.enter State.begin
  have e : State.txn { s with qos := { s.qos with heads := qh }, heads := hs, pmc := p1, pwr := pw, near := { s.near with autoOff := a }, coh := { s.coh with pull := pu } } q.line = none := ht
  have e1 : State.recalledWrite { s with qos := { s.qos with heads := qh }, heads := hs, pmc := p1, pwr := pw, near := { s.near with autoOff := a }, coh := { s.coh with pull := pu } }
      { q with reg := some (n, r), be := b } = false := hsn
  simp only [e, e1, hw1, hw2, Bool.or_false, Bool.and_false, Bool.false_eq_true, if_false]
  exact ⟨b, qh, hs, p1, pw, a, pu, rfl, hl⟩

/-- A line whose entry names no dropped head is looked up without a change. -/
theorem cleanSf_clean {l : Nat} (h : ∀ w, s.findSf (s.ownerTile l) l = some w → (s.sfWay (s.ownerTile l) (sfSet l) w).gone = 0) :
    s.cleanSf l = s := by
  unfold State.cleanSf; dsimp only
  split
  · rename_i w hw; rw [if_pos (h w hw)]
  · rfl

/-- A request on a PRIVATE region meets no holder, so nothing is recalled for it (R145, R154). -/
theorem start_private {q : Req} {n : Nat} {r : Region} (hr : s.regionFor q = some (n, r)) (hc : r.coh = 0)
    (hs : s.cleanSf q.line = s) : s.start q = s.perform n r q .none 0 := by
  have h0 : ∀ h : Option Nat, (match h with | some h => putBit (0 : BitVec 16) h false | none => 0) = 0 := by
    intro h; cases h <;> simp [putBit]
  unfold State.start
  simp only [hs, hr]
  have hv : s.cohView r q.line = (.none, 0) := by simp [State.cohView, hc]
  have hrc : (q.recall .none 0).2 = 0 := by
    unfold Req.recall Req.others
    split <;> first | rfl | exact h0 _
  simp only [hv, hrc, hc, Nat.zero_ne_one, decide_false, Bool.false_and, Bool.false_eq_true, if_false, if_true]

/-- A request on a PRIVATE region leaves no record in the snoop filter (R145). -/
theorem afterSf_private {q : Req} {r : Region} (hc : r.coh = 0) (st : SfState) (a : BitVec 16) : s.afterSf r q st a = s := by
  simp [State.afterSf, hc]

/-- Answering a head whose link is not in Recovery sends it the line, or poison, with its DevLoad, and counts (R485). -/
theorem answer_head {q : Req} {h tag : Nat} (hm : q.mute = false) (hs : q.src = .head h tag)
    (hr : (s.head h).link.recovery = false) (c : LineCell) :
    ∃ p, s.answer q c = { s with pmc := p, out := s.out ++ [.memData h tag (if c.poison then 0 else c.data) c.poison (s.devLoad h)] } := by
  obtain ⟨p, h1⟩ := ringSend_cases s (s.ownerTile q.line) (h / 2 * 2) q.prio
  unfold State.answer
  simp only [hm, Bool.false_eq_true, if_false, hs]
  rw [h1, emitTo_now _ (h := h) _ (by exact hr)]
  split <;> exact ⟨_, rfl⟩

/-- Nothing to close where no transaction is open. -/
theorem finish_none {line : Nat} (ht : s.txn line = none) : s.finish line = s := by simp [State.finish, ht]

/-- A read that hits answers its head with the line's value and changes flags of ways and counters (R91). -/
theorem serveRead_hit {r : Region} {q : Req} {h tag w : Nat} (hres : s.resident r q.line = some w) (ht : s.txn q.line = none)
    (hho : s.coh.handoff.get none q.line = none) (hr : (s.head h).link.recovery = false)
    (hm : q.mute = false) (hs : q.src = .head h tag) :
    ∃ n d v p, s.serveRead r q = { s with
      near := { s.near with nc := n, side := d, tree := v }
      pmc := p
      out := s.out ++ [.memData h tag (if (s.lineValue r q.line).poison then 0 else (s.lineValue r q.line).data)
        (s.lineValue r q.line).poison (s.devLoad h)] } := by
  have e : s.lineValue r q.line = (s.way (s.ownerTile q.line) (ncSet q.line) w).cell := by
    unfold State.lineValue State.carriedLine; simp only [hres, hho]
  unfold State.serveRead
  simp only [hres]
  obtain ⟨n, d, v, h1⟩ := hit_cases (s.count (evTile (s.ownerTile q.line) 0) 1) (s.ownerTile q.line) (ncSet q.line) w
  rw [h1, e]
  obtain ⟨p, h2⟩ := answer_head { s.count (evTile (s.ownerTile q.line) 0) 1 with near := { s.near with nc := n, side := d, tree := v } }
    hm hs hr (s.way (s.ownerTile q.line) (ncSet q.line) w).cell
  refine ⟨n, d, v, p, ?_⟩
  refine (congrArg (fun u : State => u.finish q.line) h2).trans ?_
  rw [finish_none]
  · rfl
  · exact ht

/-- A request of head h that its port admits, for a line at rest in a PRIVATE region, has its own effect at once (R33, R154). -/
theorem headReq_private {h tag hpa n : Nat} {k : ReqKind} {d : Decoder} {r : Region}
    (ha : s.admits h hpa false d n r) (hr : s.atRest (d.toDpa hpa / 64)) (hc : r.coh = 0)
    (hk : ({ src := .head h tag, kind := k, line := d.toDpa hpa / 64 } : Req).writes = false) :
    ∃ t b, Routed s t ∧ (t.head h).link = (s.head h).link ∧ s.headReq h tag hpa k
      = t.perform n r { src := .head h tag, kind := k, line := d.toDpa hpa / 64, reg := some (n, r), be := b } .none 0 := by
  obtain ⟨hon, hmem, hfat, hdec, hreg, hcl, href, hheld, hstop, hbr, hq, hquiet⟩ := ha
  have hm : s.linkUp h = true ∧ (s.head h).link.recovery = false := by
    unfold State.memOn at hmem; simpa using hmem
  have hu : (s.head h).link.up = true := by
    have := hm.1; unfold State.linkUp at this; simp only [Bool.and_eq_true] at this; exact this.2
  have key : ∀ t : State, (∃ p, t = { s with pmc := p }) → ∃ t' b, Routed s t' ∧ (t'.head h).link = (s.head h).link
      ∧ t.dispatch h n r { src := .head h tag, kind := k, line := d.toDpa hpa / 64 }
      = t'.perform n r { src := .head h tag, kind := k, line := d.toDpa hpa / 64, reg := some (n, r), be := b } .none 0 := by
    rintro t ⟨p, rfl⟩
    have hrw : State.recalledWrite { s with pmc := p } { src := .head h tag, kind := k, line := d.toDpa hpa / 64, reg := some (n, r) } = false := by
      unfold State.recalledWrite Req.headOf
      simp only [Bool.and_eq_false_iff]; exact .inl hk
    obtain ⟨b, qh, hs, p', pw, a, pu, h1, hl⟩ := dispatch_reaches ({ s with pmc := p } : State) (h := h) (n := n) (r := r)
      (q := { src := .head h tag, kind := k, line := d.toDpa hpa / 64 }) hr hbr hstop hq hu hrw
    rw [start_private _ (regionFor_same _ hreg rfl) hc (cleanSf_clean _ (by exact hr.2.2.2.2.2.2.2.2))] at h1
    refine ⟨_, b, ⟨qh, hs, p', pw, a, pu, rfl⟩, hl, ?_⟩
    exact h1
  unfold State.headReq
  simp only [hm.1, hm.2, hfat, Bool.not_true, Bool.false_or, Option.isSome_none, Bool.false_eq_true, if_false]
  unfold State.decodeReq
  simp only [unquiet_awake _ hquiet]
  cases hkr : k.returns
  · obtain ⟨t', b, h1, h2, h3⟩ := key s ⟨_, rfl⟩
    refine ⟨t', b, h1, h2, ?_⟩
    simp only [Bool.false_eq_true, if_false, hdec, hreg, hcl, href, Bool.or_false, h3]
  · obtain ⟨t', b, h1, h2, h3⟩ := key (s.count (evHead h 2) 1) ⟨_, rfl⟩
    refine ⟨t', b, h1, h2, ?_⟩
    have e2 : (s.count (evHead h 2) 1).decoderOf h hpa = some d := hdec
    have e3 : (s.count (evHead h 2) 1).regionOf (d.toDpa hpa / 64) = some (n, r) := hreg
    have e4 : ((s.count (evHead h 2) 1).head h).link.closed = false := hcl
    simp only [if_true, e2, e3, e4, href, Bool.or_false, Bool.false_eq_true, if_false, h3]

/-- A write to a line that is not resident merges into no way. -/
theorem mergeResident_none {r : Region} {q : Req} (h : s.findWay (s.ownerTile q.line) q.line = none) : s.mergeResident r q = s := by
  simp [State.mergeResident, h]

/-- A write to a line without a fetched copy to place merges into none. -/
theorem mergeFill_none {q : Req} (h : ∀ t c, s.txn q.line = some t → t.phase ≠ .fill c) : s.mergeFill q = s := by
  unfold State.mergeFill
  split
  · rename_i t ht
    split
    · rename_i c hc; exact absurd hc (h t c ht)
    · rfl
  · rfl

/-- A MARK changes the map's list of MARKs and counters. -/
theorem mark_cases (n : Nat) (r : Region) (l : Nat) : ∃ p, s.mark n r l = { s with pmc := p, map := (s.mark n r l).map } := by
  unfold State.mark; split
  · obtain ⟨p, h⟩ := ringSend_cases s (s.ownerTile l) (s.mapTile (pageOf l)) 1
    rw [h]; exact ⟨p, rfl⟩
  · exact ⟨_, rfl⟩

/-- A region that is not mirrored queues nothing for the partner. -/
theorem mirrorWrite_off {n : Nat} {r : Region} {q : Req} (h : r.mirror = false) : s.mirrorWrite n r q = s := by
  simp [State.mirrorWrite, h]

/-- A write without poison at most takes its line out of the poison index. -/
theorem writePoison_clean {q : Req} (h : q.poison = false) : ∃ x, s.writePoison q = { s with near := { s.near with poisonIdx := x } } := by
  unfold State.writePoison State.unindexPoison; simp only [h, Bool.false_eq_true, if_false]; split <;> exact ⟨_, rfl⟩

/-- A write that finds no entry of its line takes a new one. -/
theorem buffer_fresh {n : Nat} {r : Region} {q : Req} {h tag : Nat} (hm : q.mute = false) (hs : q.src = .head h tag)
    (hp : q.poison = false) (he : s.mergeEntry (s.ownerTile q.line) n q.line = none) :
    ∃ p, s.buffer (s.ownerTile q.line) n r q = { s with
      pmc := p
      near := { s.near with wbNext := s.near.wbNext + 1, wb := s.near.wb ++ [s.freshEntry n r q h tag] } } := by
  have hwt : q.waiters = [(h, tag)] := by simp [Req.waiters, hm, hs]
  obtain ⟨p, h1⟩ := ringSend_cases s (s.ownerTile q.line) (s.buddyTile (s.ownerTile q.line)) q.prio
  unfold State.buffer State.freshEntry
  cases hd : r.durable
  · simp only [Bool.false_eq_true, if_false, he, hp, hwt]; exact ⟨_, rfl⟩
  · have he1 : State.mergeEntry { s with pmc := p } (s.ownerTile q.line) n q.line = none := he
    simp only [if_true, h1, he1, hp, hwt]; exact ⟨_, rfl⟩

/-- A write that finds no entry of its line, no fetched line and no resident copy takes a new write-buffer entry; its MARK leaves, and
its completion leaves at once unless the region is DURABLE (R19, R95, R97). -/
theorem accept_fresh {n : Nat} {r : Region} {q : Req} {h tag : Nat} (hm : q.mute = false) (hs : q.src = .head h tag)
    (hp : q.poison = false) (hw : s.findWay (s.ownerTile q.line) q.line = none)
    (hf : ∀ t c, s.txn q.line = some t → t.phase ≠ .fill c)
    (he : s.mergeEntry (s.ownerTile q.line) n q.line = none) (hmir : r.mirror = false) (h16 : h < 16)
    (hr : (s.head h).link.recovery = false) :
    ∃ x p, s.accept n r q = { s with
      near := { s.near with
        wbNext := s.near.wbNext + 1
        poisonIdx := x
        wb := s.near.wb ++ [s.freshEntry n r q h tag] }
      map := (s.mark n r q.line).map
      pmc := p
      out := if r.durable then s.out else s.out ++ [.memCmp h tag (s.devLoad h)] } := by
  have hwt : q.waiters = [(h, tag)] := by simp [Req.waiters, hm, hs]
  obtain ⟨p1, h1⟩ := buffer_fresh s (n := n) (r := r) hm hs hp he
  have h2 : s.intoBuffer n r q = { s with
      pmc := p1
      near := { s.near with wbNext := s.near.wbNext + 1, wb := s.near.wb ++ [s.freshEntry n r q h tag] } } := by
    unfold State.intoBuffer
    simp only [hw, Option.isSome_none, Bool.and_false, Bool.false_eq_true, if_false]
    rw [h1, mergeFill_none _ (by exact hf), mergeResident_none _ (by exact hw)]
  unfold State.accept
  simp only [h2, hs]
  obtain ⟨p2, h3⟩ := mark_cases ({ s with
      pmc := p1
      near := { s.near with wbNext := s.near.wbNext + 1, wb := s.near.wb ++ [s.freshEntry n r q h tag] } } : State) n r q.line
  have h4 : ∀ t : State, (∃ p m, t = { s with pmc := p, near := m }) → (t.mark n r q.line).map = (s.mark n r q.line).map := by
    rintro t ⟨p, m, rfl⟩
    unfold State.mark; split
    · have e1 := ringSend_cases { s with pmc := p, near := m } (s.ownerTile q.line) (s.mapTile (pageOf q.line)) 1
      have e2 := ringSend_cases s (s.ownerTile q.line) (s.mapTile (pageOf q.line)) 1
      obtain ⟨x, e1⟩ := e1
      obtain ⟨y, e2⟩ := e2
      have e3 : State.ringSend { s with pmc := p, near := m } (State.ownerTile { s with pmc := p, near := m } q.line)
          (State.mapTile { s with pmc := p, near := m } (pageOf q.line)) 1 = { s with pmc := x, near := m } := e1
      rw [e2, e3]; rfl
    · rfl
  rw [h4 _ ⟨_, _, rfl⟩] at h3
  rw [h3, mirrorWrite_off _ hmir]
  obtain ⟨x, h5⟩ := writePoison_clean ({ s with
      pmc := p2, map := (s.mark n r q.line).map
      near := { s.near with wbNext := s.near.wbNext + 1, wb := s.near.wb ++ [s.freshEntry n r q h tag] } } : State) hp
  rw [h5]
  have h6 : ∀ t : State, (t.head h).link.recovery = false → t.completeReq q = t.emit (.memCmp h tag (t.devLoad h)) := by
    intro t ht; simp [State.completeReq, hwt, State.complete, h16, State.emitTo, ht]
  cases r.durable
  · simp only [Bool.false_eq_true, if_false]
    rw [h6 _ (by exact hr)]; exact ⟨_, _, rfl⟩
  · exact ⟨_, _, rfl⟩

/-- The head of a request that its port admits. -/
theorem admits_link {h hpa n : Nat} {write : Bool} {d : Decoder} {r : Region} (ha : s.admits h hpa write d n r) :
    s.linkUp h = true ∧ (s.head h).link.up = true ∧ (s.head h).link.recovery = false := by
  have hmem := ha.2.1
  unfold State.memOn at hmem
  simp only [Bool.and_eq_true, Bool.not_eq_true'] at hmem
  refine ⟨hmem.1, ?_, hmem.2⟩
  have := hmem.1; unfold State.linkUp at this; simp only [Bool.and_eq_true] at this; exact this.2

/-- A request of a head for a line at rest in a PRIVATE region that is dispatched has its own effect at once. -/
theorem routed_private {h n : Nat} {r : Region} {q : Req} (hreg : s.regionOf q.line = some (n, r)) (hr : s.atRest q.line)
    (hc : r.coh = 0) (hbr : (s.head h).braked = false) (hstop : s.vlt.stopped = false) (hq : s.quiesced n = false)
    (hu : (s.head h).link.up = true) :
    ∃ t b, Routed s t ∧ (t.head h).link = (s.head h).link
      ∧ s.dispatch h n r q = t.perform n r { q with reg := some (n, r), be := b } .none 0 := by
  have hrw : s.recalledWrite { q with reg := some (n, r) } = false := by
    unfold State.recalledWrite State.snooped
    split
    · rw [hr.2.2.2.2.2.2.1]; simp
    · rfl
  obtain ⟨b, qh, hs, p', pw, a, pu, h1, hl⟩ := dispatch_reaches s (h := h) (n := n) (r := r) (q := q) hr hbr hstop hq hu hrw
  rw [start_private _ (regionFor_same _ (by exact hreg) rfl) hc (cleanSf_clean _ (by exact hr.2.2.2.2.2.2.2.2))] at h1
  exact ⟨_, b, ⟨qh, hs, p', pw, a, pu, rfl⟩, hl, h1⟩

/-- A write that its port admits, as the port hands it on (R33, R78, R157). -/
theorem headWrite_admits {h tag hpa n : Nat} {mv : Meta} {data : Line} {mask : Mask} {poison : Bool} {d : Decoder} {r : Region}
    (ha : s.admits h hpa true d n r) (hp : r.pooled = false) :
    s.headWrite h tag hpa mv data mask poison =
      let q : Req := { src := .head h tag, kind := writeKind d.db mv, line := d.toDpa hpa / 64, data := data, mask := mask, poison := poison }
      if s.snooped h (d.toDpa hpa / 64) then ((s.sendProbe (h / 2 * 2) q).pullOn q).writeback n r { q with reg := some (n, r) }
      else s.dispatch h n r q := by
  obtain ⟨hlu, hup, hrec⟩ := admits_link s ha
  obtain ⟨hon, hmem, hfat, hdec, hreg, hcl, href, hheld, hstop, hbr, hq, hquiet⟩ := ha
  obtain ⟨hheld, hwh⟩ := hheld rfl
  have hwin : (r.window = 1) = False := by
    simp only [Region.pooled, Bool.or_eq_false_iff, decide_eq_false_iff_not] at hp
    simp [hp.1]
  have hk : s.keepsCredit h = false := by simp [State.keepsCredit, hwh, hstop, hbr]
  unfold State.headWrite State.creditWrite State.decodeWrite
  simp only [hlu, hrec, hk, hfat, unquiet_awake _ hquiet, Bool.not_true, Bool.false_or, Option.isSome_none, Bool.false_eq_true, if_false,
    hdec, hreg, hcl, href, hheld, hwin, decide_false, Bool.false_and, hstop, Bool.not_false, Bool.and_true, if_true]

end Sys2Proof.Machine
end

