-- ==== Sys2Proof/Laws/Shared.lean ====
section
/-! SUPPORT. Laws of the shared operations over seals, pages, rings, heads, links, notices and the selvedge: what each does to the state, for citation in proofs about commands. -/
namespace Sys2Proof.Laws
open Sys2Proof.Machine

theorem nextEq {a b : State} (h : a = b) : (Host.Outcome.next (settle a) : Host.Outcome State Fault Refusal) = .next (settle b) := by rw [h]
theorem checkSeals_nil {s : State} (h : s.rng.seals = []) : s.checkSeals = s := by
  simp [State.checkSeals, h]
theorem takeAll_nil (s : State) : s.takeAll [] = s := rfl
theorem releaseBirsps_none {s : State} (h : s.coh.heldBirsp = []) : s.releaseBirsps = s := by
  simp [State.releaseBirsps, h]
theorem checkSeals_one {s : State} {x : Seal} (hs : s.rng.seals = [x]) (hst : s.vlt.stopped = false) (hx : s.sealReached x = true) : s.checkSeals = s.completeSeal x := by
  simp [State.checkSeals, hs, hst, hx]
theorem chan_mod {s : State} {m : Nat} {f : Channel → Channel} (h : f (s.chan m) ≠ {}) : (s.modChan m f).chan m = f (s.chan m) :=
  Tbl.get_set_self _ _ _ h _
theorem fetched_noalloc {s : State} {line n h tag : Nat} {r : Region} {t : Txn} (c : LineCell) (ht : s.txn line = some t) (hr : s.regionAt line = some (n, r))
    (hna : r.noalloc = true) (hk : t.req.kind = .rdCur) (hs : t.req.src = .head h tag) (hm : t.req.mute = false) (hrec : (s.head h).link.recovery = false) :
    ∃ p, s.fetched line c = State.setTxn { s with pmc := p, out := s.out ++ [.memData h tag (if (s.withBuffer line c).poison then 0 else (s.withBuffer line c).data) (s.withBuffer line c).poison (s.devLoad h)] } line (some { t with phase := .done }) := by
  obtain ⟨p, h1⟩ := answer_head s hm hs hrec (s.withBuffer line c)
  have e : ∀ t : State, t.allocates r line = false := by intro t; simp [State.allocates, hna]
  unfold State.fetched
  simp only [ht, hr, hk, h1, e, Bool.false_eq_true, if_false]
  refine ⟨p, ?_⟩
  unfold State.finish
  have e3 : State.txn { s with pmc := p, out := s.out ++ [.memData h tag (if (s.withBuffer line c).poison then 0 else (s.withBuffer line c).data) (s.withBuffer line c).poison (s.devLoad h)] } line = some t := ht
  simp only [e3]
theorem page_mod {s : State} {pn : Nat} {f : PageEntry → PageEntry} (h : f (s.page pn) ≠ {}) : (s.modPage pn f).page pn = f (s.page pn) :=
  Tbl.get_set_self _ _ _ h _
theorem setFrame_eq (s : State) (f : Nat) (d : PageData) : ∃ c, s.setFrame f d = { s with dram := { s.dram with cells := c } } := by
  unfold State.setFrame
  generalize List.range 64 = l
  induction l generalizing s with
  | nil => exact ⟨_, rfl⟩
  | cons i l ih =>
    obtain ⟨c, hc⟩ := ih (s.setCell f i (d.get {} i))
    exact ⟨c, by rw [List.foldl_cons, hc]; rfl⟩
theorem release_nil {s : State} {pn : Nat} (h : s.coh.txns = []) : s.releaseLookups pn = s := by
  simp [State.releaseLookups, State.waitingOn, h]
theorem release_mod {s : State} {pn qn : Nat} {f : PageEntry → PageEntry} (h : s.coh.txns = []) : (s.modPage qn f).releaseLookups pn = s.modPage qn f :=
  release_nil h
theorem waiting_nil {s : State} {pn : Nat} (h : (s.page pn).waiting = none) : s.startWaiting pn = s := by
  unfold State.startWaiting; rw [h]; split <;> simp_all
theorem writeEntry_same {s : State} {pn : Nat} {p : PageEntry} (hz : p.place ≠ .zero) (hd : (s.unit (pn / 512)).dstate ≠ .zero) (h : p.persist = (s.page pn).persist) :
    s.writeEntry pn p = s.modPage pn fun _ => p := by
  unfold State.writeEntry State.mapUnit
  simp only [hz, hd, h, if_false, if_true]
/-- Starting exits of power states changes the power record and the calendar's way count and tells drives to leave theirs. -/
theorem exits_any (s : State) (m : BitVec 57) :
    ∃ p a o, s.exits m = { s with pwr := p, near := { s.near with autoOff := a }, out := s.out ++ o } ∧ ∀ x ∈ o, ∃ i, x = .nvmeAdmin i 0x09 := by
  unfold State.exits; dsimp only; split
  · exact ⟨s.pwr, s.near.autoOff, [], by simp, by simp⟩
  · have hn : ∀ x ∈ (((List.range 57).filter fun r => (s.pwr.low &&& m &&& ~~~ s.pwr.leaving).getLsbD r).filter fun r =>
        decide (48 ≤ r) && decide (r < 56)).map fun r => Output.nvmeAdmin (r - 48) 0x09, ∃ i, x = .nvmeAdmin i 0x09 := by
      intro x hx; obtain ⟨r, -, rfl⟩ := List.mem_map.mp hx; exact ⟨_, rfl⟩
    split <;> exact ⟨_, _, _, rfl, hn⟩
/-- A drive starts its exit. -/
theorem wake_drive (s : State) (r : Nat) : ∃ p a o, s.wake r = { s with pwr := p, near := { s.near with autoOff := a }, out := s.out ++ o } := by
  obtain ⟨p, a, o, h, -⟩ := exits_any s (BitVec.ofNat 57 (2 ^ r))
  exact ⟨p, a, o, h⟩
/-- Queueing a DRAM read changes its channel's read queue and starts the channel's exit. -/
theorem queueRead_cases (s : State) (line frame prio : Nat) (why : DramFor) :
    ∃ p a o c, s.queueRead line frame prio why = { s with
      pwr := p, near := { s.near with autoOff := a }, out := s.out ++ o, dram := { s.dram with ch := c, nextId := s.dram.nextId + 1 } } := by
  obtain ⟨p, a, o, h⟩ := wake_drive s (16 + frameChan frame)
  unfold State.queueRead
  dsimp only
  rw [h]
  exact ⟨p, a, o, _, rfl⟩
/-- What submitting commands to drives leaves: all but messages, counters, power states and the marks of what has been submitted. -/
def Sent (s t : State) : Prop := ∃ pc pw au o rd ou, t = { s with pmc := pc, pwr := pw, near := { s.near with autoOff := au }, out := s.out ++ o, beam := { s.beam with reads := rd, outs := ou } }
theorem sent_refl (s : State) : Sent s s := ⟨s.pmc, s.pwr, s.near.autoOff, [], s.beam.reads, s.beam.outs, by simp⟩
theorem sent_trans {s t u : State} (h1 : Sent s t) (h2 : Sent t u) : Sent s u := by
  obtain ⟨a, b, c, d, e, f, rfl⟩ := h1
  obtain ⟨a2, b2, c2, d2, e2, f2, rfl⟩ := h2
  exact ⟨a2, b2, c2, d ++ d2, e2, f2, by rw [List.append_assoc]⟩
theorem sent_fold {α : Type} (f : State → α → State) (hf : ∀ s x, Sent s (f s x)) : ∀ (l : List α) (s : State), Sent s (l.foldl f s)
  | [], s => sent_refl s
  | x :: l, s => sent_trans (hf s x) (sent_fold f hf l (f s x))
theorem submit_sent (s : State) (i : Nat) : Sent s (s.submit i) := by
  refine sent_fold _ (fun s q => sent_fold _ (fun s _ => ?_) _ s) _ s
  unfold State.submitNext
  split
  · exact sent_refl s
  · split
    · obtain ⟨p, a, o, h⟩ := wake_drive s (48 + i)
      split
      · unfold State.submitRead; rw [h]; exact ⟨_, _, _, o ++ [_], _, s.beam.outs, by rw [← List.append_assoc]; rfl⟩
      · unfold State.submitUnit; rw [h]; exact ⟨_, _, _, o ++ [_], s.beam.reads, _, by rw [← List.append_assoc]; rfl⟩
    · exact sent_refl s
theorem readOthers_sent (s : State) (i : Nat) : Sent s (s.readOthers i) :=
  sent_fold _ (fun s _ => ⟨_, s.pwr, s.near.autoOff, [_], s.beam.reads, s.beam.outs, rfl⟩) _ s
theorem sent_reads (s : State) (rd : List BeamRead) : Sent s { s with beam := { s.beam with reads := rd } } :=
  ⟨s.pmc, s.pwr, s.near.autoOff, [], rd, s.beam.outs, by simp⟩
theorem beamRead_eq (s : State) (a p : Nat) (gc : Bool) : Sent s (s.beamRead a p gc) := by
  unfold State.beamRead; dsimp only
  split
  · exact sent_reads s _
  · split
    · exact sent_trans (sent_reads s _) (readOthers_sent _ _)
    · exact sent_trans (sent_reads s _) (submit_sent _ _)
/-- The records whose reads are under way. -/
def addrs (s : State) : List Nat := s.beam.reads.map fun r => r.addr
theorem fold_addrs {α : Type} (f : State → α → State) (hf : ∀ s x, addrs (f s x) = addrs s) : ∀ (l : List α) (s : State), addrs (l.foldl f s) = addrs s
  | [], _ => rfl
  | x :: l, s => (fold_addrs f hf l (f s x)).trans (hf s x)
theorem submit_addrs (s : State) (i : Nat) : addrs (s.submit i) = addrs s := by
  refine fold_addrs _ (fun s q => fold_addrs _ (fun s _ => ?_) _ s) _ s
  unfold State.submitNext
  split
  · rfl
  · split
    · obtain ⟨p, a, o, h⟩ := wake_drive s (48 + i)
      split
      · unfold State.submitRead; rw [h]
        show List.map _ (List.map _ s.beam.reads) = _
        rw [List.map_map]
        refine List.map_congr_left fun r _ => ?_
        simp only [Function.comp]
        split <;> rfl
      · unfold State.submitUnit; rw [h]; rfl
    · rfl
theorem readOthers_addrs (s : State) (i : Nat) : addrs (s.readOthers i) = addrs s :=
  fold_addrs (fun (s : State) j => (s.count (evSlot j 1) 1).emit (.nvme j 0x02)) (fun _ _ => rfl) _ s
/-- After a page read is asked for, a read of its record is under way. -/
theorem beamRead_has (s : State) (a p : Nat) (gc : Bool) : ((s.beamRead a p gc).beam.reads.any fun r => r.addr = a) = true := by
  have key : ∀ l : List BeamRead, (l.any fun r => decide (r.addr = a)) = (l.map fun r => r.addr).contains a := by
    intro l
    induction l with
    | nil => rfl
    | cons x l ih =>
      rw [List.any_cons, List.map_cons, List.contains_cons, ih]
      by_cases h : x.addr = a
      · subst h; simp
      · have h2 : (a == x.addr) = false := by simpa using fun h' => h h'.symm
        simp [h, h2]
  rw [key]
  show (addrs (s.beamRead a p gc)).contains a = true
  unfold State.beamRead
  dsimp only
  split
  · rename_i h
    rw [key] at h
    have e : addrs { s with beam := { s.beam with reads := s.beam.reads.map fun r => if r.addr = a then { r with prio := min r.prio (if s.vlt.stopped then min 2 p else p), gc := r.gc || gc } else r } } = addrs s := by
      show List.map _ (List.map _ s.beam.reads) = _
      rw [List.map_map]
      refine List.map_congr_left fun r _ => ?_
      simp only [Function.comp]
      split <;> rfl
    rw [e]; exact h
  · split
    · rw [readOthers_addrs]; simp [addrs]
    · rw [submit_addrs]; simp [addrs]

theorem bit_eq {n i : Nat} (h : i < n) : (BitVec.ofNat n (2 ^ i)).getLsbD i = true := by
  rw [BitVec.getLsbD_ofNat]; simp [h, Nat.testBit_two_pow_self]
theorem bit_ne {n i j : Nat} (h : i < n) (hij : j ≠ i) : (BitVec.ofNat n (2 ^ j)).getLsbD i = false := by
  rw [BitVec.getLsbD_ofNat]; simp [h, hij]
theorem recDone_eq (s : State) (a : Nat) : ∃ r, s.recDone a = { s with beam := { s.beam with recs := r } } := by
  unfold State.recDone; split
  · exact ⟨_, rfl⟩
  · exact ⟨_, rfl⟩
theorem freeTwins_eq (l : List Nat) : ∀ s : State, ∃ d, l.foldl (fun (s : State) f => s.freeTwin f) s = { s with dram := d } := by
  induction l with
  | nil => exact fun s => ⟨_, rfl⟩
  | cons i l ih =>
    intro s
    obtain ⟨c, hc⟩ := ih (s.freeTwin i)
    exact ⟨c, by rw [List.foldl_cons, hc]; rfl⟩
theorem seals_same {s : State} {f : Seal → Seal} (h : s.rng.seals = []) : ({ s with rng := { s.rng with seals := s.rng.seals.map f } } : State) = s := by
  have e : s.rng.seals.map f = s.rng.seals := by rw [h]; rfl
  rw [e]
theorem runs_of {s : State} {r op : Nat} {a : Active} {sub : Option Nat} (h1 : (s.ring r).act = some a) (h2 : dOp a.words = op) (h3 : a.status = none) (h4 : s.descHeld r = false)
    (h6 : s.myTurn r = true) (h5 : (match sub with | some n => dSub a.words = n | none => true) = true) : s.hush.runs r op sub = true := by
  unfold State.runs
  have h7 : s.hush.descHeld r = false := h4
  have h8 : s.hush.myTurn r = true := h6
  rw [hush_ring, h1]
  dsimp only
  rw [h2, h3, h7, h8]
  cases sub with
  | none => simp
  | some n => simpa using h5
theorem retryWrites_nil {s : State} {t : Nat} (h1 : s.near.wbRetry = []) (h2 : s.coh.heldBirsp = []) : s.retryWrites t = s := by
  unfold State.retryWrites
  rw [h1]
  have : ({ s with near := { s.near with wbRetry := [] } } : State) = s := by rw [← h1]
  simp only [List.filter_nil, List.foldl_nil, this]
  exact releaseBirsps_none h2
theorem copies_nil {s : State} {k : Nat} {w : Swatch} (h : s.map.swatches = [(k, w)]) (hs : w.saved = []) : s.exportCopies w = [] := by
  unfold State.exportCopies
  rw [List.flatMap_eq_nil_iff]
  intro x hx
  have hx2 : x ∈ s.map.swatches := (List.mem_filter.mp ((List.mergeSort_perm _ _).mem_iff.mp hx)).1
  rw [h] at hx2
  simp at hx2
  rw [hx2, hs]
  simp
theorem act_mod {s : State} {r : Nat} {a : Active} {f : Active → Active} (h : (s.ring r).act = some a) : ((s.modAct r f).ring r).act = some (f a) := by
  have : (s.modAct r f).ring r = { s.ring r with act := (s.ring r).act.map f } :=
    Tbl.get_set_self _ _ _ (fun hh => by have := congrArg Ring.act hh; simp [h] at this) _
  rw [this, h]; rfl
theorem work_one {s : State} {r pn : Nat} {a : Active} {f : Line → State → Nat → PageStep × State} (h : (s.ring r).act = some a) (hs : a.started = true) (hp : a.pages = [pn])
    {t : State} {b : Active} (hb : (t.ring r).act = some b) :
    (f a.words s pn = (.wait, t) → s.pageWork r f = t.modAct r fun a => { a with started := true, pages := [pn] })
    ∧ (f a.words s pn = (.done, t) → s.pageWork r f = (t.modAct r fun a => { a with started := true, pages := [] }).endDescriptor r 0x00 fun a => { a with
            result := atBit (a.missed % 2 ^ 32) 0 ||| atBit (a.plines % 2 ^ 32) 32 }) := by
  constructor
  · intro hf
    unfold State.pageWork State.overPages
    rw [h]
    dsimp only
    rw [hs, hp]
    simp only [if_true, List.foldl_cons, List.foldl_nil, hf, List.nil_append, Nat.add_zero]
    rw [act_mod hb]
    simp
  · intro hf
    unfold State.pageWork State.overPages
    rw [h]
    dsimp only
    rw [hs, hp]
    simp only [if_true, List.foldl_cons, List.foldl_nil, hf, List.nil_append, Nat.add_zero]
    rw [act_mod hb]
    simp
theorem writeStripe_rng (s : State) (k : Nat) : (s.writeStripe k).rng = s.rng := by
  unfold State.writeStripe
  split
  · rfl
  · dsimp only
    obtain ⟨_, _, _, _, _, _, h⟩ := sent_fold (fun (s : State) i => s.submit i) (fun s i => submit_sent s i) (bitsOf _) _
    rw [h]; rfl
theorem buf_rng {s t : State} {k : Nat} {b : StripeBuf} (h : s.buf k = some (b, t)) : t.rng = s.rng := by
  unfold State.buf at h
  split at h
  · simp at h; rw [← h.2]
  · dsimp only at h
    split at h
    · simp at h; rw [← h.2]
    · unfold State.openNew at h
      split at h
      · simp at h
      · split at h
        · simp at h
        · simp at h; rw [← h.2]
theorem append_rng {s t : State} {k a : Nat} {r : BeamRec} (h : s.append k r = some (a, t)) : t.rng = s.rng := by
  unfold State.append at h
  split at h
  · simp at h
  · split at h
    · simp at h
    · rename_i b s1 hb
      have h1 := buf_rng hb
      split at h
      · simp [State.place] at h; rw [← h.2, ← h1]
      · split at h
        · rename_i b2 s2 hb2
          have h2 := buf_rng hb2
          simp [State.place] at h
          obtain ⟨x, y, z, _, _, hz⟩ := h
          rw [← hz]
          exact h2.trans ((writeStripe_rng s1 k).trans h1)
        · simp at h
theorem take_free {s : State} {q : Req} {n : Nat} {rg : Region} (hr : s.atRest q.line) (hh : q.headOf = none) (hreg : s.regionFor q = some (n, rg)) (hc : rg.coh = 0) :
    s.take q = s.perform n rg q .none 0 := by
  obtain ⟨h1, h2, h3, h4, h5, h6, h7, h8, h9⟩ := hr
  have hp : s.pullOn q = s := by unfold State.pullOn; rw [hh]
  have hw : s.recalledWrite q = false := by unfold State.recalledWrite; rw [hh]
  unfold State.take State.enter State.begin
  rw [hp, h1]
  dsimp only
  rw [h3, h4, hw]
  simp only [Bool.or_self, Bool.and_false, Bool.false_eq_true, if_false]
  exact start_private _ hreg hc (cleanSf_clean _ h9)
theorem route_free {s : State} {q0 : Req} {n : Nat} {rg : Region} (hr : s.atRest q0.line) (hq : q0.reg = none) (hh : q0.headOf = none) (hreg : s.regionOf q0.line = some (n, rg)) (hc : rg.coh = 0) :
    ∃ pw au, s.route q0 = State.perform { s with pwr := pw, near := { s.near with autoOff := au } } n rg { q0 with reg := some (n, rg) } .none 0 := by
  have hr' := hr
  obtain ⟨h1, h2, h3, h4, h5, h6, h7, h8, h9⟩ := hr
  unfold State.route
  simp only [hq, Option.isSome_none, Bool.false_eq_true, if_false, hreg]
  obtain ⟨pw, au, hw⟩ := wake_cases s (r := s.ownerTile q0.line) h8
  refine ⟨pw, au, ?_⟩
  rw [hw]
  have hz : State.recoveryHolds { s with pwr := pw, near := { s.near with autoOff := au } } q0.line = false := h6
  simp only [hz, Bool.false_eq_true, if_false, h2]
  refine take_free (s := { s with pwr := pw, near := { s.near with autoOff := au } }) (q := { q0 with reg := some (n, rg) }) ?_ hh ?_ hc
  · exact ⟨h1, h2, h3, h4, h5, h6, h7, h8, h9⟩
  · exact regionFor_same _ hreg rfl
theorem pool_write {s : State} {r n line : Nat} {d : Line} {m : Mask} {p be : Bool} {rg : Region} (hr : s.atRest line) (hreg : s.regionOf line = some (n, rg)) (hw : rg.window = 2) (hc : rg.coh = 0) :
    ∃ pw au, s.route { src := .engine r, kind := .devWr, line := line, data := d, mask := m, poison := p, be := be }
      = { s with pwr := pw, near := { (s.setPool (rg.poolLine line) d m p).near with autoOff := au } } := by
  obtain ⟨pw, au, h⟩ := route_free (q0 := { src := .engine r, kind := .devWr, line := line, data := d, mask := m, poison := p, be := be }) hr rfl rfl hreg hc
  refine ⟨pw, au, ?_⟩
  rw [h]
  have hp : rg.pooled = true := by simp [Region.pooled, hw]
  unfold State.perform
  simp only [hp, Bool.true_or, if_true]
  rw [afterSf_private _ hc]
  unfold State.serveWrite
  simp only [hp, if_true]
  unfold State.poolWrite
  simp only [hw, OfNat.ofNat_ne_one, if_false]
  unfold State.setPool
  have e1 : State.poolDead { s with pwr := pw, near := { s.near with autoOff := au } } (rg.poolLine line) = s.poolDead (rg.poolLine line) := rfl
  rw [e1]
  have hcr : ∀ t : State, t.completeReq { src := .engine r, kind := .devWr, line := line, data := d, mask := m, poison := p, be := be, reg := some (n, rg) } = t := by
    intro t; unfold State.completeReq Req.waiters; simp [State.complete]
  rw [hcr]
  rw [finish_none]
  · split <;> rfl
  · split <;> exact hr.1
theorem pool_read {s : State} {r n line : Nat} {be : Bool} {rg : Region} (hr : s.atRest line) (hreg : s.regionOf line = some (n, rg)) (hw : rg.window = 2) (hc : rg.coh = 0) :
    ∃ pw au, s.route { src := .engine r, kind := .devRd, line := line, be := be }
      = { s with pwr := pw, near := { s.near with autoOff := au }, rng := { s.rng with answers := s.rng.answers.set none (r * 2 ^ 39 + line) (some (s.poolCell (rg.poolLine line))) } } := by
  obtain ⟨pw, au, h⟩ := route_free (q0 := { src := .engine r, kind := .devRd, line := line, be := be }) hr rfl rfl hreg hc
  refine ⟨pw, au, ?_⟩
  rw [h]
  have hp : rg.pooled = true := by simp [Region.pooled, hw]
  unfold State.perform
  simp only
  rw [afterSf_private _ hc]
  unfold State.serveRead State.resident
  simp only [hp, Bool.true_or, if_true]
  unfold State.answer
  simp only [Bool.false_eq_true, if_false]
  rw [finish_none]
  · rfl
  · exact hr.1
theorem bytes_fold (f : Nat → Nat) : ∀ k, (∀ i, i < k → f i < 256) →
    ((List.range k).foldl (fun acc i => acc + f i * 2 ^ (8 * i)) 0) < 2 ^ (8 * k)
    ∧ ∀ i, i < k → (((List.range k).foldl (fun acc i => acc + f i * 2 ^ (8 * i)) 0) >>> (8 * i)) % 256 = f i := by
  intro k
  induction k with
  | zero => intro _; simp
  | succ k ih =>
    intro hf
    obtain ⟨h1, h2⟩ := ih (fun i hi => hf i (by omega))
    rw [List.range_succ, List.foldl_append, List.foldl_cons, List.foldl_nil]
    generalize (List.range k).foldl (fun acc i => acc + f i * 2 ^ (8 * i)) 0 = v at h1 h2
    have hk := hf k (by omega)
    constructor
    · have e : 2 ^ (8 * (k + 1)) = 256 * 2 ^ (8 * k) := by rw [show 8 * (k + 1) = 8 * k + 8 by ring, pow_add]; ring
      rw [e]
      have : f k * 2 ^ (8 * k) ≤ 255 * 2 ^ (8 * k) := Nat.mul_le_mul_right _ (by omega)
      omega
    · intro i hi
      rw [Nat.shiftRight_eq_div_pow]
      by_cases hik : i = k
      · subst hik
        rw [Nat.add_mul_div_right _ _ (Nat.pos_of_ne_zero (by positivity)), Nat.div_eq_of_lt h1, Nat.zero_add, Nat.mod_eq_of_lt hk]
      · have hlt : i < k := by omega
        have h3 := h2 i hlt
        rw [Nat.shiftRight_eq_div_pow] at h3
        have e : f k * 2 ^ (8 * k) = (f k * 2 ^ (8 * (k - i - 1)) * 256) * 2 ^ (8 * i) := by
          rw [mul_assoc, mul_assoc]
          congr 1
          rw [show (256 : Nat) = 2 ^ 8 by norm_num, ← pow_add, ← pow_add]
          congr 1; omega
        rw [e, Nat.add_mul_div_right _ _ (Nat.pos_of_ne_zero (by positivity)), Nat.add_mul_mod_self_right, h3]
theorem engineClass_eq (s : State) (r : Nat) (w : Bool) : ∃ b q, s.engineClass r w = (b, { s with qos := q }) := by
  unfold State.engineClass
  dsimp only
  repeat' split
  all_goals exact ⟨_, _, rfl⟩
theorem engine_write {s : State} {r n line : Nat} {d : Line} {m : Mask} {p : Bool} {rg : Region} (hr : s.atRest line) (hreg : s.regionOf line = some (n, rg)) (hw : rg.window = 2) (hc : rg.coh = 0) :
    ∃ q pm pw au, s.engineWrite r line d m p
      = { s with qos := q, pmc := pm, pwr := pw, near := { (s.setPool (rg.poolLine line) d m p).near with autoOff := au } } := by
  obtain ⟨b, q, h⟩ := engineClass_eq s r true
  unfold State.engineWrite
  rw [h]
  dsimp only
  obtain ⟨pw, au, h2⟩ := pool_write (s := State.count { s with qos := q } (evEngine (engineOf r) 1) (popCount m)) (r := r) (d := d) (m := m) (p := p) (be := b) hr hreg hw hc
  rw [h2]
  refine ⟨q, (State.count { s with qos := q } (evEngine (engineOf r) 1) (popCount m)).pmc, pw, au, ?_⟩
  have e : ∀ t : State, t.near = s.near → t.boot = s.boot → (t.setPool (rg.poolLine line) d m p).near = (s.setPool (rg.poolLine line) d m p).near := by
    intro t h1 h2
    have : t.poolDead (rg.poolLine line) = s.poolDead (rg.poolLine line) := by unfold State.poolDead State.tileRetired; rw [h2]
    unfold State.setPool
    rw [this, h1]
    split
    · exact h1
    · unfold State.setScr; simp only [h1]
  rw [e (State.count { s with qos := q } (evEngine (engineOf r) 1) (popCount m)) rfl rfl]
  rfl
theorem engine_read {s : State} {r n line : Nat} {rg : Region} (hr : s.atRest line) (hreg : s.regionOf line = some (n, rg)) (hw : rg.window = 2) (hc : rg.coh = 0) :
    ∃ q pw au, s.engineRead r line
      = { s with qos := q, pwr := pw, near := { s.near with autoOff := au }, rng := { s.rng with answers := s.rng.answers.set none (r * 2 ^ 39 + line) (some (s.poolCell (rg.poolLine line))) } } := by
  obtain ⟨b, q, h⟩ := engineClass_eq s r false
  unfold State.engineRead
  rw [h]
  dsimp only
  obtain ⟨pw, au, h2⟩ := pool_read (s := { s with qos := q }) (r := r) (be := b) hr hreg hw hc
  exact ⟨q, pw, au, h2⟩
theorem lines_one (line : Nat) : linesOf (line * 64) 64 = [line] := by
  unfold linesOf
  have : (line * 64 + 64 - 1) / 64 + 1 - line * 64 / 64 = 1 := by omega
  rw [this]
  have e : line * 64 / 64 = line := by omega
  simp [e]
/-- The only step of a mover of one line. -/
theorem chunk {d : Line} {line src : Nat} (hd : dW d 1 = line * 64) (hl : dW d 3 = 64) (hs : dOp d = 0x10 → dW d 2 = src * 64) :
    ({ words := d } : Active).chunk = (line * 64, 64)
    ∧ ({ words := d } : Active).sources = if dOp d = 0x10 then linesOf (dW d 2) 64 else [] := by
  have h1 : ({ words := d } : Active).chunk = (line * 64, 64) := by
    have hdown : moverDown d = false := by
      unfold moverDown
      by_cases h : dOp d = 0x10
      · rw [hd, hl, hs h]
        simp only [h, decide_true, Bool.true_and, Bool.and_eq_false_iff, decide_eq_false_iff_not]
        omega
      · simp [h]
    unfold Active.chunk moverChunk
    simp only [hdown, Bool.false_eq_true, if_false, hd, hl, Nat.add_zero, Nat.sub_zero]
    split
    · rename_i h; rw [hs h]; congr 1; omega
    · congr 1; omega
  refine ⟨h1, ?_⟩
  unfold Active.sources
  rw [h1]
  dsimp only
  rw [hd, Nat.sub_self, Nat.zero_add]
theorem mover_line {s : State} {r n line : Nat} {d : Line} {rg : Region} (hr : s.atRest line) (hreg : s.regionOf line = some (n, rg)) (hw : rg.window = 2) (hc : rg.coh = 0) :
    ∃ q pm pw au, s.moverLine r d (line * 64) 64 line = (s.moverPoison r d (line * 64) 64,
      { s with qos := q, pmc := pm, pwr := pw, near := { (s.setPool (rg.poolLine line) (BitVec.ofNat 512 ((List.range 64).foldl (fun acc i => acc + s.moverByte r d (line * 64 + i) * 2 ^ (8 * i)) 0)) fullMask (s.moverPoison r d (line * 64) 64)).near with autoOff := au } }) := by
  unfold State.moverLine
  have e1 : max (line * 64) (line * 64) = line * 64 := by omega
  have e2 : min (line * 64 + 64) (line * 64 + 64) = line * 64 + 64 := by omega
  have e3 : line * 64 + 64 - line * 64 = 64 := by omega
  have e4 : line * 64 % 64 = 0 := by omega
  simp only [e1, e2, e3, e4, Nat.zero_add, pow_zero, Nat.mul_one]
  obtain ⟨q, pm, pw, au, h⟩ := engine_write (s := s) (r := r) (d := BitVec.ofNat 512 ((List.range 64).foldl (fun acc i => acc + s.moverByte r d (line * 64 + i) * 2 ^ (8 * i)) 0))
    (m := BitVec.ofNat 64 (2 ^ 64 - 1)) (p := s.moverPoison r d (line * 64) 64) hr hreg hw hc
  exact ⟨q, pm, pw, au, by rw [h]; rfl⟩
/-- The end of a mover's only step, from the state s1 in which its source has answered. -/
theorem mover_end {s s1 : State} {r n line src : Nat} {d : Line} {rg : Region} (hact : (s.ring r).act = some { words := d }) (h1 : (s1.ring r).act = some { words := d, started := true, reads := true })
    (hr : s1.atRest line) (hreg : s1.regionOf line = some (n, rg)) (hw : rg.window = 2) (hc : rg.coh = 0)
    (hd : dW d 1 = line * 64) (hl : dW d 3 = 64) (hs : dOp d = 0x10 → dW d 2 = src * 64)
    (hrights : (! s.rangeRights (s.ring r).owner false (line * 64, 64, true) || (dOp d = 0x10 && ! s.rangeRights (s.ring r).owner false (dW d 2, 64, false))) = false)
    (hreads : (if dOp d = 0x10 then linesOf (dW d 2) 64 else []).foldl (fun (s : State) l => s.engineRead r l) ((s.serve r).modAct r fun a => { a with started := true, reads := true }) = s1)
    (hall : ((if dOp d = 0x10 then linesOf (dW d 2) 64 else []).all fun l => (s1.engineAnswer r l).isSome) = true) :
    ∃ q pm pw au rng, s.moverStep r = { s1 with qos := q, pmc := pm, pwr := pw, near := { (s1.setPool (rg.poolLine line) (BitVec.ofNat 512 ((List.range 64).foldl (fun acc i => acc + s1.moverByte r d (line * 64 + i) * 2 ^ (8 * i)) 0)) fullMask (s1.moverPoison r d (line * 64) 64)).near with autoOff := au }, rng := rng }
      ∧ ((s.moverStep r).ring r).act = some { words := d, started := true, done := 64, plines := (if s1.moverPoison r d (line * 64) 64 then 1 else 0), result := moverResult 64 (if s1.moverPoison r d (line * 64) 64 then 1 else 0), status := some (if s1.moverPoison r d (line * 64) 64 then 0x0D else 0) } := by
  obtain ⟨q, pm, pw, au, hml⟩ := mover_line (s := s1) (r := r) (d := d) hr hreg hw hc
  obtain ⟨hch, hsrc⟩ := chunk hd hl hs
  obtain ⟨p, hp⟩ : ∃ p, p = s1.moverPoison r d (line * 64) 64 := ⟨_, rfl⟩
  obtain ⟨t, ht⟩ : ∃ t : State, t = { s1 with qos := q, pmc := pm, pwr := pw, near := { (s1.setPool (rg.poolLine line) (BitVec.ofNat 512 ((List.range 64).foldl (fun acc i => acc + s1.moverByte r d (line * 64 + i) * 2 ^ (8 * i)) 0)) fullMask (s1.moverPoison r d (line * 64) 64)).near with autoOff := au } } := ⟨_, rfl⟩
  rw [← ht, ← hp] at hml
  have step : s.moverStep r = (((t.dropAnswers r).modAct r fun a => { a with done := a.done + 64, reads := false, plines := a.plines + (if p then 1 else 0) }).moverEnd r (if p then 0x0D else 0)) := by
    unfold State.moverStep
    rw [hact]
    dsimp only
    rw [hch, hsrc]
    have e1 : line * 64 - dW d 1 + dW d 2 = dW d 2 := by rw [hd]; omega
    dsimp only
    rw [e1, hrights, if_neg (by simp), hreads, hl]
    simp only [Bool.false_eq_true, if_false, hall, Bool.not_true, lines_one, List.foldl_cons, List.foldl_nil, hml, Nat.zero_add, if_true]
    cases p <;> rfl
  have tact : (t.ring r).act = some { words := d, started := true, reads := true } := by rw [ht]; exact h1
  have tact2 : ((t.dropAnswers r).ring r).act = some { words := d, started := true, reads := true } := tact
  have fact := act_mod (f := fun a => { a with done := a.done + 64, reads := false, plines := a.plines + (if p then 1 else 0) }) tact2
  have fin : ((s.moverStep r).ring r).act = some { words := d, started := true, done := 64, plines := (if p then 1 else 0), result := moverResult 64 (if p then 1 else 0), status := some (if p then 0x0D else 0) } := by
    rw [step]
    unfold State.moverEnd State.endDescriptor
    rw [act_mod fact]
    simp
  refine ⟨q, pm, pw, au, (s.moverStep r).rng, ?_, ?_⟩
  · rw [step, ht]; rfl
  · rw [fin, hp]
theorem releaseHeld_nil {s : State} (h : s.rng.qheld = []) : s.releaseHeld = s := by
  unfold State.releaseHeld
  rw [h]
  simp only [List.filter_nil, List.foldl_nil]
  rw [← h]
theorem elapse_done {s : State} {d : Nat} (h : d ≤ s.clock) : s.elapse d = s := by unfold State.elapse; rw [if_pos h]
theorem modRing_eq {s : State} {r : Nat} {f : Ring → Ring} {x : Ring} (h : s.ring r = x) : s.modRing r f = s.modRing r fun _ => f x := by
  unfold State.modRing; rw [h]
theorem modAct_eq {s : State} {r : Nat} {f : Active → Active} {x : Ring} {a : Active} (h : s.ring r = x) (ha : x.act = some a) : s.modAct r f = s.modRing r fun _ => { x with act := some (f a) } := by
  unfold State.modAct; rw [modRing_eq h, ha]; rfl
theorem ring_set {s : State} {r : Nat} {y : Ring} (h : y ≠ {}) : (s.modRing r fun _ => y).ring r = y := Tbl.get_set_self _ _ _ h _
theorem ring_st {s : State} {r : Nat} {y : Ring} (h : y.st ≠ .off) : (s.modRing r fun _ => y).ring r = y := ring_set (fun hh => h (by rw [hh]))
theorem ring_act {s : State} {r : Nat} {y : Ring} {a : Active} (h : y.act = some a) : (s.modRing r fun _ => y).ring r = y := ring_set (fun hh => by rw [hh] at h; simp at h)
/-- Rings other than r are as they were. -/
def Apart (t0 t : Tbl Ring) (r : Nat) : Prop := t0.wf {} = true → t.wf {} = true ∧ ∀ q, q ≠ r → t.get {} q = t0.get {} q
theorem apart_refl (t : Tbl Ring) (r : Nat) : Apart t t r := fun h => ⟨h, fun _ _ => rfl⟩
theorem apart_set {t0 t : Tbl Ring} {r : Nat} (x : Ring) (h : Apart t0 t r) : Apart t0 (t.set {} r x) r := by
  intro hw
  obtain ⟨h1, h2⟩ := h hw
  exact ⟨Tbl.wf_set _ _ _ h1, fun q hq => (Tbl.get_set_ne _ _ hq h1).trans (h2 q hq)⟩
theorem get_mapVals {α : Type} [DecidableEq α] (d : α) (f : Nat → α → α) (k : Nat) (hd : f k d = d) : ∀ t : Tbl α, f k (t.get d k) ≠ d → (t.mapVals d f).get d k = f k (t.get d k)
  | [], h => by simp [Tbl.get, hd] at h
  | (j, v) :: t, h => by
    simp only [Tbl.get] at h ⊢
    simp only [Tbl.mapVals, Tbl.keep]
    by_cases h1 : k = j
    · subst h1
      simp only [if_true] at h ⊢
      rw [if_neg h]
      simp [Tbl.get]
    · simp only [h1, if_false] at h ⊢
      by_cases h2 : k < j
      · rw [if_pos h2, hd] at h; exact absurd rfl h
      · rw [if_neg h2] at h ⊢
        have ih := get_mapVals d f k hd t h
        split
        · exact ih
        · simp only [Tbl.get, h1, h2, if_false]; exact ih
theorem head_mod {s : State} {h : Nat} {f : Head → Head} (hf : f (s.head h) ≠ {}) : (s.modHead h f).head h = f (s.head h) := Tbl.get_set_self _ _ _ hf _
/-- Heads other than h are as they were. -/
def Hapart (t0 t : Tbl Head) (r : Nat) : Prop := t0.wf {} = true → t.wf {} = true ∧ ∀ q, q ≠ r → t.get {} q = t0.get {} q
theorem hapart_refl (t : Tbl Head) (r : Nat) : Hapart t t r := fun h => ⟨h, fun _ _ => rfl⟩
theorem hapart_set {t0 t : Tbl Head} {r : Nat} (x : Head) (h : Hapart t0 t r) : Hapart t0 (t.set {} r x) r := by
  intro hw
  obtain ⟨h1, h2⟩ := h hw
  exact ⟨Tbl.wf_set _ _ _ h1, fun q hq => (Tbl.get_set_ne _ _ hq h1).trans (h2 q hq)⟩
theorem recompute_eq (s : State) : ∃ q, s.qosRecompute = { s with qos := q } := ⟨_, rfl⟩
theorem cdat_eq {s : State} {h : Nat} (hs : (s.head h).link.up = true) : ∃ hs o, s.cdatUpdate h = { s with heads := hs, out := o } ∧ Hapart s.heads hs h ∧ (Tbl.get {} hs h).link = (s.head h).link
      ∧ (Tbl.get {} hs h).brake = (s.head h).brake ∧ (Tbl.get {} hs h).func.busMaster = (s.head h).func.busMaster
      ∧ (Tbl.get {} hs h).inQ = (s.head h).inQ ∧ (Tbl.get {} hs h).outQ = (s.head h).outQ := by
  unfold State.cdatUpdate
  dsimp only
  split
  · exact ⟨_, _, rfl, hapart_refl _ _, rfl, rfl, rfl, rfl, rfl⟩
  · refine ⟨_, _, rfl, hapart_set _ (hapart_refl _ _), ?_⟩
    have e := head_mod (s := s) (h := h) (f := fun x => { x with func := { x.func with cdatRate := (s.head h).link.rate, cdatWidth := (s.head h).link.width, cdatChanged := true } }) (by
      intro hh
      have := congrArg (fun x => x.link.up) hh
      simp [hs] at this)
    have e2 : Tbl.get {} (s.modFunc h fun f => { f with cdatRate := (s.head h).link.rate, cdatWidth := (s.head h).link.width, cdatChanged := true }).heads h = { s.head h with func := { (s.head h).func with cdatRate := (s.head h).link.rate, cdatWidth := (s.head h).link.width, cdatChanged := true } } := e
    exact ⟨(congrArg Head.link e2).trans rfl, (congrArg Head.brake e2).trans rfl, (congrArg (fun x : Head => x.func.busMaster) e2).trans rfl,
      (congrArg Head.inQ e2).trans rfl, (congrArg Head.outQ e2).trans rfl⟩
theorem note_warn (s : State) {n : Note} (h : n.sev < 2) : ∃ t p, s.note n = { s with flt := s.flt.enter n.words, tap := t, pmc := p } := by
  obtain ⟨t, p, h1⟩ := tapEvent_cases ({ s with flt := s.flt.enter n.words } : State) n
  unfold State.note
  dsimp only
  rw [h1]
  have : decide (n.sev ≥ 2) = false := by simp; omega
  rw [this]
  simp only [Bool.false_and, Bool.false_eq_true, if_false]
  split <;> exact ⟨_, _, rfl⟩
theorem dropSnoops_none {t : State} {h : Nat} (hs : t.coh.snoops = []) (hb : t.coh.heldBirsp = []) : t.dropSnoops h = t := by
  unfold State.dropSnoops
  have e : ({ t with coh := { t.coh with heldBirsp := t.coh.heldBirsp.filter fun e => e.1 ≠ h } } : State) = t := by
    rw [hb, List.filter_nil, ← hb]
  rw [hs, e]
  rfl
/-- A link after it dropped (R84, R85). -/
def downLink (l : Link) : Link :=
  { l with up := false, recovery := false, memOff := true, dropped := true, ideActive := false, ext128 := false, extAgreed := false }
/-- The state in which a head's link has dropped and nothing of the head waits at its port. -/
def downState (s : State) (h : Nat) : State :=
  let s1 := (s.modLink h downLink).modHead h fun x => { x with inQ := [], outQ := [], waitQ := [], kept := 0 }
  { s1 with pwr := { s1.pwr with low := putBit s1.pwr.low (32 + h) false, leaving := putBit s1.pwr.leaving (32 + h) false } }
/-- What a link drop does where nothing waits for a BISnp. -/
theorem dropLink_eq {s : State} {h : Nat} (hs : s.coh.snoops = []) (hb : s.coh.heldBirsp = []) :
    s.dropLink h = (((downState s h).muteHead h).clearPresence h).ringsDetach h := by
  have e : s.dropLink h = ((((downState s h).muteHead h).clearPresence h).dropSnoops h).ringsDetach h := rfl
  rw [e, dropSnoops_none (by exact hs) (by exact hb)]
/-- The head after its link dropped. -/
theorem drop_head {s : State} {h : Nat} {l : Link} (hl : (s.head h).link = l) (hs : s.coh.snoops = []) (hb : s.coh.heldBirsp = []) :
    ∃ g, (s.dropLink h).head h = { s.head h with
      link := downLink l, inQ := [], outQ := [], waitQ := [], kept := 0
      brake := { (s.head h).brake with gate := (s.head h).brake.gate.map g } } := by
  obtain ⟨s0, hs0⟩ : ∃ s0 : State, s0 = s.modLink h downLink := ⟨_, rfl⟩
  obtain ⟨s1, hs1⟩ : ∃ s1 : State, s1 = downState s h := ⟨_, rfl⟩
  have k0 : s0.head h = { s.head h with link := downLink l } := by
    rw [hs0]
    refine (head_mod (f := fun x : Head => { x with link := downLink x.link }) ?_).trans ?_
    · intro hh
      have := congrArg (fun x => x.link.dropped) hh
      simp [downLink] at this
    · rw [hl]
  have k1 : s1.head h = { s.head h with link := downLink l, inQ := [], outQ := [], waitQ := [], kept := 0 } := by
    rw [hs1]
    have e : (downState s h).head h = (s0.modHead h fun x => { x with inQ := [], outQ := [], waitQ := [], kept := 0 }).head h := by rw [hs0]; rfl
    rw [e, head_mod]
    · rw [k0]
    · rw [k0]; intro hh
      have := congrArg (fun x => x.link.dropped) hh
      simp [downLink] at this
  obtain ⟨f, hf⟩ : ∃ f : Req → Req, f = fun q => if q.headOf = some h then { q with mute := true } else q := ⟨_, rfl⟩
  have k2 : (s1.muteHead h).head h = { s1.head h with brake := { (s1.head h).brake with gate := (s1.head h).brake.gate.map f } } := by
    unfold State.muteHead
    rw [← hf]
    refine (get_mapVals {} (fun _ x => { x with brake := { x.brake with gate := x.brake.gate.map f } }) h rfl s1.heads ?_).trans rfl
    intro hh
    have t2 : (Tbl.get {} s1.heads h).link.dropped = false := congrArg (fun x : Head => x.link.dropped) hh
    have e : (Tbl.get {} s1.heads h).link = downLink l := congrArg Head.link k1
    rw [e] at t2
    cases t2
  refine ⟨f, ?_⟩
  rw [dropLink_eq hs hb, ← hs1]
  have k3 : ((((s1.muteHead h).clearPresence h).ringsDetach h).head h) = (s1.muteHead h).head h := rfl
  rw [k3, k2, k1]
theorem get_mapVals_wf {α : Type} [DecidableEq α] (d : α) (f : Nat → α → α) (k : Nat) (hd : f k d = d) : ∀ (t : Tbl α) (b : Nat), Tbl.wfFrom d b t = true → (t.mapVals d f).get d k = f k (t.get d k)
  | [], _, _ => by simp [Tbl.get, Tbl.mapVals, hd]
  | (j, v) :: t, b, h => by
    simp only [Tbl.wfFrom, Bool.and_eq_true, decide_eq_true_eq] at h
    have ih := get_mapVals_wf d f k hd t (j + 1) h.2
    simp only [Tbl.mapVals, Tbl.keep, Tbl.get]
    by_cases h1 : k = j
    · subst h1
      simp only [if_true]
      split
      · rename_i h3
        rw [ih, Tbl.get_below d t (k + 1) k h.2 (by omega), hd, h3]
      · simp [Tbl.get]
    · by_cases h2 : k < j
      · simp only [h1, h2, if_false, if_true]
        split
        · rw [ih, Tbl.get_below d t (j + 1) k h.2 (by omega)]
        · simp [Tbl.get, h1, h2, hd]
      · simp only [h1, h2, if_false]
        split
        · exact ih
        · simp only [Tbl.get, h1, h2, if_false]; exact ih
theorem modHead_eq {s : State} {h : Nat} {f : Head → Head} {y : Head} (hy : s.head h = y) : s.modHead h f = s.modHead h fun _ => f y := by
  unfold State.modHead; rw [hy]
theorem head_up {s : State} {h : Nat} {y : Head} (hy : y.link.up = true) : (s.modHead h fun _ => y).head h = y :=
  head_mod (f := fun _ => y) (by intro hh; rw [hh] at hy; cases hy)
theorem head_on {s : State} {h : Nat} {y : Head} (hy : y.link.memOff = false) : (s.modHead h fun _ => y).head h = y :=
  head_mod (f := fun _ => y) (by intro hh; rw [hh] at hy; cases hy)
/-- A change of a head's function leaves every head's link. -/
theorem modFunc_link {s : State} (hw : s.heads.wf {} = true) (h : Nat) (f : Func → Func) :
    (s.modFunc h f).heads.wf {} = true ∧ ∀ k, ((s.modFunc h f).head k).link = (s.head k).link := by
  refine ⟨Tbl.wf_set _ _ _ hw, fun k => ?_⟩
  by_cases hk : k = h
  · subst hk
    have e : (s.modFunc k f).head k = { s.head k with func := f (s.head k).func } := Tbl.get_set_eq ({} : Head) _ _ hw
    rw [e]
  · exact congrArg Head.link (Tbl.get_set_ne ({} : Head) _ hk hw)
theorem sendMsix_link {s : State} (hw : s.heads.wf {} = true) (h v : Nat) :
    (s.sendMsix h v).heads.wf {} = true ∧ ∀ k, ((s.sendMsix h v).head k).link = (s.head k).link := by
  unfold State.sendMsix
  split
  · exact modFunc_link hw _ _
  · exact ⟨hw, fun _ => rfl⟩
theorem event_link {s : State} (hw : s.heads.wf {} = true) (h : Nat) (e : EventRec) :
    (s.event h e).heads.wf {} = true ∧ ∀ k, ((s.event h e).head k).link = (s.head k).link := by
  unfold State.event
  dsimp only
  split
  · obtain ⟨a1, a2⟩ := modFunc_link hw h fun f => { f with
      events := f.events ++ [⟨e.log, (s.head h).func.nextHandle, e⟩], nextHandle := (s.head h).func.nextHandle % 65535 + 1 }
    split
    · obtain ⟨b1, b2⟩ := sendMsix_link a1 h _
      exact ⟨b1, fun k => (b2 k).trans (a2 k)⟩
    · exact ⟨a1, a2⟩
  · exact ⟨hw, fun _ => rfl⟩
/-- Event records leave every head's link. -/
theorem eventAll_link {s : State} (hw : s.heads.wf {} = true) (e : EventRec) (k : Nat) : ((s.eventAll e).head k).link = (s.head k).link := by
  unfold State.eventAll
  generalize s.presentHeads = l
  induction l generalizing s with
  | nil => rfl
  | cons j l ih =>
    obtain ⟨a1, a2⟩ := event_link hw j e
    rw [List.foldl_cons, ih a1, a2]
/-- The end of Recovery where nothing waited at the port. -/
theorem end_idle {s : State} {h : Nat} {y : Head} (hy : s.head h = y) (hu : y.link.up = true) (hi : y.inQ = []) (ho : y.outQ = []) :
    ∃ hs, s.endRecovery h = { s with heads := hs } ∧ Hapart s.heads hs h ∧ Tbl.get {} hs h = y := by
  have e1 : { y with outQ := [] } = y := by cases y; cases ho; rfl
  have e2 : { y with inQ := [] } = y := by cases y; cases hi; rfl
  have f1 : s.flushOut h = s.modHead h fun _ => y := by
    unfold State.flushOut
    rw [hy, ho]
    show (s.modHead h fun x => { x with outQ := [] }) = _
    rw [modHead_eq (f := fun x => { x with outQ := [] }) hy, e1]
  have f2 : s.endRecovery h = (s.modHead h fun _ => y).modHead h fun _ => y := by
    unfold State.endRecovery State.decodeAll
    rw [f1, hy, hi, List.foldl_nil, modHead_eq (s := s.modHead h fun _ => y) (f := fun x => { x with inQ := [] }) (head_up hu), e2]
  exact ⟨_, f2, hapart_set _ (hapart_set _ (hapart_refl _ _)), head_up (s := s.modHead h fun _ => y) hu⟩
theorem wf_mapVals {α : Type} [DecidableEq α] (d : α) (f : Nat → α → α) : ∀ (t : Tbl α) (b : Nat), Tbl.wfFrom d b t = true → Tbl.wfFrom d b (t.mapVals d f) = true
  | [], _, _ => rfl
  | (j, v) :: t, b, h => by
    simp only [Tbl.wfFrom, Bool.and_eq_true, decide_eq_true_eq] at h
    have ih := wf_mapVals d f t (j + 1) h.2
    unfold Tbl.mapVals Tbl.keep
    split
    · exact Tbl.wfFrom_mono d ih (by omega)
    · rename_i hv
      simp [Tbl.wfFrom, h.1.1, hv, ih]
theorem mute_frame (s : State) (h : Nat) : ∃ hd wr wb a1 a2 a3 a4 a5 hv qh, s.muteHead h = { s with
      heads := hd
      near := { s.near with wbRetry := wr, wb := wb }
      coh := { s.coh with sfWait := a1, retry := a2, recHeld := a3, txns := a4, handoff := a5 }
      vlt := { s.vlt with held := hv }
      rng := { s.rng with qheld := qh } } := ⟨_, _, _, _, _, _, _, _, _, _, rfl⟩
theorem drop_frame {s : State} {h : Nat} (hs : s.coh.snoops = []) (hb : s.coh.heldBirsp = []) : ∃ hd wr wb a1 a2 a3 a4 a5 a6 hv qh rg, s.dropLink h = { s with
      heads := hd
      near := { s.near with wbRetry := wr, wb := wb }
      coh := { s.coh with sfWait := a1, retry := a2, recHeld := a3, txns := a4, handoff := a5, sf := a6 }
      vlt := { s.vlt with held := hv }
      rng := { s.rng with qheld := qh, rings := rg }
      pwr := { s.pwr with low := putBit s.pwr.low (32 + h) false, leaving := putBit s.pwr.leaving (32 + h) false } } := by
  rw [dropLink_eq hs hb]
  obtain ⟨hd, wr, wb, a1, a2, a3, a4, a5, hv, qh, e⟩ := mute_frame (downState s h) h
  rw [e]
  exact ⟨_, _, _, _, _, _, _, _, _, _, _, _, rfl⟩
theorem emits (f : Nat → Output) : ∀ (l : List Nat) (s : State), l.foldl (fun (s : State) i => s.emit (f i)) s = { s with out := s.out ++ l.map f } := by
  intro l
  induction l with
  | nil => intro s; simp
  | cons i l ih =>
    intro s
    rw [List.foldl_cons, ih]
    unfold State.emit
    simp
theorem flag_and (a b : Word) (i : Nat) (h : b.getLsbD i = true) : flag (a &&& b) i = flag a i := by
  unfold flag
  simp [h]
theorem divergeOne_eq (s : State) (o n : Nat) : ∃ R, s.divergeOne o n = { s with slv := { s.slv with rgns := R } } := by
  unfold State.divergeOne
  dsimp only
  repeat' split
  all_goals exact ⟨_, rfl⟩
theorem diverges_eq (o : Nat) : ∀ (l : List Nat) (s : State), ∃ R, l.foldl (fun (s : State) n => s.divergeOne o n) s = { s with slv := { s.slv with rgns := R } } := by
  intro l
  induction l with
  | nil => exact fun s => ⟨_, rfl⟩
  | cons n l ih =>
    intro s
    obtain ⟨R, e⟩ := divergeOne_eq s o n
    obtain ⟨R2, e2⟩ := ih (s.divergeOne o n)
    exact ⟨R2, by rw [List.foldl_cons, e2, e]⟩
theorem goSolo_eq {s : State} {o : Nat} (ho : s.openDelta = o) (h : s.rng.seals = []) {l : List Nat} (hl : ((s.slv.rgns.map fun e => e.1) ++ s.mirrorRegions).eraseDups = l) :
    s.goSolo = { s with slv := { s.slv with rgns := (l.foldl (fun (s : State) n => s.divergeOne o n) s).slv.rgns, pair := .solo, delay := [], sent := [], parked := [], taken := [], pagesOut := [], reading := [], tx := { s.slv.tx with replay := [], waiting := s.slv.tx.waiting.filter fun e => e.1 = 0, fifo := s.slv.tx.fifo.restrict fun c _ => c = 0 } } } := by
  obtain ⟨R, e⟩ := diverges_eq o l s
  unfold State.goSolo State.diverge
  dsimp only
  rw [ho, hl, e]
  dsimp only
  rw [h]
  rw [checkSeals_nil rfl]
  simp only [List.map_nil, State.dropTx, State.modTx]
  rw [← h]
theorem push_room {s : State} {c : Nat} {ws : List Word} (h : s.slvRoom c ws.length = true) (hq : (s.slv.tx.waiting.any fun e => e.1 = c) = false) (hw : ws ≠ []) : ∃ F, s.slvPush c ws = { s with slv := { s.slv with tx := { s.slv.tx with fifo := F } } }
    ∧ (Tbl.get [] F c).map Prod.fst = (s.slv.tx.fifo.get [] c).map Prod.fst ++ ws := by
  unfold State.slvPush
  simp only [h, hq, Bool.not_false, Bool.true_or, Bool.true_and, if_true]
  refine ⟨_, rfl, ?_⟩
  rw [Tbl.get_set_self]
  · rw [List.map_append]
    congr 1
    apply List.ext_getElem
    · simp
    · intro i h1 h2; simp
  · intro hh
    have := congrArg List.length hh
    simp at this
    exact hw this.2
theorem push_eq (s : State) (c : Nat) (ws : List Word) : ∃ F W, s.slvPush c ws = { s with slv := { s.slv with tx := { s.slv.tx with fifo := F, waiting := W } } } := by
  unfold State.slvPush; dsimp only
  split <;> exact ⟨_, _, rfl⟩
theorem startMirror_eq (s : State) (n : Nat) : ∃ v, s.startMirror n = { s with slv := { s.slv with rgns := v } } := by
  unfold State.startMirror
  dsimp only
  repeat' split
  all_goals exact ⟨_, rfl⟩

end Sys2Proof.Laws
end

