-- ==== Sys2Proof/Laws/Appends.lean ====
section
/-! SUPPORT. What writing the beam's log leaves as it was (R273, R276): stripes, records and map pages. -/
namespace Sys2Proof.Laws.Appends
open Sys2Proof.Machine Sys2Proof.Laws

/-- What appending records and writing stripes leaves: all but the log itself, the commands to drives, counters and power states. -/
def Logged (s t : State) : Prop := ∃ pc pw au o rd ou sg bf rc sn dl, t = { s with
  pmc := pc, pwr := pw, near := { s.near with autoOff := au }, out := o
  beam := { s.beam with reads := rd, outs := ou, segs := sg, bufs := bf, recs := rc, seqNext := sn, deltaSegs := dl } }

theorem Logged.refl (s : State) : Logged s s := ⟨_, _, _, _, _, _, _, _, _, _, _, rfl⟩
theorem Logged.trans {s t u : State} (h1 : Logged s t) (h2 : Logged t u) : Logged s u := by
  obtain ⟨_, _, _, _, _, _, _, _, _, _, _, rfl⟩ := h1
  obtain ⟨_, _, _, _, _, _, _, _, _, _, _, rfl⟩ := h2
  exact ⟨_, _, _, _, _, _, _, _, _, _, _, rfl⟩
theorem Logged.sent {s t : State} (h : Sent s t) : Logged s t := by
  obtain ⟨_, _, _, _, _, _, rfl⟩ := h
  exact ⟨_, _, _, _, _, _, _, _, _, _, _, rfl⟩
theorem Logged.fold {α : Type} (f : State → α → State) (hf : ∀ s x, Logged s (f s x)) : ∀ (l : List α) (s : State), Logged s (l.foldl f s)
  | [], s => Logged.refl s
  | x :: l, s => (hf s x).trans (Logged.fold f hf l (f s x))

/-- Writing a stripe. -/
theorem logged_stripe (s : State) (k : Nat) : Logged s (s.writeStripe k) := by
  unfold State.writeStripe
  split
  · exact Logged.refl s
  · dsimp only
    refine Logged.trans ?_ (Logged.fold (fun (s : State) i => s.submit i) (fun s i => .sent (submit_sent s i)) _ _)
    exact ⟨_, s.pwr, s.near.autoOff, s.out, s.beam.reads, _, _, _, s.beam.recs, s.beam.seqNext, s.beam.deltaSegs, rfl⟩
theorem logged_buf {s t : State} {k : Nat} {b : StripeBuf} (h : s.buf k = some (b, t)) : Logged s t := by
  unfold State.buf at h
  split at h
  · simp at h; rw [← h.2]; exact Logged.refl s
  · dsimp only at h
    split at h
    · simp at h; rw [← h.2]; exact Logged.refl s
    · unfold State.openNew at h
      split at h
      · simp at h
      · split at h
        · simp at h
        · simp at h; rw [← h.2]; exact ⟨s.pmc, s.pwr, s.near.autoOff, s.out, s.beam.reads, s.beam.outs, _, s.beam.bufs, s.beam.recs, _, _, rfl⟩
theorem logged_place (s : State) (k : Nat) (r : BeamRec) (b : StripeBuf) (p : Nat × Nat × Nat) : Logged s (s.place k r b p).2 :=
  ⟨s.pmc, s.pwr, s.near.autoOff, s.out, s.beam.reads, s.beam.outs, s.beam.segs, _, _, s.beam.seqNext, s.beam.deltaSegs, rfl⟩

/-- Appending a record. -/
theorem logged_append {s t : State} {k a : Nat} {r : BeamRec} (h : s.append k r = some (a, t)) : Logged s t := by
  unfold State.append at h
  split at h
  · simp at h
  · split at h
    · simp at h
    · rename_i b s1 hb
      have h1 := logged_buf hb
      split at h
      · rename_i p hp
        have e := logged_place s1 k r b p
        rw [show s1.place k r b p = (a, t) from by simpa using h] at e
        exact h1.trans e
      · split at h
        · rename_i b2 s2 hb2
          have h2 := logged_buf hb2
          rw [Option.map_eq_some_iff] at h
          obtain ⟨p, -, hp⟩ := h
          have e := logged_place s2 k r b2 p
          rw [hp] at e
          exact ((h1.trans (logged_stripe s1 k)).trans h2).trans e
        · simp at h
theorem logged_map (s : State) (w : Option Nat) (l i : Nat) : Logged s (s.appendMap w l i) := by
  unfold State.appendMap
  split
  · rename_i x hx
    exact logged_append (a := x.1) (t := x.2) hx
  · exact Logged.refl s
theorem logged_pages (s : State) (m : PMap) (us roots : List Nat) : Logged s (s.writeMapPages m us roots) :=
  ((Logged.fold _ (fun s i => logged_map s none 0 i) _ s).trans (Logged.fold _ (fun s i => logged_map s none 1 i) _ _)).trans
    (Logged.fold _ (fun s i => logged_map s none 2 i) _ _)
theorem logged_swatch (s : State) (k : Nat) (us : List Nat) : Logged s (s.writeSwatchMap k us) :=
  (((Logged.fold _ (fun s i => logged_map s (some k) 0 i) us s).trans (Logged.fold _ (fun s i => logged_map s (some k) 1 i) _ _)).trans
    (Logged.fold _ (fun s i => logged_map s (some k) 2 i) _ _)).trans (Logged.fold _ (fun s i => logged_map s (some k) 3 i) [0] _)
theorem logged_warm (s : State) (l : List (Nat × Nat)) : Logged s (s.writeWarm l) := by
  refine Logged.fold _ (fun s x => ?_) _ s
  split
  · rename_i y hy
    exact logged_append (a := y.1) (t := y.2) hy
  · exact Logged.refl s
theorem logged_close (s : State) (k : Nat) : Logged s (s.closeStream k) := by
  refine (logged_stripe s k).trans ?_
  unfold State.closeStream
  dsimp only
  generalize s.writeStripe k = t
  split
  · exact ⟨t.pmc, t.pwr, t.near.autoOff, t.out, t.beam.reads, t.beam.outs, _, t.beam.bufs, t.beam.recs, t.beam.seqNext, t.beam.deltaSegs, rfl⟩
  · exact Logged.refl t

/-- Writing a DELTA record also takes its entries off the list. -/
theorem logged_delta (s : State) : ∃ ds dt, Logged { s with beam := { s.beam with deltas := ds, deltaAt := dt } } s.writeDelta := by
  unfold State.writeDelta
  dsimp only
  split
  · exact ⟨s.beam.deltas, s.beam.deltaAt, Logged.refl s⟩
  · split
    · rename_i x hx
      obtain ⟨_, _, _, _, _, _, _, _, _, _, _, h⟩ := logged_append (a := x.1) (t := x.2) hx
      rw [h]
      exact ⟨s.beam.deltas.drop 256, s.beam.deltaAt.drop 256, _, _, _, _, _, _, _, _, _, _, _, rfl⟩
    · exact ⟨s.beam.deltas, s.beam.deltaAt, Logged.refl s⟩

theorem logged_swatches : ∀ (l : List (Nat × List Nat)) (s : State), Logged s (l.foldl (fun (s : State) x => s.writeSwatchMap x.1 x.2) s)
  | [], s => Logged.refl s
  | x :: l, s => (logged_swatch s x.1 x.2).trans (logged_swatches l _)

/-- A checkpoint's start (R289): it takes the map and the warm list of its moment and the DELTA segments so far, and appends records. -/
theorem checkpoint_logged (s : State) : ∃ t t2 : State, t = s.closeStream 4
    ∧ t2 = { t with beam := { t.beam with ckpt := true, ckptBase := t.pmapNow, ckptSegs := t.beam.deltaSegs, warm := t.warmList } }
    ∧ ∃ t3, s.startCheckpoint = State.count t3 (evBeam 8) 1 ∧ Logged t2 t3 := by
  obtain ⟨t, ht⟩ : ∃ t, t = s.closeStream 4 := ⟨_, rfl⟩
  obtain ⟨t2, ht2⟩ : ∃ t2 : State, t2 = { t with beam := { t.beam with ckpt := true, ckptBase := t.pmapNow, ckptSegs := t.beam.deltaSegs, warm := t.warmList } } := ⟨_, rfl⟩
  refine ⟨t, t2, ht, ht2, ?_⟩
  unfold State.startCheckpoint
  rw [← ht]
  dsimp only
  rw [← ht2]
  refine ⟨_, rfl, ?_⟩
  generalize PMap.changed _ _ = us
  generalize PMap.changedSwatches _ _ = ws
  generalize List.range _ = rs
  generalize t.pmapNow = m
  exact ((logged_pages t2 m us rs).trans (logged_swatches ws _)).trans (logged_warm _ _)

/-! ### A stripe's writes where no command is out -/

theorem submitUnit_eq (s : State) (i k : Nat) : ∃ o, (s.submitUnit i k).out = s.out ++ o ++ [.beamUnit k i]
    ∧ (s.submitUnit i k).beam = { s.beam with outs := s.beam.outs.map fun o => if o.stripe = k then { o with held := putBit o.held i false } else o } := by
  obtain ⟨p, a, o, h⟩ := wake_drive s (48 + i)
  unfold State.submitUnit
  rw [h]
  exact ⟨o, rfl, rfl⟩

/-- The Write of one slot of the one stripe that is out goes to its drive. -/
theorem submit_one {s : State} {i : Nat} {o : StripeOut} (hi : i < 8) (hr : s.beam.reads = []) (ho : s.beam.outs = [o]) (hw : o.held.getLsbD i = true) :
    ∃ q, (s.submit i).out = s.out ++ q ++ [.beamUnit o.stripe i]
      ∧ (s.submit i).beam = { s.beam with outs := [{ o with held := putBit o.held i false }] } := by
  have w : ∀ t : State, ∀ p : StripeOut, t.beam.reads = [] → t.beam.outs = [p] → ∀ k, t.waiters i k = if (p.held.getLsbD i && queueOf p.prio = k) = true then [⟨p.prio, p.since, false, p.stripe⟩] else [] := by
    intro t p h1 h2 k
    unfold State.waiters
    rw [h1, h2]
    simp only [List.filterMap_nil, List.nil_append, List.filterMap_cons]
    cases p.held.getLsbD i && decide (queueOf p.prio = k) <;> rfl
  have no : ∀ t : State, ∀ p : StripeOut, t.beam.reads = [] → t.beam.outs = [p] → ∀ k, (p.held.getLsbD i && decide (queueOf p.prio = k)) = false →
      (t.waiters i k).foldl (fun (s : State) _ => s.submitNext i k) t = t := by
    intro t p h1 h2 k h3
    rw [w t p h1 h2, h3]; rfl
  have yes : (s.waiters i (queueOf o.prio)).foldl (fun (s : State) _ => s.submitNext i (queueOf o.prio)) s = s.submitUnit i o.stripe := by
    rw [w s o hr ho, hw]
    simp only [decide_true, Bool.and_self, if_true, List.foldl_cons, List.foldl_nil]
    unfold State.submitNext
    have d : s.outstanding i (queueOf o.prio) = 0 := by
      unfold State.outstanding
      rw [hr, ho]
      simp [hw]
    rw [d, w s o hr ho, hw]
    have q : ¬ s.queueDepth (queueOf o.prio) ≤ 0 := by
      unfold State.queueDepth State.bgDepth
      split <;> omega
    rw [if_neg q]
    simp only [decide_true, Bool.and_self, if_true]
    rfl
  obtain ⟨a, e1, e2⟩ := submitUnit_eq s i o.stripe
  obtain ⟨t, ht⟩ : ∃ t, t = s.submitUnit i o.stripe := ⟨_, rfl⟩
  rw [← ht] at e1 e2
  have cl : (putBit o.held i false).getLsbD i = false := by
    unfold putBit
    rw [if_neg (by simp), BitVec.getLsbD_and, BitVec.getLsbD_not, bit_eq hi]
    simp
  have e3 : t.beam = { s.beam with outs := [{ o with held := putBit o.held i false }] } := by
    rw [e2, ho]; simp
  have tr : t.beam.reads = [] := by rw [e3]; exact hr
  have to_ : t.beam.outs = [{ o with held := putBit o.held i false }] := by rw [e3]
  have nt : ∀ k, (t.waiters i k).foldl (fun (s : State) _ => s.submitNext i k) t = t := fun k =>
    no t _ tr to_ k (by rw [show ({ o with held := putBit o.held i false } : StripeOut).held = putBit o.held i false from rfl, cl]; rfl)
  have ns : ∀ k, k ≠ queueOf o.prio → (s.waiters i k).foldl (fun (s : State) _ => s.submitNext i k) s = s := fun k hk =>
    no s o hr ho k (by rw [decide_eq_false (Ne.symm hk), Bool.and_false])
  have fin : s.submit i = t := by
    unfold State.submit
    simp only [List.foldl_cons, List.foldl_nil]
    have cases_ : queueOf o.prio = 1 ∨ queueOf o.prio = 2 ∨ queueOf o.prio = 3 ∨ queueOf o.prio = 4 := by
      unfold queueOf; split
      · simp
      · split
        · simp
        · split <;> simp
    rcases cases_ with c | c | c | c <;> rw [c] at yes ns
    · rw [yes, ← ht, nt 2, nt 3, nt 4]
    · rw [ns 1 (by decide), yes, ← ht, nt 3, nt 4]
    · rw [ns 1 (by decide), ns 2 (by decide), yes, ← ht, nt 4]
    · rw [ns 1 (by decide), ns 2 (by decide), ns 3 (by decide), yes, ← ht]
  rw [fin]
  exact ⟨a, e1, e3⟩

/-- The Writes of all the slots of a list go out, each to its drive. -/
theorem submit_each (k : Nat) : ∀ (l : List Nat) (s : State) (o : StripeOut), l.Nodup → (∀ i ∈ l, i < 8 ∧ o.held.getLsbD i = true) →
    s.beam.reads = [] → s.beam.outs = [o] → o.stripe = k →
    ∃ t q, t = l.foldl (fun (s : State) i => s.submit i) s ∧ t.out = s.out ++ q ∧ (∀ i ∈ l, .beamUnit k i ∈ q)
      ∧ t.beam = { s.beam with outs := [{ o with held := l.foldl (fun b i => putBit b i false) o.held }] } := by
  intro l
  induction l with
  | nil =>
    intro s o _ _ hr ho hk
    refine ⟨s, [], rfl, by simp, by simp, ?_⟩
    rw [List.foldl_nil, ← ho]
  | cons i l ih =>
    intro s o hn hh hr ho hk
    rw [List.nodup_cons] at hn
    obtain ⟨hi, hw⟩ := hh i (List.mem_cons_self ..)
    obtain ⟨q, e1, e2⟩ := submit_one hi hr ho hw
    obtain ⟨p, hp⟩ : ∃ p : StripeOut, p = { o with held := putBit o.held i false } := ⟨_, rfl⟩
    have ph : ∀ j ∈ l, j < 8 ∧ p.held.getLsbD j = true := by
      intro j hj
      obtain ⟨h1, h2⟩ := hh j (List.mem_cons_of_mem _ hj)
      refine ⟨h1, ?_⟩
      have ne : j ≠ i := fun e => hn.1 (e ▸ hj)
      rw [hp]
      unfold putBit
      rw [if_neg (by simp), BitVec.getLsbD_and, BitVec.getLsbD_not, h2]
      have : (BitVec.ofNat 8 (2 ^ i)).getLsbD j = false := by
        rw [BitVec.getLsbD_ofNat, Nat.testBit_two_pow]
        simp [Ne.symm ne]
      rw [this]; simp [h1]
    obtain ⟨t, q2, f1, f2, f3, f4⟩ := ih (s.submit i) p hn.2 ph (by rw [e2]; exact hr) (by rw [e2, hp]) (by rw [hp]; exact hk)
    refine ⟨t, q ++ [.beamUnit k i] ++ q2, f1, ?_, ?_, ?_⟩
    · rw [f2, e1, hk]; simp
    · intro j hj
      rcases List.mem_cons.mp hj with rfl | hj
      · simp
      · exact List.mem_append_right _ (f3 j hj)
    · rw [f4, e2, hp, List.foldl_cons]

end Sys2Proof.Laws.Appends
end

