-- ==== Sys2Proof/Laws/Errors.lean ====
section
/-! SUPPORT. Laws of buckets, retirement, notices and of the end of every command. -/
namespace Sys2Proof.Laws.Errors
open Sys2Proof.Machine Sys2Proof.Laws

theorem mask_bit (lo len i : Nat) (h : i < 64) : (fldMask lo len).getLsbD i = (decide (lo ≤ i) && decide (i < lo + len)) := by
  unfold fldMask
  rw [BitVec.getLsbD_ofNat, Nat.testBit_shiftLeft, Nat.testBit_two_pow_sub_one]
  by_cases h1 : lo ≤ i
  · simp [h, h1]; omega
  · simp [h, h1]
theorem put_bit (w : Word) (lo len v i : Nat) (h : i < 64) : (putFld w lo len v).getLsbD i = if lo ≤ i ∧ i < lo + len then v.testBit (i - lo) else w.getLsbD i := by
  unfold putFld
  rw [BitVec.getLsbD_or, BitVec.getLsbD_and, BitVec.getLsbD_not, mask_bit lo len i h, BitVec.getLsbD_ofNat, Nat.testBit_shiftLeft, Nat.testBit_mod_two_pow]
  by_cases h1 : lo ≤ i
  · by_cases h2 : i < lo + len
    · simp [h, h1, h2]; intro _; omega
    · have : ¬ i - lo < len := by omega
      simp [h, h1, h2, this]
  · simp [h, h1]
theorem fld_bit (w : Word) (lo len i : Nat) : (fld w lo len).testBit i = (decide (i < len) && w.getLsbD (lo + i)) := by
  unfold fld
  rw [Nat.testBit_mod_two_pow, Nat.testBit_shiftRight]
  rfl
theorem put_same (w : Word) (lo len : Nat) : putFld w lo len (fld w lo len) = w := by
  refine BitVec.eq_of_getLsbD_eq fun i hi => ?_
  rw [put_bit w lo len _ i hi, fld_bit]
  split
  · rename_i h
    rw [decide_eq_true (by omega), Bool.true_and, Nat.add_sub_cancel' h.1]
  · rfl
theorem fld_put (w : Word) (lo len v : Nat) (h : lo + len ≤ 64) : fld (putFld w lo len v) lo len = v % 2 ^ len := by
  refine Nat.eq_of_testBit_eq fun i => ?_
  rw [fld_bit, Nat.testBit_mod_two_pow]
  by_cases hi : i < len
  · rw [put_bit w lo len v (lo + i) (by omega), if_pos (by omega), Nat.add_sub_cancel_left]
  · simp [hi]
theorem fld_put_other (w : Word) (lo len lo2 len2 v : Nat) (h2 : lo2 + len2 ≤ 64) (h : lo + len ≤ lo2 ∨ lo2 + len2 ≤ lo) : fld (putFld w lo len v) lo2 len2 = fld w lo2 len2 := by
  refine Nat.eq_of_testBit_eq fun i => ?_
  rw [fld_bit, fld_bit]
  by_cases hi : i < len2
  · rw [put_bit w lo len v (lo2 + i) (by omega), if_neg (by omega)]
  · simp [hi]
theorem repair_field (w : Word) (f : Nat × Nat) : (Trw.all w).repairField f = Trw.all w := by
  unfold Trw.repairField Trw.all
  dsimp only
  rw [if_neg (by unfold differ3; simp)]
  have : Trw.fld ⟨w, w, w⟩ f.1 f.2 = fld w f.1 f.2 := by
    unfold Trw.fld vote3
    simp
  rw [this, put_same]
theorem repair_all (w : Word) (fs : List (Nat × Nat)) : (Trw.all w).repair fs = Trw.all w := by
  unfold Trw.repair
  induction fs with
  | nil => rfl
  | cons f fs ih => rw [List.foldl_cons, repair_field, ih]
theorem broken_all (w : Word) (fs : List (Nat × Nat)) : (Trw.all w).broken fs = false := by
  unfold Trw.broken Trw.all differ3
  rw [List.any_eq_false]
  intro f _
  simp
theorem repair_two (a b c : Word) (f : Nat × Nat) (h : fld a f.1 f.2 = fld b f.1 f.2 ∨ fld a f.1 f.2 = fld c f.1 f.2) :
    Trw.repairField ⟨a, b, c⟩ f = ⟨a, putFld b f.1 f.2 (fld a f.1 f.2), putFld c f.1 f.2 (fld a f.1 f.2)⟩ := by
  unfold Trw.repairField
  dsimp only
  rw [if_neg (by unfold differ3; simp; rcases h with h | h <;> (intro h1 h2; first | exact absurd h h1 | exact h))]
  have : Trw.fld ⟨a, b, c⟩ f.1 f.2 = fld a f.1 f.2 := by
    unfold Trw.fld vote3
    rw [if_pos h]
  rw [this, put_same]
theorem repair_three (a b c : Word) (f : Nat × Nat) (h1 : fld a f.1 f.2 ≠ fld b f.1 f.2) (h2 : fld b f.1 f.2 ≠ fld c f.1 f.2) (h3 : fld a f.1 f.2 ≠ fld c f.1 f.2) :
    Trw.repairField ⟨a, b, c⟩ f = ⟨a, b, c⟩ := by
  unfold Trw.repairField
  dsimp only
  rw [if_pos (by unfold differ3; simp [h1, h2, h3])]
theorem repair_keeps (t : Trw) (f : Nat × Nat) (lo len : Nat) (h2 : lo + len ≤ 64) (h : f.1 + f.2 ≤ lo ∨ lo + len ≤ f.1) :
    fld (t.repairField f).a lo len = fld t.a lo len ∧ fld (t.repairField f).b lo len = fld t.b lo len ∧ fld (t.repairField f).c lo len = fld t.c lo len := by
  unfold Trw.repairField
  dsimp only
  split
  · exact ⟨rfl, rfl, rfl⟩
  · exact ⟨fld_put_other _ _ _ _ _ _ h2 h, fld_put_other _ _ _ _ _ _ h2 h, fld_put_other _ _ _ _ _ _ h2 h⟩
theorem fatal_eq (s : State) (cause unit : Nat) (sound : Bool) (h : s.flt.fatal = none) : ∃ hs tp p o v, s.fatalError cause unit sound = { s with
    flt := ({ s.flt with fatal := some (cause, sound) } : Flt).enter (Note.words ⟨3, 0x3F, cause, some (unit % 4096)⟩), heads := hs, tap := tp, pmc := p, out := o, vlt := v }
    ∧ (sound = false → v = s.vlt)
    ∧ (sound = true → s.vlt.st = .run ∨ s.vlt.st = .brace → v.st = .s1 ∧ v.orderly = true ∧ v.source = 4 ∧ v.hold = s.vlt.hold ∧ v.stopAt = s.clock) := by
  unfold State.fatalError
  rw [h]
  dsimp only
  obtain ⟨t, p, hs, o, e⟩ := note_cases ({ s with flt := { s.flt with fatal := some (cause, sound) } } : State) ⟨3, 0x3F, cause, some (unit % 4096)⟩
  rw [if_neg (by decide), e]
  cases sound
  · exact ⟨_, _, _, _, _, rfl, fun _ => rfl, fun h => absurd h (by decide)⟩
  · rw [if_pos rfl]
    unfold State.startShutdown
    split
    · exact ⟨_, _, _, _, _, rfl, (fun h => absurd h (by decide)), fun _ _ => ⟨rfl, rfl, rfl, rfl, rfl⟩⟩
    · rename_i hn
      refine ⟨_, _, _, _, _, rfl, (fun _ => rfl), fun _ hv => absurd ?_ hn⟩
      show (decide (s.vlt.st = .run) || decide (s.vlt.st = .brace)) = true
      rcases hv with h | h <;> rw [h] <;> rfl
theorem enter_fatal (f : Flt) (ws : List Word) : (f.enter ws).fatal = f.fatal := by
  unfold Flt.enter
  repeat' split
  all_goals rfl
theorem enter_fifo2 (f : Flt) (x : Option (Nat × Bool)) (ws : List Word) : (({ f with fatal := x } : Flt).enter ws).fifo = (f.enter ws).fifo := by
  unfold Flt.enter
  repeat' split
  all_goals rfl
theorem rep2 (t : Trw) (f : Nat × Nat) (hf : f.1 + f.2 ≤ 64) (h : fld t.a f.1 f.2 = fld t.b f.1 f.2 ∨ fld t.a f.1 f.2 = fld t.c f.1 f.2) :
    fld (t.repairField f).a f.1 f.2 = fld t.a f.1 f.2 ∧ fld (t.repairField f).b f.1 f.2 = fld t.a f.1 f.2 ∧ fld (t.repairField f).c f.1 f.2 = fld t.a f.1 f.2 := by
  obtain ⟨a, b, c⟩ := t
  rw [repair_two a b c f h]
  have : fld a f.1 f.2 % 2 ^ f.2 = fld a f.1 f.2 := by unfold fld; exact Nat.mod_mod _ _
  exact ⟨rfl, (fld_put _ _ _ _ hf).trans this, (fld_put _ _ _ _ hf).trans this⟩
theorem trw_rep (s : State) (a b c g : Word) (w : Fin 6 → Word)
        (k1 : s.glb.mgmtHead = Trw.all g) (k2 : s.rsv.ctl = Trw.all (w 0)) (k3 : s.rsv.bank = Trw.all (w 1)) (k4 : s.rsv.flush = Trw.all (w 2)) (k5 : s.rsv.sense = Trw.all (w 3)) (k6 : s.slv.pairId = Trw.all (w 4))
        (k7 : s.vlt.ctl = Trw.all (w 5)) (k8 : s.vlt.floor = ⟨a, b, c⟩) : s.hush.trwRepair = { s.hush with vlt := { s.vlt with floor := Trw.repair trwFloor ⟨a, b, c⟩ } } := by
  have e1 : s.glb.mgmtHead.repair trwGlb = s.glb.mgmtHead := by rw [k1, repair_all]
  have e2 : s.rsv.ctl.repair trwRsvCtl = s.rsv.ctl := by rw [k2, repair_all]
  have e3 : s.rsv.bank.repair rsvBankFields = s.rsv.bank := by rw [k3, repair_all]
  have e4 : s.rsv.flush.repair rsvFlushFields = s.rsv.flush := by rw [k4, repair_all]
  have e5 : s.rsv.sense.repair rsvSenseFields = s.rsv.sense := by rw [k5, repair_all]
  have e6 : s.vlt.ctl.repair trwVltCtl = s.vlt.ctl := by rw [k7, repair_all]
  have e7 : s.slv.pairId.repair trwPair = s.slv.pairId := by rw [k6, repair_all]
  unfold State.trwRepair
  rw [show s.hush.glb.mgmtHead.repair trwGlb = s.glb.mgmtHead from e1, show s.hush.rsv.ctl.repair trwRsvCtl = s.rsv.ctl from e2, show s.hush.rsv.bank.repair rsvBankFields = s.rsv.bank from e3,
    show s.hush.rsv.flush.repair rsvFlushFields = s.rsv.flush from e4, show s.hush.rsv.sense.repair rsvSenseFields = s.rsv.sense from e5, show s.hush.vlt.ctl.repair trwVltCtl = s.vlt.ctl from e6,
    show s.hush.slv.pairId.repair trwPair = s.slv.pairId from e7, show s.hush.vlt.floor = ⟨a, b, c⟩ from k8]
  rfl
theorem trw_bro (s : State) (a b c g : Word) (w : Fin 6 → Word)
        (k1 : s.glb.mgmtHead = Trw.all g) (k2 : s.rsv.ctl = Trw.all (w 0)) (k3 : s.rsv.bank = Trw.all (w 1)) (k4 : s.rsv.flush = Trw.all (w 2)) (k5 : s.rsv.sense = Trw.all (w 3)) (k6 : s.slv.pairId = Trw.all (w 4))
        (k7 : s.vlt.ctl = Trw.all (w 5)) (k8 : s.vlt.floor = ⟨a, b, c⟩) (t : Trw) : State.trwBroken { s.hush with vlt := { s.vlt with floor := t } } = t.broken trwFloor := by
  show (s.glb.mgmtHead.broken trwGlb || s.rsv.ctl.broken trwRsvCtl || s.rsv.bank.broken rsvBankFields
    || s.rsv.flush.broken rsvFlushFields || s.rsv.sense.broken rsvSenseFields || s.vlt.ctl.broken trwVltCtl
    || t.broken trwFloor || s.slv.pairId.broken trwPair) = _
  rw [k1, k2, k3, k4, k5, k6, k7, broken_all, broken_all, broken_all, broken_all, broken_all, broken_all, broken_all]
  simp


theorem alert_idem (f : Flt) : f.alerts.alertMark = f.alertMark := by
  unfold Flt.alertMark
  show (if f.fifo.length ≥ f.hi then true else if f.fifo.length ≤ f.lo then false else f.alertMark) = _
  unfold Flt.alertMark
  split
  · rfl
  · split <;> rfl
theorem settle_safe (s : State) : (settle s).Safe := by
  have h := Rsv.interlock_safe s.rsv s.vlt.hold
  refine ⟨?_, ?_⟩
  · unfold State.pinsSafe
    show (! ((s.rsv.interlock s.vlt.hold).charging && (s.rsv.interlock s.vlt.hold).testing) && ! (s.vlt.hold && ((s.rsv.interlock s.vlt.hold).charging || (s.rsv.interlock s.vlt.hold).testing))) = true
    rw [h.1]
    cases hh : s.vlt.hold
    · simp
    · obtain ⟨a, b⟩ := h.2 hh
      rw [hh] at a b
      rw [a, b]; rfl
  · unfold State.alertSafe
    show (s.flt.alerts.alert == s.flt.alerts.alertDue && s.flt.alerts.alertHi == s.flt.alerts.alertMark) = true
    unfold Flt.alertDue
    rw [alert_idem]
    show ((_ == _) && (_ == _)) = true
    simp [Flt.alerts]
theorem settle_eq {s : State} (h : s.Safe) : settle s = s := by
  obtain ⟨h1, h2⟩ := h
  unfold settle
  have e1 : s.rsv.interlock s.vlt.hold = s.rsv := by
    unfold Rsv.interlock
    unfold State.pinsSafe at h1
    have : (s.rsv.charging && ! s.vlt.hold && ! (s.rsv.testing)) = s.rsv.charging ∧ (s.rsv.testing && ! s.vlt.hold) = s.rsv.testing := by
      revert h1
      cases s.rsv.charging <;> cases s.rsv.testing <;> cases s.vlt.hold <;> decide
    rw [this.1, this.2]
  have e2 : s.flt.alerts = s.flt := by
    unfold Flt.alerts
    unfold State.alertSafe at h2
    have h2' := Bool.and_eq_true_iff.mp h2
    have h3 := beq_iff_eq.mp h2'.1
    have h4 := beq_iff_eq.mp h2'.2
    unfold Flt.alertDue at h3
    dsimp only
    rw [← h3, ← h4]
  rw [e1, e2]
theorem exec_next (c : Instr) (s : State) : ∃ u, exec c s = .next (settle u) := by
  cases c <;> exact ⟨_, rfl⟩
theorem tick_safe {s : State} (h : s.Safe) : s.tick.Safe := by
  unfold State.tick; split <;> exact h

end Sys2Proof.Laws.Errors
end

