-- ==== Sys2Proof/Laws/Partner.lean ====
section
/-! SUPPORT. Laws of the selvedge link, pairing and mirrors. -/
namespace Sys2Proof.Laws.Partner
open Sys2Proof.Machine Sys2Proof.Laws

theorem pairUp_eq (s : State) (n : Nat) : ∃ R F W, s.pairUp n = { s with slv := { s.slv with
            pair := .paired, session := n % 2 ^ 32, peerSet := (s.slv.peer.map fun p => p.setId).getD s.slv.peerSet, mackCount := 0, rackCount := 0, taken := [], pagesOut := [], sent := [], parked := []
            rgns := R
            tx := { s.slv.tx with sentMack := 0, sentRack := 0, sentHealth := none, fifo := F, waiting := W }
            rx := { s.slv.rx with mwrs := [], macks := 0, pages := [], racks := 0 } } }
    ∧ (s.mirrorRegions = [] → s.slv.rgns = [] → R = [] ∧ (s.slvRoom 0 1 = true → (s.slv.tx.waiting.any fun e => e.1 = 0) = false → W = s.slv.tx.waiting ∧ (Tbl.get [] F 0).map Prod.fst = (s.slv.tx.fifo.get [] 0).map Prod.fst ++ [0x104])) := by
  unfold State.pairUp
  dsimp only
  obtain ⟨s1, hs1⟩ : ∃ s1 : State, s1 = { s with slv := { s.slv with
    pair := .paired, session := n % 2 ^ 32, peerSet := (s.slv.peer.map fun p => p.setId).getD s.slv.peerSet
    mackCount := 0, rackCount := 0, taken := [], pagesOut := [], sent := [], parked := []
    tx := { s.slv.tx with sentMack := 0, sentRack := 0, sentHealth := none }
    rx := { s.slv.rx with mwrs := [], macks := 0, pages := [], racks := 0 } } } := ⟨_, rfl⟩
  rw [← hs1]
  have f1 : ∀ (l : List Nat) (s : State), ∃ R, l.foldl (fun (s : State) n =>
    if ((s.region n).isSource && (decide ((s.slvRgn n).mst = 0) || decide ((s.slvRgn n).mst = 4) || decide ((s.slvRgn n).mst = 5))) = true then (s.modSlv n fun x => { x with fresh := true }).startMirror n
    else s.modSlv n fun x => { x with fresh := true }) s = { s with slv := { s.slv with rgns := R } } := by
    intro l
    induction l with
    | nil => exact fun s => ⟨_, rfl⟩
    | cons i l ih =>
      intro s
      rw [List.foldl_cons]
      obtain ⟨R, e⟩ := ih (if ((s.region i).isSource && (decide ((s.slvRgn i).mst = 0) || decide ((s.slvRgn i).mst = 4) || decide ((s.slvRgn i).mst = 5))) = true then (s.modSlv i fun x => { x with fresh := true }).startMirror i
    else s.modSlv i fun x => { x with fresh := true })
      refine ⟨R, e.trans ?_⟩
      split
      · obtain ⟨v, hv⟩ := startMirror_eq (s.modSlv i fun x => { x with fresh := true }) i
        rw [hv]; rfl
      · rfl
  obtain ⟨R, e⟩ := f1 s1.mirrorRegions s1
  obtain ⟨s2, hs2⟩ : ∃ s2 : State, s2 = { s1 with slv := { s1.slv with rgns := R } } := ⟨_, rfl⟩
  have e' : (s1.mirrorRegions.foldl (fun (s : State) n =>
    if ((s.region n).isSource && (decide ((s.slvRgn n).mst = 0) || decide ((s.slvRgn n).mst = 4) || decide ((s.slvRgn n).mst = 5))) = true then (s.modSlv n fun x => { x with fresh := true }).startMirror n
    else s.modSlv n fun x => { x with fresh := true }) s1) = s2 := e.trans hs2.symm
  rw [e']
  have f2 : ∀ (l : List (Nat × SlvRgn)) (s : State), ∃ F W, l.foldl (fun (s : State) e =>
    s.slvPush 0 (pkt 0x08 0 [atBit (s.region e.1).peer 0])) s = { s with slv := { s.slv with tx := { s.slv.tx with fifo := F, waiting := W } } } := by
    intro l
    induction l with
    | nil => exact fun s => ⟨_, _, rfl⟩
    | cons i l ih =>
      intro s
      rw [List.foldl_cons]
      obtain ⟨F, W, e⟩ := ih (s.slvPush 0 (pkt 0x08 0 [atBit (s.region i.1).peer 0]))
      obtain ⟨G, V, g⟩ := push_eq s 0 (pkt 0x08 0 [atBit (s.region i.1).peer 0])
      exact ⟨F, W, by rw [e, g]⟩
  obtain ⟨G, V, g⟩ : ∃ F W, s2.sendRmap = { s2 with slv := { s2.slv with tx := { s2.slv.tx with fifo := F, waiting := W } } } := push_eq s2 0 _
  obtain ⟨F, W, f⟩ := f2 (s2.sendRmap.slv.rgns.filter fun e => e.2.mst = 6) s2.sendRmap
  rw [f]
  refine ⟨R, F, W, ?_, ?_⟩
  · rw [g, hs2, hs1]
  · intro k1 k2
    have m1 : s1.mirrorRegions = [] := by rw [hs1]; exact k1
    have r1 : R = [] := by
      have := congrArg (fun t : State => t.slv.rgns) e'
      rw [m1, List.foldl_nil] at this
      have a : s1.slv.rgns = R := by rw [this, hs2]
      rw [← a, hs1]; exact k2
    refine ⟨r1, fun hroom hwait => ?_⟩
    have hl : s2.sendRmap.slv.rgns = [] := by rw [g, hs2]; exact r1
    have f' : s2.sendRmap = { s2.sendRmap with slv := { s2.sendRmap.slv with tx := { s2.sendRmap.slv.tx with fifo := F, waiting := W } } } := by
      rw [← f, hl]; rfl
    have f3 : s2.sendRmap.slv.tx.fifo = F := congrArg (fun t : State => t.slv.tx.fifo) f'
    have f5 : s2.sendRmap.slv.tx.waiting = W := congrArg (fun t : State => t.slv.tx.waiting) f'
    have hr : s2.rmapNow = [] := by
      have : s2.mirrorRegions = [] := by rw [hs2]; exact m1
      unfold State.mirrorRegions at this
      rw [List.map_eq_nil_iff] at this
      unfold State.rmapNow
      rw [this]; rfl
    obtain ⟨H, h1, h2⟩ := push_room (s := s2) (c := 0) (ws := [0x104]) (by rw [hs2, hs1]; exact hroom) (by rw [hs2, hs1]; exact hwait) (by simp)
    have : s2.sendRmap = s2.slvPush 0 [0x104] := by
      unfold State.sendRmap
      rw [hr]; rfl
    rw [this, h1] at f3 f5
    have f4 : H = F := f3
    rw [← f4, h2, ← f5, hs2, hs1]
    exact ⟨rfl, rfl⟩


theorem modSlv_eq {s : State} {n : Nat} {f : SlvRgn → SlvRgn} {x : SlvRgn} (h : s.slvRgn n = x) : s.modSlv n f = s.modSlv n fun _ => f x := by
  unfold State.modSlv; rw [h]
theorem tryRdones_nil {s : State} (h : s.slv.rgns = []) : s.tryRdones = s := by
  unfold State.tryRdones; rw [h]; rfl


theorem modRegion_eq {s : State} {n : Nat} {f : Region → Region} {x : Region} (h : s.region n = x) : s.modRegion n f = s.modRegion n fun _ => f x := by
  unfold State.modRegion; rw [h]
theorem lose_nil {s : State} {n : Nat} (h : s.rng.seals = []) : s.loseMirror n = s := by
  unfold State.loseMirror
  exact seals_same h
theorem modRx_eq {s : State} {f : SlvRx → SlvRx} {x : SlvRx} (h : s.slv.rx = x) : s.modRx f = s.modRx fun _ => f x := by
  unfold State.modRx; rw [h]
theorem modTx_eq {s : State} {f : SlvTx → SlvTx} {x : SlvTx} (h : s.slv.tx = x) : s.modTx f = s.modTx fun _ => f x := by
  unfold State.modTx; rw [h]
theorem header_rx (s : State) (h : FlitHeader) : (s.takeHeader h).slv.rx = s.slv.rx := by
  unfold State.takeHeader
  dsimp only
  split <;> rfl
theorem header_fb (s : State) (h : FlitHeader) : (s.takeHeader h).slv.fbRx = s.slv.fbRx := by
  unfold State.takeHeader
  dsimp only
  split <;> rfl
theorem credits : ∀ (l : List (Nat × Nat)) (t : SlvTx), (l.map Prod.fst).Nodup → t.credits.wf 0 = true → t.seen.wf 0 = true →
    ∃ C S, l.foldl (fun (t : SlvTx) e =>
      { t with
        credits := t.credits.set 0 e.1 (t.credits.get 0 e.1 + (e.2 + 4096 - t.seen.get 0 e.1) % 4096)
        seen := t.seen.set 0 e.1 (e.2 % 4096) }) t = { t with credits := C, seen := S }
      ∧ (∀ c x, (c, x) ∈ l → Tbl.get 0 C c = t.credits.get 0 c + (x + 4096 - t.seen.get 0 c) % 4096 ∧ Tbl.get 0 S c = x % 4096)
      ∧ (∀ c, c ∉ l.map Prod.fst → Tbl.get 0 C c = t.credits.get 0 c ∧ Tbl.get 0 S c = t.seen.get 0 c) := by
  intro l
  induction l with
  | nil => intro t _ _ _; exact ⟨_, _, rfl, by simp, fun c _ => ⟨rfl, rfl⟩⟩
  | cons e l ih =>
    intro t hn h1 h2
    simp only [List.map_cons, List.nodup_cons] at hn
    obtain ⟨C, S, g1, g2, g3⟩ := ih { t with
        credits := t.credits.set 0 e.1 (t.credits.get 0 e.1 + (e.2 + 4096 - t.seen.get 0 e.1) % 4096)
        seen := t.seen.set 0 e.1 (e.2 % 4096) } hn.2 (Tbl.wf_set _ _ _ h1) (Tbl.wf_set _ _ _ h2)
    refine ⟨C, S, by rw [List.foldl_cons, g1], ?_, ?_⟩
    · intro c x hc
      rcases List.mem_cons.mp hc with h | h
      · subst h
        have := g3 c hn.1
        rw [this.1, this.2]
        exact ⟨Tbl.get_set_eq _ _ _ h1, Tbl.get_set_eq _ _ _ h2⟩
      · have := g2 c x h
        have hne : c ≠ e.1 := fun hh => hn.1 (by rw [← hh]; exact List.mem_map_of_mem (f := Prod.fst) h)
        rw [this.1, this.2]
        refine ⟨?_, rfl⟩
        show Tbl.get 0 (Tbl.set 0 t.credits e.1 _) c + (x + 4096 - Tbl.get 0 (Tbl.set 0 t.seen e.1 _) c) % 4096 = _
        rw [Tbl.get_set_ne _ _ hne h1, Tbl.get_set_ne _ _ hne h2]
    · intro c hc
      rw [List.map_cons, List.mem_cons, not_or] at hc
      have := g3 c hc.2
      rw [this.1, this.2]
      exact ⟨Tbl.get_set_ne _ _ hc.1 h1, Tbl.get_set_ne _ _ hc.1 h2⟩

end Sys2Proof.Laws.Partner
end

