-- ==== Sys2Proof/Laws/Units.lean ====
section
/-! SUPPORT. Laws of freeing frames, of releasing pages, and of units that become ZERO or are bound. -/
namespace Sys2Proof.Laws.Units
open Sys2Proof.Machine Sys2Proof.Laws

theorem freeFrame_eq (s : State) (f : Nat) : ∃ d, s.freeFrame f = { s with dram := d } := ⟨_, rfl⟩
theorem freeFrames_eq : ∀ (l : List Nat) (s : State), ∃ d, l.foldl (fun (s : State) f => s.freeFrame f) s = { s with dram := d }
  | [], s => ⟨s.dram, rfl⟩
  | i :: l, s => by
    obtain ⟨d, h⟩ := freeFrames_eq l (s.freeFrame i)
    exact ⟨d, by rw [List.foldl_cons, h]; rfl⟩
theorem freeTwins2 (l : List Nat) : ∀ s : State, ∃ d, l.foldl (fun (s : State) f => s.freeTwin f) s = { s with dram := d } := freeTwins_eq l
theorem freeSectors_eq (s : State) (n : Nat) : ∃ d, s.freeSectors n = { s with dram := d } := by
  unfold State.freeSectors State.freeT2Frame
  split
  · exact ⟨_, rfl⟩
  · exact ⟨_, rfl⟩
theorem freePlace_eq (s : State) (p : Place) : ∃ d, s.freePlace p = { s with dram := d } := by
  cases p <;> first | exact freeFrame_eq s _ | exact freeSectors_eq s _ | exact ⟨_, rfl⟩
theorem releasePage_eq (s : State) (pn : Nat) : ∃ d, s.releasePage pn = { s with dram := d, map := { s.map with pages := s.map.pages.set {} pn {} } } := by
  unfold State.releasePage
  dsimp only
  obtain ⟨d, h⟩ := freePlace_eq s (s.page pn).place
  rw [h]
  obtain ⟨d2, h2⟩ := freeTwins2 ((s.page pn).twin.toList ++ (s.page pn).twin2.toList) { s with dram := d }
  rw [h2]
  split
  · split
    · exact ⟨_, rfl⟩
    · exact ⟨_, rfl⟩
  · exact ⟨_, rfl⟩
theorem wfp {i : Nat} {t : Tbl PageEntry} (v : PageEntry) (h : t.wf {} = true) : (t.set {} i v).wf {} = true := Tbl.wf_set _ _ _ h
theorem wfu {t : Tbl UnitDir} (i : Nat) (v : UnitDir) (h : t.wf {} = true) : (t.set {} i v).wf {} = true := Tbl.wf_set _ _ _ h
theorem release_fold (l : List Nat) : ∀ s : State, ∃ d, ∃ p : Tbl PageEntry, l.foldl (fun (s : State) pn => s.releasePage pn) s = { s with dram := d, map := { s.map with pages := p } }
    ∧ (s.map.pages.wf {} = true → p.wf {} = true ∧ ∀ k, p.get {} k = if k ∈ l then {} else s.map.pages.get {} k) := by
  induction l with
  | nil => exact fun s => ⟨s.dram, s.map.pages, rfl, fun h => ⟨h, fun k => by simp⟩⟩
  | cons i l ih =>
    intro s
    obtain ⟨d, h⟩ := releasePage_eq s i
    obtain ⟨d2, p, h2, h3⟩ := ih (s.releasePage i)
    refine ⟨d2, p, ?_, fun hw => ?_⟩
    · rw [List.foldl_cons, h2, h]
    · rw [h] at h3
      obtain ⟨h4, h5⟩ := h3 (wfp _ hw)
      refine ⟨h4, fun k => ?_⟩
      rw [h5]
      by_cases e : k = i
      · subst e
        rw [show (({ s with dram := d, map := { s.map with pages := s.map.pages.set {} k {} } } : State).map.pages.get {} k) = ({} : PageEntry) from Tbl.get_set_eq _ _ k hw]
        simp
      · rw [show (({ s with dram := d, map := { s.map with pages := s.map.pages.set {} i {} } } : State).map.pages.get {} k) = s.map.pages.get {} k from Tbl.get_set_ne _ _ e hw]
        simp [e]
theorem units_fold (l : List (Nat × UnitDir)) : ∀ s : State, ∃ d, ∃ p : Tbl UnitDir, l.foldl (fun (s : State) e => (s.freeFrame e.2.frame).modUnit e.1 fun u => { u with dstate := .zero, frame := 0 }) s = { s with dram := d, map := { s.map with units := p } }
    ∧ (s.map.units.wf {} = true → p.wf {} = true) := by
  induction l with
  | nil => exact fun s => ⟨s.dram, s.map.units, rfl, id⟩
  | cons i l ih =>
    intro s
    obtain ⟨d2, p, h2, h3⟩ := ih ((s.freeFrame i.2.frame).modUnit i.1 fun u => { u with dstate := .zero, frame := 0 })
    refine ⟨d2, p, ?_, fun hw => h3 (wfu _ _ hw)⟩
    rw [List.foldl_cons, h2]
    rfl
theorem unbind_fold (l : List Nat) : ∀ s : State, ∃ b, ∃ p : Tbl UnitDir, l.foldl (fun (s : State) u => (s.modUnit u fun _ => {}).delta (.unit u false {})) s = { s with beam := b, map := { s.map with units := p } }
    ∧ (s.map.units.wf {} = true → p.wf {} = true ∧ ∀ k, p.get {} k = if k ∈ l then {} else s.map.units.get {} k) := by
  induction l with
  | nil => exact fun s => ⟨s.beam, s.map.units, rfl, fun h => ⟨h, fun k => by simp⟩⟩
  | cons i l ih =>
    intro s
    obtain ⟨d2, p, h2, h3⟩ := ih ((s.modUnit i fun _ => {}).delta (.unit i false {}))
    refine ⟨d2, p, ?_, fun hw => ?_⟩
    · rw [List.foldl_cons, h2]
      rfl
    · obtain ⟨h4, h5⟩ := h3 (wfu _ _ hw)
      refine ⟨h4, fun k => ?_⟩
      rw [h5]
      by_cases e : k = i
      · subst e
        rw [show (((s.modUnit k fun _ => {}).delta (.unit k false {})).map.units.get {} k) = ({} : UnitDir) from Tbl.get_set_eq _ _ k hw]
        simp
      · rw [show (((s.modUnit i fun _ => {}).delta (.unit i false {})).map.units.get {} k) = s.map.units.get {} k from Tbl.get_set_ne _ _ e hw]
        simp [e]
theorem zeroUnits_eq (s : State) (p : Nat → Bool) (h1 : s.rng.seals = []) (h2 : s.near.wb = []) :
    ∃ n c d b m, s.zeroUnits p = { s with near := n, coh := { s.coh with lent := c }, dram := d, beam := b, map := m } ∧ m.swatches = s.map.swatches
      ∧ (s.map.units.wf {} = true → m.units.wf {} = true)
      ∧ (s.map.pages.wf {} = true → ∀ k, p (k / 512) = true → m.pages.get {} k = {}) := by
  unfold State.zeroUnits
  dsimp only
  rw [h2]
  simp only [List.filter_nil, List.foldl_nil]
  obtain ⟨s1, hs1⟩ : ∃ s1 : State, s1 = { s with
    near := { s.near with
      nc := s.near.nc.restrict fun k w => ! (w.v && p (ncLine (k / 16 % 32768) w.tag / 32768))
      wb := []
      poisonIdx := s.near.poisonIdx.filter fun e => ! p (e.1 / 32768) }
    coh := { s.coh with lent := s.coh.lent.restrict fun l _ => ! p (l / 32768) }
    dram := { s.dram with ch := s.dram.ch.mapVals {} fun _ c => { c with
      writeQ := c.writeQ.filter fun w => ! (([] : List WbEntry).any fun e => w.entry = some e.id) } }
    beam := { s.beam with
      cold := { s.beam.cold with pages := s.beam.cold.pages.restrict fun pn _ => ! p (pn / 512) }
      coldUnits := s.beam.coldUnits.filter fun u => ! p u
      recs := s.beam.recs.mapVals none fun _ r => r.map fun r =>
        if p (r.page / 512) then { r with purpose := .none } else r } } := ⟨_, rfl⟩
  rw [← hs1]
  obtain ⟨d1, p1, e1, w1⟩ := release_fold (s.map.pages.keysWhere fun pn _ => p (pn / 512)) s1
  rw [e1]
  obtain ⟨d2, p2, e2, w2⟩ := units_fold (s.map.units.filter fun e => p e.1 && decide (e.2.dstate = .loaded)) { s1 with dram := d1, map := { s1.map with pages := p1 } }
  rw [e2]
  rw [show ∀ t : State, t.rng.seals = [] → t.sealPages = [] from fun t h => by unfold State.sealPages; rw [h]; rfl]
  swap
  · rw [hs1]; exact h1
  subst hs1
  refine ⟨_, _, _, _, _, rfl, rfl, fun hw => ?_, fun hw k hk => ?_⟩
  · exact wf_mapVals ({} : UnitDir) _ _ 0 (w2 hw)
  · obtain ⟨_, w⟩ := w1 hw
    show p1.get {} k = {}
    rw [w]
    by_cases e : k ∈ s.map.pages.keysWhere fun pn _ => p (pn / 512)
    · rw [if_pos e]
    · rw [if_neg e]
      by_contra hc
      apply e
      have := Tbl.get_mem ({} : PageEntry) k s.map.pages hc
      unfold Tbl.keysWhere
      rw [List.mem_map]
      exact ⟨_, List.mem_filter.mpr ⟨this, hk⟩, rfl⟩

end Sys2Proof.Laws.Units
end

