-- ==== Sys2Proof/Laws/Content.lean ====
section
/-! SUPPORT. Laws of region entries and of the cold restore. -/
namespace Sys2Proof.Laws.Content
open Sys2Proof.Machine Sys2Proof.Laws Sys2Proof.Laws.Units Sys2Proof.Laws.Appends Sys2Proof.Laws.Partner

theorem mirror_off {s : State} {n : Nat} (old : Region) (h : s.rng.seals = []) (hp : s.slv.pair = .off) :
    ∃ R, s.mirrorChanged n old = { s with slv := { s.slv with rgns := R } } := by
  unfold State.mirrorChanged
  dsimp only
  rw [lose_nil h, if_neg (by rw [hp]; simp)]
  split
  · exact ⟨_, rfl⟩
  · split
    · exact ⟨_, rfl⟩
    · split
      · exact ⟨_, rfl⟩
      · exact ⟨_, rfl⟩
theorem region_set {s : State} (x : Region) (n : Nat) (h : s.regions.wf {} = true) : (s.modRegion n fun _ => x).region n = x := Tbl.get_set_eq _ _ n h
theorem region_ne {s : State} (x : Region) {n k : Nat} (e : k ≠ n) (h : s.regions.wf {} = true) : (s.modRegion n fun _ => x).region k = s.region k := Tbl.get_set_ne _ _ e h
/-- A software write to a region word: that of RGN_ATTR notes its cycle (R8, R44). -/
theorem soft_eq {s t : State} {n w : Nat} {v : Word} (h : s.regionWrite n w v = t) (hw : t.regions.wf {} = true) (ht : w = 1 → (s.region n).took ≠ some s.clock) :
    ∃ R, s.softRegionWrite n w v = { t with regions := R } ∧ Tbl.get {} R n = (if w = 1 then { t.region n with wrote := some s.clock } else t.region n)
      ∧ ∀ k, k ≠ n → Tbl.get {} R k = t.region k := by
  unfold State.softRegionWrite
  by_cases e : w = 1
  · rw [if_neg (by simp [e]), if_neg (ht e), if_pos e, h]
    exact ⟨_, rfl, Tbl.get_set_eq _ _ n hw, fun k hk => Tbl.get_set_ne _ _ hk hw⟩
  · rw [if_pos e, if_neg e, h]
    exact ⟨t.regions, rfl, rfl, fun _ _ => rfl⟩
/-- The lines of an alias window that a change drops (R41, R42): the clean ones of its range, and no others. -/
theorem alias_eq (s : State) (r : Region) : ∃ nc l, s.dropAliasLines r = { s with near := { s.near with nc := nc }, coh := { s.coh with lent := l } }
    ∧ (r.window ≠ 3 → nc = s.near.nc ∧ l = s.coh.lent)
    ∧ (r.window = 3 → ∀ k w, Tbl.get {} nc k = w → w.v = true → w.d = false →
        ncLine (k / 16 % 32768) w.tag < r.base * 32768 ∨ (r.base + r.size) * 32768 ≤ ncLine (k / 16 % 32768) w.tag) := by
  unfold State.dropAliasLines
  by_cases h : r.window = 3
  · rw [if_neg (by simp [h])]
    refine ⟨_, _, rfl, fun q => absurd h q, fun _ k w hw hv hd => ?_⟩
    have hm := Tbl.get_mem ({} : NcWay) k _ (by rw [hw]; intro e; rw [e] at hv; exact absurd hv (by decide))
    rw [hw] at hm
    unfold Tbl.restrict at hm
    have hp := (List.mem_filter.mp hm).2
    simp only [hv, hd, Bool.not_false, Bool.and_true, Bool.true_and, Bool.not_eq_true', Bool.and_eq_false_iff, decide_eq_false_iff_not] at hp
    omega
  · rw [if_pos h]
    exact ⟨s.near.nc, s.coh.lent, rfl, fun _ => ⟨rfl, rfl⟩, fun q => absurd q h⟩
/-- A write of RGN_ATTR with the WINDOW that the region has keeps it. -/
theorem kept_window (r : Region) (v : Word) : (r.putWord 1 (putFld v 12 3 r.window)).window = r.window := by
  have m : ∀ x : Word, fld (x &&& 0xFF01FFFF) 12 3 = fld x 12 3 := by
    intro x
    unfold fld
    rw [BitVec.toNat_and]
    show (x.toNat &&& 0xFF01FFFF) >>> 12 % 2 ^ 3 = _
    apply Nat.eq_of_testBit_eq
    intro i
    rw [Nat.testBit_mod_two_pow, Nat.testBit_mod_two_pow, Nat.testBit_shiftRight, Nat.testBit_shiftRight, Nat.testBit_and]
    by_cases h : i < 3
    · have : i = 0 ∨ i = 1 ∨ i = 2 := by omega
      rcases this with rfl | rfl | rfl <;> simp <;> exact fun _ => by decide
    · simp [h]
  show fld (putFld v 12 3 r.window &&& 0xFF01FFFF) 12 3 = r.window
  rw [m, Errors.fld_put _ _ _ _ (by decide)]
  exact Nat.mod_mod _ _
/-- The beam with other deltas waiting and fewer cold units. -/
def Colder (a b : Beam) : Prop := b = { a with deltas := b.deltas, deltaAt := b.deltaAt, coldUnits := b.coldUnits, cold := { a.cold with pages := b.cold.pages } }
theorem Colder.trans {a b c : Beam} (h1 : Colder a b) (h2 : Colder b c) : Colder a c := by
  unfold Colder at *
  rw [h1] at h2
  rw [h2]
theorem cold_eq (s : State) (u : Nat) : ∃ b, ∃ p : Tbl UnitDir, s.dropCold u = { s with map := { s.map with units := p }, beam := b } ∧ Colder s.beam b
    ∧ (s.map.units.wf {} = true → p.wf {} = true ∧ ∀ k, k ≠ u → p.get {} k = s.map.units.get {} k) := by
  unfold State.dropCold
  split
  · exact ⟨_, _, rfl, rfl, fun hw => ⟨wfu _ _ hw, fun k hk => Tbl.get_set_ne _ _ hk hw⟩⟩
  · exact ⟨s.beam, s.map.units, rfl, rfl, fun hw => ⟨hw, fun _ _ => rfl⟩⟩
/-- Binding the units of a range (R53): they take the region's DURABLE and KEY, and every other unit stays. -/
theorem bind_fold (r : Region) (l : List Nat) : ∀ s : State, ∃ b, ∃ p : Tbl UnitDir, l.foldl (fun (s0 : State) u =>
    let s := s0.dropCold u
    let b : Binding := ⟨true, r.durable, r.key⟩
    if (s.unit u).binding = b && ! r.initZero then s
    else (s.modUnit u fun d => { d with bound := true, bdur := r.durable, bkey := r.key }).delta
      (.unit u (! r.initZero) b)) s = { s with map := { s.map with units := p }, beam := b } ∧ Colder s.beam b
    ∧ (s.map.units.wf {} = true → p.wf {} = true ∧ ∀ k, (p.get {} k).binding = if k ∈ l then ⟨true, r.durable, r.key⟩ else (s.map.units.get {} k).binding) := by
  induction l with
  | nil => exact fun s => ⟨s.beam, s.map.units, rfl, rfl, fun h => ⟨h, fun k => by simp⟩⟩
  | cons i l ih =>
    intro s
    rw [List.foldl_cons]
    obtain ⟨b0, p0, e0, c0, w0⟩ := cold_eq s i
    rw [e0]
    dsimp only
    obtain ⟨t, ht⟩ : ∃ t : State, t = { s with map := { s.map with units := p0 }, beam := b0 } := ⟨_, rfl⟩
    rw [← ht]
    have tu : t.map.units = p0 := by rw [ht]
    by_cases hc : ((t.unit i).binding = ⟨true, r.durable, r.key⟩ && ! r.initZero) = true
    · rw [if_pos hc]
      obtain ⟨b, p, h1, hb, h2⟩ := ih t
      refine ⟨b, p, ?_, c0.trans (by rw [ht] at hb; exact hb), fun hw => ?_⟩
      · rw [h1, ht]
      · obtain ⟨h3, h4⟩ := h2 (by rw [tu]; exact (w0 hw).1)
        refine ⟨h3, fun k => ?_⟩
        rw [h4]
        by_cases e : k = i
        · subst e
          simp only [Bool.and_eq_true, decide_eq_true_eq] at hc
          have : (t.map.units.get {} k).binding = ⟨true, r.durable, r.key⟩ := hc.1
          rw [this]; simp
        · rw [tu, (w0 hw).2 k e]; simp [e]
    · rw [if_neg hc]
      obtain ⟨b, p, h1, hb, h2⟩ := ih ((t.modUnit i fun d => { d with bound := true, bdur := r.durable, bkey := r.key }).delta (.unit i (! r.initZero) ⟨true, r.durable, r.key⟩))
      refine ⟨b, p, ?_, c0.trans ?_, fun hw => ?_⟩
      · refine h1.trans ?_
        rw [ht]
        rfl
      · rw [ht] at hb
        have c1 : Colder b0 (State.delta (State.modUnit { s with map := { s.map with units := p0 }, beam := b0 } i fun d => { d with bound := true, bdur := r.durable, bkey := r.key }) (.unit i (! r.initZero) ⟨true, r.durable, r.key⟩)).beam := rfl
        exact c1.trans hb
      · have hp : t.map.units.wf {} = true := by rw [tu]; exact (w0 hw).1
        obtain ⟨h3, h4⟩ := h2 (wfu _ _ hp)
        refine ⟨h3, fun k => ?_⟩
        rw [h4]
        by_cases e : k = i
        · subst e
          rw [show (((t.modUnit k fun d => { d with bound := true, bdur := r.durable, bkey := r.key }).delta (.unit k (! r.initZero) ⟨true, r.durable, r.key⟩)).map.units.get {} k) = { t.unit k with bound := true, bdur := r.durable, bkey := r.key } from Tbl.get_set_eq _ _ k hp]
          simp [UnitDir.binding]
        · rw [show (((t.modUnit i fun d => { d with bound := true, bdur := r.durable, bkey := r.key }).delta (.unit i (! r.initZero) ⟨true, r.durable, r.key⟩)).map.units.get {} k) = t.map.units.get {} k from Tbl.get_set_ne _ _ e hp]
          rw [tu, (w0 hw).2 k e]; simp [e]
theorem bind_eq (s : State) (r : Region) : ∃ b, ∃ p : Tbl UnitDir, s.bindUnits r = { s with map := { s.map with units := p }, beam := b } ∧ Colder s.beam b
    ∧ (s.map.units.wf {} = true → ∀ k, (p.get {} k).binding = if r.base ≤ k ∧ k < r.base + r.size then ⟨true, r.durable, r.key⟩ else (s.map.units.get {} k).binding) := by
  obtain ⟨b, p, h1, hb, h2⟩ := bind_fold r ((List.range r.size).map fun i => r.base + i) s
  refine ⟨b, p, h1, hb, fun hw k => ?_⟩
  rw [(h2 hw).2]
  have : (k ∈ (List.range r.size).map fun i => r.base + i) ↔ (r.base ≤ k ∧ k < r.base + r.size) := by
    rw [List.mem_map]
    constructor
    · rintro ⟨i, h, rfl⟩
      rw [List.mem_range] at h
      omega
    · rintro ⟨h, h'⟩
      exact ⟨k - r.base, List.mem_range.mpr (by omega), by omega⟩
  by_cases hm : r.base ≤ k ∧ k < r.base + r.size
  · rw [if_pos (this.mpr hm), if_pos hm]
  · rw [if_neg (fun h => hm (this.mp h)), if_neg hm]
/-- Bringing drives up sends them commands. -/
theorem ups (f : State → Nat → State) (hf : ∀ s i, ∃ o, f s i = { s with out := o }) : ∀ (l : List Nat) (s : State), ∃ o, l.foldl f s = { s with out := o }
  | [], s => ⟨s.out, rfl⟩
  | i :: l, s => by
    obtain ⟨o, h⟩ := hf s i
    obtain ⟨o2, h2⟩ := ups f hf l (f s i)
    exact ⟨o2, by rw [List.foldl_cons, h2, h]⟩
theorem up_eq (s : State) (i : Nat) : ∃ o, s.driveUp i = { s with out := o } := by
  unfold State.driveUp
  exact ups (fun (s : State) o => s.emit (.nvmeAdmin i o)) (fun s o => ⟨s.out ++ [.nvmeAdmin i o], rfl⟩) _ _
theorem fmt (s : State) (ds : List DriveReport) (id : Word) : ∃ b o, s.formatted ds id = { s with beam := b, out := o } ∧ b.setId = id ∧ b.sbgen = 2 := by
  have u := ups (fun (s : State) i => (s.emit (.nvmeAdmin i 0x80)).driveUp i) (fun s i => by
    obtain ⟨o, h⟩ := up_eq (s.emit (.nvmeAdmin i 0x80)) i
    exact ⟨o, h⟩) (List.range ((byPort ds).take 8).length)
  unfold State.formatted
  dsimp only
  generalize pageCapOf _ _ = cap
  generalize segmentsOf _ = sg
  generalize List.foldl _ [] _ = sl
  generalize BitVec.ofNat 8 _ = fm
  obtain ⟨b, hb⟩ : ∃ b : Beam, b = { setId := id, sbgen := 2, formed := fm, retired := ~~~ fm, segments := sg, pageCap := cap, fmtRev := 0x01004101, slots := sl
                                     seqNext := 1, found := ds, ctl := s.beam.ctl } := ⟨_, rfl⟩
  obtain ⟨o, h⟩ := u { s with beam := b }
  refine ⟨b, o, ?_, by rw [hb], by rw [hb]⟩
  rw [← h, hb]
theorem drawn (d : BitVec 256) : drawnSet d ≠ 0 := by
  unfold drawnSet
  split
  · decide
  · assumption
theorem active_eq {t : State} (h1 : t.vlt.outcome ≠ 2) (h2 : t.vlt.held = []) : t.goActive = { t with
    heads := t.heads.mapVals {} fun _ x => if x.link.up then { x with link := { x.link with memOff := x.link.dropped || ! x.link.cxl } } else x
    map := { t.map with mapLoad := ! t.beam.coldUnits.isEmpty, warm := t.warmPages, warming := true, warmDone := false }
    vlt := { t.vlt with
      active := true, activeMs := min 65535 (t.clock / 2000000), st := if t.vlt.braceOn then .brace else .run, resumeKind := 2, held := [] } } := by
  unfold State.goActive
  have : t.shortNotices = t := by
    unfold State.shortNotices
    rw [if_neg h1]
  rw [this, h2]
  rfl
theorem six_eq {s : State} (h1 : s.loggedDeltas s.beam.deltaSegs s.beam.seqNext = []) (h2 : s.beam.commit = some c) :
    s.stepSix = (let s1 := (c.spills.foldl (fun (s : State) r => s.applySpill r) s).poisonKeeps
      let s2 := (restoreOrder s1.regions).foldl (fun (s : State) n => s.checkNew n (s.region n)) s1
      { s2.dropVolatile with vlt := { s2.dropVolatile.vlt with step6 := true } }) := by
  unfold State.stepSix
  have : s.indexDeltas = s := by
    unfold State.indexDeltas
    rw [h1]
    rfl
  rw [this]
  dsimp only
  rw [show (Option.map (fun (c : Commit) => c.spills) s.beam.commit).getD [] = c.spills by rw [h2]; rfl]
theorem volatile_nil {t : State} (h : t.map.swatches = []) : t.dropVolatile = t := by
  unfold State.dropVolatile
  rw [h]
  rfl
theorem keeps_nil {t : State} (h : ∀ e ∈ t.regions, e.2.window ≠ 2) : t.poisonKeeps = t := by
  unfold State.poisonKeeps
  rw [show (t.regions.filter fun e => e.2.valid && e.2.wasInForce && e.2.window = 2 && e.2.keep) = [] from List.filter_eq_nil_iff.mpr fun e he => by simp [h e he]]
  rfl

end Sys2Proof.Laws.Content
end

