-- ==== Sys2Proof/Laws/Drives.lean ====
section
/-! SUPPORT. Laws of beam reads, slots and drives. -/
namespace Sys2Proof.Laws.Drives
open Sys2Proof.Machine Sys2Proof.Laws

theorem bump_eq (s : State) (k u w : Nat) (hw : 0 < w) : ∃ b d t, s.bump k u w = { s with flt := { s.flt with buckets := b, deferred := d }, tap := t } ∧ (Tbl.get {} b (256 * k + u)).count = min ((s.bucket k u).count + w) 0xFFFF := by
  have hb : (Tbl.get {} (s.flt.buckets.set {} (256 * k + u) ((s.bucket k u).add w)) (256 * k + u)).count = min ((s.bucket k u).count + w) 0xFFFF := by
    rw [Tbl.get_set_self]
    · rfl
    · intro hh
      have := congrArg Bucket.count hh
      simp [Bucket.add] at this
      omega
  unfold State.bump
  dsimp only
  split
  · exact ⟨_, _, _, rfl, hb⟩
  · exact ⟨_, _, _, rfl, hb⟩
theorem hedges : ∀ (l : List Nat) (s : State), ∃ pm, l.foldl (fun (s : State) i => (s.count (evSlot i 1) 1).emit (.nvme i 0x02)) s = { s with pmc := pm, out := s.out ++ l.map fun i => .nvme i 0x02 } := by
  intro l
  induction l with
  | nil => intro s; exact ⟨s.pmc, by simp⟩
  | cons i l ih =>
    intro s
    rw [List.foldl_cons]
    obtain ⟨pm, h2⟩ := ih ((s.count (evSlot i 1) 1).emit (.nvme i 0x02))
    rw [h2]
    refine ⟨pm, ?_⟩
    have : s.out ++ [Output.nvme i 2] ++ l.map (fun i => .nvme i 2) = s.out ++ (i :: l).map fun i => Output.nvme i 2 := by simp
    rw [← this]; rfl
theorem minute_eq (s : State) (k v : Nat) : ∃ t, s.minuteMax k v = { s with tap := t } := ⟨_, rfl⟩
theorem others_eq (s : State) (r : BeamRead) : ∃ pm, (if r.hedged = true then s else s.readOthers r.slot) = { s with pmc := pm, out := s.out ++
    (if r.hedged = true then [] else ((List.range 8).filter fun i => i ≠ r.slot && ! s.beam.retired.getLsbD i).map (fun i => Output.nvme i 0x02)) } := by
  split
  · exact ⟨s.pmc, by simp⟩
  · exact hedges _ s
theorem failed_eq (s : State) (r : BeamRead) (w : Nat) (hw : 0 < w) (h1 : s.beam.reads = [r]) : ∃ v : State, s.readFailed r w = v.submit r.slot
    ∧ v.out = s.out ++ (if r.hedged = true then [] else ((List.range 8).filter fun i => i ≠ r.slot && ! s.beam.retired.getLsbD i).map (fun i => Output.nvme i 0x02))
    ∧ v.beam = { s.beam with reads := [{ r with rebuilt := true, bad := true }] }
    ∧ (v.bucket 5 r.slot).count = min ((s.bucket 5 r.slot).count + w) 0xFFFF
    ∧ v = { s with out := v.out, beam := v.beam, flt := { s.flt with buckets := v.flt.buckets, deferred := v.flt.deferred }, tap := v.tap, pmc := v.pmc } := by
  obtain ⟨b, d, t, e1, e2⟩ := bump_eq (s.count (evSlot r.slot 5) 1) 5 r.slot w hw
  unfold State.readFailed
  dsimp only
  rw [e1]
  obtain ⟨s2, hs2⟩ : ∃ s2 : State, s2 = { (s.count (evSlot r.slot 5) 1) with
    flt := { (s.count (evSlot r.slot 5) 1).flt with buckets := b, deferred := d }, tap := t
    beam := { s.beam with reads := [{ r with rebuilt := true, bad := true }] } } := ⟨_, rfl⟩
  obtain ⟨pm, e3⟩ := others_eq s2 r
  refine ⟨if r.hedged = true then s2 else s2.readOthers r.slot, ?_, ?_, ?_, ?_, ?_⟩
  · rw [hs2]
    have : (s.count (evSlot r.slot 5) 1).beam.reads = [r] := h1
    rw [this]
    simp only [List.map_cons, List.map_nil, if_true]
    rfl
  · rw [e3, hs2]; rfl
  · rw [e3, hs2]
  · rw [e3, hs2]; exact e2
  · rw [e3, hs2]; rfl
theorem slow_eq (s : State) (i : Nat) (tm : List Nat) (av : Bool) (h1 : tm = ((s.slot i).slowAt.filter fun t => decide (s.clock < t + 200000000)) ++ [s.clock])
    (h2 : av = (flag s.beam.ctl 10 && decide (16 ≤ tm.length) && s.beam.avoided.isNone)) :
    s.slowRead i = { s with beam := { s.beam with
      slots := (s.modSlot i fun x => { x with slowAt := if av = true then [] else tm }).beam.slots
      avoided := if av = true then some i else s.beam.avoided, avoidAt := if av = true then s.clock else s.beam.avoidAt } } := by
  unfold State.slowRead
  dsimp only
  rw [← h1, ← h2]
  cases av <;> rfl
theorem serve_idle {s : State} {r : BeamRead} (h1 : s.coh.txns = []) (h2 : s.beam.reads = [r]) (h3 : 2 ≤ r.prio) :
    s.serveRecord r = (if (r.gc || r.bad) && ! s.vlt.stopped then State.relocate { s with beam := { s.beam with reads := [] } } r.addr
      else { s with beam := { s.beam with reads := [] } }).submit r.slot := by
  have e : (List.filter (fun x : BeamRead => decide (x.addr ≠ r.addr)) [r]) = [] := by simp
  have w : s.waitingBeam r.addr = [] := by unfold State.waitingBeam; rw [h1]; rfl
  have np : ¬ r.prio ≤ 1 := by omega
  unfold State.serveRecord
  rw [w, h2, e]
  dsimp only
  rw [List.foldl_nil, if_neg np]
theorem relocate_eq {s t : State} {a b : Nat} {q : BeamRec} (hr : s.beam.recs.get none a = some q) (hc : q.confirmed = true)
    (ha : s.append 1 { q with purpose := .move a } = some (b, t)) :
    s.relocate a = (t.count (evBeam 5) 1).modSeg (segOf (beamStripe a)) fun g => { g with moved := s.beam.cseq + 1 } := by
  unfold State.relocate
  rw [hr]
  dsimp only
  rw [if_neg (by rw [hc]; simp), ha]
theorem super_fold (g : Nat) : ∀ (l : List Nat) (s : State), ∃ sl o, l.foldl (fun (s : State) i =>
    (s.modSlot i fun x => if g % 2 = 0 then { x with sb0 := g } else { x with sb1 := g }).emit (.nvme i 0x01)) s = { s with out := o, beam := { s.beam with slots := sl } }
    ∧ (s.beam.slots.wf {} = true → sl.wf {} = true ∧ ∀ i, ∃ a b, sl.get {} i = { s.beam.slots.get {} i with sb0 := a, sb1 := b }
        ∧ (i ∈ l ∨ (if g % 2 = 0 then (s.beam.slots.get {} i).sb0 else (s.beam.slots.get {} i).sb1) = g → (if g % 2 = 0 then a else b) = g)) := by
  intro l
  induction l with
  | nil =>
    intro s
    refine ⟨s.beam.slots, s.out, rfl, fun hw => ⟨hw, fun i => ⟨(s.beam.slots.get {} i).sb0, (s.beam.slots.get {} i).sb1, rfl, fun h => ?_⟩⟩⟩
    rcases h with h | h
    · simp at h
    · exact h
  | cons j l ih =>
    intro s
    obtain ⟨s1, hs1⟩ : ∃ s1 : State, s1 = (s.modSlot j fun x => if g % 2 = 0 then { x with sb0 := g } else { x with sb1 := g }).emit (.nvme j 0x01) := ⟨_, rfl⟩
    obtain ⟨sl, o, e, h⟩ := ih s1
    rw [List.foldl_cons, ← hs1]
    refine ⟨sl, o, by rw [e, hs1]; rfl, fun hw => ?_⟩
    have b1 : s1.beam.slots = s.beam.slots.set {} j (if g % 2 = 0 then { s.slot j with sb0 := g } else { s.slot j with sb1 := g }) := by rw [hs1]; rfl
    obtain ⟨h1, h2⟩ := h (by rw [b1]; exact Tbl.wf_set _ _ _ hw)
    refine ⟨h1, fun i => ?_⟩
    obtain ⟨a, b, c1, c2⟩ := h2 i
    refine ⟨a, b, ?_, fun hi => ?_⟩
    · rw [c1, b1]
      by_cases hij : i = j
      · subst hij
        rw [Tbl.get_set_eq _ _ _ hw]
        split <;> rfl
      · rw [Tbl.get_set_ne _ _ hij hw]
    · apply c2
      rcases hi with hi | hi
      · rcases List.mem_cons.mp hi with rfl | hi
        · right
          rw [b1, Tbl.get_set_eq _ _ _ hw]
          split <;> rfl
        · left; exact hi
      · right
        rw [b1]
        by_cases hij : i = j
        · subst hij
          rw [Tbl.get_set_eq _ _ _ hw]
          split <;> rfl
        · rw [Tbl.get_set_ne _ _ hij hw]; exact hi
theorem super_eq (s : State) (l : List Nat) : ∃ sl o, s.writeSuper l = { s with out := o, beam := { s.beam with sbgen := s.beam.sbgen + 1, slots := sl } }
    ∧ (s.beam.slots.wf {} = true → ∀ i ∈ l, ∃ a b, sl.get {} i = { s.beam.slots.get {} i with sb0 := a, sb1 := b }
        ∧ (if (s.beam.sbgen + 1) % 2 = 0 then a else b) = s.beam.sbgen + 1) := by
  obtain ⟨sl, o, e, h⟩ := super_fold (s.beam.sbgen + 1) (bitsOf s.slotsUp ++ l) { s with beam := { s.beam with sbgen := s.beam.sbgen + 1 } }
  refine ⟨sl, o, ?_, fun hw i hi => ?_⟩
  · unfold State.writeSuper
    dsimp only
    rw [e]
  · obtain ⟨a, b, c1, c2⟩ := (h hw).2 i
    exact ⟨a, b, c1, c2 (Or.inl (List.mem_append_right _ hi))⟩
theorem admin_fold (i : Nat) : ∀ (l : List Nat) (s : State), ∃ o, l.foldl (fun (s : State) c => s.emit (.nvmeAdmin i c)) s = { s with out := o } := by
  intro l
  induction l with
  | nil => exact fun s => ⟨s.out, rfl⟩
  | cons c l ih =>
    intro s
    obtain ⟨o, e⟩ := ih (s.emit (.nvmeAdmin i c))
    rw [List.foldl_cons, e]
    exact ⟨o, rfl⟩
theorem enter_fifo {f g : Flt} (h1 : f.fifo = g.fifo) (h2 : f.dropped = g.dropped) (w : List Word) : (f.enter w).fifo = (g.enter w).fifo := by
  unfold Flt.enter
  rw [h1, h2]
  repeat' split
  all_goals rfl
set_option maxHeartbeats 2000000 in
theorem retire_slot {s : State} {i cause : Nat} (hc : cause < 16) (h1 : s.beam.retired.getLsbD i = false) (h2 : s.beam.bufs = []) (h3 : s.beam.outs = []) (h4 : s.rng.seals = []) :
   ∃ o f t p hd sg av sl, s.retireSlot i cause = { s with
          out := o, flt := f, tap := t, pmc := p, heads := hd
          beam := { s.beam with retired := putBit s.beam.retired i true, sbgen := s.beam.sbgen + 1, degSeq := s.beam.seqNext, segs := sg, reads := s.beam.reads.map (fun r => if r.slot = i then { r with rebuilt := true, queued := false } else r)
                                avoided := av, slots := sl } }
      ∧ f.fifo = (({ s.flt with deferred := [] } : Flt).enter (Note.words ⟨2, 0x16, 5 * 256 + i + cause * 4096, none⟩)).fifo
      ∧ (Tbl.get {} f.buckets (256 * 5 + i)).retired = true := by
  unfold State.retireSlot
  rw [h1]
  simp only [Bool.false_eq_true, if_false, h2, h3, List.map_nil, List.filter_nil, List.filterMap_nil, List.foldl_nil, Nat.mod_eq_of_lt hc]
  obtain ⟨s0, hs0⟩ : ∃ s0 : State, s0 = { (s.retireTaken 5 i) with beam := { s.beam with
      retired := putBit s.beam.retired i true, degSeq := s.beam.seqNext, bufs := []
      segs := s.beam.segs.mapVals {} fun _ g => if g.st = .opened then { g with st := .full } else g
      outs := []
      reads := s.beam.reads.map fun r => if r.slot = i then { r with rebuilt := true, queued := false } else r
      avoided := if s.beam.avoided = some i then none else s.beam.avoided } } := ⟨_, rfl⟩
  rw [← hs0]
  obtain ⟨sl, o1, e3, -⟩ := super_eq s0 []
  obtain ⟨o2, e4⟩ := admin_fold i [0x00, 0x00, 0x00, 0x00, 0x04, 0x04, 0x04, 0x04] (s0.writeSuper [])
  have e5 : (s0.writeSuper []).driveDown i = { s0 with out := o2, beam := { s0.beam with sbgen := s0.beam.sbgen + 1, slots := sl } } := by
    unfold State.driveDown
    rw [e4, e3]
  rw [e5]
  generalize hs1 : (State.modSlot _ i fun x => { x with fail := 0 }) = s1
  obtain ⟨t, p, hd, o, e⟩ := note_cases s1 ⟨2, 0x16, 5 * 256 + i + cause * 4096, none⟩
  rw [e]
  obtain ⟨hd2, o2, e2⟩ := eventAll_cases ({ s1 with flt := s1.flt.enter (Note.words ⟨2, 0x16, 5 * 256 + i + cause * 4096, none⟩), tap := t, pmc := p, heads := hd, out := o } : State) ⟨.memoryModule, 0x16, i⟩
  rw [e2]
  have hd : ∀ u : State, u.rng.seals = [] → u.beamDownSeals = u := by
    intro u hu
    unfold State.beamDownSeals
    split
    · rfl
    · rw [seals_same hu, checkSeals_nil hu]
  rw [hd _ (by subst hs1; rw [hs0]; exact h4)]
  subst hs1
  subst hs0
  refine ⟨_, _, _, _, _, _, _, _, rfl, ?_, ?_⟩
  · show (Flt.enter (s.retireTaken 5 i).flt _).fifo = _
    refine enter_fifo ?_ ?_ _ <;> rfl
  · have e5 : ∀ (f : Flt) w, (f.enter w).buckets = f.buckets := by
      intro f w; unfold Flt.enter; repeat' split
      all_goals rfl
    show (Tbl.get {} (Flt.enter _ _).buckets _).retired = true
    rw [e5]
    show (Tbl.get {} (Tbl.set {} s.flt.buckets (256 * 5 + i) { s.bucket 5 i with retired := true }) _).retired = true
    rw [Tbl.get_set_self]
    intro hh; have := congrArg Bucket.retired hh; cases this

end Sys2Proof.Laws.Drives
end

