-- ==== Sys2Proof/Laws/Custody.lean ====
section
/-! SUPPORT. Laws of key slots and custody. -/
namespace Sys2Proof.Laws.Custody
open Sys2Proof.Machine Sys2Proof.Laws Sys2Proof.Laws.Drives Sys2Proof.Laws.Units

/-- Both superblock copies are written: SBGEN rises by 2. -/
theorem twoSupers_eq (s : State) : ∃ sl o, s.twoSupers = { s with out := o, beam := { s.beam with sbgen := s.beam.sbgen + 2, slots := sl } } := by
  obtain ⟨sl, o, e, _⟩ := super_eq s []
  obtain ⟨sl2, o2, e2, _⟩ := super_eq (s.writeSuper []) []
  exact ⟨sl2, o2, by unfold State.twoSupers; rw [e2, e]⟩
theorem newSalt_ne (d : BitVec 256) (old : BitVec 32) : newSalt d old ≠ 0 ∧ newSalt d old ≠ old := by
  unfold newSalt
  dsimp only
  split
  · assumption
  · split
    · rename_i h; subst h; exact ⟨by decide, by decide⟩
    · rename_i h; exact ⟨by decide, fun e => h e.symm⟩
theorem salt_fold (old : Nat → BitVec 32) (l : List Nat) : ∀ s : State, ∃ c, l.foldl (fun (s : State) k =>
    let d := s.draw
    { d.2 with sec := { d.2.sec with salts := d.2.sec.salts.set 0 k (newSalt d.1 (old k)) } }) s = { s with sec := c } ∧ c.bkek = s.sec.bkek
      ∧ (s.sec.salts.wf 0 = true → c.salts.wf 0 = true ∧ ∀ j, c.salts.get 0 j ≠ 0 ↔ j ∈ l ∨ s.sec.salts.get 0 j ≠ 0) := by
  induction l with
  | nil => exact fun s => ⟨s.sec, rfl, rfl, fun h => ⟨h, fun j => by simp⟩⟩
  | cons i l ih =>
    intro s
    obtain ⟨c, h1, h2, h3⟩ := ih { s.draw.2 with sec := { s.draw.2.sec with salts := s.draw.2.sec.salts.set 0 i (newSalt s.draw.1 (old i)) } }
    refine ⟨c, ?_, h2, fun hw => ?_⟩
    · rw [List.foldl_cons]
      dsimp only at h1 ⊢
      rw [h1]
      rfl
    · obtain ⟨h4, h5⟩ := h3 (Tbl.wf_set 0 _ i hw)
      refine ⟨h4, fun j => ?_⟩
      rw [h5]
      by_cases e : j = i
      · subst e
        have : Tbl.get 0 (s.sec.salts.set 0 j (newSalt s.draw.1 (old j))) j = newSalt s.draw.1 (old j) := Tbl.get_set_eq 0 _ j hw
        constructor
        · intro _; simp
        · intro _; right; show Tbl.get 0 (s.sec.salts.set 0 j (newSalt s.draw.1 (old j))) j ≠ 0; rw [this]; exact (newSalt_ne _ _).1
      · have : Tbl.get 0 (s.sec.salts.set 0 i (newSalt s.draw.1 (old i))) j = s.sec.salts.get 0 j := Tbl.get_set_ne 0 _ e hw
        rw [show (({ s.draw.2 with sec := { s.draw.2.sec with salts := s.draw.2.sec.salts.set 0 i (newSalt s.draw.1 (old i)) } } : State).sec.salts.get 0 j) = s.sec.salts.get 0 j from this]
        simp [e]
theorem sanAll (s : State) : ∃ t : State, ∃ c, s.sanitizeAll = { t with sec := c } ∧ t.near.scr = [] ∧ t.vlt.keep = [] ∧ c.bkek.isSome = true
    ∧ ∀ j, c.salts.get 0 j ≠ 0 ↔ ∃ e ∈ s.regions, e.2.active = true ∧ (e.2.mapped = true ∨ e.2.window = 2) ∧ e.2.key = j := by
  unfold State.sanitizeAll
  dsimp only
  obtain ⟨t0, ht0⟩ : ∃ t0 : State, t0 = List.foldl (fun s u => s.delta (Delta.unit u false (s.unit u).binding)) (State.zeroUnits (List.foldl (fun s k => s.dropSwatch k) s (Tbl.keysWhere (fun _ w => decide (w.st ≠ .free)) s.map.swatches)) fun x => true) s.pmapNow.unitList := ⟨_, rfl⟩
  rw [← ht0]
  obtain ⟨d, hd⟩ := freeFrames_eq (t0.draw.2.dram.frames.keysWhere fun _ u => match u with | .keep _ => true | _ => false) t0.draw.2
  obtain ⟨s4, h4⟩ : ∃ s4 : State, s4 = { t0.draw.2 with
    dram := d
    near := { t0.draw.2.near with scr := [] }
    vlt := { t0.draw.2.vlt with keep := [], keepPoison := [] }
    sec := { t0.draw.2.sec with bkek := some t0.draw.1, salts := [] } } := ⟨_, rfl⟩
  obtain ⟨c, c1, c2, c3⟩ := salt_fold (fun k => t0.sec.salts.get 0 k) (List.map (fun e : Nat × Region => e.2.key) (List.filter (fun e : Nat × Region => e.2.active && (e.2.mapped || decide (e.2.window = 2))) s.regions)).eraseDups s4
  dsimp only at c1
  refine ⟨s4, c, ?_, by rw [h4], by rw [h4], by rw [c2, h4]; rfl, fun j => ?_⟩
  · rw [← c1]
    refine congrArg (fun x => List.foldl _ x _) ?_
    refine Eq.trans ?_ h4.symm
    exact congrArg (fun b2 : State => ({ b2 with
      near := { b2.near with scr := [] }
      vlt := { b2.vlt with keep := [], keepPoison := [] }
      sec := { b2.sec with bkek := some t0.draw.1, salts := [] } } : State)) hd
  have hz : s4.sec.salts = [] := by rw [h4]
  rw [(c3 (by rw [hz]; rfl)).2 j, hz]
  rw [List.mem_eraseDups, List.mem_map]
  constructor
  · rintro (⟨e, h1, h2⟩ | h)
    · rw [List.mem_filter] at h1
      simp at h1
      exact ⟨e, h1.1, h1.2.1, h1.2.2, h2⟩
    · exact absurd rfl h
  · rintro ⟨e, h1, h2, h3, h4⟩
    refine Or.inl ⟨e, List.mem_filter.mpr ⟨h1, ?_⟩, h4⟩
    simp [h2, h3]

end Sys2Proof.Laws.Custody
end

