-- ==== Sys2Proof/Laws/Estimates.lean ====
section
/-! SUPPORT. Laws of the reserve ledger, the tapestry and the power states. -/
namespace Sys2Proof.Laws.Estimates
open Sys2Proof.Machine Sys2Proof.Laws

theorem sample_frame (r : Rsv) (hold : Bool) (vc ic : Nat) : ∃ vo bv gv fc li bi gi qt ts ch cs cf sp,
    ((((r.takeV hold vc).takeI hold hold ic).charger hold).span).board = { r with
          volts := vo, badV := bv, goodV := gv, fcause := fc, lastI := li, badI := bi
          goodI := gi, qTest := qt, testSamples := ts, charging := ch
          chgSamples := cs, chgFrom := cf, chgSpan := sp }
    ∧ vo = (r.volt vc :: r.volts).take 8 ∧ li = r.amp ic ∧ fc.getLsbD 4 = r.boardBad
    ∧ (hold = false → r.step = .idle → ch = (if r.vChg ≤ Rsv.vNow { r with volts := (r.volt vc :: r.volts).take 8 } then false else if Rsv.vNow { r with volts := (r.volt vc :: r.volts).take 8 } + 250 < r.vChg then true else r.charging))
    ∧ (hold = true → ch = false) := by
  have pb : ∀ (x : BitVec 5) b, (putBit x 4 b).getLsbD 4 = b := by decide
  have f1 : ∃ bv gv fc, r.takeV hold vc = { r with volts := (r.volt vc :: r.volts).take 8, badV := bv, goodV := gv, fcause := fc } := ⟨_, _, _, rfl⟩
  obtain ⟨bv, gv, fc, f1⟩ := f1
  rw [f1]
  have f2 : ∀ r : Rsv, ∃ bi gi fc qt ts, r.takeI hold hold ic = { r with lastI := r.amp ic, badI := bi, goodI := gi, fcause := fc, qTest := qt, testSamples := ts } := fun r => ⟨_, _, _, _, _, rfl⟩
  obtain ⟨bi, gi, fc2, qt, ts, f2⟩ := f2 { r with volts := (r.volt vc :: r.volts).take 8, badV := bv, goodV := gv, fcause := fc }
  rw [f2]
  have f3 : ∀ r : Rsv, ∃ ch cs cf fc, r.charger hold = { r with charging := ch, chgSamples := cs, chgFrom := cf, fcause := fc }
     ∧ ch = (if hold || (r.step ≠ .idle && r.step ≠ .computing) then false
    else if r.vChg ≤ r.vNow then false else if r.vNow + 250 < r.vChg then true else r.charging) := fun r => ⟨_, _, _, _, rfl, rfl⟩
  obtain ⟨ch, cs, cf, fc3, f3, f4⟩ := f3 { r with volts := (r.volt vc :: r.volts).take 8, badV := bv, goodV := gv, fcause := fc2, lastI := r.amp ic, badI := bi, goodI := gi, qTest := qt, testSamples := ts }
  refine ⟨_, _, _, _, _, _, _, _, _, _, _, _, _, (congrArg (fun x => x.span.board) f3).trans rfl, rfl, rfl, pb _ _, fun g1 g2 => ?_, fun g1 => ?_⟩
  · rw [g1] at f4
    have f5 : ch = if (false || (decide (r.step ≠ .idle) && decide (r.step ≠ .computing))) = true then false else if r.vChg ≤ Rsv.vNow { r with volts := (r.volt vc :: r.volts).take 8 } then false else if Rsv.vNow { r with volts := (r.volt vc :: r.volts).take 8 } + 250 < r.vChg then true else r.charging := f4
    have hc : (false || (decide (r.step ≠ .idle) && decide (r.step ≠ .computing))) = false := by rw [g2]; rfl
    rw [hc] at f5
    exact f5
  · rw [g1] at f4
    exact f4
/-- Nothing of head i's waits for credits. -/
def Idle (x : Head) : Prop := x.kept = 0 ∧ x.waitQ = []
theorem loads_frame (f : Load → Load) : ∀ (l : List Nat) (s : State), ∃ hs, l.foldl (fun (s : State) h => s.modLoad h f) s = { s with heads := hs }
    ∧ (s.heads.wf {} = true → (∀ i, Idle (s.head i)) → ∀ i, Idle (hs.get {} i)) := by
  intro l
  induction l with
  | nil => intro s; exact ⟨_, rfl, fun _ h => h⟩
  | cons i l ih =>
    intro s
    obtain ⟨hs, h, k⟩ := ih (s.modLoad i f)
    refine ⟨hs, by rw [List.foldl_cons, h]; rfl, fun hw hi => k (Tbl.wf_set _ _ _ hw) fun j => ?_⟩
    by_cases hj : j = i
    · subst hj
      have e : (s.modLoad j f).head j = { s.head j with load := f (s.head j).load } := Tbl.get_set_eq _ _ _ hw
      rw [e]; exact hi j
    · have e : (s.modLoad i f).head j = s.head j := Tbl.get_set_ne _ _ hj hw
      rw [e]; exact hi j
theorem credits_idle {s : State} (hi : ∀ i, Idle (s.head i)) : ∀ l : List Nat, l.foldl (fun (s : State) h => s.returnCredits h) s = s := by
  intro l
  induction l with
  | nil => rfl
  | cons i l ih =>
    have e : s.returnCredits i = s := by
      unfold State.returnCredits
      rw [(hi i).1, (hi i).2, if_pos (by simp)]
    rw [List.foldl_cons, e, ih]
theorem twins_frame (g : State → Nat → Nat) : ∀ (l : List Nat) (s : State), ∃ c, l.foldl (fun (s : State) c => s.modChan c fun x => { x with twinRsv := g s c }) s = { s with dram := { s.dram with ch := c } } := by
  intro l
  induction l with
  | nil => intro s; exact ⟨_, rfl⟩
  | cons i l ih => intro s; obtain ⟨hs, h⟩ := ih (s.modChan i fun x => { x with twinRsv := g s i }); exact ⟨hs, by rw [List.foldl_cons, h]; rfl⟩
/-- A recompute of the ledger, with no write of a head waiting for credits: what it can change, and the cap's values. -/
theorem ledger_frame (s : State) (free : Nat) (hw : s.heads.wf {} = true) (hi : ∀ i, Idle (s.head i)) : ∃ hs mi dc mp w fu eu, s.ledger free = { s with
      heads := hs, tap := { s.tap with minute := mi }, dram := { s.dram with ch := dc }, map := { s.map with bgRate := mp }, vlt := { s.vlt with writable := w }
      rsv := { s.rsv with eUse := eu, dMax := s.dMaxAt s.ledgerV free, dEff := (s.capAt s.ledgerV free).1, limit := (s.capAt s.ledgerV free).2
                          withhold := withholds s.rsv.withhold s.dirtyCount (s.capAt s.ledgerV free).1, fullCap := fu } }
    ∧ (s.vlt.writable = false → w = true → withholds s.rsv.withhold s.dirtyCount (s.capAt s.ledgerV free).1 = false) := by
  unfold State.ledger
  dsimp only
  generalize (if (s.testReady && ! s.testCap free && s.glb.steward) = true then 100 else max (min 100 (fld s.map.clean 0 7)) (min 100 (Config.cleanRate s.clock))) = mp
  generalize s.energyUnits s.ledgerV / 200000000000 = eu
  generalize s.capAt s.ledgerV free = c
  generalize capClean s.rsv.fullCap s.dirtyCount c.1 = fu
  generalize s.dMaxAt s.ledgerV free = dm
  generalize s.dirtyCount = dc
  generalize withholds s.rsv.withhold dc c.1 = wh
  obtain ⟨s1, hs1⟩ : ∃ s1 : State, s1 = { s with
    rsv := { s.rsv with eUse := eu, dMax := dm, dEff := c.1, limit := c.2, withhold := wh, fullCap := fu }
    map := { s.map with bgRate := mp } } := ⟨_, rfl⟩
  rw [← hs1]
  obtain ⟨hs, h1, hk⟩ := loads_frame (fun l : Load => { l with cap := capLoad dc c.1 }) s1.presentHeads s1
  have hk' : ∀ i, Idle (hs.get {} i) := hk (by rw [hs1]; exact hw) (by rw [hs1]; exact hi)
  rw [h1]
  unfold State.spreadTwins
  dsimp only
  obtain ⟨s2, hs2⟩ : ∃ s2 : State, s2 = { s1 with heads := hs } := ⟨_, rfl⟩
  rw [← hs2]
  obtain ⟨ch, h2⟩ := twins_frame (fun s i => min ((c.1 + (State.liveChannels s2).length - 1) / (State.liveChannels s2).length) (s.chanFree i)) s2.liveChannels s2
  rw [h2]
  rw [credits_idle (fun i => by show Idle (Tbl.get {} s2.heads i); rw [hs2]; exact hk' i)]
  subst hs2
  subst hs1
  refine ⟨_, _, _, _, _, _, _, rfl, ?_⟩
  intro g1 g2
  have g3 : (s.vlt.writable || (s.vlt.active && ! wh && ! _)) = true := g2
  rw [g1] at g3
  cases wh
  · rfl
  · simp at g3


theorem acc_ne (a : TapAcc) (m v o : Nat) : a.take m v o ≠ {} := by
  intro h
  have := congrArg TapAcc.n h
  simp [TapAcc.take] at this
/-- Keeping the larger of the values seen, over a list of units of one metric. -/
theorem maxes (g : Nat → Nat) (m : Nat) : ∀ (l : List Nat) (s : State), s.tap.minute.wf 0 = true →
    ∃ M, l.foldl (fun (s : State) n => s.minuteMax (m + n) (g n)) s = { s with tap := { s.tap with minute := M } } ∧ Tbl.wf 0 M = true
      ∧ ∀ q, (∀ n ∈ l, q = m + n → M.get 0 q = max (g n + 1) (s.tap.minute.get 0 q)) ∧ ((∀ n ∈ l, q ≠ m + n) → M.get 0 q = s.tap.minute.get 0 q) := by
  intro l
  induction l with
  | nil => intro s h; exact ⟨s.tap.minute, rfl, h, fun q => ⟨by simp, fun _ => rfl⟩⟩
  | cons n l ih =>
    intro s h
    obtain ⟨M, e, w, k⟩ := ih (s.minuteMax (m + n) (g n)) (Tbl.wf_set _ _ _ h)
    have here : (s.minuteMax (m + n) (g n)).tap.minute.get 0 (m + n) = max (g n + 1) (s.tap.minute.get 0 (m + n)) := Tbl.get_set_eq _ _ _ h
    refine ⟨M, e, w, fun q => ⟨fun n' hn hq => ?_, fun hq => ?_⟩⟩
    · by_cases hl : n' ∈ l
      · rw [(k q).1 n' hl hq]
        by_cases h2 : n' = n
        · subst h2; rw [hq, here, ← Nat.max_assoc, Nat.max_self]
        · rw [show (s.minuteMax (m + n) (g n)).tap.minute.get 0 q = s.tap.minute.get 0 q from Tbl.get_set_ne _ _ (by omega) h]
      · rcases List.mem_cons.mp hn with rfl | hn
        · rw [(k q).2 (fun n hn h2 => hl (by rw [show n' = n by omega]; exact hn)), hq, here]
        · exact absurd hn hl
    · rw [(k q).2 (fun n hn => hq n (by simp [hn]))]
      exact Tbl.get_set_ne _ _ (hq n (by simp)) h
/-- Every extreme of the minute goes into its accumulator. -/
theorem samples : ∀ (l : Tbl Nat) (b : Nat) (s : State), Tbl.wfFrom 0 b l = true → s.tap.accs.wf {} = true →
    ∃ A, l.foldl (fun (s : State) e => s.tapSample e.1 (e.2 - 1)) s = { s with tap := { s.tap with accs := A } } ∧ Tbl.wf {} A = true
      ∧ ∀ q, Tbl.get {} A q = if l.get 0 q = 0 then s.tap.accs.get {} q else (s.tap.accs.get {} q).take (q / 4096) (l.get 0 q - 1) s.boot.opmin := by
  intro l
  induction l with
  | nil => intro b s _ h; exact ⟨s.tap.accs, rfl, h, fun q => by simp [Tbl.get]⟩
  | cons x l ih =>
    obtain ⟨k, v⟩ := x
    intro b s hb h
    simp only [Tbl.wfFrom, Bool.and_eq_true, decide_eq_true_eq] at hb
    obtain ⟨⟨hb1, hb2⟩, hb3⟩ := hb
    obtain ⟨A, e, w, g⟩ := ih (k + 1) (s.tapSample k (v - 1)) hb3 (Tbl.wf_set _ _ _ h)
    refine ⟨A, e, w, fun q => ?_⟩
    rw [g q]
    by_cases hq : q = k
    · subst hq
      rw [Tbl.get_below 0 l (q + 1) q hb3 (by omega), if_pos rfl]
      simp only [Tbl.get, if_true, hb2, if_false]
      exact Tbl.get_set_eq _ _ _ h
    · rw [show (s.tapSample k (v - 1)).tap.accs.get {} q = s.tap.accs.get {} q from Tbl.get_set_ne _ _ hq h]
      by_cases hl : q < k
      · rw [Tbl.get_below 0 l (k + 1) q hb3 (by omega)]
        simp [Tbl.get, hq, hl]
      · simp only [Tbl.get, hq, hl, if_false]; rfl
/-- The exit latency of the state that a drive enters: the deepest its gap allows. -/
abbrev restLat (s : State) (i : Nat) : Nat := ((s.driveStates i (s.gapOf (48 + i))).getLast?.map fun p => p.2).getD 0
/-- A channel in SELF_REFRESH. -/
abbrev resting (c : Channel) : Channel := { c with postponed := [], sched := [], window := 0 }
theorem put_low (x : BitVec 57) {r q : Nat} (hq : q < 57) : (putBit x r true).getLsbD q = (x.getLsbD q || decide (q = r)) := by
  unfold putBit
  simp only [if_true, BitVec.getLsbD_or]
  by_cases h : q = r
  · subst h; rw [bit_eq hq]; simp
  · rw [bit_ne hq (fun x => h x.symm)]; simp [h]
theorem enter_eq (t : State) {r : Nat} (hr : r < 57) : t.enterState r = { t with
    pwr := { t.pwr with low := putBit t.pwr.low r true, exlat := if 48 ≤ r ∧ r < 56 then t.pwr.exlat.set 0 (r - 48) (restLat t (r - 48)) else t.pwr.exlat }
    near := { t.near with autoOff := if r = 56 then 15 else t.near.autoOff }
    out := if 48 ≤ r ∧ r < 56 then t.out ++ [.nvmeAdmin (r - 48) 9] else t.out
    dram := { t.dram with ch := if 16 ≤ r ∧ r < 32 then t.dram.ch.set {} (r - 16) (resting (t.chan (r - 16))) else t.dram.ch } } := by
  unfold State.enterState
  dsimp only
  by_cases h : r = 56
  · subst h; rfl
  · rw [if_neg h]
    by_cases h2 : 48 ≤ r
    · have h4 : ¬ (16 ≤ r ∧ r < 32) := by omega
      have e : 48 + (r - 48) = r := by omega
      have h5 : 48 ≤ r ∧ r < 56 := ⟨h2, by omega⟩
      simp only [h2, h5, h, h4, if_true, if_false, and_self, restLat, e]
      rfl
    · simp only [h2, h, false_and, if_false]
      by_cases h4 : 16 ≤ r ∧ r < 32
      · rw [if_pos h4, if_pos (by simpa using h4)]; rfl
      · rw [if_neg h4, if_neg (by simpa using h4)]
theorem enter_fold (p : Nat → Bool) : ∀ (l : List Nat) (t : State), (∀ r ∈ l, r < 57) → ∃ L A O X C, l.foldl (fun (t : State) r => if p r then t.enterState r else t) t
      = { t with pwr := { t.pwr with low := L, exlat := X }, near := { t.near with autoOff := A }, out := O, dram := { t.dram with ch := C } }
    ∧ (∀ q, q < 57 → L.getLsbD q = (t.pwr.low.getLsbD q || (l.contains q && p q)))
    ∧ A = (if 56 ∈ l ∧ p 56 = true then 15 else t.near.autoOff)
    ∧ O = t.out ++ ((l.filter fun r => decide (48 ≤ r) && decide (r < 56) && p r).map fun r => .nvmeAdmin (r - 48) 9)
    ∧ (t.pwr.exlat.wf 0 = true → ∀ i, i < 8 → X.get 0 i = if 48 + i ∈ l ∧ p (48 + i) = true then restLat t i else t.pwr.exlat.get 0 i)
    ∧ (t.dram.ch.wf {} = true → ∀ m, m < 16 → C.get {} m = if 16 + m ∈ l ∧ p (16 + m) = true then resting (t.chan m) else t.chan m) := by
  intro l
  induction l with
  | nil => intro t _; exact ⟨_, _, _, _, _, rfl, by simp, by simp, by simp, by simp, by intro _ m _; simp; rfl⟩
  | cons r l ih =>
    intro t hl
    have hr := hl r (by simp)
    have hl' : ∀ r ∈ l, r < 57 := fun q hq => hl q (by simp [hq])
    rw [List.foldl_cons]
    cases hp : p r
    · obtain ⟨L, A, O, X, C, e1, e2, e3, e4, e5, e6⟩ := ih t hl'
      simp only [Bool.false_eq_true, if_false]
      have hm : ∀ q, (q ∈ r :: l ∧ p q = true) ↔ (q ∈ l ∧ p q = true) := by
        intro q
        by_cases h : q = r
        · subst h; simp [hp]
        · simp [h]
      refine ⟨L, A, O, X, C, e1, fun q hq => ?_, ?_, ?_, fun w i hi => ?_, fun w m hk => ?_⟩
      · rw [e2 q hq]
        by_cases h : q = r
        · subst h; simp [hp]
        · simp [h]
      · rw [e3]; simp only [hm]
      · rw [e4, List.filter_cons]; simp [hp]
      · rw [e5 w i hi]; simp only [hm]
      · rw [e6 w m hk]; simp only [hm]
    · simp only [if_true]
      have en := enter_eq t hr
      obtain ⟨t1, ht1⟩ : ∃ t1, t1 = t.enterState r := ⟨_, rfl⟩
      rw [← ht1]
      rw [← ht1] at en
      obtain ⟨L, A, O, X, C, e1, e2, e3, e4, e5, e6⟩ := ih t1 hl'
      have lat : ∀ i, restLat t1 i = restLat t i := fun i => by rw [en]; rfl
      refine ⟨L, A, O, X, C, by rw [e1, en], fun q hq => ?_, ?_, ?_, fun w i hi => ?_, fun w m hk => ?_⟩
      · rw [e2 q hq, en]
        show ((putBit t.pwr.low r true).getLsbD q || _) = _
        rw [put_low _ hq]
        by_cases h : q = r
        · subst h; simp [hp]
        · simp [h]
      · rw [e3, en]
        by_cases h : r = 56
        · subst h; simp [hp]
        · have : 56 ≠ r := fun x => h x.symm
          simp [h, this]
      · rw [e4, en, List.filter_cons]
        by_cases h : 48 ≤ r ∧ r < 56
        · simp [h, hp]
        · have : (decide (48 ≤ r) && decide (r < 56) && p r) = false := by simp at h ⊢; intro a b; omega
          simp only [h, if_false, this, Bool.false_eq_true]
      · have xe : t1.pwr.exlat = if 48 ≤ r ∧ r < 56 then t.pwr.exlat.set 0 (r - 48) (restLat t (r - 48)) else t.pwr.exlat := by rw [en]
        have xw : t1.pwr.exlat.wf 0 = true := by rw [xe]; split; exacts [Tbl.wf_set _ _ _ w, w]
        rw [e5 xw i hi, lat]
        by_cases hc : 48 + i ∈ l ∧ p (48 + i) = true
        · rw [if_pos hc, if_pos ⟨by simp [hc.1], hc.2⟩]
        · rw [if_neg hc, xe]
          by_cases hq : 48 + i = r
          · subst hq
            have : 48 + i - 48 = i := by omega
            rw [if_pos (by omega), if_pos ⟨by simp, hp⟩, this, Tbl.get_set_eq _ _ _ w]
          · rw [if_neg (c := 48 + i ∈ r :: l ∧ p (48 + i) = true) (by rintro ⟨h1, h2⟩; rcases List.mem_cons.mp h1 with h1 | h1; exacts [hq h1, hc ⟨h1, h2⟩])]
            split
            · exact Tbl.get_set_ne _ _ (by omega) w
            · rfl
      · have xe : t1.dram.ch = if 16 ≤ r ∧ r < 32 then t.dram.ch.set {} (r - 16) (resting (t.chan (r - 16))) else t.dram.ch := by rw [en]
        have xw : t1.dram.ch.wf {} = true := by rw [xe]; split; exacts [Tbl.wf_set _ _ _ w, w]
        have xc : t1.chan m = if 16 + m = r then resting (t.chan m) else t.chan m := by
          unfold State.chan; rw [xe]
          by_cases hq : 16 + m = r
          · subst hq
            have : 16 + m - 16 = m := by omega
            rw [if_pos (by omega), if_pos rfl, this, Tbl.get_set_eq _ _ _ w]; rfl
          · rw [if_neg hq]
            split
            · exact Tbl.get_set_ne _ _ (by omega) w
            · rfl
        rw [e6 xw m hk, xc]
        by_cases hq : 16 + m = r
        · subst hq
          rw [if_pos rfl, if_pos (c := 16 + m ∈ (16 + m) :: l ∧ _) ⟨by simp, hp⟩]
          split <;> rfl
        · rw [if_neg hq]
          have : (16 + m ∈ r :: l ∧ p (16 + m) = true) ↔ (16 + m ∈ l ∧ p (16 + m) = true) := by simp [hq]
          simp only [this]
theorem check_kept {a : TapArea} {c : Nat × Nat} (h : a.chain = some c) (w o y : Nat) {n : Nat} : (a.tamper n []).check (BitVec.getLsbD (0 : BitVec 2) n) (BitVec.getLsbD (0 : BitVec 2) n) w o y = (missingRuns a.base c.1 a.held, a) := by
  have e : a.tamper n [] = a := rfl
  rw [e]
  unfold TapArea.check TapArea.chainNow
  have z : BitVec.getLsbD (0 : BitVec 2) n = false := BitVec.getLsbD_zero
  simp only [z, Bool.false_eq_true, if_false, h, Option.map_some, Option.getD_some]
  rw [← h]

end Sys2Proof.Laws.Estimates
end

