-- ==== Sys2Proof/Laws/Flush.lean ====
section
/-! SUPPORT. Laws of commits, flush stages and resume. -/
namespace Sys2Proof.Laws.Flush
open Sys2Proof.Machine Sys2Proof.Laws Sys2Proof.Laws.Appends

theorem orb {p q : Prop} [Decidable p] [Decidable q] (h : p ∨ q) : (decide p || decide q) = true := by
  rcases h with h | h <;> simp [h]
theorem norb {p q : Prop} [Decidable p] [Decidable q] (h1 : ¬ p) (h2 : ¬ q) : ¬ (decide p || decide q) = true := by
  simp [h1, h2]
/-- What aborting a test leaves: a test in steps 2 to 4 ends with its result, any other state of the test stays (R327). -/
def aborted (r : Rsv) (hold : Bool) (n : Nat) : Rsv :=
  if r.step = .settling || r.step = .loaded || r.step = .discharging then
    { r with step := .idle, testing := false, charging := ! hold, testResult := n, est := none }
  else r
theorem abort_eq (s : State) (c : AbortCause) : ∃ p, s.abortTest c = { s with rsv := aborted s.rsv s.vlt.hold (abortResult c), pmc := p } := by
  unfold State.abortTest aborted
  split
  · exact ⟨_, rfl⟩
  · exact ⟨_, rfl⟩
theorem aborted_twice (r : Rsv) (h h2 : Bool) (n : Nat) : aborted (aborted r h n) h2 n = aborted r h n := by
  unfold aborted
  by_cases e : (decide (r.step = .settling) || decide (r.step = .loaded) || decide (r.step = .discharging)) = true
  · rw [if_pos e]; rfl
  · rw [if_neg e, if_neg e]
/-- Brace in RUN ends a test (R342). -/
theorem brace_eq {t : State} (h : t.vlt.st = .run) :
    ∃ p, t.startBrace = { t with rsv := aborted t.rsv t.vlt.hold 2, pmc := p, vlt := { t.vlt with braceOn := true, st := .brace } } := by
  obtain ⟨q, hq⟩ := abort_eq t .braceOrCommit
  unfold State.startBrace
  rw [if_pos (by rw [h]; decide), hq]
  dsimp only
  rw [if_pos h]
  exact ⟨_, rfl⟩
/-- A commit in RUN or BRACE asserts HOLD_EN, ends a test and charging, and starts stage 1 (R343). -/
theorem commitNow_eq {t : State} {k : Nat} (h : t.vlt.st = .run ∨ t.vlt.st = .brace) (ho : t.vlt.orderly = false) :
    ∃ v p pw a o, t.commitNowAt k = { t with vlt := v, rsv := { aborted t.rsv t.vlt.hold 2 with charging := false }, pmc := p, pwr := pw, near := { t.near with autoOff := a }, out := o }
      ∧ v.st = .s1 ∧ v.hold = true ∧ v.source = k ∧ v.stopAt = t.clock ∧ v.braceOn = false := by
  obtain ⟨q, hq⟩ := abort_eq t .braceOrCommit
  unfold State.commitNowAt
  rw [if_neg (by rcases h with h | h <;> rw [h] <;> decide), if_neg (by rcases h with h | h <;> rw [h] <;> decide), if_neg (by rw [ho]; decide), if_pos (by rcases h with h | h <;> rw [h] <;> decide)]
  rw [hq]
  dsimp only
  obtain ⟨p, a, o, e, -⟩ := exits_any ({ State.count { t with rsv := aborted t.rsv t.vlt.hold (abortResult .braceOrCommit), pmc := q } (evVault 3) 1 with
      vlt := { t.vlt with
        st := .s1, tail := false, hold := true, source := k, braceOn := false, stopAt := t.clock, stage1 := false, stage2 := false
        drained := false, drivesDone := false, written := 0, left := 0, skipScratch := false }
      rsv := { aborted t.rsv t.vlt.hold (abortResult .braceOrCommit) with charging := false } } : State) (BitVec.allOnes 57)
  refine ⟨_, _, _, _, _, e, rfl, rfl, rfl, rfl, rfl⟩

theorem poison_pages (l : List Nat) : ∀ s : State, ∃ b p, l.foldl (fun (s : State) pn =>
    (s.modPage pn fun p => { p with ppoison := true, urgent := true }).deltaPage pn) s = { s with beam := b, map := { s.map with pages := p } } := by
  induction l with
  | nil => exact fun s => ⟨_, _, rfl⟩
  | cons x l ih =>
    intro s
    rw [List.foldl_cons]
    obtain ⟨b, p, h⟩ := ih ((s.modPage x fun p => { p with ppoison := true, urgent := true }).deltaPage x)
    rw [h]
    exact ⟨_, _, rfl⟩
theorem poison_copies (l : List (Nat × Nat)) : ∀ s : State, ∃ b, l.foldl (fun (s : State) c => s.delta (.swatch c.1 c.2 ⟨.poison, 0⟩)) s = { s with beam := b } := by
  induction l with
  | nil => exact fun s => ⟨_, rfl⟩
  | cons x l ih =>
    intro s
    rw [List.foldl_cons]
    obtain ⟨b, h⟩ := ih (s.delta (.swatch x.1 x.2 ⟨.poison, 0⟩))
    rw [h]
    exact ⟨_, rfl⟩
theorem all_deltas (k : Nat) : ∀ s : State, ∃ ds dt, Logged { s with beam := { s.beam with deltas := ds, deltaAt := dt } } (State.writeAllDeltas k s) := by
  induction k with
  | zero => exact fun s => ⟨s.beam.deltas, s.beam.deltaAt, Logged.refl s⟩
  | succ k ih =>
    intro s
    unfold State.writeAllDeltas
    split
    · exact ⟨s.beam.deltas, s.beam.deltaAt, Logged.refl s⟩
    · obtain ⟨ds, dt, _, _, _, _, _, _, _, _, _, _, _, h⟩ := logged_delta s
      obtain ⟨ds2, dt2, h2⟩ := ih s.writeDelta
      refine ⟨ds2, dt2, Logged.trans ?_ h2⟩
      rw [h]
      exact ⟨_, _, _, _, _, _, _, _, _, _, _, rfl⟩
/-- A near cache that is empty, with no line of a hand-off under way, leaves nothing for stage 1. -/
theorem nothing_dirty {s : State} (h : s.near.nc = []) (h2 : s.coh.handoff = []) : s.dirtyLeft = false := by
  unfold State.dirtyLeft
  rw [h, h2]
  rfl
theorem bits_one (i : Nat) (h : i < 8) : bitsOf (BitVec.ofNat 8 (2 ^ i)) = [i] := by
  have : i = 0 ∨ i = 1 ∨ i = 2 ∨ i = 3 ∨ i = 4 ∨ i = 5 ∨ i = 6 ∨ i = 7 := by omega
  rcases this with rfl | rfl | rfl | rfl | rfl | rfl | rfl | rfl <;> decide
theorem stage5_none {t : State} (h : t.slotsUp = 0) : t.stage5 = { t with vlt := { t.vlt with st := .s5, selfRefresh := true } } := by
  unfold State.stage5
  rw [h]
  rfl
theorem stage5_one {t : State} {i : Nat} {x : Slot} (hi : i < 8) (h : t.slotsUp = BitVec.ofNat 8 (2 ^ i)) (hx : t.slot i = x) :
    t.stage5 = { t.modSlot i (fun _ => { x with shutdown := true }) with vlt := { t.vlt with st := .s5, selfRefresh := true } } := by
  unfold State.stage5
  rw [h, bits_one i hi, ← hx]
  rfl

/-! ### Starting -/

/-- Bits after bit u of a 256-bit record is set. -/
theorem put_bit (x : BitVec 256) {u j : Nat} (hj : j < 256) : (putBit x u true).getLsbD j = (x.getLsbD j || decide (j = u)) := by
  unfold putBit
  simp only [if_true, BitVec.getLsbD_or]
  by_cases h : j = u
  · subst h; rw [bit_eq hj]; simp
  · rw [bit_ne hj (fun x => h x.symm)]; simp [h]
/-- A near-cache way is retired: its bit moves from the ways that wait to those that are retired (R136). -/
theorem gone_eq (s : State) (n w k : Nat) : ∃ hs fl tp pc o nr ll old gens, s.ncWayGone n w k = { s with
    heads := hs, flt := fl, tap := tp, pmc := pc, out := o, near := { s.near with retiring := nr, lostLocks := ll }
    boot := { s.boot with gens := gens, old := old, retNc := putBit s.boot.retNc (16 * n + w) true, pendNc := putBit s.boot.pendNc (16 * n + w) false } } := by
  unfold State.ncWayGone
  dsimp only
  generalize (Note.mk _ _ _ _) = nt
  generalize (EventRec.mk _ _ _) = ev
  obtain ⟨tp, pc, hs, o, h⟩ := note_cases (State.modBucket ({ s with
    boot := { s.boot.keep 1 with retNc := putBit s.boot.retNc (16 * n + w) true, pendNc := putBit s.boot.pendNc (16 * n + w) false }
    near := { s.near with retiring := putBit s.near.retiring (16 * n + w) false, lostLocks := s.near.lostLocks.set 0 (16 * n + w) 0 } } : State) 2 (16 * n + w) fun b => { b with retired := true }) nt
  rw [h]
  obtain ⟨hs2, o2, h2⟩ := eventAll_cases (_ : State) ev
  rw [h2]
  exact ⟨_, _, _, _, _, _, _, _, _, rfl⟩
/-- What retiring the ways that waited leaves: every way that waited is among the retired ones. -/
theorem gone_fold : ∀ (l : List Nat) (s : State), ∃ hs fl tp pc o nr ll b, l.foldl (fun (s : State) u => s.ncWayGone (u / 16) (u % 16) 0) s = { s with
      heads := hs, flt := fl, tap := tp, pmc := pc, out := o, near := { s.near with retiring := nr, lostLocks := ll }, boot := b }
    ∧ b = { s.boot with gens := b.gens, old := b.old, retNc := b.retNc, pendNc := b.pendNc }
    ∧ ∀ j, j < 256 → b.retNc.getLsbD j = (s.boot.retNc.getLsbD j || l.contains j) := by
  intro l
  induction l with
  | nil => exact fun s => ⟨s.heads, s.flt, s.tap, s.pmc, s.out, s.near.retiring, s.near.lostLocks, s.boot, rfl, rfl, fun j _ => by simp⟩
  | cons i l ih =>
    intro s
    obtain ⟨_, _, _, _, _, _, _, _, _, h⟩ := gone_eq s (i / 16) (i % 16) 0
    obtain ⟨hs, fl, tp, pc, o, nr, ll, b, e, e2, e3⟩ := ih (s.ncWayGone (i / 16) (i % 16) 0)
    rw [h] at e e2 e3
    refine ⟨hs, fl, tp, pc, o, nr, ll, b, ?_, e2, fun j hj => ?_⟩
    · rw [List.foldl_cons, h, e]
    · rw [e3 j hj]
      show ((putBit s.boot.retNc (16 * (i / 16) + i % 16) true).getLsbD j || _) = _
      rw [put_bit _ hj, Nat.div_add_mod]
      simp only [List.contains_cons, Bool.or_assoc]
      rfl
theorem scratch_eq (s : State) : ∃ hs fl tp pc o nr ll b, s.retireScratch = { s with
      heads := hs, flt := fl, tap := tp, pmc := pc, out := o, near := { s.near with retiring := nr, lostLocks := ll }, boot := b }
    ∧ b = { s.boot with gens := b.gens, old := b.old, retNc := b.retNc, pendNc := b.pendNc }
    ∧ ∀ j, j < 256 → b.retNc.getLsbD j = (s.boot.retNc.getLsbD j || s.boot.pendNc.getLsbD j) := by
  obtain ⟨hs, fl, tp, pc, o, nr, ll, b, e, e2, e3⟩ := gone_fold (bitsOf s.boot.pendNc) s
  refine ⟨hs, fl, tp, pc, o, nr, ll, b, e, e2, fun j hj => ?_⟩
  rw [e3 j hj]
  congr 1
  unfold bitsOf
  by_cases h : s.boot.pendNc.getLsbD j = true
  · rw [h]; simp [List.mem_filter, hj, h]
  · simp only [Bool.not_eq_true] at h
    rw [h]; simp [h]
theorem scratch_none {s : State} (h : s.boot.pendNc = 0) : s.retireScratch = s := by
  unfold State.retireScratch
  rw [h]
  rfl
/-- Loading the records changes registers of the reserve and the vault alone. -/
theorem loads_eq (s : State) : ∃ r v, s.loadRecords = { s with rsv := r, vlt := { s.vlt with floor := v } }
    ∧ (∀ b, s.boot.board = some b → r.bank = Trw.all b.bank ∧ r.flush = Trw.all b.flush ∧ r.sense = Trw.all b.sense ∧ v = Trw.all b.floor)
    ∧ (s.boot.board = none → r.bank = s.rsv.bank ∧ v = s.vlt.floor ∧ r.fcause.getLsbD 4 = true)
    ∧ r.test = newestOf false s.boot.ring ∧ r.charge = newestOf true s.boot.ring ∧ r.bootMin = s.boot.opmin := by
  unfold State.loadRecords
  dsimp only
  cases h : s.boot.board with
  | some b => exact ⟨_, _, rfl, fun x hx => by cases hx; exact ⟨rfl, rfl, rfl, rfl⟩, fun hx => by simp at hx, rfl, rfl, rfl⟩
  | none =>
    have pb : ∀ (x : BitVec 5), (putBit x 4 true).getLsbD 4 = true := by decide
    exact ⟨_, s.vlt.floor, rfl, fun x hx => by simp at hx, fun _ => ⟨rfl, rfl, pb _⟩, rfl, rfl, rfl⟩

end Sys2Proof.Laws.Flush
end

