-- ==== Sys2Proof/Laws/Io.lean ====
section
/-! SUPPORT. Laws of ring, bucket, mailbox and head operations. -/
namespace Sys2Proof.Laws.Io
open Sys2Proof.Machine Sys2Proof.Laws

theorem flag0 {w : Word} (h : w &&& 1 = 0) : flag w 0 = false := by
  unfold flag
  have := congrArg (fun x : Word => x.getLsbD 0) h
  simpa using this


theorem fold_set {α : Type} [DecidableEq α] (d : α) (f : Nat → α) : ∀ (l : List Nat), l.Nodup → ∀ t : Tbl α, t.wf d = true → ∀ h,
    (l.foldl (fun (t : Tbl α) h => t.set d h (f h)) t).get d h = if h ∈ l then f h else t.get d h := by
  intro l
  induction l with
  | nil => intro _ t _ h; simp
  | cons k l ih =>
    intro hn t hw h
    rw [List.nodup_cons] at hn
    rw [List.foldl_cons, ih hn.2 _ (Tbl.wf_set _ _ _ hw)]
    by_cases hk : h = k
    · subst hk
      simp [hn.1, Tbl.get_set_eq _ _ _ hw]
    · simp [hk, Tbl.get_set_ne _ _ hk hw]


theorem pool_nobody {s : State} {n line : Nat} {d : Line} {m : Mask} {p : Bool} {rg : Region} (hr : s.atRest line) (hreg : s.regionOf line = some (n, rg)) (hw : rg.window = 2) (hc : rg.coh = 0) :
    ∃ pw au, s.route { src := .nobody, kind := .devWr, line := line, data := d, mask := m, poison := p }
      = { s with pwr := pw, near := { (s.setPool (rg.poolLine line) d m p).near with autoOff := au } } := by
  obtain ⟨pw, au, h⟩ := route_free (q0 := { src := .nobody, kind := .devWr, line := line, data := d, mask := m, poison := p }) hr rfl rfl hreg hc
  refine ⟨pw, au, ?_⟩
  rw [h]
  have hp : rg.pooled = true := by simp [Region.pooled, hw]
  unfold State.perform
  simp only [hp, Bool.true_or, if_true]
  rw [afterSf_private _ hc]
  unfold State.serveWrite
  simp only [hp, if_true]
  unfold State.poolWrite
  simp only [hw, OfNat.ofNat_ne_one, if_false]
  unfold State.setPool
  have e1 : State.poolDead { s with pwr := pw, near := { s.near with autoOff := au } } (rg.poolLine line) = s.poolDead (rg.poolLine line) := rfl
  rw [e1]
  have hcr : ∀ t : State, t.completeReq { src := .nobody, kind := .devWr, line := line, data := d, mask := m, poison := p, reg := some (n, rg) } = t := by
    intro t; unfold State.completeReq Req.waiters; simp [State.complete]
  rw [hcr]
  rw [finish_none]
  · split <;> rfl
  · split <;> exact hr.1


theorem rings_reset {s : State} {h r : Nat} (hw : s.rng.rings.wf {} = true) (ho : (s.ring r).owner = h) (ht : (s.ring r).st ≠ .off) :
    (s.ringsReset h).ring r = { s.ring r with st := .off, ctl := (s.ring r).ctl &&& ~~~ 1, quiet := true, mute := decide ((s.ring r).st = .detached) || (s.ring r).cqHost } := by
  unfold State.ringsReset State.modRingsOf State.ring
  dsimp only
  rw [get_mapVals_wf ({} : Machine.Ring) _ r (by rw [if_neg (by simp)]) s.rng.rings 0 hw]
  unfold State.ring at ho ht
  rw [if_pos (by rw [Bool.and_eq_true]; exact ⟨decide_eq_true ho, decide_eq_true ht⟩)]
theorem ctl_en (w : Word) : flag (w &&& ~~~ 1) 0 = false := by
  unfold flag; rw [BitVec.getLsbD_and, BitVec.getLsbD_not]; simp
/-- Opening the gate of a head of which nothing waits. -/
theorem openGate_nil {s : State} {h : Nat} {y : Head} (hy : s.head h = y) (hn : y ≠ {}) (hg : y.brake.gate = []) (hb : y.braked = false)
    (hw : y.waitQ = []) (hk : y.kept = 0) : s.openGate h = s.modHead h fun _ => y := by
  have e : ({ y with brake := { y.brake with gate := [] } } : Head) = y := by rw [← hg]
  unfold State.openGate
  rw [hy]
  dsimp only
  rw [hb, hg, List.foldl_nil, if_neg (by simp), modHead_eq (f := fun x => { x with brake := { x.brake with gate := [] } }) hy, e]
  unfold State.returnCredits
  have d : (s.modHead h fun _ => y).head h = y := head_mod (f := fun _ => y) hn
  rw [d, hw, hk, if_pos (by simp)]

/-- Changing buckets of one kind over a list: the others, and all other state, stay; each of the list has been changed by an f that
changes nothing more a second time. -/
theorem mod_buckets (k : Nat) (f : Bucket → Bucket) (hf : ∀ b, f (f b) = f b) (g : Nat → Nat) : ∀ (l : List Nat) (s : State), ∃ b,
    l.foldl (fun (s : State) i => s.modBucket k (g i) f) s = { s with flt := { s.flt with buckets := b } }
    ∧ (s.flt.buckets.wf {} = true → b.wf {} = true ∧ (∀ i ∈ l, ∃ c, b.get {} (256 * k + g i) = f c)
      ∧ ∀ n c, s.flt.buckets.get {} n = f c → ∃ c', b.get {} n = f c') := by
  intro l
  induction l with
  | nil => intro s; exact ⟨_, rfl, fun hw => ⟨hw, by simp, fun n c h => ⟨c, h⟩⟩⟩
  | cons i l ih =>
    intro s
    obtain ⟨b, e, h⟩ := ih (s.modBucket k (g i) f)
    refine ⟨b, by rw [List.foldl_cons, e]; rfl, fun hw => ?_⟩
    have hs : (s.modBucket k (g i) f).flt.buckets = s.flt.buckets.set {} (256 * k + g i) (f (s.bucket k (g i))) := rfl
    have hw1 : (s.modBucket k (g i) f).flt.buckets.wf {} = true := Tbl.wf_set _ _ _ hw
    obtain ⟨h1, h2, h3⟩ := h hw1
    refine ⟨h1, fun j hj => ?_, fun n c hn => ?_⟩
    · rcases List.mem_cons.mp hj with rfl | hj
      · exact h3 _ (s.bucket k (g j)) (by rw [hs]; exact Tbl.get_set_eq _ _ _ hw)
      · exact h2 j hj
    · by_cases hk : n = 256 * k + g i
      · exact h3 n (s.bucket k (g i)) (by rw [hs, hk]; exact Tbl.get_set_eq _ _ _ hw)
      · exact h3 n c (by rw [hs]; exact (Tbl.get_set_ne _ _ hk hw).trans hn)

/-- The lanes of a head return to service with their buckets at 0. -/
theorem lanes_return (s : State) (h : Nat) : ∃ b, s.lanesReturn h = { s with
      ports := { s.ports with laneRet := s.ports.laneRet.set 0 (h / 2) ((s.headLanes h).foldl (fun b i => putBit b i false) (s.ports.laneRet.get 0 (h / 2))) }
      flt := { s.flt with buckets := b } }
    ∧ (s.flt.buckets.wf {} = true → ∀ i ∈ s.headLanes h, (b.get {} (256 * 6 + (8 * (h / 2) + i))).count = 0 ∧ (b.get {} (256 * 6 + (8 * (h / 2) + i))).retired = false) := by
  obtain ⟨s1, hs1⟩ : ∃ s1 : State, s1 = { s with ports := { s.ports with
    laneRet := s.ports.laneRet.set 0 (h / 2) ((s.headLanes h).foldl (fun b i => putBit b i false) (s.ports.laneRet.get 0 (h / 2))) } } := ⟨_, rfl⟩
  obtain ⟨f, hf⟩ : ∃ f : Bucket → Bucket, f = fun b => { b with count := 0, retired := false } := ⟨_, rfl⟩
  obtain ⟨b, e, k⟩ := mod_buckets 6 f (by intro b; rw [hf]) (fun i => 8 * (h / 2) + i) (s.headLanes h) s1
  obtain ⟨b2, hb2⟩ : ∃ b2, b2 = b.set {} (256 * 7 + h / 2) (f (b.get {} (256 * 7 + h / 2))) := ⟨_, rfl⟩
  have hs : s1.flt.buckets = s.flt.buckets := by rw [hs1]
  refine ⟨b2, ?_, fun hw i hi => ?_⟩
  · have : s.lanesReturn h = ((s.headLanes h).foldl (fun (s : State) i => s.modBucket 6 (8 * (h / 2) + i) f) s1).modBucket 7 (h / 2) f := by rw [hs1, hf]; rfl
    rw [this, e, hb2, hs1]; rfl
  · obtain ⟨k1, k2, k3⟩ := k (by rw [hs]; exact hw)
    obtain ⟨c, hc⟩ := k2 i hi
    by_cases hk : 256 * 6 + (8 * (h / 2) + i) = 256 * 7 + h / 2
    · have : b2.get {} (256 * 6 + (8 * (h / 2) + i)) = f (b.get {} (256 * 7 + h / 2)) := by rw [hb2, hk]; exact Tbl.get_set_eq _ _ _ k1
      rw [this, hf]; exact ⟨rfl, rfl⟩
    · have : b2.get {} (256 * 6 + (8 * (h / 2) + i)) = f c := by rw [hb2]; exact (Tbl.get_set_ne _ _ hk k1).trans hc
      rw [this, hf]; exact ⟨rfl, rfl⟩

end Sys2Proof.Laws.Io
end

