-- ==== Sys2Proof/Laws/Pages.lean ====
section
/-! SUPPORT. Laws of page, map and atomic operations. -/
namespace Sys2Proof.Laws.Pages
open Sys2Proof.Machine Sys2Proof.Laws

/-- What a fold over a unit's pages keeps. -/
def Kept (s t : State) (unit : Nat) : Prop :=
  t.map.units = s.map.units ∧ t.coh.txns = s.coh.txns ∧ t.map.rebuilding = s.map.rebuilding ∧ t.dram.frames = s.dram.frames ∧ t.beam.coldUnits = s.beam.coldUnits
theorem Kept.unit {s t : State} {u : Nat} (h : Kept s t u) : t.unit u = s.unit u := by unfold State.unit; rw [h.1]
theorem writeEntry_kept {s : State} {pn unit : Nat} (p : PageEntry) (hu : pn / 512 = unit) (hl : (s.unit unit).dstate = .loaded) : Kept s (s.writeEntry pn p) unit := by
  have h0 : s.mapUnit (pn / 512) = s := by unfold State.mapUnit; rw [hu, hl]; simp
  unfold State.writeEntry
  rw [h0]
  dsimp only
  repeat' split
  all_goals exact ⟨rfl, rfl, rfl, rfl, rfl⟩
theorem fold_kept {unit : Nat} (g : State → Nat → State) (hg : ∀ s pn, pn / 512 = unit → (s.unit unit).dstate = .loaded → Kept s (g s pn) unit) :
    ∀ (l : List Nat), (∀ p ∈ l, p / 512 = unit) → ∀ s : State, (s.unit unit).dstate = .loaded → Kept s (l.foldl g s) unit
  | [], _, s, _ => ⟨rfl, rfl, rfl, rfl, rfl⟩
  | p :: l, hl, s, hs => by
    have h1 := hg s p (hl p (by simp)) hs
    have h2 := fold_kept g hg l (fun q hq => hl q (by simp [hq])) (g s p) (by rw [h1.unit]; exact hs)
    obtain ⟨a1, a2, a3, a4, a5⟩ := h1
    obtain ⟨b1, b2, b3, b4, b5⟩ := h2
    exact ⟨b1.trans a1, b2.trans a2, b3.trans a3, b4.trans a4, b5.trans a5⟩
theorem mediaEvent_kept {s : State} (r : Region) (a u : Nat) : Kept s (s.mediaEvent r a) u := by
  unfold State.mediaEvent
  generalize bitsOf r.holders = l
  induction l generalizing s with
  | nil => exact ⟨rfl, rfl, rfl, rfl, rfl⟩
  | cons x l ih =>
    have := ih (s := s.event x ⟨.generalMedia, 0x20, a⟩)
    obtain ⟨b1, b2, b3, b4, b5⟩ := this
    simp only [event_map, event_coh, event_dram, event_beam] at b1 b2 b3 b4 b5
    exact ⟨b1, b2, b3, b4, b5⟩
theorem poisoned_kept {s : State} (c l n u : Nat) : Kept s (s.poisoned c l n) u := by
  unfold State.poisoned
  dsimp only
  generalize hn : s.note _ = t
  have k : Kept s t u := by rw [← hn]; exact ⟨by simp, by simp, by simp, by simp, by simp⟩
  have m := mediaEvent_kept (s := t) ((s.regionOf l).getD (0xFFF, {})).2 (l * 64) u
  obtain ⟨a1, a2, a3, a4, a5⟩ := k
  obtain ⟨b1, b2, b3, b4, b5⟩ := m
  unfold State.indexPoison
  repeat' split
  all_goals exact ⟨b1.trans a1, b2.trans a2, b3.trans a3, b4.trans a4, b5.trans a5⟩
theorem pages_unit (unit : Nat) : ∀ p ∈ (List.range 512).map (fun i => unit * 512 + i), p / 512 = unit := by
  intro p hp
  simp only [List.mem_map, List.mem_range] at hp
  obtain ⟨i, hi, rfl⟩ := hp
  omega
theorem release_fold {s : State} (h : s.coh.txns = []) : ∀ l : List Nat, l.foldl (fun (s : State) pn => s.releaseLookups pn) s = s
  | [] => rfl
  | x :: l => by rw [List.foldl_cons, release_nil h]; exact release_fold h l


theorem pool_atomic {s : State} {r n line off : Nat} {op : AtomOp} {A B : BitVec 128} {be : Bool} {rg : Region} {cell : LineCell} (hr : s.atRest line) (hreg : s.regionOf line = some (n, rg))
    (hw : rg.window = 2) (hc : rg.coh = 0) (ho : off < 64) (hcell : s.poolCell (rg.poolLine line) = cell) (hp : cell.poison = false) :
    ∃ pm pw au, s.route { src := .engine r, kind := .atomic op off A B, line := line, be := be }
      = { s with pwr := pw, pmc := pm, near := { (s.setPool (rg.poolLine line) (((atomNew op (atomOld op off cell.data) A B).setWidth 512 : Line) <<< (8 * off)) (atomMask op off) false).near with autoOff := au }
                 rng := { s.rng with answers := s.rng.answers.set none (r * 2 ^ 39 + line) (some { data := (atomOld op off cell.data).setWidth 512 }) } } := by
  obtain ⟨pw, au, h⟩ := route_free (q0 := { src := .engine r, kind := .atomic op off A B, line := line, be := be }) hr rfl rfl hreg hc
  rw [h]
  have hpl : rg.pooled = true := by simp [Region.pooled, hw]
  have hom : off % 64 = off := by omega
  obtain ⟨s1, hs1⟩ : ∃ s1 : State, s1 = { s with pwr := pw, near := { s.near with autoOff := au } } := ⟨_, rfl⟩
  rw [← hs1]
  unfold State.perform
  dsimp only
  rw [afterSf_private _ hc]
  unfold State.resident
  simp only [hpl, Bool.true_or, if_true]
  have c1 : s1.poolCell (rg.poolLine line) = cell := by rw [hs1]; exact hcell
  rw [c1]
  unfold State.atomic
  simp only [hp, Bool.false_eq_true, if_false, hpl, Bool.true_or, Bool.not_true, if_true, hom]
  unfold State.answer
  simp only [Bool.false_eq_true, if_false]
  rw [finish_none]
  · refine ⟨(s1.count (evTile (s1.ownerTile line) 15) 1).pmc, pw, au, ?_⟩
    have e : s1.poolDead (rg.poolLine line) = s.poolDead (rg.poolLine line) := by rw [hs1]; rfl
    have e' : (s1.count (evTile (s1.ownerTile line) 15) 1).poolDead (rg.poolLine line) = s.poolDead (rg.poolLine line) := e
    unfold State.setPool
    rw [e']
    rw [hs1]
    split <;> rfl
  · have : ∀ l d m, (s1.count (evTile (s1.ownerTile line) 15) 1 |>.setPool l d m false).txn line = none := by
      intro l d m
      unfold State.setPool
      rw [hs1]
      split <;> exact hr.1
    exact this _ _ _
theorem low64 (x : BitVec 128) : x &&& 0xFFFFFFFFFFFFFFFF = (x.setWidth 64).setWidth 128 := by
  apply BitVec.eq_of_toNat_eq
  have h : x.toNat &&& 18446744073709551615 = x.toNat % 2 ^ 64 := Nat.and_two_pow_sub_one_eq_mod x.toNat 64
  simp [BitVec.toNat_and, h]
  omega
theorem ext64 {w : Nat} (x : BitVec w) (k : Nat) : (x.extractLsb' k 128).setWidth 64 = x.extractLsb' k 64 := by
  apply BitVec.eq_of_toNat_eq
  simp [BitVec.extractLsb'_toNat]
theorem new64 (o x : Word) : atomNew .fadd (o.setWidth 128) (x.setWidth 128) 0 = (o + x).setWidth 128
    ∧ atomNew .fand (o.setWidth 128) (x.setWidth 128) 0 = (o &&& x).setWidth 128
    ∧ atomNew .bor (o.setWidth 128) (x.setWidth 128) 0 = (o ||| x).setWidth 128
    ∧ atomNew .swap (o.setWidth 128) (x.setWidth 128) 0 = x.setWidth 128 := by
  unfold atomNew
  simp only [low64]
  refine ⟨?_, ?_, ?_, ?_⟩
  · apply BitVec.eq_of_toNat_eq
    simp
  · apply BitVec.eq_of_toNat_eq; simp; 
  · apply BitVec.eq_of_toNat_eq; simp; 
  · apply BitVec.eq_of_toNat_eq; simp
/-- The request of an atomic descriptor has its answer. -/
theorem atomic_go {s : State} {r n line off : Nat} {d : Line} {rg : Region} {cell : LineCell} (hact : (s.ring r).act = some { words := d }) (hr : s.atRest line) (hreg : s.regionOf line = some (n, rg))
    (hw : rg.window = 2) (hc : rg.coh = 0) (ha : dW d 1 = line * 64 + off) (ho : off < 64) (hcell : s.poolCell (rg.poolLine line) = cell) (hp : cell.poison = false) :
    ∃ (s1 : State) (q : Qos) (pm : Pmc) (pw : Pwr) (au : Nat) (rn : Rng), s1 = { s with qos := q, pwr := pw, pmc := pm, near := { (s.setPool (rg.poolLine line) (((atomNew (atomOpOf (dSub d)) (atomOld (atomOpOf (dSub d)) off cell.data) (atomA d) (atomB d)).setWidth 512 : Line) <<< (8 * off)) (atomMask (atomOpOf (dSub d)) off) false).near with autoOff := au }, rng := rn }
      ∧ (s1.ring r).act = some { words := d, started := true, reads := true }
      ∧ s.atomicRun r = (let old : BitVec 128 := (atomOld (atomOpOf (dSub d)) off cell.data)
          let s2 := if dSub d = 4 && dW d 2 ≠ 0 then
              s1.engineWrite r (dW d 2 / 64) ((old.setWidth 512 : Line) <<< (8 * (dW d 2 % 64)))
                (BitVec.ofNat 64 (0xFFFF <<< (dW d 2 % 64))) false
            else s1
          s2.endDescriptor r 0x00 fun a => { a with result := old.setWidth 64, matched := dSub d = 4 && decide (old = atomA d) }) := by
  obtain ⟨b, q, h⟩ := engineClass_eq s r true
  have k1 : dW d 1 / 64 = line := by omega
  have k2 : dW d 1 % 64 = off := by omega
  obtain ⟨pm, pw, au, h2⟩ := pool_atomic (s := State.modAct { s with qos := q } r fun a => { a with started := true, reads := true }) (r := r) (op := atomOpOf (dSub d)) (A := atomA d) (B := atomB d) (be := b) hr hreg hw hc ho hcell hp
  obtain ⟨s1, hs1⟩ : ∃ s1, s1 = State.route (State.modAct { s with qos := q } r fun a => { a with started := true, reads := true }) { src := .engine r, kind := .atomic (atomOpOf (dSub d)) off (atomA d) (atomB d), line := line, be := b } := ⟨_, rfl⟩
  rw [← hs1] at h2
  have hn : ∀ L D M, (State.setPool (State.modAct { s with qos := q } r fun a => { a with started := true, reads := true }) L D M false).near = (s.setPool L D M false).near := by
    intro L D M
    have : State.poolDead (State.modAct { s with qos := q } r fun a => { a with started := true, reads := true }) L = s.poolDead L := rfl
    unfold State.setPool
    rw [this]
    split <;> rfl
  rw [hn] at h2
  have act1 : (s1.ring r).act = some { words := d, started := true, reads := true } := by
    rw [h2]
    exact act_mod (s := { s with qos := q }) (f := fun a => { a with started := true, reads := true }) hact
  have an : s1.engineAnswer r line = some { data := (atomOld (atomOpOf (dSub d)) off cell.data).setWidth 512 } := by
    rw [h2]; exact Tbl.get_set_self _ _ _ (by simp) _
  refine ⟨s1, q, pm, pw, au, s1.rng, ?_, act1, ?_⟩
  · rw [h2]; rfl
  · unfold State.atomicRun
    rw [hact]
    dsimp only
    rw [h]
    simp only [Bool.false_eq_true, if_false, k1, k2, ← hs1, an]
    have e : ((atomOld (atomOpOf (dSub d)) off cell.data).setWidth 512).setWidth 128 = atomOld (atomOpOf (dSub d)) off cell.data := by
      apply BitVec.eq_of_toNat_eq; simp
    rw [e]

end Sys2Proof.Laws.Pages
end

