-- ==== Sys2Proof/Laws/Traffic.lean ====
section
/-! SUPPORT. Laws of request, write-buffer and DRAM channel operations. -/
namespace Sys2Proof.Laws.Traffic
open Sys2Proof.Machine Sys2Proof.Laws

theorem recalled_waits {s : State} {line : Nat} {t : Txn} (h : s.txn line = some t) (hw : t.waits ≠ 0) : s.recalled line = s := by
  unfold State.recalled; simp only [h, hw, decide_false, Bool.and_false, Bool.false_eq_true, if_false]

/-- Where no write of the head to the line waits, none goes ahead of the queued requests. -/
theorem bypass_none {s : State} {h line : Nat} (hw : s.writebackWaits h line = false) : s.bypass h line = s := by
  unfold State.writebackWaits at hw
  simp only [Bool.or_eq_false_iff] at hw
  obtain ⟨⟨⟨⟨⟨⟨⟨⟨h1, h2⟩, h3⟩, h4⟩, h5⟩, h6⟩, h7⟩, h8⟩, h9⟩ := hw
  have e2 : ((s.coh.sfWait ++ s.coh.retry).map Prod.snd).filter (fun q => q.writeOf h line) = [] := by
    rw [List.filter_eq_nil_iff]
    intro a ha
    rw [List.map_append, List.mem_append, List.mem_map, List.mem_map] at ha
    rcases ha with ⟨x, hx, rfl⟩ | ⟨x, hx, rfl⟩
    · exact List.any_eq_false.mp h6 x hx
    · exact List.any_eq_false.mp h7 x hx
  unfold State.bypass
  dsimp only
  rw [e2]
  cases ht : s.txn line with
  | none => rfl
  | some t =>
    rw [ht] at h8
    have e1 : t.queue.filter (fun q => q.writeOf h line) = [] := by
      rw [List.filter_eq_nil_iff]
      intro a ha
      exact List.any_eq_false.mp h8 a ha
    simp only [e1, List.append_nil, List.isEmpty_nil, if_true]

theorem snooped_of {s : State} {h line : Nat} {sn : Snoop} (hf : (s.coh.snoops.find? fun x => x.head = h && x.line = line) = some sn) :
    s.snooped h line = true := by
  show (s.coh.snoops.any _) = true
  rw [List.any_eq_true]
  exact ⟨sn, List.mem_of_find?_eq_some hf, by simpa using List.find?_some hf⟩

/-- An answer after which the transaction still awaits another head. -/
theorem birsp_takes {s : State} {h line : Nat} {sn : Snoop} {t : Txn} (b : Birsp)
    (hf : (s.coh.snoops.find? fun x => x.head = h && x.line = line) = some sn) (hst : sn.stale = false)
    (hw : s.writebackWaits h line = false) (ht : s.txn line = some t) (hne : putBit t.waits h false ≠ 0) :
    s.birsp h line b = (State.setTxn
          (State.answered { s with coh := { s.coh with snoops := s.coh.snoops.erase sn } } h line (if b = .e && sn.kind ≠ .cur then .i else b))
          line (some { t with waits := putBit t.waits h false, ansS := if (if b = .e && sn.kind ≠ .cur then Birsp.i else b) = .s then putBit t.ansS h true else t.ansS })) := by
  unfold State.birsp
  simp only [snooped_of hf, bypass_none hw, hw, Bool.not_true, Bool.false_eq_true, if_false]
  unfold State.birspHandle
  have e2 : State.txn { s with coh := { s.coh with snoops := s.coh.snoops.erase sn } } line = some t := ht
  simp only [hf, hst, e2, Bool.false_eq_true, if_false]
  exact recalled_waits (Tbl.get_set_self none _ _ (by simp) _) hne

/-- The answer to a BISnp of an abandoned transaction. -/
theorem birsp_stale {s : State} {h line : Nat} {sn : Snoop} (b : Birsp)
    (hf : (s.coh.snoops.find? fun x => x.head = h && x.line = line) = some sn) (hst : sn.stale = true) (hw : s.writebackWaits h line = false) :
    s.birsp h line b = { s with coh := { s.coh with snoops := s.coh.snoops.erase sn } } := by
  unfold State.birsp
  simp only [snooped_of hf, bypass_none hw, hw, Bool.not_true, Bool.false_eq_true, if_false]
  unfold State.birspHandle
  simp only [hf, hst, if_true]

theorem drain_volatile (s : State) {e : WbEntry} {id f twin : Nat} (hid : e.id = id) (hdur : e.durable = false)
    (hpl : (s.page (pageOf e.line)).place = .t1 f) (hfl : s.frameLive f = true) (hroom : (s.chan (frameChan f)).writesOn (e.line % 2) < 64) :
    s.drain e twin = (State.queueWrite
            { s with near := { s.near with wb := s.near.wb.map fun x => if x.id = id then { x with draining := true, left := 1, spill := false } else x } }
            f (e.line % 64) { data := e.data, poison := e.poison } e.mask e.whole (some id) (s.drainLevel e)) := by
  unfold State.drain
  have e3 : (s.copies (s.page (pageOf e.line))).take 1 = [f] := by
    unfold State.copies
    simp only [hpl, List.cons_append, List.nil_append, List.filter_cons, hfl, if_true, List.take_succ_cons, List.take_zero]
  simp only [hdur, Bool.false_eq_true, if_false, e3, Bool.and_false, List.length_cons, List.length_nil, Nat.zero_add, Nat.add_zero, Nat.lt_irrefl,
      List.append_nil, List.foldl_nil, List.all_cons, List.all_nil, Bool.and_true, hroom, decide_true, if_true, List.foldl_cons, hid, Bool.not_false, Bool.false_and, decide_false]
  subst hid; rfl

theorem unqueue_shape (s : State) (m id : Nat) : ∃ c p, s.unqueue m id = { s with dram := { s.dram with ch := c }, pmc := p } := ⟨_, _, rfl⟩

/-- A grant changes the channels' scheduling record and counters. -/
theorem grant_shape (s : State) (m sub id prio frame : Nat) (read : Bool) : ∃ c p, s.grant m sub id prio frame read = { s with dram := { s.dram with ch := c }, pmc := p } := ⟨_, _, rfl⟩

theorem fill_empty {s : State} {line n w : Nat} {r : Region} {t : Txn} {c : LineCell} (ht : s.txn line = some t) (hr : s.regionAt line = some (n, r)) (hp : t.phase = .fill c) (hk : t.req.kind = .rdCur) (hwp : r.wpol < 2)
      (hv : s.victim (s.ownerTile line) (ncSet line) (decide (r.wpol = 3)) = some w) (hi : (s.way (s.ownerTile line) (ncSet line) w).v = false)
      (hpr : s.protAtFill r line = false) :
      s.fill line = (State.setTxn (((s.setWay (s.ownerTile line) (ncSet line) w
            { v := true, tag := ncTag line, poison := c.poison, dur := r.durable, data := c.data }).touch (s.ownerTile line) (ncSet line) w).trimProt
              (s.ownerTile line) (ncSet line) w 16)
          line (some { t with phase := .done })) := by
  obtain ⟨t1, h1⟩ : ∃ t1, t1 = (State.setWay s (s.ownerTile line) (ncSet line) w
            { v := true, tag := ncTag line, poison := c.poison, dur := r.durable, data := c.data }).touch (s.ownerTile line) (ncSet line) w := ⟨_, rfl⟩
  obtain ⟨x, y, h2⟩ := trimProt_cases (s.ownerTile line) (ncSet line) w 16 t1
  have e6 : t1.protAtFill r line = false := by rw [h1]; exact hpr
  have e7 : ∀ u : State, u.absorb n r line (s.ownerTile line) w = u := by
    intro u; unfold State.absorb; simp [hwp]
  have e8 : (t1.trimProt (s.ownerTile line) (ncSet line) w 16).txn line = some t := by rw [h2, h1]; exact ht
  unfold State.fill
  simp only [ht, hr, hp, hv, hi, Bool.false_and, Bool.false_eq_true, if_false, ← h1, e6, e7, hk]
  unfold State.finish
  simp only [e8]

theorem evict {s : State} {line w f : Nat} {x : NcWay} (hw : s.findWay (s.ownerTile line) line = some w) (ho : s.ownerTile line = s.homeTile line) (hpl : (s.page (pageOf line)).place = .t1 f)
        (hfl : s.frameLive f = true) (hx : s.way (s.ownerTile line) (ncSet line) w = x) (he : x.evicting = true) (hd : x.d = true) :
        s.evicted line =
          ((s.setCell f (line % 64) { data := x.data, poison := x.poison }).setWay (s.ownerTile line) (ncSet line) w {}) := by
  unfold State.evicted
  simp only [hw, hx, he, hd, Bool.not_true, Bool.or_self, Bool.false_eq_true, if_false]
  unfold State.writeBack
  simp only [hpl, hfl, if_true, if_pos ho]
  rfl

/-- A hand-off message is sent, and the ring counts it. -/
theorem ringMsg_cases (s : State) (m : RingMsg) (line a b : Nat) :
    ∃ p, s.ringMsg m line a b = { s with pmc := p, out := s.out ++ [.ring m line b] } := by
  obtain ⟨p, h⟩ := ringSend_cases s a b (s.handLevel line)
  exact ⟨p, by unfold State.ringMsg; rw [h]; rfl⟩

/-- A change of a channel in service that keeps its service leaves every channel's service as it is. -/
theorem service_mod (s : State) {m : Nat} {f : Channel → Channel} (hs : (s.chan m).inService = true)
    (h1 : (f (s.chan m)).inService = (s.chan m).inService) (h2 : (f (s.chan m)).retired = (s.chan m).retired) (i : Nat) :
    ((s.modChan m f).chan i).inService = (s.chan i).inService ∧ ((s.modChan m f).chan i).retired = (s.chan i).retired := by
  have hn : ∀ c : Channel, c.inService = true → c ≠ {} := by rintro c h rfl; cases h
  by_cases hi : i = m
  · subst hi
    rw [chan_mod (hn _ (h1.trans hs))]; exact ⟨h1, h2⟩
  · have e : (s.modChan m f).chan i = s.chan i := Tbl.get_put _ _ (hn _ (h1.trans hs)) hi _
    rw [e]; exact ⟨rfl, rfl⟩

theorem grant_service (s : State) {m : Nat} (sub id prio frame : Nat) (read : Bool) (hs : (s.chan m).inService = true) (i : Nat) :
    ((s.grant m sub id prio frame read).chan i).inService = (s.chan i).inService
      ∧ ((s.grant m sub id prio frame read).chan i).retired = (s.chan i).retired :=
  service_mod (s.count _ _) hs rfl rfl i

theorem unqueue_service (s : State) {m : Nat} (id : Nat) (hs : (s.chan m).inService = true) (i : Nat) :
    ((s.unqueue m id).chan i).inService = (s.chan i).inService ∧ ((s.unqueue m id).chan i).retired = (s.chan i).retired := by
  have h1 := service_mod s (f := fun c => { c with writeQ := c.writeQ.filter fun x => x.id ≠ id }) hs rfl rfl
  have h2 := service_mod (s.modChan m fun c => { c with writeQ := c.writeQ.filter fun x => x.id ≠ id })
    (f := fun c => { c with drainA := drainMode s.wqHi s.wqLo (((s.modChan m fun c => { c with writeQ := c.writeQ.filter fun x => x.id ≠ id }).chan m).writesOn 0) ((s.modChan m fun c => { c with writeQ := c.writeQ.filter fun x => x.id ≠ id }).chan m).drainA
                            drainB := drainMode s.wqHi s.wqLo (((s.modChan m fun c => { c with writeQ := c.writeQ.filter fun x => x.id ≠ id }).chan m).writesOn 1) ((s.modChan m fun c => { c with writeQ := c.writeQ.filter fun x => x.id ≠ id }).chan m).drainB })
    ((h1 m).1.trans hs) rfl rfl i
  exact ⟨h2.1.trans (h1 i).1, h2.2.trans (h1 i).2⟩

/-- What two states share that have the same memories, pages and records, and the same channels in service. -/
def SameMem (s t : State) : Prop :=
  t.dram.frames = s.dram.frames ∧ t.dram.cells = s.dram.cells ∧ t.dram.t2 = s.dram.t2 ∧ t.map = s.map ∧ t.beam = s.beam
    ∧ ∀ i, (t.chan i).inService = (s.chan i).inService ∧ (t.chan i).retired = (s.chan i).retired

/-- Where a line of a frame is read depends on the pages, the frames and which channels serve. -/
theorem t1Source_eq {s t : State} (h : SameMem s t) (f i : Nat) : t.t1Source f i = s.t1Source f i := by
  obtain ⟨h1, h2, h3, h4, h5, hc⟩ := h
  have e1 : ∀ f, t.frameLive f = s.frameLive f := fun f => by simp only [State.frameLive, (hc (frameChan f)).1, (hc (frameChan f)).2]
  have e2 : ∀ pn, t.page pn = s.page pn := fun pn => by simp only [State.page, h4]
  have e3 : ∀ f, t.frameUse f = s.frameUse f := fun f => by simp only [State.frameUse, h1]
  have e5 : ∀ p i, t.twinAt p i = s.twinAt p i := fun p i => by simp only [State.twinAt, e1]
  simp only [State.t1Source, e1, e2, e3, e5]

/-- The line of a page at a place depends on the memories and which channels serve. -/
theorem placeLine_eq {s t : State} (h : SameMem s t) (p : Place) (i : Nat) : t.placeLine p i = s.placeLine p i := by
  have e6 := t1Source_eq h
  obtain ⟨h1, h2, h3, h4, h5, hc⟩ := h
  have e4 : ∀ f i, t.cell f i = s.cell f i := fun f i => by simp only [State.cell, h2]
  have e7 : ∀ a, t.recData a = s.recData a := fun a => by simp only [State.recData, h5]
  unfold State.placeLine; simp only [e4, e6, e7, h3]

/-- The line over which a write lands depends on the memories and which channels serve. -/
theorem landBase_eq {s t : State} (h : SameMem s t) (w : DramWrite) : t.landBase w = s.landBase w := by
  have e8 := placeLine_eq h
  obtain ⟨h1, h2, h3, h4, h5, hc⟩ := h
  have e2 : ∀ pn, t.page pn = s.page pn := fun pn => by simp only [State.page, h4]
  have e3 : ∀ f, t.frameUse f = s.frameUse f := fun f => by simp only [State.frameUse, h1]
  have e4 : ∀ f i, t.cell f i = s.cell f i := fun f i => by simp only [State.cell, h2]
  unfold State.landBase
  simp only [e2, e3, e4, e8]

/-- What the issue of an access may change: the channels' records and queues and the counters. -/
def Issued (s t : State) : Prop := ∃ c p, t = { s with dram := { s.dram with ch := c }, pmc := p }

theorem Issued.trans {s t u : State} (h1 : Issued s t) (h2 : Issued t u) : Issued s u := by
  obtain ⟨c, p, rfl⟩ := h1
  obtain ⟨c', p', rfl⟩ := h2
  exact ⟨c', p', rfl⟩

theorem Issued.same {s t : State} (h : Issued s t)
    (hc : ∀ i, (t.chan i).inService = (s.chan i).inService ∧ (t.chan i).retired = (s.chan i).retired) : SameMem s t := by
  obtain ⟨c, p, rfl⟩ := h
  exact ⟨rfl, rfl, rfl, rfl, rfl, hc⟩

/-- Granting a read on some subchannels keeps every channel's service and the channel's read queue. -/
theorem grants_cases (m id prio frame : Nat) : ∀ (l : List Nat) (s : State), (s.chan m).inService = true →
    ∃ t, l.foldl (fun (s : State) sub => s.grant m sub id prio frame true) s = t ∧ Issued s t
      ∧ (∀ i, (t.chan i).inService = (s.chan i).inService ∧ (t.chan i).retired = (s.chan i).retired)
      ∧ (t.chan m).readQ = (s.chan m).readQ
  | [], s, _ => ⟨s, rfl, ⟨_, _, rfl⟩, fun _ => ⟨rfl, rfl⟩, rfl⟩
  | sub :: l, s, hs => by
    have h1 := grant_service s sub id prio frame true hs
    obtain ⟨t, ht, hi, hc, hr⟩ := grants_cases m id prio frame l (s.grant m sub id prio frame true) ((h1 m).1.trans hs)
    obtain ⟨c, p, hg⟩ := grant_shape s m sub id prio frame true
    refine ⟨t, ht, Issued.trans ⟨c, p, hg⟩ hi, fun i => ⟨(hc i).1.trans (h1 i).1, (hc i).2.trans (h1 i).2⟩, hr.trans ?_⟩
    have hn : ∀ c : Channel, c.inService = true → c ≠ {} := by rintro c h rfl; cases h
    unfold State.grant
    dsimp only
    rw [chan_mod (by exact hn _ hs)]
    rfl

/-- A read that is issued leaves its channel's queue; every channel's service stays. -/
theorem issueRead_cases (s : State) {m : Nat} (x : DramRead) (hs : (s.chan m).inService = true) :
    Issued s (s.issueRead m x)
      ∧ (∀ i, ((s.issueRead m x).chan i).inService = (s.chan i).inService ∧ ((s.issueRead m x).chan i).retired = (s.chan i).retired)
      ∧ ((s.issueRead m x).chan m).readQ = (s.chan m).readQ.filter fun y => y.id ≠ x.id := by
  obtain ⟨s1, h1⟩ : ∃ s1 : State, s1 = (match s.txn x.line with
    | some t => (match t.req.headOf with
      | some h => s.count (evHead h 6)
          (if ((List.range 2).any fun sub => x.on sub && s.turnDue (s.chan m) sub) && x.why = .line then 1 else 0)
      | none => s)
    | none => s) := ⟨_, rfl⟩
  have hp : ∃ p, s1 = { s with pmc := p } := by
    rw [h1]; split
    · split
      · exact ⟨_, rfl⟩
      · exact ⟨_, rfl⟩
    · exact ⟨_, rfl⟩
  obtain ⟨p, hp⟩ := hp
  have hc1 : ∀ i, s1.chan i = s.chan i := by rw [hp]; exact fun _ => rfl
  obtain ⟨t, ht, hi, hc, hr⟩ := grants_cases m x.id x.prio x.frame ((List.range 2).filter fun sub => x.on sub) s1 ((congrArg Channel.inService (hc1 m)).trans hs)
  have hts : (t.chan m).inService = true := (hc m).1.trans ((congrArg Channel.inService (hc1 m)).trans hs)
  have e : s.issueRead m x = (t.modChan m fun c => { c with readQ := c.readQ.filter fun y => y.id ≠ x.id }).count (evChan m 1)
      (if x.why = .line then 1 else 64) := by
    rw [← ht, h1]; rfl
  have hm := service_mod t (f := fun c => { c with readQ := c.readQ.filter fun y => y.id ≠ x.id }) hts rfl rfl
  have hn : ∀ c : Channel, c.inService = true → c ≠ {} := by rintro c h rfl; cases h
  rw [e]
  refine ⟨Issued.trans (Issued.trans ⟨_, _, hp⟩ hi) ⟨_, _, rfl⟩, fun i => ?_, ?_⟩
  · exact ⟨(hm i).1.trans ((hc i).1.trans (by rw [hc1])), (hm i).2.trans ((hc i).2.trans (by rw [hc1]))⟩
  · refine (congrArg Channel.readQ (chan_mod (f := fun c => { c with readQ := c.readQ.filter fun y => y.id ≠ x.id }) (hn _ hts))).trans ?_
    show List.filter _ (t.chan m).readQ = _
    rw [hr, hc1]

/-- Where no BIConflictAck is due, a completion sends none. -/
theorem ackConflicts_none {s : State} (h : s.coh.conflicts = []) (line : Nat) : s.ackConflicts line = s := by
  have e : ({ s.coh with conflicts := [] } : Coh) = s.coh := by rw [← h]
  unfold State.ackConflicts
  simp only [h, List.filter_nil, List.foldl_nil]
  rw [e]

/-- A completion leaves at once on a link that is not in Recovery. -/
theorem complete_now {s : State} {h : Nat} (tag : Nat) (h16 : h < 16) (hr : (s.head h).link.recovery = false) :
    s.complete h tag = s.emit (.memCmp h tag (s.devLoad h)) := by
  simp [State.complete, h16, emitTo_now, hr]

/-- A write of one frame's line lands over the line's present cell, or over its copy in the other twin frame. -/
theorem landed_cases (s : State) (w : DramWrite) (poison : Bool) :
    ∃ m, s.landed w poison
      = { s.setCell w.frame w.idx ((s.landBase w).lay w.cell.data w.mask (w.cell.poison || poison) w.whole) with map := m } := by
  unfold State.landed
  dsimp only
  split <;> exact ⟨_, rfl⟩

/-- A write that waits alone for a write-buffer entry of its tile, and is a recalled writeback, is accepted when there is room. -/
theorem retry_one {s : State} {tile n : Nat} {r : Region} {q : Req} (hwr : s.near.wbRetry = [(tile, q)])
    (htx : ∀ t, s.txn q.line = some t → t.phase ≠ .noEntry) (hreg : s.regionFor q = some (n, r))
    (hrec : s.recalledWrite q = true) (hp : r.pooled = false) (hacc : s.acceptable n { q with atP2 := true } = true) :
    s.retryWrites tile
      = (State.accept { s with near := { s.near with wbRetry := [] } } n r { q with atP2 := true }).releaseBirsps := by
  obtain ⟨t1, h1⟩ : ∃ t1 : State, t1 = { s with near := { s.near with wbRetry := [] } } := ⟨_, rfl⟩
  have e1 : t1.regionFor q = some (n, r) := by rw [h1]; exact hreg
  have e2 : t1.recalledWrite q = true := by rw [h1]; exact hrec
  have e3 : t1.txn q.line = s.txn q.line := by rw [h1]; rfl
  have e4 : t1.acceptable n { q with atP2 := true } = true := by rw [h1]; exact hacc
  have e5 : t1.retryWrite q = t1.enter q := by
    unfold State.retryWrite
    rw [e3, e1]
    cases ht : s.txn q.line with
    | none => rfl
    | some t => simp [htx t ht]
  have e6 : t1.enter q = t1.accept n r { q with atP2 := true } := by
    unfold State.enter State.writeback
    simp only [e2, if_true, e1, hp, e4, Bool.false_eq_true, if_false]
  unfold State.retryWrites
  simp only [hwr, List.filter_cons, decide_true, if_true, List.filter_nil, ne_eq, not_true, decide_false, Bool.false_eq_true, if_false,
    List.foldl_cons, List.foldl_nil]
  rw [← h1, e5, e6]

theorem reached_empty {s : State} {x : Seal} (hl : x.level = 1) (ht : x.tiles = 0) (hwb : s.near.wb = []) (hq : s.queuedWrites = []) :
    s.sealReached x = true := by
  simp [State.sealReached, State.sealProtected, hl, ht, hwb, hq]

end Sys2Proof.Laws.Traffic
end

