-- ==== Sys2Proof/Machine/Format.lean ====
section
/-! DEFINITION. The beam's formats on flash as words of 64 bits, little-endian (R279): superblock (R280), segment header (R282),
record headers (R283, R284), page-frame header (R227, R285), map and directory pages (R286), DELTA and WARM entries (R287, R290)
and spill headers (R293), with the addresses at which they lie (R270, R271, R278, R291). The commit record's words are in
Registers.lean. -/
namespace Sys2Proof.Machine

/-- Bytes from word to word of an image. -/
def imageBytes (f : Nat → Word) (first count : Nat) : List Nat :=
  (List.range count).map fun i => fld (f ((first + i) / 8)) (8 * ((first + i) % 8)) 8

/-! ### Where things lie (R270) -/

/-- LBA of superblock copy c. -/
def superLba (c : Nat) : Nat := 8 * (c % 2)
/-- First LBA of a commit slot of the ring. -/
def commitLba (slot : Nat) : Nat := 256 + 64 * (slot % 8)
/-- LBA of the header of copy c of spill record r (R293). -/
def spillLba (r c : Nat) : Nat := 1024 + 2 * (2 * (r / 8) + c)
/-- LBAs of a stripe's unit on its slot. -/
def stripeLba (n : Nat) : Nat := 17408 + 16 * n
/-- A beam sector address is valid: its data unit is below 7 and its stripe below 2^30 (R271). -/
def beamValid (a : Nat) : Bool := decide (beamUnit a < 7) && decide (beamStripe a < 2 ^ 30)

/-- The slot from i on, upward modulo 8, that is in service and is not the one named. -/
def State.nextInService (s : State) (i : Nat) (other : Option Nat) : Nat :=
  (((List.range 8).map fun k => (i + k) % 8).find? fun j => s.slotsUp.getLsbD j && other ≠ some j).getD i

/-- The slots of a spill record's two copies: r mod 8 and (r + 4) mod 8, a retired one replaced by the next in service that does
not hold the other copy (R293). -/
def State.spillSlots (s : State) (r : Nat) : Nat × Nat :=
  let up (i : Nat) : Bool := s.slotsUp.getLsbD i
  let a := if up (r % 8) then r % 8 else s.nextInService (r % 8) (some ((r + 4) % 8))
  (a, if up ((r + 4) % 8) then (r + 4) % 8 else s.nextInService ((r + 4) % 8) (some a))

/-! ### Superblock (R280) -/

/-- Words of a slot's superblock without its CRC; the SLOT_ID entries are what the drives report (Config.slotId). -/
def State.superBody (s : State) (slot i : Nat) : Word :=
  match i with
  | 0 => atBit 0x48425342 0 ||| atBit 1 32 ||| atBit (slot % 8) 48
  | 1 => s.beam.setId
  | 2 => atBit (s.beam.sbgen % 2 ^ 64) 0
  | 3 => atBit (17408 + 4096 * s.beam.segments) 0
  | 4 => atBit (s.beam.segments % 2 ^ 32) 0 ||| atBit s.beam.retired.toNat 32 ||| atBit s.beam.formed.toNat 40
  | 5 => atBit (s.beam.pageCap % 2 ^ 64) 0
  | 6 => s.beam.fmtRev &&& 0xFFFFFFFF
  | 7 => atBit (s.beam.degSeq % 2 ^ 64) 0
  | _ =>
    if i < 16 then 0
    else if i < 48 then (if i % 4 = 3 then Config.slotId ((i - 16) / 4) 3 &&& 0xFFFFFFFF else Config.slotId ((i - 16) / 4) (i % 4))
    else if i < 80 then s.keyWrapWords.getD (i - 48) 0
    else 0

/-- Words of a slot's superblock (R280): KEYWRAP from byte 384 on, CRC in the last word. -/
def State.superWord (s : State) (slot i : Nat) : Word :=
  if i = 511 then atBit (crc32c (imageBytes (s.superBody slot) 0 4092)) 32 else s.superBody slot i

/-! ### Segment header (R282) -/

/-- Words of a segment's header without its CRC. -/
def State.segBody (s : State) (g i : Nat) : Word :=
  let x := s.seg g
  match i with
  | 0 => atBit 0x48425347 0 ||| atBit 1 32
  | 1 => s.beam.setId
  | 2 => atBit (x.seq % 2 ^ 64) 0
  | 3 => atBit (g % 2 ^ 32) 0 ||| atBit x.holes.toNat 32 ||| atBit (x.stream % 8) 40
  | 4 => atBit (x.writes % 2 ^ 32) 0 ||| atBit (x.opmin % 2 ^ 32) 32
  | 5 => atBit (x.cseqBase % 2 ^ 64) 0
  | _ => 0

/-- Words of a segment's header: 512 bytes. -/
def State.segHeaderWord (s : State) (g i : Nat) : Word :=
  if i = 63 then atBit (crc32c (imageBytes (s.segBody g) 0 508)) 32 else s.segBody g i

/-! ### Record headers (R283, R284) -/

/-- KIND of a record. -/
def recCode : RecKind → Nat
  | .raw => 1 | .hpc1 => 2 | .map => 3 | .delta => 4 | .warm => 5

/-- PAGE of a record header: the page number; a MAP record's index; the entries of a DELTA or WARM record. -/
def BeamRec.pageField (r : BeamRec) : Nat :=
  match r.kind with
  | .raw | .hpc1 | .delta => r.page
  | .map => r.page % 2 ^ 33
  | .warm => r.warm.length

/-- Bits 95:0 of the header of the record at an address. -/
def BeamRec.headerLow (r : BeamRec) (addr : Nat) : Nat :=
  r.pageField % 2 ^ 33 + recCode r.kind * 2 ^ 33 + (if r.kind = .map then r.page / 2 ^ 33 % 4 else 0) * 2 ^ 37
    + beamSector addr * 2 ^ 39 + r.sectors % 16 * 2 ^ 46 + (if r.kind = .raw || r.kind = .hpc1 then r.key % 256 else 0) * 2 ^ 50
    + (match r.sw with | some k => 2 ^ 58 + k % 256 * 2 ^ 59 | none => 0)

/-- The 128-bit header of the record at an address; PCRC covers its payload as it is stored (Config.payloadCrc). -/
def BeamRec.header (r : BeamRec) (addr : Nat) : Nat := r.headerLow addr + (Config.payloadCrc addr r.seq).toNat * 2 ^ 96

/-- The records of a data unit of a stripe, in ascending OFFSET. -/
def State.unitRecs (s : State) (stripe j : Nat) : List (Nat × BeamRec) :=
  s.beam.recs.filterMap fun e => match e.2 with
    | some r => if beamStripe e.1 = stripe && beamUnit e.1 = j then some (e.1, r) else none
    | none => none

/-- Words of a unit's record header sector without HCRC: the unit header, then 30 record headers. -/
def State.unitBody (s : State) (stripe j i : Nat) : Word :=
  let x := s.seg (segOf stripe)
  let rs := s.unitRecs stripe j
  match i with
  | 0 => atBit 0x48425255 0 ||| atBit (s.beam.setId.toNat % 2 ^ 32) 32
  | 1 => atBit (x.seq % 2 ^ 64) 0
  | 2 => atBit (stripe % 2 ^ 30) 0 ||| atBit (j % 8) 32 ||| atBit (min rs.length 30) 40 ||| atBit (x.stream % 8) 45
  | 3 => 0
  | _ => match rs[(i - 4) / 2]? with
    | some r => BitVec.ofNat 64 (r.2.header r.1 / 2 ^ (64 * (i % 2)))
    | none => 0

/-- Words of a unit's record header sector: HCRC covers bytes 0 to 27 and 32 to 511. -/
def State.unitWord (s : State) (stripe j i : Nat) : Word :=
  if i = 3 then atBit (crc32c (imageBytes (s.unitBody stripe j) 0 28 ++ imageBytes (s.unitBody stripe j) 32 480)) 32
  else s.unitBody stripe j i

/-- The page-frame header of T2 sectors and of a PAGE_HPC1 record (R227, R285): page, k, BEAMV with BEAM, the swatch slot, CLEN. -/
def frameHeader (page k : Nat) (beamv : Bool) (beam : Nat) (sw : Option Nat) (clen : Nat) : Word × Word :=
  (atBit (page % 2 ^ 33) 0 ||| atBit (k % 8) 33 ||| atFlag beamv 36
      ||| (match sw with | some n => atFlag true 37 ||| atBit (n % 256) 38 | none => 0),
    atBit (if beamv then beam % 2 ^ 40 else 0) 0 ||| atBit (clen % 4096) 40)

/-- The header of a T2 page's first sector. -/
def T2Page.header (t : T2Page) : Word × Word := frameHeader t.page t.k t.beamv t.beam t.sw t.clen

/-- The header of a PAGE_HPC1 record, which names its own address. -/
def BeamRec.frameHeader (r : BeamRec) (addr : Nat) : Word × Word := Machine.frameHeader r.page r.sectors true addr r.sw r.clen

/-! ### Map pages and delta entries (R286, R287) -/

/-- A persistent entry in the layout of R224. -/
def PEntry.word (e : PEntry) : Word :=
  match e.place with
  | .zero => atBit (e.gen % 2 ^ 16) 45
  | .t3 a => atBit 3 61 ||| atBit (e.gen % 2 ^ 16) 45 ||| atBit (a % 2 ^ 40) 0
  | .poison => atBit 4 61 ||| atBit (e.gen % 2 ^ 16) 45
  | .absent => atBit 7 61

/-- A unit's binding as a delta entry holds it. -/
def Binding.word (b : Binding) : Word := atFlag b.bound 0 ||| atFlag b.bdur 1 ||| atBit (b.bkey % 256) 2

/-- An entry of a directory page (level 1) or root page (level 2) of the live map: the address of the page below, or ZERO; in a
directory entry the unit's binding. -/
def State.mapPageEntry (s : State) (level i : Nat) : Word :=
  let b := s.beam.base.units.get {} i
  (if s.beam.base.empty (level - 1) i then atFlag true 62 else atBit (s.mapRecAddr none (level - 1) i % 2 ^ 40) 0)
    ||| (if level = 1 then atFlag b.bound 40 ||| atFlag b.bdur 41 ||| atBit (b.bkey % 256) 42 else 0)

/-- A delta entry of 16 bytes. -/
def Delta.words : Delta → Word × Word
  | .page pn e => (atBit (pn % 2 ^ 33) 0, e.word)
  | .swatch slot pn e => (atBit (pn % 2 ^ 33) 0 ||| atFlag true 33 ||| atBit (slot % 256) 34, e.word)
  | .unit u bindOnly b => (atBit (u % 2 ^ 33) 0 ||| atFlag true 42 ||| atFlag bindOnly 43, b.word)

/-- An entry of a WARM record: first page and count minus one. -/
def warmWord (e : Nat × Nat) : Word := atBit (e.1 % 2 ^ 33) 0 ||| atBit (e.2 % 2 ^ 20) 33

/-! ### Spill headers (R293) -/

/-- Words of the header LBA of copy c of spill record r, without HCRC; DCRC covers the stored data LBA (Config.payloadCrc). -/
def State.spillBody (s : State) (x : SpillRec) (cseq r c i : Nat) : Word :=
  let ls := match x with | .lines _ l => l | .scratch _ _ _ => []
  match i with
  | 0 => atBit 0x48425350 0 ||| atBit (match x with | .lines _ _ => 1 | .scratch _ _ _ => 2) 32 ||| atBit (ls.length % 64) 34
      ||| atBit (c % 2) 40
  | 1 => s.beam.setId
  | 2 => atBit (cseq % 2 ^ 64) 0
  | 3 => atBit (r % 2 ^ 32) 0 ||| atBit (match x with | .lines k _ => k % 256 | .scratch k _ _ => k % 256) 32
  | 4 => atBit (match x with | .lines _ _ => 0 | .scratch _ b _ => b % 2 ^ 32) 0
  | 7 => (Config.payloadCrc r cseq).setWidth 64
  | _ =>
    if i < 8 then 0
    else if i < 71 then (match ls[i - 8]? with | some l => atBit (l.1 * 64 % 2 ^ 64) 0 | none => 0)
    else if i < 134 then (match ls[i - 71]? with | some l => l.2.2.1 | none => 0)
    else 0

/-- Words of the header LBA of copy c of spill record r. -/
def State.spillWord (s : State) (x : SpillRec) (cseq r c i : Nat) : Word :=
  if i = 511 then atBit (crc32c (imageBytes (s.spillBody x cseq r c) 0 4092)) 32 else s.spillBody x cseq r c i

/-! ### The tapestry's area headers (R523) -/

/-- Words of an area's header without its CRC: MAGIC, VERSION and AREA, SEED, BASE_RSEQ, and OPMIN and CYCLES of its creation. The spec
names the fields and not their places (DESIGN CHOICE; see the log). -/
def TapArea.body (a : TapArea) (area i : Nat) : Word :=
  match i with
  | 0 => atBit 0x48425441 0 ||| atBit 1 32 ||| atBit (area % 2) 48
  | 1 => atBit (a.seed % 2 ^ 32) 0
  | 2 => atBit (a.base % 2 ^ 24) 0
  | 3 => atBit (a.opmin % 2 ^ 32) 0 ||| atBit (a.cycles % 2 ^ 24) 32
  | _ => 0

/-- Words of an area's header, sector 0 of the area. -/
def TapArea.word (a : TapArea) (area i : Nat) : Word :=
  if i = 511 then atBit (crc32c (imageBytes (a.body area) 0 4092)) 32 else a.body area i

/-! ### The pair record (R471) -/

/-- Eight bits of a region set. -/
def regionBits (l : List Nat) (n : Nat) : Word :=
  ((List.range 64).filter fun i => l.contains (64 * n + i)).foldl (fun w i => w ||| atFlag true i) 0

/-- Words of the pair record without its CRCs. -/
def PairRec.body (p : PairRec) (i : Nat) : Word :=
  match i with
  | 0 => atBit 0x48425052 0 ||| atBit 1 32 ||| atFlag p.shutdown 48
  | 1 => p.pairId
  | 2 => p.setId
  | 3 => p.peerSet
  | 4 => atBit (p.session % 2 ^ 32) 0
  | 5 => atBit (p.cseq % 2 ^ 64) 0
  | _ =>
    if i < 64 then 0
    else if i < 128 then regionBits p.complete (i - 64)
    else if i < 192 then regionBits p.held (i - 128)
    else if i < 4288 then atBit (p.divSeqs.get 0 (i - 192) % 2 ^ 64) 0
    else 0

/-- Words of the pair record: HCRC over bytes 0 to 507, BCRC over bytes 512 to 34,303. -/
def PairRec.word (p : PairRec) (i : Nat) : Word :=
  if i = 63 then atBit (crc32c (imageBytes p.body 0 508)) 32
  else if i = 4288 then atBit (crc32c (imageBytes p.body 512 33792)) 0
  else p.body i

end Sys2Proof.Machine
end

