-- ==== Sys2Proof/WellFormed.lean ====
section
/-! DEFINITION. The ranges of a command's operands: a source is a head or the management interface (R491), a head one of
H0 to H15, a tile, slice or channel 0 to 15, a line number DPA[44:6], a page PN[32:0], a slot 0 to 7, a region 0 to 4,095,
a ring pair 0 to 65,535 (00_scope, R10, R562). A command outside them names nothing that exists; the meanings answer it by
changing nothing. -/
namespace Sys2Proof

/-- A source: a head or the management interface. -/
def okSrc (n : Nat) : Bool := n ≤ 16
/-- A head, tile, slice or channel. -/
def ok16 (n : Nat) : Bool := n < 16
/-- A slot of the beam or a port. -/
def ok8 (n : Nat) : Bool := n < 8
/-- A line: DPA[44:6]. -/
def okLine (n : Nat) : Bool := n < 2 ^ 39
/-- A page. -/
def okPage (n : Nat) : Bool := n < 2 ^ 33
/-- A region. -/
def okRegion (n : Nat) : Bool := n < 4096
/-- A ring pair. -/
def okRing (n : Nat) : Bool := n < 65536
/-- A CXL tag. -/
def okTag (n : Nat) : Bool := n < 65536
/-- A host physical address: 64 bits. -/
def okHpa (n : Nat) : Bool := n < 2 ^ 64
/-- A beam sector address. -/
def okBeam (n : Nat) : Bool := n < 2 ^ 40
/-- A DRAM frame number. -/
def okFrame (n : Nat) : Bool := n < 2 ^ 31
/-- A unit of 2 MiB. -/
def okUnit (n : Nat) : Bool := n < 2 ^ 24
/-- Operands of a request of a head. -/
def okReq (h tag hpa : Nat) : Bool := ok16 h && okTag tag && okHpa hpa

/-- Every operand of the command lies in its range. -/
def Instr.wf : Instr → Bool
  | .memRd h t a _ | .memRdData h t a _ | .memInv h t a | .memWr h t a _ _ _ | .memWrPtl h t a _ _ _ _
  | .memClnEvct h t a | .recalledWriteback h t a _ _ _ _ | .doorbellLineWrite h t a _ _ _ => okReq h t a
  | .memSpecRd h a => ok16 h && okHpa a
  | .birspI h l | .birspS h l | .birspE h l | .biConflict h l => ok16 h && okLine l
  | .openTxnClose l | .sfVictimFree l | .ncFillComplete l | .ncEvictWritebackConfirm l | .atomicAtMemory l | .accept l
  | .refuse l | .commit l | .offerReceived l | .evictHandOff l => okLine l
  | .sfRetryQueueRetry t x => ok16 t && decide (x < 131072)
  | .buddyConfirm t _ | .wbEntryDrain t _ _ | .wbRetryQueueRetry t | .tileRecoveryEnd t => ok16 t
  | .dramWriteConfirm c _ _ | .dramQueueAging c _ | .dimmTempRead c _ | .patrolScrubStep c
  | .channelRetire c | .channelRebuildEnd c | .channelTrain c _ => ok16 c
  | .gpfPhase1 h | .gpfPhase2 h | .eq128Fail h | .linkRecoveryEnter h | .linkOutOfL0Timeout h | .linkDrop h
  | .ideIntegrityFail h | .headPerst h | .cxlReset h | .functionLevelReset h | .getEventRecords h _
  | .clearEventRecords h _ _ | .getEventInterruptPolicy h | .setEventInterruptPolicy h _ | .getTimestamp h | .getSupportedLogs h
  | .getLog h | .identifyMemoryDevice h | .getPoisonList h _ _ | .doeDiscovery h | .cdatRead h | .devloadWindowEnd h _ | .hdDoorbell h _ | .quietEnd h
  | .tokenBucketRefill h _ => ok16 h
  | .altProtocolOffer h v p _ => ok16 h && decide (v < 65536) && decide (p < 65536)
  | .linkL0Reached h r w _ _ _ => ok16 h && decide (r < 3) && decide (w < 4)
  | .ideKeyProg h _ k _ | .ideKSetGo h _ k _ => ok16 h && decide (k < 2)
  | .setTimestamp s _ | .injectPoison s _ | .clearPoison s _ _ | .sanitize s | .secureErase s
  | .unsupportedMailboxOpcode s _ => okSrc s
  | .retrain s h | .brakeSet s h _ | .brakeRelease s h _ | .brakeRings s h _ => okSrc s && ok16 h
  | .laneRetire p l => ok8 p && ok8 l
  | .spdmRequest s c _ => okSrc s && decide (c < 256)
  | .custodianSet s _ | .custodyGet s | .keyDeliver s _ _ _ | .ncCtlWrite s _ | .wideClr s | .testNow s | .drill s | .shutdown s
  | .slvEn s _ | .ntcPop s _ | .pmcSet s _ | .pmcDumpEn s _ | .glbFence s | .mgmtHeadWrite s _ | .softReset s => okSrc s
  | .rgnWrite s r w _ => okSrc s && okRegion r && decide (w < 4)
  | .rgnBindingCompareDone r | .dlostClear r | .genSweep r | .taken r | .returnPkt r | .quiesceHoldTimeout r => okRegion r
  | .lockWayConvert t w | .wayPowerDown t w | .wayPowerUp t w | .ncWayRetire t w | .sfWayRetire t w => ok16 t && ok16 w
  | .probe t h g l => ok16 t && ok16 h && okTag g && okLine l
  | .offer l t => okLine l && ok16 t
  | .goneTimeout t l | .settlingTimeout t l => ok16 t && okLine l
  | .tileRetire t c => ok16 t && decide (c < 4)
  | .refresh c r g _ => ok16 c && decide (r < 4) && ok8 g
  | .dramReadComplete c _ _ l _ => ok16 c && decide (l < 64)
  | .oscillatorRead c r _ => ok16 c && decide (r < 4)
  | .rankRetire c r bad => ok16 c && decide (r < 4) && bad.all fun b => okFrame b.1 && decide (b.2.1 < 64)
  | .mark p | .cleanStart p | .cleanComplete p | .tierTransitionComplete p | .mapLineReadComplete p _
  | .tierTransitionStart p _ _ _ | .warmerFill p _ => okPage p
  | .jqLookup p l => okPage p && okLine l
  | .placementSweepStep t p _ => ok16 t && okPage p
  | .cleanSyncAnswer p t => okPage p && ok16 t
  | .mapFrameRebuild u f | .mapUnitLoad u f => okUnit u && okFrame f
  | .swatchHoldAnswer k t => decide (k < 256) && ok16 t
  | .stripeWrite m _ => decide (m < 8)
  | .unitWriteComplete _ i _ | .slotRetire i _ | .smartLogRead i _ _ | .asyncEventComplete i _ _ | .adoptRebuildEnd i => ok8 i
  | .beamReadComplete a _ | .hedgeTimeout a | .recordReconstruct a _ | .gcRelocate a => okBeam a
  | .nvmeAbort i a => ok8 i && okBeam a
  | .driveAdopt d => ok8 d.port
  | .beamAssemble ds | .firstTimeInit ds => ds.all fun d => ok8 d.port
  | .segmentFree g => decide (g < 2 ^ 32)
  | .sealL1 r | .sealL2 r | .sealL3 r | .descriptorFetch r _ _ | .descriptorStep r | .completionWrite r | .msixCoalesceTimeout r
  | .nop r | .quiesceDrain r | .quiesceHold r | .quiesceRelease r | .copy r | .fill r | .zero r | .clean r | .inval r
  | .discard r | .promote r | .demoteT2 r | .demoteT3 r | .pin r | .unpin r | .fadd r | .fand r | .atomicFor r | .swap r
  | .cas16 r | .swatchTake r | .swatchDrop r | .swatchExport r | .quiet r | .dumpNow r | .takeover r => okRing r
  | .sealSync r t => okRing r && ok16 t
  | .reserveSample v i => decide (v < 4096) && decide (i < 4096)
  | .vinSample c _ => decide (c < 4096)
  | .rngCtlEnSet s r _ | .rngCtlEnClear s r _ => okSrc s && okRing r
  | .ringContextWrite s r w _ => okSrc s && okRing r && decide (w < 4)
  | .slvTrainingStep3 r w => decide (r < 3) && decide (w < 4)
  | .slvLaneRetire l => ok8 l
  | .dataFlit h p _ _ => decide (h.cls < 4) && decide (p.length ≤ 26)
  | .nullFlit h _ => decide (h.cls < 4)
  | .rmap es => es.all fun e => okRegion e.index
  | .health h _ => decide (h < 8)
  | .mack _ h _ => decide (h < 8)
  | .mwr m _ _ _ p _ _ => okRegion m && decide (p < 8)
  | .rpage m f _ _ d => okRegion m && decide (f < 4) && d.all fun e => decide (e.1 < 64)
  | .rdone m _ => okRegion m
  | .undefinedPacket t l => decide (t < 256) && decide (l < 1024)
  | .resyncPageSend r p => okRegion r && okPage p
  | .slvReturnGo s r => okSrc s && okRegion r
  | .bucketLeak _ u | .errorCounted _ u _ _ | .unitRetire _ u | .fatalError _ u _ => decide (u < 4096)
  | .fltInjectCorrected s _ u | .fltInjectRetire s _ u => okSrc s && decide (u < 256)
  | .generate s k | .erase s k => okSrc s && decide (k < 256)
  | .tapestryFetch s i | .rftFetch s i | .trainFetch s i | .commitFetch s i => okSrc s && decide (i < 2 ^ 40)
  | .wakeAhead r | .stateExitComplete r => decide (r < 57)
  | .idxDataAccess s p _ => okSrc s && decide (p < 4)
  | .regWrite s o n _ => okSrc s && decide (o < 0x28100) && (n = 1 || n = 2 || n = 4 || n = 8)
  | .hdmDecoderCommit h d b _ _ _ _ _ _ _ => ok16 h && decide (d < 8) && okHpa b
  | .beamLinkDownTimeout p => ok8 p
  | .scrWayConvert | .scrWayReturn | .heatEpochTick | .deltaRecordWrite _ | .checkpoint | .commitRecordWrite _ | .slotAvoidEnd
  | .chargeEstimate | .testStart | .testSettled | .testEsrSample | .testDischargeEnd | .testAbort _ | .testEstimate
  | .testPostponed | .estimateAccept | .healthChange | .ledgerRecompute | .stewardWatchdogExpire | .recovery | .pfInAssert
  | .admissionStop | .flushEnergySample | .wbDrainEnd | .stage1End | .stage2End | .stage3Start | .flushCommitConfirmed
  | .stage3End | .stage4End | .holdEnDeassert | .resume | .supplyFail | .memoryActive | .coldRestoreStep6
  | .qosRateRecompute | .slvReceiverDetect | .slvRecovery | .flitBuild | .retxTimeout _ | .slvXoffIn _ | .hello _ | .helloRetry
  | .slvSpdm _ _ | .session _ | .pfNotice | .fallback | .mwrEnqueue | .rack _ | .pairHoldTimeout | .slvDivFull | .trwScrub
  | .secKeyCmdComplete | .periodicCapture | .dumpImageWritten | .tapestryMinuteSample | .tapestryFaultFlush
  | .tapestryFlushEnd | .tapestryCheck _ _ _ | .calendarEvaluate | .supplyGood _ _ | .thermalSensorRead _ | .thermtrip
  | .resetAssert | .slvL0Regained | .stewardRestartDone | .sanitizeComplete => true

end Sys2Proof
end

