-- ==== Sys2Proof/Tests/Slice0.lean ====
section
/-! SUPPORT. The model's own tests: the spec's worked examples, commands whose operands lie outside their ranges, and, for the
statements with hypotheses, states and operands that meet them together, clause by clause. -/
set_option maxRecDepth 100000
namespace Sys2Proof.Tests
open Sys2Proof Sys2Proof.Machine

/-! ### States that the tests share -/

/-- A device in operation with head 0 present and its link up; decoder 0 maps HPA 0 on to DPA 0; region 1 covers two units
with the given attributes, head 0 with READ_WRITE rights. -/
def dev (attr : Word) : State :=
  { on := true, glb := { present := 1, steward := true }, vlt := { st := .run, active := true, writable := true }, rsv := { withhold := false, health := 0 }
    heads := [(0, { link := { up := true, memOff := false, cxl := true }
                    func := { decoders := [(0, { hpaSize := 4194304, db := true, committed := true })], busMaster := true, msix := [(0, { masked := false })] } })]
    regions := [(1, { geo := 0x8000000002000000, attr := attr, acc := 3, active := true })] }
/-- Decoder 0 of that device. -/
def dec0 : Decoder := { hpaSize := 4194304, db := true, committed := true }
/-- Region 1 of that device. -/
def rgn1 (attr : Word) : Region := { geo := 0x8000000002000000, attr := attr, acc := 3, active := true }
/-- Line 1 is resident and clean. -/
def hitDev : State :=
  { dev 0 with near := { nc := [(ncKey ((dev 0).ownerTile 1) (ncSet 1) 3, { v := true, tag := ncTag 1, data := 0xAB })] } }
/-- Head 0 has a BISnpInv outstanding for line 1. -/
def snoopDev : State := { dev 0 with coh := { snoops := [⟨0, 1, .inv, false⟩] } }
/-- A read of line 1. -/
def rd1 : Req := { src := .head 0 7, kind := .rdShared, line := 1 }
/-- A transaction on line 1 in a phase. -/
def txn1 (p : Phase) (waits : BitVec 16) : Txn := ⟨rd1, waits, 0, p, [], [], 0⟩
/-- Line 1 has a transaction that awaits heads 0 and 1. -/
def recallDev : State := { dev 0 with coh := { snoops := [⟨0, 1, .inv, false⟩], txns := [(1, some (txn1 .recall 3))] } }
/-- A write-buffer entry of tile 0 for line 1. -/
def entry1 (durable confirmed : Bool) : WbEntry :=
  ⟨0, 0, 1, 0xAB, fullMask, false, 1, false, durable, 8, confirmed, false, 0, if durable && ! confirmed then [(0, 7)] else [], false, 0, false, 3, none⟩
/-- The device with that entry. -/
def wbDev (durable confirmed : Bool) : State := { dev 0 with near := { wb := [entry1 durable confirmed], wbNext := 1 } }
/-- Channel 0 in service with one rank, and page 0 in frame 1. -/
def t1Dev : State :=
  { dev 0 with
    dram := { ch := [(0, { ranks := 1, inService := true, rankFrames := 1024 })], frames := [(16, .t1 0 none)] }
    map := { pages := [(0, { place := .t1 16 })] } }
/-- A write of 64 bytes to line 1 of frame 16, queued on channel 0. -/
def dw1 : DramWrite := ⟨4, 16, 1, { data := 0xAB }, fullMask, none, 1, 0, false, true, 0⟩
/-- t1Dev with that write. -/
def dwDev : State := { t1Dev with dram := { t1Dev.dram with ch := [(0, { ranks := 1, inService := true, rankFrames := 1024, writeQ := [dw1] })] } }
/-- Its tile waits with a recalled writeback of line 1 for an entry. -/
def retryDev : State := { snoopDev with near := { wbRetry := [(0, { src := .head 0 7, kind := .wrI, line := 1, data := 0xAB, mask := fullMask })] } }
/-- A line being filled, and a line whose writeback is under way. -/
def fillDev : State := { dev 0 with coh := { txns := [(1, some { txn1 (.fill { data := 0xAB }) 0 with req := { rd1 with kind := .rdCur } })] } }
/-- See fillDev. -/
def evictDev : State :=
  { t1Dev with near := { nc := [(ncKey ((dev 0).ownerTile 1) (ncSet 1) 3, { v := true, tag := ncTag 1, d := true, data := 0xAB, evicting := true })] } }
/-- A unit's retirement is due. -/
def dueDev (k u : Nat) : State := { dev 0 with flt := { deferred := [(k, u)] } }
/-- A descriptor from its opcode, SUB and operand words 1 to 7. -/
def desc (op sub : Nat) (ws : List Word) : Line := lineOfWords ((atBit op 0 ||| atBit sub 8) :: ws)
/-- s with ring pair r of head 0 running descriptor a. -/
def onRing (s : State) (r : Nat) (a : Active) : State := { s with rng := { rings := [(r, { st := .run, act := some a })] } }
/-- Channel 0 with a rank of 32 GiB, page 0 as given, unit 0 loaded. -/
def pageDev (attr : Word) (p : PageEntry) : State :=
  { dev attr with
    dram := { ch := [(0, { ranks := 1, inService := true, rankFrames := 8388608 })], frames := match p.place with | .t1 f => [(f, .t1 0 none)] | _ => [] }
    map := { pages := [(0, p)], units := [(0, { dstate := .loaded, bound := true, bdur := flag attr 0 })] } }
/-- The beam with eight drives. -/
def beam8 : Beam := { slots := (List.range 8).map fun i => (i, { port := i, present := true }), segments := 64, pageCap := 16777216, setId := 7 }
/-- A raw record of page 0. -/
def rec0 : BeamRec := { kind := .raw, page := 0, sectors := 8, stream := 0, seq := 1, confirmed := true }
/-- The device with the vault sequencer as given. -/
def vltDev (v : Vlt) : State := { dev 1 with vlt := v }
/-- Stage 5 with HOLD_EN asserted. -/
def s5Dev (low : Bool) : State := { vltDev { st := .s5, stopped := true, hold := true } with pins := { reset := low } }
/-- A device without power. -/
def darkState : State := {}

/-! ### Commands whose operands lie outside their ranges -/

/-- A drive report at a port. -/
def drive (p : Nat) : DriveReport := ⟨p, 0x3F, true, 0, 0, 0, 0, true, 0, 2, 4, []⟩
/-- A flit header of a class. -/
def header (c : Nat) : FlitHeader := ⟨0, 0, c, false, 0, 0, false, 0, 0, 0, 0, 0, 0⟩
theorem test_ill_formed_requests :
    [Instr.memRd 16 0 0 .any, .memWr 0 65536 0 .any 0 false, .doorbellLineWrite 0 0 (2 ^ 64) 0 0 false, .memSpecRd 16 0, .birspI 0 (2 ^ 39), .openTxnClose (2 ^ 39)
    , .sfRetryQueueRetry 0 131072, .wbRetryQueueRetry 16, .channelRetire 16].all (fun c => ! c.wf) = true := by decide
theorem test_ill_formed_heads :
    [Instr.linkDrop 16, .altProtocolOffer 0 65536 0 0, .linkL0Reached 0 3 0 false false false, .linkL0Reached 0 0 4 false false false, .setEventInterruptPolicy 16 []
    , .ideKeyProg 0 0 2 0, .retrain 17 0, .brakeSet 0 16 1, .laneRetire 8 0, .laneRetire 0 8, .spdmRequest 0 256 false, .hdmDecoderCommit 0 8 0 0 1 256 0 false false true].all
      (fun c => ! c.wf) = true := by decide
theorem test_ill_formed_tables :
    [Instr.drill 17, .rgnWrite 0 4096 0 0, .rgnWrite 0 0 4 0, .dlostClear 4096, .wayPowerUp 0 16, .probe 16 0 0 0, .offer 0 16, .goneTimeout 16 0, .tileRetire 0 4
    , .refresh 0 4 0 false, .refresh 0 0 8 false, .rankRetire 0 4 [], .mark (2 ^ 33), .jqLookup 0 (2 ^ 39), .placementSweepStep 16 0 0, .cleanSyncAnswer 0 16
    , .mapUnitLoad (2 ^ 24) 0, .mapUnitLoad 0 (2 ^ 31), .swatchHoldAnswer 256 0].all (fun c => ! c.wf) = true := by decide
theorem test_ill_formed_beam :
    [Instr.stripeWrite 8 false, .slotRetire 8 0, .hedgeTimeout (2 ^ 40), .nvmeAbort 8 0, .driveAdopt (drive 8), .beamAssemble [drive 0, drive 8], .segmentFree (2 ^ 32)
    , .nop 65536, .sealSync 0 16, .reserveSample 4096 0, .reserveSample 0 4096, .vinSample 4096 false, .rngCtlEnSet 0 65536 0, .ringContextWrite 0 0 4 0].all
      (fun c => ! c.wf) = true := by decide
theorem test_ill_formed_links :
    [Instr.slvTrainingStep3 3 0, .slvLaneRetire 8, .dataFlit (header 4) [] true true, .dataFlit (header 0) (List.replicate 27 0) true true, .nullFlit (header 4) true
    , .rmap [⟨4096, 0, 0, false, 0, false⟩], .health 8 false, .mack 0 8 false, .mwr 4096 0 false false 0 0 0, .mwr 0 0 false false 8 0 0, .rpage 0 4 0 0 []
    , .rpage 0 0 0 0 [(64, 0)], .rdone 4096 0, .undefinedPacket 256 0, .undefinedPacket 0 1024, .resyncPageSend 4096 0, .slvReturnGo 17 0].all
      (fun c => ! c.wf) = true := by decide
theorem test_ill_formed_services :
    [Instr.bucketLeak .tile 4096, .fltInjectRetire 0 .tile 256, .generate 0 256, .tapestryFetch 0 (2 ^ 40), .wakeAhead 57, .idxDataAccess 0 4 none
    , .regWrite 0 0x28100 8 0, .regWrite 0 0 3 0, .beamLinkDownTimeout 8].all (fun c => ! c.wf) = true := by decide
/-- A command at the ends of its ranges is well formed. -/
theorem test_well_formed :
    [Instr.memRd 15 65535 (2 ^ 52 - 1) .any, .rgnWrite 16 4095 3 0, .laneRetire 7 7, .nop 65535, .wakeAhead 56, .refresh 15 3 7 false, .memoryActive].all
      Instr.wf = true := by decide

/-! ### The spec's worked examples -/

/-- 00_scope: HPA 0x0000_2040_0000_1A40 through a decoder from 0x0000_2000_0000_0000. -/
theorem test_scope_page : ({ hpaBase := 0x200000000000, hpaSize := 2 ^ 45 } : Decoder).toDpa 0x204000001A40 / 4096 = 0x04000001
    ∧ ({ hpaBase := 0x200000000000, hpaSize := 2 ^ 45 } : Decoder).toDpa 0x204000001A40 / 64 % 64 = 41 := by decide
/-- 03: two ways at 4 KiB, DPA base 1 TiB, HPA 0x0000_4000_1234_5678. -/
theorem test_interleaved_decoder :
    ({ hpaBase := 0x400000000000, hpaSize := 0x40000000000, ways := 2, granularity := 4096, dpaBase := 0x10000000000 } : Decoder).toDpa 0x400012345678
      = 0x100091A2678 := by decide
/-- 05: the line of that DPA has home tile 12. -/
theorem test_home_tile : hashTile (0x100091A2678 / 64) = 12 := by decide
/-- 07: page 0x1000_91A2 has map tile 1; HEAT 6 decays to 1 over two epochs. -/
theorem test_map_tile : hashMapTile 0x100091A2 = 1 ∧ ({ heat := 6, stamp := 9 } : PageEntry).effHeat 11 = 1 := by decide
/-- 06: frames of 128 GiB ranks; frame 0x2345_6787 lies on D7 in rank 1, frame 0x48D1_59E0 on D0 in rank 2. -/
def bigDev : State := { dram := { ch := [(0, { ranks := 15, rankFrames := 33554432 }), (7, { ranks := 15, rankFrames := 33554432 })] } }
theorem test_frame_rank : bigDev.frameRank 0x23456787 = 1 ∧ bigDev.frameRank 0x48D159E0 = 2 := by decide
/-- 08: eight drives of 7.68 TB give 457,759 segments and the full capacity; 19: drives of 3.84 TB, 228,877 and 4,614,127,616 pages. -/
theorem test_beam_capacity : segmentsOf 1875000000 = 457759 ∧ pageCapOf 457759 0 = 8589934592 ∧ segmentsOf 937500000 = 228877
    ∧ pageCapOf 228877 0 = 4614127616 := by decide
/-- 08: the record in stripe 1,000,003, unit 5, sector 24. -/
theorem test_record_place : beamStripe 0x3D090E98 = 1000003 ∧ beamUnit 0x3D090E98 = 5 ∧ beamSector 0x3D090E98 = 24 ∧ segOf 1000003 = 3906
    ∧ paritySlot 1000003 = 4 ∧ unitSlot 1000003 5 = 2 ∧ beamLba 0x3D090E98 = 16017459 := by decide
/-- 08: the HPC-1 stream of "warp=12;weft=12;" and 4,080 zeros. -/
theorem test_hpc1_stream :
    (hpc1Decode [0x02, 0x0B, 0x77, 0x61, 0x72, 0x70, 0x3D, 0x31, 0x32, 0x3B, 0x77, 0x65, 0x66, 0x74, 0x48, 0x07, 0xFF, 0xFF, 0xFF, 0xFF, 0xFF, 0xFF, 0xFF, 0xFD]).map
      (fun p => (p.take 16, p.length)) = some ([0x77, 0x61, 0x72, 0x70, 0x3D, 0x31, 0x32, 0x3B, 0x77, 0x65, 0x66, 0x74, 0x3D, 0x31, 0x32, 0x3B], 4096) := by decide
/-- 08: the reserve of segments at a cap of 18,209,000 pages is 694. -/
theorem test_segment_reserve : ({ rsv := { dEff := 18209000 } } : State).segReserve = 694 := by decide
/-- 09: the card of the worked example, with C_est as given: RSV_FLUSH reads 0x02BC_1E00_1C2C_8398, V_NOW 30.000 V. -/
def ledgerDev (mF : Nat) : State :=
  { on := true
    rsv := { health := 0, bank := Trw.all (atBit 12000 0 ||| atBit 30000 16 ||| atBit 1500 32 ||| atBit 100 48), flush := Trw.all 0x02BC1E001C2C8398
             volts := [30000], test := some ⟨mF, 150, 0⟩ }
    vlt := { eRem := 0 } }
theorem test_ledger_cap : (ledgerDev 2000).dMaxAt 30000 0 = 18208374 ∧ (ledgerDev 1600).dMaxAt 30000 0 = 14246264 ∧ (ledgerDev 2000).timeLimit = 25634765 := by decide
/-- 10: the same card holds 695.52 J at commit. -/
theorem test_flush_energy : (ledgerDev 2000).flushEnergy = 6955200000000 * 200 := by decide
/-- 09: the bank at 1.875 V of sense and VDIV 16.00 (code 3,072 of 4,096 at 2.5 V) is at 30.000 V. -/
theorem test_bank_voltage : ({ sense := Trw.all 1600 } : Rsv).volt 3072 = 30000 := by decide
/-- 09: DevLoad's cap component at the thresholds of D_eff = 18,208,374. -/
theorem test_cap_load : capLoad 13656280 18208374 = 0 ∧ capLoad 13656281 18208374 = 2 ∧ capLoad 15477117 18208374 = 2 ∧ capLoad 15477118 18208374 = 3 := by decide
/-- 02 and 18: the fields of region 5 of the four-host example. -/
def region5 : Region := { geo := 0x8000100000080000, attr := 0x03010051, acc := 0x1FF }
theorem test_region_fields : region5.base = 0x80000 ∧ region5.size = 0x100000 ∧ region5.valid = true ∧ region5.durable = true ∧ region5.coh = 1 ∧ region5.wpol = 1
    ∧ region5.key = 3 ∧ region5.initZero = true ∧ region5.acc2 3 = 3 ∧ region5.acc2 4 = 1 ∧ region5.legal false = true := by decide
/-- 04: pool line 1,234 of a CONTROL window at SCR_OFF 0, and window offset 0x40_0040 of a SCRATCH window at SCR_OFF 20. -/
theorem test_pool_line : ({ geo := 0, aux := 0 } : Region).poolLine 1234 % 16 = 2 ∧ ({ aux := 20 * 2 ^ 32 } : Region).poolLine (0x400040 / 64) = 720897 := by decide
/-- 14: the notice of a retired rank 29 reads 0xB210_0000_0000_001D. -/
theorem test_notice_word : Note.words ⟨2, 0x10, 29, none⟩ = [0xB21000000000001D] := by decide
/-- 12: word 0 of the COPY descriptor of the example. -/
theorem test_descriptor_word : dOp (desc 0x10 0 []) = 0x10 ∧ dTag (lineOfWords [0x00000A1100010010]) = 0xA11 ∧ dOp (lineOfWords [0x00000A1100010010]) = 0x10 := by decide
/-- 03: lane 2 of a port retired leaves an x8 head the lanes 4 to 7. -/
theorem test_lane_width : lanesWidth (List.range 8) 4 = some 2 := by decide
/-- 06: the partner of D7 is D15, and D0 where D15 is retired (R187). -/
theorem test_partner_channel : ({} : State).partnerCh 7 = 15 ∧ ({ dram := { ch := [(15, { retired := true })] } } : State).partnerCh 7 = 0 := by decide
/-- R12: a byte offset and an ordinary read of an unlisted line: memory reads as zeros. -/
theorem test_empty_memory : Tbl.get ({} : LineCell) ([] : Memory) 5 = {} := by decide
/-- The table gives no bits: no word spells a command. -/
theorem test_no_words : decodeTableWord 8 0 = none ∧ State.withFetchWord State.reset 8 0 = State.reset := by decide
/-- What a step leaves, looked at. -/
def after {α : Type} (s : State) (c : Instr) (f : State → α) : Option α :=
  match step { s with pending := [c] } with
  | .next t => some (f t)
  | _ => none
/-- 11: four x8 heads at 128 GT/s ask for 80.0, 20.0 and 8.0 GB/s of a card with 16 channels of MRDIMM-8800 and eight drives. -/
def qosDev : State :=
  { dev 0 with
    glb := { present := 15 }
    rsv := { flush := Trw.all 0x02BC1E001C2C8398 }
    heads := (List.range 4).map fun h => (h, { link := { up := true, rate := 2, width := 3, firstWidth := some 3, firstRate := 2 } })
    qos := { heads := (List.range 4).map fun h => (h, { reg := 0x40101000000000 ||| atBit 800 0 ||| atBit 200 11 ||| atBit 80 22 }) }
    dram := { ch := (List.range 16).map fun c => (c, { inService := true }) } }
theorem test_step_qos_rates :
    after qosDev .qosRateRecompute (fun t => (t.qos.gDram, t.qos.gBeam, t.qos.scaleD, t.qos.scaleB, (t.qos.heads.get {} 3).rdRate, (t.qos.heads.get {} 3).wrRate))
      = some (5400, 350, 964, 1000, 771, 192) := by decide
/-- 14: rank 1 of D7 is unit 29; the error that takes COUNT to 513 retires it, and its notice goes out. -/
def bucketDev : State :=
  { dev 0 with
    dram := { ch := (List.range 16).map fun c => (c, { ranks := 3, inService := true, rankFrames := 33554432 }) }
    flt := { buckets := [(29, { count := 512, peak := 512 })] } }
theorem test_step_rank_retires :
    after bucketDev (.errorCounted .rank 29 1 .plain) (fun t => ((t.bucket 0 29).count, (t.bucket 0 29).retired, t.flt.fifo.getLast?)) = some (513, true, some 0xB21000000000001D) := by
  decide
/-- 09: V_0 = 30.000 V, V_a = 29.955 V and I_a = 3.00 A give 15.0 milliohm, 2.000 C over 1.000 V give 2.000 F. -/
def esrDev (st : TestStep) (q : Int) (e : Option (Bool × Nat × Nat)) : State :=
  { dev 0 with rsv := { step := st, testing := st = .loaded, testSamples := 2, volts := [29955], v0 := 30000, lastI := -3000, qTest := q, est := e
                        ctl := Trw.all (atBit 1000 35) } }
theorem test_step_esr : after (esrDev .loaded 0 none) .testEsrSample (fun t => (t.rsv.va, t.rsv.est.map fun e => e.2.2)) = some (29955, some 150) := by decide
theorem test_step_capacitance : after (esrDev .computing (-200000000) (some (false, 0, 150))) .testEstimate (fun t => t.rsv.est) = some (some (false, 2000, 150)) := by
  decide
/-- 18: IDX_ADDR_0 takes INDEX 0x01_0015 with AUTO_INC; the write of RGN_ATTR moves it on. -/
def idxDev5 : State := { dev 0 with glb := { present := 1, idx := [(0, { index := 0x10015, autoInc := true })] } }
theorem test_step_idx_addr :
    after (dev 0) (.regWrite 0 0x1000 8 0x1010015) (fun t => ((t.idxPair 0 0).index, (t.idxPair 0 0).autoInc)) = some (0x10015, true) := by decide
theorem test_step_idx_data :
    after idxDev5 (.idxDataAccess 0 0 (some 0x3010051)) (fun t => ((t.idxPair 0 0).index, (t.region 5).attr)) = some (0x10016, 0x3010051) := by decide
/-- 04: four ways are converted, 2 ways locked, OFF_WAYS is 8: slices without and with a retired way 3. -/
def waysDev : State :=
  { dev 0 with near := { ctl := atBit 4 0 ||| atBit 2 4 ||| atBit 1 8 ||| atBit 8 12, curScr := 4, curLock := 2 }, boot := { retNc := BitVec.ofNat 256 (2 ^ 147) } }
theorem test_off_ways : waysDev.offTarget 0 = [6, 7, 8, 9, 10, 11] ∧ waysDev.offTarget 9 = [7, 8, 9, 10, 11] := by decide

/-- FIPS 180-4's example: the first words of the hashes of the text abc. -/
theorem test_hashes : (shaOf shaKind256 [0x61, 0x62, 0x63]).headD 0 = 0xBA7816BF
    ∧ (shaOf shaKind384 [0x61, 0x62, 0x63]).headD 0 = 0xCB00753F45A35E8B := by decide +kernel

/-- 08: the record of page 0x1000_91A2: its record header's bits 63:0, its page-frame header with CLEN in bits 51:40 of word 1
(BEAM + (24 << 40); see log entry 224), and the delta entry. -/
def warpRec : BeamRec := { kind := .hpc1, page := 0x100091A2, sectors := 1, key := 3, clen := 24, stream := 0, seq := 1 }
theorem test_record_headers : warpRec.headerLow 0x3D090E98 % 2 ^ 64 = 0x000C4C04100091A2
    ∧ warpRec.frameHeader 0x3D090E98 = (0x00000012100091A2, 0x000018003D090E98)
    ∧ (Delta.page 0x100091A2 { place := .t3 0x3D090E98, gen := 2 }).words = (0x100091A2, 0x600040003D090E98) := by decide
/-- 08: the unit's record header sector is in LBA 16,017,456, the record three LBAs on. -/
theorem test_record_lba : stripeLba 1000003 = 16017456 ∧ beamLba 0x3D090E98 = stripeLba 1000003 + 3 := by decide
/-- 15: the tweaks of line 25 of frame 0x2345_6787 and of the record at 0x3D09_0E98. -/
theorem test_tweaks : dramTweak 0x23456787 25 = 0x010000000000000000000008D159E1D9 ∧ beamTweak 0x3D090E98 = 0x0200000000000000000000003D090E98 := by decide
/-- 07: the page compressed into 3 sectors at 0x2_468A_CF05, its jacquard-cache set, and its place in the map frame. -/
theorem test_t2_entry : ({ place := .t2 0x2468ACF05 3, gen := 2, heat := 1, stamp := 11 } : PageEntry).word = 0x4000562E468ACF05
    ∧ jqSet 0x100091A2 = 0x99A2 ∧ 0x100091A2 / 512 = 0x80048 ∧ 8 * (0x100091A2 % 512) = 0xD10 := by decide
/-- 16: H2 read 80,000,000 bytes, and P1's other head is absent. -/
theorem test_derived_words : derived (false, 80000000) = 0x04C4B400 ∧ derivedPort (false, 80000000) (true, 0) = 0x8000000004C4B400 := by decide

/-! ### Hypotheses that can be met -/

/-- A queue of two commands. -/
def queueDev : State := { dev 1 with pending := [.recovery, .recovery] }
/-- The notice FIFO with n words and d notices dropped. -/
def fifoDev (n d : Nat) : State := { dev 1 with flt := { fifo := List.replicate n 0, dropped := d } }
/-- A notice of one word, one of two. -/
def note1 : Note := ⟨1, 0x35, 0, none⟩
/-- See note1. -/
def note2 : Note := ⟨1, 0x03, 0, some 5⟩
/-- A device that charges, tests, or has a FATAL error and a full FIFO. -/
def safeDev (r : Rsv) (f : Flt) : State := { dev 1 with rsv := r, flt := f }
/-- See safeDev. -/
def alertFlt : Flt := { fifo := List.replicate 1024 0, fatal := some (2, true), alert := true, alertHi := true }
/-- Stage 1 with HOLD_EN asserted. -/
def s1Hold : Vlt := { st := .s1, hold := true }

/-- See the test of that name. -/
def atTransactionsAndGpfEndClose : State := { dev 0 with coh := { txns := [(1, some (txn1 .done 0))] } }
/-- See the test of that name. -/
def atTransactionsAndGpfEndVictim : State := { dev 0 with coh := { txns := [(1, some (txn1 .victim 0))], sfWait := [(1, { rd1 with line := 2 })] } }
/-- See the test of that name. -/
def atTransactionsAndGpfEndVictim2 : Req := { rd1 with line := 2 }
/-- See the test of that name. -/
def atTransactionsAndGpfEndRetry : State := { dev 0 with coh := { retry := [(15, rd1)] } }
/-- See the test of that name. -/
def atWriteBufferEntriesMoveOnDrain : State := { t1Dev with near := (wbDev false true).near }
/-- See the test of that name. -/
def atNearCacheLinesComeAndGoFill : Txn := { txn1 (.fill { data := 0xAB }) 0 with req := { rd1 with kind := .rdCur } }
/-- See the test of that name. -/
def atNearCacheLinesComeAndGoAtomic : State := { t1Dev with coh := { txns := [(1, some (txn1 .atomicWait 0))] } }

/-- Two scratch ways are asked for; one is held. -/
def scrDev : State := { dev 0 with near := { ctl := 0x2, curScr := 1 } }
/-- One scratch way more than asked for. -/
def scrLess : State := { dev 0 with near := { ctl := 0x1, curScr := 2 } }
/-- Way 0 of slice 15 is a new locked way, clean and empty. -/
def lockDev : State := { dev 0 with near := { ctl := 0x10, curLock := 1, lockCleaning := [(15, 1)] } }
/-- Four ways are asked to be powered down; way 12 of slice 15 is up or down. -/
def offDev (off : Tbl (BitVec 16)) : State := { dev 0 with near := { ctl := 0x4100, off := off } }
/-- A hand-off record of line 1 in a state. -/
def hand (leaving gone arriving settling offered : Bool) : HandOff :=
  ⟨0, 4, leaving, gone, arriving, settling, offered, false, [], [], [(0, 7)], 0, 0, {}, {}, {}, 16⟩
/-- A device with that record. -/
def handDev (x : HandOff) : State := { dev 0 with clock := 8000, coh := { handoff := [(1, some x)] } }
/-- Head 0 pulled line 1 four times; the target is tile 4. -/
def pullDev : State := { hitDev with clock := 8000, coh := { pull := [(1, ⟨2, 4⟩)] } }
/-- A line resident away from its home is being evicted. -/
def lentDev : State :=
  { dev 0 with
    coh := { lent := [(1, some 4)] }
    near := { nc := [(ncKey 4 (ncSet 1) 3, { v := true, tag := ncTag 1, data := 0xAB, evicting := true })] } }
/-- An offer to tile 4, where line 1's snoop-filter set is full. -/
def fullDev : State :=
  { handDev (hand true false false false true) with coh := { handoff := [(1, some (hand true false false false true))]
                                                             sf := (List.range 16).map fun w => ((4 * 131072 + sfSet 1) * 16 + w, ⟨5, 1, .shared, 0⟩) } }
/-- The settling owner of line 1 is tile 4. -/
def ownDev : State :=
  { handDev (hand false true false true false) with coh := { handoff := [(1, some (hand false true false true false))], lent := [(1, some 4)] } }
/-- Line 1 is offered back to its home, with its snoop-filter entry. -/
def backDev : State :=
  { dev 0 with coh := { handoff := [(1, some { hand true false false false true with evict := true })], sf := [(sfKey 0 (sfSet 1) 0, ⟨sfTag 1, 1, .shared, 0⟩)] } }
/-- See the test of that name. -/
def atCacheControlWritesNeedManagementOther : State := { dev 0 with glb := { (dev 0).glb with mgmtHead := Trw.all 1 } }
/-- See the test of that name. -/
def atWaysChangeRolesWhenCleanRetire : State := { (dueDev 2 255).hush with near := { (dueDev 2 255).near with retiring := putBit (dueDev 2 255).near.retiring 255 true } }
/-- See the test of that name. -/
def atProbesAndHandOffsFollowTheirTablesOfferBack : HandOff := { hand true false false false true with evict := true }
/-- See the test of that name. -/
def atProbesAndHandOffsFollowTheirTablesRefuse : HandOff := { hand true false false false false with held := [rd1] }

/-- Channel 15 with a read of line 1 from frame 15 waiting, at a priority, and three postponed refreshes of each bank group of rank 0. -/
def chDev (prio : Nat) (tmp : Nat) : State :=
  { dev 0x8 with
    clock := 200000000000000
    dram := { ch := [(15, { ranks := 1, inService := true, rankFrames := 1024, postponed := (List.range 8).map fun g => (g, 3), tempMax := tmp
                            window := 1, readQ := [⟨4, 1, 15, prio, false, 0, .line⟩] })]
              frames := [(15, .t1 0 none)] }
    map := { pages := [(0, { place := .t1 15 })] }
    coh := { txns := [(1, some { txn1 .dram 0 with req := { rd1 with kind := .rdCur } })] } }
/-- A report of a DIMM in row 0: 64 GiB, two ranks. -/
def spd (ok full : Bool) : TrainReport := ⟨ok, 0, 9600, 64, 2, 130, [5], 3, [30], true, full, [9]⟩
/-- A device in a cold restore, channel 0 with a stored training record or none. -/
def coldDev (train : Tbl (Option TrainRecord)) : State := { on := true, boot := { train := train } }
/-- Channel 15 is rebuilding. -/
def rebuildDev : State := { dev 0 with dram := { ch := [(15, { retired := true, rebuild := true })] } }
/-- See the test of that name. -/
def atDramReadAnswersItsHeadOne : Txn := { txn1 .dram 0 with req := { rd1 with kind := .rdCur } }

/-- A read of beam address 2000 is out. -/
def beamRd : BeamRead := ⟨2000, 1, 3, false, false, false, false, 0, false, 0⟩
/-- Page 0 is in T3 and its read is out. -/
def t3Dev : State := { pageDev 1 { place := .t3 2000 } with beam := { beam8 with reads := [beamRd], recs := [(2000, some rec0)] } }
/-- Its promotion into frame 589840 ends. -/
def promDev : State :=
  { pageDev 1 { place := .t3 2000, moving := some ⟨.toT1, .read, 589840, false⟩ } with
    dram := { ch := [(0, { ranks := 1, inService := true, rankFrames := 8388608 })], frames := [(589840, .t1 0 none)] } }
/-- A demotion of page 0 ends. -/
def demDev : State := pageDev 1 { place := .t1 16, beamv := true, beam := 2000, moving := some ⟨.toT3, .policy, 0, false⟩ }
/-- Every frame is in use, page 0 is clean and cold. -/
def shortDev : State :=
  { pageDev 1 { place := .t1 16, beamv := true, beam := 2000 } with
    dram := { ch := [(0, { ranks := 1, inService := true, rankFrames := 4 })], frames := [(0, .system), (16, .t1 0 none), (32, .system), (48, .system)] } }
/-- The warmer runs with a list. -/
def warmDev (l : List Nat) : State :=
  { t3Dev with beam := { t3Dev.beam with reads := [] }, map := { t3Dev.map with warming := true, warm := l } }
/-- A durable write's MARK of page 0 is on its way. -/
def markDev : State := { pageDev 1 { place := .t1 16 } with map := { (pageDev 1 { place := .t1 16 }).map with marks := [⟨0, 1, 0, true⟩] } }
/-- Page 0 is dirty and first in the journal. -/
def dirtyDev : State := { pageDev 1 { place := .t1 16, dirty := true } with map := { (pageDev 1 { place := .t1 16, dirty := true }).map with journal := [(0, 1)] } }
/-- Page 0 is being cleaned; these tiles have answered. -/
def cleaning (t : BitVec 16) : State := { pageDev 1 { place := .t1 16, dirty := true, cleaning := true, synced := t } with beam := beam8 }
/-- The record of its clean is confirmed. -/
def cleaned : State :=
  { pageDev 1 { place := .t1 16, dirty := true, cleaning := true, synced := 0xFFFF, twin := some 32 } with
    beam := { beam8 with recs := [(2000, some { rec0 with purpose := .clean 0 })] } }
/-- The read of page 0 in frame 16 for its clean. -/
def cleanRd : DramRead := ⟨4, 0, 16, 5, false, 0, .clean 0⟩
/-- Every tile has answered and the read of page 0 for its clean is queued. -/
def cleanRead : State :=
  { cleaning 0xFFFF with dram := { (cleaning 0xFFFF).dram with
      ch := [(0, { ranks := 1, inService := true, rankFrames := 8388608, readQ := [cleanRd] })] } }
/-- A lookup of line 1 waits for page 0's entry. -/
def waitDev (cached : Bool) : State :=
  { pageDev 1 { place := .t1 16, cached := cached } with coh := { txns := [(1, some (txn1 .lookup 0))] } }
/-- Unit 0's map frame is lost, or the unit is still to be loaded. -/
def lostDev : State := { pageDev 1 {} with map := { rebuilding := [0] } }
/-- See lostDev. -/
def loadDev (b : UnitDir) : State := { pageDev 1 {} with map := { units := [(0, b)], mapLoad := true }, beam := { coldUnits := [0] } }
/-- waitDev with the directory entry of unit 0 cached at the tile. -/
def dirHit : State :=
  { waitDev false with map := { (waitDev false).map with units := [(0, { dstate := .loaded, bound := true, bdur := true, dirIn := 0xFFFF })] } }
/-- A SWATCH_TAKE of region 1 on ring pair 65535. -/
def takeAct : Active := { words := desc 0x50 0 [0, 1] }
/-- A swatch of region 1. -/
def sw1 (st : SwState) (waits : BitVec 16) : Swatch := { st := st, region := 1, ring := 65535, waits := waits }
/-- All 256 slots hold a swatch. -/
def fullSw : State := onRing { dev 1 with map := { swatches := (List.range 256).map fun k => (k, sw1 .live 0) } } 65535 takeAct
/-- A page descriptor over page 0. -/
def pageAct (op sub : Nat) (started : Bool) : Active := { words := desc op sub [0, 0, 4096], started := started, pages := [0] }
/-- A clean page 0 at rest in frame 16, with its ring. -/
def restDev (op sub : Nat) : State := onRing { pageDev 1 { place := .t1 16, beamv := true, beam := 2000 } with beam := beam8 } 65535 (pageAct op sub true)
/-- restDev with a page whose words are all 1. -/
def onesDev (op sub : Nat) : State :=
  { restDev op sub with dram := { (restDev op sub).dram with
      ctl := 0x1030005F18, cells := (List.range 64).map fun i => (16 * 64 + i, { data := lineOfWords (List.replicate 8 1) }) } }
/-- A dirty line of page 0 is resident, and ring pair 65535 maintains page 0. -/
def dirtyLine : NcWay := { v := true, tag := ncTag 63, d := true, data := 0xAB }
/-- See dirtyLine. -/
def maintDev (op : Nat) : State :=
  onRing { pageDev 0 { place := .t1 16 } with near := { nc := [(ncKey 15 (ncSet 63) 3, dirtyLine)] } } 65535 (pageAct op 0 true)
/-- See the test of that name. -/
def atPagesMoveBetweenTiersEpoch : State := { dev 0 with clock := 200000007, map := { epoch := 15 } }
/-- See the test of that name. -/
def atSwatchesAreTakenAndDroppedSweep : State := { dev 1 with map := { gens := [(1, { sweep := true })] } }
/-- See the test of that name. -/
def atSwatchesAreTakenAndDroppedCut : State := { dev 1 with map := { swatches := [(255, sw1 .taking 0x8000)] } }
/-- See the test of that name. -/
def atSwatchesAreTakenAndDroppedExport : State := { dev 1 with map := { swatches := [(255, sw1 .exporting 0)] } }

/-- A SCRATCH window with line 2 of the pool as given, and a ring that runs a descriptor. -/
def scratch (c : LineCell) (r : Nat) (a : Active) : State := onRing { dev 0x2000 with near := { scr := [(2, c)] } } r a
/-- A mover to line 1. -/
def mover (op : Nat) : Active := { words := desc op 0 [64, 128, 64, 0x1122334455667788] }
/-- An atomic on bytes 120 to 127, or 112 to 127. -/
def atomic (sub : Nat) (res : Word) : Active := { words := desc 0x40 sub [if sub = 4 then 112 else 120, res, 0, 5, 0, 9, 0] }
/-- A QUIESCE of region 1 with requests of it under way or not, and holds. -/
def quiesceDev (sub : Nat) (started : Bool) (busy : Bool) (hs : List QHold) : State :=
  { onRing { dev 0 with coh := { txns := if busy then [(1, some (txn1 .lookup 0))] else [] } } 65535 { words := desc 3 sub [0, 1], started := started } with
    rng := { (onRing (dev 0) 65535 { words := desc 3 sub [0, 1], started := started }).rng with qholds := hs } }
/-- A SEAL of region 1 as a whole. -/
def sealAct (lvl : Nat) : Active := { words := desc 2 (lvl + 512) [0, 1] }
/-- Its sync waits for tile 15. -/
def sealOut (lvl : Nat) : Seal := { ring := 65535, level := lvl, region := 1, lo := 0, hi := 65535, tiles := 0x8000 }
/-- The device with that seal. -/
def sealDev (lvl : Nat) : State :=
  { onRing { dev 1 with beam := beam8 } 65535 (sealAct lvl) with rng := { (onRing (dev 1) 65535 (sealAct lvl)).rng with seals := [sealOut lvl] } }
/-- See the test of that name. -/
def atSealsSyncTheTilesL3 : State := { dev 1 with beam := beam8 }

/-- A ring context as it is, without a descriptor. -/
def ringDev (r : Nat) (x : Ring) : State := { dev 0 with rng := { rings := [(r, x)] } }
/-- Queues of 2 entries in host memory, doorbells by MMIO, enabled. -/
def hostRing (st : RingSt) : Ring := { sq := 0x21, cq := 0x21, ctl := 0x5, st := st }
/-- A CONTROL window in region 1 and a ring whose doorbell is line 65535 of it. -/
def lineBell : State := { dev 0x1000 with rng := { rings := [(65535, { hostRing .idle with ctl := 1, cqTail := 1 })] } }
/-- A head that is not the management head, with a brake state. -/
def brakeDev (b : Brake) : State :=
  { dev 0 with glb := { present := 3, mgmtHead := Trw.all 1 }
               heads := [(0, { link := { up := true, memOff := false, cxl := true }, brake := b })] }
/-- A ring at work. -/
def workRing (a : Active) (st : RingSt) : Ring := { hostRing st with act := some a }
/-- A window of four requests of head 0 with one demoted, or none. -/
def loadDev2 (l : Load) (b : Budget) : State :=
  { dev 0 with clock := 20000, heads := [(0, { link := { up := true, memOff := false, cxl := true }, load := l })], qos := { heads := [(0, b)] } }
/-- Counters with the dump ring off or on: host memory of head 0, 2 images, 1 us. -/
def pmcDev (p : Pmc) : State := { dev 0 with clock := 2000, pmc := p }
/-- See pmcDev. -/
def pmcOn : Pmc := { dctl := 0x400003, run := true, dhead := 0 }
/-- An image whose bytes are not yet written. -/
def img1 : DumpImg := ⟨0, [], [], none, [], 0, 0, 0, true, [], false, false⟩
/-- See the test of that name. -/
def atRingContextsTakeTheirWordsRefuse : Machine.Ring := { hostRing .off with ctl := 0 }
/-- See the test of that name. -/
def atRingContextsTakeTheirWordsEnable : Machine.Ring := { hostRing .off with ctl := 4 }
/-- See the test of that name. -/
def atDoorbellsMoveTheirRingsMmio : Machine.Ring := { hostRing .idle with cqTail := 1 }
/-- See the test of that name. -/
def atDescriptorsStartAndCompleteFetch : Machine.Ring := { hostRing .run with sqTail := 1 }
/-- See the test of that name. -/
def atDescriptorsStartAndCompleteWaits : Machine.Ring := { hostRing .run with sqTail := 1, cqTail := 1 }
/-- See the test of that name. -/
def atDescriptorsStartAndCompleteCoalesced : State := { ringDev 65535 { hostRing .idle with ctl := 0x100005, coalN := 1 } with clock := 2000 }
/-- See the test of that name. -/
def atDescriptorsStartAndCompleteCoalesced2 : Machine.Ring := { hostRing .idle with ctl := 0x100005, coalN := 1 }
/-- See the test of that name. -/
def atRatesBucketsAndLoadsRefill : State := { dev 0 with clock := 7 }
/-- See the test of that name. -/
def atRatesBucketsAndLoadsRefill2 : Budget := { ({} : Budget) with rd := min (Budget.rdCap {}) (Budget.rd {} + Budget.rdRate {} * 7), wr := min (Budget.wrCap {}) (Budget.wr {} + Budget.wrRate {} * 7), bm := min (Budget.bmCap {}) (Budget.bm {} + Budget.bmRate {} * 7), filledAt := 7 }

/-- A device whose head 0 is as given and is the management head. -/
def headDev (x : Head) : State := { dev 0 with heads := [(0, x)] }
/-- Its link as given, the rest at reset. -/
def lnkDev (l : Link) : State := headDev { link := l }
/-- A link that is up at 128 GT/s, full width. -/
def upLink : Link := { up := true, memOff := false, cxl := true, rate := 2, width := 3, firstWidth := some 3 }
/-- The timestamp was set at cycle 0. -/
def stampDev : State := { dev 0 with clock := 2000, ports := { stamp := 5, stampAt := some 0 } }
/-- Head 0's warning log holds one record, with handle 7. -/
def logDev : State :=
  { dev 0 with heads := [(0, { link := { up := true, memOff := false, cxl := true }, func := { events := [⟨1, 7, ⟨.vendor, 3, 0⟩⟩] } })] }
/-- A link that has trained nothing yet. -/
def newLink : Link := { memOff := false }
/-- A link at 64 GT/s with the extended protocol agreed. -/
def at64 : Link := { up := true, memOff := false, cxl := true, rate := 1, width := 3, flit256 := true, extAgreed := true, recovery := true, firstWidth := some 3 }
/-- A link with the extended protocol agreed, in Recovery, after some failed equalisations. -/
def recLink (n : Nat) : Link := { upLink with recovery := true, extAgreed := true, ext128 := true, eqFails := n }
/-- A head with an IDE stream in use and ring pair 65535. -/
def ideDev : State :=
  { headDev { link := recLink 0, func := { ide := [(0, { key0 := some 1, inUse := some 0 })] } } with
    clock := 20000000
    rng := { rings := [(65535, { ctl := 1, st := .idle })] } }
/-- A head with a brake of its own, a committed decoder, and a ring. -/
def resetHead : Head := { link := upLink, func := { decoders := [(0, dec0)], busMaster := true }, brake := { self := true } }
/-- See resetHead. -/
def resetDev : State := { headDev resetHead with rng := { rings := [(65535, { ctl := 1, st := .idle })] } }
/-- A head with no decoder, a key set and a link of full width. -/
def svcHead : Head := { link := upLink, func := { ide := [(1, { key1 := some 9 })] } }
/-- That head with a narrow link. -/
def narrowHead : Head := { svcHead with link := { upLink with width := 1 } }
/-- Lane 7 of port 7 is to be retired; head 15 is the one of its lanes. -/
def laneDev (x : Head) : State := { dueDev 6 63 with glb := { present := 0xC001, steward := true }, heads := [(14, x)] }
/-- That head with a secured session. -/
def sessionDev : State := { headDev svcHead with sec := { spdm := [(0, 3)] } }

/-- The device with a beam. -/
def bmDev (b : Beam) (clock : Nat := 0) : State := { dev 1 with beam := b, clock := clock }
/-- Segment 1 is open for host records, and its stripe is being filled. -/
def stripeDev : State :=
  bmDev { beam8 with segs := [(1, { st := .opened, seq := 1, next := 255, holes := 1 })], seqNext := 2
                     bufs := [(0, some ⟨1, 511, 0, 16, 1, [523272], 0⟩)], recs := [(523272, some { rec0 with confirmed := false })] } 20000
/-- A stripe is out: its units at slots as given. -/
def outDev (v : BitVec 8) : State :=
  bmDev { beam8 with recs := [(523272, some { rec0 with confirmed := false })], outs := [⟨511, v, false, [523272], 5, 0, 0⟩] }
/-- The record over its delta entries. -/
def deltaRec (s : State) : BeamRec :=
  { kind := .delta, page := (s.beam.deltas.take 256).length, sectors := ((s.beam.deltas.take 256).length + 31) / 32
    deltas := s.beam.deltas.take 256, stream := 4, seq := 0 }
/-- One delta entry is not yet written. -/
def deltaDev : State := bmDev { beam8 with deltas := [.page 0 { place := .t3 2000 }], deltaAt := [0] } 2000000
/-- What appending gives, or nothing. -/
def appended (s : State) (k : Nat) (r : BeamRec) : Nat × State := (s.append k r).getD (0, {})
/-- Stage 3 of a flush whose records are confirmed, of a shutdown or not. -/
def s3Dev (orderly : Bool) : State := { bmDev beam8 with vlt := { st := .s3, orderly := orderly } }
/-- Segment 1 is being emptied; page 0's record lies in it. -/
def gcDev : State :=
  { pageDev 1 { place := .t3 262144 } with
    beam := { beam8 with segs := [(1, { st := .full, seq := 1 })], seqNext := 2, recs := [(262144, some rec0)], gc := true, gcSeg := some 1 } }
/-- Segment 1 is full and empty of live records. -/
def fullSeg : Seg := { st := .full, seq := 1, moved := 3 }
/-- See fullSeg. -/
def freeDev : State := bmDev { beam8 with segs := [(1, fullSeg)], recs := [(262144, some rec0)], commit := some { cseq := 3 } }
/-- A beam read that is out. -/
def read1 (hedged rebuilt bad : Bool) : BeamRead := ⟨2000, 1, 3, hedged, rebuilt, bad, false, 0, false, 400000⟩
/-- The device with that read. -/
def readDev (r : BeamRead) : State := bmDev { beam8 with ctl := 0x78, reads := [r], recs := [(2000, some rec0)] } 4000000000
/-- A RdCurr of head 0 waits for the record; region 1 has NOALLOC. -/
def waitTxn : Txn := { txn1 (.beam 2000) 0 with req := { rd1 with kind := .rdCur } }
/-- See waitTxn. -/
def serveDev : State :=
  { dev 8 with
    beam := { beam8 with reads := [read1 false false false], recs := [(2000, some { rec0 with content := [(1, { data := 5 })] })] }
    coh := { txns := [(1, some waitTxn)] } }
/-- The read of a relocation, and the device with it. -/
def gcRead : BeamRead := ⟨2000, 1, 5, false, false, false, true, 0, false, 0⟩
/-- See gcRead. -/
def moveDev : State := bmDev { beam8 with reads := [gcRead], recs := [(2000, some rec0)] }
/-- That device with the read ended. -/
def readDone : State := { moveDev.hush with beam := { moveDev.beam with reads := [] } }
/-- Slot 7 with its drive at port 7, and a retirement due, an immediate cause, or a port down. -/
def slotDev (x : Slot) (due : List (Nat × Nat)) : State :=
  { bmDev { beam8 with slots := [(7, x)] } 7200000000000 with flt := { deferred := due } }
/-- See slotDev. -/
def slot7 (fail : Nat) : Slot := { port := 7, present := true, fail := fail }
/-- A blank drive at port 7 that meets every condition. -/
def blank7 : DriveReport := ⟨7, 0x3F, true, 0, 0, 0, 279552, true, 0, 2, 4, []⟩
/-- Slot 7 is retired. -/
def holeDev : State := bmDev { beam8 with ctl := 0x878, slots := beam8.slots.take 7, retired := 0x80 }
/-- See the test of that name. -/
def atRecordsAreWrittenAndConfirmedLast : BeamRec := { rec0 with confirmed := false }
/-- See the test of that name. -/
def atCommitsAndSegmentsCheckpoint : Beam := { beam8 with ctl := 0x10000000, deltaSegs := [1] }
/-- See the test of that name. -/
def atCommitsAndSegmentsInForce : Beam := { beam8 with ckpt := true }
/-- See the test of that name. -/
def atBeamReadsEndRelocate : BeamRec := { rec0 with purpose := .move 2000 }
/-- See the test of that name. -/
def atBeamReadsEndAvoidEnd : Beam := { beam8 with reads := [read1 false false false], avoided := some 3, avoidAt := 5 }
/-- See the test of that name. -/
def atDrivesComeAndGoRebuilt : Beam := { beam8 with rebuild := some 7 }

/-- The device with a reserve manager. -/
def rsvDev (r : Rsv) : State := { dev 0 with rsv := r }
/-- A bank record: V_MIN 12,000 mV, V_CHG 48,000 mV, C_FLOOR 500 mF, ESR_MAX 400. -/
def bankW : Word := 0x019001F4BB802EE0
/-- The reserve manager with that bank, in health, its step and its samples. -/
def rsvAt (st : TestStep) (vs : List Nat) : Rsv :=
  { bank := Trw.all bankW, health := 1, withhold := false, ctl := Trw.all 0x1F45DC181804, step := st, volts := vs }
/-- A test may start now. -/
def testDev : State := rsvDev { rsvAt .idle [48000] with testDue := some 0 }
/-- A test that awaits a sample. -/
def loadedRsv : Rsv := { rsvAt .loaded [47000] with testing := true, testSamples := 2, v0 := 48000, lastI := -5000 }
/-- A discharge that has run its voltage, or its time, out. -/
def dropRsv (n : Nat) : Rsv := { rsvAt .discharging [45000] with testing := true, testSamples := n, va := 47000 }
/-- A test that is computed. -/
def compRsv : Rsv := { rsvAt .computing [45000] with qTest := -200000000, est := some (false, 0, 200) }
/-- An estimate to be judged. -/
def estRsv (chg : Bool) (mF : Nat) : Rsv := { rsvAt .idle [48000] with est := some (chg, mF, 200) }
/-- A reserve manager that has settled for 100 samples. -/
def settledRsv : Rsv := { rsvAt .settling [48000] with testSamples := 100 }
/-- A reserve manager with a whole board record. -/
def boardRsv : Rsv := { rsvAt .idle [48000] with flush := Trw.all 0x0C80FA0000A96384 }
/-- A reserve manager with a cause of FAULT. -/
def faultRsv : Rsv := { boardRsv with fcause := 2 }
/-- Accumulators hold a sample, a fault waits for its flush. -/
def faultDue : State := { dev 0 with tap := { due := true, accs := [(0x1400, { n := 1 })] }, boot := { opmin := 5 } }
/-- A draft of a severity and an area. -/
def draft (sev area : Nat) : Line := lineOfWords [atBit sev 8 ||| atBit area 10]
/-- A flush with one record left, the two areas as given. -/
def flushDev (d : Line) (ord sev : TapArea) : State := { dev 0 with tap := { out := [d], flushing := true }, boot := { tapOrd := ord, tapSev := sev } }
/-- A full area of one record. -/
def fullArea (n : Nat) (l : Line) : TapArea := { slots := List.replicate n (0, l) }
theorem foldl_replicate_fix {α β : Type} (f : β → α → β) (b : β) (a : α) (h : f b a = b) : ∀ n, (List.replicate n a).foldl f b = b
  | 0 => rfl
  | n + 1 => by rw [List.replicate_succ, List.foldl_cons, h, foldl_replicate_fix f b a h n]
theorem fullArea_victim (n sev : Nat) (l : Line) (h : min 3 (tapSevOf l) < sev) (h3 : tapSevOf l ≤ 3) : (fullArea (n + 1) l).victim sev = some (0, l) := by
  have e : (List.replicate (n + 1) ((0 : Nat), l)).foldl (fun m e => min m (tapSevOf e.2)) 3 = tapSevOf l := by
    rw [List.replicate_succ, List.foldl_cons, foldl_replicate_fix _ _ _ (by simp)]
    show min 3 (tapSevOf l) = tapSevOf l
    omega
  simp only [TapArea.victim, fullArea, e]
  rw [if_pos (by omega), List.filter_replicate_of_pos (by simp), List.replicate_succ, List.foldl_cons, foldl_replicate_fix _ _ _ (by simp)]
theorem fullArea_length (n : Nat) (l : Line) : (fullArea n l).slots.length = n := by simp [fullArea]
theorem fullArea_noVictim (n sev : Nat) (l : Line) (h : sev ≤ tapSevOf l) (h3 : tapSevOf l ≤ 3) : (fullArea (n + 1) l).victim sev = none := by
  have e : (List.replicate (n + 1) ((0 : Nat), l)).foldl (fun m e => min m (tapSevOf e.2)) 3 = tapSevOf l := by
    rw [List.replicate_succ, List.foldl_cons, foldl_replicate_fix _ _ _ (by simp)]
    show min 3 (tapSevOf l) = tapSevOf l
    omega
  simp only [TapArea.victim, fullArea, e]
  rw [if_neg (by omega)]
/-- A device in a cold restore with an empty area at RSEQ 3 of base 4, or one missing record. -/
def tapRestore (n : Nat) : State :=
  { on := true, boot := { tapOrd := { base := 4, chain := some (n, 0) }, tapSev := { base := 4, chain := some (3, 0) } } }
/-- The device with power states as given; head 0 quiet until a cycle. -/
def pwrDev (p : Pwr) : State := { dev 0 with pwr := p, glb := { present := 1 } }
/-- See the test of that name. -/
def atTestsMeasureTheBankPostponed : State := { rsvDev { rsvAt .idle [] with testDue := some 0 } with boot := { opmin := 240 } }
/-- See the test of that name. -/
def atTestsMeasureTheBankPostponed2 : Rsv := { rsvAt .idle [] with testDue := some 0 }
/-- See the test of that name. -/
def atTestsMeasureTheBankCharge : Rsv := { rsvAt .idle [] with chgSpan := some ⟨45000, 300000000, 47000, false⟩ }
/-- See the test of that name. -/
def atReserveGivesTheCapSample : State := { rsvDev boardRsv with clock := 20000 }
/-- See the test of that name. -/
def atTapestryKeepsItsRecordsMinute : State := { dev 0 with clock := 120000000000, tap := { minute := [(0x1400, 5)], vinMin := some 11900 } }
/-- See the test of that name. -/
def atResourcesRestAndWakeAhead : State := { pwrDev { low := 1, quiet := [(0, 10)] } with rsv := { ctl := {} } }

/-- The device with a selvedge link. -/
def slvDev (v : Slv) : State := { dev 0 with slv := v, beam := { beam8 with setId := 9 } }
/-- The link with EN set, its pair, in L0 or not. -/
def slvAt (p : PairSt) (l0 : Bool) : Slv := { ctl := 0x402401005, pairId := Trw.all 77, pair := p, l0 := l0, width := 3, rate := 1 }
/-- A link that seeks, with a receiver detected. -/
def seekSlv : Slv := { slvAt .seek false with detected := true }
/-- A link in Recovery. -/
def recSlv (p : PairSt) : Slv := { slvAt p false with recovering := true }
/-- A pair on HOLD since cycle 0, with a source in SYNC. -/
def holdSlv : Slv := { recSlv .hold with rgns := [(1, { mst := 3 })] }
/-- See holdSlv: 50 us later. -/
def holdDev (v : Slv) : State := { slvDev v with clock := 100000 }
/-- Region 1 is a source whose partner is region 5, or a MIRROR window. -/
def srcRgn (attr : Word) : Region := { geo := 0x8000000002000000, attr := attr, acc := 0, aux := 5, active := true }
/-- See srcRgn. -/
def mirDev (attr : Word) (v : Slv) : State := { slvDev v with regions := [(1, srcRgn attr)] }
/-- Lane 7 of the selvedge link is to be retired. -/
def laneDue (v : Slv) : State := { slvDev v with flt := { deferred := [(8, 7)] } }
/-- A HELLO packet of the partner. -/
def helloOf (id set : Word) : HelloPacket := ⟨glbId, glbRev, id, set, 4, true, 1⟩
/-- A link that may not narrow. -/
def wideSlv : Slv := { slvAt .seek true with ctl := 0x402401065 }
/-- A HELLO was refused a second ago. -/
def refusedSlv : Slv := { slvAt .seek true with refused := true }
/-- A HELLO was taken; this device follows or leads. -/
def metSlv (f : Bool) : Slv := { slvAt .seek true with peer := some (helloOf 77 8), follow := f }
/-- The keys are set and the follower waits for SESSION. -/
def keyedSlv : Slv := { metSlv true with ide := true }
/-- A mirrored write of the last page of region 1. -/
def mwr1 : Mwr := { id := 0, region := 1, line := 65535, data := 0xAB, mask := fullMask, be := false, at_ := 0, tile := 0, seq := 6 }
/-- A paired link with that write waiting, its region's state and FIFO. -/
def mwrSlv (x : SlvRgn) (fifo : Tbl (List (Word × Bool))) (out : List (Nat × Option Nat)) : Slv :=
  { slvAt .paired true with ide := true, delay := [mwr1], rgns := [(1, x)], tx := { fifo := fifo }, pagesOut := out }
/-- See mwrSlv. -/
def mwrDev (v : Slv) : State := { mirDev 2 v with clock := 1000 }
/-- Region 1 in SYNC. -/
def sync1 : SlvRgn := { mst := 3 }
/-- C1 is full. -/
def fullC1 : Tbl (List (Word × Bool)) := [(1, List.replicate 65536 (0, false))]
theorem fullC1_room (s : State) (n : Nat) (h : s.slv.tx.fifo = fullC1) (hn : 0 < n) : s.slvRoom 1 n = false := by
  have e : (fullC1.get [] 1).length = 65536 := List.length_replicate
  unfold State.slvRoom
  rw [h, e]
  exact decide_eq_false (by simp only [fifoCap]; omega)
/-- A paired link whose regions are as given. -/
def pairSlv (rs : Tbl SlvRgn) (out : List (Nat × Option Nat)) : Slv := { slvAt .paired true with ide := true, rgns := rs, pagesOut := out, session := 5 }
/-- A resync of two pages of region 1 runs. -/
def resync1 : SlvRgn := { mst := 2, set := [1023, 0] }
/-- That resync where the page is on the beam. -/
def beamPageDev : State := { mirDev 2 (pairSlv [(1, { mst := 2, set := [1023, 0] })] []) with map := { pages := [(1023, { place := .t3 2000 })] } }
/-- A pairing where region 1 has a mirror state. -/
def sideDev (attr : Word) (p : PairSt) (x : SlvRgn) (es : List RmapEntry) : State := mirDev attr { slvAt p true with rgns := [(1, x)], rmap := es }
/-- The partner's entry for the window that matches region 1. -/
def entry5 (w : Bool) : RmapEntry := ⟨5, 2, 1, w, 0, false⟩
/-- A TAKEOVER of every region that can be taken. -/
def takeAll : Active := { words := lineOfWords [0x40070] }
/-- A TAKEOVER of region 1. -/
def takeover : Active := { words := desc 0x70 0 [0, 1] }
/-- See takeover. -/
def takeoverDev (attr : Word) (p : PairSt) (x : SlvRgn) : State := onRing (sideDev attr p x []) 65535 takeover
/-- The divergence of region 1 holds two DELTA segments and may hold one. -/
def divDev : State :=
  { mirDev 2 { ctl := 0x10000005, rgns := [(1, { mst := 4, div := 3 })] } with
    beam := { beam8 with segs := [(1, { st := .full, stream := 4, seq := 3 }), (2, { st := .opened, stream := 4, seq := 4 })] } }
/-- A header of class c. -/
def hdr (q c n : Nat) (nv : Bool) : FlitHeader := ⟨q, 4095, c, false, n, 0, nv, 0, 0, 0, 0, 0, 0⟩
/-- A link in L0 with its keys. -/
def l0Slv : Slv := { slvAt .paired true with ide := true }
/-- Its transmitter as given. -/
def txSlv (t : SlvTx) : Slv := { l0Slv with tx := t }
/-- The device with that link, 4 us on. -/
def timedDev (v : Slv) : State := { slvDev v with clock := 8000 }
/-- The device as the next flit is chosen. -/
def builtDev (s : State) : State := (s.hush.modTx fun x => { x with builtAt := s.clock }).queueAcks.pushWaiting.slvThreshold
theorem built_eq (s : State) : (s.hush.modTx fun x => { x with builtAt := s.clock }).queueAcks.pushWaiting.slvThreshold = builtDev s := rfl
/-- A flit waits to be resent. -/
def askFlit : SlvFlit := { seq := 4095, cls := 0, words := [1], sentAt := 0, resent := 3, ask := true }
/-- A packet of C1 and one of C3 wait, with credits; it is the turn of C3. -/
def turnTx : SlvTx := { fifo := [(1, [(0x110, true)]), (3, [(0x130, true)])], credits := [(0, 64), (1, 256), (2, 64), (3, 128), (4, 1024)], turn := 7, sentHealth := some (0, false) }
/-- See the test of that name. -/
def atSelvedgeLinkAndPairingDiverges : State := { mirDev 2 holdSlv with clock := 100000 }
/-- See the test of that name. -/
def atSelvedgeLinkAndPairingRetry : State := { slvDev refusedSlv with clock := 2000000000 }

/-- A device with a beam, the keys' state and the boot flash as given; region 1 is DURABLE and names key 0. -/
def keyDev (x : Sec) (b : Boot) : State := { dev 1 with sec := x, boot := b, beam := beam8 }
/-- Slot 255 holds a salt, one unit is bound with it. -/
def saltSec (c : Option KeyCmd) : Sec := { salts := [(255, 5)], cmd := c }
/-- See saltSec. -/
def boundDev : State :=
  { keyDev (saltSec none) {} with
    map := { units := [(1023, { dstate := .loaded, bound := true, bdur := true, bkey := 255 })], pages := [(523776, { place := .t3 2000 })] } }
/-- A device without a beam whose flash names a set, or none. -/
def beamlessDev (x : Word) : State := { dev 1 with sec := { waitKey := true, spdm := [(0, 3)] }, vlt := { st := .restore }, boot := { setId := x } }
/-- The drives of set 9, whose check value is as given. -/
def set9 (check : Word) : List DriveReport := (List.range 8).map fun i => ⟨i, 0x3F, false, 9, i, 4, 279552, true, check, 2, 4, []⟩
/-- Memory is active; Sanitize does not run, or runs for head 0 with new keys. -/
def sanDev (x : Sec) : State := keyDev x {}

/-- It in a state, with one sample below both codes before, and PF_IN_EN as given. -/
def vltAt (st : VState) (pf : Bool) (n : Nat) : Vlt :=
  { ctl := if pf then Trw.all 4 else {}, st := st, active := true, writable := true, lowBrace := n, lowCommit := n }
/-- The device with the vault sequencer as given, 20 us after reset. -/
def vltOn (v : Vlt) : State := { vltDev v with clock := 20000 }
/-- It braced. -/
def braced : Vlt := { vltAt .restore true 1 with braceOn := true }
/-- Head 0 is braked. -/
def brakedDev : State := { vltDev (vltAt .run true 0) with heads := [(0, { link := { up := true, memOff := false, cxl := true }, brake := { self := true } })] }
/-- 5,000 samples at or above the recovery code. -/
def goodVlt : Vlt := { vltAt .brace true 0 with good := 5000 }
/-- A device whose head 15 is present and is not the management head. -/
def otherHead : State := { dev 1 with glb := { present := 0x8001, steward := true }, heads := [(15, { link := { up := true, memOff := false, cxl := true } })] }
/-- Stage 1 of a flush that began at cycle 0; a clean of page 0 runs. -/
def stopDev : State := { pageDev 1 { place := .t1 16, dirty := true, cleaning := true } with vlt := { st := .s1, hold := true }, clock := 64 }
/-- Stage 1 after admission stop, its write buffers as given. -/
def s1Dev (es : List WbEntry) : State := { vltDev { st := .s1, hold := true, stopped := true } with near := { wb := es }, clock := 20000 }
/-- An entry marked SPILL. -/
def spillEntry : WbEntry := ⟨0, 0, 1, 0xAB, fullMask, false, 1, false, true, 8, true, false, 0, [], true, 0, false, 3, none⟩
/-- Stage 1 with the write buffers drained; line 63 is dirty in the near cache, or nothing is there. -/
def cacheDev (nc : Tbl NcWay) (skip : Bool) : State :=
  { pageDev 1 { place := .t1 16 } with vlt := { st := .s2, hold := true, stopped := true, drained := true, skipScratch := skip }, near := { nc := nc } }
/-- See cacheDev. -/
def dirty63 : NcWay := { v := true, tag := ncTag 63, d := true, data := 0xAB }
/-- Stage 2, stopped at cycle 0; one page is left, or none; its energy is spent. -/
def s2Dev (left orderly : Bool) : State :=
  { pageDev 1 { place := .t1 16, dirty := left } with vlt := { st := .s2, stopped := true, stage1 := true, orderly := orderly } }
/-- Stages 1 and 2 have ended with one page left. -/
def s2Ended : State := { s2Dev true false with vlt := { st := .s2, stopped := true, stage1 := true, stage2 := true } }
/-- A commit record of a flush is out. -/
def outCommit : CommitOut := ⟨{ cseq := 5, kind := .flush, short := true }, 3⟩
/-- See outCommit. -/
def confirmDev : State := { vltDev { st := .s3, stopped := true } with beam := { beam8 with commitOut := some outCommit } }
/-- A stage of a flush, with the slots of a bitmap in use. -/
def endDev (v : Vlt) (up : BitVec 8) : State :=
  { vltDev v with rsv := { flush := Trw.all 0xFFFF00000 }, beam := { beam8 with slots := (bitsOf up).map fun i => (i, { port := i, present := true }) } }
/-- Stage 3 with its commit in force, with that energy. -/
def s3End (e : Nat) : Vlt := { st := .s3, stopped := true, drivesDone := true, eRem := e, floor := Trw.all 0xFFFFFFFFFFFFFFFF }
/-- Stage 4, of a flush, a shutdown or a soft reset. -/
def s4End (orderly soft : Bool) : Vlt := { st := .s4, stopped := true, orderly := orderly, soft := soft }
/-- A flush after recovery. -/
def resumeDev : State := { vltDev { st := .wait, stopped := true, drivesDone := true, recovered := true } with pins := { reset := false } }
/-- A boot flash whose records and images are good. -/
def goodFlash : FlashReport := ⟨[⟨1, 0, 7, true⟩], [], 0, [], []⟩
/-- A device without power, its boot flash as given. -/
def darkDev (b : Boot) : State := { boot := b, pending := [.supplyFail] }
/-- See the test of that name. -/
def atCommitsFollowTheSupplyRestarted : State := { dev 1 with glb := { restarts := 1 } }

/-- A device with key 0 loaded whose region 4095 is as given. -/
def rgnDev (r : Region) : State := { dev 1 with sec := { salts := [(0, 5)] }, beam := beam8, near := { curScr := 1 }, regions := [(4095, r)] }
/-- Two units from unit 16,777,214 on. -/
def topGeo : Word := 0x8000000002FFFFFE
/-- An entry of them with these attributes, ACTIVE or not, and head 0's rights. -/
def topRgn (attr : Word) (a : Bool) : Region := { geo := topGeo, attr := attr, acc := 3, active := a }
/-- It waits for the binding comparison; its first unit is bound as given. -/
def keepDev (k : Nat) : State :=
  { rgnDev { topRgn 1 false with err := 0x0A } with map := { units := [(16777214, { dstate := .loaded, bound := true, bdur := true, bkey := k })] } }
/-- It lost data. -/
def lostRgn : Region := { topRgn 1 true with dlost := true }
/-- Head 15, which is not the management head, writes. -/
def strangerDev : State := { rgnDev (topRgn 1 true) with glb := { present := 0x8001, steward := true }, heads := [(15, { link := { up := true, memOff := false, cxl := true } })] }
/-- See the test of that name. -/
def atRegionEntriesComeAndGoLost : Region := { topRgn 1 true with took := some 0 }
/-- See the test of that name. -/
def atRegionEntriesComeAndGoOutside : Region := { topRgn 1 false with geo := 0x2FFFFFF }
/-- See the test of that name. -/
def atRegionEntriesComeAndGoKeeps : Region := { topRgn 1 false with geo := 0x2FFFFFE }
/-- See the test of that name. -/
def atRegionEntriesComeAndGoZeroes : Region := { topRgn 0x10001 false with geo := 0x2FFFFFE }
/-- See the test of that name. -/
def atRegionEntriesComeAndGoScratch : Region := { topRgn 0x2004 false with geo := 0x2FFFFFE }

/-- A device in a cold restore. -/
def restoreDev (b : Beam) (x : Boot) (st : Straps) : State := { on := true, glb := { steward := true, straps := st }, beam := b, boot := x, sec := { wrap := { ours := true, bkek := 7 } } }
/-- No strap set. -/
def noStraps : Straps := ⟨0xFF, 0, 0, false, false, false⟩
/-- A strap that allows the first use of a beam, or the release of a recorded set. -/
def initStraps : Straps := ⟨0xFF, 0, 0, false, true, false⟩
/-- See initStraps. -/
def freeStraps : Straps := ⟨0xFF, 0, 0, false, false, true⟩
/-- n drives of set 9, from slot 0 on. -/
def drives9 (n : Nat) : List DriveReport := (List.range n).map fun i => ⟨i, 0x3F, false, 9, i, 4, 279552, true, 0, 2, 4, []⟩
/-- n blank drives. -/
def blanks (n : Nat) : List DriveReport := (List.range n).map fun i => ⟨i, 0x3F, true, 0, 0, 0, 279552, true, 0, 2, 4, []⟩
/-- The commit record that the drives hold. -/
def commit5 : Commit := { cseq := 5, seqNext := 3, regions := [(7, { geo := 0x8000000002000000, active := true })] }
/-- The boot flash records set 9. -/
def boot9 : Boot := { setId := 9 }
/-- A beam is assembled; step 6 finds these spills and regions. -/
def step6Dev (sp : List SpillRec) (rs : Tbl Region) : State :=
  { restoreDev { beam8 with commit := some { cseq := 5, spills := sp } } boot9 noStraps with
    regions := rs, sec := { salts := [(0, 5)] }
    map := { units := [(0, { dstate := .zero, bound := true, bdur := true })], pages := [(0, { place := .t1 16 })] } }
/-- An entry that was in force. -/
def wasRgn (attr : Word) : Region := { geo := 0x8000000002000000, attr := attr, acc := 3, wasInForce := true }
/-- Step 6 has ended; head 15 has trained. -/
def readyDev : State :=
  { restoreDev beam8 boot9 noStraps with vlt := { step6 := true }, heads := [(15, { link := { up := true } })] }

/-- A bucket of a unit, the retirements that wait, and a selvedge link that is down. -/
def bktDev (k u n : Nat) (due : List (Nat × Nat)) : State :=
  { dev 1 with flt := { buckets := [(256 * k + u, { count := n, peak := n })], deferred := due }, clock := 2000000000000 }
/-- It flushes. -/
def bktStop (k u n : Nat) : State := { bktDev k u n [] with vlt := { st := .s1, stopped := true } }
/-- Tile 15 is to be retired; channel 15 is out of use. -/
def tileDev : State := { dueDev 4 15 with dram := { ch := [(15, { retired := true })] } }
/-- Tile 15, and another, recover. -/
def tileRec (v : BitVec 16) : State := { dev 1 with coh := { recovering := v } }
/-- Line 1 is resident and clean in way 3 of tile 0. -/
def sramWay : NcWay := { v := true, tag := ncTag 1, data := 0xAB }
/-- The device where way 3 of line 1's set holds a line, or none given the plain one, and the side word as given. -/
def sramDev (x : NcWay) (side : BitVec 25) : State :=
  { dev 0 with near := { nc := [(ncKey 0 (ncSet 1) 3, if x.v then x else sramWay)], side := [(ncKey 0 (ncSet 1) 3, side)] } }
/-- Way 15 of every slice belongs to the scratch pool. -/
def scrWayDev : State := { dev 1 with near := { curScr := 1 } }
/-- Head 15 is not the management head. -/
def head15 : State := { dev 1 with glb := { present := 0x8001, steward := true }, heads := [(15, { link := { up := true, memOff := false, cxl := true } })] }
/-- A word of one notice waits; or a FATAL error stands. -/
def ntcDev (ws : List Word) (f : Option (Nat × Bool)) : State := { dev 1 with flt := { fifo := ws, fatal := f } }
/-- VLT_FLOOR in three copies. -/
def trwDev (a b c : Word) : State := { dev 1 with vlt := { floor := ⟨a, b, c⟩ }, clock := 2000000 }
/-- See the test of that name. -/
def atErrorsFillBucketsAndRetireUnitsMarked : NcWay := { sramWay with d := true }
/-- See the test of that name. -/
def atErrorsFillBucketsAndRetireUnitsEntriesMove : State := { tileRec 0x8001 with near := { wb := [{ entry1 true true with tile := 15 }] } }

/-- IDX pair 3 of head 0 points at a register. -/
def idxDev (i : Nat) (inc : Bool) : State := { dev 1 with glb := { present := 1, steward := true, idx := [(3, { index := i, autoInc := inc })] } }
/-- Head 15 is not the management head. -/
def head15p : State := { dev 1 with glb := { present := 0x8001, steward := true, idx := [(63, { index := 0x60000 })] }, heads := [(15, { link := { up := true, memOff := false, cxl := true } })] }
/-- One record of the tapestry. -/
def tapDev : State := { dev 1 with boot := { tapOrd := { slots := [(5, 7)] } } }
/-- Vector 2,047 of head 0 is masked and pends. -/
def pendDev : State := { dev 1 with heads := [(0, { link := { up := true, memOff := false, cxl := true }, func := { msix := [(2047, { pend := true })] } })] }

theorem witness_StepTakesTheFrontCommand :
    -- front
    ((queueDev.pending = [Instr.recovery, Instr.recovery]))
    -- empty
    ∧ (((dev 1).pending = []))
    -- dark
    ∧ ((darkState.on = false))
    -- runs
    ∧ (((dev 1).on = true)) := by decide
theorem witness_EveryRunStaysSafe_reset :
    (State.reset.Safe) :=
  (by unfold State.Safe; decide)
theorem witness_EveryRunStaysSafe_runs :
    (State.reset.Safe) :=
  (by unfold State.Safe; decide)
theorem witness_EveryRunStaysSafe_charging :
    (((safeDev { charging := true : Rsv } { : Flt }).rsv.charging = true))
    ∧ (exec Instr.recovery (safeDev { charging := true : Rsv } { : Flt }) = Host.Outcome.next (safeDev { charging := true : Rsv } { : Flt })) :=
  ⟨by decide,
    (by rfl)⟩
theorem witness_EveryRunStaysSafe_testing :
    (((safeDev { testing := true : Rsv } { : Flt }).rsv.testing = true))
    ∧ (exec Instr.recovery (safeDev { testing := true : Rsv } { : Flt }) = Host.Outcome.next (safeDev { testing := true : Rsv } { : Flt })) :=
  ⟨by decide,
    (by rfl)⟩
theorem witness_EveryRunStaysSafe_alert :
    (((safeDev { : Rsv } alertFlt).flt.fatal.isSome = true))
    ∧ (exec Instr.recovery (safeDev { : Rsv } alertFlt) = Host.Outcome.next (safeDev { : Rsv } alertFlt)) :=
  ⟨by decide,
    (by rfl)⟩
theorem witness_EveryRunStaysSafe_mark :
    ((min (fld (safeDev { : Rsv } alertFlt).flt.wm 0 11) 1024 ≤ (safeDev { : Rsv } alertFlt).flt.fifo.length))
    ∧ (exec Instr.recovery (safeDev { : Rsv } alertFlt) = Host.Outcome.next (safeDev { : Rsv } alertFlt)) :=
  ⟨by decide,
    (by rfl)⟩
theorem witness_AnUnpoweredDeviceTakesNoCommand_most :
    ((darkState.on = false)
      ∧ (Instr.recovery ≠ Instr.resetAssert))
    ∧ (darkState.Safe)
    ∧ (∀ (st : Straps) (ok : FlashReport), Instr.recovery ≠ Instr.supplyGood st ok) :=
  ⟨by decide,
    (by unfold State.Safe; decide),
    (by intro _ _ e; cases e)⟩
theorem witness_NoticesEnterWholeOrAreCounted :
    -- enters
    (((fifoDev 1022 0).flt.dropped = 0) ∧ ((fifoDev 1022 0).flt.fifo.length + note2.words.length ≤ 1024))
    -- drops
    ∧ (((fifoDev 1023 0).flt.dropped = 0) ∧ (1024 < (fifoDev 1023 0).flt.fifo.length + note2.words.length))
    -- overflow
    ∧ (((fifoDev 1022 3).flt.dropped ≠ 0) ∧ ((fifoDev 1022 3).flt.fifo.length + note1.words.length + 1 ≤ 1024))
    -- dropsAgain
    ∧ (((fifoDev 1022 3).flt.dropped ≠ 0) ∧ (1024 < (fifoDev 1022 3).flt.fifo.length + note2.words.length + 1))
    -- bounded
    ∧ (((fifoDev 1024 3).flt.fifo.length ≤ 1024))
    -- quiet
    ∧ ((note2.sev < 2)) := by and_intros <;> decide
theorem witness_ResetWaitsForTheHold :
    -- low
    (((s5Dev true).on = true) ∧ ((s5Dev true).vlt.hold = true))
    -- resets
    ∧ (((s5Dev true).on = true) ∧ ((s5Dev true).vlt.hold = true) ∧ ((s5Dev true).vlt.st = VState.s5) ∧ ((s5Dev true).pins.reset = true))
    -- falls
    ∧ (((s5Dev false).on = true) ∧ ((s5Dev false).vlt.hold = true) ∧ ((s5Dev false).vlt.st = VState.s5) ∧ ((s5Dev false).pins.reset = false))
    -- notYet
    ∧ (((vltDev s1Hold).on = true) ∧ ((vltDev s1Hold).vlt.hold = true) ∧ ((vltDev s1Hold).vlt.st ≠ VState.s5)) := by and_intros <;> decide
theorem witness_RequestsAnswerTheirHead :
    -- read
    ((hitDev.admits 0 64 false dec0 1 (rgn1 0)) ∧ (hitDev.atRest (dec0.toDpa 64 / 64)) ∧ ((rgn1 0).coh = 0)
      ∧ (Instr.memRd 0 5 64 Meta.any = Instr.memRd 0 5 64 Meta.any ∨ Instr.memRd 0 5 64 Meta.any = Instr.memRdData 0 5 64 Meta.any)
      ∧ (hitDev.resident (rgn1 0) (dec0.toDpa 64 / 64) = some 3))
    -- miss
    ∧ (((pageDev 0 { place := Place.t1 16 : PageEntry }).admits 0 64 false dec0 1 (rgn1 0))
      ∧ ((pageDev 0 { place := Place.t1 16 : PageEntry }).atRest (dec0.toDpa 64 / 64)) ∧ ((rgn1 0).coh = 0)
      ∧ (Instr.memRdData 0 5 64 Meta.any = Instr.memRd 0 5 64 Meta.any ∨ Instr.memRdData 0 5 64 Meta.any = Instr.memRdData 0 5 64 Meta.any)
      ∧ ((pageDev 0 { place := Place.t1 16 : PageEntry }).resident (rgn1 0) (dec0.toDpa 64 / 64) = none) ∧ ((rgn1 0).pooled = false)
      ∧ (((pageDev 0 { place := Place.t1 16 : PageEntry }).linePlace (rgn1 0) (dec0.toDpa 64 / 64)).isSome = true))
    -- noData
    ∧ (((dev 0).admits 0 64 false dec0 1 (rgn1 0)) ∧ ((dev 0).atRest (dec0.toDpa 64 / 64)) ∧ ((rgn1 0).coh = 0) ∧ (0 < 16)
      ∧ (Instr.memInv 0 5 64 = Instr.memInv 0 5 64 ∨ Instr.memInv 0 5 64 = Instr.memClnEvct 0 5 64))
    -- evict
    ∧ (((dev 0).admits 0 64 false dec0 1 (rgn1 0)) ∧ ((dev 0).atRest (dec0.toDpa 64 / 64)) ∧ ((rgn1 0).coh = 0) ∧ (0 < 16)
      ∧ (Instr.memClnEvct 0 5 64 = Instr.memInv 0 5 64 ∨ Instr.memClnEvct 0 5 64 = Instr.memClnEvct 0 5 64))
    -- spec
    ∧ (((dev 0).on = true) ∧ (Tbl.get 0 (dev 0).pwr.quiet 0 = 0)) := by and_intros <;> decide
theorem witness_WritesTakeTheirEntries :
    -- volatileFull
    (((dev 0).admits 0 64 true dec0 1 (rgn1 0)) ∧ (0 < 16) ∧ ((rgn1 0).pooled = false) ∧ ((rgn1 0).mirror = false) ∧ ((rgn1 0).wpol = 0)
      ∧ ((dev 0).findWay ((dev 0).ownerTile (dec0.toDpa 64 / 64)) (dec0.toDpa 64 / 64) = none)
      ∧ ((dev 0).mergeEntry ((dev 0).ownerTile (dec0.toDpa 64 / 64)) 1 (dec0.toDpa 64 / 64) = none)
      ∧ ((dev 0).wbRoom ((dev 0).ownerTile (dec0.toDpa 64 / 64)) true = true) ∧ ((dev 0).wbRoom ((dev 0).ownerTile (dec0.toDpa 64 / 64)) false = true)
      ∧ (((dev 0).gen 1).hold = false) ∧ ((dev 0).atRest (dec0.toDpa 64 / 64)) ∧ ((rgn1 0).coh = 0)
      ∧ ((Instr.memWr 0 5 64 Meta.any 171 false, fullMask) ∈ [(Instr.memWr 0 5 64 Meta.any 171 false, fullMask), (Instr.memWrPtl 0 5 64 Meta.any 171 1 false, 1)]))
    -- durablePartial
    ∧ (((dev 1).admits 0 64 true dec0 1 (rgn1 1)) ∧ (0 < 16) ∧ ((rgn1 1).pooled = false) ∧ ((rgn1 1).mirror = false) ∧ ((rgn1 1).wpol = 0)
      ∧ ((dev 1).findWay ((dev 1).ownerTile (dec0.toDpa 64 / 64)) (dec0.toDpa 64 / 64) = none)
      ∧ ((dev 1).mergeEntry ((dev 1).ownerTile (dec0.toDpa 64 / 64)) 1 (dec0.toDpa 64 / 64) = none)
      ∧ ((dev 1).wbRoom ((dev 1).ownerTile (dec0.toDpa 64 / 64)) true = true) ∧ ((dev 1).wbRoom ((dev 1).ownerTile (dec0.toDpa 64 / 64)) false = true)
      ∧ (((dev 1).gen 1).hold = false) ∧ ((dev 1).atRest (dec0.toDpa 64 / 64)) ∧ ((rgn1 1).coh = 0)
      ∧ ((Instr.memWrPtl 0 5 64 Meta.any 171 1 false, 1) ∈ [(Instr.memWr 0 5 64 Meta.any 171 false, fullMask), (Instr.memWrPtl 0 5 64 Meta.any 171 1 false, 1)]))
    -- recalled
    ∧ ((snoopDev.admits 0 64 true dec0 1 (rgn1 0)) ∧ (0 < 16) ∧ ((rgn1 0).pooled = false) ∧ ((rgn1 0).mirror = false) ∧ ((rgn1 0).wpol = 0)
      ∧ (snoopDev.findWay (snoopDev.ownerTile (dec0.toDpa 64 / 64)) (dec0.toDpa 64 / 64) = none)
      ∧ (snoopDev.mergeEntry (snoopDev.ownerTile (dec0.toDpa 64 / 64)) 1 (dec0.toDpa 64 / 64) = none)
      ∧ (snoopDev.wbRoom (snoopDev.ownerTile (dec0.toDpa 64 / 64)) true = true) ∧ (snoopDev.wbRoom (snoopDev.ownerTile (dec0.toDpa 64 / 64)) false = true)
      ∧ ((snoopDev.gen 1).hold = false) ∧ (snoopDev.snooped 0 (dec0.toDpa 64 / 64) = true)
      ∧ (∀ (t : Txn) (x : LineCell), snoopDev.txn (dec0.toDpa 64 / 64) = some t → t.phase ≠ Phase.fill x))
    -- waiting
    ∧ ((retryDev.on = true) ∧ (retryDev.near.wbRetry = [(0, { src := Src.head 0 7, kind := ReqKind.wrI, line := 1, data := 171, mask := fullMask : Req })])
      ∧ (retryDev.coh.heldBirsp = [])
      ∧ (retryDev.regionFor { src := Src.head 0 7, kind := ReqKind.wrI, line := 1, data := 171, mask := fullMask : Req } = some (1, rgn1 0))
      ∧ ({ src := Src.head 0 7, kind := ReqKind.wrI, line := 1, data := 171, mask := fullMask : Req }.src = Src.head 0 7)
      ∧ ({ src := Src.head 0 7, kind := ReqKind.wrI, line := 1, data := 171, mask := fullMask : Req }.writes = true) ∧ (0 < 16)
      ∧ ({ src := Src.head 0 7, kind := ReqKind.wrI, line := 1, data := 171, mask := fullMask : Req }.mute = false)
      ∧ ({ src := Src.head 0 7, kind := ReqKind.wrI, line := 1, data := 171, mask := fullMask : Req }.poison = false)
      ∧ (retryDev.snooped 0 { src := Src.head 0 7, kind := ReqKind.wrI, line := 1, data := 171, mask := fullMask : Req }.line = true)
      ∧ (∀ (t : Txn), retryDev.txn { src := Src.head 0 7, kind := ReqKind.wrI, line := 1, data := 171, mask := fullMask : Req }.line = some t → t.phase = Phase.recall)
      ∧ ((retryDev.head 0).link.recovery = false) ∧ ((rgn1 0).pooled = false) ∧ ((rgn1 0).mirror = false)
      ∧ (retryDev.findWay (retryDev.ownerTile { src := Src.head 0 7, kind := ReqKind.wrI, line := 1, data := 171, mask := fullMask : Req }.line) { src := Src.head 0 7, kind := ReqKind.wrI, line := 1, data := 171, mask := fullMask : Req }.line = none)
      ∧ (retryDev.mergeEntry (retryDev.ownerTile { src := Src.head 0 7, kind := ReqKind.wrI, line := 1, data := 171, mask := fullMask : Req }.line) 1 { src := Src.head 0 7, kind := ReqKind.wrI, line := 1, data := 171, mask := fullMask : Req }.line = none)
      ∧ (retryDev.wbRoom (retryDev.ownerTile { src := Src.head 0 7, kind := ReqKind.wrI, line := 1, data := 171, mask := fullMask : Req }.line) { src := Src.head 0 7, kind := ReqKind.wrI, line := 1, data := 171, mask := fullMask : Req }.be = true)
      ∧ ((retryDev.gen 1).hold = false)) := by
  and_intros <;> first | decide | (intro _ _ h; cases h)
theorem witness_SnoopAnswersAreTaken :
    -- answer
    ((recallDev.on = true)
      ∧ (List.find? (fun x => decide (x.head = 0) && decide (x.line = 1)) recallDev.coh.snoops = some { head := 0, line := 1, kind := Snp.inv : Snoop })
      ∧ (recallDev.writebackWaits 0 1 = false) ∧ ({ head := 0, line := 1, kind := Snp.inv : Snoop }.stale = false)
      ∧ (recallDev.txn 1 = some (txn1 Phase.recall 3)) ∧ ((txn1 Phase.recall 3).phase = Phase.recall) ∧ (putBit (txn1 Phase.recall 3).waits 0 false ≠ 0)
      ∧ ((Instr.birspI 0 1, Birsp.i) ∈ [(Instr.birspI 0 1, Birsp.i), (Instr.birspS 0 1, Birsp.s), (Instr.birspE 0 1, if { head := 0, line := 1, kind := Snp.inv : Snoop }.kind = Snp.cur then Birsp.e else Birsp.i)])) := by decide
theorem witness_TransactionsAndGpfEnd :
    -- close
    ((atTransactionsAndGpfEndClose.on = true) ∧ (atTransactionsAndGpfEndClose.txn 1 = some (txn1 Phase.done 0)) ∧ ((txn1 Phase.done 0).phase = Phase.done)
      ∧ (atTransactionsAndGpfEndClose.paid 1 (txn1 Phase.done 0) = true) ∧ ((txn1 Phase.done 0).queue = []))
    -- victim
    ∧ ((atTransactionsAndGpfEndVictim.on = true) ∧ (atTransactionsAndGpfEndVictim.txn 1 = some (txn1 Phase.victim 0))
      ∧ ((txn1 Phase.victim 0).phase = Phase.victim) ∧ ((txn1 Phase.victim 0).waits = 0) ∧ ((txn1 Phase.victim 0).queue = [])
      ∧ ((atTransactionsAndGpfEndVictim.near.wbRetry.any fun e => decide (e.2.line = 1)) = false)
      ∧ (atTransactionsAndGpfEndVictim.coh.sfWait = [(1, atTransactionsAndGpfEndVictim2)]) ∧ (atTransactionsAndGpfEndVictim2.line ≠ 1)
      ∧ (atTransactionsAndGpfEndVictim.txn atTransactionsAndGpfEndVictim2.line = none) ∧ (Tbl.wf none atTransactionsAndGpfEndVictim.coh.txns = true))
    -- retry
    ∧ ((atTransactionsAndGpfEndRetry.on = true) ∧ (atTransactionsAndGpfEndRetry.coh.retry = [(15, rd1)]) ∧ (sfSet rd1.line = sfSet 1)
      ∧ (atTransactionsAndGpfEndRetry.sfRoom 15 rd1 = true) ∧ (atTransactionsAndGpfEndRetry.recallRoom rd1 = true)
      ∧ ((atTransactionsAndGpfEndRetry.coh.sfWait.any fun x => decide (x.2.line = rd1.line)) = false) ∧ (atTransactionsAndGpfEndRetry.txn rd1.line = none))
    -- gpf
    ∧ (((dev 0).on = true) ∧ ((dev 0).memOn 0 = true) ∧ ((dev 0).near.wb = []) ∧ ((dev 0).queuedWrites = []) ∧ ((dev 0).rng.seals = [])
      ∧ ((dev 0).vlt.stopped = false) ∧ (0 < 16)) := by and_intros <;> decide
theorem witness_WriteBufferEntriesMoveOn :
    -- buddy
    (((wbDev true false).on = true) ∧ (List.find? (fun e => decide (e.id = 0) && decide (e.tile = 0)) (wbDev true false).near.wb = some (entry1 true false))
      ∧ ((entry1 true false).confirmed = false) ∧ ((entry1 true false).waiters = [(0, 7)]) ∧ (0 < 16) ∧ ((wbDev true false).rng.seals = [])
      ∧ ((wbDev true false).coh.conflicts = []) ∧ (((wbDev true false).head 0).link.recovery = false))
    -- drain
    ∧ ((atWriteBufferEntriesMoveOnDrain.on = true)
      ∧ (List.find? (fun e => decide (e.id = 0) && decide (e.tile = 0)) atWriteBufferEntriesMoveOnDrain.near.wb = some (entry1 false true))
      ∧ (atWriteBufferEntriesMoveOnDrain.drainable (entry1 false true) = true) ∧ ((entry1 false true).id = 0) ∧ ((entry1 false true).durable = false)
      ∧ ((atWriteBufferEntriesMoveOnDrain.page (pageOf (entry1 false true).line)).place = Place.t1 16) ∧ (atWriteBufferEntriesMoveOnDrain.frameLive 16 = true)
      ∧ ((atWriteBufferEntriesMoveOnDrain.chan (frameChan 16)).writesOn ((entry1 false true).line % 2) < 64)) := by and_intros <;> decide
theorem witness_DramWriteLandsInItsLine :
    -- one
    ((dwDev.on = true) ∧ (dwDev.memWf = true) ∧ ((dwDev.chan 0).inService = true) ∧ (dw1.idx < 64)
      ∧ (List.find? (fun w => decide (w.id = 4)) (dwDev.chan 0).writeQ = some dw1) ∧ (dwDev.writeIssues 0 dw1 = true) ∧ (dw1.entry = none)) := by decide
theorem witness_NearCacheLinesComeAndGo :
    -- fill
    ((fillDev.on = true) ∧ (fillDev.txn 1 = some atNearCacheLinesComeAndGoFill) ∧ (fillDev.regionAt 1 = some (1, rgn1 0))
      ∧ (atNearCacheLinesComeAndGoFill.phase = Phase.fill { data := 171 : LineCell }) ∧ (atNearCacheLinesComeAndGoFill.req.kind = ReqKind.rdCur)
      ∧ ((rgn1 0).wpol < 2) ∧ (fillDev.victim (fillDev.ownerTile 1) (ncSet 1) (decide ((rgn1 0).wpol = 3)) = some 0)
      ∧ ((fillDev.way (fillDev.ownerTile 1) (ncSet 1) 0).v = false) ∧ (fillDev.protAtFill (rgn1 0) 1 = false))
    -- evict
    ∧ ((evictDev.on = true) ∧ (evictDev.findWay (evictDev.ownerTile 1) 1 = some 3) ∧ (evictDev.ownerTile 1 = evictDev.homeTile 1)
      ∧ ((evictDev.page (pageOf 1)).place = Place.t1 16) ∧ (evictDev.frameLive 16 = true) ∧ ((evictDev.way (evictDev.ownerTile 1) (ncSet 1) 3).evicting = true)
      ∧ ((evictDev.way (evictDev.ownerTile 1) (ncSet 1) 3).d = true))
    -- atomic
    ∧ ((atNearCacheLinesComeAndGoAtomic.on = true) ∧ (atNearCacheLinesComeAndGoAtomic.txn 1 = some (txn1 Phase.atomicWait 0))
      ∧ ((atNearCacheLinesComeAndGoAtomic.page (pageOf 1)).place = Place.t1 16) ∧ ((atNearCacheLinesComeAndGoAtomic.page (pageOf 1)).moving = none)
      ∧ ((txn1 Phase.atomicWait 0).phase = Phase.atomicWait) ∧ ((atNearCacheLinesComeAndGoAtomic.near.wb.any fun e => decide (e.line = 1)) = false)
      ∧ (atNearCacheLinesComeAndGoAtomic.t1Source 16 (1 % 64) = Place.t1 16) ∧ ((atNearCacheLinesComeAndGoAtomic.chan (frameChan 16)).readRoom 1 = true)) := by and_intros <;> decide
theorem witness_CacheControlWritesNeedManagement :
    -- mgmt
    (((dev 0).on = true) ∧ ((dev 0).reaches 16 = true) ∧ ((dev 0).isMgmt 16 = true))
    -- other
    ∧ ((atCacheControlWritesNeedManagementOther.on = true) ∧ (atCacheControlWritesNeedManagementOther.reaches 0 = true)
      ∧ (atCacheControlWritesNeedManagementOther.isMgmt 0 = false)) := by decide
theorem witness_WaysChangeRolesWhenClean :
    -- convert
    ((scrDev.on = true) ∧ (scrDev.near.curScr < scrDev.scrReq)
      ∧ (scrDev.hush.cleanWays scrDev.nextScratch = (true, (scrDev.hush.cleanWays scrDev.nextScratch).2)))
    -- giveBack
    ∧ ((scrLess.on = true) ∧ (scrLess.scrReq < scrLess.near.curScr) ∧ (scrLess.poolUsedBeyond (16 * scrLess.scrReq) = false) ∧ (scrLess.boot.pendNc = 0))
    -- locked
    ∧ ((lockDev.on = true) ∧ ((Tbl.get 0 lockDev.near.lockCleaning 15).getLsbD 0 = true) ∧ ((lockDev.lockedWays 15).contains 0 = true)
      ∧ (lockDev.hush.cleanWay 15 0 false = (true, (lockDev.hush.cleanWay 15 0 false).2)))
    -- down
    ∧ (((offDev []).on = true) ∧ (15 < 16) ∧ ((offDev []).tileRetired 15 = false) ∧ (((offDev []).offTarget 15).contains 15 = true)
      ∧ ((Tbl.get 0 (offDev []).near.off 15).getLsbD 15 = false) ∧ ((offDev []).wayHot 15 15 = false)
      ∧ ((offDev []).hush.cleanWay 15 15 true = (true, ((offDev []).hush.cleanWay 15 15 true).2)))
    -- up
    ∧ (((offDev [(15, 1)]).on = true) ∧ ((Tbl.get 0 (offDev [(15, 1)]).near.off 15).getLsbD 0 = true) ∧ (((offDev [(15, 1)]).offTarget 15).contains 0 = false))
    -- retire
    ∧ (((dueDev 2 255).on = true) ∧ ((dueDev 2 255).retireDue 2 (16 * 15 + 15) = true) ∧ (((dueDev 2 255).scratchWays 15).contains 15 = false)
      ∧ ((have __src := (dueDev 2 255).hush; { on := __src.on, clock := __src.clock, freeIdx := __src.freeIdx, out := __src.out, pending := __src.pending, glb := __src.glb, boot := __src.boot, pins := __src.pins, ports := __src.ports, heads := __src.heads, regions := __src.regions, near := have __src := (dueDev 2 255).near; { ctl := __src.ctl, curScr := __src.curScr, curLock := __src.curLock, nc := __src.nc, side := __src.side, tree := __src.tree, off := __src.off, autoOff := __src.autoOff, lockCleaning := __src.lockCleaning, retiring := putBit (dueDev 2 255).near.retiring (16 * 15 + 15) true, lostLocks := __src.lostLocks, scr := __src.scr, wb := __src.wb, wbNext := __src.wbNext, wbRetry := __src.wbRetry, maint := __src.maint, poisonIdx := __src.poisonIdx, poisonOverflow := __src.poisonOverflow : Near }, coh := __src.coh, dram := __src.dram, map := __src.map, beam := __src.beam, rsv := __src.rsv, vlt := __src.vlt, qos := __src.qos, rng := __src.rng, slv := __src.slv, flt := __src.flt, sec := __src.sec, pmc := __src.pmc, tap := __src.tap, pwr := __src.pwr : State }).cleanWay 15 15 false = (true, (atWaysChangeRolesWhenCleanRetire.cleanWay 15 15 false).2))) := by and_intros <;> decide
theorem witness_ProbesAndHandOffsFollowTheirTables :
    -- probeNone
    (((dev 0).on = true) ∧ ((dev 0).coh.recHeld = []) ∧ (15 < 16) ∧ ((dev 0).probeWide 1 = true ∨ 15 = (dev 0).homeTile 1)
      ∧ (Tbl.get none (dev 0).coh.handoff 1 = none))
    -- probeLeaving
    ∧ (((handDev (hand true false false false false)).on = true) ∧ ((handDev (hand true false false false false)).coh.recHeld = []) ∧ (0 < 16)
      ∧ ((handDev (hand true false false false false)).probeWide 1 = true ∨ 0 = (handDev (hand true false false false false)).homeTile 1)
      ∧ (Tbl.get none (handDev (hand true false false false false)).coh.handoff 1 = some (hand true false false false false))
      ∧ (0 = (hand true false false false false).src) ∧ ((hand true false false false false).leaving = true))
    -- probeGone
    ∧ (((handDev (hand false true false false false)).on = true) ∧ ((handDev (hand false true false false false)).coh.recHeld = []) ∧ (0 < 16)
      ∧ ((handDev (hand false true false false false)).probeWide 1 = true ∨ 0 = (handDev (hand false true false false false)).homeTile 1)
      ∧ (Tbl.get none (handDev (hand false true false false false)).coh.handoff 1 = some (hand false true false false false))
      ∧ (0 = (hand false true false false false).src) ∧ ((hand false true false false false).leaving = false) ∧ ((hand false true false false false).gone = true))
    -- probeArriving
    ∧ (((handDev (hand false true true false false)).on = true) ∧ ((handDev (hand false true true false false)).coh.recHeld = []) ∧ (4 < 16)
      ∧ ((handDev (hand false true true false false)).probeWide 1 = true ∨ 4 = (handDev (hand false true true false false)).homeTile 1)
      ∧ (Tbl.get none (handDev (hand false true true false false)).coh.handoff 1 = some (hand false true true false false))
      ∧ (4 = (hand false true true false false).dst) ∧ (4 ≠ (hand false true true false false).src) ∧ ((hand false true true false false).arriving = true))
    -- probeSettling
    ∧ (((handDev (hand false true false true false)).on = true) ∧ ((handDev (hand false true false true false)).coh.recHeld = []) ∧ (4 < 16)
      ∧ ((handDev (hand false true false true false)).probeWide 1 = true ∨ 4 = (handDev (hand false true false true false)).homeTile 1)
      ∧ (Tbl.get none (handDev (hand false true false true false)).coh.handoff 1 = some (hand false true false true false))
      ∧ (4 = (hand false true false true false).dst) ∧ (4 ≠ (hand false true false true false).src) ∧ ((hand false true false true false).arriving = false)
      ∧ ((hand false true false true false).settling = true) ∧ ((hand false true false true false).ids.contains (0, 7) = true))
    -- probeOther
    ∧ (((handDev (hand false true false true false)).on = true) ∧ ((handDev (hand false true false true false)).coh.recHeld = []) ∧ (15 < 16)
      ∧ ((handDev (hand false true false true false)).probeWide 1 = true ∨ 15 = (handDev (hand false true false true false)).homeTile 1)
      ∧ (Tbl.get none (handDev (hand false true false true false)).coh.handoff 1 = some (hand false true false true false))
      ∧ (15 ≠ (hand false true false true false).dst) ∧ (15 ≠ (hand false true false true false).src)
      ∧ (15 ≠ (handDev (hand false true false true false)).ownerTile 1))
    -- probeTake
    ∧ ((ownDev.on = true) ∧ (ownDev.coh.recHeld = []) ∧ (4 < 16) ∧ (ownDev.probeWide 1 = true ∨ 4 = ownDev.homeTile 1)
      ∧ (Tbl.get none ownDev.coh.handoff 1 = some (hand false true false true false)) ∧ (4 = (hand false true false true false).dst)
      ∧ (4 ≠ (hand false true false true false).src) ∧ ((hand false true false true false).arriving = false)
      ∧ ((hand false true false true false).settling = true) ∧ ((hand false true false true false).ids.contains (0, 8) = false) ∧ (4 = ownDev.ownerTile 1))
    -- offer
    ∧ ((pullDev.on = true) ∧ (pullDev.offerOk 1 4 = true))
    -- evict
    ∧ ((lentDev.on = true) ∧ (lentDev.findWay (lentDev.ownerTile 1) 1 = some 3) ∧ ((lentDev.way (lentDev.ownerTile 1) (ncSet 1) 3).evicting = true)
      ∧ ((lentDev.way (lentDev.ownerTile 1) (ncSet 1) 3).d = false) ∧ (lentDev.ownerTile 1 ≠ lentDev.homeTile 1) ∧ (lentDev.lineOpen 1 = false)
      ∧ ((lentDev.near.wb.any fun e => decide (e.line = 1)) = false) ∧ (lentDev.recordRoom (lentDev.ownerTile 1) = true))
    -- received
    ∧ (((handDev (hand true false false false true)).on = true)
      ∧ ((handDev (hand true false false false true)).handOff 1 = some (hand true false false false true)) ∧ ((hand true false false false true).leaving = true)
      ∧ ((hand true false false false true).offered = true) ∧ ((hand true false false false true).evict = false)
      ∧ ((handDev (hand true false false false true)).recordRoom (hand true false false false true).dst = true)
      ∧ ((handDev (hand true false false false true)).victim (hand true false false false true).dst (ncSet 1) ((Option.map (fun e => decide (e.2.wpol = 3)) ((handDev (hand true false false false true)).regionOf 1)).getD false) = some 0)
      ∧ (((handDev (hand true false false false true)).way (hand true false false false true).dst (ncSet 1) 0).v = false)
      ∧ ((handDev (hand true false false false true)).freeSf (hand true false false false true).dst (sfSet 1) = some 0))
    -- offerBack
    ∧ ((backDev.on = true) ∧ (backDev.handOff 1 = some atProbesAndHandOffsFollowTheirTablesOfferBack)
      ∧ (atProbesAndHandOffsFollowTheirTablesOfferBack.leaving = true) ∧ (atProbesAndHandOffsFollowTheirTablesOfferBack.offered = true)
      ∧ (atProbesAndHandOffsFollowTheirTablesOfferBack.evict = true) ∧ (backDev.recordRoom atProbesAndHandOffsFollowTheirTablesOfferBack.dst = true)
      ∧ (backDev.findSf atProbesAndHandOffsFollowTheirTablesOfferBack.src 1 ≠ none)
      ∧ (backDev.freeSf atProbesAndHandOffsFollowTheirTablesOfferBack.dst (sfSet 1) = some 0))
    -- accept
    ∧ (((handDev (hand true false true false false)).on = true)
      ∧ ((handDev (hand true false true false false)).handOff 1 = some (hand true false true false false)) ∧ ((hand true false true false false).leaving = true)
      ∧ ((hand true false true false false).offered = false) ∧ ((hand true false true false false).arriving = true))
    -- refuse
    ∧ (((handDev atProbesAndHandOffsFollowTheirTablesRefuse).on = true)
      ∧ ((handDev atProbesAndHandOffsFollowTheirTablesRefuse).handOff 1 = some atProbesAndHandOffsFollowTheirTablesRefuse)
      ∧ (atProbesAndHandOffsFollowTheirTablesRefuse.leaving = true) ∧ (atProbesAndHandOffsFollowTheirTablesRefuse.offered = false)
      ∧ (atProbesAndHandOffsFollowTheirTablesRefuse.arriving = false) ∧ (atProbesAndHandOffsFollowTheirTablesRefuse.held = [rd1]))
    -- commit
    ∧ (((handDev (hand false true true false false)).on = true)
      ∧ ((handDev (hand false true true false false)).handOff 1 = some (hand false true true false false)) ∧ ((hand false true true false false).gone = true)
      ∧ ((hand false true true false false).arriving = true) ∧ ((hand false true true false false).held = []) ∧ ((hand false true true false false).pending = []))
    -- gone
    ∧ (((handDev (hand false true false true false)).on = true)
      ∧ ((handDev (hand false true false true false)).handOff 1 = some (hand false true false true false)) ∧ ((hand false true false true false).gone = true)
      ∧ ((hand false true false true false).arriving = false)
      ∧ ((handDev (hand false true false true false)).clock = (hand false true false true false).commitAt + 3000 + 5000))
    -- settled
    ∧ (((handDev (hand false true false true false)).on = true)
      ∧ ((handDev (hand false true false true false)).handOff 1 = some (hand false true false true false)) ∧ ((hand false true false true false).settling = true)
      ∧ ((handDev (hand false true false true false)).clock = (hand false true false true false).settleAt + 8000))
    -- receivedFull
    ∧ ((fullDev.on = true) ∧ (fullDev.handOff 1 = some (hand true false false false true)) ∧ ((hand true false false false true).leaving = true)
      ∧ ((hand true false false false true).offered = true) ∧ ((hand true false false false true).evict = false)
      ∧ (fullDev.recordRoom (hand true false false false true).dst = true)
      ∧ (fullDev.victim (hand true false false false true).dst (ncSet 1) ((Option.map (fun e => decide (e.2.wpol = 3)) (fullDev.regionOf 1)).getD false) = some 0)
      ∧ ((fullDev.way (hand true false false false true).dst (ncSet 1) 0).v = false) ∧ (fullDev.freeSf (hand true false false false true).dst (sfSet 1) = none)) := by and_intros <;> decide
theorem witness_DramReadAnswersItsHead :
    -- one
    (((chDev 4 0).on = true) ∧ (((chDev 4 0).chan 15).inService = true)
      ∧ (List.find? (fun x => decide (x.id = 4)) ((chDev 4 0).chan 15).readQ = some { id := 4, line := 1, frame := 15, prio := 4, aged := false : DramRead })
      ∧ ((chDev 4 0).readIssues 15 { id := 4, line := 1, frame := 15, prio := 4, aged := false : DramRead } = true)
      ∧ ({ id := 4, line := 1, frame := 15, prio := 4, aged := false : DramRead }.why = DramFor.line)
      ∧ ((chDev 4 0).txn { id := 4, line := 1, frame := 15, prio := 4, aged := false : DramRead }.line = some atDramReadAnswersItsHeadOne)
      ∧ (atDramReadAnswersItsHeadOne.phase = Phase.dram)
      ∧ ((chDev 4 0).regionAt { id := 4, line := 1, frame := 15, prio := 4, aged := false : DramRead }.line = some (1, rgn1 8))
      ∧ ((chDev 4 0).linePlace (rgn1 8) { id := 4, line := 1, frame := 15, prio := 4, aged := false : DramRead }.line = some (0, Place.t1 15))
      ∧ ((chDev 4 0).t1Source 15 ({ id := 4, line := 1, frame := 15, prio := 4, aged := false : DramRead }.line % 64) = Place.t1 { id := 4, line := 1, frame := 15, prio := 4, aged := false : DramRead }.frame)
      ∧ ((rgn1 8).noalloc = true) ∧ (atDramReadAnswersItsHeadOne.req.kind = ReqKind.rdCur) ∧ (atDramReadAnswersItsHeadOne.req.src = Src.head 0 7)
      ∧ (atDramReadAnswersItsHeadOne.req.mute = false) ∧ (((chDev 4 0).head 0).link.recovery = false)) := by and_intros <;> decide
theorem witness_DramUpkeep :
    -- postpone
    (((chDev 1 0).on = true) ∧ (((chDev 1 0).chan 15).inService = true) ∧ (((chDev 1 0).chan 15).retired = false) ∧ (0 < 4) ∧ (0 < 8)
      ∧ ((chDev 1 0).inPowerState (16 + 15) = false) ∧ (Tbl.get 0 ((chDev 1 0).chan 15).refNext 0 = 0)
      ∧ ((chDev 1 0).clock = Tbl.get 0 ((chDev 1 0).chan 15).refDue 0 + 200000000000000))
    -- pullIn
    ∧ (((chDev 1 0).on = true) ∧ (((chDev 1 0).chan 15).inService = true) ∧ (((chDev 1 0).chan 15).retired = false) ∧ (0 < 4) ∧ (0 < 8)
      ∧ ((chDev 1 0).inPowerState (16 + 15) = false) ∧ (Tbl.get 0 ((chDev 1 0).chan 15).refNext 0 = 0)
      ∧ ((chDev 1 0).clock = Tbl.get 0 ((chDev 1 0).chan 15).refDue 0 + 200000000000000))
    -- drift
    ∧ (((chDev 4 0).on = true) ∧ (((chDev 4 0).chan 15).inService = true) ∧ (((chDev 4 0).chan 15).retired = false)
      ∧ (((chDev 4 0).chan 15).ranks.getLsbD 0 = true) ∧ (((chDev 4 0).chan 15).window.getLsbD 0 = true)
      ∧ ((chDev 4 0).clock = Tbl.get 0 ((chDev 4 0).chan 15).oscAt 0 + 2000000 + 199999998000000))
    -- aged
    ∧ (((chDev 4 0).on = true)
      ∧ (List.filter (fun y => decide (y.id = 4) && decide (3 < y.prio)) ((chDev 4 0).chan 15).readQ = [{ id := 4, line := 1, frame := 15, prio := 4, aged := false : DramRead }])
      ∧ ((chDev 4 0).clock = { id := 4, line := 1, frame := 15, prio := 4, aged := false : DramRead }.since + 100000 + 199999999900000))
    -- cool
    ∧ (((chDev 4 0).on = true) ∧ (15 < 16) ∧ (hottest (chDev 4 0).throtTemp ((chDev 4 0).chan 15).sensorFails [some 84, none] = some 84)
      ∧ ((chDev 4 0).clock = ((chDev 4 0).chan 15).tempAt + 32000000 + 199999968000000))
    -- patrol
    ∧ (((chDev 4 0).on = true) ∧ (fld (chDev 4 0).dram.ctl 0 8 ≠ 0) ∧ (((chDev 4 0).chan 15).throttle = false) ∧ (((chDev 4 0).chan 15).retired = false)
      ∧ ((chDev 4 0).hostGap = false) ∧ ((((chDev 4 0).chan 15).readQ.any fun y => decide (y.why = DramFor.scrub)) = false)
      ∧ ((chDev 4 0).clock = ((chDev 4 0).chan 15).scrubAt + (chDev 4 0).scrubGap 15 + 27200000000000) ∧ ((chDev 4 0).scrubFrame 15 = some 15)
      ∧ (((chDev 4 0).chan (frameChan 15)).readRoom 0 = true) ∧ (((chDev 4 0).chan (frameChan 15)).readRoom 1 = true)) := by and_intros <;> decide
theorem witness_MemoryUnitsComeAndGo :
    -- full
    (((coldDev []).on = true) ∧ (0 < 16) ∧ ((coldDev []).vlt.st = VState.restore) ∧ ((coldDev []).vlt.active = false)
      ∧ (((coldDev []).chan 0).inService = false) ∧ (((coldDev []).chan 0).retired = false)
      ∧ (0 ≠ 0 → (coldDev []).dram.spd0Read = true ∧ ∀ (d : Spd), (coldDev []).dram.spd0 = some d → spdOf (spd true true) = d)
      ∧ ((spd true true).spdValid = true) ∧ (trainSupported (spd true true) = true) ∧ ((spd true true).rfcNs ≤ 130)
      ∧ (BitVec.ofNat 4 (2 ^ ((spd true true).ranksPerDimm * rowDimms (spd true true).row) - 1) &&& ~~~BitVec.extractLsb' (4 * 0) 4 (coldDev []).boot.retRanks ≠ 0)
      ∧ ((Option.filter (fun r => (coldDev []).fastTrains (spd true true) r) ((coldDev []).trainRecord 0 (spd true true).crcOk)).isSome = true ∨ (spd true true).fullOk = true))
    -- badSpd
    ∧ (((coldDev []).on = true) ∧ (0 < 16) ∧ ((coldDev []).vlt.st = VState.restore) ∧ ((coldDev []).vlt.active = false)
      ∧ (((coldDev []).chan 0).inService = false) ∧ (((coldDev []).chan 0).retired = false)
      ∧ (0 ≠ 0 → (coldDev []).dram.spd0Read = true ∧ ∀ (d : Spd), (coldDev []).dram.spd0 = some d → spdOf (spd false true) = d)
      ∧ ((spd false true).spdValid = false))
    -- rank
    ∧ (((dueDev 0 63).on = true) ∧ ((dueDev 0 63).retireDue 0 (4 * 15 + 3) = true) ∧ (3 < 4) ∧ ((dueDev 0 63).rankUsed 15 3 = []))
    -- channel
    ∧ (((dueDev 1 15).on = true) ∧ (((dueDev 1 15).chan 15).retired = false) ∧ (15 < 16) ∧ ((dueDev 1 15).retireDue 1 15 = true)
      ∧ ((List.all (dueDev 1 15).dram.ch fun e => e.2.readQ.all fun x => decide (frameChan x.frame ≠ 15)) = true) ∧ (((dueDev 1 15).chan 15).writeQ = [])
      ∧ ((dueDev 1 15).vlt.keep = []) ∧ ((dueDev 1 15).map.swatches = [])
      ∧ (∀ e ∈ (dueDev 1 15).map.pages, (∀ (f : ℕ), e.2.place = Place.t1 f → frameChan f ≠ 15) ∧ (∀ (a b : ℕ), e.2.place = Place.t2 a b → frameChan (a / 8) ≠ 15) ∧ ((e.2.twin.toList ++ e.2.twin2.toList).any fun f => decide (frameChan f = 15)) = false))
    -- rebuilt
    ∧ ((rebuildDev.on = true) ∧ ((rebuildDev.chan 15).rebuild = true) ∧ (rebuildDev.map.rebuilding = [])
      ∧ ((List.any rebuildDev.map.pages fun e => e.2.urgent && e.2.dirty) = false))
    -- sfWay
    ∧ (((dueDev 3 255).on = true) ∧ ((dueDev 3 255).retireDue 3 (16 * 15 + 15) = true) ∧ (15 < 16)
      ∧ (List.filter (fun e => decide (e.1 / 2097152 = 15) && decide (e.1 % 16 = 15)) (dueDev 3 255).coh.sf = []) ∧ ((dueDev 3 255).coh.handoff = [])
      ∧ ((dueDev 3 255).hush.retireTaken 3 255 = (dueDev 3 255).hush.retireTaken 3 (16 * 15 + 15))) := by
  and_intros <;> first | decide | (intro _ h; nomatch h)
theorem witness_PagesMoveBetweenTiers :
    -- start
    ((t3Dev.on = true) ∧ ((t3Dev.unit (0 / 512)).dstate ≠ DState.unloaded) ∧ (t3Dev.vlt.stopped = false) ∧ ((t3Dev.page 0).moving = none)
      ∧ ((t3Dev.page 0).place = Place.t3 2000) ∧ ((t3Dev.beam.reads.any fun r => decide (r.addr = 2000)) = true) ∧ (t3Dev.frameOpen 589840 = true)
      ∧ (0 < t3Dev.freeFrames))
    -- promoted
    ∧ ((promDev.on = true) ∧ ((promDev.unit (0 / 512)).dstate = DState.loaded)
      ∧ ((promDev.page 0).moving = some { tier := Transition.toT1, cause := TransitionCause.read, place := 589840 : Moving })
      ∧ ((promDev.page 0).place = Place.t3 2000) ∧ (2000 ≠ 0) ∧ ((promDev.page 0).waiting = none)
      ∧ ((promDev.beam.reads.any fun r => decide (r.addr = 2000)) = false) ∧ ((promDev.chan (frameChan 589840)).throttle = false)
      ∧ (promDev.frameUse 589840 = FrameUse.t1 0 none) ∧ (promDev.frameUsable 589840 = true) ∧ (promDev.coh.txns = []))
    -- demoted
    ∧ ((demDev.on = true) ∧ ((demDev.unit (0 / 512)).dstate = DState.loaded)
      ∧ ((demDev.page 0).moving = some { tier := Transition.toT3, cause := TransitionCause.policy, place := 0 : Moving }) ∧ ((demDev.page 0).place = Place.t1 16)
      ∧ ((demDev.page 0).beamv = true) ∧ ((demDev.page 0).beam = 2000) ∧ (2000 ≠ 0) ∧ ((demDev.page 0).ppoison = false) ∧ ((demDev.page 0).waiting = none)
      ∧ (demDev.coh.txns = []))
    -- sweep
    ∧ ((shortDev.on = true) ∧ (shortDev.glb.steward = true) ∧ ((shortDev.sweepPages (shortDev.mapTile 0)).head? = some 0) ∧ (shortDev.vlt.stopped = false)
      ∧ ((shortDev.unit (0 / 512)).dstate = DState.loaded) ∧ (shortDev.freeFrames * 1000 < shortDev.framesInService * shortDev.freeLo)
      ∧ ((shortDev.page 0).place = Place.t1 16) ∧ ((shortDev.page 0).beamv = true) ∧ (shortDev.evictable 0 = true)
      ∧ ((List.any shortDev.map.pages fun e => shortDev.evictable e.1 && decide (shortDev.evictRank e.1 < shortDev.evictRank 0)) = false))
    -- warmEnd
    ∧ (((warmDev []).on = true) ∧ ((warmDev []).map.warming = true) ∧ ((warmDev []).map.mapLoad = false) ∧ ((warmDev []).vlt.stopped = false)
      ∧ ((warmDev []).map.warm = []))
    -- warmNext
    ∧ (((warmDev [0]).on = true) ∧ ((warmDev [0]).map.warming = true) ∧ ((warmDev [0]).map.mapLoad = false) ∧ ((warmDev [0]).vlt.stopped = false)
      ∧ ((warmDev [0]).map.warm.head? = some 0) ∧ ((warmDev [0]).framesInService * (warmDev [0]).freeHi < (warmDev [0]).freeFrames * 1000)
      ∧ (((warmDev [0]).page 0).place = Place.t3 2000) ∧ (Tbl.get none (warmDev [0]).beam.recs 2000 = some rec0) ∧ (rec0.kind = RecKind.raw)
      ∧ ((warmDev [0]).frameOpen 589840 = true))
    -- epoch
    ∧ ((atPagesMoveBetweenTiersEpoch.on = true)
      ∧ (atPagesMoveBetweenTiersEpoch.clock = atPagesMoveBetweenTiersEpoch.map.epochAt + atPagesMoveBetweenTiersEpoch.epochCycles + 7)) := by and_intros <;> decide
theorem witness_PagesAreCleaned :
    -- mark
    ((markDev.on = true) ∧ (List.find? (fun x => decide (x.pn = 0)) markDev.map.marks = some { pn := 0, region := 1, gen := 0, durable := true : Mark })
      ∧ ({ pn := 0, region := 1, gen := 0, durable := true : Mark }.durable = true) ∧ (markDev.coh.recovering = 0) ∧ ((markDev.page 0).place = Place.t1 16)
      ∧ ((markDev.page 0).moving = none) ∧ ((markDev.page 0).gen = (markDev.gen { pn := 0, region := 1, gen := 0, durable := true : Mark }.region).gen)
      ∧ ((markDev.page 0).dirty = false) ∧ ((markDev.page 0).cleaning = false))
    -- start
    ∧ ((dirtyDev.on = true) ∧ (dirtyDev.cleanNext 0 = true) ∧ (dirtyDev.vlt.stopped = false) ∧ (dirtyDev.beam.deltaSegs.length < 52) ∧ (dirtyDev.rng.seals = [])
      ∧ ((dirtyDev.page 0).urgent = false) ∧ (dirtyDev.coh.txns = []) ∧ (dirtyDev.primLive 0 = true))
    -- answer
    ∧ (((cleaning 0).on = true) ∧ (((cleaning 0).page 0).cleaning = true) ∧ (((cleaning 0).page 0).synced.getLsbD 15 = false)
      ∧ (((cleaning 0).page 0).place = Place.t1 16)
      ∧ (∀ e ∈ (cleaning 0).near.wb, e.tile = 15 → pageOf e.line = 0 → e.id < ((cleaning 0).page 0).syncId → e.spill = true))
    -- read
    ∧ ((cleanRead.on = true) ∧ ((cleanRead.chan 0).inService = true) ∧ (List.find? (fun y => decide (y.id = 4)) (cleanRead.chan 0).readQ = some cleanRd)
      ∧ (cleanRead.readIssues 0 cleanRd = true) ∧ (cleanRd.why = DramFor.clean 0) ∧ ((cleanRead.page 0).cleaning = true) ∧ (cleanRead.syncDone 0 = true)
      ∧ ((cleanRead.cleanData 0).hasPoison = false)
      ∧ ((cleanRead.hush.issueRead 0 cleanRd).append 0 (pageRec 0 (cleanRead.unit (0 / 512)).bkey (cleanRead.cleanData 0) none (RecFor.clean 0)) = some ((((cleanRead.hush.issueRead 0 cleanRd).append 0 (pageRec 0 (cleanRead.unit (0 / 512)).bkey (cleanRead.cleanData 0) none (RecFor.clean 0))).getD (0, { : State })).1, (((cleanRead.hush.issueRead 0 cleanRd).append 0 (pageRec 0 (cleanRead.unit (0 / 512)).bkey (cleanRead.cleanData 0) none (RecFor.clean 0))).getD (0, { : State })).2)))
    -- end
    ∧ ((cleaned.on = true) ∧ ((cleaned.page 0).cleaning = true) ∧ ((cleaned.page 0).redirty = false) ∧ (∀ x ∈ cleaned.map.marks, x.pn ≠ 0)
      ∧ (cleaned.recFor (RecFor.clean 0) = some 2000) ∧ (2000 ≠ 0) ∧ (cleaned.rng.seals = []) ∧ (cleaned.heldLines 0 (cleaned.page 0).syncId = [])
      ∧ ((cleaned.page 0).place = Place.t1 16) ∧ ((cleaned.unit (0 / 512)).dstate = DState.loaded) ∧ ((cleaned.page 0).beam ≠ 2000)
      ∧ ((cleaned.page 0).ppoison = false)) := by and_intros <;> decide
theorem witness_MapUnitsComeIntoDram :
    -- miss
    (((waitDev false).on = true) ∧ (((waitDev false).waitingOn 0).contains 1 = true))
    -- hit
    ∧ (((waitDev true).on = true) ∧ (((waitDev true).waitingOn 0).contains 1 = true))
    -- line
    ∧ (((waitDev false).on = true) ∧ (((waitDev false).waitingOn 0).contains 1 = true) ∧ (((waitDev false).page 0).cached = false)
      ∧ (((waitDev false).unit (0 / 512)).dstate ≠ DState.unloaded) ∧ (((waitDev false).jqRivals 0).length < 8)
      ∧ (((waitDev false).unit (0 / 512)).dirIn.getLsbD ((waitDev false).mapTile 0) = false)
      ∧ ((Tbl.keysWhere (fun u d => d.dirIn.getLsbD ((waitDev false).mapTile 0) && decide (u ≠ 0 / 512)) (waitDev false).map.units).length < 65536))
    -- lineHit
    ∧ ((dirHit.on = true) ∧ ((dirHit.waitingOn 0).contains 1 = true) ∧ ((dirHit.page 0).cached = false) ∧ ((dirHit.unit (0 / 512)).dstate ≠ DState.unloaded)
      ∧ ((dirHit.jqRivals 0).length < 8) ∧ ((dirHit.unit (0 / 512)).dirIn.getLsbD (dirHit.mapTile 0) = true))
    -- rebuild
    ∧ ((lostDev.on = true) ∧ (lostDev.map.rebuilding.contains 0 = true) ∧ (lostDev.frameOpen 589840 = true) ∧ (lostDev.coh.txns = []))
    -- load
    ∧ (((loadDev { dstate := DState.unloaded, bound := true, bdur := true : UnitDir }).on = true)
      ∧ ((loadDev { dstate := DState.unloaded, bound := true, bdur := true : UnitDir }).vlt.active = true)
      ∧ ((loadDev { dstate := DState.unloaded, bound := true, bdur := true : UnitDir }).vlt.stopped = false)
      ∧ ((loadDev { dstate := DState.unloaded, bound := true, bdur := true : UnitDir }).beam.coldUnits.head? = some 0)
      ∧ ((((loadDev { dstate := DState.unloaded, bound := true, bdur := true : UnitDir }).unit 0).bound && !((loadDev { dstate := DState.unloaded, bound := true, bdur := true : UnitDir }).unit 0).bdur) = false)
      ∧ ((loadDev { dstate := DState.unloaded, bound := true, bdur := true : UnitDir }).frameOpen 589840 = true)
      ∧ ((loadDev { dstate := DState.unloaded, bound := true, bdur := true : UnitDir }).coh.txns = []))
    -- giveUp
    ∧ (((loadDev { dstate := DState.unloaded, bound := true : UnitDir }).on = true)
      ∧ ((loadDev { dstate := DState.unloaded, bound := true : UnitDir }).vlt.active = true)
      ∧ ((loadDev { dstate := DState.unloaded, bound := true : UnitDir }).vlt.stopped = false)
      ∧ ((loadDev { dstate := DState.unloaded, bound := true : UnitDir }).beam.coldUnits.head? = some 0)
      ∧ (((loadDev { dstate := DState.unloaded, bound := true : UnitDir }).unit 0).bound = true)
      ∧ (((loadDev { dstate := DState.unloaded, bound := true : UnitDir }).unit 0).bdur = false)
      ∧ ((loadDev { dstate := DState.unloaded, bound := true : UnitDir }).coh.txns = [])) := by and_intros <;> decide
theorem witness_SwatchesAreTakenAndDropped :
    -- take
    (((onRing (dev 1) 65535 takeAct).on = true) ∧ ((onRing (dev 1) 65535 takeAct).working 65535 80 takeAct) ∧ (takeAct.started = false)
      ∧ (((onRing (dev 1) 65535 takeAct).gen (dRegion takeAct.words)).sweep = false)
      ∧ (((onRing (dev 1) 65535 takeAct).gen (dRegion takeAct.words)).hold = false)
      ∧ (List.find? (fun k => decide ((Tbl.get { : Swatch } (onRing (dev 1) 65535 takeAct).map.swatches k).st = SwState.free)) (List.range 256) = some 0)
      ∧ (List.find? (fun i => !(List.filter (fun e => decide (e.2.st ≠ SwState.free) && decide (e.2.region = dRegion takeAct.words)) (onRing (dev 1) 65535 takeAct).map.swatches).any fun e => decide (e.2.num = i)) (List.range 16) = some 0))
    -- sweep
    ∧ (((onRing atSwatchesAreTakenAndDroppedSweep 65535 takeAct).on = true)
      ∧ ((onRing atSwatchesAreTakenAndDroppedSweep 65535 takeAct).working 65535 80 takeAct) ∧ (takeAct.started = false)
      ∧ (((onRing atSwatchesAreTakenAndDroppedSweep 65535 takeAct).gen (dRegion takeAct.words)).sweep = true))
    -- full
    ∧ ((fullSw.on = true) ∧ (fullSw.working 65535 80 takeAct) ∧ (takeAct.started = false) ∧ ((fullSw.gen (dRegion takeAct.words)).sweep = false)
      ∧ (List.find? (fun k => decide ((Tbl.get { : Swatch } fullSw.map.swatches k).st = SwState.free)) (List.range 256) = none))
    -- cut
    ∧ ((atSwatchesAreTakenAndDroppedCut.on = true) ∧ (Tbl.get { : Swatch } atSwatchesAreTakenAndDroppedCut.map.swatches 255 = sw1 SwState.taking 32768)
      ∧ ((sw1 SwState.taking 32768).st = SwState.taking) ∧ ((sw1 SwState.taking 32768).waits.getLsbD 15 = true)
      ∧ (atSwatchesAreTakenAndDroppedCut.vlt.stopped = false) ∧ (putBit (sw1 SwState.taking 32768).waits 15 false = 0)
      ∧ (atSwatchesAreTakenAndDroppedCut.near.wbRetry = []) ∧ (atSwatchesAreTakenAndDroppedCut.coh.heldBirsp = []))
    -- export
    ∧ (((onRing atSwatchesAreTakenAndDroppedExport 65535 { words := desc 82 0 [0, 255] : Active }).on = true)
      ∧ ((onRing atSwatchesAreTakenAndDroppedExport 65535 { words := desc 82 0 [0, 255] : Active }).working 65535 82 { words := desc 82 0 [0, 255] : Active })
      ∧ (dW { words := desc 82 0 [0, 255] : Active }.words 2 = 255)
      ∧ ((onRing atSwatchesAreTakenAndDroppedExport 65535 { words := desc 82 0 [0, 255] : Active }).map.swatches = [(255, sw1 SwState.exporting 0)])
      ∧ ((sw1 SwState.exporting 0).st = SwState.exporting) ∧ ((sw1 SwState.exporting 0).ring = 65535) ∧ ((sw1 SwState.exporting 0).saved = [])
      ∧ ((onRing atSwatchesAreTakenAndDroppedExport 65535 { words := desc 82 0 [0, 255] : Active }).map.pages = [])
      ∧ ({ words := desc 82 0 [0, 255] : Active }.reads = false))
    -- exported
    ∧ (((onRing atSwatchesAreTakenAndDroppedExport 65535 { words := desc 82 0 [0, 255], reads := true : Active }).on = true)
      ∧ ((onRing atSwatchesAreTakenAndDroppedExport 65535 { words := desc 82 0 [0, 255], reads := true : Active }).working 65535 82 { words := desc 82 0 [0, 255], reads := true : Active })
      ∧ (dW { words := desc 82 0 [0, 255], reads := true : Active }.words 2 = 255)
      ∧ ((onRing atSwatchesAreTakenAndDroppedExport 65535 { words := desc 82 0 [0, 255], reads := true : Active }).map.swatches = [(255, sw1 SwState.exporting 0)])
      ∧ ((sw1 SwState.exporting 0).st = SwState.exporting) ∧ ((sw1 SwState.exporting 0).ring = 65535) ∧ ((sw1 SwState.exporting 0).saved = [])
      ∧ ((onRing atSwatchesAreTakenAndDroppedExport 65535 { words := desc 82 0 [0, 255], reads := true : Active }).map.pages = [])
      ∧ ({ words := desc 82 0 [0, 255], reads := true : Active }.reads = true)
      ∧ (((onRing atSwatchesAreTakenAndDroppedExport 65535 { words := desc 82 0 [0, 255], reads := true : Active }).unconfirmed fun x => decide (x = RecKind.map)) = false))
    -- drop
    ∧ (((onRing (let __src := dev 1; { on := __src.on, clock := __src.clock, freeIdx := __src.freeIdx, out := __src.out, pending := __src.pending, glb := __src.glb, boot := __src.boot, pins := __src.pins, ports := __src.ports, heads := __src.heads, regions := __src.regions, near := __src.near, coh := __src.coh, dram := __src.dram, map := { swatches := [(255, sw1 SwState.live 0)] : JMap }, beam := __src.beam, rsv := __src.rsv, vlt := __src.vlt, qos := __src.qos, rng := __src.rng, slv := __src.slv, flt := __src.flt, sec := __src.sec, pmc := __src.pmc, tap := __src.tap, pwr := __src.pwr : State }) 65535 { words := desc 81 0 [0, 255] : Active }).on = true)
      ∧ ((onRing (let __src := dev 1; { on := __src.on, clock := __src.clock, freeIdx := __src.freeIdx, out := __src.out, pending := __src.pending, glb := __src.glb, boot := __src.boot, pins := __src.pins, ports := __src.ports, heads := __src.heads, regions := __src.regions, near := __src.near, coh := __src.coh, dram := __src.dram, map := { swatches := [(255, sw1 SwState.live 0)] : JMap }, beam := __src.beam, rsv := __src.rsv, vlt := __src.vlt, qos := __src.qos, rng := __src.rng, slv := __src.slv, flt := __src.flt, sec := __src.sec, pmc := __src.pmc, tap := __src.tap, pwr := __src.pwr : State }) 65535 { words := desc 81 0 [0, 255] : Active }).working 65535 81 { words := desc 81 0 [0, 255] : Active })
      ∧ (dW { words := desc 81 0 [0, 255] : Active }.words 2 = 255)
      ∧ ((onRing (let __src := dev 1; { on := __src.on, clock := __src.clock, freeIdx := __src.freeIdx, out := __src.out, pending := __src.pending, glb := __src.glb, boot := __src.boot, pins := __src.pins, ports := __src.ports, heads := __src.heads, regions := __src.regions, near := __src.near, coh := __src.coh, dram := __src.dram, map := { swatches := [(255, sw1 SwState.live 0)] : JMap }, beam := __src.beam, rsv := __src.rsv, vlt := __src.vlt, qos := __src.qos, rng := __src.rng, slv := __src.slv, flt := __src.flt, sec := __src.sec, pmc := __src.pmc, tap := __src.tap, pwr := __src.pwr : State }) 65535 { words := desc 81 0 [0, 255] : Active }).map.swatches = [(255, sw1 SwState.live 0)])
      ∧ ((sw1 SwState.live 0).st = SwState.live))
    -- genSweep
    ∧ (((let __src := dev 1; { on := __src.on, clock := __src.clock, freeIdx := __src.freeIdx, out := __src.out, pending := __src.pending, glb := __src.glb, boot := __src.boot, pins := __src.pins, ports := __src.ports, heads := __src.heads, regions := __src.regions, near := __src.near, coh := __src.coh, dram := __src.dram, map := { pages := [(1023, { gen := 5 : PageEntry })], gens := [(1, { gen := 32768, sweep := true : RgnGen })] : JMap }, beam := __src.beam, rsv := __src.rsv, vlt := __src.vlt, qos := __src.qos, rng := __src.rng, slv := __src.slv, flt := __src.flt, sec := __src.sec, pmc := __src.pmc, tap := __src.tap, pwr := __src.pwr : State }).on = true)
      ∧ (((let __src := dev 1; { on := __src.on, clock := __src.clock, freeIdx := __src.freeIdx, out := __src.out, pending := __src.pending, glb := __src.glb, boot := __src.boot, pins := __src.pins, ports := __src.ports, heads := __src.heads, regions := __src.regions, near := __src.near, coh := __src.coh, dram := __src.dram, map := { pages := [(1023, { gen := 5 : PageEntry })], gens := [(1, { gen := 32768, sweep := true : RgnGen })] : JMap }, beam := __src.beam, rsv := __src.rsv, vlt := __src.vlt, qos := __src.qos, rng := __src.rng, slv := __src.slv, flt := __src.flt, sec := __src.sec, pmc := __src.pmc, tap := __src.tap, pwr := __src.pwr : State }).gen 1).sweep = true)
      ∧ (Tbl.wf { : PageEntry } (let __src := dev 1; { on := __src.on, clock := __src.clock, freeIdx := __src.freeIdx, out := __src.out, pending := __src.pending, glb := __src.glb, boot := __src.boot, pins := __src.pins, ports := __src.ports, heads := __src.heads, regions := __src.regions, near := __src.near, coh := __src.coh, dram := __src.dram, map := { pages := [(1023, { gen := 5 : PageEntry })], gens := [(1, { gen := 32768, sweep := true : RgnGen })] : JMap }, beam := __src.beam, rsv := __src.rsv, vlt := __src.vlt, qos := __src.qos, rng := __src.rng, slv := __src.slv, flt := __src.flt, sec := __src.sec, pmc := __src.pmc, tap := __src.tap, pwr := __src.pwr : State }).map.pages = true)
      ∧ (∀ e ∈ (let __src := dev 1; { on := __src.on, clock := __src.clock, freeIdx := __src.freeIdx, out := __src.out, pending := __src.pending, glb := __src.glb, boot := __src.boot, pins := __src.pins, ports := __src.ports, heads := __src.heads, regions := __src.regions, near := __src.near, coh := __src.coh, dram := __src.dram, map := { pages := [(1023, { gen := 5 : PageEntry })], gens := [(1, { gen := 32768, sweep := true : RgnGen })] : JMap }, beam := __src.beam, rsv := __src.rsv, vlt := __src.vlt, qos := __src.qos, rng := __src.rng, slv := __src.slv, flt := __src.flt, sec := __src.sec, pmc := __src.pmc, tap := __src.tap, pwr := __src.pwr : State }).map.units, ((let __src := dev 1; { on := __src.on, clock := __src.clock, freeIdx := __src.freeIdx, out := __src.out, pending := __src.pending, glb := __src.glb, boot := __src.boot, pins := __src.pins, ports := __src.ports, heads := __src.heads, regions := __src.regions, near := __src.near, coh := __src.coh, dram := __src.dram, map := { pages := [(1023, { gen := 5 : PageEntry })], gens := [(1, { gen := 32768, sweep := true : RgnGen })] : JMap }, beam := __src.beam, rsv := __src.rsv, vlt := __src.vlt, qos := __src.qos, rng := __src.rng, slv := __src.slv, flt := __src.flt, sec := __src.sec, pmc := __src.pmc, tap := __src.tap, pwr := __src.pwr : State }).region 1).base ≤ e.1 → e.1 < ((let __src := dev 1; { on := __src.on, clock := __src.clock, freeIdx := __src.freeIdx, out := __src.out, pending := __src.pending, glb := __src.glb, boot := __src.boot, pins := __src.pins, ports := __src.ports, heads := __src.heads, regions := __src.regions, near := __src.near, coh := __src.coh, dram := __src.dram, map := { pages := [(1023, { gen := 5 : PageEntry })], gens := [(1, { gen := 32768, sweep := true : RgnGen })] : JMap }, beam := __src.beam, rsv := __src.rsv, vlt := __src.vlt, qos := __src.qos, rng := __src.rng, slv := __src.slv, flt := __src.flt, sec := __src.sec, pmc := __src.pmc, tap := __src.tap, pwr := __src.pwr : State }).region 1).base + ((let __src := dev 1; { on := __src.on, clock := __src.clock, freeIdx := __src.freeIdx, out := __src.out, pending := __src.pending, glb := __src.glb, boot := __src.boot, pins := __src.pins, ports := __src.ports, heads := __src.heads, regions := __src.regions, near := __src.near, coh := __src.coh, dram := __src.dram, map := { pages := [(1023, { gen := 5 : PageEntry })], gens := [(1, { gen := 32768, sweep := true : RgnGen })] : JMap }, beam := __src.beam, rsv := __src.rsv, vlt := __src.vlt, qos := __src.qos, rng := __src.rng, slv := __src.slv, flt := __src.flt, sec := __src.sec, pmc := __src.pmc, tap := __src.tap, pwr := __src.pwr : State }).region 1).size → e.2.dstate ≠ DState.unloaded)) := by and_intros <;> decide
theorem witness_PagesAndLinesAreMaintained :
    -- promote
    (((onRing (pageDev 1 { : PageEntry }) 65535 (pageAct 48 0 true)).on = true)
      ∧ ((onRing (pageDev 1 { : PageEntry }) 65535 (pageAct 48 0 true)).working 65535 48 (pageAct 48 0 true)) ∧ ((pageAct 48 0 true).started = true)
      ∧ ((pageAct 48 0 true).pages = [0]) ∧ (((onRing (pageDev 1 { : PageEntry }) 65535 (pageAct 48 0 true)).page 0).place = Place.zero)
      ∧ (((onRing (pageDev 1 { : PageEntry }) 65535 (pageAct 48 0 true)).page 0).moving = none)
      ∧ (((onRing (pageDev 1 { : PageEntry }) 65535 (pageAct 48 0 true)).unit (0 / 512)).dstate ≠ DState.unloaded)
      ∧ ((onRing (pageDev 1 { : PageEntry }) 65535 (pageAct 48 0 true)).map.rebuilding.contains (0 / 512) = false)
      ∧ ((onRing (pageDev 1 { : PageEntry }) 65535 (pageAct 48 0 true)).vlt.stopped = false)
      ∧ ((onRing (pageDev 1 { : PageEntry }) 65535 (pageAct 48 0 true)).lowestFree = some 589824)
      ∧ ((onRing (pageDev 1 { : PageEntry }) 65535 (pageAct 48 0 true)).frameOpen 589824 = true)
      ∧ (0 < (onRing (pageDev 1 { : PageEntry }) 65535 (pageAct 48 0 true)).freeFrames))
    -- promoted
    ∧ (((restDev 48 0).on = true) ∧ ((restDev 48 0).working 65535 48 (pageAct 48 0 true)) ∧ ((pageAct 48 0 true).started = true)
      ∧ ((pageAct 48 0 true).pages = [0]) ∧ ((restDev 48 0).inT1 0 = true))
    -- demoteT2
    ∧ (((onesDev 49 2).on = true) ∧ ((pageAct 49 2 true).started = true) ∧ ((pageAct 49 2 true).pages = [0]) ∧ (((onesDev 49 2).page 0).place = Place.t1 16)
      ∧ (((onesDev 49 2).page 0).pin = false) ∧ (((onesDev 49 2).page 0).nocomp = false) ∧ ((onesDev 49 2).pageBusy 0 = false)
      ∧ (((onesDev 49 2).page 0).dirty = false) ∧ (((onesDev 49 2).placeData (Place.t1 16)).hasPoison = false) ∧ ((onesDev 49 2).mayDemote 0 = true)
      ∧ (((onesDev 49 2).unit (0 / 512)).dstate ≠ DState.unloaded) ∧ ((onesDev 49 2).vlt.stopped = false)
      ∧ (((onesDev 49 2).chan (frameChan 16)).readRoom 0 = true) ∧ (((onesDev 49 2).chan (frameChan 16)).readRoom 1 = true)
      ∧ (1 = sectorsFor ((onesDev 49 2).frameData 16).clen) ∧ ((onesDev 49 2).working 65535 49 (pageAct 49 2 true)) ∧ (dSub (pageAct 49 2 true).words = 2)
      ∧ ((onesDev 49 2).hint 0 ≠ 2) ∧ ((onesDev 49 2).compEn = true) ∧ (((onesDev 49 2).frameData 16).zero = false) ∧ (1 ≤ 7)
      ∧ ((onesDev 49 2).sectorsFree ((onesDev 49 2).sectorFor 1) 1 = true))
    -- demoteT3
    ∧ (((onesDev 49 3).on = true) ∧ ((pageAct 49 3 true).started = true) ∧ ((pageAct 49 3 true).pages = [0]) ∧ (((onesDev 49 3).page 0).place = Place.t1 16)
      ∧ (((onesDev 49 3).page 0).pin = false) ∧ (((onesDev 49 3).page 0).nocomp = false) ∧ ((onesDev 49 3).pageBusy 0 = false)
      ∧ (((onesDev 49 3).page 0).dirty = false) ∧ (((onesDev 49 3).placeData (Place.t1 16)).hasPoison = false) ∧ ((onesDev 49 3).mayDemote 0 = true)
      ∧ (((onesDev 49 3).unit (0 / 512)).dstate ≠ DState.unloaded) ∧ ((onesDev 49 3).vlt.stopped = false)
      ∧ (((onesDev 49 3).chan (frameChan 16)).readRoom 0 = true) ∧ (((onesDev 49 3).chan (frameChan 16)).readRoom 1 = true)
      ∧ (1 = sectorsFor ((onesDev 49 3).frameData 16).clen) ∧ ((onesDev 49 3).working 65535 49 (pageAct 49 3 true)) ∧ (dSub (pageAct 49 3 true).words = 3)
      ∧ (((onesDev 49 3).page 0).beamv = true))
    -- pin
    ∧ (((restDev 50 0).on = true) ∧ ((restDev 50 0).working 65535 50 (pageAct 50 0 true)) ∧ ((pageAct 50 0 true).started = true)
      ∧ ((pageAct 50 0 true).pages = [0]) ∧ ((restDev 50 0).inT1 0 = true)
      ∧ (((restDev 50 0).pinned + 1) * 100 ≤ (restDev 50 0).framesInService * (restDev 50 0).pinPct)
      ∧ (((restDev 50 0).rangeRegion (dW (pageAct 50 0 true).words 1, dW (pageAct 50 0 true).words 3, false)).wpol ≠ 3))
    -- unpin
    ∧ (((restDev 51 0).on = true) ∧ ((restDev 51 0).working 65535 51 (pageAct 51 0 true))
      ∧ (((restDev 51 0).rangeRegion (dW (pageAct 51 0 true).words 1, dW (pageAct 51 0 true).words 3, false)).wpol ≠ 3))
    -- clean
    ∧ (((maintDev 32).on = true) ∧ ((maintDev 32).near.wb = []) ∧ ((maintDev 32).coh.txns = []) ∧ ((maintDev 32).coh.lent = [])
      ∧ ((maintDev 32).coh.handoff = []) ∧ (((maintDev 32).rangeRegion (dW (pageAct 32 0 true).words 1, dW (pageAct 32 0 true).words 3, false)).pooled = false)
      ∧ ((maintDev 32).residents (pageAct 32 0 true).words = [(15, 3, 63)]) ∧ ((maintDev 32).way 15 (ncSet 63) 3 = dirtyLine) ∧ (dirtyLine.d = true)
      ∧ (dirtyLine.lock = false) ∧ (((maintDev 32).page (pageOf 63)).place = Place.t1 16) ∧ ((maintDev 32).frameLive 16 = true)
      ∧ ((pageAct 32 0 true).started = true) ∧ ((maintDev 32).working 65535 32 (pageAct 32 0 true)))
    -- inval
    ∧ (((maintDev 33).on = true) ∧ ((maintDev 33).near.wb = []) ∧ ((maintDev 33).coh.txns = []) ∧ ((maintDev 33).coh.lent = [])
      ∧ ((maintDev 33).coh.handoff = []) ∧ (((maintDev 33).rangeRegion (dW (pageAct 33 0 true).words 1, dW (pageAct 33 0 true).words 3, false)).pooled = false)
      ∧ ((maintDev 33).residents (pageAct 33 0 true).words = [(15, 3, 63)]) ∧ ((maintDev 33).way 15 (ncSet 63) 3 = dirtyLine) ∧ (dirtyLine.d = true)
      ∧ (dirtyLine.lock = false) ∧ (((maintDev 33).page (pageOf 63)).place = Place.t1 16) ∧ ((maintDev 33).frameLive 16 = true)
      ∧ ((pageAct 33 0 true).started = true) ∧ ((maintDev 33).working 65535 33 (pageAct 33 0 true)))
    -- discard
    ∧ (((maintDev 34).on = true) ∧ ((maintDev 34).near.wb = []) ∧ ((maintDev 34).coh.txns = []) ∧ ((maintDev 34).coh.lent = [])
      ∧ ((maintDev 34).coh.handoff = []) ∧ (((maintDev 34).rangeRegion (dW (pageAct 34 0 true).words 1, dW (pageAct 34 0 true).words 3, false)).pooled = false)
      ∧ ((maintDev 34).residents (pageAct 34 0 true).words = [(15, 3, 63)]) ∧ ((maintDev 34).way 15 (ncSet 63) 3 = dirtyLine) ∧ (dirtyLine.d = true)
      ∧ (dirtyLine.lock = false) ∧ (((maintDev 34).page (pageOf 63)).place = Place.t1 16) ∧ ((maintDev 34).frameLive 16 = true)
      ∧ ((pageAct 34 0 true).started = true) ∧ ((maintDev 34).working 65535 34 (pageAct 34 0 true))
      ∧ (∀ m ∈ (maintDev 34).near.maint, m.op = 34 → ∀ e ∈ m.late, e.1 ≠ 63)) := by and_intros <;> decide
theorem witness_MoversWriteTheirLine :
    -- zero
    (((scratch { : LineCell } 65535 (mover 18)).on = true) ∧ ((scratch { : LineCell } 65535 (mover 18)).atRest 1)
      ∧ ((scratch { : LineCell } 65535 (mover 18)).regionOf 1 = some (1, rgn1 8192)) ∧ ((rgn1 8192).window = 2) ∧ ((rgn1 8192).coh = 0)
      ∧ (((scratch { : LineCell } 65535 (mover 18)).ring 65535).act = some { words := (mover 18).words : Active }) ∧ (dW (mover 18).words 1 = 1 * 64)
      ∧ (dW (mover 18).words 3 = 64)
      ∧ ((scratch { : LineCell } 65535 (mover 18)).rangeRights ((scratch { : LineCell } 65535 (mover 18)).ring 65535).owner false (1 * 64, 64, true) = true)
      ∧ ((scratch { : LineCell } 65535 (mover 18)).working 65535 18 { words := (mover 18).words : Active }))
    -- fill
    ∧ (((scratch { : LineCell } 65535 (mover 17)).on = true) ∧ ((scratch { : LineCell } 65535 (mover 17)).atRest 1)
      ∧ ((scratch { : LineCell } 65535 (mover 17)).regionOf 1 = some (1, rgn1 8192)) ∧ ((rgn1 8192).window = 2) ∧ ((rgn1 8192).coh = 0)
      ∧ (((scratch { : LineCell } 65535 (mover 17)).ring 65535).act = some { words := (mover 17).words : Active }) ∧ (dW (mover 17).words 1 = 1 * 64)
      ∧ (dW (mover 17).words 3 = 64)
      ∧ ((scratch { : LineCell } 65535 (mover 17)).rangeRights ((scratch { : LineCell } 65535 (mover 17)).ring 65535).owner false (1 * 64, 64, true) = true)
      ∧ ((scratch { : LineCell } 65535 (mover 17)).working 65535 17 { words := (mover 17).words : Active }))
    -- copyPoison
    ∧ (((scratch { poison := true : LineCell } 65535 (mover 16)).on = true) ∧ ((scratch { poison := true : LineCell } 65535 (mover 16)).atRest 1)
      ∧ ((scratch { poison := true : LineCell } 65535 (mover 16)).regionOf 1 = some (1, rgn1 8192)) ∧ ((rgn1 8192).window = 2) ∧ ((rgn1 8192).coh = 0)
      ∧ (((scratch { poison := true : LineCell } 65535 (mover 16)).ring 65535).act = some { words := (mover 16).words : Active })
      ∧ (dW (mover 16).words 1 = 1 * 64) ∧ (dW (mover 16).words 3 = 64)
      ∧ ((scratch { poison := true : LineCell } 65535 (mover 16)).rangeRights ((scratch { poison := true : LineCell } 65535 (mover 16)).ring 65535).owner false (1 * 64, 64, true) = true)
      ∧ ((scratch { poison := true : LineCell } 65535 (mover 16)).working 65535 16 { words := (mover 16).words : Active }) ∧ (dW (mover 16).words 2 = 2 * 64)
      ∧ ((scratch { poison := true : LineCell } 65535 (mover 16)).atRest 2)
      ∧ ((scratch { poison := true : LineCell } 65535 (mover 16)).regionOf 2 = some (1, rgn1 8192))
      ∧ ((scratch { poison := true : LineCell } 65535 (mover 16)).rangeRights ((scratch { poison := true : LineCell } 65535 (mover 16)).ring 65535).owner false (2 * 64, 64, false) = true)
      ∧ (65535 < 65536) ∧ (2 < 2 ^ 39) ∧ (1 < 2 ^ 39))
    -- copy
    ∧ (((scratch { data := 171 : LineCell } 65535 (mover 16)).on = true) ∧ ((scratch { data := 171 : LineCell } 65535 (mover 16)).atRest 1)
      ∧ ((scratch { data := 171 : LineCell } 65535 (mover 16)).regionOf 1 = some (1, rgn1 8192)) ∧ ((rgn1 8192).window = 2) ∧ ((rgn1 8192).coh = 0)
      ∧ (((scratch { data := 171 : LineCell } 65535 (mover 16)).ring 65535).act = some { words := (mover 16).words : Active }) ∧ (dW (mover 16).words 1 = 1 * 64)
      ∧ (dW (mover 16).words 3 = 64)
      ∧ ((scratch { data := 171 : LineCell } 65535 (mover 16)).rangeRights ((scratch { data := 171 : LineCell } 65535 (mover 16)).ring 65535).owner false (1 * 64, 64, true) = true)
      ∧ ((scratch { data := 171 : LineCell } 65535 (mover 16)).working 65535 16 { words := (mover 16).words : Active }) ∧ (dW (mover 16).words 2 = 2 * 64)
      ∧ ((scratch { data := 171 : LineCell } 65535 (mover 16)).atRest 2)
      ∧ ((scratch { data := 171 : LineCell } 65535 (mover 16)).regionOf 2 = some (1, rgn1 8192))
      ∧ ((scratch { data := 171 : LineCell } 65535 (mover 16)).rangeRights ((scratch { data := 171 : LineCell } 65535 (mover 16)).ring 65535).owner false (2 * 64, 64, false) = true)
      ∧ (65535 < 65536) ∧ (2 < 2 ^ 39) ∧ (1 < 2 ^ 39)) := by and_intros <;> decide
theorem witness_AtomicsChangeTheirOperand :
    -- fadd
    (((scratch { : LineCell } 65535 (atomic 0 0)).on = true) ∧ ((scratch { : LineCell } 65535 (atomic 0 0)).atRest 1)
      ∧ ((scratch { : LineCell } 65535 (atomic 0 0)).regionOf 1 = some (1, rgn1 8192)) ∧ ((rgn1 8192).window = 2) ∧ ((rgn1 8192).coh = 0)
      ∧ (dW (atomic 0 0).words 1 = 1 * 64 + 56) ∧ (56 < 64) ∧ ((scratch { : LineCell } 65535 (atomic 0 0)).poolCell ((rgn1 8192).poolLine 1) = { : LineCell })
      ∧ ({ : LineCell }.poison = false) ∧ ((scratch { : LineCell } 65535 (atomic 0 0)).working 65535 64 { words := (atomic 0 0).words : Active })
      ∧ ((Instr.fadd 65535, dSub (atomic 0 0).words, BitVec.extractLsb' (8 * 56) 64 { : LineCell }.data + lineWord (atomic 0 0).words 4) ∈ [(Instr.fadd 65535, 0, BitVec.extractLsb' (8 * 56) 64 { : LineCell }.data + lineWord (atomic 0 0).words 4), (Instr.fand 65535, 1, BitVec.extractLsb' (8 * 56) 64 { : LineCell }.data &&& lineWord (atomic 0 0).words 4), (Instr.atomicFor 65535, 2, BitVec.extractLsb' (8 * 56) 64 { : LineCell }.data ||| lineWord (atomic 0 0).words 4), (Instr.swap 65535, 3, lineWord (atomic 0 0).words 4)]))
    -- swap
    ∧ (((scratch { : LineCell } 65535 (atomic 3 0)).on = true) ∧ ((scratch { : LineCell } 65535 (atomic 3 0)).atRest 1)
      ∧ ((scratch { : LineCell } 65535 (atomic 3 0)).regionOf 1 = some (1, rgn1 8192)) ∧ ((rgn1 8192).window = 2) ∧ ((rgn1 8192).coh = 0)
      ∧ (dW (atomic 3 0).words 1 = 1 * 64 + 56) ∧ (56 < 64) ∧ ((scratch { : LineCell } 65535 (atomic 3 0)).poolCell ((rgn1 8192).poolLine 1) = { : LineCell })
      ∧ ({ : LineCell }.poison = false) ∧ ((scratch { : LineCell } 65535 (atomic 3 0)).working 65535 64 { words := (atomic 3 0).words : Active })
      ∧ ((Instr.swap 65535, dSub (atomic 3 0).words, lineWord (atomic 3 0).words 4) ∈ [(Instr.fadd 65535, 0, BitVec.extractLsb' (8 * 56) 64 { : LineCell }.data + lineWord (atomic 3 0).words 4), (Instr.fand 65535, 1, BitVec.extractLsb' (8 * 56) 64 { : LineCell }.data &&& lineWord (atomic 3 0).words 4), (Instr.atomicFor 65535, 2, BitVec.extractLsb' (8 * 56) 64 { : LineCell }.data ||| lineWord (atomic 3 0).words 4), (Instr.swap 65535, 3, lineWord (atomic 3 0).words 4)]))
    -- fand
    ∧ (((scratch { : LineCell } 65535 (atomic 1 0)).on = true) ∧ ((scratch { : LineCell } 65535 (atomic 1 0)).atRest 1)
      ∧ ((scratch { : LineCell } 65535 (atomic 1 0)).regionOf 1 = some (1, rgn1 8192)) ∧ ((rgn1 8192).window = 2) ∧ ((rgn1 8192).coh = 0)
      ∧ (dW (atomic 1 0).words 1 = 1 * 64 + 56) ∧ (56 < 64) ∧ ((scratch { : LineCell } 65535 (atomic 1 0)).poolCell ((rgn1 8192).poolLine 1) = { : LineCell })
      ∧ ({ : LineCell }.poison = false) ∧ ((scratch { : LineCell } 65535 (atomic 1 0)).working 65535 64 { words := (atomic 1 0).words : Active })
      ∧ ((Instr.fand 65535, dSub (atomic 1 0).words, 0) ∈ [(Instr.fadd 65535, 0, BitVec.extractLsb' (8 * 56) 64 { : LineCell }.data + lineWord (atomic 1 0).words 4), (Instr.fand 65535, 1, BitVec.extractLsb' (8 * 56) 64 { : LineCell }.data &&& lineWord (atomic 1 0).words 4), (Instr.atomicFor 65535, 2, BitVec.extractLsb' (8 * 56) 64 { : LineCell }.data ||| lineWord (atomic 1 0).words 4), (Instr.swap 65535, 3, lineWord (atomic 1 0).words 4)]))
    -- for
    ∧ (((scratch { : LineCell } 65535 (atomic 2 0)).on = true) ∧ ((scratch { : LineCell } 65535 (atomic 2 0)).atRest 1)
      ∧ ((scratch { : LineCell } 65535 (atomic 2 0)).regionOf 1 = some (1, rgn1 8192)) ∧ ((rgn1 8192).window = 2) ∧ ((rgn1 8192).coh = 0)
      ∧ (dW (atomic 2 0).words 1 = 1 * 64 + 56) ∧ (56 < 64) ∧ ((scratch { : LineCell } 65535 (atomic 2 0)).poolCell ((rgn1 8192).poolLine 1) = { : LineCell })
      ∧ ({ : LineCell }.poison = false) ∧ ((scratch { : LineCell } 65535 (atomic 2 0)).working 65535 64 { words := (atomic 2 0).words : Active })
      ∧ ((Instr.atomicFor 65535, dSub (atomic 2 0).words, lineWord (atomic 2 0).words 4) ∈ [(Instr.fadd 65535, 0, BitVec.extractLsb' (8 * 56) 64 { : LineCell }.data + lineWord (atomic 2 0).words 4), (Instr.fand 65535, 1, BitVec.extractLsb' (8 * 56) 64 { : LineCell }.data &&& lineWord (atomic 2 0).words 4), (Instr.atomicFor 65535, 2, BitVec.extractLsb' (8 * 56) 64 { : LineCell }.data ||| lineWord (atomic 2 0).words 4), (Instr.swap 65535, 3, lineWord (atomic 2 0).words 4)]))
    -- cas
    ∧ (((scratch { : LineCell } 65535 (atomic 4 0)).on = true) ∧ ((scratch { : LineCell } 65535 (atomic 4 0)).atRest 1)
      ∧ ((scratch { : LineCell } 65535 (atomic 4 0)).regionOf 1 = some (1, rgn1 8192)) ∧ ((rgn1 8192).window = 2) ∧ ((rgn1 8192).coh = 0)
      ∧ (dW (atomic 4 0).words 1 = 1 * 64 + 48) ∧ (48 < 64) ∧ ((scratch { : LineCell } 65535 (atomic 4 0)).poolCell ((rgn1 8192).poolLine 1) = { : LineCell })
      ∧ ({ : LineCell }.poison = false) ∧ ((scratch { : LineCell } 65535 (atomic 4 0)).working 65535 64 { words := (atomic 4 0).words : Active })
      ∧ (dSub (atomic 4 0).words = 4) ∧ (dW (atomic 4 0).words 2 = 0)
      ∧ (0 ≠ 0 → (scratch { : LineCell } 65535 (atomic 4 0)).atRest (0 / 64) ∧ (scratch { : LineCell } 65535 (atomic 4 0)).regionOf (0 / 64) = some (1, rgn1 8192) ∧ (rgn1 8192).window = 2 ∧ (rgn1 8192).coh = 0))
    -- casRes
    ∧ (((scratch { : LineCell } 65535 (atomic 4 176)).on = true) ∧ ((scratch { : LineCell } 65535 (atomic 4 176)).atRest 1)
      ∧ ((scratch { : LineCell } 65535 (atomic 4 176)).regionOf 1 = some (1, rgn1 8192)) ∧ ((rgn1 8192).window = 2) ∧ ((rgn1 8192).coh = 0)
      ∧ (dW (atomic 4 176).words 1 = 1 * 64 + 48) ∧ (48 < 64)
      ∧ ((scratch { : LineCell } 65535 (atomic 4 176)).poolCell ((rgn1 8192).poolLine 1) = { : LineCell }) ∧ ({ : LineCell }.poison = false)
      ∧ ((scratch { : LineCell } 65535 (atomic 4 176)).working 65535 64 { words := (atomic 4 176).words : Active }) ∧ (dSub (atomic 4 176).words = 4)
      ∧ (dW (atomic 4 176).words 2 = 176) ∧ ((scratch { : LineCell } 65535 (atomic 4 176)).atRest (176 / 64))
      ∧ ((scratch { : LineCell } 65535 (atomic 4 176)).regionOf (176 / 64) = some (1, rgn1 8192))) := by
  and_intros <;> first | decide | (unfold State.atRest; decide)
theorem witness_QuiesceHoldsARegion :
    -- drain
    (((quiesceDev 0 false true []).on = true) ∧ ((quiesceDev 0 false true []).working 65535 3 { words := desc 3 0 [0, 1] : Active })
      ∧ (dRegion { words := desc 3 0 [0, 1] : Active }.words = 1) ∧ ({ words := desc 3 0 [0, 1] : Active }.started = false)
      ∧ ((quiesceDev 0 false true []).regionBusy 1 = true) ∧ (dSub { words := desc 3 0 [0, 1] : Active }.words = if false = true then 1 else 0))
    -- hold
    ∧ (((quiesceDev 1 false true []).on = true) ∧ ((quiesceDev 1 false true []).working 65535 3 { words := desc 3 1 [0, 1] : Active })
      ∧ (dRegion { words := desc 3 1 [0, 1] : Active }.words = 1) ∧ ({ words := desc 3 1 [0, 1] : Active }.started = false)
      ∧ ((quiesceDev 1 false true []).regionBusy 1 = true) ∧ (dSub { words := desc 3 1 [0, 1] : Active }.words = if true = true then 1 else 0))
    -- drained
    ∧ (((quiesceDev 0 true false [{ region := 1, ring := 65535, ms := 500 : QHold }]).on = true)
      ∧ ((quiesceDev 0 true false [{ region := 1, ring := 65535, ms := 500 : QHold }]).working 65535 3 { words := desc 3 0 [0, 1], started := true : Active })
      ∧ (dRegion { words := desc 3 0 [0, 1], started := true : Active }.words = 1) ∧ ({ words := desc 3 0 [0, 1], started := true : Active }.started = true)
      ∧ ((quiesceDev 0 true false [{ region := 1, ring := 65535, ms := 500 : QHold }]).regionBusy 1 = false)
      ∧ ((quiesceDev 0 true false [{ region := 1, ring := 65535, ms := 500 : QHold }]).descBusy 65535 1 = false)
      ∧ ((quiesceDev 0 true false [{ region := 1, ring := 65535, ms := 500 : QHold }]).rng.qheld = [])
      ∧ (dSub { words := desc 3 0 [0, 1], started := true : Active }.words = 0))
    -- held
    ∧ (((quiesceDev 1 true false [{ region := 1, ring := 65535, keeps := true, ms := 500 : QHold }]).on = true)
      ∧ ((quiesceDev 1 true false [{ region := 1, ring := 65535, keeps := true, ms := 500 : QHold }]).working 65535 3 { words := desc 3 1 [0, 1], started := true : Active })
      ∧ (dRegion { words := desc 3 1 [0, 1], started := true : Active }.words = 1) ∧ ({ words := desc 3 1 [0, 1], started := true : Active }.started = true)
      ∧ ((quiesceDev 1 true false [{ region := 1, ring := 65535, keeps := true, ms := 500 : QHold }]).regionBusy 1 = false)
      ∧ ((quiesceDev 1 true false [{ region := 1, ring := 65535, keeps := true, ms := 500 : QHold }]).descBusy 65535 1 = false)
      ∧ ((quiesceDev 1 true false [{ region := 1, ring := 65535, keeps := true, ms := 500 : QHold }]).rng.qheld = [])
      ∧ (dSub { words := desc 3 1 [0, 1], started := true : Active }.words = 1))
    -- release
    ∧ (((quiesceDev 2 false false [{ region := 1, ring := 5, keeps := true, ends := some 0, ms := 500 : QHold }]).on = true)
      ∧ ((quiesceDev 2 false false [{ region := 1, ring := 5, keeps := true, ends := some 0, ms := 500 : QHold }]).working 65535 3 { words := desc 3 2 [0, 1] : Active })
      ∧ (dSub { words := desc 3 2 [0, 1] : Active }.words = 2) ∧ (dRegion { words := desc 3 2 [0, 1] : Active }.words = 1)
      ∧ ((quiesceDev 2 false false [{ region := 1, ring := 5, keeps := true, ends := some 0, ms := 500 : QHold }]).rng.qheld = []))
    -- over
    ∧ (((quiesceDev 0 false false [{ region := 1, ring := 5, keeps := true, ends := some 0, ms := 500 : QHold }]).on = true)
      ∧ (List.find? (fun q => decide (q.region = 1) && q.keeps && q.ends.isSome) (quiesceDev 0 false false [{ region := 1, ring := 5, keeps := true, ends := some 0, ms := 500 : QHold }]).rng.qholds = some { region := 1, ring := 5, keeps := true, ends := some 0, ms := 500 : QHold })
      ∧ ({ region := 1, ring := 5, keeps := true, ends := some 0, ms := 500 : QHold }.ends = some 0)
      ∧ (0 ≤ (quiesceDev 0 false false [{ region := 1, ring := 5, keeps := true, ends := some 0, ms := 500 : QHold }]).clock)
      ∧ ((quiesceDev 0 false false [{ region := 1, ring := 5, keeps := true, ends := some 0, ms := 500 : QHold }]).rng.qheld = [])) := by and_intros <;> decide
theorem witness_SealsSyncTheTiles :
    -- l1
    (((onRing (dev 1) 65535 (sealAct 1)).on = true) ∧ ((onRing (dev 1) 65535 (sealAct 1)).vlt.stopped = false)
      ∧ ((onRing (dev 1) 65535 (sealAct 1)).near.wb = []) ∧ ((onRing (dev 1) 65535 (sealAct 1)).rng.seals = []) ∧ ((sealAct 1).started = false)
      ∧ (((onRing (dev 1) 65535 (sealAct 1)).region ((onRing (dev 1) 65535 (sealAct 1)).sealScope (sealAct 1).words).1).dlost = false)
      ∧ (wayMask (onRing (dev 1) 65535 (sealAct 1)).liveTiles ≠ 0) ∧ ((onRing (dev 1) 65535 (sealAct 1)).working 65535 2 (sealAct 1))
      ∧ ((Instr.sealL1 65535, 1) ∈ [(Instr.sealL1 65535, 1), (Instr.sealL2 65535, 2), (Instr.sealL3 65535, 3)]) ∧ (dSub (sealAct 1).words = 1)
      ∧ (1 = 2 → ((onRing (dev 1) 65535 (sealAct 1)).region ((onRing (dev 1) 65535 (sealAct 1)).sealScope (sealAct 1).words).1).mirror = true → ((onRing (dev 1) 65535 (sealAct 1)).slvRgn ((onRing (dev 1) 65535 (sealAct 1)).sealScope (sealAct 1).words).1).mst = 3)
      ∧ (1 = 3 → (onRing (dev 1) 65535 (sealAct 1)).beamUp = true))
    -- l2
    ∧ (((onRing (dev 1) 65535 (sealAct 2)).on = true) ∧ ((onRing (dev 1) 65535 (sealAct 2)).vlt.stopped = false)
      ∧ ((onRing (dev 1) 65535 (sealAct 2)).near.wb = []) ∧ ((onRing (dev 1) 65535 (sealAct 2)).rng.seals = []) ∧ ((sealAct 2).started = false)
      ∧ (((onRing (dev 1) 65535 (sealAct 2)).region ((onRing (dev 1) 65535 (sealAct 2)).sealScope (sealAct 2).words).1).dlost = false)
      ∧ (wayMask (onRing (dev 1) 65535 (sealAct 2)).liveTiles ≠ 0) ∧ ((onRing (dev 1) 65535 (sealAct 2)).working 65535 2 (sealAct 2))
      ∧ ((Instr.sealL2 65535, 2) ∈ [(Instr.sealL1 65535, 1), (Instr.sealL2 65535, 2), (Instr.sealL3 65535, 3)]) ∧ (dSub (sealAct 2).words = 2)
      ∧ (2 = 2 → ((onRing (dev 1) 65535 (sealAct 2)).region ((onRing (dev 1) 65535 (sealAct 2)).sealScope (sealAct 2).words).1).mirror = true → ((onRing (dev 1) 65535 (sealAct 2)).slvRgn ((onRing (dev 1) 65535 (sealAct 2)).sealScope (sealAct 2).words).1).mst = 3)
      ∧ (2 = 3 → (onRing (dev 1) 65535 (sealAct 2)).beamUp = true))
    -- l3
    ∧ (((onRing atSealsSyncTheTilesL3 65535 (sealAct 3)).on = true) ∧ ((onRing atSealsSyncTheTilesL3 65535 (sealAct 3)).vlt.stopped = false)
      ∧ ((onRing atSealsSyncTheTilesL3 65535 (sealAct 3)).near.wb = []) ∧ ((onRing atSealsSyncTheTilesL3 65535 (sealAct 3)).rng.seals = [])
      ∧ ((sealAct 3).started = false)
      ∧ (((onRing atSealsSyncTheTilesL3 65535 (sealAct 3)).region ((onRing atSealsSyncTheTilesL3 65535 (sealAct 3)).sealScope (sealAct 3).words).1).dlost = false)
      ∧ (wayMask (onRing atSealsSyncTheTilesL3 65535 (sealAct 3)).liveTiles ≠ 0) ∧ ((onRing atSealsSyncTheTilesL3 65535 (sealAct 3)).working 65535 2 (sealAct 3))
      ∧ ((Instr.sealL3 65535, 3) ∈ [(Instr.sealL1 65535, 1), (Instr.sealL2 65535, 2), (Instr.sealL3 65535, 3)]) ∧ (dSub (sealAct 3).words = 3)
      ∧ (3 = 2 → ((onRing atSealsSyncTheTilesL3 65535 (sealAct 3)).region ((onRing atSealsSyncTheTilesL3 65535 (sealAct 3)).sealScope (sealAct 3).words).1).mirror = true → ((onRing atSealsSyncTheTilesL3 65535 (sealAct 3)).slvRgn ((onRing atSealsSyncTheTilesL3 65535 (sealAct 3)).sealScope (sealAct 3).words).1).mst = 3)
      ∧ (3 = 3 → (onRing atSealsSyncTheTilesL3 65535 (sealAct 3)).beamUp = true))
    -- end1
    ∧ (((sealDev 1).on = true) ∧ ((sealDev 1).vlt.stopped = false) ∧ ((sealDev 1).near.wb = []) ∧ ((sealDev 1).rng.seals = [sealOut 1])
      ∧ ((sealOut 1).ring = 65535) ∧ (65535 < 65536) ∧ ((sealOut 1).tiles.getLsbD 15 = true) ∧ (putBit (sealOut 1).tiles 15 false = 0) ∧ ((sealOut 1).level = 1)
      ∧ ((sealOut 1).reqs = []) ∧ ((sealOut 1).lost = false) ∧ ((sealOut 1).mirrorLost = false) ∧ ((sealOut 1).noMirror = false))
    -- wait3
    ∧ (((sealDev 3).on = true) ∧ ((sealDev 3).vlt.stopped = false) ∧ ((sealDev 3).near.wb = []) ∧ ((sealDev 3).rng.seals = [sealOut 3])
      ∧ ((sealOut 3).ring = 65535) ∧ ((sealOut 3).tiles.getLsbD 15 = true) ∧ (putBit (sealOut 3).tiles 15 false = 0) ∧ ((sealOut 3).level = 3)
      ∧ ((sealDev 3).map.pages = []) ∧ ((sealDev 3).map.marks = []) ∧ ((sealOut 3).lost = false) ∧ ((sealOut 3).mirrorLost = false)
      ∧ ((sealDev 3).beam.commit = none)) := by and_intros <;> decide
theorem witness_RingContextsTakeTheirWords :
    -- queues
    (((dev 0).on = true) ∧ ((dev 0).reaches 16 = true) ∧ (65535 < 65536) ∧ ((dev 0).isMgmt 16 = true) ∧ (((dev 0).ring 65535).en = false))
    -- live
    ∧ (((ringDev 65535 (hostRing RingSt.idle)).on = true) ∧ ((ringDev 65535 (hostRing RingSt.idle)).reaches 16 = true) ∧ (65535 < 65536)
      ∧ ((ringDev 65535 (hostRing RingSt.idle)).isMgmt 16 = true) ∧ (((ringDev 65535 (hostRing RingSt.idle)).ring 65535).en = true)
      ∧ (18446744073709551615 &&& 18446744073709547583 ≠ ((ringDev 65535 (hostRing RingSt.idle)).ring 65535).sq))
    -- refuse
    ∧ (((ringDev 65535 atRingContextsTakeTheirWordsRefuse).on = true) ∧ ((ringDev 65535 atRingContextsTakeTheirWordsRefuse).reaches 16 = true) ∧ (65535 < 65536)
      ∧ ((ringDev 65535 atRingContextsTakeTheirWordsRefuse).isMgmt 16 = true) ∧ (((ringDev 65535 atRingContextsTakeTheirWordsRefuse).ring 65535).ctl &&& 1 = 0)
      ∧ (flag 1 0 = true)
      ∧ (atRingContextsTakeTheirWordsRefuse = have __src := (ringDev 65535 atRingContextsTakeTheirWordsRefuse).ring 65535; { sq := __src.sq, cq := __src.cq, ctl := 1 &&& 137438953462, phase := __src.phase, st := __src.st, err := __src.err, sqHead := __src.sqHead, sqTail := __src.sqTail, cqTail := __src.cqTail, cqHead := __src.cqHead, act := __src.act, coalN := __src.coalN, coalAt := __src.coalAt, order := __src.order, served := __src.served, quiet := __src.quiet, mute := __src.mute : Machine.Ring })
      ∧ (atRingContextsTakeTheirWordsRefuse ≠ { : Machine.Ring } ∨ (ringDev 65535 atRingContextsTakeTheirWordsRefuse).rng.rings = [])
      ∧ (((ringDev 65535 atRingContextsTakeTheirWordsRefuse).modRing 65535 fun x => atRingContextsTakeTheirWordsRefuse).ringCheck 65535 atRingContextsTakeTheirWordsRefuse ≠ 0))
    -- enable
    ∧ (((ringDev 65535 atRingContextsTakeTheirWordsRefuse).on = true) ∧ ((ringDev 65535 atRingContextsTakeTheirWordsRefuse).reaches 16 = true) ∧ (65535 < 65536)
      ∧ ((ringDev 65535 atRingContextsTakeTheirWordsRefuse).isMgmt 16 = true) ∧ (((ringDev 65535 atRingContextsTakeTheirWordsRefuse).ring 65535).ctl &&& 1 = 0)
      ∧ (flag 5 0 = true)
      ∧ (atRingContextsTakeTheirWordsEnable = have __src := (ringDev 65535 atRingContextsTakeTheirWordsRefuse).ring 65535; { sq := __src.sq, cq := __src.cq, ctl := 5 &&& 137438953462, phase := __src.phase, st := __src.st, err := __src.err, sqHead := __src.sqHead, sqTail := __src.sqTail, cqTail := __src.cqTail, cqHead := __src.cqHead, act := __src.act, coalN := __src.coalN, coalAt := __src.coalAt, order := __src.order, served := __src.served, quiet := __src.quiet, mute := __src.mute : Machine.Ring })
      ∧ (atRingContextsTakeTheirWordsEnable ≠ { : Machine.Ring } ∨ (ringDev 65535 atRingContextsTakeTheirWordsRefuse).rng.rings = [])
      ∧ (((ringDev 65535 atRingContextsTakeTheirWordsRefuse).modRing 65535 fun x => atRingContextsTakeTheirWordsEnable).ringCheck 65535 atRingContextsTakeTheirWordsEnable = 0)
      ∧ (atRingContextsTakeTheirWordsEnable.mmio = true)) := by and_intros <;> decide
theorem witness_RingContextsTakeTheirWords_disable :
    (((ringDev 65535 (hostRing RingSt.idle)).on = true)
      ∧ ((ringDev 65535 (hostRing RingSt.idle)).reaches 16 = true)
      ∧ (65535 < 65536)
      ∧ ((ringDev 65535 (hostRing RingSt.idle)).isMgmt 16 = true)
      ∧ (((ringDev 65535 (hostRing RingSt.idle)).ring 65535).en = true)
      ∧ (((ringDev 65535 (hostRing RingSt.idle)).ring 65535).st ≠ RingSt.off)
      ∧ (flag 4 0 = false)
      ∧ (4 &&& 246 = ((ringDev 65535 (hostRing RingSt.idle)).ring 65535).ctl &&& 246))
    ∧ (∀ (a : Active), ((ringDev 65535 (hostRing RingSt.idle)).ring 65535).act = some a → a.status ≠ none) :=
  ⟨by decide,
    (fun a ha => by simp [ringDev, State.ring, Tbl.get, hostRing] at ha)⟩
theorem witness_DoorbellsMoveTheirRings :
    -- mmio
    (((ringDev 65535 atDoorbellsMoveTheirRingsMmio).on = true) ∧ (0 < 16) ∧ ((ringDev 65535 atDoorbellsMoveTheirRingsMmio).reaches 0 = true)
      ∧ (Tbl.get 0 (ringDev 65535 atDoorbellsMoveTheirRingsMmio).pwr.quiet 0 = 0) ∧ (fld 844429225230335 0 16 = 65535)
      ∧ (((ringDev 65535 atDoorbellsMoveTheirRingsMmio).ring 65535).owner = 0) ∧ (((ringDev 65535 atDoorbellsMoveTheirRingsMmio).ring 65535).mmio = true)
      ∧ (((ringDev 65535 atDoorbellsMoveTheirRingsMmio).ring 65535).st = RingSt.idle) ∧ (flag 844429225230335 48 = true) ∧ (flag 844429225230335 49 = true)
      ∧ (((ringDev 65535 atDoorbellsMoveTheirRingsMmio).ring 65535).tailOk (fld 844429225230335 16 16) = true)
      ∧ (((ringDev 65535 atDoorbellsMoveTheirRingsMmio).ring 65535).headOk (fld 844429225230335 32 16) = true)
      ∧ (fld 844429225230335 16 16 ≠ ((ringDev 65535 atDoorbellsMoveTheirRingsMmio).ring 65535).sqTail))
    -- range
    ∧ (((ringDev 65535 (hostRing RingSt.idle)).on = true) ∧ (0 < 16) ∧ ((ringDev 65535 (hostRing RingSt.idle)).reaches 0 = true)
      ∧ (Tbl.get 0 (ringDev 65535 (hostRing RingSt.idle)).pwr.quiet 0 = 0) ∧ (fld 844424930328575 0 16 = 65535)
      ∧ (((ringDev 65535 (hostRing RingSt.idle)).ring 65535).owner = 0) ∧ (((ringDev 65535 (hostRing RingSt.idle)).ring 65535).mmio = true)
      ∧ (((ringDev 65535 (hostRing RingSt.idle)).ring 65535).st = RingSt.idle) ∧ (flag 844424930328575 48 = true) ∧ (flag 844424930328575 49 = true)
      ∧ (((ringDev 65535 (hostRing RingSt.idle)).ring 65535).tailOk (fld 844424930328575 16 16) = false))
    -- line
    ∧ ((lineBell.on = true) ∧ (0 < 16) ∧ (lineBell.admits 0 4194240 true dec0 1 (rgn1 4096)) ∧ (lineBell.atRest (dec0.toDpa 4194240 / 64))
      ∧ ((rgn1 4096).coh = 0) ∧ ((rgn1 4096).window = 1) ∧ (dec0.toDpa 4194240 / 64 - (rgn1 4096).base * 32768 = 65535)
      ∧ (lineBell.poolDead ((rgn1 4096).poolLine (dec0.toDpa 4194240 / 64)) = false) ∧ (4294967297 ≠ 0 ∨ lineBell.near.scr = [])
      ∧ ((lineBell.ring 65535).owner = 0) ∧ ((lineBell.ring 65535).mmio = false) ∧ ((lineBell.ring 65535).st = RingSt.idle)
      ∧ ((lineBell.ring 65535).tailOk (fld (lineWord 4294967297 0) 0 16) = true) ∧ ((lineBell.ring 65535).headOk (fld (lineWord 4294967297 0) 32 16) = true)
      ∧ (fld (lineWord 4294967297 0) 0 16 ≠ (lineBell.ring 65535).sqTail)) := by and_intros <;> decide
theorem witness_BrakesAreSetAndReleased :
    -- set
    (((brakeDev { : Brake }).on = true) ∧ ((brakeDev { : Brake }).reaches 0 = true) ∧ ((brakeDev { : Brake }).present 0 = true)
      ∧ (((brakeDev { : Brake }).head 0).brake = { : Brake }) ∧ ((brakeDev { : Brake }).isMgmt 0 = false) ∧ (flag 1 1 = { : Brake }.mgmt) ∧ (flag 1 0 = true))
    -- release
    ∧ (((brakeDev { self := true : Brake }).on = true) ∧ ((brakeDev { self := true : Brake }).reaches 0 = true)
      ∧ ((brakeDev { self := true : Brake }).present 0 = true) ∧ (((brakeDev { self := true : Brake }).head 0).brake = { self := true : Brake })
      ∧ ((brakeDev { self := true : Brake }).isMgmt 0 = false) ∧ (flag 0 1 = { self := true : Brake }.mgmt) ∧ (flag 0 0 = false)
      ∧ ({ self := true : Brake }.mgmt = false) ∧ ({ self := true : Brake }.gate = []) ∧ (((brakeDev { self := true : Brake }).head 0).kept = 0)
      ∧ (((brakeDev { self := true : Brake }).head 0).waitQ = []) ∧ (0 ≠ 16))
    -- rings
    ∧ (((brakeDev { : Brake }).on = true) ∧ ((brakeDev { : Brake }).reaches 0 = true) ∧ ((brakeDev { : Brake }).present 0 = true)
      ∧ (((brakeDev { : Brake }).head 0).brake = { : Brake }) ∧ ((brakeDev { : Brake }).isMgmt 0 = false) ∧ (flag 4 1 = { : Brake }.mgmt) ∧ (flag 4 2 = true)
      ∧ (flag 4 0 = { : Brake }.self))
    -- mgmt
    ∧ (((brakeDev { : Brake }).on = true) ∧ ((brakeDev { : Brake }).reaches 0 = true) ∧ ((brakeDev { : Brake }).present 0 = true)
      ∧ (((brakeDev { : Brake }).head 0).brake = { : Brake }) ∧ ((brakeDev { : Brake }).reaches 16 = true) ∧ (0 ≠ 16) ∧ (flag 2 0 = { : Brake }.self)
      ∧ (flag 2 1 = true) ∧ (flag 2 2 = { : Brake }.rings)) := by and_intros <;> decide
theorem witness_DescriptorsStartAndComplete :
    -- fetch
    (((ringDev 65535 atDescriptorsStartAndCompleteFetch).on = true)
      ∧ ((ringDev 65535 atDescriptorsStartAndCompleteFetch).ring 65535 = atDescriptorsStartAndCompleteFetch)
      ∧ ((ringDev 65535 atDescriptorsStartAndCompleteFetch).descHeld 65535 = false) ∧ (atDescriptorsStartAndCompleteFetch.st = RingSt.run)
      ∧ (atDescriptorsStartAndCompleteFetch.act = none) ∧ (atDescriptorsStartAndCompleteFetch.sqHead ≠ atDescriptorsStartAndCompleteFetch.sqTail)
      ∧ ((ringDev 65535 atDescriptorsStartAndCompleteFetch).tileRetired (65535 % 16) = false)
      ∧ ((ringDev 65535 atDescriptorsStartAndCompleteFetch).hasSlot 65535 = true) ∧ (atDescriptorsStartAndCompleteFetch.cqFree = true)
      ∧ (atDescriptorsStartAndCompleteFetch.sqHost = true)
      ∧ (((ringDev 65535 atDescriptorsStartAndCompleteFetch).head atDescriptorsStartAndCompleteFetch.owner).func.busMaster = true))
    -- waits
    ∧ (((ringDev 65535 atDescriptorsStartAndCompleteWaits).on = true)
      ∧ ((ringDev 65535 atDescriptorsStartAndCompleteWaits).ring 65535 = atDescriptorsStartAndCompleteWaits)
      ∧ ((ringDev 65535 atDescriptorsStartAndCompleteWaits).descHeld 65535 = false) ∧ (atDescriptorsStartAndCompleteWaits.st = RingSt.run)
      ∧ (atDescriptorsStartAndCompleteWaits.act = none) ∧ (atDescriptorsStartAndCompleteWaits.sqHead ≠ atDescriptorsStartAndCompleteWaits.sqTail)
      ∧ ((ringDev 65535 atDescriptorsStartAndCompleteWaits).tileRetired (65535 % 16) = false)
      ∧ ((ringDev 65535 atDescriptorsStartAndCompleteWaits).hasSlot 65535 = true) ∧ (atDescriptorsStartAndCompleteWaits.cqFree = false))
    -- nop
    ∧ (((ringDev 65535 (workRing { words := desc 1 0 [] : Active } RingSt.run)).on = true)
      ∧ ((ringDev 65535 (workRing { words := desc 1 0 [] : Active } RingSt.run)).ring 65535 = workRing { words := desc 1 0 [] : Active } RingSt.run)
      ∧ ((ringDev 65535 (workRing { words := desc 1 0 [] : Active } RingSt.run)).descHeld 65535 = false)
      ∧ ((ringDev 65535 (workRing { words := desc 1 0 [] : Active } RingSt.run)).working 65535 1 { words := desc 1 0 [] : Active })
      ∧ (Instr.nop 65535 ∈ [Instr.nop 65535, Instr.descriptorStep 65535]))
    -- complete
    ∧ (((ringDev 65535 (workRing { words := desc 1 0 [], status := some 0 : Active } RingSt.run)).on = true)
      ∧ ((ringDev 65535 (workRing { words := desc 1 0 [], status := some 0 : Active } RingSt.run)).ring 65535 = workRing { words := desc 1 0 [], status := some 0 : Active } RingSt.run)
      ∧ ((ringDev 65535 (workRing { words := desc 1 0 [], status := some 0 : Active } RingSt.run)).descHeld 65535 = false)
      ∧ ((workRing { words := desc 1 0 [], status := some 0 : Active } RingSt.run).act = some { words := desc 1 0 [], status := some 0 : Active })
      ∧ ({ words := desc 1 0 [], status := some 0 : Active }.status ≠ none)
      ∧ ((ringDev 65535 (workRing { words := desc 1 0 [], status := some 0 : Active } RingSt.run)).vlt.stopped = false)
      ∧ ((ringDev 65535 (workRing { words := desc 1 0 [], status := some 0 : Active } RingSt.run)).engineDone 65535 = true)
      ∧ ((workRing { words := desc 1 0 [], status := some 0 : Active } RingSt.run).st = RingSt.run)
      ∧ ((workRing { words := desc 1 0 [], status := some 0 : Active } RingSt.run).mute = false)
      ∧ ((workRing { words := desc 1 0 [], status := some 0 : Active } RingSt.run).quiet = false)
      ∧ ((workRing { words := desc 1 0 [], status := some 0 : Active } RingSt.run).cqHost = true)
      ∧ (((ringDev 65535 (workRing { words := desc 1 0 [], status := some 0 : Active } RingSt.run)).head (workRing { words := desc 1 0 [], status := some 0 : Active } RingSt.run).owner).func.busMaster = true)
      ∧ ((workRing { words := desc 1 0 [], status := some 0 : Active } RingSt.run).irq < 2)
      ∧ ((Tbl.get { : MsixEntry } ((ringDev 65535 (workRing { words := desc 1 0 [], status := some 0 : Active } RingSt.run)).head (workRing { words := desc 1 0 [], status := some 0 : Active } RingSt.run).owner).func.msix (workRing { words := desc 1 0 [], status := some 0 : Active } RingSt.run).vector).masked = false))
    -- coalesced
    ∧ ((atDescriptorsStartAndCompleteCoalesced.on = true) ∧ (atDescriptorsStartAndCompleteCoalesced.ring 65535 = atDescriptorsStartAndCompleteCoalesced2)
      ∧ (atDescriptorsStartAndCompleteCoalesced.descHeld 65535 = false) ∧ (atDescriptorsStartAndCompleteCoalesced2.irq = 2)
      ∧ (atDescriptorsStartAndCompleteCoalesced2.coalN ≠ 0) ∧ (atDescriptorsStartAndCompleteCoalesced2.st ≠ RingSt.off)
      ∧ (atDescriptorsStartAndCompleteCoalesced2.coalAt + atDescriptorsStartAndCompleteCoalesced2.coalUs * 2000 ≤ atDescriptorsStartAndCompleteCoalesced.clock)
      ∧ ((Tbl.get { : MsixEntry } (atDescriptorsStartAndCompleteCoalesced.head atDescriptorsStartAndCompleteCoalesced2.owner).func.msix atDescriptorsStartAndCompleteCoalesced2.vector).masked = false)) := by and_intros <;> decide
theorem witness_RatesBucketsAndLoads :
    -- recompute
    (((dev 0).on = true))
    -- refill
    ∧ ((atRatesBucketsAndLoadsRefill.on = true) ∧ (atRatesBucketsAndLoadsRefill.present 0 = true)
      ∧ (Tbl.get { : Budget } atRatesBucketsAndLoadsRefill.qos.heads 0 = { : Budget }) ∧ (5 ≤ 7)
      ∧ (atRatesBucketsAndLoadsRefill.clock = { : Budget }.filledAt + 7)
      ∧ (atRatesBucketsAndLoadsRefill2 = { rd := min { : Budget }.rdCap ({ : Budget }.rd + { : Budget }.rdRate * 7), wr := min { : Budget }.wrCap ({ : Budget }.wr + { : Budget }.wrRate * 7), bm := min { : Budget }.bmCap ({ : Budget }.bm + { : Budget }.bmRate * 7), filledAt := atRatesBucketsAndLoadsRefill.clock : Budget }))
    -- severe
    ∧ (((loadDev2 { reqs := 4, demoted := 1 : Load } { rd := 0, filledAt := 20000 : Budget }).on = true)
      ∧ ((loadDev2 { reqs := 4, demoted := 1 : Load } { rd := 0, filledAt := 20000 : Budget }).present 0 = true)
      ∧ (((loadDev2 { reqs := 4, demoted := 1 : Load } { rd := 0, filledAt := 20000 : Budget }).head 0).load = { reqs := 4, demoted := 1 : Load })
      ∧ ((loadDev2 { reqs := 4, demoted := 1 : Load } { rd := 0, filledAt := 20000 : Budget }).budget 0 = { rd := 0, filledAt := 20000 : Budget })
      ∧ ({ reqs := 4, demoted := 1 : Load }.since + max 1 (fld (loadDev2 { reqs := 4, demoted := 1 : Load } { rd := 0, filledAt := 20000 : Budget }).qos.ctl 8 8) * 2000 ≤ (loadDev2 { reqs := 4, demoted := 1 : Load } { rd := 0, filledAt := 20000 : Budget }).clock)
      ∧ (3 = 3 ∧ ({ reqs := 4, demoted := 1 : Load }.demoted ≠ 0 ∧ { reqs := 4, demoted := 1 : Load }.reqs ≤ 4 * { reqs := 4, demoted := 1 : Load }.demoted ∨ 50 ≤ 0) ∨ 3 = 2 ∧ ¬({ reqs := 4, demoted := 1 : Load }.demoted ≠ 0 ∧ { reqs := 4, demoted := 1 : Load }.reqs ≤ 4 * { reqs := 4, demoted := 1 : Load }.demoted ∨ 50 ≤ 0) ∧ ({ reqs := 4, demoted := 1 : Load }.demoted ≠ 0 ∨ 10 ≤ 0) ∨ 3 = 1 ∧ { reqs := 4, demoted := 1 : Load }.demoted = 0 ∧ 0 < 10 ∧ (2 * { rd := 0, filledAt := 20000 : Budget }.rd < { rd := 0, filledAt := 20000 : Budget }.rdCap ∨ 2 * { rd := 0, filledAt := 20000 : Budget }.wr < { rd := 0, filledAt := 20000 : Budget }.wrCap) ∨ 3 = 0 ∧ { reqs := 4, demoted := 1 : Load }.demoted = 0 ∧ 0 < 10 ∧ { rd := 0, filledAt := 20000 : Budget }.rdCap ≤ 2 * { rd := 0, filledAt := 20000 : Budget }.rd ∧ { rd := 0, filledAt := 20000 : Budget }.wrCap ≤ 2 * { rd := 0, filledAt := 20000 : Budget }.wr))
    -- moderate
    ∧ (((loadDev2 { reqs := 5, demoted := 1 : Load } { rd := 0, filledAt := 20000 : Budget }).on = true)
      ∧ ((loadDev2 { reqs := 5, demoted := 1 : Load } { rd := 0, filledAt := 20000 : Budget }).present 0 = true)
      ∧ (((loadDev2 { reqs := 5, demoted := 1 : Load } { rd := 0, filledAt := 20000 : Budget }).head 0).load = { reqs := 5, demoted := 1 : Load })
      ∧ ((loadDev2 { reqs := 5, demoted := 1 : Load } { rd := 0, filledAt := 20000 : Budget }).budget 0 = { rd := 0, filledAt := 20000 : Budget })
      ∧ ({ reqs := 5, demoted := 1 : Load }.since + max 1 (fld (loadDev2 { reqs := 5, demoted := 1 : Load } { rd := 0, filledAt := 20000 : Budget }).qos.ctl 8 8) * 2000 ≤ (loadDev2 { reqs := 5, demoted := 1 : Load } { rd := 0, filledAt := 20000 : Budget }).clock)
      ∧ (2 = 3 ∧ ({ reqs := 5, demoted := 1 : Load }.demoted ≠ 0 ∧ { reqs := 5, demoted := 1 : Load }.reqs ≤ 4 * { reqs := 5, demoted := 1 : Load }.demoted ∨ 50 ≤ 49) ∨ 2 = 2 ∧ ¬({ reqs := 5, demoted := 1 : Load }.demoted ≠ 0 ∧ { reqs := 5, demoted := 1 : Load }.reqs ≤ 4 * { reqs := 5, demoted := 1 : Load }.demoted ∨ 50 ≤ 49) ∧ ({ reqs := 5, demoted := 1 : Load }.demoted ≠ 0 ∨ 10 ≤ 49) ∨ 2 = 1 ∧ { reqs := 5, demoted := 1 : Load }.demoted = 0 ∧ 49 < 10 ∧ (2 * { rd := 0, filledAt := 20000 : Budget }.rd < { rd := 0, filledAt := 20000 : Budget }.rdCap ∨ 2 * { rd := 0, filledAt := 20000 : Budget }.wr < { rd := 0, filledAt := 20000 : Budget }.wrCap) ∨ 2 = 0 ∧ { reqs := 5, demoted := 1 : Load }.demoted = 0 ∧ 49 < 10 ∧ { rd := 0, filledAt := 20000 : Budget }.rdCap ≤ 2 * { rd := 0, filledAt := 20000 : Budget }.rd ∧ { rd := 0, filledAt := 20000 : Budget }.wrCap ≤ 2 * { rd := 0, filledAt := 20000 : Budget }.wr))
    -- optimal
    ∧ (((loadDev2 { reqs := 5 : Load } { rd := 0, filledAt := 20000 : Budget }).on = true)
      ∧ ((loadDev2 { reqs := 5 : Load } { rd := 0, filledAt := 20000 : Budget }).present 0 = true)
      ∧ (((loadDev2 { reqs := 5 : Load } { rd := 0, filledAt := 20000 : Budget }).head 0).load = { reqs := 5 : Load })
      ∧ ((loadDev2 { reqs := 5 : Load } { rd := 0, filledAt := 20000 : Budget }).budget 0 = { rd := 0, filledAt := 20000 : Budget })
      ∧ ({ reqs := 5 : Load }.since + max 1 (fld (loadDev2 { reqs := 5 : Load } { rd := 0, filledAt := 20000 : Budget }).qos.ctl 8 8) * 2000 ≤ (loadDev2 { reqs := 5 : Load } { rd := 0, filledAt := 20000 : Budget }).clock)
      ∧ (1 = 3 ∧ ({ reqs := 5 : Load }.demoted ≠ 0 ∧ { reqs := 5 : Load }.reqs ≤ 4 * { reqs := 5 : Load }.demoted ∨ 50 ≤ 9) ∨ 1 = 2 ∧ ¬({ reqs := 5 : Load }.demoted ≠ 0 ∧ { reqs := 5 : Load }.reqs ≤ 4 * { reqs := 5 : Load }.demoted ∨ 50 ≤ 9) ∧ ({ reqs := 5 : Load }.demoted ≠ 0 ∨ 10 ≤ 9) ∨ 1 = 1 ∧ { reqs := 5 : Load }.demoted = 0 ∧ 9 < 10 ∧ (2 * { rd := 0, filledAt := 20000 : Budget }.rd < { rd := 0, filledAt := 20000 : Budget }.rdCap ∨ 2 * { rd := 0, filledAt := 20000 : Budget }.wr < { rd := 0, filledAt := 20000 : Budget }.wrCap) ∨ 1 = 0 ∧ { reqs := 5 : Load }.demoted = 0 ∧ 9 < 10 ∧ { rd := 0, filledAt := 20000 : Budget }.rdCap ≤ 2 * { rd := 0, filledAt := 20000 : Budget }.rd ∧ { rd := 0, filledAt := 20000 : Budget }.wrCap ≤ 2 * { rd := 0, filledAt := 20000 : Budget }.wr))
    -- light
    ∧ (((loadDev2 { reqs := 5 : Load } { filledAt := 20000 : Budget }).on = true)
      ∧ ((loadDev2 { reqs := 5 : Load } { filledAt := 20000 : Budget }).present 0 = true)
      ∧ (((loadDev2 { reqs := 5 : Load } { filledAt := 20000 : Budget }).head 0).load = { reqs := 5 : Load })
      ∧ ((loadDev2 { reqs := 5 : Load } { filledAt := 20000 : Budget }).budget 0 = { filledAt := 20000 : Budget })
      ∧ ({ reqs := 5 : Load }.since + max 1 (fld (loadDev2 { reqs := 5 : Load } { filledAt := 20000 : Budget }).qos.ctl 8 8) * 2000 ≤ (loadDev2 { reqs := 5 : Load } { filledAt := 20000 : Budget }).clock)
      ∧ (0 = 3 ∧ ({ reqs := 5 : Load }.demoted ≠ 0 ∧ { reqs := 5 : Load }.reqs ≤ 4 * { reqs := 5 : Load }.demoted ∨ 50 ≤ 9) ∨ 0 = 2 ∧ ¬({ reqs := 5 : Load }.demoted ≠ 0 ∧ { reqs := 5 : Load }.reqs ≤ 4 * { reqs := 5 : Load }.demoted ∨ 50 ≤ 9) ∧ ({ reqs := 5 : Load }.demoted ≠ 0 ∨ 10 ≤ 9) ∨ 0 = 1 ∧ { reqs := 5 : Load }.demoted = 0 ∧ 9 < 10 ∧ (2 * { filledAt := 20000 : Budget }.rd < { filledAt := 20000 : Budget }.rdCap ∨ 2 * { filledAt := 20000 : Budget }.wr < { filledAt := 20000 : Budget }.wrCap) ∨ 0 = 0 ∧ { reqs := 5 : Load }.demoted = 0 ∧ 9 < 10 ∧ { filledAt := 20000 : Budget }.rdCap ≤ 2 * { filledAt := 20000 : Budget }.rd ∧ { filledAt := 20000 : Budget }.wrCap ≤ 2 * { filledAt := 20000 : Budget }.wr)) := by and_intros <;> decide
theorem witness_CountersAndDumpImages :
    -- setOne
    (((dev 0).on = true) ∧ ((dev 0).pmc = { : Pmc }) ∧ ((dev 0).reaches 16 = true) ∧ ((dev 0).isMgmt 16 = true) ∧ (flag 432064089250856961 63 = false)
      ∧ (fld 432064089250856961 48 11 ≤ 1535))
    -- setAll
    ∧ (((dev 0).on = true) ∧ ((dev 0).pmc = { : Pmc }) ∧ ((dev 0).reaches 16 = true) ∧ ((dev 0).isMgmt 16 = true) ∧ (flag 9223372036854775809 63 = true))
    -- enRefused
    ∧ (((dev 1).on = true) ∧ ((dev 1).pmc = { : Pmc }) ∧ ((dev 1).reaches 16 = true) ∧ ((dev 1).isMgmt 16 = true) ∧ ({ : Pmc }.en = false)
      ∧ ({ : Pmc }.dctl &&& 1 = 0) ∧ (flag 1 0 = true)
      ∧ ({ on := (dev 1).on, clock := (dev 1).clock, freeIdx := (dev 1).freeIdx, out := (dev 1).out, pending := (dev 1).pending, glb := (dev 1).glb, boot := (dev 1).boot, pins := (dev 1).pins, ports := (dev 1).ports, heads := (dev 1).heads, regions := (dev 1).regions, near := (dev 1).near, coh := (dev 1).coh, dram := (dev 1).dram, map := (dev 1).map, beam := (dev 1).beam, rsv := (dev 1).rsv, vlt := (dev 1).vlt, qos := (dev 1).qos, rng := (dev 1).rng, slv := (dev 1).slv, flt := (dev 1).flt, sec := (dev 1).sec, pmc := { dctl := 1 &&& 17592186044414 : Pmc }, tap := (dev 1).tap, pwr := (dev 1).pwr : State }.dumpCheck ≠ 0))
    -- enStarts
    ∧ (((dev 0).on = true) ∧ ((dev 0).pmc = { : Pmc }) ∧ ((dev 0).reaches 16 = true) ∧ ((dev 0).isMgmt 16 = true) ∧ ({ : Pmc }.en = false)
      ∧ ({ : Pmc }.dctl &&& 1 = 0) ∧ (flag 3 0 = true)
      ∧ ({ on := (dev 0).on, clock := (dev 0).clock, freeIdx := (dev 0).freeIdx, out := (dev 0).out, pending := (dev 0).pending, glb := (dev 0).glb, boot := (dev 0).boot, pins := (dev 0).pins, ports := (dev 0).ports, heads := (dev 0).heads, regions := (dev 0).regions, near := (dev 0).near, coh := (dev 0).coh, dram := (dev 0).dram, map := (dev 0).map, beam := (dev 0).beam, rsv := (dev 0).rsv, vlt := (dev 0).vlt, qos := (dev 0).qos, rng := (dev 0).rng, slv := (dev 0).slv, flt := (dev 0).flt, sec := (dev 0).sec, pmc := { dctl := 3 &&& 17592186044414 : Pmc }, tap := (dev 0).tap, pwr := (dev 0).pwr : State }.dumpCheck = 0))
    -- captured
    ∧ (((pmcDev pmcOn).on = true) ∧ ((pmcDev pmcOn).pmc = pmcOn) ∧ (pmcOn.en = true) ∧ (pmcOn.period ≠ 0)
      ∧ (pmcOn.lastCap + pmcOn.period * 2000 ≤ (pmcDev pmcOn).clock) ∧ (pmcOn.img = none) ∧ ((pmcDev pmcOn).captureSkips = false))
    -- skips
    ∧ (((pmcDev (let __src := pmcOn; { cnt := __src.cnt, ovf := __src.ovf, mode := __src.mode, was := __src.was, dctl := __src.dctl, dbase := __src.dbase, dhead := 1, dtail := __src.dtail, run := __src.run, derr := __src.derr, lastCap := __src.lastCap, img := __src.img, images := __src.images, skipped := __src.skipped, prev := __src.prev, touched := __src.touched : Pmc })).on = true)
      ∧ ((pmcDev (let __src := pmcOn; { cnt := __src.cnt, ovf := __src.ovf, mode := __src.mode, was := __src.was, dctl := __src.dctl, dbase := __src.dbase, dhead := 1, dtail := __src.dtail, run := __src.run, derr := __src.derr, lastCap := __src.lastCap, img := __src.img, images := __src.images, skipped := __src.skipped, prev := __src.prev, touched := __src.touched : Pmc })).pmc = let __src := pmcOn; { cnt := __src.cnt, ovf := __src.ovf, mode := __src.mode, was := __src.was, dctl := __src.dctl, dbase := __src.dbase, dhead := 1, dtail := __src.dtail, run := __src.run, derr := __src.derr, lastCap := __src.lastCap, img := __src.img, images := __src.images, skipped := __src.skipped, prev := __src.prev, touched := __src.touched : Pmc })
      ∧ ((let __src := pmcOn; { cnt := __src.cnt, ovf := __src.ovf, mode := __src.mode, was := __src.was, dctl := __src.dctl, dbase := __src.dbase, dhead := 1, dtail := __src.dtail, run := __src.run, derr := __src.derr, lastCap := __src.lastCap, img := __src.img, images := __src.images, skipped := __src.skipped, prev := __src.prev, touched := __src.touched : Pmc }).en = true)
      ∧ ((let __src := pmcOn; { cnt := __src.cnt, ovf := __src.ovf, mode := __src.mode, was := __src.was, dctl := __src.dctl, dbase := __src.dbase, dhead := 1, dtail := __src.dtail, run := __src.run, derr := __src.derr, lastCap := __src.lastCap, img := __src.img, images := __src.images, skipped := __src.skipped, prev := __src.prev, touched := __src.touched : Pmc }).period ≠ 0)
      ∧ ((let __src := pmcOn; { cnt := __src.cnt, ovf := __src.ovf, mode := __src.mode, was := __src.was, dctl := __src.dctl, dbase := __src.dbase, dhead := 1, dtail := __src.dtail, run := __src.run, derr := __src.derr, lastCap := __src.lastCap, img := __src.img, images := __src.images, skipped := __src.skipped, prev := __src.prev, touched := __src.touched : Pmc }).lastCap + (let __src := pmcOn; { cnt := __src.cnt, ovf := __src.ovf, mode := __src.mode, was := __src.was, dctl := __src.dctl, dbase := __src.dbase, dhead := 1, dtail := __src.dtail, run := __src.run, derr := __src.derr, lastCap := __src.lastCap, img := __src.img, images := __src.images, skipped := __src.skipped, prev := __src.prev, touched := __src.touched : Pmc }).period * 2000 ≤ (pmcDev (let __src := pmcOn; { cnt := __src.cnt, ovf := __src.ovf, mode := __src.mode, was := __src.was, dctl := __src.dctl, dbase := __src.dbase, dhead := 1, dtail := __src.dtail, run := __src.run, derr := __src.derr, lastCap := __src.lastCap, img := __src.img, images := __src.images, skipped := __src.skipped, prev := __src.prev, touched := __src.touched : Pmc })).clock)
      ∧ ((let __src := pmcOn; { cnt := __src.cnt, ovf := __src.ovf, mode := __src.mode, was := __src.was, dctl := __src.dctl, dbase := __src.dbase, dhead := 1, dtail := __src.dtail, run := __src.run, derr := __src.derr, lastCap := __src.lastCap, img := __src.img, images := __src.images, skipped := __src.skipped, prev := __src.prev, touched := __src.touched : Pmc }).img = none)
      ∧ ((pmcDev (let __src := pmcOn; { cnt := __src.cnt, ovf := __src.ovf, mode := __src.mode, was := __src.was, dctl := __src.dctl, dbase := __src.dbase, dhead := 1, dtail := __src.dtail, run := __src.run, derr := __src.derr, lastCap := __src.lastCap, img := __src.img, images := __src.images, skipped := __src.skipped, prev := __src.prev, touched := __src.touched : Pmc })).captureSkips = true))
    -- now
    ∧ (((onRing (pmcDev pmcOn) 65535 { words := desc 97 0 [] : Active }).on = true)
      ∧ ((onRing (pmcDev pmcOn) 65535 { words := desc 97 0 [] : Active }).pmc = pmcOn)
      ∧ ((onRing (pmcDev pmcOn) 65535 { words := desc 97 0 [] : Active }).working 65535 97 { words := desc 97 0 [] : Active })
      ∧ ({ words := desc 97 0 [] : Active }.started = false) ∧ (pmcOn.en = true) ∧ (pmcOn.full = false) ∧ (pmcOn.img = none))
    -- nowOff
    ∧ (((onRing (dev 0) 65535 { words := desc 97 0 [] : Active }).on = true) ∧ ((onRing (dev 0) 65535 { words := desc 97 0 [] : Active }).pmc = { : Pmc })
      ∧ ((onRing (dev 0) 65535 { words := desc 97 0 [] : Active }).working 65535 97 { words := desc 97 0 [] : Active })
      ∧ ({ words := desc 97 0 [] : Active }.started = false) ∧ ({ : Pmc }.en = false))
    -- written
    ∧ (((pmcDev (let __src := pmcOn; { cnt := __src.cnt, ovf := __src.ovf, mode := __src.mode, was := __src.was, dctl := __src.dctl, dbase := __src.dbase, dhead := __src.dhead, dtail := __src.dtail, run := __src.run, derr := __src.derr, lastCap := __src.lastCap, img := some img1, images := __src.images, skipped := __src.skipped, prev := __src.prev, touched := __src.touched : Pmc })).on = true)
      ∧ ((pmcDev (let __src := pmcOn; { cnt := __src.cnt, ovf := __src.ovf, mode := __src.mode, was := __src.was, dctl := __src.dctl, dbase := __src.dbase, dhead := __src.dhead, dtail := __src.dtail, run := __src.run, derr := __src.derr, lastCap := __src.lastCap, img := some img1, images := __src.images, skipped := __src.skipped, prev := __src.prev, touched := __src.touched : Pmc })).pmc = let __src := pmcOn; { cnt := __src.cnt, ovf := __src.ovf, mode := __src.mode, was := __src.was, dctl := __src.dctl, dbase := __src.dbase, dhead := __src.dhead, dtail := __src.dtail, run := __src.run, derr := __src.derr, lastCap := __src.lastCap, img := some img1, images := __src.images, skipped := __src.skipped, prev := __src.prev, touched := __src.touched : Pmc })
      ∧ ((let __src := pmcOn; { cnt := __src.cnt, ovf := __src.ovf, mode := __src.mode, was := __src.was, dctl := __src.dctl, dbase := __src.dbase, dhead := __src.dhead, dtail := __src.dtail, run := __src.run, derr := __src.derr, lastCap := __src.lastCap, img := some img1, images := __src.images, skipped := __src.skipped, prev := __src.prev, touched := __src.touched : Pmc }).img = some img1)
      ∧ (img1.lines = false) ∧ (img1.seq = false) ∧ (img1.rings = [])
      ∧ ((pmcDev (let __src := pmcOn; { cnt := __src.cnt, ovf := __src.ovf, mode := __src.mode, was := __src.was, dctl := __src.dctl, dbase := __src.dbase, dhead := __src.dhead, dtail := __src.dtail, run := __src.run, derr := __src.derr, lastCap := __src.lastCap, img := some img1, images := __src.images, skipped := __src.skipped, prev := __src.prev, touched := __src.touched : Pmc })).dumpBusy = false)
      ∧ ((let __src := pmcOn; { cnt := __src.cnt, ovf := __src.ovf, mode := __src.mode, was := __src.was, dctl := __src.dctl, dbase := __src.dbase, dhead := __src.dhead, dtail := __src.dtail, run := __src.run, derr := __src.derr, lastCap := __src.lastCap, img := some img1, images := __src.images, skipped := __src.skipped, prev := __src.prev, touched := __src.touched : Pmc }).host = true)
      ∧ ((Tbl.get { : MsixEntry } ((pmcDev (let __src := pmcOn; { cnt := __src.cnt, ovf := __src.ovf, mode := __src.mode, was := __src.was, dctl := __src.dctl, dbase := __src.dbase, dhead := __src.dhead, dtail := __src.dtail, run := __src.run, derr := __src.derr, lastCap := __src.lastCap, img := some img1, images := __src.images, skipped := __src.skipped, prev := __src.prev, touched := __src.touched : Pmc })).head (let __src := pmcOn; { cnt := __src.cnt, ovf := __src.ovf, mode := __src.mode, was := __src.was, dctl := __src.dctl, dbase := __src.dbase, dhead := __src.dhead, dtail := __src.dtail, run := __src.run, derr := __src.derr, lastCap := __src.lastCap, img := some img1, images := __src.images, skipped := __src.skipped, prev := __src.prev, touched := __src.touched : Pmc }).head).func.msix (let __src := pmcOn; { cnt := __src.cnt, ovf := __src.ovf, mode := __src.mode, was := __src.was, dctl := __src.dctl, dbase := __src.dbase, dhead := __src.dhead, dtail := __src.dtail, run := __src.run, derr := __src.derr, lastCap := __src.lastCap, img := some img1, images := __src.images, skipped := __src.skipped, prev := __src.prev, touched := __src.touched : Pmc }).vector).masked = false)) := by and_intros <;> decide
theorem witness_MailboxCommandsAnswer :
    -- reads
    ((stampDev.on = true) ∧ (stampDev.reaches 0 = true) ∧ (stampDev.glb.steward = true)
      ∧ ((Instr.getSupportedLogs 0, [1]) ∈ [(Instr.getEventInterruptPolicy 0, List.map (fun v => match v with | some n => atBit n 0 ||| atFlag true 16 | none => 0) (stampDev.head 0).func.policy), (Instr.getSupportedLogs 0, [1]), (Instr.getLog 0, List.map (fun o => atBit o 0 ||| atBit (mailboxEffects o) 16) [256, 257, 258, 259, 768, 769, 1024, 1025, 16384, 17152, 17153, 17154, 17408, 17409]), (Instr.identifyMemoryDevice 0, [atBit (stampDev.beam.pageCap / 65536) 0, atBit (stampDev.beam.pageCap / 65536) 0, 0, 0])]))
    -- stamp
    ∧ ((stampDev.on = true) ∧ (stampDev.reaches 0 = true) ∧ (stampDev.glb.steward = true) ∧ (stampDev.ports.stampAt = some 0))
    -- noStamp
    ∧ (((dev 0).on = true) ∧ ((dev 0).reaches 0 = true) ∧ ((dev 0).glb.steward = true) ∧ ((dev 0).ports.stampAt = none))
    -- poisonList
    ∧ (((dev 0).on = true) ∧ ((dev 0).reaches 0 = true) ∧ ((dev 0).glb.steward = true) ∧ ((dev 0).near.poisonOverflow = none))
    -- inject
    ∧ (((dev 8192).on = true) ∧ ((dev 8192).reaches 0 = true) ∧ ((dev 8192).glb.steward = true) ∧ ((dev 8192).isMgmt 0 = true)
      ∧ ((dev 8192).regionOf (64 / 64) = some (1, rgn1 8192)) ∧ ((dev 8192).atRest (64 / 64)) ∧ ((rgn1 8192).coh = 0) ∧ ((rgn1 8192).window = 2))
    -- unlisted
    ∧ (((dev 0).on = true) ∧ ((dev 0).reaches 0 = true) ∧ ((dev 0).glb.steward = true)
      ∧ (17410 ∉ [256, 257, 258, 259, 768, 769, 1024, 1025, 16384, 17152, 17153, 17154, 17408, 17409]))
    -- records
    ∧ ((logDev.on = true) ∧ (logDev.reaches 0 = true) ∧ (logDev.glb.steward = true)
      ∧ ([{ log := 1, handle := 7, body := { kind := EventKind.vendor, cls := 3, arg := 0 : EventRec } : LogEntry }] = List.filter (fun e => decide (e.log = 1)) (logDev.head 0).func.events)
      ∧ (1 < 4)
      ∧ ([7] = none.getD (List.map LogEntry.handle [{ log := 1, handle := 7, body := { kind := EventKind.vendor, cls := 3, arg := 0 : EventRec } : LogEntry }]))
      ∧ ([7] <+: List.map LogEntry.handle [{ log := 1, handle := 7, body := { kind := EventKind.vendor, cls := 3, arg := 0 : EventRec } : LogEntry }]))
    -- wrongOrder
    ∧ ((logDev.on = true) ∧ (logDev.reaches 0 = true) ∧ (logDev.glb.steward = true)
      ∧ ([{ log := 1, handle := 7, body := { kind := EventKind.vendor, cls := 3, arg := 0 : EventRec } : LogEntry }] = List.filter (fun e => decide (e.log = 1)) (logDev.head 0).func.events)
      ∧ (1 < 4)
      ∧ ([8] = (some [8]).getD (List.map LogEntry.handle [{ log := 1, handle := 7, body := { kind := EventKind.vendor, cls := 3, arg := 0 : EventRec } : LogEntry }]))
      ∧ (¬[8] <+: List.map LogEntry.handle [{ log := 1, handle := 7, body := { kind := EventKind.vendor, cls := 3, arg := 0 : EventRec } : LogEntry }]))
    -- noLog
    ∧ ((logDev.on = true) ∧ (logDev.reaches 0 = true) ∧ (logDev.glb.steward = true)
      ∧ ([] = List.filter (fun e => decide (e.log = 4)) (logDev.head 0).func.events) ∧ (4 ≤ 4)) := by and_intros <;> decide
theorem witness_MailboxCommandsAnswer_vector :
    (((dev 0).on = true)
      ∧ ((dev 0).reaches 0 = true)
      ∧ ((dev 0).glb.steward = true))
    ∧ ([some 2047, none, none, some 0].length = 4 ∧ ∀ (n : ℕ), some n ∈ [some 2047, none, none, some 0] → n < 2048) :=
  ⟨by decide,
    ⟨rfl, fun n h => by simp at h; omega⟩⟩
theorem witness_MailboxCommandsAnswer_badVector :
    (((dev 0).on = true)
      ∧ ((dev 0).reaches 0 = true)
      ∧ ((dev 0).glb.steward = true))
    ∧ (¬([some 2048, none, none, none].length = 4 ∧ ∀ (n : ℕ), some n ∈ [some 2048, none, none, none] → n < 2048)) :=
  ⟨by decide,
    fun h => absurd (h.2 2048 (by simp)) (by decide)⟩
theorem witness_LinksTrainAndDrop :
    -- offer
    (((lnkDev newLink).on = true) ∧ ((lnkDev newLink).present 0 = true) ∧ (((lnkDev newLink).head 0).link = newLink))
    -- fast
    ∧ (((lnkDev at64).on = true) ∧ ((lnkDev at64).present 0 = true) ∧ (((lnkDev at64).head 0).link = at64) ∧ ((lnkDev at64).mayTrain 0 2 3 = true)
      ∧ (false = (at64.extAgreed && !at64.no128 && decide (2 < 2) && decide (at64.maxRate = 2) && decide (1 ≤ 2) && true))
      ∧ (false = false → ((lnkDev at64).head 0).inQ = [] ∧ ((lnkDev at64).head 0).outQ = []))
    -- plain
    ∧ (((lnkDev newLink).on = true) ∧ ((lnkDev newLink).present 0 = true) ∧ (((lnkDev newLink).head 0).link = newLink)
      ∧ ((lnkDev newLink).mayTrain 0 1 3 = true)
      ∧ (false = (newLink.extAgreed && !newLink.no128 && decide (1 < 2) && decide (newLink.maxRate = 2) && decide (1 ≤ 1) && false))
      ∧ (false = false → ((lnkDev newLink).head 0).inQ = [] ∧ ((lnkDev newLink).head 0).outQ = []))
    -- extended
    ∧ (((lnkDev at64).on = true) ∧ ((lnkDev at64).present 0 = true) ∧ (((lnkDev at64).head 0).link = at64) ∧ ((lnkDev at64).mayTrain 0 1 3 = true)
      ∧ (true = (at64.extAgreed && !at64.no128 && decide (1 < 2) && decide (at64.maxRate = 2) && decide (1 ≤ 1) && true))
      ∧ (true = false → ((lnkDev at64).head 0).inQ = [] ∧ ((lnkDev at64).head 0).outQ = []))
    -- failOnce
    ∧ (((lnkDev (recLink 0)).on = true) ∧ ((lnkDev (recLink 0)).present 0 = true) ∧ (((lnkDev (recLink 0)).head 0).link = recLink 0) ∧ ((recLink 0).up = true)
      ∧ ((recLink 0).recovery = true) ∧ ((recLink 0).extAgreed = true) ∧ ((recLink 0).no128 = false) ∧ ((recLink 0).eqFails = 0))
    -- failTwice
    ∧ (((lnkDev (recLink 1)).on = true) ∧ ((lnkDev (recLink 1)).present 0 = true) ∧ (((lnkDev (recLink 1)).head 0).link = recLink 1) ∧ ((recLink 1).up = true)
      ∧ ((recLink 1).recovery = true) ∧ ((recLink 1).extAgreed = true) ∧ ((recLink 1).no128 = false) ∧ ((recLink 1).eqFails ≠ 0)
      ∧ (((lnkDev (recLink 1)).head 0).inQ = []) ∧ (((lnkDev (recLink 1)).head 0).outQ = []))
    -- retrain
    ∧ (((lnkDev upLink).on = true) ∧ ((lnkDev upLink).present 0 = true) ∧ (((lnkDev upLink).head 0).link = upLink) ∧ ((lnkDev upLink).reaches 16 = true)
      ∧ (16 = 0 ∨ (lnkDev upLink).isMgmt 16 = true) ∧ (upLink.up = true ∨ Tbl.wf { : Head } (lnkDev upLink).heads = true))
    -- recovery
    ∧ (((lnkDev upLink).on = true) ∧ ((lnkDev upLink).present 0 = true) ∧ (((lnkDev upLink).head 0).link = upLink) ∧ (upLink.up = true))
    -- timeout
    ∧ ((ideDev.on = true) ∧ (ideDev.linkUp 0 = true) ∧ ((ideDev.head 0).link = recLink 0) ∧ (ideDev.coh.snoops = []) ∧ (ideDev.coh.heldBirsp = [])
      ∧ ((Instr.linkOutOfL0Timeout 0, [LinkError.surpriseDown]) ∈ [(Instr.linkOutOfL0Timeout 0, [LinkError.surpriseDown]), (Instr.linkDrop 0, [LinkError.surpriseDown]), (Instr.ideIntegrityFail 0, [LinkError.ideCheck, LinkError.cxlIde])])
      ∧ (Instr.linkOutOfL0Timeout 0 = Instr.linkOutOfL0Timeout 0 → (recLink 0).recovery = true ∧ (recLink 0).outAt + 20000000 ≤ ideDev.clock)
      ∧ (Instr.linkOutOfL0Timeout 0 = Instr.ideIntegrityFail 0 → (List.any (ideDev.head 0).func.ide fun e => e.2.inUse.isSome) = true))
    -- drop
    ∧ ((ideDev.on = true) ∧ (ideDev.linkUp 0 = true) ∧ ((ideDev.head 0).link = recLink 0) ∧ (ideDev.coh.snoops = []) ∧ (ideDev.coh.heldBirsp = [])
      ∧ ((Instr.linkDrop 0, [LinkError.surpriseDown]) ∈ [(Instr.linkOutOfL0Timeout 0, [LinkError.surpriseDown]), (Instr.linkDrop 0, [LinkError.surpriseDown]), (Instr.ideIntegrityFail 0, [LinkError.ideCheck, LinkError.cxlIde])])
      ∧ (Instr.linkDrop 0 = Instr.linkOutOfL0Timeout 0 → (recLink 0).recovery = true ∧ (recLink 0).outAt + 20000000 ≤ ideDev.clock)
      ∧ (Instr.linkDrop 0 = Instr.ideIntegrityFail 0 → (List.any (ideDev.head 0).func.ide fun e => e.2.inUse.isSome) = true))
    -- ide
    ∧ ((ideDev.on = true) ∧ (ideDev.linkUp 0 = true) ∧ ((ideDev.head 0).link = recLink 0) ∧ (ideDev.coh.snoops = []) ∧ (ideDev.coh.heldBirsp = [])
      ∧ ((Instr.ideIntegrityFail 0, [LinkError.ideCheck, LinkError.cxlIde]) ∈ [(Instr.linkOutOfL0Timeout 0, [LinkError.surpriseDown]), (Instr.linkDrop 0, [LinkError.surpriseDown]), (Instr.ideIntegrityFail 0, [LinkError.ideCheck, LinkError.cxlIde])])
      ∧ (Instr.ideIntegrityFail 0 = Instr.linkOutOfL0Timeout 0 → (recLink 0).recovery = true ∧ (recLink 0).outAt + 20000000 ≤ ideDev.clock)
      ∧ (Instr.ideIntegrityFail 0 = Instr.ideIntegrityFail 0 → (List.any (ideDev.head 0).func.ide fun e => e.2.inUse.isSome) = true)) := by and_intros <;> decide
theorem witness_HeadsReset :
    -- perst
    ((resetDev.on = true) ∧ (resetDev.present 0 = true) ∧ (resetDev.head 0 = resetHead) ∧ (resetHead.brake.gate = []) ∧ (resetHead.brake.mgmt = false)
      ∧ (resetDev.coh.snoops = []) ∧ (resetDev.coh.heldBirsp = []) ∧ (resetDev.vlt.active = true))
    -- perstRing
    ∧ ((resetDev.on = true) ∧ (resetDev.present 0 = true) ∧ (resetDev.head 0 = resetHead) ∧ (resetHead.brake.gate = []) ∧ (resetHead.brake.mgmt = false)
      ∧ (resetDev.coh.snoops = []) ∧ (resetDev.coh.heldBirsp = []) ∧ (resetDev.vlt.active = true) ∧ (Tbl.wf { : Machine.Ring } resetDev.rng.rings = true)
      ∧ ((resetDev.ring 65535).owner = 0) ∧ ((resetDev.ring 65535).st ≠ RingSt.off))
    -- cxl
    ∧ ((resetDev.on = true) ∧ (resetDev.present 0 = true) ∧ (resetDev.head 0 = resetHead) ∧ (resetHead.brake.gate = []) ∧ (resetHead.brake.mgmt = false)
      ∧ (resetHead.link.up = true) ∧ (resetHead.waitQ = []) ∧ (resetHead.kept = 0))
    -- flr
    ∧ ((resetDev.on = true) ∧ (resetDev.present 0 = true) ∧ (resetDev.head 0 = resetHead) ∧ (resetHead.brake.gate = []) ∧ (resetHead.brake.mgmt = false)
      ∧ (resetHead.link.up = true)) := by and_intros <;> decide
theorem witness_HeadServicesAnswer :
    -- decoder
    (((headDev svcHead).on = true) ∧ ((headDev svcHead).present 0 = true) ∧ ((headDev svcHead).head 0 = svcHead) ∧ (svcHead.link.up = true)
      ∧ (Tbl.get { : Decoder } svcHead.func.decoders 0 = { : Decoder }) ∧ (svcHead.link.cxl = true) ∧ ({ : Decoder }.locked = false)
      ∧ ({ : Decoder }.committed = false))
    -- keys
    ∧ ((sessionDev.on = true) ∧ (sessionDev.present 0 = true) ∧ (sessionDev.head 0 = svcHead) ∧ (svcHead.link.up = true) ∧ (sessionDev.secured 0 = true)
      ∧ (1 < 2) ∧ (Tbl.get { : IdeStream } svcHead.func.ide 1 = { key1 := some 9 : IdeStream }) ∧ ({ key1 := some 9 : IdeStream }.key1 = some 9))
    -- spdm
    ∧ (((headDev svcHead).on = true) ∧ ((headDev svcHead).present 0 = true) ∧ ((headDev svcHead).head 0 = svcHead) ∧ (svcHead.link.up = true)
      ∧ (Tbl.get 0 (headDev svcHead).sec.spdm 0 = 0) ∧ (132 ≠ 254))
    -- lane
    ∧ (((laneDev narrowHead).on = true) ∧ ((laneDev narrowHead).present 14 = true) ∧ ((laneDev narrowHead).head 14 = narrowHead) ∧ (narrowHead.link.up = true)
      ∧ (7 < 8) ∧ ((laneDev narrowHead).retireDue 6 (8 * 7 + 7) = true) ∧ (14 = if (laneDev narrowHead).bifur 7 = true then 2 * 7 + 7 / 4 else 2 * 7)
      ∧ (128 = putBit (Tbl.get 0 (laneDev narrowHead).ports.laneRet 7) 7 true) ∧ (lanesWidth ((laneDev narrowHead).headLanes 14) 128 = some 2)
      ∧ (narrowHead.link.minWidth ≤ 2) ∧ (Tbl.wf { : Head } (laneDev narrowHead).heads = true) ∧ (1 = min narrowHead.link.width 2))
    -- uncommit
    ∧ (((headDev (let __src := svcHead; { link := __src.link, func := { decoders := [(0, dec0)] : Func }, load := __src.load, brake := __src.brake, inQ := __src.inQ, outQ := __src.outQ, kept := __src.kept, waitQ := __src.waitQ : Head })).on = true)
      ∧ ((headDev (let __src := svcHead; { link := __src.link, func := { decoders := [(0, dec0)] : Func }, load := __src.load, brake := __src.brake, inQ := __src.inQ, outQ := __src.outQ, kept := __src.kept, waitQ := __src.waitQ : Head })).present 0 = true)
      ∧ ((headDev (let __src := svcHead; { link := __src.link, func := { decoders := [(0, dec0)] : Func }, load := __src.load, brake := __src.brake, inQ := __src.inQ, outQ := __src.outQ, kept := __src.kept, waitQ := __src.waitQ : Head })).head 0 = let __src := svcHead; { link := __src.link, func := { decoders := [(0, dec0)] : Func }, load := __src.load, brake := __src.brake, inQ := __src.inQ, outQ := __src.outQ, kept := __src.kept, waitQ := __src.waitQ : Head })
      ∧ ((let __src := svcHead; { link := __src.link, func := { decoders := [(0, dec0)] : Func }, load := __src.load, brake := __src.brake, inQ := __src.inQ, outQ := __src.outQ, kept := __src.kept, waitQ := __src.waitQ : Head }).link.up = true)
      ∧ (Tbl.get { : Decoder } (let __src := svcHead; { link := __src.link, func := { decoders := [(0, dec0)] : Func }, load := __src.load, brake := __src.brake, inQ := __src.inQ, outQ := __src.outQ, kept := __src.kept, waitQ := __src.waitQ : Head }).func.decoders 0 = dec0)
      ∧ ((let __src := svcHead; { link := __src.link, func := { decoders := [(0, dec0)] : Func }, load := __src.load, brake := __src.brake, inQ := __src.inQ, outQ := __src.outQ, kept := __src.kept, waitQ := __src.waitQ : Head }).link.cxl = true)
      ∧ (dec0.locked = false) ∧ (dec0.committed = true))
    -- session
    ∧ ((sessionDev.on = true) ∧ (sessionDev.present 0 = true) ∧ (sessionDev.head 0 = svcHead) ∧ (svcHead.link.up = true) ∧ (Tbl.get 0 sessionDev.sec.spdm 0 = 3)
      ∧ (229 ≠ 254)) := by and_intros <;> decide
theorem witness_HeadServicesAnswer_digests :
    (((headDev svcHead).on = true)
      ∧ ((headDev svcHead).present 0 = true)
      ∧ ((headDev svcHead).head 0 = svcHead)
      ∧ (svcHead.link.up = true)
      ∧ (Tbl.get 0 (headDev svcHead).sec.spdm 0 = 0)
      ∧ (224 ≠ 254))
    ∧ (∀ (k : ℕ), List.map (Config.measure k) (List.range 6) = List.map (Config.measure k) (List.range 6))
    ∧ ((headDev svcHead).glb.image = none ∧ List.map (Config.measure 2) (List.range 6) = List.map (Config.measure 2) (List.range 6) ∨ ∃ g, (headDev svcHead).glb.image = some g ∧ List.map (Config.measure 2) (List.range 6) = digestWords (bytesLittle 48 g.digest.toNat))
    ∧ ((headDev svcHead).boot.board = none ∧ List.map (Config.measure 5) (List.range 6) = List.map (Config.measure 5) (List.range 6) ∨ ∃ b, (headDev svcHead).boot.board = some b ∧ List.map (Config.measure 5) (List.range 6) = digestWords (sha384 (boardBytes b)))
    ∧ ((headDev svcHead).sec.wrap.escV = false ∧ ([] : List Word) = [] ∨ (headDev svcHead).sec.wrap.escV = true ∧ ∃ key, (headDev svcHead).sec.wrap.custodian = some key ∧ ([] : List Word) = List.map (custIdWord key) (List.range 6)) :=
  ⟨by decide,
    fun _ => rfl,
    .inl ⟨rfl, rfl⟩,
    .inl ⟨rfl, rfl⟩,
    .inl ⟨rfl, rfl⟩⟩
theorem witness_RecordsAreWrittenAndConfirmed :
    -- stripe
    ((stripeDev.on = true) ∧ (stripeDev.beamUp = true)
      ∧ (Tbl.get none stripeDev.beam.bufs 0 = some { seg := 1, stripe := 511, unit := 0, sector := 16, count := 1, recs := [523272], since := 0 : StripeBuf })
      ∧ ({ seg := 1, stripe := 511, unit := 0, sector := 16, count := 1, recs := [523272], since := 0 : StripeBuf }.recs ≠ [])
      ∧ ({ seg := 1, stripe := 511, unit := 0, sector := 16, count := 1, recs := [523272], since := 0 : StripeBuf }.since + 20000 ≤ stripeDev.clock)
      ∧ (254 = stripeDev.slotsUp &&& ~~~(stripeDev.seg { seg := 1, stripe := 511, unit := 0, sector := 16, count := 1, recs := [523272], since := 0 : StripeBuf }.seg).holes))
    -- unit
    ∧ (((outDev 130).on = true)
      ∧ (List.find? (fun o => decide (o.stripe = 511) && o.waits.getLsbD 7 && !o.held.getLsbD 7) (outDev 130).beam.outs = some { stripe := 511, waits := 130, failed := false, recs := [523272], prio := 5, since := 0, held := 0 : StripeOut })
      ∧ ((outDev 130).inPowerState (48 + 7) = false)
      ∧ (putBit { stripe := 511, waits := 130, failed := false, recs := [523272], prio := 5, since := 0, held := 0 : StripeOut }.waits 7 false ≠ 0))
    -- last
    ∧ (((outDev 128).on = true)
      ∧ (List.find? (fun o => decide (o.stripe = 511) && o.waits.getLsbD 7 && !o.held.getLsbD 7) (outDev 128).beam.outs = some { stripe := 511, waits := 128, failed := false, recs := [523272], prio := 5, since := 0, held := 0 : StripeOut })
      ∧ ((outDev 128).inPowerState (48 + 7) = false)
      ∧ (putBit { stripe := 511, waits := 128, failed := false, recs := [523272], prio := 5, since := 0, held := 0 : StripeOut }.waits 7 false = 0)
      ∧ ({ stripe := 511, waits := 128, failed := false, recs := [523272], prio := 5, since := 0, held := 0 : StripeOut }.failed = false)
      ∧ ((outDev 128).beam.outs = [{ stripe := 511, waits := 128, failed := false, recs := [523272], prio := 5, since := 0, held := 0 : StripeOut }])
      ∧ ({ stripe := 511, waits := 128, failed := false, recs := [523272], prio := 5, since := 0, held := 0 : StripeOut }.recs = [523272])
      ∧ (Tbl.get none (outDev 128).beam.recs 523272 = some atRecordsAreWrittenAndConfirmedLast) ∧ (atRecordsAreWrittenAndConfirmedLast.purpose = RecFor.none))
    -- delta
    ∧ ((deltaDev.on = true) ∧ (deltaDev.beam.deltas ≠ [])
      ∧ (256 ≤ deltaDev.beam.deltas.length ∨ deltaDev.beam.deltaAt.headD deltaDev.clock + 2000000 ≤ deltaDev.clock)
      ∧ (deltaRec deltaDev = { kind := RecKind.delta, page := (List.take 256 deltaDev.beam.deltas).length, sectors := ((List.take 256 deltaDev.beam.deltas).length + 31) / 32, deltas := List.take 256 deltaDev.beam.deltas, stream := 4, seq := 0 : BeamRec })
      ∧ (deltaDev.hush.append 4 (deltaRec deltaDev) = some ((appended deltaDev.hush 4 (deltaRec deltaDev)).1, (appended deltaDev.hush 4 (deltaRec deltaDev)).2))) := by and_intros <;> decide
theorem witness_CommitsAndSegments :
    -- checkpoint
    (((bmDev atCommitsAndSegmentsCheckpoint).on = true) ∧ ((bmDev atCommitsAndSegmentsCheckpoint).beam.setId ≠ 0)
      ∧ ((bmDev atCommitsAndSegmentsCheckpoint).beamUp = true) ∧ ((bmDev atCommitsAndSegmentsCheckpoint).glb.steward = true)
      ∧ ((bmDev atCommitsAndSegmentsCheckpoint).beam.ckpt = false) ∧ ((bmDev atCommitsAndSegmentsCheckpoint).vlt.stopped = false)
      ∧ ((bmDev atCommitsAndSegmentsCheckpoint).cpMeta ≤ (bmDev atCommitsAndSegmentsCheckpoint).beam.deltaSegs.length))
    -- flush
    ∧ (((s3Dev false).on = true) ∧ ((s3Dev false).beam.setId ≠ 0) ∧ ((s3Dev false).beamUp = true) ∧ ((s3Dev false).vlt.st = VState.s3)
      ∧ ((s3Dev false).flushConfirmed = true) ∧ ((s3Dev false).beam.commitOut = none)
      ∧ (CommitKind.flush = CommitKind.flush ∧ (s3Dev false).vlt.orderly = false ∨ CommitKind.flush = CommitKind.shutdown ∧ (s3Dev false).vlt.orderly = true))
    -- shutdown
    ∧ (((s3Dev true).on = true) ∧ ((s3Dev true).beam.setId ≠ 0) ∧ ((s3Dev true).beamUp = true) ∧ ((s3Dev true).vlt.st = VState.s3)
      ∧ ((s3Dev true).flushConfirmed = true) ∧ ((s3Dev true).beam.commitOut = none)
      ∧ (CommitKind.shutdown = CommitKind.flush ∧ (s3Dev true).vlt.orderly = false ∨ CommitKind.shutdown = CommitKind.shutdown ∧ (s3Dev true).vlt.orderly = true))
    -- relocate
    ∧ ((gcDev.on = true) ∧ (gcDev.beam.setId ≠ 0) ∧ (gcDev.beamUp = true) ∧ (gcDev.glb.steward = true) ∧ (gcDev.map.mapLoad = false)
      ∧ (gcDev.vlt.stopped = false) ∧ (gcDev.beam.deltaSegs.length < 52) ∧ (gcDev.hush.gcUpdate = gcDev.hush) ∧ (gcDev.beam.gc = true)
      ∧ (gcDev.beam.gcSeg = some (segOf (beamStripe 262144))) ∧ (Tbl.get none gcDev.beam.recs 262144 = some rec0) ∧ (gcDev.recLive 262144 rec0 = true)
      ∧ (∀ x ∈ gcDev.beam.reads, x.addr = 262144 → x.gc = false)
      ∧ ((List.any gcDev.beam.recs fun e => match e.2 with | some r => decide (r.purpose = RecFor.move 262144) | none => false) = false))
    -- free
    ∧ ((freeDev.on = true) ∧ (freeDev.beam.setId ≠ 0) ∧ (freeDev.beamUp = true) ∧ (freeDev.glb.steward = true) ∧ (freeDev.seg 1 = fullSeg)
      ∧ (fullSeg.st = SegState.full) ∧ (freeDev.map.mapLoad = false) ∧ (freeDev.divHolds 1 = false) ∧ (freeDev.liveIn 1 = [])
      ∧ ((freeDev.beam.outs.any fun o => decide (segOf o.stripe = 1)) = false) ∧ (freeDev.beam.commit = some { cseq := 3 : Commit })
      ∧ (fullSeg.moved ≤ { cseq := 3 : Commit }.cseq)) := by and_intros <;> decide
theorem witness_CommitsAndSegments_inForce :
    (((bmDev atCommitsAndSegmentsInForce).on = true)
      ∧ ((bmDev atCommitsAndSegmentsInForce).beam.setId ≠ 0)
      ∧ ((bmDev atCommitsAndSegmentsInForce).beamUp = true)
      ∧ ((bmDev atCommitsAndSegmentsInForce).glb.steward = true)
      ∧ ((bmDev atCommitsAndSegmentsInForce).vlt.stopped = false)
      ∧ (((bmDev atCommitsAndSegmentsInForce).unconfirmed fun k => decide (k = RecKind.map) || decide (k = RecKind.warm)) = false)
      ∧ ((bmDev atCommitsAndSegmentsInForce).sec.cmd = none)
      ∧ ((bmDev atCommitsAndSegmentsInForce).rng.seals = []))
    ∧ ((bmDev atCommitsAndSegmentsInForce).commitNow CommitKind.checkpoint true false 0 = (bmDev atCommitsAndSegmentsInForce).commitNow CommitKind.checkpoint (bmDev atCommitsAndSegmentsInForce).beam.ckpt false 0) :=
  ⟨by decide,
    (by rfl)⟩
theorem witness_BeamReadsEnd :
    -- good
    ((serveDev.on = true) ∧ (serveDev.beam.reads = [read1 false false false]) ∧ ((read1 false false false).addr = 2000)
      ∧ ((read1 false false false).queued = false) ∧ (serveDev.inPowerState (48 + (read1 false false false).slot) = false)
      ∧ ((read1 false false false).rebuilt = false) ∧ ((read1 false false false).gc = false) ∧ ((read1 false false false).bad = false)
      ∧ (serveDev.coh.txns = [(1, some waitTxn)]) ∧ (waitTxn.phase = Phase.beam 2000) ∧ (waitTxn.req.src = Src.head 0 7) ∧ (waitTxn.req.kind = ReqKind.rdCur)
      ∧ (waitTxn.req.mute = false) ∧ ((serveDev.head 0).link.recovery = false) ∧ (serveDev.regionAt 1 = some (1, rgn1 8)) ∧ ((rgn1 8).noalloc = true)
      ∧ (serveDev.withBuffer 1 (Tbl.get { : LineCell } (serveDev.recData 2000) (1 % 64)) = Tbl.get { : LineCell } (serveDev.recData 2000) (1 % 64)))
    -- relocate
    ∧ ((moveDev.on = true) ∧ (moveDev.beam.reads = [gcRead]) ∧ (gcRead.addr = 2000) ∧ (gcRead.queued = false)
      ∧ (moveDev.inPowerState (48 + gcRead.slot) = false) ∧ (gcRead.rebuilt = false) ∧ (gcRead.gc = true) ∧ (2 ≤ gcRead.prio) ∧ (moveDev.vlt.stopped = false)
      ∧ (moveDev.coh.txns = []) ∧ (Tbl.get none moveDev.beam.recs 2000 = some rec0) ∧ (rec0.confirmed = true)
      ∧ ((have __src := moveDev.hush; { on := __src.on, clock := __src.clock, freeIdx := __src.freeIdx, out := __src.out, pending := __src.pending, glb := __src.glb, boot := __src.boot, pins := __src.pins, ports := __src.ports, heads := __src.heads, regions := __src.regions, near := __src.near, coh := __src.coh, dram := __src.dram, map := __src.map, beam := have __src := moveDev.beam; { ctl := __src.ctl, setId := __src.setId, sbgen := __src.sbgen, formed := __src.formed, retired := __src.retired, pageCap := __src.pageCap, segments := __src.segments, degSeq := __src.degSeq, fmtRev := __src.fmtRev, slots := __src.slots, segs := __src.segs, bufs := __src.bufs, outs := __src.outs, recs := __src.recs, seqNext := __src.seqNext, deltas := __src.deltas, deltaAt := __src.deltaAt, deltaSegs := __src.deltaSegs, ckptSegs := __src.ckptSegs, commit := __src.commit, commitOut := __src.commitOut, cseq := __src.cseq, ckpt := __src.ckpt, base := __src.base, ckptBase := __src.ckptBase, warm := __src.warm, cold := __src.cold, coldUnits := __src.coldUnits, gc := __src.gc, gcChoices := __src.gcChoices, gcSeg := __src.gcSeg, avoided := __src.avoided, avoidAt := __src.avoidAt, rebuild := __src.rebuild, spillOut := __src.spillOut, found := __src.found, waiting := __src.waiting : Beam }, rsv := __src.rsv, vlt := __src.vlt, qos := __src.qos, rng := __src.rng, slv := __src.slv, flt := __src.flt, sec := __src.sec, pmc := __src.pmc, tap := __src.tap, pwr := __src.pwr : State }).append 1 { kind := rec0.kind, page := rec0.page, sectors := rec0.sectors, key := rec0.key, sw := rec0.sw, clen := rec0.clen, content := rec0.content, deltas := rec0.deltas, warm := rec0.warm, stream := rec0.stream, seq := rec0.seq, confirmed := rec0.confirmed, purpose := RecFor.move 2000 : BeamRec } = some ((appended readDone 1 atBeamReadsEndRelocate).1, (appended readDone 1 atBeamReadsEndRelocate).2)))
    -- bad
    ∧ (((readDev (read1 false false false)).on = true) ∧ ((readDev (read1 false false false)).beam.reads = [read1 false false false])
      ∧ ((read1 false false false).addr = 2000) ∧ ((read1 false false false).queued = false)
      ∧ ((readDev (read1 false false false)).inPowerState (48 + (read1 false false false).slot) = false) ∧ ((read1 false false false).rebuilt = false)
      ∧ (BeamErr.check ≠ BeamErr.good))
    -- hedge
    ∧ (((readDev (read1 false false false)).on = true) ∧ ((readDev (read1 false false false)).beam.reads = [read1 false false false])
      ∧ ((read1 false false false).addr = 2000) ∧ ((read1 false false false).queued = false)
      ∧ ((readDev (read1 false false false)).inPowerState (48 + (read1 false false false).slot) = false) ∧ ((read1 false false false).rebuilt = false)
      ∧ ((read1 false false false).hedged = false) ∧ ((read1 false false false).hedge ≠ 0)
      ∧ ((read1 false false false).since + (read1 false false false).hedge ≤ (readDev (read1 false false false)).clock)
      ∧ ([4000000000] = List.filter (fun t => decide ((readDev (read1 false false false)).clock < t + 200000000)) ((readDev (read1 false false false)).slot (read1 false false false).slot).slowAt ++ [(readDev (read1 false false false)).clock])
      ∧ (false = (flag (readDev (read1 false false false)).beam.ctl 10 && decide (16 ≤ [4000000000].length) && (readDev (read1 false false false)).beam.avoided.isNone)))
    -- hedgeFails
    ∧ (((readDev (read1 true false false)).on = true) ∧ ((readDev (read1 true false false)).beam.reads = [read1 true false false])
      ∧ ((read1 true false false).addr = 2000) ∧ ((read1 true false false).queued = false)
      ∧ ((readDev (read1 true false false)).inPowerState (48 + (read1 true false false).slot) = false) ∧ ((read1 true false false).rebuilt = false)
      ∧ ((read1 true false false).hedged = true))
    -- rebuilt
    ∧ (((readDev (read1 false true false)).on = true) ∧ ((readDev (read1 false true false)).beam.reads = [read1 false true false])
      ∧ ((read1 false true false).addr = 2000) ∧ ((read1 false true false).queued = false)
      ∧ ((readDev (read1 false true false)).inPowerState (48 + (read1 false true false).slot) = false) ∧ ((read1 false true false).rebuilt = true)
      ∧ ((read1 false true false).bad = false) ∧ ((read1 false true false).gc = false) ∧ (2 ≤ (read1 false true false).prio)
      ∧ ((readDev (read1 false true false)).coh.txns = []))
    -- abort
    ∧ (((readDev (read1 false false false)).on = true) ∧ ((readDev (read1 false false false)).beam.reads = [read1 false false false])
      ∧ ((read1 false false false).addr = 2000) ∧ ((read1 false false false).queued = false)
      ∧ ((readDev (read1 false false false)).inPowerState (48 + (read1 false false false).slot) = false) ∧ ((read1 false false false).rebuilt = false)
      ∧ ((read1 false false false).since + 4000000000 ≤ (readDev (read1 false false false)).clock))
    -- avoidEnd
    ∧ (((bmDev atBeamReadsEndAvoidEnd 200000005).on = true) ∧ ((bmDev atBeamReadsEndAvoidEnd 200000005).beam.reads = [read1 false false false])
      ∧ ((read1 false false false).addr = 2000) ∧ ((read1 false false false).queued = false)
      ∧ ((bmDev atBeamReadsEndAvoidEnd 200000005).inPowerState (48 + (read1 false false false).slot) = false)
      ∧ ((bmDev atBeamReadsEndAvoidEnd 200000005).beam.avoided = some 3)
      ∧ ((bmDev atBeamReadsEndAvoidEnd 200000005).beam.avoidAt + 200000000 ≤ (bmDev atBeamReadsEndAvoidEnd 200000005).clock)) := by and_intros <;> decide
theorem witness_DrivesComeAndGo :
    -- due
    (((slotDev (slot7 0) [(5, 7)]).on = true) ∧ (7 < 8) ∧ ((slotDev (slot7 0) [(5, 7)]).slot 7 = slot7 0)
      ∧ ((Instr.slotRetire 7 0, 0) ∈ [(Instr.slotRetire 7 0, 0), (Instr.slotRetire 7 3, 3), (Instr.beamLinkDownTimeout (slot7 0).port, 1)])
      ∧ (0 = 0 → (slotDev (slot7 0) [(5, 7)]).retireDue 5 7 = true) ∧ (0 = 3 → (slot7 0).fail = 3)
      ∧ (0 = 1 → List.find? (fun i => ((slotDev (slot7 0) [(5, 7)]).slot i).present && decide (((slotDev (slot7 0) [(5, 7)]).slot i).port = (slot7 0).port) && !(slotDev (slot7 0) [(5, 7)]).beam.retired.getLsbD i) (List.range 8) = some 7)
      ∧ ((slotDev (slot7 0) [(5, 7)]).beam.retired.getLsbD 7 = false) ∧ ((slotDev (slot7 0) [(5, 7)]).beam.bufs = [])
      ∧ ((slotDev (slot7 0) [(5, 7)]).beam.outs = []) ∧ ((slotDev (slot7 0) [(5, 7)]).rng.seals = []))
    -- failed
    ∧ (((slotDev (slot7 3) []).on = true) ∧ (7 < 8) ∧ ((slotDev (slot7 3) []).slot 7 = slot7 3)
      ∧ ((Instr.slotRetire 7 3, 3) ∈ [(Instr.slotRetire 7 0, 0), (Instr.slotRetire 7 3, 3), (Instr.beamLinkDownTimeout (slot7 3).port, 1)])
      ∧ (3 = 0 → (slotDev (slot7 3) []).retireDue 5 7 = true) ∧ (3 = 3 → (slot7 3).fail = 3)
      ∧ (3 = 1 → List.find? (fun i => ((slotDev (slot7 3) []).slot i).present && decide (((slotDev (slot7 3) []).slot i).port = (slot7 3).port) && !(slotDev (slot7 3) []).beam.retired.getLsbD i) (List.range 8) = some 7)
      ∧ ((slotDev (slot7 3) []).beam.retired.getLsbD 7 = false) ∧ ((slotDev (slot7 3) []).beam.bufs = []) ∧ ((slotDev (slot7 3) []).beam.outs = [])
      ∧ ((slotDev (slot7 3) []).rng.seals = []))
    -- portDown
    ∧ (((slotDev (slot7 0) []).on = true) ∧ (7 < 8) ∧ ((slotDev (slot7 0) []).slot 7 = slot7 0)
      ∧ ((Instr.beamLinkDownTimeout 7, 1) ∈ [(Instr.slotRetire 7 0, 0), (Instr.slotRetire 7 3, 3), (Instr.beamLinkDownTimeout (slot7 0).port, 1)])
      ∧ (1 = 0 → (slotDev (slot7 0) []).retireDue 5 7 = true) ∧ (1 = 3 → (slot7 0).fail = 3)
      ∧ (1 = 1 → List.find? (fun i => ((slotDev (slot7 0) []).slot i).present && decide (((slotDev (slot7 0) []).slot i).port = (slot7 0).port) && !(slotDev (slot7 0) []).beam.retired.getLsbD i) (List.range 8) = some 7)
      ∧ ((slotDev (slot7 0) []).beam.retired.getLsbD 7 = false) ∧ ((slotDev (slot7 0) []).beam.bufs = []) ∧ ((slotDev (slot7 0) []).beam.outs = [])
      ∧ ((slotDev (slot7 0) []).rng.seals = []))
    -- adopt
    ∧ ((holeDev.on = true) ∧ (7 < 8) ∧ (holeDev.slot 7 = { : Slot }) ∧ (List.find? (fun i => holeDev.beam.retired.getLsbD i) (List.range 8) = some 7)
      ∧ (flag holeDev.beam.ctl 11 = true) ∧ (holeDev.beam.setId ≠ 0) ∧ (holeDev.beam.rebuild = none) ∧ (blank7.conditions = 63) ∧ (blank7.blank = true)
      ∧ (17408 + 4096 * holeDev.beam.segments ≤ blank7.lbas)
      ∧ (((List.range 8).any fun j => (holeDev.slot j).present && !holeDev.beam.retired.getLsbD j && decide ((holeDev.slot j).port = blank7.port)) = false))
    -- rebuilt
    ∧ (((bmDev atDrivesComeAndGoRebuilt).on = true) ∧ (7 < 8) ∧ ((bmDev atDrivesComeAndGoRebuilt).slot 7 = (bmDev beam8).slot 7)
      ∧ ((bmDev atDrivesComeAndGoRebuilt).beam.rebuild = some 7))
    -- wear
    ∧ (((slotDev (slot7 0) []).on = true) ∧ (7 < 8) ∧ ((slotDev (slot7 0) []).slot 7 = slot7 0) ∧ ((slot7 0).present = true)
      ∧ ((slotDev (slot7 0) []).glb.steward = true) ∧ ((slot7 0).smartAt + 7200000000000 ≤ (slotDev (slot7 0) []).clock) ∧ (89 < 90) ∧ ((slot7 0).worn90 = false)
      ∧ ((slot7 0).worn100 = false))
    -- worn
    ∧ (((slotDev (slot7 0) []).on = true) ∧ (7 < 8) ∧ ((slotDev (slot7 0) []).slot 7 = slot7 0) ∧ ((slot7 0).present = true)
      ∧ ((slotDev (slot7 0) []).glb.steward = true) ∧ ((slot7 0).smartAt + 7200000000000 ≤ (slotDev (slot7 0) []).clock) ∧ (90 ≤ 90) ∧ (90 < 100)
      ∧ ((slot7 0).worn90 = false) ∧ ((slot7 0).worn100 = false))
    -- warning
    ∧ (((slotDev (slot7 0) []).on = true) ∧ (7 < 8) ∧ ((slotDev (slot7 0) []).slot 7 = slot7 0) ∧ ((slot7 0).present = true)) := by and_intros <;> decide
theorem witness_TestsMeasureTheBank :
    -- start
    ((testDev.on = true) ∧ (testDev.glb.steward = true) ∧ (testDev.testIsDue = true) ∧ (testDev.rsv.testEn = true) ∧ (testDev.rsv.health ≠ 3)
      ∧ (testDev.brace = false) ∧ (testDev.rsv.charging = false) ∧ (testDev.rsv.vChg ≤ testDev.rsv.vNow + 250) ∧ (testDev.rsv.step = TestStep.idle)
      ∧ (testDev.vlt.stopped = false) ∧ (testDev.vlt.hold = false)
      ∧ (testDev.dirtyCount * 100 ≤ 90 * (testDev.capAt (testDev.rsv.vNow - testDev.rsv.testDv) 0).1))
    -- now
    ∧ (((rsvDev (rsvAt TestStep.idle [])).on = true) ∧ ((rsvDev (rsvAt TestStep.idle [])).rsv = rsvAt TestStep.idle [])
      ∧ ((rsvDev (rsvAt TestStep.idle [])).glb.steward = true) ∧ ((rsvDev (rsvAt TestStep.idle [])).reaches 16 = true)
      ∧ ((rsvDev (rsvAt TestStep.idle [])).isMgmt 16 = true) ∧ ((rsvAt TestStep.idle []).testDue = none))
    -- settled
    ∧ (((rsvDev settledRsv).on = true) ∧ ((rsvDev settledRsv).rsv = settledRsv) ∧ ((rsvDev settledRsv).glb.steward = true)
      ∧ (settledRsv.step = TestStep.settling) ∧ (100 ≤ settledRsv.testSamples) ∧ (settledRsv.lastI.natAbs ≤ 50))
    -- sample
    ∧ (((rsvDev loadedRsv).on = true) ∧ ((rsvDev loadedRsv).rsv = loadedRsv) ∧ ((rsvDev loadedRsv).glb.steward = true) ∧ (loadedRsv.step = TestStep.loaded)
      ∧ (2 ≤ loadedRsv.testSamples) ∧ (loadedRsv.lastI = -↑5000) ∧ (0 < 5000) ∧ (loadedRsv.volts.headD 0 = 47000)
      ∧ ((loadedRsv.v0 - 47000) * 10000 / 5000 ≤ 65535))
    -- discharged
    ∧ (((rsvDev (dropRsv 0)).on = true) ∧ ((rsvDev (dropRsv 0)).rsv = dropRsv 0) ∧ ((rsvDev (dropRsv 0)).glb.steward = true)
      ∧ ((dropRsv 0).step = TestStep.discharging) ∧ ((dropRsv 0).volts.headD 0 + (dropRsv 0).testDv ≤ (dropRsv 0).va))
    -- abortCap
    ∧ (((rsvDev loadedRsv).on = true) ∧ ((rsvDev loadedRsv).rsv = loadedRsv) ∧ ((rsvDev loadedRsv).glb.steward = true)
      ∧ ((AbortCause.cap, 3) ∈ [(AbortCause.braceOrCommit, 2), (AbortCause.cap, 3), (AbortCause.fiveSeconds, 4)])
      ∧ (loadedRsv.step = TestStep.loaded ∨ loadedRsv.step = TestStep.settling ∨ loadedRsv.step = TestStep.discharging)
      ∧ (AbortCause.cap = AbortCause.braceOrCommit → (rsvDev loadedRsv).brace = true ∨ (rsvDev loadedRsv).vlt.hold = true ∨ (rsvDev loadedRsv).vlt.stopped = true)
      ∧ (AbortCause.cap = AbortCause.cap → 95 * loadedRsv.dEff ≤ (rsvDev loadedRsv).dirtyCount * 100)
      ∧ (AbortCause.cap = AbortCause.fiveSeconds → loadedRsv.step = TestStep.discharging ∧ 500000 ≤ loadedRsv.testSamples))
    -- abortTime
    ∧ (((rsvDev (dropRsv 500000)).on = true) ∧ ((rsvDev (dropRsv 500000)).rsv = dropRsv 500000) ∧ ((rsvDev (dropRsv 500000)).glb.steward = true)
      ∧ ((AbortCause.fiveSeconds, 4) ∈ [(AbortCause.braceOrCommit, 2), (AbortCause.cap, 3), (AbortCause.fiveSeconds, 4)])
      ∧ ((dropRsv 500000).step = TestStep.loaded ∨ (dropRsv 500000).step = TestStep.settling ∨ (dropRsv 500000).step = TestStep.discharging)
      ∧ (AbortCause.fiveSeconds = AbortCause.braceOrCommit → (rsvDev (dropRsv 500000)).brace = true ∨ (rsvDev (dropRsv 500000)).vlt.hold = true ∨ (rsvDev (dropRsv 500000)).vlt.stopped = true)
      ∧ (AbortCause.fiveSeconds = AbortCause.cap → 95 * (dropRsv 500000).dEff ≤ (rsvDev (dropRsv 500000)).dirtyCount * 100)
      ∧ (AbortCause.fiveSeconds = AbortCause.fiveSeconds → (dropRsv 500000).step = TestStep.discharging ∧ 500000 ≤ (dropRsv 500000).testSamples))
    -- computed
    ∧ (((rsvDev compRsv).on = true) ∧ ((rsvDev compRsv).rsv = compRsv) ∧ ((rsvDev compRsv).glb.steward = true) ∧ (compRsv.step = TestStep.computing)
      ∧ (compRsv.qTest = -↑200000000) ∧ (compRsv.est = some (false, 0, 200)))
    -- postponed
    ∧ ((atTestsMeasureTheBankPostponed.on = true) ∧ (atTestsMeasureTheBankPostponed.rsv = atTestsMeasureTheBankPostponed2)
      ∧ (atTestsMeasureTheBankPostponed.glb.steward = true) ∧ (atTestsMeasureTheBankPostponed2.step = TestStep.idle)
      ∧ (atTestsMeasureTheBankPostponed.testIsDue = true) ∧ (atTestsMeasureTheBankPostponed.dueSince + 240 ≤ atTestsMeasureTheBankPostponed.boot.opmin))
    -- charge
    ∧ (((rsvDev atTestsMeasureTheBankCharge).on = true) ∧ ((rsvDev atTestsMeasureTheBankCharge).rsv = atTestsMeasureTheBankCharge)
      ∧ ((rsvDev atTestsMeasureTheBankCharge).glb.steward = true)
      ∧ (atTestsMeasureTheBankCharge.chgSpan = some { v0 := 45000, q := 300000000, v := 47000, runs := false : ChgSpan })
      ∧ (atTestsMeasureTheBankCharge.est = none)
      ∧ ({ v0 := 45000, q := 300000000, v := 47000, runs := false : ChgSpan }.v0 + atTestsMeasureTheBankCharge.testDv ≤ { v0 := 45000, q := 300000000, v := 47000, runs := false : ChgSpan }.v))
    -- accept
    ∧ (((rsvDev (estRsv true 50)).on = true) ∧ ((rsvDev (estRsv true 50)).rsv = estRsv true 50) ∧ ((rsvDev (estRsv true 50)).glb.steward = true)
      ∧ ((estRsv true 50).step = TestStep.idle) ∧ ((estRsv true 50).est = some (true, 50, 200))) := by and_intros <;> decide
theorem witness_ReserveGivesTheCap :
    -- sample
    ((atReserveGivesTheCapSample.on = true) ∧ (atReserveGivesTheCapSample.rsv = boardRsv) ∧ (4095 < 4096)
      ∧ (boardRsv.sampleAt + 20000 ≤ atReserveGivesTheCapSample.clock)) := by decide
theorem witness_ReserveGivesTheCap_recompute :
    ((atReserveGivesTheCapSample.on = true)
      ∧ (atReserveGivesTheCapSample.rsv = boardRsv)
      ∧ (boardRsv.pFlush ≠ 0)
      ∧ (boardRsv.ledgerAt + 20000 ≤ atReserveGivesTheCapSample.clock)
      ∧ (Tbl.wf { : Head } atReserveGivesTheCapSample.heads = true))
    ∧ (∀ (i : ℕ), (atReserveGivesTheCapSample.head i).kept = 0 ∧ (atReserveGivesTheCapSample.head i).waitQ = []) :=
  ⟨by decide,
    fun i => by rcases i with _ | i <;> exact ⟨rfl, rfl⟩⟩
theorem witness_ReserveGivesTheCap_healthSame :
    (((rsvDev boardRsv).on = true)
      ∧ ((rsvDev boardRsv).rsv = boardRsv)
      ∧ (1 = 4 ↔ boardRsv.override = true)
      ∧ (1 = 3 ↔ boardRsv.override = false ∧ boardRsv.fcause ≠ 0)
      ∧ (1 = 0 ∨ 1 = 1 ∨ 1 = 2 ∨ 1 = 3 ∨ 1 = 4)
      ∧ (1 = boardRsv.health))
    ∧ (1 = 2 ↔ boardRsv.override = false ∧ boardRsv.fcause = 0 ∧ ∃ e, (rsvDev boardRsv).cEst = some e ∧ (e.1.mF < boardRsv.cFloor ∨ boardRsv.esrMax < (rsvDev boardRsv).esr))
    ∧ (1 = 1 ↔ boardRsv.override = false ∧ boardRsv.fcause = 0 ∧ ∀ (e : Estimate × Bool), (rsvDev boardRsv).cEst = some e → boardRsv.cFloor ≤ e.1.mF ∧ (rsvDev boardRsv).esr ≤ boardRsv.esrMax ∧ (rsvDev boardRsv).current e.1 = false) :=
  ⟨by decide,
    ⟨fun x => absurd x (by decide), fun x => x.2.2.elim fun _ y => absurd y.1 (by simp [rsvDev, boardRsv, rsvAt, State.cEst])⟩,
    ⟨fun _ => ⟨by decide, by decide, fun _ y => absurd y (by simp [rsvDev, boardRsv, rsvAt, State.cEst])⟩, fun _ => rfl⟩⟩
theorem witness_ReserveGivesTheCap_healthFault :
    (((rsvDev faultRsv).on = true)
      ∧ ((rsvDev faultRsv).rsv = faultRsv)
      ∧ (3 = 4 ↔ faultRsv.override = true)
      ∧ (3 = 3 ↔ faultRsv.override = false ∧ faultRsv.fcause ≠ 0)
      ∧ (3 = 0 ∨ 3 = 1 ∨ 3 = 2 ∨ 3 = 3 ∨ 3 = 4)
      ∧ (3 ≠ faultRsv.health))
    ∧ (3 = 2 ↔ faultRsv.override = false ∧ faultRsv.fcause = 0 ∧ ∃ e, (rsvDev faultRsv).cEst = some e ∧ (e.1.mF < faultRsv.cFloor ∨ faultRsv.esrMax < (rsvDev faultRsv).esr))
    ∧ (3 = 1 ↔ faultRsv.override = false ∧ faultRsv.fcause = 0 ∧ ∀ (e : Estimate × Bool), (rsvDev faultRsv).cEst = some e → faultRsv.cFloor ≤ e.1.mF ∧ (rsvDev faultRsv).esr ≤ faultRsv.esrMax ∧ (rsvDev faultRsv).current e.1 = false) :=
  ⟨by decide,
    ⟨fun x => absurd x (by decide), fun x => absurd x.2.1 (by decide)⟩,
    ⟨fun x => absurd x (by decide), fun x => absurd x.2.1 (by decide)⟩⟩
theorem witness_TapestryKeepsItsRecords :
    -- minute
    ((atTapestryKeepsItsRecordsMinute.on = true) ∧ (atTapestryKeepsItsRecordsMinute.tap.minuteAt + 120000000000 ≤ atTapestryKeepsItsRecordsMinute.clock)
      ∧ (Tbl.wf 0 atTapestryKeepsItsRecordsMinute.tap.minute = true) ∧ (Tbl.wf { : TapAcc } atTapestryKeepsItsRecordsMinute.tap.accs = true)) := by decide
theorem witness_TapestryKeepsItsRecords_flush :
    ((faultDue.on = true)
      ∧ (faultDue.glb.steward = true)
      ∧ (faultDue.tap.due = true)
      ∧ (faultDue.tap.flushing = false)
      ∧ (faultDue.tap.out = []))
    ∧ (∀ (t : ℕ), faultDue.tap.lastFault = some t → t + fld faultDue.tap.ctl 2 14 ≤ faultDue.boot.opmin) :=
  ⟨by decide,
    fun _ h => nomatch h⟩
theorem witness_TapestryKeepsItsRecords_ordinary :
    (((flushDev (draft 0 0) { : TapArea } { : TapArea }).on = true)
      ∧ ((flushDev (draft 0 0) { : TapArea } { : TapArea }).tap.flushing = true)
      ∧ ((flushDev (draft 0 0) { : TapArea } { : TapArea }).tap.out = [draft 0 0])
      ∧ (tapArea (draft 0 0) = 0)
      ∧ (List.length (flushDev (draft 0 0) { : TapArea } { : TapArea }).boot.tapOrd.slots < 720832)
      ∧ ((flushDev (draft 0 0) { : TapArea } { : TapArea }).boot.tapOrd.next = (1, 0)))
    ∧ (finishRec (draft 0 0) 1 0 0 = finishRec (draft 0 0) (1, 0).1 0 (1, 0).2) :=
  ⟨by decide,
    (by rfl)⟩
theorem witness_TapestryKeepsItsRecords_dropOrdinary :
    (((flushDev (draft 0 0) (fullArea 720832 0) { : TapArea }).on = true)
      ∧ ((flushDev (draft 0 0) (fullArea 720832 0) { : TapArea }).tap.flushing = true)
      ∧ ((flushDev (draft 0 0) (fullArea 720832 0) { : TapArea }).tap.out = [draft 0 0])
      ∧ (tapArea (draft 0 0) = 0))
    ∧ (720832 ≤ List.length (flushDev (draft 0 0) (fullArea 720832 0) { : TapArea }).boot.tapOrd.slots) :=
  ⟨by decide,
    ((fullArea_length 720832 0).ge)⟩
theorem witness_TapestryKeepsItsRecords_displace :
    (((flushDev (draft 3 1) { : TapArea } (fullArea 65408 (draft 1 1))).on = true)
      ∧ ((flushDev (draft 3 1) { : TapArea } (fullArea 65408 (draft 1 1))).tap.flushing = true)
      ∧ ((flushDev (draft 3 1) { : TapArea } (fullArea 65408 (draft 1 1))).tap.out = [draft 3 1])
      ∧ (tapArea (draft 3 1) = 1))
    ∧ (65408 ≤ List.length (flushDev (draft 3 1) { : TapArea } (fullArea 65408 (draft 1 1))).boot.tapSev.slots)
    ∧ ((flushDev (draft 3 1) { : TapArea } (fullArea 65408 (draft 1 1))).boot.tapSev.next = (1, 0))
    ∧ ((flushDev (draft 3 1) { : TapArea } (fullArea 65408 (draft 1 1))).boot.tapSev.victim (tapSevOf (draft 3 1)) = some (0, draft 1 1))
    ∧ (finishRec (draft 3 1) 1 (recRseq (draft 1 1)) 0 = finishRec (draft 3 1) (1, 0).1 (recRseq (0, draft 1 1).2) (1, 0).2) :=
  ⟨by decide,
    ((fullArea_length 65408 (draft 1 1)).ge),
    (by rfl),
    (fullArea_victim 65407 3 (draft 1 1) (by decide) (by decide)),
    (by rfl)⟩
theorem witness_TapestryKeepsItsRecords_dropSevere :
    (((flushDev (draft 1 1) { : TapArea } (fullArea 65408 (draft 1 1))).on = true)
      ∧ ((flushDev (draft 1 1) { : TapArea } (fullArea 65408 (draft 1 1))).tap.flushing = true)
      ∧ ((flushDev (draft 1 1) { : TapArea } (fullArea 65408 (draft 1 1))).tap.out = [draft 1 1])
      ∧ (tapArea (draft 1 1) = 1))
    ∧ (65408 ≤ List.length (flushDev (draft 1 1) { : TapArea } (fullArea 65408 (draft 1 1))).boot.tapSev.slots)
    ∧ ((flushDev (draft 1 1) { : TapArea } (fullArea 65408 (draft 1 1))).boot.tapSev.next = (1, 0))
    ∧ ((flushDev (draft 1 1) { : TapArea } (fullArea 65408 (draft 1 1))).boot.tapSev.victim (tapSevOf (draft 1 1)) = none) :=
  ⟨by decide,
    ((fullArea_length 65408 (draft 1 1)).ge),
    (by rfl),
    (fullArea_noVictim 65407 1 (draft 1 1) (by decide) (by decide))⟩
theorem witness_TapestryKeepsItsRecords_whole :
    (((tapRestore 3).on = true)
      ∧ ((tapRestore 3).vlt.st = VState.restore)
      ∧ ((tapRestore 3).boot.tapOrd.chain = some (3, 0))
      ∧ ((tapRestore 3).boot.tapSev.chain = some (3, 0)))
    ∧ (missingRuns (tapRestore 3).boot.tapOrd.base (3, 0).1 (tapRestore 3).boot.tapOrd.held = [])
    ∧ (missingRuns (tapRestore 3).boot.tapSev.base (3, 0).1 (tapRestore 3).boot.tapSev.held = []) :=
  ⟨by decide,
    (by simp [tapRestore, TapArea.held, TapArea.valid, distinct, missingRuns]),
    (by simp [tapRestore, TapArea.held, TapArea.valid, distinct, missingRuns])⟩
theorem witness_TapestryKeepsItsRecords_missing :
    (((tapRestore 5).on = true)
      ∧ ((tapRestore 5).vlt.st = VState.restore)
      ∧ ((tapRestore 5).boot.tapOrd.chain = some (5, 0))
      ∧ ((tapRestore 5).boot.tapSev.chain = some (3, 0)))
    ∧ (missingRuns (tapRestore 5).boot.tapOrd.base (5, 0).1 (tapRestore 5).boot.tapOrd.held = [(4, 2)])
    ∧ (missingRuns (tapRestore 5).boot.tapSev.base (3, 0).1 (tapRestore 5).boot.tapSev.held = []) :=
  ⟨by decide,
    (by simp [tapRestore, TapArea.held, TapArea.valid, distinct, missingRuns]),
    (by simp [tapRestore, TapArea.held, TapArea.valid, distinct, missingRuns])⟩
theorem witness_ResourcesRestAndWake :
    -- evaluate
    (((pwrDev { : Pwr }).on = true) ∧ (56 < 57))
    -- ahead
    ∧ ((atResourcesRestAndWakeAhead.on = true) ∧ (0 < 57) ∧ (atResourcesRestAndWakeAhead.pwr.low.getLsbD 0 = true)
      ∧ (atResourcesRestAndWakeAhead.pwr.leaving.getLsbD 0 = false) ∧ (atResourcesRestAndWakeAhead.wakeDue 0 = some 10)
      ∧ (10 ≤ atResourcesRestAndWakeAhead.exitCycles 0))
    -- exit
    ∧ (((pwrDev { low := 1, leaving := 1 : Pwr }).on = true) ∧ (0 < 57) ∧ ((pwrDev { low := 1, leaving := 1 : Pwr }).pwr.leaving.getLsbD 0 = true)
      ∧ (Tbl.get 0 (pwrDev { low := 1, leaving := 1 : Pwr }).pwr.exitAt 0 ≤ (pwrDev { low := 1, leaving := 1 : Pwr }).clock))
    -- quietEnd
    ∧ (((let __src := pwrDev { quiet := [(0, 10)] : Pwr }; { on := __src.on, clock := 10, freeIdx := __src.freeIdx, out := __src.out, pending := __src.pending, glb := __src.glb, boot := __src.boot, pins := __src.pins, ports := __src.ports, heads := __src.heads, regions := __src.regions, near := __src.near, coh := __src.coh, dram := __src.dram, map := __src.map, beam := __src.beam, rsv := __src.rsv, vlt := __src.vlt, qos := __src.qos, rng := __src.rng, slv := __src.slv, flt := __src.flt, sec := __src.sec, pmc := __src.pmc, tap := __src.tap, pwr := __src.pwr : State }).on = true)
      ∧ (0 < 57) ∧ (0 < 16)
      ∧ (Tbl.get 0 (let __src := pwrDev { quiet := [(0, 10)] : Pwr }; { on := __src.on, clock := 10, freeIdx := __src.freeIdx, out := __src.out, pending := __src.pending, glb := __src.glb, boot := __src.boot, pins := __src.pins, ports := __src.ports, heads := __src.heads, regions := __src.regions, near := __src.near, coh := __src.coh, dram := __src.dram, map := __src.map, beam := __src.beam, rsv := __src.rsv, vlt := __src.vlt, qos := __src.qos, rng := __src.rng, slv := __src.slv, flt := __src.flt, sec := __src.sec, pmc := __src.pmc, tap := __src.tap, pwr := __src.pwr : State }).pwr.quiet 0 = 10)
      ∧ (10 ≠ 0)
      ∧ (10 ≤ (let __src := pwrDev { quiet := [(0, 10)] : Pwr }; { on := __src.on, clock := 10, freeIdx := __src.freeIdx, out := __src.out, pending := __src.pending, glb := __src.glb, boot := __src.boot, pins := __src.pins, ports := __src.ports, heads := __src.heads, regions := __src.regions, near := __src.near, coh := __src.coh, dram := __src.dram, map := __src.map, beam := __src.beam, rsv := __src.rsv, vlt := __src.vlt, qos := __src.qos, rng := __src.rng, slv := __src.slv, flt := __src.flt, sec := __src.sec, pmc := __src.pmc, tap := __src.tap, pwr := __src.pwr : State }).clock))
    -- quiet
    ∧ (((onRing (pwrDev { : Pwr }) 65535 { words := desc 96 0 [0, 0, 0, 5] : Active }).on = true) ∧ (0 < 57)
      ∧ ((onRing (pwrDev { : Pwr }) 65535 { words := desc 96 0 [0, 0, 0, 5] : Active }).working 65535 96 { words := desc 96 0 [0, 0, 0, 5] : Active })
      ∧ (fld (lineWord { words := desc 96 0 [0, 0, 0, 5] : Active }.words 4) 0 32 = 5)
      ∧ (5 = 0 → Tbl.get 0 (onRing (pwrDev { : Pwr }) 65535 { words := desc 96 0 [0, 0, 0, 5] : Active }).pwr.quiet ((onRing (pwrDev { : Pwr }) 65535 { words := desc 96 0 [0, 0, 0, 5] : Active }).ring 65535).owner ≠ 0)) := by and_intros <;> decide
theorem witness_SelvedgeLinkAndPairing :
    -- enable
    (((slvDev { : Slv }).on = true) ∧ ((slvDev { : Slv }).slv = { : Slv }) ∧ ((slvDev { : Slv }).reaches 16 = true) ∧ ((slvDev { : Slv }).isMgmt 16 = true)
      ∧ ({ : Slv }.en = false) ∧ (flag 1 0 = true) ∧ ({ : Slv }.pair = PairSt.off) ∧ ({ : Slv }.l0 = false))
    -- disable
    ∧ (((slvDev (slvAt PairSt.seek true)).on = true) ∧ ((slvDev (slvAt PairSt.seek true)).slv = slvAt PairSt.seek true)
      ∧ ((slvDev (slvAt PairSt.seek true)).reaches 16 = true) ∧ ((slvDev (slvAt PairSt.seek true)).isMgmt 16 = true) ∧ ((slvAt PairSt.seek true).en = true)
      ∧ (flag 0 0 = false) ∧ ((slvAt PairSt.seek true).pair ≠ PairSt.paired) ∧ ((slvAt PairSt.seek true).pair ≠ PairSt.hold)
      ∧ ((slvDev (slvAt PairSt.seek true)).rng.seals = []))
    -- detect
    ∧ (((slvDev seekSlv).on = true) ∧ ((slvDev seekSlv).slv = seekSlv) ∧ (seekSlv.en = true) ∧ ((slvDev seekSlv).slvHeldDown = false)
      ∧ ((slvDev seekSlv).vlt.stopped = false) ∧ (seekSlv.pair = PairSt.seek) ∧ (seekSlv.l0 = false) ∧ (seekSlv.retryAt ≤ (slvDev seekSlv).clock))
    -- step3
    ∧ (((slvDev seekSlv).on = true) ∧ ((slvDev seekSlv).slv = seekSlv) ∧ (seekSlv.en = true) ∧ ((slvDev seekSlv).slvHeldDown = false)
      ∧ ((slvDev seekSlv).vlt.stopped = false) ∧ (seekSlv.pair = PairSt.seek) ∧ (seekSlv.l0 = false) ∧ (seekSlv.detected = true) ∧ (2 ≤ seekSlv.maxRate)
      ∧ (seekSlv.minWidth ≤ 3) ∧ (3 ≤ (slvDev seekSlv).slvLaneWidth))
    -- recovery
    ∧ (((slvDev (slvAt PairSt.paired true)).on = true) ∧ ((slvDev (slvAt PairSt.paired true)).slv = slvAt PairSt.paired true)
      ∧ ((slvAt PairSt.paired true).l0 = true))
    -- regained
    ∧ (((holdDev (recSlv PairSt.hold)).on = true) ∧ ((holdDev (recSlv PairSt.hold)).slv = recSlv PairSt.hold) ∧ ((recSlv PairSt.hold).recovering = true)
      ∧ ((holdDev (recSlv PairSt.hold)).slvHeldDown = false)
      ∧ ((recSlv PairSt.hold).pair = PairSt.hold → (holdDev (recSlv PairSt.hold)).clock ≤ (recSlv PairSt.hold).holdAt + 100000))
    -- timeout
    ∧ (((holdDev (recSlv PairSt.hold)).on = true) ∧ ((holdDev (recSlv PairSt.hold)).slv = recSlv PairSt.hold) ∧ ((recSlv PairSt.hold).pair = PairSt.hold)
      ∧ ((recSlv PairSt.hold).holdAt + 100000 ≤ (holdDev (recSlv PairSt.hold)).clock) ∧ ((holdDev (recSlv PairSt.hold)).rng.seals = [])
      ∧ ((holdDev (recSlv PairSt.hold)).mirrorRegions = []) ∧ ((recSlv PairSt.hold).rgns = []))
    -- diverges
    ∧ ((atSelvedgeLinkAndPairingDiverges.on = true) ∧ (atSelvedgeLinkAndPairingDiverges.slv = holdSlv) ∧ (holdSlv.pair = PairSt.hold)
      ∧ (holdSlv.holdAt + 100000 ≤ atSelvedgeLinkAndPairingDiverges.clock) ∧ (atSelvedgeLinkAndPairingDiverges.rng.seals = [])
      ∧ (atSelvedgeLinkAndPairingDiverges.mirrorRegions = [1]) ∧ (holdSlv.rgns = [(1, { mst := 3 : SlvRgn })])
      ∧ ((atSelvedgeLinkAndPairingDiverges.region 1).isSource = true) ∧ ({ mst := 3 : SlvRgn }.mst = 3) ∧ ({ mst := 3 : SlvRgn }.div = 0) ∧ (holdSlv.delay = [])
      ∧ (holdSlv.sent = []) ∧ (holdSlv.parked = []))
    -- lane
    ∧ (((laneDue (slvAt PairSt.seek false)).on = true) ∧ ((laneDue (slvAt PairSt.seek false)).slv = slvAt PairSt.seek false) ∧ (7 < 8)
      ∧ ((laneDue (slvAt PairSt.seek false)).retireDue 8 7 = true) ∧ (128 = putBit (slvAt PairSt.seek false).laneRet 7 true)
      ∧ ((slvAt PairSt.seek false).l0 = false))
    -- laneInL0
    ∧ (((laneDue (slvAt PairSt.seek true)).on = true) ∧ ((laneDue (slvAt PairSt.seek true)).slv = slvAt PairSt.seek true) ∧ (7 < 8)
      ∧ ((laneDue (slvAt PairSt.seek true)).retireDue 8 7 = true) ∧ (128 = putBit (slvAt PairSt.seek true).laneRet 7 true)
      ∧ (lanesWidth (List.range 8) 128 = some 2) ∧ ((slvAt PairSt.seek true).minWidth ≤ 2) ∧ ((slvAt PairSt.seek true).l0 = true))
    -- hello
    ∧ (((slvDev (slvAt PairSt.seek true)).on = true) ∧ ((slvDev (slvAt PairSt.seek true)).slv = slvAt PairSt.seek true) ∧ ((slvAt PairSt.seek true).l0 = true)
      ∧ (Trw.read [(0, 64)] (slvAt PairSt.seek true).pairId = 77) ∧ ((slvAt PairSt.seek true).en = true) ∧ ((slvDev (slvAt PairSt.seek true)).beam.setId ≠ 0)
      ∧ ((helloOf 77 8).setId ≠ 0) ∧ (77 ≠ 0) ∧ ((helloOf 77 8).pairId = 77) ∧ (fld (helloOf 77 8).glbRev 24 8 = fld glbRev 24 8)
      ∧ ((helloOf 77 8).setId ≠ (slvDev (slvAt PairSt.seek true)).beam.setId))
    -- refused
    ∧ (((slvDev (slvAt PairSt.seek true)).on = true) ∧ ((slvDev (slvAt PairSt.seek true)).slv = slvAt PairSt.seek true) ∧ ((slvAt PairSt.seek true).l0 = true)
      ∧ (Trw.read [(0, 64)] (slvAt PairSt.seek true).pairId = 77)
      ∧ (2 = 2 ∧ (slvAt PairSt.seek true).en = true ∧ (slvDev (slvAt PairSt.seek true)).beam.setId ≠ 0 ∧ (helloOf 78 8).setId ≠ 0 ∧ (77 = 0 ∨ (helloOf 78 8).pairId ≠ 77) ∨ 2 = 0 ∧ (slvAt PairSt.seek true).en = false ∨ 2 = 1 ∧ (slvAt PairSt.seek true).en = true ∧ ((slvDev (slvAt PairSt.seek true)).beam.setId = 0 ∨ (helloOf 78 8).setId = 0) ∨ 2 = 4 ∧ (slvAt PairSt.seek true).en = true ∧ (helloOf 78 8).setId = (slvDev (slvAt PairSt.seek true)).beam.setId ∧ (helloOf 78 8).setId ≠ 0 ∧ 77 ≠ 0 ∧ (helloOf 78 8).pairId = 77 ∧ fld (helloOf 78 8).glbRev 24 8 = fld glbRev 24 8))
    -- sameSet
    ∧ (((slvDev (slvAt PairSt.seek true)).on = true) ∧ ((slvDev (slvAt PairSt.seek true)).slv = slvAt PairSt.seek true) ∧ ((slvAt PairSt.seek true).l0 = true)
      ∧ (Trw.read [(0, 64)] (slvAt PairSt.seek true).pairId = 77)
      ∧ (4 = 2 ∧ (slvAt PairSt.seek true).en = true ∧ (slvDev (slvAt PairSt.seek true)).beam.setId ≠ 0 ∧ (helloOf 77 9).setId ≠ 0 ∧ (77 = 0 ∨ (helloOf 77 9).pairId ≠ 77) ∨ 4 = 0 ∧ (slvAt PairSt.seek true).en = false ∨ 4 = 1 ∧ (slvAt PairSt.seek true).en = true ∧ ((slvDev (slvAt PairSt.seek true)).beam.setId = 0 ∨ (helloOf 77 9).setId = 0) ∨ 4 = 4 ∧ (slvAt PairSt.seek true).en = true ∧ (helloOf 77 9).setId = (slvDev (slvAt PairSt.seek true)).beam.setId ∧ (helloOf 77 9).setId ≠ 0 ∧ 77 ≠ 0 ∧ (helloOf 77 9).pairId = 77 ∧ fld (helloOf 77 9).glbRev 24 8 = fld glbRev 24 8))
    -- retry
    ∧ ((atSelvedgeLinkAndPairingRetry.on = true) ∧ (atSelvedgeLinkAndPairingRetry.slv = refusedSlv) ∧ (refusedSlv.refused = true) ∧ (refusedSlv.l0 = true)
      ∧ (refusedSlv.helloAt + 2000000000 ≤ atSelvedgeLinkAndPairingRetry.clock)
      ∧ (atSelvedgeLinkAndPairingRetry.slvRoom 0 atSelvedgeLinkAndPairingRetry.helloWords.length = true)
      ∧ ((refusedSlv.tx.waiting.any fun e => decide (e.1 = 0)) = false))
    -- spdmFollows
    ∧ (((slvDev (metSlv true)).on = true) ∧ ((slvDev (metSlv true)).slv = metSlv true) ∧ ((metSlv true).l0 = true) ∧ ((metSlv true).ide = false)
      ∧ ((metSlv true).peer = some (helloOf 77 8)) ∧ ((slvDev (metSlv true)).helloFails (helloOf 77 8) = none) ∧ (1 ≠ 0) ∧ ((metSlv true).follow = true))
    -- spdmLeads
    ∧ (((slvDev (metSlv false)).on = true) ∧ ((slvDev (metSlv false)).slv = metSlv false) ∧ ((metSlv false).l0 = true) ∧ ((metSlv false).ide = false)
      ∧ ((metSlv false).peer = some (helloOf 77 8)) ∧ ((slvDev (metSlv false)).helloFails (helloOf 77 8) = none) ∧ (1 ≠ 0) ∧ ((metSlv false).follow = false))
    -- session
    ∧ (((slvDev keyedSlv).on = true) ∧ ((slvDev keyedSlv).slv = keyedSlv) ∧ (keyedSlv.l0 = true) ∧ (keyedSlv.ide = true) ∧ (keyedSlv.follow = true)
      ∧ (keyedSlv.pair ≠ PairSt.paired) ∧ (keyedSlv.pair ≠ PairSt.off) ∧ ((slvDev keyedSlv).mirrorRegions = []) ∧ (keyedSlv.rgns = []))
    -- health
    ∧ (((slvDev keyedSlv).on = true) ∧ ((slvDev keyedSlv).slv = keyedSlv) ∧ (keyedSlv.ide = true))
    -- fallback
    ∧ (((slvDev keyedSlv).on = true) ∧ ((slvDev keyedSlv).slv = keyedSlv) ∧ (keyedSlv.l0 = true)) := by and_intros <;> decide
theorem witness_SelvedgeLinkAndPairing_laneDown :
    (((laneDue wideSlv).on = true)
      ∧ ((laneDue wideSlv).slv = wideSlv)
      ∧ (7 < 8)
      ∧ ((laneDue wideSlv).retireDue 8 7 = true)
      ∧ (128 = putBit wideSlv.laneRet 7 true)
      ∧ (wideSlv.l0 = true))
    ∧ (∀ (w : ℕ), lanesWidth (List.range 8) 128 = some w → w < wideSlv.minWidth) :=
  ⟨by decide,
    (fun _ hw => Option.some.inj ((by decide : some 2 = lanesWidth (List.range 8) 0x80).trans hw) ▸ by decide)⟩
theorem witness_MirroredWritesCross :
    -- sent
    (((mwrDev (mwrSlv sync1 [] [])).on = true) ∧ ((mwrDev (mwrSlv sync1 [] [])).slv = mwrSlv sync1 [] []) ∧ ((mwrDev (mwrSlv sync1 [] [])).rng.seals = [])
      ∧ ((mwrSlv sync1 [] []).delay = [mwr1]) ∧ (mwr1.at_ + 1000 ≤ (mwrDev (mwrSlv sync1 [] [])).clock)
      ∧ ((mwrDev (mwrSlv sync1 [] [])).slvRgn mwr1.region = sync1) ∧ (1 ≤ sync1.mst) ∧ (sync1.mst ≤ 3) ∧ ((mwrSlv sync1 [] []).taken = [])
      ∧ ((mwrSlv sync1 [] []).pagesOut.contains (mwr1.region, some (pageOf mwr1.line)) = false)
      ∧ (mwr1.words 5 0 false = mwr1.words ((mwrDev (mwrSlv sync1 [] [])).region mwr1.region).peer (((mwrDev (mwrSlv sync1 [] [])).region mwr1.region).base * 32768) sync1.gap)
      ∧ ((mwrDev (mwrSlv sync1 [] [])).slvRoom 1 (mwr1.words 5 0 false).length = true)
      ∧ (((mwrSlv sync1 [] []).tx.waiting.any fun e => decide (e.1 = 1)) = false))
    -- parked
    ∧ (((mwrDev (mwrSlv sync1 [] [(1, some 1023)])).on = true) ∧ ((mwrDev (mwrSlv sync1 [] [(1, some 1023)])).slv = mwrSlv sync1 [] [(1, some 1023)])
      ∧ ((mwrDev (mwrSlv sync1 [] [(1, some 1023)])).rng.seals = []) ∧ ((mwrSlv sync1 [] [(1, some 1023)]).delay = [mwr1])
      ∧ (mwr1.at_ + 1000 ≤ (mwrDev (mwrSlv sync1 [] [(1, some 1023)])).clock) ∧ ((mwrDev (mwrSlv sync1 [] [(1, some 1023)])).slvRgn mwr1.region = sync1)
      ∧ (1 ≤ sync1.mst) ∧ (sync1.mst ≤ 3) ∧ ((mwrSlv sync1 [] [(1, some 1023)]).pagesOut.contains (mwr1.region, some (pageOf mwr1.line)) = true)
      ∧ ((mwrSlv sync1 [] [(1, some 1023)]).parked.length < 4096))
    -- outside
    ∧ (((mirDev 16384 (pairSlv [] [])).on = true) ∧ ((mirDev 16384 (pairSlv [] [])).slv = pairSlv [] []) ∧ ((mirDev 16384 (pairSlv [] [])).rng.seals = [])
      ∧ ((pairSlv [] []).l0 = true) ∧ ((pairSlv [] []).ide = true) ∧ ((pairSlv [] []).pair ≠ PairSt.off) ∧ ((pairSlv [] []).pair ≠ PairSt.seek)
      ∧ ((mirDev 16384 (pairSlv [] [])).vlt.stopped = false) ∧ ((mirDev 16384 (pairSlv [] [])).region 1 = srcRgn 16384)
      ∧ ((srcRgn 16384).size * 32768 ≤ 4194304 / 64))
    -- applied
    ∧ (((mirDev 16384 (pairSlv [] [])).on = true) ∧ ((mirDev 16384 (pairSlv [] [])).slv = pairSlv [] []) ∧ ((mirDev 16384 (pairSlv [] [])).rng.seals = [])
      ∧ ((pairSlv [] []).l0 = true) ∧ ((pairSlv [] []).ide = true) ∧ ((pairSlv [] []).pair ≠ PairSt.off) ∧ ((pairSlv [] []).pair ≠ PairSt.seek)
      ∧ ((mirDev 16384 (pairSlv [] [])).vlt.stopped = false) ∧ ((mirDev 16384 (pairSlv [] [])).region 1 = srcRgn 16384) ∧ ((srcRgn 16384).isMirror = true)
      ∧ (((mirDev 16384 (pairSlv [] [])).slvRgn 1).mst ≠ 5) ∧ (4194303 / 64 < (srcRgn 16384).size * 32768))
    -- mack
    ∧ (((slvDev (pairSlv [] [])).on = true) ∧ ((slvDev (pairSlv [] [])).slv = pairSlv [] []) ∧ ((slvDev (pairSlv [] [])).rng.seals = [])
      ∧ ((pairSlv [] []).l0 = true) ∧ ((pairSlv [] []).ide = true) ∧ ((pairSlv [] []).pair ≠ PairSt.off) ∧ ((pairSlv [] []).pair ≠ PairSt.seek)
      ∧ ((pairSlv [] []).rgns = []))
    -- rackDone
    ∧ (((mirDev 2 (pairSlv [(1, sync1)] [(1, none)])).on = true) ∧ ((mirDev 2 (pairSlv [(1, sync1)] [(1, none)])).slv = pairSlv [(1, sync1)] [(1, none)])
      ∧ ((mirDev 2 (pairSlv [(1, sync1)] [(1, none)])).rng.seals = []) ∧ ((pairSlv [(1, sync1)] [(1, none)]).l0 = true)
      ∧ ((pairSlv [(1, sync1)] [(1, none)]).ide = true) ∧ ((pairSlv [(1, sync1)] [(1, none)]).pair ≠ PairSt.off)
      ∧ ((pairSlv [(1, sync1)] [(1, none)]).pair ≠ PairSt.seek) ∧ ((pairSlv [(1, sync1)] [(1, none)]).rgns = [(1, sync1)])
      ∧ ((pairSlv [(1, sync1)] [(1, none)]).pagesOut = [(1, none)]) ∧ (((mirDev 2 (pairSlv [(1, sync1)] [(1, none)])).region 1).isSource = true)
      ∧ (1 = (pairSlv [(1, sync1)] [(1, none)]).rackCount + 1) ∧ (1 < 2 ^ 32))
    -- rackPage
    ∧ (((mirDev 2 (pairSlv [] [(1, some 5)])).on = true) ∧ ((mirDev 2 (pairSlv [] [(1, some 5)])).slv = pairSlv [] [(1, some 5)])
      ∧ ((mirDev 2 (pairSlv [] [(1, some 5)])).rng.seals = []) ∧ ((pairSlv [] [(1, some 5)]).l0 = true) ∧ ((pairSlv [] [(1, some 5)]).ide = true)
      ∧ ((pairSlv [] [(1, some 5)]).pair ≠ PairSt.off) ∧ ((pairSlv [] [(1, some 5)]).pair ≠ PairSt.seek) ∧ ((pairSlv [] [(1, some 5)]).rgns = [])
      ∧ ((pairSlv [] [(1, some 5)]).pagesOut = [(1, some 5)]) ∧ ((pairSlv [] [(1, some 5)]).parked = []) ∧ (1 = (pairSlv [] [(1, some 5)]).rackCount + 1)
      ∧ (1 < 2 ^ 32))
    -- oldSession
    ∧ (((mirDev 16384 (pairSlv [] [])).on = true) ∧ ((mirDev 16384 (pairSlv [] [])).slv = pairSlv [] []) ∧ ((mirDev 16384 (pairSlv [] [])).rng.seals = [])
      ∧ ((pairSlv [] []).l0 = true) ∧ ((pairSlv [] []).ide = true) ∧ ((pairSlv [] []).pair ≠ PairSt.off) ∧ ((pairSlv [] []).pair ≠ PairSt.seek)
      ∧ ((mirDev 16384 (pairSlv [] [])).vlt.stopped = false) ∧ ((mirDev 16384 (pairSlv [] [])).region 1 = srcRgn 16384) ∧ (4 ≠ (pairSlv [] []).session))
    -- poison
    ∧ (((mirDev 16384 (pairSlv [] [])).on = true) ∧ ((mirDev 16384 (pairSlv [] [])).slv = pairSlv [] []) ∧ ((mirDev 16384 (pairSlv [] [])).rng.seals = [])
      ∧ ((pairSlv [] []).l0 = true) ∧ ((pairSlv [] []).ide = true) ∧ ((pairSlv [] []).pair ≠ PairSt.off) ∧ ((pairSlv [] []).pair ≠ PairSt.seek)
      ∧ ((mirDev 16384 (pairSlv [] [])).vlt.stopped = false) ∧ ((mirDev 16384 (pairSlv [] [])).region 1 = srcRgn 16384) ∧ (5 = (pairSlv [] []).session)
      ∧ ((srcRgn 16384).isMirror = true) ∧ (((mirDev 16384 (pairSlv [] [])).slvRgn 1).mst ≠ 5) ∧ (1023 < (srcRgn 16384).size * 512)
      ∧ (((mirDev 16384 (pairSlv [] [])).slvRgn 1).fresh = false))
    -- pageReads
    ∧ ((beamPageDev.on = true) ∧ (beamPageDev.slv = pairSlv [(1, resync1)] []) ∧ (beamPageDev.rng.seals = [])
      ∧ ((pairSlv [(1, resync1)] []).pair = PairSt.paired) ∧ (beamPageDev.slvRgn 1 = resync1) ∧ ((beamPageDev.region 1).isSource = true) ∧ (resync1.mst = 2)
      ∧ (resync1.copyNext = none) ∧ (1023 < (beamPageDev.region 1).size * 512) ∧ (1023 = (beamPageDev.region 1).base * 512 + 1023) ∧ (0 ≠ 1023)
      ∧ (resync1.set = [1023, 0]) ∧ ((pairSlv [(1, resync1)] []).taken = []) ∧ ((pairSlv [(1, resync1)] []).pagesOut = [])
      ∧ ((pairSlv [(1, resync1)] []).delay = []) ∧ ((pairSlv [(1, resync1)] []).sent = []) ∧ ((pairSlv [(1, resync1)] []).parked = [])
      ∧ (rpageWords 5 (beamPageDev.pageForm 1 1023).1 1023 5 (beamPageDev.pageForm 1 1023).2 = rpageWords (beamPageDev.region 1).peer (beamPageDev.pageForm 1 1023).1 1023 (pairSlv [(1, resync1)] []).session (beamPageDev.pageForm 1 1023).2)
      ∧ (beamPageDev.slvRoom 3 (rpageWords 5 (beamPageDev.pageForm 1 1023).1 1023 5 (beamPageDev.pageForm 1 1023).2).length = true)
      ∧ (((pairSlv [(1, resync1)] []).tx.waiting.any fun e => decide (e.1 = 3)) = false) ∧ ((beamPageDev.page 1023).place = Place.t3 2000)
      ∧ ((pairSlv [(1, resync1)] []).reading = [])) := by and_intros <;> decide
theorem witness_MirroredWritesCross_full :
    (((mwrDev (mwrSlv sync1 fullC1 [])).on = true)
      ∧ ((mwrDev (mwrSlv sync1 fullC1 [])).rng.seals = [])
      ∧ ((mwrSlv sync1 fullC1 []).delay = [mwr1])
      ∧ (mwr1.at_ + 1000 ≤ (mwrDev (mwrSlv sync1 fullC1 [])).clock)
      ∧ ((mwrDev (mwrSlv sync1 fullC1 [])).slvRgn mwr1.region = sync1)
      ∧ (1 ≤ sync1.mst)
      ∧ (sync1.mst ≤ 3)
      ∧ ((mwrSlv sync1 fullC1 []).taken = [])
      ∧ ((mwrSlv sync1 fullC1 []).pagesOut.contains (mwr1.region, some (pageOf mwr1.line)) = false)
      ∧ (mwr1.words 5 0 false = mwr1.words ((mwrDev (mwrSlv sync1 fullC1 [])).region mwr1.region).peer (((mwrDev (mwrSlv sync1 fullC1 [])).region mwr1.region).base * 32768) sync1.gap)
      ∧ (sync1.mst = 3)
      ∧ (sync1.set.contains (pageOf mwr1.line) = false))
    ∧ ((mwrDev (mwrSlv sync1 fullC1 [])).slv = mwrSlv sync1 fullC1 [])
    ∧ ((mwrDev (mwrSlv sync1 fullC1 [])).slvRoom 1 (mwr1.words 5 0 false).length = false) :=
  ⟨by and_intros <;> decide,
    (by rfl),
    (fullC1_room _ _ rfl (by decide))⟩
theorem witness_MirroredWritesCross_page :
    (((mirDev 2 (pairSlv [(1, resync1)] [])).on = true)
      ∧ ((mirDev 2 (pairSlv [(1, resync1)] [])).slv = pairSlv [(1, resync1)] [])
      ∧ ((mirDev 2 (pairSlv [(1, resync1)] [])).rng.seals = [])
      ∧ ((pairSlv [(1, resync1)] []).pair = PairSt.paired)
      ∧ ((mirDev 2 (pairSlv [(1, resync1)] [])).slvRgn 1 = resync1)
      ∧ (((mirDev 2 (pairSlv [(1, resync1)] [])).region 1).isSource = true)
      ∧ (resync1.mst = 2)
      ∧ (resync1.copyNext = none)
      ∧ (1023 < ((mirDev 2 (pairSlv [(1, resync1)] [])).region 1).size * 512)
      ∧ (1023 = ((mirDev 2 (pairSlv [(1, resync1)] [])).region 1).base * 512 + 1023)
      ∧ (0 ≠ 1023)
      ∧ (resync1.set = [1023, 0])
      ∧ ((pairSlv [(1, resync1)] []).taken = [])
      ∧ ((pairSlv [(1, resync1)] []).pagesOut = [])
      ∧ ((pairSlv [(1, resync1)] []).delay = [])
      ∧ ((pairSlv [(1, resync1)] []).sent = [])
      ∧ ((pairSlv [(1, resync1)] []).parked = [])
      ∧ (rpageWords 5 1 1023 5 [] = rpageWords ((mirDev 2 (pairSlv [(1, resync1)] [])).region 1).peer ((mirDev 2 (pairSlv [(1, resync1)] [])).pageForm 1 1023).1 1023 (pairSlv [(1, resync1)] []).session ((mirDev 2 (pairSlv [(1, resync1)] [])).pageForm 1 1023).2)
      ∧ ((mirDev 2 (pairSlv [(1, resync1)] [])).slvRoom 3 (rpageWords 5 1 1023 5 []).length = true)
      ∧ (((pairSlv [(1, resync1)] []).tx.waiting.any fun e => decide (e.1 = 3)) = false))
    ∧ (∀ (a : ℕ), ((mirDev 2 (pairSlv [(1, resync1)] [])).page 1023).place ≠ Place.t3 a) :=
  ⟨by and_intros <;> decide,
    fun _ h => nomatch h⟩
theorem witness_MirrorsChangeSides :
    -- copies
    (((sideDev 2 PairSt.paired { mst := 5 : SlvRgn } []).on = true) ∧ ((sideDev 2 PairSt.paired { mst := 5 : SlvRgn } []).region 1 = srcRgn 2)
      ∧ ((sideDev 2 PairSt.paired { mst := 5 : SlvRgn } []).slvRgn 1 = { mst := 5 : SlvRgn })
      ∧ ((sideDev 2 PairSt.paired { mst := 5 : SlvRgn } []).rng.seals = []) ∧ ((sideDev 2 PairSt.paired { mst := 5 : SlvRgn } []).slv.pair = PairSt.paired)
      ∧ ((sideDev 2 PairSt.paired { mst := 5 : SlvRgn } []).mirrorRegions = [1]) ∧ ((srcRgn 2).isSource = true)
      ∧ (∃ e ∈ [entry5 true], e.index = (srcRgn 2).peer ∧ e.window = true ∧ e.peer = 1 ∧ e.size = (srcRgn 2).size) ∧ ({ mst := 5 : SlvRgn }.mst = 5)
      ∧ ({ mst := 5 : SlvRgn }.held = false) ∧ ({ mst := 5 : SlvRgn }.div = 0))
    -- mismatch
    ∧ (((sideDev 2 PairSt.paired { mst := 3 : SlvRgn } []).on = true) ∧ ((sideDev 2 PairSt.paired { mst := 3 : SlvRgn } []).region 1 = srcRgn 2)
      ∧ ((sideDev 2 PairSt.paired { mst := 3 : SlvRgn } []).slvRgn 1 = { mst := 3 : SlvRgn })
      ∧ ((sideDev 2 PairSt.paired { mst := 3 : SlvRgn } []).rng.seals = []) ∧ ((sideDev 2 PairSt.paired { mst := 3 : SlvRgn } []).slv.pair = PairSt.paired)
      ∧ ((sideDev 2 PairSt.paired { mst := 3 : SlvRgn } []).mirrorRegions = [1]) ∧ ((srcRgn 2).isSource = true)
      ∧ (∀ e ∈ [entry5 false], ¬(e.index = (srcRgn 2).peer ∧ e.window = true ∧ e.peer = 1 ∧ e.size = (srcRgn 2).size)) ∧ ({ mst := 3 : SlvRgn }.mst ≠ 5))
    -- taken
    ∧ (((sideDev 2 PairSt.paired { mst := 3 : SlvRgn } []).on = true) ∧ ((sideDev 2 PairSt.paired { mst := 3 : SlvRgn } []).region 1 = srcRgn 2)
      ∧ ((sideDev 2 PairSt.paired { mst := 3 : SlvRgn } []).slvRgn 1 = { mst := 3 : SlvRgn })
      ∧ ((sideDev 2 PairSt.paired { mst := 3 : SlvRgn } []).rng.seals = []) ∧ ((sideDev 2 PairSt.paired { mst := 3 : SlvRgn } []).slv.pair = PairSt.paired)
      ∧ ((srcRgn 2).isSource = true) ∧ ({ mst := 3 : SlvRgn }.held = false))
    -- returned
    ∧ (((sideDev 2 PairSt.paired { mst := 5, held := true : SlvRgn } []).on = true)
      ∧ ((sideDev 2 PairSt.paired { mst := 5, held := true : SlvRgn } []).region 1 = srcRgn 2)
      ∧ ((sideDev 2 PairSt.paired { mst := 5, held := true : SlvRgn } []).slvRgn 1 = { mst := 5, held := true : SlvRgn })
      ∧ ((sideDev 2 PairSt.paired { mst := 5, held := true : SlvRgn } []).rng.seals = [])
      ∧ ((sideDev 2 PairSt.paired { mst := 5, held := true : SlvRgn } []).slv.pair = PairSt.paired) ∧ ((srcRgn 2).isSource = true)
      ∧ ({ mst := 5, held := true : SlvRgn }.held = true))
    -- goBack
    ∧ (((sideDev 0 PairSt.paired { mst := 6 : SlvRgn } [entry5 false]).on = true)
      ∧ ((sideDev 0 PairSt.paired { mst := 6 : SlvRgn } [entry5 false]).region 1 = srcRgn 0)
      ∧ ((sideDev 0 PairSt.paired { mst := 6 : SlvRgn } [entry5 false]).slvRgn 1 = { mst := 6 : SlvRgn })
      ∧ ((sideDev 0 PairSt.paired { mst := 6 : SlvRgn } [entry5 false]).rng.seals = [])
      ∧ ((sideDev 0 PairSt.paired { mst := 6 : SlvRgn } [entry5 false]).reaches 16 = true)
      ∧ ((sideDev 0 PairSt.paired { mst := 6 : SlvRgn } [entry5 false]).isMgmt 16 = true) ∧ (1 < 4096) ∧ ({ mst := 6 : SlvRgn }.mst = 6)
      ∧ ((sideDev 0 PairSt.paired { mst := 6 : SlvRgn } [entry5 false]).slv.pair = PairSt.paired) ∧ ((srcRgn 0).anyWrite = false)
      ∧ (∃ e ∈ (sideDev 0 PairSt.paired { mst := 6 : SlvRgn } [entry5 false]).slv.rmap, e.index = (srcRgn 0).peer ∧ e.window = false ∧ e.size = (srcRgn 0).size))
    -- goRefused
    ∧ (((sideDev 0 PairSt.paired { mst := 3 : SlvRgn } []).on = true) ∧ ((sideDev 0 PairSt.paired { mst := 3 : SlvRgn } []).region 1 = srcRgn 0)
      ∧ ((sideDev 0 PairSt.paired { mst := 3 : SlvRgn } []).slvRgn 1 = { mst := 3 : SlvRgn })
      ∧ ((sideDev 0 PairSt.paired { mst := 3 : SlvRgn } []).rng.seals = []) ∧ ((sideDev 0 PairSt.paired { mst := 3 : SlvRgn } []).reaches 16 = true)
      ∧ ((sideDev 0 PairSt.paired { mst := 3 : SlvRgn } []).isMgmt 16 = true) ∧ (1 < 4096)
      ∧ ({ mst := 3 : SlvRgn }.mst ≠ 6 ∨ (sideDev 0 PairSt.paired { mst := 3 : SlvRgn } []).slv.pair ≠ PairSt.paired ∨ (srcRgn 0).anyWrite = true))
    -- pfNotice
    ∧ (((mirDev 0 (slvAt PairSt.paired true)).on = true) ∧ ((mirDev 0 (slvAt PairSt.paired true)).region 1 = srcRgn 0)
      ∧ ((mirDev 0 (slvAt PairSt.paired true)).slvRgn 1 = { : SlvRgn }) ∧ ((mirDev 0 (slvAt PairSt.paired true)).rng.seals = [])
      ∧ ((mirDev 0 (slvAt PairSt.paired true)).slv.pair = PairSt.paired) ∧ ((mirDev 0 (slvAt PairSt.paired true)).slv.rgns = [])
      ∧ ((mirDev 0 (slvAt PairSt.paired true)).mirrorRegions = []))
    -- takeNoMirror
    ∧ (((takeoverDev 0 PairSt.solo { mst := 4, complete := true : SlvRgn }).on = true)
      ∧ ((takeoverDev 0 PairSt.solo { mst := 4, complete := true : SlvRgn }).region 1 = srcRgn 0)
      ∧ ((takeoverDev 0 PairSt.solo { mst := 4, complete := true : SlvRgn }).slvRgn 1 = { mst := 4, complete := true : SlvRgn })
      ∧ ((takeoverDev 0 PairSt.solo { mst := 4, complete := true : SlvRgn }).rng.seals = [])
      ∧ ((takeoverDev 0 PairSt.solo { mst := 4, complete := true : SlvRgn }).working 65535 112 takeover) ∧ (dAll takeover.words = false)
      ∧ (dRegion takeover.words = 1) ∧ ((srcRgn 0).active = true) ∧ ((srcRgn 0).isMirror = false))
    -- takeState
    ∧ (((takeoverDev 16384 PairSt.paired { mst := 4, complete := true : SlvRgn }).on = true)
      ∧ ((takeoverDev 16384 PairSt.paired { mst := 4, complete := true : SlvRgn }).region 1 = srcRgn 16384)
      ∧ ((takeoverDev 16384 PairSt.paired { mst := 4, complete := true : SlvRgn }).slvRgn 1 = { mst := 4, complete := true : SlvRgn })
      ∧ ((takeoverDev 16384 PairSt.paired { mst := 4, complete := true : SlvRgn }).rng.seals = [])
      ∧ ((takeoverDev 16384 PairSt.paired { mst := 4, complete := true : SlvRgn }).working 65535 112 takeover) ∧ (dAll takeover.words = false)
      ∧ (dRegion takeover.words = 1) ∧ ((srcRgn 16384).isMirror = true)
      ∧ ((takeoverDev 16384 PairSt.paired { mst := 4, complete := true : SlvRgn }).slv.pair ≠ PairSt.solo ∧ (takeoverDev 16384 PairSt.paired { mst := 4, complete := true : SlvRgn }).slv.pair ≠ PairSt.off ∨ { mst := 4, complete := true : SlvRgn }.mst ≠ 4 ∨ { mst := 4, complete := true : SlvRgn }.complete = false))
    -- takes
    ∧ (((takeoverDev 16384 PairSt.solo { mst := 4, complete := true : SlvRgn }).on = true)
      ∧ ((takeoverDev 16384 PairSt.solo { mst := 4, complete := true : SlvRgn }).region 1 = srcRgn 16384)
      ∧ ((takeoverDev 16384 PairSt.solo { mst := 4, complete := true : SlvRgn }).slvRgn 1 = { mst := 4, complete := true : SlvRgn })
      ∧ ((takeoverDev 16384 PairSt.solo { mst := 4, complete := true : SlvRgn }).rng.seals = [])
      ∧ ((takeoverDev 16384 PairSt.solo { mst := 4, complete := true : SlvRgn }).working 65535 112 takeover) ∧ (dAll takeover.words = false)
      ∧ (dRegion takeover.words = 1) ∧ ((srcRgn 16384).isMirror = true)
      ∧ ((takeoverDev 16384 PairSt.solo { mst := 4, complete := true : SlvRgn }).slv.pair = PairSt.solo) ∧ ({ mst := 4, complete := true : SlvRgn }.mst = 4)
      ∧ ({ mst := 4, complete := true : SlvRgn }.complete = true))
    -- takeAll
    ∧ (((onRing (sideDev 16384 PairSt.solo { mst := 4, complete := true : SlvRgn } []) 65535 takeAll).on = true)
      ∧ ((onRing (sideDev 16384 PairSt.solo { mst := 4, complete := true : SlvRgn } []) 65535 takeAll).region 1 = srcRgn 16384)
      ∧ ((onRing (sideDev 16384 PairSt.solo { mst := 4, complete := true : SlvRgn } []) 65535 takeAll).slvRgn 1 = { mst := 4, complete := true : SlvRgn })
      ∧ ((onRing (sideDev 16384 PairSt.solo { mst := 4, complete := true : SlvRgn } []) 65535 takeAll).rng.seals = [])
      ∧ ((onRing (sideDev 16384 PairSt.solo { mst := 4, complete := true : SlvRgn } []) 65535 takeAll).working 65535 112 takeAll) ∧ (dAll takeAll.words = true)
      ∧ ([1] = List.map Prod.fst (List.filter (fun e => (onRing (sideDev 16384 PairSt.solo { mst := 4, complete := true : SlvRgn } []) 65535 takeAll).takes e.1) (onRing (sideDev 16384 PairSt.solo { mst := 4, complete := true : SlvRgn } []) 65535 takeAll).regions))
      ∧ ((onRing (sideDev 16384 PairSt.solo { mst := 4, complete := true : SlvRgn } []) 65535 takeAll).slv.pair = PairSt.solo ∨ (onRing (sideDev 16384 PairSt.solo { mst := 4, complete := true : SlvRgn } []) 65535 takeAll).slv.pair = PairSt.off)
      ∧ ([1] ≠ []))
    -- divFull
    ∧ ((divDev.on = true) ∧ (divDev.region 1 = srcRgn 2) ∧ (divDev.slvRgn 1 = { mst := 4, div := 3 : SlvRgn }) ∧ (divDev.rng.seals = [])
      ∧ (divDev.slv.divSegs < (Tbl.keysWhere (fun g x => divDev.divHolds g) divDev.beam.segs).length)) := by and_intros <;> decide
theorem witness_FlitsCross :
    -- crc
    (((slvDev l0Slv).on = true) ∧ ((slvDev l0Slv).slv = l0Slv) ∧ (l0Slv.l0 = true) ∧ ((hdr 0 0 1 false).cls < 4))
    -- integrity
    ∧ (((slvDev l0Slv).on = true) ∧ ((slvDev l0Slv).slv = l0Slv) ∧ (l0Slv.l0 = true) ∧ ((hdr 0 0 1 false).cls < 4) ∧ (l0Slv.ide = true))
    -- old
    ∧ (((slvDev l0Slv).on = true) ∧ ((slvDev l0Slv).slv = l0Slv) ∧ (l0Slv.l0 = true) ∧ ((hdr 2048 0 1 false).cls < 4)
      ∧ (2048 = ((hdr 2048 0 1 false).seq + 4096 - l0Slv.rx.next) % 4096) ∧ ((hdr 2048 0 1 false).seq < 4096) ∧ (l0Slv.rx.next < 4096) ∧ (l0Slv.fbRx = false)
      ∧ (l0Slv.rx.xoffOut = false) ∧ (2048 ≤ 2048))
    -- early
    ∧ (((slvDev l0Slv).on = true) ∧ ((slvDev l0Slv).slv = l0Slv) ∧ (l0Slv.l0 = true) ∧ ((hdr 2047 0 1 false).cls < 4)
      ∧ (2047 = ((hdr 2047 0 1 false).seq + 4096 - l0Slv.rx.next) % 4096) ∧ ((hdr 2047 0 1 false).seq < 4096) ∧ (l0Slv.rx.next < 4096) ∧ (l0Slv.fbRx = false)
      ∧ (l0Slv.rx.xoffOut = false) ∧ (0 < 2047) ∧ (2047 < 2048) ∧ (l0Slv.rx.buf = []))
    -- inOrder
    ∧ (((slvDev l0Slv).on = true) ∧ ((slvDev l0Slv).slv = l0Slv) ∧ (l0Slv.l0 = true) ∧ ((hdr 0 0 2 false).cls < 4)
      ∧ (0 = ((hdr 0 0 2 false).seq + 4096 - l0Slv.rx.next) % 4096) ∧ ((hdr 0 0 2 false).seq < 4096) ∧ (l0Slv.rx.next < 4096) ∧ (l0Slv.fbRx = false)
      ∧ (l0Slv.rx.xoffOut = false) ∧ (l0Slv.rx.buf = []) ∧ (Tbl.get [] l0Slv.rx.stream (hdr 0 0 2 false).cls = [])
      ∧ (List.take (min 26 (hdr 0 0 2 false).words) [1281, 7] = [1281, 7]) ∧ ([7].length + 1 < pktLen 1281))
    -- null
    ∧ (((slvDev l0Slv).on = true) ∧ ((slvDev l0Slv).slv = l0Slv) ∧ (l0Slv.l0 = true) ∧ ((hdr 0 0 0 false).nv = false) ∧ (l0Slv.fbRx = false)
      ∧ (l0Slv.rx.xoffOut = false) ∧ (Tbl.wf 0 l0Slv.tx.credits = true) ∧ (Tbl.wf 0 l0Slv.tx.seen = true))
    -- resend
    ∧ (((timedDev (txSlv { replay := [askFlit] : SlvTx })).on = true)
      ∧ ((timedDev (txSlv { replay := [askFlit] : SlvTx })).slv = txSlv { replay := [askFlit] : SlvTx }) ∧ ((txSlv { replay := [askFlit] : SlvTx }).l0 = true)
      ∧ ((txSlv { replay := [askFlit] : SlvTx }).tx.builtAt + (txSlv { replay := [askFlit] : SlvTx }).flitTime ≤ (timedDev (txSlv { replay := [askFlit] : SlvTx })).clock)
      ∧ (List.find? (fun f => f.ask) (builtDev (timedDev (txSlv { replay := [askFlit] : SlvTx }))).slv.tx.replay = some askFlit) ∧ (askFlit.resent < 4))
    -- given
    ∧ (((timedDev (txSlv { replay := [let __src := askFlit; { seq := __src.seq, cls := __src.cls, words := __src.words, sentAt := __src.sentAt, resent := 4, ask := __src.ask : SlvFlit }] : SlvTx })).on = true)
      ∧ ((timedDev (txSlv { replay := [let __src := askFlit; { seq := __src.seq, cls := __src.cls, words := __src.words, sentAt := __src.sentAt, resent := 4, ask := __src.ask : SlvFlit }] : SlvTx })).slv = txSlv { replay := [let __src := askFlit; { seq := __src.seq, cls := __src.cls, words := __src.words, sentAt := __src.sentAt, resent := 4, ask := __src.ask : SlvFlit }] : SlvTx })
      ∧ ((txSlv { replay := [let __src := askFlit; { seq := __src.seq, cls := __src.cls, words := __src.words, sentAt := __src.sentAt, resent := 4, ask := __src.ask : SlvFlit }] : SlvTx }).l0 = true)
      ∧ ((txSlv { replay := [let __src := askFlit; { seq := __src.seq, cls := __src.cls, words := __src.words, sentAt := __src.sentAt, resent := 4, ask := __src.ask : SlvFlit }] : SlvTx }).tx.builtAt + (txSlv { replay := [let __src := askFlit; { seq := __src.seq, cls := __src.cls, words := __src.words, sentAt := __src.sentAt, resent := 4, ask := __src.ask : SlvFlit }] : SlvTx }).flitTime ≤ (timedDev (txSlv { replay := [let __src := askFlit; { seq := __src.seq, cls := __src.cls, words := __src.words, sentAt := __src.sentAt, resent := 4, ask := __src.ask : SlvFlit }] : SlvTx })).clock)
      ∧ (List.find? (fun f => f.ask) (builtDev (timedDev (txSlv { replay := [let __src := askFlit; { seq := __src.seq, cls := __src.cls, words := __src.words, sentAt := __src.sentAt, resent := 4, ask := __src.ask : SlvFlit }] : SlvTx }))).slv.tx.replay = some (let __src := askFlit; { seq := __src.seq, cls := __src.cls, words := __src.words, sentAt := __src.sentAt, resent := 4, ask := __src.ask : SlvFlit }))
      ∧ (4 ≤ (let __src := askFlit; { seq := __src.seq, cls := __src.cls, words := __src.words, sentAt := __src.sentAt, resent := 4, ask := __src.ask : SlvFlit }).resent))
    -- nothing
    ∧ (((timedDev l0Slv).on = true) ∧ ((timedDev l0Slv).slv = l0Slv) ∧ (l0Slv.l0 = true) ∧ (l0Slv.tx.builtAt + l0Slv.flitTime ≤ (timedDev l0Slv).clock)
      ∧ (List.find? (fun f => f.ask) (builtDev (timedDev l0Slv)).slv.tx.replay = none) ∧ ((builtDev (timedDev l0Slv)).eligible 0 = false)
      ∧ ((builtDev (timedDev l0Slv)).eligible 1 = false) ∧ ((builtDev (timedDev l0Slv)).eligible 2 = false) ∧ ((builtDev (timedDev l0Slv)).eligible 3 = false))
    -- classThree
    ∧ (((timedDev (txSlv turnTx)).on = true) ∧ ((timedDev (txSlv turnTx)).slv = txSlv turnTx) ∧ ((txSlv turnTx).l0 = true)
      ∧ ((txSlv turnTx).tx.builtAt + (txSlv turnTx).flitTime ≤ (timedDev (txSlv turnTx)).clock)
      ∧ (List.find? (fun f => f.ask) (builtDev (timedDev (txSlv turnTx))).slv.tx.replay = none)
      ∧ (3 = 0 ∧ (builtDev (timedDev (txSlv turnTx))).eligible 0 = true ∨ 3 = 2 ∧ (builtDev (timedDev (txSlv turnTx))).eligible 0 = false ∧ (builtDev (timedDev (txSlv turnTx))).eligible 2 = true ∨ (builtDev (timedDev (txSlv turnTx))).eligible 0 = false ∧ (builtDev (timedDev (txSlv turnTx))).eligible 2 = false ∧ (3 = 1 ∧ (builtDev (timedDev (txSlv turnTx))).eligible 1 = true ∧ ((builtDev (timedDev (txSlv turnTx))).eligible 3 = true → (builtDev (timedDev (txSlv turnTx))).slv.tx.turn % 8 ≠ 7) ∨ 3 = 3 ∧ (builtDev (timedDev (txSlv turnTx))).eligible 3 = true ∧ ((builtDev (timedDev (txSlv turnTx))).eligible 1 = true → (builtDev (timedDev (txSlv turnTx))).slv.tx.turn % 8 = 7)))
      ∧ ([(304, true)] = List.take 26 (Tbl.get [] (builtDev (timedDev (txSlv turnTx))).slv.tx.fifo 3)))
    -- again
    ∧ (((let __src := slvDev (txSlv { replay := [askFlit] : SlvTx }); { on := __src.on, clock := 8000, freeIdx := __src.freeIdx, out := __src.out, pending := __src.pending, glb := __src.glb, boot := __src.boot, pins := __src.pins, ports := __src.ports, heads := __src.heads, regions := __src.regions, near := __src.near, coh := __src.coh, dram := __src.dram, map := __src.map, beam := __src.beam, rsv := __src.rsv, vlt := __src.vlt, qos := __src.qos, rng := __src.rng, slv := __src.slv, flt := __src.flt, sec := __src.sec, pmc := __src.pmc, tap := __src.tap, pwr := __src.pwr : State }).on = true)
      ∧ ((let __src := slvDev (txSlv { replay := [askFlit] : SlvTx }); { on := __src.on, clock := 8000, freeIdx := __src.freeIdx, out := __src.out, pending := __src.pending, glb := __src.glb, boot := __src.boot, pins := __src.pins, ports := __src.ports, heads := __src.heads, regions := __src.regions, near := __src.near, coh := __src.coh, dram := __src.dram, map := __src.map, beam := __src.beam, rsv := __src.rsv, vlt := __src.vlt, qos := __src.qos, rng := __src.rng, slv := __src.slv, flt := __src.flt, sec := __src.sec, pmc := __src.pmc, tap := __src.tap, pwr := __src.pwr : State }).slv = txSlv { replay := [askFlit] : SlvTx })
      ∧ ((txSlv { replay := [askFlit] : SlvTx }).l0 = true)
      ∧ (List.find? (fun g => decide (g.seq = askFlit.seq)) (txSlv { replay := [askFlit] : SlvTx }).tx.replay = some askFlit)
      ∧ (askFlit.sentAt + 8000 ≤ (let __src := slvDev (txSlv { replay := [askFlit] : SlvTx }); { on := __src.on, clock := 8000, freeIdx := __src.freeIdx, out := __src.out, pending := __src.pending, glb := __src.glb, boot := __src.boot, pins := __src.pins, ports := __src.ports, heads := __src.heads, regions := __src.regions, near := __src.near, coh := __src.coh, dram := __src.dram, map := __src.map, beam := __src.beam, rsv := __src.rsv, vlt := __src.vlt, qos := __src.qos, rng := __src.rng, slv := __src.slv, flt := __src.flt, sec := __src.sec, pmc := __src.pmc, tap := __src.tap, pwr := __src.pwr : State }).clock)) := by and_intros <;> decide
theorem witness_KeysAndCustody :
    -- busy
    (((keyDev (saltSec (some { op := 1, slot := 3 : KeyCmd })) { : Boot }).on = true)
      ∧ ((keyDev (saltSec (some { op := 1, slot := 3 : KeyCmd })) { : Boot }).reaches 0 = true)
      ∧ ((keyDev (saltSec (some { op := 1, slot := 3 : KeyCmd })) { : Boot }).isMgmt 0 = true) ∧ (255 < 256)
      ∧ ((Instr.generate 0 255, 1) ∈ [(Instr.generate 0 255, 1), (Instr.erase 0 255, 2)])
      ∧ ((keyDev (saltSec (some { op := 1, slot := 3 : KeyCmd })) { : Boot }).sec.cmd.isSome = true))
    -- refused
    ∧ (((keyDev (saltSec none) { : Boot }).on = true) ∧ ((keyDev (saltSec none) { : Boot }).reaches 0 = true)
      ∧ ((keyDev (saltSec none) { : Boot }).isMgmt 0 = true) ∧ (255 < 256) ∧ ((Instr.generate 0 255, 1) ∈ [(Instr.generate 0 255, 1), (Instr.erase 0 255, 2)])
      ∧ ((keyDev (saltSec none) { : Boot }).sec.cmd = none) ∧ ((keyDev (saltSec none) { : Boot }).sec.sanitizing = none)
      ∧ (1 = 1 ∧ Tbl.get 0 (keyDev (saltSec none) { : Boot }).sec.salts 255 ≠ 0))
    -- named
    ∧ (((keyDev { salts := [(0, 5)] : Sec } { : Boot }).on = true) ∧ ((keyDev { salts := [(0, 5)] : Sec } { : Boot }).reaches 0 = true)
      ∧ ((keyDev { salts := [(0, 5)] : Sec } { : Boot }).isMgmt 0 = true) ∧ (0 < 256) ∧ ((Instr.erase 0 0, 2) ∈ [(Instr.generate 0 0, 1), (Instr.erase 0 0, 2)])
      ∧ ((keyDev { salts := [(0, 5)] : Sec } { : Boot }).sec.cmd = none) ∧ ((keyDev { salts := [(0, 5)] : Sec } { : Boot }).sec.sanitizing = none)
      ∧ (2 = 2 ∧ (Tbl.get 0 (keyDev { salts := [(0, 5)] : Sec } { : Boot }).sec.salts 0 = 0 ∨ (keyDev { salts := [(0, 5)] : Sec } { : Boot }).slotNamed 0 = true)))
    -- generate
    ∧ (((keyDev { : Sec } { : Boot }).on = true) ∧ ((keyDev { : Sec } { : Boot }).reaches 0 = true) ∧ ((keyDev { : Sec } { : Boot }).isMgmt 0 = true)
      ∧ (255 < 256) ∧ ((keyDev { : Sec } { : Boot }).sec.cmd = none) ∧ ((keyDev { : Sec } { : Boot }).sec.sanitizing = none)
      ∧ ((keyDev { : Sec } { : Boot }).beam.setId ≠ 0) ∧ (Tbl.get 0 (keyDev { : Sec } { : Boot }).sec.salts 255 = 0))
    -- erase
    ∧ ((boundDev.on = true) ∧ (boundDev.reaches 0 = true) ∧ (boundDev.isMgmt 0 = true) ∧ (255 < 256) ∧ (boundDev.sec.cmd = none)
      ∧ (boundDev.sec.sanitizing = none) ∧ (boundDev.beam.setId ≠ 0) ∧ (Tbl.get 0 boundDev.sec.salts 255 ≠ 0) ∧ (boundDev.slotNamed 255 = false)
      ∧ (boundDev.vlt.stopped = false) ∧ (boundDev.rng.seals = []) ∧ (boundDev.near.wb = []) ∧ (boundDev.map.swatches = []))
    -- eraseUnits
    ∧ ((boundDev.on = true) ∧ (boundDev.reaches 0 = true) ∧ (boundDev.isMgmt 0 = true) ∧ (255 < 256) ∧ (boundDev.sec.cmd = none)
      ∧ (boundDev.sec.sanitizing = none) ∧ (boundDev.beam.setId ≠ 0) ∧ (Tbl.get 0 boundDev.sec.salts 255 ≠ 0) ∧ (boundDev.slotNamed 255 = false)
      ∧ (boundDev.vlt.stopped = false) ∧ (boundDev.rng.seals = []) ∧ (boundDev.near.wb = []) ∧ (boundDev.map.swatches = [])
      ∧ (Tbl.wf { : PageEntry } boundDev.map.pages = true) ∧ (1023 ∈ boundDev.unitsOf 255) ∧ (523776 / 512 = 1023))
    -- generated
    ∧ (((keyDev (saltSec (some { op := 1, slot := 255 : KeyCmd })) { : Boot }).on = true)
      ∧ ((keyDev (saltSec (some { op := 1, slot := 255 : KeyCmd })) { : Boot }).reaches 0 = true)
      ∧ ((keyDev (saltSec (some { op := 1, slot := 255 : KeyCmd })) { : Boot }).isMgmt 0 = true) ∧ (255 < 256)
      ∧ ((keyDev (saltSec (some { op := 1, slot := 255 : KeyCmd })) { : Boot }).sec.cmd = some { op := 1, slot := 255 : KeyCmd })
      ∧ ({ op := 1, slot := 255 : KeyCmd }.slot = 255) ∧ ({ op := 1, slot := 255 : KeyCmd }.op = 1))
    -- erased
    ∧ (((keyDev (saltSec (some { op := 2, slot := 255, zeroed := true, committed := true : KeyCmd })) { : Boot }).on = true)
      ∧ ((keyDev (saltSec (some { op := 2, slot := 255, zeroed := true, committed := true : KeyCmd })) { : Boot }).reaches 0 = true)
      ∧ ((keyDev (saltSec (some { op := 2, slot := 255, zeroed := true, committed := true : KeyCmd })) { : Boot }).isMgmt 0 = true) ∧ (255 < 256)
      ∧ ((keyDev (saltSec (some { op := 2, slot := 255, zeroed := true, committed := true : KeyCmd })) { : Boot }).sec.cmd = some { op := 2, slot := 255, zeroed := true, committed := true : KeyCmd })
      ∧ ({ op := 2, slot := 255, zeroed := true, committed := true : KeyCmd }.slot = 255)
      ∧ ({ op := 2, slot := 255, zeroed := true, committed := true : KeyCmd }.op = 2)
      ∧ ({ op := 2, slot := 255, zeroed := true, committed := true : KeyCmd }.committed = true)
      ∧ ((keyDev (saltSec (some { op := 2, slot := 255, zeroed := true, committed := true : KeyCmd })) { : Boot }).vlt.stopped = false))
    -- notYet
    ∧ (((keyDev (saltSec (some { op := 2, slot := 255, zeroed := true : KeyCmd })) { : Boot }).on = true)
      ∧ ((keyDev (saltSec (some { op := 2, slot := 255, zeroed := true : KeyCmd })) { : Boot }).reaches 0 = true)
      ∧ ((keyDev (saltSec (some { op := 2, slot := 255, zeroed := true : KeyCmd })) { : Boot }).isMgmt 0 = true) ∧ (255 < 256)
      ∧ ((keyDev (saltSec (some { op := 2, slot := 255, zeroed := true : KeyCmd })) { : Boot }).sec.cmd = some { op := 2, slot := 255, zeroed := true : KeyCmd })
      ∧ ({ op := 2, slot := 255, zeroed := true : KeyCmd }.slot = 255) ∧ ({ op := 2, slot := 255, zeroed := true : KeyCmd }.op = 2)
      ∧ ({ op := 2, slot := 255, zeroed := true : KeyCmd }.committed = false))
    -- custodian
    ∧ (((keyDev { spdm := [(0, 3)] : Sec } { : Boot }).on = true) ∧ ((keyDev { spdm := [(0, 3)] : Sec } { : Boot }).reaches 0 = true)
      ∧ ((keyDev { spdm := [(0, 3)] : Sec } { : Boot }).isMgmt 0 = true) ∧ (255 < 256)
      ∧ (Tbl.get 0 (keyDev { spdm := [(0, 3)] : Sec } { : Boot }).sec.spdm 0 = 3) ∧ ((keyDev { spdm := [(0, 3)] : Sec } { : Boot }).beam.setId ≠ 0))
    -- noSession
    ∧ (((keyDev { : Sec } { : Boot }).on = true) ∧ ((keyDev { : Sec } { : Boot }).reaches 0 = true) ∧ ((keyDev { : Sec } { : Boot }).isMgmt 0 = true)
      ∧ (255 < 256) ∧ (Tbl.get 0 (keyDev { : Sec } { : Boot }).sec.spdm 0 ≠ 3))
    -- owned
    ∧ (((beamlessDev 9).on = true) ∧ ((beamlessDev 9).reaches 0 = true) ∧ ((beamlessDev 9).isMgmt 0 = true) ∧ (0 < 256)
      ∧ (Tbl.get 0 (beamlessDev 9).sec.spdm 0 = 3) ∧ (3 = 3 ∧ ((beamlessDev 9).boot.setId ≠ 0 ∨ (beamlessDev 9).beamless = false)))
    -- noSet
    ∧ (((beamlessDev 0).on = true) ∧ ((beamlessDev 0).reaches 0 = true) ∧ ((beamlessDev 0).isMgmt 0 = true) ∧ (0 < 256)
      ∧ (Tbl.get 0 (beamlessDev 0).sec.spdm 0 = 3) ∧ ((beamlessDev 0).boot.setId = 0) ∧ ((beamlessDev 0).beamless = true) ∧ (setDrives (set9 0) 8 = []))
    -- sanBusy
    ∧ (((sanDev { sanitizing := some 3 : Sec }).on = true) ∧ ((sanDev { sanitizing := some 3 : Sec }).reaches 0 = true)
      ∧ ((sanDev { sanitizing := some 3 : Sec }).isMgmt 0 = true) ∧ (0 < 256) ∧ (Instr.sanitize 0 ∈ [Instr.sanitize 0, Instr.secureErase 0])
      ∧ ((sanDev { sanitizing := some 3 : Sec }).glb.steward = true) ∧ ((sanDev { sanitizing := some 3 : Sec }).sec.sanitizing.isSome = true))
    -- sanitize
    ∧ (((sanDev { : Sec }).on = true) ∧ ((sanDev { : Sec }).reaches 0 = true) ∧ ((sanDev { : Sec }).isMgmt 0 = true) ∧ (0 < 256)
      ∧ (Instr.secureErase 0 ∈ [Instr.sanitize 0, Instr.secureErase 0]) ∧ ((sanDev { : Sec }).glb.steward = true) ∧ ((sanDev { : Sec }).sec.sanitizing = none)
      ∧ ((sanDev { : Sec }).sec.cmd = none) ∧ ((sanDev { : Sec }).vlt.active = true) ∧ ((sanDev { : Sec }).vlt.stopped = false)
      ∧ ((sanDev { : Sec }).beam.setId ≠ 0))
    -- sanitized
    ∧ (((sanDev { bkek := some 7, sanitizing := some 0 : Sec }).on = true) ∧ ((sanDev { bkek := some 7, sanitizing := some 0 : Sec }).reaches 0 = true)
      ∧ ((sanDev { bkek := some 7, sanitizing := some 0 : Sec }).isMgmt 0 = true) ∧ (0 < 256)
      ∧ ((sanDev { bkek := some 7, sanitizing := some 0 : Sec }).sec.sanitizing = some 0)
      ∧ ((sanDev { bkek := some 7, sanitizing := some 0 : Sec }).sec.bkek = some 7)) := by and_intros <;> decide
theorem witness_KeysAndCustody_mismatch :
    (((beamlessDev 0).on = true)
      ∧ ((beamlessDev 0).reaches 0 = true)
      ∧ ((beamlessDev 0).isMgmt 0 = true)
      ∧ (0 < 256)
      ∧ (Tbl.get 0 (beamlessDev 0).sec.spdm 0 = 3)
      ∧ ((beamlessDev 0).boot.setId = 0)
      ∧ ((beamlessDev 0).beamless = true)
      ∧ (9 ≠ 0))
    ∧ (setDrives (set9 (keyCheck 1 9 + 1)) 9 ≠ [])
    ∧ (keyCheck 1 9 ≠ checkInForce (setDrives (set9 (keyCheck 1 9 + 1)) 9)) :=
  ⟨by decide,
    (by intro h; exact absurd (congrArg List.length h) (by decide)),
    (by show keyCheck 1 9 ≠ keyCheck 1 9 + 1; bv_omega)⟩
theorem witness_KeysAndCustody_delivered :
    (((beamlessDev 0).on = true)
      ∧ ((beamlessDev 0).reaches 0 = true)
      ∧ ((beamlessDev 0).isMgmt 0 = true)
      ∧ (0 < 256)
      ∧ (Tbl.get 0 (beamlessDev 0).sec.spdm 0 = 3)
      ∧ ((beamlessDev 0).boot.setId = 0)
      ∧ ((beamlessDev 0).beamless = true)
      ∧ (9 ≠ 0))
    ∧ (setDrives (set9 (keyCheck 1 9)) 9 ≠ [])
    ∧ (keyCheck 1 9 = checkInForce (setDrives (set9 (keyCheck 1 9)) 9)) :=
  ⟨by decide,
    (by intro h; exact absurd (congrArg List.length h) (by decide)),
    (by rfl)⟩
theorem witness_CommitsFollowTheSupply :
    -- sample
    (((vltOn (vltAt VState.run true 0)).on = true) ∧ (2171 < 4096)
      ∧ ((vltOn (vltAt VState.run true 0)).vlt.vinAt + 2000 ≤ (vltOn (vltAt VState.run true 0)).clock)
      ∧ ((if 2171 < 2171 then (vltOn (vltAt VState.run true 0)).vlt.lowCommit + 1 else 0) < 2)
      ∧ ((if 2171 < 2294 then (vltOn (vltAt VState.run true 0)).vlt.lowBrace + 1 else 0) < 2))
    -- brace
    ∧ (((vltOn (vltAt VState.run true 1)).on = true) ∧ (2171 < 4096)
      ∧ ((vltOn (vltAt VState.run true 1)).vlt.vinAt + 2000 ≤ (vltOn (vltAt VState.run true 1)).clock)
      ∧ ((if 2171 < 2171 then (vltOn (vltAt VState.run true 1)).vlt.lowCommit + 1 else 0) < 2)
      ∧ (2 ≤ if 2171 < 2294 then (vltOn (vltAt VState.run true 1)).vlt.lowBrace + 1 else 0) ∧ ((vltOn (vltAt VState.run true 1)).vlt.braceOn = false)
      ∧ ((vltOn (vltAt VState.run true 1)).vlt.st = VState.run))
    -- commit
    ∧ (((vltOn (vltAt VState.run true 1)).on = true) ∧ (2170 < 4096)
      ∧ ((vltOn (vltAt VState.run true 1)).vlt.vinAt + 2000 ≤ (vltOn (vltAt VState.run true 1)).clock) ∧ ((vltOn (vltAt VState.run true 1)).vlt.st = VState.run)
      ∧ ((vltOn (vltAt VState.run true 1)).vlt.orderly = false) ∧ (2 ≤ if 2170 < 2171 then (vltOn (vltAt VState.run true 1)).vlt.lowCommit + 1 else 0))
    -- pfCommit
    ∧ (((vltOn (vltAt VState.run true 1)).on = true) ∧ (4095 < 4096)
      ∧ ((vltOn (vltAt VState.run true 1)).vlt.vinAt + 2000 ≤ (vltOn (vltAt VState.run true 1)).clock) ∧ ((vltOn (vltAt VState.run true 1)).vlt.st = VState.run)
      ∧ ((vltOn (vltAt VState.run true 1)).vlt.orderly = false) ∧ ((if 4095 < 2171 then (vltOn (vltAt VState.run true 1)).vlt.lowCommit + 1 else 0) < 2)
      ∧ ((vltOn (vltAt VState.run true 1)).vlt.ctl.fld 2 1 = 1))
    -- restore
    ∧ (((vltOn braced).on = true) ∧ (0 < 4096) ∧ ((vltOn braced).vlt.vinAt + 2000 ≤ (vltOn braced).clock) ∧ ((vltOn braced).vlt.st = VState.restore)
      ∧ (2 ≤ if 0 < 2171 then (vltOn braced).vlt.lowCommit + 1 else 0) ∧ ((vltOn braced).vlt.braceOn = true))
    -- pfIn
    ∧ (((vltDev (vltAt VState.run true 0)).on = true) ∧ ((vltDev (vltAt VState.run true 0)).vlt.st = VState.run)
      ∧ ((vltDev (vltAt VState.run true 0)).vlt.orderly = false) ∧ ((vltDev (vltAt VState.run true 0)).vlt.ctl.fld 2 1 = 1))
    -- pfOff
    ∧ (((vltDev (vltAt VState.run false 0)).on = true) ∧ ((vltDev (vltAt VState.run false 0)).vlt.ctl.fld 2 1 ≠ 1))
    -- recovers
    ∧ (((vltDev goodVlt).on = true) ∧ (5000 ≤ (vltDev goodVlt).vlt.good))
    -- notYet
    ∧ (((vltDev (vltAt VState.run true 0)).on = true) ∧ ((vltDev (vltAt VState.run true 0)).vlt.good < 5000))
    -- drill
    ∧ (((vltDev (vltAt VState.run true 0)).on = true) ∧ ((vltDev (vltAt VState.run true 0)).reaches 16 = true)
      ∧ ((vltDev (vltAt VState.run true 0)).isMgmt 16 = true) ∧ ((vltDev (vltAt VState.run true 0)).vlt.st = VState.run)
      ∧ ((vltDev (vltAt VState.run true 0)).vlt.orderly = false))
    -- noDrill
    ∧ (((vltDev (vltAt VState.restore true 0)).on = true) ∧ ((vltDev (vltAt VState.restore true 0)).reaches 16 = true)
      ∧ ((vltDev (vltAt VState.restore true 0)).isMgmt 16 = true) ∧ ((vltDev (vltAt VState.restore true 0)).vlt.st ≠ VState.run)
      ∧ ((vltDev (vltAt VState.restore true 0)).vlt.st ≠ VState.brace) ∧ (Instr.drill 16 ∈ [Instr.drill 16, Instr.shutdown 16, Instr.softReset 16]))
    -- softReset
    ∧ ((brakedDev.on = true) ∧ (brakedDev.reaches 16 = true) ∧ (brakedDev.isMgmt 16 = true)
      ∧ ((Instr.softReset 16, true) ∈ [(Instr.shutdown 16, false), (Instr.softReset 16, true)])
      ∧ ((brakedDev.presentHeads.all fun h => (brakedDev.head h).braked) = true) ∧ (brakedDev.flt.fatal = none) ∧ (brakedDev.vlt.st = VState.run))
    -- unbraked
    ∧ (((vltDev (vltAt VState.run true 0)).on = true) ∧ ((vltDev (vltAt VState.run true 0)).reaches 16 = true)
      ∧ ((vltDev (vltAt VState.run true 0)).isMgmt 16 = true)
      ∧ (((vltDev (vltAt VState.run true 0)).presentHeads.all fun h => ((vltDev (vltAt VState.run true 0)).head h).braked) = false))
    -- denied
    ∧ ((otherHead.on = true) ∧ (otherHead.reaches 15 = true) ∧ (otherHead.isMgmt 15 = false)
      ∧ ((Instr.drill 15, 40960) ∈ [(Instr.drill 15, 40960), (Instr.shutdown 15, 40960), (Instr.softReset 15, 24)]))
    -- watchdog
    ∧ (((dev 1).on = true) ∧ ((dev 1).glb.steward = true))
    -- restarted
    ∧ ((atCommitsFollowTheSupplyRestarted.on = true) ∧ (atCommitsFollowTheSupplyRestarted.glb.steward = false)
      ∧ (atCommitsFollowTheSupplyRestarted.glb.restarts ≠ 0)) := by and_intros <;> decide
theorem witness_CommitsFollowTheSupply_shutdown :
    (((vltDev (vltAt VState.brace true 0)).on = true)
      ∧ ((vltDev (vltAt VState.brace true 0)).reaches 16 = true)
      ∧ ((vltDev (vltAt VState.brace true 0)).isMgmt 16 = true)
      ∧ ((Instr.shutdown 16, false) ∈ [(Instr.shutdown 16, false), (Instr.softReset 16, true)])
      ∧ ((vltDev (vltAt VState.brace true 0)).vlt.st = VState.brace))
    ∧ (false = true → ((vltDev (vltAt VState.brace true 0)).presentHeads.all fun h => ((vltDev (vltAt VState.brace true 0)).head h).braked) = true ∧ (vltDev (vltAt VState.brace true 0)).flt.fatal = none) :=
  ⟨by decide,
    (fun x => absurd x (by decide))⟩
theorem witness_FlushStages :
    -- stop
    ((stopDev.on = true) ∧ (stopDev.vlt.st = VState.s1) ∧ (stopDev.vlt.stopped = false) ∧ (stopDev.vlt.stopAt + 64 ≤ stopDev.clock)
      ∧ (stopDev.slv.pair = PairSt.off) ∧ (stopDev.beam.recs = []))
    -- stopped
    ∧ (((s1Dev []).on = true) ∧ ((s1Dev []).vlt.stopped = true))
    -- energy
    ∧ (((s1Dev []).on = true) ∧ ((s1Dev []).vlt.hold = true) ∧ ((s1Dev []).vlt.st ≠ VState.s2) ∧ ((s1Dev []).vlt.eremAt + 20000 ≤ (s1Dev []).clock))
    -- drained
    ∧ (((s1Dev [spillEntry]).on = true) ∧ ((s1Dev [spillEntry]).vlt.st = VState.s1) ∧ ((s1Dev [spillEntry]).vlt.stopped = true)
      ∧ ((s1Dev [spillEntry]).map.marks = []) ∧ ((s1Dev [spillEntry]).flushPages = []) ∧ ((s1Dev [spillEntry]).flushCopies = [])
      ∧ (((s1Dev [spillEntry]).near.wb.all fun e => e.spill) = true))
    -- drains
    ∧ (((s1Dev [entry1 true true]).on = true) ∧ ((s1Dev [entry1 true true]).vlt.st = VState.s1) ∧ ((s1Dev [entry1 true true]).vlt.stopped = true)
      ∧ ((s1Dev [entry1 true true]).map.marks = []) ∧ ((s1Dev [entry1 true true]).flushPages = []) ∧ ((s1Dev [entry1 true true]).flushCopies = [])
      ∧ (((s1Dev [entry1 true true]).near.wb.all fun e => e.spill) = false))
    -- cacheEmpty
    ∧ (((cacheDev [] false).on = true) ∧ ((cacheDev [] false).vlt.stopped = true) ∧ ((cacheDev [] false).vlt.drained = true)
      ∧ ((cacheDev [] false).vlt.stage1 = false) ∧ ((cacheDev [] false).slv.pair = PairSt.off) ∧ ((cacheDev [] false).near.nc = [])
      ∧ ((cacheDev [] false).coh.handoff = []))
    -- cacheLine
    ∧ (((cacheDev [(ncKey 15 (ncSet 63) 3, dirty63)] true).on = true) ∧ ((cacheDev [(ncKey 15 (ncSet 63) 3, dirty63)] true).vlt.stopped = true)
      ∧ ((cacheDev [(ncKey 15 (ncSet 63) 3, dirty63)] true).vlt.drained = true) ∧ ((cacheDev [(ncKey 15 (ncSet 63) 3, dirty63)] true).vlt.stage1 = false)
      ∧ ((cacheDev [(ncKey 15 (ncSet 63) 3, dirty63)] true).slv.pair = PairSt.off)
      ∧ ((cacheDev [(ncKey 15 (ncSet 63) 3, dirty63)] true).near.nc = [(ncKey 15 (ncSet 63) 3, dirty63)])
      ∧ ((cacheDev [(ncKey 15 (ncSet 63) 3, dirty63)] true).coh.handoff = []) ∧ (dirty63.v = true) ∧ (dirty63.d = true)
      ∧ (63 = ncLine (ncKey 15 (ncSet 63) 3 / 16 % 32768) dirty63.tag)
      ∧ (((cacheDev [(ncKey 15 (ncSet 63) 3, dirty63)] true).page (pageOf 63)).place = Place.t1 16)
      ∧ ((cacheDev [(ncKey 15 (ncSet 63) 3, dirty63)] true).vlt.skipScratch = true))
    -- noneLeft
    ∧ (((s2Dev false false).on = true) ∧ ((s2Dev false false).vlt.st = VState.s2) ∧ ((s2Dev false false).vlt.stage2 = false) ∧ ((s2Dev false false).nLeft = 0))
    -- goesOn
    ∧ (((s2Dev true true).on = true) ∧ ((s2Dev true true).vlt.st = VState.s2) ∧ ((s2Dev true true).vlt.stage2 = false) ∧ ((s2Dev true true).nLeft ≠ 0)
      ∧ ((s2Dev true true).vlt.orderly = true))
    -- floor
    ∧ (((s2Dev true false).on = true) ∧ ((s2Dev true false).vlt.st = VState.s2) ∧ ((s2Dev true false).vlt.stage2 = false) ∧ ((s2Dev true false).nLeft ≠ 0)
      ∧ ((s2Dev true false).vlt.orderly = false) ∧ ((s2Dev true false).energyEnds (s2Dev true false).nLeft = true))
    -- stage3
    ∧ ((s2Ended.on = true) ∧ (s2Ended.vlt.st = VState.s2) ∧ (s2Ended.vlt.stage1 = true) ∧ (s2Ended.vlt.stage2 = true))
    -- confirmed
    ∧ ((confirmDev.on = true) ∧ (confirmDev.beam.commitOut = some outCommit) ∧ (confirmDev.vlt.st = VState.s3) ∧ (confirmDev.vlt.drivesDone = false)
      ∧ (confirmDev.rng.seals = []) ∧ (confirmDev.sec.cmd = none) ∧ (confirmDev.vlt.stopAt ≤ confirmDev.clock)) := by and_intros <;> decide
theorem witness_FlushStages_cacheOther :
    (((cacheDev [(ncKey 15 (ncSet 127) 3, { v := true, tag := ncTag 127, d := true : NcWay })] false).on = true)
      ∧ ((cacheDev [(ncKey 15 (ncSet 127) 3, { v := true, tag := ncTag 127, d := true : NcWay })] false).vlt.stopped = true)
      ∧ ((cacheDev [(ncKey 15 (ncSet 127) 3, { v := true, tag := ncTag 127, d := true : NcWay })] false).vlt.drained = true)
      ∧ ((cacheDev [(ncKey 15 (ncSet 127) 3, { v := true, tag := ncTag 127, d := true : NcWay })] false).vlt.stage1 = false)
      ∧ ((cacheDev [(ncKey 15 (ncSet 127) 3, { v := true, tag := ncTag 127, d := true : NcWay })] false).slv.pair = PairSt.off)
      ∧ ((cacheDev [(ncKey 15 (ncSet 127) 3, { v := true, tag := ncTag 127, d := true : NcWay })] false).near.nc = [(ncKey 15 (ncSet 127) 3, { v := true, tag := ncTag 127, d := true : NcWay })])
      ∧ ({ v := true, tag := ncTag 127, d := true : NcWay }.v = true)
      ∧ ({ v := true, tag := ncTag 127, d := true : NcWay }.d = true)
      ∧ (127 = ncLine (ncKey 15 (ncSet 127) 3 / 16 % 32768) { v := true, tag := ncTag 127, d := true : NcWay }.tag))
    ∧ (∀ (f : ℕ), ((cacheDev [(ncKey 15 (ncSet 127) 3, { v := true, tag := ncTag 127, d := true : NcWay })] false).page (pageOf 127)).place ≠ Place.t1 f) :=
  ⟨by and_intros <;> decide,
    fun _ h => nomatch h⟩
theorem witness_FlushEndsAndResumes :
    -- stage4
    (((endDev (let __src := s3End 0; { ctl := __src.ctl, st := __src.st, source := __src.source, hold := __src.hold, stopped := __src.stopped, recovered := __src.recovered, vin := __src.vin, vinAt := __src.vinAt, eremAt := __src.eremAt, tail := __src.tail, selfRefresh := __src.selfRefresh, lowBrace := __src.lowBrace, lowCommit := __src.lowCommit, good := __src.good, pfLow := __src.pfLow, braceOn := __src.braceOn, outcome := __src.outcome, resumeKind := __src.resumeKind, durMs := __src.durMs, shortPages := __src.shortPages, active := __src.active, writable := __src.writable, activeMs := __src.activeMs, held := __src.held, orderly := __src.orderly, snap := __src.snap, soft := __src.soft, eRem := __src.eRem, left := __src.left, written := __src.written, eStop := __src.eStop, eEnd := __src.eEnd, stopAt := __src.stopAt, drained := __src.drained, stage1 := __src.stage1, stage2 := __src.stage2, skipScratch := __src.skipScratch, drivesDone := __src.drivesDone, rebootPend := __src.rebootPend, keep := __src.keep, keepPoison := __src.keepPoison, restoredShort := __src.restoredShort, shortLeft := __src.shortLeft, step6 := __src.step6 : Vlt }) 255).on = true)
      ∧ ((endDev (let __src := s3End 0; { ctl := __src.ctl, st := __src.st, source := __src.source, hold := __src.hold, stopped := __src.stopped, recovered := __src.recovered, vin := __src.vin, vinAt := __src.vinAt, eremAt := __src.eremAt, tail := __src.tail, selfRefresh := __src.selfRefresh, lowBrace := __src.lowBrace, lowCommit := __src.lowCommit, good := __src.good, pfLow := __src.pfLow, braceOn := __src.braceOn, outcome := __src.outcome, resumeKind := __src.resumeKind, durMs := __src.durMs, shortPages := __src.shortPages, active := __src.active, writable := __src.writable, activeMs := __src.activeMs, held := __src.held, orderly := __src.orderly, snap := __src.snap, soft := __src.soft, eRem := __src.eRem, left := __src.left, written := __src.written, eStop := __src.eStop, eEnd := __src.eEnd, stopAt := __src.stopAt, drained := __src.drained, stage1 := __src.stage1, stage2 := __src.stage2, skipScratch := __src.skipScratch, drivesDone := __src.drivesDone, rebootPend := __src.rebootPend, keep := __src.keep, keepPoison := __src.keepPoison, restoredShort := __src.restoredShort, shortLeft := __src.shortLeft, step6 := __src.step6 : Vlt }) 255).vlt.st = VState.s3)
      ∧ ((endDev (let __src := s3End 0; { ctl := __src.ctl, st := __src.st, source := __src.source, hold := __src.hold, stopped := __src.stopped, recovered := __src.recovered, vin := __src.vin, vinAt := __src.vinAt, eremAt := __src.eremAt, tail := __src.tail, selfRefresh := __src.selfRefresh, lowBrace := __src.lowBrace, lowCommit := __src.lowCommit, good := __src.good, pfLow := __src.pfLow, braceOn := __src.braceOn, outcome := __src.outcome, resumeKind := __src.resumeKind, durMs := __src.durMs, shortPages := __src.shortPages, active := __src.active, writable := __src.writable, activeMs := __src.activeMs, held := __src.held, orderly := __src.orderly, snap := __src.snap, soft := __src.soft, eRem := __src.eRem, left := __src.left, written := __src.written, eStop := __src.eStop, eEnd := __src.eEnd, stopAt := __src.stopAt, drained := __src.drained, stage1 := __src.stage1, stage2 := __src.stage2, skipScratch := __src.skipScratch, drivesDone := __src.drivesDone, rebootPend := __src.rebootPend, keep := __src.keep, keepPoison := __src.keepPoison, restoredShort := __src.restoredShort, shortLeft := __src.shortLeft, step6 := __src.step6 : Vlt }) 255).vlt.drivesDone = true)
      ∧ ((endDev (let __src := s3End 0; { ctl := __src.ctl, st := __src.st, source := __src.source, hold := __src.hold, stopped := __src.stopped, recovered := __src.recovered, vin := __src.vin, vinAt := __src.vinAt, eremAt := __src.eremAt, tail := __src.tail, selfRefresh := __src.selfRefresh, lowBrace := __src.lowBrace, lowCommit := __src.lowCommit, good := __src.good, pfLow := __src.pfLow, braceOn := __src.braceOn, outcome := __src.outcome, resumeKind := __src.resumeKind, durMs := __src.durMs, shortPages := __src.shortPages, active := __src.active, writable := __src.writable, activeMs := __src.activeMs, held := __src.held, orderly := __src.orderly, snap := __src.snap, soft := __src.soft, eRem := __src.eRem, left := __src.left, written := __src.written, eStop := __src.eStop, eEnd := __src.eEnd, stopAt := __src.stopAt, drained := __src.drained, stage1 := __src.stage1, stage2 := __src.stage2, skipScratch := __src.skipScratch, drivesDone := __src.drivesDone, rebootPend := __src.rebootPend, keep := __src.keep, keepPoison := __src.keepPoison, restoredShort := __src.restoredShort, shortLeft := __src.shortLeft, step6 := __src.step6 : Vlt }) 255).vlt.recovered = false)
      ∧ ((endDev (let __src := s3End 0; { ctl := __src.ctl, st := __src.st, source := __src.source, hold := __src.hold, stopped := __src.stopped, recovered := __src.recovered, vin := __src.vin, vinAt := __src.vinAt, eremAt := __src.eremAt, tail := __src.tail, selfRefresh := __src.selfRefresh, lowBrace := __src.lowBrace, lowCommit := __src.lowCommit, good := __src.good, pfLow := __src.pfLow, braceOn := __src.braceOn, outcome := __src.outcome, resumeKind := __src.resumeKind, durMs := __src.durMs, shortPages := __src.shortPages, active := __src.active, writable := __src.writable, activeMs := __src.activeMs, held := __src.held, orderly := __src.orderly, snap := __src.snap, soft := __src.soft, eRem := __src.eRem, left := __src.left, written := __src.written, eStop := __src.eStop, eEnd := __src.eEnd, stopAt := __src.stopAt, drained := __src.drained, stage1 := __src.stage1, stage2 := __src.stage2, skipScratch := __src.skipScratch, drivesDone := __src.drivesDone, rebootPend := __src.rebootPend, keep := __src.keep, keepPoison := __src.keepPoison, restoredShort := __src.restoredShort, shortLeft := __src.shortLeft, step6 := __src.step6 : Vlt }) 255).floorE4 * tenthJoule ≤ (endDev (let __src := s3End 0; { ctl := __src.ctl, st := __src.st, source := __src.source, hold := __src.hold, stopped := __src.stopped, recovered := __src.recovered, vin := __src.vin, vinAt := __src.vinAt, eremAt := __src.eremAt, tail := __src.tail, selfRefresh := __src.selfRefresh, lowBrace := __src.lowBrace, lowCommit := __src.lowCommit, good := __src.good, pfLow := __src.pfLow, braceOn := __src.braceOn, outcome := __src.outcome, resumeKind := __src.resumeKind, durMs := __src.durMs, shortPages := __src.shortPages, active := __src.active, writable := __src.writable, activeMs := __src.activeMs, held := __src.held, orderly := __src.orderly, snap := __src.snap, soft := __src.soft, eRem := __src.eRem, left := __src.left, written := __src.written, eStop := __src.eStop, eEnd := __src.eEnd, stopAt := __src.stopAt, drained := __src.drained, stage1 := __src.stage1, stage2 := __src.stage2, skipScratch := __src.skipScratch, drivesDone := __src.drivesDone, rebootPend := __src.rebootPend, keep := __src.keep, keepPoison := __src.keepPoison, restoredShort := __src.restoredShort, shortLeft := __src.shortLeft, step6 := __src.step6 : Vlt }) 255).vlt.eRem))
    -- short
    ∧ (((endDev (s3End 0) 0).on = true) ∧ ((endDev (s3End 0) 0).vlt.st = VState.s3) ∧ ((endDev (s3End 0) 0).vlt.drivesDone = true)
      ∧ ((endDev (s3End 0) 0).vlt.recovered = false) ∧ ((endDev (s3End 0) 0).vlt.orderly = false)
      ∧ ((endDev (s3End 0) 0).vlt.eRem < (endDev (s3End 0) 0).floorE4 * tenthJoule) ∧ ((endDev (s3End 0) 0).slotsUp = 0))
    -- shortOne
    ∧ (((endDev (s3End 0) 128).on = true) ∧ ((endDev (s3End 0) 128).vlt.st = VState.s3) ∧ ((endDev (s3End 0) 128).vlt.drivesDone = true)
      ∧ ((endDev (s3End 0) 128).vlt.recovered = false) ∧ (7 < 8) ∧ ((endDev (s3End 0) 128).vlt.orderly = false)
      ∧ ((endDev (s3End 0) 128).vlt.eRem < (endDev (s3End 0) 128).floorE4 * tenthJoule) ∧ ((endDev (s3End 0) 128).slotsUp = BitVec.ofNat 8 (2 ^ 7))
      ∧ ((endDev (s3End 0) 128).slot 7 = { port := 7, present := true : Slot }))
    -- notYet
    ∧ (((s1Dev []).on = true) ∧ ((s1Dev []).vlt.st ≠ VState.s3))
    -- records
    ∧ (((endDev (s4End false false) 0).on = true) ∧ ((endDev (s4End false false) 0).vlt.st = VState.s4 ∨ (endDev (s4End false false) 0).vlt.tail = true)
      ∧ ((endDev (s4End false false) 0).tap.flushing = false) ∧ ((endDev (s4End false false) 0).vlt.orderly = false)
      ∧ ((endDev (s4End false false) 0).vlt.tail = false) ∧ ((endDev (s4End false false) 0).slotsUp = 0))
    -- tail
    ∧ (((endDev (let __src := s4End false false; { ctl := __src.ctl, floor := __src.floor, st := VState.wait, source := __src.source, hold := __src.hold, stopped := __src.stopped, recovered := __src.recovered, vin := __src.vin, vinAt := __src.vinAt, eremAt := __src.eremAt, tail := true, selfRefresh := __src.selfRefresh, lowBrace := __src.lowBrace, lowCommit := __src.lowCommit, good := __src.good, pfLow := __src.pfLow, braceOn := __src.braceOn, outcome := __src.outcome, resumeKind := __src.resumeKind, durMs := __src.durMs, shortPages := __src.shortPages, active := __src.active, writable := __src.writable, activeMs := __src.activeMs, held := __src.held, orderly := __src.orderly, snap := __src.snap, soft := __src.soft, eRem := __src.eRem, left := __src.left, written := __src.written, eStop := __src.eStop, eEnd := __src.eEnd, stopAt := __src.stopAt, drained := __src.drained, stage1 := __src.stage1, stage2 := __src.stage2, skipScratch := __src.skipScratch, drivesDone := __src.drivesDone, rebootPend := __src.rebootPend, keep := __src.keep, keepPoison := __src.keepPoison, restoredShort := __src.restoredShort, shortLeft := __src.shortLeft, step6 := __src.step6 : Vlt }) 0).on = true)
      ∧ ((endDev (let __src := s4End false false; { ctl := __src.ctl, floor := __src.floor, st := VState.wait, source := __src.source, hold := __src.hold, stopped := __src.stopped, recovered := __src.recovered, vin := __src.vin, vinAt := __src.vinAt, eremAt := __src.eremAt, tail := true, selfRefresh := __src.selfRefresh, lowBrace := __src.lowBrace, lowCommit := __src.lowCommit, good := __src.good, pfLow := __src.pfLow, braceOn := __src.braceOn, outcome := __src.outcome, resumeKind := __src.resumeKind, durMs := __src.durMs, shortPages := __src.shortPages, active := __src.active, writable := __src.writable, activeMs := __src.activeMs, held := __src.held, orderly := __src.orderly, snap := __src.snap, soft := __src.soft, eRem := __src.eRem, left := __src.left, written := __src.written, eStop := __src.eStop, eEnd := __src.eEnd, stopAt := __src.stopAt, drained := __src.drained, stage1 := __src.stage1, stage2 := __src.stage2, skipScratch := __src.skipScratch, drivesDone := __src.drivesDone, rebootPend := __src.rebootPend, keep := __src.keep, keepPoison := __src.keepPoison, restoredShort := __src.restoredShort, shortLeft := __src.shortLeft, step6 := __src.step6 : Vlt }) 0).vlt.tail = true)
      ∧ ((endDev (let __src := s4End false false; { ctl := __src.ctl, floor := __src.floor, st := VState.wait, source := __src.source, hold := __src.hold, stopped := __src.stopped, recovered := __src.recovered, vin := __src.vin, vinAt := __src.vinAt, eremAt := __src.eremAt, tail := true, selfRefresh := __src.selfRefresh, lowBrace := __src.lowBrace, lowCommit := __src.lowCommit, good := __src.good, pfLow := __src.pfLow, braceOn := __src.braceOn, outcome := __src.outcome, resumeKind := __src.resumeKind, durMs := __src.durMs, shortPages := __src.shortPages, active := __src.active, writable := __src.writable, activeMs := __src.activeMs, held := __src.held, orderly := __src.orderly, snap := __src.snap, soft := __src.soft, eRem := __src.eRem, left := __src.left, written := __src.written, eStop := __src.eStop, eEnd := __src.eEnd, stopAt := __src.stopAt, drained := __src.drained, stage1 := __src.stage1, stage2 := __src.stage2, skipScratch := __src.skipScratch, drivesDone := __src.drivesDone, rebootPend := __src.rebootPend, keep := __src.keep, keepPoison := __src.keepPoison, restoredShort := __src.restoredShort, shortLeft := __src.shortLeft, step6 := __src.step6 : Vlt }) 0).tap.flushing = false)
      ∧ ((endDev (let __src := s4End false false; { ctl := __src.ctl, floor := __src.floor, st := VState.wait, source := __src.source, hold := __src.hold, stopped := __src.stopped, recovered := __src.recovered, vin := __src.vin, vinAt := __src.vinAt, eremAt := __src.eremAt, tail := true, selfRefresh := __src.selfRefresh, lowBrace := __src.lowBrace, lowCommit := __src.lowCommit, good := __src.good, pfLow := __src.pfLow, braceOn := __src.braceOn, outcome := __src.outcome, resumeKind := __src.resumeKind, durMs := __src.durMs, shortPages := __src.shortPages, active := __src.active, writable := __src.writable, activeMs := __src.activeMs, held := __src.held, orderly := __src.orderly, snap := __src.snap, soft := __src.soft, eRem := __src.eRem, left := __src.left, written := __src.written, eStop := __src.eStop, eEnd := __src.eEnd, stopAt := __src.stopAt, drained := __src.drained, stage1 := __src.stage1, stage2 := __src.stage2, skipScratch := __src.skipScratch, drivesDone := __src.drivesDone, rebootPend := __src.rebootPend, keep := __src.keep, keepPoison := __src.keepPoison, restoredShort := __src.restoredShort, shortLeft := __src.shortLeft, step6 := __src.step6 : Vlt }) 0).vlt.orderly = false))
    -- done
    ∧ (((endDev (s4End true false) 0).on = true) ∧ ((endDev (s4End true false) 0).vlt.st = VState.s4 ∨ (endDev (s4End true false) 0).vlt.tail = true)
      ∧ ((endDev (s4End true false) 0).tap.flushing = false) ∧ ((endDev (s4End true false) 0).vlt.orderly = true)
      ∧ ((endDev (s4End true false) 0).vlt.soft = false))
    -- softReset
    ∧ (((endDev (s4End true true) 255).on = true) ∧ ((endDev (s4End true true) 255).vlt.st = VState.s4 ∨ (endDev (s4End true true) 255).vlt.tail = true)
      ∧ ((endDev (s4End true true) 255).tap.flushing = false) ∧ ((endDev (s4End true true) 255).vlt.orderly = true)
      ∧ ((endDev (s4End true true) 255).vlt.soft = true) ∧ ((endDev (s4End true true) 255).boot.pendNc = 0))
    -- holdFalls
    ∧ (((s5Dev false).on = true) ∧ ((s5Dev false).vlt.st = VState.s5) ∧ ((s5Dev false).pins.reset = false))
    -- resets
    ∧ (((s5Dev true).on = true) ∧ ((s5Dev true).vlt.st = VState.s5) ∧ ((s5Dev true).pins.reset = true) ∧ ((s5Dev true).beam.commitOut = none))
    -- noStage5
    ∧ (((dev 1).on = true) ∧ ((dev 1).vlt.st ≠ VState.s5))
    -- noResume
    ∧ (((dev 1).on = true) ∧ ((dev 1).vlt.drivesDone = false)) := by and_intros <;> decide
theorem witness_FlushEndsAndResumes_resume :
    ((resumeDev.on = true)
      ∧ (resumeDev.vlt.drivesDone = true)
      ∧ (resumeDev.vlt.recovered = true)
      ∧ (resumeDev.vlt.orderly = false)
      ∧ (resumeDev.vlt.st ∈ [VState.s3, VState.s4, VState.s5, VState.wait])
      ∧ (resumeDev.vlt.held = [])
      ∧ (resumeDev.coh.txns = [])
      ∧ (resumeDev.coh.heldBirsp = [])
      ∧ (resumeDev.near.wbRetry = [])
      ∧ (resumeDev.rng.seals = [])
      ∧ (resumeDev.sec.cmd = none)
      ∧ (resumeDev.pins.reset = false))
    ∧ (∀ (h : ℕ), (resumeDev.head h).kept = 0 ∧ (resumeDev.head h).waitQ = []) :=
  ⟨by and_intros <;> decide,
    fun h => by rcases h with _ | h <;> exact ⟨rfl, rfl⟩⟩
theorem witness_SuppliesResetAndHeat :
    -- fail
    (((dev 1).on = true))
    -- trip
    ∧ (((dev 1).on = true))
    -- reset
    ∧ (((dev 1).on = true) ∧ ((dev 1).vlt.hold = false))
    -- held
    ∧ (((s5Dev false).vlt.hold = true))
    -- goodAgain
    ∧ (((dev 1).on = true))
    -- good
    ∧ (((darkDev { : Boot }).on = false) ∧ ((darkDev { : Boot }).beam.commitOut = none))
    -- hot
    ∧ (((let __src := dev 1; { on := __src.on, clock := 2000000, freeIdx := __src.freeIdx, out := __src.out, pending := __src.pending, glb := __src.glb, boot := __src.boot, pins := __src.pins, ports := __src.ports, heads := __src.heads, regions := __src.regions, near := __src.near, coh := __src.coh, dram := __src.dram, map := __src.map, beam := __src.beam, rsv := __src.rsv, vlt := __src.vlt, qos := __src.qos, rng := __src.rng, slv := __src.slv, flt := __src.flt, sec := __src.sec, pmc := __src.pmc, tap := __src.tap, pwr := __src.pwr : State }).on = true)
      ∧ ((let __src := dev 1; { on := __src.on, clock := 2000000, freeIdx := __src.freeIdx, out := __src.out, pending := __src.pending, glb := __src.glb, boot := __src.boot, pins := __src.pins, ports := __src.ports, heads := __src.heads, regions := __src.regions, near := __src.near, coh := __src.coh, dram := __src.dram, map := __src.map, beam := __src.beam, rsv := __src.rsv, vlt := __src.vlt, qos := __src.qos, rng := __src.rng, slv := __src.slv, flt := __src.flt, sec := __src.sec, pmc := __src.pmc, tap := __src.tap, pwr := __src.pwr : State }).pins.sensorAt + 2000000 ≤ (let __src := dev 1; { on := __src.on, clock := 2000000, freeIdx := __src.freeIdx, out := __src.out, pending := __src.pending, glb := __src.glb, boot := __src.boot, pins := __src.pins, ports := __src.ports, heads := __src.heads, regions := __src.regions, near := __src.near, coh := __src.coh, dram := __src.dram, map := __src.map, beam := __src.beam, rsv := __src.rsv, vlt := __src.vlt, qos := __src.qos, rng := __src.rng, slv := __src.slv, flt := __src.flt, sec := __src.sec, pmc := __src.pmc, tap := __src.tap, pwr := __src.pwr : State }).clock)
      ∧ (100 ≤ 100))
    -- cool
    ∧ (((let __src := dev 1; { on := __src.on, clock := 2000000, freeIdx := __src.freeIdx, out := __src.out, pending := __src.pending, glb := __src.glb, boot := __src.boot, pins := __src.pins, ports := __src.ports, heads := __src.heads, regions := __src.regions, near := __src.near, coh := __src.coh, dram := __src.dram, map := __src.map, beam := __src.beam, rsv := __src.rsv, vlt := __src.vlt, qos := __src.qos, rng := __src.rng, slv := __src.slv, flt := __src.flt, sec := __src.sec, pmc := __src.pmc, tap := __src.tap, pwr := __src.pwr : State }).on = true)
      ∧ ((let __src := dev 1; { on := __src.on, clock := 2000000, freeIdx := __src.freeIdx, out := __src.out, pending := __src.pending, glb := __src.glb, boot := __src.boot, pins := __src.pins, ports := __src.ports, heads := __src.heads, regions := __src.regions, near := __src.near, coh := __src.coh, dram := __src.dram, map := __src.map, beam := __src.beam, rsv := __src.rsv, vlt := __src.vlt, qos := __src.qos, rng := __src.rng, slv := __src.slv, flt := __src.flt, sec := __src.sec, pmc := __src.pmc, tap := __src.tap, pwr := __src.pwr : State }).pins.sensorAt + 2000000 ≤ (let __src := dev 1; { on := __src.on, clock := 2000000, freeIdx := __src.freeIdx, out := __src.out, pending := __src.pending, glb := __src.glb, boot := __src.boot, pins := __src.pins, ports := __src.ports, heads := __src.heads, regions := __src.regions, near := __src.near, coh := __src.coh, dram := __src.dram, map := __src.map, beam := __src.beam, rsv := __src.rsv, vlt := __src.vlt, qos := __src.qos, rng := __src.rng, slv := __src.slv, flt := __src.flt, sec := __src.sec, pmc := __src.pmc, tap := __src.tap, pwr := __src.pwr : State }).clock)
      ∧ (94 < 95))
    -- between
    ∧ (((let __src := dev 1; { on := __src.on, clock := 2000000, freeIdx := __src.freeIdx, out := __src.out, pending := __src.pending, glb := __src.glb, boot := __src.boot, pins := __src.pins, ports := __src.ports, heads := __src.heads, regions := __src.regions, near := __src.near, coh := __src.coh, dram := __src.dram, map := __src.map, beam := __src.beam, rsv := __src.rsv, vlt := __src.vlt, qos := __src.qos, rng := __src.rng, slv := __src.slv, flt := __src.flt, sec := __src.sec, pmc := __src.pmc, tap := __src.tap, pwr := __src.pwr : State }).on = true)
      ∧ ((let __src := dev 1; { on := __src.on, clock := 2000000, freeIdx := __src.freeIdx, out := __src.out, pending := __src.pending, glb := __src.glb, boot := __src.boot, pins := __src.pins, ports := __src.ports, heads := __src.heads, regions := __src.regions, near := __src.near, coh := __src.coh, dram := __src.dram, map := __src.map, beam := __src.beam, rsv := __src.rsv, vlt := __src.vlt, qos := __src.qos, rng := __src.rng, slv := __src.slv, flt := __src.flt, sec := __src.sec, pmc := __src.pmc, tap := __src.tap, pwr := __src.pwr : State }).pins.sensorAt + 2000000 ≤ (let __src := dev 1; { on := __src.on, clock := 2000000, freeIdx := __src.freeIdx, out := __src.out, pending := __src.pending, glb := __src.glb, boot := __src.boot, pins := __src.pins, ports := __src.ports, heads := __src.heads, regions := __src.regions, near := __src.near, coh := __src.coh, dram := __src.dram, map := __src.map, beam := __src.beam, rsv := __src.rsv, vlt := __src.vlt, qos := __src.qos, rng := __src.rng, slv := __src.slv, flt := __src.flt, sec := __src.sec, pmc := __src.pmc, tap := __src.tap, pwr := __src.pwr : State }).clock)
      ∧ (95 ≤ 99) ∧ (99 < 100))
    -- several
    ∧ (((let __src := dev 1; { on := __src.on, clock := 2000000, freeIdx := __src.freeIdx, out := __src.out, pending := __src.pending, glb := __src.glb, boot := __src.boot, pins := __src.pins, ports := __src.ports, heads := __src.heads, regions := __src.regions, near := __src.near, coh := __src.coh, dram := __src.dram, map := __src.map, beam := __src.beam, rsv := __src.rsv, vlt := __src.vlt, qos := __src.qos, rng := __src.rng, slv := __src.slv, flt := __src.flt, sec := __src.sec, pmc := __src.pmc, tap := __src.tap, pwr := __src.pwr : State }).on = true)
      ∧ ((let __src := dev 1; { on := __src.on, clock := 2000000, freeIdx := __src.freeIdx, out := __src.out, pending := __src.pending, glb := __src.glb, boot := __src.boot, pins := __src.pins, ports := __src.ports, heads := __src.heads, regions := __src.regions, near := __src.near, coh := __src.coh, dram := __src.dram, map := __src.map, beam := __src.beam, rsv := __src.rsv, vlt := __src.vlt, qos := __src.qos, rng := __src.rng, slv := __src.slv, flt := __src.flt, sec := __src.sec, pmc := __src.pmc, tap := __src.tap, pwr := __src.pwr : State }).pins.sensorAt + 2000000 ≤ (let __src := dev 1; { on := __src.on, clock := 2000000, freeIdx := __src.freeIdx, out := __src.out, pending := __src.pending, glb := __src.glb, boot := __src.boot, pins := __src.pins, ports := __src.ports, heads := __src.heads, regions := __src.regions, near := __src.near, coh := __src.coh, dram := __src.dram, map := __src.map, beam := __src.beam, rsv := __src.rsv, vlt := __src.vlt, qos := __src.qos, rng := __src.rng, slv := __src.slv, flt := __src.flt, sec := __src.sec, pmc := __src.pmc, tap := __src.tap, pwr := __src.pwr : State }).clock)) := by and_intros <;> decide
theorem witness_RegionEntriesComeAndGo :
    -- stranger
    ((strangerDev.on = true) ∧ (strangerDev.reaches 15 = true) ∧ (4095 < 4096) ∧ (3 < 4) ∧ (Tbl.wf { : Region } strangerDev.regions = true)
      ∧ (strangerDev.isMgmt 15 = false))
    -- release
    ∧ (((rgnDev (topRgn 1 true)).on = true) ∧ ((rgnDev (topRgn 1 true)).reaches 0 = true) ∧ (4095 < 4096) ∧ (0 < 4)
      ∧ (Tbl.wf { : Region } (rgnDev (topRgn 1 true)).regions = true) ∧ ((rgnDev (topRgn 1 true)).isMgmt 0 = true) ∧ ((rgnDev (topRgn 1 true)).rng.seals = [])
      ∧ ((rgnDev (topRgn 1 true)).slv.pair = PairSt.off) ∧ (0 = 1 → ((rgnDev (topRgn 1 true)).region 4095).took ≠ some (rgnDev (topRgn 1 true)).clock)
      ∧ ((((rgnDev (topRgn 1 true)).region 4095).putWord 0 50331646).valid = false))
    -- fixed
    ∧ (((rgnDev (topRgn 1 true)).on = true) ∧ ((rgnDev (topRgn 1 true)).reaches 0 = true) ∧ (4095 < 4096) ∧ (0 < 4)
      ∧ (Tbl.wf { : Region } (rgnDev (topRgn 1 true)).regions = true) ∧ ((rgnDev (topRgn 1 true)).isMgmt 0 = true) ∧ ((rgnDev (topRgn 1 true)).rng.seals = [])
      ∧ ((rgnDev (topRgn 1 true)).slv.pair = PairSt.off) ∧ (0 = 1 → ((rgnDev (topRgn 1 true)).region 4095).took ≠ some (rgnDev (topRgn 1 true)).clock)
      ∧ ((((rgnDev (topRgn 1 true)).region 4095).putWord 0 9223372036888330238).valid = true) ∧ (((rgnDev (topRgn 1 true)).region 4095).active = true)
      ∧ (9 = (rgnDev (topRgn 1 true)).regionCheck 4095 (some ((rgnDev (topRgn 1 true)).region 4095)) (((rgnDev (topRgn 1 true)).region 4095).putWord 0 9223372036888330238))
      ∧ (9 ≠ 0))
    -- changed
    ∧ (((rgnDev (topRgn 1 true)).on = true) ∧ ((rgnDev (topRgn 1 true)).reaches 0 = true) ∧ (4095 < 4096) ∧ (2 < 4)
      ∧ (Tbl.wf { : Region } (rgnDev (topRgn 1 true)).regions = true) ∧ ((rgnDev (topRgn 1 true)).isMgmt 0 = true) ∧ ((rgnDev (topRgn 1 true)).rng.seals = [])
      ∧ ((rgnDev (topRgn 1 true)).slv.pair = PairSt.off) ∧ (2 = 1 → ((rgnDev (topRgn 1 true)).region 4095).took ≠ some (rgnDev (topRgn 1 true)).clock)
      ∧ ((((rgnDev (topRgn 1 true)).region 4095).putWord 2 1).valid = true) ∧ (((rgnDev (topRgn 1 true)).region 4095).active = true)
      ∧ (0 = (rgnDev (topRgn 1 true)).regionCheck 4095 (some ((rgnDev (topRgn 1 true)).region 4095)) (((rgnDev (topRgn 1 true)).region 4095).putWord 2 1)))
    -- lost
    ∧ (((rgnDev atRegionEntriesComeAndGoLost).on = true) ∧ ((rgnDev atRegionEntriesComeAndGoLost).reaches 0 = true) ∧ (4095 < 4096) ∧ (1 < 4)
      ∧ (Tbl.wf { : Region } (rgnDev atRegionEntriesComeAndGoLost).regions = true) ∧ ((rgnDev atRegionEntriesComeAndGoLost).isMgmt 0 = true)
      ∧ ((rgnDev atRegionEntriesComeAndGoLost).rng.seals = []) ∧ ((rgnDev atRegionEntriesComeAndGoLost).slv.pair = PairSt.off)
      ∧ (((rgnDev atRegionEntriesComeAndGoLost).region 4095).took = some (rgnDev atRegionEntriesComeAndGoLost).clock)
      ∧ (((rgnDev atRegionEntriesComeAndGoLost).region 4095).active = true)
      ∧ ((((rgnDev atRegionEntriesComeAndGoLost).region 4095).putWord 1 (putFld 1 12 3 ((rgnDev atRegionEntriesComeAndGoLost).region 4095).window)).valid = true)
      ∧ ((rgnDev atRegionEntriesComeAndGoLost).regionCheck 4095 (some ((rgnDev atRegionEntriesComeAndGoLost).region 4095)) (((rgnDev atRegionEntriesComeAndGoLost).region 4095).putWord 1 (putFld 1 12 3 ((rgnDev atRegionEntriesComeAndGoLost).region 4095).window)) = 0)
      ∧ ((((rgnDev atRegionEntriesComeAndGoLost).region 4095).putWord 1 (putFld 1 12 3 ((rgnDev atRegionEntriesComeAndGoLost).region 4095).window)).window ≠ 3))
    -- outside
    ∧ (((rgnDev atRegionEntriesComeAndGoOutside).on = true) ∧ ((rgnDev atRegionEntriesComeAndGoOutside).reaches 0 = true) ∧ (4095 < 4096) ∧ (0 < 4)
      ∧ (Tbl.wf { : Region } (rgnDev atRegionEntriesComeAndGoOutside).regions = true) ∧ ((rgnDev atRegionEntriesComeAndGoOutside).isMgmt 0 = true)
      ∧ ((rgnDev atRegionEntriesComeAndGoOutside).rng.seals = []) ∧ ((rgnDev atRegionEntriesComeAndGoOutside).slv.pair = PairSt.off)
      ∧ (0 = 1 → ((rgnDev atRegionEntriesComeAndGoOutside).region 4095).took ≠ some (rgnDev atRegionEntriesComeAndGoOutside).clock)
      ∧ ((((rgnDev atRegionEntriesComeAndGoOutside).region 4095).putWord 0 9223372036905107455).valid = true)
      ∧ (((rgnDev atRegionEntriesComeAndGoOutside).region 4095).active = false)
      ∧ (2 = (rgnDev atRegionEntriesComeAndGoOutside).regionCheck 4095 none (((rgnDev atRegionEntriesComeAndGoOutside).region 4095).putWord 0 9223372036905107455))
      ∧ (2 ≠ 0))
    -- keeps
    ∧ (((rgnDev atRegionEntriesComeAndGoKeeps).on = true) ∧ ((rgnDev atRegionEntriesComeAndGoKeeps).reaches 0 = true) ∧ (4095 < 4096) ∧ (0 < 4)
      ∧ (Tbl.wf { : Region } (rgnDev atRegionEntriesComeAndGoKeeps).regions = true) ∧ ((rgnDev atRegionEntriesComeAndGoKeeps).isMgmt 0 = true)
      ∧ ((rgnDev atRegionEntriesComeAndGoKeeps).rng.seals = []) ∧ ((rgnDev atRegionEntriesComeAndGoKeeps).slv.pair = PairSt.off)
      ∧ (0 = 1 → ((rgnDev atRegionEntriesComeAndGoKeeps).region 4095).took ≠ some (rgnDev atRegionEntriesComeAndGoKeeps).clock)
      ∧ ((((rgnDev atRegionEntriesComeAndGoKeeps).region 4095).putWord 0 topGeo).valid = true)
      ∧ (((rgnDev atRegionEntriesComeAndGoKeeps).region 4095).active = false)
      ∧ (0 = (rgnDev atRegionEntriesComeAndGoKeeps).regionCheck 4095 none (((rgnDev atRegionEntriesComeAndGoKeeps).region 4095).putWord 0 topGeo))
      ∧ (((rgnDev atRegionEntriesComeAndGoKeeps).region 4095).wasInForce = false)
      ∧ ((((rgnDev atRegionEntriesComeAndGoKeeps).region 4095).putWord 0 topGeo).mapped = true)
      ∧ ((((rgnDev atRegionEntriesComeAndGoKeeps).region 4095).putWord 0 topGeo).initZero = false))
    -- zeroes
    ∧ (((rgnDev atRegionEntriesComeAndGoZeroes).on = true) ∧ ((rgnDev atRegionEntriesComeAndGoZeroes).reaches 0 = true) ∧ (4095 < 4096) ∧ (0 < 4)
      ∧ (Tbl.wf { : Region } (rgnDev atRegionEntriesComeAndGoZeroes).regions = true) ∧ ((rgnDev atRegionEntriesComeAndGoZeroes).isMgmt 0 = true)
      ∧ ((rgnDev atRegionEntriesComeAndGoZeroes).rng.seals = []) ∧ ((rgnDev atRegionEntriesComeAndGoZeroes).slv.pair = PairSt.off)
      ∧ (0 = 1 → ((rgnDev atRegionEntriesComeAndGoZeroes).region 4095).took ≠ some (rgnDev atRegionEntriesComeAndGoZeroes).clock)
      ∧ ((((rgnDev atRegionEntriesComeAndGoZeroes).region 4095).putWord 0 topGeo).valid = true)
      ∧ (((rgnDev atRegionEntriesComeAndGoZeroes).region 4095).active = false)
      ∧ (0 = (rgnDev atRegionEntriesComeAndGoZeroes).regionCheck 4095 none (((rgnDev atRegionEntriesComeAndGoZeroes).region 4095).putWord 0 topGeo))
      ∧ (((rgnDev atRegionEntriesComeAndGoZeroes).region 4095).wasInForce = false)
      ∧ ((((rgnDev atRegionEntriesComeAndGoZeroes).region 4095).putWord 0 topGeo).mapped = true)
      ∧ ((((rgnDev atRegionEntriesComeAndGoZeroes).region 4095).putWord 0 topGeo).initZero = true) ∧ ((rgnDev atRegionEntriesComeAndGoZeroes).near.wb = [])
      ∧ ((rgnDev atRegionEntriesComeAndGoZeroes).map.swatches = []) ∧ ((((rgnDev atRegionEntriesComeAndGoZeroes).region 4095).putWord 0 topGeo).window ≠ 3)
      ∧ (Tbl.wf { : PageEntry } (rgnDev atRegionEntriesComeAndGoZeroes).map.pages = true)
      ∧ (Tbl.wf { : UnitDir } (rgnDev atRegionEntriesComeAndGoZeroes).map.units = true))
    -- scratch
    ∧ (((rgnDev atRegionEntriesComeAndGoScratch).on = true) ∧ ((rgnDev atRegionEntriesComeAndGoScratch).reaches 0 = true) ∧ (4095 < 4096) ∧ (0 < 4)
      ∧ (Tbl.wf { : Region } (rgnDev atRegionEntriesComeAndGoScratch).regions = true) ∧ ((rgnDev atRegionEntriesComeAndGoScratch).isMgmt 0 = true)
      ∧ ((rgnDev atRegionEntriesComeAndGoScratch).rng.seals = []) ∧ ((rgnDev atRegionEntriesComeAndGoScratch).slv.pair = PairSt.off)
      ∧ (0 = 1 → ((rgnDev atRegionEntriesComeAndGoScratch).region 4095).took ≠ some (rgnDev atRegionEntriesComeAndGoScratch).clock)
      ∧ ((((rgnDev atRegionEntriesComeAndGoScratch).region 4095).putWord 0 topGeo).valid = true)
      ∧ (((rgnDev atRegionEntriesComeAndGoScratch).region 4095).active = false)
      ∧ (0 = (rgnDev atRegionEntriesComeAndGoScratch).regionCheck 4095 none (((rgnDev atRegionEntriesComeAndGoScratch).region 4095).putWord 0 topGeo))
      ∧ (((rgnDev atRegionEntriesComeAndGoScratch).region 4095).wasInForce = false)
      ∧ ((((rgnDev atRegionEntriesComeAndGoScratch).region 4095).putWord 0 topGeo).window = 2)
      ∧ ((((rgnDev atRegionEntriesComeAndGoScratch).region 4095).putWord 0 topGeo).mapped = false)
      ∧ ((((rgnDev atRegionEntriesComeAndGoScratch).region 4095).putWord 0 topGeo).keep = false))
    -- mismatch
    ∧ (((keepDev 9).on = true) ∧ ((keepDev 9).reaches 0 = true) ∧ (4095 < 4096) ∧ (0 < 4) ∧ (Tbl.wf { : Region } (keepDev 9).regions = true)
      ∧ ((keepDev 9).rng.seals = []) ∧ ((keepDev 9).slv.pair = PairSt.off) ∧ (((keepDev 9).region 4095).valid = true)
      ∧ (((keepDev 9).region 4095).active = false) ∧ (((keepDev 9).region 4095).err = 10) ∧ ((keepDev 9).regionCheck 4095 none ((keepDev 9).region 4095) = 0)
      ∧ ((keepDev 9).keepMismatch ((keepDev 9).region 4095) = true))
    -- matches
    ∧ (((keepDev 0).on = true) ∧ ((keepDev 0).reaches 0 = true) ∧ (4095 < 4096) ∧ (0 < 4) ∧ (Tbl.wf { : Region } (keepDev 0).regions = true)
      ∧ ((keepDev 0).rng.seals = []) ∧ ((keepDev 0).slv.pair = PairSt.off) ∧ (((keepDev 0).region 4095).valid = true)
      ∧ (((keepDev 0).region 4095).active = false) ∧ (((keepDev 0).region 4095).err = 10) ∧ ((keepDev 0).regionCheck 4095 none ((keepDev 0).region 4095) = 0)
      ∧ ((keepDev 0).keepMismatch ((keepDev 0).region 4095) = false) ∧ (((keepDev 0).region 4095).mapped = true) ∧ (((keepDev 0).region 4095).initZero = false)
      ∧ (((keepDev 0).region 4095).window ≠ 3) ∧ (((keepDev 0).region 4095).window ≠ 2) ∧ (Tbl.wf { : UnitDir } (keepDev 0).map.units = true))
    -- noCompare
    ∧ (((rgnDev lostRgn).on = true) ∧ ((rgnDev lostRgn).reaches 0 = true) ∧ (4095 < 4096) ∧ (0 < 4) ∧ (Tbl.wf { : Region } (rgnDev lostRgn).regions = true)
      ∧ (((rgnDev lostRgn).region 4095).active = true))
    -- dlost
    ∧ (((rgnDev lostRgn).on = true) ∧ ((rgnDev lostRgn).reaches 0 = true) ∧ (4095 < 4096) ∧ (0 < 4) ∧ (Tbl.wf { : Region } (rgnDev lostRgn).regions = true)
      ∧ (((rgnDev lostRgn).region 4095).dlost = true) ∧ ((rgnDev lostRgn).regionDirty ((rgnDev lostRgn).region 4095) = false))
    -- noDlost
    ∧ (((rgnDev (topRgn 1 true)).on = true) ∧ ((rgnDev (topRgn 1 true)).reaches 0 = true) ∧ (4095 < 4096) ∧ (0 < 4)
      ∧ (Tbl.wf { : Region } (rgnDev (topRgn 1 true)).regions = true) ∧ (((rgnDev (topRgn 1 true)).region 4095).dlost = false)) := by and_intros <;> decide
theorem witness_RestoresReachMemoryActive :
    -- already
    (((restoreDev beam8 { : Boot } noStraps).on = true) ∧ ((restoreDev beam8 { : Boot } noStraps).vlt.st = VState.restore)
      ∧ ((restoreDev beam8 { : Boot } noStraps).vlt.active = false) ∧ ((restoreDev beam8 { : Boot } noStraps).beam.setId ≠ 0))
    -- tooFew
    ∧ (((restoreDev { : Beam } boot9 noStraps).on = true) ∧ ((restoreDev { : Beam } boot9 noStraps).vlt.st = VState.restore)
      ∧ ((restoreDev { : Beam } boot9 noStraps).vlt.active = false) ∧ ((restoreDev { : Beam } boot9 noStraps).beam.setId = 0)
      ∧ ((restoreDev { : Beam } boot9 noStraps).beam.waiting = false) ∧ ((restoreDev { : Beam } boot9 noStraps).glb.steward = true)
      ∧ ((restoreDev { : Beam } boot9 noStraps).boot.setId = 9) ∧ (9 ≠ 0) ∧ (drives9 6 ≠ []) ∧ (∀ d ∈ drives9 6, usable d = true ∧ d.blank = false ∧ d.setId = 9)
      ∧ (((restoreDev { : Beam } boot9 noStraps).setSlots (drives9 6) 9).length < 7))
    -- assembled
    ∧ (((restoreDev { segs := [(1, { st := SegState.full, seq := 2 : Seg })], commit := some commit5 : Beam } boot9 noStraps).on = true)
      ∧ ((restoreDev { segs := [(1, { st := SegState.full, seq := 2 : Seg })], commit := some commit5 : Beam } boot9 noStraps).vlt.st = VState.restore)
      ∧ ((restoreDev { segs := [(1, { st := SegState.full, seq := 2 : Seg })], commit := some commit5 : Beam } boot9 noStraps).vlt.active = false)
      ∧ ((restoreDev { segs := [(1, { st := SegState.full, seq := 2 : Seg })], commit := some commit5 : Beam } boot9 noStraps).beam.setId = 0)
      ∧ ((restoreDev { segs := [(1, { st := SegState.full, seq := 2 : Seg })], commit := some commit5 : Beam } boot9 noStraps).beam.waiting = false)
      ∧ ((restoreDev { segs := [(1, { st := SegState.full, seq := 2 : Seg })], commit := some commit5 : Beam } boot9 noStraps).glb.steward = true)
      ∧ ((restoreDev { segs := [(1, { st := SegState.full, seq := 2 : Seg })], commit := some commit5 : Beam } boot9 noStraps).boot.setId = 9) ∧ (9 ≠ 0)
      ∧ (drives9 7 ≠ []) ∧ (∀ d ∈ drives9 7, usable d = true ∧ d.blank = false ∧ d.setId = 9)
      ∧ (7 ≤ ((restoreDev { segs := [(1, { st := SegState.full, seq := 2 : Seg })], commit := some commit5 : Beam } boot9 noStraps).setSlots (drives9 7) 9).length)
      ∧ ((restoreDev { segs := [(1, { st := SegState.full, seq := 2 : Seg })], commit := some commit5 : Beam } boot9 noStraps).sec.wrap.ours = true)
      ∧ ((restoreDev { segs := [(1, { st := SegState.full, seq := 2 : Seg })], commit := some commit5 : Beam } boot9 noStraps).selectCommit 9 = some commit5)
      ∧ (∀ e ∈ (restoreDev { segs := [(1, { st := SegState.full, seq := 2 : Seg })], commit := some commit5 : Beam } boot9 noStraps).beam.segs, e.2.st = SegState.free ∨ e.2.seq < commit5.seqNext)
      ∧ (Tbl.wf { : Region } commit5.regions = true))
    -- released
    ∧ (((restoreDev { : Beam } boot9 freeStraps).on = true) ∧ ((restoreDev { : Beam } boot9 freeStraps).vlt.st = VState.restore)
      ∧ ((restoreDev { : Beam } boot9 freeStraps).vlt.active = false) ∧ ((restoreDev { : Beam } boot9 freeStraps).beam.setId = 0)
      ∧ ((restoreDev { : Beam } boot9 freeStraps).beam.waiting = false) ∧ ((restoreDev { : Beam } boot9 freeStraps).glb.steward = true)
      ∧ ((restoreDev { : Beam } boot9 freeStraps).glb.straps.setRelease = true) ∧ ((restoreDev { : Beam } boot9 freeStraps).boot.setId ≠ 0))
    -- blank
    ∧ (((restoreDev { : Beam } { : Boot } initStraps).on = true) ∧ ((restoreDev { : Beam } { : Boot } initStraps).vlt.st = VState.restore)
      ∧ ((restoreDev { : Beam } { : Boot } initStraps).vlt.active = false) ∧ ((restoreDev { : Beam } { : Boot } initStraps).beam.setId = 0)
      ∧ ((restoreDev { : Beam } { : Boot } initStraps).beam.waiting = false) ∧ ((restoreDev { : Beam } { : Boot } initStraps).glb.steward = true)
      ∧ ((restoreDev { : Beam } { : Boot } initStraps).boot.setId = 0) ∧ ((restoreDev { : Beam } { : Boot } initStraps).glb.straps.beamInit = true)
      ∧ (7 ≤ (blanks 7).length) ∧ (∀ d ∈ blanks 7, usable d = true ∧ d.blank = true))
    -- first
    ∧ (((restoreDev { found := blanks 7 : Beam } { : Boot } initStraps).on = true)
      ∧ ((restoreDev { found := blanks 7 : Beam } { : Boot } initStraps).vlt.st = VState.restore)
      ∧ ((restoreDev { found := blanks 7 : Beam } { : Boot } initStraps).vlt.active = false)
      ∧ ((restoreDev { found := blanks 7 : Beam } { : Boot } initStraps).beam.setId = 0)
      ∧ ((restoreDev { found := blanks 7 : Beam } { : Boot } initStraps).beam.waiting = false)
      ∧ ((restoreDev { found := blanks 7 : Beam } { : Boot } initStraps).glb.steward = true)
      ∧ ((restoreDev { found := blanks 7 : Beam } { : Boot } initStraps).boot.setId = 0)
      ∧ ((restoreDev { found := blanks 7 : Beam } { : Boot } initStraps).glb.straps.beamInit = true) ∧ (7 ≤ (blanks 7).length)
      ∧ (∀ d ∈ blanks 7, usable d = true ∧ d.blank = true) ∧ ((restoreDev { found := blanks 7 : Beam } { : Boot } initStraps).beam.found = blanks 7)
      ∧ ((restoreDev { found := blanks 7 : Beam } { : Boot } initStraps).vlt.held = [])
      ∧ ((restoreDev { found := blanks 7 : Beam } { : Boot } initStraps).vlt.outcome ≠ 2))
    -- noFirst
    ∧ (((restoreDev { : Beam } boot9 initStraps).on = true) ∧ ((restoreDev { : Beam } boot9 initStraps).vlt.st = VState.restore)
      ∧ ((restoreDev { : Beam } boot9 initStraps).vlt.active = false) ∧ ((restoreDev { : Beam } boot9 initStraps).boot.setId ≠ 0))
    -- step6
    ∧ (((step6Dev [] []).on = true) ∧ ((step6Dev [] []).vlt.st = VState.restore) ∧ ((step6Dev [] []).vlt.active = false) ∧ ((step6Dev [] []).beam.setId ≠ 0)
      ∧ ((step6Dev [] []).vlt.step6 = false) ∧ ((step6Dev [] []).loggedDeltas (step6Dev [] []).beam.deltaSegs (step6Dev [] []).beam.seqNext = [])
      ∧ ((step6Dev [] []).map.swatches = []) ∧ ((step6Dev [] []).beam.commit = some { cseq := 5 : Commit }) ∧ ({ cseq := 5 : Commit }.spills = [])
      ∧ ((step6Dev [] []).regions = []))
    -- spill
    ∧ (((step6Dev [SpillRec.lines 0 [(63, 171, fullMask, false)]] []).on = true)
      ∧ ((step6Dev [SpillRec.lines 0 [(63, 171, fullMask, false)]] []).vlt.st = VState.restore)
      ∧ ((step6Dev [SpillRec.lines 0 [(63, 171, fullMask, false)]] []).vlt.active = false)
      ∧ ((step6Dev [SpillRec.lines 0 [(63, 171, fullMask, false)]] []).beam.setId ≠ 0)
      ∧ ((step6Dev [SpillRec.lines 0 [(63, 171, fullMask, false)]] []).vlt.step6 = false)
      ∧ ((step6Dev [SpillRec.lines 0 [(63, 171, fullMask, false)]] []).loggedDeltas (step6Dev [SpillRec.lines 0 [(63, 171, fullMask, false)]] []).beam.deltaSegs (step6Dev [SpillRec.lines 0 [(63, 171, fullMask, false)]] []).beam.seqNext = [])
      ∧ ((step6Dev [SpillRec.lines 0 [(63, 171, fullMask, false)]] []).map.swatches = [])
      ∧ ((step6Dev [SpillRec.lines 0 [(63, 171, fullMask, false)]] []).beam.commit = some { cseq := 5, spills := [SpillRec.lines 0 [(63, 171, fullMask, false)]] : Commit })
      ∧ ({ cseq := 5, spills := [SpillRec.lines 0 [(63, 171, fullMask, false)]] : Commit }.spills = [SpillRec.lines 0 [(63, 171, fullMask, false)]])
      ∧ ((step6Dev [SpillRec.lines 0 [(63, 171, fullMask, false)]] []).regions = [])
      ∧ (((step6Dev [SpillRec.lines 0 [(63, 171, fullMask, false)]] []).unit (63 / 64 / 512)).bdur = true)
      ∧ (((step6Dev [SpillRec.lines 0 [(63, 171, fullMask, false)]] []).unit (63 / 64 / 512)).dstate ≠ DState.unloaded)
      ∧ (((step6Dev [SpillRec.lines 0 [(63, 171, fullMask, false)]] []).page (63 / 64)).place = Place.t1 16))
    -- checked
    ∧ (((step6Dev [] [(4095, wasRgn 1)]).on = true) ∧ ((step6Dev [] [(4095, wasRgn 1)]).vlt.st = VState.restore)
      ∧ ((step6Dev [] [(4095, wasRgn 1)]).vlt.active = false) ∧ ((step6Dev [] [(4095, wasRgn 1)]).beam.setId ≠ 0)
      ∧ ((step6Dev [] [(4095, wasRgn 1)]).vlt.step6 = false)
      ∧ ((step6Dev [] [(4095, wasRgn 1)]).loggedDeltas (step6Dev [] [(4095, wasRgn 1)]).beam.deltaSegs (step6Dev [] [(4095, wasRgn 1)]).beam.seqNext = [])
      ∧ ((step6Dev [] [(4095, wasRgn 1)]).map.swatches = []) ∧ ((step6Dev [] [(4095, wasRgn 1)]).beam.commit = some { cseq := 5 : Commit })
      ∧ ({ cseq := 5 : Commit }.spills = []) ∧ ((step6Dev [] [(4095, wasRgn 1)]).regions = [(4095, wasRgn 1)]) ∧ ((wasRgn 1).valid = true)
      ∧ ((wasRgn 1).wasInForce = true) ∧ ((wasRgn 1).mapped = true) ∧ ((step6Dev [] [(4095, wasRgn 1)]).regionCheck 4095 none (wasRgn 1) = 0))
    -- failed
    ∧ (((step6Dev [] [(4095, wasRgn 49)]).on = true) ∧ ((step6Dev [] [(4095, wasRgn 49)]).vlt.st = VState.restore)
      ∧ ((step6Dev [] [(4095, wasRgn 49)]).vlt.active = false) ∧ ((step6Dev [] [(4095, wasRgn 49)]).beam.setId ≠ 0)
      ∧ ((step6Dev [] [(4095, wasRgn 49)]).vlt.step6 = false)
      ∧ ((step6Dev [] [(4095, wasRgn 49)]).loggedDeltas (step6Dev [] [(4095, wasRgn 49)]).beam.deltaSegs (step6Dev [] [(4095, wasRgn 49)]).beam.seqNext = [])
      ∧ ((step6Dev [] [(4095, wasRgn 49)]).map.swatches = []) ∧ ((step6Dev [] [(4095, wasRgn 49)]).beam.commit = some { cseq := 5 : Commit })
      ∧ ({ cseq := 5 : Commit }.spills = []) ∧ ((step6Dev [] [(4095, wasRgn 49)]).regions = [(4095, wasRgn 49)]) ∧ ((wasRgn 49).valid = true)
      ∧ ((wasRgn 49).wasInForce = true) ∧ ((wasRgn 49).mapped = true) ∧ ((step6Dev [] [(4095, wasRgn 49)]).regionCheck 4095 none (wasRgn 49) = 3) ∧ (3 ≠ 0)
      ∧ (4095 < 4096))
    -- noStep6
    ∧ (((restoreDev { : Beam } { : Boot } noStraps).on = true) ∧ ((restoreDev { : Beam } { : Boot } noStraps).vlt.st = VState.restore)
      ∧ ((restoreDev { : Beam } { : Boot } noStraps).vlt.active = false) ∧ ((restoreDev { : Beam } { : Boot } noStraps).beam.setId = 0))
    -- active
    ∧ ((readyDev.on = true) ∧ (readyDev.vlt.st = VState.restore) ∧ (readyDev.vlt.active = false) ∧ (readyDev.vlt.step6 = true) ∧ (readyDev.vlt.outcome ≠ 2)
      ∧ (readyDev.vlt.held = []) ∧ (Tbl.wf { : Head } readyDev.heads = true))
    -- notReady
    ∧ (((restoreDev beam8 boot9 noStraps).on = true) ∧ ((restoreDev beam8 boot9 noStraps).vlt.st = VState.restore)
      ∧ ((restoreDev beam8 boot9 noStraps).vlt.active = false) ∧ ((restoreDev beam8 boot9 noStraps).vlt.step6 = false)) := by
  and_intros <;> first | decide | decide +kernel
theorem witness_ErrorsFillBucketsAndRetireUnits :
    -- leak
    (((bktDev 2 255 9 []).on = true) ∧ (255 < kindUnits (kindNo UnitKind.ncWay))
      ∧ (((bktDev 2 255 9 []).bucket (kindNo UnitKind.ncWay) 255).leakAt + max 1 (fld ((bktDev 2 255 9 []).flt.kind (kindNo UnitKind.ncWay)) 16 24) * 2000000 ≤ (bktDev 2 255 9 []).clock))
    -- noUnit
    ∧ (((dev 1).on = true) ∧ (kindUnits (kindNo UnitKind.ncWay) ≤ 256))
    -- counted
    ∧ (((bktDev 2 255 1 []).on = true) ∧ (255 < kindUnits (kindNo UnitKind.ncWay)) ∧ (1 ∈ kindWeights (kindNo UnitKind.ncWay))
      ∧ (min (((bktDev 2 255 1 []).bucket (kindNo UnitKind.ncWay) 255).count + 1) 65535 ≤ fld ((bktDev 2 255 1 []).flt.kind (kindNo UnitKind.ncWay)) 0 16 ∧ (bktDev 2 255 1 []).flt.deferred.contains (kindNo UnitKind.ncWay, 255) = false ∧ Tbl.wf { : Bucket } (bktDev 2 255 1 []).flt.buckets = true))
    -- deferred
    ∧ (((bktStop 2 255 65535).on = true) ∧ (255 < kindUnits (kindNo UnitKind.ncWay)) ∧ (1 ∈ kindWeights (kindNo UnitKind.ncWay))
      ∧ (fld ((bktStop 2 255 65535).flt.kind (kindNo UnitKind.ncWay)) 0 16 < min (((bktStop 2 255 65535).bucket (kindNo UnitKind.ncWay) 255).count + 1) 65535)
      ∧ ((bktStop 2 255 65535).flt.deferred.contains (kindNo UnitKind.ncWay, 255) = false)
      ∧ (((bktStop 2 255 65535).bucket (kindNo UnitKind.ncWay) 255).retired = false) ∧ ((bktStop 2 255 65535).vlt.stopped = true)
      ∧ (Tbl.wf { : Bucket } (bktStop 2 255 65535).flt.buckets = true))
    -- scratch
    ∧ ((scrWayDev.on = true) ∧ (255 < 256) ∧ (9 < 32768) ∧ (scrWayDev.way (255 / 16) 9 (255 % 16) = { : NcWay })
      ∧ (List.idxOf? (255 % 16) (scrWayDev.scratchWays (255 / 16)).reverse = some 0)
      ∧ (min ((scrWayDev.bucket (kindNo UnitKind.ncWay) 255).count + 8) 65535 ≤ fld (scrWayDev.flt.kind (kindNo UnitKind.ncWay)) 0 16 ∧ scrWayDev.flt.deferred.contains (kindNo UnitKind.ncWay, 255) = false ∧ Tbl.wf { : Bucket } scrWayDev.flt.buckets = true))
    -- reread
    ∧ (((sramDev { : NcWay } 0).on = true) ∧ (3 < 256) ∧ (ncSet 1 < 32768) ∧ ((sramDev { : NcWay } 0).way (3 / 16) (ncSet 1) (3 % 16) = sramWay)
      ∧ (List.idxOf? (3 % 16) ((sramDev { : NcWay } 0).scratchWays (3 / 16)).reverse = none) ∧ (sramWay.v = true) ∧ (sramWay.d = false)
      ∧ ((sramDev { : NcWay } 0).regionOf (ncLine (ncSet 1) sramWay.tag) = some (1, rgn1 0))
      ∧ (min (((sramDev { : NcWay } 0).bucket (kindNo UnitKind.ncWay) 3).count + 8) 65535 ≤ fld ((sramDev { : NcWay } 0).flt.kind (kindNo UnitKind.ncWay)) 0 16 ∧ (sramDev { : NcWay } 0).flt.deferred.contains (kindNo UnitKind.ncWay, 3) = false ∧ Tbl.wf { : Bucket } (sramDev { : NcWay } 0).flt.buckets = true))
    -- marked
    ∧ (((sramDev atErrorsFillBucketsAndRetireUnitsMarked 0).on = true) ∧ (3 < 256) ∧ (ncSet 1 < 32768)
      ∧ ((sramDev atErrorsFillBucketsAndRetireUnitsMarked 0).way (3 / 16) (ncSet 1) (3 % 16) = atErrorsFillBucketsAndRetireUnitsMarked)
      ∧ (List.idxOf? (3 % 16) ((sramDev atErrorsFillBucketsAndRetireUnitsMarked 0).scratchWays (3 / 16)).reverse = none)
      ∧ (atErrorsFillBucketsAndRetireUnitsMarked.v = true) ∧ (atErrorsFillBucketsAndRetireUnitsMarked.d = true)
      ∧ (min (((sramDev atErrorsFillBucketsAndRetireUnitsMarked 0).bucket (kindNo UnitKind.ncWay) 3).count + 8) 65535 ≤ fld ((sramDev atErrorsFillBucketsAndRetireUnitsMarked 0).flt.kind (kindNo UnitKind.ncWay)) 0 16 ∧ (sramDev atErrorsFillBucketsAndRetireUnitsMarked 0).flt.deferred.contains (kindNo UnitKind.ncWay, 3) = false ∧ Tbl.wf { : Bucket } (sramDev atErrorsFillBucketsAndRetireUnitsMarked 0).flt.buckets = true))
    -- sideSaves
    ∧ (((sramDev { : NcWay } 16777217).on = true) ∧ (3 < 256) ∧ (ncSet 1 < 32768) ∧ ((sramDev { : NcWay } 16777217).way (3 / 16) (ncSet 1) (3 % 16) = sramWay)
      ∧ (sramWay.v = true) ∧ ((Tbl.get 0 (sramDev { : NcWay } 16777217).near.side (ncKey (3 / 16) (ncSet 1) (3 % 16))).getLsbD 24 = true))
    -- tagLost
    ∧ (((sramDev { : NcWay } 0).on = true) ∧ (3 < 256) ∧ (ncSet 1 < 32768) ∧ ((sramDev { : NcWay } 0).way (3 / 16) (ncSet 1) (3 % 16) = sramWay)
      ∧ (sramWay.v = true) ∧ ((Tbl.get 0 (sramDev { : NcWay } 0).near.side (ncKey (3 / 16) (ncSet 1) (3 % 16))).getLsbD 24 = false)
      ∧ ((sramDev { : NcWay } 0).ownerTile (ncLine (ncSet 1) sramWay.tag) = (sramDev { : NcWay } 0).homeTile (ncLine (ncSet 1) sramWay.tag)))
    -- tree
    ∧ (((sramDev { : NcWay } 0).on = true) ∧ (3 < 256) ∧ (ncSet 1 < 32768) ∧ ((sramDev { : NcWay } 0).way (3 / 16) (ncSet 1) (3 % 16) = sramWay))
    -- entry
    ∧ (((wbDev true true).on = true) ∧ (15 < 16) ∧ (List.find? (fun e => decide (e.id = 0)) (wbDev true true).near.wb = some (entry1 true true))
      ∧ ((entry1 true true).durable = true))
    -- mapEntry
    ∧ (((dev 1).on = true) ∧ ((dev 1).mapTile 5 < 16)
      ∧ (min (((dev 1).bucket (kindNo UnitKind.tile) ((dev 1).mapTile 5)).count + 4) 65535 ≤ fld ((dev 1).flt.kind (kindNo UnitKind.tile)) 0 16 ∧ (dev 1).flt.deferred.contains (kindNo UnitKind.tile, (dev 1).mapTile 5) = false ∧ Tbl.wf { : Bucket } (dev 1).flt.buckets = true))
    -- hostPort
    ∧ (((dev 1).on = true) ∧ (7 < 8) ∧ (((dev 1).bucket (kindNo UnitKind.hostPort) 7).retired = false) ∧ ((dev 1).present (2 * 7) = false)
      ∧ ((dev 1).present (2 * 7 + 1) = false))
    -- notDue
    ∧ (((dev 1).on = true) ∧ ((dev 1).flt.deferred.contains (kindNo UnitKind.ncWay, 255) = false))
    -- lane
    ∧ (((bktDev 8 7 0 [(8, 7)]).on = true) ∧ (7 < 8) ∧ ((bktDev 8 7 0 [(8, 7)]).slv.laneRet.getLsbD 7 = false) ∧ ((bktDev 8 7 0 [(8, 7)]).slv.l0 = false)
      ∧ ((bktDev 8 7 0 [(8, 7)]).flt.deferred.contains (8, 7) = true) ∧ ((bktDev 8 7 0 [(8, 7)]).vlt.hold = false)
      ∧ ((bktDev 8 7 0 [(8, 7)]).vlt.stopped = false))
    -- inject
    ∧ (((bktDev 8 7 0 []).on = true) ∧ (7 < 8) ∧ ((bktDev 8 7 0 []).slv.laneRet.getLsbD 7 = false) ∧ ((bktDev 8 7 0 []).slv.l0 = false)
      ∧ ((bktDev 8 7 0 []).reaches 0 = true) ∧ ((bktDev 8 7 0 []).isMgmt 0 = true))
    -- injectError
    ∧ (((bktDev 2 255 1 []).on = true) ∧ ((bktDev 2 255 1 []).reaches 16 = true) ∧ ((bktDev 2 255 1 []).isMgmt 16 = true)
      ∧ (255 < kindUnits (kindNo UnitKind.ncWay))
      ∧ (min (((bktDev 2 255 1 []).bucket (kindNo UnitKind.ncWay) 255).count + 1) 65535 ≤ fld ((bktDev 2 255 1 []).flt.kind (kindNo UnitKind.ncWay)) 0 16 ∧ (bktDev 2 255 1 []).flt.deferred.contains (kindNo UnitKind.ncWay, 255) = false ∧ Tbl.wf { : Bucket } (bktDev 2 255 1 []).flt.buckets = true))
    -- injectNone
    ∧ (((bktDev 2 255 1 []).on = true) ∧ ((bktDev 2 255 1 []).reaches 16 = true) ∧ ((bktDev 2 255 1 []).isMgmt 16 = true)
      ∧ (kindUnits (kindNo UnitKind.ncWay) ≤ 256))
    -- denied
    ∧ ((head15.on = true) ∧ (head15.reaches 15 = true) ∧ (head15.isMgmt 15 = false)
      ∧ (Instr.fltInjectRetire 15 UnitKind.tile 15 ∈ [Instr.fltInjectCorrected 15 UnitKind.tile 15, Instr.fltInjectRetire 15 UnitKind.tile 15]))
    -- tile
    ∧ ((tileDev.on = true) ∧ (15 < 16) ∧ (tileDev.tileRetired 15 = false) ∧ (0 = 0 → tileDev.retireDue 4 15 = true) ∧ (0 = 3 → tileDev.tooFewWays 15 = true)
      ∧ (0 < 4) ∧ (tileDev.near.nc = []) ∧ (tileDev.coh.lent = []) ∧ (tileDev.coh.txns = []) ∧ (tileDev.coh.handoff = []) ∧ (tileDev.coh.sfWait = [])
      ∧ (tileDev.coh.retry = []) ∧ (tileDev.near.wbRetry = []) ∧ (tileDev.coh.snoops = []) ∧ (tileDev.rng.rings = []) ∧ (tileDev.rng.seals = [])
      ∧ ((tileDev.chan 15).retired = true) ∧ (∀ e ∈ tileDev.near.wb, e.tile = 15 → e.durable = true ∨ e.draining = true))
    -- noTile
    ∧ (((dev 1).on = true) ∧ (16 ≤ 16))
    -- recovered
    ∧ (((tileRec 32768).on = true) ∧ ((tileRec 32768).coh.recovering.getLsbD 15 = true) ∧ ((tileRec 32768).coh.wideWait = [])
      ∧ (((tileRec 32768).near.wb.all fun e => decide (e.tile = (tileRec 32768).ownerTile e.line)) = true)
      ∧ (∀ e ∈ (tileRec 32768).coh.lent, (tileRec 32768).recoveryHolds e.1 = false) ∧ (putBit (tileRec 32768).coh.recovering 15 false = 0)
      ∧ ((tileRec 32768).coh.recHeld = []))
    -- oneRecovered
    ∧ (((tileRec 32769).on = true) ∧ ((tileRec 32769).coh.recovering.getLsbD 15 = true) ∧ ((tileRec 32769).coh.wideWait = [])
      ∧ (((tileRec 32769).near.wb.all fun e => decide (e.tile = (tileRec 32769).ownerTile e.line)) = true)
      ∧ (∀ e ∈ (tileRec 32769).coh.lent, (tileRec 32769).recoveryHolds e.1 = false) ∧ (putBit (tileRec 32769).coh.recovering 15 false ≠ 0))
    -- entriesMove
    ∧ ((atErrorsFillBucketsAndRetireUnitsEntriesMove.on = true) ∧ (atErrorsFillBucketsAndRetireUnitsEntriesMove.coh.recovering.getLsbD 15 = true)
      ∧ (atErrorsFillBucketsAndRetireUnitsEntriesMove.coh.wideWait = [])
      ∧ ((atErrorsFillBucketsAndRetireUnitsEntriesMove.near.wb.all fun e => decide (e.tile = atErrorsFillBucketsAndRetireUnitsEntriesMove.ownerTile e.line)) = false)
      ∧ (atErrorsFillBucketsAndRetireUnitsEntriesMove.coh.lent = [])) := by and_intros <;> decide
theorem witness_FatalErrorsNoticesAndVotes :
    -- first
    (((dev 1).on = true) ∧ ((dev 1).flt.fatal = none))
    -- second
    ∧ (((ntcDev [] (some (2, true))).on = true) ∧ ((ntcDev [] (some (2, true))).flt.fatal.isSome = true))
    -- pop
    ∧ (((ntcDev [7] none).on = true) ∧ ((ntcDev [7] none).reaches 0 = true) ∧ ((ntcDev [7] none).isMgmt 0 = true) ∧ ((ntcDev [7] none).flt.fifo = [7]))
    -- empty
    ∧ (((dev 1).on = true) ∧ ((dev 1).reaches 0 = true) ∧ ((dev 1).flt.fifo = []))
    -- agree
    ∧ (((trwDev 1 2 1).on = true) ∧ ((trwDev 1 2 1).glb.trwAt + 2000000 ≤ (trwDev 1 2 1).clock) ∧ ((trwDev 1 2 1).glb.mgmtHead = Trw.all 0)
      ∧ ((trwDev 1 2 1).rsv.ctl = Trw.all ([34384905771012, 0, 0, 0, 0, 4].getD (↑0) 0))
      ∧ ((trwDev 1 2 1).rsv.bank = Trw.all ([34384905771012, 0, 0, 0, 0, 4].getD (↑1) 0))
      ∧ ((trwDev 1 2 1).rsv.flush = Trw.all ([34384905771012, 0, 0, 0, 0, 4].getD (↑2) 0))
      ∧ ((trwDev 1 2 1).rsv.sense = Trw.all ([34384905771012, 0, 0, 0, 0, 4].getD (↑3) 0))
      ∧ ((trwDev 1 2 1).slv.pairId = Trw.all ([34384905771012, 0, 0, 0, 0, 4].getD (↑4) 0))
      ∧ ((trwDev 1 2 1).vlt.ctl = Trw.all ([34384905771012, 0, 0, 0, 0, 4].getD (↑5) 0)) ∧ ((trwDev 1 2 1).vlt.floor = { a := 1, b := 2, c := 1 : Trw }))
    -- differ
    ∧ (((trwDev 4294967296 8589934592 12884901888).on = true)
      ∧ ((trwDev 4294967296 8589934592 12884901888).glb.trwAt + 2000000 ≤ (trwDev 4294967296 8589934592 12884901888).clock)
      ∧ ((trwDev 4294967296 8589934592 12884901888).glb.mgmtHead = Trw.all 0)
      ∧ ((trwDev 4294967296 8589934592 12884901888).rsv.ctl = Trw.all ([34384905771012, 0, 0, 0, 0, 4].getD (↑0) 0))
      ∧ ((trwDev 4294967296 8589934592 12884901888).rsv.bank = Trw.all ([34384905771012, 0, 0, 0, 0, 4].getD (↑1) 0))
      ∧ ((trwDev 4294967296 8589934592 12884901888).rsv.flush = Trw.all ([34384905771012, 0, 0, 0, 0, 4].getD (↑2) 0))
      ∧ ((trwDev 4294967296 8589934592 12884901888).rsv.sense = Trw.all ([34384905771012, 0, 0, 0, 0, 4].getD (↑3) 0))
      ∧ ((trwDev 4294967296 8589934592 12884901888).slv.pairId = Trw.all ([34384905771012, 0, 0, 0, 0, 4].getD (↑4) 0))
      ∧ ((trwDev 4294967296 8589934592 12884901888).vlt.ctl = Trw.all ([34384905771012, 0, 0, 0, 0, 4].getD (↑5) 0))
      ∧ ((trwDev 4294967296 8589934592 12884901888).vlt.floor = { a := 4294967296, b := 8589934592, c := 12884901888 : Trw }) ∧ (2 < 3)
      ∧ (fld 4294967296 (16 * 2) 16 ≠ fld 8589934592 (16 * 2) 16) ∧ (fld 8589934592 (16 * 2) 16 ≠ fld 12884901888 (16 * 2) 16)
      ∧ (fld 4294967296 (16 * 2) 16 ≠ fld 12884901888 (16 * 2) 16) ∧ ((trwDev 4294967296 8589934592 12884901888).flt.fatal = none)) := by and_intros <;> decide
theorem witness_RegistersAndWideValues :
    -- unaligned
    (((dev 1).on = true) ∧ ((dev 1).reaches 0 = true) ∧ (65536 < 131072) ∧ (65536 ≤ 65536))
    -- msix
    ∧ (((dev 1).on = true) ∧ ((dev 1).reaches 0 = true) ∧ (0 < 16) ∧ (0 < 2048)
      ∧ (Tbl.get { : MsixEntry } ((dev 1).head 0).func.msix 0 = { masked := false : MsixEntry }) ∧ ({ masked := false : MsixEntry }.pend = false))
    -- msixPends
    ∧ ((pendDev.on = true) ∧ (pendDev.reaches 0 = true) ∧ (0 < 16) ∧ (2047 < 2048)
      ∧ (Tbl.get { : MsixEntry } (pendDev.head 0).func.msix 2047 = { pend := true : MsixEntry }) ∧ ({ pend := true : MsixEntry }.pend = true)
      ∧ (flag 5 32 = false))
    -- denied
    ∧ ((head15p.on = true) ∧ (head15p.reaches 15 = true) ∧ (barGlobal 61440 = true) ∧ (61440 < 65536) ∧ (61440 % 8 = 0) ∧ (61440 / 4096 ≠ 1) ∧ (61440 ≠ 8192)
      ∧ (32768 ≤ 61440) ∧ (head15p.isMgmt 15 = false))
    -- writes
    ∧ (((dev 1).on = true) ∧ ((dev 1).reaches 0 = true) ∧ ((dev 1).isMgmt 0 = true))
    -- kind
    ∧ (((dev 1).on = true) ∧ ((dev 1).reaches 0 = true) ∧ ((dev 1).isMgmt 0 = true) ∧ (8 < 9))
    -- mgmtHead
    ∧ ((head15p.on = true) ∧ (head15p.reaches 16 = true) ∧ (head15p.isMgmt 16 = true) ∧ (flag 15 8 = false) ∧ (head15p.present (fld 15 0 4) = true)
      ∧ (Instr.mgmtHeadWrite 16 15 ∈ [Instr.mgmtHeadWrite 16 15, Instr.regWrite 16 24 8 15]))
    -- noHead
    ∧ (((dev 1).on = true) ∧ ((dev 1).reaches 16 = true) ∧ ((dev 1).isMgmt 16 = true) ∧ (flag 15 8 = false) ∧ ((dev 1).present (fld 15 0 4) = false)
      ∧ (Instr.regWrite 16 24 8 15 ∈ [Instr.mgmtHeadWrite 16 15, Instr.regWrite 16 24 8 15]))
    -- index
    ∧ (((dev 1).on = true) ∧ ((dev 1).reaches 0 = true) ∧ (3 < 4))
    -- indRead
    ∧ (((idxDev 393216 true).on = true) ∧ ((idxDev 393216 true).reaches 0 = true) ∧ (3 < 4) ∧ (((idxDev 393216 true).idxPair 0 3).index = 393216)
      ∧ ((idxDev 393216 true).indWord 393216 = some 283602322552))
    -- indNone
    ∧ (((idxDev 16777215 true).on = true) ∧ ((idxDev 16777215 true).reaches 0 = true) ∧ (3 < 4) ∧ (((idxDev 16777215 true).idxPair 0 3).index = 16777215)
      ∧ ((idxDev 16777215 true).indWord 16777215 = none))
    -- indWrite
    ∧ (((idxDev 393216 false).on = true) ∧ ((idxDev 393216 false).reaches 0 = true) ∧ (3 < 4) ∧ (((idxDev 393216 false).idxPair 0 3).index = 393216)
      ∧ ((idxDev 393216 false).isMgmt 0 = true))
    -- indDenied
    ∧ ((head15p.on = true) ∧ (head15p.reaches 15 = true) ∧ (3 < 4) ∧ ((head15p.idxPair 15 3).index = 393216) ∧ (head15p.isMgmt 15 = false))
    -- indReadOnly
    ∧ (((idxDev 458752 false).on = true) ∧ ((idxDev 458752 false).reaches 0 = true) ∧ (3 < 4) ∧ (((idxDev 458752 false).idxPair 0 3).index = 458752))
    -- fence
    ∧ (((dev 1).on = true) ∧ ((dev 1).reaches 0 = true) ∧ (1 = (Tbl.get 0 (dev 1).glb.fences 0 + 1) % 2 ^ 32))
    -- fetch
    ∧ ((tapDev.on = true) ∧ (tapDev.reaches 0 = true) ∧ (5 < 2 ^ 40) ∧ ((tapDev.mbx 0).busy = false)
      ∧ ((Instr.tapestryFetch 0 5, 1) ∈ [(Instr.tapestryFetch 0 5, 1), (Instr.rftFetch 0 5, 2), (Instr.trainFetch 0 5, 3), (Instr.commitFetch 0 5, 4)])
      ∧ (mbxRange 1 5 = true) ∧ (Tbl.wf { : Mbx } tapDev.glb.mbx = true))
    -- fetchDenied
    ∧ ((head15p.on = true) ∧ (head15p.reaches 15 = true) ∧ (0 < 2 ^ 40) ∧ ((head15p.mbx 15).busy = false)
      ∧ ((Instr.rftFetch 15 0, 2) ∈ [(Instr.tapestryFetch 15 0, 1), (Instr.rftFetch 15 0, 2), (Instr.trainFetch 15 0, 3), (Instr.commitFetch 15 0, 4)]) ∧ (2 ≠ 1)
      ∧ (head15p.isMgmt 15 = false) ∧ (Tbl.wf { : Mbx } head15p.glb.mbx = true))
    -- fetchRange
    ∧ (((dev 1).on = true) ∧ ((dev 1).reaches 0 = true) ∧ (1099511627775 < 2 ^ 40) ∧ (((dev 1).mbx 0).busy = false)
      ∧ ((Instr.trainFetch 0 1099511627775, 3) ∈ [(Instr.tapestryFetch 0 1099511627775, 1), (Instr.rftFetch 0 1099511627775, 2), (Instr.trainFetch 0 1099511627775, 3), (Instr.commitFetch 0 1099511627775, 4)])
      ∧ ((dev 1).isMgmt 0 = true) ∧ (mbxRange 3 1099511627775 = false)) := by and_intros <;> decide

end Sys2Proof.Tests
end

