-- ==== Sys2Proof/Proofs/Commands.lean ====
section
/-! SUPPORT. How a proof enters a command: what is proved of its effect on the hushed state holds of the command, and what a write to a
global register comes to. -/
namespace Sys2Proof.Proofs
open Sys2Proof Sys2Proof.Machine Sys2Proof.Laws

/-- A command completes with what its effect makes of the hushed state. -/
theorem completes_of {c : Instr} {s : State} {f : State → State} {p : State → Prop} (hon : s.on = true)
    (hx : exec c s = run f s) (h : p (f s.hush)) : Completes c s p :=
  ⟨_, yields_of hon hx rfl, h⟩

/-- A write from the management side acts (R80). -/
theorem globalWrite_mgmt {s : State} {src : Nat} (arg : Nat) (f : State → State) (hr : s.reaches src = true) (hm : s.isMgmt src = true) :
    s.globalWrite src arg f = f s := by
  simp [State.globalWrite, hr, hm]

/-- A write from another head posts an ACCESS notice and has no other effect (R80). -/
theorem globalWrite_denied {s : State} {src : Nat} (arg : Nat) (f : State → State) (hr : s.reaches src = true) (hm : s.isMgmt src = false) :
    ∃ t p, s.globalWrite src arg f
      = { s with flt := s.flt.enter (Note.words ⟨1, 0x03, src % 32 + 0xFFF * 32 + 2 ^ 17, some arg⟩), tap := t, pmc := p } := by
  obtain ⟨t, p, h⟩ := note_warn s (n := ⟨1, 0x03, src % 32 + 0xFFF * 32 + 2 ^ 17, some arg⟩) (Nat.lt_succ_self 1)
  refine ⟨t, p, ?_⟩
  rw [← h]; simp [State.globalWrite, State.access, hr, hm]

end Sys2Proof.Proofs
end

