-- ==== Sys2Proof/Proofs/Writes.lean ====
section
/-! PROOF. Writes that take write-buffer entries (R19, R95, R97, R100, R157): the acceptance of a write whose line has no entry and no
resident copy, the three ways on which a write reaches it, and obligation O8. -/
namespace Sys2Proof.Proofs.Writes
open Sys2Proof Sys2Proof.Machine Sys2Proof.Laws Sys2Proof.Laws.Traffic

/-- The write q of head h under tag carries no poison, and its head takes the completion. -/
structure FromHead (q : Req) (h tag : Nat) : Prop where
  src : q.src = .head h tag
  mute : q.mute = false
  poison : q.poison = false
  head : h < 16

/-- A line of region n, with entry r, that a write finds without a resident copy and without an entry to merge into: the region is
neither a pool nor mirrored, and no swatch cut holds it. -/
structure Fresh (s : State) (n : Nat) (r : Region) (line : Nat) : Prop where
  pool : r.pooled = false
  mirror : r.mirror = false
  way : s.findWay (s.ownerTile line) line = none
  entry : s.mergeEntry (s.ownerTile line) n line = none
  hold : (s.gen n).hold = false

/-- Accepting a write has put entry e at the end of the write buffer, and completed the write of head h under its tag
unless the entry is DURABLE (R19, R95, R97). -/
def TookEntry (s u : State) (e : WbEntry) (h tag : Nat) : Prop :=
  ∃ x p m, u = { s with
    near := { s.near with wbNext := s.near.wbNext + 1, poisonIdx := x, wb := s.near.wb ++ [e] }
    map := m
    pmc := p
    out := if e.durable then s.out else s.out ++ [.memCmp h tag (s.devLoad h)] }

/-! ### Acceptance -/

section
variable {s : State} {h tag n : Nat} {r : Region} {q : Req}

/-- Where no fetched line waits to be placed, a write to a fresh line takes a new entry. -/
theorem accept_tookEntry (hq : FromHead q h tag) (hl : Fresh s n r q.line) (hf : ∀ t c, s.txn q.line = some t → t.phase ≠ .fill c)
    (hr : (s.head h).link.recovery = false) : TookEntry s (s.accept n r q) (s.freshEntry n r q h tag) h tag := by
  obtain ⟨x, p, ha⟩ := accept_fresh s hq.mute hq.src hq.poison hl.way hf hl.entry hl.mirror hq.head hr
  exact ⟨x, p, _, ha⟩

/-- Room for an entry makes a write to a fresh line acceptable (R100, R256). -/
theorem acceptable_of_room (hl : Fresh s n r q.line) (hroom : s.wbRoom (s.ownerTile q.line) q.be = true) :
    s.acceptable n q = true := by
  simp [State.acceptable, hroom, hl.hold]

/-- A write of a PRIVATE region whose turn has come is served when it is acceptable (R145, R154). -/
theorem perform_write (hk : q.kind = .wrI ∨ q.kind = .wrS) (hc : r.coh = 0) (ha : s.acceptable n q = true) :
    s.perform n r q .none 0 = s.serveWrite n r q := by
  unfold State.perform
  rcases hk with hk | hk <;> simp only [hk, ha, Bool.or_true, if_true, afterSf_private _ hc]

/-- Where no write miss allocates and the line has no open transaction, serving a write is accepting it (R104). -/
theorem serveWrite_wt {e : WbEntry} (hp : r.pooled = false) (hwt : r.wpol = 0) (ht : s.txn q.line = none)
    (ha : TookEntry s (s.accept n r q) e h tag) : s.serveWrite n r q = s.accept n r q := by
  have hta : (s.accept n r q).txn q.line = none := by obtain ⟨x, p, m, hu⟩ := ha; rw [hu]; exact ht
  have how : (s.accept n r q).owing r q = s.accept n r q := by unfold State.owing; rw [hta]
  unfold State.serveWrite
  simp [hp, hwt, how, finish_none _ hta]

/-- A recalled writeback that is acceptable is accepted, at level P2 (R157). -/
theorem writeback_accepts (hp : r.pooled = false) (ha : s.acceptable n { q with atP2 := true } = true) :
    s.writeback n r q = s.accept n r { q with atP2 := true } := by
  unfold State.writeback
  simp only [hp, ha, Bool.false_eq_true, if_false, if_true]

/-- A write of a head to which a BISnp of the line is outstanding is a recalled writeback (R157). -/
theorem recalledWrite_of_snooped (hs : q.src = .head h tag) (hw : q.writes = true) (hsn : s.snooped h q.line = true) :
    s.recalledWrite q = true := by
  simp [State.recalledWrite, Req.headOf, hs, hw, hsn]

end

/-! ### At the port -/

/-- The request that a write without poison makes at its head's port, behind decoder d (R153). -/
def portWrite (h tag hpa : Nat) (mv : Meta) (data : Line) (mask : Mask) (d : Decoder) : Req :=
  { src := .head h tag, kind := writeKind d.db mv, line := d.toDpa hpa / 64, data := data, mask := mask }

theorem portWrite_fromHead {h : Nat} (tag hpa : Nat) (mv : Meta) (data : Line) (mask : Mask) (d : Decoder) (h16 : h < 16) :
    FromHead (portWrite h tag hpa mv data mask d) h tag := ⟨rfl, rfl, rfl, h16⟩

/-- A write through any decoder is a WR_I or a WR_S (R153). -/
theorem writeKind_cases (db : Bool) (mv : Meta) : writeKind db mv = .wrI ∨ writeKind db mv = .wrS := by
  cases mv <;> cases db <;> simp [writeKind]

/-- A write through decoder d of a line to which a BISnp is outstanding arrives as a recalled writeback (R157). -/
theorem recalledArrival_of_snooped {s : State} {h hpa : Nat} {d : Decoder} (hd : s.decoderOf h hpa = some d)
    (hsn : s.snooped h (d.toDpa hpa / 64) = true) : s.recalledArrival h hpa = true := by
  simp [State.recalledArrival, hd, hsn]

section
variable {s : State} {h tag hpa n : Nat} {mv : Meta} {data : Line} {mask : Mask} {d : Decoder} {r : Region}

/-- A write that its port dispatches, to a fresh line at rest in a PRIVATE region, takes an entry at its owner tile (R33, R95). -/
theorem dispatch_tookEntry {q : Req} (ha : s.admits h hpa true d n r) (hrest : s.atRest q.line) (hdpa : q.line = d.toDpa hpa / 64)
    (hc : r.coh = 0) (hwt : r.wpol = 0) (hk : q.kind = .wrI ∨ q.kind = .wrS) (hq : FromHead q h tag) (hl : Fresh s n r q.line)
    (hroom : ∀ be, s.wbRoom (s.ownerTile q.line) be = true) :
    ∃ t b, Routed s t ∧ TookEntry t (s.dispatch h n r q) (t.freshEntry n r { q with reg := some (n, r), be := b } h tag) h tag := by
  obtain ⟨-, hup, hrec⟩ := admits_link s ha
  obtain ⟨-, -, -, -, hreg, -, -, -, hstop, hbr, hqui, -⟩ := ha
  obtain ⟨t, b, hroute, hlink, hd⟩ := routed_private s (hdpa ▸ hreg) hrest hc hbr hstop hqui hup
  obtain ⟨q', hq'⟩ : ∃ q' : Req, q' = { q with reg := some (n, r), be := b } := ⟨_, rfl⟩
  refine ⟨t, b, hroute, ?_⟩
  rw [← hq'] at hd ⊢
  have hline : q'.line = q.line := by rw [hq']
  have hfrom : FromHead q' h tag := by rw [hq']; exact ⟨hq.src, hq.mute, hq.poison, hq.head⟩
  obtain ⟨qh, hs, p, pw, a, pu, ht⟩ := hroute
  have hfresh : Fresh t n r q'.line := by rw [hline, ht]; exact ⟨hl.pool, hl.mirror, hl.way, hl.entry, hl.hold⟩
  have htxn : t.txn q'.line = none := by rw [hline, ht]; exact hrest.1
  have hacc : t.acceptable n q' = true := acceptable_of_room hfresh (by rw [hline, ht]; exact hroom _)
  have htook := accept_tookEntry hfrom hfresh (fun _ _ hx => by rw [htxn] at hx; cases hx) (by rw [hlink]; exact hrec)
  rw [hd, perform_write (by rw [hq']; exact hk) hc hacc, serveWrite_wt hl.pool hwt htxn htook]
  exact htook

/-- A write that its port admits, to a fresh line at rest in a PRIVATE region, takes an entry. -/
theorem headWrite_tookEntry (ha : s.admits h hpa true d n r) (hrest : s.atRest (d.toDpa hpa / 64)) (hc : r.coh = 0) (hwt : r.wpol = 0)
    (h16 : h < 16) (hl : Fresh s n r (d.toDpa hpa / 64)) (hroom : ∀ be, s.wbRoom (s.ownerTile (d.toDpa hpa / 64)) be = true) :
    ∃ t q, Routed s t ∧ TookEntry t (s.headWrite h tag hpa mv data mask false) (t.freshEntry n r q h tag) h tag
      ∧ q.line = d.toDpa hpa / 64 ∧ q.data = data ∧ q.mask = mask := by
  have hsn : s.snooped h (d.toDpa hpa / 64) = false := by
    obtain ⟨-, -, -, -, -, -, hsnoops, -⟩ := hrest
    unfold State.snooped; rw [hsnoops]; rfl
  rw [headWrite_admits s ha hl.pool]
  simp only [hsn, Bool.false_eq_true, if_false]
  obtain ⟨t, b, hroute, htook⟩ := dispatch_tookEntry (q := portWrite h tag hpa mv data mask d) ha hrest rfl hc hwt
    (writeKind_cases _ _) (portWrite_fromHead tag hpa mv data mask d h16) hl hroom
  exact ⟨t, _, hroute, htook, rfl, rfl, rfl⟩

/-- A recalled writeback that its port admits takes an entry though its line's transaction is open; on its way only counters and
the pull table change (R157). -/
theorem headWrite_recalled (ha : s.admits h hpa true d n r) (hsn : s.snooped h (d.toDpa hpa / 64) = true)
    (hf : ∀ t x, s.txn (d.toDpa hpa / 64) = some t → t.phase ≠ .fill x) (h16 : h < 16) (hl : Fresh s n r (d.toDpa hpa / 64))
    (hroom : s.wbRoom (s.ownerTile (d.toDpa hpa / 64)) false = true) :
    ∃ t q pm pu, t = { s with pmc := pm, coh := { s.coh with pull := pu } }
      ∧ TookEntry t (s.headWrite h tag hpa mv data mask false) (t.freshEntry n r q h tag) h tag
      ∧ q.line = d.toDpa hpa / 64 ∧ q.data = data ∧ q.mask = mask := by
  obtain ⟨q, hq⟩ : ∃ q : Req, q = portWrite h tag hpa mv data mask d := ⟨_, rfl⟩
  obtain ⟨q', hq'⟩ : ∃ q' : Req, q' = { q with reg := some (n, r), atP2 := true } := ⟨_, rfl⟩
  obtain ⟨pm, hprobe⟩ := sendProbe_cases s (h / 2 * 2) q
  obtain ⟨pu, hpull⟩ := pullOn_cases { s with pmc := pm } q
  obtain ⟨t, ht⟩ : ∃ t : State, t = { s with pmc := pm, coh := { s.coh with pull := pu } } := ⟨_, rfl⟩
  obtain ⟨-, -, hrec⟩ := admits_link s ha
  have hline : q'.line = d.toDpa hpa / 64 := by rw [hq', hq]; rfl
  have hfrom : FromHead q' h tag := by rw [hq', hq]; exact ⟨rfl, rfl, rfl, h16⟩
  have hfresh : Fresh t n r q'.line := by rw [hline, ht]; exact ⟨hl.pool, hl.mirror, hl.way, hl.entry, hl.hold⟩
  have hacc : t.acceptable n q' = true := acceptable_of_room hfresh (by rw [hline, ht, hq', hq]; exact hroom)
  have hport : s.headWrite h tag hpa mv data mask false
      = ((s.sendProbe (h / 2 * 2) q).pullOn q).writeback n r { q with reg := some (n, r) } := by
    rw [hq]; exact (headWrite_admits s ha hl.pool).trans (if_pos hsn)
  have hwb : t.writeback n r { q with reg := some (n, r) } = t.accept n r q' := by
    rw [hq'] at hacc ⊢; exact writeback_accepts (q := { q with reg := some (n, r) }) hl.pool hacc
  refine ⟨t, q', pm, pu, ht, ?_, hline, by rw [hq', hq]; rfl, by rw [hq', hq]; rfl⟩
  rw [hport, hprobe, hpull, ← ht, hwb]
  exact accept_tookEntry hfrom hfresh (by rw [hline, ht]; exact hf) (by rw [ht]; exact hrec)

end

/-! ### In the retry queue -/

/-- A recalled writeback that waited alone for an entry of its tile takes one when the tile's queue is retried, and the queue is
empty then (R100, R157). -/
theorem retryWrites_tookEntry {s : State} {tile n h tag : Nat} {r : Region} {q : Req} (hwr : s.near.wbRetry = [(tile, q)])
    (hb : s.coh.heldBirsp = []) (hreg : s.regionFor q = some (n, r)) (hw : q.writes = true) (hq : FromHead q h tag)
    (hsn : s.snooped h q.line = true) (ht : ∀ t, s.txn q.line = some t → t.phase = .recall)
    (hr : (s.head h).link.recovery = false) (hl : Fresh s n r q.line) (hroom : s.wbRoom (s.ownerTile q.line) q.be = true) :
    TookEntry { s with near := { s.near with wbRetry := [] } } (s.retryWrites tile)
      (s.freshEntry n r { q with atP2 := true } h tag) h tag := by
  have hacc : s.acceptable n { q with atP2 := true } = true := acceptable_of_room (r := r) hl hroom
  have htook : TookEntry { s with near := { s.near with wbRetry := [] } } _ (s.freshEntry n r { q with atP2 := true } h tag) h tag :=
    accept_tookEntry (q := { q with atP2 := true }) ⟨hq.src, hq.mute, hq.poison, hq.head⟩
      ⟨hl.pool, hl.mirror, hl.way, hl.entry, hl.hold⟩ (fun t _ hx => by rw [ht t hx]; nofun) hr
  rw [retry_one hwr (fun t hx => by rw [ht t hx]; nofun) hreg (recalledWrite_of_snooped hq.src hw hsn) hl.pool hacc,
    releaseBirsps_none]
  · exact htook
  · obtain ⟨x, p, m, hu⟩ := htook
    rw [hu]; exact hb

/-! ### The obligation -/

/-- Settles O8. A write that its port admits takes an entry where its line is at rest, and as a recalled writeback also where the
line's transaction is open; a recalled writeback that waited takes its entry at the retry. -/
theorem writesTakeTheirEntries : Obligations.WritesTakeTheirEntries := by
  unfold Obligations.WritesTakeTheirEntries
  refine ⟨?_, ?_⟩
  · intro s h tag hpa n mv data mask d r ha h16 hpool hmir hwt hw he hroomT hroomF hhold
    have hl : Fresh s.hush n r (d.toDpa hpa / 64) := ⟨hpool, hmir, hw, he, hhold⟩
    obtain ⟨hon, -, -, hdec, -⟩ := id ha
    refine ⟨fun hrest hc p hp => ?_, fun hsn hf => ?_⟩
    · have hx : exec p.1 s = run (fun s => s.headWrite h tag hpa mv data p.2 false) s := by
        simp only [List.mem_cons, List.not_mem_nil, or_false] at hp
        rcases hp with rfl | rfl <;> rfl
      refine completes_of hon hx ?_
      obtain ⟨t, q, ⟨qh, hs, pm, pw, a, pu, rfl⟩, ⟨x, pm', m, hu⟩, hline, hdata, hmask⟩ :=
        headWrite_tookEntry (s := s.hush) (tag := tag) (mv := mv) (data := data) (mask := p.2) ha hrest hc hwt h16 hl
          (Bool.rec hroomF hroomT)
      rw [hu]
      exact ⟨_, rfl, hline, hdata, hmask, rfl, rfl, rfl, rfl, rfl, rfl⟩
    · refine completes_of (f := fun s => s.when (s.recalledArrival h hpa) fun s => s.headWrite h tag hpa mv data mask false) hon rfl ?_
      rw [recalledArrival_of_snooped (s := s.hush) hdec hsn, when_true]
      obtain ⟨t, q, pm, pu, rfl, ⟨x, pm', m, hu⟩, hline, hdata, hmask⟩ :=
        headWrite_recalled (s := s.hush) (tag := tag) (mv := mv) (data := data) (mask := mask) ha hsn hf h16 hl hroomF
      rw [hu]
      exact ⟨_, rfl, hline, hdata, hmask, rfl, rfl, rfl, rfl⟩
  · intro s tile n h tag r q hon hwr hb hreg hs hw h16 hm hp hsn ht hr hpool hmir hres he hroom hhold
    refine completes_of (f := fun s => s.retryWrites tile) hon rfl ?_
    obtain ⟨x, p, m, hu⟩ := retryWrites_tookEntry (s := s.hush) hwr hb hreg hw ⟨hs, hm, hp, h16⟩ hsn ht hr
      ⟨hpool, hmir, hres, he, hhold⟩ hroom
    rw [hu]
    exact ⟨rfl, rfl, rfl, rfl⟩

end Sys2Proof.Proofs.Writes
end

