-- ==== Sys2Proof/Proofs/Supply.lean ====
section
/-! PROOF. Supply samples, brace, commit, recovery, drill, orderly shutdown, soft reset and the steward's watchdog (R16, R342 to R344, R368,
R369, R577), and obligation O45. -/
namespace Sys2Proof.Proofs.Supply
open Sys2Proof Sys2Proof.Machine Sys2Proof.Laws Sys2Proof.Laws.Flush

/-- A test discharge is in one of its steps 2 to 4 (R326). -/
def Testing (s : State) : Prop := s.rsv.step = .settling ∨ s.rsv.step = .loaded ∨ s.rsv.step = .discharging

/-- What ending a test leaves of the reserve's record, but for the charger: a running test has result 2, and without one nothing
changes (R327). -/
def EndsTest (s : State) (r : Rsv) : Prop :=
  (Testing s → r = { s.rsv with step := .idle, testing := false, testResult := 2, est := none, charging := r.charging })
    ∧ (¬ Testing s → r = { s.rsv with charging := r.charging })

/-- A commit with source k has asserted HOLD_EN, ended a test and charging, and started stage 1; tp is the tapestry after it
(R343, R344). -/
def Commits (s u : State) (k : Nat) (tp : Tap) : Prop :=
  u.vlt.st = .s1 ∧ u.vlt.hold = true ∧ u.vlt.source = k ∧ u.vlt.stopAt = s.clock ∧ u.vlt.braceOn = false
    ∧ EndsTest s u.rsv ∧ u.rsv.charging = false
    ∧ u = { s with
      out := u.out, vlt := u.vlt, rsv := u.rsv, tap := tp, pmc := u.pmc, pwr := u.pwr
      near := { s.near with autoOff := u.near.autoOff } }

/-- The device is in RUN or BRACE. -/
def Awake (s : State) : Prop := s.vlt.st = .run ∨ s.vlt.st = .brace

section
variable {s : State}

/-! ### Tests of the reserve -/

/-- Aborting a running test gives it its result and lets the charger on unless the hold-up switch is. -/
theorem aborted_testing (h : Testing s) (hold : Bool) (n : Nat) :
    aborted s.rsv hold n = { s.rsv with step := .idle, testing := false, charging := ! hold, testResult := n, est := none } := by
  unfold aborted; rcases h with h | h | h <;> simp [h]

/-- Without a running test there is nothing to abort. -/
theorem aborted_idle (h : ¬ Testing s) (hold : Bool) (n : Nat) : aborted s.rsv hold n = s.rsv := by
  unfold Testing at h; simp only [not_or] at h
  obtain ⟨h1, h2, h3⟩ := h
  simp [aborted, h1, h2, h3]

/-- An abort with result 2 ends the test, whatever the charger does then. -/
theorem aborted_endsTest (hold c : Bool) : EndsTest s { aborted s.rsv hold 2 with charging := c } :=
  ⟨fun h => by rw [aborted_testing h], fun h => by rw [aborted_idle h]⟩

/-! ### Commits -/

/-- A commit out of a state that differs from s by a supply reading, and perhaps by the brace that the reading brought. -/
theorem commitNow_commits {t : State} {v : Vlt} {r : Rsv} {tp : Tap} {p : Pmc} (k : Nat)
    (ht : t = { s with out := [], vlt := v, rsv := r, tap := tp, pmc := p }) (hr : r = s.rsv ∨ ∃ b, r = aborted s.rsv b 2)
    (hl : Awake t) (ho : t.vlt.orderly = false) : Commits s (t.commitNowAt k) k tp := by
  obtain ⟨w, q, pw, a, o, h, hst, hhold, hsrc, hat, hbr⟩ := commitNow_eq (k := k) hl ho
  have hab : ∃ b, aborted t.rsv t.vlt.hold 2 = aborted s.rsv b 2 := by
    rw [ht]
    rcases hr with rfl | ⟨b, rfl⟩
    · exact ⟨_, rfl⟩
    · exact ⟨b, aborted_twice _ _ _ _⟩
  obtain ⟨b, hab⟩ := hab
  rw [h, hab]
  refine ⟨hst, hhold, hsrc, ?_, hbr, aborted_endsTest b false, rfl, ?_⟩
  · rw [hat, ht]
  · rw [ht]

/-- Before memory active a commit sets SOURCE and starts no flush (R357, R366). -/
theorem commitNow_restore {t : State} (k : Nat) (h : t.vlt.st = .restore) :
    t.commitNowAt k = { t with vlt := { t.vlt with source := k } } := by
  unfold State.commitNowAt; rw [if_pos h]

/-! ### Supply samples -/

/-- Samples in a row below the brace threshold, after one of a code (R342). -/
def lowBraceAfter (s : State) (code : Nat) : Nat := if code < 2294 then s.vlt.lowBrace + 1 else 0

/-- Samples in a row below the commit threshold, after one of a code (R343). -/
def lowCommitAfter (s : State) (code : Nat) : Nat := if code < 2171 then s.vlt.lowCommit + 1 else 0

/-- What a supply sample records, before brace and commit. -/
def readVin (s : State) (code : Nat) (low : Bool) : State :=
  let ok := decide (2335 ≤ code) && ! low
  { s with
    vlt := { s.vlt with
      vinAt := s.clock, vin := code * 20000 / 4096, lowBrace := lowBraceAfter s code, lowCommit := lowCommitAfter s code, pfLow := low
      good := if ok then s.vlt.good + 1 else 0, recovered := s.vlt.recovered && ok }
    tap := { s.tap with vinMin := some (min (code * 20000 / 4096) (s.tap.vinMin.getD (code * 20000 / 4096))) } }

/-- Brace after b low samples in a row. -/
def braced (t : State) (b : Nat) : State := if 2 ≤ b && ! t.vlt.braceOn then t.startBrace else t

/-- Commit after m low samples in a row, or, where it is enabled, on PF_IN#. -/
def tripped (t : State) (m : Nat) (pf : Bool) : State :=
  if 2 ≤ m then t.commitNowAt 1 else if pf then t.commitNowAt 2 else t

/-- A supply sample that is due records its reading, may brace, and may commit (R342, R343). -/
theorem vinSample_yields {code : Nat} (low : Bool) (hon : s.on = true) (hcode : code < 4096) (hdue : s.vlt.vinAt + 2000 ≤ s.clock) :
    Yields (.vinSample code low) s (tripped (braced (readVin s.hush code low) (lowBraceAfter s code)) (lowCommitAfter s code)
      (low && decide (s.vlt.ctl.fld 2 1 = 1))) := by
  refine yields_of hon (show exec _ s = execVinSample code low s from rfl) ?_
  dsimp only
  rw [elapse_done (by exact hdue), Nat.mod_eq_of_lt hcode]
  rfl

theorem braced_none {t : State} {b : Nat} (h : b < 2 ∨ t.vlt.braceOn = true) : braced t b = t := by
  unfold braced; rcases h with h | h <;> simp [h]

theorem braced_start {t : State} {b : Nat} (h : 2 ≤ b) (hb : t.vlt.braceOn = false) : braced t b = t.startBrace := by
  simp [braced, h, hb]

/-- Brace or not, the device stays in RUN or BRACE, and of the reserve at most a test has ended. -/
theorem braced_awake {t : State} (b : Nat) (h : Awake t) : ∃ v r p, braced t b = { t with vlt := v, rsv := r, pmc := p }
    ∧ (v.st = .run ∨ v.st = .brace) ∧ v.orderly = t.vlt.orderly ∧ (r = t.rsv ∨ ∃ b, r = aborted t.rsv b 2) := by
  by_cases hb : b < 2 ∨ t.vlt.braceOn = true
  · rw [braced_none hb]; exact ⟨_, _, _, rfl, h, rfl, .inl rfl⟩
  · simp only [not_or, Nat.not_lt, Bool.not_eq_true] at hb
    obtain ⟨hlow, hoff⟩ := hb
    rw [braced_start hlow hoff]
    rcases h with h | h
    · obtain ⟨p, hp⟩ := brace_eq h
      rw [hp]; exact ⟨_, _, _, rfl, .inr rfl, rfl, .inr ⟨_, rfl⟩⟩
    · have hst : t.startBrace = t := by simp [State.startBrace, h]
      rw [hst]; exact ⟨_, _, _, rfl, .inr h, rfl, .inl rfl⟩

theorem tripped_none {t : State} {m : Nat} {pf : Bool} (hm : m < 2) (hp : pf = false) : tripped t m pf = t := by
  simp [tripped, hm, hp]

theorem tripped_vin {t : State} {m : Nat} (pf : Bool) (hm : 2 ≤ m) : tripped t m pf = t.commitNowAt 1 := if_pos hm

theorem tripped_pf {t : State} {m : Nat} (hm : m < 2) : tripped t m true = t.commitNowAt 2 := by
  simp [tripped, hm]

/-- PF_IN# does not commit where it is not asserted or PF_IN_EN is 0. -/
theorem pf_off {low : Bool} (h : low = false ∨ s.vlt.ctl.fld 2 1 ≠ 1) : (low && decide (s.vlt.ctl.fld 2 1 = 1)) = false := by
  rcases h with h | h <;> simp [h]

variable {code : Nat} {low : Bool}

/-- A sample that commits does so from RUN or BRACE, whether or not it has braced before. -/
theorem tripped_commits {t : State} {k : Nat} (b : Nat) (hl : Awake s) (ho : s.vlt.orderly = false)
    (ht : t = braced (readVin s.hush code low) b) : Commits s (t.commitNowAt k) k (readVin s code low).tap := by
  obtain ⟨v, r, p, hbr, hst, hord, hr⟩ := braced_awake (t := readVin s.hush code low) b hl
  rw [hbr] at ht
  exact commitNow_commits k ht hr (by rw [ht]; exact hst) (by rw [ht]; exact hord.trans ho)

section
variable (hon : s.on = true) (hcode : code < 4096) (hdue : s.vlt.vinAt + 2000 ≤ s.clock)
include hon hcode hdue

/-- A sample that neither braces nor commits records its reading. -/
theorem vinSample_records (hm : lowCommitAfter s code < 2) (hp : low = false ∨ s.vlt.ctl.fld 2 1 ≠ 1)
    (hb : lowBraceAfter s code < 2 ∨ s.vlt.braceOn = true) :
    Yields (.vinSample code low) s (readVin s.hush code low) := by
  have hy := vinSample_yields low hon hcode hdue
  rwa [braced_none (by exact hb), tripped_none hm (pf_off hp)] at hy

/-- The second low sample in RUN braces, and ends a test (R327, R342). -/
theorem vinSample_braces (hm : lowCommitAfter s code < 2) (hp : low = false ∨ s.vlt.ctl.fld 2 1 ≠ 1)
    (hb : 2 ≤ lowBraceAfter s code) (hoff : s.vlt.braceOn = false) (hrun : s.vlt.st = .run) :
    Completes (.vinSample code low) s fun u => EndsTest s u.rsv ∧ (Testing s → u.rsv.charging = ! s.vlt.hold)
      ∧ (¬ Testing s → u.rsv.charging = s.rsv.charging)
      ∧ u = { s with
        out := [], vlt := { (readVin s code low).vlt with braceOn := true, st := .brace }
        rsv := u.rsv, tap := (readVin s code low).tap, pmc := u.pmc } := by
  have hy := vinSample_yields low hon hcode hdue
  obtain ⟨p, hbr⟩ := brace_eq (t := readVin s.hush code low) hrun
  rw [braced_start hb (by exact hoff), tripped_none hm (pf_off hp), hbr] at hy
  refine ⟨_, hy, aborted_endsTest s.vlt.hold _, fun h => ?_, fun h => ?_, rfl⟩
  · exact congrArg Rsv.charging (aborted_testing h s.vlt.hold 2)
  · exact congrArg Rsv.charging (aborted_idle h s.vlt.hold 2)

/-- The second sample in a row below the commit threshold commits (R343). -/
theorem vinSample_commits (hl : Awake s) (ho : s.vlt.orderly = false) (hm : 2 ≤ lowCommitAfter s code) :
    Completes (.vinSample code low) s fun u => Commits s u 1 (readVin s code low).tap := by
  have hy := vinSample_yields low hon hcode hdue
  rw [tripped_vin _ hm] at hy
  exact ⟨_, hy, tripped_commits _ hl ho rfl⟩

/-- A sample during which PF_IN# is asserted commits where it is enabled (R343). -/
theorem vinSample_pfCommits (hl : Awake s) (ho : s.vlt.orderly = false) (hm : lowCommitAfter s code < 2)
    (hlow : low = true) (hen : s.vlt.ctl.fld 2 1 = 1) :
    Completes (.vinSample code low) s fun u => Commits s u 2 (readVin s code low).tap := by
  have hy := vinSample_yields low hon hcode hdue
  rw [decide_eq_true hen, Bool.and_true, hlow, tripped_pf hm] at hy
  rw [hlow]
  exact ⟨_, hy, tripped_commits _ hl ho rfl⟩

/-- In a cold restore that has braced, a low supply sets SOURCE alone (R357). -/
theorem vinSample_restore (hst : s.vlt.st = .restore) (hm : 2 ≤ lowCommitAfter s code) (hb : s.vlt.braceOn = true) :
    Yields (.vinSample code low) s { readVin s.hush code low with vlt := { (readVin s code low).vlt with source := 1 } } := by
  have hy := vinSample_yields low hon hcode hdue
  rwa [tripped_vin _ hm, braced_none (.inr (by exact hb)), commitNow_restore _ (by exact hst)] at hy

end

/-! ### PF_IN# and recovery -/

/-- PF_IN# commits where it is enabled (R343). -/
theorem pfIn_commits (hon : s.on = true) (hl : Awake s) (ho : s.vlt.orderly = false) (hen : s.vlt.ctl.fld 2 1 = 1) :
    Completes .pfInAssert s fun u => Commits s u 2 s.tap := by
  refine completes_of hon (show exec _ s = execPfInAssert s from rfl) ?_
  dsimp only
  rw [if_pos (by exact hen)]
  exact commitNow_commits 2 rfl (.inl rfl) hl ho

/-- PF_IN# that is not enabled restarts the recovery timer alone (R342). -/
theorem pfIn_restartsRecovery (hon : s.on = true) (hen : s.vlt.ctl.fld 2 1 ≠ 1) :
    Yields .pfInAssert s { s.hush with vlt := { s.vlt with pfLow := true, good := 0, recovered := false } } :=
  yields_of hon (show exec _ s = execPfInAssert s from rfl) (if_neg hen)

/-- 5 ms of good samples end brace (R342). -/
theorem recovery_yields (hon : s.on = true) (hg : 5000 ≤ s.vlt.good) :
    Yields .recovery s { s.hush with vlt := { s.vlt with recovered := true, braceOn := false, st := if s.vlt.st = .brace then .run else s.vlt.st } } :=
  yields_of hon rfl (if_pos (decide_eq_true hg))

/-- Fewer good samples bring no recovery. -/
theorem recovery_early (hon : s.on = true) (hg : s.vlt.good < 5000) : Yields .recovery s s.hush :=
  yields_of hon rfl (if_neg (by simpa using hg))

/-! ### Drill, shutdown and soft reset -/

/-- Outside RUN and BRACE nothing starts a shutdown. -/
theorem startShutdown_asleep {t : State} (soft : Bool) (h1 : t.vlt.st ≠ .run) (h2 : t.vlt.st ≠ .brace) : t.startShutdown soft = t :=
  if_neg (norb h1 h2)

/-- In RUN or BRACE an orderly shutdown stops admission and leaves HOLD_EN alone (R369). -/
theorem startShutdown_awake {t : State} (soft : Bool) (h : Awake t) : t.startShutdown soft = { t with vlt := { t.vlt with
    st := .s1, orderly := true, soft := soft, source := 4, braceOn := false, stopAt := t.clock, stage1 := false
    stage2 := false, drained := false, drivesDone := false, written := 0, left := 0, skipScratch := false } } :=
  if_pos (orb h)

/-- With every present head braked and no FATAL error a soft reset in RUN or BRACE is an orderly shutdown (R577). -/
theorem softReset_awake {t : State} (hb : (t.presentHeads.all fun h => (t.head h).braked) = true) (hf : t.flt.fatal = none) (h : Awake t) :
    t.softReset = t.startShutdown true := by
  unfold State.softReset; rw [hb, hf, orb h]; rfl

/-- Outside RUN and BRACE a soft reset has no effect. -/
theorem softReset_asleep {t : State} (h1 : t.vlt.st ≠ .run) (h2 : t.vlt.st ≠ .brace) : t.softReset = t := by
  simp [State.softReset, h1, h2]

/-- With a head that is not braked, or after a FATAL error, a soft reset has no effect (R577). -/
theorem softReset_refused {t : State} (h : (t.presentHeads.all fun h => (t.head h).braked) = false ∨ t.flt.fatal.isSome = true) :
    t.softReset = t := by
  unfold State.softReset
  rcases h with h | h
  · rw [h]; simp
  · rw [Option.isNone_eq_false_iff.mpr h]; simp

section
variable {src : Nat} (hon : s.on = true) (hr : s.reaches src = true) (hm : s.isMgmt src = true)
include hon hr hm

/-- A drill commits (R368). -/
theorem drill_commits (hl : Awake s) (ho : s.vlt.orderly = false) :
    Completes (.drill src) s fun u => Commits s u 3 s.tap := by
  refine completes_of hon (show exec _ s = execDrill src s from rfl) ?_
  rw [globalWrite_mgmt (s := s.hush) _ _ hr hm, if_pos (orb (by exact hl))]
  exact commitNow_commits 3 rfl (.inl rfl) hl ho

/-- Drill, shutdown and soft reset change nothing outside RUN and BRACE (R368 to R370, R577). -/
theorem flushCommands_asleep (h1 : s.vlt.st ≠ .run) (h2 : s.vlt.st ≠ .brace) :
    ∀ c ∈ [Instr.drill src, .shutdown src, .softReset src], Yields c s s.hush := by
  intro c hc
  simp only [List.mem_cons, List.not_mem_nil, or_false] at hc
  rcases hc with rfl | rfl | rfl
  · exact yields_of hon (show exec _ s = execDrill src s from rfl)
      ((globalWrite_mgmt (s := s.hush) _ _ hr hm).trans (if_neg (norb h1 h2)))
  · exact yields_of hon rfl ((globalWrite_mgmt (s := s.hush) _ _ hr hm).trans (startShutdown_asleep (t := s.hush) false h1 h2))
  · exact yields_of hon rfl ((globalWrite_mgmt (s := s.hush) _ _ hr hm).trans (softReset_asleep (t := s.hush) h1 h2))

/-- A soft reset changes nothing while a head is not braked or after a FATAL error (R577). -/
theorem softReset_noEffect (h : (s.presentHeads.all fun h => (s.head h).braked) = false ∨ s.flt.fatal.isSome = true) :
    Yields (.softReset src) s s.hush :=
  yields_of hon rfl ((globalWrite_mgmt (s := s.hush) _ _ hr hm).trans (softReset_refused (t := s.hush) h))

/-- A shutdown, and a soft reset that is allowed, stop admission in order (R369, R577). -/
theorem shutdowns_start (c : Instr) (soft : Bool) (hc : (c, soft) ∈ [(Instr.shutdown src, false), (.softReset src, true)])
    (hs : soft = true → (s.presentHeads.all fun h => (s.head h).braked) = true ∧ s.flt.fatal = none) (hl : Awake s) :
    Yields c s (s.hush.startShutdown soft) := by
  simp only [List.mem_cons, List.not_mem_nil, or_false, Prod.mk.injEq] at hc
  rcases hc with ⟨rfl, rfl⟩ | ⟨rfl, rfl⟩
  · exact yields_of hon rfl (globalWrite_mgmt (s := s.hush) _ _ hr hm)
  · obtain ⟨hb, hf⟩ := hs rfl
    exact yields_of hon rfl ((globalWrite_mgmt (s := s.hush) _ _ hr hm).trans (softReset_awake (t := s.hush) hb hf hl))

end

/-- A source without the right to write the register posts an ACCESS notice that names it, and nothing else happens (R80). -/
theorem flushCommands_denied {src : Nat} (hon : s.on = true) (hr : s.reaches src = true) (hm : s.isMgmt src = false) (c : Instr) (off : Nat)
    (hc : (c, off) ∈ [(Instr.drill src, 0xA000), (.shutdown src, 0xA000), (.softReset src, 0x18)]) :
    Completes c s fun u => ∃ t p, u = { s with
      out := [], flt := s.flt.enter (Note.words ⟨1, 0x03, src % 32 + 0xFFF * 32 + 2 ^ 17, some (off / 8)⟩), tap := t, pmc := p } := by
  have hx : ∃ f, exec c s = run (fun s => s.globalWrite src (off / 8) f) s := by
    simp only [List.mem_cons, List.not_mem_nil, or_false, Prod.mk.injEq] at hc
    rcases hc with ⟨rfl, rfl⟩ | ⟨rfl, rfl⟩ | ⟨rfl, rfl⟩ <;> exact ⟨_, rfl⟩
  obtain ⟨f, hx⟩ := hx
  exact completes_of hon hx (globalWrite_denied (s := s.hush) _ f hr hm)

/-! ### The steward -/

/-- The steward is stopped and its restart counted. -/
def stewardStopped (s : State) : State :=
  ({ s with glb := { s.glb with steward := false, restarts := s.glb.restarts + 1 } } : State).count 3 1

/-- The watchdog stops the steward, counts the restart and posts a notice (R16). -/
theorem watchdog_restarts (hon : s.on = true) (hst : s.glb.steward = true) :
    Completes .stewardWatchdogExpire s fun u => u.glb = { s.glb with steward := false, restarts := s.glb.restarts + 1 }
      ∧ u.flt = s.flt.enter (Note.words ⟨2, 0x09, (s.glb.restarts + 1) % 65536, none⟩)
      ∧ u = { s with out := u.out, heads := u.heads, glb := u.glb, flt := u.flt, tap := u.tap, pmc := u.pmc } := by
  have hy : Yields .stewardWatchdogExpire s ((stewardStopped s.hush).note ⟨2, 0x09, (s.glb.restarts + 1) % 65536, none⟩) :=
    yields_of hon (show exec _ s = execStewardWatchdogExpire s from rfl) (if_pos hst)
  obtain ⟨t, p, hs, o, h⟩ := note_cases (stewardStopped s.hush) ⟨2, 0x09, (s.glb.restarts + 1) % 65536, none⟩
  rw [h] at hy
  exact ⟨_, hy, rfl, rfl, rfl⟩

/-- A steward that the watchdog stopped runs again (R16). -/
theorem restart_yields (hon : s.on = true) (hst : s.glb.steward = false) (hn : s.glb.restarts ≠ 0) :
    Yields .stewardRestartDone s { s.hush with glb := { s.glb with steward := true } } := by
  refine yields_of hon rfl (if_pos ?_)
  simp [hst, hn]

end

/-! ### The obligation -/

/-- Settles O45, clause by clause: supply samples, PF_IN#, recovery, the management side's commands, refused sources, the steward. -/
theorem commitsFollowTheSupply : Obligations.CommitsFollowTheSupply := by
  unfold Obligations.CommitsFollowTheSupply
  intro s hon
  refine ⟨fun code low hcode hdue => ⟨?_, ?_, ?_, ?_, ?_⟩, ?_, ?_, ?_, ?_, ?_, ?_, ?_, ?_⟩
  · exact vinSample_records hon hcode hdue
  · exact vinSample_braces hon hcode hdue
  · exact fun ⟨hl, ho⟩ => vinSample_commits hon hcode hdue hl ho
  · exact fun ⟨hl, ho⟩ => vinSample_pfCommits hon hcode hdue hl ho
  · exact vinSample_restore hon hcode hdue
  · exact fun ⟨hl, ho⟩ => pfIn_commits hon hl ho
  · exact pfIn_restartsRecovery hon
  · exact recovery_yields hon
  · exact recovery_early hon
  · intro src hr hm
    refine ⟨fun ⟨hl, ho⟩ => drill_commits hon hr hm hl ho, flushCommands_asleep hon hr hm, fun c soft hc hs hl => ?_, fun h => ?_⟩
    · have hy := shutdowns_start hon hr hm c soft hc hs hl
      rw [startShutdown_awake soft (by exact hl)] at hy
      exact hy
    · exact softReset_noEffect hon hr hm h
  · exact fun src hr hm => flushCommands_denied hon hr hm
  · exact watchdog_restarts hon
  · exact restart_yields hon

end Sys2Proof.Proofs.Supply
end

