-- ==== Sys2Proof/Proofs/Reads.lean ====
section
/-! PROOF. Requests other than writes that their port admits, for a line at rest in a PRIVATE region (R33, R91, R153): a read that hits or
opens the line's transaction, OWN_NODATA and EVICT, the speculative read, and obligation O7. -/
namespace Sys2Proof.Proofs.Reads
open Sys2Proof Sys2Proof.Machine Sys2Proof.Laws

/-- The request of kind k that head h makes under tag, in the class that be tells, as its owner tile takes it (R153). -/
def tileReq (h tag line n : Nat) (k : ReqKind) (r : Region) (be : Bool) : Req :=
  { src := .head h tag, kind := k, line := line, reg := some (n, r), be := be }

/-! ### Kinds -/

/-- The kinds of request that answer with the line's data (R153). -/
def IsRead (k : ReqKind) : Prop := k = .rdCur ∨ k = .rdShared ∨ k = .rdOwn

theorem readKind_isRead (mv : Meta) : IsRead (readKind mv) := by
  cases mv <;> simp [IsRead, readKind]

theorem readDataKind_isRead (mv : Meta) : IsRead (readDataKind mv) := by
  cases mv <;> simp [IsRead, readDataKind]

/-- A read is no write, whatever its other fields. -/
theorem writes_of_isRead {q : Req} (hk : IsRead q.kind) : q.writes = false := by
  rcases hk with hk | hk | hk <;> simp [Req.writes, hk]

/-- MEM_RD and MEM_RD_DATA are reads at their head's port (R153). -/
theorem exec_read {c : Instr} {h tag hpa : Nat} {mv : Meta} (hc : c = .memRd h tag hpa mv ∨ c = .memRdData h tag hpa mv) (s : State) :
    ∃ k, IsRead k ∧ exec c s = run (fun s => s.headReq h tag hpa k) s := by
  rcases hc with rfl | rfl
  · exact ⟨readKind mv, readKind_isRead mv, rfl⟩
  · exact ⟨readDataKind mv, readDataKind_isRead mv, rfl⟩

/-- MEM_INV asks for ownership without data, and MEM_CLN_EVCT evicts (R153). -/
theorem exec_dataless {c : Instr} {h tag hpa : Nat} (hc : c = .memInv h tag hpa ∨ c = .memClnEvct h tag hpa) (s : State) :
    ∃ k, (k = .ownNoData ∨ k = .evict) ∧ exec c s = run (fun s => s.headReq h tag hpa k) s := by
  rcases hc with rfl | rfl
  · exact ⟨.ownNoData, .inl rfl, rfl⟩
  · exact ⟨.evict, .inr rfl, rfl⟩

/-! ### At the owner tile -/

section
variable {s : State} {n : Nat} {r : Region} {q : Req}

/-- A read of a PRIVATE region whose turn has come is served (R145, R154). -/
theorem perform_read (hk : IsRead q.kind) (hc : r.coh = 0) : s.perform n r q .none 0 = s.serveRead r q := by
  unfold State.perform
  rcases hk with hk | hk | hk <;> simp only [hk, afterSf_private _ hc]

/-- OWN_NODATA and EVICT of a line of a PRIVATE region without a transaction are answered, and no more (R153). -/
theorem perform_dataless (hk : q.kind = .ownNoData ∨ q.kind = .evict) (hc : r.coh = 0) (ht : (s.completeReq q).txn q.line = none) :
    s.perform n r q .none 0 = s.completeReq q := by
  unfold State.perform
  rcases hk with hk | hk <;> simp only [hk, afterSf_private _ hc, finish_none _ ht]

/-- A head's request without data is completed at once where its link is not in Recovery. -/
theorem completeReq_head {h tag : Nat} (hm : q.mute = false) (hs : q.src = .head h tag) (h16 : h < 16)
    (hr : (s.head h).link.recovery = false) : s.completeReq q = s.emit (.memCmp h tag (s.devLoad h)) := by
  simp [State.completeReq, Req.waiters, hm, hs, State.complete, h16, emitTo_now _ _ hr]

/-- A read that misses outside the pool and outside a broken SWATCH_ALIAS window goes to its map tile: it counts and looks up (R91, R221). -/
theorem serveRead_miss (hres : s.resident r q.line = none) (hp : r.pooled = false) (hl : (s.linePlace r q.line).isSome = true) :
    s.serveRead r q = (s.count (evTile (s.ownerTile q.line) 1) 1).phase q .lookup := by
  have hl' : (s.linePlace r q.line).isNone = false := by simpa using hl
  unfold State.serveRead
  simp only [hres, hp, hl', Bool.false_eq_true, if_false]

/-- The transaction that a request opens with its lookup at the map tile. -/
def lookupTxn (q : Req) (since : Nat) : Txn :=
  { req := q, waits := 0, ansS := 0, phase := .lookup, queue := [], since := since }

/-- A request of a line without a transaction opens one in its lookup phase. -/
theorem phase_lookup (ht : s.txn q.line = none) :
    s.phase q .lookup = { s with coh := { s.coh with
      lookups := s.coh.lookups + 1, txns := s.coh.txns.set none q.line (some (lookupTxn q s.coh.lookups)) } } := by
  unfold State.phase
  simp only [ht, Option.getD_none, if_true]
  rfl

/-- A transaction that was opened is found. -/
theorem txn_opened (q : Req) (since : Nat) (t : Tbl (Option Txn)) :
    (t.set none q.line (some (lookupTxn q since))).get none q.line = some (lookupTxn q since) :=
  Tbl.get_set_self _ _ _ (Option.some_ne_none _) t

end

/-! ### On the way to the tile -/

section
variable {s t : State} (hr : Routed s t)
include hr

/-- The way from the port opens and closes no transaction. -/
theorem routed_txn (l : Nat) : t.txn l = s.txn l := by obtain ⟨_, _, _, _, _, _, rfl⟩ := hr; rfl
/-- It starts no hand-off, and changes neither where lines lie nor what they hold. -/
theorem routed_handoff : t.coh.handoff = s.coh.handoff := by obtain ⟨_, _, _, _, _, _, rfl⟩ := hr; rfl
theorem routed_resident (r : Region) (l : Nat) : t.resident r l = s.resident r l := by obtain ⟨_, _, _, _, _, _, rfl⟩ := hr; rfl
theorem routed_linePlace (r : Region) (l : Nat) : t.linePlace r l = s.linePlace r l := by obtain ⟨_, _, _, _, _, _, rfl⟩ := hr; rfl
theorem routed_lineValue (r : Region) (l : Nat) : t.lineValue r l = s.lineValue r l := by obtain ⟨_, _, _, _, _, _, rfl⟩ := hr; rfl

end

/-! ### At the port -/

section
variable {s : State} {h tag hpa n : Nat} {d : Decoder} {r : Region} {k : ReqKind}
  (ha : s.admits h hpa false d n r) (hrest : s.atRest (d.toDpa hpa / 64)) (hc : r.coh = 0)
include ha hrest hc

/-- A request that is no write reaches its owner tile and has its own effect there at once: no transaction is open on its line, and
its head's link is not in Recovery (R33, R154). -/
theorem headReq_reaches (hk : (tileReq h tag (d.toDpa hpa / 64) n k r false).writes = false) :
    ∃ t be, Routed s t ∧ t.txn (d.toDpa hpa / 64) = none ∧ (t.head h).link.recovery = false
      ∧ s.headReq h tag hpa k = t.perform n r (tileReq h tag (d.toDpa hpa / 64) n k r be) .none 0 := by
  obtain ⟨-, -, hrec⟩ := admits_link s ha
  obtain ⟨t, be, hroute, hlink, heq⟩ := headReq_private s (tag := tag) (k := k) ha hrest hc hk
  obtain ⟨htxn, -⟩ := hrest
  exact ⟨t, be, hroute, (routed_txn hroute _).trans htxn, by rw [hlink]; exact hrec, heq⟩

/-- A read of a resident line answers with its value, or poison, and changes nothing else but flags of ways, trees and counters at
the tile (R91, R485). -/
theorem headReq_hit (hk : IsRead k) {w : Nat} (hw : s.resident r (d.toDpa hpa / 64) = some w) :
    ∃ t nc sd tr p, Routed s t ∧ s.headReq h tag hpa k = { t with
      near := { t.near with nc := nc, side := sd, tree := tr }
      pmc := p
      out := t.out ++ [.memData h tag (if (s.lineValue r (d.toDpa hpa / 64)).poison then 0 else (s.lineValue r (d.toDpa hpa / 64)).data)
        (s.lineValue r (d.toDpa hpa / 64)).poison (t.devLoad h)] } := by
  obtain ⟨t, be, hroute, htxn, hrec, heq⟩ := headReq_reaches (tag := tag) ha hrest hc (writes_of_isRead hk)
  obtain ⟨-, hho, -⟩ := hrest
  obtain ⟨nc, sd, tr, p, hserve⟩ := serveRead_hit t (q := tileReq h tag (d.toDpa hpa / 64) n k r be)
    ((routed_resident hroute _ _).trans hw) htxn (by rw [routed_handoff hroute]; exact hho) hrec rfl rfl
  rw [← routed_lineValue hroute]
  exact ⟨t, nc, sd, tr, p, hroute, (heq.trans (perform_read hk hc)).trans hserve⟩

/-- A read of a line that is not resident opens the line's transaction, which goes to the map (R91, R221). -/
theorem headReq_miss (hk : IsRead k) (hw : s.resident r (d.toDpa hpa / 64) = none) (hp : r.pooled = false)
    (hl : (s.linePlace r (d.toDpa hpa / 64)).isSome = true) :
    ∃ t p be since, Routed s t ∧ s.headReq h tag hpa k = { t with
      pmc := p
      coh := { t.coh with
        lookups := t.coh.lookups + 1
        txns := t.coh.txns.set none (d.toDpa hpa / 64) (some (lookupTxn (tileReq h tag (d.toDpa hpa / 64) n k r be) since)) } } := by
  obtain ⟨t, be, hroute, htxn, -, heq⟩ := headReq_reaches (tag := tag) ha hrest hc (writes_of_isRead hk)
  have hmiss := serveRead_miss (s := t) (q := tileReq h tag (d.toDpa hpa / 64) n k r be)
    ((routed_resident hroute _ _).trans hw) hp (by rw [routed_linePlace hroute]; exact hl)
  refine ⟨t, _, be, _, hroute, (heq.trans ((perform_read hk hc).trans hmiss)).trans (phase_lookup ?_)⟩
  exact htxn

/-- OWN_NODATA and EVICT complete without data (R153). -/
theorem headReq_dataless (hk : k = .ownNoData ∨ k = .evict) (h16 : h < 16) :
    ∃ t, Routed s t ∧ s.headReq h tag hpa k = t.emit (.memCmp h tag (t.devLoad h)) := by
  obtain ⟨t, be, hroute, htxn, hrec, heq⟩ := headReq_reaches (tag := tag) (k := k) ha hrest hc (by rcases hk with rfl | rfl <;> rfl)
  have hdone : t.completeReq (tileReq h tag (d.toDpa hpa / 64) n k r be) = t.emit (.memCmp h tag (t.devLoad h)) :=
    completeReq_head rfl rfl h16 hrec
  exact ⟨t, hroute, heq.trans ((perform_dataless hk hc (by rw [hdone]; exact htxn)).trans hdone)⟩

end

/-- A speculative read of a head that is not quiet is discarded (R153). -/
theorem memSpecRd_discarded {s : State} {h : Nat} (hpa : Nat) (hon : s.on = true) (hq : s.pwr.quiet.get 0 h = 0) :
    Yields (.memSpecRd h hpa) s s.hush := by
  refine yields_of (f := fun s => s.when (s.memOn h) fun s => s.unquiet h) hon rfl ?_
  cases s.hush.memOn h
  · rfl
  · exact unquiet_awake s.hush hq

/-! ### The obligation -/

/-- Settles O7: a read hits or misses at its owner tile, a request without data completes there, a speculative read is discarded. -/
theorem requestsAnswerTheirHead : Obligations.RequestsAnswerTheirHead := by
  unfold Obligations.RequestsAnswerTheirHead
  refine ⟨fun s h tag hpa n mv d r ha hrest hc c hcmd => ⟨fun w hw => ?hit, fun hw hp hl => ?miss⟩,
    fun s h tag hpa n d r => ⟨fun ha hrest hc h16 c hcmd => ?dataless, memSpecRd_discarded hpa⟩⟩
  case hit =>
    obtain ⟨k, hk, hx⟩ := exec_read hcmd s
    refine completes_of ha.1 hx ?_
    obtain ⟨t, nc, sd, tr, p, ⟨qh, hs, pm, pw, a, pu, rfl⟩, hu⟩ := headReq_hit (s := s.hush) (tag := tag) ha hrest hc hk hw
    rw [hu]
    exact ⟨rfl, rfl, rfl, rfl, rfl⟩
  case miss =>
    obtain ⟨k, hk, hx⟩ := exec_read hcmd s
    refine completes_of ha.1 hx ?_
    obtain ⟨t, p, be, since, ⟨qh, hs, pm, pw, a, pu, rfl⟩, hu⟩ :=
      headReq_miss (s := s.hush) (tag := tag) ha hrest hc hk hw hp hl
    rw [hu]
    exact ⟨⟨_, txn_opened (tileReq h tag _ n k r be) since _, rfl, rfl, rfl, rfl⟩, rfl, rfl, rfl, rfl⟩
  case dataless =>
    obtain ⟨k, hk, hx⟩ := exec_dataless hcmd s
    refine completes_of ha.1 hx ?_
    obtain ⟨t, ⟨qh, hs, pm, pw, a, pu, rfl⟩, hu⟩ := headReq_dataless (s := s.hush) (tag := tag) ha hrest hc hk h16
    rw [hu]
    exact ⟨rfl, rfl, rfl, rfl, rfl, rfl⟩

end Sys2Proof.Proofs.Reads
end

