-- ==== Sys2Proof/Proofs/Regions.lean ====
section
/-! PROOF. Region entries (R31, R48 to R54, R57): a write to a word of the region table, the check of an entry, its release and activation,
the end of the binding comparison, the clearing of DLOST, and obligation O50. -/
namespace Sys2Proof.Proofs.Regions
open Sys2Proof Sys2Proof.Machine Sys2Proof.Laws Sys2Proof.Laws.Units Sys2Proof.Laws.Content

variable {s t u : State} {src n w : Nat} {v : Word} {r : Region}

/-- An entry as it is while it is in force (R52). -/
def inForce (r : Region) : Region := { r with active := true, err := 0, wasInForce := false, aliasBroken := false }

/-- An entry as it is after its VALID was cleared (R48, R57). -/
def released (r : Region) : Region := { r with active := false, err := 0, wasInForce := false, dlost := false, aliasBroken := false }

/-- An entry after a software write of word w at clock c: that of RGN_ATTR notes its cycle (R8, R44). -/
def stamped (w c : Nat) (r : Region) : Region := if w = 1 then { r with wrote := some c } else r

/-- The units of an entry's range. -/
def inRange (r : Region) (q : Nat) : Bool := decide (r.base ≤ q) && decide (q < r.base + r.size)

/-- Check code c of entry n has been reported (R50, R51): a notice, and nothing else but the region table and mirror states. -/
def Reports (s u : State) (n c : Nat) : Prop := ∃ t p, u = { s with
  out := [], regions := u.regions, flt := s.flt.enter (Note.words ⟨1, 0x04, n + c % 64 * 4096, none⟩), tap := t, pmc := p
  slv := { s.slv with rgns := u.slv.rgns } }

/-- Entry n reads x, and every other entry reads as before. -/
def Wrote (s u : State) (n : Nat) (x : Region) : Prop := u.region n = x ∧ ∀ k, k ≠ n → u.region k = s.region k

theorem modRegion_wrote (x : Region) (hwf : s.regions.wf {} = true) : Wrote s (s.modRegion n fun _ => x) n x :=
  ⟨region_set x n hwf, fun _ hk => region_ne x hk hwf⟩

theorem modRegion_wf (x : Region) (hwf : s.regions.wf {} = true) : (s.modRegion n fun _ => x).regions.wf {} = true :=
  Tbl.wf_set _ _ _ hwf

/-- No clean near-cache line of an entry's range is left (R41, R42). -/
def Swept (nc : Tbl NcWay) (r : Region) : Prop := ∀ k w, nc.get {} k = w → w.v = true → w.d = false →
  ncLine (k / 16 % 32768) w.tag < r.base * 32768 ∨ (r.base + r.size) * 32768 ≤ ncLine (k / 16 % 32768) w.tag

/-! ### The check (R604) -/

/-- A change to a field that only an entry with VALID = 0 may change is code 9 (R54). -/
theorem regionCheck_fixed (s : State) (n : Nat) {x r : Region} (h : x.fixedEq r = false) : s.regionCheck n (some x) r = 0x09 := by
  simp [State.regionCheck, h]

/-- A range that is empty or ends above the address space is code 2. -/
theorem regionCheck_outside (s : State) (n : Nat) (h : r.size = 0 ∨ 2 ^ 24 < r.base + r.size) : s.regionCheck n none r = 0x02 := by
  have h' : (r.size = 0 || decide (16777216 < r.base + r.size)) = true := by simpa using h
  unfold State.regionCheck
  simp only [h', Bool.false_eq_true, if_false, if_true]

/-- A failed check's notice changes the FIFO, the tapestry and counters. -/
theorem checkFail_eq (s : State) (c : Nat) (hn : n < 4096) : ∃ t p, s.checkFail n c
    = { s with flt := s.flt.enter (Note.words ⟨1, 0x04, n + c % 64 * 4096, none⟩), tap := t, pmc := p } := by
  obtain ⟨t, p, h⟩ := note_warn s (n := ⟨1, 0x04, n % 4096 + c % 64 * 4096, none⟩) (Nat.lt_succ_self 1)
  rw [Nat.mod_eq_of_lt hn] at h
  refine ⟨t, p, Eq.trans ?_ h⟩
  unfold State.checkFail
  rw [Nat.mod_eq_of_lt hn]

/-! ### Release and activation -/

/-- An entry after entry n left force: a SWATCH_ALIAS window in force over it is broken (R42). -/
def breakAlias (n : Nat) (x : Region) : Region :=
  if x.active && x.window = 3 && x.peer = n then { x with aliasBroken := true } else x

/-- Clearing VALID takes entry n out of force, drops the clean lines of its SWATCH_ALIAS window, breaks those over it, and no
more (R42, R48, R52, R57). -/
theorem release_eq (s : State) (n : Nat) (x : Region) (hwf : s.regions.wf {} = true) :
    ∃ R nc l, s.release n x = { s with regions := R, near := { s.near with nc := nc }, coh := { s.coh with lent := l } }
      ∧ ((s.region n).active = false ∨ (s.region n).window ≠ 3 → nc = s.near.nc ∧ l = s.coh.lent)
      ∧ R.wf {} = true ∧ R.get {} n = released x
      ∧ ∀ k, k ≠ n → R.get {} k = breakAlias n (s.region k) := by
  obtain ⟨nc, l, hlines, hkeep⟩ : ∃ nc l, (if (s.region n).active then s.dropAliasLines (s.region n) else s)
      = { s with near := { s.near with nc := nc }, coh := { s.coh with lent := l } }
      ∧ ((s.region n).active = false ∨ (s.region n).window ≠ 3 → nc = s.near.nc ∧ l = s.coh.lent) := by
    cases ha : (s.region n).active
    · exact ⟨s.near.nc, s.coh.lent, rfl, fun _ => ⟨rfl, rfl⟩⟩
    · obtain ⟨nc, l, hdrop, hkeep, -⟩ := alias_eq s (s.region n)
      exact ⟨nc, l, hdrop, fun h => hkeep (h.resolve_left (by decide))⟩
  have hT : (s.regions.set {} n (released x)).wf {} = true := Tbl.wf_set _ _ _ hwf
  have hget : ∀ k, ((s.regions.set {} n (released x)).mapVals {} fun _ => breakAlias n).get {} k
      = breakAlias n ((s.regions.set {} n (released x)).get {} k) :=
    fun k => get_mapVals_wf ({} : Region) (fun _ => breakAlias n) k rfl _ 0 hT
  refine ⟨(s.regions.set ({} : Region) n (released x)).mapVals {} fun _ => breakAlias n, nc, l, ?_, hkeep,
    wf_mapVals ({} : Region) (fun _ => breakAlias n) (s.regions.set {} n (released x)) 0 hT, ?_, fun k hk => ?_⟩
  · unfold State.release
    dsimp only
    rw [hlines]
    rfl
  · rw [hget, Tbl.get_set_eq _ _ n hwf]
    rfl
  · rw [hget, Tbl.get_set_ne _ _ hk hwf]
    rfl

/-- A mapped window lies neither in the pool nor over a swatch. -/
theorem mapped_window (h : r.mapped = true) : r.window ≠ 2 ∧ r.window ≠ 3 := by
  simp only [Region.mapped, Bool.or_eq_true, decide_eq_true_eq] at h
  omega

/-- A mapped entry that becomes ACTIVE afresh has its content dropped where INIT is ZERO, and its units bound (R52, R53). -/
theorem activate_mapped (s : State) (n : Nat) (h : r.mapped = true) : s.activate n r true
    = ((if r.initZero then (s.dropSwatches n).zeroUnits (inRange r) else s).bindUnits r).modRegion n fun _ => inForce r := by
  obtain ⟨h2, h3⟩ := mapped_window h
  unfold State.activate
  simp [h, h2, h3, State.dropAliasLines]
  rfl

/-- A SCRATCH entry without SCRATCH_KEEP becomes ACTIVE and changes nothing else (R52). -/
theorem activate_scratch (s : State) (n : Nat) (h : r.window = 2) (hk : r.keep = false) :
    s.activate n r true = s.modRegion n fun _ => inForce r := by
  unfold State.activate
  simp [Region.mapped, h, hk, State.dropAliasLines]
  rfl

/-- Without swatches none are dropped. -/
theorem dropSwatches_nil (n : Nat) (h : s.map.swatches = []) : s.dropSwatches n = s := by
  unfold State.dropSwatches
  rw [h]
  rfl

/-! ### A write to a region word -/

/-- Clearing VALID releases the entry. -/
theorem regionWrite_release (h : ((s.region n).putWord w v).valid = false) :
    s.regionWrite n w v = s.release n ((s.region n).putWord w v) := by
  simp [State.regionWrite, h]

/-- A write to an ACTIVE entry that its check refuses leaves the entry but for ERR (R50). -/
theorem regionWrite_refused (hv : ((s.region n).putWord w v).valid = true) (ha : (s.region n).active = true)
    (hc : s.regionCheck n (some (s.region n)) ((s.region n).putWord w v) ≠ 0) : s.regionWrite n w v
      = (s.modRegion n fun _ => { s.region n with err := s.regionCheck n (some (s.region n)) ((s.region n).putWord w v) }).checkFail n
        (s.regionCheck n (some (s.region n)) ((s.region n).putWord w v)) := by
  unfold State.regionWrite
  dsimp only
  rw [if_neg (by simp [hv]), if_pos ha, if_pos hc]
  rfl

/-- A write to an ACTIVE entry that its check allows takes effect (R54, R55). -/
theorem regionWrite_taken (hv : ((s.region n).putWord w v).valid = true) (ha : (s.region n).active = true)
    (hc : s.regionCheck n (some (s.region n)) ((s.region n).putWord w v) = 0) : s.regionWrite n w v
      = (s.dropAliasLines ((s.region n).putWord w v)).modRegion n fun _ => { (s.region n).putWord w v with err := 0, aliasBroken := false } := by
  simp [State.regionWrite, hv, ha, hc]

/-- A write that leaves VALID set in an entry that is not ACTIVE has the entry checked (R48). -/
theorem regionWrite_new (hv : ((s.region n).putWord w v).valid = true) (ha : (s.region n).active = false) :
    s.regionWrite n w v = s.checkNew n ((s.region n).putWord w v) := by
  simp [State.regionWrite, hv, ha]

/-- An entry that fails its check stays inactive with the code (R50). -/
theorem checkNew_fails (hc : s.regionCheck n none r ≠ 0) : s.checkNew n r
    = (s.modRegion n fun _ => { r with err := s.regionCheck n none r, active := false }).checkFail n (s.regionCheck n none r) := by
  simp [State.checkNew, hc]

/-- An entry with INIT = KEEP waits for the binding comparison (R48, R53). -/
theorem checkNew_pends (hc : s.regionCheck n none r = 0) (hf : r.wasInForce = false) (hm : r.mapped = true) (hi : r.initZero = false) :
    s.checkNew n r = s.modRegion n fun _ => { r with err := 0x0A, active := false } := by
  simp [State.checkNew, hc, hf, hm, hi]

/-- Any other entry becomes ACTIVE at once. -/
theorem checkNew_activates (hc : s.regionCheck n none r = 0) (hf : r.wasInForce = false) (hm : r.mapped = false ∨ r.initZero = true) :
    s.checkNew n r = s.activate n r true := by
  have hm' : (r.mapped && ! r.initZero) = false := by rcases hm with hm | hm <;> simp [hm]
  simp [State.checkNew, hc, hf, hm']

/-- Writing a word leaves the entry's history. -/
theorem putWord_wasInForce (r : Region) (w : Nat) (v : Word) : (r.putWord w v).wasInForce = r.wasInForce := by
  unfold Region.putWord; split <;> rfl

/-! ### The command -/

/-- Where no seal is pending and the selvedge is off, a change of entry n ends with its mirror state (R440). -/
theorem mirror_ends (old : Region) (hs : t.rng.seals = []) (hp : t.slv.pair = .off) :
    ∃ G, (t.mirrorChanged n old).checkSeals = { t with slv := { t.slv with rgns := G } } := by
  obtain ⟨G, h⟩ := mirror_off (n := n) old hs hp
  refine ⟨G, ?_⟩
  rw [h, checkSeals_nil (by exact hs)]

section
variable (hon : s.on = true) (hr : s.reaches src = true) (hn : n < 4096) (hw : w < 4)
include hon hr hn hw

/-- A write to the region table by the management side, with its software rules and its mirror state. -/
theorem rgnWrite_acts (hm : s.isMgmt src = true) (ht : s.hush.softRegionWrite n w v = t) (hs : t.rng.seals = []) (hp : t.slv.pair = .off)
    {p : State → Prop} (h : ∀ G, p { t with slv := { t.slv with rgns := G } }) : Completes (.rgnWrite src n w v) s p := by
  refine completes_of hon (show exec _ s = execRgnWrite src n w v s from rfl) ?_
  have hguard : (s.hush.reaches src && decide (n < 4096) && decide (w < 4)) = true := by simp [hr, hn, hw]
  rw [hguard, when_true, if_pos (by exact hm), ht]
  obtain ⟨G, hG⟩ := mirror_ends (t := t) (n := n) (s.hush.region n) hs hp
  rw [hG]
  exact h G

/-- Outside the cycle of a takeover, a write by the management side completes with what it does to the table and, where it is of
RGN_ATTR, with its cycle (R8, R44). -/
theorem rgnWrite_settles (hm : s.isMgmt src = true) (htook : w = 1 → (s.region n).took ≠ some s.clock)
    (ht : s.hush.regionWrite n w v = t) (hwf : t.regions.wf {} = true) (hs : t.rng.seals = []) (hp : t.slv.pair = .off)
    {p : State → Prop} (h : ∀ R G, R.get {} n = stamped w s.clock (t.region n) → (∀ k, k ≠ n → R.get {} k = t.region k) →
      p { t with regions := R, slv := { t.slv with rgns := G } }) : Completes (.rgnWrite src n w v) s p := by
  obtain ⟨R, hsoft, hsame, hother⟩ := soft_eq (s := s.hush) ht hwf htook
  exact rgnWrite_acts hon hr hn hw hm hsoft hs hp fun G => h R G hsame hother

/-- A write by any other source posts an ACCESS notice and does no more (R31, R80). -/
theorem rgnWrite_denied (hm : s.isMgmt src = false) : Completes (.rgnWrite src n w v) s fun u => ∃ t p, u = { s with
    out := [], tap := t, pmc := p
    flt := s.flt.enter (Note.words ⟨1, 0x03, src % 32 + n * 32 + 2 ^ 18, some (regArgInd (0x10000 + 4 * n + w))⟩) } := by
  refine completes_of hon (show exec _ s = execRgnWrite src n w v s from rfl) ?_
  have hguard : (s.hush.reaches src && decide (n < 4096) && decide (w < 4)) = true := by simp [hr, hn, hw]
  have hm' : ¬ s.hush.isMgmt src = true := by rw [hush_isMgmt, hm]; decide
  rw [hguard, when_true, if_neg hm']
  obtain ⟨t, p, h⟩ := note_warn s.hush
    (n := ⟨1, 0x03, src % 32 + n * 32 + 2 ^ 18, some (regArgInd (0x10000 + 4 * n + w))⟩) (Nat.lt_succ_self 1)
  refine ⟨t, p, Eq.trans ?_ h⟩
  have harg : src % 32 + n % 4096 * 32 + 2 % 16 * 2 ^ 17 = src % 32 + n * 32 + 2 ^ 18 := by omega
  unfold State.access
  rw [harg]

section
variable (hm : s.isMgmt src = true) (hwf : s.regions.wf {} = true) (htook : w = 1 → (s.region n).took ≠ some s.clock)
include hm hwf htook

/-- A write whose effect is that entry n holds x, beside changes of its state a that leave the table, seals and the selvedge. -/
theorem rgnWrite_wrote {a : State} {x : Region} (ht : s.hush.regionWrite n w v = a.modRegion n fun _ => x) (hreg : a.regions = s.regions)
    (hs : a.rng.seals = []) (hp : a.slv.pair = .off) {p : State → Prop}
    (h : ∀ R G, R.get {} n = stamped w s.clock x → (∀ k, k ≠ n → R.get {} k = s.region k) →
      p { a with regions := R, slv := { a.slv with rgns := G } }) : Completes (.rgnWrite src n w v) s p := by
  have hwfa : a.regions.wf {} = true := by rw [hreg]; exact hwf
  refine rgnWrite_settles hon hr hn hw hm htook ht (modRegion_wf x hwfa) hs hp fun R G hsame hother => h R G ?_ fun k hk => ?_
  · rw [hsame, region_set x n hwfa]
  · rw [hother k hk, region_ne x hk hwfa]
    exact congrArg (fun T : Tbl Region => T.get {} k) hreg

/-- A write that fails its check reports the code, and entry n holds x with it. -/
theorem rgnWrite_reports {x : Region} {c : Nat} (hs : s.rng.seals = []) (hp : s.slv.pair = .off)
    (ht : s.hush.regionWrite n w v = (s.hush.modRegion n fun _ => x).checkFail n c) :
    Completes (.rgnWrite src n w v) s fun u => Reports s u n c ∧ Wrote s u n (stamped w s.clock x) := by
  obtain ⟨t, p, hfail⟩ := checkFail_eq (s.hush.modRegion n fun _ => x) c hn
  have hwfx : (s.hush.modRegion n fun _ => x).regions.wf {} = true := modRegion_wf x hwf
  refine rgnWrite_settles hon hr hn hw hm htook (ht.trans hfail) hwfx hs hp fun R G hsame hother => ⟨⟨t, p, rfl⟩, ?_, fun k hk => ?_⟩
  · exact hsame.trans (congrArg _ (region_set (s := s.hush) x n hwf))
  · exact (hother k hk).trans (region_ne (s := s.hush) x hk hwf)

/-- Clearing VALID (R48, R57). -/
theorem rgnWrite_releases (hs : s.rng.seals = []) (hp : s.slv.pair = .off) (hv : ((s.region n).putWord w v).valid = false) :
    Completes (.rgnWrite src n w v) s fun u =>
      u = { s with out := [], regions := u.regions, near := { s.near with nc := u.near.nc }, coh := { s.coh with lent := u.coh.lent }
                   slv := { s.slv with rgns := u.slv.rgns } }
      ∧ ((s.region n).active = false ∨ (s.region n).window ≠ 3 → u.near.nc = s.near.nc ∧ u.coh.lent = s.coh.lent)
      ∧ u.region n = stamped w s.clock (released ((s.region n).putWord w v))
      ∧ ∀ k, k ≠ n → u.region k = breakAlias n (s.region k) := by
  obtain ⟨R, nc, l, hrel, hkeep, hRwf, hRn, hRk⟩ := release_eq s.hush n ((s.region n).putWord w v) hwf
  refine rgnWrite_settles hon hr hn hw hm htook ((regionWrite_release (s := s.hush) hv).trans hrel) hRwf hs hp
    fun R' G hsame hother => ⟨rfl, hkeep, ?_, fun k hk => (hother k hk).trans (hRk k hk)⟩
  exact hsame.trans (congrArg _ hRn)

/-- A write to an ACTIVE entry that its check allows takes effect, and drops the clean lines of the range of a SWATCH_ALIAS window
(R41, R54, R55). -/
theorem rgnWrite_takes (hs : s.rng.seals = []) (hp : s.slv.pair = .off) (hv : ((s.region n).putWord w v).valid = true)
    (ha : (s.region n).active = true) (hc : s.regionCheck n (some (s.region n)) ((s.region n).putWord w v) = 0) :
    Completes (.rgnWrite src n w v) s fun u =>
      u = { s with out := [], regions := u.regions, near := { s.near with nc := u.near.nc }, coh := { s.coh with lent := u.coh.lent }
                   slv := { s.slv with rgns := u.slv.rgns } }
      ∧ (((s.region n).putWord w v).window ≠ 3 → u.near.nc = s.near.nc ∧ u.coh.lent = s.coh.lent)
      ∧ (((s.region n).putWord w v).window = 3 → Swept u.near.nc ((s.region n).putWord w v))
      ∧ Wrote s u n (stamped w s.clock { (s.region n).putWord w v with err := 0, aliasBroken := false }) := by
  have ht := regionWrite_taken (s := s.hush) hv ha hc
  obtain ⟨nc, l, hdrop, hkeep, hsweep⟩ := alias_eq s.hush ((s.region n).putWord w v)
  rw [hush_region, hdrop] at ht
  exact rgnWrite_wrote hon hr hn hw hm hwf htook ht rfl hs hp fun R G hsame hother => ⟨rfl, hkeep, hsweep, hsame, hother⟩

/-- A write after which entry n alone has changed. -/
theorem rgnWrite_sets (hs : s.rng.seals = []) (hp : s.slv.pair = .off) {x : Region}
    (ht : s.hush.regionWrite n w v = s.hush.modRegion n fun _ => x) : Completes (.rgnWrite src n w v) s fun u =>
      u = { s with out := [], regions := u.regions, slv := { s.slv with rgns := u.slv.rgns } } ∧ Wrote s u n (stamped w s.clock x) :=
  rgnWrite_wrote hon hr hn hw hm hwf htook ht rfl hs hp fun _ _ hsame hother => ⟨rfl, hsame, hother⟩

/-- A write that puts an entry with INIT = ZERO in force: its pages read as zeros, and its units take its DURABLE and KEY (R52, R53). -/
theorem rgnWrite_zeroes (hs : s.rng.seals = []) (hp : s.slv.pair = .off) (hwb : s.near.wb = []) (hsw : s.map.swatches = [])
    (hpw : s.map.pages.wf {} = true) (huw : s.map.units.wf {} = true) (hmap : r.mapped = true) (hi : r.initZero = true)
    (ht : s.hush.regionWrite n w v = s.hush.activate n r true) : Completes (.rgnWrite src n w v) s fun u =>
      u.region n = stamped w s.clock (inForce r) ∧ (∀ k, k ≠ n → u.region k = s.region k)
      ∧ ∀ q, r.base ≤ q → q < r.base + r.size → (u.unit q).binding = ⟨true, r.durable, r.key⟩ ∧ ∀ pn, pn / 512 = q → u.page pn = {} := by
  rw [activate_mapped s.hush n hmap, if_pos hi, dropSwatches_nil n (by exact hsw)] at ht
  obtain ⟨ne, ln, d, b, m, hz, -, hmu, hmp⟩ := zeroUnits_eq s.hush (inRange r) hs hwb
  obtain ⟨b', p, hb, -, hbind⟩ := bind_eq (s.hush.zeroUnits (inRange r)) r
  rw [hb, hz] at ht
  rw [hz] at hbind
  refine rgnWrite_wrote hon hr hn hw hm hwf htook ht rfl hs hp fun R G hsame hother => ⟨hsame, hother, fun q hlo hhi => ⟨?_, ?_⟩⟩
  · exact (hbind (hmu huw) q).trans (if_pos ⟨hlo, hhi⟩)
  · rintro pn rfl
    exact hmp hpw pn (by simp [inRange, hlo, hhi])

end

/-- A write to RGN_ATTR of an entry in force in the cycle of a takeover takes effect but for WINDOW, which it leaves, and a notice tells so
(R8, R44). -/
theorem rgnWrite_loses (hm : s.isMgmt src = true) (hwf : s.regions.wf {} = true) (hs : s.rng.seals = []) (hp : s.slv.pair = .off)
    {x : Region} (hx : (s.region n).putWord 1 (putFld v 12 3 (s.region n).window) = x) (hw1 : w = 1)
    (htook : (s.region n).took = some s.clock) (ha : (s.region n).active = true) (hv : x.valid = true)
    (hc : s.regionCheck n (some (s.region n)) x = 0) (h3 : x.window ≠ 3) : Completes (.rgnWrite src n w v) s fun u =>
      (∃ t p, u = { s with out := [], regions := u.regions, tap := t, pmc := p, slv := { s.slv with rgns := u.slv.rgns }
                           flt := s.flt.enter (Note.words ⟨1, 0x02, regArgInd (0x10001 + 4 * n), none⟩) })
      ∧ Wrote s u n { x with err := 0, aliasBroken := false } := by
  subst hx hw1
  have htaken := regionWrite_taken (s := s.hush) (w := 1) (v := putFld v 12 3 (s.region n).window) hv ha hc
  obtain ⟨y, hy⟩ : ∃ y : Region, y = { (s.region n).putWord 1 (putFld v 12 3 (s.region n).window) with err := 0, aliasBroken := false } := ⟨_, rfl⟩
  have hdrop : s.hush.dropAliasLines ((s.region n).putWord 1 (putFld v 12 3 (s.region n).window)) = s.hush := if_pos h3
  rw [hush_region, hdrop, ← hy] at htaken
  have hsoft : s.hush.softRegionWrite n 1 v = (s.hush.regionWrite n 1 (putFld v 12 3 (s.region n).window)).writeLost n := by
    simp [State.softRegionWrite, htook]
  obtain ⟨t, p, hnote⟩ := note_warn (s.hush.modRegion n fun _ => y) (n := ⟨1, 0x02, regArgInd (0x10001 + 4 * n), none⟩) (Nat.lt_succ_self 1)
  rw [htaken] at hsoft
  rw [← hy]
  exact rgnWrite_acts hon hr hn hw hm (hsoft.trans hnote) hs hp fun G => ⟨⟨t, p, rfl⟩, modRegion_wrote (s := s.hush) y hwf⟩

end

/-! ### The binding comparison and DLOST -/

/-- The comparison of an entry that does not wait for it has no effect. -/
theorem compareDone_idle (hon : s.on = true) (h : (s.region n).valid = false ∨ (s.region n).active = true ∨ (s.region n).err ≠ 0x0A) :
    Yields (.rgnBindingCompareDone n) s s.hush := by
  refine yields_of hon (show exec _ s = execRgnBindingCompareDone n s from rfl) ?_
  have hguard : ((s.region n).valid && ! (s.region n).active && decide ((s.region n).err = 0x0A)) = false := by
    rcases h with h | h | h <;> simp [h]
  exact congrArg (fun b => s.hush.when b _) hguard

section
variable (hon : s.on = true) (hr : s.region n = r) (hv : r.valid = true) (ha : r.active = false) (he : r.err = 0x0A)
  (hc : s.regionCheck n none r = 0)
include hon hr hv ha he hc

/-- What the end of the comparison does to a PENDING entry that passes its check (R48, R53). -/
theorem compareDone_acts {p : State → Prop} (h : p (if s.keepMismatch r then (s.hush.modRegion n fun _ => { r with err := 6 }).checkFail n 6
    else (s.hush.activate n r true).mirrorChanged n r)) : Completes (.rgnBindingCompareDone n) s p := by
  refine completes_of hon (show exec _ s = execRgnBindingCompareDone n s from rfl) ?_
  have hc' : s.hush.regionCheck n none r = 0 := hc
  have hguard : (r.valid && ! r.active && decide (r.err = 0x0A)) = true := by simp [hv, ha, he]
  dsimp only
  rw [hush_region, hr, hguard, when_true, hc']
  cases hk : s.keepMismatch r <;> rw [hk] at h
  · have hk' : s.hush.keepMismatch r = false := hk
    simpa [hk'] using h
  · have hk' : s.hush.keepMismatch r = true := hk
    have herr : (s.hush.modRegion n fun x => { x with err := 6 }) = s.hush.modRegion n fun _ => { r with err := 6 } := by rw [← hr]; rfl
    simpa [hk', herr] using h

/-- A binding that does not match is reported, and the entry stays inactive (R53). -/
theorem compareDone_mismatch (hn : n < 4096) (hwf : s.regions.wf {} = true) (hk : s.keepMismatch r = true) :
    Completes (.rgnBindingCompareDone n) s fun u => Reports s u n 6 ∧ Wrote s u n { r with err := 6 } := by
  refine compareDone_acts hon hr hv ha he hc ?_
  rw [if_pos hk]
  obtain ⟨t, p, hfail⟩ := checkFail_eq (s.hush.modRegion n fun _ => { r with err := 6 }) 6 hn
  rw [hfail]
  exact ⟨⟨t, p, rfl⟩, modRegion_wrote (s := s.hush) _ hwf⟩

/-- An entry whose units' bindings match comes into force with its content, and its units take its DURABLE and KEY (R52, R53). -/
theorem compareDone_match (hs : s.rng.seals = []) (hp : s.slv.pair = .off) (hwf : s.regions.wf {} = true) (huw : s.map.units.wf {} = true)
    (hk : s.keepMismatch r = false) (hmap : r.mapped = true) (hi : r.initZero = false) : Completes (.rgnBindingCompareDone n) s fun u =>
      u = { s with
        out := [], regions := u.regions, slv := { s.slv with rgns := u.slv.rgns }, map := { s.map with units := u.map.units }
        beam := { s.beam with
          deltas := u.beam.deltas, deltaAt := u.beam.deltaAt, coldUnits := u.beam.coldUnits, cold := { s.beam.cold with pages := u.beam.cold.pages } } }
      ∧ u.region n = inForce r ∧ (∀ k, k ≠ n → u.region k = s.region k)
      ∧ ∀ q, (u.unit q).binding = if r.base ≤ q ∧ q < r.base + r.size then ⟨true, r.durable, r.key⟩ else (s.unit q).binding := by
  refine compareDone_acts hon hr hv ha he hc ?_
  rw [if_neg (by simp [hk]), activate_mapped s.hush n hmap, if_neg (by simp [hi])]
  obtain ⟨b, p, hb, hcold, hbind⟩ := bind_eq s.hush r
  rw [hb]
  obtain ⟨G, hG⟩ := mirror_off (s := State.modRegion { s.hush with map := { s.hush.map with units := p }, beam := b } n fun _ => inForce r)
    (n := n) r hs hp
  rw [hG]
  obtain ⟨hsame, hother⟩ := modRegion_wrote (s := s.hush) (n := n) (inForce r) hwf
  refine ⟨?_, hsame, hother, hbind huw⟩
  exact congrArg (fun x : Beam => ({ s with
    out := [], regions := s.regions.set {} n (inForce r), slv := { s.slv with rgns := G }, map := { s.map with units := p }, beam := x } : State)) hcold

end

/-- DLOST clears once no page of the region is dirty (R57). -/
theorem dlostClear_clears (hon : s.on = true) (hd : (s.region n).dlost = true) (hc : s.regionDirty (s.region n) = false) :
    Yields (.dlostClear n) s (s.hush.modRegion n fun _ => { s.region n with dlost := false }) := by
  refine yields_of hon (show exec _ s = execDlostClear n s from rfl) ?_
  have hguard : ((s.region n).dlost && ! s.regionDirty (s.region n)) = true := by simp [hd, hc]
  exact congrArg (fun b => s.hush.when b _) hguard

/-- Before that, and where it is clear, nothing happens (R57). -/
theorem dlostClear_waits (hon : s.on = true) (h : (s.region n).dlost = false ∨ s.regionDirty (s.region n) = true) :
    Yields (.dlostClear n) s s.hush := by
  refine yields_of hon (show exec _ s = execDlostClear n s from rfl) ?_
  have hguard : ((s.region n).dlost && ! s.regionDirty (s.region n)) = false := by rcases h with h | h <;> simp [h]
  exact congrArg (fun b => s.hush.when b _) hguard

/-! ### The obligation -/

/-- Settles O50: who may write, then the three outcomes of VALID, a write in the cycle of a takeover, the end of the binding comparison, and
DLOST. -/
theorem regionEntriesComeAndGo : Obligations.RegionEntriesComeAndGo := by
  unfold Obligations.RegionEntriesComeAndGo
  intro s src n w v hon hr hn hw hwf r r1 mark reports
  refine ⟨rgnWrite_denied hon hr hn hw, fun hm hs hp htook => ⟨?release, fun c hv ha hc => ⟨?fixed, ?refused, ?taken⟩,
    fun c hv ha hc => ⟨?outside, ?failed, ?pends, ?zeroes, ?scratch⟩⟩, ?takeover, ?compare, compareDone_idle hon,
    dlostClear_clears hon, dlostClear_waits hon⟩
  case release => exact rgnWrite_releases hon hr hn hw hm hwf htook hs hp
  case fixed => exact fun h => hc.trans (regionCheck_fixed s n h)
  case refused =>
    intro h0
    subst hc
    exact rgnWrite_reports hon hr hn hw hm hwf htook hs hp (regionWrite_refused (s := s.hush) hv ha h0)
  case taken => exact fun h0 => rgnWrite_takes hon hr hn hw hm hwf htook hs hp hv ha (hc.symm.trans h0)
  case outside => exact fun h => hc.trans (regionCheck_outside s n h)
  case failed =>
    intro h0
    subst hc
    exact rgnWrite_reports hon hr hn hw hm hwf htook hs hp ((regionWrite_new (s := s.hush) hv ha).trans (checkNew_fails h0))
  case pends =>
    intro h0 hf hmap hi
    exact rgnWrite_sets hon hr hn hw hm hwf htook hs hp ((regionWrite_new (s := s.hush) hv ha).trans
      (checkNew_pends (hc.symm.trans h0) ((putWord_wasInForce _ _ _).trans hf) hmap hi))
  case zeroes =>
    intro h0 hf hmap hi hwb hsw _ hpw huw
    exact rgnWrite_zeroes hon hr hn hw hm hwf htook hs hp hwb hsw hpw huw hmap hi ((regionWrite_new (s := s.hush) hv ha).trans
      (checkNew_activates (hc.symm.trans h0) ((putWord_wasInForce _ _ _).trans hf) (.inr hi)))
  case scratch =>
    intro h0 hf hwin hmap hkeep
    exact rgnWrite_sets hon hr hn hw hm hwf htook hs hp (((regionWrite_new (s := s.hush) hv ha).trans
      (checkNew_activates (hc.symm.trans h0) ((putWord_wasInForce _ _ _).trans hf) (.inl hmap))).trans
        (activate_scratch s.hush n hwin hkeep))
  case takeover =>
    intro hm hs hp hw1 htook ha r2 hv hc h3
    obtain ⟨u, hu, ⟨t, p, hframe⟩, hsame, hother⟩ := rgnWrite_loses hon hr hn hw hm hwf hs hp rfl hw1 htook ha hv hc h3
    refine ⟨u, hu, ?_, hsame, kept_window r v, hother⟩
    rw [hframe]
  case compare =>
    intro hs hp hv ha he hc
    exact ⟨compareDone_mismatch hon rfl hv ha he hc hn hwf,
      fun hk hmap hi _ _ huw => compareDone_match hon rfl hv ha he hc hs hp hwf huw hk hmap hi⟩

end Sys2Proof.Proofs.Regions
end

