-- ==== Sys2Proof/Proofs/Restore.lean ====
section
/-! PROOF. The cold restore (R29, R292, R308, R361, R362, R364, R572 to R574): the drives found, the assembly of the recorded set, step 6,
memory active, first-time initialisation, and obligation O49. -/
namespace Sys2Proof.Proofs.Restore
open Sys2Proof Sys2Proof.Machine Sys2Proof.Laws Sys2Proof.Laws.Appends Sys2Proof.Laws.Content Sys2Proof.Proofs.Regions

variable {s : State} {ds : List DriveReport} {id : Word} {n : Nat} {r : Region}

/-! ### The drives found (R572) -/

/-- Usable drives of one set. -/
def OfSet (ds : List DriveReport) (id : Word) : Prop := ∀ d ∈ ds, usable d = true ∧ d.blank = false ∧ d.setId = id

/-- Usable drives without content. -/
def AllBlank (ds : List DriveReport) : Prop := ∀ d ∈ ds, usable d = true ∧ d.blank = true

theorem setDrives_ofSet (h : OfSet ds id) : setDrives ds id = ds := by
  refine List.filter_eq_self.mpr fun d hd => ?_
  obtain ⟨hu, hb, hid⟩ := h d hd
  simp [hu, hb, hid]

theorem blankDrives_allBlank (h : AllBlank ds) : blankDrives ds = ds := by
  refine List.filter_eq_self.mpr fun d hd => ?_
  obtain ⟨hu, hb⟩ := h d hd
  simp [hu, hb]

/-- Blank drives belong to no set. -/
theorem setIds_allBlank (h : AllBlank ds) : setIds ds = [] := by
  have hnone : (ds.filter fun d => usable d && ! d.blank) = [] := List.filter_eq_nil_iff.mpr fun d hd => by simp [(h d hd).2]
  unfold setIds
  rw [hnone]
  rfl

/-- Drives that are blank or of the set in use give no notice (R266, R308). -/
theorem driveNotices_quiet (h : ∀ d ∈ ds, usable d = true ∧ (d.blank = true ∨ d.setId = id)) : s.driveNotices ds id = s := by
  unfold State.driveNotices
  induction ds with
  | nil => rfl
  | cons d ds ih =>
    obtain ⟨hu, hb⟩ := h d List.mem_cons_self
    have hfirst : (! d.blank && decide (d.setId ≠ id)) = false := by rcases hb with hb | hb <;> simp [hb]
    rw [List.foldl_cons]
    simp only [hu, hfirst, Bool.not_true, Bool.false_eq_true, if_false]
    exact ih fun x hx => h x (List.mem_cons_of_mem _ hx)

theorem driveNotices_ofSet (h : OfSet ds id) : s.driveNotices ds id = s :=
  driveNotices_quiet fun d hd => ⟨(h d hd).1, .inr (h d hd).2.2⟩

theorem driveNotices_allBlank (h : AllBlank ds) : s.driveNotices ds id = s :=
  driveNotices_quiet fun d hd => ⟨(h d hd).1, .inl (h d hd).2⟩

/-- Seven blank drives under the BEAM_INIT strap are due for first-time initialisation (R572). -/
theorem initDue_allBlank (h : AllBlank ds) (h7 : 7 ≤ ds.length) (hi : s.glb.straps.beamInit = true) : s.initDue ds = true := by
  unfold State.initDue
  rw [hi, setIds_allBlank h, blankDrives_allBlank h]
  simpa using h7

/-! ### Assembly (R308) -/

/-- The device restores and has no beam yet, nor does it wait for drives. -/
structure Seeking (s : State) : Prop where
  st : s.vlt.st = .restore
  active : s.vlt.active = false
  beam : s.beam.setId = 0
  waiting : s.beam.waiting = false
  steward : s.glb.steward = true

theorem Seeking.beamless (h : Seeking s) : s.beamless = true := by
  simp [State.beamless, h.st, h.active, h.beam, h.steward]

theorem beamless_of_set (h : s.beam.setId ≠ 0) : s.beamless = false := by
  simp [State.beamless, show s.beam.setId ≠ 0#64 from h]

/-- Without a beam, assembly goes on with the drives found. -/
theorem beamAssemble_assembles (hon : s.on = true) (h : Seeking s) (ds : List DriveReport) :
    Yields (.beamAssemble ds) s (s.hush.assemble ds) := by
  refine yields_of hon (show exec _ s = execBeamAssemble ds s from rfl) ?_
  have hguard : (s.beamless && ! s.beam.waiting) = true := by simp [h.beamless, h.waiting]
  exact congrArg (fun b => s.hush.when b _) hguard

/-- With a beam, while waiting for drives, and without the steward, it does nothing. -/
theorem beamAssemble_idle (hon : s.on = true) (ds : List DriveReport)
    (h : s.beam.setId ≠ 0 ∨ s.beam.waiting = true ∨ s.glb.steward = false) : Yields (.beamAssemble ds) s s.hush := by
  refine yields_of hon (show exec _ s = execBeamAssemble ds s from rfl) ?_
  have hguard : (s.beamless && ! s.beam.waiting) = false := by
    rcases h with h | h | h
    · simp [beamless_of_set h]
    · simp [h]
    · simp [State.beamless, h]
  exact congrArg (fun b => s.hush.when b _) hguard

/-- Drives of the recorded set are assembled where 7 slots are there under the device's own wrap, else the device waits (R308, R572). -/
theorem assemble_recorded (hid : s.boot.setId = id) (h0 : id ≠ 0) (hne : ds ≠ []) (h : OfSet ds id) :
    s.assemble ds = if 7 ≤ (s.setSlots ds id).length && s.sec.wrap.ours then s.assembleSet ds id
      else s.incomplete (s.setSlots ds id).length := by
  have hrel : s.released ds = false := by
    simp [State.released, hid, setDrives_ofSet h, hne]
  unfold State.assemble State.choose
  simp only [hrel, hid, Bool.false_eq_true, if_false, ne_eq, h0, not_false_eq_true, if_true, driveNotices_ofSet h]

/-- Waiting for drives posts a notice with the slots present (R308). -/
theorem incomplete_eq (s : State) (n : Nat) : ∃ t p hs o, s.incomplete n = { s with
    out := o, heads := hs, tap := t, pmc := p, beam := { s.beam with waiting := true }
    flt := s.flt.enter (Note.words ⟨2, 0x1D, n, none⟩) } := by
  obtain ⟨t, p, hs, o, h⟩ := note_cases s ⟨2, 0x1D, n, none⟩
  refine ⟨t, p, hs, o, ?_⟩
  unfold State.incomplete
  rw [h]

/-- An entry of the restored table before it is checked (R29). -/
def restoredEntry (r : Region) : Region :=
  { r with active := false, err := 0, wasInForce := r.active || r.wasInForce, aliasBroken := false }

/-- Assembling a set whose newest commit record covers every segment in use takes the beam, the table, the map's directory and the keys
from that record (R292, R308, R361). -/
theorem assembleSet_eq {c : Commit} (hc : s.selectCommit id = some c) (hseg : ∀ e ∈ s.beam.segs, e.2.st = .free ∨ e.2.seq < c.seqNext) :
    ∃ o g sw tk rg se ps sec vlt, s.assembleSet ds id = { s with
        out := o, sec := sec, vlt := vlt
        beam := s.beam.assembled ds id (s.setSlots ds id) c
        regions := c.regions.mapVals {} fun _ => restoredEntry
        map := { s.map with units := c.base.directory, gens := g, swatches := sw, takes := tk }
        slv := { s.slv with rgns := rg, session := se, peerSet := ps } }
      ∧ sec.bkek = some s.sec.wrap.bkek ∧ sec.salts = s.sec.wrap.salts ∧ vlt.active = s.vlt.active := by
  have hlost : (s.beam.segs.any fun e => decide (e.2.st ≠ .free) && decide (c.seqNext ≤ e.2.seq)) = false := by
    refine List.any_eq_false.mpr fun e he => ?_
    rcases hseg e he with h | h <;> simp [h]
  unfold State.assembleSet
  simp only [hc, Option.getD_some, hlost, Bool.false_eq_true, if_false]
  obtain ⟨o, ho⟩ := ups _ up_eq (s.setSlots ds id) _
  exact ⟨o, _, _, _, _, _, _, _, _, ho, rfl, rfl, rfl⟩

/-- With SET_RELEASE strapped and no drive of the recorded set, the record is cleared, and without drives the device waits (R573). -/
theorem assemble_releases (hset : s.glb.straps.setRelease = true) (h0 : s.boot.setId ≠ 0) :
    (s.assemble []).boot = { s.boot.keep 0 with setId := 0 } ∧ (s.assemble []).beam.waiting = true
      ∧ (s.assemble []).beam.setId = s.beam.setId := by
  have hrel : s.released [] = true := by simp [State.released, hset, show s.boot.setId ≠ 0#64 from h0, setDrives]
  have hdue : ∀ t : State, t.initDue [] = false := fun t => by simp [State.initDue, setIds, blankDrives]
  obtain ⟨t, ht⟩ : ∃ t : State, t = { s with boot := { s.boot.keep 0 with setId := 0 } } := ⟨_, rfl⟩
  have h : s.assemble [] = { t.incomplete 0 with beam := { (t.incomplete 0).beam with found := [] } } := by
    unfold State.assemble
    rw [hrel, if_pos rfl, ← ht]
    unfold State.choose
    have ht0 : t.boot.setId = 0 := by rw [ht]
    simp [ht0, hdue, setIds, State.driveNotices]
  obtain ⟨_, _, _, _, hi⟩ := incomplete_eq t 0
  rw [h, hi, ht]
  exact ⟨rfl, rfl, rfl⟩

/-- Blank drives that are due for initialisation are noted (R572). -/
theorem assemble_blank (h0 : s.boot.setId = 0) (hi : s.glb.straps.beamInit = true) (h7 : 7 ≤ ds.length) (h : AllBlank ds) :
    s.assemble ds = { s with beam := { s.beam with found := ds } } := by
  have hrel : s.released ds = false := by simp [State.released, h0]
  unfold State.assemble State.choose
  simp [hrel, h0, initDue_allBlank h h7 hi, driveNotices_allBlank h]

/-! ### First-time initialisation (R574) -/

/-- Writing the root pages writes the log alone. -/
theorem writeRoots_logged (s : State) : Logged s s.writeRoots := by
  obtain ⟨pc, pw, au, o, rd, ou, sg, bf, rc, sn, dl, h⟩ :=
    (Logged.fold (fun (s : State) i => s.appendMap none 2 i) (fun s i => logged_map s none 2 i) (List.range s.beam.rootCount) s).trans
      (logged_stripe _ 3)
  unfold State.writeRoots
  dsimp only
  rw [h]
  exact ⟨pc, pw, au, o, rd, [], sg, bf, _, sn, dl, rfl⟩

/-- What initialisation leaves (R574): memory is active on a new set under new keys, with commit record 1 in force and no region, swatch
or salt in it. -/
structure Initialised (s u : State) : Prop where
  active : u.vlt.active = true
  st : u.vlt.st = if s.vlt.braceOn then .brace else .run
  setId : u.beam.setId ≠ 0
  recorded : u.boot.setId = u.beam.setId
  sbgen : u.beam.sbgen = 2
  cseq : u.beam.cseq = 1
  seqNext : u.beam.seqNext = 2
  boot : u.beam.commit = u.boot.commit
  commit : ∃ c, u.beam.commit = some c ∧ c.cseq = 1 ∧ c.kind = .checkpoint ∧ c.seqNext = 2 ∧ c.regions = [] ∧ c.gens = [] ∧ c.swatches = []
  salts : u.sec.salts = []
  bkek : u.sec.bkek = some u.sec.wrap.bkek
  custodian : u.sec.wrap.custodian = s.boot.custodian
  ours : u.sec.wrap.ours = true
  regions : u.regions = s.regions

theorem initBeam_initialised (ho : s.vlt.outcome ≠ 2) (hh : s.vlt.held = []) : Initialised s (s.initBeam ds) := by
  unfold State.initBeam
  dsimp only
  generalize (setIds ds).flatMap (setDrives ds) ++ blankDrives ds = use
  obtain ⟨b, o, hfmt, hid, hgen⟩ := fmt s.draw.2.draw.2 use (drawnSet s.draw.1)
  obtain ⟨pc, pw, au, o', rd, ou, sg, bf, rc, sn, dl, hroots⟩ := writeRoots_logged (s.draw.2.draw.2.formatted use (drawnSet s.draw.1))
  rw [hroots, hfmt, active_eq (by exact ho) (by exact hh)]
  have hset : b.setId ≠ 0 := by rw [hid]; exact drawn _
  exact ⟨rfl, rfl, hset, hid.symm, hgen, rfl, rfl, rfl, ⟨_, rfl, rfl, rfl, rfl, rfl, rfl, rfl⟩, rfl, rfl, rfl, rfl, rfl⟩

/-- Initialisation with the drives that were found due for it. -/
theorem firstTimeInit_yields (hon : s.on = true) (hs : Seeking s) (h0 : s.boot.setId = 0) (hdue : s.initDue ds = true)
    (hf : s.beam.found = [] ∨ s.beam.found = ds) : Yields (.firstTimeInit ds) s (s.hush.initBeam ds) := by
  refine yields_of hon (show exec _ s = execFirstTimeInit ds s from rfl) ?_
  have hguard : (s.beamless && ! s.beam.waiting && decide (s.boot.setId = 0) && s.initDue ds
      && (s.beam.found.isEmpty || decide (s.beam.found = ds))) = true := by
    rcases hf with hf | hf <;> simp [hs.beamless, hs.waiting, h0, hdue, hf]
  exact congrArg (fun b => s.hush.when b _) hguard

/-- With a beam, while waiting, with a recorded set, or without the strap there is no initialisation. -/
theorem firstTimeInit_idle (hon : s.on = true) (ds : List DriveReport)
    (h : s.beam.setId ≠ 0 ∨ s.beam.waiting = true ∨ s.boot.setId ≠ 0 ∨ s.glb.straps.beamInit = false) :
    Yields (.firstTimeInit ds) s s.hush := by
  refine yields_of hon (show exec _ s = execFirstTimeInit ds s from rfl) ?_
  have hguard : (s.beamless && ! s.beam.waiting && decide (s.boot.setId = 0) && s.initDue ds
      && (s.beam.found.isEmpty || decide (s.beam.found = ds))) = false := by
    rcases h with h | h | h | h
    · simp [beamless_of_set h]
    · simp [h]
    · simp [show s.boot.setId ≠ 0#64 from h]
    · simp [State.initDue, h]
  exact congrArg (fun b => s.hush.when b _) hguard

/-! ### Step 6 (R29, R361, R364) -/

/-- Step 6 is over. -/
def sixDone (s : State) : State := { s with vlt := { s.vlt with step6 := true } }

/-- Where no listed delta, scratch window or swatch is to be restored, step 6 merges the spilled lines of the commit record and then
checks the restored entries. -/
theorem stepSix_merges_checks {c : Commit} {t u : State} (hd : s.loggedDeltas s.beam.deltaSegs s.beam.seqNext = [])
    (hc : s.beam.commit = some c) (ht : c.spills.foldl (fun (s : State) x => s.applySpill x) s = t)
    (hwin : ∀ e ∈ t.regions, e.2.window ≠ 2) (hu : (restoreOrder t.regions).foldl (fun (s : State) n => s.checkNew n (s.region n)) t = u)
    (hsw : u.map.swatches = []) : s.stepSix = sixDone u := by
  rw [six_eq hd hc]
  dsimp only
  rw [ht, keeps_nil hwin, hu, volatile_nil hsw]
  rfl

/-- A spilled line goes over its page's line where its unit is DURABLE and loaded and the page is in T1 (R364). -/
theorem applyLine_t1 {line f : Nat} (d : Line) (m : Mask) (hb : (s.unit (line / 64 / 512)).bdur = true)
    (hl : (s.unit (line / 64 / 512)).dstate ≠ .unloaded) (hp : (s.page (line / 64)).place = .t1 f) :
    s.applyLine line d m false = s.setCell f (line % 64) ((s.cell f (line % 64)).put d m false) := by
  unfold State.applyLine
  simp [hb, hl, hp]

/-- A restored entry alone in its table is the one that is checked. -/
theorem restoreOrder_single (hv : r.valid = true) (hf : r.wasInForce = true) (hm : r.mapped = true) : restoreOrder [(n, r)] = [n] := by
  simp [restoreOrder, hv, hf, (mapped_window hm).2]

/-- A restored entry that passes its check is ACTIVE again, and INIT does not act (R29). -/
theorem checkNew_restores (hc : s.regionCheck n none r = 0) (hf : r.wasInForce = true) (hm : r.mapped = true) :
    s.checkNew n r = s.modRegion n fun _ => inForce r := by
  obtain ⟨h2, h3⟩ := mapped_window hm
  unfold State.checkNew State.activate
  simp [hc, hf, h2, h3, State.dropAliasLines]
  rfl

/-- The one entry of a table, replaced. -/
theorem modRegion_single {x : Region} (hreg : s.regions = [(n, r)]) (hx : x ≠ {}) :
    (s.modRegion n fun _ => x) = { s with regions := [(n, x)] } := by
  have hset : Tbl.set ({} : Region) [(n, r)] n x = [(n, x)] := by
    unfold Tbl.set Tbl.keep
    rw [if_neg (Nat.lt_irrefl n), if_pos rfl, if_neg hx]
  unfold State.modRegion
  rw [hreg, hset]

theorem region_single (hreg : s.regions = [(n, r)]) : s.region n = r := by
  unfold State.region
  rw [hreg]
  simp [Tbl.get]

/-- Restoring, with a beam and step 6 to come, the device runs it. -/
theorem coldRestoreStep6_runs (hon : s.on = true) (hst : s.vlt.st = .restore) (ha : s.vlt.active = false) (h0 : s.beam.setId ≠ 0)
    (h6 : s.vlt.step6 = false) : Yields .coldRestoreStep6 s s.hush.stepSix := by
  refine yields_of hon (show exec _ s = execColdRestoreStep6 s from rfl) ?_
  simp [hst, ha, show s.beam.setId ≠ 0#64 from h0, h6]

/-- Without a beam, and once done, it does nothing. -/
theorem coldRestoreStep6_idle (hon : s.on = true) (h : s.beam.setId = 0 ∨ s.vlt.step6 = true) : Yields .coldRestoreStep6 s s.hush := by
  refine yields_of hon (show exec _ s = execColdRestoreStep6 s from rfl) ?_
  have hguard : (decide (s.vlt.st = .restore) && ! s.vlt.active && decide (s.beam.setId ≠ 0) && ! s.vlt.step6) = false := by
    rcases h with h | h <;> simp [h]
  exact congrArg (fun b => s.hush.when b _) hguard

section
variable {c : Commit} (hon : s.on = true) (hst : s.vlt.st = .restore) (ha : s.vlt.active = false) (h0 : s.beam.setId ≠ 0)
  (h6 : s.vlt.step6 = false) (hd : s.loggedDeltas s.beam.deltaSegs s.beam.seqNext = []) (hsw : s.map.swatches = [])
  (hc : s.beam.commit = some c)
include hon hst ha h0 h6 hd hsw hc

/-- Step 6 with nothing to merge and no entry to check. -/
theorem step6_empty (hsp : c.spills = []) (hreg : s.regions = []) : Yields .coldRestoreStep6 s (sixDone s.hush) := by
  have h := stepSix_merges_checks (s := s.hush) (t := s.hush) (u := s.hush) hd hc (by rw [hsp]; rfl) (by simp [hreg])
    (by rw [hush_regions, hreg]; rfl) hsw
  rw [← h]
  exact coldRestoreStep6_runs hon hst ha h0 h6

/-- Step 6 with one spilled line. -/
theorem step6_line {k line f : Nat} {d : Line} {m : Mask} (hsp : c.spills = [.lines k [(line, d, m, false)]]) (hreg : s.regions = [])
    (hb : (s.unit (line / 64 / 512)).bdur = true) (hl : (s.unit (line / 64 / 512)).dstate ≠ .unloaded) (hp : (s.page (line / 64)).place = .t1 f) :
    Yields .coldRestoreStep6 s (sixDone (s.hush.setCell f (line % 64) ((s.cell f (line % 64)).put d m false))) := by
  obtain ⟨t, ht⟩ : ∃ t, t = s.hush.setCell f (line % 64) ((s.cell f (line % 64)).put d m false) := ⟨_, rfl⟩
  have hmerge : c.spills.foldl (fun (s : State) x => s.applySpill x) s.hush = t := by
    rw [hsp, ht]
    exact applyLine_t1 (s := s.hush) d m hb hl hp
  have htreg : t.regions = [] := by rw [ht]; exact hreg
  have h := stepSix_merges_checks (s := s.hush) (u := t) hd hc hmerge (by simp [htreg]) (by rw [htreg]; rfl) (by rw [ht]; exact hsw)
  rw [← ht, ← h]
  exact coldRestoreStep6_runs hon hst ha h0 h6

omit hsw in
/-- Step 6 with one entry to check. -/
theorem step6_entry {u : State} (hsp : c.spills = []) (hreg : s.regions = [(n, r)]) (hv : r.valid = true) (hf : r.wasInForce = true)
    (hm : r.mapped = true) (hu : s.hush.checkNew n r = u) (husw : u.map.swatches = []) : Yields .coldRestoreStep6 s (sixDone u) := by
  have h := stepSix_merges_checks (s := s.hush) (t := s.hush) hd hc (by rw [hsp]; rfl)
    (by rw [hush_regions, hreg]; simpa using (mapped_window hm).1)
    (by rw [hush_regions, hreg, restoreOrder_single hv hf hm, List.foldl_cons, List.foldl_nil, hush_region, region_single hreg]; exact hu) husw
  rw [← h]
  exact coldRestoreStep6_runs hon hst ha h0 h6

/-- An entry that passes its check comes into force (R29). -/
theorem step6_restores (hsp : c.spills = []) (hreg : s.regions = [(n, r)]) (hv : r.valid = true) (hf : r.wasInForce = true)
    (hm : r.mapped = true) (hcheck : s.regionCheck n none r = 0) :
    Yields .coldRestoreStep6 s (sixDone { s.hush with regions := [(n, inForce r)] }) := by
  have hx : inForce r ≠ {} := fun e => by have := congrArg Region.active e; simp [inForce] at this
  exact step6_entry hon hst ha h0 h6 hd hc hsp hreg hv hf hm
    ((checkNew_restores (s := s.hush) hcheck hf hm).trans (modRegion_single (s := s.hush) hreg hx)) hsw

/-- An entry that fails its check stays inactive, and a notice gives the code (R29, R51). -/
theorem step6_refuses (hsp : c.spills = []) (hreg : s.regions = [(n, r)]) (hv : r.valid = true) (hf : r.wasInForce = true)
    (hm : r.mapped = true) {e : Nat} (he : s.regionCheck n none r = e) (hne : e ≠ 0) (hn : n < 4096) :
    Completes .coldRestoreStep6 s fun u => ∃ t p, u = sixDone { s with
      out := [], tap := t, pmc := p, flt := s.flt.enter (Note.words ⟨1, 0x04, n + e % 64 * 4096, none⟩)
      regions := [(n, { r with err := e, active := false })] } := by
  subst he
  have hx : ({ r with err := s.regionCheck n none r, active := false } : Region) ≠ {} := fun e => by
    have := congrArg Region.wasInForce e
    rw [show ({ r with err := s.regionCheck n none r, active := false } : Region).wasInForce = true from hf] at this
    cases this
  have hcheck := checkNew_fails (s := s.hush) (n := n) (r := r) hne
  obtain ⟨t, p, hfail⟩ := checkFail_eq (s.hush.modRegion n fun _ => { r with err := s.regionCheck n none r, active := false })
    (s.regionCheck n none r) hn
  have hmod := modRegion_single (s := s.hush) hreg hx
  rw [hmod] at hfail
  have hy := step6_entry hon hst ha h0 h6 hd hc hsp hreg hv hf hm
    (hcheck.trans ((congrArg (fun u : State => u.checkFail n _) hmod).trans hfail)) hsw
  exact ⟨_, hy, t, p, rfl⟩

end

/-! ### Memory active (R362) -/

/-- A head at memory active: MEM_OFF clears where its link is up, has CXL and has not dropped (R85, R362). -/
def openedHead (x : Head) : Head :=
  if x.link.up then { x with link := { x.link with memOff := x.link.dropped || ! x.link.cxl } } else x

/-- After step 6, where no SHORT commit is to be told of and no request waits, memory becomes active. -/
theorem memoryActive_yields (hon : s.on = true) (hst : s.vlt.st = .restore) (ha : s.vlt.active = false) (h6 : s.vlt.step6 = true)
    (ho : s.vlt.outcome ≠ 2) (hh : s.vlt.held = []) : Yields .memoryActive s { s with
      out := [], heads := s.heads.mapVals {} fun _ => openedHead
      map := { s.map with mapLoad := ! s.beam.coldUnits.isEmpty, warm := s.warmPages, warming := true, warmDone := false }
      vlt := { s.vlt with
        active := true, activeMs := min 65535 (s.clock / 2000000), st := if s.vlt.braceOn then .brace else .run, resumeKind := 2 } } := by
  refine yields_of hon (show exec _ s = execMemoryActive s from rfl) ?_
  have hguard : (decide (s.vlt.st = .restore) && ! s.vlt.active && s.vlt.step6) = true := by simp [hst, ha, h6]
  refine (congrArg (fun b => s.hush.when b _) hguard).trans ?_
  refine (active_eq (t := s.hush) ho hh).trans ?_
  rw [← hh]
  rfl

/-- Before step 6 has ended there is no memory. -/
theorem memoryActive_idle (hon : s.on = true) (h6 : s.vlt.step6 = false) : Yields .memoryActive s s.hush := by
  refine yields_of hon (show exec _ s = execMemoryActive s from rfl) ?_
  have hguard : (decide (s.vlt.st = .restore) && ! s.vlt.active && s.vlt.step6) = false := by simp [h6]
  exact congrArg (fun b => s.hush.when b _) hguard

/-! ### The obligation -/

/-- Settles O49: assembly of the recorded set, its release, blank drives and their initialisation, step 6, memory active. -/
theorem restoresReachMemoryActive : Obligations.RestoresReachMemoryActive := by
  unfold Obligations.RestoresReachMemoryActive
  intro s hon hst ha
  refine ⟨beamAssemble_idle hon, fun ds id hb hw hsd hid h0 hne hds => ⟨fun h7 => ?short, fun c h7 hours hc hseg hwf => ?assembles⟩,
    fun hb hw hsd hset h0 => ?releases, fun ds hb hw hsd h0 hi h7 hds => ⟨?blank, fun hf hh ho => ?initialises⟩, firstTimeInit_idle hon,
    fun hb h6 hd hsw c hc => ⟨step6_empty hon hst ha hb h6 hd hsw hc, fun k line d m f => step6_line hon hst ha hb h6 hd hsw hc,
      fun n r hsp hreg hv hf hm => ⟨step6_restores hon hst ha hb h6 hd hsw hc hsp hreg hv hf hm,
        fun e => step6_refuses hon hst ha hb h6 hd hsw hc hsp hreg hv hf hm⟩⟩,
    coldRestoreStep6_idle hon, fun h6 ho hh hwf => ?active, memoryActive_idle hon⟩
  case short =>
    have hy := beamAssemble_assembles hon ⟨hst, ha, hb, hw, hsd⟩ ds
    have hguard : ¬ (decide (7 ≤ (s.setSlots ds id).length) && s.sec.wrap.ours) = true := by simp [Nat.not_le.mpr h7]
    rw [assemble_recorded (s := s.hush) hid h0 hne hds, if_neg (by exact hguard)] at hy
    obtain ⟨t, p, hs, o, h⟩ := incomplete_eq s.hush (s.setSlots ds id).length
    exact ⟨_, hy, t, p, hs, o, h⟩
  case assembles =>
    have hy := beamAssemble_assembles hon ⟨hst, ha, hb, hw, hsd⟩ ds
    have hguard : (decide (7 ≤ (s.setSlots ds id).length) && s.sec.wrap.ours) = true := by simp [h7, hours]
    rw [assemble_recorded (s := s.hush) hid h0 hne hds, if_pos (by exact hguard)] at hy
    obtain ⟨o, g, sw, tk, rg, se, ps, sec, vlt, h, hkek, hsalt, hact⟩ := assembleSet_eq (s := s.hush) (ds := ds) hc hseg
    rw [h] at hy
    exact ⟨_, hy, rfl, rfl, rfl, rfl, rfl, rfl, rfl, hkek, hsalt, hact.trans ha,
      fun n => get_mapVals_wf ({} : Region) (fun _ => restoredEntry) n rfl c.regions 0 hwf⟩
  case releases =>
    obtain ⟨hboot, hwait, hid⟩ := assemble_releases (s := s.hush) hset h0
    exact ⟨_, beamAssemble_assembles hon ⟨hst, ha, hb, hw, hsd⟩ [], hboot, hwait, hid.trans hb⟩
  case blank =>
    have hy := beamAssemble_assembles hon ⟨hst, ha, hb, hw, hsd⟩ ds
    rwa [assemble_blank (s := s.hush) h0 hi h7 hds] at hy
  case initialises =>
    have hu : Initialised s.hush (s.hush.initBeam ds) := initBeam_initialised ho hh
    exact ⟨_, firstTimeInit_yields hon ⟨hst, ha, hb, hw, hsd⟩ h0 (initDue_allBlank hds h7 hi) hf, hu.active, hu.st, hu.setId, hu.recorded,
      hu.sbgen, hu.cseq, hu.seqNext, hu.boot, hu.commit, hu.salts, hu.bkek, hu.custodian, hu.ours, hu.regions⟩
  case active =>
    refine ⟨_, memoryActive_yields hon hst ha h6 ho hh, rfl, fun h => ?_⟩
    exact get_mapVals_wf ({} : Head) (fun _ => openedHead) h rfl s.heads 0 hwf

end Sys2Proof.Proofs.Restore
end

