-- ==== Sys2Proof/Proofs/Transactions.lean ====
section
/-! PROOF. The end of an open transaction, the snoop filter's victims and retry queue (R151, R152, R157), the phases of GPF (R79), and
obligation O10. -/
namespace Sys2Proof.Proofs.Transactions
open Sys2Proof Sys2Proof.Machine Sys2Proof.Laws Sys2Proof.Laws.Traffic

variable {s : State}

/-! ### Transactions -/

/-- A request whose line has no open transaction starts when its turn comes (R157). -/
theorem begin_free {q : Req} (h : s.txn q.line = none) : s.begin q = s.start q := by
  unfold State.begin; rw [h]

/-- Recording a line's coherence changes the snoop filter, and nothing else. -/
theorem recordSf_cases (s : State) (line : Nat) (st : SfState) (pres : BitVec 16) :
    ∃ t, s.recordSf line st pres = { s with coh := { s.coh with sf := t } } := by
  unfold State.recordSf
  dsimp only
  split
  · exact ⟨_, rfl⟩
  · split <;> exact ⟨_, rfl⟩

/-- An answered transaction that owes nothing and has no request waiting closes (R157). -/
theorem openTxnClose_closes {line : Nat} {t : Txn} (hon : s.on = true) (ht : s.txn line = some t) (hd : t.phase = .done)
    (hp : s.paid line t = true) (hq : t.queue = []) : Yields (.openTxnClose line) s (s.hush.setTxn line none) := by
  refine yields_of hon (show exec _ s = execOpenTxnClose line s from rfl) ?_
  have ht' : s.hush.txn line = some t := ht
  have hp' : s.hush.paid line t = true := hp
  simp [ht', hd, hp', hq, State.enterAll]

/-- A recalled victim frees its entry, and the request that waited for the way starts (R151). -/
theorem sfVictimFree_frees {line : Nat} {t : Txn} {q : Req} (hon : s.on = true) (ht : s.txn line = some t) (hv : t.phase = .victim)
    (hw : t.waits = 0) (hq : t.queue = []) (hwb : (s.near.wbRetry.any fun e => e.2.line = line) = false)
    (hsf : s.coh.sfWait = [(line, q)]) (hne : q.line ≠ line) (hfree : s.txn q.line = none) (hwf : s.coh.txns.wf none = true) :
    ∃ v, v = (s.hush.recordSf line .none 0).setTxn line none
      ∧ Yields (.sfVictimFree line) s (State.start { v with coh := { v.coh with sfWait := [] } } q) := by
  refine ⟨_, rfl, yields_of hon (show exec _ s = execSfVictimFree line s from rfl) ?_⟩
  obtain ⟨f, hf⟩ := recordSf_cases s.hush line .none 0
  rw [hf]
  have ht' : s.hush.txn line = some t := ht
  have hline : (({ s.hush with coh := { s.coh with sf := f, txns := s.coh.txns.set none line none, sfWait := [] } } : State)).txn q.line = none :=
    (Tbl.get_set_ne none none hne hwf).trans hfree
  simpa [ht', hv, hw, hwb, hq, State.enterAll, hsf, State.setTxn] using begin_free hline

/-- The oldest request of a set that waits for the snoop filter starts once there is room (R152). -/
theorem sfRetry_starts {tile : Nat} {q : Req} {rest : List (Nat × Req)} (hon : s.on = true) (hr : s.coh.retry = (tile, q) :: rest)
    (hroom : s.sfRoom tile q = true) (hrec : s.recallRoom q = true) (hwait : (s.coh.sfWait.any fun x => x.2.line = q.line) = false)
    (hfree : s.txn q.line = none) :
    Yields (.sfRetryQueueRetry tile (sfSet q.line)) s (State.start { s.hush with coh := { s.coh with retry := rest } } q) := by
  refine yields_of hon (show exec _ s = execSfRetryQueueRetry tile (sfSet q.line) s from rfl) ?_
  have hroom' : s.hush.sfRoom tile q = true := hroom
  have hrec' : s.hush.recallRoom q = true := hrec
  have hstart := begin_free (s := { s.hush with coh := { s.coh with retry := rest } }) hfree
  simpa [hr, hroom', hrec', hwait] using hstart

/-! ### GPF -/

/-- A head whose memory is on is out of Recovery (R82). -/
theorem memOn_link {h : Nat} (hm : s.memOn h = true) : (s.head h).link.recovery = false := by
  unfold State.memOn at hm
  rw [Bool.and_eq_true, Bool.not_eq_true'] at hm
  exact hm.2

/-- GPF Phase 1 is answered at once (R79). -/
theorem gpfPhase1_answers {h : Nat} (hon : s.on = true) (hm : s.memOn h = true) :
    Yields (.gpfPhase1 h) s { s with out := [.gpfDone h 1] } := by
  refine yields_of hon (show exec _ s = execGpfPhase1 h s from rfl) ?_
  rw [hush_memOn, hm]
  rfl

/-- A seal of GPF Phase 2 that has nothing to wait for ends with its head's answer (R79). -/
theorem checkSeals_gpf {h : Nat} {x : Seal} (hs : s.rng.seals = [x]) (hring : x.ring = 65536 + h) (hl : x.level = 1)
    (ht : x.tiles = 0) (hlost : x.lost = false) (hwb : s.near.wb = []) (hq : s.queuedWrites = []) (hst : s.vlt.stopped = false)
    (hr : (s.head h).link.recovery = false) :
    s.checkSeals = { s with rng := { s.rng with seals := [] }, out := s.out ++ [.gpfDone h 2] } := by
  rw [checkSeals_one hs hst (reached_empty hl ht hwb hq)]
  unfold State.completeSeal
  simp only [hring, hlost, hs, Bool.false_and, Bool.false_eq_true, if_false, Nat.le_add_right, if_true, Nat.add_sub_cancel_left,
    List.filter_cons, ne_eq, not_true_eq_false, decide_false, List.filter_nil]
  exact emitTo_now _ _ hr

/-- GPF Phase 2 is answered at once where no write is buffered or on its way (R79). -/
theorem gpfPhase2_answers {h : Nat} (hon : s.on = true) (hm : s.memOn h = true) (hwb : s.near.wb = []) (hq : s.queuedWrites = [])
    (hs : s.rng.seals = []) (hst : s.vlt.stopped = false) : Yields (.gpfPhase2 h) s { s with out := [.gpfDone h 2] } := by
  refine yields_of hon (show exec _ s = execGpfPhase2 h s from rfl) ?_
  rw [hush_memOn, hm, when_true, hush_rng, hs]
  refine Eq.trans (checkSeals_gpf (h := h) rfl rfl rfl rfl rfl hwb hq hst (memOn_link hm)) ?_
  rw [← hs]
  rfl

/-! ### The obligation -/

/-- Settles O10: transactions close, victims free their entries, full sets are retried, and GPF's phases are answered. -/
theorem transactionsAndGpfEnd : Obligations.TransactionsAndGpfEnd := by
  unfold Obligations.TransactionsAndGpfEnd
  refine ⟨fun s tile set line t q rest hon => ⟨openTxnClose_closes hon,
      fun ht hv hw hq hwb hsf hne hfree hwf => sfVictimFree_frees hon ht hv hw hq hwb hsf hne hfree hwf, ?_⟩,
    fun s h hon hm => ⟨gpfPhase1_answers hon hm, fun hwb hq hs hst _ => gpfPhase2_answers hon hm hwb hq hs hst⟩⟩
  rintro hr rfl hroom hrec hwait hfree
  exact sfRetry_starts hon hr hroom hrec hwait hfree

end Sys2Proof.Proofs.Transactions
end

