-- ==== Sys2Proof/Proofs/Mailbox.lean ====
section
/-! PROOF. The mailbox of a head and of the management interface (R73, R486), and obligation O35. -/
namespace Sys2Proof.Proofs.Mailbox
open Sys2Proof Sys2Proof.Machine Sys2Proof.Laws Sys2Proof.Laws.Io

variable {s : State} {h : Nat}

/-! ### The scratch pool under a mailbox command -/

/-- A write to the scratch pool changes the pool and nothing else of the near cache. -/
theorem setPool_near (s : State) (l : Nat) (d : Line) (m : Mask) (p : Bool) :
    (s.setPool l d m p).near = { s.near with scr := (s.setPool l d m p).near.scr } := by
  unfold State.setPool; split <;> rfl

/-- What a write leaves in the scratch pool does not depend on what was sent before. -/
theorem hush_setPool_near (s : State) (l : Nat) (d : Line) (m : Mask) (p : Bool) :
    (s.hush.setPool l d m p).near = (s.setPool l d m p).near := by
  have hdead : s.hush.poolDead l = s.poolDead l := rfl
  unfold State.setPool
  rw [hdead]
  split <;> rfl

/-- A write of nobody to a line of a PRIVATE SCRATCH window writes the pool, and may wake the owner tile. -/
theorem route_pool {n line : Nat} {d : Line} {m : Mask} {p : Bool} {r : Region} (hrest : s.atRest line)
    (hreg : s.regionOf line = some (n, r)) (hw : r.window = 2) (hc : r.coh = 0) :
    ∃ pw au, s.hush.route { src := .nobody, kind := .devWr, line := line, data := d, mask := m, poison := p }
      = { s.hush with pwr := pw, near := { s.near with scr := (s.setPool (r.poolLine line) d m p).near.scr, autoOff := au } } := by
  obtain ⟨pw, au, h⟩ := pool_nobody (s := s.hush) (d := d) (m := m) (p := p) hrest hreg hw hc
  refine ⟨pw, au, ?_⟩
  rw [h, hush_setPool_near, setPool_near]

/-! ### How a mailbox command answers -/

/-- The head reaches the mailbox and the steward, which runs it, is up (R15, R73). -/
structure Served (s : State) (h : Nat) : Prop where
  on : s.on = true
  reaches : s.reaches h = true
  steward : s.glb.steward = true

/-- A mailbox command whose work gives state t and an answer leaves t, with the answer sent. -/
theorem mailbox_yields {c : Instr} {f : State → State × Nat × List Word} {t : State} {code : Nat} {ws : List Word} (hs : Served s h)
    (hx : exec c s = run (fun s => s.mailbox h f) s) (hf : f s.hush = (t, code, ws)) (ht : t.out = []) :
    Yields c s { t with out := [.mailbox h code ws] } := by
  have hguard : (s.hush.reaches h && s.hush.glb.steward) = true := by rw [hush_reaches, hush_glb, hs.reaches, hs.steward]; rfl
  refine yields_of hs.on hx ?_
  unfold State.mailbox
  rw [hguard, when_true, hf]
  simp only [State.emit, ht, List.nil_append]

/-- A mailbox command that reads answers and changes nothing. -/
theorem mailbox_reads {c : Instr} {f : State → State × Nat × List Word} {code : Nat} {ws : List Word} (hs : Served s h)
    (hx : exec c s = run (fun s => s.mailbox h f) s) (hf : f s.hush = (s.hush, code, ws)) :
    Yields c s { s with out := [.mailbox h code ws] } := mailbox_yields (t := s.hush) hs hx hf rfl

/-- A management command of the mailbox, from the management side, does its work (R80). -/
theorem mgmtMailbox_yields {c : Instr} {op : Nat} {f : State → State × Nat × List Word} {t : State} {code : Nat} {ws : List Word}
    (hs : Served s h) (hm : s.isMgmt h = true) (hx : exec c s = run (fun s => s.mgmtMailbox h op f) s)
    (hf : f s.hush = (t, code, ws)) (ht : t.out = []) : Yields c s { t with out := [.mailbox h code ws] } := by
  refine mailbox_yields hs (hx.trans rfl) ?_ ht
  rw [hush_isMgmt, hm, if_pos rfl, hf]

/-! ### Event records -/

/-- Handles are those of a log's oldest records exactly where the log's handles begin with them. -/
theorem oldest_iff {hs mine : List Nat} : mine.take hs.length = hs ↔ hs <+: mine := by
  rw [List.prefix_iff_eq_take, eq_comm]

variable {log : Nat} {es : List LogEntry}

/-- GET_EVENT_RECORDS of one of the four logs gives its overflow flag and its records with their handles. -/
theorem getEventRecords_reads (hs : Served s h) (hlog : log < 4) (hes : es = (s.head h).func.events.filter fun e => e.log = log) :
    Yields (.getEventRecords h log) s { s with out := [.mailbox h 0
      (atFlag ((s.head h).func.eventsOver && log = 2) 0 :: es.flatMap fun e => [atBit e.handle 0, e.body.word])] } := by
  refine mailbox_reads hs (show exec _ s = execGetEventRecords h log s from rfl) ?_
  rw [if_neg (Nat.not_le.mpr hlog), hes]
  rfl

/-- CLEAR_EVENT_RECORDS drops the oldest records of a log by their handles. -/
theorem clearEventRecords_clears (hserved : Served s h) (hlog : log < 4) (hes : es = (s.head h).func.events.filter fun e => e.log = log)
    {hs : List Nat} {hs' : Option (List Nat)} (hhs : hs = hs'.getD (es.map LogEntry.handle)) (hold : hs <+: es.map LogEntry.handle) :
    Yields (.clearEventRecords h log hs') s { s.modFunc h (fun f => { f with
      events := f.events.filter fun e => ! (e.log = log && hs.contains e.handle)
      eventsOver := f.eventsOver && ! (log = 2 && hs.length = es.length) }) with out := [.mailbox h 0 []] } := by
  refine mailbox_yields hserved (show exec _ s = execClearEventRecords h log hs' s from rfl)
    (t := s.hush.modFunc h fun f => { f with
      events := f.events.filter fun e => ! (e.log = log && hs.contains e.handle)
      eventsOver := f.eventsOver && ! (log = 2 && hs.length = es.length) }) ?_ rfl
  have hmine : (s.hush.head h).func.log log = es := hes.symm
  rw [if_neg (Nat.not_le.mpr hlog), hmine, ← hhs, if_pos (oldest_iff.mpr hold), List.length_map]

/-- CLEAR_EVENT_RECORDS with other handles answers Invalid Handle. -/
theorem clearEventRecords_refuses (hserved : Served s h) (hlog : log < 4) (hes : es = (s.head h).func.events.filter fun e => e.log = log)
    {hs : List Nat} {hs' : Option (List Nat)} (hhs : hs = hs'.getD (es.map LogEntry.handle)) (hold : ¬ hs <+: es.map LogEntry.handle) :
    Yields (.clearEventRecords h log hs') s { s with out := [.mailbox h 14 []] } := by
  refine mailbox_reads hserved (show exec _ s = execClearEventRecords h log hs' s from rfl) ?_
  have hmine : (s.hush.head h).func.log log = es := hes.symm
  rw [if_neg (Nat.not_le.mpr hlog), hmine, ← hhs, if_neg (mt oldest_iff.mp hold)]

/-- There are four logs. -/
theorem eventRecords_noLog (hs : Served s h) (hlog : 4 ≤ log) :
    Yields (.getEventRecords h log) s { s with out := [.mailbox h 2 []] }
      ∧ ∀ hs', Yields (.clearEventRecords h log hs') s { s with out := [.mailbox h 2 []] } :=
  ⟨mailbox_reads hs (show exec _ s = execGetEventRecords h log s from rfl) (if_pos hlog),
    fun hs' => mailbox_reads hs (show exec _ s = execClearEventRecords h log hs' s from rfl) (if_pos hlog)⟩

/-! ### Interrupt settings -/

/-- The check of SET_EVENT_INTERRUPT_POLICY: a setting for each log, by vectors below 2,048. -/
theorem policyCheck_iff (v : List (Option Nat)) : (v.length = 4 && v.all (fun v => v.all fun n => decide (n < 2048))) = true
    ↔ v.length = 4 ∧ ∀ n, some n ∈ v → n < 2048 := by
  simp only [Bool.and_eq_true, decide_eq_true_eq, List.all_eq_true]
  refine and_congr_right fun _ => ⟨fun h n hn => ?_, fun h o ho => ?_⟩
  · simpa using h _ hn
  · cases o with
    | none => rfl
    | some n => simpa using h n ho

/-- SET_EVENT_INTERRUPT_POLICY sets the interrupt of each log. -/
theorem setPolicy_sets (hs : Served s h) {v : List (Option Nat)} (hv : v.length = 4 ∧ ∀ n, some n ∈ v → n < 2048) :
    Yields (.setEventInterruptPolicy h v) s { s.modFunc h (fun f => { f with policy := v }) with out := [.mailbox h 0 []] } :=
  mailbox_yields hs (show exec _ s = execSetEventInterruptPolicy h v s from rfl)
    (t := s.hush.modFunc h fun f => { f with policy := v }) (if_pos ((policyCheck_iff v).mpr hv)) rfl

/-- SET_EVENT_INTERRUPT_POLICY refuses any other list of settings. -/
theorem setPolicy_refuses (hs : Served s h) {v : List (Option Nat)} (hv : ¬ (v.length = 4 ∧ ∀ n, some n ∈ v → n < 2048)) :
    Yields (.setEventInterruptPolicy h v) s { s with out := [.mailbox h 2 []] } :=
  mailbox_reads hs (show exec _ s = execSetEventInterruptPolicy h v s from rfl) (if_neg (mt (policyCheck_iff v).mp hv))

/-! ### The timestamp -/

/-- The timestamp runs on in nanoseconds, two cycles each, from the value set. -/
theorem getTimestamp_set (hs : Served s h) {t : Nat} (ht : s.ports.stampAt = some t) :
    Yields (.getTimestamp h) s { s with out := [.mailbox h 0 [s.ports.stamp + BitVec.ofNat 64 ((s.clock - t) / 2)]] } := by
  have hstamp : s.hush.timestamp = s.ports.stamp + BitVec.ofNat 64 ((s.clock - t) / 2) := by
    unfold State.timestamp; rw [hush_ports, ht]; rfl
  exact mailbox_reads hs (show exec _ s = execGetTimestamp h s from rfl) (by rw [hstamp])

/-- The timestamp is 0 while none was set. -/
theorem getTimestamp_unset (hs : Served s h) (ht : s.ports.stampAt = none) :
    Yields (.getTimestamp h) s { s with out := [.mailbox h 0 [0]] } := by
  have hstamp : s.hush.timestamp = 0 := by unfold State.timestamp; rw [hush_ports, ht]
  exact mailbox_reads hs (show exec _ s = execGetTimestamp h s from rfl) (by rw [hstamp])

/-- The management side sets the timestamp. -/
theorem setTimestamp_sets (hs : Served s h) (hm : s.isMgmt h = true) (v : Word) : Yields (.setTimestamp h v) s
    { s with ports := { s.ports with stamp := v, stampAt := some s.clock }, out := [.mailbox h 0 []] } :=
  mgmtMailbox_yields hs hm (show exec _ s = execSetTimestamp h v s from rfl)
    (t := { s.hush with ports := { s.ports with stamp := v, stampAt := some s.clock } }) rfl rfl

/-! ### Poison -/

/-- GET_POISON_LIST answers the ranges of the index that meet the asked range and that the head may see (R486). -/
theorem getPoisonList_lists (hs : Served s h) (a n : Nat) (hov : s.near.poisonOverflow = none) :
    Completes (.getPoisonList h a n) s fun u =>
      ∃ es : List (Nat × Nat), u = { s with out := [.mailbox h 0 (0 :: es.map fun e => atBit (e.1 * 64) 0 ||| atBit e.2 48)] }
        ∧ ∀ e, e ∈ es ↔ e ∈ s.near.poisonIdx ∧ e.1 < a + n ∧ a < e.1 + e.2 ∧ s.seesLine h e.1 = true := by
  obtain ⟨es, hes⟩ : ∃ es, es = s.near.poisonIdx.filter fun e =>
    decide (e.1 < a + n) && decide (a < e.1 + e.2) && s.seesLine h e.1 := ⟨_, rfl⟩
  refine ⟨_, mailbox_reads hs (show exec _ s = execGetPoisonList h a n s from rfl) ?_, es, rfl, fun e => ?_⟩
  · rw [hush_near, hov, hes]; rfl
  · simp [hes, and_assoc]

variable {dpa n : Nat} {r : Region}

/-- A DPA of an ACTIVE region names its line. -/
theorem lineAt_region (hreg : s.regionOf (dpa / 64) = some (n, r)) : s.hush.lineAt dpa = some (dpa / 64) := by
  unfold State.lineAt; rw [hush_regionOf, hreg]; rfl

/-- Clear Poison puts the 64 bytes into a line of a SCRATCH window, without a mark (R486). -/
theorem clearPoison_writes (hs : Served s h) (hm : s.isMgmt h = true) (d : Line) (hreg : s.regionOf (dpa / 64) = some (n, r))
    (hrest : s.atRest (dpa / 64)) (hc : r.coh = 0) (hw : r.window = 2) :
    Completes (.clearPoison h dpa d) s fun u => u.near.scr = (s.setPool (r.poolLine (dpa / 64)) d fullMask false).near.scr
      ∧ u = { s with out := [.mailbox h 0 []], pwr := u.pwr, near := { s.near with scr := u.near.scr, autoOff := u.near.autoOff } } := by
  obtain ⟨pw, au, hroute⟩ := route_pool (d := d) (m := fullMask) (p := false) hrest hreg hw hc
  refine ⟨_, mgmtMailbox_yields hs hm (show exec _ s = execClearPoison h dpa d s from rfl)
    (t := { s.hush with pwr := pw, near := { s.near with scr := (s.setPool (r.poolLine (dpa / 64)) d fullMask false).near.scr, autoOff := au } })
    ?_ rfl, rfl, rfl⟩
  rw [lineAt_region hreg, ← hroute]

/-- Inject Poison marks a line of a SCRATCH window and writes no byte of it (R486). -/
theorem injectPoison_marks (hs : Served s h) (hm : s.isMgmt h = true) (hreg : s.regionOf (dpa / 64) = some (n, r))
    (hrest : s.atRest (dpa / 64)) (hc : r.coh = 0) (hw : r.window = 2) :
    Completes (.injectPoison h dpa) s fun u => u.near.scr = (s.setPool (r.poolLine (dpa / 64)) 0 0 true).near.scr
      ∧ u = { s with out := [.mailbox h 0 []], pwr := u.pwr, near := { s.near with scr := u.near.scr, autoOff := u.near.autoOff } } := by
  obtain ⟨pw, au, hroute⟩ := route_pool (d := 0) (m := 0) (p := true) hrest hreg hw hc
  refine ⟨_, mgmtMailbox_yields hs hm (show exec _ s = execInjectPoison h dpa s from rfl)
    (t := { s.hush with pwr := pw, near := { s.near with scr := (s.setPool (r.poolLine (dpa / 64)) 0 0 true).near.scr, autoOff := au } })
    ?_ rfl, rfl, rfl⟩
  rw [lineAt_region hreg, ← hroute]

/-! ### The obligation -/

/-- An opcode that R73 does not list returns Unsupported. -/
theorem unlisted_unsupported (hs : Served s h) {op : Nat} (hop : op ∉ mailboxOpcodes) :
    Yields (.unsupportedMailboxOpcode h op) s { s with out := [.mailbox h 3 []] } := by
  have hx : exec (.unsupportedMailboxOpcode h op) s = run (fun s => s.mailbox h fun s => (s, 3, [])) s := by
    show execUnsupportedMailboxOpcode h op s = _
    unfold execUnsupportedMailboxOpcode
    simp [hop]
  exact mailbox_reads hs hx rfl

/-- Settles O35, command by command. -/
theorem mailboxCommandsAnswer : Obligations.MailboxCommandsAnswer := by
  unfold Obligations.MailboxCommandsAnswer
  intro s h hon hr hst
  have hs : Served s h := ⟨hon, hr, hst⟩
  refine ⟨fun c ws hc => ?reads, fun t ht => getTimestamp_set hs ht, getTimestamp_unset hs,
    fun log es hes => ⟨fun hlog => ⟨getEventRecords_reads hs hlog hes, fun hds hds' hhs =>
      ⟨clearEventRecords_clears hs hlog hes hhs, clearEventRecords_refuses hs hlog hes hhs⟩⟩, eventRecords_noLog hs⟩,
    fun v => ⟨setPolicy_sets hs, setPolicy_refuses hs⟩, getPoisonList_lists hs,
    fun hm => ⟨setTimestamp_sets hs hm, fun dpa n r d hreg hrest hc hw =>
      ⟨clearPoison_writes hs hm d hreg hrest hc hw, injectPoison_marks hs hm hreg hrest hc hw⟩⟩,
    fun op => unlisted_unsupported hs⟩
  case reads =>
    simp only [List.mem_cons, List.not_mem_nil, or_false, Prod.mk.injEq] at hc
    rcases hc with ⟨rfl, rfl⟩ | ⟨rfl, rfl⟩ | ⟨rfl, rfl⟩ | ⟨rfl, rfl⟩
    · exact mailbox_reads hs (show exec _ s = execGetEventInterruptPolicy h s from rfl) rfl
    · exact mailbox_reads hs (show exec _ s = execGetSupportedLogs h s from rfl) rfl
    · exact mailbox_reads hs (show exec _ s = execGetLog h s from rfl) rfl
    · exact mailbox_reads hs (show exec _ s = execIdentifyMemoryDevice h s from rfl) rfl

end Sys2Proof.Proofs.Mailbox
end

