-- ==== Sys2Proof/Proofs/Registers.lean ====
section
/-! PROOF. Writes of BAR0, of BAR4 and of indirect space, the fence and the fetches of wide values (R69, R80, R139, R176, R533, R546 to
R559), and obligations O14 and O60. -/
namespace Sys2Proof.Proofs.Registers
open Sys2Proof Sys2Proof.Machine Sys2Proof.Laws

variable {s : State} {src : Nat} {v : Word}

/-! ### NC_CTL and SF_CTL.WIDE_CLR -/

/-- The management side writes NC_CTL (R139). -/
theorem ncCtlWrite_mgmt (hon : s.on = true) (hr : s.reaches src = true) (hm : s.isMgmt src = true) :
    Yields (.ncCtlWrite src v) s (State.applyLocks { s.hush with near := { s.near with ctl := v &&& 0x3FF37F } }) :=
  yields_of hon (show exec _ s = execNcCtlWrite src v s from rfl) (globalWrite_mgmt _ _ hr hm)

/-- Another head's write of NC_CTL posts an ACCESS notice (R80). -/
theorem ncCtlWrite_denied (hon : s.on = true) (hr : s.reaches src = true) (hm : s.isMgmt src = false) :
    Yields (.ncCtlWrite src v) s (s.hush.access src 0xFFF 1 (2 ^ 24 + 0x20000)) := by
  refine yields_of hon (show exec _ s = execNcCtlWrite src v s from rfl) ?_
  unfold State.globalWrite
  rw [hush_reaches, hr, when_true, hush_isMgmt, hm, if_neg Bool.false_ne_true]
  rfl

/-- The management side clears WIDE (R176). -/
theorem wideClr_mgmt (hon : s.on = true) (hr : s.reaches src = true) (hm : s.isMgmt src = true) :
    Yields (.wideClr src) s { s with out := [], coh := { s.coh with wide := false } } := by
  refine yields_of hon (show exec _ s = execWideClr src s from rfl) ?_
  rw [hush_reaches, hr, when_true, hush_isMgmt, hm]
  rfl

/-- Another head's write of WIDE_CLR posts an ACCESS notice (R80). -/
theorem wideClr_denied (hon : s.on = true) (hr : s.reaches src = true) (hm : s.isMgmt src = false) :
    Yields (.wideClr src) s (s.hush.access src 0xFFF 1 (2 ^ 24 + 0x30000)) := by
  refine yields_of hon (show exec _ s = execWideClr src s from rfl) ?_
  rw [hush_reaches, hr, when_true, hush_isMgmt, hm]
  rfl

/-- Settles O14: the management side's writes act, another head's post their notice. -/
theorem cacheControlWritesNeedManagement : Obligations.CacheControlWritesNeedManagement := by
  unfold Obligations.CacheControlWritesNeedManagement
  exact fun s src v hon hr => ⟨fun hm => ⟨ncCtlWrite_mgmt hon hr hm, wideClr_mgmt hon hr hm⟩,
    fun hm => ⟨ncCtlWrite_denied hon hr hm, wideClr_denied hon hr hm⟩⟩

/-! ### Writes that do nothing (R546) -/

/-- Outside BAR4 only an aligned 8-byte write below 0x10000 acts. -/
theorem regWrite_inert {off size : Nat} (hon : s.on = true) (hr : s.reaches src = true)
    (hbar : off < 0x20000 ∨ 0x28000 ≤ off ∨ 16 ≤ src) (hbad : size ≠ 8 ∨ off % 8 ≠ 0 ∨ 0x10000 ≤ off) :
    Yields (.regWrite src off size v) s s.hush := by
  refine yields_of hon (show exec _ s = execRegWrite src off size v s from rfl) ?_
  have hbar4 : (decide (0x20000 ≤ off) && decide (off < 0x28000) && decide (src < 16)) = false := by
    simp only [Bool.and_eq_false_iff, decide_eq_false_iff_not]; omega
  have hacts : (decide (size = 8) && decide (off % 8 = 0) && decide (off < 0x10000)) = false := by
    simp only [Bool.and_eq_false_iff, decide_eq_false_iff_not]; omega
  rw [hush_reaches, hr, when_true, hbar4, hacts]
  rfl

/-- An aligned 8-byte write below 0x10000 goes to BAR0. -/
theorem regWrite_bar {off : Nat} (hon : s.on = true) (hr : s.reaches src = true) (ho : off < 0x10000) (h8 : off % 8 = 0) :
    Yields (.regWrite src off 8 v) s (s.hush.barWrite src off v) := by
  refine yields_of hon (show exec _ s = execRegWrite src off 8 v s from rfl) ?_
  have hbar4 : (decide (0x20000 ≤ off) && decide (off < 0x28000) && decide (src < 16)) = false := by
    simp only [Bool.and_eq_false_iff, decide_eq_false_iff_not]; omega
  have hacts : (decide (8 = 8) && decide (off % 8 = 0) && decide (off < 0x10000)) = true := by simp [ho, h8]
  rw [hush_reaches, hr, when_true, hbar4, hacts]
  rfl

/-! ### The MSI-X table in BAR4 (R69, R433) -/

/-- An 8-byte write within a head's MSI-X table changes a half of a vector's entry. -/
theorem regWrite_msix {n k : Nat} (hon : s.on = true) (hr : s.reaches src = true) (hsrc : src < 16) (hn : n < 2048) (hk : k = 0 ∨ k = 8) :
    Yields (.regWrite src (0x20000 + 16 * n + k) 8 v) s (s.hush.setMsix src n
      (if k = 0 then { (s.head src).func.msix.get {} n with addr := v }
        else { (s.head src).func.msix.get {} n with data := v.extractLsb' 0 32, masked := flag v 32 })) := by
  refine yields_of hon (show exec _ s = execRegWrite src (0x20000 + 16 * n + k) 8 v s from rfl) ?_
  have hbar4 : (decide (0x20000 ≤ 0x20000 + 16 * n + k) && decide (0x20000 + 16 * n + k < 0x28000) && decide (src < 16)) = true := by
    simp only [Bool.and_eq_true, decide_eq_true_eq]; omega
  have hoff : 0x20000 + 16 * n + k - 0x20000 = 16 * n + k := by omega
  have hvec : (16 * n + k) / 16 = n := by omega
  have hmod : (16 * n + k) % 16 = k := by omega
  have hal : (16 * n + k) % 8 = 0 := by omega
  rw [hush_reaches, hr, when_true, hbar4, if_pos rfl, hoff]
  unfold State.msixWrite
  simp only [hvec, hmod, hal, ne_eq, not_true_eq_false, if_false, if_true, hush_head]

/-- An entry without a pending message changes and sends nothing. -/
theorem setMsix_quiet {h n : Nat} {e : MsixEntry} (he : e.pend = false) :
    s.setMsix h n e = s.modFunc h fun f => { f with msix := f.msix.set {} n e } := by
  have hkeep : ({ e with pend := false } : MsixEntry) = e := by rw [← he]
  unfold State.setMsix
  simp only [he, Bool.false_and, Bool.false_eq_true, if_false, hkeep]

/-- An unmasked entry's pending message leaves. -/
theorem setMsix_sends {h n : Nat} {e : MsixEntry} (he : e.pend = true) (hm : e.masked = false) :
    s.setMsix h n e = (s.modFunc h fun f => { f with msix := f.msix.set {} n { e with pend := false } }).emit (.msix h n) := by
  unfold State.setMsix
  simp only [he, hm, Bool.not_false, Bool.and_self, if_true, Bool.not_true, Bool.and_false]

/-! ### Global registers (R80, R551, R561) -/

/-- An offset of a global register of BAR0, outside the blocks that every source has of its own. -/
structure GlobalAt (off : Nat) : Prop where
  glob : barGlobal off = true
  bar0 : off < 0x10000
  aligned : off % 8 = 0
  idx : off / 4096 ≠ 1
  mbx : off ≠ 0x2000
  head : off < 0x4000 ∨ 0x8000 ≤ off

/-- A write to a global register acts from the management side alone. -/
theorem barWrite_global {off : Nat} (hg : GlobalAt off) :
    s.barWrite src off v = if s.isMgmt src then s.barGlobalWrite off v else s.access src 0xFFF 1 (off / 8) := by
  have hhead : (decide (0x4000 ≤ off) && decide (off < 0x8000)) = false := by
    simp only [Bool.and_eq_false_iff, decide_eq_false_iff_not]; have := hg.head; omega
  unfold State.barWrite
  rw [if_neg hg.idx, if_neg hg.mbx, hhead, if_neg Bool.false_ne_true, if_pos hg.glob]
  rfl

/-- The management side's write to a global register acts. -/
theorem regWrite_global {off : Nat} (hon : s.on = true) (hr : s.reaches src = true) (hm : s.isMgmt src = true) (hg : GlobalAt off) :
    Yields (.regWrite src off 8 v) s (s.hush.barGlobalWrite off v) := by
  have h := regWrite_bar (v := v) hon hr hg.bar0 hg.aligned
  rwa [barWrite_global hg, hush_isMgmt, hm, if_pos rfl] at h

/-- Posting an ACCESS notice enters it and changes the tapestry and the counters alone. -/
theorem access_cases (s : State) (src region cause arg : Nat) : ∃ t p, s.access src region cause arg = { s with
    flt := s.flt.enter (Note.words ⟨1, 0x03, src % 32 + (region % 4096) * 32 + (cause % 16) * 2 ^ 17, some arg⟩), tap := t, pmc := p } :=
  note_warn s (Nat.lt_succ_self 1)

/-- Another source's write to a global register posts an ACCESS notice and has no other effect. -/
theorem regWrite_denied {off : Nat} (hon : s.on = true) (hr : s.reaches src = true) (hm : s.isMgmt src = false) (hg : GlobalAt off) :
    Completes (.regWrite src off 8 v) s fun u => ∃ t p, u = { s with
      out := [], tap := t, pmc := p, flt := s.flt.enter (Note.words ⟨1, 0x03, src % 32 + 0xFFF * 32 + 2 ^ 17, some (off / 8)⟩) } := by
  have h := regWrite_bar (v := v) hon hr hg.bar0 hg.aligned
  rw [barWrite_global hg, hush_isMgmt, hm, if_neg Bool.false_ne_true] at h
  obtain ⟨t, p, ha⟩ := access_cases s.hush src 0xFFF 1 (off / 8)
  exact ⟨_, h, t, p, ha⟩

/-- The bucket thresholds are global registers. -/
theorem globalAt_kind {k : Nat} (hk : k < 9) : GlobalAt (0xE000 + 8 * k) := by
  have hblock : (0xE000 + 8 * k) / 4096 = 14 := by omega
  refine ⟨?_, by omega, by omega, by omega, by omega, by omega⟩
  unfold barGlobal
  simp only [hblock, Bool.and_eq_true, Bool.or_eq_true, decide_eq_true_eq]
  omega

/-- A write to the FLT block sets a bucket's threshold (R475). -/
theorem barGlobalWrite_kind {k : Nat} (hk : k < 9) : s.barGlobalWrite (0xE000 + 8 * k) v
    = { s with flt := { s.flt with kinds := s.flt.kinds.set none k (some (v &&& 0xFFFFFFFFFF)) } } := by
  interval_cases k <;> rfl

/-- MGMT_HEAD moves to a present head, and stays where the head named is absent (R80). -/
theorem glbCtl_moves (h8 : flag v 8 = false) : s.glbCtl v
    = if s.present (fld v 0 4) then { s with glb := { s.glb with mgmtHead := Trw.all (BitVec.ofNat 64 (fld v 0 4)) } } else s := by
  unfold State.glbCtl
  rw [h8, if_neg Bool.false_ne_true]
  rfl

/-- MGMT_HEAD is written by a command of its own or through GLB_CTL. -/
theorem mgmtHead_yields (hon : s.on = true) (hr : s.reaches src = true) (hm : s.isMgmt src = true) (c : Instr)
    (hc : c ∈ [Instr.mgmtHeadWrite src v, .regWrite src 0x18 8 v]) : Yields c s (s.hush.glbCtl v) := by
  simp only [List.mem_cons, List.not_mem_nil, or_false] at hc
  rcases hc with rfl | rfl
  · exact yields_of hon (show exec _ s = execMgmtHeadWrite src v s from rfl) (globalWrite_mgmt _ _ hr hm)
  · exact regWrite_global hon hr hm (by constructor <;> decide)

/-! ### IDX pairs (R556, R557) -/

variable {p i : Nat}

/-- A write of IDX_ADDR sets the index and AUTO_INC of its pair. -/
theorem regWrite_idxAddr (hon : s.on = true) (hr : s.reaches src = true) (hp : p < 4) : Yields (.regWrite src (0x1000 + 16 * p) 8 v) s
    (s.hush.setIdx src p { s.idxPair src p with index := fld v 0 24, autoInc := flag v 24 }) := by
  have h := regWrite_bar (v := v) hon hr (off := 0x1000 + 16 * p) (by omega) (by omega)
  have hpair : (0x1000 + 16 * p - 0x1000) / 16 = p := by omega
  unfold State.barWrite at h
  rwa [if_pos (by omega), if_neg (by omega), if_pos (by omega), hpair] at h

/-- A write of IDX_DATA by a source that reaches it. -/
theorem idxData_write (hon : s.on = true) (hr : s.reaches src = true) (hp : p < 4) :
    Yields (.idxDataAccess src p (some v)) s (s.hush.idxWrite src p v) := by
  refine yields_of hon (show exec _ s = execIdxDataAccess src p (some v) s from rfl) ?_
  rw [hush_reaches, hr, decide_eq_true hp]
  rfl

/-- A read of IDX_DATA by a source that reaches it. -/
theorem idxData_read (hon : s.on = true) (hr : s.reaches src = true) (hp : p < 4) : Yields (.idxDataAccess src p none) s
    ((s.hush.idxRead src p).2.emit (.regRead src (s.hush.idxRead src p).1)) := by
  refine yields_of hon (show exec _ s = execIdxDataAccess src p none s from rfl) ?_
  rw [hush_reaches, hr, decide_eq_true hp]
  rfl

/-- A read of IDX_DATA gives the register that the pair names. -/
theorem idxRead_mapped {w : Word} (hw : s.indWord (s.idxPair src p).index = some w) :
    s.idxRead src p = (w, s.setIdx src p ((s.idxPair src p).after 0)) := by
  unfold State.idxRead; dsimp only; rw [hw]

/-- A read of IDX_DATA where the index names no register gives 0 and sets ERR. -/
theorem idxRead_unmapped (hw : s.indWord (s.idxPair src p).index = none) :
    s.idxRead src p = (0, s.setIdx src p ((s.idxPair src p).after 1)) := by
  unfold State.idxRead; dsimp only; rw [hw]

/-- A write of IDX_DATA does what the write of its register does, and advances the pair. -/
theorem idxWrite_eq {e : Nat} {t : State} (hw : s.indWrite src (s.idxPair src p).index v = (e, t)) :
    s.idxWrite src p v = t.setIdx src p ((s.idxPair src p).after e) := by
  unfold State.idxWrite; dsimp only; rw [hw]

/-- A write of an index that names no register has no effect. -/
theorem indWrite_unmapped (hw : s.indWord i = none) : s.indWrite src i v = (1, s) := by
  unfold State.indWrite; simp [hw]

/-- A write to a global indirect register outside the region table acts from the management side, where the block may be written. -/
theorem indWrite_global (hw : (s.indWord i).isSome = true) (h1 : i / 65536 ≠ 1) (h4 : i < 0x400000) :
    s.indWrite src i v = if s.isMgmt src && ! indSealed i then (0, s.indGlobalWrite i v) else (2, s.access src 0xFFF 1 (i + 2 ^ 24)) := by
  have hmapped : (s.indWord i).isNone = false := by rw [Option.isNone_eq_false_iff]; exact hw
  unfold State.indWrite
  rw [hmapped, if_neg Bool.false_ne_true, if_neg h1, if_neg (Nat.not_le.mpr h4)]
  rfl

/-! ### The fence (R553) -/

/-- A fence counts and returns its count. -/
theorem glbFence_counts (hon : s.on = true) (hr : s.reaches src = true) {n : Nat} (hn : n = (s.glb.fences.get 0 src + 1) % 2 ^ 32) :
    Yields (.glbFence src) s
      { s with out := [.regRead src (BitVec.ofNat 64 n)], glb := { s.glb with fences := s.glb.fences.set 0 src n } } := by
  refine yields_of hon (show exec _ s = execGlbFence src s from rfl) ?_
  rw [hush_reaches, hr, when_true, hn]
  rfl

/-! ### Fetches of wide values (R558, R559) -/

/-- What MBX_SEL holds to name an INDEX of a space. -/
def selWord (space index : Nat) : Word := BitVec.ofNat 64 (space * 2 ^ 40 + index)

section
variable {sp index : Nat} (hsp : sp < 5) (hindex : index < 2 ^ 40)
include hsp hindex

theorem selWord_toNat : (selWord sp index).toNat = sp * 2 ^ 40 + index := by
  unfold selWord; rw [BitVec.toNat_ofNat]; omega

/-- The fields of MBX_SEL lie below bit 48. -/
theorem selWord_masked : selWord sp index &&& 0xFFFFFFFFFFFF = selWord sp index := by
  apply BitVec.eq_of_toNat_eq
  rw [BitVec.toNat_and, selWord_toNat hsp hindex]
  show (sp * 2 ^ 40 + index) &&& (2 ^ 48 - 1) = _
  rw [Nat.and_two_pow_sub_one_eq_mod]
  omega

theorem selWord_space : fld (selWord sp index) 40 8 = sp := by
  unfold fld; rw [selWord_toNat hsp hindex, Nat.shiftRight_eq_div_pow]; omega

theorem selWord_index : fld (selWord sp index) 0 40 = index := by
  unfold fld; rw [selWord_toNat hsp hindex, Nat.shiftRight_eq_div_pow]; omega

omit hsp in
/-- A fetch on an idle mailbox is a write of MBX_SEL and its end. -/
theorem mbxFetch_idle (hr : s.reaches src = true) (hb : (s.mbx src).busy = false) :
    s.mbxFetch src sp index = (s.mbxSelect src (selWord sp index)).mbxEnd src := by
  have hsel : atBit (sp * 2 ^ 40 + index % 2 ^ 40) 0 = selWord sp index := by
    unfold atBit selWord; rw [Nat.shiftLeft_zero, Nat.mod_eq_of_lt hindex]
  unfold State.mbxFetch
  dsimp only
  rw [hr, when_true, hb, hsel]
  simp only [Bool.false_and, Bool.false_eq_true, if_false]

/-- A write of MBX_SEL starts the fetch, or ends it with its error. -/
theorem mbxSelect_eq : s.mbxSelect src (selWord sp index)
    = if s.mbxErr src sp index = 3
        then (s.setMbx src { sel := selWord sp index, err := 3 }).access src 0xFFF 5 ((selWord sp index).toNat + 2 ^ 60)
        else s.setMbx src { sel := selWord sp index, busy := s.mbxErr src sp index = 0, err := s.mbxErr src sp index } := by
  unfold State.mbxSelect
  simp only [selWord_masked hsp hindex, selWord_space hsp hindex, selWord_index hsp hindex]
  split
  · rename_i h; rw [h]; rfl
  · rfl

end

/-- A mailbox that was set to a value other than its reset value holds it. -/
theorem mbx_setMbx {m : Mbx} (hm : m ≠ {}) : (s.setMbx src m).mbx src = m := Tbl.get_set_self _ _ _ hm _

/-- Setting a source's mailbox leaves the others. -/
theorem mbx_setMbx_ne {m : Mbx} {h : Nat} (hh : h ≠ src) (hwf : s.glb.mbx.wf {} = true) : (s.setMbx src m).mbx h = s.mbx h :=
  Tbl.get_set_ne _ _ hh hwf

/-- A mailbox with no fetch in progress stays as it is. -/
theorem mbxEnd_idle (hb : (s.mbx src).busy = false) : s.mbxEnd src = s := by
  unfold State.mbxEnd; dsimp only; rw [hb]; rfl

/-! ### How a fetch ends -/

/-- The spaces that a source may fetch from: the tapestry's is everyone's, the others the management side's. -/
def Allowed (s : State) (src sp : Nat) : Prop := sp = 1 ∨ s.isMgmt src = true

section
variable {sp index : Nat} (h1 : 1 ≤ sp) (hsp : sp < 5) (hindex : index < 2 ^ 40)
include h1 hsp

theorem mbxErr_denied (hne : sp ≠ 1) (hm : s.isMgmt src = false) : s.mbxErr src sp index = 3 := by
  have hspace : (decide (sp = 0) || decide (4 < sp)) = false := by simp only [Bool.or_eq_false_iff, decide_eq_false_iff_not]; omega
  unfold State.mbxErr
  simp [hspace, hne, hm]

theorem mbxErr_allowed (ha : Allowed s src sp) : s.mbxErr src sp index = if mbxRange sp index then 0 else 2 := by
  have hspace : (decide (sp = 0) || decide (4 < sp)) = false := by simp only [Bool.or_eq_false_iff, decide_eq_false_iff_not]; omega
  unfold State.mbxErr
  rcases ha with h | h <;> cases mbxRange sp index <;> simp [hspace, h]

include hindex

/-- A fetch within its space leaves a snapshot and VALID; one of the tapestry gives its verdict too (R533, R558). -/
theorem fetch_ends (ha : Allowed s src sp) (hrange : mbxRange sp index = true) :
    ∃ b, (s.mbxSelect src (selWord sp index)).mbxEnd src = { s with
        glb := { s.glb with mbx := b }
        tap := { s.tap with verdict := if sp = 1 then (s.tapArea index).verdict (index % 2 ^ 24) else s.tap.verdict } }
      ∧ Tbl.get {} b src = { sel := selWord sp index, valid := true, data := s.mbxValue sp index }
      ∧ (s.glb.mbx.wf {} = true → ∀ h, h ≠ src → Tbl.get {} b h = s.mbx h) := by
  obtain ⟨m, hm⟩ : ∃ m : Mbx, m = { sel := selWord sp index, busy := true } := ⟨_, rfl⟩
  obtain ⟨e, he⟩ : ∃ e : Mbx, e = { sel := selWord sp index, valid := true, data := s.mbxValue sp index } := ⟨_, rfl⟩
  have hstart : s.mbxSelect src (selWord sp index) = s.setMbx src m := by
    rw [mbxSelect_eq hsp hindex, mbxErr_allowed h1 hsp ha, hrange, hm]; rfl
  have hread : (s.setMbx src m).mbx src = m := mbx_setMbx (by rw [hm]; intro h; cases congrArg Mbx.busy h)
  have hdone : { m with busy := false, valid := true, data := (s.setMbx src m).mbxValue sp index } = e := by rw [hm, he]; rfl
  have hend : (s.setMbx src m).mbxEnd src = if sp = 1
      then { (s.setMbx src m).setMbx src e with tap := { s.tap with verdict := (s.tapArea index).verdict (index % 2 ^ 24) } }
      else (s.setMbx src m).setMbx src e := by
    unfold State.mbxEnd
    have hspace : fld m.sel 40 8 = sp := by rw [hm]; exact selWord_space hsp hindex
    have hidx : fld m.sel 0 40 = index := by rw [hm]; exact selWord_index hsp hindex
    have hbusy : (! m.busy) = false := by rw [hm]; rfl
    dsimp only
    rw [hread, hspace, hidx, hbusy, hdone, if_neg Bool.false_ne_true]
    rfl
  refine ⟨((s.setMbx src m).setMbx src e).glb.mbx, ?_, ?_, fun hwf h hh => ?_⟩
  · rw [hstart, hend]; split <;> rfl
  · rw [← he]
    exact mbx_setMbx (s := s.setMbx src m) (by rw [he]; intro h; cases congrArg Mbx.valid h)
  · exact (mbx_setMbx_ne (s := s.setMbx src m) hh (Tbl.wf_set _ _ _ hwf)).trans (mbx_setMbx_ne hh hwf)

/-- A fetch with an INDEX outside its space ends with RANGE. -/
theorem fetch_range (ha : Allowed s src sp) (hrange : mbxRange sp index = false) :
    (s.mbxSelect src (selWord sp index)).mbxEnd src = s.setMbx src { sel := selWord sp index, err := 2 } := by
  have hstart : s.mbxSelect src (selWord sp index) = s.setMbx src { sel := selWord sp index, err := 2 } := by
    rw [mbxSelect_eq hsp hindex, mbxErr_allowed h1 hsp ha, hrange]; rfl
  have hread := mbx_setMbx (s := s) (src := src) (m := { sel := selWord sp index, err := 2 }) (by intro h; cases congrArg Mbx.err h)
  rw [hstart, mbxEnd_idle (by rw [hread])]

/-- A fetch of a space that the source may not read ends with ACCESS and a notice. -/
theorem fetch_denied (hne : sp ≠ 1) (hm : s.isMgmt src = false) : ∃ t p, (s.mbxSelect src (selWord sp index)).mbxEnd src
    = { s.setMbx src { sel := selWord sp index, err := 3 } with
        tap := t
        pmc := p
        flt := s.flt.enter (Note.words ⟨1, 0x03, src % 32 + 0xFFF * 32 + 5 * 2 ^ 17, some ((selWord sp index).toNat + 2 ^ 60)⟩) } := by
  obtain ⟨x, hx⟩ : ∃ x : State, x = s.setMbx src { sel := selWord sp index, err := 3 } := ⟨_, rfl⟩
  obtain ⟨t, p, ha⟩ := access_cases x src 0xFFF 5 ((selWord sp index).toNat + 2 ^ 60)
  have hidle : (x.mbx src).busy = false := by rw [hx, mbx_setMbx (by intro h; cases congrArg Mbx.err h)]
  refine ⟨t, p, ?_⟩
  rw [mbxSelect_eq hsp hindex, mbxErr_denied h1 hsp hne hm, if_pos rfl, ← hx, ha]
  refine (mbxEnd_idle (by exact hidle)).trans ?_
  rw [hx]
  rfl

end

/-- The commands that fetch, with their spaces. -/
theorem exec_fetch {c : Instr} {sp index : Nat} (s : State) (hc : (c, sp) ∈
    [(Instr.tapestryFetch src index, 1), (.rftFetch src index, 2), (.trainFetch src index, 3), (.commitFetch src index, 4)]) :
    1 ≤ sp ∧ sp < 5 ∧ exec c s = run (fun s => s.mbxFetch src sp index) s := by
  simp only [List.mem_cons, List.not_mem_nil, or_false, Prod.mk.injEq] at hc
  rcases hc with ⟨rfl, rfl⟩ | ⟨rfl, rfl⟩ | ⟨rfl, rfl⟩ | ⟨rfl, rfl⟩ <;> exact ⟨by decide, by decide, rfl⟩

/-! ### The obligation -/

/-- Settles O60: register writes, indexed access and the fence, then the fetches of wide values. -/
theorem registersAndWideValues : Obligations.RegistersAndWideValues := by
  unfold Obligations.RegistersAndWideValues
  refine ⟨fun s src hon hr => ⟨fun off size v => regWrite_inert hon hr, fun n v x hsrc hn hx => ⟨fun hp => ⟨?addr, ?mask⟩, fun hp hv => ?sends⟩,
    fun off v hg h0 h8 h1 h2 hh hm => regWrite_denied hon hr hm ⟨hg, h0, h8, h1, h2, hh⟩, fun v hm => ?globals,
    fun p v hp => regWrite_idxAddr hon hr hp, fun p i hp hi => ?indexed, fun n hn => glbFence_counts hon hr hn⟩,
    fun s src index sp c hon hr hindex hb hc => ?fetches⟩
  case addr =>
    have h := regWrite_msix (v := v) (k := 0) hon hr hsrc hn (.inl rfl)
    rwa [if_pos rfl, hx, setMsix_quiet (by exact hp)] at h
  case mask =>
    have h := regWrite_msix (v := v) (k := 8) hon hr hsrc hn (.inr rfl)
    rwa [if_neg (by decide), hx, setMsix_quiet (by exact hp)] at h
  case sends =>
    have h := regWrite_msix (v := v) (k := 8) hon hr hsrc hn (.inr rfl)
    rw [if_neg (by decide), hx, setMsix_sends (by exact hp) hv, hv] at h
    exact h
  case globals =>
    have hmgmt : ∀ c ∈ [Instr.mgmtHeadWrite src v, .regWrite src 0x18 8 v], Yields c s (s.hush.glbCtl v) := mgmtHead_yields hon hr hm
    refine ⟨regWrite_global hon hr hm (by constructor <;> decide), regWrite_global hon hr hm (by constructor <;> decide),
      regWrite_global hon hr hm (by constructor <;> decide), regWrite_global hon hr hm (by constructor <;> decide),
      regWrite_global hon hr hm (by constructor <;> decide), regWrite_global hon hr hm (by constructor <;> decide),
      fun k hk => ?_, fun h8 => ⟨fun hp c hc => ?_, fun hp c hc => ?_⟩⟩
    · have h := regWrite_global (v := v) hon hr hm (globalAt_kind hk)
      rwa [barGlobalWrite_kind hk] at h
    · have h := hmgmt c hc
      rwa [glbCtl_moves h8, hush_present, if_pos hp] at h
    · have h := hmgmt c hc
      rwa [glbCtl_moves h8, hush_present, hp, if_neg Bool.false_ne_true] at h
  case indexed =>
    subst hi
    intro x t
    refine ⟨fun w hw => ?read, fun hw => ⟨?unmapped, fun v => ?lost⟩, fun v hm h6 => ?beam, fun v hm h5 => ?cleaner, fun v hden => ?denied⟩
    case read =>
      have h := idxData_read hon hr hp
      rwa [idxRead_mapped (s := s.hush) hw] at h
    case unmapped =>
      have h := idxData_read hon hr hp
      rwa [idxRead_unmapped (s := s.hush) hw] at h
    case lost =>
      have h := idxData_write (v := v) hon hr hp
      rwa [idxWrite_eq (s := s.hush) (indWrite_unmapped hw)] at h
    case beam =>
      have h := idxData_write (v := v) hon hr hp
      have hw : s.hush.indWrite src (s.idxPair src p).index v = (0, s.hush.indGlobalWrite 0x60000 v) := by
        rw [h6, indWrite_global rfl (by decide) (by decide), hush_isMgmt, hm]; rfl
      rwa [idxWrite_eq (s := s.hush) hw] at h
    case cleaner =>
      have h := idxData_write (v := v) hon hr hp
      have hw : s.hush.indWrite src (s.idxPair src p).index v = (0, s.hush.indGlobalWrite 0x50001 v) := by
        rw [h5, indWrite_global rfl (by decide) (by decide), hush_isMgmt, hm]; rfl
      rwa [idxWrite_eq (s := s.hush) hw] at h
    case denied =>
      have hw : s.hush.indWrite src (s.idxPair src p).index v = (2, s.hush.access src 0xFFF 1 ((s.idxPair src p).index + 2 ^ 24)) := by
        rcases hden with ⟨hm, hi⟩ | hi | hi
        · rw [hi, indWrite_global rfl (by decide) (by decide), hush_isMgmt, hm]; rfl
        · rw [hi, indWrite_global rfl (by decide) (by decide)]; simp [indSealed]
        · rw [hi, indWrite_global rfl (by decide) (by decide)]; simp [indSealed]
      have h := idxData_write (v := v) hon hr hp
      obtain ⟨tp, pm, ha⟩ := access_cases s.hush src 0xFFF 1 ((s.idxPair src p).index + 2 ^ 24)
      rw [idxWrite_eq (s := s.hush) hw, ha] at h
      exact ⟨_, h, tp, pm, rfl⟩
  case fetches =>
    obtain ⟨h1, h5, hx⟩ := exec_fetch s hc
    intro sel
    have hf : s.hush.mbxFetch src sp index = (s.hush.mbxSelect src (selWord sp index)).mbxEnd src := mbxFetch_idle hindex hr hb
    refine ⟨fun ha hrange hwf => completes_of hon hx ?_, fun hne hm hwf => completes_of hon hx ?_, fun ha hrange => yields_of hon hx ?_⟩
    · obtain ⟨b, he, hsrc, hother⟩ := fetch_ends (s := s.hush) h1 h5 hindex ha hrange
      rw [hf, he]
      exact ⟨hsrc, hother hwf, rfl, fun hne => by simp [hne], fun hsp => by simp [hsp]; rfl⟩
    · obtain ⟨t, p, he⟩ := fetch_denied (s := s.hush) h1 h5 hindex hne hm
      rw [hf, he]
      exact ⟨mbx_setMbx (s := s.hush) (by intro h; cases congrArg Mbx.err h), t, p, rfl⟩
    · rw [hf, fetch_range (s := s.hush) h1 h5 hindex ha hrange]
      rfl

end Sys2Proof.Proofs.Registers
end

