-- ==== Sys2Proof/Proofs/Heads.lean ====
section
/-! SUPPORT. What the link of a head may change: the head itself, what is sent, and the rates in force (R62, R75, R82, R379). -/
namespace Sys2Proof.Proofs.Heads
open Sys2Proof Sys2Proof.Machine Sys2Proof.Laws

variable {s t u : State} {h : Nat}

/-! ### The part of the state that a link moves -/

/-- From s to u only head h, what is sent and the rates in force have changed. -/
structure Touched (s u : State) (h : Nat) : Prop where
  frame : u = { s with out := u.out, heads := u.heads, qos := u.qos }
  apart : Hapart s.heads u.heads h

theorem Touched.trans (h1 : Touched s t h) (h2 : Touched t u h) : Touched s u h :=
  ⟨by rw [h2.frame, h1.frame], fun hw => by
    obtain ⟨hwt, ht⟩ := h1.apart hw
    obtain ⟨hwu, hu⟩ := h2.apart hwt
    exact ⟨hwu, fun k hk => (hu k hk).trans (ht k hk)⟩⟩

/-- The other heads are as they were. -/
theorem Touched.others (ht : Touched s u h) (hw : s.heads.wf {} = true) : ∀ k, k ≠ h → u.head k = s.head k := (ht.apart hw).2

theorem modHead_touched (s : State) (h : Nat) (f : Head → Head) : Touched s (s.modHead h f) h := ⟨rfl, hapart_set _ (hapart_refl _ _)⟩

theorem modLink_touched (s : State) (h : Nat) (f : Link → Link) : Touched s (s.modLink h f) h := modHead_touched s h _

theorem modFunc_touched (s : State) (h : Nat) (f : Func → Func) : Touched s (s.modFunc h f) h := modHead_touched s h _

/-- A link that is not as at reset makes its head one that is listed. -/
theorem modLink_head {f : Link → Link} (hf : f (s.head h).link ≠ {}) :
    (s.modLink h f).head h = { s.head h with link := f (s.head h).link } :=
  head_mod (f := fun x => { x with link := f x.link }) fun hh => hf (congrArg Head.link hh)

/-- The same in a table in canonical form, whatever the link. -/
theorem modLink_head_wf (hw : s.heads.wf {} = true) (f : Link → Link) :
    (s.modLink h f).head h = { s.head h with link := f (s.head h).link } := Tbl.get_set_eq _ _ _ hw

/-- A change of its function leaves a head's link. -/
theorem modFunc_head {f : Func → Func} (hl : (s.head h).link ≠ {}) :
    (s.modFunc h f).head h = { s.head h with func := f (s.head h).func } :=
  head_mod (f := fun x => { x with func := f x.func }) fun hh => hl (congrArg Head.link hh)

/-- A link that is up is not as at reset. -/
theorem link_ne_of_up {l : Link} (hu : l.up = true) : l ≠ {} := fun hh => by rw [hh] at hu; cases hu

/-! ### Rates that follow a link (R75, R379) -/

/-- CDAT and the QoS rates follow a link. -/
def rated (s : State) (h : Nat) : State := (s.cdatUpdate h).qosRecompute

/-- Following a link that is up leaves the link, the bus mastering and the queues of its head. -/
theorem rated_up (hu : (s.head h).link.up = true) : Touched s (rated s h) h ∧ ((rated s h).head h).link = (s.head h).link
    ∧ ((rated s h).head h).func.busMaster = (s.head h).func.busMaster
    ∧ ((rated s h).head h).inQ = (s.head h).inQ ∧ ((rated s h).head h).outQ = (s.head h).outQ := by
  obtain ⟨hs, o, hc, hapart, hlink, -, hbus, hin, hout⟩ := cdat_eq hu
  obtain ⟨q, hq⟩ := recompute_eq (s.cdatUpdate h)
  unfold rated
  rw [hq, hc]
  exact ⟨⟨rfl, hapart⟩, hlink, hbus, hin, hout⟩

/-! ### Recovery (R82) -/

/-- A link in Recovery, out of L0 since a time. -/
def outSince (l : Link) (now : Nat) : Link := if l.recovery then l else { l with recovery := true, outAt := now }

theorem enterRecovery_touched (s : State) (h : Nat) : Touched s (s.enterRecovery h) h := modLink_touched s h _

theorem enterRecovery_head (hu : (s.head h).link.up = true) :
    (s.enterRecovery h).head h = { s.head h with link := outSince (s.head h).link s.clock } := by
  refine modLink_head (f := fun l => if l.recovery then l else { l with recovery := true, outAt := s.clock }) (link_ne_of_up ?_)
  split <;> exact hu

/-- The end of Recovery where nothing waited at the port leaves the head as it is. -/
theorem endRecovery_idle (hu : (s.head h).link.up = true) (hin : (s.head h).inQ = []) (hout : (s.head h).outQ = []) :
    Touched s (s.endRecovery h) h ∧ (s.endRecovery h).head h = s.head h := by
  obtain ⟨hs, he, hapart, hhead⟩ := end_idle rfl hu hin hout
  rw [he]
  exact ⟨⟨rfl, hapart⟩, hhead⟩

end Sys2Proof.Proofs.Heads
end

