-- ==== Sys2Proof/Proofs/Links.lean ====
section
/-! PROOF. Training, Recovery and drops of a host link (R62 to R67, R82 to R86, R507), and obligation O36. -/
namespace Sys2Proof.Proofs.Links
open Sys2Proof Sys2Proof.Machine Sys2Proof.Laws Sys2Proof.Proofs.Heads

variable {s : State} {h : Nat} {l : Link}

/-! ### Training (R62 to R66, R86) -/

/-- The offer of the Agsudric protocol is answered, and the extension is agreed where both partners name it (R63, R64). -/
theorem altProtocolOffer_answers (hon : s.on = true) (hp : s.present h = true) (hl : (s.head h).link = l) (d : BitVec 16) :
    Yields (.altProtocolOffer h 0xA95D 1 d) s { s.modHead h (fun x => { x with link := { l with
      extAgreed := flag l.ctl 2 && (d.getLsbD 0 && d.getLsbD 1 && d.getLsbD 2 && decide (d.extractLsb' 4 4 = 1)) } })
        with out := [.altProtocol h (if flag l.ctl 2 = true then 0x001F else 0)] } := by
  refine yields_of hon (show exec _ s = execAltProtocolOffer h 0xA95D 1 d s from rfl) ?_
  subst hl
  rw [hush_present, hp]
  rfl

/-- The partners go on to 128 GT/s from L0 at a lower rate (R64). -/
def goesOn (l : Link) (rate : Nat) (cxl : Bool) : Bool :=
  l.extAgreed && ! l.no128 && decide (rate < 2) && decide (l.maxRate = 2) && decide (1 ≤ rate) && cxl

/-- A head's link with its values of L0, its bus mastering with CXL (R62). -/
def l0State (s : State) (h rate width : Nat) (ide cxl : Bool) : State :=
  (s.modLink h fun l => l.atL0 s.vlt.active rate width (decide (1 ≤ rate)) ide cxl).modFunc h fun f => { f with busMaster := cxl }

theorem l0State_touched (s : State) (h rate width : Nat) (ide cxl : Bool) : Touched s (l0State s h rate width ide cxl) h :=
  (modLink_touched s h _).trans (modFunc_touched _ h _)

theorem l0State_head (s : State) (h rate width : Nat) (ide cxl : Bool) : (l0State s h rate width ide cxl).head h = { s.head h with
    link := (s.head h).link.atL0 s.vlt.active rate width (decide (1 ≤ rate)) ide cxl
    func := { (s.head h).func with busMaster := cxl } } := by
  have hlink := modLink_head (s := s) (h := h) (f := fun l => l.atL0 s.vlt.active rate width (decide (1 ≤ rate)) ide cxl) (link_ne_of_up rfl)
  unfold l0State
  rw [modFunc_head (by rw [hlink]; exact link_ne_of_up rfl), hlink]

/-- LINK_L0_REACHED, where the training is allowed. -/
theorem linkL0Reached_yields {rate width : Nat} {ide cxl : Bool} (hon : s.on = true) (hmay : s.mayTrain h rate width = true) :
    Yields (.linkL0Reached h rate width (decide (1 ≤ rate)) ide cxl) s
      (let t := l0State s.hush h rate width (ide && ((s.head h).func.ide.get {} 0).inUse.isSome) cxl
      if goesOn (t.head h).link rate cxl then (rated t h).enterRecovery h else (rated t h).endRecovery h) := by
  refine yields_of hon (show exec _ s = execLinkL0Reached h rate width (decide (1 ≤ rate)) ide cxl s from rfl) ?_
  have hguard : (s.hush.mayTrain h rate width && decide (1 ≤ rate) == decide (1 ≤ rate)) = true := by
    rw [beq_self_eq_true, Bool.and_true]; exact hmay
  rw [hguard]
  rfl

/-- L0 takes its rate and width; with the extension in force the link goes through Recovery to 128 GT/s (R62 to R66, R86). -/
theorem linkL0Reached_trains {rate width : Nat} {ide cxl : Bool} (hon : s.on = true) (hl : (s.head h).link = l)
    (hmay : s.mayTrain h rate width = true) (hidle : goesOn l rate cxl = false → (s.head h).inQ = [] ∧ (s.head h).outQ = []) :
    Completes (.linkL0Reached h rate width (decide (1 ≤ rate)) ide cxl) s fun u =>
      (u.head h).link = { l with
        cxl := cxl, up := true, recovery := goesOn l rate cxl, outAt := if goesOn l rate cxl = true then s.clock else l.outAt
        rate := rate, width := width, flit256 := decide (1 ≤ rate), ext128 := decide (rate = 2)
        ideActive := (ide && ((s.head h).func.ide.get {} 0).inUse.isSome), eqFails := if rate = 2 then 0 else l.eqFails
        memOff := l.dropped || ! s.vlt.active || ! cxl, firstWidth := some (l.firstWidth.getD width)
        firstRate := if l.firstWidth.isNone = true then rate else l.firstRate }
      ∧ (u.head h).func.busMaster = cxl
      ∧ (s.heads.wf {} = true → ∀ k, k ≠ h → u.head k = s.head k)
      ∧ u = { s with out := u.out, heads := u.heads, qos := u.qos } := by
  refine ⟨_, linkL0Reached_yields hon hmay, ?_⟩
  subst hl
  obtain ⟨t, ht⟩ : ∃ t, t = l0State s.hush h rate width (ide && ((s.head h).func.ide.get {} 0).inUse.isSome) cxl := ⟨_, rfl⟩
  have hhead := l0State_head s.hush h rate width (ide && ((s.head h).func.ide.get {} 0).inUse.isSome) cxl
  have htouch := l0State_touched s.hush h rate width (ide && ((s.head h).func.ide.get {} 0).inUse.isSome) cxl
  rw [← ht] at hhead htouch
  have hup : (t.head h).link.up = true := by rw [hhead]; rfl
  have hgo : goesOn (t.head h).link rate cxl = goesOn (s.head h).link rate cxl := by rw [hhead]; rfl
  obtain ⟨hrated, hrlink, hrbus, hrin, hrout⟩ := rated_up hup
  have hrup : ((rated t h).head h).link.up = true := by rw [hrlink]; exact hup
  dsimp only
  rw [← ht, hgo]
  cases hg : goesOn (s.head h).link rate cxl with
  | true =>
    have htouched := (htouch.trans hrated).trans (enterRecovery_touched (rated t h) h)
    rw [if_pos rfl, if_pos rfl]
    refine ⟨?_, ?_, fun hw => htouched.others hw, htouched.frame⟩
    · have hclock : (rated t h).clock = s.clock := by rw [(htouch.trans hrated).frame]; rfl
      rw [enterRecovery_head hrup, hrlink, hhead, hclock]
      rfl
    · rw [enterRecovery_head hrup]
      exact hrbus.trans (by rw [hhead])
  | false =>
    obtain ⟨hin, hout⟩ := hidle hg
    obtain ⟨hend, hendHead⟩ := endRecovery_idle hrup (hrin.trans (by rw [hhead]; exact hin)) (hrout.trans (by rw [hhead]; exact hout))
    have htouched := (htouch.trans hrated).trans hend
    rw [if_neg Bool.false_ne_true, if_neg Bool.false_ne_true, hendHead]
    refine ⟨?_, hrbus.trans (by rw [hhead]), fun hw => htouched.others hw, htouched.frame⟩
    rw [hrlink, hhead]
    rfl

/-! ### Equalisation at 128 GT/s (R65) -/

/-- A link that tries for 128 GT/s: it is up, in Recovery, with the extension in force. -/
structure Equalising (s : State) (h : Nat) : Prop where
  present : s.present h = true
  up : (s.head h).link.up = true
  recovery : (s.head h).link.recovery = true
  agreed : (s.head h).link.extAgreed = true
  allowed : (s.head h).link.no128 = false

/-- A link after its second failure at 128 GT/s. -/
def fallenBack (l : Link) : Link := { l with eqFails := 0, no128 := true, rate := 1, ext128 := false, recovery := false }

/-- EQ128_FAIL reports its error; the first failure is counted, the second falls back. -/
theorem eq128Fail_yields (hon : s.on = true) (he : Equalising s h) : Yields (.eq128Fail h) s
    (let t := s.hush.linkError h [.equalisation]
    if (s.head h).link.eqFails = 0 then t.modLink h fun l => { l with eqFails := 1 }
      else (rated ((t.modLink h fallenBack).note ⟨1, 0x05, h, none⟩) h).endRecovery h) := by
  refine yields_of hon (show exec _ s = execEq128Fail h s from rfl) ?_
  have hguard : (s.hush.present h && (s.hush.head h).link.up && (s.hush.head h).link.recovery && (s.hush.head h).link.extAgreed
      && ! (s.hush.head h).link.no128) = true := by
    rw [hush_present, hush_head, he.present, he.up, he.recovery, he.agreed, he.allowed]; rfl
  exact congrArg (fun b => s.hush.when b _) hguard

/-- A head that has reported a link error keeps the rest. -/
theorem linkError_head (hl : (s.head h).link ≠ {}) (es : List LinkError) : (s.linkError h es).head h
    = { s.head h with func := { (s.head h).func with errors := ((s.head h).func.errors ++ es).eraseDups } } := modFunc_head hl

theorem linkError_touched (s : State) (h : Nat) (es : List LinkError) : Touched s (s.linkError h es) h := modFunc_touched s h _

/-- The first failed equalisation is remembered. -/
theorem eq128Fail_first (hon : s.on = true) (he : Equalising s h) (h0 : (s.head h).link.eqFails = 0) :
    Completes (.eq128Fail h) s fun u =>
      u.head h = { s.head h with
        link := { (s.head h).link with eqFails := 1 }
        func := { (s.head h).func with errors := ((s.head h).func.errors ++ [LinkError.equalisation]).eraseDups } }
      ∧ (s.heads.wf {} = true → ∀ k, k ≠ h → u.head k = s.head k)
      ∧ u = { s with out := [], heads := u.heads } := by
  have hy := eq128Fail_yields hon he
  rw [if_pos h0] at hy
  have herr := linkError_head (s := s.hush) (link_ne_of_up he.up) [LinkError.equalisation]
  have htouched := (linkError_touched s.hush h [.equalisation]).trans (modLink_touched _ h fun l => { l with eqFails := 1 })
  refine ⟨_, hy, ?_, fun hw => htouched.others hw, rfl⟩
  refine (modLink_head (link_ne_of_up ?_)).trans ?_
  · rw [herr]; exact he.up
  · rw [herr]; rfl

/-- The second failed equalisation takes the link back to L0 at 64 GT/s, with its notice. -/
theorem eq128Fail_second (hon : s.on = true) (he : Equalising s h) (h0 : (s.head h).link.eqFails ≠ 0) (hin : (s.head h).inQ = [])
    (hout : (s.head h).outQ = []) : Completes (.eq128Fail h) s fun u =>
      (u.head h).link = fallenBack (s.head h).link
      ∧ (s.heads.wf {} = true → ∀ k, k ≠ h → u.head k = s.head k)
      ∧ u.flt = s.flt.enter (Note.words ⟨1, 0x05, h, none⟩)
      ∧ u = { s with out := u.out, heads := u.heads, qos := u.qos, flt := u.flt, tap := u.tap, pmc := u.pmc } := by
  have hy := eq128Fail_yields hon he
  rw [if_neg h0] at hy
  obtain ⟨t, ht⟩ : ∃ t, t = (s.hush.linkError h [.equalisation]).modLink h fallenBack := ⟨_, rfl⟩
  have herr := linkError_head (s := s.hush) (link_ne_of_up he.up) [LinkError.equalisation]
  have hup1 : ((s.hush.linkError h [.equalisation]).head h).link.up = true := by rw [herr]; exact he.up
  have hhead := modLink_head (s := s.hush.linkError h [.equalisation]) (h := h) (f := fallenBack) (link_ne_of_up hup1)
  have htouch := (linkError_touched s.hush h [.equalisation]).trans (modLink_touched _ h fallenBack)
  rw [herr, ← ht] at hhead
  rw [← ht] at htouch
  obtain ⟨tp, pm, hnote⟩ := note_warn t (n := ⟨1, 0x05, h, none⟩) (Nat.lt_succ_self 1)
  obtain ⟨x, hx⟩ : ∃ x : State, x = { t with flt := t.flt.enter (Note.words ⟨1, 0x05, h, none⟩), tap := tp, pmc := pm } := ⟨_, rfl⟩
  have hxhead : x.head h = t.head h := by rw [hx]; rfl
  have hup : (x.head h).link.up = true := by rw [hxhead, hhead]; exact he.up
  obtain ⟨hrated, hrlink, -, hrin, hrout⟩ := rated_up hup
  have hrup : ((rated x h).head h).link.up = true := by rw [hrlink]; exact hup
  obtain ⟨hend, hendHead⟩ := endRecovery_idle hrup (hrin.trans (by rw [hxhead, hhead]; exact hin)) (hrout.trans (by rw [hxhead, hhead]; exact hout))
  have hlast := hrated.trans hend
  have hflt : t.flt = s.flt := by rw [htouch.frame]; rfl
  rw [← ht, hnote, ← hx] at hy
  refine ⟨_, hy, ?_, fun hw k hk => ?_, ?_, ?_⟩
  · rw [hendHead, hrlink, hxhead, hhead]; rfl
  · have hwt : x.heads.wf {} = true := by rw [hx]; exact (htouch.apart hw).1
    have hxk : x.head k = t.head k := by rw [hx]; rfl
    rw [hlast.others hwt k hk, hxk]
    exact htouch.others hw k hk
  · rw [hlast.frame, hx, hflt]
  · rw [hlast.frame, hx, htouch.frame]; rfl

/-! ### RETRAIN and Recovery (R65, R82) -/

/-- A link after RETRAIN, which allows 128 GT/s again where MAX_RATE does. -/
def retrained (l : Link) : Link := { l with no128 := l.no128 && l.maxRate ≠ 2, eqFails := if l.maxRate = 2 then 0 else l.eqFails }

/-- RETRAIN on a link that is up or down, field by field. -/
theorem retrained_eq (l : Link) (now : Nat) : retrained (if l.up then outSince l now else l) = { l with
    recovery := l.up || l.recovery, outAt := if (l.up && ! l.recovery) = true then now else l.outAt
    no128 := (l.no128 && decide (l.maxRate ≠ 2)), eqFails := if l.maxRate = 2 then 0 else l.eqFails } := by
  obtain ⟨ctl, rate, width, up, flit256, ext128, extAgreed, ideActive, recovery⟩ := l
  cases up <;> cases recovery <;> rfl

/-- RETRAIN changes the link of its head, which is listed where it is up or the table is in canonical form. -/
theorem retrain_head (hlisted : (s.head h).link.up = true ∨ s.heads.wf {} = true) : Touched s (s.retrain h) h
    ∧ (s.retrain h).head h = { s.head h with link := retrained (if (s.head h).link.up then outSince (s.head h).link s.clock else (s.head h).link) } := by
  have hr : s.retrain h = (if (s.head h).link.up then s.enterRecovery h else s).modLink h retrained := rfl
  cases hup : (s.head h).link.up with
  | true =>
    rw [hup, if_pos rfl] at hr
    have hhead := enterRecovery_head hup
    rw [hr, if_pos rfl]
    refine ⟨(enterRecovery_touched s h).trans (modLink_touched _ h _), (modLink_head (link_ne_of_up ?_)).trans (by rw [hhead])⟩
    rw [hhead]
    show (outSince (s.head h).link s.clock).up = true
    unfold outSince
    split <;> exact hup
  | false =>
    rw [hup, if_neg Bool.false_ne_true] at hr
    rw [hr, if_neg Bool.false_ne_true]
    exact ⟨modLink_touched s h _, modLink_head_wf (hlisted.resolve_left (by rw [hup]; exact Bool.false_ne_true)) _⟩

/-- RETRAIN takes a link that is up through Recovery, from its own head or the management side (R65, R81). -/
theorem retrain_retrains {src : Nat} (hon : s.on = true) (hp : s.present h = true) (hl : (s.head h).link = l) (hr : s.reaches src = true)
    (hw : src = h ∨ s.isMgmt src = true) (hlisted : l.up = true ∨ s.heads.wf {} = true) : Completes (.retrain src h) s fun u =>
      u.head h = { s.head h with link := { l with
        recovery := l.up || l.recovery, outAt := if (l.up && ! l.recovery) = true then s.clock else l.outAt
        no128 := (l.no128 && decide (l.maxRate ≠ 2)), eqFails := if l.maxRate = 2 then 0 else l.eqFails } }
      ∧ (s.heads.wf {} = true → ∀ k, k ≠ h → u.head k = s.head k)
      ∧ u = { s with out := [], heads := u.heads } := by
  subst hl
  have hguard : (s.hush.reaches src && s.hush.present h) = true := by rw [hush_reaches, hush_present, hr, hp]; rfl
  have hwriter : s.hush.headWriter src h = true := by
    unfold State.headWriter; rw [hush_isMgmt, Bool.or_eq_true, decide_eq_true_eq]; exact hw
  have hy : Yields (.retrain src h) s (s.hush.retrain h) := by
    refine yields_of hon (show exec _ s = execRetrain src h s from rfl) ?_
    rw [hguard, when_true, hwriter, if_pos rfl]
  obtain ⟨htouched, hhead⟩ := retrain_head (s := s.hush) (h := h) hlisted
  refine ⟨_, hy, hhead.trans ?_, fun hw => htouched.others hw, ?_⟩
  · rw [retrained_eq]; rfl
  · unfold State.retrain; split <;> rfl

/-- A link that is up goes out of L0 into Recovery (R82). -/
theorem linkRecoveryEnter_enters (hon : s.on = true) (hp : s.present h = true) (hl : (s.head h).link = l) (hup : l.up = true) :
    Yields (.linkRecoveryEnter h) s (s.hush.modHead h fun x => { x with link :=
      if l.recovery = true then l else { l with recovery := true, outAt := s.clock } }) := by
  subst hl
  refine yields_of hon (show exec _ s = execLinkRecoveryEnter h s from rfl) ?_
  have hguard : s.hush.linkUp h = true := by unfold State.linkUp; rw [hush_present, hush_head, hp, hup]; rfl
  rw [hguard]
  rfl

/-! ### Drops (R67, R83 to R85, R507) -/

/-- The three commands that drop a link, with the errors they report. -/
theorem drop_yields {c : Instr} {es : List LinkError} (hon : s.on = true) (hup : s.linkUp h = true)
    (hc : (c, es) ∈ [(Instr.linkOutOfL0Timeout h, [LinkError.surpriseDown]), (.linkDrop h, [.surpriseDown]), (.ideIntegrityFail h, [.ideCheck, .cxlIde])])
    (hout : c = .linkOutOfL0Timeout h → (s.head h).link.recovery = true ∧ (s.head h).link.outAt + 20000000 ≤ s.clock)
    (hide : c = .ideIntegrityFail h → ((s.head h).func.ide.any fun e => e.2.inUse.isSome) = true) :
    Yields c s ((s.hush.dropLink h).linkError h es) := by
  have hup' : s.hush.linkUp h = true := hup
  simp only [List.mem_cons, List.not_mem_nil, or_false, Prod.mk.injEq] at hc
  rcases hc with ⟨rfl, rfl⟩ | ⟨rfl, rfl⟩ | ⟨rfl, rfl⟩
  · obtain ⟨hrec, hdue⟩ := hout rfl
    refine yields_of hon (show exec _ s = execLinkOutOfL0Timeout h s from rfl) ?_
    rw [hup', hush_head, hrec, Bool.and_self, when_true, elapse_done (by exact hdue)]
  · refine yields_of hon (show exec _ s = execLinkDrop h s from rfl) ?_
    rw [hup', when_true]
  · refine yields_of hon (show exec _ s = execIdeIntegrityFail h s from rfl) ?_
    rw [hup', hush_head, hide rfl, Bool.and_self, when_true]

/-- What becomes of a ring pair when a head's link drops. -/
theorem dropLink_ring {r : Nat} (hs : s.coh.snoops = []) (hb : s.coh.heldBirsp = []) :
    ((s.ring r).owner = h → (s.ring r).st ≠ .off → (s.dropLink h).ring r = { s.ring r with st := .detached })
      ∧ ((s.ring r).owner ≠ h → s.ring r ≠ {} → (s.dropLink h).ring r = s.ring r) := by
  obtain ⟨f, hf⟩ : ∃ f : Machine.Ring → Machine.Ring, f = fun x => if x.owner = h && x.st ≠ .off then { x with st := .detached } else x := ⟨_, rfl⟩
  have hrings : (s.dropLink h).rng.rings = s.rng.rings.mapVals {} fun _ x => f x := by rw [dropLink_eq hs hb, hf]; rfl
  have hread : f (s.ring r) ≠ {} → (s.dropLink h).ring r = f (s.ring r) := by
    intro hne
    unfold State.ring
    rw [hrings]
    exact get_mapVals ({} : Machine.Ring) (fun _ x => f x) r (by rw [hf]; simp) s.rng.rings hne
  refine ⟨fun ho hst => ?_, fun ho hne => ?_⟩
  · have hdet : f (s.ring r) = { s.ring r with st := .detached } := by rw [hf]; simp [ho, hst]
    rw [hdet] at hread
    exact hread fun hh => by cases congrArg Ring.st hh
  · have hkeep : f (s.ring r) = s.ring r := by rw [hf]; simp [ho]
    rw [hkeep] at hread
    exact hread hne

/-- The head counts as gone in each snoop-filter entry that records it (R84). -/
theorem dropLink_sf (hs : s.coh.snoops = []) (hb : s.coh.heldBirsp = []) (hw : s.coh.sf.wf {} = true) (i : Nat) :
    (s.dropLink h).coh.sf.get {} i = if (s.coh.sf.get {} i).pres.getLsbD h = true
      then { s.coh.sf.get {} i with gone := putBit (s.coh.sf.get {} i).gone h true } else s.coh.sf.get {} i := by
  have hsf : (s.dropLink h).coh.sf = s.coh.sf.mapVals {} fun _ e => if e.pres.getLsbD h then { e with gone := putBit e.gone h true } else e := by
    rw [dropLink_eq hs hb]; rfl
  rw [hsf]
  exact get_mapVals_wf ({} : SfEntry) (fun _ e => if e.pres.getLsbD h then { e with gone := putBit e.gone h true } else e) i (by simp) _ 0 hw

/-! ### The obligation -/

/-- Settles O36: training and Recovery, then the three ways in which a link drops. -/
theorem linksTrainAndDrop : Obligations.LinksTrainAndDrop := by
  unfold Obligations.LinksTrainAndDrop
  refine ⟨fun s h l hon hp hl => ⟨fun d => ⟨_, altProtocolOffer_answers hon hp hl d, rfl⟩, fun rate width ide cxl g hmay hg hidle => ?trains,
    fun hup hrec hext h128 => ?equalises, fun src hr hw hlisted => retrain_retrains hon hp hl hr hw hlisted,
    linkRecoveryEnter_enters hon hp hl⟩, fun s h r l hon hup hl hs hb c es hc hout hide => ?drops⟩
  case trains =>
    subst hg
    exact linkL0Reached_trains hon hl hmay hidle
  case equalises =>
    subst hl
    have he : Equalising s h := ⟨hp, hup, hrec, hext, h128⟩
    exact ⟨eq128Fail_first hon he, eq128Fail_second hon he⟩
  case drops =>
    have hy := drop_yields hon hup hc (by rw [hl]; exact hout) hide
    obtain ⟨g, hhead⟩ := drop_head (s := s.hush) (h := h) hl hs hb
    have herr := linkError_head (s := s.hush.dropLink h) (h := h) (by rw [hhead]; intro hh; cases congrArg Link.dropped hh) es
    rw [hhead] at herr
    obtain ⟨hdet, hkeep⟩ := dropLink_ring (s := s.hush) (h := h) (r := r) hs hb
    have hwb : (s.hush.dropLink h).near.wb = s.near.wb.map fun e => { e with waiters := e.waiters.filter fun w => w.1 ≠ h } := by
      rw [dropLink_eq (s := s.hush) hs hb]; rfl
    obtain ⟨hd, wr, wb, a1, a2, a3, a4, a5, a6, hv, qh, rg, hframe⟩ := drop_frame (s := s.hush) (h := h) hs hb
    refine ⟨_, hy, ?_, ?_, ?_, ?_, ?_, ?_, hdet, hkeep, fun hw i e he => ?_, hwb, ?_⟩
    · rw [herr]; rfl
    · rw [herr]; rfl
    · rw [herr]
    · rw [herr]
    · rw [herr]
    · rw [herr]
    · subst he; exact dropLink_sf (s := s.hush) hs hb hw i
    · rw [hframe]; rfl

end Sys2Proof.Proofs.Links
end

