-- ==== Sys2Proof/Proofs/HeadServices.lean ====
section
/-! PROOF. HDM decoders, DOE with CDAT and SPDM, IDE keys and the retirement of host lanes (R70, R71, R75, R86, R507, R509), and
obligation O38. -/
namespace Sys2Proof.Proofs.HeadServices
open Sys2Proof Sys2Proof.Machine Sys2Proof.Laws Sys2Proof.Proofs.Heads

variable {s : State} {h : Nat} {x : Head}

/-- Head h is present with its link up, and x is its record. -/
structure Up (s : State) (h : Nat) (x : Head) : Prop where
  on : s.on = true
  present : s.present h = true
  head : s.head h = x
  up : x.link.up = true

theorem Up.linkUp (hu : Up s h x) : s.hush.linkUp h = true := by
  unfold State.linkUp; rw [hush_present, hush_head, hu.present, hu.head, hu.up]; rfl

/-- A change of the function of a head whose link is up. -/
theorem Up.modFunc (hu : Up s h x) (f : Func → Func) : (s.hush.modFunc h f).head h = { x with func := f x.func } := by
  have hh := modFunc_head (s := s.hush) (h := h) (f := f) (link_ne_of_up (by rw [hush_head, hu.head]; exact hu.up))
  rwa [hush_head, hu.head] at hh

/-! ### HDM decoders (R70, R71) -/

/-- The first decoder takes a range: its shape is supported, and its DPA range lies within the formatted capacity. -/
def fits (s : State) (size ways gran skip : Nat) : Bool :=
  decoderShape ways gran && decide (size ≠ 0) && decide (skip + size / ways ≤ s.beam.pageCap * 4096)

theorem fits_iff {size ways gran skip : Nat} : fits s size ways gran skip = true ↔ ways ∈ [1, 2, 4, 8, 16]
    ∧ gran ∈ [256, 512, 1024, 2048, 4096, 8192, 16384] ∧ size ≠ 0 ∧ skip + size / ways ≤ s.beam.pageCap * 4096 := by
  unfold fits decoderShape
  simp only [Bool.and_eq_true, decide_eq_true_eq, List.contains_iff_mem, and_assoc]

/-- A commit or an end of commitment of the first decoder, where the decoder is not locked and stands the other way. -/
theorem hdmDecoder_guard {b c : Bool} (hu : Up s h x) (hcxl : x.link.cxl = true) (hlock : (x.func.decoders.get {} 0).locked = false)
    (hb : (x.func.decoders.get {} 0).committed = b) (hc : b = ! c) :
    (s.hush.linkUp h && (s.hush.head h).link.cxl && decide (0 < 8) && ! ((s.hush.head h).func.decoders.get {} 0).locked
      && ((s.hush.head h).func.decoders.get {} 0).committed == ! c) = true := by
  rw [hu.linkUp, hush_head, hu.head, hcxl, hlock, hb, hc]
  cases c <;> rfl

/-- A commit of the first decoder takes its range from DPA 0 plus its skip, or sets Error Not Committed. -/
theorem hdmDecoder_commits {base size ways gran skip : Nat} {db lock : Bool} (hu : Up s h x) (hcxl : x.link.cxl = true)
    (hlock : (x.func.decoders.get {} 0).locked = false) (hcom : (x.func.decoders.get {} 0).committed = false) :
    Completes (.hdmDecoderCommit h 0 base size ways gran skip db lock true) s fun u => ∃ ok : Bool,
      (ok = true ↔ ways ∈ [1, 2, 4, 8, 16] ∧ gran ∈ [256, 512, 1024, 2048, 4096, 8192, 16384] ∧ size ≠ 0 ∧ skip + size / ways ≤ s.beam.pageCap * 4096)
      ∧ (u.head h).func.decoders = x.func.decoders.set {} 0 ⟨base, size, ways, gran, skip, skip, db, ok, ! ok, ok && lock⟩
      ∧ (u.head h).link = x.link ∧ u = { s with out := [], heads := u.heads } := by
  obtain ⟨ok, hok⟩ : ∃ ok, ok = fits s size ways gran skip := ⟨_, rfl⟩
  have hy : Yields (.hdmDecoderCommit h 0 base size ways gran skip db lock true) s (s.hush.modFunc h fun f =>
      { f with decoders := f.decoders.set {} 0 ⟨base, size, ways, gran, skip, skip, db, ok, ! ok, ok && lock⟩ }) := by
    refine yields_of hu.on (show exec _ s = execHdmDecoderCommit h 0 base size ways gran skip db lock true s from rfl) ?_
    refine (congrArg (fun b => s.hush.when b _) (hdmDecoder_guard hu hcxl hlock hcom rfl)).trans ?_
    rw [when_true, hok]
    simp [State.decoderEnd, Decoder.dpaSize, fits]
  refine ⟨_, hy, ok, by rw [hok]; exact fits_iff, ?_, ?_, rfl⟩
  · rw [hu.modFunc]
  · rw [hu.modFunc]

/-- A committed decoder that is not locked un-commits. -/
theorem hdmDecoder_uncommits {base size ways gran skip : Nat} {db lock : Bool} (hu : Up s h x) (hcxl : x.link.cxl = true)
    (hlock : (x.func.decoders.get {} 0).locked = false) (hcom : (x.func.decoders.get {} 0).committed = true) :
    Completes (.hdmDecoderCommit h 0 base size ways gran skip db lock false) s fun u =>
      (u.head h).func.decoders = x.func.decoders.set {} 0 { x.func.decoders.get {} 0 with committed := false }
      ∧ (u.head h).link = x.link ∧ u = { s with out := [], heads := u.heads } := by
  have hy : Yields (.hdmDecoderCommit h 0 base size ways gran skip db lock false) s (s.hush.modFunc h fun f =>
      { f with decoders := f.decoders.set {} 0 { x.func.decoders.get {} 0 with committed := false } }) := by
    refine yields_of hu.on (show exec _ s = execHdmDecoderCommit h 0 base size ways gran skip db lock false s from rfl) ?_
    refine (congrArg (fun b => s.hush.when b _) (hdmDecoder_guard hu hcxl hlock hcom rfl)).trans ?_
    rw [when_true, hush_head, hu.head]
    rfl
  refine ⟨_, hy, ?_, ?_, rfl⟩
  · rw [hu.modFunc]
  · rw [hu.modFunc]

/-! ### DOE: discovery, CDAT, SPDM (R75, R509) -/

/-- DOE discovery names CDAT, SPDM and secured SPDM. -/
theorem doeDiscovery_answers (hu : Up s h x) : Yields (.doeDiscovery h) s { s with out := [.doe h [0, 2, 1, 2]] } := by
  refine yields_of hu.on (show exec _ s = execDoeDiscovery h s from rfl) ?_
  rw [hu.linkUp]
  rfl

/-- CDAT gives the formatted capacity, the latencies and the link's bandwidth. -/
theorem cdatRead_answers (hu : Up s h x) {bw : Word} (hbw : bw = atBit (40 * 2 ^ x.link.width * 2 ^ x.link.rate) 0) :
    Yields (.cdatRead h) s { s.modFunc h (fun f => { f with cdatChanged := false }) with
      out := [.doe h [atBit (s.beam.pageCap * 4096) 0, 1, 190, 140, bw, bw]] } := by
  refine yields_of hu.on (show exec _ s = execCdatRead h s from rfl) ?_
  rw [hu.linkUp, hbw, ← hu.head]
  rfl

/-- The session after an SPDM request: KEY_EXCHANGE opens a handshake, FINISH ends it in a session, END_SESSION and GET_VERSION end
the session. -/
theorem spdmNext_eq (was code : Nat) (a : Bool) : spdmNext was code a = if code = 0xE4 then 1
    else if code = 0xE5 ∧ was = 1 then (if a = true then 3 else 2) else if code = 0xEC ∨ code = 0x84 then 0 else was := by
  unfold spdmNext
  simp only [Bool.and_eq_true, Bool.or_eq_true, decide_eq_true_eq]

/-- An SPDM request other than a custody command is answered, and moves the session of its source. -/
theorem spdmRequest_answers (hu : Up s h x) {code : Nat} (a : Bool) (hcode : code ≠ 0xFE) : Yields (.spdmRequest h code a) s { s with
    sec := { s.sec with spdm := s.sec.spdm.set 0 h (spdmNext (s.sec.spdm.get 0 h) code a) }
    out := [.doe h (s.spdmAnswer code)] } := by
  refine yields_of hu.on (show exec _ s = execSpdmRequest h code a s from rfl) ?_
  have hguard : (s.hush.doeUp h && ! (decide (code = 0xFE) && decide (s.hush.sec.spdm.get 0 h = 3) && s.hush.isMgmt h)) = true := by
    unfold State.doeUp; simp [hu.linkUp, hcode]
  rw [hguard]
  rfl

/-- GET_VERSION is answered with SPDM 1.3. -/
theorem spdmAnswer_version (s : State) : s.spdmAnswer 0x84 = [0x04, 0x13] := rfl

/-- A request that R509 does not list is answered with UnsupportedRequest. -/
theorem spdmAnswer_unlisted {code : Nat} (hc : code ∉ [0xE0, 0x81, 0x82, 0x83, 0x84, 0xE1, 0xE3, 0xE4, 0xE5, 0xE8, 0xE9, 0xEC]) :
    s.spdmAnswer code = [0x7F, 0x07] := by
  simp only [List.mem_cons, List.not_mem_nil, or_false, not_or] at hc
  unfold State.spdmAnswer
  simp [hc]

/-- The measurements are the digests of the running image and of the board record, the device's identity, and CUST_ID when ESC_V is 1. -/
theorem spdmAnswer_measurements {d : Nat → List Word} {im bd id : List Word} (hd : ∀ k, d k = (List.range 6).map (Config.measure k))
    (him : s.glb.image = none ∧ im = d 2 ∨ ∃ g, s.glb.image = some g ∧ im = digestWords (bytesLittle 48 g.digest.toNat))
    (hbd : s.boot.board = none ∧ bd = d 5 ∨ ∃ b, s.boot.board = some b ∧ bd = digestWords (sha384 (boardBytes b)))
    (hid : s.sec.wrap.escV = false ∧ id = [] ∨ s.sec.wrap.escV = true ∧ ∃ key, s.sec.wrap.custodian = some key ∧ id = (List.range 6).map (custIdWord key)) :
    s.spdmAnswer 0xE0 = 0x60 :: (d 1 ++ im ++ [glbId, glbRev] ++ d 4 ++ bd ++ [s.beam.setId] ++ id) := by
  have himage : im = match s.glb.image with | some x => digestWords (bytesLittle 48 x.digest.toNat) | none => d 2 := by
    rcases him with ⟨h, rfl⟩ | ⟨g, h, rfl⟩ <;> rw [h]
  have hboard : bd = match s.boot.board with | some b => digestWords (sha384 (boardBytes b)) | none => d 5 := by
    rcases hbd with ⟨h, rfl⟩ | ⟨b, h, rfl⟩ <;> rw [h]
  have hcust : id = if s.sec.wrap.escV then match s.sec.wrap.custodian with
      | some key => (List.range 6).map fun i => custIdWord key i
      | none => [] else [] := by
    rcases hid with ⟨h, rfl⟩ | ⟨h, key, hk, rfl⟩
    · rw [h]; rfl
    · rw [h, hk]; rfl
  rw [himage, hboard, hcust]
  simp only [hd]
  rfl

/-! ### IDE keys (R507) -/

/-- An IDE stream with a key in one of its two sets. -/
def withKey (i : IdeStream) (set : Nat) (key : BitVec 256) : IdeStream :=
  if set = 0 then { i with key0 := some key } else { i with key1 := some key }

/-- In a secured session a key goes into a key set of a stream. -/
theorem ideKeyProg_sets (hu : Up s h x) (hsec : s.secured h = true) {st set : Nat} (hst : st < 2) (hset : set < 2) (key : BitVec 256) :
    Yields (.ideKeyProg h st set key) s { s.modHead h (fun _ => { x with func := { x.func with
      ide := x.func.ide.set {} st (withKey (x.func.ide.get {} st) set key) } }) with out := [.doe h [1]] } := by
  refine yields_of hu.on (show exec _ s = execIdeKeyProg h st set key s from rfl) ?_
  have hguard : (s.hush.linkUp h && s.hush.secured h && decide (st < 2) && decide (set < 2)) = true := by
    have hsec' : s.hush.secured h = true := hsec
    rw [hu.linkUp, hsec', decide_eq_true hst, decide_eq_true hset]; rfl
  rw [hguard, when_true]
  unfold State.modFunc
  rw [modHead_eq (s := s.hush) hu.head]
  rfl

/-- In a secured session the second key set of a stream comes into use, and protects CXL.mem where the stream is 0. -/
theorem ideKSetGo_uses (hu : Up s h x) (hsec : s.secured h = true) {st : Nat} (hst : st < 2) {key : BitVec 256} (c : Bool)
    (hkey : (x.func.ide.get {} st).key1 = some key) : Completes (.ideKSetGo h st 1 c) s fun u =>
      u.head h = { x with
        func := { x.func with ide := x.func.ide.set {} st { x.func.ide.get {} st with inUse := some 1, contain := c } }
        link := { x.link with ideActive := x.link.ideActive || decide (st = 0) } }
      ∧ u = { s with out := [.doe h [1]], heads := u.heads } := by
  obtain ⟨f, hf⟩ : ∃ f : Func → Func, f = fun f => { f with ide := f.ide.set {} st { x.func.ide.get {} st with inUse := some 1, contain := c } } :=
    ⟨_, rfl⟩
  have hy : Yields (.ideKSetGo h st 1 c) s (((s.hush.modFunc h f).modLink h fun l =>
      { l with ideActive := l.ideActive || decide (st = 0) }).emit (.doe h [1])) := by
    refine yields_of hu.on (show exec _ s = execIdeKSetGo h st 1 c s from rfl) ?_
    have hguard : (s.hush.linkUp h && s.hush.secured h && decide (st < 2) && ((s.hush.head h).func.ide.get {} st).key1.isSome) = true := by
      have hsec' : s.hush.secured h = true := hsec
      rw [hu.linkUp, hsec', decide_eq_true hst, hush_head, hu.head, hkey]; rfl
    refine (congrArg (fun b => s.hush.when b _) hguard).trans ?_
    rw [when_true, hush_head, hu.head, hf]
  refine ⟨_, hy, ?_, rfl⟩
  have hmod := hu.modFunc f
  refine (modLink_head (s := s.hush.modFunc h f) (h := h) (f := fun l => { l with ideActive := l.ideActive || decide (st = 0) })
    (link_ne_of_up ?_)).trans ?_
  · rw [hmod]; exact hu.up
  · rw [hmod, hf]

/-! ### Retired lanes (R86, R480) -/

/-- A notice in the FIFO leaves the buckets and the retirements that wait. -/
theorem enter_buckets (f : Flt) (ws : List Word) : (f.enter ws).buckets = f.buckets ∧ (f.enter ws).deferred = f.deferred := by
  unfold Flt.enter; split <;> split <;> exact ⟨rfl, rfl⟩

/-- A unit taken for retirement is retired and waits no longer. -/
theorem retireTaken_retires (s : State) (k u : Nat) : ((s.retireTaken k u).flt.buckets.get {} (256 * k + u)).retired = true
    ∧ (s.retireTaken k u).flt.deferred.contains (k, u) = false := by
  refine ⟨?_, ?_⟩
  · have hget : (s.retireTaken k u).flt.buckets.get {} (256 * k + u) = { s.bucket k u with retired := true } :=
      Tbl.get_set_self _ _ _ (fun hh => by cases congrArg Bucket.retired hh) _
    rw [hget]
  · have hdef : (s.retireTaken k u).flt.deferred = s.flt.deferred.filter fun e => e ≠ (k, u) := rfl
    rw [hdef]
    simp

/-- A link narrowed to the widest width w that its lanes form. -/
def narrowed (w : Nat) (l : Link) : Link := { l with widthLimit := w, width := min l.width w }

/-- A head whose lanes form width w goes through Recovery to it, with its notice. -/
theorem narrowHead_narrows {bad : BitVec 8} {w : Nat} (hup : (s.head h).link.up = true) (hw : lanesWidth (s.headLanes h) bad = some w)
    (hmin : (s.head h).link.minWidth ≤ w) : ∃ t p, ∃ v : State, s.narrowHead h bad = rated { v with
        flt := v.flt.enter (Note.words ⟨1, 0x06, h + min (s.head h).link.width w * 16, none⟩), tap := t, pmc := p } h
      ∧ Touched s v h ∧ (v.head h).link = outSince (narrowed w (s.head h).link) s.clock := by
  obtain ⟨n, hn⟩ : ∃ n, n = s.modLink h (narrowed w) := ⟨_, rfl⟩
  have hhead : n.head h = { s.head h with link := narrowed w (s.head h).link } := by
    rw [hn]; exact modLink_head (link_ne_of_up hup)
  have hnup : (n.head h).link.up = true := by rw [hhead]; exact hup
  have hnwidth : (n.head h).link.width = min (s.head h).link.width w := by rw [hhead]; rfl
  obtain ⟨t, p, hnote⟩ := note_warn (n.enterRecovery h) (n := ⟨1, 0x06, h + min (s.head h).link.width w * 16, none⟩) (Nat.lt_succ_self 1)
  refine ⟨t, p, n.enterRecovery h, ?_, ?_, ?_⟩
  · have hstep : s.narrowHead h bad = if (n.head h).link.up
        then rated ((n.enterRecovery h).note ⟨1, 0x06, h + (n.head h).link.width * 16, none⟩) h else n := by
      unfold State.narrowHead
      rw [hw, hn]
      exact if_neg (Nat.not_lt.mpr hmin)
    rw [hstep, hnup, if_pos rfl, hnwidth, hnote]
  · rw [hn]; exact (modLink_touched s h _).trans (enterRecovery_touched _ h)
  · rw [enterRecovery_head hnup, hhead, hn]; rfl

/-- A retired lane takes its head's link through Recovery to the widest width that its lanes form. -/
theorem laneRetire_narrows {port lane w m : Nat} {bad : BitVec 8} (hu : Up s h x) (hport : port < 8) (hlane : lane < 8)
    (hdue : s.retireDue 6 (8 * port + lane) = true) (hh : h = if s.bifur port = true then 2 * port + lane / 4 else 2 * port)
    (hbad : bad = putBit (s.ports.laneRet.get 0 port) lane true) (hw : lanesWidth (s.headLanes h) bad = some w) (hmin : x.link.minWidth ≤ w)
    (hwf : s.heads.wf {} = true) (hm : m = min x.link.width w) : Completes (.laneRetire port lane) s fun u =>
      (u.head h).link = { x.link with widthLimit := w, width := m, recovery := true, outAt := if x.link.recovery = true then x.link.outAt else s.clock }
      ∧ u.ports.laneRet = s.ports.laneRet.set 0 port bad
      ∧ (u.bucket 6 (8 * port + lane)).retired = true ∧ u.retireDue 6 (8 * port + lane) = false
      ∧ u.flt = (s.retireTaken 6 (8 * port + lane)).flt.enter (Note.words ⟨1, 0x06, h + m * 16, none⟩)
      ∧ u = { s with out := u.out, heads := u.heads, qos := u.qos, ports := { s.ports with laneRet := u.ports.laneRet }, flt := u.flt, tap := u.tap, pmc := u.pmc } := by
  obtain ⟨k, hk⟩ : ∃ k, k = 8 * port + lane := ⟨_, rfl⟩
  obtain ⟨a, ha⟩ : ∃ a : State, a = { s.hush.retireTaken 6 k with ports := { s.ports with laneRet := s.ports.laneRet.set 0 port bad } } := ⟨_, rfl⟩
  have hahead : a.head h = x := by rw [ha]; exact hu.head
  have hflt : a.flt = (s.retireTaken 6 k).flt := by rw [ha]; rfl
  obtain ⟨t, p, v, hnarrow, htouch, hlink⟩ := narrowHead_narrows (s := a) (h := h) (bad := bad) (w := w)
    (by rw [hahead]; exact hu.up) (by rw [ha]; exact hw) (by rw [hahead]; exact hmin)
  obtain ⟨z, hz⟩ : ∃ z : State, z = { v with
    flt := v.flt.enter (Note.words ⟨1, 0x06, h + min (a.head h).link.width w * 16, none⟩), tap := t, pmc := p } := ⟨_, rfl⟩
  rw [← hz] at hnarrow
  have hzlink : (z.head h).link = outSince (narrowed w x.link) s.clock := by
    have hzv : z.head h = v.head h := by rw [hz]; rfl
    rw [hzv, hlink, hahead, ha]; rfl
  have hzup : (z.head h).link.up = true := by rw [hzlink]; unfold outSince; split <;> exact hu.up
  obtain ⟨hrated, hrlink, -⟩ := rated_up hzup
  have hzwf : z.heads.wf {} = true := by rw [hz]; exact (htouch.apart (by rw [ha]; exact hwf)).1
  obtain ⟨hs, o, hevent⟩ := eventAll_cases (rated z h) ⟨.memoryModule, 0x06, k⟩
  have hevlink := eventAll_link (hrated.apart hzwf).1 ⟨.memoryModule, 0x06, k⟩ h
  have hy : Yields (.laneRetire port lane) s ((rated z h).eventAll ⟨.memoryModule, 0x06, k⟩) := by
    refine yields_of hu.on (show exec _ s = execLaneRetire port lane s from rfl) ?_
    have hguard : (decide (port < 8) && decide (lane < 8) && s.hush.retireDue 6 (8 * port + lane)) = true := by
      have hdue' : s.hush.retireDue 6 (8 * port + lane) = true := hdue
      rw [decide_eq_true hport, decide_eq_true hlane, hdue']; rfl
    have hretire : s.hush.retireLane port lane = (if s.present h then a.narrowHead h bad else a).eventAll ⟨.memoryModule, 0x06, k⟩ := by
      rw [ha, hk, hbad, hh]; rfl
    rw [hguard, when_true, hretire, hu.present, if_pos rfl, hnarrow]
  have hframe : (rated z h).eventAll ⟨.memoryModule, 0x06, k⟩ = { s with
      out := o, heads := hs, qos := (rated z h).qos, ports := { s.ports with laneRet := s.ports.laneRet.set 0 port bad }
      flt := (s.retireTaken 6 k).flt.enter (Note.words ⟨1, 0x06, h + m * 16, none⟩), tap := t, pmc := p } := by
    have hvflt : v.flt = (s.retireTaken 6 k).flt := by rw [htouch.frame]; exact hflt
    rw [hevent, hrated.frame, hz, hvflt, hahead, ← hm, htouch.frame, ha]
    rfl
  obtain ⟨hbuckets, hdeferred⟩ := enter_buckets (s.retireTaken 6 k).flt (Note.words ⟨1, 0x06, h + m * 16, none⟩)
  obtain ⟨hretired, hwaits⟩ := retireTaken_retires s 6 k
  rw [← hk]
  refine ⟨_, hy, ?_, ?_, ?_, ?_, ?_, ?_⟩
  · rw [hevlink, hrlink, hzlink, hm]
    unfold outSince narrowed
    cases x.link.recovery <;> rfl
  · rw [hframe]
  · rw [hframe]
    unfold State.bucket
    rw [hbuckets]
    exact hretired
  · rw [hframe]
    unfold State.retireDue
    rw [hdeferred, hwaits]
    rfl
  · rw [hframe]
  · rw [hframe]

/-! ### The obligation -/

/-- Settles O38: decoders, DOE, SPDM, IDE keys, retired lanes. -/
theorem headServicesAnswer : Obligations.HeadServicesAnswer := by
  unfold Obligations.HeadServicesAnswer
  intro s h x hon hp hx hup
  have hu : Up s h x := ⟨hon, hp, hx, hup⟩
  refine ⟨fun d0 base size ways gran skip db lock hd hcxl hlock => ?decoders, doeDiscovery_answers hu, fun bw => cdatRead_answers hu,
    fun code a was hwas hcode => ⟨s.spdmAnswer code, rfl, ?session, ?version, spdmAnswer_unlisted, ?measurements⟩,
    fun st key c i hsec hst hi => ?keys,
    fun port lane w bad m hport hlane hdue hh hbad hw hmin hwf hm => laneRetire_narrows hu hport hlane hdue hh hbad hw hmin hwf hm⟩
  case decoders =>
    subst hd
    exact ⟨hdmDecoder_commits hu hcxl hlock, hdmDecoder_uncommits hu hcxl hlock⟩
  case session =>
    subst hwas
    have h := spdmRequest_answers hu a hcode
    rwa [spdmNext_eq] at h
  case version =>
    rintro rfl
    exact spdmAnswer_version s
  case measurements =>
    rintro rfl d im bd id hd him hbd hid
    exact spdmAnswer_measurements hd him hbd hid
  case keys =>
    subst hi
    exact ⟨ideKeyProg_sets hu hsec hst (by decide) key, ideKeyProg_sets hu hsec hst (by decide) key, ideKSetGo_uses hu hsec hst c⟩

end Sys2Proof.Proofs.HeadServices
end

