-- ==== Sys2Proof/Proofs/Reset.lean ====
section
/-! PROOF. The state at reset (R139, R178, R219, R264, R472, R474, R495, R535, R545), and obligation O2. -/
namespace Sys2Proof.Proofs.Reset
open Sys2Proof Sys2Proof.Machine

/-- At reset neither the charger nor the test load is on, and nothing asks for ALERT# (R494, R578, R594). -/
theorem reset_safe : State.reset.Safe := ⟨rfl, rfl⟩

/-- At reset no region is in force. -/
theorem reset_region_inactive (n : Nat) : (State.reset.region n).active = false := rfl

/-- The threshold and the leak time of each kind of unit (R474). -/
theorem reset_kind : ∀ k, k < 9 → State.reset.flt.kind k = atBit ([512, 64, 64, 64, 32, 256, 1024, 32, 1024].getD k 0) 0
    ||| atBit ([60000, 10000, 60000, 60000, 600000, 3600000, 1000, 600000, 1000].getD k 0) 16 := by
  decide

/-- Settles O2: the reset state is safe and canonical, nothing runs in it, and its control registers hold the values of their maps. -/
theorem resetLeavesTheResetValues : Obligations.ResetLeavesTheResetValues := by
  unfold Obligations.ResetLeavesTheResetValues
  refine ⟨reset_safe, memWf_reset, ?_⟩
  have hidle : State.reset.pending = [] ∧ State.reset.on = false ∧ State.reset.vlt.hold = false ∧ State.reset.rsv.charging = false
      ∧ State.reset.rsv.testing = false := by and_intros <;> rfl
  have hempty : State.reset.flt.fifo = [] ∧ State.reset.flt.fatal = none ∧ State.reset.pmc.cnt = [] ∧ State.reset.rng.rings = [] := by
    and_intros <;> rfl
  obtain ⟨hpending, hon, hhold, hcharging, htesting⟩ := hidle
  obtain ⟨hfifo, hfatal, hcnt, hrings⟩ := hempty
  refine ⟨hpending, hon, hhold, hcharging, htesting, hfifo, hfatal, hcnt, hrings, reset_region_inactive, ?_, ?_, ?_, ?_, ?_, ?_, ?_,
    ?_, ?_, ?_, ?_, ?_, reset_kind⟩
  all_goals rfl

end Sys2Proof.Proofs.Reset
end

