-- ==== Sys2Proof/Proofs/WriteBuffer.lean ====
section
/-! PROOF. A write-buffer entry after its write: the buddy's confirmation (R19, R97) and the start of its drain (R99), and
obligation O11. -/
namespace Sys2Proof.Proofs.WriteBuffer
open Sys2Proof Sys2Proof.Machine Sys2Proof.Laws Sys2Proof.Laws.Traffic

/-- The write buffer with entry id confirmed and its completions gone. -/
def confirmed (s : State) (id : Nat) : State :=
  { s with near := { s.near with wb := s.near.wb.map fun x => if x.id = id then { x with confirmed := true, waiters := [] } else x } }

/-- An entry for which one completion waits sends it, where no BIConflictAck waits with it (R97, R155). -/
theorem completeEntry_one {s : State} {e : WbEntry} {h tag : Nat} (hw : e.waiters = [(h, tag)]) (h16 : h < 16)
    (hr : (s.head h).link.recovery = false) (hc : s.coh.conflicts = []) :
    s.completeEntry e = s.emit (.memCmp h tag (s.devLoad h)) := by
  unfold State.completeEntry
  rw [hw, List.foldl_cons, List.foldl_nil, complete_now tag h16 hr]
  exact ackConflicts_none (s := s.emit (.memCmp h tag (s.devLoad h))) hc e.line

/-- The confirmation of an unconfirmed entry sends its completion; with no seal waiting nothing else happens (R19, R97). -/
theorem buddyConfirm_yields {s : State} {tile id h tag : Nat} {e : WbEntry} (hon : s.on = true)
    (hfind : (s.near.wb.find? fun e => e.id = id && e.tile = tile) = some e) (hun : e.confirmed = false)
    (hw : e.waiters = [(h, tag)]) (h16 : h < 16) (hseals : s.rng.seals = []) (hconf : s.coh.conflicts = [])
    (hr : (s.head h).link.recovery = false) :
    Yields (.buddyConfirm tile id) s ((confirmed s.hush id).emit (.memCmp h tag (s.devLoad h))) := by
  have hsend : ((confirmed s.hush id).completeEntry e).checkSeals = (confirmed s.hush id).emit (.memCmp h tag (s.devLoad h)) := by
    rw [completeEntry_one (s := confirmed s.hush id) hw h16 hr hconf]
    exact checkSeals_nil (s := (confirmed s.hush id).emit (.memCmp h tag (s.devLoad h))) hseals
  refine yields_of hon (show exec _ s = execBuddyConfirm tile id s from rfl) ?_
  simp only [hush_near, hfind, hun, Bool.false_eq_true, if_false]
  exact hsend

/-- A drainable entry of a VOLATILE region whose page lies in a live frame, with room in its channel, is queued for it (R99). -/
theorem wbEntryDrain_yields {s : State} {tile id f : Nat} (twin : Nat) {e : WbEntry} (hon : s.on = true)
    (hfind : (s.near.wb.find? fun e => e.id = id && e.tile = tile) = some e) (hdr : s.drainable e = true) (hid : e.id = id)
    (hdur : e.durable = false) (hpl : (s.page (pageOf e.line)).place = .t1 f) (hlive : s.frameLive f = true)
    (hroom : (s.chan (frameChan f)).writesOn (e.line % 2) < 64) :
    Yields (.wbEntryDrain tile id twin) s
      (State.queueWrite
        { s.hush with near := { s.near with wb := s.near.wb.map fun x => if x.id = id then { x with draining := true, left := 1, spill := false } else x } }
        f (e.line % 64) { data := e.data, poison := e.poison } e.mask e.whole (some id) (s.drainLevel e)) := by
  have hdr' : s.hush.drainable e = true := hdr
  refine yields_of hon (show exec _ s = execWbEntryDrain tile id twin s from rfl) ?_
  simp only [hush_near, hfind, hdr', when_true]
  exact drain_volatile s.hush hid hdur hpl hlive hroom

/-- Settles O11: the confirmation, then the drain. -/
theorem writeBufferEntriesMoveOn : Obligations.WriteBufferEntriesMoveOn := by
  unfold Obligations.WriteBufferEntriesMoveOn
  intro s tile id h tag twin f e hon hfind
  exact ⟨buddyConfirm_yields hon hfind, wbEntryDrain_yields twin hon hfind⟩

end Sys2Proof.Proofs.WriteBuffer
end

