-- ==== Sys2Proof/Proofs/DramAccess.lean ====
section
/-! PROOF. DRAM accesses that their scheduler issues: a write that its channel confirms (R99, R189, R197) and a read of a line that passes its
check (R91, R195, R196, R206), and obligations O12 and O17. -/
namespace Sys2Proof.Proofs.DramAccess
open Sys2Proof Sys2Proof.Machine Sys2Proof.Laws Sys2Proof.Laws.Traffic

/-! ### A confirmed write -/

/-- The state after a write has been granted and has left its queue (R197). -/
def issuedWrite (s : State) (ch id : Nat) (w : DramWrite) : State :=
  ((s.grant ch (w.idx % 2) id w.prio w.frame false).unqueue ch id).count (evChan ch 2) 1

/-- Counting changes neither the memories nor any channel. -/
theorem count_issued {s t : State} (ev k : Nat) (h : Issued s t) : Issued s (t.count ev k) ∧ ∀ i, (t.count ev k).chan i = t.chan i := by
  obtain ⟨c, p, rfl⟩ := h
  exact ⟨⟨c, _, rfl⟩, fun _ => rfl⟩

/-- The issue of a write changes the channels' records and queues and the counters, and no memory. -/
theorem issuedWrite_issued {s : State} {ch : Nat} (id : Nat) (w : DramWrite) (hs : (s.chan ch).inService = true) :
    Issued s (issuedWrite s ch id w) ∧ SameMem s (issuedWrite s ch id w) := by
  unfold issuedWrite
  have hgrant := grant_service s (w.idx % 2) id w.prio w.frame false hs
  have hgranted := grant_shape s ch (w.idx % 2) id w.prio w.frame false
  generalize s.grant ch (w.idx % 2) id w.prio w.frame false = g at hgrant hgranted ⊢
  have hleave := unqueue_service g id ((hgrant ch).1.trans hs)
  have hleft : Issued s (g.unqueue ch id) := Issued.trans hgranted (unqueue_shape g ch id)
  generalize g.unqueue ch id = q at hleave hleft ⊢
  obtain ⟨hissued, hchan⟩ := count_issued (evChan ch 2) 1 hleft
  refine ⟨hissued, hissued.same fun i => ?_⟩
  rw [hchan]
  exact ⟨(hleave i).1.trans (hgrant i).1, (hleave i).2.trans (hgrant i).2⟩

/-- A write that belongs to no write-buffer entry and meets no CRC error lands once its scheduler may issue it (R99, R197). -/
theorem dramWriteConfirm_yields {s : State} {ch id : Nat} {w : DramWrite} (hon : s.on = true)
    (hfind : (s.chan ch).writeQ.find? (fun w => w.id = id) = some w) (hmay : s.writeIssues ch w = true) (hentry : w.entry = none) :
    Yields (.dramWriteConfirm ch id false) s ((issuedWrite s.hush ch id w).landed w false) := by
  have hmay' : s.hush.writeIssues ch w = true := hmay
  refine yields_of hon (show exec _ s = execDramWriteConfirm ch id false s from rfl) ?_
  simp only [hush_chan, hfind, hmay', when_true, hentry, Option.bind_none, Bool.false_and, Bool.false_eq_true, if_false]
  rfl

/-- Settles O12: the write lands over the line's present copy, in a state whose memories are those before its issue. -/
theorem dramWriteLandsInItsLine : Obligations.DramWriteLandsInItsLine := by
  unfold Obligations.DramWriteLandsInItsLine
  intro s ch id w hon hwf hserv hidx hfind hmay hentry
  obtain ⟨⟨c, p, hshape⟩, hsame⟩ := issuedWrite_issued (s := s.hush) id w hserv
  obtain ⟨m, hland⟩ := landed_cases (issuedWrite s.hush ch id w) w false
  have hbase : (issuedWrite s.hush ch id w).landBase w = s.landBase w := landBase_eq hsame w
  have hy := dramWriteConfirm_yields hon hfind hmay hentry
  rw [hland, hbase, hshape, Bool.or_false] at hy
  have hcell : ∀ g j, State.cell { State.setCell { s.hush with dram := { s.hush.dram with ch := c }, pmc := p } w.frame w.idx
      ((s.landBase w).lay w.cell.data w.mask w.cell.poison w.whole) with map := m } g j
      = (s.setCell w.frame w.idx ((s.landBase w).lay w.cell.data w.mask w.cell.poison w.whole)).cell g j := fun _ _ => rfl
  refine ⟨_, hy, ?_, fun g j hj hne => ?_, rfl⟩
  · rw [hcell]
    exact cell_setCell_same hwf _ _ _
  · rw [hcell]
    exact cell_setCell_other hwf _ hidx hj hne

/-! ### A read of a line that passes its check -/

section
variable {s : State} {x : DramRead} {t : Txn} {n pn f : Nat} {r : Region}

/-- A read of a line stands while its page's place in T1 reads the line from the read's frame (R190). -/
theorem readStands_t1 (hr : s.regionAt x.line = some (n, r)) (hl : s.linePlace r x.line = some (pn, .t1 f))
    (hsrc : s.t1Source f (x.line % 64) = .t1 x.frame) : s.readStands x = true := by
  unfold State.readStands
  simp only [hr, hl, hsrc, decide_true]

/-- A read that stands and whose transaction waits for it forwards the line of its frame (R196). -/
theorem lineRead_t1 (ht : s.txn x.line = some t) (hp : t.phase = .dram) (hr : s.regionAt x.line = some (n, r))
    (hl : s.linePlace r x.line = some (pn, .t1 f)) (hsrc : s.t1Source f (x.line % 64) = .t1 x.frame) :
    s.lineRead x = s.fetched x.line (s.cell x.frame (x.line % 64)) := by
  have hstands := readStands_t1 hr hl hsrc
  have hplace : s.placeLine (.t1 f) (x.line % 64) = s.cell x.frame (x.line % 64) := by
    unfold State.placeLine
    simp only [hsrc]
  unfold State.lineRead
  simp only [ht, hr, hp, hstands, hl, hplace, ne_eq, not_true, if_false, if_true]

/-- A read that passes its check leaves every line as it was (R206). -/
theorem checked_good (s : State) (f i : Nat) (bad : Bool) : s.checked f i .good bad = s := by
  simp [State.checked, State.dramError, State.countRead]

/-- A read of a line that its scheduler may issue, and that stands and passes its check, forwards the line of its frame (R196, R206). -/
theorem dramReadComplete_yields {ch id : Nat} (line : Nat) (bad : Bool) (hon : s.on = true)
    (hserv : (s.chan ch).inService = true) (hfind : (s.chan ch).readQ.find? (fun x => x.id = id) = some x)
    (hmay : s.readIssues ch x = true) (hwhy : x.why = .line) (ht : s.txn x.line = some t) (hp : t.phase = .dram)
    (hr : s.regionAt x.line = some (n, r)) (hl : s.linePlace r x.line = some (pn, .t1 f))
    (hsrc : s.t1Source f (x.line % 64) = .t1 x.frame) :
    Yields (.dramReadComplete ch id .good line bad) s ((s.hush.issueRead ch x).fetched x.line (s.cell x.frame (x.line % 64))) := by
  obtain ⟨hissued, hkept, -⟩ := issueRead_cases s.hush x hserv
  have hsrc' : (s.hush.issueRead ch x).t1Source f (x.line % 64) = .t1 x.frame := (t1Source_eq (hissued.same hkept) f _).trans hsrc
  obtain ⟨c, p, hshape⟩ := hissued
  have ht' : (s.hush.issueRead ch x).txn x.line = some t := by rw [hshape]; exact ht
  have hr' : (s.hush.issueRead ch x).regionAt x.line = some (n, r) := by rw [hshape]; exact hr
  have hl' : (s.hush.issueRead ch x).linePlace r x.line = some (pn, .t1 f) := by rw [hshape]; exact hl
  have hcell : (s.hush.issueRead ch x).cell x.frame (x.line % 64) = s.cell x.frame (x.line % 64) := by rw [hshape]; rfl
  have hmay' : s.hush.readIssues ch x = true := hmay
  refine yields_of hon (show exec _ s = execDramReadComplete ch id .good line bad s from rfl) ?_
  simp only [hush_chan, hfind, hmay', when_true, hwhy, readStands_t1 hr' hl' hsrc', Bool.not_true, Bool.false_eq_true, if_false,
    checked_good]
  rw [lineRead_t1 ht' hp hr' hl' hsrc', hcell]

end

/-- Settles O17: the read is issued, then its line is forwarded to the head, and nothing is allocated for it. -/
theorem dramReadAnswersItsHead : Obligations.DramReadAnswersItsHead := by
  unfold Obligations.DramReadAnswersItsHead
  intro s ch id f pn n h tag line bad x t r hon hserv hfind hmay hwhy ht hp hr hl hsrc hna hk hs hm hrec
  have hy := dramReadComplete_yields line bad hon hserv hfind hmay hwhy ht hp hr hl hsrc
  obtain ⟨⟨c, p, hshape⟩, -, hq⟩ := issueRead_cases s.hush x hserv
  rw [hshape] at hy hq
  obtain ⟨p', hf⟩ := fetched_noalloc (s := { s.hush with dram := { s.hush.dram with ch := c }, pmc := p })
    (s.cell x.frame (x.line % 64)) ht hr hna hk hs hm hrec
  rw [hf] at hy
  exact ⟨_, hy, rfl, Tbl.get_set_self none _ _ (Option.some_ne_none _) _, hq, rfl⟩

end Sys2Proof.Proofs.DramAccess
end

