-- ==== Sys2Proof/Proofs/NearLines.lean ====
section
/-! PROOF. Lines that enter and leave the near cache (R103 to R111), an atomic whose line is read at memory (R170), and obligation O13. -/
namespace Sys2Proof.Proofs.NearLines
open Sys2Proof Sys2Proof.Machine Sys2Proof.Laws Sys2Proof.Laws.Traffic

/-- An atomic that waits to run at memory, with nothing of its line buffered and its page at rest in a frame, has its line read at P2
where the line is, once that channel's queue has room (R170, R195). -/
theorem atomicAtMemory_yields {s : State} {line f g : Nat} {t : Txn} (hon : s.on = true) (ht : s.txn line = some t)
    (hpl : (s.page (pageOf line)).place = .t1 f) (hmv : (s.page (pageOf line)).moving = none) (hp : t.phase = .atomicWait)
    (hwb : (s.near.wb.any fun e => e.line = line) = false) (hsrc : s.t1Source f (line % 64) = .t1 g)
    (hroom : (s.chan (frameChan g)).readRoom line = true) :
    Yields (.atomicAtMemory line) s (s.hush.dramRead { t.req with atP2 := true } g) := by
  have hsrc' : s.hush.t1Source f (line % 64) = .t1 g := hsrc
  refine yields_of hon (show exec _ s = execAtomicAtMemory line s from rfl) ?_
  simp only [hush_txn, hush_page, hush_near, hush_chan, ht, hpl, hmv, hp, hwb, hsrc', hroom, Option.isNone_none, Bool.not_false,
    decide_true, Bool.and_self, when_true]

/-- Settles O13: a line is placed in an empty victim way, an evicted line lands in its frame, an atomic's line is read. The touch of the tree
before the set is held to PROT_MAX with the new line left out is the model's choice (log entry 186). -/
theorem nearCacheLinesComeAndGo : Obligations.NearCacheLinesComeAndGo := by
  unfold Obligations.NearCacheLinesComeAndGo
  intro s line n w f g r t c hon
  refine ⟨fun ht hr hp hk hwp hv hempty hprot => ?fill, fun hw ho hpl hlive x hx he hd => ?evict, atomicAtMemory_yields hon⟩
  case fill =>
    exact yields_of hon (show exec _ s = execNcFillComplete line s from rfl) (fill_empty (s := s.hush) ht hr hp hk hwp hv hempty hprot)
  case evict =>
    exact yields_of hon (show exec _ s = execNcEvictWritebackConfirm line s from rfl) (evict (s := s.hush) hw ho hpl hlive hx he hd)

end Sys2Proof.Proofs.NearLines
end

