-- ==== Sys2Proof/Proofs/Ways.lean ====
section
/-! PROOF. Ways that change roles (R115, R118, R119, R122, R123, R135), and obligation O15. -/
namespace Sys2Proof.Proofs.Ways
open Sys2Proof Sys2Proof.Machine Sys2Proof.Laws Sys2Proof.Proofs

/-- What powering ways up or down may change: the record of the ways powered down. -/
def Powered (s t : State) : Prop := ∃ o, t = { s with near := { s.near with off := o } }

/-- Powering ways over a list of slices. -/
theorem powered_fold (f : State → Nat → State) (hf : ∀ t n, Powered t (f t n)) : ∀ (l : List Nat) (t : State), Powered t (l.foldl f t)
  | [], t => ⟨t.near.off, rfl⟩
  | n :: l, t => by
    obtain ⟨o, ho⟩ := powered_fold f hf l (f t n)
    obtain ⟨o', ho'⟩ := hf t n
    exact ⟨o, by rw [List.foldl_cons, ho, ho']⟩

/-- The lines of the pool outside slot k. -/
theorem mem_clearSlot (s : State) (k l : Nat) (c : LineCell) :
    (l, c) ∈ (s.clearSlot k).near.scr ↔ (l, c) ∈ s.near.scr ∧ l / 524288 ≠ k := by
  simp [State.clearSlot, Tbl.restrict, List.mem_filter]

/-- A step over slices that retires nothing leaves the state, where no way waits for retirement (R136). -/
theorem retire_fold_none (s : State) (p : Nat → Nat → Bool) (hp : s.boot.pendNc = 0) : ∀ (l : List Nat) (t : State),
    l.foldl (fun (t : State) n =>
      ((s.scratchWays n).filter fun w => s.boot.pendNc.getLsbD (16 * n + w) && p n w).foldl (fun (t : State) w => t.ncWayGone n w 0) t) t = t
  | [], _ => rfl
  | n :: l, t => by
    have hnone : ((s.scratchWays n).filter fun w => s.boot.pendNc.getLsbD (16 * n + w) && p n w) = [] := by
      simp [hp]
    rw [List.foldl_cons, hnone, List.foldl_nil]
    exact retire_fold_none s p hp l t

section
variable {s v : State} {slice way : Nat} (hon : s.on = true)
include hon

/-- Once the next scratch way of every slice is clean and empty, the pool has one slot more, empty (R118). -/
theorem scrWayConvert_completes (hreq : s.near.curScr < s.scrReq) (hclean : s.hush.cleanWays s.nextScratch = (true, v)) :
    Completes .scrWayConvert s fun u => u.near.curScr = v.near.curScr + 1
      ∧ (∀ l c, (l, c) ∈ u.near.scr ↔ (l, c) ∈ v.near.scr ∧ l / 524288 ≠ s.near.curScr)
      ∧ u = { v with near := { v.near with curScr := u.near.curScr, scr := u.near.scr, off := u.near.off } } := by
  have hclean' : s.hush.cleanWays s.hush.nextScratch = (true, v) := hclean
  have hreq' : decide (s.hush.near.curScr < s.hush.scrReq) = true := decide_eq_true hreq
  refine completes_of hon (show exec _ s = execScrWayConvert s from rfl) ?_
  rw [hreq', when_true]
  simp only [hclean', if_true, hush_near]
  generalize hu : List.foldl _ (v.clearSlot s.near.curScr) (List.range 16) = u
  have hpowered : Powered (v.clearSlot s.near.curScr) u := by
    rw [← hu]
    refine powered_fold _ (fun t n => ?_) _ _
    split
    · exact ⟨_, rfl⟩
    · exact ⟨t.near.off, rfl⟩
  obtain ⟨o, rfl⟩ := hpowered
  exact ⟨rfl, mem_clearSlot v s.near.curScr, rfl⟩

/-- A slot that no window uses goes back to the cache; with no way waiting for retirement nothing else happens (R119). -/
theorem scrWayReturn_yields (hreq : s.scrReq < s.near.curScr) (hused : s.poolUsedBeyond (16 * s.scrReq) = false) (hp : s.boot.pendNc = 0) :
    Yields .scrWayReturn s { s with
      out := []
      near := { s.near with
        curScr := s.near.curScr - 1
        scr := s.near.scr.restrict fun l _ => l / 524288 ≠ s.near.curScr - 1 } } := by
  have hreq' : s.hush.scrReq < s.hush.near.curScr := hreq
  have hused' : s.hush.poolUsedBeyond (16 * s.hush.scrReq) = false := hused
  refine yields_of hon (show exec _ s = execScrWayReturn s from rfl) ?_
  rw [decide_eq_true hreq', hused', Bool.not_false, Bool.and_self, when_true]
  exact retire_fold_none s.hush _ hp (List.range 16) _

/-- A new locked way that is clean and empty is in service as one (R115). -/
theorem lockWayConvert_yields (hcl : (s.near.lockCleaning.get 0 slice).getLsbD way = true) (hlk : (s.lockedWays slice).contains way = true)
    (hclean : s.hush.cleanWay slice way false = (true, v)) :
    Yields (.lockWayConvert slice way) s ((v.setLockCleaning slice way false).setOff slice way false) := by
  have hlk' : (s.hush.lockedWays slice).contains way = true := hlk
  refine yields_of hon (show exec _ s = execLockWayConvert slice way s from rfl) ?_
  simp only [hush_near, hcl, hlk', hclean, when_true, Bool.not_true, Bool.false_eq_true, if_false, if_true]

/-- A way that is due and clean and empty is powered down (R122). -/
theorem wayPowerDown_yields (h16 : slice < 16) (hret : s.tileRetired slice = false) (hoff : (s.offTarget slice).contains way = true)
    (hup : (s.near.off.get 0 slice).getLsbD way = false) (hhot : s.wayHot slice way = false)
    (hclean : s.hush.cleanWay slice way true = (true, v)) :
    Yields (.wayPowerDown slice way) s (v.setOff slice way true) := by
  have hoff' : (s.hush.offTarget slice).contains way = true := hoff
  have hhot' : s.hush.wayHot slice way = false := hhot
  refine yields_of hon (show exec _ s = execWayPowerDown slice way s from rfl) ?_
  simp only [hush_near, hush_tileRetired, h16, hret, hoff', hup, hhot', hclean, decide_true, Bool.not_false, Bool.and_self, when_true, if_true]

/-- A way that is powered down and due no longer is powered up (R123). -/
theorem wayPowerUp_yields (hdown : (s.near.off.get 0 slice).getLsbD way = true) (hoff : (s.offTarget slice).contains way = false) :
    Yields (.wayPowerUp slice way) s (s.hush.setOff slice way false) := by
  have hoff' : (s.hush.offTarget slice).contains way = false := hoff
  refine yields_of hon (show exec _ s = execWayPowerUp slice way s from rfl) ?_
  simp only [hush_near, hdown, hoff', Bool.not_false, Bool.and_self, when_true]

/-- A way that is due for retirement, no scratch way, and clean and empty is retired (R135). -/
theorem ncWayRetire_yields (hdue : s.retireDue 2 (16 * slice + way) = true) (hscr : (s.scratchWays slice).contains way = false)
    (hclean : State.cleanWay { s.hush with near := { s.near with retiring := putBit s.near.retiring (16 * slice + way) true } } slice way false
      = (true, v)) :
    Yields (.ncWayRetire slice way) s
      (((v.retireTaken 2 (16 * slice + way)).ncWayGone slice way
        (s.near.lostLocks.get 0 (16 * slice + way) + s.lockedIn slice way - v.lockedIn slice way)).newLocks s.hush) := by
  have hdue' : s.hush.retireDue 2 (16 * slice + way) = true := hdue
  have hscr' : (s.hush.scratchWays slice).contains way = false := hscr
  refine yields_of hon (show exec _ s = execNcWayRetire slice way s from rfl) ?_
  rw [hdue', when_true]
  unfold State.retireNcWay
  simp only [hscr', hush_near, hclean, Bool.false_eq_true, if_false, if_true]
  rfl

end

/-- Settles O15: to and from scratch, to locked, powered down and up, retired. -/
theorem waysChangeRolesWhenClean : Obligations.WaysChangeRolesWhenClean := by
  unfold Obligations.WaysChangeRolesWhenClean
  intro s v slice way hon
  exact ⟨scrWayConvert_completes hon, scrWayReturn_yields hon, lockWayConvert_yields hon, wayPowerDown_yields hon, wayPowerUp_yields hon,
    ncWayRetire_yields hon⟩

end Sys2Proof.Proofs.Ways
end

