-- ==== Sys2Proof/Proofs/PageDescriptors.lean ====
section
/-! PROOF. Page descriptors of one page (R113, R234, R241, R242, R605): the steps of PROMOTE, DEMOTE, PIN and UNPIN, and the commands that
take them. -/
namespace Sys2Proof.Proofs.PageDescriptors
open Sys2Proof Sys2Proof.Machine Sys2Proof.Laws

/-! ### Transitions -/

section
variable {s : State} {pn : Nat}

/-- A page whose transition starts is moving. -/
theorem startMove_moving (s : State) (pn : Nat) (m : Moving) : ((s.startMove pn m).page pn).moving = some m := by
  have hne : ({ s.page pn with moving := some m } : PageEntry) ≠ {} := fun h => Option.some_ne_none m (congrArg PageEntry.moving h)
  exact congrArg PageEntry.moving (page_mod (s := s.count (evTile (s.mapTile pn) 14) 1) (f := fun p => { p with moving := some m }) hne)

/-- A descriptor promotes a ZERO page at rest into the open frame that it is given (R233, R234). -/
theorem transitionStart_promotesZero {f : Nat} (hpl : (s.page pn).place = .zero) (hmv : (s.page pn).moving = none)
    (hunit : (s.unit (pn / 512)).dstate ≠ .unloaded) (hstop : s.vlt.stopped = false) (hopen : s.frameOpen f = true)
    (hfree : 0 < s.freeFrames) :
    s.transitionStart pn .toT1 .descriptor f = (s.useFrame f (.t1 pn none)).startMove pn ⟨.toT1, .descriptor, f, false⟩ := by
  have hmay : s.mayPromote pn .descriptor = true := by
    unfold State.mayPromote
    simp only [hpl]
  have hleft : s.frameLeft .descriptor = true := by
    unfold State.frameLeft
    exact decide_eq_true hfree
  unfold State.transitionStart
  simp only [hstop, hunit, hmv, hmay, hopen, hleft, Bool.false_and, Bool.false_or, decide_false, Bool.false_eq_true, if_false,
    Option.isSome_none, Bool.not_true, Bool.and_self, if_true]
  unfold State.startPromotion
  simp only [hpl]

/-- The read of a page's frame is queued where both subchannels have room (R195). -/
theorem pageRead_room {f prio : Nat} {why : DramFor} (h0 : (s.chan (frameChan f)).readRoom 0 = true)
    (h1 : (s.chan (frameChan f)).readRoom 1 = true) : s.pageRead pn f prio why = some (s.queueRead (pn * 64) f prio why) := by
  unfold State.pageRead
  simp only [h0, h1, Bool.and_self, if_true]

/-- A descriptor compresses a clean page of T1 whose stream fits into the sectors that it is given, with the read of its frame (R234). -/
theorem transitionStart_compresses {f sec : Nat} (hpl : (s.page pn).place = .t1 f) (hmv : (s.page pn).moving = none)
    (hunit : (s.unit (pn / 512)).dstate ≠ .unloaded) (hstop : s.vlt.stopped = false) (hmay : s.mayDemote pn = true)
    (hhint : s.hint pn ≠ 2) (hcomp : s.compEn = true) (hzero : (s.frameData f).zero = false)
    (hlen : sectorsFor (s.frameData f).clen ≤ 7) (hsec : s.sectorsFree sec (sectorsFor (s.frameData f).clen) = true)
    (h0 : (s.chan (frameChan f)).readRoom 0 = true) (h1 : (s.chan (frameChan f)).readRoom 1 = true) :
    s.transitionStart pn .toT2 .descriptor sec
      = ((s.queueRead (pn * 64) f (s.pageLevel pn 5) (.move pn)).startMove pn ⟨.toT2, .descriptor, sec, true⟩).useFrame (sec / 8) .t2 := by
  have hlen' : ¬ 7 < sectorsFor (s.frameData f).clen := Nat.not_lt.mpr hlen
  have hread : s.startReading pn f ⟨.toT2, .descriptor, sec, false⟩
      = (s.queueRead (pn * 64) f (s.pageLevel pn 5) (.move pn)).startMove pn ⟨.toT2, .descriptor, sec, true⟩ := by
    unfold State.startReading
    simp only [pageRead_room h0 h1]
  unfold State.transitionStart
  simp only [hstop, hunit, hmv, hpl, hmay, hhint, hcomp, hzero, hlen', hsec, hread, startMove_moving, Bool.false_and, decide_false,
    decide_true, Bool.false_eq_true, if_false, Option.isSome_none, Option.isSome_some, ne_eq, not_false_eq_true,
    Bool.and_self, Bool.or_true, Bool.not_true, Bool.or_self, if_true]

/-- A descriptor starts the move of a clean page of T1 with a current record to that record at once (R234). -/
theorem transitionStart_toRecord {f sec : Nat} (hpl : (s.page pn).place = .t1 f) (hmv : (s.page pn).moving = none)
    (hunit : (s.unit (pn / 512)).dstate ≠ .unloaded) (hstop : s.vlt.stopped = false) (hmay : s.mayDemote pn = true)
    (hbeam : (s.page pn).beamv = true) :
    s.transitionStart pn .toT3 .descriptor sec = (s.unpurpose pn).startMove pn ⟨.toT3, .descriptor, sec, false⟩ := by
  unfold State.transitionStart
  simp only [hstop, hunit, hmv, hpl, hmay, hbeam, Bool.false_and, decide_false, decide_true, Bool.false_eq_true, if_false,
    Option.isSome_none, reduceCtorEq, Bool.and_self, Bool.or_true, Bool.not_true, Bool.and_false, Bool.or_self, if_true]

end

/-! ### Steps of one page -/

/-- A clean page of frame f that nothing is on its way to or from, and that may go down (R234, R241). -/
structure Idle (s : State) (pn f : Nat) : Prop where
  place : (s.page pn).place = .t1 f
  pin : (s.page pn).pin = false
  nocomp : (s.page pn).nocomp = false
  busy : s.pageBusy pn = false
  dirty : (s.page pn).dirty = false
  poison : (s.placeData (.t1 f)).hasPoison = false
  room0 : (s.chan (frameChan f)).readRoom 0 = true
  room1 : (s.chan (frameChan f)).readRoom 1 = true

section
variable {s : State} {pn f : Nat}

/-- A page that is not busy is neither being cleaned nor moving. -/
theorem Idle.rest (h : Idle s pn f) : (s.page pn).cleaning = false ∧ (s.page pn).moving = none := by
  have hb := h.busy
  unfold State.pageBusy at hb
  simpa [and_assoc] using (Bool.or_eq_false_iff.mp (Bool.or_eq_false_iff.mp hb).1).1

/-- A page in T1 and at rest needs no promotion. -/
theorem stepToT1_done (c : TransitionCause) (h : s.inT1 pn = true) : s.stepToT1 c pn = (.done, s) := by
  unfold State.stepToT1
  rw [if_pos h]

/-- The step of a ZERO page at rest starts its promotion into the lowest free frame (R241; the choice of the frame is the model's, log
entry 22). -/
theorem stepToT1_promotes (hpl : (s.page pn).place = .zero) (hmv : (s.page pn).moving = none)
    (hunit : (s.unit (pn / 512)).dstate ≠ .unloaded) (hreb : s.map.rebuilding.contains (pn / 512) = false) (hstop : s.vlt.stopped = false)
    (hlow : s.lowestFree = some f) (hopen : s.frameOpen f = true) (hfree : 0 < s.freeFrames) :
    s.stepToT1 .descriptor pn = (.wait, (s.useFrame f (.t1 pn none)).startMove pn ⟨.toT1, .descriptor, f, false⟩) := by
  have hnot : s.inT1 pn = false := by
    unfold State.inT1
    simp only [hpl, Bool.and_false]
  have hroom : s.queuesFull pn = false := by
    unfold State.queuesFull
    simp only [hpl, Place.frame]
  unfold State.stepToT1
  simp only [hnot, hmv, hunit, hreb, hroom, hlow, transitionStart_promotesZero hpl hmv hunit hstop hopen hfree, startMove_moving,
    Bool.false_eq_true, if_false, Option.isSome_none, decide_false, Bool.or_self, Option.getD_some, Option.isSome_some, if_true]

/-- The step of an idle page starts the transition that the descriptor asks for, where one can start (R241, R605). -/
theorem stepDown_starts {tier : Transition} {m : Moving} {t : State} (r : Nat) (h : Idle s pn f)
    (hstart : s.transitionStart pn tier .descriptor (s.sectorFor (sectorsFor (s.frameData f).clen)) = t)
    (hmoving : (t.page pn).moving = some m) : s.stepDown r tier pn = (.wait, t) := by
  obtain ⟨hcleaning, hmv⟩ := h.rest
  have hroom : s.queuesFull pn = false := by
    unfold State.queuesFull
    simp only [h.place, Place.frame, h.room0, h.room1, Bool.and_self, Bool.not_true]
  unfold State.stepDown
  simp only [h.place, h.pin, h.nocomp, h.busy, h.dirty, h.poison, hcleaning, hmv, hroom, hstart, hmoving, Bool.false_eq_true, if_false,
    Bool.and_false, Bool.false_and, Bool.or_self, Option.isSome_none, Option.isSome_some, if_true]

/-- The step of a page in T1 and at rest pins it within the limit; in a region that is not LK nothing is locked (R241, R242). -/
theorem stepPin_pins {d : Line} (r : Nat) (h : s.inT1 pn = true) (hlimit : (s.pinned + 1) * 100 ≤ s.framesInService * s.pinPct)
    (hlk : (s.rangeRegion (dW d 1, dW d 3, false)).wpol ≠ 3) :
    s.stepPin r d pn = (.done, s.modPage pn fun p => { p with pin := true }) := by
  have hin : ¬ s.framesInService * s.pinPct < (s.pinned + 1) * 100 := Nat.not_lt.mpr hlimit
  unfold State.stepPin
  simp only [stepToT1_done .pin h, hin, hlk, decide_false, Bool.and_false, Bool.false_eq_true, if_false, ne_eq, not_false_eq_true, if_true]

end

/-! ### The commands -/

section
variable {s : State} {r pn : Nat} {a : Active} (hon : s.on = true)
include hon

/-- PROMOTE runs its one page. -/
theorem promote_works (hw : s.working r 0x30 a) {u : State} (h : s.hush.pageWork r (fun _ s pn => s.stepToT1 .descriptor pn) = u) :
    Yields (.promote r) s u := by
  obtain ⟨hact, hop, hst, hheld, hturn⟩ := hw
  refine yields_of hon (show exec _ s = execPromote r s from rfl) ?_
  unfold State.workPromote
  rw [runs_of (sub := none) hact hop hst hheld hturn rfl, when_true, h]

/-- DEMOTE to T2 or T3 runs its one page. -/
theorem demote_works {c : Instr} {n : Nat} {tier : Transition} (hc : (c, n, tier) ∈ [(Instr.demoteT2 r, 2, Transition.toT2), (.demoteT3 r, 3, .toT3)])
    (hw : s.working r 0x31 a) (hsub : dSub a.words = n) {u : State} (h : s.hush.pageWork r (fun _ s pn => s.stepDown r tier pn) = u) :
    Yields c s u := by
  obtain ⟨hact, hop, hst, hheld, hturn⟩ := hw
  have hruns := runs_of (sub := some n) hact hop hst hheld hturn (decide_eq_true hsub)
  simp only [List.mem_cons, Prod.mk.injEq, List.not_mem_nil, or_false] at hc
  rcases hc with ⟨rfl, rfl, rfl⟩ | ⟨rfl, rfl, rfl⟩
  · refine yields_of hon (show exec _ s = execDemoteT2 r s from rfl) ?_
    unfold State.workDemoteT2
    rw [hruns, when_true, h]
  · refine yields_of hon (show exec _ s = execDemoteT3 r s from rfl) ?_
    unfold State.workDemoteT3
    rw [hruns, when_true, h]

/-- PIN runs its one page. -/
theorem pin_works (hw : s.working r 0x32 a) {u : State} (h : s.hush.pageWork r (fun d s pn => s.stepPin r d pn) = u) :
    Yields (.pin r) s u := by
  obtain ⟨hact, hop, hst, hheld, hturn⟩ := hw
  refine yields_of hon (show exec _ s = execPin r s from rfl) ?_
  unfold State.workPin
  rw [runs_of (sub := none) hact hop hst hheld hturn rfl, when_true, h]

/-- UNPIN clears PIN on the pages of its range and ends; in a region that is not LK no lock clears (R242). -/
theorem unpin_yields (hw : s.working r 0x33 a) (hlk : (s.rangeRegion (dW a.words 1, dW a.words 3, false)).wpol ≠ 3) :
    Yields (.unpin r) s
      (State.endDescriptor
        { s.hush with map := { s.map with pages := s.map.pages.mapVals {} fun pn p =>
            if (decide (dFirst a.words / 64 ≤ pn) && decide (pn ≤ dLast a.words / 64)) then { p with pin := false } else p } } r 0x00 id) := by
  obtain ⟨hact, hop, hst, hheld, hturn⟩ := hw
  have hact' : (s.hush.ring r).act = some a := hact
  have hlk' : (s.hush.rangeRegion (dW a.words 1, dW a.words 3, false)).wpol ≠ 3 := hlk
  refine yields_of hon (show exec _ s = execUnpin r s from rfl) ?_
  unfold State.workUnpin
  rw [runs_of (sub := none) hact hop hst hheld hturn rfl, when_true]
  simp only [hact', hlk', if_false]
  rfl

end

/-- Where a page descriptor's step leaves the rings, it goes on with the pages that it still treats. -/
theorem pageWork_waits {s t : State} {r pn : Nat} {a : Active} {f : Line → State → Nat → PageStep × State} (hact : (s.ring r).act = some a)
    (hst : a.started = true) (hp : a.pages = [pn]) (hf : f a.words s.hush pn = (.wait, t)) (hr : t.rng = s.rng) :
    s.hush.pageWork r f = t.modAct r fun a => { a with started := true, pages := [pn] } := by
  have hact' : (t.ring r).act = some a := by unfold State.ring; rw [hr]; exact hact
  exact (work_one (s := s.hush) hact hst hp hact').1 hf

/-- Where a page descriptor's step ends its only page, it ends (R241). -/
theorem pageWork_ends {s t : State} {r pn : Nat} {a : Active} {f : Line → State → Nat → PageStep × State} (hact : (s.ring r).act = some a)
    (hst : a.started = true) (hp : a.pages = [pn]) (hf : f a.words s.hush pn = (.done, t)) (hr : t.rng = s.rng) :
    s.hush.pageWork r f = (t.modAct r fun a => { a with started := true, pages := [] }).endDescriptor r 0x00 fun a => { a with
      result := atBit (a.missed % 2 ^ 32) 0 ||| atBit (a.plines % 2 ^ 32) 32 } := by
  have hact' : (t.ring r).act = some a := by unfold State.ring; rw [hr]; exact hact
  exact (work_one (s := s.hush) hact hst hp hact').2 hf

/-- Queueing a read leaves the rings and the map tiles. -/
theorem queueRead_keeps (s : State) (pn f prio : Nat) (why : DramFor) (q : Nat) :
    (s.queueRead pn f prio why).rng = s.rng ∧ (s.queueRead pn f prio why).mapTile q = s.mapTile q := by
  obtain ⟨p, o, out, c, h⟩ := queueRead_cases s pn f prio why
  rw [h]
  exact ⟨rfl, rfl⟩

/-! ### Demotions -/

section
variable {s : State} {r pn f : Nat} {a : Active} (hon : s.on = true) (hw : s.working r 0x31 a) (hst : a.started = true)
  (hp : a.pages = [pn]) (hidle : Idle s pn f) (hmay : s.mayDemote pn = true) (hunit : (s.unit (pn / 512)).dstate ≠ .unloaded)
  (hstop : s.vlt.stopped = false)
include hon hw hst hp hidle hmay hunit hstop

/-- DEMOTE to T2 of an idle page whose stream fits starts with the read of its frame, in the first sectors that are free (R234, R241). -/
theorem demoteT2_yields (hsub : dSub a.words = 2) (hhint : s.hint pn ≠ 2) (hcomp : s.compEn = true) (hzero : (s.frameData f).zero = false)
    (hlen : sectorsFor (s.frameData f).clen ≤ 7)
    (hfit : s.sectorsFree (s.sectorFor (sectorsFor (s.frameData f).clen)) (sectorsFor (s.frameData f).clen) = true) :
    Yields (.demoteT2 r) s
      ((((((s.hush.queueRead (pn * 64) f (s.pageLevel pn 5) (.move pn)).count (evTile (s.mapTile pn) 14) 1).modPage pn fun p =>
        { p with moving := some ⟨.toT2, .descriptor, s.sectorFor (sectorsFor (s.frameData f).clen), true⟩ }).useFrame
          (s.sectorFor (sectorsFor (s.frameData f).clen) / 8) .t2)).modAct r fun a => { a with started := true, pages := [pn] }) := by
  have hidle' : Idle s.hush pn f := ⟨hidle.place, hidle.pin, hidle.nocomp, hidle.busy, hidle.dirty, hidle.poison, hidle.room0, hidle.room1⟩
  have hstart := transitionStart_compresses (s := s.hush) hidle.place hidle.rest.2 hunit hstop hmay hhint hcomp hzero hlen hfit
    hidle.room0 hidle.room1
  obtain ⟨hrng, htile⟩ := queueRead_keeps s.hush (pn * 64) f (s.hush.pageLevel pn 5) (.move pn) pn
  have hwork := pageWork_waits (f := fun _ s pn => s.stepDown r .toT2 pn) hw.1 hst hp
    (stepDown_starts r hidle' hstart (startMove_moving _ _ _)) hrng
  unfold State.startMove at hwork
  rw [htile] at hwork
  exact demote_works hon (List.mem_cons_self ..) hw hsub hwork

/-- DEMOTE to T3 of an idle page with a current record starts at once (R234, R241). -/
theorem demoteT3_yields (hsub : dSub a.words = 3) (hbeam : (s.page pn).beamv = true) :
    Yields (.demoteT3 r) s
      ((((s.hush.unpurpose pn).count (evTile (s.mapTile pn) 14) 1).modPage pn fun p =>
        { p with moving := some ⟨.toT3, .descriptor, s.sectorFor (sectorsFor (s.frameData f).clen), false⟩ }).modAct r fun a =>
          { a with started := true, pages := [pn] }) := by
  have hidle' : Idle s.hush pn f := ⟨hidle.place, hidle.pin, hidle.nocomp, hidle.busy, hidle.dirty, hidle.poison, hidle.room0, hidle.room1⟩
  have hstart := transitionStart_toRecord (s := s.hush) (sec := s.sectorFor (sectorsFor (s.frameData f).clen)) hidle.place hidle.rest.2
    hunit hstop hmay hbeam
  exact demote_works hon (List.mem_cons_of_mem _ (List.mem_cons_self ..)) hw hsub
    (pageWork_waits (f := fun _ s pn => s.stepDown r .toT3 pn) hw.1 hst hp (stepDown_starts r hidle' hstart (startMove_moving _ _ _)) rfl)

end

end Sys2Proof.Proofs.PageDescriptors
end

