-- ==== Sys2Proof/Proofs/Maintenance.lean ====
section
/-! PROOF. Cache maintenance of a range with one resident line and nothing under way (R125 to R131), and obligation O24. -/
namespace Sys2Proof.Proofs.Maintenance
open Sys2Proof Sys2Proof.Machine Sys2Proof.Laws Sys2Proof.Proofs.PageDescriptors

/-! ### One line -/

/-- Way w of slice n holds line as x, dirty and not locked; its page lies in the live frame f, and nothing is under way in the cache. -/
structure DirtyLine (s : State) (n w line f : Nat) (x : NcWay) : Prop where
  wb : s.near.wb = []
  txns : s.coh.txns = []
  handoff : s.coh.handoff = []
  way : s.way n (ncSet line) w = x
  dirty : x.d = true
  lock : x.lock = false
  place : (s.page (pageOf line)).place = .t1 f
  live : s.frameLive f = true

/-- The line as its frame holds it after its writeback. -/
def writtenBack (s : State) (n w line f : Nat) (x : NcWay) : State :=
  (s.setCell f (line % 64) { data := x.data, poison := x.poison }).setWay n (ncSet line) w { x with d := false }

section
variable {s : State} {n w line f : Nat} {x : NcWay} (h : DirtyLine s n w line f x)
include h

/-- No operation waits for the line (R131, R167). -/
theorem DirtyLine.idle : s.lineBusy line = false := by
  unfold State.lineBusy State.txn
  rw [h.txns, h.handoff]
  rfl

/-- CLEAN writes the line back and keeps it clean (R125). -/
theorem cleanLine_dirty : s.cleanLine n w line = (true, writtenBack s n w line f x) := by
  have hback : s.writeBack line x.cell = some (s.setCell f (line % 64) x.cell) := by
    unfold State.writeBack
    simp only [h.place, h.live, if_true]
  unfold State.cleanLine
  simp only [h.idle, h.way, h.dirty, hback, Bool.false_eq_true, if_false, Bool.not_true]
  rfl

/-- INVAL writes the line back and invalidates it (R125, R127). -/
theorem invalLine_dirty : s.invalLine n w line = (true, (writtenBack s n w line f x).setWay n (ncSet line) w {}) := by
  unfold State.invalLine State.dropWay
  simp only [cleanLine_dirty h, h.way, h.lock, Bool.not_false, Bool.and_self, if_true]

/-- DISCARD drops the line with its data, and its poison with it where its frame's copy has none (R125, R128). -/
theorem discardLine_dirty (hlate : ∀ m ∈ s.near.maint, m.op = 0x22 → ∀ e ∈ m.late, e.1 ≠ line) :
    s.discardLine n w line = (true, if (s.placeLine (.t1 f) (line % 64)).poison then s.setWay n (ncSet line) w {}
      else (s.setWay n (ncSet line) w {}).unindexPoison line 1) := by
  have hearly : s.lateDirty n w line = false := by
    unfold State.lateDirty
    have hnone : (s.near.maint.any fun m => m.op = 0x22 && m.late.any fun e => e.1 = line && e.2 ≠ some (s.way n (ncSet line) w).cell) = false := by
      refine List.any_eq_false.mpr fun m hm hp => ?_
      obtain ⟨hop, hany⟩ := Bool.and_eq_true_iff.mp hp
      obtain ⟨e, he, hline⟩ := List.any_eq_true.mp hany
      exact hlate m hm (of_decide_eq_true hop) e he (of_decide_eq_true (Bool.and_eq_true_iff.mp hline).1)
    simp only [hnone, Bool.and_false]
  have hbelow : (s.dropWay n w line).poisonBelow line = (s.placeLine (.t1 f) (line % 64)).poison := by
    unfold State.poisonBelow
    have hwb : (s.dropWay n w line).near.wb = [] := h.wb
    have hpl : ((s.dropWay n w line).page (pageOf line)).place = .t1 f := h.place
    rw [hwb, hpl, List.any_nil, Bool.or_false]
    rfl
  unfold State.discardLine State.unpoison
  simp only [h.idle, hearly, h.way, h.lock, hbelow, Bool.false_eq_true, if_false, Bool.not_false, if_true]
  rfl

end

/-! ### A descriptor whose range holds one line -/

/-- The maintenance commands of ring pair r: each with its opcode, what it does to a line, and its RESULT (R125). -/
inductive Treats (r : Nat) : Instr → Nat → (State → Nat → Nat → Nat → Bool × State) → (Active → Word) → Prop
  | clean : Treats r (.clean r) 0x20 State.cleanLine fun _ => 0
  | inval : Treats r (.inval r) 0x21 State.invalLine fun a => atBit a.pages.length 0
  | discard : Treats r (.discard r) 0x22 State.discardLine fun a => atBit a.pages.length 0

section
variable {s t : State} {r op n w line : Nat} {a : Active} {c : Instr} {f : State → Nat → Nat → Nat → Bool × State} {g : Active → Word}

/-- A maintenance command of a ring pair that is at work runs the descriptor as far as it goes. -/
theorem maintenance_works (hc : Treats r c op f g) (hon : s.on = true) (hw : s.working r op a) {u : State} (h : s.hush.maintain r = u) :
    Yields c s u := by
  obtain ⟨hact, hop, hst, hheld, hturn⟩ := hw
  have hruns := runs_of (sub := none) hact hop hst hheld hturn rfl
  cases hc with
  | clean =>
    refine yields_of hon (show exec _ s = execClean r s from rfl) ?_
    rw [State.workClean, hruns, when_true, h]
  | inval =>
    refine yields_of hon (show exec _ s = execInval r s from rfl) ?_
    rw [State.workInval, hruns, when_true, h]
  | discard =>
    refine yields_of hon (show exec _ s = execDiscard r s from rfl) ?_
    rw [State.workDiscard, hruns, when_true, h]

/-- What treating a line leaves for the descriptor to wait for: no transaction, hand-off, lent line or write-buffer entry. -/
structure Quiet (s : State) : Prop where
  wb : s.near.wb = []
  txns : s.coh.txns = []
  lent : s.coh.lent = []
  handoff : s.coh.handoff = []

/-- A maintenance descriptor that has started, whose range is in no pool window and holds one resident line, ends once the line is treated
and nothing else is left (R126, R130). -/
theorem maintain_one (hc : Treats r c op f g) (hact : (s.ring r).act = some a) (hop : dOp a.words = op) (hstarted : a.started = true)
    (hpool : (s.rangeRegion (dW a.words 1, dW a.words 3, false)).pooled = false) (hres : s.residents a.words = [(n, w, line)])
    (htreat : f s n w line = (true, t)) (hq : Quiet t) :
    s.maintain r = (t.maintEnd r).endDescriptor r 0x00 fun b => { b with result := g b } := by
  have hlines : s.overLines a.words f = (true, t) := by
    unfold State.overLines
    rw [hres, List.foldl_cons, List.foldl_nil, htreat]
    rfl
  have hlent : t.overLent a.words = (true, t) := by
    unfold State.overLent
    rw [hq.lent]
    rfl
  unfold State.maintain
  simp only [hact, hpool, hstarted, hop, Bool.false_eq_true, if_false, Bool.not_true, Bool.false_and, if_true]
  cases hc
  all_goals
    simp only [hlines, hlent, hq.wb, hq.txns, hq.handoff, List.any_nil, List.map_nil, List.append_nil, Bool.not_true, Bool.or_self,
      Bool.false_eq_true, if_false, if_true, Nat.reduceEqDiff]

/-- A maintenance command of such a descriptor leaves what treating the line leaves, and blocks the range no more (R126, R130). -/
theorem maintenance_yields (hc : Treats r c op f g) (hon : s.on = true) (hw : s.working r op a) (hstarted : a.started = true)
    (hpool : (s.rangeRegion (dW a.words 1, dW a.words 3, false)).pooled = false) (hres : s.residents a.words = [(n, w, line)])
    (htreat : f s.hush n w line = (true, t)) (hq : Quiet t) (hmaint : t.near.maint = s.near.maint) :
    Yields c s (State.endDescriptor { t with near := { t.near with maint := s.near.maint.filter fun m => m.ring ≠ r } } r 0x00
      fun a => { a with result := g a }) := by
  rw [← hmaint]
  exact maintenance_works hc hon hw (maintain_one hc hw.1 hw.2.1 hstarted hpool hres htreat hq)

end

/-- Settles O24: PROMOTE, DEMOTE, PIN and UNPIN, then the maintenance of one line. That PROMOTE takes the lowest free frame is the model's
choice (log entry 22). -/
theorem pagesAndLinesAreMaintained : Obligations.PagesAndLinesAreMaintained := by
  unfold Obligations.PagesAndLinesAreMaintained
  refine ⟨fun s r pn f a hon => ⟨fun hw hst hp => ⟨?promotes, ?promoted⟩, ?demotes, ?pins, fun hw hlk => unpin_yields hon hw hlk⟩, ?maintains⟩
  case promotes =>
    intro hpl hmv hunit hreb hstop hlow hopen hfree
    exact promote_works hon hw (pageWork_waits hw.1 hst hp (stepToT1_promotes (s := s.hush) hpl hmv hunit hreb hstop hlow hopen hfree) rfl)
  case promoted =>
    intro hin
    exact promote_works hon hw (pageWork_ends hw.1 hst hp (stepToT1_done (s := s.hush) .descriptor hin) rfl)
  case demotes =>
    intro f0 k hst hp hpl hpin hnc hbusy hdirty hpoison hmay hunit hstop h0 h1 hk
    have hidle : Idle s pn f0 := ⟨hpl, hpin, hnc, hbusy, hdirty, hpoison, h0, h1⟩
    subst hk
    exact ⟨fun hw => demoteT2_yields hon hw hst hp hidle hmay hunit hstop, fun hw => demoteT3_yields hon hw hst hp hidle hmay hunit hstop⟩
  case pins =>
    intro hw hst hp hin hlimit hlk
    exact pin_works hon hw (pageWork_ends hw.1 hst hp (stepPin_pins (s := s.hush) r hin hlimit hlk) rfl)
  case maintains =>
    intro s r n w line f a x hon hwb htx hlent hho hpool hres hway hd hlock hpl hlive hst
    have hline : DirtyLine s.hush n w line f x := ⟨hwb, htx, hho, hway, hd, hlock, hpl, hlive⟩
    refine ⟨fun hw => ⟨_, rfl, ?clean⟩, fun hw => ⟨_, rfl, ?inval⟩, fun hw hlate => ⟨_, rfl, ?discard⟩⟩
    case clean =>
      exact maintenance_yields .clean hon hw hst hpool hres (cleanLine_dirty hline) ⟨hwb, htx, hlent, hho⟩ rfl
    case inval =>
      exact maintenance_yields .inval hon hw hst hpool hres (invalLine_dirty hline) ⟨hwb, htx, hlent, hho⟩ rfl
    case discard =>
      refine maintenance_yields .discard hon hw hst hpool hres (discardLine_dirty hline hlate) ?_ ?_
      · split <;> exact ⟨hwb, htx, hlent, hho⟩
      · split <;> rfl

end Sys2Proof.Proofs.Maintenance
end

