-- ==== Sys2Proof/Proofs/Buckets.lean ====
section
/-! PROOF. Counted errors (R134, R474 to R476, R478, R495): the leak of a bucket, a count that stays below the threshold or waits between
commit and resume, the effect of an SRAM error at its place, and the injection of a corrected error. -/
namespace Sys2Proof.Proofs.Buckets
open Sys2Proof Sys2Proof.Machine Sys2Proof.Laws

/-! ### A bucket -/

/-- Weight w goes into bucket u of kind k: t is x with that done, and with d for the retirements that wait. -/
def Added (s : State) (k u : Nat) (x t : State) (w : Nat) (d : List (Nat × Nat)) : Prop :=
  ∃ bs tp, t = { x with flt := { s.flt with buckets := bs, deferred := d }, tap := tp }
    ∧ (s.flt.buckets.wf {} = true → bs = s.flt.buckets.set {} (256 * k + u) { s.bucket k u with
      count := min ((s.bucket k u).count + w) 0xFFFF, peak := max (s.bucket k u).peak (min ((s.bucket k u).count + w) 0xFFFF) })

/-- Weight w leaves bucket u of kind k at or below its threshold, and no retirement of the unit waits. -/
def Low (s : State) (k u w : Nat) : Prop :=
  min ((s.bucket k u).count + w) 0xFFFF ≤ fld (s.flt.kind k) 0 16 ∧ s.flt.deferred.contains (k, u) = false ∧ s.flt.buckets.wf {} = true

section
variable {s x : State} {k u w : Nat}

/-- Whether an error stays below the threshold depends on the buckets and the retirements that wait. -/
theorem Low.congr (h : Low s k u w) (hbuckets : x.flt.buckets = s.flt.buckets) (hdeferred : x.flt.deferred = s.flt.deferred)
    (hkinds : x.flt.kinds = s.flt.kinds) : Low x k u w := by
  unfold Low State.bucket Flt.kind at h ⊢
  rw [hbuckets, hdeferred, hkinds]
  exact h

/-- Counting an error changes neither the near cache nor the frames. -/
theorem Added.keeps {t : State} {d : List (Nat × Nat)} (h : Added s k u x t w d) : t.near = x.near ∧ t.dram = x.dram := by
  obtain ⟨bs, tp, rfl, -⟩ := h
  exact ⟨rfl, rfl⟩

/-- A unit whose retirement does not wait is not retired. -/
theorem retireIfDue_none (h : s.flt.deferred.contains (k, u) = false) : s.retireIfDue k u = s := by
  unfold State.retireIfDue State.retireDue
  simp only [h, Bool.false_and, Bool.false_eq_true, if_false]

/-- Between commit and resume no unit is retired (R478). -/
theorem retireIfDue_deferring (h : s.vlt.hold = true ∨ s.vlt.stopped = true) : s.retireIfDue k u = s := by
  have hd : s.deferring = true := by simpa [State.deferring] using h
  simp [State.retireIfDue, State.retireDue, hd]

/-- A unit that is retired is not retired again. -/
theorem retireIfDue_retired (h : s.unitRetired k u = true) : s.retireIfDue k u = s := by
  simp [State.retireIfDue, h]

/-- The bucket after an error's weight is added (R474). -/
theorem modBucket_get (f : Bucket → Bucket) (hwf : x.flt.buckets.wf {} = true) : (x.modBucket k u f).bucket k u = f (x.bucket k u) :=
  Tbl.get_set_eq _ _ _ hwf

/-- Counting an error adds its weight, and puts a unit that it takes over the threshold on the list of retirements (R474, R476). -/
theorem bump_eq (hwf : x.flt.buckets.wf {} = true) : ∃ tp, x.bump k u w = { x with
    tap := tp
    flt := { x.flt with
      buckets := x.flt.buckets.set {} (256 * k + u) ((x.bucket k u).add w)
      deferred := if decide (fld (x.flt.kind k) 0 16 < ((x.bucket k u).add w).count) && ! (x.bucket k u).retired && ! x.flt.deferred.contains (k, u)
        then x.flt.deferred ++ [(k, u)] else x.flt.deferred } } := by
  have hget := modBucket_get (k := k) (u := u) (fun b => b.add w) hwf
  unfold State.bump
  dsimp only
  generalize hm : (x.modBucket k u fun b => b.add w).minuteMax _ _ = m
  have hbucket : m.bucket k u = (x.bucket k u).add w := by rw [← hm]; exact hget
  have hover : m.over k u = decide (fld (x.flt.kind k) 0 16 < ((x.bucket k u).add w).count) := by
    unfold State.over
    rw [hbucket, ← hm]
    rfl
  have hdef : m.flt.deferred = x.flt.deferred := by rw [← hm]; rfl
  rw [hover, hbucket, hdef, show ((x.bucket k u).add w).retired = (x.bucket k u).retired from rfl, ← hm]
  split
  · exact ⟨_, rfl⟩
  · exact ⟨_, rfl⟩

/-- A count that leaves the bucket at or below the threshold only adds its weight. -/
theorem bump_added_low (hx : x.flt = s.flt) (h : Low s k u w) : Added s k u x ((x.bump k u w).retireIfDue k u) w s.flt.deferred := by
  obtain ⟨hle, hnot, hwf⟩ := h
  have hbucket : x.bucket k u = s.bucket k u := by unfold State.bucket; rw [hx]
  obtain ⟨tp, hb⟩ := bump_eq (x := x) (k := k) (u := u) (w := w) (by rw [hx]; exact hwf)
  have hcount : ¬ fld (s.flt.kind k) 0 16 < ((s.bucket k u).add w).count := Nat.not_lt.mpr hle
  rw [hx, hbucket, decide_eq_false hcount, Bool.false_and, Bool.false_and] at hb
  have hstay : (x.bump k u w).retireIfDue k u = x.bump k u w := retireIfDue_none (by rw [hb]; exact hnot)
  rw [hstay, hb]
  exact ⟨_, tp, rfl, fun _ => rfl⟩

/-- A count over the threshold between commit and resume adds its weight, and the unit's retirement waits (R476, R478). -/
theorem bump_added_over (hx : x.flt = s.flt) (hv : x.vlt = s.vlt) (hover : fld (s.flt.kind k) 0 16 < min ((s.bucket k u).count + w) 0xFFFF)
    (hnot : s.flt.deferred.contains (k, u) = false) (hret : (s.bucket k u).retired = false)
    (hwait : s.vlt.hold = true ∨ s.vlt.stopped = true) (hwf : s.flt.buckets.wf {} = true) :
    Added s k u x ((x.bump k u w).retireIfDue k u) w (s.flt.deferred ++ [(k, u)]) := by
  have hbucket : x.bucket k u = s.bucket k u := by unfold State.bucket; rw [hx]
  obtain ⟨tp, hb⟩ := bump_eq (x := x) (k := k) (u := u) (w := w) (by rw [hx]; exact hwf)
  have hcount : fld (s.flt.kind k) 0 16 < ((s.bucket k u).add w).count := hover
  rw [hx, hbucket, decide_eq_true hcount, hret, hnot] at hb
  have hstay : (x.bump k u w).retireIfDue k u = x.bump k u w := retireIfDue_deferring (by rw [hb]; exact hv ▸ hwait)
  rw [hstay, hb]
  exact ⟨_, tp, rfl, fun _ => rfl⟩

end

/-- Each LEAK_MS of its kind takes one from a bucket (R474). -/
theorem bucketLeak_yields {s : State} {kind : UnitKind} {u : Nat} (hon : s.on = true) (hu : u < kindUnits (kindNo kind))
    (hdue : (s.bucket (kindNo kind) u).leakAt + max 1 (fld (s.flt.kind (kindNo kind)) 16 24) * 2000000 ≤ s.clock) :
    Yields (.bucketLeak kind u) s { s.hush with flt := { s.flt with buckets := s.flt.buckets.set {} (256 * kindNo kind + u) { s.bucket (kindNo kind) u with
      count := (s.bucket (kindNo kind) u).count - 1, leakAt := s.clock } } } := by
  refine yields_of hon (show exec _ s = execBucketLeak kind u s from rfl) ?_
  rw [decide_eq_true hu, when_true]
  simp only [hush_bucket, hush_flt, elapse_done (s := s.hush) hdue]
  rfl

/-! ### The command -/

/-- Counted errors have a weight above 0 (R474). -/
theorem weight_pos {k w : Nat} (h : w ∈ kindWeights k) : 0 < w := by
  have h0 : 0 ∉ kindWeights k := by
    unfold kindWeights
    split <;> decide
  exact Nat.pos_of_ne_zero fun hw => h0 (hw ▸ h)

section
variable {s x : State} {kind : UnitKind} {u w : Nat} {p : SramErr}

/-- A unit that its kind does not have neither leaks nor counts. -/
theorem noUnit_yields (hon : s.on = true) (hu : kindUnits (kindNo kind) ≤ u) :
    Yields (.bucketLeak kind u) s s.hush ∧ ∀ w p, Yields (.errorCounted kind u w p) s s.hush := by
  have hno : decide (u < kindUnits (kindNo kind)) = false := decide_eq_false (Nat.not_lt.mpr hu)
  refine ⟨yields_of hon (show exec _ s = execBucketLeak kind u s from rfl) ?_,
    fun w p => yields_of hon (show exec _ s = execErrorCounted kind u w p s from rfl) ?_⟩
  · rw [hno, when_false]
  · simp only [hno, when_false]

/-- A counted error has its effect at its place, then its weight goes into the bucket, then a retirement that is due is carried out. -/
theorem errorCounted_counts (hon : s.on = true) (hu : u < kindUnits (kindNo kind)) (hw : w ∈ kindWeights (kindNo kind))
    (hx : s.hush.sramError (kindNo kind) u w p = x) :
    Yields (.errorCounted kind u w p) s ((x.bump (kindNo kind) u w).retireIfDue (kindNo kind) u) := by
  have hw0 : w ≠ 0 := (weight_pos hw).ne'
  have hin : (kindWeights (kindNo kind)).contains w = true := List.contains_iff_mem.mpr hw
  refine yields_of hon (show exec _ s = execErrorCounted kind u w p s from rfl) ?_
  simp only [decide_eq_true hu, when_true, hx, hw0, hin, decide_false, Bool.and_false, Bool.false_eq_true, if_false, if_true]

/-- An error of weight 0, of another kind than a host port, only has its effect at its place (R134). -/
theorem errorCounted_uncounted (hon : s.on = true) (hu : u < kindUnits (kindNo kind)) (hk : kindNo kind ≠ 7)
    (hx : s.hush.sramError (kindNo kind) u 0 p = x) : Yields (.errorCounted kind u 0 p) s x := by
  have hout : (kindWeights (kindNo kind)).contains 0 = false := by
    rw [Bool.eq_false_iff]
    exact fun h => absurd (weight_pos (List.contains_iff_mem.mp h)) (Nat.lt_irrefl 0)
  refine yields_of hon (show exec _ s = execErrorCounted kind u 0 p s from rfl) ?_
  simp only [decide_eq_true hu, when_true, hx, hk, hout, decide_false, Bool.false_and, Bool.false_eq_true, if_false]

/-- A counted error below the threshold has its effect at its place and adds its weight. -/
theorem errorCounted_added (hon : s.on = true) (hu : u < kindUnits (kindNo kind)) (hw : w ∈ kindWeights (kindNo kind))
    (hx : s.hush.sramError (kindNo kind) u w p = x) (hflt : x.flt = s.flt) (h : Low s (kindNo kind) u w) :
    Completes (.errorCounted kind u w p) s fun t => Added s (kindNo kind) u x t w s.flt.deferred :=
  ⟨_, errorCounted_counts hon hu hw hx, bump_added_low hflt h⟩

/-- The management side counts a corrected error of weight 1 (R495). -/
theorem injectCorrected_added {src : Nat} (hon : s.on = true) (hr : s.reaches src = true) (hm : s.isMgmt src = true)
    (hu : u < kindUnits (kindNo kind)) (h : Low s (kindNo kind) u 1) :
    Completes (.fltInjectCorrected src kind u) s fun t => Added s (kindNo kind) u s.hush t 1 s.flt.deferred := by
  have hin : s.hush.inject 1 (kindNo kind) u = (s.hush.bump (kindNo kind) u 1).retireIfDue (kindNo kind) u := by
    unfold State.inject
    simp only [Nat.not_le.mpr hu, if_false]
  refine ⟨_, yields_of hon (show exec _ s = execFltInjectCorrected src kind u s from rfl) ?_, bump_added_low (x := s.hush) rfl h⟩
  exact (globalWrite_mgmt (s := s.hush) _ _ hr hm).trans hin

/-- The injected retirement of a unit that is retired, or that its kind does not have, has no effect (R495). -/
theorem injectRetire_noEffect {src : Nat} (hon : s.on = true) (hr : s.reaches src = true) (hm : s.isMgmt src = true)
    (h : s.unitRetired (kindNo kind) u = true ∨ kindUnits (kindNo kind) ≤ u) : Yields (.fltInjectRetire src kind u) s s.hush := by
  have hin : s.hush.inject 2 (kindNo kind) u = s.hush := by
    unfold State.inject
    rcases h with h | h
    · have h' : s.hush.unitRetired (kindNo kind) u = true := h
      simp only [h', if_true, ite_self]
    · simp only [h, if_true]
  exact yields_of hon (show exec _ s = execFltInjectRetire src kind u s from rfl) ((globalWrite_mgmt (s := s.hush) _ _ hr hm).trans hin)

/-- Another head's injection posts an ACCESS notice and has no other effect (R80, R495). -/
theorem inject_denied {src : Nat} {c : Instr} (hon : s.on = true) (hr : s.reaches src = true) (hm : s.isMgmt src = false)
    (hc : c ∈ [Instr.fltInjectCorrected src kind u, .fltInjectRetire src kind u]) :
    Completes c s fun t => ∃ tp p, t = { s with
      out := [], tap := tp, pmc := p, flt := s.flt.enter (Note.words ⟨1, 0x03, src % 32 + 0xFFF * 32 + 2 ^ 17, some (0xE080 / 8)⟩) } := by
  have hx : ∃ f, exec c s = run (fun s => s.globalWrite src (0xE080 / 8) f) s := by
    simp only [List.mem_cons, List.not_mem_nil, or_false] at hc
    rcases hc with rfl | rfl <;> exact ⟨_, rfl⟩
  obtain ⟨f, hx⟩ := hx
  exact completes_of hon hx (globalWrite_denied (s := s.hush) _ f hr hm)

end

/-! ### SRAM errors of a near-cache way -/

section
variable {s : State} {n w set : Nat} {x : NcWay}

/-- Lost data of a scratch line is poison (R134). -/
theorem dataError_scratch {slot : Nat} (hslot : (s.scratchWays n).reverse.idxOf? w = some slot) :
    s.dataError n w set = s.setScr (slot * 524288 + set * 16 + n) { s.poolCell (slot * 524288 + set * 16 + n) with poison := true } := by
  unfold State.dataError
  simp only [hslot]

variable (hway : s.way n set w = x)
include hway

/-- Lost data of a clean line is read again from its lower tier, with its write-buffer bytes (R134). -/
theorem dataError_clean {m : Nat} {r : Region} (hslot : (s.scratchWays n).reverse.idxOf? w = none) (hv : x.v = true) (hd : x.d = false)
    (hr : s.regionOf (ncLine set x.tag) = some (m, r)) :
    s.dataError n w set = s.setWay n set w { x with
      data := (s.withBuffer (ncLine set x.tag) (s.lowerLine r (ncLine set x.tag))).data
      poison := (s.withBuffer (ncLine set x.tag) (s.lowerLine r (ncLine set x.tag))).poison } := by
  unfold State.dataError
  simp only [hslot, hway, hv, hd, hr, Bool.not_true, Bool.false_eq_true, if_false]

/-- Lost data of a dirty line is poison (R134). -/
theorem dataError_dirty (hslot : (s.scratchWays n).reverse.idxOf? w = none) (hv : x.v = true) (hd : x.d = true) :
    s.dataError n w set = (s.setWay n set w { x with poison := true }).poisoned 1 (ncLine set x.tag) 1 := by
  unfold State.dataError
  simp only [hslot, hway, hv, hd, Bool.not_true, Bool.false_eq_true, if_false, if_true]

/-- A lost tag of a dirty line is rebuilt from the side word, and the line is written back (R134). -/
theorem tagError_dirty (hv : x.v = true) (hside : (s.near.side.get 0 (ncKey n set w)).getLsbD 24 = true) :
    s.tagError n w set = s.setWay n set w { x with
      tag := ((s.near.side.get 0 (ncKey n set w)).setWidth 24).toNat, d := true, evicting := true, lock := false } := by
  unfold State.tagError
  simp only [hway, hv, hside, Bool.not_true, Bool.false_eq_true, if_false, if_true, Bool.true_or]

/-- A lost tag of a clean line at its home tile invalidates the line (R134). -/
theorem tagError_clean (hv : x.v = true) (hside : (s.near.side.get 0 (ncKey n set w)).getLsbD 24 = false)
    (hhome : s.ownerTile (ncLine set x.tag) = s.homeTile (ncLine set x.tag)) : s.tagError n w set = s.setWay n set w {} := by
  unfold State.tagError
  simp only [hway, hv, hside, hhome, Bool.not_true, Bool.false_eq_true, if_false, ne_eq, not_true, decide_false, Bool.or_self]

end

/-- An entry of the poison index is new, is there already, or finds the index full (R486). -/
theorem indexPoison_cases (s : State) (l n : Nat) : ∃ x y, s.indexPoison l n = { s with near := { s.near with poisonIdx := x, poisonOverflow := y } } := by
  unfold State.indexPoison
  split
  · exact ⟨s.near.poisonIdx, s.near.poisonOverflow, rfl⟩
  · split
    · exact ⟨_, s.near.poisonOverflow, rfl⟩
    · exact ⟨s.near.poisonIdx, _, rfl⟩

/-- General Media Event records change the heads and what is sent, and nothing else. -/
theorem mediaEvent_cases (s : State) (r : Region) (arg : Nat) : ∃ hs o, s.mediaEvent r arg = { s with heads := hs, out := o } :=
  eventAll_fold ⟨.generalMedia, 0x20, arg⟩ (bitsOf r.holders) s

/-- A line or page that became poison gets its notice, event records and index entry, and nothing else changes (R482, R486). -/
theorem poisoned_cases (s : State) (c l n : Nat) : ∃ ws t p hs o x y, s.poisoned c l n = { s with
    flt := s.flt.enter ws, tap := t, pmc := p, heads := hs, out := o, near := { s.near with poisonIdx := x, poisonOverflow := y } } := by
  unfold State.poisoned
  dsimp only
  generalize Note.mk 2 0x20 _ _ = nt
  generalize (s.regionOf l).getD (0xFFF, {}) = rg
  obtain ⟨t, p, hs, o, h1⟩ := note_cases s nt
  obtain ⟨hs2, o2, h2⟩ := mediaEvent_cases (s.note nt) rg.2 (l * 64)
  obtain ⟨x, y, h3⟩ := indexPoison_cases ((s.note nt).mediaEvent rg.2 (l * 64)) l n
  rw [h3, h2, h1]
  exact ⟨nt.words, t, p, hs2, o2, x, y, rfl⟩

end Sys2Proof.Proofs.Buckets
end

