-- ==== Sys2Proof/Proofs/SramErrors.lean ====
section
/-! PROOF. SRAM errors at their places (R134): the data, tag and tree of a near-cache way, a write-buffer entry, a map entry, and a host
port's decode arrays (R480). -/
namespace Sys2Proof.Proofs.SramErrors
open Sys2Proof Sys2Proof.Machine Sys2Proof.Laws Sys2Proof.Proofs.Buckets

/-! ### Which place an error reaches -/

section
variable {s : State} {u set : Nat}

theorem sramError_data (hset : set < 32768) : s.sramError 2 u 8 (.data set) = s.dataError (u / 16) (u % 16) set :=
  if_pos (show (true && decide (set < 32768)) = true by rw [decide_eq_true hset]; rfl)

theorem sramError_tag (hset : set < 32768) : s.sramError 2 u 0 (.tag set) = s.tagError (u / 16) (u % 16) set :=
  if_pos (show (true && decide (set < 32768)) = true by rw [decide_eq_true hset]; rfl)

theorem sramError_tree (hset : set < 32768) : s.sramError 2 u 0 (.tree set) =
    { s with near := { s.near with tree := s.near.tree.set 0 (u / 16 * 32768 + set) (s.near.tree.get 0 (u / 16 * 32768 + set) ^^^ 1) } } :=
  if_pos (show (true && decide (set < 32768)) = true by rw [decide_eq_true hset]; rfl)

theorem sramError_mapEntry {pn : Nat} (hu : s.mapTile pn = u) : s.sramError 4 u 4 (.mapEntry pn) = s.modPage pn fun p => p.uncached :=
  if_pos (show (true && decide (s.mapTile pn = u)) = true by rw [decide_eq_true hu]; rfl)

/-- A DURABLE write-buffer entry drains from its buddy, with the same bytes (R102, R134). -/
theorem sramError_durableEntry {id : Nat} {e : WbEntry} (he : s.near.wb.find? (fun e => e.id = id) = some e) (hd : e.durable = true) :
    s.sramError 4 u 0 (.entry id) = s := by
  show s.entryError id = s
  unfold State.entryError
  simp only [he, hd, if_true]

end

/-! ### A way of the near cache -/

/-- A notice that is entered changes no bucket, no threshold and no retirement that waits. -/
theorem enter_keeps (f : Flt) (ws : List Word) :
    (f.enter ws).buckets = f.buckets ∧ (f.enter ws).deferred = f.deferred ∧ (f.enter ws).kinds = f.kinds := by
  obtain ⟨hbuckets, hdeferred⟩ := HeadServices.enter_buckets f ws
  refine ⟨hbuckets, hdeferred, ?_⟩
  unfold Flt.enter
  split <;> split <;> rfl

/-- A line that becomes poison keeps the ways, the write buffer, the frames and the buckets. -/
theorem poisoned_keeps (s : State) (c l n : Nat) : (s.poisoned c l n).near.nc = s.near.nc ∧ (s.poisoned c l n).near.wb = s.near.wb
    ∧ (s.poisoned c l n).dram = s.dram ∧ (s.poisoned c l n).flt.buckets = s.flt.buckets
    ∧ (s.poisoned c l n).flt.deferred = s.flt.deferred ∧ (s.poisoned c l n).flt.kinds = s.flt.kinds := by
  obtain ⟨ws, tp, p, hs, o, i, f, hp⟩ := poisoned_cases s c l n
  rw [hp]
  exact ⟨rfl, rfl, rfl, enter_keeps s.flt ws⟩

section
variable {s : State} {u set : Nat} {x : NcWay} (hon : s.on = true) (hu : u < 256) (hset : set < 32768)
include hon hu hset

theorem scratchData_added {slot : Nat} (hslot : (s.scratchWays (u / 16)).reverse.idxOf? (u % 16) = some slot) (h : Low s 2 u 8) :
    Completes (.errorCounted .ncWay u 8 (.data set)) s fun t =>
      Added s 2 u (s.hush.setScr (slot * 524288 + set * 16 + u / 16) { s.poolCell (slot * 524288 + set * 16 + u / 16) with poison := true })
        t 8 s.flt.deferred :=
  errorCounted_added hon hu (List.mem_cons_of_mem _ List.mem_cons_self)
    ((sramError_data hset).trans (dataError_scratch (s := s.hush) hslot)) rfl h

/-- A flipped bit of the replacement tree has its effect and is not counted (R134). -/
theorem tree_flips : Yields (.errorCounted .ncWay u 0 (.tree set)) s { s.hush with near := { s.near with
    tree := s.near.tree.set 0 (u / 16 * 32768 + set) (s.near.tree.get 0 (u / 16 * 32768 + set) ^^^ 1) } } :=
  errorCounted_uncounted hon hu (by decide) (sramError_tree hset)

variable (hway : s.way (u / 16) set (u % 16) = x) (hv : x.v = true)
include hway hv

theorem cleanData_added {n : Nat} {r : Region} (hslot : (s.scratchWays (u / 16)).reverse.idxOf? (u % 16) = none) (hd : x.d = false)
    (hr : s.regionOf (ncLine set x.tag) = some (n, r)) (h : Low s 2 u 8) :
    Completes (.errorCounted .ncWay u 8 (.data set)) s fun t =>
      Added s 2 u (s.hush.setWay (u / 16) set (u % 16) { x with
        data := (s.withBuffer (ncLine set x.tag) (s.lowerLine r (ncLine set x.tag))).data
        poison := (s.withBuffer (ncLine set x.tag) (s.lowerLine r (ncLine set x.tag))).poison }) t 8 s.flt.deferred :=
  errorCounted_added hon hu (List.mem_cons_of_mem _ List.mem_cons_self)
    ((sramError_data hset).trans (dataError_clean (s := s.hush) hway hslot hv hd hr)) rfl h

/-- Lost data of a dirty way is poison in its way; the write buffer and the frames keep their bytes (R134). -/
theorem dirtyData_poisoned (hslot : (s.scratchWays (u / 16)).reverse.idxOf? (u % 16) = none) (hd : x.d = true) (h : Low s 2 u 8) :
    Completes (.errorCounted .ncWay u 8 (.data set)) s fun t =>
      t.near.nc = s.near.nc.set {} (ncKey (u / 16) set (u % 16)) { x with poison := true } ∧ t.near.wb = s.near.wb ∧ t.dram = s.dram := by
  have heffect := (sramError_data hset).trans (dataError_dirty (s := s.hush) hway hslot hv hd)
  refine ⟨_, errorCounted_counts hon hu (List.mem_cons_of_mem _ List.mem_cons_self) heffect, ?_⟩
  obtain ⟨hnc, hwb, hdram, hbuckets, hdeferred, hkinds⟩ :=
    poisoned_keeps (s.hush.setWay (u / 16) set (u % 16) { x with poison := true }) 1 (ncLine set x.tag) 1
  obtain ⟨hnear, hdram'⟩ := (bump_added_low rfl (h.congr hbuckets hdeferred hkinds)).keeps
  exact ⟨(congrArg (fun m => m.nc) hnear).trans hnc, (congrArg (fun m => m.wb) hnear).trans hwb, hdram'.trans hdram⟩

theorem dirtyTag_rebuilt (hside : (s.near.side.get 0 (ncKey (u / 16) set (u % 16))).getLsbD 24 = true) :
    Yields (.errorCounted .ncWay u 0 (.tag set)) s (s.hush.setWay (u / 16) set (u % 16) { x with
      tag := ((s.near.side.get 0 (ncKey (u / 16) set (u % 16))).setWidth 24).toNat, d := true, evicting := true, lock := false }) :=
  errorCounted_uncounted hon hu (by decide) ((sramError_tag hset).trans (tagError_dirty (s := s.hush) hway hv hside))

theorem cleanTag_invalidated (hside : (s.near.side.get 0 (ncKey (u / 16) set (u % 16))).getLsbD 24 = false)
    (hhome : s.ownerTile (ncLine set x.tag) = s.homeTile (ncLine set x.tag)) :
    Yields (.errorCounted .ncWay u 0 (.tag set)) s (s.hush.setWay (u / 16) set (u % 16) {}) :=
  errorCounted_uncounted hon hu (by decide) ((sramError_tag hset).trans (tagError_clean (s := s.hush) hway hv hside hhome))

end

/-! ### A tile's entries -/

section
variable {s : State} {u : Nat} (hon : s.on = true) (hu : u < 16)
include hon hu

theorem durableEntry_yields {id : Nat} {e : WbEntry} (he : s.near.wb.find? (fun e => e.id = id) = some e) (hd : e.durable = true) :
    Yields (.errorCounted .tile u 0 (.entry id)) s s.hush :=
  errorCounted_uncounted hon hu (by decide) (sramError_durableEntry he hd)

theorem mapEntry_added {pn : Nat} (hpn : s.mapTile pn = u) (h : Low s 4 u 4) :
    Completes (.errorCounted .tile u 4 (.mapEntry pn)) s fun t => Added s 4 u (s.hush.modPage pn fun p => p.uncached) t 4 s.flt.deferred :=
  errorCounted_added hon hu (by decide) (sramError_mapEntry hpn) rfl h

end

/-! ### A host port's decode arrays (R480) -/

/-- The retirement of a port without present heads posts its notice and event records and changes nothing of the vault, the near cache or
the coherence engines. -/
theorem retirePort_absent {s : State} {u : Nat} (h0 : s.present (2 * u) = false) (h1 : s.present (2 * u + 1) = false) :
    (s.retirePort u).vlt = s.vlt ∧ (s.retirePort u).near = s.near ∧ (s.retirePort u).coh = s.coh
      ∧ (s.retirePort u).flt.fifo = (s.flt.enter (Note.words ⟨2, 0x17, 7 * 256 + u, none⟩)).fifo := by
  unfold State.retirePort
  simp only [List.filter_cons, List.filter_nil, h0, h1, Bool.false_eq_true, if_false, List.foldl_nil]
  generalize hp : s.retireTaken 7 u = p
  obtain ⟨t, m, hs, o, hn⟩ := note_cases p ⟨2, 0x17, 7 * 256 + u, none⟩
  obtain ⟨hs2, o2, he⟩ := eventAll_cases (p.note ⟨2, 0x17, 7 * 256 + u, none⟩) ⟨.memoryModule, 0x17, u⟩
  rw [he, hn, ← hp]
  exact ⟨rfl, rfl, rfl, Drives.enter_fifo (f := (s.retireTaken 7 u).flt) (g := s.flt) rfl rfl _⟩

/-- An uncorrectable error in a port's decode arrays retires the port at once (R480). -/
theorem portError_yields {s : State} {u : Nat} (hon : s.on = true) (hu : u < 8) (hret : (s.bucket 7 u).retired = false) :
    Yields (.errorCounted .hostPort u 0 .plain) s (s.hush.retirePort u) := by
  have hnot : s.hush.unitRetired 7 u = false := hret
  refine yields_of hon (show exec _ s = execErrorCounted .hostPort u 0 .plain s from rfl) ?_
  unfold kindNo
  dsimp only
  rw [decide_eq_true (show u < kindUnits 7 from hu), when_true]
  show (if s.hush.unitRetired 7 u = true then s.hush else s.hush.retirePort u) = s.hush.retirePort u
  rw [hnot]
  rfl

end Sys2Proof.Proofs.SramErrors
end

