-- ==== Sys2Proof/Proofs/LaneRetirement.lean ====
section
/-! PROOF. A retirement that is not due does nothing (R476, R478); a selvedge lane that is retired leaves the link (R444, R480, R495). -/
namespace Sys2Proof.Proofs.LaneRetirement
open Sys2Proof Sys2Proof.Machine Sys2Proof.Laws Sys2Proof.Proofs.Buckets

/-- A retirement that no bucket asked for, that a power loss defers or that has been carried out has no effect. -/
theorem unitRetire_notDue {s : State} {kind : UnitKind} {u : Nat} (hon : s.on = true)
    (h : s.flt.deferred.contains (kindNo kind, u) = false ∨ s.vlt.hold = true ∨ s.vlt.stopped = true ∨ s.unitRetired (kindNo kind) u = true) :
    Yields (.unitRetire kind u) s s.hush := by
  refine yields_of hon (show exec _ s = execUnitRetire kind u s from rfl) ?_
  rcases h with hnot | hhold | hstopped | hret
  · exact retireIfDue_none (s := s.hush) hnot
  · exact retireIfDue_deferring (s := s.hush) (Or.inl hhold)
  · exact retireIfDue_deferring (s := s.hush) (Or.inr hstopped)
  · exact retireIfDue_retired (s := s.hush) hret

/-- Lane u has left the link of s, and its retirement waits no longer. -/
def LaneOut (s : State) (u : Nat) (t : State) : Prop := ∃ bs, t = { s with
  out := [], slv := { s.slv with laneRet := putBit s.slv.laneRet u true }, flt := { s.flt with buckets := bs, deferred := s.flt.deferred.filter fun e => e ≠ (8, u) } }

/-- Outside L0 there is no link to leave. -/
theorem slvLeaveL0_outside {s : State} (h : s.slv.l0 = false) : s.slvLeaveL0 = s := by
  unfold State.slvLeaveL0
  rw [h]
  rfl

/-- Outside L0 a lane is retired without a notice. -/
theorem retireSlvLane_outside {s : State} {u : Nat} (h : s.slv.l0 = false) : s.retireSlvLane u =
    { s.retireTaken 8 u with slv := { s.slv with laneRet := putBit s.slv.laneRet u true } } := by
  unfold State.retireSlvLane
  dsimp only
  split
  · exact slvLeaveL0_outside h
  · exact if_neg (ne_true_of_eq_false h)

theorem retireSlvLane_laneOut {s : State} {u : Nat} {d : List (Nat × Nat)} (h : s.slv.l0 = false)
    (hd : d.filter (fun e => e ≠ (8, u)) = s.flt.deferred.filter (fun e => e ≠ (8, u))) :
    LaneOut s u (({ s.hush with flt := { s.flt with deferred := d } } : State).retireSlvLane u) := by
  unfold LaneOut
  rw [← hd]
  exact ⟨_, retireSlvLane_outside (s := { s.hush with flt := { s.flt with deferred := d } }) h⟩

section
variable {s : State} {u : Nat} (hon : s.on = true) (hin : s.slv.laneRet.getLsbD u = false) (hl0 : s.slv.l0 = false)
include hon hin hl0

/-- A due retirement takes the lane out of the link. -/
theorem unitRetire_laneOut (hdue : s.flt.deferred.contains (8, u) = true) (hhold : s.vlt.hold = false) (hstopped : s.vlt.stopped = false) :
    Completes (.unitRetire .slvLane u) s (LaneOut s u) := by
  have hgo : s.hush.retireIfDue 8 u = s.hush.retireSlvLane u := by
    refine if_pos ?_
    show ((s.flt.deferred.contains (8, u) && ! (s.vlt.hold || s.vlt.stopped)) && ! s.slv.laneRet.getLsbD u) = true
    rw [hdue, hhold, hstopped, hin]
    rfl
  refine completes_of hon (show exec _ s = execUnitRetire .slvLane u s from rfl) ?_
  show LaneOut s u (s.hush.retireIfDue 8 u)
  rw [hgo]
  exact retireSlvLane_laneOut (d := s.flt.deferred) hl0 rfl

/-- The management side takes a lane out of the link at once (R495). -/
theorem fltInjectRetire_laneOut {src : Nat} (hu : u < 8) (hr : s.reaches src = true) (hm : s.isMgmt src = true) :
    Completes (.fltInjectRetire src .slvLane u) s (LaneOut s u) := by
  have hnot : s.hush.unitRetired 8 u = false := hin
  have hgo : ∃ d, d.filter (fun e => e ≠ (8, u)) = s.flt.deferred.filter (fun e => e ≠ (8, u))
      ∧ s.hush.inject 2 8 u = ({ s.hush with flt := { s.flt with deferred := d } } : State).retireSlvLane u := by
    refine ⟨if s.flt.deferred.contains (8, u) then s.flt.deferred else s.flt.deferred ++ [(8, u)], ?_, ?_⟩
    · split
      · rfl
      · rw [List.filter_append, List.filter_cons_of_neg (by simp), List.filter_nil, List.append_nil]
    · unfold State.inject
      rw [if_neg (Nat.not_le.mpr (show u < kindUnits 8 from hu)), hnot]
      rfl
  obtain ⟨d, hd, hgo⟩ := hgo
  refine completes_of hon (show exec _ s = execFltInjectRetire src .slvLane u s from rfl) ?_
  show LaneOut s u (s.hush.globalWrite src (regArgBar 0xE080) fun s => s.inject 2 8 u)
  rw [globalWrite_mgmt (s := s.hush) _ _ hr hm, hgo]
  exact retireSlvLane_laneOut hl0 hd

end

end Sys2Proof.Proofs.LaneRetirement
end

