-- ==== Sys2Proof/Proofs/TileRetirement.lean ====
section
/-! PROOF. Retirement of a tile (R175, R481): its entries go to its buddy, its slice and directory entries are lost, and its recovery runs
until nothing is left to move. -/
namespace Sys2Proof.Proofs.TileRetirement
open Sys2Proof Sys2Proof.Machine Sys2Proof.Laws

/-! ### The command's occasion -/

/-- A cause of TILE_RETIRE that holds (R175). -/
def CauseHolds (s : State) (n c : Nat) : Prop := (c = 0 ∧ s.retireDue 4 n = true) ∨ c = 1 ∨ c = 2 ∨ (c = 3 ∧ s.tooFewWays n = true)

section
variable {s : State} {n c : Nat} (hon : s.on = true)
include hon

theorem tileRetire_yields (hn : n < 16) (hin : s.tileRetired n = false) (hc : CauseHolds s n c) :
    Yields (.tileRetire n c) s (s.hush.retireTile n c) := by
  have hin' : s.hush.tileRetired n = false := hin
  refine yields_of hon (show exec _ s = execTileRetire n c s from rfl) ?_
  rw [hin', decide_eq_true hn]
  rcases hc with ⟨rfl, hdue⟩ | rfl | rfl | ⟨rfl, hfew⟩
  · exact if_pos hdue
  · rfl
  · rfl
  · exact if_pos hfew

/-- A tile that is retired or does not exist, or a cause that does not hold, retires no tile. -/
theorem tileRetire_noEffect (h : s.tileRetired n = true ∨ 16 ≤ n ∨ 4 ≤ c ∨ (c = 0 ∧ s.retireDue 4 n = false) ∨ (c = 3 ∧ s.tooFewWays n = false)) :
    Yields (.tileRetire n c) s s.hush := by
  refine yields_of hon (show exec _ s = execTileRetire n c s from rfl) (if_neg ?_)
  intro hgo
  simp only [Bool.and_eq_true, decide_eq_true_eq, Bool.not_eq_true'] at hgo
  obtain ⟨⟨hn, hin⟩, hcause⟩ := hgo
  rcases h with hret | hno | hc | ⟨rfl, hnot⟩ | ⟨rfl, hnot⟩
  · exact absurd hret (ne_true_of_eq_false hin)
  · omega
  · obtain ⟨m, rfl⟩ := Nat.exists_eq_add_of_le' hc
    exact absurd hcause Bool.false_ne_true
  · exact absurd hcause (ne_true_of_eq_false hnot)
  · exact absurd hcause (ne_true_of_eq_false hnot)

end

/-! ### The steps of R175 -/

/-- A tile is never its own buddy (R20). -/
theorem buddyTile_ne (s : State) {n : Nat} (hn : n < 16) : s.buddyTile n ≠ n := by
  unfold State.buddyTile
  dsimp only
  split
  · generalize hf : List.find? _ _ = f
    cases f with
    | none => rw [Option.getD_none]; omega
    | some u =>
      have hu := List.find?_some hf
      simp only [Bool.and_eq_true, decide_eq_true_eq] at hu
      obtain ⟨-, hu⟩ := hu
      rw [Option.getD_some]
      omega
  · omega

/-- Where an entry of the write buffer stands once tile n is retired (R175 step 1). -/
def movedEntry (s : State) (n : Nat) (e : WbEntry) : WbEntry :=
  if e.tile = n then { e with tile := s.buddyTile n, buddy := s.buddyTile (s.buddyTile n), confirmed := true }
  else if e.buddy = n then { e with buddy := s.buddyTile e.tile, confirmed := ! e.durable }
  else e

theorem movedEntry_tile (s : State) {n : Nat} (hn : n < 16) (e : WbEntry) : (movedEntry s n e).tile ≠ n := by
  unfold movedEntry
  split
  · exact buddyTile_ne s hn
  next h => split <;> exact h

theorem movedEntry_data (s : State) (n : Nat) (e : WbEntry) : (movedEntry s n e).data = e.data := by
  unfold movedEntry
  split
  · rfl
  · split <;> rfl

/-- A tile each of whose entries has a copy at its buddy or drains already loses none. -/
theorem moveEntries_kept {s : State} {n : Nat} (h : ∀ e ∈ s.near.wb, e.tile = n → e.durable = true ∨ e.draining = true) :
    s.moveEntries n = { s with near := { s.near with wb := s.near.wb.map (movedEntry s n) } } := by
  have hlost : (s.near.wb.filter fun e => e.tile = n && ! e.durable && ! e.draining) = [] := by
    rw [List.filter_eq_nil_iff]
    intro e he hl
    simp only [Bool.and_eq_true, decide_eq_true_eq, Bool.not_eq_true'] at hl
    obtain ⟨⟨htile, hdur⟩, hdrain⟩ := hl
    rcases h e he htile with hd | hd
    · exact absurd hd (ne_true_of_eq_false hdur)
    · exact absurd hd (ne_true_of_eq_false hdrain)
  have hall : (s.near.wb.filter fun e => ! ([] : List WbEntry).contains e) = s.near.wb := List.filter_true s.near.wb
  unfold State.moveEntries
  dsimp only
  rw [hlost, hall]
  rfl

/-- A tile without requests, hand-offs and BISnps has nothing to abandon. -/
theorem abandonTile_idle {s : State} {n : Nat} (htxns : s.coh.txns = []) (hhand : s.coh.handoff = []) (hwait : s.coh.sfWait = [])
    (hretry : s.coh.retry = []) (hwb : s.near.wbRetry = []) (hsnoops : s.coh.snoops = []) : s.abandonTile n = s := by
  have hcoh : { s.coh with txns := [], handoff := [], sfWait := [], retry := [], snoops := [], recHeld := s.coh.recHeld ++ [] ++ [] ++ [] } = s.coh := by
    rw [List.append_nil, List.append_nil, List.append_nil]
    generalize s.coh = c at *
    cases c
    subst htxns hhand hwait hretry hsnoops
    rfl
  have hnear : { s.near with wbRetry := [] } = s.near := by
    generalize s.near = m at *
    cases m
    subst hwb
    rfl
  unfold State.abandonTile
  dsimp only
  rw [htxns, hhand, hwait, hretry, hwb, hsnoops]
  exact congrArg₂ (fun c m => ({ s with coh := c, near := m } : State)) hcoh hnear

/-- A tile that owns no line for another home gives none back. -/
theorem reclaim_none {s : State} {n : Nat} (hlent : s.coh.lent = []) : s.reclaim n = s := by
  unfold State.reclaim State.lentTo
  rw [hlent]
  rfl

/-- With no line lent to another tile there is none to recall. -/
theorem recallLent_none {s : State} (hlent : s.coh.lent = []) : s.recallLent = s := by
  unfold State.recallLent
  rw [hlent]
  rfl

/-- With no WIDE entry that waits for a way there is none to place. -/
theorem placeWide_none {s : State} (hwait : s.coh.wideWait = []) : s.placeWide = s := by
  unfold State.placeWide
  rw [hwait]
  rfl

/-- Without rings none of the tile's engines stops. -/
theorem ringsOfTile_none {s : State} {n : Nat} (hrings : s.rng.rings = []) : s.ringsOfTile n = s := by
  unfold State.ringsOfTile
  rw [hrings]
  rfl

/-- An empty slice is lost with its tables and its snoop filter, and no line becomes poison. -/
theorem loseSlice_empty {s : State} {n : Nat} (hnc : s.near.nc = []) : ∃ tree side off lock sf ptr, s.loseSlice n [] = { s with
    near := { s.near with nc := [], tree := tree, side := side, off := off, lockCleaning := lock }
    coh := { s.coh with sf := sf, ptr := ptr } } := by
  unfold State.loseSlice State.sliceLines
  dsimp only
  rw [hnc]
  exact ⟨_, _, _, _, _, _, rfl⟩

/-! ### The tile -/

/-- A tile with nothing under way: no lines, requests, hand-offs, rings or seals, a retired channel, and entries whose bytes are safe. -/
structure TileIdle (s : State) (n : Nat) : Prop where
  nc : s.near.nc = []
  lent : s.coh.lent = []
  txns : s.coh.txns = []
  handoff : s.coh.handoff = []
  sfWait : s.coh.sfWait = []
  retry : s.coh.retry = []
  wbRetry : s.near.wbRetry = []
  snoops : s.coh.snoops = []
  rings : s.rng.rings = []
  seals : s.rng.seals = []
  chan : (s.chan n).retired = true
  safe : ∀ e ∈ s.near.wb, e.tile = n → e.durable = true ∨ e.draining = true

/-- The records once tile n is retired: it is marked, its recovery runs, its cached map entries and directory bits are lost. -/
def retiredRecords (s : State) (n : Nat) : State := { s.retireTaken 4 n with
  boot := { s.boot.keep 1 with retTiles := putBit s.boot.retTiles n true }
  coh := { s.coh with recovering := putBit s.coh.recovering n true }
  map := { s.map with
    pages := s.map.pages.mapVals {} fun pn p => if s.mapTile pn = n then p.uncached else p
    units := s.map.units.mapVals {} fun _ d => { d with dirIn := putBit d.dirIn n false } } }

/-- The tile's channel is retired with it, where it is not yet. -/
def withoutChannel (s : State) (n : Nat) : State := if (s.chan n).retired then s else s.retireChannel n

/-- The order of a retirement's steps, for a tile that abandons nothing (R175). -/
theorem retireTile_steps {s : State} {n : Nat} (c : Nat) (h : s.abandonTile n = s) (hhand : s.coh.handoff = []) :
    ∃ nt ev, s.retireTile n c =
      ((((withoutChannel (((((retiredRecords s n).moveEntries n).reclaim n).loseSlice n []).recallLent) n).ringsOfTile n).note nt).eventAll ev).checkSeals := by
  unfold State.retireTile
  rw [h, hhand]
  exact ⟨_, _, rfl⟩

/-- The steps after the entries have moved change the slice's tables, the snoop filter and what a notice changes. -/
theorem steps_afterMove {m : State} {n : Nat} (nt : Note) (ev : EventRec) (hnc : m.near.nc = []) (hlent : m.coh.lent = [])
    (hrings : m.rng.rings = []) (hseals : m.rng.seals = []) (hchan : (m.chan n).retired = true) :
    ∃ tree side off lock sf ptr ws tp p hs o,
      ((((withoutChannel ((m.reclaim n).loseSlice n []).recallLent n).ringsOfTile n).note nt).eventAll ev).checkSeals = { m with
        near := { m.near with nc := [], tree := tree, side := side, off := off, lockCleaning := lock }
        coh := { m.coh with sf := sf, ptr := ptr }
        flt := m.flt.enter ws, tap := tp, pmc := p, heads := hs, out := o } := by
  obtain ⟨tree, side, off, lock, sf, ptr, hl⟩ := loseSlice_empty (n := n) hnc
  rw [reclaim_none hlent, hl]
  generalize hy : { m with near := _, coh := _ } = y
  have hstays : (withoutChannel y.recallLent n).ringsOfTile n = y := by
    rw [recallLent_none (by rw [← hy]; exact hlent), withoutChannel, if_pos (by rw [← hy]; exact hchan)]
    exact ringsOfTile_none (by rw [← hy]; exact hrings)
  obtain ⟨tp, p, hs, o, hn⟩ := note_cases y nt
  obtain ⟨hs2, o2, he⟩ := eventAll_cases (y.note nt) ev
  rw [hstays, checkSeals_nil (by rw [he, hn, ← hy]; exact hseals), he, hn, ← hy]
  exact ⟨tree, side, off, lock, sf, ptr, nt.words, tp, p, hs2, o2, rfl⟩

/-- The tile's part in a state s has ended: its entries are at other tiles with the same bytes, and the requests it held wait. -/
def TileOut (s : State) (n : Nat) (t : State) : Prop :=
  t.boot = { s.boot.keep 1 with retTiles := putBit s.boot.retTiles n true } ∧ t.coh.recovering = putBit s.coh.recovering n true
  ∧ t.coh.recHeld = s.coh.recHeld ∧ t.dram = s.dram ∧ t.beam = s.beam ∧ t.regions = s.regions ∧ t.vlt = s.vlt
  ∧ t.map.units = s.map.units.mapVals {} (fun _ d => { d with dirIn := putBit d.dirIn n false })
  ∧ t.map.pages = s.map.pages.mapVals {} (fun pn p => if s.mapTile pn = n then p.uncached else p)
  ∧ (∀ e ∈ t.near.wb, e.tile ≠ n) ∧ t.near.wb.map (fun e => e.data) = s.near.wb.map (fun e => e.data)

/-- Retirement of an idle tile moves its entries, keeps their bytes and touches no frame, no unit of the beam and no region. -/
theorem retireTile_out {s : State} {n : Nat} (c : Nat) (hn : n < 16) (h : TileIdle s n) : TileOut s n (s.retireTile n c) := by
  obtain ⟨nt, ev, hsteps⟩ := retireTile_steps c
    (abandonTile_idle h.txns h.handoff h.sfWait h.retry h.wbRetry h.snoops) h.handoff
  have hmoved := moveEntries_kept (s := retiredRecords s n) h.safe
  obtain ⟨tree, side, off, lock, sf, ptr, ws, tp, p, hs, o, hafter⟩ := steps_afterMove (m := (retiredRecords s n).moveEntries n) (n := n) nt ev
    (by rw [hmoved]; exact h.nc) (by rw [hmoved]; exact h.lent) (by rw [hmoved]; exact h.rings) (by rw [hmoved]; exact h.seals)
    (by rw [hmoved]; exact h.chan)
  rw [hsteps, hafter, hmoved]
  refine ⟨rfl, rfl, rfl, rfl, rfl, rfl, rfl, rfl, rfl, fun e he => ?_, ?_⟩
  · obtain ⟨e0, -, rfl⟩ := List.mem_map.mp he
    exact movedEntry_tile _ hn e0
  · exact (List.map_map).trans (List.map_congr_left fun e _ => movedEntry_data _ n e)

/-! ### The end of a recovery (R175 steps 4 and 5) -/

/-- Nothing is left to move: every entry is at its line's owner, no WIDE entry waits and no recovery holds a lent line. -/
theorem recovered_of {s : State} (hwait : s.coh.wideWait = []) (hwb : (s.near.wb.all fun e => e.tile = s.ownerTile e.line) = true)
    (hlent : ∀ e ∈ s.coh.lent, s.recoveryHolds e.1 = false) : s.recovered = true := by
  have hany : (s.coh.lent.any fun e => e.2.isSome && s.recoveryHolds e.1) = false := by
    rw [List.any_eq_false]
    intro e he
    rw [hlent e he, Bool.and_false]
    exact Bool.false_ne_true
  unfold State.recovered
  rw [hwb, hwait, hany]
  rfl

section
variable {s : State} {n : Nat} (hon : s.on = true) (hrec : s.coh.recovering.getLsbD n = true)
include hon hrec

/-- The last recovery ends: the retired-home fallback starts, and with no request held none is taken. -/
theorem recoveryEnd_last (hdone : s.recovered = true) (hlast : putBit s.coh.recovering n false = 0) (hheld : s.coh.recHeld = []) :
    Yields (.tileRecoveryEnd n) s { s.hush with coh := { s.coh with recovering := 0, wide := true, recLines := [] } } := by
  have hdone' : s.hush.recovered = true := hdone
  refine yields_of hon (show exec _ s = execTileRecoveryEnd n s from rfl) ?_
  simp only [hush_coh, hrec, when_true, hdone', hlast, hheld, Bool.not_true, Bool.false_eq_true, if_false, if_true, List.foldl_nil]

/-- Another tile's recovery still runs: the held requests wait for it. -/
theorem recoveryEnd_next (hdone : s.recovered = true) (hmore : putBit s.coh.recovering n false ≠ 0) :
    Yields (.tileRecoveryEnd n) s { s.hush with coh := { s.coh with recovering := putBit s.coh.recovering n false, wide := true } } := by
  have hdone' : s.hush.recovered = true := hdone
  refine yields_of hon (show exec _ s = execTileRecoveryEnd n s from rfl) ?_
  simp only [hush_coh, hrec, when_true, hdone', hmore, Bool.not_true, Bool.false_eq_true, if_false]

/-- While an entry is away from its line's owner the recovery goes on; with no line to recall and none to place it only waits. -/
theorem recoveryEnd_waits (hwb : (s.near.wb.all fun e => e.tile = s.ownerTile e.line) = false) (hlent : s.coh.lent = [])
    (hwait : s.coh.wideWait = []) : Yields (.tileRecoveryEnd n) s s.hush := by
  have hnot : s.hush.recovered = false := by
    show (((s.near.wb.all fun e => e.tile = s.ownerTile e.line) && s.coh.wideWait.isEmpty) && _) = false
    rw [hwb]
    rfl
  refine yields_of hon (show exec _ s = execTileRecoveryEnd n s from rfl) ?_
  simp only [hush_coh, hrec, when_true, hnot, Bool.not_false, if_true]
  rw [recallLent_none (s := s.hush) hlent, placeWide_none (s := s.hush) hwait]

end

end Sys2Proof.Proofs.TileRetirement
end

