-- ==== Sys2Proof/Proofs/CountedErrors.lean ====
section
/-! PROOF. O55: counted errors, their effects, retirement and injection. -/
namespace Sys2Proof.Proofs.CountedErrors
open Sys2Proof Sys2Proof.Machine Sys2Proof.Laws Sys2Proof.Proofs.Buckets Sys2Proof.Proofs.SramErrors Sys2Proof.Proofs.LaneRetirement
open Sys2Proof.Proofs.TileRetirement

/-- Settles O55: an error has its effect at its place and then its weight in its bucket; a retirement that is due, or injected by the
management side, runs its steps, and none else does. -/
theorem errorsFillBucketsAndRetireUnits : Obligations.ErrorsFillBucketsAndRetireUnits := by
  unfold Obligations.ErrorsFillBucketsAndRetireUnits
  intro s kind u hon k b added laneOut low
  refine ⟨?leak, noUnit_yields hon, ?plain, ?ncWay, ?entry, ?mapEntry, ?port, unitRetire_notDue hon, ?lane, ?inject, ?denied, ?tile,
    fun n c => tileRetire_noEffect hon, ?recovery⟩
  case leak => exact fun hu hdue => bucketLeak_yields hon hu hdue
  case plain =>
    intro w hu hw
    refine ⟨fun h => errorCounted_added hon hu hw rfl rfl h, fun hover hnot hret hwait hwf => ?_⟩
    exact ⟨_, errorCounted_counts hon hu hw rfl, bump_added_over rfl rfl hover hnot hret hwait hwf⟩
  case ncWay =>
    rintro set x rfl hu hset hway
    exact ⟨fun slot hslot h => scratchData_added hon hu hset hslot h,
      fun n r hslot hv hd hr h => cleanData_added hon hu hset hway hv hslot hd hr h,
      fun hslot hv hd h => dirtyData_poisoned hon hu hset hway hv hslot hd h,
      fun hv hside => dirtyTag_rebuilt hon hu hset hway hv hside,
      fun hv hside hhome => cleanTag_invalidated hon hu hset hway hv hside hhome,
      tree_flips hon hu hset⟩
  case entry =>
    rintro id e rfl hu he hd
    exact durableEntry_yields hon hu he hd
  case mapEntry =>
    rintro pn rfl hu hpn h
    exact mapEntry_added hon hu hpn h
  case port =>
    rintro rfl hu hret h0 h1
    exact ⟨_, portError_yields hon hu hret, retirePort_absent (s := s.hush) h0 h1⟩
  case lane =>
    rintro rfl hu hin hl0
    exact ⟨fun hdue hhold hstopped => unitRetire_laneOut hon hin hl0 hdue hhold hstopped,
      fun src hr hm => fltInjectRetire_laneOut hon hin hl0 hu hr hm⟩
  case inject =>
    intro src hr hm
    exact ⟨fun hu h => injectCorrected_added hon hr hm hu h, injectRetire_noEffect hon hr hm⟩
  case denied => exact fun src hr hm c hc => inject_denied hon hr hm hc
  case tile =>
    intro n c hn hin h0 h3 hc hnc hlent htxns hhand hsf hretry hwb hsnoops hrings hseals hchan hsafe
    have hcause : CauseHolds s n c := by
      match c, hc with
      | 0, _ => exact .inl ⟨rfl, h0 rfl⟩
      | 1, _ => exact .inr (.inl rfl)
      | 2, _ => exact .inr (.inr (.inl rfl))
      | 3, _ => exact .inr (.inr (.inr ⟨rfl, h3 rfl⟩))
    have hidle : TileIdle s.hush n := ⟨hnc, hlent, htxns, hhand, hsf, hretry, hwb, hsnoops, hrings, hseals, hchan, hsafe⟩
    exact ⟨_, tileRetire_yields hon hn hin hcause, retireTile_out c hn hidle⟩
  case recovery =>
    intro n hrec hwait
    refine ⟨fun hwb hlent => ?_, fun hwb hlent => recoveryEnd_waits hon hrec hwb hlent hwait⟩
    have hdone := recovered_of hwait hwb hlent
    exact ⟨recoveryEnd_last hon hrec hdone, recoveryEnd_next hon hrec hdone⟩

end Sys2Proof.Proofs.CountedErrors
end

