-- ==== Sys2Proof/Proofs/SnoopAnswers.lean ====
section
/-! PROOF. Answers to a BISnp (R155, R156, R603): BIRsp, the BIRsp of an abandoned transaction, BIConflict, and obligation O9. -/
namespace Sys2Proof.Proofs.SnoopAnswers
open Sys2Proof Sys2Proof.Machine Sys2Proof.Laws Sys2Proof.Laws.Traffic

/-- The commands of a BIRsp of head h for a line, each with the answer that it carries (R155). -/
inductive Answers (h line : Nat) : Instr → Birsp → Prop
  | i : Answers h line (.birspI h line) .i
  | s : Answers h line (.birspS h line) .s
  | e : Answers h line (.birspE h line) .e

/-- The answer that counts where the BISnp was of kind k: BIRspE is BIRspI unless it answers BISnpCur (R155). -/
def counted (k : Snp) (b : Birsp) : Birsp := if b = .e && k ≠ .cur then .i else b

theorem counted_i (k : Snp) : counted k .i = .i := rfl
theorem counted_s (k : Snp) : counted k .s = .s := rfl
theorem counted_e (k : Snp) : counted k .e = if k = .cur then .e else .i := by
  cases k <;> rfl

section
variable {s : State} {h line : Nat} {sn : Snoop} {c : Instr} {b : Birsp} (hon : s.on = true)
include hon

/-- A BIRsp command handles its answer on the hushed state. -/
theorem answer_works (hc : Answers h line c b) {u : State} (hu : s.hush.birsp h line b = u) : Yields c s u := by
  cases hc with
  | i => exact yields_of hon (show exec _ s = execBirspI h line s from rfl) hu
  | s => exact yields_of hon (show exec _ s = execBirspS h line s from rfl) hu
  | e => exact yields_of hon (show exec _ s = execBirspE h line s from rfl) hu

section
variable (hf : (s.coh.snoops.find? fun x => x.head = h && x.line = line) = some sn) (hw : s.writebackWaits h line = false)
include hf hw

/-- A BIRsp after which the transaction still awaits another head is noted, and applied to the line's record (R155). -/
theorem answer_noted {t : Txn} {a : Birsp} (hc : Answers h line c b) (ha : counted sn.kind b = a) (hst : sn.stale = false)
    (ht : s.txn line = some t) (hne : putBit t.waits h false ≠ 0) :
    Yields c s (State.setTxn (State.answered { s.hush with coh := { s.coh with snoops := s.coh.snoops.erase sn } } h line a) line
      (some { t with waits := putBit t.waits h false, ansS := if a = .s then putBit t.ansS h true else t.ansS })) := by
  subst ha
  exact answer_works hon hc (birsp_takes (s := s.hush) b hf hst hw ht hne)

/-- A BIRsp to the BISnp of an abandoned transaction takes the BISnp off, and nothing else (R603). -/
theorem answer_stale (hc : Answers h line c b) (hst : sn.stale = true) :
    Yields c s { s.hush with coh := { s.coh with snoops := s.coh.snoops.erase sn } } :=
  answer_works hon hc (birsp_stale (s := s.hush) b hf hst hw)

end

variable (hsn : s.snooped h line = true)
include hsn

/-- BIConflict is acknowledged at once where the head awaits no completion (R155). -/
theorem biConflict_now (hdue : s.responseDue h line = false) (hrec : (s.head h).link.recovery = false) :
    Yields (.biConflict h line) s { s with out := [.biConflictAck h line] } := by
  have hsn' : s.hush.snooped h line = true := hsn
  have hdue' : s.hush.responseDue h line = false := hdue
  refine yields_of hon (show exec _ s = execBiConflict h line s from rfl) ?_
  rw [hsn', when_true, if_neg (by simp [hdue']), emitTo_now _ _ (by exact hrec)]
  rfl

/-- BIConflict is acknowledged later where a write of the head waits for its buddy (R155). -/
theorem biConflict_later (hdue : s.responseDue h line = true) :
    Yields (.biConflict h line) s { s.hush with coh := { s.coh with conflicts := s.coh.conflicts ++ [(h, line)] } } := by
  have hsn' : s.hush.snooped h line = true := hsn
  have hdue' : s.hush.responseDue h line = true := hdue
  refine yields_of hon (show exec _ s = execBiConflict h line s from rfl) ?_
  rw [hsn', when_true, if_pos hdue']
  rfl

end

/-- Settles O9: an answer that leaves another head awaited, an answer for an abandoned transaction (R603), and BIConflict. -/
theorem snoopAnswersAreTaken : Obligations.SnoopAnswersAreTaken := by
  unfold Obligations.SnoopAnswersAreTaken
  intro s h line sn t hon hf hw
  have hsn := snooped_of hf
  refine ⟨fun hst ht _ hne p hp => ?noted, fun hst c hc => ?stale, biConflict_now hon hsn, biConflict_later hon hsn⟩
  case noted =>
    simp only [List.mem_cons, List.not_mem_nil, or_false] at hp
    rcases hp with rfl | rfl | rfl
    · exact answer_noted hon hf hw .i (counted_i _) hst ht hne
    · exact answer_noted hon hf hw .s (counted_s _) hst ht hne
    · exact answer_noted hon hf hw .e (counted_e _) hst ht hne
  case stale =>
    simp only [List.mem_cons, List.not_mem_nil, or_false] at hc
    rcases hc with rfl | rfl | rfl
    · exact answer_stale hon hf hw .i hst
    · exact answer_stale hon hf hw .s hst
    · exact answer_stale hon hf hw .e hst

end Sys2Proof.Proofs.SnoopAnswers
end

