-- ==== Sys2Proof/Proofs/Atomics.lean ====
section
/-! PROOF. Atomics of the shuttle engines on a SCRATCH line (R170, R171, R424): the operands of an 8-byte atomic as words, the end of the
descriptor, and obligation O26. -/
namespace Sys2Proof.Proofs.Atomics
open Sys2Proof Sys2Proof.Machine Sys2Proof.Laws Sys2Proof.Laws.Pages Sys2Proof.Proofs.Mailbox

/-! ### Operands -/

/-- The old operand of an 8-byte atomic is a word of the line (R170). -/
theorem atomOld_word {op : AtomOp} (hop : op ≠ .cas16) {off : Nat} (ho : off < 64) (l : Line) :
    atomOld op off l = (l.extractLsb' (8 * off) 64).setWidth 128 := by
  unfold atomOld
  rw [if_neg hop, Nat.mod_eq_of_lt ho, low64, ext64]

/-- OPA of an 8-byte atomic is word 4 of the descriptor (R424). -/
theorem atomA_word {d : Line} (hsub : dSub d ≠ 4) : atomA d = (lineWord d 4).setWidth 128 := by
  unfold atomA lineWord
  rw [if_neg hsub, low64, ext64]

theorem atomB_word {d : Line} (hsub : dSub d ≠ 4) : atomB d = 0 := if_neg hsub

/-- An 8-byte atomic writes the eight bytes of its operand (R170). -/
theorem atomMask_word {op : AtomOp} (hop : op ≠ .cas16) {off : Nat} (ho : off < 64) : atomMask op off = BitVec.ofNat 64 (0xFF <<< off) := by
  unfold atomMask
  rw [if_neg hop, Nat.mod_eq_of_lt ho]

/-- The 8-byte atomics of ring pair r: each with its SUB and the new operand that it makes of the old one and OPA (R424). -/
inductive WordAtomic (r : Nat) : Instr → Nat → (Word → Word → Word) → Prop
  | fadd : WordAtomic r (.fadd r) 0 fun o a => o + a
  | fand : WordAtomic r (.fand r) 1 fun o a => o &&& a
  | bor : WordAtomic r (.atomicFor r) 2 fun o a => o ||| a
  | swap : WordAtomic r (.swap r) 3 fun _ a => a

section
variable {r sub : Nat} {c : Instr} {f : Word → Word → Word} (hc : WordAtomic r c sub f)
include hc

theorem WordAtomic.exec_eq (s : State) : exec c s = run (fun s => s.atomicSub r sub) s := by
  cases hc <;> rfl

/-- An 8-byte atomic is not CAS16. -/
theorem WordAtomic.narrow : sub ≠ 4 ∧ atomOpOf sub ≠ .cas16 := by
  cases hc <;> exact ⟨by decide, by decide⟩

/-- The new operand of an 8-byte atomic (R170). -/
theorem WordAtomic.atomNew_eq (o a : Word) : atomNew (atomOpOf sub) (o.setWidth 128) (a.setWidth 128) 0 = (f o a).setWidth 128 := by
  obtain ⟨hadd, hand, hor, hswap⟩ := new64 o a
  cases hc with
  | fadd => exact hadd
  | fand => exact hand
  | bor => exact hor
  | swap => exact hswap

end

/-- A word widened twice is the word widened once. -/
theorem setWidth_word (x : Word) : ((x.setWidth 128).setWidth 512 : Line) = x.setWidth 512 := by simp

/-! ### The descriptor -/

/-- Ending a descriptor that has not ended gives it its status and its results (R419). -/
theorem endDescriptor_act {s : State} {r status : Nat} {a : Active} {f : Active → Active} (h : (s.ring r).act = some a) (hst : a.status = none) :
    ((s.endDescriptor r status f).ring r).act = some (f { a with status := some status }) := by
  unfold State.endDescriptor
  rw [act_mod h, hst]
  rfl

/-- The parts of the state that an atomic on a pool line changes: the pool, its ring pair, and what its requests touch on their way. -/
def Moved (s u : State) : Prop := ∃ q pw pm sc au rn, u = { s with
  qos := q, pwr := pw, pmc := pm, near := { s.near with scr := sc, autoOff := au }, rng := rn }

/-- A command has changed no more than that, and sent nothing. -/
def PoolFrame (s u : State) : Prop := u = { s with
  out := [], qos := u.qos, pwr := u.pwr, pmc := u.pmc, near := { s.near with scr := u.near.scr, autoOff := u.near.autoOff }, rng := u.rng }

section
variable {s : State} {r n line off : Nat} {d : Line} {rg : Region} {cell : LineCell}

/-- Where the operand of an atomic lies: offset off of a line at rest in a SCRATCH window, whose line of the pool is cell, not poison. -/
structure Operand (s : State) (d : Line) (n line off : Nat) (rg : Region) (cell : LineCell) : Prop where
  rest : s.atRest line
  region : s.regionOf line = some (n, rg)
  window : rg.window = 2
  coh : rg.coh = 0
  addr : dW d 1 = line * 64 + off
  off : off < 64
  value : s.poolCell (rg.poolLine line) = cell
  clean : cell.poison = false

/-- The atomic's request is served at once: the operand has its new value (R170). -/
theorem atomicRun_served (hact : (s.ring r).act = some { words := d }) (h : Operand s d n line off rg cell) :
    ∃ t, Moved s t
      ∧ t.near.scr = (s.setPool (rg.poolLine line)
          (((atomNew (atomOpOf (dSub d)) (atomOld (atomOpOf (dSub d)) off cell.data) (atomA d) (atomB d)).setWidth 512 : Line) <<< (8 * off))
          (atomMask (atomOpOf (dSub d)) off) false).near.scr
      ∧ (t.ring r).act = some { words := d, started := true, reads := true }
      ∧ s.atomicRun r = (if dSub d = 4 && dW d 2 ≠ 0 then
            t.engineWrite r (dW d 2 / 64) (((atomOld (atomOpOf (dSub d)) off cell.data).setWidth 512 : Line) <<< (8 * (dW d 2 % 64)))
              (BitVec.ofNat 64 (0xFFFF <<< (dW d 2 % 64))) false
          else t).endDescriptor r 0x00 fun a => { a with
            result := (atomOld (atomOpOf (dSub d)) off cell.data).setWidth 64
            matched := dSub d = 4 && decide (atomOld (atomOpOf (dSub d)) off cell.data = atomA d) } := by
  obtain ⟨t, q, pm, pw, au, rn, ht, htact, hrun⟩ := atomic_go hact h.rest h.region h.window h.coh h.addr h.off h.value h.clean
  refine ⟨t, ?_, by rw [ht], htact, hrun⟩
  rw [setPool_near] at ht
  exact ⟨q, pw, pm, _, au, rn, ht⟩

/-- An atomic's descriptor whose turn has come runs. -/
theorem atomicSub_runs {sub : Nat} (hw : s.working r 0x40 { words := d }) (hsub : dSub d = sub) :
    s.hush.atomicSub r sub = s.hush.atomicRun r := by
  obtain ⟨hact, hop, hst, hheld, hturn⟩ := hw
  unfold State.atomicSub
  rw [runs_of (sub := some sub) hact hop hst hheld hturn (by simpa using hsub), when_true]

/-- The end of an atomic on a pool line changes no more than its requests did. -/
theorem endDescriptor_moved {t : State} (h : Moved s t) (status : Nat) (f : Active → Active) : Moved s (t.endDescriptor r status f) := by
  obtain ⟨q, pw, pm, sc, au, rn, rfl⟩ := h
  exact ⟨q, pw, pm, sc, au, _, rfl⟩

/-- The parts of the state that an atomic command on a pool line leaves. -/
theorem Moved.frame {u : State} (h : Moved s.hush u) : PoolFrame s u := by
  obtain ⟨q, pw, pm, sc, au, rn, rfl⟩ := h
  rfl

/-- An 8-byte atomic writes its new operand and answers the old one (R170, R424). -/
theorem wordAtomic_completes {sub : Nat} {c : Instr} {f : Word → Word → Word} {new : Word} (hc : WordAtomic r c sub f)
    (hnew : f (cell.data.extractLsb' (8 * off) 64) (lineWord d 4) = new) (hon : s.on = true)
    (hw : s.working r 0x40 { words := d }) (hsub : dSub d = sub) (h : Operand s.hush d n line off rg cell) :
    Completes c s fun u =>
      (u.ring r).act = some { words := d, started := true, reads := true, status := some 0, result := cell.data.extractLsb' (8 * off) 64 }
      ∧ u.near.scr = (s.setPool (rg.poolLine line) ((new.setWidth 512 : Line) <<< (8 * off)) (BitVec.ofNat 64 (0xFF <<< off)) false).near.scr
      ∧ PoolFrame s u := by
  obtain ⟨h4, hop⟩ := hc.narrow
  have hsub4 : dSub d ≠ 4 := hsub ▸ h4
  obtain ⟨t, hmoved, hscr, hact, hrun⟩ := atomicRun_served (s := s.hush) hw.1 h
  rw [hsub, atomOld_word hop h.off, atomA_word hsub4, atomB_word hsub4, hc.atomNew_eq, hnew, atomMask_word hop h.off, setWidth_word] at hscr
  simp only [hsub, h4, decide_false, Bool.false_and, Bool.false_eq_true, if_false, atomOld_word hop h.off] at hrun
  refine completes_of hon (hc.exec_eq s) ?_
  rw [atomicSub_runs hw hsub, hrun]
  refine ⟨?_, ?_, (endDescriptor_moved hmoved _ _).frame⟩
  · rw [endDescriptor_act hact rfl]
    simp
  · exact hscr.trans (congrArg Near.scr (hush_setPool_near s _ _ _ _))

/-- A line at rest in a SCRATCH window stays one while an atomic is served. -/
theorem Moved.write {t : State} (h : Moved s t) {l m : Nat} {rr : Region} (hrest : s.atRest l) (hreg : s.regionOf l = some (m, rr))
    (hwin : rr.window = 2) (hcoh : rr.coh = 0) (v : Line) (k : Mask) :
    Moved s (t.engineWrite r l v k false) ∧ (t.engineWrite r l v k false).near.scr = (t.setPool (rr.poolLine l) v k false).near.scr
      ∧ (t.engineWrite r l v k false).ring r = t.ring r := by
  obtain ⟨q, pw, pm, sc, au, rn, rfl⟩ := h
  obtain ⟨q', pm', pw', au', hwr⟩ := engine_write (r := r) (d := v) (m := k) (p := false) (s := { s with
      qos := q, pwr := pw, pmc := pm, near := { s.near with scr := sc, autoOff := au }, rng := rn }) hrest hreg hwin hcoh
  rw [hwr]
  refine ⟨?_, rfl, rfl⟩
  rw [setPool_near]
  exact ⟨q', pw', pm', _, au', rn, rfl⟩

/-- CAS16 puts SWP in the place of an operand that equals CMP, keeps any other, and writes the old operand to RES (R170, R424). -/
theorem cas16_completes {m res : Nat} {rr : Region} (hon : s.on = true) (hw : s.working r 0x40 { words := d }) (hsub : dSub d = 4)
    (h : Operand s.hush d n line off rg cell) (hres : dW d 2 = res)
    (hrr : res ≠ 0 → s.atRest (res / 64) ∧ s.regionOf (res / 64) = some (m, rr) ∧ rr.window = 2 ∧ rr.coh = 0) :
    Completes (.cas16 r) s fun u => ∃ t : State,
      t.near.scr = (s.setPool (rg.poolLine line)
          (((if cell.data.extractLsb' (8 * off) 128 = d.extractLsb' 256 128 then d.extractLsb' 384 128
            else cell.data.extractLsb' (8 * off) 128).setWidth 512 : Line) <<< (8 * off))
          (BitVec.ofNat 64 (0xFFFF <<< off)) false).near.scr ∧ t.boot = s.boot
      ∧ u.near.scr = (if res = 0 then t else t.setPool (rr.poolLine (res / 64))
          (((cell.data.extractLsb' (8 * off) 128).setWidth 512 : Line) <<< (8 * (res % 64))) (BitVec.ofNat 64 (0xFFFF <<< (res % 64))) false).near.scr
      ∧ (u.ring r).act = some { words := d, started := true, reads := true, status := some 0, result := cell.data.extractLsb' (8 * off) 64
                                matched := decide (cell.data.extractLsb' (8 * off) 128 = d.extractLsb' 256 128) }
      ∧ PoolFrame s u := by
  have hold : atomOld .cas16 off cell.data = cell.data.extractLsb' (8 * off) 128 := by
    unfold atomOld; rw [Nat.mod_eq_of_lt h.off]; rfl
  have hA : atomA d = d.extractLsb' 256 128 := if_pos hsub
  have hB : atomB d = d.extractLsb' 384 128 := if_pos hsub
  have hM : atomMask .cas16 off = BitVec.ofNat 64 (0xFFFF <<< off) := by
    unfold atomMask; rw [Nat.mod_eq_of_lt h.off]; rfl
  obtain ⟨t, hmoved, hscr, hact, hrun⟩ := atomicRun_served (s := s.hush) hw.1 h
  have hop : atomOpOf (dSub d) = .cas16 := by rw [hsub]; rfl
  rw [hop, hold, hA, hB, hM] at hscr
  rw [hop, hold, hA] at hrun
  simp only [hsub, hres, decide_true, Bool.true_and] at hrun
  refine completes_of (f := fun s => s.atomicSub r 4) hon rfl ?_
  rw [atomicSub_runs hw hsub, hrun]
  refine ⟨t, hscr.trans (congrArg Near.scr (hush_setPool_near s _ _ _ _)), ?_, ?_⟩
  · obtain ⟨q, pw, pm, sc, au, rn, rfl⟩ := hmoved
    rfl
  · by_cases h0 : res = 0
    · rw [if_neg (by simp [h0]), if_pos h0]
      refine ⟨rfl, ?_, (endDescriptor_moved hmoved _ _).frame⟩
      rw [endDescriptor_act hact rfl, ext64]
    · obtain ⟨hrest, hreg, hwin, hcoh⟩ := hrr h0
      obtain ⟨hmoved', hscr', hring⟩ := hmoved.write (r := r) hrest hreg hwin hcoh
        (((cell.data.extractLsb' (8 * off) 128).setWidth 512 : Line) <<< (8 * (res % 64))) (BitVec.ofNat 64 (0xFFFF <<< (res % 64)))
      rw [if_pos (by simpa using h0), if_neg h0]
      refine ⟨hscr', ?_, (endDescriptor_moved hmoved' _ _).frame⟩
      rw [endDescriptor_act (by rw [hring]; exact hact) rfl, ext64]

end

/-- Settles O26: the four 8-byte atomics by one lemma over their operations, then CAS16. -/
theorem atomicsChangeTheirOperand : Obligations.AtomicsChangeTheirOperand := by
  unfold Obligations.AtomicsChangeTheirOperand
  intro s r n line off m res a rg rr cell hon hrest hreg hwin hcoh haddr hoff hcell hclean hw
  have h : Operand s.hush a.words n line off rg cell := ⟨hrest, hreg, hwin, hcoh, haddr, hoff, hcell, hclean⟩
  refine ⟨fun c new hmem => ?_, fun hsub hres hrr => cas16_completes hon hw hsub h hres hrr⟩
  simp only [List.mem_cons, Prod.mk.injEq, List.not_mem_nil, or_false] at hmem
  rcases hmem with ⟨rfl, hsub, rfl⟩ | ⟨rfl, hsub, rfl⟩ | ⟨rfl, hsub, rfl⟩ | ⟨rfl, hsub, rfl⟩
  · exact wordAtomic_completes .fadd rfl hon hw hsub h
  · exact wordAtomic_completes .fand rfl hon hw hsub h
  · exact wordAtomic_completes .bor rfl hon hw hsub h
  · exact wordAtomic_completes .swap rfl hon hw hsub h

end Sys2Proof.Proofs.Atomics
end

