-- ==== Sys2Proof/Proofs/Probes.lean ====
section
/-! PROOF. The action of a tile on a probe (R160, R162): the rows of the table, and what showing each action leaves. -/
namespace Sys2Proof.Proofs.Probes
open Sys2Proof Sys2Proof.Machine Sys2Proof.Laws

/-- The state after a tile has shown an action on a probe: a forwarded probe is counted, and a settling tile records the identity of a
probe that it takes (R162). -/
def shown (s : State) (tile line : Nat) (id : Nat × Nat) : ProbeAct → State
  | .forward => { s.hush.count (evTile tile 5) 1 with out := [.probe tile .forward] }
  | .take => ({ s with out := [.probe tile .take] } : State).recordId tile line id
  | act => { s with out := [.probe tile act] }

/-- A tile that a probe reaches shows its action (R160, R162); with no probe held for a recovery it takes none of those (R175). -/
theorem probe_shown {s : State} {tile h tag line : Nat} (hon : s.on = true) (hheld : s.coh.recHeld = []) (h16 : tile < 16)
    (hreach : s.probeWide line = true ∨ tile = s.homeTile line) :
    Yields (.probe tile h tag line) s (shown s tile line (h, tag) (s.probeAct tile line (h, tag))) := by
  have hreach' : (decide (tile < 16) && (s.hush.probeWide line || decide (tile = s.hush.homeTile line))) = true := by
    rw [Bool.and_eq_true, Bool.or_eq_true]
    exact ⟨decide_eq_true h16, hreach.imp id decide_eq_true⟩
  refine yields_of hon (show exec _ s = execProbe tile h tag line s from rfl) ?_
  rw [hreach', when_true, show s.hush.probeAct tile line (h, tag) = s.probeAct tile line (h, tag) from rfl]
  cases s.probeAct tile line (h, tag) with
  | take =>
    have hfind : (s.hush.emit (.probe tile .take)).coh.recHeld = [] := hheld
    simp only [hfind, List.find?_nil]
    rfl
  | _ => rfl

/-! ### The table -/

section
variable {s : State} {tile line : Nat} {id : Nat × Nat}

/-- With no hand-off of the line its owner takes the probe, and any other tile drops it. -/
theorem probeAct_atRest (hx : s.coh.handoff.get none line = none) :
    s.probeAct tile line id = if tile = s.ownerTile line then .take else .drop := by
  simp [State.probeAct, hx]

variable {x : HandOff} (hx : s.coh.handoff.get none line = some x)
include hx

/-- A LEAVING tile takes the probe and holds it. -/
theorem probeAct_leaving (ht : tile = x.src) (hl : x.leaving = true) : s.probeAct tile line id = .takeHold := by
  simp [State.probeAct, hx, ht, hl]

/-- A GONE tile forwards the probe. -/
theorem probeAct_gone (ht : tile = x.src) (hl : x.leaving = false) (hg : x.gone = true) : s.probeAct tile line id = .forward := by
  simp [State.probeAct, hx, ht, hl, hg]

section
variable (hs : tile ≠ x.src)
include hs

/-- An ARRIVING tile keeps the probe as pending. -/
theorem probeAct_arriving (ht : tile = x.dst) (ha : x.arriving = true) : s.probeAct tile line id = .pending := by
  simp [State.probeAct, hx, hs, ← ht, ha]

/-- A SETTLING tile discards a probe that it has recorded. -/
theorem probeAct_recorded (ht : tile = x.dst) (ha : x.arriving = false) (hst : x.settling = true) (hid : x.ids.contains id = true) :
    s.probeAct tile line id = .discard := by
  simp only [State.probeAct, hx, hs, ← ht, ha, hst, hid, decide_false, decide_true, Bool.false_and, Bool.and_false, Bool.and_self,
    Bool.false_eq_true, if_false, if_true]

/-- A SETTLING tile that owns the line takes a probe that it has not recorded. -/
theorem probeAct_settling (ht : tile = x.dst) (ha : x.arriving = false) (hid : x.ids.contains id = false) (ho : tile = s.ownerTile line) :
    s.probeAct tile line id = .take := by
  simp only [State.probeAct, hx, hs, ← ht, ha, hid, ← ho, decide_false, decide_true, Bool.false_and, Bool.and_false, Bool.false_eq_true,
    if_false, if_true]

/-- A tile that has no part in the line's hand-off drops the probe. -/
theorem probeAct_apart (ht : tile ≠ x.dst) (ho : tile ≠ s.ownerTile line) : s.probeAct tile line id = .drop := by
  simp [State.probeAct, hx, hs, ht, ho]

end
end

/-! ### Recorded identities -/

section
variable {s : State} {tile line : Nat} {id : Nat × Nat}

theorem recordId_atRest (hx : s.handOff line = none) : s.recordId tile line id = s := by
  simp [State.recordId, hx]

theorem recordId_settling {x : HandOff} (hx : s.handOff line = some x) (hst : x.settling = true) (ht : tile = x.dst) :
    s.recordId tile line id = s.setHandOff line (some { x with ids := x.ids ++ [id] }) := by
  simp [State.recordId, hx, hst, ht]

end
end Sys2Proof.Proofs.Probes
end

