-- ==== Sys2Proof/Proofs/HandOffs.lean ====
section
/-! PROOF. The steps of a hand-off of ownership (R164, R165, R168), and obligation O16. -/
namespace Sys2Proof.Proofs.HandOffs
open Sys2Proof Sys2Proof.Machine Sys2Proof.Laws Sys2Proof.Laws.Traffic Sys2Proof.Proofs Sys2Proof.Proofs.Probes

/-! ### Records and messages -/

theorem handOff_setHandOff (s : State) (line : Nat) (x : HandOff) : (s.setHandOff line (some x)).handOff line = some x :=
  Tbl.get_set_self none _ _ (by simp) _

/-- A hand-off's message that goes with a new record of the line. -/
theorem handOff_sent (s : State) (line : Nat) (x : HandOff) (m : RingMsg) (a b : Nat) :
    ∃ p, (s.setHandOff line (some x)).ringMsg m line a b = { s with
      coh := { s.coh with handoff := s.coh.handoff.set none line (some x) }, pmc := p, out := s.out ++ [.ring m line b] } := by
  obtain ⟨p, hp⟩ := ringMsg_cases (s.setHandOff line (some x)) m line a b
  exact ⟨p, hp⟩

/-- The line of a hand-off that becomes valid at its target changes ways of the near cache. -/
theorem land_cases (s : State) (x : HandOff) (line w : Nat) :
    ∃ n d, s.land x line w = { s with near := { s.near with nc := n, side := d } } := by
  obtain ⟨n, d, hd⟩ := trimProt_cases x.dst (ncSet line) w 16 (s.setWay x.dst (ncSet line) w { x.carried with
    hit := false, evicting := false, prot := x.carried.prot && (s.ordinaryWays x.dst).contains w })
  exact ⟨n, d, hd⟩

/-! ### The offer -/

section
variable {s : State} {line : Nat} (hon : s.on = true)
include hon

/-- OFFER: the owner is LEAVING, and the offer goes to the target (R164, R165). -/
theorem offer_leaves {target : Nat} (hok : s.offerOk line target = true) :
    Completes (.offer line target) s fun u => (∃ y, u.handOff line = some y ∧ y.src = s.ownerTile line ∧ y.dst = target
        ∧ y.leaving = true ∧ y.gone = false ∧ y.arriving = false ∧ y.settling = false)
      ∧ u.out = [.ring .offer line target] ∧ u = { s with out := u.out, coh := u.coh, pmc := u.pmc } := by
  have hok' : s.hush.offerOk line target = true := hok
  refine ⟨_, yields_of hon (show exec _ s = execOffer line target s from rfl) rfl, ?_⟩
  rw [hok', when_true]
  obtain ⟨p, hp⟩ := handOff_sent (s.hush.count (evTile (s.ownerTile line) 6) 1) line
    ⟨s.ownerTile line, target, true, false, false, false, true, false, [], [], [], 0, 0, {}, {}, s.coh.pull.get {} line, 16⟩
    .offer (s.ownerTile line) target
  exact hp ▸ ⟨⟨_, handOff_setHandOff _ _ _, rfl, rfl, rfl, rfl, rfl, rfl⟩, rfl, rfl⟩

/-- EVICT_HAND_OFF: a tile that is not the line's home offers a clean line, without its data, to the home tile (R168). -/
theorem evictHandOff_leaves {w : Nat} (hway : s.findWay (s.ownerTile line) line = some w)
    (hev : (s.way (s.ownerTile line) (ncSet line) w).evicting = true) (hd : (s.way (s.ownerTile line) (ncSet line) w).d = false)
    (hhome : s.ownerTile line ≠ s.homeTile line) (hopen : s.lineOpen line = false) (hwb : (s.near.wb.any fun e => e.line = line) = false)
    (hroom : s.recordRoom (s.ownerTile line) = true) :
    Completes (.evictHandOff line) s fun u => (∃ y, u.handOff line = some y ∧ y.src = s.ownerTile line ∧ y.dst = s.homeTile line
        ∧ y.leaving = true ∧ y.evict = true) ∧ u.out = [.ring .offer line (s.homeTile line)]
      ∧ u = { s with out := u.out, coh := u.coh, pmc := u.pmc } := by
  have hopen' : s.hush.lineOpen line = false := hopen
  have hroom' : s.hush.recordRoom (s.ownerTile line) = true := hroom
  refine ⟨_, yields_of hon (show exec _ s = execEvictHandOff line s from rfl) rfl, ?_⟩
  simp only [hush_ownerTile, hush_homeTile, hush_findWay, hush_way, hush_near, hush_coh, hway, hev, hd, hopen', hwb, hroom', hhome, ne_eq,
    not_false_eq_true, decide_true, Bool.not_false, Bool.and_self, when_true]
  obtain ⟨p, hp⟩ := handOff_sent s.hush line
    ⟨s.ownerTile line, s.homeTile line, true, false, false, false, true, true, [], [], [], 0, 0, {}, {}, s.coh.pull.get {} line, 16⟩
    .offer (s.ownerTile line) (s.homeTile line)
  exact hp ▸ ⟨⟨_, handOff_setHandOff _ _ _, rfl, rfl, rfl, rfl⟩, rfl, rfl⟩

end

/-! ### The answer -/

/-- The line has hand-off record x, whose owner is LEAVING and whose target has not answered its offer. -/
structure Offered (s : State) (line : Nat) (x : HandOff) : Prop where
  record : s.handOff line = some x
  leaving : x.leaving = true
  offered : x.offered = true

section
variable {s : State} {line : Nat} {x : HandOff} (hon : s.on = true) (ho : Offered s line x)
include hon ho

/-- The target of an offer that has a record, a free snoop-filter way and an invalid way reserves both and accepts (R165). That the way is
the one that a fill would take is the model's choice (log entry 16). -/
theorem offerReceived_accepts {w sw : Nat} (hroom : s.recordRoom x.dst = true) (hev : x.evict = false)
    (hvictim : s.victim x.dst (ncSet line) (((s.regionOf line).map fun e => decide (e.2.wpol = 3)).getD false) = some w)
    (hway : (s.way x.dst (ncSet line) w).v = false) (hsf : s.freeSf x.dst (sfSet line) = some sw) :
    Yields (.offerReceived line) s ((s.hush.reserve x.dst line w).agree line sw x) := by
  have hx' : s.hush.handOff line = some x := ho.record
  have hsf' : s.hush.freeSf x.dst (sfSet line) = some sw := hsf
  have hvictim' : s.hush.victim x.dst (ncSet line) (((s.regionOf line).map fun e => decide (e.2.wpol = 3)).getD false) = some w := hvictim
  have hroom' : s.hush.recordRoom x.dst = true := hroom
  refine yields_of hon (show exec _ s = execOfferReceived line s from rfl) ?_
  simp only [hx', ho.leaving, ho.offered, hev, hsf', hush_regionOf, hvictim', hroom', hush_way, hway, Bool.and_self, Bool.not_true,
    Bool.false_and, Bool.false_eq_true, if_false]

/-- The target of an offer without a free snoop-filter way refuses (R165). -/
theorem offerReceived_refuses (hev : x.evict = false) (hsf : s.freeSf x.dst (sfSet line) = none) :
    Yields (.offerReceived line) s (s.hush.refuse line x) := by
  have hx' : s.hush.handOff line = some x := ho.record
  have hsf' : s.hush.freeSf x.dst (sfSet line) = none := hsf
  refine yields_of hon (show exec _ s = execOfferReceived line s from rfl) ?_
  simp only [hx', ho.leaving, ho.offered, hev, hsf', Bool.and_self, Bool.not_true, Bool.false_eq_true, if_false]

/-- The home tile of an evicted line that has an entry accepts with a free snoop-filter way for it (R168). -/
theorem offerReceived_evicted {sw : Nat} (hroom : s.recordRoom x.dst = true) (hev : x.evict = true) (hentry : s.findSf x.src line ≠ none)
    (hsf : s.freeSf x.dst (sfSet line) = some sw) :
    Yields (.offerReceived line) s (s.hush.agree line sw x) := by
  have hx' : s.hush.handOff line = some x := ho.record
  have hsf' : s.hush.freeSf x.dst (sfSet line) = some sw := hsf
  have hroom' : s.hush.recordRoom x.dst = true := hroom
  have hentry' : (s.hush.findSf x.src line).isNone = false := by
    rw [Option.isNone_eq_false_iff, Option.isSome_iff_ne_none]
    exact hentry
  refine yields_of hon (show exec _ s = execOfferReceived line s from rfl) ?_
  simp only [hx', ho.leaving, ho.offered, hev, hsf', hroom', hentry', Bool.and_self, Bool.not_true, Bool.false_eq_true, if_false, if_true]

end

/-! ### The change of owner -/

/-- Command ACCEPT has left u: the old owner of line, with record x, is GONE, and COMMIT is on its way to the target. -/
def Committed (s : State) (line : Nat) (x : HandOff) (u : State) : Prop :=
  (∃ y, u.handOff line = some y ∧ y.leaving = false ∧ y.gone = true ∧ y.commitAt = s.clock ∧ y.held = x.held ∧ y.pending = x.pending)
    ∧ (x.dst ≠ s.homeTile line → u.coh.lent.get none line = some x.dst)
    ∧ u.out = [.ring .commit line x.dst] ∧ u = { s with out := u.out, coh := u.coh, near := u.near, pmc := u.pmc }

/-- Command COMMIT has left u: the target of line is SETTLING. -/
def Settled (s : State) (line : Nat) (u : State) : Prop :=
  (∃ y, u.handOff line = some y ∧ y.arriving = false ∧ y.settling = true ∧ y.ids = [] ∧ y.settleAt = s.clock + 4000)
    ∧ u.out = [] ∧ u = { s with out := [], coh := u.coh, near := u.near }

section
variable {s t : State} {line : Nat} {x y : HandOff}

/-- Once the old owner has given up its copy and its entry, the record of a GONE owner, the lent entry and COMMIT are left to write. -/
theorem committed_of (ht : ∃ m f, t = { s.hush with near := m, coh := { s.coh with sf := f } }) (hl : y.leaving = false) (hg : y.gone = true)
    (hat : y.commitAt = s.clock) (hh : y.held = x.held) (hp : y.pending = x.pending) :
    Committed s line x (((if x.dst = s.hush.homeTile line then t else t.setLent line (some x.dst)).setHandOff line (some y)).ringMsg
      .commit line x.src x.dst) := by
  obtain ⟨m, f, rfl⟩ := ht
  have hsent := handOff_sent (m := .commit) (a := x.src) (b := x.dst) (line := line) (x := y)
  split
  · rename_i hhome
    obtain ⟨p, hp'⟩ := hsent _
    rw [hp']
    exact ⟨⟨y, handOff_setHandOff _ _ _, hl, hg, hat, hh, hp⟩, fun hne => absurd hhome hne, rfl, rfl⟩
  · obtain ⟨p, hp'⟩ := hsent _
    rw [hp']
    exact ⟨⟨y, handOff_setHandOff _ _ _, hl, hg, hat, hh, hp⟩, fun _ => Tbl.get_set_self none _ _ (by simp) _, rfl, rfl⟩

/-- Once the line's copy has moved, the target's ownership and snoop-filter entry, the pull entry and the record are left to write. -/
theorem settled_of (ht : ∃ m, t = { s.hush with near := m }) {o : Option Nat} {c : Bool} (ha : y.arriving = false) (hs : y.settling = true)
    (hi : y.ids = []) (hat : y.settleAt = s.clock + 4000) :
    let v := if c then t.ownedBy line o else (t.ownedBy line o).setSf x.dst (sfSet line) x.sfWay x.sf
    Settled s line (State.setHandOff { v with coh := { v.coh with pull := v.coh.pull.set {} line x.pull } } line (some y)) := by
  obtain ⟨m, rfl⟩ := ht
  cases c <;> exact ⟨⟨y, handOff_setHandOff _ _ _, ha, hs, hi, hat⟩, rfl, rfl⟩

end

section
variable {s : State} {line : Nat} {x : HandOff} (hon : s.on = true) (hx : s.handOff line = some x)
include hon hx

/-- ACCEPT: the old owner gives its copy and its entry up, is GONE, and sends COMMIT; a line that is not at home is lent (R165). -/
theorem accept_commits (hl : x.leaving = true) (hof : x.offered = false) (ha : x.arriving = true) :
    Completes (.accept line) s (Committed s line x) := by
  have hx' : s.hush.handOff line = some x := hx
  refine ⟨_, yields_of hon (show exec _ s = execAccept line s from rfl) rfl, ?_⟩
  simp only [hx', hl, hof, ha, Bool.not_false, Bool.and_self, Bool.not_true, Bool.false_eq_true, if_false]
  cases s.hush.findSf x.src line <;> cases x.evict <;> exact committed_of ⟨_, _, rfl⟩ rfl rfl rfl rfl rfl

/-- REFUSE: the old owner stays the owner and serves the probe that it held (R165). -/
theorem refuse_serves {q : Req} (hl : x.leaving = true) (hof : x.offered = false) (ha : x.arriving = false) (hh : x.held = [q]) :
    Yields (.refuse line) s (State.take { s.hush.setHandOff line none with
      coh := { (s.hush.setHandOff line none).coh with refusedAt := (s.hush.setHandOff line none).coh.refusedAt.set 0 line s.clock } } q) := by
  have hx' : s.hush.handOff line = some x := hx
  refine yields_of hon (show exec _ s = execRefuse line s from rfl) ?_
  simp only [hx', hl, hof, ha, hh, Bool.not_false, Bool.and_self, Bool.not_true, Bool.false_eq_true, if_false]
  rfl

/-- COMMIT with no request to run: the target owns the line and is SETTLING for 4,000 FCLK (R165). -/
theorem commit_settles (hg : x.gone = true) (ha : x.arriving = true) (hh : x.held = []) (hp : x.pending = []) :
    Completes (.commit line) s (Settled s line) := by
  have hx' : s.hush.handOff line = some x := hx
  refine ⟨_, yields_of hon (show exec _ s = execCommit line s from rfl) rfl, ?_⟩
  simp only [hx', hg, ha, hh, hp, Bool.and_self, Bool.not_true, Bool.false_eq_true, if_false, List.map_nil, List.filter_nil, List.append_nil]
  cases x.evict with
  | true =>
    simp only [if_true]
    cases s.hush.findWay x.src line with
    | none => exact settled_of ⟨_, rfl⟩ rfl rfl rfl rfl
    | some w => exact settled_of ⟨_, rfl⟩ rfl rfl rfl rfl
  | false =>
    simp only [Bool.false_eq_true, if_false]
    cases s.hush.findWay x.dst line with
    | none => exact settled_of ⟨_, rfl⟩ rfl rfl rfl rfl
    | some w =>
      obtain ⟨n, d, hd⟩ := land_cases s.hush x line w
      exact settled_of ⟨_, hd⟩ rfl rfl rfl rfl

/-- GONE_TIMEOUT: 3,000 FCLK after COMMIT was sent the old owner forgets the line (R165). -/
theorem goneTimeout_forgets (hg : x.gone = true) (ha : x.arriving = false) (hdue : x.commitAt + 3000 ≤ s.clock) :
    Yields (.goneTimeout x.src line) s (s.hush.setHandOff line (if x.settling then some { x with gone := false } else none)) := by
  have hx' : s.hush.handOff line = some x := hx
  refine yields_of hon (show exec _ s = execGoneTimeout x.src line s from rfl) ?_
  simp only [hx', hg, ha, decide_true, Bool.not_false, Bool.and_self, when_true]
  rw [elapse_done (by exact hdue)]

/-- SETTLING_TIMEOUT: 4,000 FCLK after COMMIT arrived the target discards the recorded identities (R165). -/
theorem settlingTimeout_discards (hst : x.settling = true) (hdue : x.settleAt ≤ s.clock) :
    Yields (.settlingTimeout x.dst line) s (s.hush.setHandOff line (if x.gone then some { x with settling := false, ids := [] } else none)) := by
  have hx' : s.hush.handOff line = some x := hx
  refine yields_of hon (show exec _ s = execSettlingTimeout x.dst line s from rfl) ?_
  simp only [hx', hst, decide_true, Bool.and_self, when_true]
  rw [elapse_done (by exact hdue)]

end

/-! ### The obligation -/

/-- Settles O16: the rows of the probe table, then the steps of a hand-off. That the target of an offer reserves the way which its own fill
would take is the model's choice (log entry 16). -/
theorem probesAndHandOffsFollowTheirTables : Obligations.ProbesAndHandOffsFollowTheirTables := by
  unfold Obligations.ProbesAndHandOffsFollowTheirTables
  refine ⟨fun s tile h tag line x hon hheld h16 hreach => ?probes, fun s line target w sw k x q hon => ?handOffs⟩
  case probes =>
    have hshown : ∀ act, s.probeAct tile line (h, tag) = act → Yields (.probe tile h tag line) s (shown s tile line (h, tag) act) :=
      fun _ hact => hact ▸ probe_shown hon hheld h16 hreach
    refine ⟨fun hnone => ?atRest, fun hx => ⟨fun ht hl => hshown _ (probeAct_leaving hx ht hl),
      fun ht hl hg => hshown _ (probeAct_gone hx ht hl hg), fun ht hs ha => hshown _ (probeAct_arriving hx hs ht ha),
      fun ht hs ha hst hid => hshown _ (probeAct_recorded hx hs ht ha hst hid), fun ht hs ha hst hid ho => ?settling,
      fun ht hs ho => hshown _ (probeAct_apart hx hs ht ho)⟩⟩
    case atRest =>
      have hact := hshown _ (probeAct_atRest hnone)
      by_cases ho : tile = s.ownerTile line
      · rw [if_pos ho] at hact ⊢
        rw [shown, recordId_atRest (by exact hnone)] at hact
        exact hact
      · rw [if_neg ho] at hact ⊢
        exact hact
    case settling =>
      have hact := hshown _ (probeAct_settling hx hs ht ha hid ho)
      rw [shown, recordId_settling (by exact hx) hst ht] at hact
      exact hact
  case handOffs =>
    refine ⟨offer_leaves hon, evictHandOff_leaves hon, fun hx hl hof hev hroom hvictim hway => ?offered,
      fun hx hl hof hev hroom hentry hsf => offerReceived_evicted hon ⟨hx, hl, hof⟩ hroom hev hentry hsf,
      fun hx hl hof ha => accept_commits hon hx hl hof ha, fun hx hl hof ha hh => ⟨_, rfl, refuse_serves hon hx hl hof ha hh⟩,
      fun hx hg ha hh hp => commit_settles hon hx hg ha hh hp,
      fun hx hg ha hclock => goneTimeout_forgets hon hx hg ha (by omega),
      fun hx hst hclock => settlingTimeout_discards hon hx hst (by omega)⟩
    case offered =>
      exact ⟨fun hsf => offerReceived_accepts hon ⟨hx, hl, hof⟩ hroom hev hvictim hway hsf,
        fun hsf => offerReceived_refuses hon ⟨hx, hl, hof⟩ hev hsf⟩

end Sys2Proof.Proofs.HandOffs
end

