-- ==== Sys2Proof/Proofs/Training.lean ====
section
/-! PROOF. The training of a channel in a cold restore (R180, R181, R215 to R217). -/
namespace Sys2Proof.Proofs.Training
open Sys2Proof Sys2Proof.Machine Sys2Proof.Laws Sys2Proof.Proofs

/-- In a cold restore the channel, which is neither in service nor retired, reports its SPD p: D0 as the first, any other channel like
D0's (R180, R181). -/
structure Reports (s : State) (ch : Nat) (p : TrainReport) : Prop where
  channel : ch < 16
  restore : s.vlt.st = .restore
  active : s.vlt.active = false
  idle : (s.chan ch).inService = false
  kept : (s.chan ch).retired = false
  like : ch ≠ 0 → s.dram.spd0Read = true ∧ ∀ d, s.dram.spd0 = some d → spdOf p = d

/-- The state in which the report of a channel counts: D0's is kept, and the others are compared with it (R180). -/
def reported (s : State) (ch : Nat) (p : TrainReport) : State :=
  if ch ≠ 0 then s else { s with dram := { s.dram with spd0 := if p.spdValid then some (spdOf p) else none, spd0Read := true } }

theorem reported_cases (s : State) (ch : Nat) (p : TrainReport) :
    ∃ d b, reported s ch p = { s with dram := { s.dram with spd0 := d, spd0Read := b } } := by
  unfold reported
  split <;> exact ⟨_, _, rfl⟩

/-- The report differs from the one with which it is compared (R180). -/
def differs (s : State) (p : TrainReport) : Bool :=
  match s.dram.spd0 with
  | some d => decide (spdOf p ≠ d)
  | none => false

section
variable {s : State} {ch : Nat} {p : TrainReport} (h : Reports s ch p)
include h

/-- The occasion of CHANNEL_TRAIN (R180, R181). -/
theorem Reports.occasion : (decide (ch < 16) && decide (s.hush.vlt.st = .restore) && ! s.hush.vlt.active && ! (s.hush.chan ch).inService
    && (! (s.hush.chan ch).retired || decide (ch = 0) && ! s.hush.dram.spd0Read) && (decide (ch = 0) || s.hush.dram.spd0Read)) = true := by
  have hfirst : (decide (ch = 0) || s.dram.spd0Read) = true := by
    rw [Bool.or_eq_true, decide_eq_true_eq]
    exact or_iff_not_imp_left.mpr fun h0 => (h.like h0).1
  simp only [hush_vlt, hush_chan, hush_dram, h.channel, h.restore, h.active, h.idle, h.kept, hfirst, decide_true, Bool.not_false, Bool.true_or,
    Bool.and_self]

/-- A readable report does not differ from D0's: it is D0's, or like it. -/
theorem Reports.alike (hv : p.spdValid = true) : differs (reported s.hush ch p) p = false := by
  unfold differs reported
  by_cases h0 : ch = 0
  · rw [if_neg (not_not.mpr h0), hv]
    simp
  · rw [if_pos h0, hush_dram]
    cases hd : s.dram.spd0 with
    | none => rfl
    | some d => simp [(h.like h0).2 d hd]

/-- What becomes of the channel (R180, R217). -/
theorem Reports.outcome (hon : s.on = true) {u : State}
    (hu : (if ! p.spdValid || ! trainSupported p || differs (reported s.hush ch p) p then
        ((reported s.hush ch p).dropChannel ch).note ⟨2, 0x18, ch, none⟩
      else if 130 < p.rfcNs then (reported s.hush ch p).dropChannel ch
      else (reported s.hush ch p).trainChannel ch p) = u) : Yields (.channelTrain ch p) s u := by
  refine yields_of hon (show exec _ s = execChannelTrain ch p s from rfl) ?_
  have hocc := h.occasion
  rw [← hu]
  dsimp only at hocc ⊢
  rw [hocc, when_true, hush_chan, h.kept, if_neg Bool.false_ne_true]
  rfl

variable (hon : s.on = true)
include hon

/-- A channel with an unreadable SPD is left out with a DRM_POPULATION notice (R180). -/
theorem channelTrain_leavesOut (hv : p.spdValid = false) :
    Yields (.channelTrain ch p) s (((reported s.hush ch p).dropChannel ch).note ⟨2, 0x18, ch, none⟩) :=
  h.outcome hon (if_pos (by simp [hv]))

/-- A channel whose SPD the device can use is trained (R180, R216). -/
theorem channelTrain_trains (hv : p.spdValid = true) (hsup : trainSupported p = true) (hrfc : p.rfcNs ≤ 130) :
    Yields (.channelTrain ch p) s ((reported s.hush ch p).trainChannel ch p) := by
  refine h.outcome hon ?_
  rw [hv, hsup, h.alike hv, if_neg (by decide), if_neg (Nat.not_lt.mpr hrfc)]

end

/-! ### The channel's record -/

/-- The channel with what its report states and, after fast training, the timing and baseline of its stored record (R215, R216). -/
def measured (ret : BitVec 4) (fast : Option TrainRecord) (p : TrainReport) (c : Channel) : Channel := { c with
  ranks := BitVec.ofNat 4 (2 ^ (p.ranksPerDimm * rowDimms p.row) - 1), ranksRet := ret, row := p.row, dimmGib := p.dimmGib
  rankFrames := p.dimmGib * 262144 / p.ranksPerDimm, trainedFast := fast.isSome
  baseline := (fast.map fun r => r.baseline).getD p.counts, delays := (fast.map fun r => r.timing).getD p.timing }

/-- The channel as its training leaves it: in service. -/
def trained (ret : BitVec 4) (fast : Option TrainRecord) (p : TrainReport) (c : Channel) : Channel :=
  { measured ret fast p c with inService := true }

/-- Full training writes its record in two copies, and fast training writes none (R215). -/
def recorded (s : State) (ch : Nat) (p : TrainReport) (fast : Option TrainRecord) : State :=
  if fast.isSome then s else { s with boot := { s.boot with
    train := (s.boot.train.set none (2 * ch) (some (newRecord ch p))).set none (2 * ch + 1) (some (newRecord ch p)) } }

section
variable {s : State} {ch : Nat} {p : TrainReport} {fast : Option TrainRecord}

/-- Both copies of a new record are there. -/
theorem recorded_full (s : State) (ch : Nat) (p : TrainReport) : (recorded s ch p none).boot.train.get none (2 * ch) = some (newRecord ch p)
    ∧ (recorded s ch p none).boot.train.get none (2 * ch + 1) = some (newRecord ch p) :=
  ⟨(Tbl.get_put none _ (by simp) (by omega) _).trans (Tbl.get_set_self none _ _ (by simp) _), Tbl.get_set_self none _ _ (by simp) _⟩

theorem recorded_cases (s : State) (ch : Nat) (p : TrainReport) (fast : Option TrainRecord) :
    ∃ b, recorded s ch p fast = { s with boot := b } := by
  unfold recorded
  split <;> exact ⟨_, rfl⟩

section
variable (hok : fast.isSome = true ∨ p.fullOk = true)
  (hranks : BitVec.ofNat 4 (2 ^ (p.ranksPerDimm * rowDimms p.row) - 1) &&& ~~~ s.boot.retRanks.extractLsb' (4 * ch) 4 ≠ 0)
include hok hranks

/-- A channel whose training passes, and of which some rank is not retired, is measured, recorded and put into service (R216, R217). -/
theorem trainChannel_eq (hfast : fast = (s.trainRecord ch p.crcOk).filter fun r => s.fastTrains p r) :
    s.trainChannel ch p = (recorded (s.modChan ch (measured (s.boot.retRanks.extractLsb' (4 * ch) 4) fast p)) ch p fast).modChan ch
      fun c => { c with inService := true } := by
  have hgo : (fast.isNone && ! p.fullOk) = false := by
    rcases hok with hsome | hfull
    · obtain ⟨r, rfl⟩ := Option.isSome_iff_exists.mp hsome
      rfl
    · rw [hfull, Bool.not_true, Bool.and_false]
  unfold State.trainChannel
  dsimp only
  rw [← hfast, hgo, if_neg Bool.false_ne_true, if_neg hranks]
  rfl

/-- A channel that enters service has the record of its training; fast training leaves the boot flash. -/
theorem trainChannel_serves (hfast : fast = (s.trainRecord ch p.crcOk).filter fun r => s.fastTrains p r) :
    ∃ b d, s.trainChannel ch p = { s with boot := b, dram := d }
      ∧ Tbl.get {} d.ch ch = trained (s.boot.retRanks.extractLsb' (4 * ch) 4) fast p (s.chan ch)
      ∧ (fast = none → b.train.get none (2 * ch) = some (newRecord ch p) ∧ b.train.get none (2 * ch + 1) = some (newRecord ch p))
      ∧ (fast ≠ none → b = s.boot) := by
  obtain ⟨f, hf⟩ : ∃ f, f = measured (s.boot.retRanks.extractLsb' (4 * ch) 4) fast p := ⟨_, rfl⟩
  have hmeasured : (s.modChan ch f).chan ch = f (s.chan ch) := by
    refine chan_mod fun he => hranks ?_
    have hzero : BitVec.ofNat 4 (2 ^ (p.ranksPerDimm * rowDimms p.row) - 1) = 0 := by
      rw [hf] at he
      exact congrArg Channel.ranks he
    rw [hzero]
    exact BitVec.zero_and
  have hchan : ∀ b, (({ s.modChan ch f with boot := b } : State).modChan ch fun c => { c with inService := true }).chan ch
      = { f (s.chan ch) with inService := true } := by
    intro b
    rw [chan_mod fun he => by cases congrArg Channel.inService he]
    exact congrArg (fun c : Channel => { c with inService := true }) hmeasured
  rw [trainChannel_eq hok hranks hfast, ← hf]
  obtain ⟨b, hb⟩ := recorded_cases (s.modChan ch f) ch p fast
  have hboot : (recorded (s.modChan ch f) ch p fast).boot = b := by rw [hb]
  rw [hb]
  refine ⟨b, _, rfl, (hchan b).trans (by rw [hf]; rfl), fun hnone => ?_, fun hsome => ?_⟩
  · subst hnone
    rw [← hboot]
    exact recorded_full _ ch p
  · rw [← hboot, recorded, if_pos (Option.isSome_iff_ne_none.mpr hsome)]
    rfl

end
end

/-- A channel that is left out is retired and recorded in the boot flash (R180). -/
theorem dropChannel_cases (s : State) (ch : Nat) :
    ∃ d, s.dropChannel ch = { s with dram := d, boot := { s.boot.keep 1 with retCh := putBit s.boot.retCh ch true } }
      ∧ Tbl.get {} d.ch ch = { s.chan ch with retired := true, inService := false } := by
  refine ⟨_, rfl, ?_⟩
  exact chan_mod (f := fun c => { c with retired := true, inService := false }) fun he => by cases congrArg Channel.retired he

end Sys2Proof.Proofs.Training
end

