-- ==== Sys2Proof/Proofs/MemoryUnits.lean ====
section
/-! PROOF. Ranks, channels and snoop-filter ways that leave service with nothing to move (R177, R210, R211, R213), and obligation O19. -/
namespace Sys2Proof.Proofs.MemoryUnits
open Sys2Proof Sys2Proof.Machine Sys2Proof.Laws Sys2Proof.Proofs Sys2Proof.Proofs.Training

/-- A notice with its event records changes the FIFO, the tapestry, the counters and what the heads are told. -/
theorem noteAll_cases (s : State) (n : Note) (e : EventRec) :
    ∃ t p hs o, (s.note n).eventAll e = { s with flt := s.flt.enter n.words, tap := t, pmc := p, heads := hs, out := o } := by
  obtain ⟨t, p, hs, o, hn⟩ := note_cases s n
  obtain ⟨hs', o', he⟩ := eventAll_cases (s.note n) e
  rw [he, hn]
  exact ⟨t, p, hs', o', rfl⟩

/-- Where no read under way is of a frame that goes, none is abandoned. -/
theorem abandonReads_none {s : State} {gone : Nat → Bool} (h : ∀ e ∈ s.dram.ch, ∀ x ∈ e.2.readQ, gone x.frame = false) :
    s.abandonReads gone = ([], s) := by
  have hmine : (s.dram.ch.flatMap fun e => e.2.readQ.filter fun x => gone x.frame) = [] := by
    refine List.flatMap_eq_nil_iff.mpr fun e he => List.filter_eq_nil_iff.mpr fun x hx => ?_
    rw [h e he x hx]
    exact Bool.false_ne_true
  unfold State.abandonReads
  rw [hmine]
  rfl

/-! ### A rank -/

/-- The state in which a rank is retired, and recorded so in the boot flash (R210). -/
def rankOut (s : State) (ch rank : Nat) : State :=
  { (s.retireTaken 0 (4 * ch + rank)).modChan ch fun c => { c with ranksRet := putBit c.ranksRet rank true } with
    boot := { s.boot.keep 1 with retRanks := putBit s.boot.retRanks (4 * ch + rank) true } }

/-- A rank that holds no allocated frame leaves service at once (R210). -/
theorem retireRank_empty {s : State} {ch rank : Nat} (bad : List (Nat × Nat × Bool)) (hused : s.rankUsed ch rank = []) :
    s.retireRank ch rank bad
      = ((rankOut s ch rank).note ⟨2, 0x10, 4 * ch + rank, none⟩).eventAll ⟨.memoryModule, 0x10, 4 * ch + rank⟩ := by
  unfold State.retireRank
  simp only [hused, List.contains_nil, List.filter_false, List.foldl_nil]
  rw [abandonReads_none fun _ _ _ _ => rfl]
  rfl

/-- RANK_RETIRE of a rank without allocated frames (R210). -/
theorem rankRetire_empty {s : State} {ch rank : Nat} (bad : List (Nat × Nat × Bool)) (hon : s.on = true)
    (hdue : s.retireDue 0 (4 * ch + rank) = true) (h4 : rank < 4) (hused : s.rankUsed ch rank = []) :
    Completes (.rankRetire ch rank bad) s fun u =>
      u.boot = { s.boot.keep 1 with retRanks := putBit s.boot.retRanks (4 * ch + rank) true }
      ∧ u.dram = (s.modChan ch fun c => { c with ranksRet := putBit c.ranksRet rank true }).dram
      ∧ u.flt.fifo = ((s.retireTaken 0 (4 * ch + rank)).flt.enter (Note.words ⟨2, 0x10, 4 * ch + rank, none⟩)).fifo
      ∧ u = { s with out := u.out, heads := u.heads, boot := u.boot, dram := u.dram, flt := u.flt, pmc := u.pmc, tap := u.tap } := by
  have hdue' : s.hush.retireDue 0 (4 * ch + rank) = true := hdue
  refine ⟨_, yields_of hon (show exec _ s = execRankRetire ch rank bad s from rfl) rfl, ?_⟩
  rw [hdue', decide_eq_true h4, Bool.and_self, when_true, retireRank_empty (s := s.hush) bad hused]
  obtain ⟨t, p, hs, o, hn⟩ := noteAll_cases (rankOut s.hush ch rank) ⟨2, 0x10, 4 * ch + rank, none⟩ ⟨.memoryModule, 0x10, 4 * ch + rank⟩
  rw [hn]
  exact ⟨rfl, rfl, rfl, rfl⟩

/-! ### A channel -/

/-- A fold whose step keeps every state for the members of its list keeps the state. -/
theorem foldl_keeps {α β : Type} {f : β → α → β} {l : List α} (hf : ∀ b, ∀ a ∈ l, f b a = b) (b : β) : l.foldl f b = b :=
  (List.foldl_ext f (fun b _ => b) b hf).trans (List.foldl_fixed l)

/-- Channel ch holds no copy of a page, no saved page, no block of a window that is kept, and nothing under way (R211). -/
structure Bare (s : State) (ch : Nat) : Prop where
  reads : ∀ e ∈ s.dram.ch, ∀ x ∈ e.2.readQ, frameChan x.frame ≠ ch
  writes : (s.chan ch).writeQ = []
  keep : s.vlt.keep = []
  swatches : s.map.swatches = []
  t1 : ∀ e ∈ s.map.pages, ∀ f, e.2.place = .t1 f → frameChan f ≠ ch
  t2 : ∀ e ∈ s.map.pages, ∀ a b, e.2.place = .t2 a b → frameChan (a / 8) ≠ ch
  twins : ∀ e ∈ s.map.pages, ((e.2.twin.toList ++ e.2.twin2.toList).any fun f => frameChan f = ch) = false

section
variable {s t : State} {ch : Nat} (h : Bare s ch)
include h

/-- Nothing under way is abandoned. -/
theorem Bare.abandonQueues_eq : s.abandonQueues ch = ([], s) := by
  unfold State.abandonQueues
  simp only [h.writes, List.isEmpty_nil, if_true]
  exact abandonReads_none fun e he x hx => decide_eq_false (h.reads e he x hx)

/-- No page loses its primary copy. -/
theorem Bare.pagesLost_eq (t : State) : s.map.pages.foldl (fun (t : State) e => t.pageLost ch e) t = t := by
  refine foldl_keeps (fun t e he => ?_) t
  unfold State.pageLost
  cases hp : e.2.place with
  | t1 f => exact if_neg (h.t1 e he f hp)
  | t2 a b => exact if_pos (h.t2 e he a b hp)
  | _ => rfl

/-- No page loses a twin. -/
theorem Bare.twinsLost_eq (t : State) : s.map.pages.foldl (fun (t : State) e => t.twinLost ch e) t = t := by
  refine foldl_keeps (fun t e he => ?_) t
  unfold State.twinLost
  rw [h.twins e he, if_neg Bool.false_ne_true]

/-- A frame in which a page of the map lies is not on the channel. -/
theorem Bare.placed {e : Nat × PageEntry} (he : e ∈ s.map.pages) {f : Nat} (hf : e.2.place.frame = some f) : frameChan f ≠ ch := by
  cases hp : e.2.place with
  | t1 g =>
    rw [hp] at hf
    cases hf
    exact h.t1 e he _ hp
  | t2 a b =>
    rw [hp] at hf
    cases hf
    exact h.t2 e he _ _ hp
  | _ =>
    rw [hp] at hf
    cases hf

/-- The frames that the channel's loss leaves lie on other channels. -/
theorem Bare.frames_apart (hm : t.map.pages = s.map.pages) : ∀ e ∈ (t.dropFrames ch).dram.frames, frameChan e.1 ≠ ch := by
  intro e he
  have hk := (List.mem_filter.mp he).2
  rw [Bool.or_eq_true] at hk
  rcases hk with hk | hk
  · exact of_decide_eq_true hk
  · obtain ⟨a, ha, hf⟩ := List.mem_filterMap.mp (List.contains_iff_mem.mp hk)
    rw [hm] at ha
    split at hf
    · exact h.placed ha hf
    · cases hf

/-- A channel that holds no copies leaves service at once: only its map frames wait for their rebuild (R211). -/
theorem Bare.retireChannel_eq : s.retireChannel ch
    = ((((s.chanOut ch).dropFrames ch).note ⟨2, 0x11, 256 + ch, none⟩).eventAll ⟨.memoryModule, 0x11, ch⟩) := by
  have hkeeps : ((s.chanOut ch).dropFrames ch).holdKeeps = (s.chanOut ch).dropFrames ch := by
    unfold State.holdKeeps
    rw [show ((s.chanOut ch).dropFrames ch).vlt.keep = [] from h.keep]
    rfl
  have hsw : (s.chanOut ch).map.swatches = [] := h.swatches
  unfold State.retireChannel
  simp only [h.abandonQueues_eq, List.foldl_nil]
  rw [show (s.chanOut ch).map.pages = s.map.pages from rfl, h.pagesLost_eq, show (s.chanOut ch).map.pages = s.map.pages from rfl,
    h.twinsLost_eq, hsw, List.foldl_nil, hkeeps]

end

/-- The record of a channel that is out of service (R211). -/
theorem chanOut_chan (s : State) (ch : Nat) : (s.chanOut ch).chan ch = { s.chan ch with retired := true, rebuild := true, twinRsv := 0 } :=
  chan_mod (s := s.retireTaken 1 ch) (f := fun c => { c with retired := true, rebuild := true, twinRsv := 0 })
    fun he => by cases congrArg Channel.retired he

section
variable {s : State} {ch : Nat} (hon : s.on = true)
include hon

/-- CHANNEL_RETIRE of a channel that holds no copies (R211). -/
theorem channelRetire_bare (hin : (s.chan ch).retired = false) (h16 : ch < 16) (hdue : s.retireDue 1 ch = true) (h : Bare s.hush ch) :
    Completes (.channelRetire ch) s fun u =>
      u.boot = { s.boot.keep 1 with retCh := putBit s.boot.retCh ch true }
      ∧ (u.chan ch).retired = true ∧ (u.chan ch).rebuild = true ∧ (u.chan ch).twinRsv = 0
      ∧ (∀ e ∈ u.dram.frames, frameChan e.1 ≠ ch)
      ∧ u.map = { s.map with rebuilding := s.map.rebuilding ++ (s.map.units.keysWhere fun _ e => e.dstate = .loaded && frameChan e.frame = ch) }
      ∧ u = { s with out := u.out, heads := u.heads, boot := u.boot, dram := u.dram, map := u.map, flt := u.flt, pmc := u.pmc, tap := u.tap } := by
  have hocc : (! (s.hush.chan ch).retired && decide (ch < 16) && (s.hush.retireDue 1 ch || s.hush.chanFailed ch)) = true := by
    rw [hush_chan, hin, decide_eq_true h16, show s.hush.retireDue 1 ch = true from hdue]
    rfl
  refine ⟨_, yields_of hon (show exec _ s = execChannelRetire ch s from rfl) rfl, ?_⟩
  rw [hocc, when_true, h.retireChannel_eq]
  obtain ⟨t, p, hs, o, hn⟩ := noteAll_cases ((s.hush.chanOut ch).dropFrames ch) ⟨2, 0x11, 256 + ch, none⟩ ⟨.memoryModule, 0x11, ch⟩
  have hchan := chanOut_chan s.hush ch
  rw [hn]
  exact ⟨rfl, congrArg Channel.retired hchan, congrArg Channel.rebuild hchan, congrArg Channel.twinRsv hchan, h.frames_apart rfl, rfl, rfl⟩

/-- CHANNEL_REBUILD_END (R211, R213). -/
theorem channelRebuildEnd_ends (hre : (s.chan ch).rebuild = true) (hmap : s.map.rebuilding = [])
    (hclean : (s.map.pages.any fun e => e.2.urgent && e.2.dirty) = false) :
    Yields (.channelRebuildEnd ch) s
      ((s.hush.modChan ch fun c => { c with rebuild := false }).note ⟨2, 0x11, 256 + ch + 4096, none⟩) := by
  refine yields_of hon (show exec _ s = execChannelRebuildEnd ch s from rfl) ?_
  simp only [hush_chan, hush_map, hre, hmap, hclean, List.isEmpty_nil, Bool.not_false, Bool.and_self, when_true]

/-- SF_WAY_RETIRE of a way that holds no entry and is reserved for none (R177). -/
theorem sfWayRetire_empty {slice way : Nat} (hdue : s.retireDue 3 (16 * slice + way) = true) (h16 : way < 16)
    (hempty : (s.coh.sf.filter fun e => e.1 / 2097152 = slice && e.1 % 16 = way) = []) (hho : s.coh.handoff = []) :
    Yields (.sfWayRetire slice way) s
      ((State.note { s.hush.retireTaken 3 (16 * slice + way) with
          boot := { s.boot.keep 1 with retSf := putBit s.boot.retSf (16 * slice + way) true } }
        ⟨1, 0x14, 3 * 256 + (16 * slice + way), none⟩).eventAll ⟨.memoryModule, 0x14, 16 * slice + way⟩) := by
  refine yields_of hon (show exec _ s = execSfWayRetire slice way s from rfl) ?_
  rw [show s.hush.retireDue 3 (16 * slice + way) = true from hdue, decide_eq_true h16, Bool.and_self, when_true]
  unfold State.retireSfWay
  simp only [hush_coh, hush_boot, hempty, hho, List.map_nil, List.isEmpty_nil, List.any_nil, Bool.and_false, Bool.false_eq_true, if_false, if_true]

/-! ### A channel in a cold restore -/

/-- CHANNEL_TRAIN of a channel that the device can use, and whose training passes (R180, R216). -/
theorem channelTrain_serves {p : TrainReport} (h : Reports s ch p) (hv : p.spdValid = true) (hsup : trainSupported p = true) (hrfc : p.rfcNs ≤ 130)
    (hranks : BitVec.ofNat 4 (2 ^ (p.ranksPerDimm * rowDimms p.row) - 1) &&& ~~~ s.boot.retRanks.extractLsb' (4 * ch) 4 ≠ 0)
    {fast : Option TrainRecord} (hfast : fast = (s.trainRecord ch p.crcOk).filter (fun r => s.fastTrains p r))
    (hok : fast.isSome = true ∨ p.fullOk = true) :
    Completes (.channelTrain ch p) s fun u =>
      u.chan ch = trained (s.boot.retRanks.extractLsb' (4 * ch) 4) fast p (s.chan ch)
      ∧ (fast = none → u.boot.train.get none (2 * ch) = some (newRecord ch p) ∧ u.boot.train.get none (2 * ch + 1) = some (newRecord ch p))
      ∧ (fast ≠ none → u.boot = s.boot)
      ∧ u = { s with out := [], boot := u.boot, dram := u.dram } := by
  refine ⟨_, channelTrain_trains h hon hv hsup hrfc, ?_⟩
  obtain ⟨d, k, hrep⟩ := reported_cases s.hush ch p
  rw [hrep]
  obtain ⟨b, m, hrun, hchan, hfull, hboot⟩ := trainChannel_serves
    (s := { s.hush with dram := { s.hush.dram with spd0 := d, spd0Read := k } }) hok hranks hfast
  rw [hrun]
  exact ⟨hchan, hfull, hboot, rfl⟩

/-- CHANNEL_TRAIN of a channel with an unreadable SPD (R180). -/
theorem channelTrain_unreadable {p : TrainReport} (h : Reports s ch p) (hv : p.spdValid = false) :
    Completes (.channelTrain ch p) s fun u =>
      (u.chan ch).retired = true ∧ (u.chan ch).inService = false ∧ u.boot = { s.boot.keep 1 with retCh := putBit s.boot.retCh ch true }
      ∧ u.flt = s.flt.enter (Note.words ⟨2, 0x18, ch, none⟩)
      ∧ u = { s with out := u.out, heads := u.heads, boot := u.boot, dram := u.dram, flt := u.flt, pmc := u.pmc, tap := u.tap } := by
  refine ⟨_, channelTrain_leavesOut h hon hv, ?_⟩
  obtain ⟨d, k, hrep⟩ := reported_cases s.hush ch p
  obtain ⟨m, hdrop, hchan⟩ := dropChannel_cases (reported s.hush ch p) ch
  obtain ⟨t, pm, hs, o, hn⟩ := note_cases ((reported s.hush ch p).dropChannel ch) ⟨2, 0x18, ch, none⟩
  rw [hn, hdrop, hrep]
  exact ⟨congrArg Channel.retired hchan, congrArg Channel.inService hchan, rfl, rfl, rfl⟩

end

/-! ### The obligation -/

/-- Settles O19: the training of a channel, then the retirement of a rank, a channel and a snoop-filter way that hold nothing, and the end of
a channel's rebuild. -/
theorem memoryUnitsComeAndGo : Obligations.MemoryUnitsComeAndGo := by
  unfold Obligations.MemoryUnitsComeAndGo
  refine ⟨fun s ch p hon h16 hst hact hin hret hlike => ?trains,
    fun s ch rank bad hon hdue h4 hused => rankRetire_empty bad hon hdue h4 hused,
    fun s ch hon hret h16 hdue hreads hwrites hkeep hsw hpages => ?retires,
    fun s ch hon hre hmap hclean => channelRebuildEnd_ends hon hre hmap hclean,
    fun s v slice way hon hdue h16 hempty hho hv => ?sfWay⟩
  case trains =>
    have h : Reports s ch p := ⟨h16, hst, hact, hin, hret, hlike⟩
    refine ⟨fun hv hsup hrfc hranks fast hfast hok => ?_, channelTrain_unreadable hon h⟩
    obtain ⟨u, hu, hchan, hfull, hboot, hframe⟩ := channelTrain_serves hon h hv hsup hrfc hranks hfast hok
    exact ⟨u, hu, congrArg Channel.inService hchan, congrArg Channel.ranks hchan, congrArg Channel.rankFrames hchan,
      congrArg Channel.trainedFast hchan, congrArg Channel.delays hchan, hfull, hboot, hframe⟩
  case retires =>
    refine channelRetire_bare hon hret h16 hdue ⟨fun e he x hx => ?_, hwrites, hkeep, hsw, fun e he => (hpages e he).1,
      fun e he => (hpages e he).2.1, fun e he => (hpages e he).2.2⟩
    exact of_decide_eq_true (List.all_eq_true.mp (List.all_eq_true.mp hreads e he) x hx)
  case sfWay =>
    subst hv
    exact sfWayRetire_empty hon hdue h16 hempty hho

end Sys2Proof.Proofs.MemoryUnits
end

