-- ==== Sys2Proof/Proofs/ChannelUpkeep.lean ====
section
/-! PROOF. The upkeep of a DRAM channel that falls due with time: refresh (R201), oscillator reads (R203), aging (R199), temperature (R204)
and patrol scrub (R209), and obligation O18. -/
namespace Sys2Proof.Proofs.ChannelUpkeep
open Sys2Proof Sys2Proof.Machine Sys2Proof.Laws Sys2Proof.Proofs.PageDescriptors

/-- An event is due at cycle d once the clock stands at d or at any later cycle. -/
theorem due_of_eq {s : State} {d k : Nat} (h : s.clock = d + k) : d ≤ s.hush.clock :=
  h ▸ Nat.le_add_right d k

/-! ### Refresh -/

/-- The turn to be refreshed of a rank passes to the bank group after group, and the rank's next refresh falls due tREFI from now. -/
def turnPassed (s : State) (ch rank group : Nat) : State :=
  s.modChan ch fun c => { c with
    refNext := c.refNext.set 0 rank ((group + 1) % 8), refDue := c.refDue.set 0 rank (s.clock + (s.chan ch).refi) }

/-- The refresh of a bank group is due: it is its rank's turn, on a channel in service and not in self-refresh. -/
structure RefreshDue (s : State) (ch rank group : Nat) : Prop where
  serves : (s.chan ch).inService = true
  stays : (s.chan ch).retired = false
  rank4 : rank < 4
  group8 : group < 8
  awake : s.inPowerState (16 + ch) = false
  turn : (s.chan ch).refNext.get 0 rank = group
  time : (s.chan ch).refDue.get 0 rank ≤ s.clock

/-- REFRESH of the bank group whose turn it is passes the turn on; the refresh is postponed where that is asked, a read waits for the bank
and fewer than four are postponed, and runs otherwise (R201). -/
theorem refresh_yields {s : State} {ch rank group : Nat} (postpone : Bool) (hon : s.on = true) (h : RefreshDue s.hush ch rank group) :
    Yields (.refresh ch rank group postpone) s
      (if postpone && decide ((s.chan ch).postponed.get 0 (8 * rank + group) < 4) && s.bankWanted ch rank group then
        ((turnPassed s.hush ch rank group).modChan ch fun c => { c with
          postponed := c.postponed.set 0 (8 * rank + group) ((s.chan ch).postponed.get 0 (8 * rank + group) + 1) }).count (evChan ch 4) 1
      else (turnPassed s.hush ch rank group).refreshBank ch rank group) := by
  obtain ⟨hin, hret, hrank, hgroup, hawake, hturn, htime⟩ := h
  refine yields_of hon (show exec _ s = execRefresh ch rank group postpone s from rfl) ?_
  simp only [hin, hret, decide_eq_true hrank, decide_eq_true hgroup, hawake, Bool.not_false, Bool.and_self, when_true]
  rw [if_neg (not_not_intro hturn), elapse_done htime]
  rfl

/-! ### Oscillators -/

/-- OSCILLATOR_READ of a rank in its refresh window adjusts the delays to the count (R203). -/
theorem oscillatorRead_yields {s : State} {ch rank : Nat} (count : Nat) (hon : s.on = true) (hin : (s.chan ch).inService = true)
    (hret : (s.chan ch).retired = false) (hrank : (s.chan ch).ranks.getLsbD rank = true)
    (hwindow : (s.chan ch).window.getLsbD rank = true) (hdue : (s.chan ch).oscAt.get 0 rank + 2000000 ≤ s.hush.clock) :
    Yields (.oscillatorRead ch rank count) s
      (s.hush.modChan ch fun c => { c with
        oscAt := c.oscAt.set 0 rank s.clock, delays := Config.adjustDelays c.delays rank (c.baseline.getD rank 0) count }) := by
  refine yields_of hon (show exec _ s = execOscillatorRead ch rank count s from rfl) ?_
  simp only [hush_chan, hin, hret, hrank, hwindow, Bool.not_false, Bool.and_self, when_true, elapse_done hdue, hush_clock]

/-! ### Aging -/

/-- DRAM_QUEUE_AGING of a read of a level below P3 that has waited 50 us makes it count as P3 (R199). -/
theorem dramQueueAging_yields {s : State} {ch id : Nat} {x : DramRead} (hon : s.on = true)
    (hread : (s.chan ch).readQ.filter (fun y => y.id = id && decide (3 < y.prio)) = [x]) (hdue : x.since + 100000 ≤ s.hush.clock) :
    Yields (.dramQueueAging ch id) s
      ((s.hush.modChan ch fun c => { c with
        readQ := c.readQ.map fun y => if y.id = id then { y with prio := min 3 y.prio, aged := true } else y
        writeQ := c.writeQ.map fun y => if y.id = id then { y with prio := min 3 y.prio, aged := true } else y }).count (evChan ch 5) 1) := by
  refine yields_of hon (show exec _ s = execDramQueueAging ch id s from rfl) ?_
  simp only [hush_chan, hread, List.map_cons, List.map_nil, List.cons_append, List.nil_append, elapse_done hdue]

/-! ### Temperature -/

/-- A channel's sensors have been read: the time of the read and the failed reads in a row are kept. -/
def sensorsRead (s : State) (ch : Nat) (temps : List (Option Nat)) : State :=
  s.modChan ch fun c => { c with tempAt := s.clock, sensorFails := sensorFailsAfter c.sensorFails temps }

/-- A channel takes its hottest temperature and the temperature state of two flags: HOT with hot, WARM with warm alone, else NORMAL. -/
def tempTaken (s : State) (ch temp : Nat) (hot warm : Bool) : State :=
  (s.modChan ch fun c => { c with tempMax := temp, throttle := hot, refresh2x := warm }).minuteMax (4096 * 2 + 256 + ch) temp

/-- THROT_TEMP in force is at least 85 degrees, the entry threshold of WARM. -/
theorem warm_le_throtTemp (s : State) : 85 ≤ s.throtTemp :=
  le_min (by decide) (le_max_left _ _)

/-- DIMM_TEMP_READ of a channel in NORMAL: the hottest sensor makes it HOT from THROT_TEMP on, with a notice, and WARM from 85 degrees on
(R204). -/
theorem dimmTempRead_normal {s : State} {ch temp : Nat} {temps : List (Option Nat)} (hon : s.on = true) (h16 : ch < 16)
    (hhot : hottest s.throtTemp (s.chan ch).sensorFails temps = some temp) (hdue : (s.chan ch).tempAt + 32000000 ≤ s.hush.clock)
    (hthrot : (s.chan ch).throttle = false) (hwarm : (s.chan ch).refresh2x = false) :
    Yields (.dimmTempRead ch temps) s
      (if s.throtTemp ≤ temp then
        (tempTaken (sensorsRead s.hush ch temps) ch temp true true).note ⟨1, 0x19, ch + temp * 256, none⟩
      else tempTaken (sensorsRead s.hush ch temps) ch temp false (decide (85 ≤ temp))) := by
  have hhot' : hottest s.hush.throtTemp (s.chan ch).sensorFails temps = some temp := hhot
  refine yields_of hon (show exec _ s = execDimmTempRead ch temps s from rfl) ?_
  simp only [hush_chan, decide_eq_true h16, when_true, elapse_done hdue, hhot', hthrot, hwarm, Bool.false_and, Bool.or_false,
    Bool.not_false, Bool.and_true, decide_eq_true_eq]
  by_cases hge : s.throtTemp ≤ temp
  · rw [if_pos hge, show decide (s.hush.throtTemp ≤ temp) = true from decide_eq_true hge, if_pos (show s.hush.throtTemp ≤ temp from hge)]
    rfl
  · rw [if_neg hge, show decide (s.hush.throtTemp ≤ temp) = false from decide_eq_false hge, if_neg (show ¬ s.hush.throtTemp ≤ temp from hge)]
    rfl

/-! ### Patrol scrub -/

/-- PATROL_SCRUB_STEP outside the host gap queues the read of the next allocated frame at P6 (R209). -/
theorem patrolScrubStep_yields {s : State} {ch f : Nat} (hon : s.on = true) (hhrs : fld s.dram.ctl 0 8 ≠ 0)
    (hthrot : (s.chan ch).throttle = false) (hret : (s.chan ch).retired = false) (hgap : s.hostGap = false)
    (hnone : ((s.chan ch).readQ.any fun y => y.why = .scrub) = false) (hdue : (s.chan ch).scrubAt + s.scrubGap ch ≤ s.hush.clock)
    (hnext : s.scrubFrame ch = some f) (h0 : (s.chan (frameChan f)).readRoom 0 = true) (h1 : (s.chan (frameChan f)).readRoom 1 = true) :
    Yields (.patrolScrubStep ch) s
      ((s.hush.queueRead 0 f 6 .scrub).modChan ch fun c => { c with scrubNext := f + 1, scrubAt := (s.chan ch).scrubAt + s.scrubGap ch }) := by
  have hocc : (decide (fld s.hush.dram.ctl 0 8 ≠ 0) && ! (s.hush.chan ch).throttle && ! (s.hush.chan ch).retired
      && ! (s.hush.hostGap && ! s.hush.pwr.quiet.isEmpty) && ! ((s.hush.chan ch).readQ.any fun y => y.why = .scrub)) = true := by
    rw [hush_chan, hthrot, hret, hnone, show s.hush.hostGap = false from hgap, hush_dram, decide_eq_true hhrs]
    rfl
  have hnext' : s.hush.scrubFrame ch = some f := hnext
  have hread : s.hush.pageRead 0 f 6 .scrub = some (s.hush.queueRead 0 f 6 .scrub) := pageRead_room (s := s.hush) h0 h1
  refine yields_of hon (show exec _ s = execPatrolScrubStep ch s from rfl) ?_
  rw [hocc, when_true, hush_chan, show s.hush.scrubGap ch = s.scrubGap ch from rfl]
  generalize (s.chan ch).scrubAt + s.scrubGap ch = due at hdue ⊢
  dsimp only
  rw [elapse_done hdue, hnext']
  dsimp only
  rw [hread]

/-! ### The obligation -/

/-- Settles O18: refresh, oscillator read, aging, temperature and patrol scrub, each at or after the cycle at which it falls due. -/
theorem dramUpkeep : Obligations.DramUpkeep := by
  unfold Obligations.DramUpkeep
  intro s ch rank group id temp count f k temps x hon
  refine ⟨fun hin hret => ⟨fun hrank hgroup hawake hturn htime => ⟨_, rfl, ?postponed, ?runs⟩, fun hrank hwindow htime =>
      oscillatorRead_yields count hon hin hret hrank hwindow (due_of_eq htime)⟩,
    fun hread htime => dramQueueAging_yields hon hread (due_of_eq htime), fun h16 hhot htime => ⟨_, rfl, fun hthrot hnormal => ?temperature⟩,
    fun hhrs hthrot hret hgap hnone htime hnext h0 h1 =>
      patrolScrubStep_yields hon hhrs hthrot hret hgap hnone (due_of_eq htime) hnext h0 h1⟩
  case postponed =>
    intro hwanted hfew
    have hy := refresh_yields true hon ⟨hin, hret, hrank, hgroup, hawake, hturn, due_of_eq htime⟩
    rwa [hwanted, decide_eq_true hfew, Bool.and_self, Bool.and_self, if_pos rfl] at hy
  case runs =>
    intro hidle
    have hy := refresh_yields true hon ⟨hin, hret, hrank, hgroup, hawake, hturn, due_of_eq htime⟩
    rwa [hidle, Bool.and_false, if_neg Bool.false_ne_true] at hy
  case temperature =>
    have hy := dimmTempRead_normal hon h16 hhot (due_of_eq htime) hthrot hnormal
    refine ⟨fun hcool => ?_, fun hwarm hbelow => ?_, fun hthrottles => ?_⟩
    · have hbelow : temp < s.throtTemp := hcool.trans_le (warm_le_throtTemp s)
      rwa [if_neg (Nat.not_le.mpr hbelow), decide_eq_false (Nat.not_le.mpr hcool)] at hy
    · rwa [if_neg (Nat.not_le.mpr hbelow), decide_eq_true hwarm] at hy
    · rwa [if_pos hthrottles] at hy

end Sys2Proof.Proofs.ChannelUpkeep
end

