-- ==== Sys2Proof/Proofs/Tiers.lean ====
section
/-! PROOF. Pages that move between the tiers (R232 to R239, R254): the start of a promotion and of an eviction, the ends of both, the
policy's sweep, the warmer and the heat epoch, and obligation O20. -/
namespace Sys2Proof.Proofs.Tiers
open Sys2Proof Sys2Proof.Machine Sys2Proof.Laws Sys2Proof.Proofs.PageDescriptors Sys2Proof.Proofs.ChannelUpkeep

/-! ### The start of a transition -/

/-- Asking for a record that is being read already changes the level of its read, and no other part of the state. -/
theorem beamRead_again {s : State} {a : Nat} (level : Nat) (gc : Bool) (h : (s.beam.reads.any fun r => r.addr = a) = true) :
    ∃ rd, s.beamRead a level gc = { s with beam := { s.beam with reads := rd } }
      ∧ (rd.map fun r => r.addr) = s.beam.reads.map fun r => r.addr := by
  unfold State.beamRead
  rw [if_pos h]
  refine ⟨_, rfl, ?_⟩
  rw [List.map_map]
  refine List.map_congr_left fun r _ => ?_
  dsimp only [Function.comp_apply]
  split <;> rfl

section
variable {s : State} {pn f a : Nat}

/-- The promotion of a T3 page takes its frame and asks for its record (R233). -/
theorem startPromotion_t3 (m : Moving) (hpl : (s.page pn).place = .t3 a) :
    s.startPromotion pn f m = ((s.useFrame f (.t1 pn none)).startMove pn m).beamRead a (s.pageLevel pn 5) false := by
  unfold State.startPromotion
  simp only [hpl]

/-- A read promotes a T3 page at rest whose record is being read for it into an open frame, while one is free (R233, R237). -/
theorem transitionStart_promotesRead (hunit : (s.unit (pn / 512)).dstate ≠ .unloaded) (hstop : s.vlt.stopped = false)
    (hmv : (s.page pn).moving = none) (hpl : (s.page pn).place = .t3 a) (hread : (s.beam.reads.any fun r => r.addr = a) = true)
    (hopen : s.frameOpen f = true) (hfree : 0 < s.freeFrames) :
    s.transitionStart pn .toT1 .read f = s.startPromotion pn f ⟨.toT1, .read, f, false⟩ := by
  have hmay : s.mayPromote pn .read = true := by
    unfold State.mayPromote
    simpa only [hpl] using hread
  have hleft : s.frameLeft .read = true := decide_eq_true hfree
  unfold State.transitionStart
  simp only [hstop, hunit, hmv, hmay, hopen, hleft, Bool.false_and, Bool.false_or, decide_false, Bool.false_eq_true, if_false,
    Option.isSome_none, Bool.not_true, Bool.and_self, if_true]

/-- What makes a page of T1 or T2 a candidate for eviction (R239): it may go down, it is at rest, and the policy may send it to T3. -/
theorem evictable_spec (h : s.evictable pn = true) :
    s.mayDemote pn = true ∧ (s.page pn).moving = none ∧ (s.pageDurable pn || s.volT3) = true := by
  unfold State.evictable at h
  simp only [Bool.and_eq_true] at h
  obtain ⟨⟨⟨⟨_, hmay⟩, hrest⟩, hpolicy⟩, _⟩ := h
  exact ⟨hmay, Option.isNone_iff_eq_none.mp hrest, hpolicy⟩

/-- The policy starts the demotion of a candidate of T1 with a current record to that record at once (R233, R239). -/
theorem transitionStart_evicts (place : Nat) (hunit : (s.unit (pn / 512)).dstate = .loaded) (hstop : s.vlt.stopped = false)
    (hpl : (s.page pn).place = .t1 f) (hbeam : (s.page pn).beamv = true) (he : s.evictable pn = true) :
    s.transitionStart pn .toT3 .policy place = (s.unpurpose pn).startMove pn ⟨.toT3, .policy, place, false⟩ := by
  obtain ⟨hmay, hmv, hpolicy⟩ := evictable_spec he
  have hallowed : (! s.pageDurable pn && ! s.volT3) = false := by rw [← Bool.not_or, hpolicy]; rfl
  unfold State.transitionStart
  simp only [hstop, hunit, hmv, hpl, hmay, hbeam, hallowed, Bool.false_and, decide_true, reduceCtorEq, decide_false, Bool.false_eq_true,
    if_false, Option.isSome_none, Bool.true_or, Bool.and_self, Bool.and_true, Bool.not_true, Bool.or_self, if_true]

end

/-! ### The end of a transition -/

section
variable {s : State} {pn f a : Nat}

/-- An entry that is written with its persistent form unchanged, while no lookup waits and no other transition of the page was asked for,
changes the page's entry alone (R233, R287). -/
theorem writeEntry_rests {p : PageEntry} (hunit : (s.unit (pn / 512)).dstate = .loaded) (hp : p.place ≠ .zero)
    (hper : p.persist = (s.page pn).persist) (hwait : p.waiting = none) (htx : s.coh.txns = []) :
    ((s.writeEntry pn p).releaseLookups pn).startWaiting pn = s.modPage pn fun _ => p := by
  have hne : p ≠ {} := fun h => hp (congrArg PageEntry.place h)
  have hzero : (s.unit (pn / 512)).dstate ≠ .zero := hunit ▸ DState.noConfusion
  rw [writeEntry_same hp hzero hper, release_mod htx]
  exact waiting_nil (by rw [page_mod (f := fun _ => p) hne]; exact hwait)

/-- The read of a T3 page has come: its promotion fills the frame and writes the entry (R233). -/
theorem transitionFinish_promoted (hmv : (s.page pn).moving = some ⟨.toT1, .read, f, false⟩) (hpl : (s.page pn).place = .t3 a)
    (hdone : (s.beam.reads.any fun r => r.addr = a) = false) (hcool : (s.chan (frameChan f)).throttle = false)
    (huse : s.frameUse f = .t1 pn none) (husable : s.frameUsable f = true) :
    s.transitionFinish pn = ((s.setFrame f (s.placeData (.t3 a))).writeEntry pn { s.page pn with
      moving := none, place := .t1 f, dirty := false, beamv := true, beam := a, ppoison := false }).releaseLookups pn := by
  unfold State.transitionFinish
  simp only [hmv, hpl, hdone, hcool, huse, husable, decide_true, reduceCtorEq, decide_false, Bool.false_and, Bool.and_false,
    Bool.or_self, Bool.and_self, Bool.and_true, Bool.not_false, Bool.not_true, Bool.false_eq_true, if_true, if_false, ne_eq,
    not_false_eq_true]
  rfl

/-- A demotion to T3 of a page with a current record frees its frame and writes the entry (R233). -/
theorem transitionFinish_demoted {place : Nat} (hmv : (s.page pn).moving = some ⟨.toT3, .policy, place, false⟩)
    (hpl : (s.page pn).place = .t1 f) (hbeamv : (s.page pn).beamv = true) (hbeam : (s.page pn).beam = a) (ha : a ≠ 0) :
    s.transitionFinish pn = ((s.freeFrame f).writeEntry pn { s.page pn with
      moving := none, place := .t3 a, beamv := false, beam := 0 }).releaseLookups pn := by
  unfold State.transitionFinish
  simp only [hmv, hpl, hbeamv, hbeam, ha, reduceCtorEq, decide_false, Bool.false_and, Bool.or_self, Bool.false_eq_true, if_true, if_false]
  rfl

end

/-! ### The commands -/

section
variable {s : State} {pn f a place : Nat} (hon : s.on = true)
include hon

/-- TIER_TRANSITION_START of a read whose page's record is being read. -/
theorem startRead_completes (hunit : (s.unit (pn / 512)).dstate ≠ .unloaded) (hstop : s.vlt.stopped = false)
    (hmv : (s.page pn).moving = none) (hpl : (s.page pn).place = .t3 a) (hread : (s.beam.reads.any fun r => r.addr = a) = true)
    (hopen : s.frameOpen f = true) (hfree : 0 < s.freeFrames) :
    Completes (.tierTransitionStart pn .toT1 .read f) s fun u =>
      u = { (s.hush.useFrame f (.t1 pn none)).startMove pn ⟨.toT1, .read, f, false⟩ with beam := { s.beam with reads := u.beam.reads } }
        ∧ (u.beam.reads.map fun r => r.addr) = s.beam.reads.map fun r => r.addr := by
  obtain ⟨rd, heq, haddr⟩ := beamRead_again (s := (s.hush.useFrame f (.t1 pn none)).startMove pn ⟨.toT1, .read, f, false⟩)
    (s.hush.pageLevel pn 5) false hread
  refine ⟨_, yields_of hon (show exec _ s = execTierTransitionStart pn .toT1 .read f s from rfl) rfl, ?_⟩
  rw [show s.hush.mayStart pn .toT1 .read = true from rfl, when_true,
    transitionStart_promotesRead (s := s.hush) hunit hstop hmv hpl hread hopen hfree, startPromotion_t3 (s := s.hush) _ hpl, heq]
  exact ⟨rfl, haddr⟩

/-- TIER_TRANSITION_COMPLETE of a read's promotion. -/
theorem promotion_yields (hunit : (s.unit (pn / 512)).dstate = .loaded) (hmv : (s.page pn).moving = some ⟨.toT1, .read, f, false⟩)
    (hpl : (s.page pn).place = .t3 a) (ha : a ≠ 0) (hwait : (s.page pn).waiting = none)
    (hdone : (s.beam.reads.any fun r => r.addr = a) = false) (hcool : (s.chan (frameChan f)).throttle = false)
    (huse : s.frameUse f = .t1 pn none) (husable : s.frameUsable f = true) (htx : s.coh.txns = []) :
    Yields (.tierTransitionComplete pn) s
      ((s.hush.setFrame f (s.placeData (.t3 a))).modPage pn fun p => { p with
        moving := none, place := .t1 f, dirty := false, beamv := true, beam := a, ppoison := false }) := by
  refine yields_of hon (show exec _ s = execTierTransitionComplete pn s from rfl) ?_
  obtain ⟨c, hc⟩ := setFrame_eq s.hush f (s.placeData (.t3 a))
  have hd : s.hush.placeData (.t3 a) = s.placeData (.t3 a) := rfl
  unfold State.transitionEnd
  rw [transitionFinish_promoted (s := s.hush) hmv hpl hdone hcool huse husable, hd, hc]
  refine writeEntry_rests (p := { s.page pn with
    moving := none, place := .t1 f, dirty := false, beamv := true, beam := a, ppoison := false }) hunit Place.noConfusion ?_ hwait htx
  show _ = (s.page pn).persist
  unfold PageEntry.persist
  simp only [hpl, ha, Bool.false_eq_true, if_false]

/-- TIER_TRANSITION_COMPLETE of a demotion to T3. -/
theorem demotion_yields (hunit : (s.unit (pn / 512)).dstate = .loaded) (hmv : (s.page pn).moving = some ⟨.toT3, .policy, place, false⟩)
    (hpl : (s.page pn).place = .t1 f) (hbeamv : (s.page pn).beamv = true) (hbeam : (s.page pn).beam = a) (ha : a ≠ 0)
    (hpp : (s.page pn).ppoison = false) (hwait : (s.page pn).waiting = none) (htx : s.coh.txns = []) :
    Yields (.tierTransitionComplete pn) s
      ((s.hush.freeFrame f).modPage pn fun p => { p with moving := none, place := .t3 a, beamv := false, beam := 0 }) := by
  refine yields_of hon (show exec _ s = execTierTransitionComplete pn s from rfl) ?_
  unfold State.transitionEnd
  rw [transitionFinish_demoted (s := s.hush) hmv hpl hbeamv hbeam ha]
  refine writeEntry_rests (s := s.hush.freeFrame f) (p := { s.page pn with moving := none, place := .t3 a, beamv := false, beam := 0 })
    hunit Place.noConfusion ?_ hwait htx
  show _ = (s.page pn).persist
  unfold PageEntry.persist
  simp only [hpl, hpp, hbeam, ha, Bool.false_eq_true, if_false]

/-- PLACEMENT_SWEEP_STEP starts the demotion of the page that is first in eviction order, while the device is short of frames (R239). -/
theorem sweep_yields {tile : Nat} (hstew : s.glb.steward = true) (hnext : (s.sweepPages tile).head? = some pn)
    (hstop : s.vlt.stopped = false) (hunit : (s.unit (pn / 512)).dstate = .loaded)
    (hshort : s.freeFrames * 1000 < s.framesInService * s.freeLo) (hpl : (s.page pn).place = .t1 f) (hbeam : (s.page pn).beamv = true)
    (he : s.evictable pn = true)
    (hfirst : (s.map.pages.any fun e => s.evictable e.1 && decide (s.evictRank e.1 < s.evictRank pn)) = false) {v : State}
    (hv : v = { s.hush with map := { s.map with sweepAt := s.map.sweepAt.set 0 tile (pn + 1), evictMode := true } }) :
    Yields (.placementSweepStep tile pn place) s ((v.unpurpose pn).startMove pn ⟨.toT3, .policy, place, false⟩) := by
  have hdue : (s.hush.glb.steward && ! s.hush.vlt.stopped && decide ((s.hush.sweepPages tile).head? = some pn)) = true := by
    simp only [hush_glb, hush_vlt, hstew, hstop, show s.hush.sweepPages tile = s.sweepPages tile from rfl, hnext, decide_true,
      Bool.not_false, Bool.and_self]
  have he' : v.evictable pn = true := by rw [hv]; exact he
  have hfirst' : (v.map.pages.any fun e => v.evictable e.1 && decide (v.evictRank e.1 < v.evictRank pn)) = false := by
    rw [hv]
    exact hfirst
  have hlow : (decide (s.freeFrames * 1000 < s.framesInService * s.freeLo)
      || (s.map.evictMode && ! decide (s.framesInService * s.freeHi < s.freeFrames * 1000))) = true := by
    rw [decide_eq_true hshort, Bool.true_or]
  have hmode : v = { s.hush with map := { s.map with
      sweepAt := s.map.sweepAt.set 0 tile (pn + 1)
      evictMode := decide (s.freeFrames * 1000 < s.framesInService * s.freeLo)
        || (s.map.evictMode && ! decide (s.framesInService * s.freeHi < s.freeFrames * 1000)) } } := by rw [hv, hlow]
  refine yields_of hon (show exec _ s = execPlacementSweepStep tile pn place s from rfl) ?_
  rw [hdue, when_true]
  calc
    _ = v.when (v.evictable pn && ! (v.map.pages.any fun e => v.evictable e.1 && decide (v.evictRank e.1 < v.evictRank pn)))
          fun s => s.transitionStart pn .toT3 .policy place := by rw [hmode]; exact if_pos hlow
    _ = v.transitionStart pn .toT3 .policy place := by rw [he', hfirst']; rfl
    _ = _ := by
        rw [hv] at he' ⊢
        exact transitionStart_evicts place hunit hstop hpl hbeam he'

/-- WARMER_FILL with nothing left to warm stops the warmer (R254). -/
theorem warmer_stops (hwarming : s.map.warming = true) (hload : s.map.mapLoad = false) (hstop : s.vlt.stopped = false)
    (hend : s.map.warm = []) :
    Yields (.warmerFill pn place) s { s.hush with map := { s.map with warming := false, warmDone := true } } := by
  refine yields_of hon (show exec _ s = execWarmerFill pn place s from rfl) ?_
  simp only [hush_map, hush_vlt, hwarming, hload, hstop, hend, Bool.not_false, Bool.and_self, when_true, List.isEmpty_nil, Bool.true_or,
    if_true]

/-- WARMER_FILL of a page whose record is raw starts its promotion (R254). -/
theorem warmer_fills {r : BeamRec} (hwarming : s.map.warming = true) (hload : s.map.mapLoad = false) (hstop : s.vlt.stopped = false)
    (hnext : s.map.warm.head? = some pn) (hplenty : s.framesInService * s.freeHi < s.freeFrames * 1000)
    (hpl : (s.page pn).place = .t3 a) (hrec : s.beam.recs.get none a = some r) (hraw : r.kind = .raw) (hopen : s.frameOpen place = true) :
    Yields (.warmerFill pn place) s
      ((((({ s.hush with map := { s.map with warm := s.map.warm.drop 1 } } : State).useFrame place (.t1 pn none)).startMove pn
        ⟨.toT1, .warmer, place, false⟩)).beamRead a (s.pageLevel pn 5) false) := by
  have hsome : s.map.warm.isEmpty = false := by
    cases hw : s.map.warm with
    | nil => rw [hw] at hnext; cases hnext
    | cons => rfl
  have hgo : decide (s.hush.freeFrames * 1000 ≤ s.hush.framesInService * s.hush.freeHi) = false :=
    decide_eq_false (Nat.not_le.mpr hplenty)
  refine yields_of hon (show exec _ s = execWarmerFill pn place s from rfl) ?_
  simp only [hush_map, hush_vlt, hush_beam, hush_page, hwarming, hload, hstop, hsome, hgo, hnext, hpl, hrec, hraw, Bool.not_false,
    Bool.and_self, when_true, Bool.or_self, Bool.false_eq_true, if_false, ne_eq, not_true_eq_false, reduceCtorEq, decide_false, Bool.false_and]
  rw [if_pos (show s.hush.frameOpen place = true from hopen)]
  exact startPromotion_t3 _ hpl

/-- HEAT_EPOCH_TICK at or after the end of the epoch (R232). -/
theorem heatEpoch_yields (hdue : s.map.epochAt + s.epochCycles ≤ s.clock) :
    Yields .heatEpochTick s
      { s.hush with map := { s.map with epoch := (s.map.epoch + 1) % 16, epochAt := s.map.epochAt + s.epochCycles } } := by
  refine yields_of hon (show exec _ s = execHeatEpochTick s from rfl) ?_
  have hnow : s.hush.elapse (s.hush.map.epochAt + s.hush.epochCycles) = s.hush := elapse_done hdue
  dsimp only
  rw [hnow]
  rfl

end

/-! ### The obligation -/

/-- Settles O20: the start and the end of a read's promotion, the policy's sweep and the end of its demotion, the warmer, the heat epoch. -/
theorem pagesMoveBetweenTiers : Obligations.PagesMoveBetweenTiers := by
  unfold Obligations.PagesMoveBetweenTiers
  intro s pn f a tile place k hon
  refine ⟨fun hunit hstop hmv hpl hread hopen hfree => ⟨_, rfl, startRead_completes hon hunit hstop hmv hpl hread hopen hfree⟩,
    fun hunit hmv hpl ha hwait hdone hcool huse husable htx => promotion_yields hon hunit hmv hpl ha hwait hdone hcool huse husable htx,
    fun hunit hmv hpl hbeamv hbeam ha hpp hwait htx => demotion_yields hon hunit hmv hpl hbeamv hbeam ha hpp hwait htx,
    fun hstew hnext hstop hunit hshort hpl hbeam he hfirst =>
      ⟨_, rfl, sweep_yields hon hstew hnext hstop hunit hshort hpl hbeam he hfirst rfl⟩,
    fun hwarming hload hstop hend => warmer_stops hon hwarming hload hstop hend,
    fun r hwarming hload hstop hnext hplenty hpl hrec hraw hopen => ⟨_, rfl, ?warmed⟩,
    fun htime => heatEpoch_yields hon (due_of_eq htime)⟩
  case warmed =>
    refine ⟨_, warmer_fills hon hwarming hload hstop hnext hplenty hpl hrec hraw hopen, beamRead_has _ _ _ _, ?_⟩
    obtain ⟨p, w, n, o, rd, ou, heq⟩ := beamRead_eq ((({ s.hush with map := { s.map with warm := s.map.warm.drop 1 } } : State).useFrame place
      (.t1 pn none)).startMove pn ⟨.toT1, .warmer, place, false⟩) a (s.pageLevel pn 5) false
    rw [heq]
    rfl

end Sys2Proof.Proofs.Tiers
end

