-- ==== Sys2Proof/Proofs/Cleaning.lean ====
section
/-! PROOF. A page that becomes dirty and clean again (R243, R247, R248, R287): the MARK of a durable write, the start of a clean, the sync of
the tiles, the read of the page, the confirmed record, and obligation O21. -/
namespace Sys2Proof.Proofs.Cleaning
open Sys2Proof Sys2Proof.Machine Sys2Proof.Laws Sys2Proof.Laws.Traffic Sys2Proof.Proofs.PageDescriptors Sys2Proof.Proofs.DramAccess

/-! ### MARK -/

section
variable {s : State} {pn : Nat}

/-- A page at rest has no demotion that a MARK could end (R236). -/
theorem abandonMove_rest (hmv : (s.page pn).moving = none) : s.abandonMove pn = s := by
  unfold State.abandonMove
  rw [hmv]

/-- The MARK of a durable write to a page of T1 at rest, whose generation is the region's, is taken and makes the page dirty (R243). -/
theorem handleMark_dirties {m : Mark} {f : Nat} (hmark : s.map.marks.find? (fun x => x.pn = pn) = some m) (hdur : m.durable = true)
    (hrec : s.coh.recovering = 0) (hpl : (s.page pn).place = .t1 f) (hmv : (s.page pn).moving = none)
    (hgen : (s.page pn).gen = (s.gen m.region).gen) :
    s.handleMark pn = State.markDirty { s with map := { s.map with marks := s.map.marks.erase m } } pn := by
  have hserves : s.coh.recovering.getLsbD (hashMapTile pn) = false := by
    rw [hrec]
    exact BitVec.getLsbD_zero
  unfold State.handleMark
  simp only [hmark, hserves, abandonMove_rest hmv, hpl, hmv, hgen, hdur, ne_eq, not_true, decide_false, Bool.false_and, Bool.or_self,
    Option.isSome_none, Bool.not_true, Bool.false_eq_true, if_false, if_true]

/-- A change of a page's entry is the entry that it gives. -/
theorem modPage_eq {g : PageEntry → PageEntry} {p : PageEntry} (h : g (s.page pn) = p) : s.modPage pn g = s.modPage pn fun _ => p := by
  unfold State.modPage
  rw [h]

/-- The entry of a page that a MARK makes dirty. -/
def dirtied (p : PageEntry) : PageEntry := { p with dirty := true, nocomp := false }

/-- While no clean treats the page, a MARK leaves REDIRTY as it is (R248). -/
theorem dirtied_eq {p : PageEntry} (hc : p.cleaning = false) :
    ({ p with dirty := true, redirty := p.redirty || p.cleaning, nocomp := false } : PageEntry) = dirtied p := by
  unfold dirtied
  rw [hc, Bool.or_false]

/-- A clean page that no clean treats becomes dirty: it enters the journal, and the drives that sleep start their exit (R243). -/
theorem markDirty_clean (hd : (s.page pn).dirty = false) (hc : (s.page pn).cleaning = false) :
    ∃ pw au o, s.markDirty pn = { s with
        pwr := pw, near := { s.near with autoOff := au }, out := s.out ++ o
        map := { s.map with
          pages := s.map.pages.set {} pn (dirtied (s.page pn))
          journal := s.map.journal ++ [(pn, s.opMs)] } }
      ∧ ∀ x ∈ o, ∃ i, x = .nvmeAdmin i 0x09 := by
  obtain ⟨pw, au, o, hexits, ho⟩ := exits_any s (BitVec.ofNat 57 (0xFF <<< 48))
  have hwake : s.wakeDrives = { s with pwr := pw, near := { s.near with autoOff := au }, out := s.out ++ o } := hexits
  refine ⟨pw, au, o, ?_, ho⟩
  unfold State.markDirty
  simp only [hd, hc, Bool.false_eq_true, if_false]
  rw [hwake, modPage_eq (p := dirtied (s.page pn))]
  · rfl
  · exact dirtied_eq hc

end

/-! ### The start of a clean -/

section
variable {s : State} {pn : Nat}

/-- A page that the engine takes next lies on no HOT channel (R205). -/
theorem cleanNext_cool (h : s.cleanNext pn = true) : s.onHot pn = false := by
  unfold State.cleanNext State.cleanable at h
  simp only [Bool.and_eq_true, Bool.not_eq_true'] at h
  obtain ⟨⟨⟨_, hcool⟩, _⟩, _⟩ := h
  exact hcool

/-- A page that is not urgent waits for no rebuild (R211). -/
theorem rebuildPage_calm (h : (s.page pn).urgent = false) : s.rebuildPage pn = s := by
  unfold State.rebuildPage
  rw [h]
  rfl

/-- Without a seal a clean takes no tokens (R375). -/
theorem sealTokens_nil (h : s.rng.seals = []) : s.sealTokens pn = some s := by
  unfold State.sealTokens
  rw [h]
  rfl

/-- CLEAN_START sets CLEANING on the page that it takes and sends the sync (R247). -/
theorem cleanStart_yields (hon : s.on = true) (hnext : s.cleanNext pn = true) (hstop : s.vlt.stopped = false)
    (hsegs : s.beam.deltaSegs.length < 52) (hseals : s.rng.seals = []) (hcalm : (s.page pn).urgent = false) (htx : s.coh.txns = [])
    (hlive : s.primLive pn = true) : Yields (.cleanStart pn) s (s.hush.beginClean pn) := by
  have hgo : (s.hush.cleanNext pn && ! s.hush.vlt.stopped && decide (s.hush.beam.deltaSegs.length < 52)) = true := by
    rw [show s.hush.cleanNext pn = true from hnext, hush_vlt, hstop, decide_eq_true (show s.hush.beam.deltaSegs.length < 52 from hsegs)]
    rfl
  have hcan : ((s.hush.primLive pn || ! (s.hush.heldLines pn s.hush.near.wbNext).isEmpty) && ! s.hush.onHot pn) = true := by
    rw [show s.hush.primLive pn = true from hlive, show s.hush.onHot pn = false from cleanNext_cool hnext]
    rfl
  refine yields_of hon (show exec _ s = execCleanStart pn s from rfl) ?_
  rw [hgo, when_true]
  dsimp only
  rw [rebuildPage_calm (s := s.hush) hcalm, release_nil (s := s.hush) htx, if_pos hcan, sealTokens_nil (s := s.hush) hseals]

end

/-! ### The sync -/

/-- Bit j of a mask in which bit i is set. -/
theorem getLsbD_putBit_true {n : Nat} (m : BitVec n) {i j : Nat} (hj : j < n) :
    (putBit m i true).getLsbD j = (m.getLsbD j || decide (j = i)) := by
  unfold putBit
  rw [if_pos rfl, BitVec.getLsbD_or]
  by_cases h : j = i
  · rw [← h, bit_eq hj, decide_eq_true rfl]
  · rw [bit_ne hj (Ne.symm h), decide_eq_false h]

/-- A tile has answered the sync of a page's clean. -/
def answered (s : State) (pn tile : Nat) : State := s.modPage pn fun p => { p with synced := putBit p.synced tile true }

section
variable {s : State} {pn tile f : Nat}

/-- With a tile's answer the sync is done where every other tile in service had answered (R247). -/
theorem syncDone_answered (hc : (s.page pn).cleaning = true) :
    (answered s pn tile).syncDone pn = true ↔ ∀ x ∈ s.liveTiles, x ≠ tile → (s.page pn).synced.getLsbD x = true := by
  have hne : ({ s.page pn with synced := putBit (s.page pn).synced tile true } : PageEntry) ≠ {} := fun h => by
    have := congrArg PageEntry.cleaning h
    rw [hc] at this
    cases this
  have hpage : (answered s pn tile).page pn = { s.page pn with synced := putBit (s.page pn).synced tile true } :=
    page_mod (f := fun p => { p with synced := putBit p.synced tile true }) hne
  unfold State.syncDone
  rw [hpage, List.all_eq_true]
  refine forall₂_congr fun x hx => ?_
  have hx16 : x < 16 := List.mem_range.mp (List.mem_filter.mp hx).1
  rw [getLsbD_putBit_true _ hx16, Bool.or_eq_true, decide_eq_true_eq]
  exact ⟨fun h hne => h.resolve_right hne, fun h => or_iff_not_imp_right.mpr h⟩

/-- Every entry of the page that the tile accepted before the sync has drained or is marked SPILL (R247). -/
theorem syncWaits_false (hwb : ∀ e ∈ s.near.wb, e.tile = tile → pageOf e.line = pn → e.id < (s.page pn).syncId → e.spill = true) :
    (s.near.wb.any fun e => e.tile = tile && pageOf e.line = pn && decide (e.id < (s.page pn).syncId) && ! e.spill) = false := by
  refine List.any_eq_false.mpr fun e he h => ?_
  simp only [Bool.and_eq_true, decide_eq_true_eq, Bool.not_eq_true'] at h
  obtain ⟨⟨⟨htile, hpage⟩, hid⟩, hspill⟩ := h
  rw [hwb e he htile hpage hid] at hspill
  cases hspill

section
variable (hon : s.on = true) (hc : (s.page pn).cleaning = true) (hnew : (s.page pn).synced.getLsbD tile = false)
  (hwb : ∀ e ∈ s.near.wb, e.tile = tile → pageOf e.line = pn → e.id < (s.page pn).syncId → e.spill = true)
include hon hc hnew hwb

/-- CLEAN_SYNC_ANSWER of a tile that is not the last one (R247). -/
theorem syncAnswer_waits (hmore : ∃ x ∈ s.liveTiles, x ≠ tile ∧ (s.page pn).synced.getLsbD x = false) :
    Yields (.cleanSyncAnswer pn tile) s (answered s.hush pn tile) := by
  obtain ⟨x, hx, hother, hmissing⟩ := hmore
  have hdone : (answered s.hush pn tile).syncDone pn = false := Bool.eq_false_iff.mpr fun h => by
    have hsynced := (syncDone_answered (s := s.hush) hc).mp h x hx hother
    rw [hush_page, hmissing] at hsynced
    cases hsynced
  have hwait := syncWaits_false (s := s.hush) hwb
  unfold answered at *
  refine yields_of hon (show exec _ s = execCleanSyncAnswer pn tile s from rfl) ?_
  simp only [hush_page] at hwait ⊢
  simp only [hc, hnew, hwait, hdone, Bool.not_true, Bool.not_false, Bool.or_self, Bool.false_eq_true, if_false, if_true]

/-- The last CLEAN_SYNC_ANSWER queues the read of the page's primary frame (R195, R247). -/
theorem syncAnswer_reads (hall : ∀ x ∈ s.liveTiles, x ≠ tile → (s.page pn).synced.getLsbD x = true) (hpl : (s.page pn).place = .t1 f)
    (hlive : s.frameLive f = true) (h0 : (s.chan (frameChan f)).readRoom 0 = true) (h1 : (s.chan (frameChan f)).readRoom 1 = true) :
    Yields (.cleanSyncAnswer pn tile) s
      ((answered s.hush pn tile).queueRead (pn * 64) f ((answered s.hush pn tile).cleanLevel pn) (.clean pn)) := by
  have hdone : (answered s.hush pn tile).syncDone pn = true := (syncDone_answered (s := s.hush) hc).mpr hall
  have hlive' : (answered s.hush pn tile).frameLive f = true := hlive
  have hread := pageRead_room (s := answered s.hush pn tile) (pn := pn) (prio := (answered s.hush pn tile).cleanLevel pn)
    (why := .clean pn) h0 h1
  have hwait := syncWaits_false (s := s.hush) hwb
  unfold answered at *
  refine yields_of hon (show exec _ s = execCleanSyncAnswer pn tile s from rfl) ?_
  simp only [hush_page] at hwait ⊢
  simp only [hc, hnew, hwait, hdone, hpl, hlive', hread, Bool.not_true, Bool.or_self, Bool.false_eq_true, if_false, if_true,
    Option.getD_some]

end

end

/-! ### The read of the page -/

section
variable {s t : State} {pn a : Nat}

/-- The issue of a read leaves what a clean of a page writes (R190, R321). -/
theorem cleanData_issued (h : Issued s t) (hsame : SameMem s t) : t.cleanData pn = s.cleanData pn := by
  have hplace : ∀ p, t.placeData p = s.placeData p := fun p => by simp only [State.placeData, placeLine_eq hsame]
  obtain ⟨c, p, rfl⟩ := h
  unfold State.cleanData
  rw [hplace]
  rfl

/-- The page that a clean has read goes as a record to the CLEAN stream, where none of its lines is poison (R247). -/
theorem cleanRead_appends (hc : (s.page pn).cleaning = true) (hsync : s.syncDone pn = true) (hpoison : (s.cleanData pn).hasPoison = false)
    (happ : s.append 0 (pageRec pn (s.unit (pn / 512)).bkey (s.cleanData pn) none (.clean pn)) = some (a, t)) :
    s.cleanRead pn = some t := by
  unfold State.cleanRead
  simp only [hc, hsync, hpoison, happ, Bool.not_true, Bool.or_self, Bool.false_eq_true, if_false, Option.map_some]

/-- DRAM_READ_COMPLETE of a clean's read (R206, R247). -/
theorem cleanPageRead_yields {ch id : Nat} {x : DramRead} (line : Nat) (bad : Bool) (hon : s.on = true)
    (hserv : (s.chan ch).inService = true) (hfind : (s.chan ch).readQ.find? (fun y => y.id = id) = some x)
    (hmay : s.readIssues ch x = true) (hwhy : x.why = .clean pn) (hc : (s.page pn).cleaning = true) (hsync : s.syncDone pn = true)
    (hpoison : (s.cleanData pn).hasPoison = false)
    (happ : (s.hush.issueRead ch x).append 0 (pageRec pn (s.unit (pn / 512)).bkey (s.cleanData pn) none (.clean pn)) = some (a, t)) :
    Yields (.dramReadComplete ch id .good line bad) s t := by
  obtain ⟨hissued, hkept, -⟩ := issueRead_cases s.hush x hserv
  have hdata : (s.hush.issueRead ch x).cleanData pn = s.hush.cleanData pn := cleanData_issued hissued (hissued.same hkept)
  have hread : (s.hush.issueRead ch x).cleanRead pn = some t := by
    obtain ⟨c, p, hshape⟩ := hissued
    refine cleanRead_appends (a := a) (by rw [hshape]; exact hc) (by rw [hshape]; exact hsync) (by rw [hdata]; exact hpoison) ?_
    rw [hdata, show (s.hush.issueRead ch x).unit (pn / 512) = s.unit (pn / 512) by rw [hshape]; rfl]
    exact happ
  have hmay' : s.hush.readIssues ch x = true := hmay
  refine yields_of hon (show exec _ s = execDramReadComplete ch id .good line bad s from rfl) ?_
  simp only [hush_chan, hfind, hmay', when_true, hwhy, checked_good, hread, Option.getD_some]

end

/-! ### The confirmed record -/

section
variable {s : State} {pn a f : Nat}

/-- Without lines held in entries marked SPILL nothing goes to the primary frame (R321). -/
theorem settleHeld_nil (h : s.heldLines pn (s.page pn).syncId = []) : s.settleHeld pn = s := by
  unfold State.settleHeld
  rw [h]
  rfl

/-- An entry of a loaded unit whose persistent form changes sends its delta (R287). -/
theorem writeEntry_changed {p : PageEntry} (hunit : (s.unit (pn / 512)).dstate = .loaded) (hp : p.place ≠ .zero)
    (hper : p.persist ≠ (s.page pn).persist) : s.writeEntry pn p = (s.modPage pn fun _ => p).delta (.page pn p.persist) := by
  have hne : p ≠ {} := fun h => hp (congrArg PageEntry.place h)
  have hmap : s.mapUnit (pn / 512) = s := by
    unfold State.mapUnit
    rw [hunit]
    rfl
  unfold State.writeEntry State.deltaPage
  rw [if_neg hp, hmap, if_neg hper, page_mod (f := fun _ => p) hne]

/-- The entry of a page whose clean is confirmed at a. -/
def cleanEntry (p : PageEntry) (a : Nat) : PageEntry :=
  { p with cleaning := false, dirty := false, beam := a, beamv := true, twin := none, twin2 := none, lines := 0, lines2 := 0, urgent := false }

/-- A clean that no MARK met has no REDIRTY to clear, and one of a page without poison keeps its persistent form (R248, R484). -/
theorem cleanEntry_eq {p : PageEntry} (hre : p.redirty = false) (hpp : p.ppoison = false) :
    ({ p with
      cleaning := false, beam := a, beamv := true, redirty := false, ppoison := false, dirty := false, twin := none, twin2 := none
      lines := 0, lines2 := 0, urgent := false } : PageEntry) = cleanEntry p a := by
  cases p
  cases hre
  cases hpp
  rfl

/-- Whether a page has been dirtied again since its clean began: REDIRTY is clear and no MARK is on its way (R23, R248). -/
theorem redirtied_unmet (hre : (s.page pn).redirty = false) (hmarks : ∀ x ∈ s.map.marks, x.pn ≠ pn) : s.redirtied pn = false := by
  unfold State.redirtied
  rw [hre, Bool.false_or]
  exact List.any_eq_false.mpr fun x hx h => hmarks x hx (of_decide_eq_true h)

/-- What the end of a clean that no MARK met does to a page of T1 (R247). -/
theorem cleanEnd_unmet (hre : (s.page pn).redirty = false) (hpp : (s.page pn).ppoison = false) (hred : s.redirtied pn = false)
    (hpl : (s.page pn).place = .t1 f) {t : State}
    (ht : t = (((s.page pn).twin.toList ++ (s.page pn).twin2.toList).foldl (fun (s : State) f => s.freeTwin f)
      ((s.recDone a).settleHeld pn)).writeEntry pn (cleanEntry (s.page pn) a)) :
    s.cleanEnd pn a = State.sealCleaned { t with map := { t.map with journal := t.map.journal.filter fun j => j.1 ≠ pn } } pn false := by
  rw [ht, ← cleanEntry_eq hre hpp]
  unfold State.cleanEnd
  simp only [hpl, hred, Bool.false_eq_true, if_false]

/-- The confirmed record of a page that was not dirtied again becomes its newest one: the page is clean and leaves the journal, its twin
frames are released, and a delta goes out (R247, R287). -/
theorem cleanEnd_cleans (hre : (s.page pn).redirty = false) (hmarks : ∀ x ∈ s.map.marks, x.pn ≠ pn) (ha : a ≠ 0)
    (hseals : s.rng.seals = []) (hheld : s.heldLines pn (s.page pn).syncId = []) (hpl : (s.page pn).place = .t1 f)
    (hunit : (s.unit (pn / 512)).dstate = .loaded) (hnew : (s.page pn).beam ≠ a) (hpp : (s.page pn).ppoison = false) :
    ∃ d rc, s.cleanEnd pn a = { s with
        dram := d
        map := { s.map with
          pages := s.map.pages.set {} pn (cleanEntry (s.page pn) a), journal := s.map.journal.filter fun j => j.1 ≠ pn }
        beam := { s.beam with
          recs := rc, deltas := s.beam.deltas ++ [.page pn ⟨.t3 a, (s.page pn).gen⟩], deltaAt := s.beam.deltaAt ++ [s.clock] } }
      ∧ ∀ t ∈ (s.page pn).twin, (s.page pn).twin2 = none → d.frames = s.dram.frames.set .free t .free := by
  obtain ⟨rc, hdone⟩ := recDone_eq s a
  obtain ⟨d, htwins⟩ := freeTwins_eq ((s.page pn).twin.toList ++ (s.page pn).twin2.toList) (s.recDone a)
  have hper : (cleanEntry (s.page pn) a).persist = ⟨.t3 a, (s.page pn).gen⟩ := by
    unfold PageEntry.persist cleanEntry
    simp only [hpl, hpp, ha, Bool.false_eq_true, if_false]
  have hold : (s.page pn).persist ≠ ⟨.t3 a, (s.page pn).gen⟩ := fun h => by
    have hplace := congrArg PEntry.place h
    unfold PageEntry.persist at hplace
    simp only [hpl, hpp, Bool.false_eq_true, if_false] at hplace
    split at hplace
    · cases hplace
    · exact hnew (PPlace.t3.inj hplace)
  refine ⟨d, rc, ?_, fun t ht hno => ?_⟩
  · rw [cleanEnd_unmet hre hpp (redirtied_unmet hre hmarks) hpl rfl, settleHeld_nil (s := s.recDone a) (by rw [hdone]; exact hheld), htwins,
      hdone, writeEntry_changed (by exact hunit) (by unfold cleanEntry; rw [hpl]; exact Place.noConfusion) (by rw [hper]; exact hold.symm), hper]
    exact seals_same hseals
  · rw [Option.mem_def.mp ht, hno, hdone] at htwins
    exact (congrArg (fun u : State => u.dram.frames) htwins).symm

/-- CLEAN_COMPLETE of a page whose record is confirmed. -/
theorem cleanComplete_completes (hon : s.on = true) (hc : (s.page pn).cleaning = true) (hrec : s.recFor (.clean pn) = some a)
    (hre : (s.page pn).redirty = false) (hmarks : ∀ x ∈ s.map.marks, x.pn ≠ pn) (ha : a ≠ 0)
    (hseals : s.rng.seals = []) (hheld : s.heldLines pn (s.page pn).syncId = []) (hpl : (s.page pn).place = .t1 f)
    (hunit : (s.unit (pn / 512)).dstate = .loaded) (hnew : (s.page pn).beam ≠ a) (hpp : (s.page pn).ppoison = false) :
    Completes (.cleanComplete pn) s fun u =>
      u.page pn = cleanEntry (s.page pn) a ∧ u.map.journal = s.map.journal.filter (fun j => j.1 ≠ pn)
      ∧ u.beam.deltas = s.beam.deltas ++ [.page pn ⟨.t3 a, (s.page pn).gen⟩]
      ∧ (∀ t ∈ (s.page pn).twin, (s.page pn).twin2 = none → u.dram.frames = s.dram.frames.set .free t .free)
      ∧ u = { s with out := [], dram := u.dram, map := u.map, beam := u.beam, rng := u.rng } := by
  obtain ⟨d, rc, hend, htwin⟩ := cleanEnd_cleans (s := s.hush) hre hmarks ha hseals hheld hpl hunit hnew hpp
  have hne : cleanEntry (s.page pn) a ≠ {} := fun h => by
    have := congrArg PageEntry.place h
    rw [show (cleanEntry (s.page pn) a).place = .t1 f from hpl] at this
    cases this
  have hrec' : s.hush.recFor (.clean pn) = some a := hrec
  refine ⟨s.hush.cleanEnd pn a, yields_of hon (show exec _ s = execCleanComplete pn s from rfl) ?_, ?_⟩
  · rw [hush_page, hc, when_true]
    simp only [hrec', hend]
    exact checkSeals_nil hseals
  · rw [hend]
    exact ⟨Tbl.get_set_self _ _ pn hne s.map.pages, rfl, rfl, htwin, rfl⟩

end

/-- Settles O21: MARK, the start of the clean, the sync and its last answer, the page's read, the confirmed record. -/
theorem pagesAreCleaned : Obligations.PagesAreCleaned := by
  unfold Obligations.PagesAreCleaned
  intro s pn f tile m hon
  refine ⟨?marks, fun hnext hstop hsegs hseals hcalm htx hlive => cleanStart_yields hon hnext hstop hsegs hseals hcalm htx hlive,
    fun hc hnew hpl hwb => ⟨_, rfl, syncAnswer_waits hon hc hnew hwb,
      fun hall _ hlive h0 h1 => syncAnswer_reads hon hc hnew hwb hall hpl hlive h0 h1⟩,
    fun ch id line a x bad t hserv hfind hmay hwhy hc hsync hpoison happ =>
      cleanPageRead_yields line bad hon hserv hfind hmay hwhy hc hsync hpoison happ,
    fun a hc hre hmarks hrec ha hseals hheld hpl hunit hnew hpp =>
      cleanComplete_completes hon hc hrec hre hmarks ha hseals hheld hpl hunit hnew hpp⟩
  case marks =>
    intro hmark hdur hrec hpl hmv hgen hd hc
    obtain ⟨pw, au, o, heq, ho⟩ := markDirty_clean (s := { s.hush with map := { s.map with marks := s.map.marks.erase m } }) hd hc
    have hne : dirtied (s.page pn) ≠ {} := fun h => Bool.noConfusion (congrArg PageEntry.dirty h)
    refine ⟨_, yields_of hon (show exec _ s = execMark pn s from rfl)
      ((handleMark_dirties (s := s.hush) hmark hdur hrec hpl hmv hgen).trans heq), Tbl.get_set_self _ _ pn hne s.map.pages, rfl, rfl, ho, rfl⟩

end Sys2Proof.Proofs.Cleaning
end

