-- ==== Sys2Proof/Proofs/MapUnits.lean ====
section
/-! PROOF. The map's frames and lookups (R221, R222, R229, R231, R250 to R252): a lookup at the map tile, the read of a map line, the rebuild
of a lost map frame, the map loader, and obligation O22. -/
namespace Sys2Proof.Proofs.MapUnits
open Sys2Proof Sys2Proof.Machine Sys2Proof.Laws Sys2Proof.Laws.Pages

/-! ### A lookup at the map tile -/

section
variable {s v : State} {pn line : Nat} (hon : s.on = true) (hwait : (s.waitingOn pn).contains line = true)
  (hv : v = s.hush.ringSend (s.ownerTile line) (s.mapTile pn) 1)
include hon hwait hv

/-- JQ_LOOKUP of an entry that the jacquard cache lacks waits for the map line (R229, R231). -/
theorem jqLookup_misses (hcold : (s.page pn).cached = false) (hunit : (s.unit (pn / 512)).dstate ≠ .unloaded) :
    Yields (.jqLookup pn line) s (v.count (evTile (s.mapTile pn) 9) 1) := by
  have hfound : ((v.page pn).cached || decide ((v.unit (pn / 512)).dstate = .unloaded)) = false := by
    obtain ⟨x, hx⟩ := ringSend_cases s.hush (s.ownerTile line) (s.mapTile pn) 1
    rw [hv, hx]
    exact Bool.or_eq_false_iff.mpr ⟨hcold, decide_eq_false hunit⟩
  refine yields_of hon (show exec _ s = execJqLookup pn line s from rfl) ?_
  rw [show (s.hush.waitingOn pn).contains line = true from hwait, when_true]
  rw [hv] at hfound ⊢
  exact if_neg (Bool.eq_false_iff.mp hfound)

/-- JQ_LOOKUP of an entry in the jacquard cache goes on (R231). -/
theorem jqLookup_hits (hcached : (s.page pn).cached = true) :
    Yields (.jqLookup pn line) s ((v.count (evTile (s.mapTile pn) 8) 1).lookup line) := by
  have hhit : (v.page pn).cached = true := by
    obtain ⟨x, hx⟩ := ringSend_cases s.hush (s.ownerTile line) (s.mapTile pn) 1
    rw [hv, hx]
    exact hcached
  refine yields_of hon (show exec _ s = execJqLookup pn line s from rfl) ?_
  rw [show (s.hush.waitingOn pn).contains line = true from hwait, when_true]
  rw [hv] at hhit ⊢
  simp only [hush_ownerTile, show s.hush.mapTile pn = s.mapTile pn from rfl, hhit, Bool.true_or, if_true]

end

/-! ### The read of a map line -/

section
variable {s : State} {pn : Nat}

/-- A directory entry in the map tile's directory cache is not read (R222). -/
theorem dirRead_held (bad : Bool) (h : (s.unit (pn / 512)).dirIn.getLsbD (s.mapTile pn) = true) : s.dirRead pn bad = s := by
  unfold State.dirRead
  rw [if_pos h]

/-- An uncorrectable error that is counted leaves the map and the tiles in service. -/
theorem countRead_keeps (s : State) (f : Nat) :
    (s.countRead f .uncorrectable).map = s.map ∧ (s.countRead f .uncorrectable).boot = s.boot := by
  unfold State.countRead
  simp only [modChan_map, modChan_boot, bump_map, bump_boot]
  exact ⟨rfl, rfl⟩

/-- What the read of a directory entry counts: a miss of the directory cache, and the error of a copy A that failed (R222, R231). -/
def dirCounted (s : State) (pn : Nat) (bad : Bool) : State :=
  if bad then (s.count (evTile (s.mapTile pn) 10) 1).countRead (s.dirChannels (pn / 512)).1 .uncorrectable
  else s.count (evTile (s.mapTile pn) 10) 1

/-- Counting leaves the map and the tiles in service. -/
theorem dirCounted_keeps (s : State) (pn : Nat) (bad : Bool) :
    (dirCounted s pn bad).map = s.map ∧ (dirCounted s pn bad).boot = s.boot := by
  cases bad
  · exact ⟨rfl, rfl⟩
  · exact countRead_keeps (s.count (evTile (s.mapTile pn) 10) 1) _

/-- A directory entry that the directory cache lacks is read and, where there is room, installed (R222). -/
theorem dirRead_missing (bad : Bool) (h : (s.unit (pn / 512)).dirIn.getLsbD (s.mapTile pn) = false)
    (hroom : (s.map.units.keysWhere fun u d => d.dirIn.getLsbD (s.mapTile pn) && u ≠ pn / 512).length < 65536) :
    s.dirRead pn bad = (dirCounted s pn bad).modUnit (pn / 512) fun d => { d with dirIn := putBit d.dirIn (s.mapTile pn) true } := by
  have hroom' : ((dirCounted s pn bad).map.units.keysWhere fun u d => d.dirIn.getLsbD (s.mapTile pn) && u ≠ pn / 512).length < 65536 := by
    rw [(dirCounted_keeps s pn bad).1]
    exact hroom
  unfold State.dirRead
  rw [if_neg (Bool.eq_false_iff.mp h)]
  show (dirCounted s pn bad).dirInstall (s.mapTile pn) (pn / 512) = _
  unfold State.dirInstall
  dsimp only
  rw [if_pos hroom']

/-- An entry enters its set of the jacquard cache where a way is free (R229, R230). -/
theorem jqInstall_free {t : State} (hpages : t.map.pages = s.map.pages) (hboot : t.boot = s.boot) (h : (s.jqRivals pn).length < 8) :
    t.jqInstall pn = t.modPage pn fun p => { p with cached := true, heat0 := p.heat, stamp0 := p.stamp } := by
  have hrivals : t.jqRivals pn = s.jqRivals pn := by
    unfold State.jqRivals State.mapTile State.firstTile State.tileRetired
    rw [hpages, hboot]
  unfold State.jqInstall
  rw [hrivals, if_pos h]

/-- MAP_LINE_READ_COMPLETE of a line that a lookup waits for (R222, R231). -/
theorem mapLineRead_yields {line : Nat} (bad : Bool) (hon : s.on = true) (hwait : (s.waitingOn pn).contains line = true)
    (hcold : (s.page pn).cached = false) (hunit : (s.unit (pn / 512)).dstate ≠ .unloaded) :
    Yields (.mapLineReadComplete pn bad) s (((s.hush.dirRead pn bad).jqInstall pn).releaseLookups pn) := by
  have hsome : (s.waitingOn pn).isEmpty = false := by
    cases hw : s.waitingOn pn with
    | nil => rw [hw] at hwait; cases hwait
    | cons => rfl
  refine yields_of hon (show exec _ s = execMapLineReadComplete pn bad s from rfl) ?_
  rw [show (s.hush.waitingOn pn).isEmpty = false from hsome, hush_page, hush_unit, hcold, decide_eq_true hunit]
  exact when_true _ _

end

/-! ### Map frames that are rebuilt and loaded -/

/-- A unit is loaded in a map frame. -/
def framed (s : State) (unit frame : Nat) : State :=
  (s.useFrame frame (.mapF unit none)).modUnit unit fun u => { u with dstate := .loaded, frame := frame }

/-- Two steps keep what each of them keeps. -/
theorem kept_trans {s t u : State} {n : Nat} (h1 : Kept s t n) (h2 : Kept t u n) : Kept s u n := by
  obtain ⟨hunits, htxns, hreb, hframes, hcold⟩ := h1
  obtain ⟨hunits', htxns', hreb', hframes', hcold'⟩ := h2
  exact ⟨hunits'.trans hunits, htxns'.trans htxns, hreb'.trans hreb, hframes'.trans hframes, hcold'.trans hcold⟩

section
variable {s t : State} {unit frame : Nat}

/-- The unit's directory entry and its frame's use, once it is loaded (R222, R223). -/
theorem framed_entry : ((framed s unit frame).unit unit).dstate = .loaded ∧ ((framed s unit frame).unit unit).frame = frame
    ∧ (framed s unit frame).frameUse frame = .mapF unit none := by
  have hne : ({ s.unit unit with dstate := .loaded, frame := frame } : UnitDir) ≠ {} := fun h =>
    DState.noConfusion (congrArg UnitDir.dstate h)
  have hunit : (framed s unit frame).unit unit = { s.unit unit with dstate := .loaded, frame := frame } := Tbl.get_set_self _ _ unit hne _
  rw [hunit]
  exact ⟨rfl, rfl, Tbl.get_set_self _ _ frame FrameUse.noConfusion _⟩

/-- Filling the map frame's entries keeps them (R250, R251). -/
theorem framed_kept (h : Kept (framed s unit frame) t unit) :
    (t.unit unit).dstate = .loaded ∧ (t.unit unit).frame = frame ∧ t.frameUse frame = .mapF unit none
      ∧ t.coh.txns = s.coh.txns ∧ t.map.rebuilding = s.map.rebuilding ∧ t.beam.coldUnits = s.beam.coldUnits := by
  obtain ⟨hloaded, hframe, huse⟩ := framed_entry (s := s) (unit := unit) (frame := frame)
  obtain ⟨_, htxns, hreb, hframes, hcold⟩ := id h
  rw [h.unit]
  exact ⟨hloaded, hframe, (congrArg (fun t : Tbl FrameUse => t.get FrameUse.free frame) hframes).trans huse, htxns, hreb, hcold⟩

/-- The rebuild of one page's entry (R250): a page found nowhere becomes POISON, with its notice. -/
def rebuiltPage (s : State) (pn : Nat) : State :=
  if decide ((s.rebuilt pn).place = .poison) && decide ((s.page pn).place ≠ .poison) then
    (s.writeEntry pn (s.rebuilt pn)).poisoned 5 (pn * 64) 64
  else s.writeEntry pn (s.rebuilt pn)

/-- The rebuild of an entry keeps its unit in its frame (R250). -/
theorem rebuiltPage_kept {pn : Nat} (hpn : pn / 512 = unit) (hloaded : (s.unit unit).dstate = .loaded) : Kept s (rebuiltPage s pn) unit := by
  have hwritten : Kept s (s.writeEntry pn (s.rebuilt pn)) unit := writeEntry_kept _ hpn hloaded
  unfold rebuiltPage
  split
  · exact kept_trans hwritten (poisoned_kept _ _ _ _)
  · exact hwritten

/-- MAP_FRAME_REBUILD of a lost unit into an open frame, while no lookup waits (R250). -/
theorem mapFrameRebuild_yields (hon : s.on = true) (hlost : s.map.rebuilding.contains unit = true) (hopen : s.frameOpen frame = true)
    (ht : t = ((List.range 512).map fun i => unit * 512 + i).foldl rebuiltPage (framed s.hush unit frame)) (htx : t.coh.txns = []) :
    Yields (.mapFrameRebuild unit frame) s
      { t with map := { t.map with rebuilding := t.map.rebuilding.filter fun x => x ≠ unit } } := by
  have hgo : (s.hush.map.rebuilding.contains unit && s.hush.frameOpen frame) = true := Bool.and_eq_true_iff.mpr ⟨hlost, hopen⟩
  refine yields_of hon (show exec _ s = execMapFrameRebuild unit frame s from rfl) ?_
  rw [hgo, when_true]
  obtain ⟨pages, hpages⟩ : ∃ l, l = (List.range 512).map fun i => unit * 512 + i := ⟨_, rfl⟩
  rw [← hpages] at ht ⊢
  rw [ht] at htx ⊢
  refine release_fold ?_ pages
  exact htx

end

/-! ### The map loader -/

section
variable {s t : State} {unit frame : Nat}

/-- MAP_UNIT_LOAD of the lowest unit still cold, which is given up where its region is VOLATILE and loaded where it is not (R251, R252). -/
theorem mapUnitLoad_yields (hon : s.on = true) (hactive : s.vlt.active = true) (hstop : s.vlt.stopped = false)
    (hnext : s.beam.coldUnits.head? = some unit) {vol : Bool} (hvol : ((s.unit unit).bound && ! (s.unit unit).bdur) = vol)
    (hopen : vol = false → s.frameOpen frame = true) (ht : t = if vol then s.hush.unbindUnit unit else s.hush.loadUnit unit frame)
    (htx : t.coh.txns = []) :
    Yields (.mapUnitLoad unit frame) s { t with
      beam := { t.beam with coldUnits := s.beam.coldUnits.filter fun x => x ≠ unit }
      map := { t.map with mapLoad := t.map.mapLoad && ! (s.beam.coldUnits.filter fun x => x ≠ unit).isEmpty } } := by
  have hcold : s.beam.coldUnits.contains unit = true := List.contains_iff_mem.mpr (List.mem_of_mem_head? hnext)
  have hroom : (! vol && ! s.hush.frameOpen frame) = false := by
    cases vol with
    | true => rfl
    | false => rw [show s.hush.frameOpen frame = true from hopen rfl]; rfl
  refine yields_of hon (show exec _ s = execMapUnitLoad unit frame s from rfl) ?_
  obtain ⟨pages, hpages⟩ : ∃ l, l = (List.range 512).map fun i => unit * 512 + i := ⟨_, rfl⟩
  rw [← hpages]
  simp only [hush_vlt, hush_beam, hush_unit, hactive, hstop, hcold, hnext, hvol, hroom, decide_true, Bool.not_false, Bool.or_true, Bool.and_self,
    when_true, Bool.false_eq_true, if_false]
  rw [← ht]
  refine release_fold ?_ pages
  exact htx

/-- Loading a unit's entries keeps the unit in its frame (R251). -/
theorem loadUnit_kept : Kept (framed s unit frame) (s.loadUnit unit frame) unit := by
  unfold State.loadUnit
  show Kept (framed s unit frame) (List.foldl _ (framed s unit frame) _) unit
  generalize framed s unit frame = u
  generalize s.beam.cold.pages.filter _ = l
  induction l generalizing u with
  | nil => exact ⟨rfl, rfl, rfl, rfl, rfl⟩
  | cons e l ih =>
    refine kept_trans ?_ (ih _)
    dsimp only
    split
    · unfold State.indexPoison
      repeat' split
      all_goals exact ⟨rfl, rfl, rfl, rfl, rfl⟩
    · exact ⟨rfl, rfl, rfl, rfl, rfl⟩

end

/-- Settles O22: the lookup, the map line's read, the rebuild, the map loader. -/
theorem mapUnitsComeIntoDram : Obligations.MapUnitsComeIntoDram := by
  unfold Obligations.MapUnitsComeIntoDram
  intro s pn line unit frame bad hon
  refine ⟨fun hwait => ⟨_, rfl, jqLookup_misses hon hwait rfl, jqLookup_hits hon hwait rfl⟩,
    fun hwait hcold hunit hrivals => ⟨fun hheld => ?held, fun hmissing hroom => ⟨_, _, rfl, rfl, ?missing⟩⟩,
    fun hlost hopen htx => ?rebuilds, fun hactive hstop hnext hvol hopen htx => ?loads, fun hactive hstop hnext hbound hbdur htx => ?givesUp⟩
  case held =>
    have hy := mapLineRead_yields bad hon hwait hcold hunit
    rwa [dirRead_held (s := s.hush) bad hheld, jqInstall_free (s := s) (t := s.hush) rfl rfl hrivals] at hy
  case missing =>
    have hy := mapLineRead_yields bad hon hwait hcold hunit
    obtain ⟨hmap, hboot⟩ := dirCounted_keeps s.hush pn bad
    rw [dirRead_missing (s := s.hush) bad hmissing hroom,
      jqInstall_free (s := s) ?_ ?_ hrivals] at hy
    · exact hy
    · show (dirCounted s.hush pn bad).map.pages = s.map.pages
      rw [hmap, hush_map]
    · exact hboot
  case rebuilds =>
    obtain ⟨t, ht⟩ : ∃ t, t = ((List.range 512).map fun i => unit * 512 + i).foldl rebuiltPage (framed s.hush unit frame) := ⟨_, rfl⟩
    have hkept : Kept (framed s.hush unit frame) t unit :=
      ht ▸ fold_kept rebuiltPage (fun _ _ => rebuiltPage_kept) _ (pages_unit unit) _ framed_entry.1
    obtain ⟨hloaded, hframe, huse, htxns, hreb, _⟩ := framed_kept hkept
    exact ⟨_, mapFrameRebuild_yields hon hlost hopen ht (htxns.trans htx), hloaded, hframe, huse, congrArg (List.filter _) hreb⟩
  case loads =>
    obtain ⟨hloaded, hframe, huse, htxns, _, _⟩ := framed_kept (loadUnit_kept (s := s.hush) (unit := unit) (frame := frame))
    exact ⟨_, mapUnitLoad_yields hon hactive hstop hnext hvol (fun _ => hopen) rfl (htxns.trans htx), hloaded, hframe, huse, rfl⟩
  case givesUp =>
    have hvol : ((s.unit unit).bound && ! (s.unit unit).bdur) = true := by rw [hbound, hbdur]; rfl
    exact ⟨_, mapUnitLoad_yields (frame := frame) hon hactive hstop hnext hvol (fun h => Bool.noConfusion h) rfl htx, rfl, rfl, rfl, rfl⟩

end Sys2Proof.Proofs.MapUnits
end

