-- ==== Sys2Proof/Proofs/Swatches.lean ====
section
/-! PROOF. Swatches (R255, R256, R258, R260, R261, R263): take, cut, exporting, drop and the generation sweep, and obligation O23. -/
namespace Sys2Proof.Proofs.Swatches
open Sys2Proof Sys2Proof.Machine Sys2Proof.Laws

/-! ### The take and its cut -/

section
variable {s u : State} {r n : Nat} {a : Active}

/-- SWATCH_TAKE of a descriptor that has not started takes a swatch of its region (R255). -/
theorem swatchTake_works (hon : s.on = true) (hw : s.working r 0x50 a) (hst : a.started = false)
    (h : s.hush.swatchTake r (dRegion a.words) = u) : Yields (.swatchTake r) s u := by
  obtain ⟨hact, hop, hstat, hheld, hturn⟩ := hw
  have hact' : (s.hush.ring r).act = some a := hact
  refine yields_of hon (show exec _ s = execSwatchTake r s from rfl) ?_
  unfold State.workSwatchTake
  rw [runs_of (sub := none) hact hop hstat hheld hturn rfl, when_true]
  simp only [hact', hst, Bool.false_eq_true, if_false, h]

/-- A take during a generation sweep of its region ends with status 0x0A (R263). -/
theorem swatchTake_sweeping (h : (s.gen n).sweep = true) : s.swatchTake r n = s.endDescriptor r 0x0A id := by
  unfold State.swatchTake
  dsimp only
  rw [if_pos h]

/-- A take that finds no free slot ends with status 0x09 (R255). -/
theorem swatchTake_full (hsweep : (s.gen n).sweep = false)
    (hslot : (List.range 256).find? (fun k => (s.map.swatches.get {} k).st = .free) = none) :
    s.swatchTake r n = s.endDescriptor r 0x09 id := by
  unfold State.swatchTake
  simp only [hsweep, hslot, Bool.false_eq_true, if_false]

/-- A take with a free slot and a free number of its region asks the tiles in service to hold the region's writes (R256). -/
theorem swatchTake_holds {k i : Nat} (hsweep : (s.gen n).sweep = false) (hhold : (s.gen n).hold = false)
    (hslot : (List.range 256).find? (fun k => (s.map.swatches.get {} k).st = .free) = some k)
    (hnum : (List.range 16).find? (fun i => ! (s.map.swatches.filter fun e => e.2.st ≠ .free && e.2.region = n).any fun e => e.2.num = i)
      = some i) {t : State}
    (ht : t = (s.modAct r fun a => { a with started := true }).modSwatch k fun _ =>
      { st := .taking, region := n, num := i, ring := r, waits := wayMask s.liveTiles }) :
    s.swatchTake r n = { t with map := { t.map with gens := s.map.gens.set {} n { s.gen n with hold := true } } } := by
  unfold State.swatchTake
  simp only [hslot, hnum]
  rw [if_neg (Bool.eq_false_iff.mp hsweep), if_neg (Bool.eq_false_iff.mp hhold), ht]
  rfl

/-- Where no write waits for room and no BIRsp is held, the tiles that go on take none. -/
theorem retryAll_nil (hwb : s.near.wbRetry = []) (hheld : s.coh.heldBirsp = []) :
    ∀ l : List Nat, l.foldl (fun (s : State) t => s.retryWrites t) s = s
  | [] => rfl
  | t :: l => by
    rw [List.foldl_cons, retryWrites_nil hwb hheld]
    exact retryAll_nil hwb hheld l

/-- The last SWATCH_HOLD_ANSWER is the cut: the swatch is LIVE, the region has its next generation, and the take ends (R256, R263). -/
theorem holdAnswer_cuts {k tile : Nat} {w : Swatch} (hon : s.on = true) (hslot : s.map.swatches.get {} k = w) (hst : w.st = .taking)
    (hasked : w.waits.getLsbD tile = true) (hstop : s.vlt.stopped = false) (hlast : putBit w.waits tile false = 0)
    (hwb : s.near.wbRetry = []) (hheld : s.coh.heldBirsp = []) :
    Yields (.swatchHoldAnswer k tile) s
      (State.endDescriptor
        { s.hush with map := { s.map with
            swatches := s.map.swatches.set {} k
              { w with waits := 0, st := .live, gen := ((s.gen w.region).gen + 1) % 65536, order := s.map.takes }
            takes := s.map.takes + 1
            gens := s.map.gens.set {} w.region
              { gen := ((s.gen w.region).gen + 1) % 65536, sweep := decide (((s.gen w.region).gen + 1) % 32768 = 0), hold := false } } }
        w.ring 0x00 fun a => { a with
          result := atBit w.num 0 ||| atBit k 8 ||| atBit (((s.gen w.region).gen + 1) % 65536) 16 }) := by
  refine yields_of hon (show exec _ s = execSwatchHoldAnswer k tile s from rfl) ?_
  simp only [hush_map, hush_vlt, hush_gen, hslot, hst, hasked, hstop, hlast, ne_eq, not_true_eq_false, decide_false, Bool.not_true,
    Bool.or_self, Bool.false_eq_true, if_false]
  rw [retryAll_nil]
  · exact hwb
  · exact hheld

end

/-! ### Exporting -/

section
variable {s : State} {r k : Nat} {a : Active} {w : Swatch}

/-- The slot of the only swatch. -/
theorem onlySwatch_get (h : s.map.swatches = [(k, w)]) : s.map.swatches.get {} k = w := by
  rw [h]
  exact if_pos rfl

/-- SWATCH_EXPORT of a swatch that the ring pair is exporting takes its next step (R260). -/
theorem swatchExport_works (hon : s.on = true) (hw : s.working r 0x52 a) (hk : dW a.words 2 = k) (hsw : s.map.swatches = [(k, w)])
    (hst : w.st = .exporting) (hring : w.ring = r) : Yields (.swatchExport r) s (s.hush.swatchExport r k) := by
  obtain ⟨hact, hop, hstat, hheld, hturn⟩ := hw
  have hact' : (s.hush.ring r).act = some a := hact
  have hget : s.hush.map.swatches.get {} k = w := onlySwatch_get (s := s) hsw
  refine yields_of hon (show exec _ s = execSwatchExport r s from rfl) ?_
  unfold State.workSwatchExport
  rw [runs_of (sub := none) hact hop hstat hheld hturn rfl, when_true]
  simp only [hact', hk, hget, hst, hring, decide_true, Bool.and_self, Bool.or_true, if_true]

/-- The map of a swatch without saved entries is its root page (R258, R290). -/
theorem writeSwatchMap_nil (s : State) (k : Nat) : s.writeSwatchMap k (distinct []) = s.appendMap (some k) 3 0 := by
  have hnone : distinct [] = [] := by simp [distinct]
  unfold State.writeSwatchMap
  simp only [hnone, List.map_nil, List.foldl_nil, List.foldl_cons]

section
variable (hact : (s.ring r).act = some a) (hsw : s.map.swatches = [(k, w)]) (hst : w.st = .exporting) (hsaved : w.saved = [])
  (hpages : s.map.pages = [])
include hact hsw hst hsaved hpages

/-- Exporting a swatch with nothing left in DRAM writes its map (R260). -/
theorem swatchExport_writesMap (hreads : a.reads = false) :
    s.swatchExport r k = (s.appendMap (some k) 3 0).modAct r fun a => { a with reads := true } := by
  have hlive : s.exportPages w = [] := by
    unfold State.exportPages
    rw [hpages]
    rfl
  unfold State.swatchExport
  simp only [onlySwatch_get hsw, hst, copies_nil hsw hsaved, hlive, hact, hreads, hsaved, reduceCtorEq, if_false, List.isEmpty_nil, Bool.and_self,
    Bool.not_true, Bool.not_false, Bool.false_eq_true, if_true, List.map_nil, writeSwatchMap_nil]

/-- A swatch whose map is confirmed ends EXPORTED (R260). -/
theorem swatchExport_ends (hreads : a.reads = true) (hmap : (s.unconfirmed fun x => decide (x = .map)) = false) :
    s.swatchExport r k = (s.modSwatch k fun w => { w with st := .exported }).endDescriptor r 0x00 id := by
  have hlive : s.exportPages w = [] := by
    unfold State.exportPages
    rw [hpages]
    rfl
  unfold State.swatchExport
  simp only [onlySwatch_get hsw, hst, copies_nil hsw hsaved, hlive, hact, hreads, hmap, reduceCtorEq, if_false, List.isEmpty_nil, Bool.and_self,
    Bool.not_true, Bool.false_eq_true]

end

/-! ### The drop -/

/-- The drop of a swatch with no older one of its region (R261). -/
theorem dropOne_oldest (h : ∀ e ∈ s.map.swatches, ¬ e.2.order < (s.map.swatches.get {} k).order) : s.dropOne k = s.dropSwatch k := by
  have hnone : (((s.swatchesOf (s.map.swatches.get {} k).region).filter fun e =>
      decide (e.2.order < (s.map.swatches.get {} k).order) && e.2.st ≠ .dropping).getLast?) = none := by
    rw [List.getLast?_eq_none_iff, List.filter_eq_nil_iff]
    intro e he hold
    have hmem : e ∈ s.map.swatches := (List.mem_filter.mp ((List.mergeSort_perm _ _).mem_iff.mp he)).1
    exact h e hmem (of_decide_eq_true (Bool.and_eq_true_iff.mp hold).1)
  unfold State.dropOne
  simp only [hnone]

/-- SWATCH_DROP of the only swatch, which is LIVE (R261). -/
theorem swatchDrop_yields (hon : s.on = true) (hw : s.working r 0x51 a) (hk : dW a.words 2 = k) (hsw : s.map.swatches = [(k, w)])
    (hst : w.st = .live) :
    Yields (.swatchDrop r) s (((s.hush.modSwatch k fun w => { w with st := .dropping }).dropSwatch k).endDescriptor r 0x00 id) := by
  obtain ⟨hact, hop, hstat, hheld, hturn⟩ := hw
  have hact' : (s.hush.ring r).act = some a := hact
  have hget : s.hush.map.swatches.get {} k = w := onlySwatch_get (s := s) hsw
  have hne : ({ w with st := .dropping } : Swatch) ≠ {} := fun h => SwState.noConfusion (congrArg Swatch.st h)
  have hset : (s.hush.modSwatch k fun w => { w with st := .dropping }).map.swatches = [(k, { w with st := .dropping })] := by
    show s.map.swatches.set {} k { s.map.swatches.get {} k with st := .dropping } = _
    rw [onlySwatch_get hsw, hsw]
    unfold Tbl.set Tbl.keep
    rw [if_neg (Nat.lt_irrefl k), if_pos rfl, if_neg hne]
  have hdrop : (s.hush.modSwatch k fun w => { w with st := .dropping }).dropOne k
      = (s.hush.modSwatch k fun w => { w with st := .dropping }).dropSwatch k := dropOne_oldest fun e he => by
    rw [onlySwatch_get hset]
    rw [hset, List.mem_singleton] at he
    rw [he]
    exact Nat.lt_irrefl _
  refine yields_of hon (show exec _ s = execSwatchDrop r s from rfl) ?_
  unfold State.workSwatchDrop
  rw [runs_of (sub := none) hact hop hstat hheld hturn rfl, when_true]
  simp only [hact', hk, hget, hst, hdrop, reduceCtorEq, if_false]

end

/-! ### The generation sweep -/

/-- The entry that the sweep of a region in generation g leaves of a page's entry (R263). -/
def swept (g : Nat) (p : PageEntry) : PageEntry := if p.gen = g then p else { p with gen := (g + 65535) % 65536 }

/-- The sweep of one page. -/
def sweepPage (g : Nat) (s : State) (pn : Nat) : State :=
  if (s.page pn).gen = g then s else (s.modPage pn fun p => { p with gen := (g + 65535) % 65536 }).deltaPage pn

/-- The pages that the sweep of a region visits: those of its loaded units (R222, R263). -/
def sweepList (s : State) (k : Nat) : List Nat :=
  (s.map.units.keysWhere fun u d => (decide ((s.region k).base ≤ u) && decide (u < (s.region k).base + (s.region k).size))
    && decide (d.dstate = .loaded)).flatMap fun u => (List.range 512).map fun i => u * 512 + i

section
variable {s : State} {g k pn : Nat}

/-- A second visit leaves the entry as the first did. -/
theorem swept_twice (g : Nat) (p : PageEntry) : swept g (swept g p) = swept g p := by
  unfold swept
  by_cases h : p.gen = g
  · rw [if_pos h, if_pos h]
  · rw [if_neg h]
    split <;> rfl

/-- The sweep of a page changes its entry, and sends a delta where that changed (R263, R287). -/
theorem sweepPage_eq (g pn : Nat) (hwf : s.map.pages.wf {} = true) : ∃ b, ∃ ps : Tbl PageEntry,
    sweepPage g s pn = { s with beam := b, map := { s.map with pages := ps } } ∧ ps.wf {} = true
      ∧ ∀ q, ps.get {} q = if q = pn then swept g (s.page q) else s.page q := by
  unfold sweepPage
  by_cases h : (s.page pn).gen = g
  · refine ⟨s.beam, s.map.pages, if_pos h, hwf, fun q => ?_⟩
    split
    case isTrue hq => rw [swept, hq, if_pos h]; rfl
    case isFalse => rfl
  · refine ⟨_, _, if_neg h, Tbl.wf_set _ _ _ hwf, fun q => ?_⟩
    split
    case isTrue hq => rw [swept, hq, if_neg h]; exact Tbl.get_set_eq _ _ _ hwf
    case isFalse hq => exact Tbl.get_set_ne _ _ hq hwf

/-- The sweep of a list of pages. -/
theorem sweepPages_fold (g : Nat) : ∀ (l : List Nat) (s : State), s.map.pages.wf {} = true → ∃ b, ∃ ps : Tbl PageEntry,
    l.foldl (sweepPage g) s = { s with beam := b, map := { s.map with pages := ps } }
      ∧ ∀ q, ps.get {} q = if q ∈ l then swept g (s.page q) else s.page q
  | [], s, _ => ⟨s.beam, s.map.pages, rfl, fun _ => rfl⟩
  | pn :: l, s, hwf => by
    obtain ⟨b, ps, heq, hwf', hget⟩ := sweepPage_eq g pn hwf
    obtain ⟨b', ps', heq', hget'⟩ := sweepPages_fold g l { s with beam := b, map := { s.map with pages := ps } } hwf'
    refine ⟨b', ps', by rw [List.foldl_cons, heq, heq'], fun q => ?_⟩
    have hq : State.page { s with beam := b, map := { s.map with pages := ps } } q = if q = pn then swept g (s.page q) else s.page q := hget q
    rw [hget', hq]
    by_cases hpn : q = pn
    · rw [if_pos hpn, swept_twice, ite_self, if_pos (List.mem_cons.mpr (.inl hpn))]
    · rw [if_neg hpn]
      exact if_congr (List.mem_cons.trans (or_iff_right hpn)).symm rfl rfl

/-- A page of a loaded unit of the region is visited. -/
theorem mem_sweepList (hlow : (s.region k).base * 512 ≤ pn) (hhigh : pn < ((s.region k).base + (s.region k).size) * 512)
    (hunit : (s.unit (pn / 512)).dstate = .loaded) : pn ∈ sweepList s k := by
  have hne : s.map.units.get {} (pn / 512) ≠ {} := fun h => by
    rw [State.unit, h] at hunit
    cases hunit
  refine List.mem_flatMap.mpr ⟨pn / 512, ?_, List.mem_map.mpr ⟨pn % 512, List.mem_range.mpr (Nat.mod_lt _ (by decide)), by omega⟩⟩
  refine List.mem_map.mpr ⟨_, List.mem_filter.mpr ⟨Tbl.get_mem {} (pn / 512) s.map.units hne, ?_⟩, rfl⟩
  simp only [Bool.and_eq_true, decide_eq_true_eq]
  exact ⟨⟨by omega, by omega⟩, hunit⟩

/-- A page that is visited lies in the region. -/
theorem sweepList_range (h : pn ∈ sweepList s k) :
    (s.region k).base * 512 ≤ pn ∧ pn < ((s.region k).base + (s.region k).size) * 512 := by
  obtain ⟨u, hu, hpn⟩ := List.mem_flatMap.mp h
  obtain ⟨i, hi, rfl⟩ := List.mem_map.mp hpn
  obtain ⟨e, he, rfl⟩ := List.mem_map.mp hu
  have hin := (List.mem_filter.mp he).2
  simp only [Bool.and_eq_true, decide_eq_true_eq] at hin
  obtain ⟨⟨hlow, hhigh⟩, _⟩ := hin
  have := List.mem_range.mp hi
  omega

/-- GEN_SWEEP of a region none of whose units is still to be loaded (R263). -/
theorem genSweep_yields (hon : s.on = true) (hsweep : (s.gen k).sweep = true)
    (hloaded : ∀ e ∈ s.map.units, (s.region k).base ≤ e.1 → e.1 < (s.region k).base + (s.region k).size → e.2.dstate ≠ .unloaded)
    {t : State}
    (ht : t = (sweepList s k).foldl (sweepPage (s.gen k).gen) s.hush) :
    Yields (.genSweep k) s { t with map := { t.map with gens := t.map.gens.set {} k { t.gen k with sweep := false } } } := by
  refine yields_of hon (show exec _ s = execGenSweep k s from rfl) ?_
  have hgo : ((s.hush.gen k).sweep && ! s.map.units.any fun e =>
      (decide ((s.region k).base ≤ e.1) && decide (e.1 < (s.region k).base + (s.region k).size))
        && decide (e.2.dstate = .unloaded)) = true := by
    refine Bool.and_eq_true_iff.mpr ⟨hsweep, Bool.not_eq_true' _ ▸ List.any_eq_false.mpr fun e he h => ?_⟩
    simp only [Bool.and_eq_true, decide_eq_true_eq] at h
    obtain ⟨⟨hlow, hhigh⟩, hcold⟩ := h
    exact hloaded e he hlow hhigh hcold
  rw [ht]
  exact if_pos hgo

end

/-- Settles O23: the take and its refusals, the cut, exporting, the drop, the generation sweep. -/
theorem swatchesAreTakenAndDropped : Obligations.SwatchesAreTakenAndDropped := by
  unfold Obligations.SwatchesAreTakenAndDropped
  intro s r k i tile a w hon
  refine ⟨fun hw hst hsweep hhold hslot hnum =>
      ⟨_, rfl, swatchTake_works hon hw hst (swatchTake_holds (s := s.hush) hsweep hhold hslot hnum rfl)⟩,
    fun hw hst hsweep => swatchTake_works hon hw hst (swatchTake_sweeping (s := s.hush) hsweep),
    fun hw hst hsweep hslot => swatchTake_works hon hw hst (swatchTake_full (s := s.hush) hsweep hslot),
    fun hslot hst hasked hstop hlast hwb hheld => holdAnswer_cuts hon hslot hst hasked hstop hlast hwb hheld,
    fun hw hk hsw hst hring hsaved hpages => ⟨fun hreads => ?writes, fun hreads hmap => ?ends⟩,
    fun hw hk hsw hst => swatchDrop_yields hon hw hk hsw hst, fun hsweep hwf hloaded => ?sweeps⟩
  case writes =>
    have hy := swatchExport_works hon hw hk hsw hst hring
    rwa [swatchExport_writesMap (s := s.hush) hw.1 hsw hst hsaved hpages hreads] at hy
  case ends =>
    have hy := swatchExport_works hon hw hk hsw hst hring
    rwa [swatchExport_ends (s := s.hush) hw.1 hsw hst hsaved hpages hreads hmap] at hy
  case sweeps =>
    obtain ⟨b, ps, heq, hget⟩ := sweepPages_fold (s.gen k).gen (sweepList s k) s.hush hwf
    refine ⟨_, genSweep_yields hon hsweep hloaded heq.symm, fun pn hlow hhigh hunit hold => ?_, fun pn hout => ?_, rfl, rfl⟩
    · refine (hget pn).trans ?_
      rw [if_pos (mem_sweepList hlow hhigh hunit), swept]
      exact if_neg hold
    · refine (hget pn).trans ?_
      split
      case isFalse => rfl
      case isTrue hmem =>
        have hin := sweepList_range hmem
        rw [swept]
        refine if_pos ?_
        obtain hlow | hhigh | hgen := hout
        · exact absurd hin.1 (Nat.not_le.mpr hlow)
        · exact absurd hin.2 (Nat.not_lt.mpr hhigh)
        · exact hgen

end Sys2Proof.Proofs.Swatches
end

