-- ==== Sys2Proof/Proofs/Stripes.lean ====
section
/-! PROOF. Records on their way to the drives (R268, R273, R276, R277, R287, R288): the write of a stripe, the confirmation of its units,
DELTA records, and obligation O39. -/
namespace Sys2Proof.Proofs.Stripes
open Sys2Proof Sys2Proof.Machine Sys2Proof.Laws Sys2Proof.Laws.Appends

/-! ### Slots of a mask -/

section
variable {n : Nat} (m : BitVec n)

theorem mem_bitsOf {i : Nat} : i ∈ bitsOf m ↔ i < n ∧ m.getLsbD i = true := by
  simp [bitsOf]

theorem bitsOf_nodup : (bitsOf m).Nodup := List.nodup_range.filter _

/-- Bit j of a mask in which bit i is cleared. -/
theorem getLsbD_putBit_false {i j : Nat} (hj : j < n) : (putBit m i false).getLsbD j = (m.getLsbD j && ! decide (j = i)) := by
  unfold putBit
  rw [if_neg Bool.false_ne_true, BitVec.getLsbD_and, BitVec.getLsbD_not, decide_eq_true hj, Bool.true_and]
  by_cases h : j = i
  · rw [← h, bit_eq hj, decide_eq_true rfl]
  · rw [bit_ne hj (Ne.symm h), decide_eq_false h]

/-- A mask whose bits of a list are cleared, one after the other. -/
def clearBits (l : List Nat) : BitVec n := l.foldl (fun b i => putBit b i false) m

theorem getLsbD_clearBits {j : Nat} (hj : j < n) (l : List Nat) : (clearBits m l).getLsbD j = (m.getLsbD j && ! decide (j ∈ l)) := by
  induction l generalizing m with
  | nil => simp [clearBits]
  | cons i l ih =>
    rw [show clearBits m (i :: l) = clearBits (putBit m i false) l from rfl, ih, getLsbD_putBit_false m hj]
    simp only [List.mem_cons, Bool.decide_or, Bool.not_or, Bool.and_assoc]

/-- Clearing every bit of a mask leaves none. -/
theorem clearBits_bitsOf : clearBits m (bitsOf m) = 0 := by
  refine BitVec.eq_of_getLsbD_eq fun j hj => ?_
  rw [getLsbD_clearBits m hj, BitVec.ofNat_eq_ofNat, BitVec.getLsbD_zero]
  cases h : m.getLsbD j
  · rfl
  · rw [decide_eq_true ((mem_bitsOf m).mpr ⟨hj, h⟩)]
    rfl

end

/-! ### The write of a stripe -/

section
variable {s : State} {k : Nat} {b : StripeBuf}

/-- A segment after one more of its stripes is used (R272). -/
def stripeUsed (g : Seg) : Seg := { g with next := g.next + 1, st := if g.next + 1 = 256 then .full else g.st }

/-- The stripe of a buffer is to be written: the Write of every slot of v waits for its queue. -/
def stripeAsked (s : State) (k : Nat) (b : StripeBuf) (v : BitVec 8) : State :=
  let s1 := (s.count (evBeam k) b.recs.length).modSeg b.seg stripeUsed
  { s1 with beam := { s1.beam with
    bufs := s1.beam.bufs.set none k none
    outs := s1.beam.outs ++ [⟨b.stripe, v, false, b.recs, streamPrio k, s1.clock, v⟩] } }

/-- Writing a stripe asks for its Writes, and the queues of their slots take what they have room for (R268, R273). -/
theorem writeStripe_eq (hb : s.beam.bufs.get none k = some b) {v : BitVec 8} (hv : v = s.slotsUp &&& ~~~ (s.seg b.seg).holes) :
    s.writeStripe k = (bitsOf v).foldl (fun (s : State) i => s.submit i) (stripeAsked s k b v) := by
  subst hv
  unfold State.writeStripe
  rw [hb]
  rfl

/-- What the queues take leaves the log. -/
theorem submits_sent (l : List Nat) (t : State) : Sent t (l.foldl (fun (s : State) i => s.submit i) t) :=
  sent_fold _ (fun s i => submit_sent s i) l t

theorem writeStripe_seg (hb : s.beam.bufs.get none k = some b) : (s.writeStripe k).seg b.seg = stripeUsed (s.seg b.seg) := by
  obtain ⟨_, _, _, _, _, _, hsent⟩ := submits_sent (bitsOf (s.slotsUp &&& ~~~ (s.seg b.seg).holes)) (stripeAsked s k b _)
  have hne : stripeUsed (s.seg b.seg) ≠ {} := fun h => by
    have hnext : (s.seg b.seg).next + 1 = 0 := congrArg Seg.next h
    exact Nat.succ_ne_zero _ hnext
  rw [writeStripe_eq hb rfl, hsent]
  exact Tbl.get_set_self ({} : Seg) _ b.seg hne _

/-- Where no command waits or is out, every Write of the stripe goes to its drive at once. -/
theorem writeStripe_atOnce (hb : s.beam.bufs.get none k = some b) {v : BitVec 8} (hv : v = s.slotsUp &&& ~~~ (s.seg b.seg).holes)
    (hr : s.beam.reads = []) (ho : s.beam.outs = []) :
    (∀ i ∈ bitsOf v, .beamUnit b.stripe i ∈ (s.writeStripe k).out)
      ∧ (s.writeStripe k).beam.outs = [⟨b.stripe, v, false, b.recs, streamPrio k, s.clock, 0⟩] := by
  have houts : (stripeAsked s k b v).beam.outs = [⟨b.stripe, v, false, b.recs, streamPrio k, s.clock, v⟩] := by
    rw [show (stripeAsked s k b v).beam.outs = s.beam.outs ++ _ from rfl, ho]
    rfl
  obtain ⟨t, q, ht, hout, hq, hbeam⟩ := submit_each b.stripe (bitsOf v) (stripeAsked s k b v) _ (bitsOf_nodup v)
    (fun i hi => (mem_bitsOf v).mp hi) hr houts rfl
  rw [writeStripe_eq hb hv, ← ht]
  refine ⟨fun i hi => ?_, ?_⟩
  · rw [hout]
    exact List.mem_append_right _ (hq i hi)
  · rw [hbeam]
    exact congrArg (fun h => [(⟨b.stripe, v, false, b.recs, streamPrio k, s.clock, h⟩ : StripeOut)]) (clearBits_bitsOf v)

/-- Writing a stripe empties its buffer, and changes its segment and the commands of the drives (R276). -/
theorem writeStripe_frame (hb : s.beam.bufs.get none k = some b) : ∃ pc pw au o sg ou rd, s.writeStripe k = { s with
    out := o, pmc := pc, pwr := pw, near := { s.near with autoOff := au }
    beam := { s.beam with segs := sg, bufs := s.beam.bufs.set none k none, outs := ou, reads := rd } } := by
  obtain ⟨_, _, _, _, _, _, hsent⟩ := submits_sent (bitsOf (s.slotsUp &&& ~~~ (s.seg b.seg).holes)) (stripeAsked s k b _)
  rw [writeStripe_eq hb rfl, hsent]
  exact ⟨_, _, _, _, _, _, _, rfl⟩

/-- STRIPE_WRITE of a stripe whose first record is 10 us old writes it (R276). -/
theorem stripeWrite_yields (hon : s.on = true) (hup : s.beamUp = true) (hb : s.beam.bufs.get none k = some b) (hne : b.recs ≠ [])
    (hdue : b.since + 20000 ≤ s.clock) : Yields (.stripeWrite k true) s (s.hush.writeStripe k) := by
  refine yields_of hon (show exec _ s = execStripeWrite k true s from rfl) ?_
  have hrecs : b.recs.isEmpty = false := List.isEmpty_eq_false_iff.mpr hne
  simp only [hush_beam, hb, show s.hush.beamUp = true from hup, hrecs, Bool.not_false, Bool.and_self, when_true, elapse_done (s := s.hush) hdue]

end

/-! ### The confirmation of a stripe's units -/

section
variable {s : State} {k i : Nat} {o : StripeOut}

/-- The Write of slot i of a stripe's units has completed. -/
def unitDone (s : State) (k i : Nat) (o : StripeOut) : State :=
  { s with beam := { s.beam with outs := s.beam.outs.map fun x => if x.stripe = k then { o with waits := putBit o.waits i false } else x } }

/-- UNIT_WRITE_COMPLETE without an error: with the last Write the stripe is done, and the drive takes its next command (R277). -/
theorem unitWriteComplete_yields (hon : s.on = true)
    (hfind : s.beam.outs.find? (fun o => decide (o.stripe = k) && o.waits.getLsbD i && ! o.held.getLsbD i) = some o)
    (hawake : s.inPowerState (48 + i) = false) :
    Yields (.unitWriteComplete k i true) s ((if putBit o.waits i false = 0 then
      (unitDone s.hush k i o).stripeDone { o with waits := putBit o.waits i false } else unitDone s.hush k i o).submit i) := by
  refine yields_of hon (show exec _ s = execUnitWriteComplete k i true s from rfl) ?_
  have hfind' : s.hush.beam.outs.find? (fun o => decide (o.stripe = k) && o.waits.getLsbD i && ! o.held.getLsbD i) = some o := hfind
  simp only [hfind', show s.hush.inPowerState (48 + i) = false from hawake, Bool.not_false, when_true, Bool.not_true, Bool.or_false, if_true]
  rfl

/-- Confirming a record that nothing waits for marks it confirmed. -/
theorem confirmRecord_plain {a : Nat} {r : BeamRec} (hr : s.beam.recs.get none a = some r) (hp : r.purpose = .none) :
    s.confirmRecord a = { s with beam := { s.beam with recs := s.beam.recs.set none a (some { r with confirmed := true }) } } := by
  unfold State.confirmRecord
  simp only [hr, hp]

/-- The end of the only stripe that is out, which holds one record that nothing waits for (R277). -/
theorem stripeDone_single {a : Nat} {r : BeamRec} (hf : o.failed = false) (ho : s.beam.outs = [o]) (ha : o.recs = [a])
    (hr : s.beam.recs.get none a = some r) (hp : r.purpose = .none) :
    (unitDone s o.stripe i o).stripeDone { o with waits := putBit o.waits i false }
      = { s with beam := { s.beam with outs := [], recs := s.beam.recs.set none a (some { r with confirmed := true }) } } := by
  unfold State.stripeDone unitDone
  simp only [hf, ho, ha, List.map_cons, List.map_nil, if_true, List.filter_cons, ne_eq, not_true, decide_false, List.filter_nil,
    Bool.false_eq_true, if_false, List.foldl_cons, List.foldl_nil]
  exact confirmRecord_plain (s := { s with beam := { s.beam with outs := [] } }) hr hp

end

/-! ### DELTA records -/

/-- The DELTA record of the oldest delta entries, at most 256 (R287). -/
def deltaRec (ds : List Delta) : BeamRec :=
  { kind := .delta, page := (ds.take 256).length, sectors := ((ds.take 256).length + 31) / 32, deltas := ds.take 256, stream := 4, seq := 0 }

/-- Once its record is appended, the entries are no longer to be written (R288). -/
theorem writeDelta_eq {s t : State} {a : Nat} (hne : s.beam.deltas ≠ []) (happ : s.append 4 (deltaRec s.beam.deltas) = some (a, t)) :
    s.writeDelta = { t with beam := { t.beam with deltas := t.beam.deltas.drop 256, deltaAt := t.beam.deltaAt.drop 256 } } := by
  have htake : (s.beam.deltas.take 256).isEmpty = false := by
    rw [List.isEmpty_eq_false_iff, ne_eq, List.take_eq_nil_iff]
    simp [hne]
  unfold deltaRec at happ
  unfold State.writeDelta
  simp only [htake, Bool.false_eq_true, if_false, happ]

/-- DELTA_RECORD_WRITE at 256 entries, or 1 ms after the oldest (R288). -/
theorem deltaRecordWrite_yields {s : State} (hon : s.on = true) (hne : s.beam.deltas ≠ [])
    (hdue : 256 ≤ s.beam.deltas.length ∨ s.beam.deltaAt.headD s.clock + 2000000 ≤ s.clock) :
    Yields (.deltaRecordWrite true) s s.hush.writeDelta := by
  refine yields_of hon (show exec _ s = execDeltaRecordWrite true s from rfl) ?_
  by_cases hfull : 256 ≤ s.hush.beam.deltas.length
  · exact if_pos hfull
  · have hgo : (true && ! s.hush.beam.deltas.isEmpty) = true := by
      rw [hush_beam, List.isEmpty_eq_false_iff.mpr hne]
      rfl
    have hold : s.hush.elapse (s.hush.beam.deltaAt.headD s.hush.clock + 2000000) = s.hush := elapse_done (hdue.resolve_left hfull)
    rw [if_neg hfull, hgo, when_true, hold]

/-- Settles O39: the stripe, the unit's Write that leaves others awaited, the last one, the DELTA record. -/
theorem recordsAreWrittenAndConfirmed : Obligations.RecordsAreWrittenAndConfirmed := by
  unfold Obligations.RecordsAreWrittenAndConfirmed
  intro s hon
  refine ⟨fun k b v hup hb hne hdue hv => ?stripe, fun k i o hfind hawake => ⟨fun hmore => ?unit, fun a r hlast hf ho ha hr hp => ?last⟩,
    fun r a t hne hdue hr happ => ?delta⟩
  case stripe =>
    obtain ⟨_, _, _, _, _, _, _, hframe⟩ := writeStripe_frame (s := s.hush) hb
    refine ⟨_, stripeWrite_yields hon hup hb hne hdue, writeStripe_seg (s := s.hush) hb,
      writeStripe_atOnce (s := s.hush) hb hv, ?_⟩
    rw [hframe]
    rfl
  case unit =>
    have hy := unitWriteComplete_yields hon hfind hawake
    rwa [if_neg hmore] at hy
  case last =>
    have hk : o.stripe = k := by
      have := List.find?_some hfind
      simp only [Bool.and_eq_true, decide_eq_true_eq] at this
      exact this.1.1
    have hy := unitWriteComplete_yields hon hfind hawake
    subst hk
    rwa [if_pos hlast, stripeDone_single (s := s.hush) hf ho ha hr hp] at hy
  case delta =>
    have hy := deltaRecordWrite_yields hon hne hdue
    rwa [writeDelta_eq (s := s.hush) hne (hr ▸ happ)] at hy

end Sys2Proof.Proofs.Stripes
end

