-- ==== Sys2Proof/Proofs/Commits.lean ====
section
/-! PROOF. Checkpoints (R289, R290), commit records of a checkpoint, of a level-3 seal and of a flush (R15, R291, R318, R353), garbage
collection of segments (R294 to R296), and obligation O40. -/
namespace Sys2Proof.Proofs.Commits
open Sys2Proof Sys2Proof.Machine Sys2Proof.Laws Sys2Proof.Laws.Appends Sys2Proof.Proofs.Stripes

/-! ### Checkpoints -/

section
variable (s : State)

/-- What closing a stream leaves: all but its segment, its stripe and the commands of the drives. No segment is opened. -/
theorem closeStream_frame (k : Nat) : ∃ pc pw au o sg bf ou rd, s.closeStream k = { s with
    out := o, pmc := pc, pwr := pw, near := { s.near with autoOff := au }
    beam := { s.beam with segs := sg, bufs := bf, outs := ou, reads := rd } } := by
  have hwrite : ∃ pc pw au o sg bf ou rd, s.writeStripe k = { s with
      out := o, pmc := pc, pwr := pw, near := { s.near with autoOff := au }
      beam := { s.beam with segs := sg, bufs := bf, outs := ou, reads := rd } } := by
    cases hb : s.beam.bufs.get none k with
    | some b =>
      obtain ⟨pc, pw, au, o, sg, ou, rd, h⟩ := writeStripe_frame hb
      exact ⟨pc, pw, au, o, sg, _, ou, rd, h⟩
    | none =>
      unfold State.writeStripe
      rw [hb]
      exact ⟨s.pmc, s.pwr, s.near.autoOff, s.out, s.beam.segs, s.beam.bufs, s.beam.outs, s.beam.reads, rfl⟩
  obtain ⟨pc, pw, au, o, sg, bf, ou, rd, h⟩ := hwrite
  unfold State.closeStream
  dsimp only
  rw [h]
  split
  · exact ⟨pc, pw, au, o, _, bf, ou, rd, rfl⟩
  · exact ⟨pc, pw, au, o, sg, bf, ou, rd, rfl⟩

/-- A checkpoint takes the map and the warm list of its moment and the DELTA segments opened so far, and appends records (R289). -/
theorem startCheckpoint_frame : ∃ pc pw au o rd ou sg bf rc sn dl, s.startCheckpoint = { s with
    out := o, pmc := pc, pwr := pw, near := { s.near with autoOff := au }
    beam := { s.beam with
      ckpt := true, ckptBase := s.pmapNow, ckptSegs := s.beam.deltaSegs, warm := s.warmList
      reads := rd, outs := ou, segs := sg, bufs := bf, recs := rc, seqNext := sn, deltaSegs := dl } } := by
  obtain ⟨t, t2, ht, ht2, t3, hstart, hlog⟩ := checkpoint_logged s
  obtain ⟨_, _, _, _, _, _, _, _, hclose⟩ := closeStream_frame s 4
  obtain ⟨_, _, _, _, _, _, _, _, _, _, _, hlog⟩ := hlog
  rw [hstart, hlog, ht2, ht, hclose]
  exact ⟨_, _, _, _, _, _, _, _, _, _, _, rfl⟩

end

/-- CHECKPOINT once CP_META DELTA segments have been opened since the last one began (R289). -/
theorem checkpoint_yields {s : State} (hon : s.on = true) (hid : s.beam.setId ≠ 0) (hup : s.beamUp = true) (hst : s.glb.steward = true)
    (hno : s.beam.ckpt = false) (hstop : s.vlt.stopped = false) (hmeta : s.cpMeta ≤ s.beam.deltaSegs.length) :
    Yields .checkpoint s s.hush.startCheckpoint := by
  refine yields_of hon (show exec _ s = execCheckpoint s from rfl) ?_
  have hgo : (s.hush.glb.steward && decide (s.hush.beam.setId ≠ 0) && s.hush.beamUp && ! s.hush.beam.ckpt && ! s.hush.vlt.stopped
      && decide (s.hush.cpMeta ≤ s.hush.beam.deltaSegs.length)) = true := by
    rw [hush_glb, hush_beam, hush_vlt, show s.hush.beamUp = true from hup, show s.hush.cpMeta = s.cpMeta from rfl, hst, hno, hstop,
      decide_eq_true hid, decide_eq_true hmeta]
    rfl
  rw [hgo, when_true]

/-! ### Commit records -/

section
variable {s : State} {c : Commit}

/-- A commit record's copies go to its slots, and each takes the next place of its ring (R270, R291). -/
theorem writeCommit_eq (s : State) (c : Commit) : ∃ sl, s.writeCommit c = { s with
    out := s.out ++ (s.commitSlots c.cseq).map (fun i => Output.nvme i 0x01), beam := { s.beam with slots := sl } } := by
  unfold State.writeCommit
  generalize s.commitSlots c.cseq = l
  induction l generalizing s with
  | nil => exact ⟨s.beam.slots, by simp⟩
  | cons i l ih =>
    obtain ⟨sl, h⟩ := ih ((s.modSlot i fun x => { x with ring := (x.ring + 1) % 8 }).emit (.nvme i 0x01))
    refine ⟨sl, ?_⟩
    rw [List.foldl_cons, h, List.map_cons, ← List.singleton_append, ← List.append_assoc]
    rfl

/-- A commit record is in force, in boot flash too, and the seals that waited for it are still to be looked at (R291). -/
def enteredForce (s : State) (c : Commit) : State :=
  { (s.count (evBeam 9) 1) with
    beam := { s.beam with commit := some c, commitOut := none, cseq := max s.beam.cseq c.cseq }
    boot := { s.boot.keep 2 with commit := some c }
    sec := { s.sec with cmd := s.sec.cmd.map fun k => if c.erased = some k.slot then { k with committed := true } else k } }

theorem inForce_eq (s : State) (c : Commit) : s.inForce c = (enteredForce s c).checkSeals := rfl

/-- Without a custody command and without a seal, nothing follows from the record. -/
theorem inForce_quiet (hcmd : s.sec.cmd = none) (hseals : s.rng.seals = []) : s.inForce c = { s with
    pmc := (s.count (evBeam 9) 1).pmc, boot := { s.boot.keep 2 with commit := some c }
    beam := { s.beam with commit := some c, commitOut := none, cseq := max s.beam.cseq c.cseq } } := by
  refine ((inForce_eq s c).trans (checkSeals_nil (s := enteredForce s c) hseals)).trans ?_
  unfold enteredForce
  rw [hcmd, Option.map_none, ← hcmd]
  rfl

/-- The commit record that ends a checkpoint makes the checkpoint's pages the roots; with no checkpoint running the roots stay (R289). -/
theorem ckptInForce_eq (hk : c.kind = .checkpoint) : ∃ ds cs, s.ckptInForce c = { s with beam := { s.beam with
    ckpt := false, base := if s.beam.ckpt = true then s.beam.ckptBase else s.beam.base, deltaSegs := ds, ckptSegs := cs } } := by
  unfold State.ckptInForce
  rw [hk]
  cases h : s.beam.ckpt
  · refine ⟨s.beam.deltaSegs, s.beam.ckptSegs, ?_⟩
    simp only [Bool.false_and, Bool.false_eq_true, if_false]
    rw [← h]
  · exact ⟨_, _, rfl⟩

/-- The commit record of a checkpoint goes to its slots and is in force, in boot flash too (R289, R291). -/
theorem checkpointForce_eq (hk : c.kind = .checkpoint) (hseq : c.cseq = s.beam.cseq + 1) (hcmd : s.sec.cmd = none)
    (hseals : s.rng.seals = []) : ∃ ds cs sl, ((s.ckptInForce c).writeCommit c).inForce c = { s with
      out := s.out ++ (s.commitSlots (s.beam.cseq + 1)).map (fun i => Output.nvme i 0x01)
      pmc := (s.count (evBeam 9) 1).pmc
      boot := { s.boot.keep 2 with commit := some c }
      beam := { s.beam with
        commit := some c, commitOut := none, cseq := s.beam.cseq + 1, ckpt := false
        base := if s.beam.ckpt = true then s.beam.ckptBase else s.beam.base, deltaSegs := ds, ckptSegs := cs, slots := sl } } := by
  obtain ⟨ds, cs, hckpt⟩ := ckptInForce_eq (s := s) hk
  obtain ⟨sl, hwrite⟩ := writeCommit_eq (s.ckptInForce c) c
  refine ⟨ds, cs, sl, (inForce_quiet ?_ ?_).trans ?_⟩
  · rw [hwrite, hckpt]
    exact hcmd
  · rw [hwrite, hckpt]
    exact hseals
  · rw [hwrite, hckpt, hseq]
    dsimp only
    rw [Nat.max_eq_right (Nat.le_succ _)]
    rfl

/-- COMMIT_RECORD_WRITE of a CHECKPOINT commit: r tells whether the steward's checkpoint can end, and c is the record (R289, R291). -/
theorem checkpointCommit_yields (hon : s.on = true) (hid : s.beam.setId ≠ 0) (hup : s.beamUp = true) (hstop : s.vlt.stopped = false)
    {r : Bool} (hr : s.ckptReady = r) (hgo : (r || s.sealWants) = true) (hc : c = s.commitNow .checkpoint (s.beam.ckpt && r) false 0) :
    Yields (.commitRecordWrite .checkpoint) s (((if r = true then s.hush.ckptInForce c else s.hush).writeCommit c).inForce c) := by
  refine yields_of hon (show exec _ s = execCommitRecordWrite .checkpoint s from rfl) ?_
  have hguard : (decide (s.hush.beam.setId ≠ 0) && s.hush.beamUp) = true := by
    rw [hush_beam, show s.hush.beamUp = true from hup, decide_eq_true hid]
    rfl
  have hwanted : (! s.hush.vlt.stopped && (s.hush.ckptReady || s.hush.sealWants)) = true := by
    rw [hush_vlt, hstop, show s.hush.ckptReady = r from hr]
    exact hgo
  rw [hguard, when_true]
  dsimp only
  rw [hwanted, when_true, show s.hush.ckptReady = r from hr, hc]
  rfl

/-- The steward's commit record, with all that it covers confirmed (R289 to R291). -/
theorem checkpointCommit_completes (hon : s.on = true) (hid : s.beam.setId ≠ 0) (hup : s.beamUp = true) (hst : s.glb.steward = true)
    (hc : c = s.commitNow .checkpoint s.beam.ckpt false 0) (hstop : s.vlt.stopped = false)
    (hconf : s.unconfirmed (fun k => decide (k = .map) || decide (k = .warm)) = false) (hcmd : s.sec.cmd = none) (hseals : s.rng.seals = []) :
    Completes (.commitRecordWrite .checkpoint) s fun u =>
      u.out = (s.commitSlots (s.beam.cseq + 1)).map (fun i => Output.nvme i 0x01)
      ∧ u.beam.commit = some c ∧ u.boot.commit = some c ∧ u.beam.cseq = s.beam.cseq + 1 ∧ u.beam.ckpt = false
      ∧ u.beam.base = (if s.beam.ckpt = true then s.beam.ckptBase else s.beam.base)
      ∧ u = { s with
        out := u.out, pmc := u.pmc, boot := { s.boot.keep 2 with commit := some c }
        beam := { s.beam with commit := some c, commitOut := none, cseq := s.beam.cseq + 1, ckpt := false, base := u.beam.base
                              deltaSegs := u.beam.deltaSegs, ckptSegs := u.beam.ckptSegs, slots := u.beam.slots } } := by
  have hready : s.ckptReady = true := by
    unfold State.ckptReady
    rw [hst, hconf]
    rfl
  have hy := checkpointCommit_yields (c := c) hon hid hup hstop hready (Bool.true_or _) (by rw [Bool.and_true]; exact hc)
  obtain ⟨ds, cs, sl, hforce⟩ := checkpointForce_eq (s := s.hush) (c := c) (by rw [hc]; rfl) (by rw [hc]; rfl) hcmd hseals
  rw [if_pos rfl, hforce] at hy
  exact ⟨_, hy, rfl, rfl, rfl, rfl, rfl, rfl, rfl⟩

/-- With the steward down a level-3 seal's commit record is written with the roots unchanged (R15, R318). -/
theorem sealCommit_completes (hon : s.on = true) (hid : s.beam.setId ≠ 0) (hup : s.beamUp = true) (hst : s.glb.steward = false)
    (hc : c = s.commitNow .checkpoint false false 0) (hstop : s.vlt.stopped = false) (hwants : s.sealWants = true) :
    Completes (.commitRecordWrite .checkpoint) s fun u => ∃ t : State, u = t.checkSeals
      ∧ t.out = (s.commitSlots (s.beam.cseq + 1)).map (fun i => Output.nvme i 0x01)
      ∧ t.beam.commit = some c ∧ t.boot.commit = some c ∧ t.beam.base = s.beam.base ∧ t.beam.ckpt = s.beam.ckpt ∧ t.rng = s.rng := by
  have hready : s.ckptReady = false := by
    unfold State.ckptReady
    rw [hst, Bool.false_and]
  have hy := checkpointCommit_yields (c := c) hon hid hup hstop hready hwants (by rw [Bool.and_false]; exact hc)
  have hcseq : c.cseq = s.beam.cseq + 1 := by rw [hc]; rfl
  obtain ⟨sl, hwrite⟩ := writeCommit_eq s.hush c
  rw [if_neg Bool.false_ne_true, hwrite] at hy
  refine ⟨_, hy, _, inForce_eq _ c, ?_, rfl, rfl, rfl, rfl, rfl⟩
  rw [← hcseq]
  rfl

/-- A flush's commit record has the next CSEQ, whatever was taken at admission stop (R353). -/
theorem flushCommit_cseq (s : State) (k : CommitKind) : (s.flushCommit k).cseq = s.beam.cseq + 1 := by
  unfold State.flushCommit
  dsimp only
  split <;> rfl

/-- The commit record of a flush goes to its slots and waits for them. -/
theorem putCommit_eq (s : State) (k : CommitKind) : ∃ sl, s.putCommit k = { s with
    out := s.out ++ (s.commitSlots (s.beam.cseq + 1)).map (fun i => Output.nvme i 0x01)
    beam := { s.beam with commitOut := some ⟨s.flushCommit k, (s.commitSlots (s.beam.cseq + 1)).length⟩, slots := sl } } := by
  obtain ⟨sl, h⟩ := writeCommit_eq s (s.flushCommit k)
  rw [flushCommit_cseq] at h
  refine ⟨sl, ?_⟩
  unfold State.putCommit
  rw [h]

/-- COMMIT_RECORD_WRITE in stage 3: FLUSH after a power loss, SHUTDOWN in an orderly shutdown (R353, R369). -/
theorem flushCommit_yields {k : CommitKind} (hon : s.on = true) (hid : s.beam.setId ≠ 0) (hup : s.beamUp = true) (hst : s.vlt.st = .s3)
    (hconf : s.flushConfirmed = true) (hout : s.beam.commitOut = none)
    (hk : k = .flush ∧ s.vlt.orderly = false ∨ k = .shutdown ∧ s.vlt.orderly = true) :
    Yields (.commitRecordWrite k) s (s.hush.putCommit k) := by
  refine yields_of hon (show exec _ s = execCommitRecordWrite k s from rfl) ?_
  have hguard : (decide (s.hush.beam.setId ≠ 0) && s.hush.beamUp) = true := by
    rw [hush_beam, show s.hush.beamUp = true from hup, decide_eq_true hid]
    rfl
  rw [hguard, when_true]
  obtain ⟨rfl, hord⟩ | ⟨rfl, hord⟩ := hk
  all_goals
    simp only [hush_vlt, hush_beam, hst, hord, show s.hush.flushConfirmed = true from hconf, hout, decide_true, Bool.not_false,
      Bool.and_self, Option.isNone_none, when_true]

end

/-! ### Garbage collection -/

section
variable {s : State}

/-- GC_RELOCATE reads a live record of the segment being emptied that is neither read nor copied yet, at P5 (R295). -/
theorem gcRelocate_yields {addr : Nat} {r : BeamRec} (hon : s.on = true) (hid : s.beam.setId ≠ 0) (hst : s.glb.steward = true)
    (hload : s.map.mapLoad = false) (hstop : s.vlt.stopped = false) (hsegs : s.beam.deltaSegs.length < 52) (hupd : s.hush.gcUpdate = s.hush)
    (hgc : s.beam.gc = true) (hseg : s.beam.gcSeg = some (segOf (beamStripe addr))) (hrec : s.beam.recs.get none addr = some r)
    (hlive : s.recLive addr r = true) (hreads : ∀ x ∈ s.beam.reads, x.addr = addr → x.gc = false)
    (hmoves : (s.beam.recs.any fun e => match e.2 with | some r => decide (r.purpose = .move addr) | none => false) = false) :
    Yields (.gcRelocate addr) s (s.hush.beamRead addr 5 true) := by
  refine yields_of hon (show exec _ s = execGcRelocate addr s from rfl) ?_
  have hgo : (s.hush.glb.steward && ! s.hush.map.mapLoad && ! s.hush.vlt.stopped && decide (s.hush.beam.setId ≠ 0)
      && decide (s.hush.beam.deltaSegs.length < 52)) = true := by
    rw [hush_glb, hush_map, hush_vlt, hush_beam, hst, hload, hstop, decide_eq_true hid, decide_eq_true hsegs]
    rfl
  have hread : (s.hush.beam.reads.any fun r => decide (r.addr = addr) && r.gc) = false := by
    rw [List.any_eq_false]
    intro x hx h
    rw [Bool.and_eq_true, decide_eq_true_eq] at h
    rw [hreads x hx h.1] at h
    exact Bool.noConfusion h.2
  rw [hgo, when_true]
  dsimp only
  rw [hupd, hread]
  simp only [hush_beam, hgc, hseg, hrec, show s.hush.recLive addr r = true from hlive, decide_true, Bool.and_self, Bool.true_and, Bool.not_false]
  exact congrArg (fun b => State.when s.hush (! b) fun s => s.beamRead addr 5 true) hmoves

/-- What updating the garbage collector changes. -/
theorem gcUpdate_frame (s : State) : ∃ on sg n, s.gcUpdate = { s with beam := { s.beam with gc := on, gcSeg := sg, gcChoices := n } } := by
  unfold State.gcUpdate
  dsimp only
  split
  · exact ⟨_, s.beam.gcSeg, s.beam.gcChoices, rfl⟩
  · split
    · exact ⟨_, _, _, rfl⟩
    · exact ⟨_, s.beam.gcSeg, s.beam.gcChoices, rfl⟩

/-- A segment whose records are gone, deallocated on every slot in service; the garbage collector is still to choose anew (R296). -/
def segmentFreed (s : State) (g : Nat) : State := { s with
  out := (bitsOf s.slotsUp).map fun i => Output.nvme i 0x09
  pmc := (s.count (evBeam 10) 1).pmc
  beam := { s.beam with
    segs := s.beam.segs.set {} g { st := .free, writes := (s.seg g).writes }
    recs := s.beam.recs.restrict fun a _ => segOf (beamStripe a) ≠ g
    gcSeg := if s.beam.gcSeg = some g then none else s.beam.gcSeg } }

/-- SEGMENT_FREE of a FULL segment without live records, once a commit record after its last relocation is in force (R296). -/
theorem segmentFree_yields {g : Nat} {c : Commit} (hon : s.on = true) (hst : s.glb.steward = true) (hfull : (s.seg g).st = .full)
    (hload : s.map.mapLoad = false) (hdiv : s.divHolds g = false) (hlive : s.liveIn g = [])
    (houts : (s.beam.outs.any fun o => segOf o.stripe = g) = false) (hc : s.beam.commit = some c) (hmoved : (s.seg g).moved ≤ c.cseq) :
    Yields (.segmentFree g) s (segmentFreed s g).gcUpdate := by
  refine yields_of hon (show exec _ s = execSegmentFree g s from rfl) ?_
  have hgo : (s.hush.glb.steward && decide ((s.hush.seg g).st = .full) && ! s.hush.map.mapLoad && ! s.hush.divHolds g
      && (s.hush.liveIn g).isEmpty && ! (s.hush.beam.outs.any fun o => segOf o.stripe = g)
      && (match s.hush.beam.commit with | some c => decide ((s.hush.seg g).moved ≤ c.cseq) | none => false)) = true := by
    rw [show s.hush.liveIn g = [] from hlive, show s.hush.divHolds g = false from hdiv, hush_seg, hush_glb, hush_map, hush_beam,
      hst, hfull, hload, houts, hc]
    exact decide_eq_true hmoved
  refine (congrArg (fun b => State.when s.hush b _) hgo).trans ?_
  rw [when_true]
  exact congrArg State.gcUpdate (emits (fun i => .nvme i 0x09) _ _)

end

/-- Settles O40: the checkpoint, the steward's commit record, the record read for relocation, the freed segment, the commit record of a
level-3 seal without the steward, the commit record of a flush. That a checkpoint writes a warm list (log 221), that COMMIT_RECORD_WRITE
is the write with its confirmations (log 220), and that boot flash takes its copy with the drives' (log 228) are the model's choices. -/
theorem commitsAndSegments : Obligations.CommitsAndSegments := by
  unfold Obligations.CommitsAndSegments
  intro s hon hid hup
  refine ⟨fun hst => ⟨fun hno hstop hmeta => ?checkpoint,
      fun c hc hstop hconf hcmd hseals => checkpointCommit_completes hon hid hup hst hc hstop hconf hcmd hseals,
      fun addr r hload hstop hsegs hupd hgc hseg hrec hlive hreads hmoves =>
        gcRelocate_yields hon hid hst hload hstop hsegs hupd hgc hseg hrec hlive hreads hmoves,
      fun g x c hx hfull hload hdiv hlive houts hc hmoved => ?free⟩,
    fun c hst hc hstop hwants => sealCommit_completes hon hid hup hst hc hstop hwants,
    fun hst hconf hout k c hc hk => ?flush⟩
  case checkpoint =>
    obtain ⟨_, _, _, _, _, _, _, _, _, _, _, hframe⟩ := startCheckpoint_frame s.hush
    refine ⟨_, checkpoint_yields hon hid hup hst hno hstop hmeta, ?_⟩
    rw [hframe]
    rfl
  case free =>
    subst hx
    obtain ⟨_, _, _, hgc⟩ := gcUpdate_frame (segmentFreed s g)
    refine ⟨_, segmentFree_yields hon hst hfull hload hdiv hlive houts hc hmoved, ?_⟩
    rw [hgc]
    exact ⟨rfl, rfl, rfl, rfl⟩
  case flush =>
    obtain ⟨sl, hput⟩ := putCommit_eq s.hush k
    refine ⟨_, flushCommit_yields hon hid hup hst hconf hout hk, ?_⟩
    rw [hput, hc]
    exact ⟨rfl, rfl⟩

end Sys2Proof.Proofs.Commits
end

