-- ==== Sys2Proof/Proofs/BeamReads.lean ====
section
/-! PROOF. Beam reads (R267, R295, R302 to R305): a record that passes its checks, one that fails or is out too long, hedging,
reconstruction, the avoidance of a slow slot, and obligation O41. -/
namespace Sys2Proof.Proofs.BeamReads
open Sys2Proof Sys2Proof.Machine Sys2Proof.Laws Sys2Proof.Laws.Drives

/-- Read r of the record at address a is the only one out; its command is with a drive in power state 0. -/
structure OnlyRead (s : State) (a : Nat) (r : BeamRead) : Prop where
  on : s.on = true
  reads : s.beam.reads = [r]
  addr : r.addr = a
  sent : r.queued = false
  awake : s.inPowerState (48 + r.slot) = false

/-- No read is out. -/
def readEnded (s : State) : State := { s with beam := { s.beam with reads := [] } }

section
variable {s : State} {a : Nat} {r : BeamRead}

/-! ### A record that passes its checks -/

/-- BEAM_READ_COMPLETE of a read that reconstruction does not serve (R302, R304). -/
theorem beamReadComplete_yields (h : OnlyRead s a r) (hreb : r.rebuilt = false) (e : BeamErr) :
    Yields (.beamReadComplete a e) s (if e = .good then s.hush.serveRecord r else s.hush.readFailed r 4) := by
  refine yields_of h.on (show exec _ s = execBeamReadComplete a e s from rfl) ?_
  simp only [hush_beam, h.reads, List.find?_cons, h.addr, hreb, h.sent, show s.hush.inPowerState (48 + r.slot) = false from h.awake,
    decide_true, Bool.not_false, Bool.and_self, when_true]

/-- One line waits for the record at address a: its transaction t is a read of head hd under tag, in a region that allocates nothing for
it, and no write-buffer entry covers the line. -/
structure OneReader (s : State) (a l hd tag : Nat) (t : Txn) : Prop where
  txns : s.coh.txns = [(l, some t)]
  phase : t.phase = .beam a
  src : t.req.src = .head hd tag
  kind : t.req.kind = .rdCur
  mute : t.req.mute = false
  link : (s.head hd).link.recovery = false
  region : ∃ n rg, s.regionAt l = some (n, rg) ∧ rg.noalloc = true
  buffer : s.withBuffer l ((s.recData a).get {} (l % 64)) = (s.recData a).get {} (l % 64)

theorem waitingBeam_one {l hd tag : Nat} {t : Txn} (w : OneReader s a l hd tag t) : s.waitingBeam a = [l] := by
  unfold State.waitingBeam
  simp only [w.txns, List.filter_cons, w.phase, decide_true, if_true, List.filter_nil, List.map_cons, List.map_nil]

/-- The line that waits for the record takes it and passes it to its head, and its transaction is done (R13, R302). -/
theorem fetched_forwards {l hd tag : Nat} {t : Txn} (w : OneReader s a l hd tag t) :
    ∃ p, s.fetched l ((s.recData a).get {} (l % 64)) = State.setTxn { s with
      pmc := p
      out := s.out ++ [.memData hd tag (if ((s.recData a).get {} (l % 64)).poison = true then 0 else ((s.recData a).get {} (l % 64)).data)
        ((s.recData a).get {} (l % 64)).poison (s.devLoad hd)] } l (some { t with phase := .done }) := by
  obtain ⟨n, rg, hreg, hna⟩ := w.region
  have ht : s.txn l = some t := by
    unfold State.txn
    rw [w.txns]
    exact if_pos rfl
  obtain ⟨p, hf⟩ := fetched_noalloc ((s.recData a).get {} (l % 64)) ht hreg hna w.kind w.src w.mute w.link
  rw [w.buffer] at hf
  exact ⟨p, hf⟩

/-- Serving a record that one line waits for and nothing else wants (R302). -/
theorem serveRecord_forwards {l hd tag : Nat} {t : Txn} (hreads : s.beam.reads = [r]) (haddr : r.addr = a) (hgc : r.gc = false)
    (hbad : r.bad = false) (w : OneReader s a l hd tag t) :
    ∃ v : State, s.serveRecord r = v.submit r.slot
      ∧ v.out = s.out ++ [.memData hd tag (if ((s.recData a).get {} (l % 64)).poison = true then 0 else ((s.recData a).get {} (l % 64)).data)
          ((s.recData a).get {} (l % 64)).poison (s.devLoad hd)]
      ∧ v.beam.reads = [] ∧ v.txn l = some { t with phase := .done }
      ∧ v = { s with
        out := v.out, pmc := v.pmc, tap := v.tap, coh := { s.coh with txns := v.coh.txns }, beam := { s.beam with reads := [] } } := by
  subst haddr
  have wEnded : OneReader (readEnded s) r.addr l hd tag t := ⟨w.txns, w.phase, w.src, w.kind, w.mute, w.link, w.region, w.buffer⟩
  obtain ⟨p, hf⟩ := fetched_forwards wEnded
  obtain ⟨x, hx⟩ : ∃ x, x = (readEnded s).fetched l (((readEnded s).recData r.addr).get {} (l % 64)) := ⟨_, rfl⟩
  obtain ⟨tp, htap⟩ : ∃ tp, (if r.prio ≤ 1 then x.minuteMax (4096 * 7 + 5 * 256 + r.slot) ((s.clock - r.since) / 2000) else x)
      = { x with tap := tp } := by
    split
    · exact minute_eq x _ _
    · exact ⟨x.tap, rfl⟩
  have hfilter : [r].filter (fun x => decide (x.addr ≠ r.addr)) = [] := by simp
  have hserve : s.serveRecord r = ({ x with tap := tp } : State).submit r.slot := by
    unfold State.serveRecord
    rw [waitingBeam_one w, hreads, hfilter, ← htap, hgc, hbad, hx]
    rfl
  rw [hf] at hx
  refine ⟨_, hserve, ?_, ?_, ?_, ?_⟩ <;> rw [hx]
  · rfl
  · rfl
  · exact Tbl.get_set_self none _ l (Option.some_ne_none _) _
  · rfl

/-- A record that garbage collection wants is copied to its stream, and its segment waits for the next commit record (R295, R296). -/
theorem serveRecord_relocates {q : BeamRec} {b : Nat} {t : State} (hreads : s.beam.reads = [r]) (haddr : r.addr = a) (hgc : r.gc = true)
    (hprio : 2 ≤ r.prio) (hstop : s.vlt.stopped = false) (htxns : s.coh.txns = []) (hrec : s.beam.recs.get none a = some q)
    (hconf : q.confirmed = true) (happ : (readEnded s).append 1 { q with purpose := .move a } = some (b, t)) :
    s.serveRecord r
      = ((t.count (evBeam 5) 1).modSeg (segOf (beamStripe a)) fun g => { g with moved := s.beam.cseq + 1 }).submit r.slot := by
  have hwanted : ((r.gc || r.bad) && ! s.vlt.stopped) = true := by
    rw [hgc, hstop]
    rfl
  rw [serve_idle htxns hreads hprio, hwanted, if_pos rfl, haddr]
  exact congrArg (fun u : State => u.submit r.slot) (relocate_eq (s := readEnded s) hrec hconf happ)

/-! ### Hedging -/

/-- HEDGE_TIMEOUT of a read that has been out for its limit: the slow reads of its slot are tm, av tells whether the slot is avoided from
now on, and the other slots are read (R303, R305). -/
theorem hedgeTimeout_yields (h : OnlyRead s a r) (hreb : r.rebuilt = false) (hhed : r.hedged = false) (hlim : r.hedge ≠ 0)
    (hdue : r.since + r.hedge ≤ s.clock) {tm : List Nat} {av : Bool}
    (htm : tm = ((s.slot r.slot).slowAt.filter fun t => decide (s.clock < t + 200000000)) ++ [s.clock])
    (hav : av = (flag s.beam.ctl 10 && decide (16 ≤ tm.length) && s.beam.avoided.isNone)) :
    ∃ pm, Yields (.hedgeTimeout a) s { s with
      out := ((List.range 8).filter fun i => i ≠ r.slot && ! s.beam.retired.getLsbD i).map (fun i => Output.nvme i 0x02)
      pmc := pm
      beam := { s.beam with
        slots := (s.modSlot r.slot fun x => { x with slowAt := if av = true then [] else tm }).beam.slots
        avoided := if av = true then some r.slot else s.beam.avoided, avoidAt := if av = true then s.clock else s.beam.avoidAt
        reads := [{ r with hedged := true }] } } := by
  have hslow := slow_eq (s.hush.count (evSlot r.slot 2) 1) r.slot tm av htm hav
  obtain ⟨pm, hread⟩ := others_eq ((s.hush.count (evSlot r.slot 2) 1).slowRead r.slot) r
  rw [if_neg (Bool.eq_false_iff.mp hhed), if_neg (Bool.eq_false_iff.mp hhed), hslow] at hread
  refine ⟨pm, yields_of h.on (show exec _ s = execHedgeTimeout a s from rfl) ?_⟩
  have hfind : s.hush.beam.reads.find? (fun r => r.addr = a && ! r.hedged && ! r.rebuilt && ! r.queued && decide (r.hedge ≠ 0)) = some r := by
    simp only [hush_beam, h.reads, List.find?_cons, h.addr, hreb, hhed, h.sent, decide_eq_true hlim, decide_true, Bool.not_false, Bool.and_self]
  simp only [hfind, elapse_done (s := s.hush) hdue, hslow, hread]
  rw [show (s.hush.count (evSlot r.slot 2) 1).beam.reads = [r] from h.reads, List.map_cons, List.map_nil, if_pos h.addr]
  rfl

/-- RECORD_RECONSTRUCT that fails for a hedge leaves the read to its slot (log 215: the model's choice). -/
theorem recordReconstruct_leaves (h : OnlyRead s a r) (hreb : r.rebuilt = false) (hhed : r.hedged = true) :
    Yields (.recordReconstruct a false) s { s.hush with beam := { s.beam with reads := [{ r with hedged := false }] } } := by
  refine yields_of h.on (show exec _ s = execRecordReconstruct a false s from rfl) ?_
  simp only [hush_beam, h.reads, List.find?_cons, h.addr, hreb, hhed, decide_true, Bool.true_or, Bool.and_self, Bool.false_eq_true,
    if_false, Bool.not_false, if_true, List.map_cons, List.map_nil]

/-- RECORD_RECONSTRUCT that succeeds ends a read that is hedged or served by reconstruction (R303, R304). -/
theorem recordReconstruct_ends (h : OnlyRead s a r) (hby : r.hedged = true ∨ r.rebuilt = true) (hbad : r.bad = false) (hgc : r.gc = false)
    (hprio : 2 ≤ r.prio) (htxns : s.coh.txns = []) :
    Yields (.recordReconstruct a true) s (((readEnded s.hush).count (evSlot r.slot 3) 1).submit r.slot) := by
  refine yields_of h.on (show exec _ s = execRecordReconstruct a true s from rfl) ?_
  have hor : (r.hedged || r.rebuilt) = true := (Bool.or_eq_true _ _).mpr hby
  simp only [hush_beam, h.reads, List.find?_cons, h.addr, hor, decide_true, Bool.and_self, if_true]
  rw [serve_idle (s := s.hush.count (evSlot r.slot 3) 1) htxns h.reads hprio, hgc, hbad]
  rfl

/-! ### Abort and avoidance -/

/-- NVME_ABORT of a read that has been out for 2 s: it counts as unreadable on its slot (R267; log 219: presumed). -/
theorem nvmeAbort_yields (h : OnlyRead s a r) (hreb : r.rebuilt = false) (hdue : r.since + 4000000000 ≤ s.clock) :
    Yields (.nvmeAbort r.slot a) s ((s.hush.emit (.nvmeAdmin r.slot 0x08)).readFailed r 8) := by
  refine yields_of h.on (show exec _ s = execNvmeAbort r.slot a s from rfl) ?_
  have hold : s.hush.elapse (r.since + 4000000000) = s.hush := elapse_done hdue
  simp only [hush_beam, h.reads, List.find?_cons, h.addr, hreb, h.sent, decide_true, Bool.not_false, Bool.and_self, hold]

/-- SLOT_AVOID_END, 100 ms after the avoidance began (R305). -/
theorem slotAvoidEnd_yields {i : Nat} (hon : s.on = true) (hav : s.beam.avoided = some i) (hdue : s.beam.avoidAt + 200000000 ≤ s.clock) :
    Yields .slotAvoidEnd s { s.hush with beam := { s.beam with avoided := none } } := by
  refine yields_of hon (show exec _ s = execSlotAvoidEnd s from rfl) ?_
  have hold : s.hush.elapse (s.hush.beam.avoidAt + 200000000) = s.hush := elapse_done hdue
  have hsome : s.hush.beam.avoided.isSome = true := by
    rw [hush_beam, hav]
    rfl
  rw [hsome, when_true]
  dsimp only
  rw [hold]
  rfl

end

/-- Settles O41: a record that is served, one that is relocated, one that fails, a command that is aborted, a read that is hedged, the two
ends of a reconstruction, the end of an avoidance. -/
theorem beamReadsEnd : Obligations.BeamReadsEnd := by
  unfold Obligations.BeamReadsEnd
  intro s a r hon hreads haddr hsent hawake
  have h : OnlyRead s a r := ⟨hon, hreads, haddr, hsent, hawake⟩
  refine ⟨fun l hd tag n rg t hreb hgc hbad htxns hph hsrc hkind hmute hrec hreg hna hbuf => ?served,
    fun q b t hreb hgc hprio hstop htxns hrec hconf happ => ?relocated,
    fun hreb others hothers => ⟨fun e he => ?failed, fun hdue => ?aborted, fun tm av hhed hlim hdue htm hav => ?hedged,
      fun hhed => recordReconstruct_leaves h hreb hhed⟩,
    fun hby hbad hgc hprio htxns => recordReconstruct_ends h hby hbad hgc hprio htxns,
    fun i hav hdue => slotAvoidEnd_yields hon hav hdue⟩
  case served =>
    have w : OneReader s.hush a l hd tag t := ⟨htxns, hph, hsrc, hkind, hmute, hrec, ⟨n, rg, hreg, hna⟩, hbuf⟩
    obtain ⟨v, hserve, hv⟩ := serveRecord_forwards (s := s.hush) hreads haddr hgc hbad w
    exact ⟨_, beamReadComplete_yields h hreb .good, v, hserve, hv⟩
  case relocated =>
    have hy := beamReadComplete_yields h hreb .good
    rwa [if_pos rfl, serveRecord_relocates (s := s.hush) hreads haddr hgc hprio hstop htxns hrec hconf happ] at hy
  case failed =>
    have hy := beamReadComplete_yields h hreb e
    rw [if_neg he] at hy
    obtain ⟨v, hfail, hv⟩ := failed_eq s.hush r 4 (by decide) hreads
    exact ⟨_, hy, v, hfail, hothers ▸ hv⟩
  case aborted =>
    obtain ⟨v, hfail, hv⟩ := failed_eq (s.hush.emit (.nvmeAdmin r.slot 0x08)) r 8 (by decide) hreads
    exact ⟨_, nvmeAbort_yields h hreb hdue, v, hfail, hothers ▸ hv⟩
  case hedged =>
    obtain ⟨pm, hy⟩ := hedgeTimeout_yields h hreb hhed hlim hdue htm hav
    rw [if_neg (Bool.eq_false_iff.mp hhed)] at hothers
    exact ⟨_, hy, hothers.symm, rfl⟩

end Sys2Proof.Proofs.BeamReads
end

