-- ==== Sys2Proof/Proofs/DriveSlots.lean ====
section
/-! PROOF. Drives and their slots (R267, R298, R306, R307, R474): retirement, the adoption of a blank drive, the end of its rebuild, the
health log, asynchronous events, and obligation O42. -/
namespace Sys2Proof.Proofs.DriveSlots
open Sys2Proof Sys2Proof.Machine Sys2Proof.Laws Sys2Proof.Laws.Drives

/-! ### Retirement -/

section
variable {s : State} {i : Nat} {x : Slot}

/-- SLOT_RETIRE where the bucket's retirement is due (cause 0) or an immediate cause stands (R306). -/
theorem slotRetire_yields {cause : Nat} (hon : s.on = true) (hi : i < 8)
    (hwhy : if cause = 0 then s.retireDue 5 i = true else (s.slot i).fail = cause) :
    Yields (.slotRetire i cause) s (s.hush.retireSlot i cause) := by
  refine yields_of hon (show exec _ s = execSlotRetire i cause s from rfl) ?_
  have hgo : (decide (i < 8) && (if cause = 0 then s.hush.retireDue 5 i else decide ((s.hush.slot i).fail = cause))) = true := by
    rw [decide_eq_true hi, Bool.true_and]
    by_cases h : cause = 0
    · rw [if_pos h] at hwhy ⊢
      exact hwhy
    · rw [if_neg h] at hwhy ⊢
      exact decide_eq_true hwhy
  rw [hgo, when_true]

/-- BEAM_LINK_DOWN_TIMEOUT retires the slot whose drive is at the port (R474). -/
theorem beamLinkDownTimeout_yields {port : Nat} (hon : s.on = true)
    (hfind : (List.range 8).find? (fun i => (s.slot i).present && (s.slot i).port = port && ! s.beam.retired.getLsbD i) = some i) :
    Yields (.beamLinkDownTimeout port) s (s.hush.retireSlot i 1) := by
  refine yields_of hon (show exec _ s = execBeamLinkDownTimeout port s from rfl) ?_
  have hfind' : (List.range 8).find? (fun i => (s.hush.slot i).present && (s.hush.slot i).port = port && ! s.hush.beam.retired.getLsbD i)
      = some i := hfind
  simp only [hfind']

/-- Whichever of the three causes a command names, it retires the slot (R306, R474). -/
theorem retirement_yields {c : Instr} {cause : Nat} (hon : s.on = true) (hi : i < 8) (hx : s.slot i = x)
    (hc : (c, cause) ∈ [(Instr.slotRetire i 0, 0), (.slotRetire i 3, 3), (.beamLinkDownTimeout x.port, 1)])
    (hdue : cause = 0 → s.retireDue 5 i = true) (hfail : cause = 3 → x.fail = 3)
    (hport : cause = 1 →
      (List.range 8).find? (fun i => (s.slot i).present && (s.slot i).port = x.port && ! s.beam.retired.getLsbD i) = some i) :
    cause < 16 ∧ Yields c s (s.hush.retireSlot i cause) := by
  simp only [List.mem_cons, Prod.mk.injEq, List.not_mem_nil, or_false] at hc
  obtain ⟨rfl, rfl⟩ | ⟨rfl, rfl⟩ | ⟨rfl, rfl⟩ := hc
  · exact ⟨by decide, slotRetire_yields hon hi (hdue rfl)⟩
  · exact ⟨by decide, slotRetire_yields hon hi (hx ▸ hfail rfl)⟩
  · exact ⟨by decide, beamLinkDownTimeout_yields hon (hport rfl)⟩

/-! ### Adoption -/

/-- The slot of a drive as it is adopted (R307). -/
def adopted (d : DriveReport) (now : Nat) : Slot :=
  { port := d.port, present := true, width := d.width, rate := d.rate, lbas := d.lbas, power := d.power, smartAt := now }

/-- A slot has taken a drive, which is brought up; superblocks are written on it as on the others, and its units are to be rebuilt. -/
def adopting (s : State) (i : Nat) (d : DriveReport) : State :=
  let t := ((s.modSlot i fun _ => adopted d s.clock).driveUp i).writeSuper [i]
  { t with beam := { t.beam with rebuild := some i } }

/-- DRIVE_ADOPT of a usable blank drive at a port without a slot takes the lowest retired slot (R307). -/
theorem driveAdopt_yields {d : DriveReport} (hon : s.on = true)
    (hlow : (List.range 8).find? (fun i => s.beam.retired.getLsbD i) = some i) (hctl : flag s.beam.ctl 11 = true)
    (hid : s.beam.setId ≠ 0) (hnone : s.beam.rebuild = none) (hcond : d.conditions = 0x3F) (hblank : d.blank = true)
    (hlbas : 17408 + 4096 * s.beam.segments ≤ d.lbas)
    (hfree : ((List.range 8).any fun j => (s.slot j).present && ! s.beam.retired.getLsbD j && (s.slot j).port = d.port) = false) :
    Yields (.driveAdopt d) s (adopting s.hush i d) := by
  refine yields_of hon (show exec _ s = execDriveAdopt d s from rfl) ?_
  have huse : usable d = true := decide_eq_true hcond
  have hgo : (flag s.beam.ctl 11 && decide (s.beam.setId ≠ 0) && s.beam.rebuild.isNone && usable d && d.blank
      && decide (17408 + 4096 * s.beam.segments ≤ d.lbas)
      && ! ((List.range 8).any fun j => (s.slot j).present && ! s.beam.retired.getLsbD j && (s.slot j).port = d.port)) = true := by
    rw [hctl, hnone, huse, hblank, hfree, decide_eq_true hid, decide_eq_true hlbas]
    rfl
  have hlow' : s.hush.lowestRetired = some i := hlow
  have hfit : ¬ (! usable d) = true := by rw [huse]; exact Bool.false_ne_true
  simp only [hfit, hlow']
  exact congrArg (fun b => State.when s.hush b fun s => adopting s i d) hgo

/-- The adopted slot holds its drive and the superblock copy of the new SBGEN; SBGEN rises, and nothing else changes (R281, R307). -/
theorem adopting_eq (s : State) (i : Nat) (d : DriveReport) : ∃ sl o, adopting s i d = { s with
      out := o, beam := { s.beam with slots := sl, sbgen := s.beam.sbgen + 1, rebuild := some i } }
    ∧ (s.beam.slots.wf {} = true → ∃ a b, sl.get {} i = { adopted d s.clock with sb0 := a, sb1 := b }
      ∧ (if (s.beam.sbgen + 1) % 2 = 0 then a else b) = s.beam.sbgen + 1) := by
  obtain ⟨o, hup⟩ := admin_fold i
    [0x06, 0x06, 0x06, 0x09, 0x09, 0x09, 0x09, 0x05, 0x05, 0x05, 0x05, 0x01, 0x01, 0x01, 0x01, 0x0C] (s.modSlot i fun _ => adopted d s.clock)
  obtain ⟨sl, o2, hsuper, hsb⟩ := super_eq ({ (s.modSlot i fun _ => adopted d s.clock) with out := o }) [i]
  have heq : ((s.modSlot i fun _ => adopted d s.clock).driveUp i).writeSuper [i] = _ :=
    (congrArg (fun t : State => t.writeSuper [i]) hup).trans hsuper
  refine ⟨sl, o2, ?_, fun hwf => ?_⟩
  · unfold adopting
    rw [heq]
    rfl
  · obtain ⟨a, b, hget, hgen⟩ := hsb (Tbl.wf_set _ _ _ hwf) i (List.mem_singleton_self i)
    refine ⟨a, b, hget.trans ?_, hgen⟩
    rw [show (s.modSlot i fun _ => adopted d s.clock).beam.slots = s.beam.slots.set {} i (adopted d s.clock) from rfl, Tbl.get_set_eq _ _ _ hwf]

/-- ADOPT_REBUILD_END puts the slot in use again, with new superblocks (R307). -/
theorem adoptRebuildEnd_yields (hon : s.on = true) (hreb : s.beam.rebuild = some i) :
    Yields (.adoptRebuildEnd i) s (State.writeSuper { s.hush with beam := { s.beam with
      rebuild := none, retired := putBit s.beam.retired i false } } []) := by
  refine yields_of hon (show exec _ s = execAdoptRebuildEnd i s from rfl) ?_
  rw [hush_beam, hreb, decide_eq_true rfl, when_true]
  rfl

/-! ### Health -/

/-- A change of a slot is the slot that it gives. -/
theorem modSlot_eq {f : Slot → Slot} {y : Slot} (h : f (s.slot i) = y) : s.modSlot i f = s.modSlot i fun _ => y := by
  unfold State.modSlot
  rw [h]

/-- A slot after its health log has been read: the wear, what it has reached, and a cause of retirement (R298, R474). -/
def healthRead (x : Slot) (now used : Nat) (crit : BitVec 8) : Slot := { x with
  smartAt := now, wear := used, worn90 := x.worn90 || decide (90 ≤ used), worn100 := x.worn100 || decide (100 ≤ used)
  fail := if critCause crit ≠ 0 then 3 else x.fail }

theorem healthRead_low {used : Nat} (now : Nat) (hused : used < 90) : healthRead x now used 0 = { x with smartAt := now, wear := used } := by
  unfold healthRead
  rw [decide_eq_false (Nat.not_le.mpr hused), decide_eq_false (by omega), Bool.or_false, Bool.or_false]
  rfl

theorem healthRead_worn {used : Nat} (now : Nat) (hlow : 90 ≤ used) (hused : used < 100) :
    healthRead x now used 4 = { x with smartAt := now, wear := used, worn90 := true, fail := 3 } := by
  unfold healthRead
  rw [decide_eq_true hlow, decide_eq_false (Nat.not_le.mpr hused), Bool.or_true, Bool.or_false]
  rfl

/-- SMART_LOG_READ an hour after the last records the slot's health, and posts wear of 90 % once (R298). -/
theorem smartLogRead_yields {used : Nat} {crit : BitVec 8} {y : Slot} (hon : s.on = true) (hi : i < 8) (hx : s.slot i = x)
    (hp : x.present = true) (hst : s.glb.steward = true) (hdue : x.smartAt + 7200000000000 ≤ s.clock) (hused : used < 100)
    (h90 : x.worn90 = false) (h100 : x.worn100 = false) (hy : healthRead x s.clock used crit = y) :
    Yields (.smartLogRead i used crit) s (if 90 ≤ used then
        ((s.hush.emit (.nvmeAdmin i 0x02)).modSlot i fun _ => y).note ⟨1, 0x1B, i + used * 256, none⟩
      else (s.hush.emit (.nvmeAdmin i 0x02)).modSlot i fun _ => y) := by
  refine yields_of hon (show exec _ s = execSmartLogRead i used crit s from rfl) ?_
  subst hx
  have hgo : (s.hush.glb.steward && (s.hush.slot i).present && decide (i < 8)) = true := by
    rw [hush_glb, hush_slot, hst, hp, decide_eq_true hi]
    rfl
  have hold : s.hush.elapse ((s.hush.slot i).smartAt + 7200000000000) = s.hush := elapse_done hdue
  have hmin : min used 255 = used := Nat.min_eq_left (by omega)
  have hrec := modSlot_eq (s := s.hush.emit (.nvmeAdmin i 0x02)) (i := i) (f := fun x => healthRead x s.clock used crit) hy
  have hno : ¬ (decide (100 ≤ used) && ! false) = true := by
    rw [decide_eq_false (Nat.not_le.mpr hused)]
    exact Bool.false_ne_true
  rw [hgo, when_true]
  dsimp only
  rw [hold, hmin, hush_slot, h90, h100, if_neg hno, ← hrec]
  by_cases hworn : 90 ≤ used
  · rw [if_pos hworn]
    exact if_pos (by rw [decide_eq_true hworn]; rfl)
  · rw [if_neg hworn]
    exact if_neg (by rw [decide_eq_false hworn]; exact Bool.false_ne_true)

/-- ASYNC_EVENT_COMPLETE with a fatal status is an immediate cause, and the next event is asked for (R267, R474). -/
theorem asyncEventComplete_yields (hon : s.on = true) (hi : i < 8) (hx : s.slot i = x) (hp : x.present = true) (crit : BitVec 8) :
    Yields (.asyncEventComplete i crit true) s { s.modSlot i (fun _ => { x with fail := 2 }) with out := [.nvmeAdmin i 0x0C] } := by
  refine yields_of hon (show exec _ s = execAsyncEventComplete i crit true s from rfl) ?_
  have hgo : ((s.hush.slot i).present && decide (i < 8)) = true := by
    rw [hush_slot, hx, hp, decide_eq_true hi]
    rfl
  rw [hgo, when_true]
  exact congrArg (fun t : State => t.emit (.nvmeAdmin i 0x0C)) (modSlot_eq (s := s.hush) (congrArg (fun x : Slot => { x with fail := 2 }) hx))

end

/-- Settles O42: retirement by each of its causes, the adoption of a drive and the end of its rebuild, the health log, an event. That
SBGEN rises both at the adoption and at the end of the rebuild is the model's choice (log 214). -/
theorem drivesComeAndGo : Obligations.DrivesComeAndGo := by
  unfold Obligations.DrivesComeAndGo
  intro s i x hon hi hx
  refine ⟨fun c cause hc hdue hfail hport hret hbufs houts hseals => ?retires, fun d hlow hctl hid hnone hcond hblank hlbas hfree => ?adopts,
    fun hreb => ?rebuilt, fun hp hst hdue => ⟨fun used hused h90 h100 => ?wear, fun used hlow hused h90 h100 => ?worn⟩,
    fun hp crit => asyncEventComplete_yields hon hi hx hp crit⟩
  case retires =>
    obtain ⟨hlt, hy⟩ := retirement_yields hon hi hx hc hdue hfail hport
    obtain ⟨o, f, t, p, hd, sg, av, sl, heq, hfifo, hbucket⟩ := retire_slot (s := s.hush) hlt hret hbufs houts hseals
    rw [heq] at hy
    exact ⟨_, hy, rfl, rfl, rfl, rfl, hfifo, hbucket, rfl⟩
  case adopts =>
    obtain ⟨sl, o, heq, hslot⟩ := adopting_eq s.hush i d
    have hy := driveAdopt_yields hon hlow hctl hid hnone hcond hblank hlbas hfree
    rw [heq] at hy
    refine ⟨_, hy, fun hwf => ?_, rfl⟩
    obtain ⟨a, b, hget, hgen⟩ := hslot hwf
    have hnew : ∀ u : State, u.beam.slots = sl → u.slot i = { adopted d s.clock with sb0 := a, sb1 := b } := fun u hu => by
      unfold State.slot
      rw [hu]
      exact hget
    rw [hnew _ rfl]
    exact ⟨rfl, rfl, rfl, rfl, rfl, rfl, rfl, hgen⟩
  case rebuilt =>
    have hy := adoptRebuildEnd_yields hon hreb
    obtain ⟨sl, o, hsuper, -⟩ := super_eq ({ s.hush with beam := { s.beam with
      rebuild := none, retired := putBit s.beam.retired i false } }) []
    rw [hsuper] at hy
    exact ⟨_, hy, rfl⟩
  case wear =>
    have hy := smartLogRead_yields hon hi hx hp hst hdue (by omega) h90 h100 (healthRead_low s.clock hused)
    rwa [if_neg (Nat.not_le.mpr hused)] at hy
  case worn =>
    have hy := smartLogRead_yields hon hi hx hp hst hdue hused h90 h100 (healthRead_worn s.clock hlow hused)
    rwa [if_pos hlow] at hy

end Sys2Proof.Proofs.DriveSlots
end

