-- ==== Sys2Proof/Proofs/ReserveTests.lean ====
section
/-! PROOF. Test discharges, charging spans and the acceptance of an estimate (R325 to R328), and obligation O43. -/
namespace Sys2Proof.Proofs.ReserveTests
open Sys2Proof Sys2Proof.Machine Sys2Proof.Laws

section
variable {s : State}

/-! ### The course of a test -/

/-- What R327 asks for before a test, but for the cap: due, enabled, healthy, at the charge voltage, and nothing else under way. -/
theorem testReady_of (hdue : s.testIsDue = true) (hen : s.rsv.testEn = true) (hhealth : s.rsv.health ≠ 3) (hbrace : s.brace = false)
    (hchg : s.rsv.charging = false) (hv : s.rsv.vChg ≤ s.rsv.vNow + 250) (hidle : s.rsv.step = .idle)
    (hstop : s.vlt.stopped = false) (hhold : s.vlt.hold = false) : s.testReady = true := by
  simp [State.testReady, hdue, hen, hhealth, hbrace, hchg, hv, hidle, hstop, hhold]

/-- A test that is ready and leaves the dirty count within 90 % of the cap at its lowest voltage starts (R326 step 1, R327). -/
theorem testStart_yields (hon : s.on = true) (hready : s.testReady = true)
    (hcap : s.dirtyCount * 100 ≤ 90 * (s.capAt (s.rsv.vNow - s.rsv.testDv) 0).1) :
    Yields .testStart s
      (State.count { s.hush with rsv := { s.rsv with step := .settling, charging := false, testSamples := 0 } } (evVault 0) 1) := by
  have hgo : (s.hush.testReady && s.hush.testCap 0) = true := Bool.and_eq_true_iff.mpr ⟨hready, decide_eq_true hcap⟩
  exact yields_of hon (show exec _ s = execTestStart s from rfl) (if_pos hgo)

/-- TEST_NOW from the management side makes a test due from this operating minute (R327). -/
theorem testNow_yields {src : Nat} (hon : s.on = true) (hr : s.reaches src = true) (hm : s.isMgmt src = true)
    (hdue : s.rsv.testDue = none) :
    Yields (.testNow src) s { s.hush with rsv := { s.rsv with testDue := some s.boot.opmin } } := by
  refine yields_of hon (show exec _ s = execTestNow src s from rfl) ?_
  rw [globalWrite_mgmt (s := s.hush) _ _ hr hm, hush_rsv, hdue]
  rfl

/-- After 100 samples, with the current within 50 mA of zero, the load is switched on at V_0 (R326 step 2). -/
theorem testSettled_yields (hon : s.on = true) (hstep : s.rsv.step = .settling) (hn : 100 ≤ s.rsv.testSamples)
    (hi : s.rsv.lastI.natAbs ≤ 50) :
    Yields .testSettled s
      { s.hush with rsv := { s.rsv with step := .loaded, testing := true, testSamples := 0, v0 := s.rsv.volts.headD 0 } } := by
  refine yields_of hon (show exec _ s = execTestSettled s from rfl) (if_pos ?_)
  simp [hstep, hn, hi]

/-- The second sample under load gives ESR as the drop over the current (R326 step 3). -/
theorem testEsrSample_yields {i va : Nat} (hon : s.on = true) (hstep : s.rsv.step = .loaded) (hn : 2 ≤ s.rsv.testSamples)
    (hlast : s.rsv.lastI = - (i : Int)) (hi : 0 < i) (hva : s.rsv.volts.headD 0 = va) (hesr : (s.rsv.v0 - va) * 10000 / i ≤ 65535) :
    Yields .testEsrSample s { s.hush with rsv := { s.rsv with
      step := .discharging, va := va, ia := s.rsv.lastI, qTest := 0, est := some (false, 0, (s.rsv.v0 - va) * 10000 / i) } } := by
  refine yields_of hon (show exec _ s = execTestEsrSample s from rfl) ?_
  have hgo : (decide (s.hush.rsv.step = .loaded) && decide (2 ≤ s.hush.rsv.testSamples)) = true := by simp [hstep, hn]
  have hdrawn : (- s.rsv.lastI).toNat = i := by rw [hlast]; omega
  rw [hgo, when_true]
  dsimp only
  rw [hush_rsv, hdrawn, hva, if_neg hi.ne', if_neg hi.ne', Nat.min_eq_right hesr]

/-- A drop by TEST_DV ends the discharge and starts the charger (R326 step 5). -/
theorem testDischargeEnd_yields (hon : s.on = true) (hstep : s.rsv.step = .discharging)
    (hdrop : s.rsv.volts.headD 0 + s.rsv.testDv ≤ s.rsv.va) :
    Yields .testDischargeEnd s { s.hush with rsv := { s.rsv with step := .computing, testing := false, charging := true } } := by
  refine yields_of hon (show exec _ s = execTestDischargeEnd s from rfl) (if_pos ?_)
  rw [hush_rsv, decide_eq_true hstep, decide_eq_true hdrop]
  rfl

/-- The steward divides the charge drawn by TEST_DV and ends the test (R326 step 6). -/
theorem testEstimate_yields {q c e : Nat} (hon : s.on = true) (hst : s.glb.steward = true) (hstep : s.rsv.step = .computing)
    (hq : s.rsv.qTest = - (q : Int)) (hest : s.rsv.est = some (false, c, e)) :
    Yields .testEstimate s { s.hush with rsv := { s.rsv with
      step := .idle, testResult := 1, testDue := none, lastTest := some s.boot.opmin, est := some (false, q / (100 * s.rsv.testDv), e) } } := by
  refine yields_of hon (show exec _ s = execTestEstimate s from rfl) ?_
  have hgo : (decide (s.hush.rsv.step = .computing) && s.hush.glb.steward) = true := by simp [hstep, hst]
  have hdrawn : (- s.rsv.qTest).toNat = q := by rw [hq]; omega
  rw [hgo, when_true]
  dsimp only
  rw [hush_rsv, hdrawn, hest]
  rfl

/-- A test that is due for 4 h and has not started is POSTPONED (R327). -/
theorem testPostponed_yields (hon : s.on = true) (hidle : s.rsv.step = .idle) (hdue : s.testIsDue = true)
    (hlate : s.dueSince + 240 ≤ s.boot.opmin) :
    Yields .testPostponed s { s.hush with rsv := { s.rsv with testResult := 5 } } := by
  have hgo : (s.hush.testIsDue && decide (s.hush.rsv.step = .idle) && decide (s.hush.dueSince + 240 ≤ s.hush.boot.opmin)) = true := by
    rw [show s.hush.testIsDue = true from hdue, hush_rsv, decide_eq_true hidle, Bool.and_self, Bool.true_and]
    exact decide_eq_true hlate
  exact yields_of hon (show exec _ s = execTestPostponed s from rfl) (if_pos hgo)

/-! ### Abort -/

/-- The conditions under which a cause of R327 stands. -/
theorem abortStands_of {c : AbortCause} (hcommit : c = .braceOrCommit → s.brace = true ∨ s.vlt.hold = true ∨ s.vlt.stopped = true)
    (hcap : c = .cap → 95 * s.rsv.dEff ≤ s.dirtyCount * 100)
    (htime : c = .fiveSeconds → s.rsv.step = .discharging ∧ 500000 ≤ s.rsv.testSamples) : s.abortStands c = true := by
  cases c with
  | braceOrCommit => simpa [State.abortStands, or_assoc] using hcommit rfl
  | cap => exact decide_eq_true (hcap rfl)
  | fiveSeconds => simpa [State.abortStands] using htime rfl

/-- Aborting a running test gives it its result, lets the charger on unless the hold-up switch is, and counts the abort (R327). -/
theorem abortTest_running (c : AbortCause) (h : s.rsv.step = .loaded ∨ s.rsv.step = .settling ∨ s.rsv.step = .discharging) :
    s.abortTest c = State.count { s with rsv := { s.rsv with
      step := .idle, testing := false, charging := ! s.vlt.hold, testResult := abortResult c, est := none } } (evVault 1) 1 := by
  refine if_pos ?_
  rcases h with h | h | h <;> simp [h]

/-- A running test for which a cause of R327 stands is aborted. -/
theorem testAbort_yields {c : AbortCause} (hon : s.on = true) (hc : s.abortStands c = true)
    (h : s.rsv.step = .loaded ∨ s.rsv.step = .settling ∨ s.rsv.step = .discharging) :
    Yields (.testAbort c) s (State.count { s.hush with rsv := { s.rsv with
      step := .idle, testing := false, charging := ! s.vlt.hold, testResult := abortResult c, est := none } } (evVault 1) 1) :=
  yields_of hon (show exec _ s = execTestAbort c s from rfl) ((if_pos (by exact hc)).trans (abortTest_running (s := s.hush) c h))

/-! ### Estimates -/

/-- A charging span over which the voltage rose by TEST_DV gives C_chg (R325). -/
theorem chargeEstimate_yields {x : ChgSpan} (hon : s.on = true) (hst : s.glb.steward = true) (hx : s.rsv.chgSpan = some x)
    (hnone : s.rsv.est = none) (hrise : x.v0 + s.rsv.testDv ≤ x.v) :
    Yields .chargeEstimate s
      { s.hush with rsv := { s.rsv with chgSpan := none, est := some (true, x.q.toNat / (100 * (x.v - x.v0)), 0) } } := by
  refine yields_of hon (show exec _ s = execChargeEstimate s from rfl) ?_
  simp only [hush_rsv, hx]
  refine if_pos ?_
  simp [hst, hnone, hrise]

/-- The comparison of two estimates changes causes of FAULT alone (R331). -/
theorem agreement_eq (s : State) : ∃ f, s.agreement = { s with rsv := { s.rsv with fcause := f } } := by
  unfold State.agreement
  split
  · split
    · exact ⟨_, rfl⟩
    · exact ⟨s.rsv.fcause, rfl⟩
  · exact ⟨s.rsv.fcause, rfl⟩

/-- What the steward makes of an estimate of C in mF and ESR, from a charging span or a test: u is s with the estimate taken where it
lies between 0.05 F and 65.535 F, and dropped where it does not (R328). -/
structure Accepted (s u : State) (chg : Bool) (mF esr : Nat) : Prop where
  test : u.rsv.test = if 50 ≤ mF ∧ mF ≤ 65535 ∧ chg = false then some ⟨mF, esr, s.boot.opmin⟩ else s.rsv.test
  charge : u.rsv.charge = if 50 ≤ mF ∧ mF ≤ 65535 ∧ chg = true then some ⟨mF, esr, s.boot.opmin⟩ else s.rsv.charge
  boot : u.boot = if 50 ≤ mF ∧ mF ≤ 65535 then s.boot.addEstimate chg ⟨mF, esr, s.boot.opmin⟩ else s.boot
  fcause : mF < 50 ∨ 65535 < mF → u.rsv.fcause = s.rsv.fcause
  frame : u = { s with
    tap := { s.tap with accs := u.tap.accs }, boot := u.boot
    rsv := { s.rsv with est := none, test := u.rsv.test, charge := u.rsv.charge, fcause := u.rsv.fcause } }

/-- The state in which an estimate has been taken from the test or the span, and its samples recorded (R524). -/
def sampled (s : State) (accs : Tbl TapAcc) : State :=
  { s with rsv := { s.rsv with est := none }, tap := { s.tap with accs := accs } }

/-- An estimate out of range is dropped. -/
theorem accepted_outside {chg : Bool} {mF : Nat} (esr : Nat) (accs : Tbl TapAcc) (h : mF < 50 ∨ 65535 < mF) :
    Accepted s (sampled s accs) chg mF esr where
  test := (if_neg (by omega)).symm
  charge := (if_neg (by omega)).symm
  boot := (if_neg (by omega)).symm
  fcause _ := rfl
  frame := rfl

/-- An estimate of a test in range becomes the newest test and goes into the reserve record. -/
theorem accepted_test {mF : Nat} (esr : Nat) (accs : Tbl TapAcc) (f : BitVec 5) (hlo : 50 ≤ mF) (hhi : mF ≤ 65535) :
    Accepted s { sampled s accs with
      rsv := { (sampled s accs).rsv with test := some ⟨mF, esr, s.boot.opmin⟩, fcause := f }
      boot := s.boot.addEstimate false ⟨mF, esr, s.boot.opmin⟩ } false mF esr where
  test := (if_pos ⟨hlo, hhi, rfl⟩).symm
  charge := (if_neg (by simp)).symm
  boot := (if_pos ⟨hlo, hhi⟩).symm
  fcause h := by omega
  frame := rfl

/-- An estimate of a charging span in range becomes the newest charge estimate and goes into the reserve record. -/
theorem accepted_charge {mF : Nat} (esr : Nat) (accs : Tbl TapAcc) (f : BitVec 5) (hlo : 50 ≤ mF) (hhi : mF ≤ 65535) :
    Accepted s { sampled s accs with
      rsv := { (sampled s accs).rsv with charge := some ⟨mF, esr, s.boot.opmin⟩, fcause := f }
      boot := s.boot.addEstimate true ⟨mF, esr, s.boot.opmin⟩ } true mF esr where
  test := (if_neg (by simp)).symm
  charge := (if_pos ⟨hlo, hhi, rfl⟩).symm
  boot := (if_pos ⟨hlo, hhi⟩).symm
  fcause h := by omega
  frame := rfl

/-- The effect of ESTIMATE_ACCEPT on a state with an estimate. -/
theorem estimateAccept_accepted {chg : Bool} {mF esr : Nat} (hon : s.on = true) (hst : s.glb.steward = true) (hidle : s.rsv.step = .idle)
    (hest : s.rsv.est = some (chg, mF, esr)) : Completes .estimateAccept s fun u => Accepted s.hush u chg mF esr := by
  refine completes_of hon (show exec _ s = execEstimateAccept s from rfl) ?_
  have hgo : (s.hush.glb.steward && decide (s.hush.rsv.step = .idle)) = true := by simp [hst, hidle]
  rw [hgo, when_true]
  simp only [hush_rsv, hest, Bool.or_eq_true, decide_eq_true_eq]
  by_cases h : mF < 50 ∨ 65535 < mF
  · rw [if_pos h]
    cases chg with
    | false => exact accepted_outside esr _ h
    | true => exact accepted_outside esr s.tap.accs h
  · rw [if_neg h]
    obtain ⟨hlo, hhi⟩ : 50 ≤ mF ∧ mF ≤ 65535 := by omega
    cases chg with
    | false =>
      rw [if_neg Bool.false_ne_true]
      obtain ⟨f, hf⟩ := agreement_eq _
      rw [hf]
      exact accepted_test esr _ f hlo hhi
    | true =>
      rw [if_pos rfl]
      obtain ⟨f, hf⟩ := agreement_eq _
      rw [hf]
      exact accepted_charge esr _ f hlo hhi

/-- An accepted estimate stands first in the reserve record (R328). -/
theorem addEstimate_head (b : Boot) (chg : Bool) (e : Estimate) : (b.addEstimate chg e).ring.head? = some (chg, e) := rfl

end

/-- Settles O43: a test from its start to its estimate, its aborts and its postponement, then charging spans and acceptance. -/
theorem testsMeasureTheBank : Obligations.TestsMeasureTheBank := by
  unfold Obligations.TestsMeasureTheBank
  rintro s _ hon rfl hst
  refine ⟨fun hdue hen hhealth hbrace hchg hv hidle hstop hhold hcap =>
      testStart_yields hon (testReady_of hdue hen hhealth hbrace hchg hv hidle hstop hhold) hcap,
    fun src hr hm hdue => testNow_yields hon hr hm hdue, testSettled_yields hon,
    fun i va hstep hn hlast hi hva hesr => testEsrSample_yields hon hstep hn hlast hi hva hesr, testDischargeEnd_yields hon,
    fun c res hc hrun hcommit hcap htime => ?aborts, fun q c e hstep hq hest => testEstimate_yields hon hst hstep hq hest,
    testPostponed_yields hon, fun x hx hnone hrise => chargeEstimate_yields hon hst hx hnone hrise,
    fun chg mF esr hidle hest => ?accepts⟩
  case aborts =>
    have hres : res = abortResult c := by
      simp only [List.mem_cons, Prod.mk.injEq, List.not_mem_nil, or_false] at hc
      rcases hc with ⟨rfl, rfl⟩ | ⟨rfl, rfl⟩ | ⟨rfl, rfl⟩ <;> rfl
    rw [hres]
    exact testAbort_yields hon (abortStands_of hcommit hcap htime) hrun
  case accepts =>
    obtain ⟨u, hy, hu⟩ := estimateAccept_accepted hon hst hidle hest
    exact ⟨u, hy, hu.test, hu.charge, hu.boot, fun h => by rw [hu.boot, if_pos h]; exact addEstimate_head _ _ _, hu.fcause, hu.frame⟩

end Sys2Proof.Proofs.ReserveTests
end

