-- ==== Sys2Proof/Proofs/Ledger.lean ====
section
/-! PROOF. Samples of the bank, the recompute of the ledger and the health of the reserve (R323, R324, R330 to R334, R338), and obligation
O44. -/
namespace Sys2Proof.Proofs.Ledger
open Sys2Proof Sys2Proof.Machine Sys2Proof.Laws Sys2Proof.Laws.Estimates

section
variable {s : State}

/-! ### Samples -/

/-- The reserve's record after a sample of two sense codes (R323, R324, R331). -/
def sampledRsv (r : Rsv) (hold : Bool) (vc ic : Nat) : Rsv := ((((r.takeV hold vc).takeI hold hold ic).charger hold).span).board

/-- A sample that is due is taken at the clock (R323). -/
theorem reserveSample_yields {vc ic : Nat} (hon : s.on = true) (hvc : vc < 4096) (hic : ic < 4096)
    (hdue : s.rsv.sampleAt + 20000 ≤ s.clock) :
    Yields (.reserveSample vc ic) s
      { s.hush with rsv := sampledRsv { s.rsv with sampleAt := s.clock } s.vlt.hold vc ic } := by
  refine yields_of hon (show exec _ s = execReserveSample vc ic s from rfl) ?_
  dsimp only
  rw [elapse_done (by exact hdue), Nat.mod_eq_of_lt hvc, Nat.mod_eq_of_lt hic]
  rfl

/-! ### The recompute -/

/-- The state in which a recompute begins: its time is recorded. -/
def recomputing (s : State) : State := { s with rsv := { s.rsv with ledgerAt := s.clock } }

/-- A recompute that is due, with P_FLUSH above 0, takes place at the clock and leaves no value open (R332). -/
theorem ledgerRecompute_yields (hon : s.on = true) (hp : s.rsv.pFlush ≠ 0) (hdue : s.rsv.ledgerAt + 20000 ≤ s.clock) :
    Yields .ledgerRecompute s ((recomputing s.hush).ledger 0) := by
  refine yields_of hon (show exec _ s = execLedgerRecompute s from rfl) ?_
  dsimp only
  rw [elapse_done (by exact hdue)]
  exact if_neg hp

/-- D_max in exact units, rounded down once, where P_FLUSH is above 0 (R332). -/
theorem dMaxAt_eq (v free : Nat) (hp : s.rsv.pFlush ≠ 0) : s.dMaxAt v free
    = (s.rsv.derate * (s.ledgerC * (v * v - s.rsv.vMin * s.rsv.vMin) * s.rsv.eta) - s.rsv.eFixed * 200000000000000) * s.rsv.rBeam * 100000000 * s.u8
        / (2000000000000000 * s.rsv.pFlush * 4096 * 56 * s.uDen) - 2048 * s.keepUnits := by
  unfold State.dMaxAt State.energyUnits
  dsimp only
  rw [decide_eq_false hp, Bool.false_and, if_neg Bool.false_ne_true]

/-- In FAULT the cap is 0 (R334). -/
theorem capAt_fault (v free : Nat) (h : s.rsv.health = 3) : s.capAt v free = (0, 5) := if_pos h

/-- A fold of min from the head of a list is its minimum. -/
theorem foldl_min_headD (x : Nat) (l : List Nat) : (x :: l).foldl min ((x :: l).headD 0) = ((x :: l).min?).getD 0 := by
  rw [List.min?_cons', List.headD_cons, List.foldl_cons, Nat.min_self, Option.getD_some]

/-- Outside FAULT the cap is the least of the limits (R334). -/
theorem capAt_least (v free : Nat) (h : s.rsv.health ≠ 3) : (s.capAt v free).1 = ((s.limits v free).min?).getD 0 := by
  unfold State.capAt
  rw [if_neg h]
  exact foldl_min_headD _ _

/-- Withholding after a recompute: it starts at D_eff - H and holds below H, and otherwise lasts until 95 % (R338). -/
theorem withholds_iff (was : Bool) (dirty cap : Nat) : withholds was dirty cap = true
    ↔ cap < headroom ∨ cap ≤ dirty + headroom ∨ (was = true ∧ 95 * cap < dirty * 100) := by
  unfold withholds
  by_cases hlow : cap < headroom
  · simp [hlow]
  by_cases hstart : cap - headroom ≤ dirty
  · have : cap ≤ dirty + headroom := by omega
    simp [hlow, hstart, this]
  have hroom : ¬ cap ≤ dirty + headroom := by omega
  by_cases hend : dirty * 100 ≤ 95 * cap
  · have : ¬ 95 * cap < dirty * 100 := by omega
    simp [hlow, hstart, hend, hroom, this]
  · have : 95 * cap < dirty * 100 := by omega
    simp [hlow, hstart, hend, hroom, this]

/-! ### Health -/

/-- C_est or ESR misses the board's limits (R330, LOW). -/
def Low (s : State) (e : Estimate × Bool) : Prop := e.1.mF < s.rsv.cFloor ∨ s.rsv.esrMax < s.esr

theorem healthNow_override (h : s.rsv.override = true) : s.healthNow = 4 := if_pos h

section
variable (hover : s.rsv.override = false)
include hover

theorem healthNow_fault (hf : s.rsv.fcause ≠ 0) : s.healthNow = 3 := by
  unfold State.healthNow
  rw [if_neg (by simp [hover]), if_pos hf]

variable (hf : s.rsv.fcause = 0)
include hf

theorem healthNow_noEstimate (hnone : s.cEst = none) : s.healthNow = 1 := by
  simp [State.healthNow, hover, hf, hnone]

variable {e : Estimate × Bool} (he : s.cEst = some e)
include he

theorem healthNow_low (hlow : Low s e) : s.healthNow = 2 := by
  unfold Low at hlow
  simp [State.healthNow, hover, hf, he, hlow]

theorem healthNow_estimate (hok : ¬ Low s e) : s.healthNow = if s.current e.1 = true then 0 else 1 := by
  unfold Low at hok
  simp [State.healthNow, hover, hf, he, hok]

end

/-- A number that meets the conditions of OVERRIDE, FAULT, LOW and STALE, and is one of the five states, is the health that R330 gives. -/
theorem healthNow_unique {h : Nat} (h4 : h = 4 ↔ s.rsv.override = true) (h3 : h = 3 ↔ s.rsv.override = false ∧ s.rsv.fcause ≠ 0)
    (h2 : h = 2 ↔ s.rsv.override = false ∧ s.rsv.fcause = 0 ∧ ∃ e, s.cEst = some e ∧ Low s e)
    (h1 : h = 1 ↔ s.rsv.override = false ∧ s.rsv.fcause = 0
      ∧ ∀ e, s.cEst = some e → s.rsv.cFloor ≤ e.1.mF ∧ s.esr ≤ s.rsv.esrMax ∧ s.current e.1 = false)
    (hr : h = 0 ∨ h = 1 ∨ h = 2 ∨ h = 3 ∨ h = 4) : s.healthNow = h := by
  cases hover : s.rsv.override with
  | true => rw [healthNow_override hover, h4.mpr hover]
  | false =>
    by_cases hf : s.rsv.fcause = 0
    case neg => rw [healthNow_fault hover hf, h3.mpr ⟨hover, hf⟩]
    cases he : s.cEst with
    | none => rw [healthNow_noEstimate hover hf he, h1.mpr ⟨hover, hf, by simp [he]⟩]
    | some e =>
      by_cases hlow : Low s e
      · rw [healthNow_low hover hf he hlow, h2.mpr ⟨hover, hf, e, he, hlow⟩]
      · have hn2 : h ≠ 2 := by
          intro h
          obtain ⟨-, -, x, hx, hxlow⟩ := h2.mp h
          cases he.symm.trans hx
          exact hlow hxlow
        have hn3 : h ≠ 3 := fun h => (h3.mp h).2 hf
        have hn4 : h ≠ 4 := fun h => Bool.false_ne_true (hover.symm.trans (h4.mp h))
        rw [healthNow_estimate hover hf he hlow]
        cases hcur : s.current e.1 with
        | true =>
          have hn1 : h ≠ 1 := by
            intro h
            obtain ⟨-, -, hstale⟩ := h1.mp h
            exact Bool.false_ne_true ((hstale e he).2.2.symm.trans hcur)
          rw [if_pos rfl]
          omega
        | false =>
          have hok : s.rsv.cFloor ≤ e.1.mF ∧ s.esr ≤ s.rsv.esrMax := by unfold Low at hlow; omega
          have hstale : h = 1 := h1.mpr ⟨hover, hf, fun x hx => by
            cases he.symm.trans hx
            exact ⟨hok.1, hok.2, hcur⟩⟩
          rw [if_neg Bool.false_ne_true, hstale]

/-- Without a change of health nothing is posted (R330). -/
theorem healthChange_same {h : Nat} (hon : s.on = true) (hnow : s.healthNow = h) (hh : h = s.rsv.health) :
    Yields .healthChange s s.hush :=
  yields_of hon (show exec _ s = execHealthChange s from rfl) (if_pos (hnow.trans hh))

/-- A change of health is posted and sent to every head (R330). -/
theorem healthChange_posts {h : Nat} (hon : s.on = true) (hnow : s.healthNow = h) (hh : h ≠ s.rsv.health) :
    Yields .healthChange s
      ((State.note { s.hush with rsv := { s.rsv with health := h } }
        ⟨if h = 0 then 0 else 2, 0x0A, h + s.rsv.health * 8 + s.rsv.fcause.toNat * 64, none⟩).eventAll ⟨.memoryModule, 0x0A, h⟩) := by
  refine yields_of hon (show exec _ s = execHealthChange s from rfl) ?_
  subst hnow
  exact if_neg hh

end

/-- Settles O44: samples, the recompute of the ledger, then health and its change. That the start of withholding takes precedence over its
end is the model's reading of R338 (log 41). -/
theorem reserveGivesTheCap : Obligations.ReserveGivesTheCap := by
  unfold Obligations.ReserveGivesTheCap
  rintro s _ hon rfl
  refine ⟨fun vc ic hvc hic hdue => ?sample, fun hp hdue hwf hidle => ?recompute, fun h h4 h3 h2 h1 hr => ?health⟩
  case sample =>
    have hy := reserveSample_yields hon hvc hic hdue
    obtain ⟨vo, bv, gv, fc, li, bi, gi, qt, ts, ch, cs, cf, sp, heq, hv, hi, hboard, hrun, hhold⟩ :=
      sample_frame { s.rsv with sampleAt := s.clock } s.vlt.hold vc ic
    rw [show sampledRsv _ _ vc ic = _ from heq] at hy
    refine ⟨_, hy, hv, hi, hboard, fun hoff hstep => ?_, hhold, rfl⟩
    subst hv
    exact hrun hoff hstep
  case recompute =>
    have hy := ledgerRecompute_yields hon hp hdue
    obtain ⟨hs, mi, dc, bg, w, fu, eu, heq, hwr⟩ := ledger_frame (recomputing s.hush) 0 hwf hidle
    rw [heq] at hy
    refine ⟨_, hy, ?_, fun hfault => ?_, fun hfault => ?_, ?_, hwr, rfl⟩
    · exact dMaxAt_eq (s := recomputing s.hush) _ _ hp
    · have hcap := capAt_fault (s := recomputing s.hush) (recomputing s.hush).ledgerV 0 hfault
      exact ⟨congrArg Prod.fst hcap, congrArg Prod.snd hcap⟩
    · exact capAt_least (s := recomputing s.hush) _ _ hfault
    · exact withholds_iff _ _ _
  case health =>
    have hnow := healthNow_unique h4 h3 h2 h1 hr
    exact ⟨healthChange_same hon hnow, healthChange_posts hon hnow⟩

end Sys2Proof.Proofs.Ledger
end

