-- ==== Sys2Proof/Proofs/Occasions.lean ====
section
/-! SUPPORT. Commands that act only where the occasion for them exists. -/
namespace Sys2Proof.Proofs
open Sys2Proof Sys2Proof.Machine

section
variable {s u : State} {c : Instr} {g : State → Bool} {f : State → State}

/-- Where its occasion exists, a command yields what its effect makes of the hushed state. -/
theorem yields_when (hon : s.on = true) (hx : exec c s = run (fun s => s.when (g s) f) s) (hg : g s.hush = true)
    (h : f s.hush = u) : Yields c s u :=
  yields_of hon hx ((congrArg (fun b => s.hush.when b f) hg).trans h)

/-- Where its occasion does not exist, a command changes nothing. -/
theorem yields_idle (hon : s.on = true) (hx : exec c s = run (fun s => s.when (g s) f) s) (hg : g s.hush = false) :
    Yields c s s.hush :=
  yields_of hon hx (congrArg (fun b => s.hush.when b f) hg)

end

end Sys2Proof.Proofs
end

