-- ==== Sys2Proof/Proofs/FlushStages.lean ====
section
/-! PROOF. Admission stop, the energy of a flush and its stages 1 to 3 (R345, R350 to R354), and obligation O46. -/
namespace Sys2Proof.Proofs.FlushStages
open Sys2Proof Sys2Proof.Machine Sys2Proof.Laws Sys2Proof.Laws.Appends Sys2Proof.Laws.Flush Sys2Proof.Proofs Sys2Proof.Proofs.Commits

section
variable {s : State}

/-! ### Admission stop -/

/-- The flush leaves the SCRATCH records out: with some to write, the energy at admission stop is below what they and the floors E1 and
E3 need. An orderly shutdown writes them always (R351, R369). -/
def skipsScratch (s : State) : Bool :=
  ! s.vlt.orderly && (s.keepUnits ≠ 0 || ! s.vlt.keep.isEmpty)
    && decide (s.flushEnergy < (s.floorE1 + s.floorE3) * tenthJoule + s.pagesEnergy (2048 * s.keepUnits))

theorem skipsScratch_orderly (h : s.vlt.orderly = true) : skipsScratch s = false := by
  simp [skipsScratch, h]

/-- Admission has stopped: the snapshot for the commit record is taken, and a running checkpoint is dropped (R345, R350). -/
def admissionStopped (s : State) : State := { s with
  vlt := { s.vlt with
    stopped := true, stopAt := s.clock, eRem := s.flushEnergy, eStop := s.flushEnergy, skipScratch := skipsScratch s
    snap := some { regions := s.regions, gens := s.map.gens, swatches := s.map.swatches, warm := s.warmList } }
  beam := { s.beam with ckpt := false, ckptSegs := [], spillOut := [] } }

/-- A page that a clean has left where it began (R352). -/
def uncleaned (p : PageEntry) : PageEntry :=
  if p.cleaning then { p with cleaning := false, redirty := false, synced := 0 } else p

/-- With no record on its way every clean is abandoned (R352). -/
theorem abandonCleans_all (h : s.beam.recs = []) :
    s.abandonCleans = { s with map := { s.map with pages := s.map.pages.mapVals {} fun _ => uncleaned } } := by
  unfold State.abandonCleans
  rw [h]
  simp only [List.any_nil, Bool.not_false, Bool.and_true]
  rfl

/-- Admission stops 64 FCLK after the commit; a device without a partner sends it nothing (R345, R352). -/
theorem admissionStop_yields (hon : s.on = true) (hst : s.vlt.st = .s1) (hno : s.vlt.stopped = false)
    (hdue : s.vlt.stopAt + 64 ≤ s.clock) (hpair : s.slv.pair = .off) :
    Yields .admissionStop s (admissionStopped s.hush).abandonCleans := by
  refine yields_when hon (show exec _ s = execAdmissionStop s from rfl) (by simp [hst, hno]) ?_
  dsimp only
  rw [elapse_done (by exact hdue), hush_slv, hpair]
  rfl

/-- Admission stop in full: with no record on its way, every page keeps its entry but for an abandoned clean. -/
theorem admissionStop_completes (hon : s.on = true) (hst : s.vlt.st = .s1) (hno : s.vlt.stopped = false)
    (hdue : s.vlt.stopAt + 64 ≤ s.clock) (hpair : s.slv.pair = .off) (hrecs : s.beam.recs = []) :
    Completes .admissionStop s fun u =>
      u = { admissionStopped s.hush with map := { s.map with pages := u.map.pages } }
      ∧ (s.map.pages.wf {} = true → ∀ pn, u.page pn = uncleaned (s.page pn)) := by
  have hy := admissionStop_yields hon hst hno hdue hpair
  rw [abandonCleans_all (s := admissionStopped s.hush) hrecs] at hy
  exact ⟨_, hy, rfl, fun hwf pn => get_mapVals_wf ({} : PageEntry) (fun _ => uncleaned) pn rfl s.map.pages 0 hwf⟩

/-- Outside stage 1, and once it has come, admission stop changes nothing. -/
theorem admissionStop_idle (hon : s.on = true) (h : s.vlt.st ≠ .s1 ∨ s.vlt.stopped = true) : Yields .admissionStop s s.hush := by
  refine yields_idle hon (show exec _ s = execAdmissionStop s from rfl) ?_
  rcases h with h | h <;> simp [h]

/-! ### Energy -/

/-- Stage 2 issues nothing outside state S2 and once it has ended. -/
theorem stage2_over (h : s.vlt.st ≠ .s2 ∨ s.vlt.stage2 = true) : s.stage2 = s := by
  refine if_neg ?_
  rcases h with h | h <;> simp [h]

/-- E_rem follows the bank voltage (R350). -/
theorem energySample_yields (hon : s.on = true) (hrun : s.vlt.hold = true ∨ s.vlt.stopped = true)
    (hover : s.vlt.st ≠ .s2 ∨ s.vlt.stage2 = true) (hdue : s.vlt.eremAt + 20000 ≤ s.clock) :
    Yields .flushEnergySample s { s.hush with vlt := { s.vlt with eremAt := s.clock, eRem := s.flushEnergy } } := by
  refine yields_when hon (show exec _ s = execFlushEnergySample s from rfl) (by simpa using hrun) ?_
  dsimp only
  rw [elapse_done (by exact hdue)]
  exact stage2_over hover

/-! ### Stage 1 -/

/-- With no page and no swatch copy to issue, stage 2 issues nothing, and while it lasts no page is left (R352). -/
theorem stage2_noneLeft (hst : s.vlt.st = .s2) (h : s.nLeft = 0) :
    s.stage2 = { s with vlt := { s.vlt with left := if s.vlt.stage2 then s.vlt.left else 0 } } := by
  cases h2 : s.vlt.stage2
  · unfold State.stage2
    rw [hst, h2, h]
    simp only [State.issuePages, h]
    rfl
  · exact stage2_over (.inr h2)

/-- With only SPILL entries in the write buffer and no MARK in transit, the drain ends: the entries go to LINES records and stage 2
starts, which finds nothing to issue (R351). -/
theorem wbDrainEnd_drained (hon : s.on = true) (hst : s.vlt.st = .s1) (hstop : s.vlt.stopped = true) (hmarks : s.map.marks = [])
    (hpages : s.flushPages = []) (hcopies : s.flushCopies = []) (hwb : (s.near.wb.all fun e => e.spill) = true) :
    Yields .wbDrainEnd s { s.hush with
      beam := { s.beam with spillOut := s.beam.spillOut ++ s.lineSpills }
      vlt := { s.vlt with st := .s2, drained := true, left := if s.vlt.stage2 then s.vlt.left else 0 } } := by
  refine yields_when hon (show exec _ s = execWbDrainEnd s from rfl) (by simp [hst, hstop, -List.all_eq_true, hwb]) ?_
  dsimp only
  rw [hush_map, hmarks]
  have hleft : s.nLeft = 0 := by unfold State.nLeft; rw [hpages, hcopies]; rfl
  exact stage2_noneLeft rfl hleft

/-- An entry that is not marked SPILL keeps the drain going. -/
theorem wbDrainEnd_early (hon : s.on = true) (hwb : (s.near.wb.all fun e => e.spill) = false) : Yields .wbDrainEnd s s.hush := by
  refine yields_idle hon (show exec _ s = execWbDrainEnd s from rfl) ?_
  simp [-List.all_eq_true, -List.all_eq_false, hwb]

/-- Writing near-cache lines to their frames has ended stage 1's first part: the SCRATCH records follow, unless the flush leaves them
out (R351). -/
def cacheWritten (s : State) : State := { s with
  beam := { s.beam with spillOut := s.beam.spillOut ++ if s.vlt.skipScratch then [] else s.scratchSpills }
  vlt := { s.vlt with stage1 := true } }

section
variable (hon : s.on = true) (hstop : s.vlt.stopped = true) (hdr : s.vlt.drained = true) (hno : s.vlt.stage1 = false)
include hon hstop hdr hno

/-- STAGE1_END writes what the near cache can write; while a dirty line is left, stage 1 goes on (R351). -/
theorem stage1End_waits (hd : s.hush.flushCache.dirtyLeft = true) : Yields .stage1End s s.hush.flushCache := by
  exact yields_when hon (show exec _ s = execStage1End s from rfl) (by simp [hstop, hdr, hno]) (if_pos hd)

/-- With no dirty line left, and no partner, stage 1 ends. -/
theorem stage1End_ends {t : State} (ht : s.hush.flushCache = t) (hd : t.dirtyLeft = false) (hpair : t.slv.pair = .off) :
    Yields .stage1End s (cacheWritten t) := by
  refine yields_when hon (show exec _ s = execStage1End s from rfl) (by simp [hstop, hdr, hno]) ?_
  dsimp only
  rw [ht]
  refine (if_neg (by rw [hd]; decide)).trans ?_
  rw [hpair]
  rfl

end

/-- An empty near cache has nothing to write. -/
theorem flushCache_nil (h : s.near.nc = []) : s.flushCache = s := by
  unfold State.flushCache; rw [h]; rfl

/-- The one dirty line of a page that is not in T1 is not written: the page is on its way there (R233). -/
theorem flushCache_elsewhere {k : Nat} {w : NcWay} (hnc : s.near.nc = [(k, w)])
    (hpl : ∀ f, (s.page (pageOf (ncLine (k / 16 % 32768) w.tag))).place ≠ .t1 f) : s.flushCache = s := by
  unfold State.flushCache
  rw [hnc, List.foldl_cons, List.foldl_nil]
  dsimp only
  split
  · rename_i f _ hf; exact absurd hf (hpl f)
  · rfl

/-- The one dirty line of a page in T1 goes to its frame and stays resident, clean (R351, R359). -/
theorem flushCache_one {k f : Nat} {w : NcWay} (hnc : s.near.nc = [(k, w)]) (hv : w.v = true) (hd : w.d = true)
    (hpl : (s.page (pageOf (ncLine (k / 16 % 32768) w.tag))).place = .t1 f) :
    s.flushCache = { s.setCell f (ncLine (k / 16 % 32768) w.tag % 64) { data := w.data, poison := w.poison } with
      near := { s.near with nc := [(k, { w with d := false })] } } := by
  have hkept : ({ w with d := false } : NcWay) ≠ {} := fun h => by
    have := congrArg NcWay.v h; simp [hv] at this
  have hset : Tbl.set ({} : NcWay) [(k, w)] k { w with d := false } = [(k, { w with d := false })] := by
    rw [Tbl.set, if_neg (lt_irrefl k), if_pos rfl, Tbl.keep, if_neg hkept]
  unfold State.flushCache
  rw [hnc, List.foldl_cons, List.foldl_nil]
  dsimp only
  rw [show (w.v && w.d) = true by rw [hv, hd]; rfl, hpl]
  show ({ s.setCell f _ _ with near := { s.near with nc := s.near.nc.set {} k { w with d := false } } } : State) = _
  rw [hnc, hset]

/-- A dirty line in the near cache is left to write. -/
theorem dirtyLeft_of_line {k : Nat} {w : NcWay} (hnc : s.near.nc = [(k, w)]) (hv : w.v = true) (hd : w.d = true) :
    s.dirtyLeft = true := by
  simp [State.dirtyLeft, hnc, hv, hd]

/-- A clean line, with no hand-off under way, leaves nothing to write. -/
theorem dirtyLeft_clean {k : Nat} {w : NcWay} (hnc : s.near.nc = [(k, w)]) (hd : w.d = false) (hh : s.coh.handoff = []) :
    s.dirtyLeft = false := by
  simp [State.dirtyLeft, hnc, hd, hh]

/-- Where the flush leaves the SCRATCH records out, the end of stage 1 writes none. -/
theorem cacheWritten_skips (h : s.vlt.skipScratch = true) : cacheWritten s = { s with vlt := { s.vlt with stage1 := true } } := by
  unfold cacheWritten
  rw [h, if_pos rfl, List.append_nil]

/-! ### Stage 2 -/

section
variable (hon : s.on = true) (hst : s.vlt.st = .s2) (hno : s.vlt.stage2 = false)
include hon hst hno

/-- Stage 2 ends when no page is left (R351). -/
theorem stage2End_noneLeft (hn : s.nLeft = 0) : Yields .stage2End s { s.hush with vlt := { s.vlt with stage2 := true, left := 0 } } := by
  refine yields_when hon (show exec _ s = execStage2End s from rfl) (by simp [hst, hno]) ?_
  dsimp only
  rw [show s.hush.nLeft = 0 from hn]
  rfl

/-- In an orderly shutdown stage 2 goes on while a page is left (R369). -/
theorem stage2End_orderly (hn : s.nLeft ≠ 0) (ho : s.vlt.orderly = true) : Yields .stage2End s s.hush := by
  refine yields_when hon (show exec _ s = execStage2End s from rfl) (by simp [hst, hno]) (if_pos ?_)
  rw [hush_vlt, ho, Bool.and_true]
  exact decide_eq_true hn

/-- In a flush the energy floor or the end of FLUSH_MS ends stage 2 (R351). -/
theorem stage2End_short (ho : s.vlt.orderly = false)
    (hend : s.energyEnds s.nLeft = true ∨ s.vlt.stopAt + s.rsv.flushMs * 2000000 ≤ s.clock) :
    Yields .stage2End s { s.hush with vlt := { s.vlt with stage2 := true, left := s.nLeft } } := by
  have hnow : (if s.nLeft = 0 || s.energyEnds s.nLeft || s.vlt.orderly then s.hush
      else s.hush.elapse (s.vlt.stopAt + s.rsv.flushMs * 2000000)) = s.hush := by
    split
    · rfl
    · rename_i hgo
      rcases hend with h | h
      · rw [h] at hgo; simp at hgo
      · exact elapse_done h
  refine yields_when hon (show exec _ s = execStage2End s from rfl) (by simp [hst, hno]) ((if_neg (by simp [ho])).trans ?_)
  rw [show s.hush.nLeft = s.nLeft from rfl, show s.hush.energyEnds s.nLeft = s.energyEnds s.nLeft from rfl, hush_vlt, hush_rsv, hnow]
  rfl

end

/-! ### Stage 3 -/

/-- What stage 2 left counts as SHORT, and stage 3 begins (R354). -/
def shortCounted (s : State) : State :=
  { s with vlt := { s.vlt with st := .s3, left := 0, shortPages := s.nLeft, shortLeft := s.flushPages } }

/-- The POISON entries of what stage 2 left mark the pages and wait on the list of deltas (R354). -/
theorem poisonLeft_frame (s : State) : ∃ b p, s.poisonLeft = { s with beam := b, map := { s.map with pages := p } } := by
  obtain ⟨b, p, hpages⟩ := poison_pages s.flushPages s
  obtain ⟨b', hcopies⟩ := poison_copies s.flushCopies { s with beam := b, map := { s.map with pages := p } }
  refine ⟨b', p, ?_⟩
  unfold State.poisonLeft
  dsimp only
  rw [hpages, hcopies]

/-- What stage 3 writes: every remaining DELTA entry, the warm list of the snapshot, and the open stripes (R354). -/
def stage3Written (s : State) : State :=
  let t := (State.writeAllDeltas (s.beam.deltas.length + 1) s).writeWarm ((s.vlt.snap.map fun x => x.warm).getD [])
  (List.range 5).foldl (fun (s : State) i =>
    if ((s.beam.bufs.get none i).map fun b => ! b.recs.isEmpty) = some true then s.writeStripe i else s) t

/-- The writes of stage 3 change the log and the list of deltas alone. -/
theorem stage3Written_logged (s : State) :
    ∃ ds dt, Logged { s with beam := { s.beam with deltas := ds, deltaAt := dt } } (stage3Written s) := by
  obtain ⟨ds, dt, hdeltas⟩ := all_deltas (s.beam.deltas.length + 1) s
  refine ⟨ds, dt, (hdeltas.trans (logged_warm _ _)).trans (Logged.fold _ (fun s i => ?_) _ _)⟩
  split
  · exact logged_stripe s i
  · exact Logged.refl s

/-- Stage 3 starts when stages 1 and 2 have ended (R354). -/
theorem stage3Start_completes (hon : s.on = true) (hst : s.vlt.st = .s2) (h1 : s.vlt.stage1 = true) (h2 : s.vlt.stage2 = true) :
    Completes .stage3Start s fun u => u = { shortCounted s with
      out := u.out, beam := u.beam, map := { s.map with pages := u.map.pages }, pmc := u.pmc, pwr := u.pwr
      near := { s.near with autoOff := u.near.autoOff } } := by
  have hy : Yields .stage3Start s (stage3Written (shortCounted s.hush).poisonLeft) :=
    yields_when hon (show exec _ s = execStage3Start s from rfl) (by simp [hst, h1, h2]) rfl
  obtain ⟨b, p, hpoison⟩ := poisonLeft_frame (shortCounted s.hush)
  obtain ⟨_, _, _, _, _, _, _, _, _, _, _, _, _, hlog⟩ := stage3Written_logged (shortCounted s.hush).poisonLeft
  rw [hlog, hpoison] at hy
  exact ⟨_, hy, rfl⟩

/-! ### The commit -/

/-- The commit of a flush is in force, and the flush has its outcome (R353, R359). -/
def flushCommitted (s : State) (o : CommitOut) : State :=
  { s.inForce o.record with vlt := { (s.inForce o.record).vlt with
    drivesDone := true, outcome := if o.record.short then 2 else 1
    durMs := min 65535 (((s.inForce o.record).clock - (s.inForce o.record).vlt.stopAt) / 2000000) } }

/-- Without a custody command and without a seal, the commit changes the records of the commit and of the flush alone. -/
theorem flushCommitted_quiet {o : CommitOut} (hcmd : s.sec.cmd = none) (hseals : s.rng.seals = []) : flushCommitted s o = { s with
    pmc := (s.count (evBeam 9) 1).pmc
    beam := { s.beam with commit := some o.record, commitOut := none, cseq := max s.beam.cseq o.record.cseq }
    boot := { s.boot.keep 2 with commit := some o.record }
    vlt := { s.vlt with
      drivesDone := true, outcome := if o.record.short then 2 else 1
      durMs := min 65535 ((s.clock - s.vlt.stopAt) / 2000000) } } := by
  unfold flushCommitted
  rw [inForce_quiet hcmd hseals]

/-- Without a seal nothing waits for the commit. -/
theorem sealsAtCommit_none (h : s.rng.seals = []) : s.sealsAtCommit = s := by
  unfold State.sealsAtCommit; rw [h]; rfl

/-- Confirmed drive copies put the commit in force; no seal and no custody command waits for it (R353). -/
theorem commitConfirmed_completes {o : CommitOut} (hon : s.on = true) (ho : s.beam.commitOut = some o) (hst : s.vlt.st = .s3)
    (hno : s.vlt.drivesDone = false) (hseals : s.rng.seals = []) (hcmd : s.sec.cmd = none) :
    Completes .flushCommitConfirmed s fun u => u = { s with
      out := [], pmc := u.pmc
      beam := { s.beam with commit := some o.record, commitOut := none, cseq := max s.beam.cseq o.record.cseq }
      boot := { s.boot.keep 2 with commit := some o.record }
      vlt := { s.vlt with
        drivesDone := true, outcome := if o.record.short then 2 else 1
        durMs := min 65535 ((s.clock - s.vlt.stopAt) / 2000000) } } := by
  have hforce := flushCommitted_quiet (s := s.hush) (o := o) hcmd hseals
  have hnone : (flushCommitted s.hush o).sealsAtCommit = flushCommitted s.hush o :=
    sealsAtCommit_none (by rw [hforce]; exact hseals)
  have hy : Yields .flushCommitConfirmed s (flushCommitted s.hush o) := by
    refine yields_of hon (show exec _ s = execFlushCommitConfirmed s from rfl) ?_
    rw [hush_beam, ho]
    exact (if_pos (by simp [hst, hno])).trans hnone
  rw [hforce] at hy
  exact ⟨_, hy, rfl⟩

end

/-! ### The obligation -/

/-- Settles O46, stage by stage. The flag under which the flush leaves the SCRATCH records out is R351's comparison with the energy at
admission stop (skipsScratch). -/
theorem flushStages : Obligations.FlushStages := by
  unfold Obligations.FlushStages
  intro s hon
  refine ⟨?stop, admissionStop_idle hon, energySample_yields hon, ?drain, ?cache, ?stage2, stage3Start_completes hon, ?commit⟩
  case stop =>
    intro hst hno hdue hpair hrecs
    obtain ⟨u, hy, hu, hpages⟩ := admissionStop_completes hon hst hno hdue hpair hrecs
    exact ⟨u, hy, s.warmList, skipsScratch s, hu, skipsScratch_orderly, hpages⟩
  case drain =>
    intro hst hstop hmarks hpages hcopies
    exact ⟨wbDrainEnd_drained hon hst hstop hmarks hpages hcopies, wbDrainEnd_early hon⟩
  case cache =>
    intro hstop hdr hno hpair
    refine ⟨fun hnc hh => ?_, fun k w line hnc hv hd hline hpl => ?_, fun k w f line hnc hh hv hd hline hpl hskip => ?_⟩
    · exact stage1End_ends hon hstop hdr hno (flushCache_nil (s := s.hush) hnc) (nothing_dirty (s := s.hush) hnc hh) hpair
    · subst hline
      have hstay : s.hush.flushCache = s.hush := flushCache_elsewhere hnc hpl
      have hy := stage1End_waits hon hstop hdr hno (by rw [hstay]; exact dirtyLeft_of_line (s := s.hush) hnc hv hd)
      rwa [hstay] at hy
    · subst hline
      have hone := flushCache_one (s := s.hush) hnc hv hd hpl
      have hy := stage1End_ends hon hstop hdr hno hone (dirtyLeft_clean rfl rfl hh) hpair
      rwa [cacheWritten_skips (by exact hskip)] at hy
  case stage2 =>
    exact fun hst hno => ⟨stage2End_noneLeft hon hst hno, stage2End_orderly hon hst hno, fun _ => stage2End_short hon hst hno⟩
  case commit =>
    exact fun o ho hst hno hseals hcmd _ => commitConfirmed_completes hon ho hst hno hseals hcmd

end Sys2Proof.Proofs.FlushStages
end

