-- ==== Sys2Proof/Proofs/FlushEnd.lean ====
section
/-! PROOF. Stages 4 and 5 of a flush, the end of an orderly shutdown and of HOLD_EN, and resume (R351, R357 to R359, R369, R577), and
obligation O47. -/
namespace Sys2Proof.Proofs.FlushEnd
open Sys2Proof Sys2Proof.Machine Sys2Proof.Laws Sys2Proof.Laws.Estimates Sys2Proof.Laws.Flush Sys2Proof.Proofs

section
variable {s : State}

/-! ### The end of stage 3 -/

/-- The energy of the end is noted (R359). -/
def energyNoted (s : State) : State := { s with vlt := { s.vlt with eEnd := s.vlt.eRem } }

section
variable (hon : s.on = true) (hst : s.vlt.st = .s3) (hdone : s.vlt.drivesDone = true)
  (hgo : s.vlt.orderly = true ∨ s.vlt.recovered = false)
include hon hst hdone hgo

/-- With E4 left, and in an orderly shutdown always, stage 4 starts with the tapestry's flush (R351, R357, R528). -/
theorem stage3End_stage4 (he : s.vlt.orderly = true ∨ s.floorE4 * tenthJoule ≤ s.vlt.eRem) :
    Completes .stage3End s fun u =>
      u = { s with out := [], vlt := { s.vlt with eEnd := s.vlt.eRem, st := .s4 }, tap := u.tap } ∧ u.tap.buf = [] ∧ u.tap.flushing = true := by
  refine ⟨_, yields_when hon (show exec _ s = execStage3End s from rfl) (by simpa [hst, hdone] using hgo) (if_pos ?_), rfl, rfl, rfl⟩
  show (s.vlt.orderly || decide (s.floorE4 * tenthJoule ≤ s.vlt.eRem)) = true
  simpa using he

/-- Below E4 stage 5 comes at once (R351, R357). -/
theorem stage3End_stage5 (ho : s.vlt.orderly = false) (he : s.vlt.eRem < s.floorE4 * tenthJoule) :
    Yields .stage3End s (energyNoted s.hush).stage5 := by
  refine yields_when hon (show exec _ s = execStage3End s from rfl) (by simpa [hst, hdone] using hgo) (if_neg ?_)
  show ¬ (s.vlt.orderly || decide (s.floorE4 * tenthJoule ≤ s.vlt.eRem)) = true
  simpa [ho] using he

end

/-- Before the drive copies are confirmed stage 3 does not end, nor does it after a recovery, which resumes (R357, R358). -/
theorem stage3End_idle (hon : s.on = true)
    (h : s.vlt.st ≠ .s3 ∨ s.vlt.drivesDone = false ∨ (s.vlt.orderly = false ∧ s.vlt.recovered = true)) : Yields .stage3End s s.hush := by
  refine yields_idle hon (show exec _ s = execStage3End s from rfl) ?_
  rcases h with h | h | ⟨ho, hr⟩
  · simp [h]
  · simp [h]
  · simp [ho, hr]

/-! ### Stage 4 -/

/-- The boot flash with the final pair, ledger and life records (R351, R471, R567). -/
def finalRecords (s : State) : Boot :=
  { (s.boot.keep 3).keep 4 with
    pair := some s.pairRecord, ledger := some s.ledgerRecord
    life := (s.boot.opmin, s.boot.cycles) :: s.boot.life.take (ringEntries - 1) }

/-- The orderly shutdown is done, and the host is told (R369). -/
def shutDown (s : State) : State := ({ s with vlt := { s.vlt with st := .shutdownDone } } : State).emit .shutdownDone

/-- How stage 4 goes on once its records are written: an orderly shutdown is done, or restarts for a soft reset; a stage 4 that a resume
found unfinished ends; a flush goes on to stage 5 (R351, R358, R369, R577). -/
def afterRecords (s : State) : State :=
  if s.vlt.orderly then if s.vlt.soft then (shutDown s).softRestart.emit .coldReset else shutDown s
  else if s.vlt.tail then { s with vlt := { s.vlt with tail := false } }
  else s.stage5

/-- The end of stage 4, with the tapestry's flush over. -/
theorem stage4End_yields (hon : s.on = true) (hst : s.vlt.st = .s4 ∨ s.vlt.tail = true) (hf : s.tap.flushing = false) :
    Yields .stage4End s (afterRecords { s.hush with boot := finalRecords s }) := by
  refine yields_when hon (show exec _ s = execStage4End s from rfl) (by rcases hst with h | h <;> simp [h]) ?_
  dsimp only
  rw [hush_tap, hf]
  rfl

/-! ### The restart of a soft reset -/

/-- With no commit on its way the drives hold the commit in force. -/
theorem powerOff_commit (h : s.beam.commitOut = none) : s.powerOff.beam.commit = s.beam.commit := by
  unfold State.powerOff State.survivingCommit
  rw [h]
  rfl

/-- A restart keeps what log 113 lists (R576, R577) and reads the records of the boot flash; no near-cache way waits for its retirement. -/
theorem softRestart_frame (h : s.boot.pendNc = 0) : ∃ r v, s.softRestart = { s.powerOff with
    on := true
    pins := { reset := false, goodAt := s.pins.goodAt }
    glb := { straps := s.glb.straps, present := s.glb.present, steward := s.glb.image.isSome, image := s.glb.image
             mgmtHead := s.glb.mgmtHead }
    ports := { laneRet := s.ports.laneRet }
    heads := s.heads.mapVals {} fun _ x => x.softReset
    vlt := { held := s.vlt.held, floor := v }
    dram := { ch := s.dram.ch.mapVals {} fun _ c => c.softReset, fullNext := s.powerOff.dram.fullNext }
    pmc := { cnt := s.pmc.cnt, ovf := s.pmc.ovf }
    rsv := r } := by
  unfold State.softRestart
  dsimp only
  obtain ⟨r, v, hload, -⟩ := loads_eq _
  rw [hload, scratch_none (by exact h)]
  exact ⟨r, v, rfl⟩

/-! ### HOLD_EN -/

/-- RESET# that is deasserted takes no effect (R565). -/
theorem resetPending_off (h : s.pins.reset = false) : s.resetPending = s := by
  unfold State.resetPending; rw [h]; rfl

/-- HOLD_EN falls after stage 5, and a RESET# that is still low takes effect (R351, R357, R565). -/
theorem holdEnDeassert_yields (hon : s.on = true) (hst : s.vlt.st = .s5) :
    Yields .holdEnDeassert s ({ s.hush with vlt := { s.vlt with hold := false, st := .wait } } : State).resetPending :=
  yields_when hon (show exec _ s = execHoldEnDeassert s from rfl) (by simp [hst]) rfl

/-- Outside stage 5 HOLD_EN stays. -/
theorem holdEnDeassert_idle (hon : s.on = true) (hst : s.vlt.st ≠ .s5) : Yields .holdEnDeassert s s.hush :=
  yields_idle hon (show exec _ s = execHoldEnDeassert s from rfl) (by simp [hst])

/-- With RESET# low nothing but the boot flash and the drives stays (R564, R565). -/
theorem holdEnDeassert_reset (hon : s.on = true) (hst : s.vlt.st = .s5) (hr : s.pins.reset = true) :
    Completes .holdEnDeassert s fun u => u.on = false ∧ u.vlt = {} ∧ u.boot = s.boot ∧ u.pending = s.pending := by
  have hy := holdEnDeassert_yields hon hst
  unfold State.resetPending at hy
  rw [if_pos (by exact hr)] at hy
  exact ⟨_, hy, rfl, rfl, rfl, rfl⟩

/-! ### Resume -/

/-- The device runs again, with admission open and its drives up (R358, R359). -/
def resumed (s : State) : State := { s with
  vlt := { s.vlt with
    st := if s.vlt.braceOn then .brace else .run
    tail := decide (s.vlt.st = .s4), selfRefresh := false, hold := false, stopped := false, held := [], snap := none
    resumeKind := 1, writable := true, drivesDone := false
    drained := false, stage1 := false, stage2 := false, left := 0 }
  beam := { s.beam with slots := s.beam.slots.mapVals {} fun _ x => { x with shutdown := false }, spillOut := [], commitOut := none }
  slv := { s.slv with stopMack := false } }

/-- What waited for the flush to end goes on: held requests, writes that found no entry, credits, recalls, held answers, seals and an
ERASE (R358). -/
def waitersServed (s : State) (held : List Req) : State :=
  let t := (List.range 16).foldl (fun (s : State) t => s.retryWrites t) (held.foldl (fun (s : State) q => s.acceptHeld q) s)
  (t.presentHeads.foldl (fun (s : State) h => s.returnCredits h) t).restartRecalls.releaseBirsps.checkSeals.eraseGo

/-- Nothing waits for the flush to end. -/
structure NoWaiters (s : State) : Prop where
  txns : s.coh.txns = []
  birsps : s.coh.heldBirsp = []
  writes : s.near.wbRetry = []
  seals : s.rng.seals = []
  cmd : s.sec.cmd = none
  credits : ∀ h, (s.head h).kept = 0 ∧ (s.head h).waitQ = []

theorem retryWrites_idle (hw : s.near.wbRetry = []) (hb : s.coh.heldBirsp = []) (l : List Nat) :
    l.foldl (fun (s : State) t => s.retryWrites t) s = s := by
  induction l with
  | nil => rfl
  | cons t l ih => rw [List.foldl_cons, retryWrites_nil hw hb, ih]

theorem restartRecalls_none (h : s.coh.txns = []) : s.restartRecalls = s := by
  unfold State.restartRecalls; rw [h]; rfl

theorem eraseGo_none (h : s.sec.cmd = none) : s.eraseGo = s := by
  unfold State.eraseGo; rw [h]

/-- Where nothing waits, nothing goes on. -/
theorem waitersServed_none (h : NoWaiters s) : waitersServed s [] = s := by
  unfold waitersServed
  rw [List.foldl_nil, retryWrites_idle h.writes h.birsps]
  dsimp only
  rw [credits_idle h.credits, restartRecalls_none h.txns, releaseBirsps_none h.birsps, checkSeals_nil h.seals, eraseGo_none h.cmd]

/-- Confirmed drive copies and recovery resume the device, from stage 3 on (R357, R358). -/
theorem resume_yields (hon : s.on = true) (hdone : s.vlt.drivesDone = true) (hrec : s.vlt.recovered = true) (ho : s.vlt.orderly = false)
    (hst : s.vlt.st ∈ [.s3, .s4, .s5, .wait]) :
    Yields .resume s (waitersServed (resumed s.hush) s.vlt.held).resetPending := by
  refine yields_when hon (show exec _ s = execResume s from rfl) ?_ rfl
  show (s.vlt.drivesDone && s.vlt.recovered && ! s.vlt.orderly
    && (decide (s.vlt.st = .s3) || decide (s.vlt.st = .s4) || decide (s.vlt.st = .s5) || decide (s.vlt.st = .wait))) = true
  simpa [hdone, hrec, ho, or_assoc] using hst

/-- A resume with nothing that waits changes the vault's record, the drives' and the link's alone. -/
theorem resume_quiet (hon : s.on = true) (hdone : s.vlt.drivesDone = true) (hrec : s.vlt.recovered = true) (ho : s.vlt.orderly = false)
    (hst : s.vlt.st ∈ [.s3, .s4, .s5, .wait]) (hheld : s.vlt.held = []) (hw : NoWaiters s) (hreset : s.pins.reset = false) :
    Yields .resume s (resumed s.hush) := by
  have hy := resume_yields hon hdone hrec ho hst
  rwa [hheld, waitersServed_none (s := resumed s.hush) ⟨hw.txns, hw.birsps, hw.writes, hw.seals, hw.cmd, hw.credits⟩,
    resetPending_off (by exact hreset)] at hy

/-- Without confirmed drive copies, without recovery and in an orderly shutdown nothing resumes (R357, R369). -/
theorem resume_idle (hon : s.on = true) (h : s.vlt.drivesDone = false ∨ s.vlt.recovered = false ∨ s.vlt.orderly = true) :
    Yields .resume s s.hush := by
  refine yields_idle hon (show exec _ s = execResume s from rfl) ?_
  rcases h with h | h | h <;> simp [h]

/-- Every drive is up after a resume. -/
theorem resumed_slot (hwf : s.beam.slots.wf {} = true) (i : Nat) : (resumed s).slot i = { s.slot i with shutdown := false } :=
  get_mapVals_wf ({} : Slot) (fun _ x => { x with shutdown := false }) i rfl s.beam.slots 0 hwf

end

/-! ### The obligation -/

/-- Settles O47, stage by stage. That a soft reset keeps the held requests is the model's reading of R576 and R577 (log 113). -/
theorem flushEndsAndResumes : Obligations.FlushEndsAndResumes := by
  unfold Obligations.FlushEndsAndResumes
  intro s hon
  refine ⟨?stage3, stage3End_idle hon, ?stage4, ?hold, fun hst hr _ => holdEnDeassert_reset hon hst hr, holdEnDeassert_idle hon,
    ?resume, resume_idle hon⟩
  case stage3 =>
    intro hst hdone hgo
    refine ⟨stage3End_stage4 hon hst hdone hgo, fun ho he hup => ?_, fun i x hi ho he hup hx => ?_⟩
    · have hy := stage3End_stage5 hon hst hdone hgo ho he
      rwa [stage5_none (by exact hup)] at hy
    · have hy := stage3End_stage5 hon hst hdone hgo ho he
      rwa [stage5_one hi (by exact hup) (by exact hx)] at hy
  case stage4 =>
    intro hst hf
    have hy := stage4End_yields hon hst hf
    refine ⟨fun ho ht hup => ?_, fun ho ht => ?_, fun ho hs => ?_, fun ho hs hnc => ?_⟩
    · rwa [afterRecords, if_neg (by simp [ho]), if_neg (by simp [ht]), stage5_none (by exact hup)] at hy
    · rwa [afterRecords, if_neg (by simp [ho]), if_pos (by exact ht)] at hy
    · rwa [afterRecords, if_pos (by exact ho), if_neg (by simp [hs])] at hy
    · rw [afterRecords, if_pos (by exact ho), if_pos (by exact hs)] at hy
      obtain ⟨r, v, hrestart⟩ := softRestart_frame (s := shutDown { s.hush with boot := finalRecords s }) hnc
      rw [hrestart] at hy
      exact ⟨_, hy, rfl, rfl, rfl, rfl, rfl, rfl, rfl, rfl, rfl, rfl, rfl, rfl, rfl, rfl,
        powerOff_commit (s := shutDown { s.hush with boot := finalRecords s })⟩
  case hold =>
    intro hst hr
    have hy := holdEnDeassert_yields hon hst
    rwa [resetPending_off (by exact hr)] at hy
  case resume =>
    intro hdone hrec ho hst hheld htxns hbirsps hwrites hseals hcmd hreset hcredits
    have hw : NoWaiters s := ⟨htxns, hbirsps, hwrites, hseals, hcmd, hcredits⟩
    exact ⟨_, resume_quiet hon hdone hrec ho hst hheld hw hreset, rfl, resumed_slot⟩

end Sys2Proof.Proofs.FlushEnd
end

