-- ==== Sys2Proof/Proofs/ServiceTime.lean ====
section
/-! PROOF. The service-time contract (chapter 11): the recompute of capacities, scales and rates in force (R378 to R380), the token
buckets (R373), the grade of a DevLoad window (R393, R394), and obligation O33. -/
namespace Sys2Proof.Proofs.ServiceTime
open Sys2Proof Sys2Proof.Machine Sys2Proof.Laws Sys2Proof.Proofs

section
variable {s : State} {h : Nat}

/-! ### The recompute -/

theorem mem_presentHeads : h ∈ s.presentHeads ↔ s.present h = true ∧ h < 16 :=
  (Stripes.mem_bitsOf s.glb.present).trans and_comm

/-- The DRAM scale: a WRITE counts three times against the capacity (R379). -/
theorem qosRecompute_scaleD (s : State) :
    s.qosRecompute.qos.scaleD = scaleOf s.capDram ((s.presentHeads.map fun k => (s.rates2 k).1 + 3 * (s.rates2 k).2.1).sum) :=
  congrArg (fun l => scaleOf s.capDram (List.sum l)) List.map_map

theorem qosRecompute_scaleB (s : State) :
    s.qosRecompute.qos.scaleB = scaleOf s.capBeam ((s.presentHeads.map fun k => (s.rates2 k).2.2).sum) :=
  congrArg (fun l => scaleOf s.capBeam (List.sum l)) List.map_map

/-- A recompute sets the rates in force of every head that exists and cuts its buckets, counted to now; it leaves the other budgets
(R379, R380). -/
theorem qosRecompute_budget (hwf : s.qos.heads.wf {} = true) (h : Nat) :
    s.qosRecompute.qos.heads.get {} h = if s.present h = true ∧ h < 16 then
      (s.budget h).setRates (s.rates2 h) s.qosRecompute.qos.scaleD s.qosRecompute.qos.scaleB else s.qos.heads.get {} h := by
  have hfold := Io.fold_set {} (fun k => (s.budget k).setRates (s.rates2 k) s.qosRecompute.qos.scaleD s.qosRecompute.qos.scaleB)
    s.presentHeads (Stripes.bitsOf_nodup s.glb.present) s.qos.heads hwf h
  simp only [mem_presentHeads] at hfold
  exact hfold

/-! ### Token buckets -/

/-- The buckets k cycles after they were last counted (R373). -/
theorem filled_after {b : Budget} {k now : Nat} (hnow : now = b.filledAt + k) : b.filled now =
    { b with rd := min b.rdCap (b.rd + b.rdRate * k), wr := min b.wrCap (b.wr + b.wrRate * k), bm := min b.bmCap (b.bm + b.bmRate * k),
             filledAt := now } := by
  subst hnow
  simp only [Budget.filled, refill, Nat.add_sub_cancel_left]

/-- A refill that is due counts the buckets of a head that exists to now. -/
theorem tokenBucketRefill_yields {n : Nat} (hon : s.on = true) (hp : s.present h = true)
    (hdue : (s.qos.heads.get {} h).filledAt + n ≤ s.clock) :
    Yields (.tokenBucketRefill h n) s (s.hush.setBudget h (s.budget h)) := by
  refine yields_when hon (show exec _ s = execTokenBucketRefill h n s from rfl) hp ?_
  have hstay : s.hush.elapse ((s.hush.qos.heads.get {} h).filledAt + n) = s.hush := elapse_done hdue
  dsimp only
  rw [hstay]
  rfl

/-! ### The DevLoad window -/

/-- Severe overload: a quarter of the window's requests were demoted, or one waited 50 µs (R393). -/
def Severe (l : Load) (w : Nat) : Prop := (l.demoted ≠ 0 ∧ l.reqs ≤ 4 * l.demoted) ∨ 50 ≤ w

section
variable {l : Load} {b : Budget} {w : Nat}

theorem budgetLoad_severe (hs : Severe l w) : budgetLoad l b w = 3 :=
  if_pos (by simpa [Severe] using hs)

theorem budgetLoad_notSevere (hs : ¬ Severe l w) :
    budgetLoad l b w = if l.demoted ≠ 0 || 10 ≤ w then 2 else if 2 * b.rd < b.rdCap || 2 * b.wr < b.wrCap then 1 else 0 :=
  if_neg (by simpa [Severe] using hs)

theorem budgetLoad_moderate (hs : ¬ Severe l w) (hm : l.demoted ≠ 0 ∨ 10 ≤ w) : budgetLoad l b w = 2 := by
  rw [budgetLoad_notSevere hs, if_pos (by simpa using hm)]

/-- Without a demoted request and a wait of 10 µs the buckets decide: 1 when READ or WRITE holds less than half of its burst (R393). -/
theorem budgetLoad_calm (hd : l.demoted = 0) (hw : w < 10) :
    budgetLoad l b w = if 2 * b.rd < b.rdCap ∨ 2 * b.wr < b.wrCap then 1 else 0 := by
  rw [budgetLoad_notSevere (by unfold Severe; omega), if_neg (by simpa [hd] using hw)]
  simp only [Bool.or_eq_true, decide_eq_true_eq]

end

/-- A change of a load record depends on what it makes of that record alone. -/
theorem modLoad_congr {f g : Load → Load} (hfg : f (s.head h).load = g (s.head h).load) : s.modLoad h f = s.modLoad h g :=
  congrArg (fun l => { s with heads := s.heads.set {} h { s.head h with load := l } }) hfg

/-- The load record with which a new window starts (R394). -/
def newWindow (l : Load) (grade now : Nat) : Load :=
  { l with budget := grade, since := now, demotePct := if l.reqs = 0 then 0 else l.demoted * 100 / l.reqs, reqs := 0, demoted := 0 }

/-- Once its window is over, a head's budget load is graded and a new count starts (R393, R394). -/
theorem devloadWindowEnd_yields {w : Nat} (hon : s.on = true) (hp : s.present h = true)
    (hover : (s.head h).load.since + max 1 (fld s.qos.ctl 8 8) * 2000 ≤ s.clock) :
    Yields (.devloadWindowEnd h w) s
      (s.hush.modLoad h fun l => newWindow l (budgetLoad (s.head h).load (s.budget h) w) s.clock) := by
  refine yields_when hon (show exec _ s = execDevloadWindowEnd h w s from rfl) hp ?_
  have hstay : s.hush.elapse ((s.hush.head h).load.since + max 1 (fld s.hush.qos.ctl 8 8) * 2000) = s.hush := elapse_done hover
  dsimp only
  rw [hstay]
  exact modLoad_congr (s := s.hush) rfl

end

/-! ### The obligation -/

/-- Settles O33: the recompute, the refill and the end of a window, each by the law of its command. -/
theorem ratesBucketsAndLoads : Obligations.RatesBucketsAndLoads := by
  unfold Obligations.RatesBucketsAndLoads
  intro s h hon
  refine ⟨?recompute, ?refill, ?window⟩
  case recompute =>
    refine completes_of hon (show exec _ s = execQosRateRecompute s from rfl)
      ⟨rfl, rfl, qosRecompute_scaleD s.hush, qosRecompute_scaleB s.hush, fun hwf b hb => ?_, rfl⟩
    subst hb
    exact qosRecompute_budget (s := s.hush) hwf h
  case refill =>
    intro hp n k b c hb hn hclk hc
    subst hb
    have hcount : s.budget h = c := (filled_after hclk).trans hc.symm
    have hy := tokenBucketRefill_yields hon hp (n := n) (by omega)
    rw [hcount] at hy
    exact ⟨hcount, hy⟩
  case window =>
    intro hp w l b g hl hb hover hgrade
    subst hl hb
    have hg : budgetLoad (s.head h).load (s.budget h) w = g := by
      rcases hgrade with ⟨rfl, hs⟩ | ⟨rfl, hs, hm⟩ | ⟨rfl, hd, hw, hlow⟩ | ⟨rfl, hd, hw, hrd, hwr⟩
      · exact budgetLoad_severe hs
      · exact budgetLoad_moderate hs hm
      · exact (budgetLoad_calm hd hw).trans (if_pos hlow)
      · exact (budgetLoad_calm hd hw).trans (if_neg (by omega))
    have hy := devloadWindowEnd_yields (w := w) hon hp hover
    rw [hg] at hy
    exact hy

end Sys2Proof.Proofs.ServiceTime
end

