-- ==== Sys2Proof/Proofs/Safety.lean ====
section
/-! PROOF. Steps and runs (R494, R578, R594): the front command, a device without power, RESET# during a hold, the pin interlock and ALERT#,
and obligations O1, O3, O4 and O6. -/
namespace Sys2Proof.Proofs.Safety
open Sys2Proof Sys2Proof.Machine Sys2Proof.Laws Sys2Proof.Laws.Errors Sys2Proof.Proofs Sys2Proof.Proofs.FlushEnd

section
variable {s t : State} {c : Instr}

/-! ### What a safe state says of the pins -/

/-- The interlock of the charger, the test load and the hold-up switch, read off a safe state (R594). -/
theorem Safe.interlocked (h : s.Safe) :
    (s.rsv.charging = true → s.rsv.testing = false ∧ s.vlt.hold = false) ∧ (s.rsv.testing = true → s.vlt.hold = false) := by
  have hp := h.1
  unfold State.pinsSafe at hp
  generalize s.rsv.charging = charging, s.rsv.testing = testing, s.vlt.hold = hold at hp ⊢
  revert charging testing hold
  decide

/-- In a safe state ALERT# is what its causes make it (R494, R578). -/
theorem Safe.alert_eq (h : s.Safe) : s.flt.alert = s.flt.alertDue := by
  have ha := h.2
  unfold State.alertSafe at ha
  exact beq_iff_eq.mp (Bool.and_eq_true_iff.mp ha).1

/-- A fatal error asks for ALERT# (R578). -/
theorem alertDue_of_fatal {f : Flt} (h : f.fatal.isSome = true) : f.alertDue = true := by
  simp [Flt.alertDue, h]

/-- A FIFO at its high watermark asks for ALERT# (R494). -/
theorem alertDue_of_hi {f : Flt} (h : f.hi ≤ f.fifo.length) : f.alertDue = true := by
  simp [Flt.alertDue, Flt.alertMark, h]

/-! ### Steps and runs -/

/-- Every command ends by settling, so it answers a safe state. -/
theorem exec_safe (h : exec c s = .next t) : t.Safe := by
  obtain ⟨u, hu⟩ := exec_next c s
  obtain rfl : settle u = t := Host.Outcome.next.inj (hu.symm.trans h)
  exact settle_safe u

/-- Every step from a safe state answers a safe state. -/
theorem step_safe (h : s.Safe) : ∃ t, step s = .next t ∧ t.Safe := by
  unfold step
  cases s.pending with
  | nil => exact ⟨s.tick, rfl, tick_safe h⟩
  | cons c cs =>
    obtain ⟨u, hu⟩ := exec_next c { s with pending := cs }
    exact ⟨settle u, hu, settle_safe u⟩

/-- Every run from a safe state is safe, however long. -/
theorem run_safe (k : Nat) (h : s.Safe) : ∃ t, SafeRun k s t := by
  induction k generalizing s with
  | zero => exact ⟨s, h, rfl⟩
  | succ k ih =>
    obtain ⟨u, hstep, hu⟩ := step_safe h
    obtain ⟨t, hrun⟩ := ih hu
    exact ⟨t, h, u, hstep, hrun⟩

/-! ### A device that is off -/

/-- All commands but the two that move RESET# act on a running device alone (log 3). -/
theorem exec_gated (s : State) (hgood : ∀ st ok, c ≠ .supplyGood st ok) (hreset : c ≠ .resetAssert) :
    ∃ u, exec c s = .next (settle (if s.on then u else s)) := by
  cases c
  case supplyGood st ok => exact absurd rfl (hgood st ok)
  case resetAssert => exact absurd rfl hreset
  all_goals exact ⟨_, rfl⟩

/-- So they leave a safe device that is off as it is. -/
theorem exec_off (hoff : s.on = false) (hs : s.Safe) (hgood : ∀ st ok, c ≠ .supplyGood st ok) (hreset : c ≠ .resetAssert) :
    exec c s = .next s := by
  obtain ⟨u, hu⟩ := exec_gated s hgood hreset
  rw [hu, if_neg (by simp [hoff]), settle_eq hs]

/-! ### RESET# -/

/-- RESET# that has no effect on a device that is off or in a hold is recorded (R564, R565). -/
theorem resetAssert_recorded (h : s.on = false ∨ s.vlt.hold = true) :
    Yields .resetAssert s { s.hush with pins := { s.pins with reset := true } } :=
  yields_always (show exec _ s = execResetAssert s from rfl) (if_neg (by rcases h with h | h <;> simp [h]))

/-- RESET# takes effect on a device that runs outside a hold (R564). -/
theorem resetAssert_resets (hon : s.on = true) (hh : s.vlt.hold = false) :
    Yields .resetAssert s (State.powerOff { s.hush with pins := { s.pins with reset := true } }) :=
  yields_always (show exec _ s = execResetAssert s from rfl) (if_pos (by simp [hon, hh]))

/-- A device that runs goes on when RESET# deasserts (R565). -/
theorem supplyGood_running (hon : s.on = true) (x : Straps) (f : FlashReport) :
    Yields (.supplyGood x f) s { s.hush with pins := { s.pins with reset := false } } :=
  yields_always (show exec _ s = execSupplyGood x f s from rfl) (if_pos hon)

/-- A RESET# that still stands takes effect when HOLD_EN falls (R565). -/
theorem holdEnDeassert_powerOff (hon : s.on = true) (hst : s.vlt.st = .s5) (hr : s.pins.reset = true) :
    Yields .holdEnDeassert s (State.powerOff { s.hush with vlt := { s.vlt with hold := false, st := .wait } }) := by
  have hy := holdEnDeassert_yields hon hst
  unfold State.resetPending at hy
  rwa [if_pos (by exact hr)] at hy

end

/-! ### The obligations -/

/-- Settles O1: the two arms of a step, and the tick of a device that is off and of one that is on. -/
theorem stepTakesTheFrontCommand : Obligations.StepTakesTheFrontCommand := by
  unfold Obligations.StepTakesTheFrontCommand
  intro s
  refine ⟨fun c cs hp => ?_, fun hp => ?_, fun hoff => if_neg (by simp [hoff]), fun hon => ⟨_, if_pos hon⟩⟩
  · unfold step; rw [hp]
  · unfold step; rw [hp]

/-- Settles O3: one step, every run, and what the settling at the end of a command says of the pins. -/
theorem everyRunStaysSafe : Obligations.EveryRunStaysSafe := by
  unfold Obligations.EveryRunStaysSafe
  refine ⟨fun _ => step_safe, fun k _ => run_safe k, fun c s t hx => ?_⟩
  have ht := exec_safe hx
  obtain ⟨hcharge, htest⟩ := Safe.interlocked ht
  have halert := Safe.alert_eq ht
  exact ⟨ht, hcharge, htest, fun h => halert.trans (alertDue_of_fatal h), fun h => halert.trans (alertDue_of_hi h)⟩

/-- Settles O4: RESET# is recorded, and no other command than supply-good acts on a device that is off. That it takes none is the model's
choice (log 3). -/
theorem anUnpoweredDeviceTakesNoCommand : Obligations.AnUnpoweredDeviceTakesNoCommand := by
  unfold Obligations.AnUnpoweredDeviceTakesNoCommand
  intro c s hoff hs
  refine ⟨exec_off hoff hs, (resetAssert_recorded (.inl hoff)).trans (congrArg Host.Outcome.next (settle_eq ?_))⟩
  exact hs

/-- Settles O6: RESET# is recorded during a hold and taken, if it stands, when the hold ends. -/
theorem resetWaitsForTheHold : Obligations.ResetWaitsForTheHold := by
  unfold Obligations.ResetWaitsForTheHold
  intro s hon hh
  refine ⟨resetAssert_recorded (.inr hh), supplyGood_running hon, fun hst hr => ?_, fun hst hr => ?_, holdEnDeassert_idle hon⟩
  · exact ⟨_, holdEnDeassert_powerOff hon hst hr, rfl, rfl, rfl, rfl, rfl, rfl, rfl⟩
  · have hy := holdEnDeassert_yields hon hst
    rwa [resetPending_off (by exact hr)] at hy

end Sys2Proof.Proofs.Safety
end

