-- ==== Sys2Proof/Proofs/Notices.lean ====
section
/-! PROOF. Notices (R490 to R492): their words, their entry into the FIFO, the frame of posting one, and obligation O5. -/
namespace Sys2Proof.Proofs.Notices
open Sys2Proof Sys2Proof.Machine Sys2Proof.Laws Sys2Proof.Proofs

/-! ### The words -/

/-- A bit of a number placed in a word. -/
theorem flag_atBit (v lo i : Nat) : flag (atBit v lo) i = (decide (i < 64) && decide (lo ≤ i) && v.testBit (i - lo)) := by
  simp [flag, atBit, BitVec.getLsbD_ofNat, Nat.testBit_shiftLeft, Bool.and_assoc]

theorem flag_or (a b : Word) (i : Nat) : flag (a ||| b) i = (flag a i || flag b i) := BitVec.getLsbD_or

/-- A field below bit i leaves it clear. -/
theorem flag_below {v lo len i : Nat} (h : lo + len ≤ i) : flag (atBit (v % 2 ^ len) lo) i = false := by
  have hv : (v % 2 ^ len).testBit (i - lo) = false := by rw [Nat.testBit_mod_two_pow]; simp; omega
  rw [flag_atBit, hv, Bool.and_false]

/-- Bit 63 of a notice's first word says that it is valid, bit 61 that it is the last (R490). -/
theorem noteWord0_flags (sev words cls arg0 : Nat) :
    flag (noteWord0 sev words cls arg0) 63 = true ∧ flag (noteWord0 sev words cls arg0) 61 = decide (words = 1) := by
  have below : ∀ i, 61 ≤ i → flag (atBit (sev % 4) 59 ||| atBit (words % 4) 57 ||| atBit (cls % 256) 48
      ||| atBit (arg0 % 2 ^ 48) 0) i = false := by
    intro i hi
    have hsev : flag (atBit (sev % 4) 59) i = false := flag_below (len := 2) (by omega)
    have hwords : flag (atBit (words % 4) 57) i = false := flag_below (len := 2) (by omega)
    have hcls : flag (atBit (cls % 256) 48) i = false := flag_below (len := 8) (by omega)
    have harg : flag (atBit (arg0 % 2 ^ 48) 0) i = false := flag_below (by omega)
    rw [flag_or, flag_or, flag_or, hsev, hwords, hcls, harg]
    rfl
  have split : ∀ i, 61 ≤ i → flag (noteWord0 sev words cls arg0) i
      = (flag (atBit 1 63) i || flag (atBit (if words = 1 then 1 else 0) 61) i) := by
    intro i hi
    have hb := below i hi
    simp only [flag_or, Bool.or_eq_false_iff] at hb
    obtain ⟨⟨⟨hsev, hwords⟩, hcls⟩, harg⟩ := hb
    simp only [noteWord0, flag_or, hsev, hwords, hcls, harg, Bool.or_false]
  constructor
  · rw [split 63 (by omega), flag_atBit]; rfl
  · rw [split 61 (by omega), flag_atBit, flag_atBit]
    by_cases h : words = 1 <;> simp [h]

/-- The second word of a notice is valid and the last. -/
theorem noteWord1_flags (a : Nat) :
    flag (atBit 1 63 ||| atBit 1 61 ||| atBit (a % 2 ^ 61) 0) 63 = true ∧ flag (atBit 1 63 ||| atBit 1 61 ||| atBit (a % 2 ^ 61) 0) 61 = true := by
  simp only [flag_or, flag_atBit]
  exact ⟨rfl, rfl⟩

/-- A notice has one word, or two with an ARG1; its last word alone says that it is; every word is valid. -/
theorem words_form (n : Note) : n.words.length = (if n.arg1 = none then 1 else 2)
    ∧ (n.words.map fun w => flag w 61).getLast? = some true ∧ ∀ w ∈ n.words, flag w 63 = true := by
  unfold Note.words
  cases n.arg1 with
  | none =>
    obtain ⟨hvalid, hlast⟩ := noteWord0_flags n.sev 1 n.cls n.arg0
    exact ⟨rfl, congrArg some hlast, List.forall_mem_singleton.mpr hvalid⟩
  | some a =>
    obtain ⟨hfirst, -⟩ := noteWord0_flags n.sev 2 n.cls n.arg0
    obtain ⟨hsecond, hlast⟩ := noteWord1_flags a
    exact ⟨rfl, congrArg some hlast, List.forall_mem_cons.mpr ⟨hfirst, List.forall_mem_singleton.mpr hsecond⟩⟩

/-! ### The FIFO -/

section
variable {f : Flt} {ws : List Word}

theorem enter_room (hd : f.dropped = 0) (h : f.fifo.length + ws.length ≤ 1024) : f.enter ws = { f with fifo := f.fifo ++ ws } := by
  rw [Flt.enter, if_pos hd, if_pos h]

theorem enter_full (hd : f.dropped = 0) (h : 1024 < f.fifo.length + ws.length) :
    f.enter ws = { f with dropped := 1, droppedTotal := min (f.droppedTotal + 1) (2 ^ 32 - 1) } := by
  rw [Flt.enter, if_pos hd, if_neg (by omega)]

theorem enter_overflowed (hd : f.dropped ≠ 0) (h : f.fifo.length + ws.length + 1 ≤ 1024) :
    f.enter ws = { f with fifo := f.fifo ++ overflowWord f.dropped :: ws, dropped := 0 } := by
  rw [Flt.enter, if_neg hd, if_pos h]

theorem enter_dropped (hd : f.dropped ≠ 0) (h : 1024 < f.fifo.length + ws.length + 1) :
    f.enter ws = { f with dropped := f.dropped + 1, droppedTotal := min (f.droppedTotal + 1) (2 ^ 32 - 1) } := by
  rw [Flt.enter, if_neg hd, if_neg (by omega)]

end

/-! ### The frame of posting -/

section
variable (s : State)

/-- An interrupt adds to what is sent, and takes nothing back. -/
theorem sendMsix_appends (h v : Nat) : ∃ hs o, s.sendMsix h v = { s with heads := hs, out := s.out ++ o } := by
  unfold State.sendMsix
  split
  · exact ⟨_, [], by rw [List.append_nil]; rfl⟩
  · exact ⟨_, _, rfl⟩

/-- So does an event record with its interrupt. -/
theorem event_appends (h : Nat) (e : EventRec) : ∃ hs o, s.event h e = { s with heads := hs, out := s.out ++ o } := by
  unfold State.event
  dsimp only
  split
  · split
    · obtain ⟨hs, o, hm⟩ := sendMsix_appends (s.modFunc h fun f => { f with
        events := f.events ++ [⟨e.log, f.nextHandle, e⟩], nextHandle := f.nextHandle % 65535 + 1 }) h _
      exact ⟨hs, o, hm⟩
    · exact ⟨_, [], by rw [List.append_nil]; rfl⟩
  · exact ⟨_, [], by rw [List.append_nil]⟩

/-- A notice is entered, recorded and counted before the management head has its event record. -/
theorem note_eq (n : Note) : ∃ t p, s.note n =
    if n.sev ≥ 2 && ! noteReported n.cls then
      State.event { s with flt := s.flt.enter n.words, tap := t, pmc := p } s.mgmtHead ⟨.vendor, n.cls, n.arg0⟩
    else { s with flt := s.flt.enter n.words, tap := t, pmc := p } := by
  obtain ⟨t, p, h⟩ := tapEvent_cases ({ s with flt := s.flt.enter n.words } : State) n
  unfold State.note
  dsimp only
  rw [h]
  have counted : ∃ p2, (if (s.flt.enter n.words).dropped = 0
      then State.count { s with flt := s.flt.enter n.words, tap := t, pmc := p } 1 (if s.flt.dropped = 0 then 1 else 2)
      else State.count { s with flt := s.flt.enter n.words, tap := t, pmc := p } 2 1)
      = { s with flt := s.flt.enter n.words, tap := t, pmc := p2 } := by
    split <;> exact ⟨_, rfl⟩
  obtain ⟨p2, hp2⟩ := counted
  exact ⟨t, p2, by rw [hp2]; rfl⟩

/-- Posting a notice adds to what is sent, and takes nothing back. -/
theorem note_appends (n : Note) : ∃ t p hs o,
    s.note n = { s with flt := s.flt.enter n.words, tap := t, pmc := p, heads := hs, out := s.out ++ o } := by
  obtain ⟨t, p, hn⟩ := note_eq s n
  rw [hn]
  split
  · obtain ⟨hs, o, he⟩ := event_appends { s with flt := s.flt.enter n.words, tap := t, pmc := p } s.mgmtHead ⟨.vendor, n.cls, n.arg0⟩
    exact ⟨t, p, hs, o, he⟩
  · exact ⟨t, p, s.heads, [], by rw [List.append_nil]⟩

end

/-! ### The obligation -/

/-- Settles O5: the words of a notice, its four ways into the FIFO, the FIFO's bound, and what posting a notice leaves. -/
theorem noticesEnterWholeOrAreCounted : Obligations.NoticesEnterWholeOrAreCounted := by
  unfold Obligations.NoticesEnterWholeOrAreCounted
  intro s n f hf
  subst hf
  refine ⟨words_form n, fun hd h => ?_, fun hd h => ?_, fun hd h => ?_, fun hd h => ?_, fun h => ?_, fun hsev => ?_, ?_⟩
  · rw [note_flt, enter_room hd h]
  · rw [note_flt, enter_full hd h]
  · rw [note_flt, enter_overflowed hd h]
  · rw [note_flt, enter_dropped hd h]
  · rw [note_flt]; exact Flt.enter_bound _ h
  · obtain ⟨t, p, hn⟩ := note_warn s hsev
    rw [hn]
  · obtain ⟨t, p, hs, o, hn⟩ := note_appends s n
    exact ⟨hs, o, by rw [hn]⟩

end Sys2Proof.Proofs.Notices
end

