-- ==== Sys2Proof/Proofs/Movers.lean ====
section
/-! PROOF. The data movers on one line of a SCRATCH window (R411, R412, R419, R421, R423), and obligation O25. -/
namespace Sys2Proof.Proofs.Movers
open Sys2Proof Sys2Proof.Machine Sys2Proof.Laws Sys2Proof.Proofs Sys2Proof.Proofs.Atomics

/-! ### Lines from bytes -/

/-- The line whose byte i is f i. -/
def lineOfBytes (f : Nat → Nat) : Line := BitVec.ofNat 512 ((List.range 64).foldl (fun acc i => acc + f i * 2 ^ (8 * i)) 0)

theorem lineOfBytes_byte {f : Nat → Nat} (hf : ∀ i, i < 64 → f i < 256) {i : Nat} (hi : i < 64) :
    ((lineOfBytes f).toNat >>> (8 * i)) % 256 = f i := by
  obtain ⟨hlt, hbyte⟩ := bytes_fold f 64 hf
  unfold lineOfBytes
  rw [BitVec.toNat_ofNat, Nat.mod_eq_of_lt hlt]
  exact hbyte i hi

theorem lineOfBytes_congr {f g : Nat → Nat} (h : ∀ i, i < 64 → f i = g i) : lineOfBytes f = lineOfBytes g :=
  congrArg (BitVec.ofNat 512) (List.foldl_ext _ _ _ fun acc i hi => congrArg (acc + · * 2 ^ (8 * i)) (h i (List.mem_range.mp hi)))

theorem lineOfBytes_zero : (lineOfBytes fun _ => 0) = 0 := by
  unfold lineOfBytes
  simp only [Nat.zero_mul, Nat.add_zero, List.foldl_fixed]
  rfl

section
variable {s t : State} {r n line : Nat} {d : Line} {rg : Region}

/-! ### The source of a mover -/

theorem moverByte_zero (hop : dOp d = 0x12) (a : Nat) : s.moverByte r d a = 0 := by
  unfold State.moverByte; rw [hop]; rfl

/-- FILL repeats the eight bytes of its pattern (R421). -/
theorem moverByte_fill (hop : dOp d = 0x11) (a : Nat) : s.moverByte r d a = fld (lineWord d 4) (8 * (a % 8)) 8 := by
  unfold State.moverByte; rw [hop]; rfl

/-- COPY takes each byte from its place in the source line, once that has answered (R421). -/
theorem moverByte_copy {src i : Nat} {c : LineCell} (hop : dOp d = 0x10) (hd : dW d 1 = line * 64) (hs : dW d 2 = src * 64)
    (hans : s.engineAnswer r src = some c) (hi : i < 64) : s.moverByte r d (line * 64 + i) = (c.data.toNat >>> (8 * i)) % 256 := by
  have hx : line * 64 + i - dW d 1 + dW d 2 = src * 64 + i := by omega
  have hline : (src * 64 + i) / 64 = src := by omega
  have hoff : (src * 64 + i) % 64 = i := by omega
  unfold State.moverByte
  rw [hop]
  dsimp only
  rw [hx, hline, hoff, hans]
  rfl

theorem moverPoison_other (hop : dOp d ≠ 0x10) (a k : Nat) : s.moverPoison r d a k = false := by
  unfold State.moverPoison; simp [hop]

/-- A line copied from a poison line is poison (R423). -/
theorem moverPoison_copy {src : Nat} {c : LineCell} (hop : dOp d = 0x10) (hd : dW d 1 = line * 64) (hs : dW d 2 = src * 64)
    (hans : s.engineAnswer r src = some c) : s.moverPoison r d (line * 64) 64 = c.poison := by
  have hx : line * 64 - dW d 1 + dW d 2 = src * 64 := by omega
  unfold State.moverPoison
  rw [hx, lines_one]
  simp [hop, hans]

/-! ### One line -/

/-- A mover whose destination is one line at rest in a SCRATCH window, which its ring's owner may write. -/
structure Target (s : State) (r : Nat) (d : Line) (n line : Nat) (rg : Region) : Prop where
  rest : s.atRest line
  region : s.regionOf line = some (n, rg)
  window : rg.window = 2
  coh : rg.coh = 0
  addr : dW d 1 = line * 64
  len : dW d 3 = 64
  rights : s.rangeRights (s.ring r).owner false (line * 64, 64, true) = true

/-- The mover's step has begun. -/
def begun (s : State) (r : Nat) : State := (s.serve r).modAct r fun a => { a with started := true, reads := true }

theorem begun_act (hact : (s.ring r).act = some { words := d }) : ((begun s r).ring r).act = some { words := d, started := true, reads := true } := by
  have hserve : ((s.serve r).ring r).act = some { words := d } := by
    have h := ring_act (s := s) (r := r) (y := { s.ring r with served := s.rng.nextOrder }) hact
    exact (congrArg Ring.act h).trans hact
  exact act_mod hserve

/-- The state t from which a mover's step writes: its source lines have been read and have answered. -/
structure Answered (s : State) (r : Nat) (d : Line) (t : State) : Prop where
  reads : (if dOp d = 0x10 then linesOf (dW d 2) 64 else []).foldl (fun (s : State) l => s.engineRead r l) (begun s r) = t
  act : (t.ring r).act = some { words := d, started := true, reads := true }
  answers : ((if dOp d = 0x10 then linesOf (dW d 2) 64 else []).all fun l => (t.engineAnswer r l).isSome) = true
  frame : ∃ q pw au rn, t = { s with qos := q, pwr := pw, near := { s.near with autoOff := au }, rng := rn }

/-- ZERO and FILL have no source. -/
theorem answered_noSource (hact : (s.ring r).act = some { words := d }) (hop : dOp d ≠ 0x10) : Answered s r d (begun s r) where
  reads := by rw [if_neg hop]; rfl
  act := begun_act hact
  answers := by rw [if_neg hop]; rfl
  frame := ⟨_, _, _, _, rfl⟩

/-- The source of a COPY of one line of a SCRATCH window answers at once. -/
theorem answered_copy {m src : Nat} {rs : Region} (hact : (s.ring r).act = some { words := d }) (hop : dOp d = 0x10) (hs : dW d 2 = src * 64)
    (hrest : s.atRest src) (hreg : s.regionOf src = some (m, rs)) (hwin : rs.window = 2) (hcoh : rs.coh = 0) :
    ∃ t, Answered s r d t ∧ t.engineAnswer r src = some (s.poolCell (rs.poolLine src)) := by
  have hb : begun s r = { s with rng := (begun s r).rng } := rfl
  have hbact := begun_act hact
  generalize (begun s r).rng = rn at hb
  rw [hb] at hbact
  obtain ⟨q, pw, au, hread⟩ := engine_read (s := { s with rng := rn }) (r := r) hrest hreg hwin hcoh
  have hans : (State.engineRead { s with rng := rn } r src).engineAnswer r src = some (s.poolCell (rs.poolLine src)) := by
    rw [hread]
    exact Tbl.get_set_self none _ _ (Option.some_ne_none _) _
  refine ⟨State.engineRead { s with rng := rn } r src, ⟨?_, ?_, ?_, ?_⟩, hans⟩
  · rw [if_pos hop, hs, lines_one, hb]; rfl
  · rw [hread]; exact hbact
  · rw [if_pos hop, hs, lines_one, List.all_cons, hans]; rfl
  · rw [hread]; exact ⟨_, _, _, _, rfl⟩

/-- The line that a mover's only step writes, and the end of its descriptor (R411, R419, R423). -/
theorem moverStep_ends {src : Nat} (hact : (s.ring r).act = some { words := d }) (ht : Target s r d n line rg) (ha : Answered s r d t)
    (hs : dOp d = 0x10 → dW d 2 = src * 64)
    (hrights : dOp d = 0x10 → s.rangeRights (s.ring r).owner false (src * 64, 64, false) = true) {p : Bool}
    (hp : t.moverPoison r d (line * 64) 64 = p) :
    (s.moverStep r).near.scr
        = (s.setPool (rg.poolLine line) (lineOfBytes fun i => t.moverByte r d (line * 64 + i)) fullMask p).near.scr
      ∧ ((s.moverStep r).ring r).act = some { words := d, started := true, done := 64, plines := if p then 1 else 0
                                              result := moverResult 64 (if p then 1 else 0), status := some (if p then 0x0D else 0) }
      ∧ Moved s (s.moverStep r) := by
  obtain ⟨q0, pw0, au0, rn0, hframe⟩ := ha.frame
  have hrest : t.atRest line := by rw [hframe]; exact ht.rest
  have hreg : t.regionOf line = some (n, rg) := by rw [hframe]; exact ht.region
  have hpool : ∀ v m b, (t.setPool (rg.poolLine line) v m b).near.scr = (s.setPool (rg.poolLine line) v m b).near.scr := by
    intro v m b
    rw [hframe]
    unfold State.setPool
    rw [show State.poolDead { s with qos := q0, pwr := pw0, near := { s.near with autoOff := au0 }, rng := rn0 } (rg.poolLine line)
      = s.poolDead (rg.poolLine line) from rfl]
    split <;> rfl
  have hall : (! s.rangeRights (s.ring r).owner false (line * 64, 64, true)
      || (dOp d = 0x10 && ! s.rangeRights (s.ring r).owner false (dW d 2, 64, false))) = false := by
    rw [ht.rights]
    by_cases hop : dOp d = 0x10
    · rw [hs hop, hrights hop]; simp
    · simp [hop]
  obtain ⟨q, pm, pw, au, rn, hstep, hend⟩ := mover_end hact ha.act hrest hreg ht.window ht.coh ht.addr ht.len hs hall ha.reads ha.answers
  rw [hp] at hstep hend
  refine ⟨by rw [hstep]; exact hpool _ _ _, hend, ?_⟩
  rw [Mailbox.setPool_near, hframe] at hstep
  exact ⟨q, pw, pm, _, au, rn, hstep⟩

/-- The movers: each with the opcode under which it runs. -/
inductive Mover (r : Nat) : Instr → Nat → Prop
  | copy : Mover r (.copy r) 0x10
  | fill : Mover r (.fill r) 0x11
  | zero : Mover r (.zero r) 0x12

/-- A mover's command completes with what its step makes of the line. -/
theorem mover_completes {c : Instr} {op src : Nat} {f : Nat → Nat} {p : Bool} (hc : Mover r c op) (hon : s.on = true)
    (hw : s.working r op { words := d }) (ht : Target s.hush r d n line rg) (ha : Answered s.hush r d t)
    (hs : dOp d = 0x10 → dW d 2 = src * 64)
    (hrights : dOp d = 0x10 → s.hush.rangeRights (s.hush.ring r).owner false (src * 64, 64, false) = true)
    (hp : t.moverPoison r d (line * 64) 64 = p) (hf : ∀ i, i < 64 → t.moverByte r d (line * 64 + i) = f i) :
    Completes c s fun u =>
      u.near.scr = (s.setPool (rg.poolLine line) (lineOfBytes f) fullMask p).near.scr
      ∧ (u.ring r).act = some { words := d, started := true, done := 64, plines := if p then 1 else 0
                                result := moverResult 64 (if p then 1 else 0), status := some (if p then 0x0D else 0) }
      ∧ PoolFrame s u := by
  obtain ⟨hact, hop, hst, hheld, hturn⟩ := hw
  have hx : exec c s = run (fun s => s.mover r op) s := by cases hc <;> rfl
  have hgo : s.hush.mover r op = s.hush.moverStep r := by
    unfold State.mover
    rw [runs_of (sub := none) hact hop hst hheld hturn rfl, when_true]
  obtain ⟨hscr, hend, hmoved⟩ := moverStep_ends (s := s.hush) hact ht ha hs hrights hp
  refine completes_of hon hx ?_
  rw [hgo]
  refine ⟨?_, hend, hmoved.frame⟩
  rw [hscr, lineOfBytes_congr hf]
  exact congrArg Near.scr (Mailbox.hush_setPool_near s _ _ _ _)

end

/-! ### The obligation -/

/-- Settles O25: ZERO, FILL and COPY by one lemma over the movers. -/
theorem moversWriteTheirLine : Obligations.MoversWriteTheirLine := by
  unfold Obligations.MoversWriteTheirLine
  intro s r n line m src a rg rs hon hrest hreg hwin hcoh hact haddr hlen hrights
  have ht : Target s.hush r a.words n line rg := ⟨hrest, hreg, hwin, hcoh, haddr, hlen, hrights⟩
  refine ⟨fun hw => ?zero, fun hw => ?fill, fun hw hs hrest' hreg' hwin' hcoh' hrights' _ _ _ => ?copy⟩
  case zero =>
    have hop : dOp a.words = 0x12 := hw.2.1
    have hne : dOp a.words ≠ 0x10 := by omega
    have h := mover_completes (src := 0) .zero hon hw ht (answered_noSource (s := s.hush) hact hne) (fun h => absurd h hne)
      (fun h => absurd h hne) (moverPoison_other hne _ _) (fun i _ => moverByte_zero hop _)
    rwa [lineOfBytes_zero] at h
  case fill =>
    have hop : dOp a.words = 0x11 := hw.2.1
    have hne : dOp a.words ≠ 0x10 := by omega
    obtain ⟨u, hy, hscr, hend, hframe⟩ := mover_completes (src := 0) .fill hon hw ht (answered_noSource (s := s.hush) hact hne)
      (fun h => absurd h hne) (fun h => absurd h hne) (moverPoison_other hne _ _) (fun i _ => moverByte_fill hop _)
    have hlt : ∀ i, i < 64 → fld (lineWord a.words 4) (8 * ((line * 64 + i) % 8)) 8 < 256 := fun _ _ => Nat.mod_lt _ (by decide)
    refine ⟨u, hy, _, fun i hi => ?_, hscr, hend, hframe⟩
    rw [lineOfBytes_byte hlt hi, show (line * 64 + i) % 8 = i % 8 by omega]
  case copy =>
    have hop : dOp a.words = 0x10 := hw.2.1
    obtain ⟨t, ha, hans⟩ := answered_copy (s := s.hush) (d := a.words) hact hop hs hrest' hreg' hwin' hcoh'
    obtain ⟨u, hy, hscr, hend, hframe⟩ := mover_completes .copy hon hw ht ha (fun _ => hs) (fun _ => hrights')
      (moverPoison_copy hop haddr hs hans) (fun i hi => moverByte_copy hop haddr hs hans hi)
    exact ⟨u, hy, _, fun i hi => lineOfBytes_byte (fun j _ => Nat.mod_lt _ (by decide)) hi, hscr, hend, hframe⟩

end Sys2Proof.Proofs.Movers
end

