-- ==== Sys2Proof/Proofs/Quiesce.lean ====
section
/-! PROOF. QUIESCE of a region (R426): its start, its end, RELEASE and the timeout of a HOLD, and obligation O27. -/
namespace Sys2Proof.Proofs.Quiesce
open Sys2Proof Sys2Proof.Machine Sys2Proof.Laws Sys2Proof.Proofs

section
variable {s : State} {r n sub : Nat} {a : Active} {keeps : Bool}

/-- A hold as it starts: without an end, with the time limit of its moment (R426, R437). -/
def newHold (s : State) (n r : Nat) (keeps : Bool) : QHold := ⟨n, r, keeps, none, max 1 (fld s.rng.gctl 0 10)⟩

/-- The holds once a DRAIN or HOLD of ring pair r is complete: a DRAIN lets go, a HOLD has its end (R426). -/
def heldOn (s : State) (r : Nat) (keeps : Bool) : List QHold :=
  if keeps then s.rng.qholds.map fun q =>
      if (decide (q.ring = r) && q.ends.isNone) then { q with ends := some (s.clock + q.ms * 2000000) } else q
  else s.rng.qholds.filter fun q => decide (q.ring ≠ r) || q.ends.isSome

/-- The commands of QUIESCE with the SUB and the kind under which they run. -/
inductive Hold (r : Nat) : Instr → Nat → Bool → Prop
  | drain : Hold r (.quiesceDrain r) 0 false
  | hold : Hold r (.quiesceHold r) 1 true

/-- A DRAIN or HOLD whose turn has come runs. -/
theorem hold_yields {c : Instr} {u : State} (hc : Hold r c sub keeps) (hon : s.on = true) (hw : s.working r 0x03 a) (hsub : dSub a.words = sub)
    (h : s.hush.quiesce r keeps = u) : Yields c s u := by
  obtain ⟨hact, hop, hst, hheld, hturn⟩ := hw
  have hruns : s.hush.runs r 0x03 (some sub) = true := runs_of hact hop hst hheld hturn (by simpa using hsub)
  have hx : exec c s = run (fun s => s.when (s.runs r 0x03 (some sub)) fun s => s.quiesce r keeps) s := by cases hc <;> rfl
  exact yields_when hon hx hruns h

/-- With requests of its region under way a DRAIN or HOLD holds what comes after them. -/
theorem quiesce_starts (hact : (s.ring r).act = some a) (hst : a.started = false) (hbusy : s.regionBusy (dRegion a.words) = true) :
    s.quiesce r keeps = { s.modAct r (fun a => { a with started := true }) with
      rng := { (s.modAct r fun a => { a with started := true }).rng with qholds := s.rng.qholds ++ [newHold s (dRegion a.words) r keeps] } } := by
  unfold State.quiesce
  rw [hact]
  dsimp only
  rw [hst]
  refine if_pos ?_
  rw [Bool.or_eq_true]
  exact .inl hbusy

/-- With nothing of its region under way a DRAIN or HOLD is complete. -/
theorem quiesce_completes (hact : (s.ring r).act = some a) (hst : a.started = true) (hregion : s.regionBusy (dRegion a.words) = false)
    (hdesc : s.descBusy r (dRegion a.words) = false) (hheld : s.rng.qheld = []) :
    s.quiesce r keeps = State.endDescriptor { s with rng := { s.rng with qholds := heldOn s r keeps } } r 0 id := by
  unfold State.quiesce
  rw [hact]
  dsimp only
  rw [hst, if_pos rfl, hregion, hdesc, if_neg (by decide)]
  refine (releaseHeld_nil ?_).trans ?_
  · exact hheld
  · unfold heldOn
    cases keeps <;> simp only [Bool.false_eq_true, if_false, if_true]

/-- RELEASE ends the holds of its region. -/
theorem quiesceRelease_yields (hon : s.on = true) (hw : s.working r 0x03 a) (hsub : dSub a.words = 2) (hheld : s.rng.qheld = []) :
    Yields (.quiesceRelease r) s
      (State.endDescriptor { s.hush with rng := { s.rng with
        qholds := s.rng.qholds.filter fun q => ! (decide (q.region = dRegion a.words) && q.keeps) } } r 0 id) := by
  obtain ⟨hact, hop, hst, hheld', hturn⟩ := hw
  refine yields_when hon (show exec _ s = execQuiesceRelease r s from rfl)
    (runs_of (sub := some 2) hact hop hst hheld' hturn (by simpa using hsub)) ?_
  rw [hush_ring, hact]
  refine congrArg (fun t : State => t.endDescriptor r 0 id) (releaseHeld_nil ?_)
  exact hheld

/-- A HOLD whose time is over ends with a notice. -/
theorem quiesceHoldTimeout_yields {q : QHold} {e : Nat} (hon : s.on = true)
    (hq : s.rng.qholds.find? (fun q => decide (q.region = n) && q.keeps && q.ends.isSome) = some q) (he : q.ends = some e) (hdue : e ≤ s.clock)
    (hheld : s.rng.qheld = []) :
    Yields (.quiesceHoldTimeout n) s (State.note { s.hush with rng := { s.rng with qholds := s.rng.qholds.erase q } } ⟨1, 0x08, n, none⟩) := by
  have hstay : s.hush.elapse (q.ends.getD 0) = s.hush := elapse_done (by rw [he]; exact hdue)
  refine yields_of hon (show exec _ s = execQuiesceHoldTimeout n s from rfl) ?_
  rw [hush_rng, hq]
  dsimp only
  rw [hstay]
  refine releaseHeld_nil ?_
  rw [note_rng]
  exact hheld

end

/-! ### The obligation -/

/-- Settles O27: the start of a DRAIN or HOLD, its end, RELEASE, the timeout. -/
theorem quiesceHoldsARegion : Obligations.QuiesceHoldsARegion := by
  unfold Obligations.QuiesceHoldsARegion
  intro s r n a hon
  refine ⟨fun keeps hw hn hst hbusy hsub => ?start, fun hw hn hst hregion hdesc hheld => ?finish, fun hw hsub hn hheld => ?release,
    fun q e hq he hdue hheld => quiesceHoldTimeout_yields hon hq he hdue hheld⟩
  case start =>
    subst hn
    have hgo := fun k => quiesce_starts (s := s.hush) (keeps := k) hw.1 hst hbusy
    refine ⟨_, rfl, ?_⟩
    cases keeps with
    | false => exact hold_yields .drain hon hw hsub (hgo false)
    | true => exact hold_yields .hold hon hw hsub (hgo true)
  case finish =>
    subst hn
    have hgo := fun k => quiesce_completes (s := s.hush) (keeps := k) hw.1 hst hregion hdesc hheld
    exact ⟨fun hsub => hold_yields .drain hon hw hsub (hgo false), fun hsub => hold_yields .hold hon hw hsub (hgo true)⟩
  case release =>
    subst hn
    exact quiesceRelease_yields hon hw hsub hheld

end Sys2Proof.Proofs.Quiesce
end

