-- ==== Sys2Proof/Proofs/Brakes.lean ====
section
/-! PROOF. HD_BRAKE (R435, R436): what a write makes of a head's brake, the gate, and obligation O31. -/
namespace Sys2Proof.Proofs.Brakes
open Sys2Proof Sys2Proof.Machine Sys2Proof.Laws Sys2Proof.Laws.Io Sys2Proof.Proofs

section
variable {s : State} {src h : Nat} {v : Word} {b : Brake} {x : Head}

/-- A source other than the management interface reaches registers over a link that is up (R62, R80). -/
theorem up_of_reaches (hr : s.reaches h = true) (hm : s.isMgmt h = false) : (s.head h).link.up = true := by
  have h16 : h ≠ 16 := by rintro rfl; simp [State.isMgmt] at hm
  simp only [State.reaches, State.linkUp, Bool.or_eq_true, decide_eq_true_eq, Bool.and_eq_true] at hr
  obtain h16' | ⟨⟨-, hup⟩, -⟩ := hr
  · exact absurd h16' h16
  · exact hup

/-- A braked head's gate stays closed. -/
theorem openGate_braked (hb : (s.head h).braked = true) : s.openGate h = s := by
  unfold State.openGate
  exact if_pos hb

/-- Opening the gate of a head with nothing held and no credit kept clears its gate. -/
theorem openGate_idle (hx : s.head h = x) (hne : x ≠ {}) (hg : x.brake.gate = []) (hb : x.braked = false) (hw : x.waitQ = [])
    (hk : x.kept = 0) : s.openGate h = s.modHead h fun x => { x with brake := { x.brake with gate := [] } } := by
  have hstay : ({ x with brake := { x.brake with gate := [] } } : Head) = x := by rw [← hg]
  rw [openGate_nil hx hne hg hb hw hk]
  exact (congrArg (fun y => s.modHead h fun _ => y) hstay.symm).trans (modHead_eq (f := fun x => { x with brake := { x.brake with gate := [] } }) hx).symm

/-! ### A write of HD_BRAKE -/

/-- The brake after a write: a head sets its own SELF and RINGS bits, the management side MGMT and RINGS (R435, R436). -/
def written (s : State) (src h : Nat) (b : Brake) (v : Word) : Brake :=
  { b with
    self := if src = h then flag v 0 else b.self
    mgmt := if s.isMgmt src then flag v 1 else b.mgmt
    rings := if src = h || s.isMgmt src then flag v 2 else b.rings }

/-- A head that writes its own brake and leaves MGMT as it is. -/
theorem written_own (hm : s.isMgmt h = false) : written s h h b v = { b with self := flag v 0, rings := flag v 2 } := by
  simp [written, hm]

/-- The state with the brake of head h set. -/
def braking (s : State) (h : Nat) (b : Brake) : State := s.modHead h fun x => { x with brake := b }

/-- A head that is braked by its new brake reads as braked. -/
theorem braking_head (hb : b ≠ {}) : (braking s h b).head h = { s.head h with brake := b } :=
  head_mod fun e => hb (congrArg Head.brake e)

theorem braking_braked (hb : (b.self || b.mgmt) = true) : ((braking s h b).head h).braked = true := by
  rw [braking_head (fun e => by rw [e] at hb; exact absurd hb (by decide))]
  exact hb

/-- A write that changes no bit of another source sets the brake, and opens the gate of a head that was braked. -/
theorem brakeWrite_eq (hb : (s.head h).brake = b) (hself : src = h ∨ flag v 0 = b.self) (hmgmt : s.isMgmt src = true ∨ flag v 1 = b.mgmt)
    (hrings : src = h ∨ s.isMgmt src = true ∨ flag v 2 = b.rings) :
    s.brakeWrite src h v = if b.self || b.mgmt then (braking s h (written s src h b v)).openGate h else braking s h (written s src h b v) := by
  have hok : (! decide (src = h) && decide (flag v 0 ≠ b.self) || ! s.isMgmt src && decide (flag v 1 ≠ b.mgmt)
      || ! decide (src = h) && ! s.isMgmt src && decide (flag v 2 ≠ b.rings)) = false := by
    have h0 : (! decide (src = h) && decide (flag v 0 ≠ b.self)) = false := by rcases hself with e | e <;> simp [e]
    have h1 : (! s.isMgmt src && decide (flag v 1 ≠ b.mgmt)) = false := by rcases hmgmt with e | e <;> simp [e]
    have h2 : (! decide (src = h) && ! s.isMgmt src && decide (flag v 2 ≠ b.rings)) = false := by rcases hrings with e | e | e <;> simp [e]
    rw [h0, h1, h2]; rfl
  unfold State.brakeWrite
  rw [hb]
  dsimp only
  rw [hok]
  rfl

/-- A write that leaves a head braked only sets the brake: nothing held goes on. -/
theorem brakeWrite_brakes {b' : Brake} (hb : (s.head h).brake = b) (hself : src = h ∨ flag v 0 = b.self)
    (hmgmt : s.isMgmt src = true ∨ flag v 1 = b.mgmt) (hrings : src = h ∨ s.isMgmt src = true ∨ flag v 2 = b.rings)
    (hb' : written s src h b v = b') (hbraked : (b.self || b.mgmt) = true → (b'.self || b'.mgmt) = true) :
    s.brakeWrite src h v = braking s h b' := by
  rw [brakeWrite_eq hb hself hmgmt hrings, hb']
  split
  case isTrue hwas => exact openGate_braked (braking_braked (hbraked hwas))
  case isFalse => rfl

/-- A write that releases the brake of a head with nothing held opens its gate, where it was closed. -/
theorem brakeWrite_releases {b' : Brake} (hb : (s.head h).brake = b) (hself : src = h ∨ flag v 0 = b.self)
    (hmgmt : s.isMgmt src = true ∨ flag v 1 = b.mgmt) (hrings : src = h ∨ s.isMgmt src = true ∨ flag v 2 = b.rings)
    (hb' : written s src h b v = b') (hfree : (b'.self || b'.mgmt) = false) (hgate : b'.gate = []) (hup : (s.head h).link.up = true)
    (hk : (s.head h).kept = 0) (hw : (s.head h).waitQ = []) :
    s.brakeWrite src h v = if b.self || b.mgmt then (braking s h b').modHead h fun x => { x with brake := { x.brake with gate := [] } }
      else braking s h b' := by
  rw [brakeWrite_eq hb hself hmgmt hrings, hb']
  have hhead : (braking s h b').head h = { s.head h with brake := b' } := head_up (y := { s.head h with brake := b' }) hup
  have hopen := openGate_idle hhead (fun e => by have := congrArg (fun x : Head => x.link.up) e; rw [hup] at this; cases this)
    hgate hfree hw hk
  rw [hopen]

/-! ### The commands -/

theorem brakeSet_yields {u : State} (hon : s.on = true) (hr : s.reaches src = true) (hp : s.present h = true)
    (hv : (flag v 0 || flag v 1) = true) (hu : s.hush.brakeWrite src h v = u) : Yields (.brakeSet src h v) s u :=
  yields_when hon (show exec _ s = execBrakeSet src h v s from rfl) (by simpa [hr, hp] using hv) hu

theorem brakeRelease_yields {u : State} (hon : s.on = true) (hr : s.reaches src = true) (hp : s.present h = true)
    (h0 : flag v 0 = false) (h1 : flag v 1 = false) (hu : s.hush.brakeWrite src h v = u) : Yields (.brakeRelease src h v) s u :=
  yields_when hon (show exec _ s = execBrakeRelease src h v s from rfl) (by simp [hr, hp, h0, h1]) hu

theorem brakeRings_yields {u : State} (hon : s.on = true) (hr : s.reaches src = true) (hp : s.present h = true)
    (h2 : flag v 2 = true) (hu : s.hush.brakeWrite src h v = u) : Yields (.brakeRings src h v) s u :=
  yields_when hon (show exec _ s = execBrakeRings src h v s from rfl) (by simp [hr, hp, h2]) hu

end

/-! ### The obligation -/

/-- Settles O31: SELF and RINGS by the head itself, MGMT by the management interface. -/
theorem brakesAreSetAndReleased : Obligations.BrakesAreSetAndReleased := by
  unfold Obligations.BrakesAreSetAndReleased
  intro s h v b hon hr hp hb
  refine ⟨fun hm h1 => ⟨fun h0 => ?set, fun h0 hbm hg hk hw _ => ?release, fun h2 h0 => ?rings⟩, fun k hr16 hpk hk hbk h0 h1 h2 => ?mgmt⟩
  case set =>
    refine brakeSet_yields hon hr hp (by simp [h0]) (brakeWrite_brakes (s := s.hush) hb (.inl rfl) (.inr h1) (.inl rfl) ?_ fun _ => rfl)
    rw [written_own (s := s.hush) hm, h0]
  case release =>
    have hwritten : written s.hush h h b v = { b with self := false, rings := flag v 2 } := by rw [written_own (s := s.hush) hm, h0]
    have hy := brakeRelease_yields hon hr hp h0 (h1.trans hbm) (brakeWrite_releases (s := s.hush) hb (.inl rfl) (.inr h1) (.inl rfl)
      hwritten hbm hg (up_of_reaches hr hm) hk hw)
    have hself : (b.self || b.mgmt) = b.self := by rw [hbm, Bool.or_false]
    rw [hself] at hy
    exact hy
  case rings =>
    refine brakeRings_yields hon hr hp h2 (brakeWrite_brakes (s := s.hush) hb (.inl rfl) (.inr h1) (.inl rfl) ?_ id)
    rw [written_own (s := s.hush) hm, h0, h2]
  case mgmt =>
    refine brakeSet_yields hon hr16 hpk (by simp [h1])
      (brakeWrite_brakes (s := s.hush) hbk (.inr h0) (.inl rfl) (.inr (.inr h2)) ?_ fun _ => Bool.or_true _)
    have hm16 : s.isMgmt 16 = true := rfl
    simp [written, hm16, hk.symm, h1, h2]

end Sys2Proof.Proofs.Brakes
end

