-- ==== Sys2Proof/Proofs/RingContexts.lean ====
section
/-! PROOF. Writes of a ring pair's context by the management side (R399, R400, R401, R414): queue words, EN set and cleared, and obligation
O29. -/
namespace Sys2Proof.Proofs.RingContexts
open Sys2Proof Sys2Proof.Machine Sys2Proof.Laws Sys2Proof.Laws.Io Sys2Proof.Proofs

section
variable {s : State} {src r w : Nat} {v : Word} {x : Ring}

/-- A writer of the context is obeyed (R399). -/
theorem ringWord_mgmt (hm : s.isMgmt src = true) : s.ringWord src r w v = (match w with
    | 0 => s.queueWord r false v
    | 1 => s.queueWord r true v
    | 2 => s.ringCtl src r v
    | _ => s) := by
  have hwriter : s.ringWriter src r = true := by simp [State.ringWriter, hm]
  unfold State.ringWord
  rw [hwriter]
  rfl

/-! ### Queue words -/

/-- While EN is 0 a queue word takes its RW bits (R400). -/
theorem queueWord_takes (hen : (s.ring r).en = false) (cq : Bool) :
    s.queueWord r cq v = s.modRing r fun x => if cq then { x with cq := v &&& queueBits } else { x with sq := v &&& queueBits } := by
  unfold State.queueWord
  exact if_neg (by simp [hen])

/-- While EN is 1 a change is refused with LIVE (R400). -/
theorem queueWord_live (hen : (s.ring r).en = true) (h : v &&& queueBits ≠ (s.ring r).sq) :
    s.queueWord r false v = s.modRing r fun x => { x with err := 7 } := by
  unfold State.queueWord
  exact (if_pos hen).trans (if_neg h)

theorem ringContextWrite_yields {u : State} (hon : s.on = true) (hr : s.reaches src = true) (hlt : r < 65536) (hw : w < 4)
    (hu : s.hush.ringWord src r w v = u) : Yields (.ringContextWrite src r w v) s u :=
  yields_when hon (show exec _ s = execRingContextWrite src r w v s from rfl) (by simp [hr, hlt, hw]) hu

/-! ### RNG_CTL -/

/-- RNG_CTL with the locked fields that EN keeps (R400). -/
def lockedWord (x : Ring) (v : Word) : Word := if x.en then v &&& ~~~ ringLocked ||| x.ctl &&& ringLocked else v

/-- A write of RNG_CTL by the management side that changes no locked field of a live ring takes the RW bits; then EN has its transition. -/
theorem ringCtl_mgmt (hm : s.isMgmt src = true) (hlive : (s.ring r).en = true → v &&& ringLocked = (s.ring r).ctl &&& ringLocked)
    (hx : x = { s.ring r with ctl := lockedWord (s.ring r) v &&& ringCtlBits ||| (s.ring r).ctl &&& 1 }) :
    s.ringCtl src r v = (match (s.ring r).en, flag v 0 with
      | false, true => (s.modRing r fun _ => x).ringEnable r
      | true, false => (s.modRing r fun _ => x).ringDisable r
      | _, _ => s.modRing r fun _ => x) := by
  have hnot : ((s.ring r).en && decide (v &&& ringLocked ≠ (s.ring r).ctl &&& ringLocked)) = false := by
    cases hen : (s.ring r).en
    · rfl
    · simp [hlive hen]
  unfold State.ringCtl
  dsimp only
  rw [hm]
  simp only [Bool.not_true, Bool.false_and, Bool.false_eq_true, if_false, if_true, hnot]
  rw [modRing_eq (s := s) rfl, hx]
  rfl

/-- The ring as a context check that fails leaves it (R401). -/
def refused (x : Ring) (code : Nat) : Ring := { x with ctl := x.ctl &&& ~~~ 1, err := code, st := .off }

/-- The ring as a context check that passes leaves it: IDLE, its queues empty (R401). -/
def enabled (x : Ring) : Ring :=
  { x with ctl := x.ctl ||| 1, err := 0, st := .idle, phase := true, sqHead := 0, sqTail := 0, cqTail := 0, cqHead := 0
           act := none, coalN := 0, quiet := false, mute := false }

/-- The ring as EN 0 leaves it (R414). -/
def disabled (x : Ring) : Ring := { x with ctl := x.ctl &&& ~~~ 1, st := .off, mute := decide (x.st = .detached) }

theorem ringEnable_refuses (hx : s.ring r = x) (hcode : s.ringCheck r x ≠ 0) :
    s.ringEnable r = s.modRing r fun _ => refused x (s.ringCheck r x) := by
  unfold State.ringEnable
  rw [hx]
  exact (if_pos hcode).trans (modRing_eq hx)

/-- A ring with MMIO doorbells has no line of a CONTROL window to clear. -/
theorem ringEnable_enables (hx : s.ring r = x) (hcode : s.ringCheck r x = 0) (hmmio : x.mmio = true) :
    s.ringEnable r = (s.dropAnswers r).modRing r fun _ => enabled x := by
  unfold State.ringEnable
  rw [hx]
  refine (if_neg (not_not.mpr hcode)).trans ?_
  dsimp only
  rw [hmmio, modRing_eq (s := s.dropAnswers r) hx]
  split
  · contradiction
  · rfl

/-- A descriptor that has ended, or none, is not aborted. -/
theorem abortDescriptor_ended (h : ∀ a, (s.ring r).act = some a → a.status ≠ none) : s.abortDescriptor r = s := by
  unfold State.abortDescriptor
  split
  · next a ha => exact if_pos (Option.isSome_iff_ne_none.mpr (h a ha))
  · rfl

/-- EN written 0 turns a live ring OFF. -/
theorem ringDisable_off (hx : s.ring r = x) (hst : x.st ≠ .off) (h : ∀ a, x.act = some a → a.status ≠ none) :
    s.ringDisable r = s.modRing r fun _ => disabled x := by
  unfold State.ringDisable
  rw [hx, if_neg hst, abortDescriptor_ended (by rw [hx]; exact h)]
  exact modRing_eq hx

theorem rngCtlEnSet_yields {u : State} (hon : s.on = true) (hr : s.reaches src = true) (hlt : r < 65536) (hv : flag v 0 = true)
    (hu : s.hush.ringWord src r 2 v = u) : Yields (.rngCtlEnSet src r v) s u :=
  yields_when hon (show exec _ s = execRngCtlEnSet src r v s from rfl) (by simp [hr, hlt, hv]) hu

theorem rngCtlEnClear_yields {u : State} (hon : s.on = true) (hr : s.reaches src = true) (hlt : r < 65536) (hv : flag v 0 = false)
    (hu : s.hush.ringWord src r 2 v = u) : Yields (.rngCtlEnClear src r v) s u :=
  yields_when hon (show exec _ s = execRngCtlEnClear src r v s from rfl) (by simp [hr, hlt, hv]) hu

/-- EN written 1 on a ring whose EN is 0 runs the context check (R401). -/
theorem ringWord_enables (hm : s.isMgmt src = true) (hctl : (s.ring r).ctl &&& 1 = 0) (hv : flag v 0 = true)
    (hx : x = { s.ring r with ctl := v &&& ringCtlBits }) : s.ringWord src r 2 v = (s.modRing r fun _ => x).ringEnable r := by
  have hen : (s.ring r).en = false := flag0 hctl
  have hlocked : lockedWord (s.ring r) v = v := if_neg (by simp [hen])
  have hzero : v &&& ringCtlBits ||| 0 = v &&& ringCtlBits := BitVec.or_zero
  rw [ringWord_mgmt hm, ringCtl_mgmt (x := x) hm (fun h => absurd h (by simp [hen])) (by rw [hx, hlocked, hctl, hzero]), hen, hv]
  rfl

/-- EN written 0 on a live ring, its locked fields as they are, turns it OFF (R414). -/
theorem ringWord_disables (hm : s.isMgmt src = true) (hen : (s.ring r).en = true) (hv : flag v 0 = false)
    (hlocked : v &&& ringLocked = (s.ring r).ctl &&& ringLocked)
    (hx : x = { s.ring r with ctl := (v &&& ~~~ ringLocked ||| (s.ring r).ctl &&& ringLocked) &&& ringCtlBits ||| (s.ring r).ctl &&& 1 }) :
    s.ringWord src r 2 v = (s.modRing r fun _ => x).ringDisable r := by
  have hword : lockedWord (s.ring r) v = v &&& ~~~ ringLocked ||| (s.ring r).ctl &&& ringLocked := if_pos hen
  rw [ringWord_mgmt hm, ringCtl_mgmt (x := x) hm (fun _ => hlocked) (by rw [hx, hword]), hen, hv]
  rfl

/-- A ring reads as it was set, unless it is the default ring set in a table with other entries. -/
theorem ring_set_of (h : x ≠ {} ∨ s.rng.rings = []) : (s.modRing r fun _ => x).ring r = x := by
  rcases h with h | h
  · exact ring_set h
  · exact Tbl.get_set_eq _ _ _ (by rw [h]; rfl)

end

/-! ### The obligation -/

/-- Settles O29: the queue words, then EN set with the two outcomes of its check, then EN cleared. -/
theorem ringContextsTakeTheirWords : Obligations.RingContextsTakeTheirWords := by
  unfold Obligations.RingContextsTakeTheirWords
  intro s src r v hon hr hlt hm
  refine ⟨fun hen => ⟨?_, ?_⟩, fun hen hne => ?live, fun x hctl hv hx hset => ?set, fun hen hst hv hlocked hact => ?clear⟩
  · exact ringContextWrite_yields hon hr hlt (by decide) ((ringWord_mgmt (s := s.hush) hm).trans (queueWord_takes (s := s.hush) hen false))
  · exact ringContextWrite_yields hon hr hlt (by decide) ((ringWord_mgmt (s := s.hush) hm).trans (queueWord_takes (s := s.hush) hen true))
  case live =>
    exact ringContextWrite_yields hon hr hlt (by decide) ((ringWord_mgmt (s := s.hush) hm).trans (queueWord_live (s := s.hush) hen hne))
  case set =>
    have hword := ringWord_enables (s := s.hush) hm hctl hv hx
    have hring : (s.hush.modRing r fun _ => x).ring r = x := ring_set_of (s := s.hush) hset
    refine ⟨fun hcode => ?_, fun hcode hmmio => ?_⟩
    · exact rngCtlEnSet_yields hon hr hlt hv (hword.trans (ringEnable_refuses hring hcode))
    · have hnew : (((s.hush.modRing r fun _ => x).dropAnswers r).modRing r fun _ => enabled x).ring r = enabled x :=
        ring_set fun h => absurd (congrArg Ring.phase h) (by simp [enabled])
      exact ⟨_, rngCtlEnSet_yields hon hr hlt hv (hword.trans (ringEnable_enables hring hcode hmmio)), hnew, by rw [hnew]; rfl, rfl⟩
  case clear =>
    have hst' : ((s.hush.modRing r fun _ => { s.ring r with
        ctl := (v &&& ~~~ ringLocked ||| (s.ring r).ctl &&& ringLocked) &&& ringCtlBits ||| (s.ring r).ctl &&& 1 }).ring r) = _ := ring_st hst
    exact ⟨_, _, rfl, rngCtlEnClear_yields hon hr hlt hv
      ((ringWord_disables (s := s.hush) hm hen hv hlocked rfl).trans (ringDisable_off hst' hst hact))⟩

end Sys2Proof.Proofs.RingContexts
end

