-- ==== Sys2Proof/Proofs/Descriptors.lean ====
section
/-! PROOF. A descriptor from its fetch to its completion, with queues in host memory (R409, R410, R414 to R418, R433), and obligation O32. -/
namespace Sys2Proof.Proofs.Descriptors
open Sys2Proof Sys2Proof.Machine Sys2Proof.Laws Sys2Proof.Proofs

section
variable {s t : State} {r : Nat} {x y : Ring} {a : Active} {o : List Output}

/-! ### Work on one ring pair -/

/-- From s to t ring pair r has become y, messages have left and answers of engines may have gone; other ring pairs and the rest of the
state are as they were. -/
structure Became (s : State) (r : Nat) (y : Ring) (o : List Output) (t : State) : Prop where
  frame : ∃ R A, t = { s with out := s.out ++ o, rng := { s.rng with rings := R, answers := A } }
  ring : t.ring r = y
  others : Apart s.rng.rings t.rng.rings r

theorem Became.refl (hx : s.ring r = x) : Became s r x [] s where
  frame := ⟨_, _, by rw [List.append_nil]⟩
  ring := hx
  others := apart_refl _ _

theorem Became.modRing (h : Became s r y o t) (f : Ring → Ring) (hne : f y ≠ {}) : Became s r (f y) o (t.modRing r f) where
  frame := by obtain ⟨R, A, rfl⟩ := h.frame; exact ⟨_, A, rfl⟩
  ring := by rw [modRing_eq h.ring]; exact ring_set hne
  others := apart_set _ h.others

theorem Became.dropAnswers (h : Became s r y o t) : Became s r y o (t.dropAnswers r) where
  frame := by obtain ⟨R, A, rfl⟩ := h.frame; exact ⟨R, _, rfl⟩
  ring := h.ring
  others := h.others

theorem Became.emit (h : Became s r y o t) (m : Output) : Became s r y (o ++ [m]) (t.emit m) where
  frame := by
    obtain ⟨R, A, rfl⟩ := h.frame
    refine ⟨R, A, ?_⟩
    rw [← List.append_assoc]
    rfl
  ring := h.ring
  others := h.others

/-- Nothing has changed for the heads. -/
theorem Became.heads (h : Became s r y o t) : t.heads = s.heads := by obtain ⟨R, A, rfl⟩ := h.frame; rfl

/-- A vector that is not masked sends its message (R433). -/
theorem sendMsix_unmasked {h v : Nat} (hm : ((s.head h).func.msix.get {} v).masked = false) : s.sendMsix h v = s.emit (.msix h v) :=
  if_neg (by rw [hm]; exact Bool.false_ne_true)

/-- A ring with a descriptor in progress is not the default ring. -/
theorem ne_of_act (h : y.act = some a) : y ≠ {} := fun e => by rw [e] at h; cases h

/-- A signalled ring starts a new count (R433). -/
theorem Became.signal (h : Became s r y o t) (hm : ((s.head y.owner).func.msix.get {} y.vector).masked = false)
    (hne : ({ y with coalN := 0 } : Ring) ≠ {}) :
    Became s r { y with coalN := 0 } (o ++ [.msix y.owner y.vector]) (t.signal r) := by
  have hmt : ((t.head y.owner).func.msix.get {} y.vector).masked = false := by unfold State.head; rw [h.heads]; exact hm
  unfold State.signal
  rw [h.ring, sendMsix_unmasked hmt]
  exact (h.emit _).modRing (fun x => { x with coalN := 0 }) hne

/-! ### Fetch -/

/-- A ring that runs, with nothing in progress, a new descriptor, no hold on it, an engine and a slot (R409). -/
structure Fetches (s : State) (r : Nat) (x : Ring) : Prop where
  ring : s.ring r = x
  st : x.st = .run
  act : x.act = none
  more : x.sqHead ≠ x.sqTail
  held : s.descHeld r = false
  tile : s.tileRetired (r % 16) = false
  slot : s.hasSlot r = true

/-- The guard of a fetch is passed. -/
theorem Fetches.passes (h : Fetches s r x) : (! (decide (x.st = .run) || decide (x.st = .detached)) || x.act.isSome || decide (x.sqHead = x.sqTail)
    || s.descHeld r || s.tileRetired (r % 16) || ! s.hasSlot r) = false := by
  simp [h.st, h.act, h.more, h.held, h.tile, h.slot]

/-- Without a free completion entry the ring waits (R409, R414). -/
theorem fetch_waits (hon : s.on = true) (h : Fetches s r x) (hfree : x.cqFree = false) (d : Line) (ok : Bool) :
    Yields (.descriptorFetch r d ok) s (s.hush.modRing r fun _ => { x with st := .wait }) := by
  refine yields_of hon (show exec _ s = execDescriptorFetch r d ok s from rfl) ?_
  dsimp only
  rw [hush_ring, h.ring]
  refine (if_neg (Bool.eq_false_iff.mp h.passes)).trans ((if_pos (by simp [h.st, hfree])).trans (modRing_eq h.ring))

/-- The ring with the descriptor at SQ_HEAD taken: a failed check ends it at once (R410, R417). -/
def taken (s : State) (x : Ring) (d : Line) : Ring := { x with
  served := s.rng.nextOrder
  sqHead := (x.sqHead + 1) % x.sqSize
  act := some { words := d, status := if s.descCheck x.owner d = 0 then none else some (s.descCheck x.owner d) } }

/-- The ring to which the engine turns is the last in turn (R411). -/
theorem serve_ring (hx : s.ring r = x) (hst : x.st ≠ .off) : (s.serve r).ring r = { x with served := s.rng.nextOrder } := by
  have h : (s.modRing r fun _ => { x with served := s.rng.nextOrder }).ring r = { x with served := s.rng.nextOrder } :=
    ring_st (y := { x with served := s.rng.nextOrder }) hst
  rwa [← modRing_eq (f := fun x => { x with served := s.rng.nextOrder }) hx] at h

theorem takeDescriptor_eq (hx : s.ring r = x) (hst : x.st ≠ .off) (d : Line) : s.takeDescriptor r { data := d } =
    (((s.dropAnswers r).count (evEngine (engineOf r) 0) 1).serve r).modRing r fun _ => taken s x d := by
  have hserved := serve_ring (s := (s.dropAnswers r).count (evEngine (engineOf r) 0) 1) hx hst
  unfold State.takeDescriptor
  refine (if_neg Bool.false_ne_true).trans ?_
  dsimp only
  rw [hx, modRing_eq hserved]
  rfl

/-- A running ring with a free slot takes the descriptor at SQ_HEAD from host memory (R409, R410). -/
theorem fetch_takes (hon : s.on = true) (h : Fetches s r x) (hfree : x.cqFree = true) (hhost : x.sqHost = true)
    (hbm : (s.head x.owner).func.busMaster = true) (d : Line) :
    Yields (.descriptorFetch r d true) s (s.hush.takeDescriptor r { data := d }) := by
  refine yields_of hon (show exec _ s = execDescriptorFetch r d true s from rfl) ?_
  dsimp only
  rw [hush_ring, h.ring]
  exact (if_neg (Bool.eq_false_iff.mp h.passes)).trans
    ((if_neg (by simp [hfree])).trans ((if_pos hhost).trans (if_pos (by simpa using hbm))))

/-! ### NOP -/

/-- NOP ends with STATUS OK and RESULT 0 (R418). -/
theorem workNop_ends (hx : s.ring r = x) (hw : s.working r 0x01 a) :
    s.workNop r = s.modRing r fun _ => { x with act := some { a with status := some 0, result := 0 } } := by
  obtain ⟨hact, hop, hst, hheld, hturn⟩ := hw
  unfold State.workNop
  rw [hact]
  dsimp only
  rw [hop, hst, hheld, hturn]
  refine (modAct_eq hx (hx ▸ hact)).trans ?_
  dsimp only
  rw [hst]
  rfl

theorem nop_yields {c : Instr} (hc : c ∈ [Instr.nop r, .descriptorStep r]) (hon : s.on = true) (hx : s.ring r = x) (hw : s.working r 0x01 a) :
    Yields c s (s.hush.modRing r fun _ => { x with act := some { a with status := some 0, result := 0 } }) := by
  have hgo := workNop_ends (s := s.hush) hx hw
  rcases List.mem_pair.mp hc with rfl | rfl
  · exact yields_of hon (show exec _ s = execNop r s from rfl) hgo
  · refine yields_of hon (show exec _ s = execDescriptorStep r s from rfl) ?_
    rw [hush_ring, hw.1]
    dsimp only
    rw [hw.2.1]
    exact hgo

/-! ### Completion -/

/-- The ring once a completion is written: CQ_TAIL has moved on, and the phase has turned at the wrap (R416). -/
def moved (x : Ring) : Ring := { x with
  cqTail := (x.cqTail + 1) % x.cqSize, phase := if (x.cqTail + 1) % x.cqSize = 0 then ! x.phase else x.phase }

/-- The ring once its descriptor is over (R414). -/
def finished (x : Ring) : Ring := { x with act := none, st := if x.st = .run && x.sqHead = x.sqTail then .idle else x.st }

theorem interrupt_off (h : (t.ring r).irq = 0) (flagged : Bool) : t.interrupt r flagged = t := by
  unfold State.interrupt; dsimp only; rw [h]; rfl

theorem interrupt_flagged (h : (t.ring r).irq = 1) (flagged : Bool) : t.interrupt r flagged = if flagged then t.signal r else t := by
  unfold State.interrupt; dsimp only; rw [h]; rfl

/-- Without coalescing a flagged completion signals where the ring's mode is FLAGGED, and no other does (R433). -/
theorem Became.interrupt (h : Became s r y o t) (hact : y.act = some a) (hirq : y.irq < 2)
    (hm : ((s.head y.owner).func.msix.get {} y.vector).masked = false) (flagged : Bool) :
    ∃ n, Became s r { y with coalN := n } (o ++ if (y.irq = 1 ∧ flagged = true) then [.msix y.owner y.vector] else []) (t.interrupt r flagged) := by
  have hcases : y.irq = 0 ∨ y.irq = 1 := by omega
  have hsame : Became s r { y with coalN := y.coalN } (o ++ []) t := by rw [List.append_nil]; exact h
  rcases hcases with h0 | h1
  · rw [interrupt_off (by rw [h.ring]; exact h0), if_neg (by simp [h0])]
    exact ⟨_, hsame⟩
  · rw [interrupt_flagged (by rw [h.ring]; exact h1)]
    cases flagged
    · rw [if_neg (by simp), if_neg Bool.false_ne_true]
      exact ⟨_, hsame⟩
    · rw [if_pos ⟨h1, rfl⟩, if_pos rfl]
      exact ⟨0, h.signal hm (ne_of_act (y := { y with coalN := 0 }) hact)⟩

/-- Once its completion is written a ring's descriptor is over (R414, R416). -/
theorem Became.completed (h : Became s r y o t) (hact : y.act = some a) (hst : y.st = .run) (hquiet : y.quiet = false) (hirq : y.irq < 2)
    (hm : ((s.head y.owner).func.msix.get {} y.vector).masked = false) :
    ∃ n, Became s r (finished { moved y with coalN := n })
      (o ++ if (y.irq = 1 ∧ dIrq a.words = true) then [.msix y.owner y.vector] else []) (t.completed r a) := by
  have hmoved : Became s r (moved y) o (t.modRing r moved) := h.modRing moved (ne_of_act (y := moved y) hact)
  obtain ⟨n, hsignalled⟩ := hmoved.interrupt hact hirq hm (dIrq a.words)
  have hne : finished { moved y with coalN := n } ≠ {} := fun e => by
    have hoff := congrArg Ring.st e
    simp only [finished, moved, hst] at hoff
    split at hoff <;> cases hoff
  have hover := hsignalled.dropAnswers.modRing finished hne
  refine ⟨n, ?_⟩
  unfold State.completed
  rw [h.ring, hquiet]
  exact hover

theorem completionWrite_yields (hon : s.on = true) (hx : s.ring r = x) (hact : x.act = some a) (hend : a.status ≠ none)
    (hstop : s.vlt.stopped = false) (hdone : s.engineDone r = true) (hst : x.st = .run) (hmute : x.mute = false) (hhost : x.cqHost = true)
    (hbm : (s.head x.owner).func.busMaster = true) :
    Yields (.completionWrite r) s
      ((s.hush.emit (.hostWrite x.owner (x.cqBase + 16 * x.cqTail) [x.cplWord a, a.result])).completed r a) := by
  have hdone' : s.hush.engineDone r = true := hdone
  refine yields_of hon (show exec _ s = execCompletionWrite r s from rfl) ?_
  dsimp only
  rw [hush_ring, hx, hact]
  dsimp only
  refine (if_neg ?_).trans ((if_neg (by simp [hst, hmute])).trans ?_)
  · simp [hend, hstop, hdone']
  · unfold State.writeCompletion
    rw [hush_ring, hx]
    exact (if_pos hhost).trans (if_pos hbm)

/-- A coalesced message leaves when its time is over (R433). -/
theorem msixCoalesceTimeout_yields (hon : s.on = true) (hx : s.ring r = x) (hirq : x.irq = 2) (hn : x.coalN ≠ 0) (hst : x.st ≠ .off)
    (hdue : x.coalAt + x.coalUs * 2000 ≤ s.clock) (hm : ((s.head x.owner).func.msix.get {} x.vector).masked = false) :
    Yields (.msixCoalesceTimeout r) s { s.hush.modRing r fun _ => { x with coalN := 0 } with out := [.msix x.owner x.vector] } := by
  refine yields_of hon (show exec _ s = execMsixCoalesceTimeout r s from rfl) ?_
  dsimp only
  rw [hush_ring, hx]
  have hstay : s.hush.elapse (x.coalAt + x.coalUs * 2000) = s.hush := elapse_done hdue
  have hgo : s.hush.signal r = { s.hush.modRing r fun _ => { x with coalN := 0 } with out := [.msix x.owner x.vector] } := by
    unfold State.signal
    rw [hush_ring, hx, sendMsix_unmasked (by exact hm), modRing_eq (s := s.hush.emit (.msix x.owner x.vector)) hx]
    rfl
  have hguard : (decide (x.irq = 2) && decide (x.coalN ≠ 0) && decide (x.st ≠ .off)) = true := by simp [hirq, hn, hst]
  rw [hguard, when_true, hstay, hgo]

end

/-! ### The obligation -/

/-- Settles O32: the fetch, the wait for a free entry, NOP, the completion, the coalesced message. -/
theorem descriptorsStartAndComplete : Obligations.DescriptorsStartAndComplete := by
  unfold Obligations.DescriptorsStartAndComplete
  intro s r d x a hon hx hheld
  refine ⟨fun hst hact hmore htile hslot hfree hhost hbm => ?fetch, fun hst hact hmore htile hslot hfree ok => ?wait,
    fun hw c hc => nop_yields hc hon hx hw, fun hact hend hstop hdone hst hmute hquiet hhost hbm hirq hm => ?completion,
    fun hirq hn hst hdue hm => msixCoalesceTimeout_yields hon hx hirq hn hst hdue hm⟩
  case fetch =>
    have hlive : x.st ≠ .off := by rw [hst]; decide
    have hy := fetch_takes hon ⟨hx, hst, hact, hmore, hheld, htile, hslot⟩ hfree hhost hbm d
    rw [takeDescriptor_eq (s := s.hush) hx hlive] at hy
    exact ⟨_, hy, ring_st (y := taken s x d) hlive, fun hwf => (apart_set _ (apart_set _ (apart_refl _ r)) hwf).2, rfl⟩
  case wait =>
    exact fetch_waits hon ⟨hx, hst, hact, hmore, hheld, htile, hslot⟩ hfree d ok
  case completion =>
    have hstart := (Became.refl (s := s.hush) hx).emit (.hostWrite x.owner (x.cqBase + 16 * x.cqTail) [x.cplWord a, a.result])
    obtain ⟨n, hbecame⟩ := hstart.completed hact hst hquiet hirq hm
    obtain ⟨R, A, hframe⟩ := hbecame.frame
    refine ⟨_, completionWrite_yields hon hx hact hend hstop hdone hst hmute hhost hbm, ?_⟩
    generalize (s.hush.emit _).completed r a = u at hbecame hframe
    subst hframe
    refine ⟨rfl, ?_, ?_, ?_, ?_, fun hwf => (hbecame.others hwf).2, rfl⟩
    · rw [hbecame.ring]; rfl
    · rw [hbecame.ring]; rfl
    · rw [hbecame.ring]; rfl
    · rw [hbecame.ring]
      simp [finished, moved, hst]

end Sys2Proof.Proofs.Descriptors
end

