-- ==== Sys2Proof/Proofs/HeadResets.lean ====
section
/-! PROOF. The three resets of one head (R576): PERST#, CXL reset, function-level reset, and obligation O37. -/
namespace Sys2Proof.Proofs.HeadResets
open Sys2Proof Sys2Proof.Machine Sys2Proof.Laws Sys2Proof.Laws.Io Sys2Proof.Proofs

section
variable {s t : State} {h r : Nat} {x y : Head}

theorem linkUp_of (hp : s.present h = true) (hx : s.head h = x) (hup : x.link.up = true) : s.linkUp h = true := by
  rw [State.linkUp, hp, hx, hup]; rfl

/-- What a head's reset leaves of ring pair r: it is OFF and disabled, and its descriptor stands (R432). -/
def TurnedOff (s t : State) (r : Nat) : Prop := (t.ring r).st = .off ∧ (t.ring r).en = false ∧ (t.ring r).act = (s.ring r).act

theorem turnedOff_ringsReset (hw : s.rng.rings.wf {} = true) (ho : (s.ring r).owner = h) (ht : (s.ring r).st ≠ .off) :
    TurnedOff s (s.ringsReset h) r := by
  unfold TurnedOff
  rw [rings_reset hw ho ht]
  exact ⟨rfl, ctl_en _, rfl⟩

/-- A link that drops leaves a ring pair that is OFF as it is. -/
theorem dropLink_ring_off (hs : s.coh.snoops = []) (hb : s.coh.heldBirsp = []) (hw : s.rng.rings.wf {} = true) (ht : (s.ring r).st = .off) :
    (s.dropLink h).ring r = s.ring r := by
  have hrings : (s.dropLink h).rng.rings = s.rng.rings.mapVals {} fun _ x => if x.owner = h && x.st ≠ .off then { x with st := .detached } else x := by
    rw [dropLink_eq hs hb]; rfl
  unfold State.ring at ht ⊢
  rw [hrings, get_mapVals_wf ({} : Machine.Ring) _ r (by simp) s.rng.rings 0 hw]
  exact if_neg (by rw [ht]; simp)

theorem ringsReset_wf (hw : s.rng.rings.wf {} = true) : (s.ringsReset h).rng.rings.wf {} = true := wf_mapVals _ _ _ 0 hw

theorem turnedOff_drop (hs : s.coh.snoops = []) (hb : s.coh.heldBirsp = []) (hw : s.rng.rings.wf {} = true)
    (ho : (s.ring r).owner = h) (ht : (s.ring r).st ≠ .off) : TurnedOff s ((s.ringsReset h).dropLink h) r := by
  have hoff := turnedOff_ringsReset hw ho ht
  unfold TurnedOff
  rw [dropLink_ring_off (s := s.ringsReset h) hs hb (ringsReset_wf hw) hoff.1]
  exact hoff

/-- The head that a PERST# leaves: a link to train anew, a reset function, its own brake open. -/
def reborn (x : Head) : Head :=
  { link := { memOff := false }, func := {}, load := { x.load with reqs := 0, demoted := 0 }, brake := { x.brake with self := false } }

/-- The head's part of a PERST#, after its link dropped. -/
def rebear (a : Bool) (x : Head) : Head :=
  { x with link := { memOff := ! a }, func := {}, load := { x.load with reqs := 0, demoted := 0 }, brake := { x.brake with self := false } }

/-- The state of a PERST# before the head itself: the budgets full, quiet, session and fence gone (R576). -/
def cleared (t : State) (h : Nat) : State :=
  { t with
    vlt := { t.vlt with held := t.vlt.held.filter fun q => q.headOf ≠ some h }
    qos := { t.qos with heads := t.qos.heads.set {} h { t.qos.heads.get {} h with
      rd := (t.qos.heads.get {} h).rdCap, wr := (t.qos.heads.get {} h).wrCap, bm := (t.qos.heads.get {} h).bmCap, filledAt := t.clock } }
    pwr := { t.pwr with quiet := t.pwr.quiet.set 0 h 0 }
    sec := { t.sec with spdm := t.sec.spdm.set 0 h 0 }
    glb := { t.glb with
      fences := t.glb.fences.set 0 h 0
      idx := t.glb.idx.restrict fun k _ => k / 4 ≠ h
      mbx := t.glb.mbx.set {} h {} } }

theorem headReset_eq : s.headReset h
    = ((((cleared ((s.ringsReset h).dropLink h) h).lanesReturn h).modHead h (rebear s.vlt.active)).openGate h).qosRecompute := rfl

/-- Where its link drop left the head with nothing waiting and no brake but its own, a PERST# leaves it as new. -/
theorem rebear_reborn (ht : t.head h = { x with link := y.link, inQ := [], outQ := [], waitQ := [], kept := 0, brake := { x.brake with gate := [] } }) (hg : x.brake.gate = []) :
    rebear true (t.head h) = reborn x := by
  have hb : ({ x.brake with gate := [], self := false } : Brake) = { x.brake with self := false } := by rw [← hg]
  rw [ht]
  unfold rebear reborn
  rw [← hb]
  rfl

/-- Opening the gate of a head that is as new. -/
theorem reborn_opens (ht : rebear true (t.head h) = reborn x) (hg : x.brake.gate = []) (hm : x.brake.mgmt = false) :
    (t.modHead h (rebear true)).openGate h = (t.modHead h fun _ => reborn x).modHead h fun _ => reborn x := by
  have hmod : t.modHead h (rebear true) = t.modHead h fun _ => reborn x := by
    rw [modHead_eq (f := rebear true) rfl, ht]
  rw [hmod]
  exact openGate_nil (head_on rfl) (fun hh => by cases congrArg (fun x => x.link.memOff) hh) hg (by simp [Head.braked, reborn, hm]) rfl rfl

theorem reborn_head : (((t.modHead h fun _ => reborn x).modHead h fun _ => reborn x).head h) = reborn x := head_on rfl

/-- A PERST# of a head with no request gated, on a device with no BISnp open: what it makes of the head and of the lanes' buckets, and the
parts of the state that it touches (R576, R479). -/
theorem headReset_completes (hx : s.head h = x) (hg : x.brake.gate = []) (hm : x.brake.mgmt = false)
    (hs : s.coh.snoops = []) (hb : s.coh.heldBirsp = []) (ha : s.vlt.active = true) :
    ∃ hd q b wr wb a1 a2 a3 a4 a5 a6 hv qh ix mb, s.headReset h = { s with
        heads := hd, qos := q
        rng := { s.rng with qheld := qh, rings := ((s.ringsReset h).dropLink h).rng.rings }
        vlt := { s.vlt with held := hv }
        near := { s.near with wbRetry := wr, wb := wb }
        coh := { s.coh with sfWait := a1, retry := a2, recHeld := a3, txns := a4, handoff := a5, sf := a6 }
        pwr := { s.pwr with low := putBit s.pwr.low (32 + h) false, leaving := putBit s.pwr.leaving (32 + h) false, quiet := s.pwr.quiet.set 0 h 0 }
        sec := { s.sec with spdm := s.sec.spdm.set 0 h 0 }
        ports := { s.ports with laneRet := s.ports.laneRet.set 0 (h / 2) ((s.headLanes h).foldl (fun b i => putBit b i false) (s.ports.laneRet.get 0 (h / 2))) }
        flt := { s.flt with buckets := b }
        glb := { s.glb with idx := ix, mbx := mb, fences := s.glb.fences.set 0 h 0 } }
      ∧ Tbl.get {} hd h = reborn x
      ∧ (s.flt.buckets.wf {} = true → ∀ i ∈ s.headLanes h, (b.get {} (256 * 6 + (8 * (h / 2) + i))).count = 0
          ∧ (b.get {} (256 * 6 + (8 * (h / 2) + i))).retired = false) := by
  obtain ⟨g, hhead⟩ := drop_head (s := s.ringsReset h) (h := h) (l := x.link) (congrArg Head.link hx) hs hb
  obtain ⟨hd, wr, wb, a1, a2, a3, a4, a5, a6, hv, qh, rg, hframe⟩ := drop_frame (s := s.ringsReset h) (h := h) hs hb
  obtain ⟨t, ht⟩ : ∃ t, t = (s.ringsReset h).dropLink h := ⟨_, rfl⟩
  rw [headReset_eq, ha]
  rw [← ht] at hhead hframe ⊢
  obtain ⟨b, hlanes, hzero⟩ := lanes_return (cleared t h) h
  have hnew : rebear true (((cleared t h).lanesReturn h).head h) = reborn x := by
    refine rebear_reborn (y := { link := downLink x.link }) ?_ hg
    rw [hlanes]
    refine Eq.trans (show _ = t.head h from rfl) (hhead.trans ?_)
    rw [show (s.ringsReset h).head h = x from hx, hg]
    rfl
  rw [reborn_opens hnew hg hm, hlanes]
  have hl : (cleared t h).headLanes h = s.headLanes h := by rw [hframe]; rfl
  have hrg : rg = t.rng.rings := by rw [hframe]
  have hbk : (cleared t h).flt.buckets = s.flt.buckets := by rw [hframe]; rfl
  rw [hl] at hzero ⊢
  rw [hbk] at hzero
  generalize hv : State.modHead (State.modHead _ h fun _ => reborn x) h (fun _ => reborn x) = v
  refine ⟨Tbl.set {} (Tbl.set {} t.heads h (reborn x)) h (reborn x), v.qosRecompute.qos, b, wr, wb, a1, a2, a3, a4, a5, a6, (cleared t h).vlt.held, qh,
    (cleared t h).glb.idx, (cleared t h).glb.mbx, ?_, ?_, hzero⟩
  rotate_left
  · exact reborn_head (t := t)
  rw [← hrg, ← hv, hframe]; rfl

end

/-- Settles O37. That CXL reset and function-level reset keep or clear bus mastering as they do is log entry 49, and that a PERST# returns
the lanes of the head's half of its port is log entry 241, both the model's reading. -/
theorem headsReset : Obligations.HeadsReset := by
  unfold Obligations.HeadsReset
  intro s h r x hon hp hx hg hm
  refine ⟨fun hs hb ha => ?perst, fun hup => ⟨fun hw hk => ?cxl, ?flr⟩⟩
  case perst =>
    obtain ⟨hd, q, b, wr, wb, a1, a2, a3, a4, a5, a6, hv, qh, ix, mb, heq, hhead, hzero⟩ := headReset_completes (s := s.hush) (h := h) hx hg hm hs hb ha
    refine ⟨_, yields_when hon (show exec _ s = execHeadPerst h s from rfl) hp heq, hhead, fun hwf ho hst => ?_, hzero, rfl⟩
    exact turnedOff_drop (s := s.hush) hs hb hwf ho hst
  case cxl =>
    obtain ⟨y, hy⟩ : ∃ y : Head, y = { x with
      link := { x.link with memOff := ! s.vlt.active || ! x.link.cxl, dropped := false }, func := { x.func with decoders := [] }, brake := { x.brake with self := false } } := ⟨_, rfl⟩
    have hyup : y.link.up = true := by rw [hy]; exact hup
    obtain ⟨t, ht⟩ : ∃ t, t = (s.hush.ringsReset h).modHead h fun _ => y := ⟨_, rfl⟩
    have hopen : t.openGate h = t.modHead h fun _ => y :=
      openGate_nil (ht ▸ head_up hyup) (fun hh => by rw [hh] at hyup; cases hyup) (by rw [hy]; exact hg) (by rw [hy]; simp [Head.braked, hm])
        (by rw [hy]; exact hw) (by rw [hy]; exact hk)
    refine ⟨t.modHead h fun _ => y, yields_when hon (show exec _ s = execCxlReset h s from rfl) (linkUp_of hp hx hup) ?_, ?_, fun hwf ho hst => ?_, ?_⟩
    · rw [modHead_eq (s := s.hush.ringsReset h) (y := x) hx, ← hopen, ht, hy]; rfl
    · rw [← hy]; exact head_up hyup
    · exact ht ▸ turnedOff_ringsReset (s := s.hush) hwf ho hst
    · rw [ht]; rfl
  case flr =>
    have hyup : ({ x with func := { x.func with busMaster := false, msix := [] } } : Head).link.up = true := hup
    refine ⟨((s.hush.ringsReset h).modHead h fun _ => { x with func := { x.func with busMaster := false, msix := [] } }).resetPairs h,
      yields_when hon (show exec _ s = execFunctionLevelReset h s from rfl) (linkUp_of hp hx hup) ?_, ?_, ?_, ?_⟩
    · unfold State.modFunc
      rw [modHead_eq (s := s.hush.ringsReset h) (y := x) hx]
    · exact head_up hyup
    · exact fun hwf ho hst => turnedOff_ringsReset (s := s.hush) hwf ho hst
    · rfl

end Sys2Proof.Proofs.HeadResets
end

