-- ==== Sys2Proof/Proofs/PowerStates.lean ====
section
/-! PROOF. Power states and the event calendar (R536 to R541): what starting an exit does, and obligation O59. -/
namespace Sys2Proof.Proofs.PowerStates
open Sys2Proof Sys2Proof.Machine Sys2Proof.Laws Sys2Proof.Laws.Estimates Sys2Proof.Proofs

section
variable {s t : State} {r h : Nat}

/-! ### Starting exits -/

/-- Starting the exits of a set of resources marks those in a power state as leaving it, and keeps the others (R540). -/
theorem exits_eq (s : State) (m : BitVec 57) : ∃ x a o, s.exits m = { s with
    pwr := { s.pwr with leaving := s.pwr.leaving ||| (s.pwr.low &&& m), exitAt := x }, near := { s.near with autoOff := a }, out := o } := by
  unfold State.exits
  dsimp only
  split
  case isTrue hnone =>
    have hleft : s.pwr.leaving ||| (s.pwr.low &&& m) = s.pwr.leaving := by
      refine BitVec.eq_of_getLsbD_eq fun i hi => ?_
      have hbit : (s.pwr.low &&& m &&& ~~~ s.pwr.leaving).getLsbD i = false := by rw [hnone]; exact BitVec.getLsbD_zero
      simp only [BitVec.getLsbD_and, BitVec.getLsbD_or, BitVec.getLsbD_not, decide_eq_true hi] at hbit ⊢
      cases hl : s.pwr.leaving.getLsbD i
      · rw [hl] at hbit; simpa only [Bool.not_false, Bool.and_true, Bool.false_or] using hbit
      · rfl
    exact ⟨s.pwr.exitAt, s.near.autoOff, s.out, by rw [hleft]⟩
  case isFalse =>
    have hleft : s.pwr.leaving ||| (s.pwr.low &&& m &&& ~~~ s.pwr.leaving) = s.pwr.leaving ||| (s.pwr.low &&& m) := by
      refine BitVec.eq_of_getLsbD_eq fun i hi => ?_
      simp only [BitVec.getLsbD_and, BitVec.getLsbD_or, BitVec.getLsbD_not, hi]
      cases s.pwr.leaving.getLsbD i <;> simp
    rw [hleft]
    split <;> exact ⟨_, _, _, rfl⟩

/-- The bits of the set of one resource. -/
theorem bit_iff (r : Nat) {i : Nat} (hi : i < 57) : (BitVec.ofNat 57 (2 ^ r)).getLsbD i = (i == r) := by
  by_cases hir : i = r
  · subst hir; rw [bit_eq hi]; simp
  · rw [bit_ne hi (Ne.symm hir)]; simp [hir]

/-- The resources of a set of one. -/
theorem filter_bit (hr : r < 57) : ((List.range 57).filter fun i => (BitVec.ofNat 57 (2 ^ r)).getLsbD i) = [r] := by
  rw [List.filter_congr fun i hi => bit_iff r (List.mem_range.mp hi), List.filter_beq,
    List.count_eq_one_of_mem List.nodup_range (List.mem_range.mpr hr)]
  rfl

/-- A resource in its state that starts its exit: its bit, the cycle of the exit's end, and what a drive and the ways do (R123, R540). -/
theorem wake_low (hr : r < 57) (hlow : s.pwr.low.getLsbD r = true) (hstay : s.pwr.leaving.getLsbD r = false) : s.wake r = { s with
    pwr := { s.pwr with leaving := s.pwr.leaving ||| BitVec.ofNat 57 (2 ^ r), exitAt := s.pwr.exitAt.set 0 r (s.clock + s.exitCycles r) }
    near := { s.near with autoOff := if r = 56 then 0 else s.near.autoOff }
    out := s.out ++ if 48 ≤ r ∧ r < 56 then [.nvmeAdmin (r - 48) 0x09] else [] } := by
  have hx : s.pwr.low &&& BitVec.ofNat 57 (2 ^ r) &&& ~~~ s.pwr.leaving = BitVec.ofNat 57 (2 ^ r) := by
    refine BitVec.eq_of_getLsbD_eq fun i hi => ?_
    rw [BitVec.getLsbD_and, BitVec.getLsbD_and, BitVec.getLsbD_not, bit_iff r hi]
    by_cases hir : i = r
    · subst hir; rw [hlow, hstay, decide_eq_true hi]; simp
    · rw [beq_false_of_ne hir]; simp
  have hne : BitVec.ofNat 57 (2 ^ r) ≠ 0 := fun he => by
    have hbit := bit_eq hr
    rw [he] at hbit
    cases hbit.symm.trans BitVec.getLsbD_zero
  have hways : (BitVec.ofNat 57 (2 ^ r)).getLsbD 56 = decide (r = 56) := by
    rw [bit_iff r (by omega), Bool.beq_comm]
    rfl
  unfold State.wake State.exits
  dsimp only
  rw [hx, if_neg hne, filter_bit hr, hways]
  have hdrive : ([r].filter fun r => decide (48 ≤ r) && decide (r < 56)).map (fun r => Output.nvmeAdmin (r - 48) 0x09)
      = if 48 ≤ r ∧ r < 56 then [Output.nvmeAdmin (r - 48) 0x09] else [] := by
    by_cases hd : 48 ≤ r ∧ r < 56 <;> simp [hd]
  rw [hdrive]
  by_cases h56 : r = 56 <;> simp [h56]

/-- The end of a head's quiet (R537, R541). -/
theorem unquiet_eq (hq : s.pwr.quiet.get 0 h ≠ 0) : ∃ x a o, s.unquiet h = { s with
    pwr := { s.pwr with quiet := s.pwr.quiet.set 0 h 0, leaving := s.pwr.leaving ||| (s.pwr.low &&& wakeMask h), exitAt := x }
    near := { s.near with autoOff := a }, out := o } := by
  obtain ⟨x, a, o, hexits⟩ := exits_eq { s with pwr := { s.pwr with quiet := s.pwr.quiet.set 0 h 0 } } (wakeMask h)
  unfold State.unquiet
  rw [if_neg hq, hexits]
  exact ⟨x, a, o, rfl⟩

/-- The drives among the resources that p picks. -/
theorem drives_of (p : Nat → Bool) : ((List.range 57).filter fun r => decide (48 ≤ r) && decide (r < 56) && p r).map (fun r => Output.nvmeAdmin (r - 48) 9)
    = ((List.range 8).filter fun i => p (48 + i)).map fun i => .nvmeAdmin i 9 := by
  have hsplit : List.range 57 = List.range 48 ++ ((List.range 8).map (48 + ·) ++ [56]) := by decide
  have hlow : (List.range 48).filter (fun r => decide (48 ≤ r) && decide (r < 56) && p r) = [] := by
    refine List.filter_eq_nil_iff.mpr fun i hi => ?_
    have := List.mem_range.mp hi
    simp [show ¬ 48 ≤ i by omega]
  have hmid : ((List.range 8).map (48 + ·)).filter (fun r => decide (48 ≤ r) && decide (r < 56) && p r) = ((List.range 8).filter fun i => p (48 + i)).map (48 + ·) := by
    rw [List.filter_map]
    refine congrArg _ (List.filter_congr fun i hi => ?_)
    have := List.mem_range.mp hi
    simp [show 48 + i < 56 by omega]
  rw [hsplit, List.filter_append, List.filter_append, hlow, hmid]
  simp

/-! ### The commands -/

/-- The evaluation of the calendar (R540). -/
theorem calendarEvaluate_completes (hon : s.on = true) (hr : r < 57) : Completes .calendarEvaluate s fun u =>
    u.pwr.low.getLsbD r = (s.pwr.low.getLsbD r || s.mayEnter r)
    ∧ u.near.autoOff = (if s.pwr.low.getLsbD 56 = false ∧ s.mayEnter 56 = true then 15 else s.near.autoOff)
    ∧ u.out = ((List.range 8).filter fun i => ! s.pwr.low.getLsbD (48 + i) && s.mayEnter (48 + i)).map (fun i => Output.nvmeAdmin i 0x09)
    ∧ (s.pwr.exlat.wf 0 = true → ∀ i, i < 8 → u.pwr.exlat.get 0 i = if s.pwr.low.getLsbD (48 + i) = false ∧ s.mayEnter (48 + i) = true then
        (((s.driveStates i (s.gapOf (48 + i))).getLast?.map fun p => p.2).getD 0) else s.pwr.exlat.get 0 i)
    ∧ (s.dram.ch.wf {} = true → ∀ m, m < 16 → u.chan m = if s.pwr.low.getLsbD (16 + m) = false ∧ s.mayEnter (16 + m) = true then
        { s.chan m with postponed := [], sched := [], window := 0 } else s.chan m)
    ∧ u = { s with out := u.out, pwr := { s.pwr with low := u.pwr.low, exlat := u.pwr.exlat }, near := { s.near with autoOff := u.near.autoOff }, dram := { s.dram with ch := u.dram.ch } } := by
  obtain ⟨p, hp⟩ : ∃ p : Nat → Bool, p = fun r => ! s.pwr.low.getLsbD r && s.mayEnter r := ⟨_, rfl⟩
  have hpiff : ∀ i, p i = true ↔ s.pwr.low.getLsbD i = false ∧ s.mayEnter i = true := by intro i; rw [hp]; simp
  obtain ⟨L, A, O, X, C, heq, hL, hA, hO, hX, hC⟩ := enter_fold p (List.range 57) s.hush (fun i hi => List.mem_range.mp hi)
  have hmem : ∀ i, i < 57 → i ∈ List.range 57 := fun i hi => List.mem_range.mpr hi
  have hrun : (List.range 57).foldl (fun (t : State) r => if ! s.hush.pwr.low.getLsbD r && s.hush.mayEnter r then t.enterState r else t) s.hush = _ :=
    (congrArg (fun p : Nat → Bool => (List.range 57).foldl (fun (t : State) r => if p r then t.enterState r else t) s.hush) hp.symm).trans heq
  refine ⟨_, yields_of hon (show exec _ s = execCalendarEvaluate s from rfl) hrun, ?_, ?_, ?_, fun hwf i hi => ?_, fun hwf m hm => ?_, rfl⟩
  · refine (hL r hr).trans ?_
    rw [hp]
    have hlisted : (List.range 57).contains r = true := List.elem_eq_true_of_mem (hmem r hr)
    rw [hlisted]
    show (s.pwr.low.getLsbD r || (true && (! s.pwr.low.getLsbD r && s.mayEnter r))) = _
    cases s.pwr.low.getLsbD r <;> simp
  · refine hA.trans ?_
    simp [hpiff]
  · refine hO.trans ?_
    rw [drives_of, hp]
    rfl
  · refine (hX hwf i hi).trans ?_
    simp only [hpiff, hmem (48 + i) (by omega), true_and]
    rfl
  · refine (hC hwf m hm).trans ?_
    simp only [hpiff, hmem (16 + m) (by omega), true_and]
    rfl

/-- An exit that starts at its time or later: the gap ends no later than the exit takes. -/
theorem wakeAhead_completes {g : Nat} (hon : s.on = true) (hr : r < 57) (hlow : s.pwr.low.getLsbD r = true) (hstay : s.pwr.leaving.getLsbD r = false)
    (hdue : s.wakeDue r = some g) (hg : g ≤ s.exitCycles r) : Completes (.wakeAhead r) s fun u =>
      (∀ q, q < 57 → u.pwr.leaving.getLsbD q = (s.pwr.leaving.getLsbD q || decide (q = r)))
      ∧ (s.pwr.exitAt.wf 0 = true → u.pwr.exitAt.get 0 r = s.clock + s.exitCycles r)
      ∧ u = { s with out := if 48 ≤ r ∧ r < 56 then [Output.nvmeAdmin (r - 48) 0x09] else [], pwr := { s.pwr with leaving := u.pwr.leaving, exitAt := u.pwr.exitAt }, near := { s.near with autoOff := if r = 56 then 0 else s.near.autoOff } } := by
  have hnow : s.hush.elapse (s.hush.clock + (g - s.hush.exitCycles r)) = s.hush :=
    elapse_done (by rw [show s.hush.exitCycles r = s.exitCycles r from rfl, Nat.sub_eq_zero_of_le hg]; exact Nat.le_refl _)
  have hrun : (match s.hush.wakeDue r with
      | some g => (s.hush.elapse (s.hush.clock + (g - s.hush.exitCycles r))).wake r
      | none => s.hush) = s.hush.wake r := by
    rw [show s.hush.wakeDue r = some g from hdue]
    exact congrArg (fun t => State.wake t r) hnow
  have hguard : (decide (r < 57) && s.pwr.low.getLsbD r && ! s.pwr.leaving.getLsbD r) = true := by rw [hlow, hstay, decide_eq_true hr]; rfl
  refine ⟨_, yields_when hon (show exec _ s = execWakeAhead r s from rfl) hguard (hrun.trans (wake_low (s := s.hush) hr hlow hstay)), fun q hq => ?_, fun hwf => ?_, rfl⟩
  · show (s.pwr.leaving ||| BitVec.ofNat 57 (2 ^ r)).getLsbD q = _
    rw [BitVec.getLsbD_or, bit_iff r hq]
    rfl
  · exact Tbl.get_set_eq _ _ _ hwf

/-- An exit that is complete (R539). -/
theorem stateExitComplete_completes (hon : s.on = true) (hr : r < 57) (hleave : s.pwr.leaving.getLsbD r = true) (hdue : s.pwr.exitAt.get 0 r ≤ s.clock) :
    Completes (.stateExitComplete r) s fun u =>
      u.pwr.low = putBit s.pwr.low r false ∧ u.pwr.leaving = putBit s.pwr.leaving r false
      ∧ (16 ≤ r → r < 32 → u.dram.ch = s.dram.ch.set {} (r - 16) ((s.chan (r - 16)).refreshesFrom s.clock))
      ∧ (r < 16 ∨ 32 ≤ r → u.dram.ch = s.dram.ch)
      ∧ u = { s with out := [], dram := { s.dram with ch := u.dram.ch }
                     pwr := { s.pwr with low := u.pwr.low, leaving := u.pwr.leaving, exitAt := s.pwr.exitAt.set 0 r 0, exlat := if 48 ≤ r then s.pwr.exlat.set 0 (r - 48) 0 else s.pwr.exlat } } := by
  obtain ⟨w, hw⟩ : ∃ w, w = if 48 ≤ r then s.pwr.exlat.set 0 (r - 48) 0 else s.pwr.exlat := ⟨_, rfl⟩
  obtain ⟨t, ht⟩ : ∃ t : State, t = { s.hush with pwr := { s.pwr with
    low := putBit s.pwr.low r false, leaving := putBit s.pwr.leaving r false, exitAt := s.pwr.exitAt.set 0 r 0, exlat := w } } := ⟨_, rfl⟩
  rw [← hw]
  have hguard : (decide (r < 57) && s.pwr.leaving.getLsbD r) = true := by simp [hr, hleave]
  refine ⟨if 16 ≤ r && r < 32 then t.modChan (r - 16) fun c => c.refreshesFrom t.clock else t,
    yields_when hon (show exec _ s = execStateExitComplete r s from rfl) hguard ?_, ?_⟩
  · dsimp only
    rw [show s.hush.elapse (s.hush.pwr.exitAt.get 0 r) = s.hush from elapse_done hdue, ht, hw]
    rfl
  · by_cases hchan : 16 ≤ r ∧ r < 32
    · rw [if_pos (c := (decide (16 ≤ r) && decide (r < 32)) = true) (by simpa using hchan), ht]
      exact ⟨rfl, rfl, fun _ _ => rfl, fun hno => by omega, rfl⟩
    · rw [if_neg (c := (decide (16 ≤ r) && decide (r < 32)) = true) (by simpa using hchan), ht]
      exact ⟨rfl, rfl, fun h1 h2 => absurd ⟨h1, h2⟩ hchan, fun _ => rfl, rfl⟩

/-- The end of a head's quiet, at its time or later. -/
theorem quietEnd_completes (hon : s.on = true) (hq : s.pwr.quiet.get 0 h ≠ 0) (hdue : s.pwr.quiet.get 0 h ≤ s.clock) :
    Completes (.quietEnd h) s fun u =>
      u.pwr.quiet = s.pwr.quiet.set 0 h 0 ∧ u.pwr.leaving = s.pwr.leaving ||| (s.pwr.low &&& wakeMask h)
      ∧ u = { s with out := u.out, pwr := { s.pwr with quiet := u.pwr.quiet, leaving := u.pwr.leaving, exitAt := u.pwr.exitAt }
                     near := { s.near with autoOff := u.near.autoOff } } := by
  obtain ⟨x, a, o, hend⟩ := unquiet_eq (s := s.hush) hq
  have hnow : s.hush.elapse (s.hush.pwr.quiet.get 0 h) = s.hush := elapse_done hdue
  exact ⟨_, yields_when hon (show exec _ s = execQuietEnd h s from rfl) (decide_eq_true hq) ((congrArg (fun t => State.unquiet t h) hnow).trans hend), rfl, rfl, rfl⟩

/-- What a QUIET descriptor does to the power states: it sets the quiet end of its head, or ends the quiet (R427, R537). -/
theorem quieted_eq {us : Nat} (hq : us = 0 → s.pwr.quiet.get 0 h ≠ 0) : ∃ x a o, (if us = 0 then s.unquiet h else s.setQuiet h us) = { s with
    pwr := { s.pwr with
      quiet := s.pwr.quiet.set 0 h (if us = 0 then 0 else s.clock + us * 2000)
      leaving := if us = 0 then s.pwr.leaving ||| (s.pwr.low &&& wakeMask h) else s.pwr.leaving
      exitAt := x }
    near := { s.near with autoOff := a }, out := o } := by
  by_cases hz : us = 0
  · simp only [hz, if_true]
    exact unquiet_eq (hq hz)
  · simp only [hz, if_false]
    exact ⟨s.pwr.exitAt, s.near.autoOff, s.out, by simp only [State.setQuiet, hz, if_false]⟩

/-- A QUIET descriptor (R427). -/
theorem quiet_completes {k us : Nat} {a : Active} (hon : s.on = true) (hw : s.working k 0x60 a) (hus : fld (lineWord a.words 4) 0 32 = us)
    (hq : us = 0 → s.pwr.quiet.get 0 (s.ring k).owner ≠ 0) : Completes (.quiet k) s fun u =>
      u.pwr.quiet = s.pwr.quiet.set 0 (s.ring k).owner (if us = 0 then 0 else s.clock + us * 2000)
      ∧ u.pwr.leaving = (if us = 0 then s.pwr.leaving ||| (s.pwr.low &&& wakeMask (s.ring k).owner) else s.pwr.leaving)
      ∧ (u.ring k).act = some { a with started := true, status := some 0 }
      ∧ u = { s with out := u.out, rng := u.rng, pwr := { s.pwr with quiet := u.pwr.quiet, leaving := u.pwr.leaving, exitAt := u.pwr.exitAt }
                     near := { s.near with autoOff := u.near.autoOff } } := by
  obtain ⟨hact, hop, hst, hheld, hturn⟩ := hw
  obtain ⟨x, w, o, heq⟩ := quieted_eq (s := s.hush) (h := (s.ring k).owner) hq
  obtain ⟨t, ht⟩ : ∃ t, t = if us = 0 then s.hush.unquiet (s.ring k).owner else s.hush.setQuiet (s.ring k).owner us := ⟨_, rfl⟩
  have hrun : s.hush.workQuiet k = (t.modAct k fun a => { a with started := true }).endDescriptor k 0 id := by
    unfold State.workQuiet
    rw [runs_of (sub := none) hact hop hst hheld hturn rfl, when_true, hush_ring, hact, ht, ← hus]
  rw [← ht] at heq
  have htact : (t.ring k).act = some a := by rw [heq]; exact hact
  refine ⟨_, yields_of hon (show exec _ s = execQuiet k s from rfl) hrun, ?_, ?_, ?_, ?_⟩
  · rw [heq]; rfl
  · rw [heq]; rfl
  · exact Atomics.endDescriptor_act (act_mod htact) hst
  · rw [heq]; rfl

end

/-! ### The obligation -/

/-- Settles O59, one command at a time. -/
theorem resourcesRestAndWake : Obligations.ResourcesRestAndWake := by
  unfold Obligations.ResourcesRestAndWake
  intro s r hon hr
  refine ⟨calendarEvaluate_completes hon hr, fun hlow hstay g hdue hg => wakeAhead_completes hon hr hlow hstay hdue hg,
    fun hleave hdue => stateExitComplete_completes hon hr hleave hdue, fun h q _ hq hne hdue => ?_, fun k a us hw hus hq => quiet_completes hon hw hus hq⟩
  subst hq
  exact quietEnd_completes hon hne hdue

end Sys2Proof.Proofs.PowerStates
end

