-- ==== Sys2Proof/Proofs/Supplies.lean ====
section
/-! PROOF. Supplies, RESET#, supply-good and heat (R564 to R569, R599, R600), and obligation O48. -/
namespace Sys2Proof.Proofs.Supplies
open Sys2Proof Sys2Proof.Machine Sys2Proof.Laws Sys2Proof.Laws.Flush Sys2Proof.Proofs Sys2Proof.Proofs.FlushEnd Sys2Proof.Proofs.Safety

section
variable {s u : State} {b : Boot} {f : FlashReport} {x : Straps}

/-! ### What a loss of the supplies leaves -/

/-- The device after a loss of its supplies, with THERMTRIP# at trip: boot flash, drives and wrapped keys (R564). -/
def LeftOff (s u : State) (trip : Bool) : Prop :=
  u = { freeIdx := u.freeIdx, pending := s.pending, out := u.out, boot := s.boot, pins := { thermTrip := trip }, beam := u.beam
        dram := { ch := s.boot.channels, fullNext := flag s.dram.ctl 16 }, sec := { wrap := s.sec.wrap, draws := s.sec.draws } }
  ∧ u.on = false ∧ u.beam.setId = 0 ∧ u.beam.sbgen = s.beam.sbgen ∧ (s.beam.commitOut = none → u.beam.commit = s.beam.commit)
  ∧ (s.beam.recs.wf none = true → ∀ a, u.beam.recs.get none a = match s.beam.recs.get none a with
      | some r => if r.confirmed then some { r with purpose := .none } else none
      | none => none)

theorem powerOff_leaves (hon : s.on = true) : LeftOff s s.powerOff s.pins.thermTrip := by
  refine ⟨?_, rfl, rfl, rfl, powerOff_commit, fun hwf a => ?_⟩
  · have hfull : (if s.on then flag s.dram.ctl 16 else s.dram.fullNext) = flag s.dram.ctl 16 := if_pos hon
    unfold State.powerOff
    rw [hfull]
  · exact (get_mapVals_wf none _ a rfl s.beam.recs 0 hwf).trans (by cases s.beam.recs.get none a <;> rfl)

/-- Emitting a message changes nothing that a loss of the supplies leaves. -/
theorem LeftOff.emit {trip : Bool} {o : Output} (h : LeftOff s u trip) : LeftOff s (u.emit o) trip := by
  obtain ⟨hu, hrest⟩ := h
  refine ⟨?_, hrest⟩
  unfold State.emit
  dsimp only
  rw [hu]

/-! ### The records of the boot flash -/

/-- A list that has no bad entry keeps all of its entries. -/
theorem withoutBad_nil {α : Type} (l : List α) : withoutBad l [] = l := by
  unfold withoutBad
  rw [List.filter_eq_self.mpr (by simp)]
  refine List.ext_getElem (by simp) fun i _ _ => ?_
  simp

/-- Where every record passes its CRC, the boot flash reads as it was kept, with the newest board record (R568, R569). -/
theorem readRecords_sound (hbad : f.bad = 0) (ht : f.badTests = []) (hl : f.badLife = []) : b.readRecords f = { b with board := newestBoard f.boards } := by
  have hbit : ∀ k, f.bad.getLsbD k = false := fun k => by rw [hbad]; exact BitVec.getLsbD_zero
  unfold Boot.readRecords
  simp only [hbit, ht, hl, withoutBad_nil, Bool.false_and, Bool.false_eq_true, if_false]

/-- OPMIN and CYCLES resume from the newest life-ring entry, of which there is a new one (R568). -/
theorem resumeLife_eq (b : Boot) : ∃ m c, b.resumeLife = { b with opmin := m, cycles := c, life := (m, c) :: b.life.take (ringEntries - 1) }
    ∧ (∀ e l, b.life = e :: l → m = e.1 ∧ c = (e.2 + 1) % 2 ^ 24) ∧ (b.life = [] → m = 0 ∧ c = 0) := by
  unfold Boot.resumeLife Boot.addLife
  cases hl : b.life with
  | nil =>
    refine ⟨0, 0, ?_, fun e l h => absurd h (by simp), fun _ => ⟨rfl, rfl⟩⟩
    dsimp only
  | cons e l =>
    refine ⟨e.1, (e.2 + 1) % 2 ^ 24, ?_, fun e' l' h => ?_, fun h => absurd h (by simp)⟩
    · dsimp only
    · obtain ⟨rfl, rfl⟩ := List.cons.inj h; exact ⟨rfl, rfl⟩

/-! ### Supply-good -/

/-- The device before its records are loaded (R566, R571). -/
def started (s : State) (x : Straps) (f : FlashReport) : State :=
  let r := s.boot.readRecords f
  { State.powerOff { s with boot := r } with
    on := true
    pins := { reset := false }
    glb := { straps := x, present := strapHeads x, steward := (bootImage f.images).isSome, image := bootImage f.images, mgmtHead := Trw.all (atBit (strapMgmt x) 0) }
    boot := r.resumeLife }

theorem supplyGood_eq : s.supplyGood x f = (started s x f).loadRecords.retireScratch := rfl

theorem supplyGood_off (hoff : s.on = false) : Yields (.supplyGood x f) s ((s.hush.supplyGood x f).emit .coldReset) :=
  yields_always (show exec _ s = execSupplyGood x f s from rfl) (if_neg (by simp [hoff]))

/-! ### Heat -/

/-- A bound on the hottest of the sensors. -/
theorem le_hottest {k : Nat} (ts : List Nat) : ∀ a, k ≤ ts.foldl max a ↔ k ≤ a ∨ ∃ t ∈ ts, k ≤ t := by
  induction ts with
  | nil => simp
  | cons t ts ih =>
    intro a
    rw [List.foldl_cons, ih]
    simp only [le_max_iff, List.mem_cons, exists_eq_or_imp, or_assoc]

theorem hottest_ge {k : Nat} (hk : 0 < k) (ts : List Nat) : k ≤ ts.foldl max 0 ↔ ∃ t ∈ ts, k ≤ t := by
  rw [le_hottest]
  simp [Nat.ne_of_gt hk]

/-- THERM_ALERT# after a reading whose hottest sensor gives tj (R599). -/
def alertAfter (was : Bool) (tj : Nat) : Bool := if 100 ≤ tj then true else if tj < 95 then false else was

/-- The sensors' part in the minute's extremes. -/
def sampled (s : State) (ts : List Nat) : State :=
  ((ts.take 16).mapIdx fun i v => (i, v)).foldl (fun (s : State) e => s.minuteMax (4096 + 4 * 256 + e.1) e.2) s

theorem minutes_frame (l : List (Nat × Nat)) : ∀ s : State, l.foldl (fun (s : State) e => s.minuteMax (4096 + 4 * 256 + e.1) e.2) s
    = { s with tap := (l.foldl (fun (s : State) e => s.minuteMax (4096 + 4 * 256 + e.1) e.2) s).tap } := by
  induction l with
  | nil => exact fun _ => rfl
  | cons e l ih => intro s; rw [List.foldl_cons, ih]; rfl

theorem thermalRead_yields (hon : s.on = true) (hdue : s.pins.sensorAt + 2000000 ≤ s.clock) (ts : List Nat) :
    Yields (.thermalSensorRead ts) s { s.hush with
      tap := (sampled s.hush ts).tap
      pins := { s.pins with sensorAt := s.clock, thermAlert := alertAfter s.pins.thermAlert (ts.foldl max 0) } } := by
  refine yields_of hon (show exec _ s = execThermalSensorRead ts s from rfl) ?_
  dsimp only
  rw [show s.hush.elapse (s.hush.pins.sensorAt + 2000000) = s.hush from elapse_done hdue, minutes_frame]
  rfl

/-- Readings of several sensors. -/
theorem thermalRead_completes (hon : s.on = true) (hdue : s.pins.sensorAt + 2000000 ≤ s.clock) (ts : List Nat) :
    Completes (.thermalSensorRead ts) s fun u =>
      u = { s with out := [], tap := u.tap, pins := { s.pins with sensorAt := s.clock, thermAlert := u.pins.thermAlert } }
      ∧ ((∃ t ∈ ts, 100 ≤ t) → u.pins.thermAlert = true)
      ∧ ((∀ t ∈ ts, t < 95) → u.pins.thermAlert = false)
      ∧ ((∀ t ∈ ts, t < 100) → (∃ t ∈ ts, 95 ≤ t) → u.pins.thermAlert = s.pins.thermAlert) := by
  have h100 := hottest_ge (k := 100) (by omega) ts
  have h95 := hottest_ge (k := 95) (by omega) ts
  have hcold : (∀ t ∈ ts, t < 95) → ¬ 95 ≤ ts.foldl max 0 := fun hall hge => by
    obtain ⟨t, ht, hle⟩ := h95.mp hge
    exact absurd (hall t ht) (by omega)
  have hbelow : (∀ t ∈ ts, t < 100) → ¬ 100 ≤ ts.foldl max 0 := fun hall hge => by
    obtain ⟨t, ht, hle⟩ := h100.mp hge
    exact absurd (hall t ht) (by omega)
  refine ⟨_, thermalRead_yields hon hdue ts, rfl, fun hhot => ?_, fun hall => ?_, fun hall hwarm => ?_⟩
  · exact if_pos (h100.mpr hhot)
  · have := hcold hall
    exact (if_neg (by omega)).trans (if_pos (by omega))
  · have := h95.mpr hwarm
    exact (if_neg (hbelow hall)).trans (if_neg (by omega))

/-! ### Supply-good on a device that was off -/

theorem supplyGood_completes (hoff : s.on = false) (x : Straps) (f : FlashReport) : Completes (.supplyGood x f) s fun u =>
    let r := s.boot.readRecords f
    u.on = true ∧ u.clock = 0 ∧ u.pending = s.pending ∧ u.pins = { reset := false }
    ∧ u.glb = { straps := x, present := strapHeads x, steward := (bootImage f.images).isSome, image := bootImage f.images, mgmtHead := Trw.all (atBit (strapMgmt x) 0) }
    ∧ (∀ e l, r.life = e :: l → u.boot.opmin = e.1 ∧ u.boot.cycles = (e.2 + 1) % 2 ^ 24)
    ∧ (r.life = [] → u.boot.opmin = 0 ∧ u.boot.cycles = 0)
    ∧ u.boot = { r with opmin := u.boot.opmin, cycles := u.boot.cycles, life := (u.boot.opmin, u.boot.cycles) :: r.life.take (ringEntries - 1)
                        gens := u.boot.gens, old := u.boot.old, retNc := u.boot.retNc, pendNc := u.boot.pendNc }
    ∧ (∀ j, j < 256 → u.boot.retNc.getLsbD j = (r.retNc.getLsbD j || r.pendNc.getLsbD j))
    ∧ u.vlt.st = .restore ∧ u.vlt.active = false ∧ u.regions = [] ∧ u.near.nc = [] ∧ u.near.wb = [] ∧ u.coh = {} ∧ u.map = {}
    ∧ (r.pendNc = 0 → u.out = [.coldReset] ∧ u.heads = [] ∧ u.near = {} ∧ u.flt = {} ∧ u.pmc = {} ∧ u.tap = {})
    ∧ (∀ b, r.board = some b → u.rsv.bank = Trw.all b.bank ∧ u.rsv.flush = Trw.all b.flush ∧ u.rsv.sense = Trw.all b.sense ∧ u.vlt.floor = Trw.all b.floor)
    ∧ (r.board = none → u.rsv.bank = {} ∧ u.vlt.floor = {} ∧ u.rsv.fcause.getLsbD 4 = true)
    ∧ (f.bad = 0 → f.badTests = [] → f.badLife = [] → r = { s.boot with board := newestBoard f.boards }) := by
  refine ⟨_, supplyGood_off hoff, ?_⟩
  dsimp only
  rw [supplyGood_eq]
  obtain ⟨rs, v, hload, hboard, hnone, -⟩ := loads_eq (started s.hush x f)
  obtain ⟨m, c, hlife, hnewest, hfirst⟩ := resumeLife_eq (s.boot.readRecords f)
  have hb : (started s.hush x f).boot = (s.boot.readRecords f).resumeLife := rfl
  rw [hb, hlife] at hboard hnone
  have hkeep : (s.boot.readRecords f).pendNc = 0 → ((started s.hush x f).loadRecords.retireScratch.emit .coldReset).out = [.coldReset]
      ∧ ((started s.hush x f).loadRecords.retireScratch.emit .coldReset).heads = []
      ∧ ((started s.hush x f).loadRecords.retireScratch.emit .coldReset).near = {}
      ∧ ((started s.hush x f).loadRecords.retireScratch.emit .coldReset).flt = {}
      ∧ ((started s.hush x f).loadRecords.retireScratch.emit .coldReset).pmc = {}
      ∧ ((started s.hush x f).loadRecords.retireScratch.emit .coldReset).tap = {} := by
    intro hp
    have hp' : (started s.hush x f).loadRecords.boot.pendNc = 0 := by rw [hload, hb, hlife]; exact hp
    rw [scratch_none hp', hload]
    exact ⟨rfl, rfl, rfl, rfl, rfl, rfl⟩
  obtain ⟨hs, fl, tp, pc, o, nr, ll, b, hret, hbb, hbit⟩ := scratch_eq (started s.hush x f).loadRecords
  rw [hret] at hkeep ⊢
  rw [hload] at hkeep hbb hbit ⊢
  rw [show ({ started s.hush x f with rsv := rs, vlt := { (started s.hush x f).vlt with floor := v } } : State).boot = _ from hb.trans hlife] at hbb hbit
  have hm : b.opmin = m := by rw [hbb]
  have hc : b.cycles = c := by rw [hbb]
  refine ⟨rfl, rfl, rfl, rfl, rfl, fun e l h => ?_, fun h => ?_, ?_, hbit, rfl, rfl, rfl, rfl, rfl, rfl, rfl, hkeep, hboard, hnone, readRecords_sound⟩
  · obtain ⟨h1, h2⟩ := hnewest e l h
    exact ⟨hm.trans h1, hc.trans h2⟩
  · obtain ⟨h1, h2⟩ := hfirst h
    exact ⟨hm.trans h1, hc.trans h2⟩
  · show b = { s.boot.readRecords f with opmin := b.opmin, cycles := b.cycles, life := (b.opmin, b.cycles) :: (s.boot.readRecords f).life.take (ringEntries - 1),
                                          gens := b.gens, old := b.old, retNc := b.retNc, pendNc := b.pendNc }
    rw [hm, hc]
    exact hbb

end

/-! ### The obligation -/

/-- Settles O48. -/
theorem suppliesResetAndHeat : Obligations.SuppliesResetAndHeat := by
  unfold Obligations.SuppliesResetAndHeat
  intro s off
  refine ⟨fun hon => ?fail, fun hon => ?trip, fun hon hh => ?reset, fun h => resetAssert_recorded h, fun hon x f => supplyGood_running hon x f,
    fun hoff _ x f => supplyGood_completes hoff x f, fun hon hdue t => ?one, fun hon hdue ts => thermalRead_completes hon hdue ts⟩
  case fail =>
    exact ⟨_, yields_of hon (show exec _ s = execSupplyFail s from rfl) rfl, powerOff_leaves (s := s.hush) hon, rfl⟩
  case trip =>
    exact ⟨_, yields_of hon (show exec _ s = execThermtrip s from rfl) rfl, (powerOff_leaves (s := { s.hush with pins := { s.pins with thermTrip := true } }) hon).emit, rfl⟩
  case reset =>
    exact ⟨_, resetAssert_resets hon hh, powerOff_leaves (s := { s.hush with pins := { s.pins with reset := true } }) hon, rfl⟩
  case one =>
    have hy := thermalRead_yields hon hdue [t]
    have htj : [t].foldl max 0 = t := Nat.zero_max t
    rw [htj] at hy
    refine ⟨fun h => ?_, fun h => ?_, fun h1 h2 => ?_⟩
    · rw [show alertAfter s.pins.thermAlert t = true from if_pos h] at hy
      exact hy
    · rw [show alertAfter s.pins.thermAlert t = false from (if_neg (by omega)).trans (if_pos h)] at hy
      exact hy
    · rw [show alertAfter s.pins.thermAlert t = s.pins.thermAlert from (if_neg (by omega)).trans (if_neg (by omega))] at hy
      exact hy

end Sys2Proof.Proofs.Supplies
end

