-- ==== Sys2Proof/Proofs/FatalErrors.lean ====
section
/-! PROOF. FATAL errors (R488, R578), the reader of the notice FIFO (R493), the vote of TRW fields (R555), and obligation O56. -/
namespace Sys2Proof.Proofs.FatalErrors
open Sys2Proof Sys2Proof.Machine Sys2Proof.Laws Sys2Proof.Laws.Errors Sys2Proof.Proofs

/-! ### Repairing the fields of a register -/

/-- Two fields have no bit in common. -/
def NoOverlap (f g : Nat × Nat) : Prop := f.1 + f.2 ≤ g.1 ∨ g.1 + g.2 ≤ f.1

/-- The three copies of a field all differ. -/
def Torn (t : Trw) (f : Nat × Nat) : Prop := Machine.differ3 (fld t.a f.1 f.2) (fld t.b f.1 f.2) (fld t.c f.1 f.2) = true

/-- The copies of a field are in t what they are in u. -/
def SameField (t u : Trw) (f : Nat × Nat) : Prop :=
  fld t.a f.1 f.2 = fld u.a f.1 f.2 ∧ fld t.b f.1 f.2 = fld u.b f.1 f.2 ∧ fld t.c f.1 f.2 = fld u.c f.1 f.2

section
variable {t u v : Trw} {f g : Nat × Nat} {fs : List (Nat × Nat)}

theorem SameField.trans (h1 : SameField t u f) (h2 : SameField u v f) : SameField t v f :=
  ⟨h1.1.trans h2.1, h1.2.1.trans h2.2.1, h1.2.2.trans h2.2.2⟩

theorem SameField.torn (h : SameField t u f) (hu : Torn u f) : Torn t f := by
  unfold Torn
  rw [h.1, h.2.1, h.2.2]
  exact hu

/-- Repairing a field changes no other, and a field of three different copies not at all (R555). -/
theorem repairField_same (hf : f.1 + f.2 ≤ 64) (h : NoOverlap g f ∨ (g = f ∧ Torn t f)) : SameField (t.repairField g) t f := by
  rcases h with h | ⟨rfl, h⟩
  · exact repair_keeps t g f.1 f.2 hf h
  · unfold Torn at h
    unfold Trw.repairField
    rw [if_pos h]
    exact ⟨rfl, rfl, rfl⟩

theorem repair_same (hf : f.1 + f.2 ≤ 64) : ∀ (fs : List (Nat × Nat)) (t : Trw), (∀ g ∈ fs, NoOverlap g f ∨ (g = f ∧ Torn t f)) → SameField (t.repair fs) t f
  | [], _, _ => ⟨rfl, rfl, rfl⟩
  | g :: fs, t, h => by
    have hg : SameField (t.repairField g) t f := repairField_same hf (h g (by simp))
    exact (repair_same hf fs (t.repairField g) fun k hk => (h k (by simp [hk])).imp_right fun ⟨e, ht⟩ => ⟨e, hg.torn ht⟩).trans hg

/-- The first copy agrees with one of the other two. -/
def Agrees (t : Trw) (f : Nat × Nat) : Prop := fld t.a f.1 f.2 = fld t.b f.1 f.2 ∨ fld t.a f.1 f.2 = fld t.c f.1 f.2

/-- All copies of a field have value v. -/
def AllAre (t : Trw) (f : Nat × Nat) (v : Nat) : Prop := fld t.a f.1 f.2 = v ∧ fld t.b f.1 f.2 = v ∧ fld t.c f.1 f.2 = v

/-- Fields without a common bit, each with a first copy that agrees with another, all follow the first copy (R555). -/
theorem repair_allAre : ∀ (fs : List (Nat × Nat)) (t : Trw), (∀ f ∈ fs, f.1 + f.2 ≤ 64) → fs.Pairwise NoOverlap → (∀ f ∈ fs, Agrees t f) →
    ∀ f ∈ fs, AllAre (t.repair fs) f (fld t.a f.1 f.2)
  | [], _, _, _, _ => by simp
  | g :: fs, t, hw, hp, ha => by
    rw [List.pairwise_cons] at hp
    have hstep : ∀ f ∈ fs, SameField (t.repairField g) t f := fun f hf => repairField_same (hw f (by simp [hf])) (.inl (hp.1 f hf))
    intro f hf
    rcases List.mem_cons.mp hf with rfl | hf
    · have hrep := rep2 t f (hw f (by simp)) (ha f (by simp))
      have hrest := repair_same (f := f) (hw f (by simp)) fs (t.repairField f) fun k hk => .inl ((hp.1 k hk).symm)
      exact ⟨hrest.1.trans hrep.1, hrest.2.1.trans hrep.2.1, hrest.2.2.trans hrep.2.2⟩
    · have hall := repair_allAre fs (t.repairField g) (fun k hk => hw k (by simp [hk])) hp.2 (fun k hk => by
        obtain ⟨h1, h2, h3⟩ := hstep k hk
        unfold Agrees
        rw [h1, h2, h3]
        exact ha k (by simp [hk])) f hf
      rw [(hstep f hf).1] at hall
      exact hall

/-- A register none of whose fields is torn is not broken. -/
theorem broken_iff : t.broken fs = true ↔ ∃ f ∈ fs, Torn t f := List.any_eq_true

theorem AllAre.not_torn {n : Nat} (h : AllAre t f n) : ¬ Torn t f := by
  unfold Torn
  rw [h.1, h.2.1, h.2.2]
  simp [differ3]

end

/-! ### The floors of the vault (VLT_FLOOR) -/

theorem floor_disjoint : trwFloor.Pairwise NoOverlap := by unfold trwFloor NoOverlap; simp

theorem floor_within : ∀ f ∈ trwFloor, f.1 + f.2 ≤ 64 := by decide

theorem mem_floor {i : Nat} (hi : i < 3) : (16 * i, 16) ∈ trwFloor := by
  have : i = 0 ∨ i = 1 ∨ i = 2 := by omega
  rcases this with rfl | rfl | rfl <;> simp [trwFloor]

theorem floor_apart : ∀ f ∈ trwFloor, ∀ g ∈ trwFloor, NoOverlap g f ∨ g = f := by unfold NoOverlap; decide

section
variable {s : State} {a b c g : Word} {w : Fin 6 → Word}

/-- A state whose TRW registers are sound but for the floors, whose copies are a, b and c. -/
structure FloorsOnly (s : State) (a b c g : Word) (w : Fin 6 → Word) : Prop where
  glb : s.glb.mgmtHead = Trw.all g
  rsvCtl : s.rsv.ctl = Trw.all (w 0)
  bank : s.rsv.bank = Trw.all (w 1)
  flush : s.rsv.flush = Trw.all (w 2)
  sense : s.rsv.sense = Trw.all (w 3)
  pair : s.slv.pairId = Trw.all (w 4)
  vltCtl : s.vlt.ctl = Trw.all (w 5)
  floor : s.vlt.floor = ⟨a, b, c⟩

/-- The state of a scrub after the repair, with the floors as the repair leaves them. -/
def scrubbed (s : State) (t : Trw) : State := { s.hush with glb := { s.glb with trwAt := s.clock }, vlt := { s.vlt with floor := t } }

/-- A scrub repairs the floors; where a field still has three different copies it is FATAL (R555). -/
theorem trwScrub_yields (hon : s.on = true) (hdue : s.glb.trwAt + 2000000 ≤ s.clock) (hf : FloorsOnly s a b c g w) {u : State}
    (hu : (if (Trw.repair trwFloor ⟨a, b, c⟩).broken trwFloor then (scrubbed s (Trw.repair trwFloor ⟨a, b, c⟩)).fatalError 2 0 true
      else scrubbed s (Trw.repair trwFloor ⟨a, b, c⟩)) = u) : Yields .trwScrub s u := by
  obtain ⟨k1, k2, k3, k4, k5, k6, k7, k8⟩ := hf
  obtain ⟨t, ht⟩ : ∃ t : State, t = { s with glb := { s.glb with trwAt := s.clock } } := ⟨_, rfl⟩
  have hrep : t.hush.trwRepair = scrubbed s (Trw.repair trwFloor ⟨a, b, c⟩) := by
    rw [ht]; exact trw_rep { s with glb := { s.glb with trwAt := s.clock } } a b c g w k1 k2 k3 k4 k5 k6 k7 k8
  have hbro : (scrubbed s (Trw.repair trwFloor ⟨a, b, c⟩)).trwBroken = (Trw.repair trwFloor ⟨a, b, c⟩).broken trwFloor :=
    trw_bro { s with glb := { s.glb with trwAt := s.clock } } a b c g w k1 k2 k3 k4 k5 k6 k7 k8 _
  refine yields_of hon (show exec _ s = execTrwScrub s from rfl) ?_
  dsimp only
  rw [show s.hush.elapse (s.hush.glb.trwAt + 2000000) = s.hush from elapse_done hdue]
  rw [show ({ s.hush with glb := { s.hush.glb with trwAt := s.hush.clock } } : State) = t.hush from by rw [ht]; rfl, hrep, hbro]
  exact hu

/-- Two equal copies of the floors, the first among them, win the vote. -/
theorem trwScrub_votes (hon : s.on = true) (hdue : s.glb.trwAt + 2000000 ≤ s.clock) (hf : FloorsOnly s a b c g w) (hab : a = b ∨ a = c) :
    Completes .trwScrub s fun u => u.glb.trwAt = s.clock ∧ u.flt.fatal = s.flt.fatal
      ∧ ∀ i, i < 3 → ∀ x ∈ [u.vlt.floor.a, u.vlt.floor.b, u.vlt.floor.c], fld x (16 * i) 16 = fld a (16 * i) 16 := by
  have hagree : ∀ f ∈ trwFloor, Agrees ⟨a, b, c⟩ f := fun f _ => hab.imp (fun h => by rw [← h]) (fun h => by rw [← h])
  have hall := repair_allAre trwFloor ⟨a, b, c⟩ floor_within floor_disjoint hagree
  have hsound : (Trw.repair trwFloor ⟨a, b, c⟩).broken trwFloor = false := by
    rw [Bool.eq_false_iff, ne_eq, broken_iff]
    rintro ⟨f, hf, htorn⟩
    exact (hall f hf).not_torn htorn
  refine ⟨_, trwScrub_yields hon hdue hf (if_neg (by simp [hsound])), rfl, rfl, fun i hi x hx => ?_⟩
  obtain ⟨h1, h2, h3⟩ := hall _ (mem_floor hi)
  simp only [List.mem_cons, List.not_mem_nil, or_false] at hx
  rcases hx with rfl | rfl | rfl
  exacts [h1, h2, h3]

/-- Three different copies of one floor are FATAL (R555). -/
theorem trwScrub_fatal (hon : s.on = true) (hdue : s.glb.trwAt + 2000000 ≤ s.clock) (hf : FloorsOnly s a b c g w) {i : Nat} (hi : i < 3)
    (hab : fld a (16 * i) 16 ≠ fld b (16 * i) 16) (hbc : fld b (16 * i) 16 ≠ fld c (16 * i) 16) (hac : fld a (16 * i) 16 ≠ fld c (16 * i) 16)
    (hnone : s.flt.fatal = none) : Completes .trwScrub s fun u => u.flt.fatal = some (2, true) := by
  have htorn : Torn ⟨a, b, c⟩ (16 * i, 16) := by simp [Torn, differ3, hab, hbc, hac]
  have hkeep : SameField (Trw.repair trwFloor ⟨a, b, c⟩) ⟨a, b, c⟩ (16 * i, 16) :=
    repair_same (floor_within _ (mem_floor hi)) trwFloor ⟨a, b, c⟩ fun g hg => (floor_apart _ (mem_floor hi) g hg).imp_right fun e => ⟨e, htorn⟩
  have hbroken : (Trw.repair trwFloor ⟨a, b, c⟩).broken trwFloor = true := broken_iff.mpr ⟨_, mem_floor hi, hkeep.torn htorn⟩
  obtain ⟨hs, tp, p, o, v, heq, -, -⟩ := fatal_eq (scrubbed s (Trw.repair trwFloor ⟨a, b, c⟩)) 2 0 true hnone
  refine ⟨_, trwScrub_yields hon hdue hf ((if_pos hbroken).trans heq), ?_⟩
  exact enter_fatal _ _

/-! ### The other commands -/

/-- The first FATAL error stands: a later one changes nothing (R488). -/
theorem fatalError_again (cause unit : Nat) (sound : Bool) (h : s.flt.fatal.isSome = true) : s.fatalError cause unit sound = s := by
  unfold State.fatalError
  rw [if_pos h]

/-- A read of NTC_POP (R493). -/
theorem ntcPop_yields {src n : Nat} (hon : s.on = true) (hr : s.reaches src = true) :
    Yields (.ntcPop src n) s ((s.hush.ntcPop src n).2.emit (.regRead src (s.hush.ntcPop src n).1)) :=
  yields_when hon (show exec _ s = execNtcPop src n s from rfl) hr rfl

end

/-! ### The obligation -/

/-- Settles O56. That three different copies of a TRW field are FATAL with cause 2 and a sound vault sequencer is log entry 132, and the order
of the first FATAL error and its orderly shutdown log entry 133, both the model's reading. -/
theorem fatalErrorsNoticesAndVotes : Obligations.FatalErrorsNoticesAndVotes := by
  unfold Obligations.FatalErrorsNoticesAndVotes
  intro s hon
  refine ⟨fun cause unit sound hnone => ?first, fun cause unit sound h => ?later, fun src hr => ⟨fun x xs hm hfifo => ?pop, fun n h => ?nothing⟩,
    fun a b c g w hdue k1 k2 k3 k4 k5 k6 k7 k8 => ?scrub⟩
  case first =>
    obtain ⟨hs, tp, p, o, v, heq, hv, hshut⟩ := fatal_eq s.hush (fatalNo cause) unit sound hnone
    exact ⟨_, yields_of hon (show exec _ s = execFatalError cause unit sound s from rfl) heq, enter_fatal _ _, enter_fifo2 _ _ _, hv, hshut, rfl⟩
  case later =>
    exact yields_of hon (show exec _ s = execFatalError cause unit sound s from rfl) (fatalError_again (s := s.hush) _ _ _ h)
  case pop =>
    have hread : s.hush.ntcPop src 8 = (x, { s.hush with flt := { s.flt with fifo := xs, mid := ! flag x 61 } }) := by
      unfold State.ntcPop Flt.pop
      rw [show s.hush.isMgmt src = true from hm, show s.hush.flt.fifo = x :: xs from hfifo]
      rfl
    have hy := ntcPop_yields (n := 8) hon hr
    rw [hread] at hy
    exact hy
  case nothing =>
    have hread : s.hush.ntcPop src n = (0, s.hush) := by
      unfold State.ntcPop Flt.pop
      rcases h with h | h | h
      · rw [show s.hush.flt.fifo = [] from h]; split <;> rfl
      · rw [show s.hush.isMgmt src = false from h]; rfl
      · rw [if_neg (by simp [h])]
    have hy := ntcPop_yields (n := n) hon hr
    rw [hread] at hy
    exact hy
  case scrub =>
    have hf : FloorsOnly s a b c g w := ⟨k1, k2, k3, k4, k5, k6, k7, k8⟩
    exact ⟨trwScrub_votes hon hdue hf, fun i hi h1 h2 h3 hnone => trwScrub_fatal hon hdue hf hi h1 h2 h3 hnone⟩

end Sys2Proof.Proofs.FatalErrors
end

