-- ==== Sys2Proof/Proofs/Custody.lean ====
section
/-! PROOF. Key slots (R501, R504, R505), custody commands (R502, R503), Sanitize (R506), and obligation O57. -/
namespace Sys2Proof.Proofs.Custody
open Sys2Proof Sys2Proof.Machine Sys2Proof.Laws Sys2Proof.Laws.Units Sys2Proof.Laws.Custody Sys2Proof.Proofs

section
variable {s u : State} {src k op : Nat}

/-! ### Slot commands -/

/-- A slot command of the management side: GENERATE is op 1, ERASE op 2. -/
theorem slotCommand_yields {c : Instr} (hc : (c, op) ∈ [(Instr.generate src k, 1), (.erase src k, 2)]) (hon : s.on = true) (hr : s.reaches src = true)
    (hm : s.isMgmt src = true) (hk : k < 256) (hu : s.hush.keyCommand op k = u) : Yields c s u := by
  have hacts : ∀ f : State → State, s.hush.globalWrite src (regArgInd 0x90000) f = f s.hush := fun f => globalWrite_mgmt (s := s.hush) _ f hr hm
  have hkk : k % 256 = k := Nat.mod_eq_of_lt hk
  simp only [List.mem_cons, Prod.mk.injEq, List.not_mem_nil, or_false] at hc
  obtain ⟨rfl, rfl⟩ | ⟨rfl, rfl⟩ := hc
  · exact yields_of hon (show exec _ s = execGenerate src k s from rfl) ((hacts _).trans (by rw [hkk]; exact hu))
  · exact yields_of hon (show exec _ s = execErase src k s from rfl) ((hacts _).trans (by rw [hkk]; exact hu))

/-- The codes of the two slot commands. -/
theorem op_of {c : Instr} (hc : (c, op) ∈ [(Instr.generate src k, 1), (.erase src k, 2)]) : op = 1 ∨ op = 2 := by
  simp only [List.mem_cons, Prod.mk.injEq, List.not_mem_nil, or_false] at hc
  exact hc.imp And.right And.right

/-- A slot command while another, or a Sanitize, runs ends with BUSY (R505). -/
theorem keyCommand_busy (hop : op = 1 ∨ op = 2) (h : s.sec.cmd.isSome = true ∨ s.sec.sanitizing.isSome = true) :
    s.keyCommand op k = { s with sec := { s.sec with result := 3, slot := k } } := by
  unfold State.keyCommand
  rw [if_neg (by omega), if_pos (by rcases h with h | h <;> simp [h])]
  rfl

/-- What R504 refuses. -/
def Refused (s : State) (op k : Nat) : Prop :=
  s.beam.setId = 0 ∨ (op = 1 ∧ s.sec.salts.get 0 k ≠ 0) ∨ (op = 2 ∧ (s.sec.salts.get 0 k = 0 ∨ s.slotNamed k = true))

theorem refused_iff : (decide (s.beam.setId = 0) || (decide (op = 1) && s.keyLoaded k) || (decide (op = 2) && (! s.keyLoaded k || s.slotNamed k))) = true ↔ Refused s op k := by
  simp only [State.keyLoaded, Refused, Bool.or_eq_true, Bool.and_eq_true, decide_eq_true_eq, Bool.not_eq_true', decide_eq_false_iff_not, not_not, ne_eq, or_assoc]

theorem keyCommand_refused (hop : op = 1 ∨ op = 2) (hcmd : s.sec.cmd = none) (hsan : s.sec.sanitizing = none) (h : Refused s op k) :
    s.keyCommand op k = { s with sec := { s.sec with result := 2, slot := k } } := by
  unfold State.keyCommand
  rw [if_neg (by omega), if_neg (by simp [hcmd, hsan]), if_pos (refused_iff.mpr h)]
  rfl

theorem keyCommand_starts (hop : op = 1 ∨ op = 2) (hcmd : s.sec.cmd = none) (hsan : s.sec.sanitizing = none) (h : ¬ Refused s op k) :
    s.keyCommand op k = ({ s with sec := { s.sec with cmd := some { op := op, slot := k } } } : State).eraseGo := by
  unfold State.keyCommand
  rw [if_neg (by omega), if_neg (by simp [hcmd, hsan]), if_neg (fun hr => h (refused_iff.mp hr))]

/-- Step 1 of ERASE with no seal, no write-buffer entry and no swatch: every unit of the key is ZERO and UNBOUND (R504). -/
theorem eraseUnits_eq (hseals : s.rng.seals = []) (hwb : s.near.wb = []) (hsw : s.map.swatches = []) :
    ∃ n c d b m, s.eraseUnits k = { s with near := n, coh := { s.coh with lent := c }, dram := d, beam := b, map := m }
      ∧ (s.map.units.wf {} = true → ∀ q, q ∈ s.unitsOf k → Tbl.get {} m.units q = {})
      ∧ (s.map.pages.wf {} = true → ∀ q pn, q ∈ s.unitsOf k → pn / 512 = q → Tbl.get {} m.pages pn = {}) := by
  obtain ⟨n, c, d, b, m, hz, -, hunits, hpages⟩ := zeroUnits_eq s (fun u => (s.unitsOf k).contains u) hseals hwb
  obtain ⟨b2, p, hub, hgone⟩ := unbind_fold (s.unitsOf k) { s with near := n, coh := { s.coh with lent := c }, dram := d, beam := b, map := m }
  have heq : s.eraseUnits k = (s.unitsOf k).foldl (fun (s : State) u => (s.modUnit u fun _ => {}).delta (.unit u false {})) (s.zeroUnits fun u => (s.unitsOf k).contains u) := by
    unfold State.eraseUnits
    rw [hsw]
    rfl
  refine ⟨n, c, d, b2, { m with units := p }, by rw [heq, hz, hub], fun hw q hq => ?_, fun hw q pn hq hpn => ?_⟩
  · obtain ⟨-, hget⟩ := hgone (hunits hw)
    rw [show Tbl.get {} ({ m with units := p } : JMap).units q = p.get {} q from rfl, hget, if_pos hq]
  · exact hpages hw pn (by rw [hpn]; exact List.elem_eq_true_of_mem hq)

/-- An ERASE that R504 does not refuse does its first step at once, unless admission has stopped (R505). -/
theorem erase_starts (hcmd : s.sec.cmd = none) (hsan : s.sec.sanitizing = none) (h : ¬ Refused s 2 k) (hstop : s.vlt.stopped = false)
    (hseals : s.rng.seals = []) (hwb : s.near.wb = []) (hsw : s.map.swatches = []) :
    ∃ n c d b m, s.keyCommand 2 k = { s with near := n, coh := { s.coh with lent := c }, dram := d, beam := b, map := m, sec := { s.sec with cmd := some { op := 2, slot := k, zeroed := true } } }
      ∧ (s.map.units.wf {} = true → ∀ q, q ∈ s.unitsOf k → Tbl.get {} m.units q = {})
      ∧ (s.map.pages.wf {} = true → ∀ q pn, q ∈ s.unitsOf k → pn / 512 = q → Tbl.get {} m.pages pn = {}) := by
  obtain ⟨n, c, d, b, m, he, hunits, hpages⟩ := eraseUnits_eq (s := { s with sec := { s.sec with cmd := some { op := 2, slot := k } } }) (k := k) hseals hwb hsw
  refine ⟨n, c, d, b, m, ?_, hunits, hpages⟩
  have hgo : (decide (2 = 2) && ! false && ! s.vlt.stopped) = true := by rw [hstop]; rfl
  rw [keyCommand_starts (.inr rfl) hcmd hsan h]
  unfold State.eraseGo
  dsimp only
  rw [hgo, if_pos rfl, he]

/-! ### The end of a slot command -/

/-- A salt is put into its slot, and SBGEN rises by 2 (R501). -/
theorem putSalt_eq (salt : BitVec 32) : ∃ o sl, s.putSalt k salt = { s with
    out := o, beam := { s.beam with sbgen := s.beam.sbgen + 2, slots := sl }
    sec := { s.sec with salts := s.sec.salts.set 0 k salt, wrap := { s.sec.wrap with salts := s.sec.wrap.salts.set 0 k salt } } } := by
  obtain ⟨sl, o, h⟩ := twoSupers_eq { s with sec := { s.sec with salts := s.sec.salts.set 0 k salt, wrap := { s.sec.wrap with salts := s.sec.wrap.salts.set 0 k salt } } }
  exact ⟨o, sl, h⟩

variable {c : KeyCmd}

/-- The end of GENERATE: a new salt (R501). -/
theorem generate_ends (hon : s.on = true) (hc : s.sec.cmd = some c) (hslot : c.slot = k) (hop : c.op = 1) :
    Completes .secKeyCmdComplete s fun u => ∃ salt : BitVec 32, salt ≠ 0 ∧ salt ≠ s.sec.salts.get 0 k ∧ u.sec.salts.get 0 k = salt
      ∧ u = { s with out := u.out, beam := { s.beam with sbgen := s.beam.sbgen + 2, slots := u.beam.slots }
                     sec := { s.sec with cmd := none, result := 1, slot := k, draws := s.sec.draws + 1, salts := s.sec.salts.set 0 k salt, wrap := { s.sec.wrap with salts := s.sec.wrap.salts.set 0 k salt } } } := by
  subst hslot
  obtain ⟨salt, hsalt⟩ : ∃ salt, salt = newSalt s.hush.draw.1 (s.sec.salts.get 0 c.slot) := ⟨_, rfl⟩
  obtain ⟨hne, hnew⟩ := newSalt_ne s.hush.draw.1 (s.sec.salts.get 0 c.slot)
  obtain ⟨o, sl, hput⟩ := putSalt_eq (s := s.hush.draw.2) (k := c.slot) salt
  rw [← hsalt] at hne hnew
  refine ⟨({ s.hush.draw.2.putSalt c.slot salt with sec := { (s.hush.draw.2.putSalt c.slot salt).sec with cmd := none } } : State).keyResult 1 c.slot,
    yields_of hon (show exec _ s = execSecKeyCmdComplete s from rfl) ?_, salt, hne, hnew, ?_, ?_⟩
  · rw [show s.hush.sec.cmd = some c from hc]
    dsimp only
    rw [if_pos hop, hsalt]
    rfl
  · rw [hput]
    exact Tbl.get_set_self _ _ _ hne _
  · rw [hput]; rfl

/-- The end of ERASE, with its commit in force: salt 0 (R504). -/
theorem erase_ends (hon : s.on = true) (hc : s.sec.cmd = some c) (hslot : c.slot = k) (hop : c.op = 2) (hcom : c.committed = true)
    (hstop : s.vlt.stopped = false) : Completes .secKeyCmdComplete s fun u => u = { s with
      out := u.out, beam := { s.beam with sbgen := s.beam.sbgen + 2, slots := u.beam.slots }
      sec := { s.sec with cmd := none, result := 1, slot := k, salts := s.sec.salts.set 0 k 0, wrap := { s.sec.wrap with salts := s.sec.wrap.salts.set 0 k 0 } } } := by
  subst hslot
  obtain ⟨o, sl, hput⟩ := putSalt_eq (s := s.hush) (k := c.slot) 0
  refine ⟨({ s.hush.putSalt c.slot 0 with sec := { (s.hush.putSalt c.slot 0).sec with cmd := none } } : State).keyResult 1 c.slot,
    yields_of hon (show exec _ s = execSecKeyCmdComplete s from rfl) ?_, ?_⟩
  · rw [show s.hush.sec.cmd = some c from hc]
    dsimp only
    rw [if_neg (by omega), if_pos (by rw [hcom, show s.hush.vlt.stopped = false from hstop]; rfl)]
  · rw [hput]; rfl

/-- An ERASE whose commit is not in force waits (R504). -/
theorem erase_waits (hon : s.on = true) (hc : s.sec.cmd = some c) (hop : c.op = 2) (hcom : c.committed = false) : Yields .secKeyCmdComplete s s.hush := by
  refine yields_of hon (show exec _ s = execSecKeyCmdComplete s from rfl) ?_
  rw [show s.hush.sec.cmd = some c from hc]
  dsimp only
  rw [if_neg (by omega), if_neg (by simp [hcom])]

/-! ### Custody commands -/

/-- A source that reaches registers reaches its DOE mailbox. -/
theorem doeUp_of_reaches (hr : s.reaches src = true) : s.doeUp src = true := by
  unfold State.reaches State.doeUp at *
  simp only [Bool.or_eq_true, Bool.and_eq_true] at hr ⊢
  exact hr.imp_right And.left

/-- Outside a mutually authenticated session a custody command is answered with UnsupportedRequest (R502). -/
theorem custody_unsupported {c : Instr} {f : State → State × List Word} (hx : exec c s = run (fun s => s.custody src f) s) (hon : s.on = true)
    (hr : s.reaches src = true) (hses : s.sec.spdm.get 0 src ≠ 3) : Yields c s { s with out := [.doe src [0x7F, 0x07]] } := by
  refine yields_of hon hx ?_
  unfold State.custody
  rw [show s.hush.doeUp src = true from doeUp_of_reaches hr, when_true, if_neg]
  · rfl
  · rw [Bool.and_eq_true, decide_eq_true_eq]
    exact fun h => hses h.2

/-- In one, from the management side, it does its work and answers (R502). -/
theorem custody_runs {c : Instr} {f : State → State × List Word} {t : State} {ws : List Word} (hx : exec c s = run (fun s => s.custody src f) s)
    (hon : s.on = true) (hr : s.reaches src = true) (hm : s.isMgmt src = true) (hses : s.sec.spdm.get 0 src = 3) (hf : f s.hush = (t, ws)) :
    Yields c s (t.emit (.doe src ws)) := by
  refine yields_of hon hx ?_
  unfold State.custody
  rw [show s.hush.doeUp src = true from doeUp_of_reaches hr, when_true, if_pos (by rw [Bool.and_eq_true, decide_eq_true_eq]; exact ⟨hm, hses⟩), hf]

/-- CUSTODIAN_SET with a beam in use (R502). -/
theorem custodianSet_completes (hon : s.on = true) (hr : s.reaches src = true) (hm : s.isMgmt src = true) (hses : s.sec.spdm.get 0 src = 3)
    (key : BitVec 768) (hset : s.beam.setId ≠ 0) : Completes (.custodianSet src key) s fun u =>
      u.boot.custodian = some key ∧ u.boot.old.custodian = s.boot.custodian ∧ u.boot.gens.get 0 0 = s.boot.gens.get 0 0 + 1
      ∧ u.out.getLast? = some (.doe src [0]) ∧ u = { s with
        out := u.out, boot := { s.boot with gens := u.boot.gens, old := u.boot.old, custodian := some key }, beam := { s.beam with sbgen := s.beam.sbgen + 2, slots := u.beam.slots }
        sec := { s.sec with wrap := { s.sec.wrap with escV := true, custodian := some key } } } := by
  obtain ⟨t, ht⟩ : ∃ t : State, t = { s.hush with
    boot := { s.boot.keep 0 with custodian := some key }, sec := { s.sec with wrap := { s.sec.wrap with escV := true, custodian := some key } } } := ⟨_, rfl⟩
  obtain ⟨sl, o, htwo⟩ := twoSupers_eq t
  refine ⟨t.twoSupers.emit (.doe src [0]), custody_runs (show exec _ s = execCustodianSet src key s from rfl) hon hr hm hses ?_, ?_, ?_, ?_, ?_, ?_⟩
  · dsimp only
    rw [if_neg (show s.hush.beam.setId ≠ 0 from hset), ht]
    rfl
  all_goals rw [htwo, ht]
  · rfl
  · rfl
  · exact Tbl.get_set_self _ _ _ (by simp) _
  · exact List.getLast?_concat
  · rfl

/-- The status of KEY_DELIVER (R503). -/
theorem deliverStatus_eq (id : Word) (key : BitVec 256) (ds : List DriveReport) : s.deliverStatus id key ds =
    if s.boot.setId ≠ 0 ∨ s.beamless = false then 3 else if setDrives ds id = [] ∨ id = 0 then 2
    else if keyCheck key id ≠ checkInForce (setDrives ds id) then 1 else 0 := by
  unfold State.deliverStatus
  simp only [Bool.or_eq_true, decide_eq_true_eq, Bool.not_eq_true', List.isEmpty_iff]

/-- One that succeeds. -/
theorem deliverStatus_zero {id : Word} {key : BitVec 256} {ds : List DriveReport} (hset : s.boot.setId = 0) (hb : s.beamless = true)
    (hds : setDrives ds id ≠ []) (hid : id ≠ 0) (hkey : keyCheck key id = checkInForce (setDrives ds id)) : s.deliverStatus id key ds = 0 := by
  rw [deliverStatus_eq, if_neg (not_or.mpr ⟨not_not.mpr hset, by rw [hb]; decide⟩), if_neg (not_or.mpr ⟨hds, hid⟩), if_neg (not_not.mpr hkey)]

/-- One that does not. -/
theorem deliverStatus_fails {id : Word} {key : BitVec 256} {ds : List DriveReport} {st : Nat}
    (h : (st = 3 ∧ (s.boot.setId ≠ 0 ∨ s.beamless = false)) ∨ (st = 2 ∧ s.boot.setId = 0 ∧ s.beamless = true ∧ (setDrives ds id = [] ∨ id = 0))
      ∨ (st = 1 ∧ s.boot.setId = 0 ∧ s.beamless = true ∧ setDrives ds id ≠ [] ∧ id ≠ 0 ∧ keyCheck key id ≠ checkInForce (setDrives ds id))) :
    s.deliverStatus id key ds = st ∧ st ≠ 0 := by
  rw [deliverStatus_eq]
  rcases h with ⟨rfl, hown⟩ | ⟨rfl, hset, hb, hno⟩ | ⟨rfl, hset, hb, hds, hid, hkey⟩
  · rw [if_pos hown]
    exact ⟨rfl, by omega⟩
  · rw [if_neg (not_or.mpr ⟨not_not.mpr hset, by rw [hb]; decide⟩), if_pos hno]
    exact ⟨rfl, by omega⟩
  · rw [if_neg (not_or.mpr ⟨not_not.mpr hset, by rw [hb]; decide⟩), if_neg (not_or.mpr ⟨hds, hid⟩), if_pos hkey]
    exact ⟨rfl, by omega⟩

/-! ### Sanitize -/

/-- What Sanitize and Secure Erase find before they start (R506). -/
def Unready (s : State) : Prop :=
  s.sec.sanitizing.isSome = true ∨ s.sec.cmd.isSome = true ∨ s.vlt.active = false ∨ s.vlt.stopped = true ∨ s.beam.setId = 0

theorem unready_iff : (s.sec.sanitizing.isSome || s.sec.cmd.isSome || ! s.vlt.active || s.vlt.stopped || decide (s.beam.setId = 0)) = true ↔ Unready s := by
  simp only [Unready, Bool.or_eq_true, Bool.not_eq_true', decide_eq_true_eq, or_assoc]

/-- The two commands are one (R73, R506). -/
theorem sanitize_yields {c : Instr} (hc : c ∈ [Instr.sanitize src, .secureErase src]) (hon : s.on = true) (hr : s.reaches src = true) (hm : s.isMgmt src = true)
    (hst : s.glb.steward = true) {t : State} {code : Nat} {ws : List Word} (hf : s.hush.sanitize src = (t, code, ws)) : Yields c s (t.emit (.mailbox src code ws)) := by
  have hguard : (s.hush.reaches src && s.hush.glb.steward) = true := by rw [hush_reaches, hush_glb, hr, hst]; rfl
  have hrun : ∀ op, s.hush.mgmtMailbox src op (fun s => s.sanitize src) = t.emit (.mailbox src code ws) := by
    intro op
    unfold State.mgmtMailbox State.mailbox
    rw [hguard, when_true]
    dsimp only
    rw [hush_isMgmt, hm, if_pos rfl, hf]
  simp only [List.mem_cons, List.not_mem_nil, or_false] at hc
  obtain rfl | rfl := hc
  · exact yields_of hon (show exec _ s = execSanitize src s from rfl) (hrun _)
  · exact yields_of hon (show exec _ s = execSecureErase src s from rfl) (hrun _)

/-- The end of Sanitize (R506 step 4). -/
theorem sanitizeComplete_completes {h : Nat} {key : BitVec 256} (hon : s.on = true) (hsan : s.sec.sanitizing = some h) (hkey : s.sec.bkek = some key) :
    Completes .sanitizeComplete s fun u => u.out.getLast? = some (.mailbox h 0 []) ∧ u = { s with
      out := u.out, beam := { s.beam with sbgen := s.beam.sbgen + 2, slots := u.beam.slots }
      sec := { s.sec with sanitizing := none, wrap := { salts := s.sec.salts, escV := s.boot.custodian.isSome, custodian := s.boot.custodian, bkek := key, ours := true } } } := by
  obtain ⟨t, ht⟩ : ∃ t : State, t = { s.hush with sec := { s.sec with
    sanitizing := none, wrap := { salts := s.sec.salts, escV := s.boot.custodian.isSome, custodian := s.boot.custodian, bkek := key, ours := true } } } := ⟨_, rfl⟩
  obtain ⟨sl, o, htwo⟩ := twoSupers_eq t
  refine ⟨t.twoSupers.emit (.mailbox h 0 []), yields_of hon (show exec _ s = execSanitizeComplete s from rfl) ?_, ?_, ?_⟩
  · rw [show s.hush.sec.sanitizing = some h from hsan, show s.hush.sec.bkek = some key from hkey, ht]
    rfl
  · rw [htwo]; exact List.getLast?_concat
  · rw [htwo, ht]; rfl

end

/-! ### The obligation -/

/-- Settles O57. The answers of refused custody commands and of a busy mailbox are the presumed codes of log entries 62 and 174, and that
Sanitize takes a new salt for each slot that an ACTIVE entry names, and reports Busy as it does, log entries 118 and 121. -/
theorem keysAndCustody : Obligations.KeysAndCustody := by
  unfold Obligations.KeysAndCustody
  intro s src k hon hr hm hk
  refine ⟨fun c op hc => ⟨fun h => ?busy, fun hcmd hsan h => ?refused⟩, fun hcmd hsan hset hsalt => ?generate,
    fun hcmd hsan hset hsalt hnamed hstop hseals hwb hsw => ?erase, fun c hc hslot => ⟨fun hop => generate_ends hon hc hslot hop,
      fun hop hcom hstop => erase_ends hon hc hslot hop hcom hstop, fun hop hcom => erase_waits hon hc hop hcom⟩,
    fun hses => ⟨fun key => ?_, ?_, fun id key ds => ?_⟩,
    fun hses => ⟨fun key hset => custodianSet_completes hon hr hm hses key hset, ?get, fun id key ds => ⟨fun st h => ?fails, fun hset hb hds hid hkey => ?delivers⟩⟩,
    fun c hc hst => ⟨fun h => ?unready, fun hsan hcmd hact hstop hset => ?sanitize⟩, fun h key hsan hkey => sanitizeComplete_completes hon hsan hkey⟩
  case busy => exact slotCommand_yields hc hon hr hm hk (keyCommand_busy (s := s.hush) (op_of hc) h)
  case refused => exact slotCommand_yields hc hon hr hm hk (keyCommand_refused (s := s.hush) (op_of hc) hcmd hsan h)
  case generate =>
    have hok : ¬ Refused s.hush 1 k := by
      rintro (h | ⟨-, h⟩ | ⟨h, -⟩)
      exacts [hset h, h hsalt, by omega]
    exact slotCommand_yields (by simp) hon hr hm hk ((keyCommand_starts (s := s.hush) (.inl rfl) hcmd hsan hok).trans rfl)
  case erase =>
    have hok : ¬ Refused s.hush 2 k := by
      rintro (h | ⟨h, -⟩ | ⟨-, h | h⟩)
      exacts [hset h, by omega, hsalt h, by rw [show s.hush.slotNamed k = s.slotNamed k from rfl, hnamed] at h; cases h]
    obtain ⟨n, c, d, b, m, heq, hunits, hpages⟩ := erase_starts (s := s.hush) hcmd hsan hok hstop hseals hwb hsw
    exact ⟨_, slotCommand_yields (by simp) hon hr hm hk heq, hunits, hpages, rfl⟩
  case get =>
    exact custody_runs (t := s.hush) (show exec _ s = execCustodyGet src s from rfl) hon hr hm hses rfl
  case fails =>
    obtain ⟨hstatus, hne⟩ := deliverStatus_fails (s := s.hush) h
    refine custody_runs (t := s.hush) (show exec _ s = execKeyDeliver src id key ds s from rfl) hon hr hm hses ?_
    dsimp only
    rw [hstatus, if_pos hne]
  case delivers =>
    have hstatus := deliverStatus_zero (s := s.hush) (key := key) hset hb hds hid hkey
    refine custody_runs (show exec _ s = execKeyDeliver src id key ds s from rfl) hon hr hm hses ?_
    dsimp only
    rw [hstatus, if_neg (by omega)]
    rfl
  case unready =>
    refine sanitize_yields (t := s.hush) hc hon hr hm hst ?_
    unfold State.sanitize
    exact if_pos (unready_iff.mpr h)
  case sanitize =>
    have hready : ¬ Unready s.hush := by
      rintro (h | h | h | h | h)
      · rw [show s.hush.sec.sanitizing = none from hsan] at h; cases h
      · rw [show s.hush.sec.cmd = none from hcmd] at h; cases h
      · exact absurd (hact.symm.trans h) (by decide)
      · exact absurd (hstop.symm.trans h) (by decide)
      · exact hset h
    obtain ⟨t, c', hall, hscr, hkeep, hbkek, hsalts⟩ := sanAll s.hush
    have hgo : s.hush.sanitize src = ({ t with sec := { c' with sanitizing := some src } }, 1, []) := by
      unfold State.sanitize
      rw [if_neg (fun h => hready (unready_iff.mp h)), hall]
    exact ⟨_, sanitize_yields hc hon hr hm hst hgo, rfl, hbkek, hscr, hkeep, hsalts⟩
  · exact custody_unsupported (show exec _ s = execCustodianSet src key s from rfl) hon hr hses
  · exact custody_unsupported (show exec _ s = execCustodyGet src s from rfl) hon hr hses
  · exact custody_unsupported (show exec _ s = execKeyDeliver src id key ds s from rfl) hon hr hses

end Sys2Proof.Proofs.Custody
end

