-- ==== Sys2Proof/Proofs/DumpImages.lean ====
section
/-! PROOF. Counters and dump images (R514 to R521, R534), and obligation O34. -/
namespace Sys2Proof.Proofs.DumpImages
open Sys2Proof Sys2Proof.Machine Sys2Proof.Laws Sys2Proof.Laws.Io Sys2Proof.Proofs

section
variable {s u : State} {src r : Nat} {v : Word} {p : Pmc} {a : Active} {g : DumpImg}

/-! ### Registers -/

theorem pmcSet_yields (hon : s.on = true) (hr : s.reaches src = true) (hm : s.isMgmt src = true) (hp : s.pmc = p) (v : Word) :
    Yields (.pmcSet src v) s { s.hush with pmc := p.setCounter v } :=
  yields_of hon (show exec _ s = execPmcSet src v s from rfl) ((globalWrite_mgmt (s := s.hush) _ _ hr hm).trans (by rw [← hp]; rfl))

/-- A value for every counter (R514). -/
theorem setCounter_all (hall : flag v 63 = true) : ∃ c t, p.setCounter v = { p with cnt := c, ovf := [], touched := t } ∧ ∀ i, i < 1536 → Tbl.get 0 c i = fld v 0 48 := by
  refine ⟨_, _, if_pos hall, fun i hi => ?_⟩
  rw [fold_set 0 (fun _ => fld v 0 48) (List.range 1536) List.nodup_range [] rfl i, if_pos (List.mem_range.mpr hi)]

/-- A value for one counter (R514). -/
theorem setCounter_one (hone : flag v 63 = false) (hn : fld v 48 11 ≤ 1535) : p.setCounter v = { p with
    cnt := p.cnt.set 0 (fld v 48 11) (fld v 0 48), ovf := p.ovf.set false (fld v 48 11) false, touched := p.touched.set false (fld v 48 11) true } := by
  unfold Pmc.setCounter
  dsimp only
  rw [if_neg (by simp [hone]), if_neg (by omega)]

theorem pmcDumpEn_yields (hon : s.on = true) (hr : s.reaches src = true) (hm : s.isMgmt src = true) (hu : s.hush.dumpCtl v = u) : Yields (.pmcDumpEn src v) s u :=
  yields_of hon (show exec _ s = execPmcDumpEn src v s from rfl) ((globalWrite_mgmt (s := s.hush) _ _ hr hm).trans hu)

/-- A write that sets EN of a ring that is off: the ring starts where its check passes, and reports the code otherwise (R534). -/
theorem dumpCtl_enables {q : Pmc} (hp : s.pmc = p) (hen : p.en = false) (hbit : p.dctl &&& 1 = 0) (hv : flag v 0 = true) (hq : q = { p with dctl := v &&& 0xFFFFFFFFFFE }) :
    s.dumpCtl v = if State.dumpCheck { s with pmc := q } ≠ 0 then { s with pmc := { q with derr := State.dumpCheck { s with pmc := q } } }
      else { s with pmc := { q with dctl := q.dctl ||| 1, derr := 0, run := true, dtail := 0, prev := none, img := none, touched := [], lastCap := s.clock } } := by
  have hctl : (v &&& dumpBits) ||| (p.dctl &&& 1) = v &&& 0xFFFFFFFFFFE := by rw [hbit]; exact BitVec.or_zero
  unfold State.dumpCtl
  dsimp only
  rw [hp, hen, hv]
  dsimp only
  simp only [Bool.false_and, Bool.false_eq_true, if_false]
  rw [hctl]
  subst hq
  rfl

/-! ### Captures -/

/-- The image of a capture (R516). -/
def captured (s : State) (p : Pmc) (periodic : Bool) (rings : List Nat) : DumpImg :=
  { at_ := s.clock, cnt := p.cnt, ovf := p.ovf, prev := p.prev, touched := p.touched, skipped := p.skipped
    opmin := s.boot.opmin, cycles := s.boot.cycles, periodic := periodic, rings := rings }

/-- A periodic capture, before it takes an image or is skipped. -/
def due (s : State) : State := { s.hush with pmc := { s.pmc with lastCap := s.clock } }

/-- A periodic capture at its time or later, with no image being written (R516, R518). -/
theorem periodicCapture_yields (hon : s.on = true) (hen : s.pmc.en = true) (hper : s.pmc.period ≠ 0) (hdue : s.pmc.lastCap + s.pmc.period * 2000 ≤ s.clock)
    (himg : s.pmc.img = none) (hu : (if s.captureSkips then State.count { due s with pmc := { (due s).pmc with skipped := (due s).pmc.skipped + 1 } } 4 1
      else (due s).capture true []) = u) : Yields .periodicCapture s u := by
  have hguard : (s.hush.pmc.en && decide (s.hush.pmc.period ≠ 0)) = true := by
    rw [Bool.and_eq_true, decide_eq_true_eq]
    exact ⟨hen, hper⟩
  refine yields_when hon (show exec _ s = execPeriodicCapture s from rfl) hguard ?_
  dsimp only
  rw [show s.hush.elapse (s.hush.pmc.lastCap + s.hush.pmc.period * 2000) = s.hush from elapse_done hdue]
  split
  case h_1 g hg => cases hg.symm.trans himg
  case h_2 => exact hu

/-- A DUMP_NOW descriptor that has not begun takes an image, where the ring is enabled and has room (R428, R517). -/
theorem dumpNow_captures (hon : s.on = true) (hw : s.working r 0x61 a) (hst : a.started = false) (hp : s.pmc = p) (hen : p.en = true) (hfull : p.full = false)
    (himg : p.img = none) : Yields (.dumpNow r) s ((s.hush.capture false [r]).modAct r fun a => { a with started := true }) := by
  obtain ⟨hact, hop, hopen, hheld, hturn⟩ := hw
  subst hp
  refine yields_of hon (show exec _ s = execDumpNow r s from rfl) ?_
  unfold State.workDumpNow
  rw [runs_of (sub := none) hact hop hopen hheld hturn rfl, when_true, hush_ring, hact]
  dsimp only
  rw [hst, if_neg (by decide), if_neg (by rw [show s.hush.pmc.en = true from hen, show s.hush.pmc.full = false from hfull]; decide),
    show s.hush.pmc.img = none from himg]

/-- While EN is 0 it ends with STATE (R428). -/
theorem dumpNow_ends (hon : s.on = true) (hw : s.working r 0x61 a) (hst : a.started = false) (hen : s.pmc.en = false) :
    Yields (.dumpNow r) s (s.hush.endDescriptor r 0x0E id) := by
  obtain ⟨hact, hop, hopen, hheld, hturn⟩ := hw
  refine yields_of hon (show exec _ s = execDumpNow r s from rfl) ?_
  unfold State.workDumpNow
  rw [runs_of (sub := none) hact hop hopen hheld hturn rfl, when_true, hush_ring, hact]
  dsimp only
  rw [hst, if_neg (by decide), if_pos (by rw [show s.hush.pmc.en = false from hen]; rfl)]

/-! ### The image -/

/-- The state in which the lines of an image of a host ring have been sent (R519, R520). -/
def linesSent (s : State) (g : DumpImg) : State :=
  { s with out := s.out ++ [.hostWrite s.pmc.head (s.pmc.entry + 8) (s.imageWords g)], pmc := { s.pmc with img := some { g with lines := true } } }

/-- The state in which its SEQ word has been sent too (R521). -/
def imageSent (s : State) (g : DumpImg) : State :=
  { s with
    out := s.out ++ [.hostWrite s.pmc.head (s.pmc.entry + 8) (s.imageWords g), .hostWrite s.pmc.head s.pmc.entry [atBit ((s.pmc.images + 1) % 2 ^ 64) 0]]
    pmc := { s.pmc with img := some { g with lines := true, seq := true } } }

theorem writeImage_host (hhost : s.pmc.host = true) :
    ({ s with pmc := { s.pmc with img := some { g with lines := true } } } : State).writeImage g = linesSent s g := if_pos hhost

theorem writeSeq_host {t : State} (ht : t = linesSent s g) (hhost : s.pmc.host = true) :
    ({ t with pmc := { t.pmc with img := some { g with lines := true, seq := true } } } : State).writeSeq = imageSent s g := by
  unfold State.writeSeq
  rw [ht, if_pos (by exact hhost)]
  unfold State.emit imageSent linesSent
  simp only [List.append_assoc]
  rfl

theorem linesSent_busy : (linesSent s g).dumpBusy = s.dumpBusy := rfl
theorem imageSent_busy : (imageSent s g).dumpBusy = s.dumpBusy := rfl

/-- With no write of an image to be accepted, all of a host ring's image goes out at once. -/
theorem dumpImageWritten_yields (hon : s.on = true) (himg : s.pmc.img = some g) (hlines : g.lines = false) (hseq : g.seq = false)
    (hbusy : s.dumpBusy = false) (hhost : s.pmc.host = true) : Yields .dumpImageWritten s ((imageSent s.hush g).imageDone g) := by
  have hbusy' : s.hush.dumpBusy = false := hbusy
  refine yields_of hon (show exec _ s = execDumpImageWritten s from rfl) ?_
  split
  case h_1 hg => cases hg.symm.trans himg
  case h_2 g' hg =>
    obtain rfl : g = g' := Option.some.inj (himg.symm.trans hg)
    dsimp only
    rw [if_neg (c := g.lines = true) (by simp [hlines]), writeImage_host (s := s.hush) hhost, if_neg (c := g.seq = true) (by simp [hseq])]
    generalize ht : linesSent s.hush g = t
    rw [writeSeq_host ht.symm hhost, ← ht, linesSent_busy, imageSent_busy, hbusy', if_neg (by decide), if_neg (by decide)]

/-- The end of an image that no DUMP_NOW waits for (R519). -/
theorem imageDone_eq (hrings : g.rings = []) (hmask : ((s.head s.pmc.head).func.msix.get {} s.pmc.vector).masked = false) : s.imageDone g = { s with
    pmc := { s.pmc with img := none, images := s.pmc.images + 1, dtail := (s.pmc.dtail + 1) % s.pmc.size }
    out := s.out ++ if s.pmc.irq = true then [.msix s.pmc.head s.pmc.vector] else [] } := by
  unfold State.imageDone
  dsimp only
  rw [hrings, List.foldl_nil]
  cases s.pmc.irq
  · simp
  · exact Descriptors.sendMsix_unmasked hmask

end

/-! ### The obligation -/

/-- Settles O34. That a skipped periodic capture also counts as the last capture is log entry 72, and what a DUMP_NOW does that meets an image
being written log entry 73, both the model's reading. -/
theorem countersAndDumpImages : Obligations.CountersAndDumpImages := by
  unfold Obligations.CountersAndDumpImages
  intro s src r v p hon hp
  refine ⟨fun hr hm => ⟨fun hone hn => ?one, fun hall => ?all, fun q hen hbit hv hq => ⟨fun hcode => ?report, fun hcode => ?start⟩⟩,
    fun hen hper hdue himg => ⟨fun hskip => ?takes, fun hskip => ?skips⟩, fun a hw hst => ⟨fun hen hfull himg => ?now, fun hen => dumpNow_ends hon hw hst (by rw [hp]; exact hen)⟩,
    fun g himg hlines hseq hrings hbusy hhost hmask => ?image⟩
  case one =>
    have hy := pmcSet_yields hon hr hm hp v
    rwa [setCounter_one hone hn] at hy
  case all =>
    obtain ⟨c, t, heq, hc⟩ := setCounter_all (p := p) hall
    have hy := pmcSet_yields hon hr hm hp v
    rw [heq] at hy
    exact ⟨_, hy, fun i hi => ⟨hc i hi, rfl⟩, by rw [← hp]; rfl⟩
  case report =>
    exact pmcDumpEn_yields hon hr hm ((dumpCtl_enables (s := s.hush) hp hen hbit hv hq).trans (if_pos hcode))
  case start =>
    exact pmcDumpEn_yields hon hr hm ((dumpCtl_enables (s := s.hush) hp hen hbit hv hq).trans (if_neg (not_not.mpr hcode)))
  case takes =>
    subst hp
    exact ⟨_, periodicCapture_yields hon hen hper hdue himg (if_neg (by simp [hskip])), captured s s.pmc true [], rfl, rfl, rfl, rfl, rfl, rfl, rfl, rfl⟩
  case skips =>
    subst hp
    exact periodicCapture_yields hon hen hper hdue himg (if_pos hskip)
  case now =>
    have hy := dumpNow_captures hon hw hst hp hen hfull himg
    subst hp
    exact ⟨_, hy, captured s s.pmc false [r], rfl, rfl, rfl, rfl, rfl, rfl⟩
  case image =>
    subst hp
    have hy := dumpImageWritten_yields hon himg hlines hseq hbusy hhost
    rw [imageDone_eq (s := imageSent s.hush g) hrings hmask] at hy
    exact ⟨_, hy, rfl, rfl⟩

end Sys2Proof.Proofs.DumpImages
end

