-- ==== Sys2Proof/Proofs/Tapestry.lean ====
section
/-! PROOF. The tapestry recorder (R522 to R532): minutes, fault flushes, records written, the check at cold reset, and obligation O58. -/
namespace Sys2Proof.Proofs.Tapestry
open Sys2Proof Sys2Proof.Machine Sys2Proof.Laws Sys2Proof.Laws.Estimates Sys2Proof.Proofs

section
variable {s u : State} {d : Line}

/-! ### Samples -/

/-- The COUNTs that a pass over the buckets takes are those of its beginning. -/
theorem bucketSamples_fold (l : List Nat) : ∀ t : State, t.flt = s.flt →
    l.foldl (fun (s : State) n => s.minuteMax (4096 * 8 + n) (s.flt.buckets.get {} n).count) t
      = l.foldl (fun (t : State) n => t.minuteMax (0x8000 + n) (s.flt.buckets.get {} n).count) t := by
  induction l with
  | nil => exact fun _ _ => rfl
  | cons n l ih =>
    intro t ht
    rw [List.foldl_cons, List.foldl_cons, ht]
    exact ih _ ht

/-- Every bucket's COUNT goes into the minute's extremes (R524). -/
theorem bucketSamples_eq (hwf : s.tap.minute.wf 0 = true) : ∃ M, s.bucketSamples = { s with tap := { s.tap with minute := M } } ∧ Tbl.wf 0 M = true
    ∧ (∀ n ∈ bucketUnits, Tbl.get 0 M (0x8000 + n) = max ((s.flt.buckets.get {} n).count + 1) (s.tap.minute.get 0 (0x8000 + n)))
    ∧ ∀ k, (∀ n ∈ bucketUnits, k ≠ 0x8000 + n) → Tbl.get 0 M k = s.tap.minute.get 0 k := by
  obtain ⟨M, heq, hM, hget⟩ := maxes (fun n => (s.flt.buckets.get {} n).count) 0x8000 bucketUnits s hwf
  exact ⟨M, (bucketSamples_fold bucketUnits s rfl).trans heq, hM, fun n hn => (hget _).1 n hn rfl, fun k => (hget k).2⟩

/-- The accumulators after the samples of a minute (R524). -/
structure Sampled (s : State) (A : Tbl TapAcc) : Prop where
  other : ∀ k, k ≠ 0x3900 → (∀ n ∈ bucketUnits, k ≠ 0x8000 + n) →
    Tbl.get {} A k = if s.tap.minute.get 0 k = 0 then s.tap.accs.get {} k else (s.tap.accs.get {} k).take (k / 4096) (s.tap.minute.get 0 k - 1) s.boot.opmin
  bucket : ∀ n ∈ bucketUnits, 0x8000 + n ≠ 0x3900 → Tbl.get {} A (0x8000 + n)
    = (s.tap.accs.get {} (0x8000 + n)).take ((0x8000 + n) / 4096) (max ((s.flt.buckets.get {} n).count + 1) (s.tap.minute.get 0 (0x8000 + n)) - 1) s.boot.opmin
  vin : s.tap.minute.get 0 0x3900 = 0 → ∀ v, s.tap.vinMin = some v → Tbl.get {} A 0x3900 = (s.tap.accs.get {} 0x3900).take 3 v s.boot.opmin

theorem vin_not_bucket : ∀ n ∈ bucketUnits, 0x3900 ≠ 0x8000 + n := fun n _ => by omega

/-- The minute's lowest VIN, where one was read, goes into its accumulator (R524). -/
def vinSampled (s : State) : Option Nat → State
  | some v => s.tapSample (4096 * 3 + 0x900) v
  | none => s

/-- The steward's recorder takes the samples of a minute. -/
theorem minuteSamples_eq (hwf : s.tap.minute.wf 0 = true) (hacc : s.tap.accs.wf {} = true) :
    ∃ M A, s.minuteSamples = { s with tap := { s.tap with minute := M, accs := A } } ∧ Sampled s A := by
  obtain ⟨M, hbuckets, hM, hin, hout⟩ := bucketSamples_eq hwf
  obtain ⟨A, hsamples, hA, hget⟩ := samples M 0 { s with tap := { s.tap with minute := M } } hM hacc
  have hother : ∀ k, (∀ n ∈ bucketUnits, k ≠ 0x8000 + n) → Tbl.get {} A k
      = if s.tap.minute.get 0 k = 0 then s.tap.accs.get {} k else (s.tap.accs.get {} k).take (k / 4096) (s.tap.minute.get 0 k - 1) s.boot.opmin := by
    intro k hk
    rw [hget k, hout k hk]
  have hbucket : ∀ n ∈ bucketUnits, Tbl.get {} A (0x8000 + n)
      = (s.tap.accs.get {} (0x8000 + n)).take ((0x8000 + n) / 4096) (max ((s.flt.buckets.get {} n).count + 1) (s.tap.minute.get 0 (0x8000 + n)) - 1) s.boot.opmin := by
    intro n hn
    rw [hget, hin n hn, if_neg (by omega)]
  have hrun : s.minuteSamples = vinSampled { s with tap := { s.tap with minute := M, accs := A } } s.tap.vinMin := by
    unfold State.minuteSamples
    dsimp only
    rw [hbuckets, hsamples]
    split
    case h_1 v hv => exact (congrArg (vinSampled _) hv).symm
    case h_2 hv => exact (congrArg (vinSampled _) hv).symm
  cases hv : s.tap.vinMin with
  | none =>
    rw [hv] at hrun
    exact ⟨M, A, hrun, fun k _ => hother k, fun n hn _ => hbucket n hn, fun _ v h => by cases hv.symm.trans h⟩
  | some v =>
    rw [hv] at hrun
    refine ⟨M, _, hrun, fun k hk hn => ?_, fun n hn hk => ?_, fun hzero v' h => ?_⟩
    · exact (Tbl.get_set_ne _ _ hk hA).trans (hother k hn)
    · exact (Tbl.get_set_ne _ _ hk hA).trans (hbucket n hn)
    · obtain rfl : v = v' := Option.some.inj (hv.symm.trans h)
      refine (Tbl.get_set_eq _ _ _ hA).trans ?_
      have hold := hother 0x3900 vin_not_bucket
      rw [if_pos hzero] at hold
      exact congrArg (fun a => TapAcc.take a 3 v s.boot.opmin) hold

/-- OPMIN and the life ring after a minute (R524, R567). -/
def minuteBoot (b : Boot) : Boot :=
  let n := (b.opmin + 1) % 2 ^ 32
  if n % 60 = 0 then Boot.addLife { b with opmin := n } else { b with opmin := n }

/-- The samples of a minute, which the steward's recorder takes (R15, R524). -/
theorem samples_eq (hwf : s.tap.minute.wf 0 = true) (hacc : s.tap.accs.wf {} = true) :
    ∃ M A, (if s.glb.steward then s.minuteSamples else s) = { s with tap := { s.tap with minute := M, accs := A } }
      ∧ (s.glb.steward = true → Sampled s A) ∧ (s.glb.steward = false → A = s.tap.accs) := by
  cases hst : s.glb.steward
  · exact ⟨s.tap.minute, s.tap.accs, if_neg (by decide), fun h => absurd h (by decide), fun _ => rfl⟩
  · obtain ⟨M, A, heq, hsampled⟩ := minuteSamples_eq hwf hacc
    exact ⟨M, A, (if_pos rfl).trans heq, fun _ => hsampled, fun h => absurd h (by decide)⟩

/-- A minute of operation ends: the samples are taken, and the next minute's extremes start with the COUNTs of now. -/
theorem minuteSample_yields (hon : s.on = true) (hdue : s.tap.minuteAt + 120000000000 ≤ s.clock) (hwf : s.tap.minute.wf 0 = true) (hacc : s.tap.accs.wf {} = true) :
    ∃ M A, Yields .tapestryMinuteSample s { s.hush with tap := { s.tap with accs := A, minute := M, vinMin := none, minuteAt := s.clock }, boot := minuteBoot s.boot }
      ∧ (s.glb.steward = true → Sampled s A) ∧ (s.glb.steward = false → A = s.tap.accs)
      ∧ ∀ n ∈ bucketUnits, Tbl.get 0 M (0x8000 + n) = (s.flt.buckets.get {} n).count + 1 := by
  obtain ⟨M1, A, htaken, hsampled, hkept⟩ := samples_eq (s := s.hush) hwf hacc
  obtain ⟨M, hnew, -, hcount, -⟩ := bucketSamples_eq
    (s := { s.hush with tap := { s.tap with accs := A, minute := [], vinMin := none, minuteAt := s.clock }, boot := minuteBoot s.boot }) rfl
  refine ⟨M, A, yields_of hon (show exec _ s = execTapestryMinuteSample s from rfl) ?_, fun h => ⟨(hsampled h).other, (hsampled h).bucket, (hsampled h).vin⟩, hkept, fun n hn => hcount n hn⟩
  dsimp only
  rw [show s.hush.elapse (s.hush.tap.minuteAt + 120000000000) = s.hush from elapse_done hdue, htaken]
  exact hnew

theorem minuteBoot_eq (b : Boot) : ∃ l, minuteBoot b = { b with opmin := (b.opmin + 1) % 2 ^ 32, life := l }
    ∧ l.head? = if (b.opmin + 1) % 2 ^ 32 % 60 = 0 then some ((b.opmin + 1) % 2 ^ 32, b.cycles) else b.life.head? := by
  unfold minuteBoot Boot.addLife
  dsimp only
  split
  · exact ⟨_, rfl, rfl⟩
  · exact ⟨b.life, rfl, rfl⟩

/-! ### Flushes -/

/-- A fault flush that is due, with FAULT_GAP over (R528). -/
theorem faultFlush_yields (hon : s.on = true) (hst : s.glb.steward = true) (hdue : s.tap.due = true) (hfl : s.tap.flushing = false)
    (hgap : ∀ t, s.tap.lastFault = some t → t + fld s.tap.ctl 2 14 ≤ s.boot.opmin) :
    Yields .tapestryFaultFlush s (State.tapFlush { s.hush with tap := { s.tap with due := false, lastFault := some s.boot.opmin } } []) := by
  have hover : s.tapGapOver = true := by
    unfold State.tapGapOver
    split
    case h_1 t ht => exact decide_eq_true (hgap t ht)
    case h_2 => rfl
  refine yields_when hon (show exec _ s = execTapestryFaultFlush s from rfl) ?_ rfl
  rw [show s.hush.glb.steward = true from hst, show s.hush.tap.due = true from hdue, show s.hush.tap.flushing = false from hfl, show s.hush.tapGapOver = true from hover]
  rfl

/-- The end of a flush of one record writes it (R529). -/
theorem flushEnd_yields (hon : s.on = true) (hfl : s.tap.flushing = true) (hout : s.tap.out = [d])
    (hu : State.tapWrite { s.hush with tap := { s.tap with out := [], flushing := false } } d = u) : Yields .tapestryFlushEnd s u := by
  refine yields_when hon (show exec _ s = execTapestryFlushEnd s from rfl) hfl ?_
  unfold State.tapFlushEnd
  rw [show s.hush.tap.out = [d] from hout]
  exact hu

/-- A record of the ORDINARY area goes into the lowest free slot (R530). -/
theorem write_ordinary {l : Line} {n : Nat × Nat} (hd : tapArea d = 0) (hroom : s.boot.tapOrd.slots.length < 720832) (hn : s.boot.tapOrd.next = n)
    (hl : l = finishRec d n.1 0 n.2) : s.tapWrite d = { s with
      boot := { s.boot with tapOrd := { s.boot.tapOrd with slots := s.boot.tapOrd.slots.set erasedSlot (firstGap 0 s.boot.tapOrd.slots) l, chain := some (n.1, recMac l) } } } := by
  have happend : s.boot.tapOrd.append 0 d = some (s.boot.tapOrd.store (firstGap 0 s.boot.tapOrd.slots) 0 d) := if_pos hroom
  subst hl hn
  unfold State.tapWrite
  rw [if_pos hd, happend]
  rfl

/-- Where the area is full it is dropped (R531). -/
theorem drop_ordinary (hd : tapArea d = 0) (hfull : 720832 ≤ s.boot.tapOrd.slots.length) : s.tapWrite d = s.tapDrop 0 := by
  have happend : s.boot.tapOrd.append 0 d = none := (if_neg (by rw [areaSlots, if_pos rfl]; omega)).trans (if_pos rfl)
  unfold State.tapWrite
  rw [if_pos hd, happend]

/-- What a record of the full SEVERITY area does: it displaces its victim, or is dropped (R531). -/
theorem append_severity {a : TapArea} (hfull : 65408 ≤ a.slots.length) : a.append 1 d = (a.victim (tapSevOf d)).map fun v => a.store v.1 (recRseq v.2) d := by
  unfold TapArea.append
  rw [if_neg (by rw [areaSlots, if_neg (by decide)]; omega), if_neg (by decide)]
  cases a.victim (tapSevOf d) <;> rfl

theorem displace_severity {l : Line} {n : Nat × Nat} {v : Nat × Line} (hd : tapArea d = 1) (hfull : 65408 ≤ s.boot.tapSev.slots.length)
    (hv : s.boot.tapSev.victim (tapSevOf d) = some v) (hn : s.boot.tapSev.next = n) (hl : l = finishRec d n.1 (recRseq v.2) n.2) : s.tapWrite d = { s with
      boot := { s.boot with tapSev := { s.boot.tapSev with slots := s.boot.tapSev.slots.set erasedSlot v.1 l, chain := some (n.1, recMac l) } } } := by
  subst hl hn
  unfold State.tapWrite
  rw [if_neg (by omega), append_severity hfull, hv]
  rfl

theorem drop_severity (hd : tapArea d = 1) (hfull : 65408 ≤ s.boot.tapSev.slots.length) (hv : s.boot.tapSev.victim (tapSevOf d) = none) : s.tapWrite d = s.tapDrop 1 := by
  unfold State.tapWrite
  rw [if_neg (by omega), append_severity hfull, hv]
  rfl

/-! ### The check at cold reset -/

/-- A check of a store that is found as it was written, with no header and no chain head missing (R532). -/
theorem tapestryCheck_yields {c e : Nat × Nat} (hon : s.on = true) (hst : s.vlt.st = .restore) (hc : s.boot.tapOrd.chain = some c) (he : s.boot.tapSev.chain = some e)
    (hu : (s.hush.eraseRecords 0 (missingRuns s.boot.tapOrd.base c.1 s.boot.tapOrd.held)).eraseRecords 1 (missingRuns s.boot.tapSev.base e.1 s.boot.tapSev.held) = u) :
    Yields (.tapestryCheck [] 0 0) s u := by
  refine yields_when hon (show exec _ s = execTapestryCheck [] 0 0 s from rfl) (decide_eq_true hst) ?_
  dsimp only
  rw [check_kept (a := s.hush.boot.tapOrd) hc, check_kept (a := s.hush.boot.tapSev) he, if_pos rfl]
  exact hu

end

/-! ### The obligation -/

/-- Settles O58. -/
theorem tapestryKeepsItsRecords : Obligations.TapestryKeepsItsRecords := by
  unfold Obligations.TapestryKeepsItsRecords
  intro s hon
  refine ⟨fun hdue hwf hacc => ?minute, fun hst hdue hfl hgap hout recs hrecs => ?flush, fun d l n hfl hout => ⟨fun hd hroom hn hl => ?ordinary, fun hd hfull => ?ordinaryDrop,
    fun hd hfull hn => ⟨fun v hv hl => ?displaces, fun hv => ?severityDrop⟩⟩, fun hst c e hc he => ⟨fun h0 h1 => ?whole, fun r h0 h1 => ?erased⟩⟩
  case minute =>
    obtain ⟨M, A, hy, hsampled, hkept, hcount⟩ := minuteSample_yields hon hdue hwf hacc
    obtain ⟨life, hboot, hhead⟩ := minuteBoot_eq s.boot
    rw [hboot] at hy
    exact ⟨_, hy, rfl, hhead, fun hst => (hsampled hst).other, fun hst => (hsampled hst).bucket, fun hst => (hsampled hst).vin, hkept, hcount, rfl⟩
  case flush =>
    have hy := faultFlush_yields hon hst hdue hfl hgap
    subst hrecs
    unfold State.tapFlush at hy
    simp only [hout, List.append_nil, List.nil_append] at hy
    exact hy
  case ordinary => exact flushEnd_yields hon hfl hout (write_ordinary hd hroom hn hl)
  case ordinaryDrop => exact flushEnd_yields hon hfl hout (drop_ordinary hd hfull)
  case displaces => exact flushEnd_yields hon hfl hout (displace_severity hd hfull hv hn hl)
  case severityDrop => exact flushEnd_yields hon hfl hout (drop_severity hd hfull hv)
  case whole => exact tapestryCheck_yields hon hst hc he (by rw [h0, h1]; rfl)
  case erased => exact tapestryCheck_yields hon hst hc he (by rw [h0, h1]; rfl)

end Sys2Proof.Proofs.Tapestry
end

