-- ==== Sys2Proof/Proofs/SelvedgeLink.lean ====
section
/-! PROOF. The selvedge link trains and two cards pair (R438, R439, R443, R444, R450, R453, R455, R461, R462), and obligation O51. -/
namespace Sys2Proof.Proofs.SelvedgeLink
open Sys2Proof Sys2Proof.Machine Sys2Proof.Laws Sys2Proof.Laws.Partner Sys2Proof.Proofs

section
variable {s u : State} {src lane width rate step value : Nat} {w : Word} {p : HelloPacket}

/-! ### The link's states -/

/-- A link that leaves L0 is in Recovery, and a PAIRED pair on HOLD from now on (R444, R461). -/
theorem slvLeaveL0_up (hup : s.slv.l0 = true) : s.slvLeaveL0 = { s with slv := { s.slv with
    l0 := false, recovering := true, pair := if s.slv.pair = .paired then .hold else s.slv.pair
    holdAt := if s.slv.pair = .paired then s.clock else s.slv.holdAt } } := by
  unfold State.slvLeaveL0
  rw [if_neg (by simp [hup])]

theorem slvLeaveL0_down (hdown : s.slv.l0 = false) : s.slvLeaveL0 = s := by
  unfold State.slvLeaveL0
  rw [if_pos (by simp [hdown])]

/-- A pair in SEEK or SOLO trains while EN is 1 and the link is not held down. -/
theorem slvTrains_iff : s.slvTrains = true ↔ s.slv.en = true ∧ s.slvHeldDown = false ∧ s.vlt.stopped = false ∧ (s.slv.pair = .seek ∨ s.slv.pair = .solo) := by
  simp [State.slvTrains, and_assoc]

/-! ### EN and training -/

theorem slvEn_yields (hon : s.on = true) (hr : s.reaches src = true) (hm : s.isMgmt src = true) (h : s.hush.slvCtl w = u) : Yields (.slvEn src w) s u :=
  yields_of hon (show exec _ s = execSlvEn src w s from rfl) ((globalWrite_mgmt (s := s.hush) _ _ hr hm).trans h)

theorem en_masked (c : Word) : ({ s.slv with ctl := c &&& slvBits } : Slv).en = flag c 0 := flag_and c slvBits 0 (by decide)

/-- EN written 1 starts training (R461). -/
theorem slvCtl_starts (hen : s.slv.en = false) (hw : flag w 0 = true) (hp : s.slv.pair = .off) (hl : s.slv.l0 = false) :
    s.slvCtl w = { s with slv := { s.slv with ctl := w &&& 0xFFFFFFF7F, pair := .seek } } := by
  have hnew := (en_masked (s := s) w).trans hw
  unfold State.slvCtl
  dsimp only
  rw [hnew, hen, hp, hl]
  rfl

/-- EN written 0 ends a link that is not paired (R461). -/
theorem slvCtl_ends (hen : s.slv.en = true) (hw : flag w 0 = false) (hp : s.slv.pair ≠ .paired) (hh : s.slv.pair ≠ .hold) (hseals : s.rng.seals = []) :
    s.slvCtl w = { s with slv := { s.slv with
      ctl := w &&& 0xFFFFFFF7F, pair := .off, l0 := false, detected := false, ide := false, recovering := false, peer := none, rmap := []
      tx := { s.slv.tx with replay := [], waiting := s.slv.tx.waiting.filter fun e => e.1 = 0, fifo := s.slv.tx.fifo.restrict fun c _ => c = 0 } } } := by
  have hnew := (en_masked (s := s) w).trans hw
  unfold State.slvCtl
  dsimp only
  rw [hnew, hen, if_pos (by rfl), if_neg (by simp [hp, hh])]
  exact checkSeals_nil hseals

theorem slvReceiverDetect_yields (hon : s.on = true) (htrains : s.slvTrains = true) (hdown : s.slv.l0 = false) (hdue : s.slv.retryAt ≤ s.clock) :
    Yields .slvReceiverDetect s { s.hush with slv := { s.slv with detected := true, recovering := false, ide := false } } :=
  yields_when hon (show exec _ s = execSlvReceiverDetect s from rfl) (Bool.and_eq_true_iff.mpr ⟨htrains, by simp [hdown]⟩) (by
    dsimp only
    rw [show s.hush.elapse s.hush.slv.retryAt = s.hush from elapse_done hdue]
    rfl)

/-- The link after step 3 of training: credits, sequence numbers and FIFOs anew (R443, R454, R455). -/
def trained (s : State) (rate width : Nat) : State :=
  { s with slv := { s.slv with
    l0 := true, rate := rate, width := width, ide := false, recovering := false, refused := false, peer := none, rmap := []
    fbTx := false, fbRx := flag s.slv.ctl 3, pinOn := flag s.slv.ctl 4
    tx := { credits := [(0, 64), (1, 256), (2, 64), (3, 128), (4, 1024)] }, rx := {} } }

/-- HELLO tells nothing that training sets anew. -/
theorem trained_hello : (trained s rate width).helloWords = s.helloWords := rfl

theorem slvTrainingStep3_yields (hon : s.on = true) (htrains : s.slvTrains = true) (hdet : s.slv.detected = true) (hdown : s.slv.l0 = false)
    (hrate : rate ≤ s.slv.maxRate) (hmin : s.slv.minWidth ≤ width) (hmax : width ≤ s.slvLaneWidth) :
    Yields (.slvTrainingStep3 rate width) s ((trained s.hush rate width).slvPush 0 s.helloWords) :=
  yields_when hon (show exec _ s = execSlvTrainingStep3 rate width s from rfl) (by
    simp only [Bool.and_eq_true, decide_eq_true_eq, Bool.not_eq_true']
    exact ⟨⟨⟨⟨⟨htrains, hdet⟩, hdown⟩, hrate⟩, hmin⟩, hmax⟩) rfl

/-! ### Recovery and HOLD -/

theorem slvRecovery_yields (hon : s.on = true) : Yields .slvRecovery s s.hush.slvLeaveL0 :=
  yields_of hon (show exec _ s = execSlvRecovery s from rfl) rfl

theorem slvL0Regained_yields (hon : s.on = true) (hrec : s.slv.recovering = true) (hheld : s.slvHeldDown = false)
    (hintime : s.slv.pair = .hold → s.clock ≤ s.slv.holdAt + 100000) :
    Yields .slvL0Regained s { s.hush with slv := { s.slv with
      tx := { s.slv.tx with replay := s.slv.tx.replay.map fun f => { f with resent := 0 } }
      l0 := true, recovering := false, rate := min s.slv.rate s.slv.maxRate, width := min s.slv.width s.slvLaneWidth
      pair := if s.slv.pair = .hold then .paired else s.slv.pair } } :=
  yields_when hon (show exec _ s = execSlvL0Regained s from rfl) (by
    show (s.slv.recovering && ! s.slvHeldDown && (s.slv.pair ≠ .hold || decide (s.clock ≤ s.slv.holdAt + 100000))) = true
    rw [hrec, hheld]
    by_cases hp : s.slv.pair = .hold <;> simp [hp, hintime]) rfl

/-- A HOLD whose 50 us are over ends in SOLO, with a notice (R461, R462). -/
theorem pairHoldTimeout_yields (hon : s.on = true) (hp : s.slv.pair = .hold) (hdue : s.slv.holdAt + 100000 ≤ s.clock) :
    Yields .pairHoldTimeout s (s.hush.goSolo.slvDown.note ⟨2, 0x38, s.slv.session, none⟩) :=
  yields_when hon (show exec _ s = execPairHoldTimeout s from rfl) (decide_eq_true hp) (by
    dsimp only
    rw [show s.hush.elapse (s.hush.slv.holdAt + 100000) = s.hush from elapse_done hdue]
    rfl)

/-- The newest divergence of a source region whose writes have all been counted is the open DELTA segment's (R462, R463). -/
theorem divergeOne_source {n o : Nat} {x : SlvRgn} (hsrc : (s.region n).isSource = true) (hx : s.slvRgn n = x) (hm : x.mst = 3) (hd : x.div = 0)
    (hnone : s.oldestMwr n = none) :
    s.divergeOne o n = s.modSlv n fun _ => { x with mst := 4, div := o, copyNext := none, set := [], rdone := false } := by
  unfold State.divergeOne
  dsimp only
  rw [if_pos hsrc, hnone, hx, hm]
  refine (modSlv_eq hx).trans ?_
  rw [if_pos hd]

theorem slvRgn_modSlv_self {n : Nat} {f : SlvRgn → SlvRgn} (h : f (s.slvRgn n) ≠ {}) : (s.modSlv n f).slvRgn n = f (s.slvRgn n) :=
  Tbl.get_set_self _ _ _ h _

theorem pairHoldTimeout_source {n : Nat} {x : SlvRgn} (hon : s.on = true) (hp : s.slv.pair = .hold) (hdue : s.slv.holdAt + 100000 ≤ s.clock) (hseals : s.rng.seals = [])
    (hmir : s.mirrorRegions = [n]) (hrgns : s.slv.rgns = [(n, x)]) (hsrc : (s.region n).isSource = true) (hm : x.mst = 3) (hd : x.div = 0)
    (hdelay : s.slv.delay = []) (hsent : s.slv.sent = []) (hparked : s.slv.parked = []) :
    Completes .pairHoldTimeout s fun u => u.slv.pair = .solo ∧ u.slvRgn n = { x with mst := 4, div := s.openDelta, copyNext := none, set := [], rdone := false } := by
  have hx : s.slvRgn n = x := by simp [State.slvRgn, hrgns, Tbl.get]
  have hnone : s.oldestMwr n = none := by simp [State.oldestMwr, hdelay, hsent, hparked]
  have hl : ((s.hush.slv.rgns.map fun e => e.1) ++ s.hush.mirrorRegions).eraseDups = [n] := by
    rw [show s.hush.slv.rgns = [(n, x)] from hrgns, show s.hush.mirrorRegions = [n] from hmir]
    simp [List.eraseDups_cons]
  have hsolo := goSolo_eq (s := s.hush) (o := s.openDelta) rfl hseals hl
  have hdiv := divergeOne_source (s := s.hush) (o := s.openDelta) hsrc hx hm hd hnone
  refine ⟨_, pairHoldTimeout_yields hon hp hdue, ?_, ?_⟩
  · rw [note_slv, hsolo]; rfl
  · rw [List.foldl_cons, List.foldl_nil, hdiv] at hsolo
    unfold State.slvRgn
    rw [note_slv, hsolo]
    exact slvRgn_modSlv_self (s := s.hush) (f := fun _ => _) (by simp)

/-! ### Retired lanes -/

/-- The device after a selvedge lane has left the link (R444, R480). -/
def laneLost (s : State) (lane : Nat) : State :=
  { s.retireTaken 8 lane with slv := { s.slv with laneRet := putBit s.slv.laneRet lane true } }

theorem slvLaneRetire_yields (hon : s.on = true) (hlane : lane < 8) (hdue : s.retireDue 8 lane = true) (h : s.hush.retireSlvLane lane = u) :
    Yields (.slvLaneRetire lane) s u :=
  yields_when hon (show exec _ s = execSlvLaneRetire lane s from rfl) (by rw [decide_eq_true hlane]; exact hdue) h

/-- The link is held down where no width of at least MIN_WIDTH is left. -/
theorem slvHeldDown_iff : s.slvHeldDown = true ↔ ∀ k, lanesWidth (List.range 8) s.slv.laneRet = some k → k < s.slv.minWidth := by
  unfold State.slvHeldDown
  split
  case h_1 hnone => simp [hnone]
  case h_2 k hsome => simp [hsome]

theorem retireSlvLane_eq : s.retireSlvLane lane = if (laneLost s lane).slvHeldDown then (laneLost s lane).slvLeaveL0
    else if s.slv.l0 then (laneLost s lane).slvLeaveL0.note ⟨1, 0x34, min s.slv.width (laneLost s lane).slvLaneWidth, none⟩
    else laneLost s lane := rfl

theorem retireSlvLane_down (hdown : s.slv.l0 = false) : s.retireSlvLane lane = laneLost s lane := by
  rw [retireSlvLane_eq, slvLeaveL0_down (s := laneLost s lane) hdown, if_neg (c := s.slv.l0 = true) (by simp [hdown])]
  exact ite_self _

theorem retireSlvLane_narrows (hwidth : lanesWidth (List.range 8) (putBit s.slv.laneRet lane true) = some width) (hmin : s.slv.minWidth ≤ width) (hup : s.slv.l0 = true) :
    s.retireSlvLane lane = (laneLost s lane).slvLeaveL0.note ⟨1, 0x34, min s.slv.width width, none⟩ := by
  have hheld : (laneLost s lane).slvHeldDown ≠ true := by
    rw [ne_eq, slvHeldDown_iff]
    exact fun h => absurd (h width hwidth) (Nat.not_lt.mpr hmin)
  have hlanes : (laneLost s lane).slvLaneWidth = width := congrArg (fun o => Option.getD o 0) hwidth
  rw [retireSlvLane_eq, if_neg hheld, if_pos hup, hlanes]

theorem retireSlvLane_holds (h : (laneLost s lane).slvHeldDown = true) : s.retireSlvLane lane = (laneLost s lane).slvLeaveL0 := by
  rw [retireSlvLane_eq, if_pos h]

/-! ### HELLO -/

/-- The device with a HELLO noted (R438, R455). -/
def greeted (s : State) (p : HelloPacket) : State :=
  { s with slv := { s.slv with peer := some p, fbTx := s.slv.fbTx || p.fc, peerHealth := p.health } }

theorem hello_pairs (hon : s.on = true) (hup : s.slv.l0 = true) (hok : s.helloFails p = none) :
    Yields (.hello p) s { s.hush with slv := { s.slv with
      peer := some p, fbTx := s.slv.fbTx || p.fc, peerHealth := p.health, refused := false, follow := decide (p.setId.toNat < s.beam.setId.toNat) } } := by
  refine yields_of hon (show exec _ s = execHello p s from rfl) ?_
  unfold State.takeHello
  dsimp only
  rw [if_neg (by simp [hup])]
  split
  case h_1 c hc => exact absurd (hok.symm.trans hc) (by simp)
  case h_2 => rfl

theorem hello_refused {c : Nat} (hon : s.on = true) (hup : s.slv.l0 = true) (hfails : s.helloFails p = some c) :
    Yields (.hello p) s (State.note { s.hush with slv := { s.slv with
      peer := some p, fbTx := s.slv.fbTx || p.fc, peerHealth := p.health, refused := true, helloAt := s.clock } } ⟨1, 0x32, c, none⟩) := by
  refine yields_of hon (show exec _ s = execHello p s from rfl) ?_
  unfold State.takeHello
  dsimp only
  rw [if_neg (by simp [hup])]
  split
  case h_1 d hd => rw [Option.some.inj (hfails.symm.trans hd)]; rfl
  case h_2 hd => exact absurd (hfails.symm.trans hd) (by simp)

/-- The conditions of R438 in their order. -/
theorem helloFails_eq {id : Word} (hid : s.slv.pairId.read [(0, 64)] = id) : s.helloFails p
    = if s.slv.en = false then some 0 else if s.beam.setId = 0 ∨ p.setId = 0 then some 1 else if id = 0 ∨ p.pairId ≠ id then some 2
      else if fld p.glbRev 24 8 ≠ fld glbRev 24 8 then some 3 else if p.setId = s.beam.setId then some 4 else none := by
  subst hid
  unfold State.helloFails
  simp only [Bool.not_eq_true', Bool.or_eq_true, decide_eq_true_eq]

section
variable {id : Word} (hid : s.slv.pairId.read [(0, 64)] = id)
include hid

/-- R438: a HELLO that meets every condition. -/
theorem helloFails_none (hen : s.slv.en = true) (hset : s.beam.setId ≠ 0) (hpset : p.setId ≠ 0) (hid0 : id ≠ 0) (hpid : p.pairId = id)
    (hrev : fld p.glbRev 24 8 = fld glbRev 24 8) (hdiff : p.setId ≠ s.beam.setId) : s.helloFails p = none := by
  rw [helloFails_eq hid, if_neg (by simp [hen]), if_neg (not_or.mpr ⟨hset, hpset⟩), if_neg (not_or.mpr ⟨hid0, not_not.mpr hpid⟩), if_neg (not_not.mpr hrev), if_neg hdiff]

/-- Condition 2: both devices name the same pair. -/
theorem helloFails_pair (hen : s.slv.en = true) (hset : s.beam.setId ≠ 0) (hpset : p.setId ≠ 0) (h : id = 0 ∨ p.pairId ≠ id) : s.helloFails p = some 2 := by
  rw [helloFails_eq hid, if_neg (by simp [hen]), if_neg (not_or.mpr ⟨hset, hpset⟩), if_pos h]

/-- Condition 4: the two sets differ. -/
theorem helloFails_same (hen : s.slv.en = true) (hsame : p.setId = s.beam.setId) (hpset : p.setId ≠ 0) (hid0 : id ≠ 0) (hpid : p.pairId = id)
    (hrev : fld p.glbRev 24 8 = fld glbRev 24 8) : s.helloFails p = some 4 := by
  rw [helloFails_eq hid, if_neg (by simp [hen]), if_neg (not_or.mpr ⟨hsame ▸ hpset, hpset⟩), if_neg (not_or.mpr ⟨hid0, not_not.mpr hpid⟩), if_neg (not_not.mpr hrev), if_pos hsame]

end

/-- Condition 0: EN is 1. -/
theorem helloFails_off (hen : s.slv.en = false) : s.helloFails p = some 0 := by
  rw [helloFails_eq rfl, if_pos hen]

/-- Condition 1: both devices hold a set. -/
theorem helloFails_set (hen : s.slv.en = true) (h : s.beam.setId = 0 ∨ p.setId = 0) : s.helloFails p = some 1 := by
  rw [helloFails_eq rfl, if_neg (by simp [hen]), if_pos h]

theorem helloRetry_completes (hon : s.on = true) (href : s.slv.refused = true) (hup : s.slv.l0 = true) (hdue : s.slv.helloAt + 2000000000 ≤ s.clock)
    (hroom : s.slvRoom 0 s.helloWords.length = true) (hfirst : (s.slv.tx.waiting.any fun e => e.1 = 0) = false) :
    Completes .helloRetry s fun u => (u.slv.tx.fifo.get [] 0).map Prod.fst = (s.slv.tx.fifo.get [] 0).map Prod.fst ++ s.helloWords
      ∧ u = { s with out := [], slv := { s.slv with helloAt := s.clock, tx := { s.slv.tx with fifo := u.slv.tx.fifo } } } := by
  obtain ⟨F, hpush, hF⟩ := push_room (s := s.hush) (ws := s.helloWords) hroom hfirst (by simp [State.helloWords, pkt])
  have hrun : Yields .helloRetry s { s.hush with slv := { s.slv with helloAt := s.clock, tx := { s.slv.tx with fifo := F } } } :=
    yields_when hon (show exec _ s = execHelloRetry s from rfl) (Bool.and_eq_true_iff.mpr ⟨href, hup⟩) (by
      dsimp only
      rw [show s.hush.elapse (s.hush.slv.helloAt + 2000000000) = s.hush from elapse_done hdue, show s.hush.sendHello = _ from hpush]
      rfl)
  exact ⟨_, hrun, hF, rfl⟩

/-! ### Keys and the session -/

/-- What a message of the SPDM exchange with the partner p makes of the device (R443, R508). -/
def spdmTaken (s : State) (p : HelloPacket) (step : Nat) (ok : Bool) : State :=
  if ! ok then { s.slvDown with slv := { s.slvDown.slv with retryAt := s.clock + 2000000000 } }
  else if step = 0 then s
  else
    let keyed : State := { s with slv := { s.slv with ide := true, tx := { s.slv.tx with nonce := 0 } } }
    if s.slv.follow then keyed
    else
      let v := (max s.slv.session p.session + 1) % 2 ^ 32
      (keyed.slvPush 0 (pkt 0x03 0 [atBit v 0])).pairUp v

/-- Pairing changes the selvedge link's state alone (R461). -/
theorem pairUp_slv (t : State) (n : Nat) : ∃ V, t.pairUp n = { t with slv := V } ∧ V.pair = .paired ∧ V.session = n % 2 ^ 32
    ∧ V.peerSet = (t.slv.peer.map fun p => p.setId).getD t.slv.peerSet ∧ V.mackCount = 0 ∧ V.rackCount = 0 := by
  obtain ⟨R, F, W, hpair, -⟩ := pairUp_eq t n
  exact ⟨_, hpair, rfl, rfl, rfl, rfl, rfl⟩

/-- LEAD's SESSION follows both last values (R439). -/
theorem spdmTaken_lead (hp : s.slv.peer = some p) (hstep : step ≠ 0) (hlead : s.slv.follow = false) :
    ∃ V, spdmTaken s p step true = { s with slv := V } ∧ V.pair = .paired ∧ V.session = (max s.slv.session p.session + 1) % 2 ^ 32
      ∧ V.peerSet = p.setId ∧ V.mackCount = 0 ∧ V.rackCount = 0 := by
  unfold spdmTaken
  dsimp only
  rw [if_neg (by decide), if_neg hstep, if_neg (c := s.slv.follow = true) (by simp [hlead])]
  obtain ⟨F, W, hpush⟩ := push_eq { s with slv := { s.slv with ide := true, tx := { s.slv.tx with nonce := 0 } } } 0
    (pkt 0x03 0 [atBit ((max s.slv.session p.session + 1) % 2 ^ 32) 0])
  rw [hpush]
  obtain ⟨V, hV, hpair, hses, hpeer, hcounts⟩ := pairUp_slv { s with slv := { s.slv with ide := true, tx := { s.slv.tx with nonce := 0, fifo := F, waiting := W } } }
    ((max s.slv.session p.session + 1) % 2 ^ 32)
  refine ⟨V, hV, hpair, hses.trans (Nat.mod_mod _ _), hpeer.trans ?_, hcounts⟩
  dsimp only
  rw [hp]
  rfl

section
variable (hon : s.on = true) (hup : s.slv.l0 = true) (hide : s.slv.ide = false) (hp : s.slv.peer = some p) (hok : s.helloFails p = none)
include hon hup hide hp hok

theorem slvSpdm_yields {ok : Bool} (h : spdmTaken s.hush p step ok = u) : Yields (.slvSpdm step ok) s u := by
  refine yields_of hon (show exec _ s = execSlvSpdm step ok s from rfl) ?_
  dsimp only
  split
  case h_1 hnone => exact absurd (hp.symm.trans hnone) (by simp)
  case h_2 q hq =>
    obtain rfl : q = p := Option.some.inj (hq.symm.trans hp)
    refine (if_pos ?_).trans h
    show (s.slv.l0 && ! s.slv.ide && (s.helloFails q).isNone) = true
    rw [hup, hide, hok]
    rfl

/-- The side with the lower SET_ID, LEAD, names the session and is paired (R438, R439, R461). -/
theorem slvSpdm_lead (hstep : step ≠ 0) (hlead : s.slv.follow = false) :
    Completes (.slvSpdm step true) s fun u =>
      u.slv.pair = .paired ∧ u.slv.session = (max s.slv.session p.session + 1) % 2 ^ 32 ∧ u.slv.peerSet = p.setId ∧ u.slv.mackCount = 0 ∧ u.slv.rackCount = 0
      ∧ u = { s with out := [], slv := u.slv } := by
  obtain ⟨V, hV, hpair, hses, hpeer, hmack, hrack⟩ := spdmTaken_lead (s := s.hush) hp hstep hlead
  exact ⟨_, slvSpdm_yields hon hup hide hp hok hV, hpair, hses, hpeer, hmack, hrack, rfl⟩

end

/-- FOLLOW adopts LEAD's session (R439, R461). -/
theorem session_completes (hon : s.on = true) (hup : s.slv.l0 = true) (hide : s.slv.ide = true) (hfollow : s.slv.follow = true) (hp : s.slv.pair ≠ .paired)
    (hoff : s.slv.pair ≠ .off) (hmir : s.mirrorRegions = []) (hrgns : s.slv.rgns = []) :
    Completes (.session value) s fun u =>
      u.slv.pair = .paired ∧ u.slv.session = value % 2 ^ 32 ∧ u.slv.mackCount = 0 ∧ u.slv.rackCount = 0 ∧ u.slv.rx.macks = 0 ∧ u.slv.rx.racks = 0
      ∧ (s.slvRoom 0 1 = true → (s.slv.tx.waiting.any fun e => e.1 = 0) = false →
        u.slv.tx.waiting = s.slv.tx.waiting ∧ (u.slv.tx.fifo.get [] 0).map Prod.fst = (s.slv.tx.fifo.get [] 0).map Prod.fst ++ [0x104])
      ∧ u = { s with out := [], slv := { s.slv with
        pair := .paired, session := value % 2 ^ 32, peerSet := u.slv.peerSet, mackCount := 0, rackCount := 0, taken := [], pagesOut := [], sent := [], parked := []
        tx := { s.slv.tx with sentMack := 0, sentRack := 0, sentHealth := none, fifo := u.slv.tx.fifo, waiting := u.slv.tx.waiting }
        rx := { s.slv.rx with mwrs := [], macks := 0, pages := [], racks := 0 } } } := by
  have hguard : (s.hush.slv.l0 && s.hush.slv.ide && s.hush.slv.follow && s.hush.slv.pair ≠ .paired && s.hush.slv.pair ≠ .off) = true := by
    show (s.slv.l0 && s.slv.ide && s.slv.follow && s.slv.pair ≠ .paired && s.slv.pair ≠ .off) = true
    simp [hup, hide, hfollow, hp, hoff]
  obtain ⟨R, F, W, hpair, hrest⟩ := pairUp_eq s.hush value
  obtain ⟨hR, hsent⟩ := hrest hmir hrgns
  refine ⟨_, yields_of hon (show exec _ s = execSession value s from rfl) ((if_pos hguard).trans hpair), rfl, rfl, rfl, rfl, rfl, rfl, hsent, ?_⟩
  rw [hR, ← hrgns]
  rfl

/-! ### HEALTH, FALLBACK, XOFF and undefined packets -/

theorem health_yields (hon : s.on = true) (hide : s.slv.ide = true) (h : Nat) (k : Bool) :
    Yields (.health h k) s { s.hush with slv := { s.slv with peerHealth := h, peerWithhold := k } } :=
  yields_of hon (show exec _ s = execHealth h k s from rfl) (if_pos hide)

theorem fallback_yields (hon : s.on = true) (hup : s.slv.l0 = true) : Yields .fallback s { s.hush with slv := { s.slv with fbTx := true } } :=
  yields_when hon (show exec _ s = execFallback s from rfl) hup rfl

/-- XOFF_IN asserted: a transmitter that does not obey it counts nothing (R455). -/
theorem slvXoffIn_yields (hon : s.on = true) :
    Yields (.slvXoffIn true) s { s.hush with slv := { s.slv with
      xoffPin := true, tx := { s.slv.tx with
        sent0 := if s.slv.fbTx = true ∧ (s.slv.tx.xoff = true ∨ s.slv.pinOn = true) then s.slv.tx.sent0 else 0
        sent2 := if s.slv.fbTx = true ∧ (s.slv.tx.xoff = true ∨ s.slv.pinOn = true) then s.slv.tx.sent2 else 0 } } } := by
  have hobeys : ({ s.slv with xoffPin := true } : Slv).obeys = true ↔ s.slv.fbTx = true ∧ (s.slv.tx.xoff = true ∨ s.slv.pinOn = true) := by
    simp [Slv.obeys]
  refine yields_of hon (show exec _ s = execSlvXoffIn true s from rfl) ?_
  by_cases h : ({ s.slv with xoffPin := true } : Slv).obeys = true
  · rw [if_pos (hobeys.mp h), if_pos (hobeys.mp h)]
    exact if_pos h
  · rw [if_neg fun hc => h (hobeys.mpr hc), if_neg fun hc => h (hobeys.mpr hc)]
    exact if_neg h

theorem undefinedPacket_yields (hon : s.on = true) (hup : s.slv.l0 = true) (t len : Nat) :
    Yields (.undefinedPacket t len) s (s.hush.note ⟨1, 0x35, t % 256, none⟩) :=
  yields_when hon (show exec _ s = execUndefinedPacket t len s from rfl) hup rfl

end

/-- Settles O51. That a message of the exchange with step 0 leaves the link as it is is the model's choice (log entry 92). -/
theorem selvedgeLinkAndPairing : Obligations.SelvedgeLinkAndPairing := by
  unfold Obligations.SelvedgeLinkAndPairing
  refine ⟨fun s v hon hv => ?_, fun s v hon hv => ?_⟩ <;> subst hv
  · refine ⟨fun src w hr hm => ⟨fun hen hw hp hl => ?_, fun hen hw hp hh hseals => ?_⟩, fun hen hheld hrun hp hl => ⟨fun hdue => ?_, fun rate width hdet hrate hmin hmax => ?_⟩,
      fun hup => ?_, fun hrec hheld hintime => ?_, fun hp hdue hseals hmir hrgns => ?_, fun n x hp hdue hseals hmir hrgns hsrc hm hd hdelay hsent hparked => ?_,
      fun lane bad hlane hdue hbad => ?_⟩
    · exact slvEn_yields hon hr hm (slvCtl_starts (s := s.hush) hen hw hp hl)
    · exact slvEn_yields hon hr hm (slvCtl_ends (s := s.hush) hen hw hp hh hseals)
    · exact slvReceiverDetect_yields hon (slvTrains_iff.mpr ⟨hen, hheld, hrun, hp⟩) hl hdue
    · exact slvTrainingStep3_yields hon (slvTrains_iff.mpr ⟨hen, hheld, hrun, hp⟩) hdet hl hrate hmin hmax
    · have h := slvRecovery_yields hon
      rwa [slvLeaveL0_up (s := s.hush) hup] at h
    · exact slvL0Regained_yields hon hrec hheld hintime
    · have h := pairHoldTimeout_yields hon hp hdue
      rwa [goSolo_eq (s := s.hush) rfl hseals (l := []) (by
        rw [show s.hush.slv.rgns = [] from hrgns, show s.hush.mirrorRegions = [] from hmir]; rfl)] at h
    · exact pairHoldTimeout_source hon hp hdue hseals hmir hrgns hsrc hm hd hdelay hsent hparked
    · subst hbad
      refine ⟨fun hl => ?_, fun w hw hmin hup => ?_, fun hnone hup => ?_⟩
      · exact slvLaneRetire_yields hon hlane hdue (retireSlvLane_down (s := s.hush) hl)
      · refine slvLaneRetire_yields hon hlane hdue ((retireSlvLane_narrows (s := s.hush) hw hmin hup).trans ?_)
        rw [slvLeaveL0_up (s := laneLost s.hush lane) hup]
        rfl
      · have hheld : (laneLost s.hush lane).slvHeldDown = true := slvHeldDown_iff.mpr hnone
        exact ⟨_, slvLaneRetire_yields hon hlane hdue ((retireSlvLane_holds hheld).trans (slvLeaveL0_up hup)), hheld, rfl⟩
  · refine ⟨fun p id hup hid => ⟨fun hen hset hpset hid0 hpid hrev hdiff => ?_, fun c hc => ?_⟩, fun href hup hdue hroom hfirst => ?_,
      fun p hup hide hp hok => ⟨fun n => ?_, ?_, fun n hn hfollow => ?_, fun n hn hlead => ?_⟩, fun x hup hide hfollow hp hoff hmir hrgns => ?_,
      fun hide h w => ?_, fun hup => ?_, ?_, fun t len hup => ?_⟩
    · exact hello_pairs hon hup (helloFails_none hid hen hset hpset hid0 hpid hrev hdiff)
    · refine hello_refused hon hup ?_
      obtain ⟨rfl, hen, hset, hpset, hpair⟩ | ⟨rfl, hen⟩ | ⟨rfl, hen, hset⟩ | ⟨rfl, hen, hsame, hpset, hid0, hpid, hrev⟩ := hc
      · exact helloFails_pair hid hen hset hpset hpair
      · exact helloFails_off hen
      · exact helloFails_set hen hset
      · exact helloFails_same hid hen hsame hpset hid0 hpid hrev
    · exact helloRetry_completes hon href hup hdue hroom hfirst
    · exact slvSpdm_yields hon hup hide hp hok rfl
    · exact slvSpdm_yields hon hup hide hp hok rfl
    · exact slvSpdm_yields hon hup hide hp hok ((if_neg hn).trans (if_pos hfollow))
    · exact slvSpdm_lead hon hup hide hp hok hn hlead
    · exact session_completes hon hup hide hfollow hp hoff hmir hrgns
    · exact health_yields hon hide h w
    · exact fallback_yields hon hup
    · exact slvXoffIn_yields hon
    · exact undefinedPacket_yields hon hup t len

end Sys2Proof.Proofs.SelvedgeLink
end

