-- ==== Sys2Proof/Proofs/MirrorSides.lean ====
section
/-! PROOF. Who holds a mirrored region (R440, R461, R463, R464, R467 to R469), and obligation O53. -/
namespace Sys2Proof.Proofs.MirrorSides
open Sys2Proof Sys2Proof.Machine Sys2Proof.Laws Sys2Proof.Laws.Partner Sys2Proof.Proofs

section
variable {s u : State} {n q src : Nat} {x : SlvRgn} {a : Active} {es : List RmapEntry}

/-! ### RMAP -/

/-- A source region is no MIRROR window. -/
theorem isMirror_of_source {r : Region} (h : r.isSource = true) : r.isMirror = false := by
  simp only [Region.isSource, Bool.and_eq_true, decide_eq_true_eq] at h
  simp [Region.isMirror, h.1.2]

/-- The entry of the partner's RMAP that a source region's window answers to (R440). -/
theorem matched_source {r : Region} (h : r.isSource = true) :
    s.matched n r = true ↔ ∃ e ∈ s.slv.rmap, e.index = r.peer ∧ e.window = true ∧ e.peer = n ∧ e.size = r.size := by
  simp [State.matched, isMirror_of_source h, and_assoc]

/-- RMAP of a pair with one mirrored region: the region is judged by it. -/
theorem rmap_yields (hon : s.on = true) (hp : s.slv.pair = .paired) (hseals : s.rng.seals = []) (hmir : s.mirrorRegions = [n])
    (h : State.judgeMirror { s.hush with slv := { s.slv with rmap := es } } n = u) (hu : u.rng = s.rng) : Yields (.rmap es) s u := by
  refine yields_of hon (show exec _ s = execRmap es s from rfl) ((if_pos hp).trans ?_)
  rw [show s.hush.mirrorRegions = [n] from hmir, List.foldl_cons, List.foldl_nil]
  exact (congrArg State.checkSeals h).trans (checkSeals_nil (by rw [hu, hseals]))

/-- A source without a divergence starts its copy once its window matches (R464). -/
theorem judgeMirror_copies (hsrc : (s.region n).isSource = true) (hmatch : s.matched n (s.region n) = true) (hx : s.slvRgn n = x) (hm : x.mst = 5) (hheld : x.held = false)
    (hd : x.div = 0) : s.judgeMirror n = s.modSlv n fun _ => { x with mst := 1, copyNext := some 0, set := [], rdone := false } := by
  unfold State.judgeMirror State.startMirror
  dsimp only
  rw [if_pos hsrc, if_neg (c := (! s.matched n (s.region n)) = true) (by simp [hmatch]), hx, if_pos (by simp [hm]), if_neg (by simp [hheld]), if_pos (by simp [hd])]
  exact modSlv_eq hx

/-- A source whose window does not match is unmatched, with a notice (R440). -/
theorem judgeMirror_unmatched (hsrc : (s.region n).isSource = true) (hmatch : s.matched n (s.region n) = false) (hx : s.slvRgn n = x) (hm : x.mst ≠ 5)
    (hseals : s.rng.seals = []) : s.judgeMirror n = (s.modSlv n fun _ => { x with mst := 5 }).note ⟨1, 0x33, n, none⟩ := by
  unfold State.judgeMirror State.unmatchedRegion
  dsimp only
  rw [if_pos hsrc, if_pos (by simp [hmatch]), if_neg (c := (s.slvRgn n).mst = 5) (by rw [hx]; exact hm), lose_nil hseals, if_pos rfl, modSlv_eq hx]

/-! ### TAKEN, RETURN, PF_NOTICE -/

/-- TAKEN holds a source region back (R468). -/
theorem taken_yields (hon : s.on = true) (hp : s.slv.pair = .paired) (hsrc : (s.region n).isSource = true) (hx : s.slvRgn n = x) (hheld : x.held = false)
    (hseals : s.rng.seals = []) :
    Yields (.taken n) s ((s.hush.modSlv n fun _ => { x with held := true, mst := 5, copyNext := none, set := [] }).note ⟨1, 0x30, n, none⟩) := by
  have hguard : (s.hush.slv.pair = .paired && (s.hush.region n).isSource && ! (s.hush.slvRgn n).held) = true := by
    rw [hush_slvRgn, hx]
    simp [hp, hsrc, hheld]
  refine yields_of hon (show exec _ s = execTaken n s from rfl) ((if_pos hguard).trans ?_)
  rw [lose_nil (s := s.hush) hseals, modSlv_eq (s := s.hush) hx]
  exact checkSeals_nil (by rw [note_rng]; exact hseals)

/-- RETURN lets the pages of a held source region come back (R469). -/
theorem returnPkt_yields (hon : s.on = true) (hp : s.slv.pair = .paired) (hsrc : (s.region n).isSource = true) (hx : s.slvRgn n = x) (hheld : x.held = true) :
    Yields (.returnPkt n) s (s.hush.modSlv n fun _ => { x with mst := 7, fresh := true }) := by
  have hguard : (s.hush.slv.pair = .paired && (s.hush.region n).isSource && (s.hush.slvRgn n).held) = true := by
    rw [hush_slvRgn, hx]
    simp [hp, hsrc, hheld]
  exact yields_of hon (show exec _ s = execReturnPkt n s from rfl) ((if_pos hguard).trans (modSlv_eq (s := s.hush) hx))

/-- A PF_NOTICE parts a pair (R461, R470). -/
theorem pfNotice_yields (hon : s.on = true) (hp : s.slv.pair = .paired ∨ s.slv.pair = .hold) (hrgns : s.slv.rgns = []) (hmir : s.mirrorRegions = []) (hseals : s.rng.seals = []) :
    Yields .pfNotice s { s.hush with slv := { s.slv with pair := .solo, delay := [], sent := [], parked := [], taken := [], pagesOut := [], reading := [] } } := by
  refine yields_of hon (show exec _ s = execPfNotice s from rfl) ((if_pos (by rcases hp with h | h <;> simp [h])).trans ?_)
  have hnone : ((s.hush.slv.rgns.map fun e => e.1) ++ s.hush.mirrorRegions).eraseDups = [] := by
    rw [show s.hush.slv.rgns = [] from hrgns, show s.hush.mirrorRegions = [] from hmir]; rfl
  unfold State.diverge
  dsimp only
  rw [hnone, List.foldl_nil, show s.hush.rng.seals.map _ = s.hush.rng.seals by rw [show s.hush.rng.seals = [] from hseals]; rfl]
  exact checkSeals_nil hseals

/-! ### SLV_RETURN -/

/-- What a return needs (R469). -/
def CanReturn (s : State) (n : Nat) : Prop :=
  (s.slvRgn n).mst = 6 ∧ s.slv.pair = .paired ∧ (s.region n).anyWrite = false
    ∧ ∃ e ∈ s.slv.rmap, e.index = (s.region n).peer ∧ e.window = false ∧ e.size = (s.region n).size

/-- Word 0 of a RETURN packet (R453). -/
theorem return_word : pktWord0 0x09 2 0 = 0x209 := by decide

theorem slvReturn_go (h : CanReturn s n) (hx : s.slvRgn n = x) :
    s.slvReturn n = (s.modSlv n fun _ => { x with mst := 7, copyNext := some 0, set := [], rdone := false }).slvPush 0 [0x209, atBit (s.region n).peer 0] := by
  obtain ⟨hm, hp, hw, hmatch⟩ := h
  refine (if_pos ?_).trans ?_
  · simpa [hm, hp, hw, and_assoc] using hmatch
  · rw [modSlv_eq hx, ← return_word]; rfl

theorem slvReturn_denied (h : (s.slvRgn n).mst ≠ 6 ∨ s.slv.pair ≠ .paired ∨ (s.region n).anyWrite = true) : s.slvReturn n = s.note ⟨1, 0x3A, n, none⟩ :=
  if_neg (by
    simp only [Bool.and_eq_true, decide_eq_true_eq, Bool.not_eq_true']
    rintro ⟨⟨⟨hm, hp⟩, hw⟩, -⟩
    simp [hm, hp, hw] at h)

theorem slvReturnGo_yields (hon : s.on = true) (hr : s.reaches src = true) (hm : s.isMgmt src = true) (hn : n < 4096) (h : s.hush.slvReturn n = u) :
    Yields (.slvReturnGo src n) s u :=
  yields_when hon (show exec _ s = execSlvReturnGo src n s from rfl) (decide_eq_true hn) ((globalWrite_mgmt (s := s.hush) _ _ hr hm).trans h)

/-! ### TAKEOVER -/

/-- The pair is apart. -/
def Apart (s : State) : Prop := s.slv.pair = .solo ∨ s.slv.pair = .off

theorem apart_iff : (decide (s.slv.pair = .solo) || decide (s.slv.pair = .off)) = true ↔ Apart s := by
  simp [Apart]

theorem not_apart (h : s.slv.pair ≠ .solo ∧ s.slv.pair ≠ .off) : ¬ Apart s := not_or.mpr h

/-- The windows that a TAKEOVER with ALL takes. -/
def taking (s : State) : List Nat := (s.regions.filter fun e => s.takes e.1).map Prod.fst

/-- What TAKEOVER makes of the device (R429, R467). -/
def takeover (s : State) (q : Nat) (a : Active) : State :=
  let n := dRegion a.words
  let apart := s.slv.pair = .solo || s.slv.pair = .off
  if dAll a.words then
    if ! apart || (taking s).isEmpty then s.endDescriptor q 0x0E id
    else ((taking s).foldl (fun (s : State) n => s.takeWindow n) s).endDescriptor q 0 fun a => { a with result := atBit (taking s).length 0 }
  else if ! (s.region n).active then s.endDescriptor q 0x0C id
  else if ! (s.region n).isMirror then s.endDescriptor q 0x04 id
  else if ! apart || ! s.takes n then s.endDescriptor q 0x0E id
  else (s.takeWindow n).endDescriptor q 0 fun a => { a with result := 1 }

theorem takeover_yields (hon : s.on = true) (hwork : s.working q 0x70 a) (h : takeover s.hush q a = u) : Yields (.takeover q) s u := by
  obtain ⟨hact, hop, hst, hheld, hturn⟩ := hwork
  refine yields_of hon (show exec _ s = execTakeover q s from rfl) ?_
  unfold State.workTakeover
  rw [runs_of (sub := none) hact hop hst hheld hturn rfl, when_true, hush_ring, hact]
  exact h

section
variable (hall : dAll a.words = true)
include hall

theorem takeover_none (h : ¬ Apart s ∨ taking s = []) : takeover s q a = s.endDescriptor q 0x0E id := by
  refine (if_pos hall).trans (if_pos ?_)
  rw [← apart_iff, ← List.isEmpty_iff] at h
  simpa [Bool.or_eq_true, ← Bool.not_eq_true] using h

theorem takeover_every (hap : Apart s) (hne : taking s ≠ []) :
    takeover s q a = ((taking s).foldl (fun (s : State) n => s.takeWindow n) s).endDescriptor q 0 fun a => { a with result := atBit (taking s).length 0 } := by
  refine (if_pos hall).trans (if_neg ?_)
  simp [apart_iff.mpr hap, hne]

end

section
variable (hall : dAll a.words = false) (hn : dRegion a.words = n)
include hall hn

theorem takeover_inactive (h : (s.region n).active = false) : takeover s q a = s.endDescriptor q 0x0C id := by
  subst hn
  exact (if_neg (by simp [hall])).trans (if_pos (by simp [h]))

theorem takeover_other (hact : (s.region n).active = true) (h : (s.region n).isMirror = false) : takeover s q a = s.endDescriptor q 0x04 id := by
  subst hn
  exact (if_neg (by simp [hall])).trans ((if_neg (by simp [hact])).trans (if_pos (by simp [h])))

/-- A TAKEOVER of a MIRROR window by its index. -/
theorem takeover_window (h : (s.region n).isMirror = true) : takeover s q a =
    if ! (decide (s.slv.pair = .solo) || decide (s.slv.pair = .off)) || ! s.takes n then s.endDescriptor q 0x0E id
    else (s.takeWindow n).endDescriptor q 0 fun a => { a with result := 1 } := by
  subst hn
  have hact : (s.region (dRegion a.words)).active = true := by
    simp only [Region.isMirror, Bool.and_eq_true] at h
    exact h.1
  exact (if_neg (by simp [hall])).trans ((if_neg (by simp [hact])).trans (if_neg (by simp [h])))

theorem takeover_refused (hmir : (s.region n).isMirror = true) (hx : s.slvRgn n = x) (h : ¬ Apart s ∨ x.mst ≠ 4 ∨ x.complete = false) :
    takeover s q a = s.endDescriptor q 0x0E id := by
  subst hx
  refine (takeover_window hall hn hmir).trans (if_pos ?_)
  rw [← apart_iff] at h
  simpa [State.takes, hmir, Bool.or_eq_true, ← Bool.not_eq_true, imp_iff_not_or] using h

theorem takeover_one (hmir : (s.region n).isMirror = true) (hx : s.slvRgn n = x) (hap : Apart s) (hm : x.mst = 4) (hc : x.complete = true) :
    takeover s q a = (s.takeWindow n).endDescriptor q 0 fun a => { a with result := 1 } := by
  subst hx
  exact (takeover_window hall hn hmir).trans (if_neg (by simp [apart_iff.mpr hap, State.takes, hmir, hm, hc]))

end

/-- A window taken over is writable; a write to its attributes in the same cycle is lost (R44, R467). -/
theorem takeWindow_eq {r : Region} (hr : s.region n = r) (hx : s.slvRgn n = x) : s.takeWindow n
    = let t := ((s.modRegion n fun _ => { r with attr := putFld r.attr 12 3 0, took := some s.clock }).modSlv n fun _ => { x with mst := 6 }).note ⟨1, 0x31, n, none⟩
      if r.wrote = some s.clock then t.writeLost n else t := by
  unfold State.takeWindow
  dsimp only
  rw [modRegion_eq hr, modSlv_eq (s := s.modRegion n _) (x := x) hx, hr]

/-! ### The divergence limit -/

/-- A region that holds a divergence holds a full one. -/
def fullDivergence (x : SlvRgn) : SlvRgn := if x.div = 0 then x else { x with div := 2 ^ 64 - 1 }

/-- A DELTA space held beyond DIV_SEGS makes every resync a full one (R463). -/
theorem slvDivFull_completes (hon : s.on = true) (hfull : s.slv.divSegs < (s.beam.segs.keysWhere fun g _ => s.divHolds g).length) :
    Completes .slvDivFull s fun u =>
      u.flt = s.flt.enter (Note.words ⟨1, 0x39, 0, none⟩)
      ∧ (s.slv.rgns.wf {} = true → ∀ m, (u.slvRgn m) = (if (s.slvRgn m).div = 0 then s.slvRgn m else { s.slvRgn m with div := 2 ^ 64 - 1 }))
      ∧ u = { s with out := u.out, pmc := u.pmc, tap := u.tap, heads := u.heads, flt := u.flt, slv := { s.slv with rgns := u.slv.rgns } } := by
  obtain ⟨t, p, hnote⟩ := note_warn { s.hush with slv := { s.slv with rgns := s.slv.rgns.mapVals {} fun _ => fullDivergence } }
    (n := ⟨1, 0x39, 0, none⟩) (Nat.lt_succ_self 1)
  exact ⟨_, yields_when hon (show exec _ s = execSlvDivFull s from rfl) (decide_eq_true hfull) hnote, rfl,
    fun hwf m => get_mapVals_wf ({} : SlvRgn) (fun _ => fullDivergence) m rfl s.slv.rgns 0 hwf, rfl⟩

end

/-- Settles O53. That a source held back by TAKEN stands in MSTATE 5 is the model's reading (log entry 87). -/
theorem mirrorsChangeSides : Obligations.MirrorsChangeSides := by
  unfold Obligations.MirrorsChangeSides
  intro s n r x hon hr hx hseals
  subst hr
  refine ⟨fun hp hmir hsrc es => ⟨fun hmatch hm hheld hd => ?_, fun hmatch hm => ?_⟩, fun hp hsrc hheld => ?_, fun hp hsrc hheld => ?_,
    fun src hreach hmgmt hn => ⟨fun hm hp hw hmatch => ?_, fun h => ?_⟩, fun hp hrgns hmir => ?_,
    fun q a hwork => ⟨fun hall ws hws => ⟨fun h => ?_, fun hap hne => ?_⟩, fun hall hn => ⟨fun h => ?_, fun hact h => ?_, fun hmir h => ?_, fun hmir hap hm hc t ht => ?_⟩⟩,
    fun hfull => ?_⟩
  · exact rmap_yields hon hp hseals hmir (judgeMirror_copies (s := { s.hush with slv := { s.slv with rmap := es } }) hsrc ((matched_source hsrc).mpr hmatch) hx hm hheld hd) rfl
  · have hnone : State.matched { s.hush with slv := { s.slv with rmap := es } } n (s.region n) = false := by
      rw [← Bool.not_eq_true, matched_source hsrc]
      rintro ⟨e, he, hmatches⟩
      exact hmatch e he hmatches
    exact rmap_yields hon hp hseals hmir (judgeMirror_unmatched (s := { s.hush with slv := { s.slv with rmap := es } }) hsrc hnone hx hm hseals) (note_rng _ _)
  · exact taken_yields hon hp hsrc hx hheld hseals
  · exact returnPkt_yields hon hp hsrc hx hheld
  · exact slvReturnGo_yields hon hreach hmgmt hn (slvReturn_go (s := s.hush) ⟨(congrArg SlvRgn.mst hx).trans hm, hp, hw, hmatch⟩ hx)
  · exact slvReturnGo_yields hon hreach hmgmt hn (slvReturn_denied (s := s.hush) (by rw [hush_slvRgn, hx]; exact h))
  · exact pfNotice_yields hon hp hrgns hmir hseals
  · subst hws
    exact takeover_yields hon hwork (takeover_none (s := s.hush) hall (h.imp_left not_apart))
  · subst hws
    exact takeover_yields hon hwork (takeover_every (s := s.hush) hall hap hne)
  · exact takeover_yields hon hwork (takeover_inactive (s := s.hush) hall hn h)
  · exact takeover_yields hon hwork (takeover_other (s := s.hush) hall hn hact h)
  · exact takeover_yields hon hwork (takeover_refused (s := s.hush) hall hn hmir hx (h.imp_left not_apart))
  · refine takeover_yields hon hwork ((takeover_one (s := s.hush) hall hn hmir hx hap hm hc).trans ?_)
    rw [takeWindow_eq (s := s.hush) rfl hx, ht]
    rfl
  · exact slvDivFull_completes hon hfull

end Sys2Proof.Proofs.MirrorSides
end

