-- ==== Sys2Proof/Proofs/Flits.lean ====
section
/-! PROOF. Selvedge flits received, built and sent again (R445 to R449, R452, R454), and obligation O54. -/
namespace Sys2Proof.Proofs.Flits
open Sys2Proof Sys2Proof.Machine Sys2Proof.Laws Sys2Proof.Laws.Partner Sys2Proof.Proofs Sys2Proof.Proofs.SelvedgeLink

section
variable {s t u : State} {h : FlitHeader} {ws : List Word} {x : SlvRx}

/-! ### The receiver -/

/-- A receiver without flow-control fallback that asserts no XOFF keeps asserting none (R455). -/
theorem slvThreshold_quiet (hfb : s.slv.fbRx = false) (hx : s.slv.rx.xoffOut = false) : s.slvThreshold = s := by
  have hrx : ∀ x : SlvRx, x.xoffOut = false → (if s.slv.fbRx then x.xoff s.slv.headroom else { x with xoffOut := false }) = x := fun x hx => by
    rw [if_neg (by simp [hfb]), ← hx]
  exact (modRx_eq rfl).trans (congrArg (fun y => s.modRx fun _ => y) (hrx _ hx))

/-- A flit of class cls whose SEQ is at distance d from the next one expected is kept, and delivered with those that follow it (R447). -/
def flitKept (t : State) (h : FlitHeader) (ws : List Word) : State :=
  if 2048 ≤ (h.seq + 4096 - t.slv.rx.next) % 4096 || (t.slv.rx.buf.any fun b => b.1 = h.seq % 4096) then t
  else
    let s2 := t.modRx fun x => ({ x with buf := x.buf ++ [(h.seq % 4096, h.cls, ws.take (min 26 h.words))] } : SlvRx).know h.seq
    (State.deliver s2.slv.rx.buf.length s2).slvThreshold

section
variable (hon : s.on = true) (hup : s.slv.l0 = true) (hcls : h.cls < 4)
include hon hup hcls

theorem dataFlit_badCrc (m : Bool) : Yields (.dataFlit h ws false m) s (s.hush.count (evSlv 3) 1) :=
  yields_when hon (show exec _ s = execDataFlit h ws false m s from rfl) (Bool.and_eq_true_iff.mpr ⟨hup, decide_eq_true hcls⟩) rfl

theorem dataFlit_badMac (hide : s.slv.ide = true) : Yields (.dataFlit h ws true false) s { s.hush with slv := { s.slv with
    l0 := false, recovering := false, ide := false, detected := false, pair := if s.slv.pair = .paired then .hold else s.slv.pair
    holdAt := if s.slv.pair = .paired then s.clock else s.slv.holdAt } } := by
  refine yields_when hon (show exec _ s = execDataFlit h ws true false s from rfl) (Bool.and_eq_true_iff.mpr ⟨hup, decide_eq_true hcls⟩) ?_
  refine (if_neg (by decide)).trans ((if_pos (by simpa using hide)).trans ?_)
  dsimp only
  rw [slvLeaveL0_up (s := s.hush) hup]
  rfl

theorem dataFlit_good (hu : flitKept (s.hush.takeHeader h) h ws = u) : Yields (.dataFlit h ws true true) s u :=
  yields_when hon (show exec _ s = execDataFlit h ws true true s from rfl) (Bool.and_eq_true_iff.mpr ⟨hup, decide_eq_true hcls⟩)
    ((if_neg (by decide)).trans ((if_neg (by simp)).trans hu))

end

/-- The stream of a class holds less than a packet: the parser waits. -/
theorem parse_waits {k c : Nat} {w : Word} {rest : List Word} (hstream : s.slv.rx.stream.get [] c = w :: rest) (hshort : rest.length + 1 < pktLen w) :
    State.parse k c s = s := by
  cases k with
  | zero => rfl
  | succ k =>
    unfold State.parse
    dsimp only
    split
    case h_1 => rfl
    case h_2 v vs hv =>
      obtain ⟨rfl, rfl⟩ := List.cons.inj (hv.symm.trans hstream)
      rw [hstream]
      exact if_pos hshort

section
variable (hx : t.slv.rx = x)
include hx

/-- A flit sent again, or long past, brings its header alone. -/
theorem flitKept_old (hold : 2048 ≤ (h.seq + 4096 - x.next) % 4096) : flitKept t h ws = t := by
  subst hx
  exact if_pos (by rw [decide_eq_true hold]; rfl)

/-- What a new flit makes of the receiver, before delivery. -/
theorem flitKept_new {d : Nat} (hd : d = (h.seq + 4096 - x.next) % 4096) (hlt : d < 2048) (hseq : h.seq < 4096) (hbuf : x.buf = []) :
    flitKept t h ws = (State.deliver 1 (t.modRx fun _ => { x with buf := [(h.seq, h.cls, ws.take (min 26 h.words))], ahead := max x.ahead (d + 1) })).slvThreshold := by
  have hknow : ({ x with buf := x.buf ++ [(h.seq % 4096, h.cls, ws.take (min 26 h.words))] } : SlvRx).know h.seq
      = { x with buf := [(h.seq, h.cls, ws.take (min 26 h.words))], ahead := max x.ahead (d + 1) } := by
    unfold SlvRx.know
    dsimp only
    rw [← hd, if_pos hlt, hbuf, Nat.mod_eq_of_lt hseq]
    rfl
  refine (if_neg ?_).trans ?_
  · rw [hx, hbuf, ← hd]
    simpa using hlt
  · dsimp only
    rw [modRx_eq hx, hknow]
    rfl

/-- A flit ahead of the next one expected is kept (R447). -/
theorem flitKept_early {d : Nat} (hd : d = (h.seq + 4096 - x.next) % 4096) (hpos : 0 < d) (hlt : d < 2048) (hseq : h.seq < 4096) (hbuf : x.buf = [])
    (hfb : t.slv.fbRx = false) (hxoff : x.xoffOut = false) :
    flitKept t h ws = t.modRx fun _ => { x with buf := [(h.seq, h.cls, ws.take (min 26 h.words))], ahead := max x.ahead (d + 1) } := by
  have hne : h.seq ≠ x.next := by omega
  rw [flitKept_new hx hd hlt hseq hbuf]
  have hstays : State.deliver 1 (t.modRx fun _ => { x with buf := [(h.seq, h.cls, ws.take (min 26 h.words))], ahead := max x.ahead (d + 1) })
      = t.modRx fun _ => { x with buf := [(h.seq, h.cls, ws.take (min 26 h.words))], ahead := max x.ahead (d + 1) } := by
    unfold State.deliver
    split
    case h_1 => rfl
    case h_2 b hb =>
      have hsome := List.find?_some hb
      have hmem := List.mem_of_find?_eq_some hb
      rw [List.mem_singleton.mp hmem] at hsome
      exact absurd (of_decide_eq_true hsome) hne
  rw [hstays]
  exact slvThreshold_quiet hfb hxoff

/-- The next flit expected, which begins a packet that it does not end, is delivered to its class's stream (R447). -/
theorem flitKept_next (hd : (h.seq + 4096 - x.next) % 4096 = 0) (hseq : h.seq < 4096) (hnext : x.next < 4096) (hbuf : x.buf = []) (hstream : x.stream.get [] h.cls = [])
    (hfb : t.slv.fbRx = false) (hxoff : x.xoffOut = false) {w : Word} {rest : List Word} (hws : ws.take (min 26 h.words) = w :: rest) (hshort : rest.length + 1 < pktLen w) :
    flitKept t h ws = t.modRx fun _ => { x with
      next := (x.next + 1) % 4096, ahead := max x.ahead 1 - 1, buf := []
      stream := x.stream.set [] h.cls (w :: rest), left := x.left.set [] h.cls (x.left.get [] h.cls ++ [rest.length + 1]) } := by
  have heq : h.seq = x.next := by omega
  rw [flitKept_new hx hd.symm (by decide) hseq hbuf, hws]
  have hdelivers : State.deliver 1 (t.modRx fun _ => { x with buf := [(h.seq, h.cls, w :: rest)], ahead := max x.ahead 1 })
      = t.modRx fun _ => { x with
        next := (x.next + 1) % 4096, ahead := max x.ahead 1 - 1, buf := []
        stream := x.stream.set [] h.cls (w :: rest), left := x.left.set [] h.cls (x.left.get [] h.cls ++ [rest.length + 1]) } := by
    unfold State.deliver
    split
    case h_1 hnone => exact absurd hnone (by simp [State.modRx, heq])
    case h_2 b hb =>
      obtain rfl : b = (h.seq, h.cls, w :: rest) := List.mem_singleton.mp (List.mem_of_find?_eq_some hb)
      have hone : State.modRx (t.modRx fun _ => { x with buf := [(h.seq, h.cls, w :: rest)], ahead := max x.ahead 1 }) (fun x => { x with
            next := (x.next + 1) % 4096, ahead := x.ahead - 1, buf := x.buf.filter fun y => y.1 ≠ h.seq
            stream := x.stream.set [] h.cls (x.stream.get [] h.cls ++ w :: rest), left := x.left.set [] h.cls (x.left.get [] h.cls ++ [(w :: rest).length]) })
          = t.modRx fun _ => { x with
            next := (x.next + 1) % 4096, ahead := max x.ahead 1 - 1, buf := []
            stream := x.stream.set [] h.cls (w :: rest), left := x.left.set [] h.cls (x.left.get [] h.cls ++ [rest.length + 1]) } := by
        unfold State.modRx
        dsimp only
        rw [hstream]
        simp
      dsimp only
      rw [hone]
      exact parse_waits (Tbl.get_set_self _ _ _ (by simp) _) hshort
  rw [hdelivers]
  exact slvThreshold_quiet hfb hxoff

end

/-- The counters of credits that a header brings, by class (R454). -/
def headerCredits (h : FlitHeader) : List (Nat × Nat) := [(0, h.cc0), (1, h.cc1), (2, h.cc2), (3, h.cc3), (4, h.ccs)]

/-- A header without a NAK brings acknowledgement, XOFF and credits (R448, R454, R455). -/
theorem takeHeader_eq (hnv : h.nv = false) (hcredits : s.slv.tx.credits.wf 0 = true) (hseen : s.slv.tx.seen.wf 0 = true) :
    ∃ C S a b, s.takeHeader h = { s with slv := { s.slv with tx := { s.slv.tx with
        replay := s.slv.tx.replay.filter fun f => ! decide ((h.ack + 4096 - f.seq) % 4096 < 2048)
        xoff := h.xoff, credits := C, seen := S, sent0 := a, sent2 := b } } }
      ∧ ∀ c y, (c, y) ∈ headerCredits h → Tbl.get 0 C c = s.slv.tx.credits.get 0 c + (y + 4096 - s.slv.tx.seen.get 0 c) % 4096 ∧ Tbl.get 0 S c = y % 4096 := by
  obtain ⟨C, S, hfold, hget, -⟩ := credits (headerCredits h) s.slv.tx (show [0, 1, 2, 3, 4].Nodup by decide) hcredits hseen
  have hnaks : nakSeqs h = [] := if_neg (by simp [hnv])
  have hkeep : ∀ l : List SlvFlit, l.map (fun f => if ([] : List Nat).contains f.seq && decide (f.sentAt + 2400 ≤ s.clock) then { f with ask := true } else f) = l := fun l => by
    simp
  refine ⟨C, S, if h.xoff then s.slv.tx.sent0 else 0, if h.xoff then s.slv.tx.sent2 else 0, ?_, hget⟩
  unfold headerCredits at hfold
  unfold State.takeHeader
  dsimp only
  rw [if_neg (by simp [hnv]), hnaks]
  refine (modTx_eq rfl).trans ?_
  rw [hfold]
  dsimp only
  rw [hkeep]
  rfl

/-- What is known of the SEQs sent goes into the receiver's account alone. -/
theorem know_eq (x : SlvRx) (seq : Nat) : ∃ a, x.know seq = { x with ahead := a } := by
  unfold SlvRx.know
  dsimp only
  split
  · exact ⟨_, rfl⟩
  · exact ⟨_, rfl⟩

theorem nullFlit_badCrc (hon : s.on = true) (hup : s.slv.l0 = true) : Yields (.nullFlit h false) s (s.hush.count (evSlv 3) 1) :=
  yields_when hon (show exec _ s = execNullFlit h false s from rfl) hup rfl

theorem nullFlit_completes (hon : s.on = true) (hup : s.slv.l0 = true) (hnv : h.nv = false) (hfb : s.slv.fbRx = false) (hxoff : s.slv.rx.xoffOut = false)
    (hcredits : s.slv.tx.credits.wf 0 = true) (hseen : s.slv.tx.seen.wf 0 = true) :
    Completes (.nullFlit h true) s fun u =>
      u.slv.tx.replay = s.slv.tx.replay.filter (fun f => ! decide ((h.ack + 4096 - f.seq) % 4096 < 2048)) ∧ u.slv.tx.xoff = h.xoff
      ∧ (∀ c x, (c, x) ∈ headerCredits h →
          u.slv.tx.credits.get 0 c = s.slv.tx.credits.get 0 c + (x + 4096 - s.slv.tx.seen.get 0 c) % 4096 ∧ u.slv.tx.seen.get 0 c = x % 4096)
      ∧ u = { s with out := [], slv := { s.slv with
        rx := { s.slv.rx with ahead := u.slv.rx.ahead }
        tx := { s.slv.tx with replay := u.slv.tx.replay, xoff := h.xoff, credits := u.slv.tx.credits, seen := u.slv.tx.seen, sent0 := u.slv.tx.sent0, sent2 := u.slv.tx.sent2 } } } := by
  obtain ⟨C, S, a, b, hheader, hget⟩ := takeHeader_eq (s := s.hush) hnv hcredits hseen
  obtain ⟨k, hk⟩ := know_eq s.slv.rx h.seq
  have hrun : Yields (.nullFlit h true) s { s.hush with slv := { s.slv with
      rx := { s.slv.rx with ahead := k }
      tx := { s.slv.tx with replay := s.slv.tx.replay.filter fun f => ! decide ((h.ack + 4096 - f.seq) % 4096 < 2048), xoff := h.xoff, credits := C, seen := S, sent0 := a, sent2 := b } } } := by
    refine yields_when hon (show exec _ s = execNullFlit h true s from rfl) hup ((if_neg (by decide)).trans ?_)
    rw [modRx_eq (header_rx _ _), show s.hush.slv.rx.know h.seq = _ from hk, hheader]
    exact slvThreshold_quiet hfb hxoff
  exact ⟨_, hrun, rfl, rfl, hget, rfl⟩

/-! ### The builder -/

/-- The device before FLIT_BUILD chooses a flit (R452): acknowledgements queued, waiting packets in their FIFOs, XOFF brought up to date. -/
def builderReady (s : State) : State := (s.modTx fun x => { x with builtAt := s.clock }).queueAcks.pushWaiting.slvThreshold

/-- What FLIT_BUILD sends. -/
def built (t : State) : State :=
  match t.slv.tx.replay.find? fun f => f.ask with
  | some f => t.resend f
  | none =>
    match t.nextClass with
    | some c => t.sendData c
    | none => t.emit (.flit (t.flitOut (t.headerNow ((t.slv.tx.seq + 4095) % 4096) 0 0) 1 []))

theorem flitBuild_yields (hon : s.on = true) (hup : s.slv.l0 = true) (hdue : s.slv.tx.builtAt + s.slv.flitTime ≤ s.clock) (ht : builderReady s.hush = t) :
    Yields .flitBuild s (built t) :=
  yields_when hon (show exec _ s = execFlitBuild s from rfl) hup (by
    dsimp only
    rw [show s.hush.elapse (s.hush.slv.tx.builtAt + s.hush.slv.flitTime) = s.hush from elapse_done hdue, ← ht]
    rfl)

theorem built_resend {f : SlvFlit} (hf : (t.slv.tx.replay.find? fun f => f.ask) = some f) : built t = t.resend f := by
  unfold built
  rw [hf]

theorem built_data {c : Nat} (hf : (t.slv.tx.replay.find? fun f => f.ask) = none) (hc : t.nextClass = some c) : built t = t.sendData c := by
  unfold built
  rw [hf, hc]

theorem built_null (hf : (t.slv.tx.replay.find? fun f => f.ask) = none) (hc : t.nextClass = none) :
    built t = t.emit (.flit (t.flitOut (t.headerNow ((t.slv.tx.seq + 4095) % 4096) 0 0) 1 [])) := by
  unfold built
  rw [hf, hc]

/-- A flit goes out again as it was first sent (R444, R448). -/
theorem resend_eq {f : SlvFlit} (hf : f.resent < 4) : ∃ m, t.resend f = { t with
    out := t.out ++ [.flit f.words], pmc := m
    slv := { t.slv with tx := { t.slv.tx with
      replay := t.slv.tx.replay.map fun x => if x.seq = f.seq then { x with ask := false, sentAt := t.clock, resent := x.resent + 1 } else x } } } :=
  ⟨_, if_neg (Nat.not_le.mpr hf)⟩

/-- The order of the classes (R452). -/
theorem nextClass_none (h0 : t.eligible 0 = false) (h1 : t.eligible 1 = false) (h2 : t.eligible 2 = false) (h3 : t.eligible 3 = false) : t.nextClass = none := by
  simp [State.nextClass, h0, h1, h2, h3]

theorem nextClass_first (h0 : t.eligible 0 = true) : t.nextClass = some 0 := if_pos h0

theorem nextClass_second (h0 : t.eligible 0 = false) (h2 : t.eligible 2 = true) : t.nextClass = some 2 := by
  simp [State.nextClass, h0, h2]

section
variable (h0 : t.eligible 0 = false) (h2 : t.eligible 2 = false)
include h0 h2

theorem nextClass_third (h1 : t.eligible 1 = true) (hturn : t.eligible 3 = true → t.slv.tx.turn % 8 ≠ 7) : t.nextClass = some 1 := by
  cases h3 : t.eligible 3 with
  | false => simp [State.nextClass, h0, h1, h2, h3]
  | true => simp [State.nextClass, h0, h1, h2, h3, hturn h3]

theorem nextClass_fourth (h3 : t.eligible 3 = true) (hturn : t.eligible 1 = true → t.slv.tx.turn % 8 = 7) : t.nextClass = some 3 := by
  cases h1 : t.eligible 1 with
  | false => simp [State.nextClass, h0, h1, h2, h3]
  | true => simp [State.nextClass, h0, h1, h2, h3, hturn h1]

end

/-- A DATA flit takes up to 26 words of its class's FIFO and enters the replay buffer (R446, R448). -/
theorem sendData_eq (t : State) (c : Nat) : ∃ m C a b n k,
    t.sendData c = { t with
      out := t.out ++ [.flit (t.flitOut (t.headerNow t.slv.tx.seq c ((t.slv.tx.fifo.get [] c).take 26).length) 0 (((t.slv.tx.fifo.get [] c).take 26).map Prod.fst))], pmc := m
      slv := { t.slv with tx := { t.slv.tx with
        fifo := t.slv.tx.fifo.set [] c ((t.slv.tx.fifo.get [] c).drop 26), seq := (t.slv.tx.seq + 1) % 4096
        replay := t.slv.tx.replay ++ [{ seq := t.slv.tx.seq, cls := c, sentAt := t.clock
                                        words := t.flitOut (t.headerNow t.slv.tx.seq c ((t.slv.tx.fifo.get [] c).take 26).length) 0 (((t.slv.tx.fifo.get [] c).take 26).map Prod.fst) }]
        credits := C, sent0 := a, sent2 := b, turn := n, nonce := k } } } :=
  ⟨_, _, _, _, _, _, rfl⟩

/-! ### Time-out -/

/-- 4 us after it was last sent a flit is asked for again (R449). -/
theorem retxTimeout_yields {f : SlvFlit} (hon : s.on = true) (hup : s.slv.l0 = true) (hf : (s.slv.tx.replay.find? fun g => g.seq = f.seq) = some f) (hdue : f.sentAt + 8000 ≤ s.clock) :
    Yields (.retxTimeout f.seq) s { s.hush with slv := { s.slv with tx := { s.slv.tx with
      replay := s.slv.tx.replay.map fun x => if x.seq = f.seq then { x with ask := true } else x } } } := by
  refine yields_of hon (show exec _ s = execRetxTimeout f.seq s from rfl) ?_
  dsimp only
  split
  case h_1 g hg =>
    obtain rfl : g = f := Option.some.inj (hg.symm.trans hf)
    refine (if_pos hup).trans ?_
    dsimp only
    rw [show s.hush.elapse (g.sentAt + 8000) = s.hush from elapse_done hdue]
    rfl
  case h_2 hnone => exact absurd (hf.symm.trans hnone) (by simp)

end

/-- Settles O54. That the SEQ of a NULL flit tells of every flit up to it is the model's reading (log entry 83). -/
theorem flitsCross : Obligations.FlitsCross := by
  unfold Obligations.FlitsCross
  intro s v hon hv hup
  subst hv
  refine ⟨fun h ws hcls => ⟨fun m => dataFlit_badCrc hon hup hcls m, fun hide => dataFlit_badMac hon hup hcls hide, fun d hd hseq hnext hfb hxoff => ⟨fun hold => ?_, fun hpos hlt hbuf => ?_,
      fun hzero hbuf hstream w rest hws hshort => ?_⟩⟩,
    fun h => ⟨nullFlit_badCrc hon hup, fun hnv hfb hxoff hcredits hseen => nullFlit_completes hon hup hnv hfb hxoff hcredits hseen⟩,
    fun t hdue ht => ⟨fun f hf hmany => ?_, fun f hf hfew => ?_, fun hf => ⟨fun h0 h1 h2 h3 => ?_, fun c ws hc hws => ?_⟩⟩,
    fun f hf hdue => retxTimeout_yields hon hup hf hdue⟩
  · exact dataFlit_good hon hup hcls (flitKept_old (header_rx s.hush h) (hd ▸ hold))
  · exact dataFlit_good hon hup hcls (flitKept_early (header_rx s.hush h) hd hpos hlt hseq hbuf ((header_fb s.hush h).trans hfb) hxoff)
  · exact dataFlit_good hon hup hcls
      (flitKept_next (header_rx s.hush h) (hd.symm.trans hzero) hseq hnext hbuf hstream ((header_fb s.hush h).trans hfb) hxoff hws hshort)
  · have hy := flitBuild_yields hon hup hdue ht
    rwa [built_resend hf, show t.resend f = t.slvLeaveL0 from if_pos hmany] at hy
  · obtain ⟨m, hm⟩ := resend_eq (t := t) hfew
    exact ⟨_, flitBuild_yields hon hup hdue ht, by rw [built_resend hf, hm], by rw [built_resend hf, hm], by rw [built_resend hf, hm]⟩
  · have hy := flitBuild_yields hon hup hdue ht
    rwa [built_null hf (nextClass_none h0 h1 h2 h3)] at hy
  · have hnext : t.nextClass = some c := by
      obtain ⟨rfl, h0⟩ | ⟨rfl, h0, h2⟩ | ⟨h0, h2, ⟨rfl, h1, hturn⟩ | ⟨rfl, h3, hturn⟩⟩ := hc
      · exact nextClass_first h0
      · exact nextClass_second h0 h2
      · exact nextClass_third h0 h2 h1 hturn
      · exact nextClass_fourth h0 h2 h3 hturn
    have hy := flitBuild_yields hon hup hdue ht
    obtain ⟨m, C, a, b, n, k, hsend⟩ := sendData_eq t c
    rw [built_data hf hnext, hsend] at hy
    subst hws
    exact ⟨_, hy, _, rfl, rfl, rfl, rfl, rfl, rfl⟩

end Sys2Proof.Proofs.Flits
end

