-- ==== Sys2Proof/Proofs/MirroredWrites.lean ====
section
/-! PROOF. Mirrored writes, their acknowledgement and resynchronisation (R457 to R460, R464 to R466, R470), and obligation O52. -/
namespace Sys2Proof.Proofs.MirroredWrites
open Sys2Proof Sys2Proof.Machine Sys2Proof.Laws Sys2Proof.Laws.Partner Sys2Proof.Proofs Sys2Proof.Proofs.SelvedgeLink

section
variable {s t u : State} {n pn count : Nat} {x : SlvRgn} {m : Mwr} {ms : List Mwr} {ws : List Word}

/-! ### The mirror state of a region -/

/-- A region in COPY, RESYNC or another state of a pair is listed. -/
theorem listed_of_mst (h : x.mst ≠ 0) : x ≠ {} := fun he => h (congrArg SlvRgn.mst he)

theorem slvRgn_modSlv {y : SlvRgn} (h : y.mst ≠ 0) : (s.modSlv n fun _ => y).slvRgn n = y := slvRgn_modSlv_self (f := fun _ => y) (listed_of_mst h)

theorem modSlv_congr {f g : SlvRgn → SlvRgn} (h : f (s.slvRgn n) = g (s.slvRgn n)) : s.modSlv n f = s.modSlv n g := by
  unfold State.modSlv
  rw [h]

theorem slvRgn_single (h : s.slv.rgns = [(n, x)]) : s.slvRgn n = x := by
  simp [State.slvRgn, h, Tbl.get]

/-- The table of one region's mirror state, changed. -/
theorem modSlv_single {y : SlvRgn} (h : s.slv.rgns = [(n, x)]) (hy : y.mst ≠ 0) : (s.modSlv n fun _ => y).slv.rgns = [(n, y)] := by
  show Tbl.set {} s.slv.rgns n y = _
  rw [h]
  simp [Tbl.set, Tbl.keep, listed_of_mst hy]

theorem resyncPage_new (hx : s.slvRgn n = x) (h : x.set.contains pn = false) : s.resyncPage n pn = s.modSlv n fun _ => { x with set := x.set ++ [pn] } :=
  (modSlv_eq hx).trans (by rw [if_neg (by simpa using h)])

theorem leaveSync_eq {seq : Nat} (hx : s.slvRgn n = x) (hm : x.mst = 3) (hseals : s.rng.seals = []) :
    s.leaveSync n seq = s.modSlv n fun _ => { x with mst := 2, div := if x.div = 0 then seq else x.div } := by
  unfold State.leaveSync
  dsimp only
  rw [hx, if_pos hm]
  exact (seals_same (s := s.modSlv n _) hseals).trans (modSlv_eq hx)

/-- A write that its region cannot send leaves the region in RESYNC with a GAP owed (R458). -/
theorem leftBehind_eq {seq : Nat} (hx : s.slvRgn n = x) (hm : x.mst = 3) (hset : x.set.contains pn = false) (hseals : s.rng.seals = []) :
    ∃ R, ((s.resyncPage n pn).leaveSync n seq).modSlv n (fun x => { x with gap := true }) = { s with slv := { s.slv with rgns := R } }
      ∧ Tbl.get {} R n = { x with set := x.set ++ [pn], mst := 2, div := if x.div = 0 then seq else x.div, gap := true } := by
  have hpage : (s.modSlv n fun _ => { x with set := x.set ++ [pn] }).slvRgn n = { x with set := x.set ++ [pn] } := slvRgn_modSlv (by simp [hm])
  rw [resyncPage_new hx hset, leaveSync_eq hpage hm hseals, modSlv_eq (slvRgn_modSlv (by simp))]
  exact ⟨_, rfl, Tbl.get_set_self _ _ _ (listed_of_mst (by simp)) _⟩

/-! ### The oldest write -/

/-- MWR_ENQUEUE of a write that is due. -/
theorem mwrEnqueue_yields (hon : s.on = true) (hdelay : s.slv.delay = m :: ms) (hdue : m.at_ + 1000 ≤ s.clock)
    (h : (if State.pageHeld { s.hush with slv := { s.slv with delay := ms } } m then
        if s.slv.parked.length < 4096 then ({ s.hush with slv := { s.slv with delay := ms, parked := s.slv.parked ++ [m] } } : State)
        else State.resyncPage { s.hush with slv := { s.slv with delay := ms } } m.region (pageOf m.line)
      else (State.mwrGo { s.hush with slv := { s.slv with delay := ms } } m).checkSeals) = u) : Yields .mwrEnqueue s u := by
  refine yields_of hon (show exec _ s = execMwrEnqueue s from rfl) ?_
  dsimp only
  split
  case h_1 hnil => exact absurd (hdelay.symm.trans hnil) (by simp)
  case h_2 k ks hk =>
    obtain ⟨rfl, rfl⟩ := List.cons.inj (hk.symm.trans hdelay)
    rw [show s.hush.elapse (k.at_ + 1000) = s.hush from elapse_done hdue]
    exact h

theorem pageHeld_out (hout : s.slv.pagesOut.contains (m.region, some (pageOf m.line)) = true) : s.pageHeld m = true := by
  unfold State.pageHeld
  rw [hout, Bool.or_true]

theorem pageHeld_free (htaken : s.slv.taken = []) (hout : s.slv.pagesOut.contains (m.region, some (pageOf m.line)) = false) : s.pageHeld m = false := by
  unfold State.pageHeld
  rw [hout, htaken]
  rfl

/-- A write held by no page goes on. -/
theorem mwrEnqueue_goes (hon : s.on = true) (hdelay : s.slv.delay = m :: ms) (hdue : m.at_ + 1000 ≤ s.clock) (htaken : s.slv.taken = [])
    (hout : s.slv.pagesOut.contains (m.region, some (pageOf m.line)) = false) (hgo : State.mwrGo { s.hush with slv := { s.slv with delay := ms } } m = u)
    (hseals : u.rng.seals = []) : Yields .mwrEnqueue s u :=
  mwrEnqueue_yields hon hdelay hdue ((if_neg (by rw [pageHeld_free (s := { s.hush with slv := { s.slv with delay := ms } }) htaken hout]; decide)).trans
    ((congrArg State.checkSeals hgo).trans (checkSeals_nil hseals)))

/-- A write of a page that is out waits behind it (R465). -/
theorem mwrEnqueue_parks (hon : s.on = true) (hdelay : s.slv.delay = m :: ms) (hdue : m.at_ + 1000 ≤ s.clock)
    (hout : s.slv.pagesOut.contains (m.region, some (pageOf m.line)) = true) (hroom : s.slv.parked.length < 4096) :
    Yields .mwrEnqueue s { s.hush with slv := { s.slv with delay := ms, parked := s.slv.parked ++ [m] } } :=
  mwrEnqueue_yields hon hdelay hdue ((if_pos (pageHeld_out (s := { s.hush with slv := { s.slv with delay := ms } }) hout)).trans (if_pos hroom))

section
variable (hx : s.slvRgn m.region = x) (hlo : 1 ≤ x.mst) (hhi : x.mst ≤ 3) (hws : ws = m.words (s.region m.region).peer ((s.region m.region).base * 32768) x.gap)
include hx hlo hhi hws

/-- A write with room goes to C1 (R457). -/
theorem mwrGo_sends (hroom : s.slvRoom 1 ws.length = true) (hfirst : (s.slv.tx.waiting.any fun e => e.1 = 1) = false) :
    ∃ p R F, s.mwrGo m = { s with pmc := p, slv := { s.slv with sent := s.slv.sent ++ [m], rgns := R, tx := { s.slv.tx with fifo := F } } }
      ∧ (Tbl.get [] F 1).map Prod.fst = (s.slv.tx.fifo.get [] 1).map Prod.fst ++ ws ∧ Tbl.get {} R m.region = { x with gap := false } := by
  subst hx
  obtain ⟨F, hpush, hF⟩ := push_room (s := s) hroom hfirst (by rw [hws]; simp [Mwr.words, pkt])
  have hR : Tbl.get {} (s.slv.rgns.set {} m.region { s.slvRgn m.region with gap := false }) m.region = { s.slvRgn m.region with gap := false } :=
    Tbl.get_set_self _ _ _ (listed_of_mst (x := { s.slvRgn m.region with gap := false }) (by dsimp only; omega)) _
  refine ⟨(s.count (evSlv 4) 1).pmc, s.slv.rgns.set {} m.region { s.slvRgn m.region with gap := false }, F, ?_, hF, hR⟩
  unfold State.mwrGo
  dsimp only
  rw [if_neg (by simp [hlo, hhi]), ← hws, if_pos hroom, hpush]
  rfl

/-- A write without room leaves its region in RESYNC, with a notice (R458). -/
theorem mwrGo_drops (hroom : s.slvRoom 1 ws.length = false) (hm : x.mst = 3) (hset : x.set.contains (pageOf m.line) = false) (hseals : s.rng.seals = []) :
    ∃ p t R, s.mwrGo m = { s with pmc := p, tap := t, flt := s.flt.enter (Note.words ⟨1, 0x37, m.region, none⟩), slv := { s.slv with rgns := R } }
      ∧ Tbl.get {} R m.region = { x with set := x.set ++ [pageOf m.line], mst := 2, div := if x.div = 0 then m.seq else x.div, gap := true } := by
  obtain ⟨R, heq, hR⟩ := leftBehind_eq (seq := m.seq) hx hm hset hseals
  obtain ⟨t, p, hnote⟩ := note_warn (({ s with slv := { s.slv with rgns := R } } : State).count (evSlv 5) 1) (n := ⟨1, 0x37, m.region, none⟩) (Nat.lt_succ_self 1)
  refine ⟨p, t, R, ?_, hR⟩
  unfold State.mwrGo
  dsimp only
  rw [hx, if_neg (by simp [hlo, hhi]), ← hws, if_neg (by simp [hroom]), heq]
  exact hnote

end

/-! ### Packets received -/

/-- What packets of the classes C1 to C3 need (R461). -/
theorem slvApplies_of (hup : s.slv.l0 = true) (hide : s.slv.ide = true) (hoff : s.slv.pair ≠ .off) (hseek : s.slv.pair ≠ .seek) : s.slvApplies = true := by
  simp [State.slvApplies, hup, hide, hoff, hseek]

/-- With no seal waiting and no region mirrored, a count brings nothing further. -/
theorem still (hseals : t.rng.seals = []) (hrgns : t.slv.rgns = []) : t.checkSeals.tryRdones = t :=
  (congrArg State.tryRdones (checkSeals_nil hseals)).trans (tryRdones_nil hrgns)

/-- MACK counts the leading mirrored writes (R460). -/
theorem takeMack_eq (happ : s.slvApplies = true) (hseals : s.rng.seals = []) (hrgns : s.slv.rgns = []) (h : Nat) (w : Bool) :
    s.takeMack count h w = { s with slv := { s.slv with
      peerHealth := h, peerWithhold := w, mackCount := count, sent := s.slv.sent.drop ((count + 2 ^ 32 - s.slv.mackCount) % 2 ^ 32) } } := by
  have hnone : ∀ f : Seal → Seal, s.rng.seals.map f = s.rng.seals := fun f => by rw [hseals]; rfl
  unfold State.takeMack
  dsimp only
  rw [if_neg (by simp [happ]), hnone]
  exact still hseals hrgns

/-- The device with the one packet that is out counted (R465). -/
def counted (s : State) (count : Nat) : State := { s with slv := { s.slv with rackCount := count, pagesOut := [] } }

/-- RACK of one packet (R465, R466, R469). -/
theorem takeRack_one {p : Nat × Option Nat} (happ : s.slvApplies = true) (hout : s.slv.pagesOut = [p]) (hcount : count = s.slv.rackCount + 1) :
    s.takeRack count = ((counted s count).racked p).tryRdones := by
  have hk : (count + 2 ^ 32 - s.slv.rackCount) % 2 ^ 32 = 1 := by omega
  unfold State.takeRack
  dsimp only
  rw [if_neg (by simp [happ]), hk, hout]
  rfl

/-- A resync that its RDONE has ended leaves its region a source in SYNC (R466). -/
theorem racked_rdone (hsrc : (s.region n).isSource = true) (hx : s.slvRgn n = x) :
    s.racked (n, none) = s.modSlv n fun _ => { x with mst := 3, div := 0, copyNext := none, rdone := false } :=
  (if_pos hsrc).trans (modSlv_eq hx)

/-- A source in SYNC sends no pages, so it has no RDONE to send. -/
theorem tryRdone_sync (hsrc : (s.region n).isSource = true) (hm : (s.slvRgn n).mst = 3) : s.tryRdone n = s :=
  if_neg (by simp [State.sendsPages, hsrc, hm])

theorem tryRdones_sync (hrgns : s.slv.rgns = [(n, x)]) (hsrc : (s.region n).isSource = true) (hm : x.mst = 3) : s.tryRdones = s := by
  unfold State.tryRdones
  rw [hrgns]
  exact tryRdone_sync hsrc (by rw [slvRgn_single hrgns]; exact hm)

/-- A page's RACK with no write parked behind it (R465). -/
theorem racked_page (hparked : s.slv.parked = []) : s.racked (n, some pn) = s := by
  show s.unpark n pn = s
  unfold State.unpark
  rw [hparked]
  dsimp only [List.filter_nil, List.foldl_nil]
  rw [← hparked]

theorem takeRack_rdone (happ : s.slvApplies = true) (hrgns : s.slv.rgns = [(n, x)]) (hout : s.slv.pagesOut = [(n, none)]) (hsrc : (s.region n).isSource = true)
    (hcount : count = s.slv.rackCount + 1) : s.takeRack count = (counted s count).modSlv n fun _ => { x with mst := 3, div := 0, copyNext := none, rdone := false } := by
  have hx : (counted s count).slvRgn n = x := slvRgn_single (s := s) hrgns
  rw [takeRack_one happ hout hcount, racked_rdone (s := counted s count) hsrc hx]
  exact tryRdones_sync (modSlv_single (s := counted s count) hrgns (by simp)) hsrc rfl

theorem takeRack_page (happ : s.slvApplies = true) (hrgns : s.slv.rgns = []) (hout : s.slv.pagesOut = [(n, some pn)]) (hparked : s.slv.parked = [])
    (hcount : count = s.slv.rackCount + 1) : s.takeRack count = counted s count := by
  rw [takeRack_one happ hout hcount, racked_page (s := counted s count) hparked]
  exact tryRdones_nil hrgns

/-- A page of a session that has begun leaves the window's state but for COMPLETE (R466). -/
theorem notFresh_eq (h : x.fresh = false) (a b : Bool) (k : Nat) :
    ({ x with complete := false, fresh := false, mst := if x.fresh && a && b then k else x.mst } : SlvRgn) = { x with complete := false } := by
  cases x
  dsimp only at h
  subst h
  rfl

/-- What an RPAGE of a page of poison writes: 64 full lines (R466, R484). -/
def poisonPage (s : State) (serial base page : Nat) : State :=
  (List.range 64).foldl (fun (t : State) i => t.route
    { src := .partner serial, kind := .devWr, line := (base * 512 + page) * 64 + i, data := 0, mask := fullMask, poison := true, be := true, low := 5 }) s

/-- The device with the serial of a resync packet taken. -/
def paged (s : State) : State :=
  { s with slv := { s.slv with rx := { s.slv.rx with serial := s.slv.rx.serial + 1, pages := s.slv.rx.pages ++ [s.slv.rx.serial] } } }

section
variable {mreg page ses : Nat} (happ : s.slvApplies = true) (hrun : s.vlt.stopped = false)
include happ hrun

theorem takeRpage_stale {form : Nat} {data : List (Nat × Line)} (h : ses ≠ s.slv.session) : s.takeRpage mreg form page ses data = s.note ⟨1, 0x35, 0x30, none⟩ :=
  (if_neg (by simp [happ, hrun])).trans (if_pos h)

theorem takeRdone_stale (h : ses ≠ s.slv.session) : s.takeRdone mreg ses = s.note ⟨1, 0x35, 0x31, none⟩ :=
  (if_neg (by simp [happ, hrun])).trans (if_pos h)

section
variable (hses : ses = s.slv.session) (hmir : (s.region mreg).isMirror = true) (hm : (s.slvRgn mreg).mst ≠ 5)
include hses hmir hm

/-- A page of poison in a session that has begun (R466). -/
theorem takeRpage_poison {data : List (Nat × Line)} (hpage : page < (s.region mreg).size * 512) (hfresh : (s.slvRgn mreg).fresh = false) :
    s.takeRpage mreg 2 page ses data
      = (poisonPage ((paged s).modSlv mreg fun x => { x with complete := false }) s.slv.rx.serial (s.region mreg).base page).countApplied := by
  have hrec : (s.receivesPages mreg && decide (page < (s.region mreg).size * 512)) = true := by simp [State.receivesPages, hmir, hm, hpage]
  have hstate : ((paged s).modSlv mreg fun x => { x with
        complete := false, fresh := false
        mst := if x.fresh && (s.region mreg).isMirror && (x.peerMst = 1 || x.peerMst = 2 || x.peerMst = 7) then x.peerMst else x.mst })
      = (paged s).modSlv mreg fun x => { x with complete := false } :=
    modSlv_congr (notFresh_eq (x := s.slvRgn mreg) hfresh _ _ _)
  refine (if_neg (by simp [happ, hrun])).trans ((if_neg (not_not.mpr hses)).trans ((if_neg (by rw [hrec]; decide)).trans ?_))
  exact congrArg (fun t => (poisonPage t s.slv.rx.serial (s.region mreg).base page).countApplied) hstate

/-- RDONE makes the window SYNC and COMPLETE (R466). -/
theorem takeRdone_eq : s.takeRdone mreg ses = ((paged s).modSlv mreg fun x => { x with
    mst := 3, complete := true, held := false, div := if (s.region mreg).isSource then 0 else x.div }).countApplied := by
  have hrec : s.receivesPages mreg = true := by simp [State.receivesPages, hmir, hm]
  exact (if_neg (by simp [happ, hrun])).trans ((if_neg (not_not.mpr hses)).trans (if_neg (by rw [hrec]; decide)))

end

end

/-- Counting what has been applied changes the receiver's counts alone (R459). -/
theorem countApplied_eq (t : State) : ∃ a b c d, t.countApplied = { t with slv := { t.slv with rx := { t.slv.rx with mwrs := a, macks := b, pages := c, racks := d } } } :=
  ⟨_, _, _, _, rfl⟩

/-! ### Pages of a resync sent -/

/-- A region with a page left to take has no RDONE to send. -/
theorem tryRdone_open (h : (s.slvRgn n).set ≠ []) : s.tryRdone n = s :=
  if_neg (by simp [State.setEmpty, h])

theorem sendPage_none (h : s.slv.taken = []) : s.sendPage n pn = s := by
  unfold State.sendPage
  rw [h]
  rfl

/-- A page as resync takes it, with the form and content f and no mirrored write before it (R465). -/
def takeOf (n pn : Nat) (f : Nat × PageData) : RpTake := ⟨n, pn, f.1, f.2, []⟩

theorem takeOf_form (n pn : Nat) (f : Nat × PageData) : (takeOf n pn f).form = f.1 := rfl

theorem takeOf_data (n pn : Nat) (f : Nat × PageData) : (takeOf n pn f).data = f.2 := rfl

/-- The device with a page of a region taken, whose mirror state is then y. -/
def pageTaken (s : State) (n pn : Nat) (y : SlvRgn) : State :=
  { s with slv := { s.slv with rgns := s.slv.rgns.set {} n y, taken := [takeOf n pn (s.pageForm n pn)] } }

section
variable {qn : Nat} (hx : s.slvRgn n = x) (hcopy : x.copyNext = none) (hset : x.set = [pn, qn]) (hne : qn ≠ pn) (htaken : s.slv.taken = [])
include hx hset

theorem inResync_listed : s.inResync n pn = true := by
  simp [State.inResync, hx, hset]

include hcopy hne htaken

/-- The first of two pages of a resync set is taken (R465). -/
theorem takePage_eq (hdelay : s.slv.delay = []) (hsent : s.slv.sent = []) (hparked : s.slv.parked = []) : s.takePage n pn = pageTaken s n pn { x with set := [qn] } := by
  have hleft : (s.modSlv n fun x => { x with
      set := x.set.filter fun p => p ≠ pn
      copyNext := match x.copyNext with
        | some p => if p = pn - (s.region n).base * 512 then some (p + 1) else some p
        | none => none }) = s.modSlv n fun _ => { x with set := [qn] } := by
    refine modSlv_congr ?_
    rw [hx, hset, hcopy]
    simp [hne, ← hcopy]
  have hnone : ((s.slv.sent ++ s.slv.parked ++ s.slv.delay).filter fun m => m.region = n).map (fun m => m.id) = [] := by
    rw [hsent, hparked, hdelay]; rfl
  unfold State.takePage
  dsimp only
  rw [hnone]
  refine (congrArg (fun t : State => ({ t with slv := { t.slv with taken := t.slv.taken ++ [takeOf n pn (s.pageForm n pn)] } } : State)) hleft).trans ?_
  dsimp only [State.modSlv]
  rw [htaken]
  rfl

end

/-- The one page taken goes out once nothing is before it and C3 has room (R465). -/
theorem sendPage_goes {k : RpTake} (htaken : t.slv.taken = [k]) (hk : k.region = n ∧ k.page = pn) (hwaits : k.waits = []) (hout : t.slv.pagesOut = [])
    (hws : ws = rpageWords (t.region n).peer k.form (pn - (t.region n).base * 512) t.slv.session k.data)
    (hroom : t.slvRoom 3 ws.length = true) (hfirst : (t.slv.tx.waiting.any fun e => e.1 = 3) = false) :
    ∃ p F, t.sendPage n pn = { t with pmc := p, slv := { t.slv with taken := [], pagesOut := [(n, some pn)], tx := { t.slv.tx with fifo := F } } }
      ∧ (Tbl.get [] F 3).map Prod.fst = (t.slv.tx.fifo.get [] 3).map Prod.fst ++ ws := by
  obtain ⟨F, hpush, hF⟩ := push_room (s := t) (c := 3) hroom hfirst (by rw [hws]; exact List.cons_ne_nil _ _)
  refine ⟨(t.count (evSlv 8) 1).pmc, F, ?_, hF⟩
  have hfree : ¬ (t.pageWaits k || decide (256 ≤ (t.slv.pagesOut.filter fun p => p.2.isSome).length) || ! t.slvRoom 3 ws.length) = true := by
    rw [hroom, hout]
    simp [State.pageWaits, hwaits]
  have hfind : (t.slv.taken.find? fun t => t.region = n && t.page = pn) = some k := by
    rw [htaken]
    simp [hk]
  unfold State.sendPage
  split
  case h_1 hnone => exact absurd (hfind.symm.trans hnone) (by simp)
  case h_2 k' hk' =>
    obtain rfl : k' = k := Option.some.inj (hk'.symm.trans hfind)
    dsimp only
    rw [← hws, if_neg hfree, hpush]
    have herase : t.slv.taken.erase k' = [] := by
      rw [htaken]
      exact List.erase_cons_head ..
    show ({ t with pmc := _, slv := { t.slv with taken := t.slv.taken.erase k', pagesOut := t.slv.pagesOut ++ [(n, some pn)], tx := { t.slv.tx with fifo := F } } } : State) = _
    rw [herase, hout]
    rfl

/-- A page just taken goes out at once. -/
theorem sendPage_taken {y : SlvRgn} (htaken : s.slv.taken = []) (hout : s.slv.pagesOut = [])
    (hws : ws = rpageWords (s.region n).peer (s.pageForm n pn).1 (pn - (s.region n).base * 512) s.slv.session (s.pageForm n pn).2)
    (hroom : s.slvRoom 3 ws.length = true) (hfirst : (s.slv.tx.waiting.any fun e => e.1 = 3) = false) :
    ∃ p F, (pageTaken s n pn y).sendPage n pn = { s with pmc := p, slv := { s.slv with
        rgns := s.slv.rgns.set {} n y, pagesOut := [(n, some pn)], tx := { s.slv.tx with fifo := F } } }
      ∧ (Tbl.get [] F 3).map Prod.fst = (s.slv.tx.fifo.get [] 3).map Prod.fst ++ ws := by
  obtain ⟨p, F, hsend, hF⟩ := sendPage_goes (t := pageTaken s n pn y) (k := takeOf n pn (s.pageForm n pn)) rfl ⟨rfl, rfl⟩ rfl hout
    (by rw [takeOf_form, takeOf_data]; exact hws) hroom hfirst
  refine ⟨p, F, hsend.trans ?_, hF⟩
  rw [← htaken]
  rfl

theorem readPage_near (h : ∀ a, (s.page pn).place ≠ .t3 a) : s.readPage n pn = s.takePage n pn := by
  unfold State.readPage
  split
  case h_1 a ha => exact absurd ha (h a)
  case h_2 => rfl

theorem readPage_beam {a : Nat} (h : (s.page pn).place = .t3 a) (hreading : s.slv.reading = []) :
    s.readPage n pn = State.beamRead { s with slv := { s.slv with reading := [(n, pn)] } } a 5 false := by
  unfold State.readPage
  split
  case h_1 b hb =>
    obtain rfl : b = a := Place.t3.inj (hb.symm.trans h)
    rw [hreading]
    rfl
  case h_2 hother => exact absurd h (hother a)

/-- A beam read leaves the selvedge link as it is. -/
theorem beamRead_slv (s : State) (a p : Nat) (gc : Bool) : (s.beamRead a p gc).slv = s.slv := by
  obtain ⟨_, _, _, _, _, _, h⟩ := beamRead_eq s a p gc
  rw [h]

section
variable {page qn : Nat} (hon : s.on = true) (hp : s.slv.pair = .paired) (hx : s.slvRgn n = x) (hsrc : (s.region n).isSource = true) (hm : x.mst = 2)
  (hcopy : x.copyNext = none) (hpage : page < (s.region n).size * 512) (hpn : pn = (s.region n).base * 512 + page) (hne : qn ≠ pn) (hset : x.set = [pn, qn])
  (htaken : s.slv.taken = [])
include hon hp hx hsrc hm hpage hpn hset htaken

theorem resyncPageSend_yields (h : ((s.hush.readPage n pn).sendPage n pn).tryRdone n = u) : Yields (.resyncPageSend n page) s u := by
  subst hpn
  refine yields_when hon (show exec _ s = execResyncPageSend n page s from rfl) ?_ ?_
  · show (s.slv.pair = .paired && s.sendsPages n && decide (page < (s.region n).size * 512)) = true
    simp [hp, hpage, State.sendsPages, hsrc, hx, hm]
  · have htakes : (s.inResync n ((s.region n).base * 512 + page) && ! (s.slv.taken.any fun t => t.region = n && t.page = (s.region n).base * 512 + page)) = true := by
      rw [inResync_listed hx hset, htaken]; rfl
    exact (congrArg (fun t : State => (t.sendPage n ((s.region n).base * 512 + page)).tryRdone n) (if_pos htakes)).trans h

theorem resyncPageSend_beam {a : Nat} (hplace : (s.page pn).place = .t3 a) (hreading : s.slv.reading = []) :
    Completes (.resyncPageSend n page) s fun u =>
      u.slv = { s.slv with reading := [(n, pn)] } ∧ u = State.beamRead { s.hush with slv := { s.slv with reading := [(n, pn)] } } a 5 false := by
  have hslv := beamRead_slv { s.hush with slv := { s.slv with reading := [(n, pn)] } } a 5 false
  refine ⟨_, resyncPageSend_yields hon hp hx hsrc hm hpage hpn hset htaken ?_, hslv, rfl⟩
  rw [readPage_beam (s := s.hush) hplace hreading]
  have hopen : ((State.beamRead { s.hush with slv := { s.slv with reading := [(n, pn)] } } a 5 false).slvRgn n).set ≠ [] := by
    unfold State.slvRgn
    rw [hslv]
    show (s.slvRgn n).set ≠ []
    rw [hx, hset]
    simp
  exact (congrArg (fun t : State => t.tryRdone n) (sendPage_none ((congrArg Slv.taken hslv).trans htaken))).trans (tryRdone_open hopen)

include hcopy hne

theorem resyncPageSend_near (hdelay : s.slv.delay = []) (hsent : s.slv.sent = []) (hparked : s.slv.parked = []) (hout : s.slv.pagesOut = [])
    (hws : ws = rpageWords (s.region n).peer (s.pageForm n pn).1 page s.slv.session (s.pageForm n pn).2)
    (hroom : s.slvRoom 3 ws.length = true) (hfirst : (s.slv.tx.waiting.any fun e => e.1 = 3) = false) (hplace : ∀ a, (s.page pn).place ≠ .t3 a) :
    Completes (.resyncPageSend n page) s fun u => u.slvRgn n = { x with set := [qn] } ∧ u.slv.pagesOut = [(n, some pn)]
      ∧ (u.slv.tx.fifo.get [] 3).map Prod.fst = (s.slv.tx.fifo.get [] 3).map Prod.fst ++ ws
      ∧ u = { s with out := [], pmc := u.pmc, slv := { s.slv with rgns := u.slv.rgns, pagesOut := u.slv.pagesOut, tx := { s.slv.tx with fifo := u.slv.tx.fifo } } } := by
  have hoff : pn - (s.region n).base * 512 = page := by omega
  obtain ⟨p, F, hsend, hF⟩ := sendPage_taken (s := s.hush) (n := n) (pn := pn) (y := { x with set := [qn] }) htaken hout
    (hws.trans (by rw [← hoff]; rfl)) hroom hfirst
  have hget : Tbl.get {} (s.slv.rgns.set {} n { x with set := [qn] }) n = { x with set := [qn] } :=
    Tbl.get_set_self _ _ _ (listed_of_mst (x := { x with set := [qn] }) (by simp [hm])) _
  have hopen : (State.slvRgn { s.hush with pmc := p, slv := { s.slv with
      rgns := s.slv.rgns.set {} n { x with set := [qn] }, pagesOut := [(n, some pn)], tx := { s.slv.tx with fifo := F } } } n).set ≠ [] := by
    show (Tbl.get {} (s.slv.rgns.set {} n { x with set := [qn] }) n).set ≠ []
    rw [hget]
    exact List.cons_ne_nil _ _
  have hmade := (congrArg (fun t : State => t.tryRdone n) hsend).trans (tryRdone_open hopen)
  rw [← takePage_eq (s := s.hush) hx hcopy hset hne htaken hdelay hsent hparked, ← readPage_near (s := s.hush) hplace] at hmade
  exact ⟨_, resyncPageSend_yields hon hp hx hsrc hm hpage hpn hset htaken hmade, hget, rfl, hF, rfl⟩

end

/-! ### The packets as commands -/

section
variable (hon : s.on = true) (happ : s.slvApplies = true)
include hon happ

section
variable {mreg o prio : Nat} {full gap : Bool} {mask : Mask} {data : Line} (hrun : s.vlt.stopped = false)
include hrun

/-- A write of the partner for no window of its own is noted and counted (R459). -/
theorem mwr_unmatched (h : (s.region mreg).isMirror = false ∨ (s.slvRgn mreg).mst = 5 ∨ (s.region mreg).size * 32768 ≤ o / 64) :
    Yields (.mwr mreg o full gap prio mask data) s
      ((State.note { s.hush with slv := { s.slv with rx := { s.slv.rx with serial := s.slv.rx.serial + 1, mwrs := s.slv.rx.mwrs ++ [s.slv.rx.serial] } } } ⟨1, 0x33, mreg, none⟩).countApplied) := by
  refine yields_of hon (show exec _ s = execMwr mreg o full gap prio mask data s from rfl) ((if_neg ?_).trans (if_pos ?_))
  · show ¬ (! s.slvApplies || s.vlt.stopped) = true
    simp [happ, hrun]
  · show (! ((s.region mreg).isMirror && (s.slvRgn mreg).mst ≠ 5 && decide (o / 64 < (s.region mreg).size * 32768))) = true
    rcases h with h | h | h <;> simp [h]

/-- A write of the partner is a DEV_WR of the masked bytes (R459). -/
theorem mwr_written (hmir : (s.region mreg).isMirror = true) (hm : (s.slvRgn mreg).mst ≠ 5) (ho : o / 64 < (s.region mreg).size * 32768) :
    Yields (.mwr mreg o full false prio mask data) s
      ((State.route { s.hush with slv := { s.slv with rx := { s.slv.rx with serial := s.slv.rx.serial + 1, mwrs := s.slv.rx.mwrs ++ [s.slv.rx.serial] } } }
        { src := .partner s.slv.rx.serial, kind := .devWr, line := (s.region mreg).base * 32768 + o / 64, data := data, mask := if full = true then fullMask else mask
          be := prio = 1 }).countApplied) := by
  refine yields_of hon (show exec _ s = execMwr mreg o full false prio mask data s from rfl) ((if_neg ?_).trans (if_neg ?_))
  · show ¬ (! s.slvApplies || s.vlt.stopped) = true
    simp [happ, hrun]
  · show ¬ (! ((s.region mreg).isMirror && (s.slvRgn mreg).mst ≠ 5 && decide (o / 64 < (s.region mreg).size * 32768))) = true
    simp [hmir, hm, ho]

end

theorem mack_yields (hseals : s.rng.seals = []) (hrgns : s.slv.rgns = []) (h : Nat) (w : Bool) :
    Yields (.mack count h w) s { s.hush with slv := { s.slv with
      peerHealth := h, peerWithhold := w, mackCount := count, sent := s.slv.sent.drop ((count + 2 ^ 32 - s.slv.mackCount) % 2 ^ 32) } } :=
  yields_of hon (show exec _ s = execMack count h w s from rfl) (takeMack_eq (s := s.hush) happ hseals hrgns h w)

theorem rack_rdone (hrgns : s.slv.rgns = [(n, x)]) (hout : s.slv.pagesOut = [(n, none)]) (hsrc : (s.region n).isSource = true) (hcount : count = s.slv.rackCount + 1) :
    Completes (.rack count) s fun u => u.slvRgn n = { x with mst := 3, div := 0, copyNext := none, rdone := false }
      ∧ u = { s with out := [], slv := { s.slv with rackCount := count, pagesOut := [], rgns := u.slv.rgns } } :=
  ⟨_, yields_of hon (show exec _ s = execRack count s from rfl) (takeRack_rdone (s := s.hush) happ hrgns hout hsrc hcount),
    slvRgn_modSlv (s := counted s.hush count) (by simp), rfl⟩

theorem rack_page (hrgns : s.slv.rgns = []) (hout : s.slv.pagesOut = [(n, some pn)]) (hparked : s.slv.parked = []) (hcount : count = s.slv.rackCount + 1) :
    Yields (.rack count) s (counted s.hush count) :=
  yields_of hon (show exec _ s = execRack count s from rfl) (takeRack_page (s := s.hush) happ hrgns hout hparked hcount)

theorem rdone_completes {mreg ses : Nat} (hrun : s.vlt.stopped = false) (hses : ses = s.slv.session) (hmir : (s.region mreg).isMirror = true) (hm : (s.slvRgn mreg).mst ≠ 5) :
    Completes (.rdone mreg ses) s fun u =>
      u.slvRgn mreg = { s.slvRgn mreg with mst := 3, complete := true, held := false, div := if (s.region mreg).isSource = true then 0 else (s.slvRgn mreg).div }
      ∧ u = { s with out := [], slv := { s.slv with
        rgns := u.slv.rgns
        rx := { s.slv.rx with serial := s.slv.rx.serial + 1, mwrs := u.slv.rx.mwrs, macks := u.slv.rx.macks, pages := u.slv.rx.pages, racks := u.slv.rx.racks } } } := by
  obtain ⟨a, b, c, d, hcounts⟩ := countApplied_eq ((paged s.hush).modSlv mreg fun x => { x with
    mst := 3, complete := true, held := false, div := if (s.region mreg).isSource then 0 else x.div })
  refine ⟨_, yields_of hon (show exec _ s = execRdone mreg ses s from rfl) ((takeRdone_eq (s := s.hush) happ hrun hses hmir hm).trans hcounts), ?_, rfl⟩
  exact Tbl.get_set_self _ _ _ (listed_of_mst (by simp)) _

end

end

/-- Settles O52. That a page with a poisoned line goes out as POISON is the model's reading (log entry 89). -/
theorem mirroredWritesCross : Obligations.MirroredWritesCross := by
  unfold Obligations.MirroredWritesCross
  intro s v hon hv hseals
  subst hv
  refine ⟨fun m ms x hdelay hdue hx hlo hhi => ⟨fun htaken hout ws hws => ⟨fun hroom hfirst => ?_, fun hroom hm hset => ?_⟩, fun hout hroom => ?_⟩,
    fun hup hide hoff hseek => ?_, fun n x page pn qn ws hp hx hsrc hm hcopy hpage hpn hne hset htaken hout hdelay hsent hparked hws hroom hfirst => ⟨fun hplace => ?_, fun a hplace hreading => ?_⟩⟩
  · obtain ⟨p, R, F, hgo, hF, hR⟩ := mwrGo_sends (s := { s.hush with slv := { s.slv with delay := ms } }) hx hlo hhi hws hroom hfirst
    exact ⟨_, mwrEnqueue_goes hon hdelay hdue htaken hout hgo hseals, rfl, hF, hR, rfl⟩
  · obtain ⟨p, t, R, hgo, hR⟩ := mwrGo_drops (s := { s.hush with slv := { s.slv with delay := ms } }) hx hlo hhi hws hroom hm hset hseals
    exact ⟨_, mwrEnqueue_goes hon hdelay hdue htaken hout hgo hseals, hR, rfl, rfl⟩
  · exact mwrEnqueue_parks hon hdelay hdue hout hroom
  · have happ := slvApplies_of hup hide hoff hseek
    refine ⟨fun hrun mreg r o full gap prio mask data hr => ⟨fun h => ?_, fun hmir hm ho => ?_⟩, fun hrgns count h w => mack_yields hon happ hseals hrgns h w,
      fun n x hrgns hout hsrc count hcount _ => rack_rdone hon happ hrgns hout hsrc hcount,
      fun n pn hrgns hout hparked count hcount _ => rack_page hon happ hrgns hout hparked hcount, fun hrun mreg page ses r hr => ⟨fun hses => ⟨fun form data => ?_, ?_⟩,
      fun hses hmir hm hpage => ⟨fun data hfresh => ?_, ?_⟩⟩⟩ <;> subst hr
    · exact mwr_unmatched hon happ hrun h
    · exact mwr_written hon happ hrun hmir hm ho
    · exact yields_of hon (show exec _ s = execRpage mreg form page ses data s from rfl) (takeRpage_stale (s := s.hush) happ hrun hses)
    · exact yields_of hon (show exec _ s = execRdone mreg ses s from rfl) (takeRdone_stale (s := s.hush) happ hrun hses)
    · exact yields_of hon (show exec _ s = execRpage mreg 2 page ses data s from rfl) (takeRpage_poison (s := s.hush) happ hrun hses hmir hm hpage hfresh)
    · exact rdone_completes hon happ hrun hses hmir hm
  · exact resyncPageSend_near hon hp hx hsrc hm hcopy hpage hpn hne hset htaken hdelay hsent hparked hout hws hroom hfirst hplace
  · exact resyncPageSend_beam hon hp hx hsrc hm hpage hpn hset htaken hplace hreading

end Sys2Proof.Proofs.MirroredWrites
end
